-- ==== Sys2Proof/Word.lean ====
section
/-! DEFINITION. The word types of the TN-6300 and their plainest arithmetic: byte lists in the manual's
most-significant-byte-first order (R5) and the saturating increment of the manual's saturating counters. -/

namespace Sys2Proof

/-- One byte. -/
abbrev Byte := BitVec 8

/-- A half word, 16 bits. -/
abbrev Half := BitVec 16

/-- One 32-bit register or instruction word. -/
abbrev Word := BitVec 32

/-- A 64-bit value, such as train time (R157) or a node ID (R422). -/
abbrev DWord := BitVec 64

/-- A byte string, first byte first. -/
abbrev Bytes := List Byte

end Sys2Proof
end

