-- ==== Sys2Proof/Syntax.lean ====
section
/-! DEFINITION. The commands of the TN-6300 (spec/opcode_table.json), one constructor of `Instr` per row, with the
operands the manual's rules give each event, and the types those operands have. An operand `t` is the instant of the
event in ns after the start of the cycle in progress (notes/assumptions/3.md). A grid action names its entry of the
image's grid table by index (R86); `none` is the train frame engine's or the field logic's own action in the bring-up
cycle (R74, R183). -/

namespace Sys2Proof

/-- The two backbone lines (01). -/
inductive Line | a | b
deriving DecidableEq, Repr

/-- The command paths of R468 and Table 18.1. -/
inductive Path | host | backbone | e0
deriving DecidableEq, Repr

/-- The position of an input against its thresholds (R324). -/
inductive Comparator | below | band | above
deriving DecidableEq, Repr

/-- The header of a Hinge frame, Table 5.2; the subtype is the command's own row. -/
structure HingeHdr where
  version : Byte
  srcId   : DWord
  icount  : Word
  flags   : Byte
  hops    : Byte
  mseq    : Half
deriving DecidableEq, Repr

/-- A discovery record, Table 5.6. -/
structure DiscRec where
  nodeId    : DWord
  profileFp : Word
  imgVer    : Half
  flags     : Byte
  wlen      : Byte
  cdlyA     : Half
  cdlyB     : Half
deriving DecidableEq, Repr

/-- A record of the Train Topology Record, Table 5.8. -/
structure TtrRec where
  nodeId : DWord
  number : Byte
  flags  : Byte
  status : Byte
  wlen   : Byte
  cdlyA  : Half
  cdlyB  : Half
  imgVer : Half
deriving DecidableEq, Repr

/-- A Train Topology Record: the body header of Table 5.7 and its records in position order. -/
structure Ttr where
  rev       : Byte
  flags     : Byte
  refCause  : Byte
  profileFp : Word
  topoHash  : Word
  switchDly : Word
  adoptCyc  : Half
  originId  : DWord
  recs      : List TtrRec
deriving DecidableEq, Repr

/-- The body of an `ADMIT_REQ`, Table 5.3: the two request bits, the record, the line-A neighbours at the front and
rear side, and the four cable delays A front, A rear, B front, B rear. -/
structure AdmitReq where
  late      : Bool
  update    : Bool
  own       : DiscRec
  frontNbr  : DWord
  rearNbr   : DWord
  dlyAFront : Half
  dlyARear  : Half
  dlyBFront : Half
  dlyBRear  : Half
deriving DecidableEq, Repr

/-- The commands: one constructor per row of spec/opcode_table.json, family by family; those without
operands, whose instant the state fixes, stand last. -/
inductive Instr
  -- power entry, clocks and node states (02, 03, 10)
  | seatedConfirm (t : Nat)
  | removal (t : Nat)
  | supplyLoss (t : Nat)
  | flushDone (t : Nat)
  | converterStop (t : Nat)
  | holdupMeasure (t : Nat) (microFarad : Half)
  | relaySenseMismatch (t : Nat) (line : Line)
  | powerGood (t : Nat)
  | powerGoodTimeout (t : Nat)
  | regulatorAttempt (t : Nat)
  | pllLocked (t : Nat)
  | pllLockTimeout (t : Nat)
  | pllRetry (t : Nat)
  | pllLockLoss (t : Nat) (deviation : Half) (crystalStopped : Bool)
  | pllLockRegained (t : Nat)
  | domainSwitchTimeout (t : Nat) (domain : Nat)
  | noImageTimeout (t : Nat)
  | warmResetEnd (t : Nat)
  | sleepMinDwell (t : Nat)
  | quiesceDone (t : Nat)
  | quiesceCut (t : Nat)
  | opsecTick (t : Nat)
  | cfgStore (t : Nat)
  -- the cycle and the grid actions (04)
  | sample (entry : Option Nat) (group : Fin 4) (volts : Bytes)
  | update (entry : Nat)
  | count (entry : Nat)
  | measure (entry : Nat)
  | tfLaunch (entry : Option Nat)
  | tfSnap (entry : Option Nat) (wakeIn : Bool)
  | tfRead (entry : Option Nat)
  | vnStart (entry : Nat)
  | vnCommit (entry : Nat)
  | vnRead (entry : Nat)
  | pwrOn (entry : Nat)
  | pwrOff (entry : Nat)
  | pwrLow (entry : Nat)
  | dma (entry : Nat)
  | chkpCopy (entry : Nat)
  | task (entry : Nat)
  | benchSlot (entry : Nat)
  | benchRequestEnd (t : Nat) (pass : Bool) (detail : Word)
  -- the Hinge (05)
  | linkUp (t : Nat) (port : Fin 4) (neighbour : DWord)
  | linkDown (t : Nat) (port : Fin 4)
  | linkDownWaitEnd (t : Nat) (port : Fin 4)
  | lineDown2s (t : Nat) (port : Fin 4)
  | step (t : Nat) (port : Fin 4) (hdr : HingeHdr) (nodeState : Byte)
  | stepAck (t : Nat) (port : Fin 4) (hdr : HingeHdr) (nodeState : Byte) (master : Bool)
  | stepLinkDrop (t : Nat) (port : Fin 4)
  | stepComplete (t : Nat) (port : Fin 4)
  | stepTimeout (t : Nat) (port : Fin 4)
  | stepRetry (t : Nat) (port : Fin 4)
  | relayBDrive (t : Nat)
  | openSideStart (t : Nat) (front : Bool)
  | bringupLinkWait (t : Nat)
  | start (t : Nat) (port : Fin 4) (hdr : HingeHdr) (cause : Byte)
  | probe (t : Nat) (port : Fin 4) (hdr : HingeHdr) (senderPort : Byte) (nodeState : Byte) (hash : Word)
      (profileFp : Word) (residence : Word)
  | probeRsp (t : Nat) (port : Fin 4) (hdr : HingeHdr) (responderPort : Byte) (hingeState : Byte) (echoed : Half)
      (hash : Word) (residence : Word) (roundTrip : Nat) (cab : Bool)
  | probeInterval (t : Nat)
  | probingEnd (t : Nat) (cab : Bool)
  | discover (t : Nat) (port : Fin 4) (hdr : HingeHdr) (overflow : Bool) (recs : List DiscRec) (cab : Bool)
  | ttr (t : Nat) (port : Fin 4) (hdr : HingeHdr) (body : Ttr) (residence : Nat)
  | admitReq (t : Nat) (port : Fin 4) (hdr : HingeHdr) (req : AdmitReq)
  | admitRef (t : Nat) (port : Fin 4) (hdr : HingeHdr) (refusedId : DWord) (reason : Byte)
  | originAmendment (t : Nat)
  | admitResend (t : Nat) (cab : Bool)
  | admitReprobe (t : Nat)
  | inaugAttemptTimeout (t : Nat) (phase : Byte)
  | failedRetry (t : Nat)
  -- the train frame and the message window (06, 07)
  | tfOutbound (t : Nat) (line : Line) (payload : Bytes) (fcsGood : Bool)
  | tfCandidate (t : Nat) (line : Line) (payload : Bytes) (fcsGood : Bool) (returnSfd : Nat)
  | msgFrameRx (t : Nat) (port : Fin 4) (payload : Bytes)
  | msgTxDone (t : Nat) (port : Fin 4)
  -- the vehicle network (08)
  | vnFrameRx (t : Nat) (branch : Fin 12) (frame : Bytes) (fcsGood : Bool)
  | guardianCutPoint (t : Nat) (branch : Fin 12)
  | branchBurst (t : Nat) (branch : Fin 12)
  | vnSlotTx (t : Nat) (slot : Fin 64)
  | branchLinkUp (t : Nat) (branch : Fin 12)
  | branchLinkDown (t : Nat) (branch : Fin 12)
  -- the equipment ports (09)
  | eqLinkUp (t : Nat) (port : Fin 4) (speed : Fin 3)
  | eqLinkDown (t : Nat) (port : Fin 4)
  | eqAutonegFail (t : Nat) (port : Fin 4)
  | eqFrameRx (t : Nat) (port : Fin 4) (frame : Bytes) (fcsGood : Bool)
  | eqTxDone (t : Nat) (port : Fin 4)
  | pauseTimerExpiry (t : Nat) (port : Fin 4) (queue : Fin 8)
  | pfcRefresh (t : Nat) (port : Fin 4)
  -- wake (10)
  | wakePatternMatch (t : Nat) (port : Fin 4) (frame : Bytes)
  | wakeInDetect (t : Nat)
  | wakeChannelDetect (t : Nat)
  | burstReceived (t : Nat) (burst : Word)
  | lineCheckEnd (t : Nat) (activity : Bool) (pulses : Bool)
  | burstListenTimeout (t : Nat)
  | wakeBurstSend (t : Nat)
  | burstQuiet (t : Nat)
  -- field channels (11)
  | inputThresholdCrossing (t : Nat) (channel : Fin 32) (level : Comparator)
  | dipsSinkOn (t : Nat) (channel : Fin 32)
  | dipsSinkOff (t : Nat) (channel : Fin 32)
  | currentLimit (t : Nat) (channel : Fin 32)
  | thermalCutoff (t : Nat) (channel : Fin 32)
  | thermalRelease (t : Nat) (channel : Fin 32)
  | openLoadDetect (t : Nat) (channel : Fin 32)
  | openLoadClear (t : Nat) (channel : Fin 32)
  | couplerLoss (t : Nat) (channel : Fin 32)
  | couplerRestore (t : Nat) (channel : Fin 32)
  | groupSupplyLow (t : Nat) (group : Fin 4)
  | groupSupplyRestore (t : Nat) (group : Fin 4)
  | forceTimeout (t : Nat) (channel : Fin 32)
  -- supplies, temperature (12)
  | supplySample (t : Nat) (bat : BitVec 12) (iin : BitVec 12) (hu : BitVec 12)
  | overvoltage1s (t : Nat)
  | unAutoSelect (t : Nat)
  | auxSample (t : Nat) (quantity : Byte) (value : Half)
  | tempLevelChange (t : Nat) (sensor : Fin 3) (reading : Half)
  | tempSensorStuck (t : Nat) (sensor : Fin 3) (reading : Half)
  -- cores (04, 15)
  | coreCheckFail (t : Nat) (cause : BitVec 7)
  | takeoverStepDone (t : Nat) (pass : Bool) (detail : Word)
  | rxcLoadDone (t : Nat)
  | shadowTestDone (t : Nat) (pass : Bool)
  | healthReport (t : Nat)
  | repairRetry (t : Nat)
  | revertHoldoffEnd (t : Nat)
  | revertLoadDone (t : Nat)
  -- images and the NV store (14)
  | imageVerified (t : Nat)
  | imageLoaded (t : Nat)
  | nvOpDone (t : Nat) (verified : Bool)
  -- registers and the host port (16, 17, 18)
  | slowWriteLand (t : Nat)
  | registerWrite (t : Nat) (header : Word) (data : Word) (crc : Byte)
  | rcRead (t : Nat) (header : Word) (crc : Byte)
  | hpAbort (t : Nat) (header : Word) (data : Word) (crc : Byte) (clocks : Nat)
  | cfgDisarm (t : Nat)
  | txtsPop (t : Nat) (port : Fin 4)
  | drawerSelect (t : Nat) (drawer : Fin 2) (value : Word)
  | drawerCursor (t : Nat) (drawer : Fin 2) (value : Word)
  | drawerNext (t : Nat) (drawer : Fin 2)
  | drawerPrev (t : Nat) (drawer : Fin 2)
  | drawerLoadDone (t : Nat) (drawer : Fin 2)
  | hostAlloc (t : Nat) (n : BitVec 3)
  | hostFree (t : Nat) (buf : BitVec 12)
  | hostPost (t : Nat) (buf : BitVec 12) (port : Fin 4) (queue : Fin 8)
  | hostTake (t : Nat) (port : Fin 4)
  | hostOpInvalid (t : Nat) (op : BitVec 4)
  -- host commands (16, 17)
  | commandAccept (t : Nat) (path : Path)
  | inaug (t : Nat) (path : Path) (a0 a1 a2 a3 : Word)
  | nodeReset (t : Nat) (path : Path) (a0 a1 a2 a3 : Word)
  | sleepReq (t : Nat) (path : Path) (a0 a1 a2 a3 : Word)
  | wakeReq (t : Nat) (path : Path) (a0 a1 a2 a3 : Word)
  | shutterSet (t : Nat) (path : Path) (a0 a1 a2 a3 : Word)
  | chForce (t : Nat) (path : Path) (channel : Byte) (a1 a2 a3 : Word)
  | chForceRelease (t : Nat) (path : Path) (channel : Byte) (a1 a2 a3 : Word)
  | orderRelease (t : Nat) (path : Path) (a0 a1 a2 a3 : Word)
  | benchRun (t : Nat) (path : Path) (a0 a1 a2 a3 : Word)
  | chkpSave (t : Nat) (path : Path) (a0 a1 a2 a3 : Word)
  | jrnMark (t : Nat) (path : Path) (a0 a1 a2 a3 : Word)
  | logClearArm (t : Nat) (path : Path) (a0 a2 a3 : Word)
  | logClearOpl (t : Nat) (path : Path) (a2 a3 : Word)
  | logClearInc (t : Nat) (path : Path) (a2 a3 : Word)
  | imgStage (t : Nat) (path : Path) (a0 a1 a2 a3 : Word)
  | nvProgram (t : Nat) (path : Path) (a0 a1 a2 a3 : Word)
  | nvErase (t : Nat) (path : Path) (a0 a1 a2 a3 : Word)
  | imgCommit (t : Nat) (path : Path) (a0 a1 a2 a3 : Word)
  | nvRefresh (t : Nat) (path : Path) (a0 a1 a2 a3 : Word)
  | keyAdd (t : Nat) (path : Path) (a0 a1 a2 a3 : Word)
  | keyRevoke (t : Nat) (path : Path) (a0 a1 a2 a3 : Word)
  -- in-band access (16)
  | openReq (t : Nat) (path : Path) (source : BitVec 48) (pdu : Bytes)
  | openPdu (t : Nat) (path : Path) (source : BitVec 48) (pdu : Bytes)
  | requestPdu (t : Nat) (path : Path) (source : BitVec 48) (pdu : Bytes)
  | closePdu (t : Nat) (path : Path) (source : BitVec 48) (pdu : Bytes)
  | inbandPduVerified (t : Nat)
  | inbandOpenTimeout (t : Nat) (path : Path)
  | inbandIdleTimeout (t : Nat) (path : Path)
  -- JNIS instructions of the active core (13)
  | add (d a b : BitVec 5)
  | sub (d a b : BitVec 5)
  | and (d a b : BitVec 5)
  | or (d a b : BitVec 5)
  | xor (d a b : BitVec 5)
  | nor (d a b : BitVec 5)
  | shl (d a b : BitVec 5)
  | shr (d a b : BitVec 5)
  | sar (d a b : BitVec 5)
  | mul (d a b : BitVec 5)
  | mulh (d a b : BitVec 5)
  | divu (d a b : BitVec 5)
  | remu (d a b : BitVec 5)
  | cmp (d a b : BitVec 5)
  | cmpu (d a b : BitVec 5)
  | min (d a b : BitVec 5)
  | max (d a b : BitVec 5)
  | addi (d a : BitVec 5) (imm : Half)
  | andi (d a : BitVec 5) (imm : Half)
  | ori (d a : BitVec 5) (imm : Half)
  | xori (d a : BitVec 5) (imm : Half)
  | cmpi (d a : BitVec 5) (imm : Half)
  | ldhi (d : BitVec 5) (imm : Half)
  | shfi (d a : BitVec 5) (kind : BitVec 2) (amount : BitVec 5)
  | ldw (d a : BitVec 5) (imm : Half)
  | ldh (d a : BitVec 5) (imm : Half)
  | ldb (d a : BitVec 5) (imm : Half)
  | stw (d a : BitVec 5) (imm : Half)
  | sth (d a : BitVec 5) (imm : Half)
  | stb (d a : BitVec 5) (imm : Half)
  | br (cond : BitVec 5) (imm : Half)
  | loop (a : BitVec 5) (lenH : BitVec 5) (lenL : BitVec 4) (nmax : BitVec 12)
  | call (imm : Half)
  | samp (d a : BitVec 5) (ch : Byte)
  | drv (d a : BitVec 5) (ch : Byte)
  | cntr (d a : BitVec 5) (ch : Byte)
  | meas (d a : BitVec 5) (set : BitVec 4) (item : BitVec 4)
  | tww (d a : BitVec 5) (done : Bool) (w : Byte)
  | twrWindowWord (d a : BitVec 5) (w : Byte)
  | twrWindowHeader (d a : BitVec 5)
  | twrFrameHeader (d : BitVec 5) (w : BitVec 3)
  | vsndWord (d a : BitVec 5) (slot : BitVec 6)
  | vsndComplete (d a : BitVec 5) (slot : BitVec 6)
  | vsndDynamic (d a : BitVec 5)
  | vrcvWord (d a : BitVec 5) (slot : BitVec 6)
  | vrcvStatus (d : BitVec 5) (slot : BitVec 6)
  | vrcvDynamic (d : BitVec 5)
  | mpostSend (d a : BitVec 5) (dst : Byte)
  | mpostTake (d : BitVec 5)
  | balloc (d : BitVec 5) (n : BitVec 4)
  | bfree (d a : BitVec 5)
  | loge (d a : BitVec 5) (inc : Bool) (code : BitVec 12)
  | gate (a : BitVec 5)
  | bench (d a : BitVec 5) (kind : BitVec 4)
  | chkp (d : BitVec 5)
  | waitg (k : Half)
  | asrtX (imm : Half)
  | asrtC (imm : Half)
  | asrtZ (a : BitVec 5) (imm : Half)
  | cyc (d : BitVec 5)
  | tick (d : BitVec 5)
  | tt (d : BitVec 5)
  | node (d : BitVec 5)
  | ordflag (d : BitVec 5)
  | awake (d a : BitVec 5)
  | chkpStat (d : BitVec 5)
  | benchRes (d a : BitVec 5)
  | bufRd (d a b : BitVec 5)
  | bufWr (d a b : BitVec 5)
  | bufSet (d a b : BitVec 5)
  | bufGet (d a : BitVec 5)
  | eqPost (d a b : BitVec 5)
  | eqTake (d b : BitVec 5)
  | eqTxts (d b : BitVec 5)
  -- rows that stand at the table's end
  | domainSettled (t : Nat) (domain : Nat)
  | currentLimitEnd (t : Nat) (channel : Fin 32)
  | tempSensorPlausible (t : Nat) (sensor : Fin 3)
  -- commands without operands
  | cycleStart
  | correctionInterval
  | switchInstant
  | messageWindowStart
  | dynBoundary
  | budgetWatchdog
  | logClearDisarm
  | halt
  | nop
  | illegalInstruction
  | ret
  | tnul
  | limpApply
deriving DecidableEq, Repr

end Sys2Proof
end

