-- ==== Sys2Proof/Decode.lean ====
section
/-! DEFINITION. The block takes commands, not instruction words: no row of spec/opcode_table.json has bits, so no word
spells a command. -/

namespace Sys2Proof

/-- The command a word spells by the table's bits: none, since no row has any. -/
def decodeTableWord (_nbits _w : Nat) : Option Instr := none

end Sys2Proof
end

