-- ==== Sys2Proof/Config.lean ====
section
/-! DEFINITION. What one module fixes and what the manual leaves open: constants without a body, so that no proof can
see a value (notes/assumptions/5.md and 6.md). -/

namespace Sys2Proof.Config

/-- A byte the manual leaves undefined (content lost with a domain, a unit whose program was cut), by the count of
free values drawn and the address. -/
opaque freeByte : Nat → Nat → Byte

/-- A word the manual leaves open, by the count of free values drawn. -/
opaque freeWord : Nat → Word

/-- A choice the manual leaves open, by the count of free values drawn. -/
opaque freeBit : Nat → Bool

/-- A code the manual asks for in an event's data and does not number, by event and by the thing named. -/
opaque eventItem : Nat → Nat → Word

/-- The bank a `MARCH` object names, by its 8 bits: 0-3 a core data bank, 4-11 a frame buffer bank. The manual counts
640 segments and gives the object 8 bits, without a layout. -/
opaque marchBank : Nat → Nat

/-- The slot a DMA address names in the slot transmit buffers and in the vehicle publication: the manual gives the
address no layout there. -/
opaque dmaSlot : Nat → Nat

/-- The byte offset within that slot's body a DMA address names. -/
opaque dmaOffset : Nat → Nat

/-- The node ID in the VPD zone (R422). -/
opaque nodeId : DWord

/-- The base individual address in the VPD zone (R422). -/
opaque baseAddress : BitVec 48

/-- The silicon issue of `GEN_ID` (17). -/
opaque siliconIssue : Byte

/-- The public key the factory programs into key slot 0 (R539). -/
opaque factoryKeyByte : Nat → Byte

/-- The 32 bytes of that key. -/
def factoryKey : Bytes := (List.range 32).map factoryKeyByte

/-- Where the converter stop of this module lies, in mV above its lower limit. -/
opaque converterSpread : Nat

/-- The converter stop voltage in mV: Table 2.5 bounds it below by 12.6 V, and it lies below the start. -/
def converterStop : Nat := 12600 + converterSpread % 1400

/-- The converter start voltage in mV: Table 2.5 bounds it above by 14.4 V, and it lies above the stop. -/
def converterStart : Nat := converterStop + 1 + converterSpread % (14400 - converterStop)

end Sys2Proof.Config
end

