-- ==== Sys2Proof/Machine/State.lean ====
section
/-! DEFINITION. The state of the TN-6300: every register, buffer, counter, mode, latch and pin the manual gives the
node, as plain data, and `State.reset`. Each field's docstring ends in brackets with the file and rule that name it,
its width and its reset value; INVENTORY.md lists the same lines. "log n" is notes/assumptions/n.md. Fields marked
MODEL are the model's own bookkeeping. Resets written "exit from OFF" are the values the manual gives at every exit
from OFF, which the unpowered factory module of R539 already holds. -/

namespace Sys2Proof.Machine

/-! ### Names of the manual -/

/-- The node states of Table 3.4, in code order. -/
inductive NodeState | off | sleep | waking | bringup | run | quiesce | limp | nocore
deriving DecidableEq, Repr

/-- The levels of a power domain (R62). -/
inductive Level | off | low | on
deriving DecidableEq, Repr

/-- The Hinge states of Table 5.1, in code order. -/
inductive HgState | unnumbered | probing | discovering | awaitSwitch | member | solitary | admitting | failed
deriving DecidableEq, Repr

/-- The time modes of Table 6.4, in code order. -/
inductive TimeMode | free | acquire | ensemble | origin | self | holdover
deriving DecidableEq, Repr

/-- The Shutter states of Table 10.4, in code order. -/
inductive ShState | closed | guarded | open_ | closing
deriving DecidableEq, Repr

/-- The branch states of Table 8.7, in the order of `VN_BRANCH` (Table 17.8). -/
inductive BrState | down | listen | integrated | disabled
deriving DecidableEq, Repr

/-- The values of an input's hysteresis memory (R324). -/
inductive Hyst | off | on | undef
deriving DecidableEq, Repr

/-- The temperature levels of R357. -/
inductive TLevel | normal | warn | crit
deriving DecidableEq, Repr

/-- How the own window is ready (R98, R386). -/
inductive WinReady | none | data | null
deriving DecidableEq, Repr

/-! ### The image in service (04, 14) -/

/-- A grid entry, Table 4.1. -/
structure GridEntry where
  tick   : Nat
  kind   : Byte
  target : Half
  param  : Half
  cmask  : DWord
deriving DecidableEq, Repr

/-- The profile, Table 14.3, with its fingerprint (R399). -/
structure Profile where
  tcode      : BitVec 2
  spares     : Byte
  spareWords : Byte
  identify   : Bool
  sleepDwell : Half
  awakeMax   : Half
  trainVid   : Half
  fp         : Word
deriving DecidableEq, Repr

/-- The node parameters, Table 14.4. -/
structure NodeParams where
  wlen       : Byte
  sync       : Bool
  watch      : Bool
  restore    : Bool
  revert     : Bool
  revertHold : Half
  unSel      : Byte
  huClass    : Byte
  shInit     : Byte
  wakeCh     : Byte
  awakeMask  : Byte
  guardMask  : Half
  tempThr    : List Half
deriving DecidableEq, Repr

/-- A task entry, Table 14.5, with its budget, the claimed W of the certificate (R401). -/
structure TaskEntry where
  entry  : Half
  xsig   : Half
  banks  : BitVec 4
  budget : Nat
deriving DecidableEq, Repr

/-- A bench declaration, Table 14.6. -/
structure BenchDecl where
  channels : Word
  branches : BitVec 12
  fb       : Byte
  banks    : BitVec 4
  adc      : BitVec 2
  ports    : BitVec 4
  core     : Bool
deriving DecidableEq, Repr

/-- A DMA descriptor, Table 14.6. -/
structure DmaDesc where
  src     : Byte
  dst     : Byte
  length  : Nat
  srcAddr : Nat
  dstAddr : Nat
deriving DecidableEq, Repr

/-- A standing-order entry, Table 4.6. -/
structure Order where
  cond   : Half
  inst   : Byte
  action : Byte
  obj    : Byte
  val    : Half
deriving DecidableEq, Repr

/-- A dynamic ID of the star configuration, Table 14.7. -/
structure DynId where
  owner    : Byte
  consumer : Byte
  maxLen   : Nat
deriving DecidableEq, Repr

/-- The star configuration, Table 14.7. -/
structure Star where
  layout  : Half
  nS      : Nat
  tS      : Nat
  nM      : Nat
  tM      : Nat
  owners  : List Byte
  ids     : List DynId
deriving DecidableEq, Repr

/-- A wake-pattern filter (R279, Table 14.8). -/
structure WakeFilter where
  pattern : Bytes
  mask    : Bytes
  length  : Nat
deriving DecidableEq, Repr

/-- A perfect-match entry of a port (R264, Table 14.8). -/
structure PmEntry where
  addr     : BitVec 48
  enable   : Bool
  consumer : BitVec 2
deriving DecidableEq, Repr

/-- The configuration of one equipment port, Table 14.8. -/
structure EqCfg where
  pm        : List PmEntry
  hash      : List Word
  bcastEn   : Bool
  promisc   : Bool
  consBcast : BitVec 2
  consHash  : BitVec 2
  consProm  : BitVec 2
  dpri      : BitVec 3
  pfcMask   : Byte
  quota     : Nat
  high      : Nat
  low       : Nat
  speedMask : BitVec 3
  armed     : BitVec 4
  filters   : List WakeFilter
deriving DecidableEq, Repr

/-- A Shutter route entry, Table 10.5. -/
structure Route where
  toSegment : Bool
  tclass    : BitVec 4
  queue     : BitVec 3
  etag      : Bool
  dynamic   : Bool
  seg       : Nat
  vid       : BitVec 12
  node      : Byte
deriving DecidableEq, Repr

/-- An occupancy claim (R400). -/
structure Claim where
  res  : Nat
  pos  : Nat
  from_ : Nat
  upto : Nat
deriving DecidableEq, Repr

/-- A node image as the verifier reads it (R396). -/
structure Image where
  imgVer   : Half
  target   : Byte
  keyslot  : Nat
  length   : Nat
  hash     : Bytes
  profile  : Profile
  node     : NodeParams
  grid     : List GridEntry
  pwrvec   : List (BitVec 256)
  tasks    : List TaskEntry
  code     : List Word
  data     : Bytes
  chklist  : List (Nat × Nat)
  bench    : List BenchDecl
  dma      : List DmaDesc
  orders   : List Order
  meassets : List Bytes
  channels : List (BitVec 14)
  star     : Option Star
  eq       : List EqCfg
  routes   : List Route
  claims   : List Claim
deriving DecidableEq, Repr

/-! ### What the node puts out -/

/-- The body of a Hinge frame, Table 5.3. -/
inductive HingeBody
  | start (cause : Byte)
  | probe (port nodeState : Byte) (hash profileFp : Word)
  | probeRsp (port hingeState : Byte) (echoed : Half) (hash residence : Word)
  | discover (overflow : Bool) (recs : List DiscRec)
  | ttr (body : Ttr)
  | admitReq (req : AdmitReq)
  | admitRef (refusedId : DWord) (reason : Byte)
  | step (nodeState : Byte)
  | stepAck (nodeState : Byte) (master : Bool)
deriving DecidableEq, Repr

/-- A Hinge frame (R127). -/
structure HingeFrame where
  hdr  : HingeHdr
  body : HingeBody
deriving DecidableEq, Repr

/-- What one command made the node transmit or drive; the outputs of the latest command stand in `State.wire`. -/
inductive TxItem
  | hinge (port : Nat) (frame : HingeFrame)
  | train (line : Line) (returning : Bool) (payload : Bytes) (fcsGood : Bool)
  | msg (port : Nat) (payload : Bytes)
  | vehicle (branches : BitVec 12) (sfd : Nat) (frame : Bytes) (whole : Bool)
  | eq (port : Nat) (frame : Bytes) (fcsGood : Bool)
  | pfc (port : Nat) (mask : Byte) (time : Half)
  | burst (bits : Word)
  | hostPort (status : Byte) (data : Word)
deriving DecidableEq, Repr

/-! ### Power, clocks, node state (02, 03, 10) -/

/-- One power domain (R62, R63). -/
structure Dom where
  /-- The level its controller calls for. [03 R63 | 2 bits | OFF (R69)] -/
  ctrl : Level := .off
  /-- Its actual level, shown in `PWR_STATE` and `PWR_LOW`. [03 R68, R69 | 2 bits | OFF (R69)] -/
  act : Level := .off
  /-- Held `OFF` by a standing order. [04 R111 | 1 bit | 0 (R111: no hold)] -/
  hold : Bool := false
deriving DecidableEq, Repr

/-- The wake-source record of `PWR_WAKE_SRC` (17). -/
structure WakeSrc where
  cause   : Byte
  channel : BitVec 5
  port    : BitVec 2
  filter  : BitVec 2
deriving DecidableEq, Repr

/-- A removal flush in progress (R34): its first cause and whether the other trigger arrived too (R37). -/
structure Flush where
  cause  : Half
  second : Bool
  /-- Operating seconds and power-cycle count at the trigger, for the record of the cause (R511). -/
  opsec  : Word
deriving DecidableEq, Repr

/-- The stage of the wake flood of R300. -/
inductive FloodStage | none | check | listen | bursts | quiet
deriving DecidableEq, Repr

/-- Copies of the slow-domain registers, held while `SLOW_CLK` is stopped (R60, R459). -/
structure SlowCopy where
  opsec    : Word
  pcyc     : BitVec 24
  wakeSrc  : Word
  wakeFail : Word
  wfSec    : Word
  wfPcyc   : BitVec 24
deriving DecidableEq, Repr

/-- Device identity, fixed at the factory. -/
structure Dev where
  /-- The variant is a TN-6300-N. [00 R2 | 1 bit | DESIGN CHOICE 0 (log 6)] -/
  variantN : Bool := false
  /-- Node ID. [14 R422 | 64 bits | VPD: Config.nodeId (log 6)] -/
  nodeId : DWord := Config.nodeId
  /-- Base individual address. [14 R422 | 48 bits | VPD: Config.baseAddress (log 6)] -/
  baseAddr : BitVec 48 := Config.baseAddress
  /-- Silicon issue in `GEN_ID`. [17 R479 | 8 bits | device: Config.siliconIssue (log 6)] -/
  issue : Byte := Config.siliconIssue
deriving DecidableEq, Repr

/-- Power entry, clocks, domains, node state and the always-on domain. -/
structure Pwr where
  /-- Node state, `GEN_STATUS.NODE_STATE`. [03 R70 | 3 bits | OFF (R31: not yet seated)] -/
  node : NodeState := .off
  /-- `SEATED#` reads low. [02 R30, R31 | 1 bit | 0 (R31: pulled up, not seated)] -/
  seated : Bool := false
  /-- `BAT+` stands above the converter stop. [02 R43 | 1 bit | DESIGN CHOICE 0 (log 4)] -/
  bat : Bool := false
  /-- Removal flush in progress with its cause. [02 R34, R37 | option of 17 bits | none (R34)] -/
  flush : Option Flush := none
  /-- A flush began whose completion mark was never written. [02 R34, R38 | 1 bit | 0 (R539: factory)] -/
  markAbsent : Bool := false
  /-- `MS_HOLDUP`: [15:0] capacitance in µF, [16] `HU_LOW`. [12 R356 | 17 bits | 0 (R488)] -/
  holdup : BitVec 17 := 0
  /-- Main regulator on. [03 R76 | 1 bit | 0 (R69)] -/
  regOn : Bool := false
  /-- Regulator start attempts of the set in progress. [03 R76 | 2 bits | 0] -/
  regAttempts : Nat := 0
  /-- PLL enabled and in a lock attempt. [03 R61 | 1 bit | 0 (R69)] -/
  pllOn : Bool := false
  /-- PLL lock attempts of the set in progress, `CLK_STATUS.ATTEMPTS`. [03 R61, 17 R479 | 8 bits | 0 (R479)] -/
  pllAttempts : Nat := 0
  /-- PLL locked, `CLK_STATUS.LOCK`. [03 R61, 17 R479 | 1 bit | 0 (R479)] -/
  locked : Bool := false
  /-- The crystal runs. [03 R60 | 1 bit | DESIGN CHOICE 1 (log 4)] -/
  xtal : Bool := true
  /-- `CLK_DEV`. [03 R59, 17 R479 | 16 bits | 0 (R479)] -/
  clkDev : Half := 0
  /-- `CLK_LOSSES`, saturating. [17 R479 | 16 bits | 0 (R479)] -/
  losses : Half := 0
  /-- `LOCK_LOST` of the synchronisation entry. [06 R163, R176 | 1 bit | 0 (R483)] -/
  lockLost : Bool := false
  /-- Cycles since event 0x0204, counted to 64. [06 R163, R176 | count | 0] -/
  lockCycles : Nat := 0
  /-- `WAKE_FAIL#` asserted. [02 Table 2.3, 03 R76, R78 | pin | 0 (R76: released)] -/
  wakeFailPin : Bool := false
  /-- Wake-failure count, saturating. [03 R76 | 8 bits | 0 (R539)] -/
  wfCount : Byte := 0
  /-- Attempts at the last wake failure. [17 R480 | 2 bits | 0 (R480)] -/
  wfAttempts : BitVec 2 := 0
  /-- Power-good wake-failure latch. [03 R76 | 1 bit | 0 (R480)] -/
  pgLatch : Bool := false
  /-- Quiesce-cut latch. [03 R73 | 1 bit | 0 (R480)] -/
  qcut : Bool := false
  /-- `PWR_WFAIL_SEC`. [03 R76, 17 R479 | 32 bits | 0 (R479)] -/
  wfSec : Word := 0
  /-- `PWR_WFAIL_PCYC`. [03 R76, 17 R479 | 24 bits | 0 (R479)] -/
  wfPcyc : BitVec 24 := 0
  /-- Wake-source record, `PWR_WAKE_SRC`. [10 R297, 17 R480 | 32 bits | 0 (R480)] -/
  wakeSrc : Option WakeSrc := none
  /-- Event 0x5004 of the latest wake is still due. [10 R297 | 1 bit | 0] -/
  wakeReport : Bool := false
  /-- A wake source latched and not yet acted on. [03 R72, 10 R299 | option | none] -/
  wakeLatch : Option WakeSrc := none
  /-- Ten milliseconds have passed since entry into `SLEEP`. [03 R72, 10 R299 | 1 bit | 0] -/
  sleepDwelt : Bool := false
  /-- Wake sources armed in `PD000`: `WAKE_IN` and the line-A tap. [10 R296, R297 | 1 bit | 0 (R304)] -/
  tapArmed : Bool := false
  /-- Wake channel armed. [10 R297, R298 | option of 5 bits | none] -/
  wakeChArmed : Option Nat := none
  /-- Wake-pattern filters armed per port while its PHY is `LOW`. [09 R279, 10 R296 | 4 lists | empty] -/
  filters : List (List (Option WakeFilter)) := [[], [], [], []]
  /-- Stage of the line check and wake flood. [10 R300 | 3 bits | none] -/
  flood : FloodStage := .none
  /-- Own wake bursts still to send. [10 R300 | 2 bits | 0] -/
  burstsLeft : Nat := 0
  /-- The node relays a flood (it was woken by, or accepted, a burst). [10 R300 | 1 bit | 0] -/
  relaying : Bool := false
  /-- Relay set A waits for the bursts to die away. [10 R300, 07 R218 | 1 bit | 0] -/
  relayAWaits : Bool := false
  /-- The line check saw activity: the node takes the late-comer path. [10 R304 | 1 bit | 0] -/
  lineActive : Bool := false
  /-- In the 10 ms off period of a warm reset. [03 R79 | 1 bit | 0] -/
  warmOff : Bool := false
  /-- The 128 power domains. [03 R62 | 128 × 2 levels | OFF (R69)] -/
  doms : List Dom := List.replicate 128 {}
  /-- Relay set A driven, `TB_RELAY`[0]. [07 R218, 17 R483 | 1 bit | 0 (R218)] -/
  relayA : Bool := false
  /-- Relay set B driven, `TB_RELAY`[1]. [07 R218, 17 R483 | 1 bit | 0 (R218)] -/
  relayB : Bool := false
  /-- `BYPA_SNS` closed. [02 Table 2.3 | pin | 1 (R39: rest position)] -/
  senseA : Bool := true
  /-- `BYPB_SNS` closed. [02 Table 2.3 | pin | 1 (R39: rest position)] -/
  senseB : Bool := true
  /-- `MISMATCH_A`, sticky. [02 R41, 17 R483 | 1 bit | 0 (R483)] -/
  misA : Bool := false
  /-- `MISMATCH_B`, sticky. [02 R41, 17 R483 | 1 bit | 0 (R483)] -/
  misB : Bool := false
  /-- Operating-seconds counter, saturating. [03 R81, 19 R536 | 32 bits | 0 (R539)] -/
  opsec : Word := 0
  /-- Power-cycle count, saturating. [03 R80, 19 R536 | 24 bits | 0 (R539)] -/
  pcyc : BitVec 24 := 0
  /-- Slow-domain write in flight (R8): register offset and value. [00 R8 | option | none] -/
  slowWrite : Option (Nat × Word) := none
  /-- Copies shown while `SLOW_CLK` is stopped. [03 R60, 16 R459 | option | none] -/
  slowHeld : Option SlowCopy := none
  /-- `WAKE_IN` is on. [02 Table 2.3, 10 Table 10.1 | pin | DESIGN CHOICE 0 (log 4)] -/
  wakeIn : Bool := false
  /-- `NODE_RESET` executed in the cycle start in progress. MODEL. [03 R79 | 1 bit | 0] -/
  resetNow : Bool := false
  /-- The no-image event 0x0205 has been recorded in this `BRINGUP`. MODEL. [03 R71 | 1 bit | 0] -/
  noImage : Bool := false
deriving DecidableEq, Repr

/-! ### Train time and the cycle (04, 06) -/

/-- What one line gives the time measurement of a cycle (R165–R167); stamps are train-time ns. -/
structure LineTime where
  /-- `t_out` of this cycle. [06 R165 | 64 bits | none] -/
  tOut : Option Int := none
  /-- Round trip of this cycle. [06 R165 | 64 bits | none] -/
  rt : Option Int := none
  /-- Round trip of the previous cycle. [06 R167 | 64 bits | none] -/
  rtPrev : Option Int := none
deriving DecidableEq, Repr

/-- A time measurement of the cycle: the mode it belongs to and c in quarter ns, before clipping. -/
structure Measure where
  ensemble : Bool
  c4       : Int
deriving DecidableEq, Repr

/-- Train time, cycle and synchronisation. -/
structure Cyc where
  /-- Local ns elapsed at the start of the cycle in progress. MODEL. [00 Table 0.1 | ns | 0 (log 3)] -/
  base : Nat := 0
  /-- Ns from that start to the present instant. MODEL. [00 Table 0.1 | ns | 0 (log 3)] -/
  phase : Nat := 0
  /-- `TT` at the start of the cycle in progress. [06 R157, R158 | 64 bits | 0 (R177)] -/
  tt : DWord := 0
  /-- `CYC`. [06 R158, 17 R483 | 16 bits | 0 (R483)] -/
  cyc : Half := 0
  /-- Cycle starts seen since entry into `RUN`: 0 before, 1 in the power cycle, then 2. [04 R91 | count | 0] -/
  runCycles : Nat := 0
  /-- Time mode, `TB_SYNC.MODE`. [06 R174 | 3 bits | FREE (R177)] -/
  mode : TimeMode := .free
  /-- Rate correction r in ppb, `TB_RATE`. [06 R172, 17 R483 | 32 bits signed | 0 (R177)] -/
  rate : Int := 0
  /-- Last correction c applied, ns, `TB_CORR`. [06 R171, 17 R483 | 32 bits signed | 0 (R483)] -/
  corr : Int := 0
  /-- The measurement of this cycle. [06 R169, R170 | option | none] -/
  meas : Option Measure := none
  /-- The previous cycle's applied measurement, if not clipped: ensemble or not, and c. [06 R172 | option | none] -/
  prev : Option (Bool × Int) := none
  /-- Consecutive unmeasured cycles. [06 R174, R177 | count | DESIGN CHOICE 64: nothing was ever measured (log 40)] -/
  unmeasured : Nat := 64
  /-- Acquisition is pending: a switch instant was passed or an amendment adopted on receipt. [06 R174 | 1 bit | 0] -/
  acquiring : Bool := false
  /-- Cycles since acquisition, counted to 64. [06 R176 | count | 0] -/
  sinceAcq : Nat := 0
  /-- Acquisition complete at the next correction interval. [06 R179 | 1 bit | 0] -/
  acquired : Bool := false
  /-- A scheduled acquisition step: phase at which the cycle ends, new `TT`, new `CYC`. [06 R179 | option | none] -/
  step : Option (Nat × DWord × Half) := none
  /-- The member has withdrawn. [06 R176 | 1 bit | 0 (R483)] -/
  withdrawn : Bool := false
  /-- Consecutive cycles with |c| ≤ 100 ns since withdrawal. [06 R176 | count | 0] -/
  goodRun : Nat := 0
  /-- r is held at ±200 ppm. [06 R173, R176 | 1 bit | 0] -/
  rateHeld : Bool := false
  /-- Deviations used in the last measurement, `TB_SYNC`[20:16]. [17 R483 | 5 bits | 0 (R483)] -/
  devs : Nat := 0
  /-- Stamps of line A. [06 R165 | record | none] -/
  lineA : LineTime := {}
  /-- Stamps of line B. [06 R165 | record | none] -/
  lineB : LineTime := {}
deriving DecidableEq, Repr

/-! ### The Hinge (05) -/

/-- One backbone port: its link and what the Hinge knows of its neighbour. Ports are AF, AR, BF, BR. -/
structure HgPort where
  /-- Link speed of `TB_LINK`: 0 down, 1 100BASE-TX, 2 1000BASE-T. [05 R119, 17 R483 | 2 bits | 0 (R483)] -/
  speed : Nat := 0
  /-- Settled (R121). [05 R121, 17 R483 | 1 bit | 0 (R483)] -/
  settled : Bool := false
  /-- A step is in progress, from `STEP_ACK` to its end. [05 R120, 17 R483 | 1 bit | 0 (R483)] -/
  stepping : Bool := false
  /-- The last step failed (R125). [05 R121, R125 | 1 bit | 0] -/
  stepFailed : Bool := false
  /-- The port is master at 1000BASE-T. [05 R120 | 1 bit | 0] -/
  master : Bool := false
  /-- Neighbour node ID, `HG_NBR`. [17 R483 | 64 bits | 0 (R483)] -/
  nbr : DWord := 0
  /-- Node ID of the neighbour last seen here, kept over a link loss. [05 R132 | 64 bits | 0] -/
  lastNbr : DWord := 0
  /-- Node state code of the neighbour, from its last `PROBE`, `STEP` or `STEP_ACK`. [05 R121 | 8 bits | 0] -/
  nbrState : Byte := 0
  /-- The neighbour's port, from its last `PROBE` or `PROBE_RSP`; 4 not known. [05 R120, Table 5.3 | 3 bits | 4] -/
  nbrPort : Nat := 4
  /-- Measured cable delay, `HG_CDLY`. [05 R129, 17 R483 | 16 bits | 0 (R483)] -/
  cdly : Half := 0
  /-- Sum of the round trips minus residence measured in this inauguration. [05 R129 | ns | 0] -/
  rttSum : Nat := 0
  /-- Exchanges measured in this inauguration. [05 R129 | count | 0] -/
  rttCount : Nat := 0
  /-- The 20 ms wait of R132 runs. [05 R132 | 1 bit | 0] -/
  waiting : Bool := false
  /-- The line is broken here: event 0x1010 was recorded and the link is still down. [05 R132 | 1 bit | 0] -/
  broken : Bool := false
deriving DecidableEq, Repr

/-- The key by which Hinge copies are recognised (R128). -/
structure HgKey where
  subtype : Byte
  srcId   : DWord
  icount  : Word
  mseq    : Half
deriving DecidableEq, Repr

/-- The Hinge. -/
structure Hinge where
  /-- `HG_STATUS.HG_STATE`. [05 R118 | 3 bits | UNNUMBERED (R483)] -/
  st : HgState := .unnumbered
  /-- The held TTR. [05 R118 | Tables 5.7, 5.8 | none (R483)] -/
  ttr : Option Ttr := none
  /-- Inauguration count of the TTR in force, `HG_ICOUNT`. [05 R127, 17 R483 | 32 bits | 0 (R483)] -/
  icount : Word := 0
  /-- Inauguration count the node runs or last ran. [05 R137 | 32 bits | 0 (R483)] -/
  running : Word := 0
  /-- Cause of the last `START` sent or entered, `HG_REV`[31:24]. [17 R483 | 8 bits | 0 (R483)] -/
  lastCause : Byte := 0
  /-- Ports AF, AR, BF, BR. [05 R119 | 4 ports | down (R483)] -/
  ports : List HgPort := [{}, {}, {}, {}]
  /-- Own Hinge sequence number, next to give. [05 R127 | 16 bits | DESIGN CHOICE 0 (log 4)] -/
  mseq : Half := 0
  /-- Copies already processed. [05 R128 | list | empty] -/
  seen : List HgKey := []
  /-- A `DISCOVER` held until probing ends: arrival port and frame. [05 R139 | list | empty] -/
  heldSweeps : List (Nat × HingeFrame) := []
  /-- This end node has launched its sweep. [05 R139, R149 | 1 bit | 0] -/
  sweepSent : Bool := false
  /-- The TTR waiting for its switch instant, and the instant in local ns. [05 R143 | option | none] -/
  pendTtr : Option (Ttr × Word × Nat) := none
  /-- An amendment waiting for `ADOPT_CYC`. [05 R150 | option | none] -/
  amend : Option Ttr := none
  /-- Consecutive failed attempts. [05 R149 | count | 0] -/
  fails : Nat := 0
  /-- Consecutive cycles of topology-hash disagreement. [05 R133 | count | 0] -/
  hashDis : Nat := 0
  /-- Local instants of the cause-0x05 `START`s of the last 60 s. [05 R135 | list | empty] -/
  hashStarts : List Nat := []
  /-- The limit of R135 was reached and no TTR adopted since. [05 R135 | 1 bit | 0] -/
  hashMuted : Bool := false
  /-- `ADMIT_REQ` sends without an answer. [05 R154 | count | 0] -/
  admitSends : Nat := 0
  /-- Admission was refused or unanswered; the node starts no inauguration. [05 R154, 07 R218 | 1 bit | 0] -/
  refused : Bool := false
  /-- The `BRINGUP` wait of R136 is over and its probe is out. [05 R136 | 1 bit | 0] -/
  probed : Bool := false
  /-- Profile fingerprints the origin has learned, by node ID. [05 R141, R152 | list | empty] -/
  fps : List (DWord × Word) := []
  /-- A coupling at the open side waits for its links to settle: front, rear. [05 R131 | 2 bits | 0] -/
  coupling : List Bool := [false, false]
  /-- Requests the origin gathers for the next amendment: originator and request. [05 R150, R152 | list | empty] -/
  requests : List (DWord × AdmitReq) := []
  /-- Hinge frames waiting for the message window: port and frame. [05 R124 | list | empty] -/
  queue : List (Nat × HingeFrame) := []
  /-- `CAB_REF` as last read. [02 Table 2.3, 05 Table 5.6 | pin | DESIGN CHOICE 0 (log 4)] -/
  cab : Bool := false
deriving DecidableEq, Repr

/-! ### The train frame and the message window (07) -/

/-- A valid copy of the train frame taken by the merge. -/
structure Copy where
  line    : Line
  payload : Bytes
deriving DecidableEq, Repr

/-- An own message frame waiting in the pool (R213): the chain's first buffer, or the body itself for an in-band
response, and the ports it still has to leave on. -/
structure OwnMsg where
  shutter : Bool
  buf     : Option Nat
  body    : Bytes
  cls     : Byte
  dst     : Byte
  mseq    : Option Half
  ports   : List Nat
deriving DecidableEq, Repr

/-- What a backbone port transmits in the message window. -/
inductive PortTx
  | idle
  | hinge
  | forward
  | own
deriving DecidableEq, Repr

/-- Duplicate detection for one source (R215). -/
structure MsgHist where
  src  : Byte
  high : Half
  bits : Word
deriving DecidableEq, Repr

/-- Stale-request tracking of one member, by node ID (R306). -/
structure AwakeTrack where
  nodeId    : DWord
  run       : Nat
  uncounted : Bool
deriving DecidableEq, Repr

/-- A published snapshot (R206). -/
structure Snapshot where
  /-- Payload. [07 R206 | 8,192 bytes | 0 (R483)] -/
  payload : Bytes := []
  /-- `TB_SNAP` `CYC`. [17 R483 | 16 bits | 0 (R483)] -/
  cyc : Half := 0
  /-- `TB_SNAP` line B. [17 R483 | 1 bit | 0 (R483)] -/
  lineB : Bool := false
  /-- `TB_SNAP` valid. [07 R206, 17 R483 | 1 bit | 0 (R483)] -/
  valid : Bool := false
  /-- `TB_SNAP.BROKEN`. [17 R483 | 1 bit | 0 (R483)] -/
  broken : Bool := false
  /-- Instant of the publication, local ns. MODEL. [04 R97 | ns | 0] -/
  at_ : Nat := 0
  /-- Offsets of the window headers in the payload. MODEL. [07 R189 | list | empty] -/
  offs : List Nat := []
deriving DecidableEq, Repr

/-- A copy the node turned around in this cycle (R196, R207). -/
structure Turned where
  payload : Bytes
  fcsGood : Bool
deriving DecidableEq, Repr

/-- The train frame engine. -/
structure Tf where
  /-- Own window buffer, words. [04 R97, 13 R386 | 255 × 32 bits | DESIGN CHOICE 0 (log 4)] -/
  win : List Word := []
  /-- How the window is ready for the next snapshot. [04 R98, 13 R386 | 2 bits | not ready] -/
  ready : WinReady := .none
  /-- Window flags, status byte and data frozen at `TF_SNAP`. [04 R98, 07 R194 | bytes | none] -/
  frozen : Option Bytes := none
  /-- The last frozen window was `MUTE` (R201). [07 R201 | 1 bit | 0] -/
  muted : Bool := false
  /-- Copies turned around in this cycle, lines A and B. [07 R207 | 2 options | none] -/
  turned : List (Option Turned) := [none, none]
  /-- A valid broken copy held until `TF_READ`. [07 R204 | option | none] -/
  held : Option Copy := none
  /-- The copy accepted in this cycle. [07 R204 | option | none] -/
  accepted : Option Copy := none
  /-- Valid candidates of this cycle, for R168. [06 R168, 07 R203 | list | empty] -/
  cands : List Copy := []
  /-- The acceptance came too late for this cycle's measurement, or the snapshot was read. [07 R206 | 1 bit | 0] -/
  readDone : Bool := false
  /-- The published snapshot. [07 R206, 17 R483 | record | 0 (R483)] -/
  snap : Snapshot := {}
  /-- The snapshot before it, still visible for 2 ticks. [04 R97 | record | 0 (R483)] -/
  snapPrev : Snapshot := {}
  /-- Counters `TB_VALID_A`, `_B`. [17 R483 | 2 × 32 bits | 0 (R477)] -/
  validA : Word := 0
  /-- `TB_VALID_B`. [17 R483 | 32 bits | 0 (R477)] -/
  validB : Word := 0
  /-- `TB_ACC_A`. [17 R483 | 32 bits | 0 (R477)] -/
  accA : Word := 0
  /-- `TB_ACC_B`. [17 R483 | 32 bits | 0 (R477)] -/
  accB : Word := 0
  /-- `TB_NOCOPY`. [17 R483 | 32 bits | 0 (R477)] -/
  noCopy : Word := 0
  /-- `TB_BAD_A`. [17 R483 | 32 bits | 0 (R477)] -/
  badA : Word := 0
  /-- `TB_BAD_B`. [17 R483 | 32 bits | 0 (R477)] -/
  badB : Word := 0
  /-- `TB_SHORT_A`. [17 R483 | 32 bits | 0 (R477)] -/
  shortA : Word := 0
  /-- `TB_SHORT_B`. [17 R483 | 32 bits | 0 (R477)] -/
  shortB : Word := 0
  /-- `TB_MSG_TX`. [17 R483 | 32 bits | 0 (R477)] -/
  msgTx : Word := 0
  /-- `TB_MSG_RX`. [17 R483 | 32 bits | 0 (R477)] -/
  msgRx : Word := 0
  /-- `TB_MSG_DROP`. [17 R483 | 32 bits | 0 (R477)] -/
  msgDrop : Word := 0
  /-- Poll round-robin pointer. [07 R212 | 8 bits | DESIGN CHOICE 0 (log 4)] -/
  rr : Nat := 0
  /-- `MSG_PENDING` bits of the copy accepted in the previous cycle. [07 R212 | list of numbers | empty] -/
  pend : List Nat := []
  /-- Poll list of the accepted copy of this cycle. [07 R213 | 4 numbers | empty] -/
  poll : List Nat := []
  /-- Own message frames waiting, oldest first. [07 R213, 13 R385 | list | empty] -/
  own : List OwnMsg := []
  /-- Forwarded message frames per port, at most 32 each. [07 R217 | 4 lists | empty] -/
  fwd : List (List Bytes) := [[], [], [], []]
  /-- What each port transmits now. [07 R214 | 4 × 2 bits | idle] -/
  tx : List PortTx := [.idle, .idle, .idle, .idle]
  /-- The message window is open. [07 R182 | 1 bit | 0] -/
  window : Bool := false
  /-- New own frames originated in this window. [07 R213 | count | 0] -/
  originated : Nat := 0
  /-- Own message sequence, next to give. [07 R211 | 16 bits | DESIGN CHOICE 0 (log 4)] -/
  mseq : Half := 0
  /-- Duplicate histories. [07 R215 | per source 16 + 32 bits | empty] -/
  hist : List MsgHist := []
  /-- Core queue of delivered `CLASS` 0x00 frames, at most 32: first buffer and `SRC`. [13 R387 | list | empty] -/
  coreQ : List (Nat × Byte) := []
  /-- Sleep countdown the origin launches next; 0 none. [07 R186, 10 R291 | 5 bits | 0] -/
  sleepCd : Nat := 0
  /-- Consecutive cycles without a counted request, at the origin. [10 R291 | count | 0] -/
  dwell : Nat := 0
  /-- Stale-request tracking at the origin. [10 R306 | list | empty (R307)] -/
  track : List AwakeTrack := []
  /-- Quiesce cycle. [10 R293 | option of 16 bits | none] -/
  quiesceCyc : Option Half := none
  /-- The accepted copy of this cycle carried `SLEEP_CD` = 1. [10 R295 | 1 bit | 0] -/
  lastCd : Bool := false
  /-- The awake request stood at the start of the cycle. MODEL. [10 R295 | 1 bit | 0] -/
  awakeAt : Bool := false
  /-- Awake request as last written. [10 R289 | 1 bit | 0] -/
  awakeReq : Bool := false
  /-- Task awake flag. [10 Table 10.1, 13 R391 | 1 bit | DESIGN CHOICE 0 (log 4)] -/
  taskAwake : Bool := false
  /-- Host hold. [10 R290 | 1 bit | 0 (R289: until an accepted WAKE_REQ)] -/
  hostHold : Bool := false
deriving DecidableEq, Repr

/-! ### The vehicle network (08) -/

/-- A frame a branch is sending into the star that runs into its cut point (R240): a static slot or a dynamic ID. -/
structure BrRx where
  frame   : Bytes
  dynamic : Bool
  index   : Nat
deriving DecidableEq, Repr

/-- One branch. -/
structure Branch where
  /-- Branch link up. [08 R244 | 1 bit | 0] -/
  link : Bool := false
  /-- Branch state, `VN_BRANCH`. [08 R244, 17 R485 | 2 bits | DOWN (R250)] -/
  st : BrState := .down
  /-- Consecutive cycles with every owned slot `DATA` or `NULL`. [08 R244 | count | 0] -/
  good : Nat := 0
  /-- Consecutive cycles with an owned slot otherwise. [08 R245 | count | 0] -/
  bad : Nat := 0
  /-- `BRANCH_OFF` in force. [04 R111, 08 R241 | 1 bit | 0 (R250)] -/
  off : Bool := false
  /-- A frame still running past its start checks. [08 R240 | option | none] -/
  rx : Option BrRx := none
  /-- `AWAKE` seen in a valid frame of this cycle. [08 R251 | 1 bit | 0] -/
  awake : Bool := false
  /-- `ERRSUM` seen in a valid frame of this cycle. [08 R242 | 1 bit | 0] -/
  errsum : Bool := false
  /-- `VN_Bbb_CUT_START`. [08 R242, 17 R485 | 32 bits | 0 (R242)] -/
  cutStart : Word := 0
  /-- `VN_Bbb_CUT_HDR`. [08 R242, 17 R485 | 32 bits | 0 (R242)] -/
  cutHdr : Word := 0
  /-- `VN_Bbb_CUT_LEN`. [08 R242, 17 R485 | 32 bits | 0 (R242)] -/
  cutLen : Word := 0
  /-- `VN_Bbb_MISS`. [08 R242, 17 R485 | 32 bits | 0 (R242)] -/
  miss : Word := 0
  /-- `VN_Bbb_RX_ERR`. [08 R242, 17 R485 | 32 bits | 0 (R242)] -/
  rxErr : Word := 0
  /-- `VN_Bbb_NULLS`. [08 R242, 17 R485 | 32 bits | 0 (R242)] -/
  nulls : Word := 0
  /-- `VN_Bbb_ERRSUM`. [08 R242, 17 R485 | 32 bits | 0 (R242)] -/
  errsums : Word := 0
  /-- `VN_Bbb_RX_OK`. [17 R485 | 32 bits | 0 (R477)] -/
  rxOk : Word := 0
deriving DecidableEq, Repr

/-- What a static slot received in the vehicle cycle in progress, the strongest case first kept (R233). -/
inductive SlotGot | nothing | valid | null | error | cut
deriving DecidableEq, Repr

/-- The received side of one static slot. -/
structure SlotRx where
  got   : SlotGot := .nothing
  flags : BitVec 4 := 0
  body  : Bytes := []
deriving DecidableEq, Repr

/-- One entry of the `VN_READ` publication (R232). -/
structure PubSlot where
  status : BitVec 3 := 0
  flags  : BitVec 4 := 0
  body   : Bytes := []
deriving DecidableEq, Repr

/-- A publication of `VN_READ` (R232). -/
structure Publication where
  /-- One entry per static slot, `VN_SLOT`. [08 R232, 17 R485 | 64 records | 0 (R485)] -/
  slots : List PubSlot := List.replicate 64 {}
  /-- `CYC` of the publication. [17 R485 | 16 bits | 0 (R485)] -/
  cyc : Half := 0
  /-- A publication exists. [17 R485 | 1 bit | 0 (R485)] -/
  valid : Bool := false
  /-- Instant of the publication, local ns. MODEL. [04 R97 | ns | 0] -/
  at_ : Nat := 0
deriving DecidableEq, Repr

/-- The transmit side of a node-owned slot. -/
structure SlotTx where
  /-- Body buffer, sparse. [04 R97, 13 R385 | bytes | DESIGN CHOICE 0 (log 4)] -/
  body : List Host.Cell := []
  /-- 0 when unlisted bytes read 0, else the mark of the loss of content under which they are free.
  [03 R62 | mark | 0 (log 5)] -/
  lost : Nat := 0
  /-- `LEN` and `AWAKE` of a `VSND` completed since the last `VN_COMMIT`. [08 R231 | option | none] -/
  done : Option (Nat × Bool) := none
  /-- The frame body frozen at `VN_COMMIT`, with `AWAKE`. [08 R231 | option | none] -/
  frozen : Option (Bytes × Bool) := none
deriving DecidableEq, Repr

/-- A dynamic frame of the node waiting for its ID: first buffer and whether the Shutter posted it. -/
structure DynMsg where
  id      : Nat
  buf     : Nat
  shutter : Bool
deriving DecidableEq, Repr

/-- The star and guardian. -/
structure Vn where
  /-- The twelve branches. [08 R220 | 12 records | DOWN (R250)] -/
  br : List Branch := List.replicate 12 {}
  /-- A vehicle cycle is in progress. [08 R224 | 1 bit | 0] -/
  running : Bool := false
  /-- V0 in local ns. [08 R224 | ns | 0] -/
  v0 : Nat := 0
  /-- `CYC` at the `VN_START`. [08 Table 8.3 | 16 bits | 0] -/
  cyc : Half := 0
  /-- Received slots of the vehicle cycle. [08 R232 | 64 records | empty] -/
  rx : List SlotRx := List.replicate 64 {}
  /-- Publication of the latest `VN_READ`. [08 R232, 17 R485 | record | 0 (R485)] -/
  pub : Publication := {}
  /-- The publication before it, still visible for 2 ticks. [04 R97 | record | 0 (R485)] -/
  pubPrev : Publication := {}
  /-- Transmit buffers of the slots. [08 R231 | 64 records | empty] -/
  txBuf : List SlotTx := List.replicate 64 {}
  /-- Mini-slot counter DC; 0 outside the dynamic segment. [08 R235 | 9 bits | 0] -/
  dc : Nat := 0
  /-- Offset from V0 of the boundary with the present DC. [08 R235 | ns | 0] -/
  boundary : Nat := 0
  /-- Mini-slots the frame admitted at this boundary spans; 0 none. [08 R235 | count | 0] -/
  span : Nat := 0
  /-- The dynamic segment is closed for the cycle. [08 R238 | 1 bit | 0] -/
  closed : Bool := false
  /-- Own dynamic frames waiting, at most 8 for each ID. [13 R385 | list | empty] -/
  dynQ : List DynMsg := []
  /-- Core vehicle queue, at most 64: ID and first buffer. [13 R387 | list | empty] -/
  coreQ : List (Nat × Nat) := []
  /-- `VN_AWAKE`. [08 R251, 17 R485 | 12 bits | 0 (R485)] -/
  awake : BitVec 12 := 0
  /-- `VSLEEP_CD` of the latest `VSYNC`. [08 R252, 10 R294 | 4 bits | 0] -/
  sleepCd : Nat := 0
deriving DecidableEq, Repr

/-! ### Equipment ports and the buffer pool (09) -/

/-- One equipment port. -/
structure EqPort where
  /-- Link speed of `EQn_LINK`: 0 down, 1 10, 2 100, 3 1000 Mbit/s. [09 R258, 17 R486 | 2 bits | 0 (R486)] -/
  link : Nat := 0
  /-- `EQ_OFF` in force. [04 R111, 09 R286 | 1 bit | 0 (R111)] -/
  off : Bool := false
  /-- Local ns at which `EQ_OFF` last took effect. MODEL. [09 R286 | ns | 0] -/
  offAt : Nat := 0
  /-- Local ns at which the link last went down. MODEL. [09 R268 | ns | 0] -/
  downAt : Nat := 0
  /-- Transmit queues 0–7, oldest first, at most 128 frames each. [09 R270 | 8 lists | empty] -/
  queues : List (List Nat) := List.replicate 8 []
  /-- Frame in transmission: queue and first buffer. [09 R272 | option | none] -/
  tx : Option (Nat × Nat) := none
  /-- Running pause timers per queue: time value in quanta. [09 R274 | 8 × 16 bits | 0] -/
  pause : List Nat := List.replicate 8 0
  /-- The partner is paused: the high watermark's PFC is in force. [09 R275, 17 R486 | 1 bit | 0 (R486)] -/
  pfc : Bool := false
  /-- Transmit stamp FIFO, oldest first, at most 16: cookie and stamp. [09 R278 | 16 entries | empty (R486)] -/
  stamps : List (Half × DWord) := []
  /-- `RX_OK`. [09 R287 | 32 bits | 0 (R287)] -/
  rxOk : Word := 0
  /-- `RX_ERR`. [09 R287 | 32 bits | 0 (R287)] -/
  rxErr : Word := 0
  /-- `RX_FILT`. [09 R287 | 32 bits | 0 (R287)] -/
  rxFilt : Word := 0
  /-- `RX_DROP`. [09 R287 | 32 bits | 0 (R287)] -/
  rxDrop : Word := 0
  /-- `TX_OK`. [09 R287 | 32 bits | 0 (R287)] -/
  txOk : Word := 0
  /-- `TX_DROP`. [09 R287 | 32 bits | 0 (R287)] -/
  txDrop : Word := 0
  /-- `PAUSE_RX`. [09 R287 | 32 bits | 0 (R287)] -/
  pauseRx : Word := 0
  /-- `PAUSE_TX`. [09 R287 | 32 bits | 0 (R287)] -/
  pauseTx : Word := 0
  /-- `EQn_RX_BYTES`. [17 R486 | 64 bits | 0 (R486)] -/
  rxBytes : DWord := 0
  /-- `EQn_TX_BYTES`. [17 R486 | 64 bits | 0 (R486)] -/
  txBytes : DWord := 0
  /-- Host receive queue, at most 64 first buffers. [16 R471 | list | empty] -/
  hostQ : List Nat := []
  /-- Core receive queue, at most 64 first buffers. [13 R387 | list | empty] -/
  coreQ : List Nat := []
deriving DecidableEq, Repr

/-- One pool buffer: descriptor of Table 9.3 and its 256 data bytes. -/
structure Buf where
  /-- `NEXT`. [09 R280 | 16 bits | 0 (R285: zeroed descriptor)] -/
  next : Half := 0
  /-- `OWNER`. [09 R280 | 8 bits | 0 free (R285)] -/
  owner : Byte := 0
  /-- `FLAGS`. [09 R280 | 8 bits | 0 (R285)] -/
  flags : Byte := 0
  /-- `BLEN`. [09 R280 | 16 bits | 0 (R285)] -/
  blen : Half := 0
  /-- `TCI`. [09 R280 | 16 bits | 0 (R285)] -/
  tci : Half := 0
  /-- `TSTAMP`. [09 R280 | 64 bits | 0 (R285)] -/
  tstamp : DWord := 0
  /-- Data bytes. [09 R280 | 256 bytes | DESIGN CHOICE 0 (log 4)] -/
  data : Bytes := []
deriving DecidableEq, Repr

/-- The buffer pool. -/
structure Pool where
  /-- Buffers by number, sparse: an unlisted buffer is all zero. [09 R280 | 4,096 records | zero (R285)] -/
  bufs : List (Nat × Buf) := []
  /-- Free buffers of the pool banks, longest free first. [09 R280, R285 | list | empty (no image)] -/
  free : List Nat := []
  /-- `EQ_POOL_STATUS`[4:0], sticky. [09 R283, 17 R486 | 5 bits | 0 (R486)] -/
  sticky : BitVec 5 := 0
  /-- `EQ_POOL_IRQEN`. [17 R486 | 5 bits | 0 (R486)] -/
  irqEn : BitVec 5 := 0
  /-- 16-byte units of pool RAM that hold an error: buffer × 16 + unit, and whether it is uncorrectable.
  [09 R273 | list | empty (log 7)] -/
  errs : List (Nat × Bool) := []
  /-- `EQ_HOST_ARG`. [16 R471, 17 R486 | 32 bits | 0 (R486)] -/
  hostArg : Word := 0
  /-- `EQ_HOST_RES`. [16 R471, 17 R486 | 32 bits | 0 (R486)] -/
  hostRes : Word := 0
deriving DecidableEq, Repr

/-! ### The Shutter (10) -/

/-- The Shutter. -/
structure Shut where
  /-- State, `SH_STATUS.STATE`. [10 R308 | 2 bits | CLOSED (R316, R486)] -/
  st : ShState := .closed
  /-- Announcement cycles left, `SH_STATUS`[7:4]. [10 R310, 17 R486 | 4 bits | 0 (R486)] -/
  left : Nat := 0
  /-- Last commanding party, `SH_STATUS`[17:16]. [17 R486 | 2 bits | 0 (R486)] -/
  party : Nat := 0
  /-- `GATE` command waiting for the next cycle start. [10 R309, 13 R390 | option of 2 bits | none] -/
  gate : Option Nat := none
  /-- `SH_TO_BB`. [17 R486 | 32 bits | 0 (R486)] -/
  toBb : Word := 0
  /-- `SH_FROM_BB`. [17 R486 | 32 bits | 0 (R486)] -/
  fromBb : Word := 0
  /-- `SH_DROP`. [17 R486 | 32 bits | 0 (R486)] -/
  drop : Word := 0
deriving DecidableEq, Repr

/-! ### Field channels (11) -/

/-- A capture of a channel: `CHnn_STATE` and `CHnn_VOLT` words and its instant in local ns. -/
structure Capture where
  /-- `CHnn_STATE` layout. [11 R346 | 32 bits | STATE 0b10, else 0 (R346)] -/
  state : Word := 2
  /-- `CHnn_VOLT` layout. [11 R346 | 32 bits | 0 (R346: latest capture, none)] -/
  volt : Word := 0
  /-- Instant, local ns. MODEL. [04 R97 | ns | 0] -/
  at_ : Nat := 0
deriving DecidableEq, Repr

/-- A counter latch: value, `CYC` and instant. -/
structure Latch where
  /-- Latched counter. [11 R328, R346 | 32 bits | 0 (R99)] -/
  value : Word := 0
  /-- `CYC` of the latch. [04 R97, 13 R383 | 16 bits | 0] -/
  cyc : Half := 0
  /-- Instant, local ns. MODEL. [04 R97 | ns | 0] -/
  at_ : Nat := 0
deriving DecidableEq, Repr

/-- A field channel. -/
structure Chan where
  /-- `CHnn_CFG`[13:0]. [11 R346 | 14 bits | 0 (R346)] -/
  cfg : BitVec 14 := 0
  /-- Input comparator against its thresholds. [11 R321, R324 | pin | DESIGN CHOICE below (log 4)] -/
  level : Comparator := .below
  /-- Hysteresis memory. [11 R324 | 2 bits | undefined (R324)] -/
  mem : Hyst := .undef
  /-- Instant of the last comparator change, local ns. MODEL. [11 R325 | ns | 0] -/
  levelAt : Nat := 0
  /-- Memory before the changes listed in `memHist`. MODEL. [11 R325 | 2 bits | undefined] -/
  memBase : Hyst := .undef
  /-- Memory changes of the last 1.2 µs, oldest first: instant of the crossing and new value. MODEL.
  [11 R325 | list | empty] -/
  memHist : List (Nat × Hyst) := []
  /-- `DI-PS` sink energised. [11 R322 | 1 bit | 0 (R322)] -/
  sink : Bool := false
  /-- Instant at which the `DI-PS` sink was energised, local ns. [11 R324 | ns | 0] -/
  sinkAt : Nat := 0
  /-- Cause 0x1, coupler. [11 R340 | 1 bit | 0 (R346)] -/
  fCoupler : Bool := false
  /-- Cause 0x2, group supply low. [11 R341 | 1 bit | 0 (R346)] -/
  fSupply : Bool := false
  /-- Cause 0x3, current limit. [11 R336 | 1 bit | 0 (R346)] -/
  fLimit : Bool := false
  /-- Cause 0x4, thermal cut-off. [11 R336 | 1 bit | 0 (R346)] -/
  fThermal : Bool := false
  /-- Cause 0x5, open load. [11 R337 | 1 bit | 0 (R346)] -/
  fOpen : Bool := false
  /-- Instant at which the first of the present causes appeared, local ns. [11 R330 | ns | 0] -/
  faultAt : Nat := 0
  /-- Instant at which cause 0x1 appeared, local ns. [11 R340 | ns | 0] -/
  couplerAt : Nat := 0
  /-- `CHnn_FAULT`, sticky: coupler, supply, limit, thermal, open load. [11 R346 | 5 bits | 0 (R346)] -/
  fault : BitVec 5 := 0
  /-- `CHnn_IRQEN`. [11 R346 | 5 bits | 0] -/
  irqEn : BitVec 5 := 0
  /-- Output command the field side holds, the last one its link received. [11 R339, R340 | 1 bit | 0 (R338)] -/
  cmd : Bool := false
  /-- Grid value of a `DQ` channel. [11 R332, R338 | 1 bit | 0 (R338)] -/
  grid : Bool := false
  /-- Pending `DRV` values, oldest first, with the instants they took effect. [11 R332 | list | empty] -/
  pend : List (Bool × Nat) := []
  /-- `OUTPUT_LOCK` value. [04 R111 | option of 1 bit | none (R338)] -/
  lock : Option Bool := none
  /-- `CH_FORCE` value. [11 R343 | option of 2 bits | none (R338)] -/
  force : Option (BitVec 2) := none
  /-- Instant at which the force's timeout expires, local ns; `CHnn_FORCE` shows the seconds left.
  [11 R344, R346 | ns | 0] -/
  forceEnd : Nat := 0
  /-- The force's timeout has expired. [11 R344 | 1 bit | 0] -/
  forceOver : Bool := false
  /-- Latest capture. [11 R325 | record | STATE 0b10 (R346)] -/
  cap : Capture := {}
  /-- The capture before it, still visible for 2 ticks. [04 R97 | record | STATE 0b10 (R346)] -/
  capPrev : Capture := {}
  /-- 32-bit counter of a `DI-CNT` channel. [11 R328 | 32 bits | 0 (R328)] -/
  cnt : Word := 0
  /-- Instants of the transitions counted in the last 1.2 µs. [11 R328 | list | empty] -/
  cntAt : List Nat := []
  /-- Latest counter latch. [11 R328 | record | 0 (R99)] -/
  latch : Latch := {}
  /-- The latch before it. [04 R97 | record | 0 (R99)] -/
  latchPrev : Latch := {}
  /-- `CHnn_EPIS`: limit episodes. [11 R346 | 16 bits | 0 (R346)] -/
  epLimit : Half := 0
  /-- `CHnn_EPIS`: thermal cut-offs. [11 R346 | 16 bits | 0 (R346)] -/
  epThermal : Half := 0
  /-- `CHnn_LOSS`: coupler losses. [11 R346 | 16 bits | 0 (R346)] -/
  losses : Half := 0
  /-- `CHnn_LOSS`: open-load detections. [11 R346 | 16 bits | 0 (R346)] -/
  opens : Half := 0
  /-- `CHnn_LOAD`. [11 R342, R346 | 10 bits | 0] -/
  load : BitVec 10 := 0
deriving DecidableEq, Repr

/-! ### Measurement and bench (12) -/

/-- A captured measurement (R349). -/
structure MeasCap where
  /-- Value as `MEAS` returns it. [12 R349, 13 R384 | 32 bits | DESIGN CHOICE 0 (log 4)] -/
  value : Word := 0
  /-- `CYC` of the capture. [12 R349 | 16 bits | 0] -/
  cyc : Half := 0
  /-- Instant, local ns. MODEL. [04 R97 | ns | 0] -/
  at_ : Nat := 0
deriving DecidableEq, Repr

/-- Supply classification under way (R352). -/
structure Classify where
  /-- Consecutive samples below 0.6 Un. [12 R352 | count | 0] -/
  dipRun : Nat := 0
  /-- Consecutive samples at or above 0.7 Un during a dip. [12 R352 | count | 0] -/
  dipEnd : Nat := 0
  /-- A dip is in progress. [12 R352 | 1 bit | 0] -/
  dip : Bool := false
  /-- Its samples so far (100 µs steps). [12 R352 | count | 0] -/
  dipTime : Nat := 0
  /-- Its lowest code. [12 R352 | 12 bits | 0] -/
  dipLow : Nat := 0
  /-- Consecutive samples below the converter stop. [12 R352 | count | 0] -/
  intRun : Nat := 0
  /-- Consecutive samples above the converter start during an interruption. [12 R352 | count | 0] -/
  intEnd : Nat := 0
  /-- An interruption is in progress. [12 R352 | 1 bit | 0] -/
  intr : Bool := false
  /-- Its samples so far. [12 R352 | count | 0] -/
  intTime : Nat := 0
  /-- Time below 0.6 Un before it. [12 R352 | count | 0] -/
  intDip : Nat := 0
  /-- Consecutive samples above 1.4 Un. [12 R352 | count | 0] -/
  surgeRun : Nat := 0
  /-- Consecutive samples at or below 1.35 Un during a surge. [12 R352 | count | 0] -/
  surgeEnd : Nat := 0
  /-- A surge is in progress. [12 R352 | 1 bit | 0] -/
  surge : Bool := false
  /-- Its samples so far. [12 R352 | count | 0] -/
  surgeTime : Nat := 0
  /-- Its peak code. [12 R352 | 12 bits | 0] -/
  surgePeak : Nat := 0
  /-- Consecutive samples at or below 154 V during an overvoltage. [12 R352 | count | 0] -/
  overEnd : Nat := 0
  /-- An overvoltage is in progress. [12 R352 | 1 bit | 0] -/
  ovr : Bool := false
  /-- Samples above 154 V so far. [12 R352 | count | 0] -/
  overTime : Nat := 0
  /-- Peak code above 154 V. [12 R352 | 12 bits | 0] -/
  overPeak : Nat := 0
deriving DecidableEq, Repr

/-- The measurement unit. -/
structure Meas where
  /-- `MS_BAT`. [12 R348, 17 R488 | 12 bits | 0 (R488)] -/
  bat : BitVec 12 := 0
  /-- `MS_IIN`. [12 R348, 17 R488 | 12 bits | 0 (R488)] -/
  iin : BitVec 12 := 0
  /-- `MS_HU`. [12 R348, 17 R488 | 12 bits | 0 (R488)] -/
  hu : BitVec 12 := 0
  /-- `MS_TEMP0`–`MS_TEMP2`. [12 R348, 17 R488 | 3 × 16 bits | 0 (R488)] -/
  temps : List Half := [0, 0, 0]
  /-- `MS_G0`–`MS_G3`. [12 R348, 17 R488 | 4 × 10 bits | 0 (R488)] -/
  groups : List (BitVec 10) := [0, 0, 0, 0]
  /-- `MS_RAIL0`–`MS_RAIL3`. [12 R348, 17 R488 | 4 × 12 bits | 0 (R488)] -/
  rails : List (BitVec 12) := [0, 0, 0, 0]
  /-- `MS_UN`[1:0]: 0 not selected, 1 24 V, 2 72 V, 3 110 V. [12 R353, 17 R488 | 2 bits | 0 (R488)] -/
  un : Nat := 0
  /-- `MS_UN`[8]: selected by `UN_SEL`. [12 R353, 17 R488 | 1 bit | 0 (R488)] -/
  unBySel : Bool := false
  /-- Sum of the `BAT+` samples since entry into `BRINGUP`. [12 R353 | sum | 0] -/
  batSum : Nat := 0
  /-- Number of those samples. [12 R353 | count | 0] -/
  batCount : Nat := 0
  /-- Supply classification. [12 R352 | record | idle (R351)] -/
  cls : Classify := {}
  /-- `MS_DIP`, saturating. [12 R352, 17 R488 | 16 bits | 0 (R351)] -/
  nDip : Half := 0
  /-- `MS_INT_S2`, saturating. [12 R352, 17 R488 | 16 bits | 0 (R351)] -/
  nIntS2 : Half := 0
  /-- `MS_INT_S3`, saturating. [12 R352, 17 R488 | 16 bits | 0 (R351)] -/
  nIntS3 : Half := 0
  /-- `MS_INT_LONG`, saturating. [12 R352, 17 R488 | 16 bits | 0 (R351)] -/
  nIntLong : Half := 0
  /-- `MS_SURGE`, saturating. [12 R352, 17 R488 | 16 bits | 0 (R351)] -/
  nSurge : Half := 0
  /-- `MS_OVER`, saturating. [12 R352, 17 R488 | 16 bits | 0 (R351)] -/
  nOver : Half := 0
  /-- Levels of board, die, field side, `MS_TLEVEL`. [12 R357, 17 R488 | 3 × 2 bits | NORMAL (R360)] -/
  tlevel : List TLevel := [.normal, .normal, .normal]
  /-- Sensor implausible, `MS_TLEVEL`[10:8]. [12 R359, 17 R488 | 3 bits | 0 (R488)] -/
  tBad : List Bool := [false, false, false]
  /-- `MS_TWARN0`–`2`, saturating. [12 R358, 17 R488 | 3 × 16 bits | 0 (R351)] -/
  twarn : List Half := [0, 0, 0]
  /-- `MS_TCRIT0`–`2`, saturating. [12 R358, 17 R488 | 3 × 16 bits | 0 (R351)] -/
  tcrit : List Half := [0, 0, 0]
  /-- Consecutive rail samples out of window, per rail, and 3-sample state. [12 R355 | 4 × count | 0] -/
  railRun : List Nat := [0, 0, 0, 0]
  /-- Rail event raised and not cleared. [12 R355 | 4 bits | 0] -/
  railOut : List Bool := [false, false, false, false]
  /-- Consecutive group-supply samples across the 30 V limit. [12 R355 | 4 × count | 0] -/
  grpRun : List Nat := [0, 0, 0, 0]
  /-- Group-supply event raised and not cleared. [12 R355 | 4 bits | 0] -/
  grpOut : List Bool := [false, false, false, false]
  /-- Latest captures by set × 16 + entry. [12 R349 | 256 records | DESIGN CHOICE 0 (log 4)] -/
  caps : List (Nat × MeasCap) := []
  /-- The captures before them. [04 R97 | 256 records | 0] -/
  capsPrev : List (Nat × MeasCap) := []
deriving DecidableEq, Repr

/-- A bench request or result (R361, R363). -/
structure BenchReq where
  ticket : Nat
  kind   : Nat
  obj    : Nat
  /-- Status of `BN_RESULT`: 0 `QUEUED` … 5 `REFUSED`. -/
  status : Nat
  detail : Word
  /-- Requested by the core redundancy (R440). -/
  repair : Bool
  /-- A macrocycle start has passed since it was queued (R363). -/
  aged   : Bool
deriving DecidableEq, Repr

/-- The bench engine. -/
structure Bench where
  /-- Queue, oldest first, at most 16. [12 R361 | 16 entries | empty (R488)] -/
  queue : List BenchReq := []
  /-- The last 16 results, newest first, `BN_RESULT`. [12 R363, 17 R488 | 16 entries | empty (R488)] -/
  results : List BenchReq := []
  /-- Open slot: declaration index and end in local ns. [04 R107 | option | none (R488)] -/
  slot : Option (Nat × Nat) := none
  /-- The running request. [12 R362 | option | none] -/
  running : Option BenchReq := none
  /-- Next ticket. [12 R361 | 4 bits | DESIGN CHOICE 0 (log 4)] -/
  next : Nat := 0
  /-- Last ticket given, `BN_STATUS`[15:12]. [17 R488 | 4 bits | 0 (R488)] -/
  last : Nat := 0
deriving DecidableEq, Repr

/-! ### The cores (04, 13, 15) -/

/-- A loop entry (R381). -/
structure LoopEnt where
  start : Nat
  stop  : Nat
  left  : Nat
  level : Nat
deriving DecidableEq, Repr

/-- A running task: entry point, start instant in local ns, elapsed count E, budget, bank mask, exit signature. -/
structure TaskRun where
  entry  : Nat
  start  : Nat
  e      : Nat
  budget : Nat
  banks  : BitVec 4
  xsig   : Half
deriving DecidableEq, Repr

/-- One execution core. -/
structure Core where
  /-- Registers `g0`–`g31`; `g0` reads 0. [04 R92, 13 R371 | 32 × 32 bits | 0 (R373)] -/
  regs : List Word := List.replicate 32 0
  /-- `ST`.N. [13 R372 | 1 bit | 0 (R373)] -/
  n : Bool := false
  /-- `ST`.Z. [13 R372 | 1 bit | 0 (R373)] -/
  z : Bool := false
  /-- `ST`.C. [13 R372 | 1 bit | 0 (R373)] -/
  c : Bool := false
  /-- `ST`.V. [13 R372 | 1 bit | 0 (R373)] -/
  v : Bool := false
  /-- Control-flow signature. [13 R373 | 16 bits | 0 (R373)] -/
  sig : Half := 0
  /-- Return stack, top first, at most 8. [13 R373 | 8 entries | empty (R373)] -/
  rets : List Nat := []
  /-- Loop stack, innermost first, at most 4. [13 R373 | 4 entries | empty (R373)] -/
  loops : List LoopEnt := []
  /-- Index of the next instruction. [13 R381 | 16 bits | 0] -/
  pc : Nat := 0
  /-- The running task. [04 R92 | option | none (R373)] -/
  task : Option TaskRun := none
  /-- Code memory from index 0; beyond it reads 0xFFFF_FFFF. [04 Table 4.3, 13 R369 | 65,536 words | erased] -/
  code : List Word := []
  /-- Data memory, sparse; what an unlisted byte reads as is `Core.dataDefault`. [04 Table 4.3 | 256 KiB | log 5] -/
  data : List Host.Cell := []
  /-- Per bank: 0 when unlisted bytes read 0, else the mark of the loss of content under which they are free.
  [03 R62, R543 | 4 × mark | 0 (log 5)] -/
  lost : List Nat := [0, 0, 0, 0]
  /-- Data words that hold an error: word index and whether it is uncorrectable. [13 R379 | list | empty (log 7)] -/
  dataErr : List (Nat × Bool) := []
deriving DecidableEq, Repr

/-- A copy of the checkpoint variables, Table 4.5. -/
structure ChkCopy where
  seq   : Word
  cyc   : Half
  imgId : Word
  data  : Bytes
deriving DecidableEq, Repr

/-- A takeover in progress (R433). -/
structure Takeover where
  /-- Step in progress, 1–4; 5 ready. -/
  step    : Nat
  /-- Cycle starts since the yield. -/
  starts  : Nat
  /-- Instant at which the RXC became ready, local ns. -/
  readyAt : Nat
  /-- `SEQ` of the copy loaded. -/
  seq     : Word
deriving DecidableEq, Repr

/-- Where a pending revert stands (R441, R442). -/
inductive Revert | none | holdoff | load | waitCopy | boundary
deriving DecidableEq, Repr

/-- The two cores and their redundancy. -/
structure Cores where
  /-- PXC. [04 R92 | record | cleared] -/
  pxc : Core := {}
  /-- RXC. [15 R424 | record | cleared] -/
  rxc : Core := {}
  /-- `CR_STATUS.ACTIVE`: 0 PXC, 1 RXC, 2 none. [15 R424 | 2 bits | 0 (R444 table)] -/
  active : Nat := 0
  /-- The PXC has yielded and not come back. [15 R440 | 1 bit | 0 (R424)] -/
  pxcYielded : Bool := false
  /-- `PXC_YIELDED`: the PXC has yielded since `BRINGUP`. [15 CR_STATUS | 1 bit | 0 (CR_STATUS)] -/
  pxcEver : Bool := false
  /-- `RXC_FAILED`. [15 R435 | 1 bit | 0 (CR_STATUS)] -/
  rxcFailed : Bool := false
  /-- `TAKEOVERS`, saturating. [15 CR_STATUS | 8 bits | 0 (CR_STATUS)] -/
  takeovers : Byte := 0
  /-- `REPAIRS`. [15 R441 | 2 bits | 0 (CR_STATUS)] -/
  repairs : Nat := 0
  /-- `CR_HEALTH.RUNS`, wrapping. [15 CR_HEALTH | 16 bits | 0 (CR_HEALTH)] -/
  runs : Half := 0
  /-- `CR_HEALTH.FAILS`, saturating. [15 CR_HEALTH | 8 bits | 0 (CR_HEALTH)] -/
  shFails : Byte := 0
  /-- `CR_HEALTH.RXC_OK`. [15 R431 | 1 bit | 0 (CR_HEALTH)] -/
  rxcOk : Bool := false
  /-- `CR_HEALTH.LOADED`. [15 R432 | 1 bit | 0 (CR_HEALTH)] -/
  loaded : Bool := false
  /-- The RXC is loading code and data under R432. [15 R432 | 1 bit | 0] -/
  loading : Bool := false
  /-- `CR_YIELD`. [15 R427 | 32 bits | 0 (CR_YIELD)] -/
  yieldReg : Word := 0
  /-- `CR_TASK_SKIP`. [04 R96, 17 R488 | 32 bits | 0 (R488)] -/
  taskSkip : Word := 0
  /-- `CR_OVERRUNS`, saturating. [17 R488 | 16 bits | 0 (R488)] -/
  overruns : Half := 0
  /-- `CR_ORDERS`. [17 R488 | 32 bits | 0 (R488)] -/
  orders : Word := 0
  /-- Order flag word, `CR_ORDFLAG`. [04 R112, 17 R488 | 32 bits | 0 (R112)] -/
  ordFlag : Word := 0
  /-- Takeover in progress. [15 R433 | option | none (R424)] -/
  takeover : Option Takeover := none
  /-- Revert pending. [15 R442 | 3 bits | none (R424)] -/
  revert : Revert := .none
  /-- End of step 2 of the revert, local ns. MODEL. [15 R442 | ns | 0] -/
  revertAt : Nat := 0
  /-- Repair runs; false once stopped under R441. [15 R440 | 1 bit | 0] -/
  repairing : Bool := false
  /-- Next `CORE_REPAIR` step of the pass. [15 R440 | 5 bits | 0] -/
  repairStep : Nat := 0
  /-- Checkpoint store copies in `PD119`; none is an invalid copy. [04 R102 | 2 copies | invalid (R106)] -/
  chk : List (Option ChkCopy) := [none, none]
  /-- `SEQ` of the next checkpoint copy. [04 Table 4.5 | 32 bits | DESIGN CHOICE 0 (log 4)] -/
  chkSeq : Word := 0
  /-- A sleep countdown ended during a takeover. [03 R72, 15 R437 | 1 bit | 0] -/
  sleepAfter : Bool := false
deriving DecidableEq, Repr

/-! ### Grid and orders (04) -/

/-- The run state of one standing order (R21, R22). -/
structure OrderRun where
  /-- The condition was high at the last cycle start. [04 R110 | 1 bit | 0 (R25)] -/
  high : Bool := false
deriving DecidableEq, Repr

/-- The grid sequencer and the standing orders. -/
structure Grid where
  /-- The image in service, with its slot and `GEN`. [14 R408 | option | none (R540)] -/
  img : Option (Nat × Word × Image) := none
  /-- Grid entries that hold an error: index and whether it is uncorrectable. [04 R90 | list | empty (log 7)] -/
  errs : List (Nat × Bool) := []
  /-- Run state of the standing orders. [04 R21 | 64 × 1 bit | 0 (R25)] -/
  orders : List OrderRun := []
  /-- The standing-order table is armed. [01 R25 | 1 bit | 0 (R74)] -/
  armed : Bool := false
  /-- Events counted for the coming cycle start: code and instance. [04 R110 | list | empty] -/
  evNow : List (Half × Byte) := []
  /-- Events of the last 1 µs of the cycle, counted for the start after it. [04 R110 | list | empty] -/
  evNext : List (Half × Byte) := []
  /-- The grid fires entries (`RUN` and `NOCORE`; stopped in `QUIESCE`). [10 R296 | 1 bit | 0] -/
  on : Bool := false
deriving DecidableEq, Repr

/-! ### NV store and images (14) -/

/-- For whom the controller works, in the priority order of R412. -/
inductive NvWho | inc | jnv | cfg | chk | preErase | jnvErase | host
deriving DecidableEq, Repr

/-- An erase (`data` empty, `addr` the sector's first address) or a program of the NV controller. -/
structure NvOp where
  who   : NvWho
  erase : Bool
  addr  : Nat
  data  : Bytes
deriving DecidableEq, Repr

/-- A host NV command that runs or waits (R415). -/
structure NvJob where
  code : Byte
  jseq : Word
  path : Path
  a0   : Word
  a1   : Word
  a2   : Word
  data : Bytes
  /-- Progress: the next sector or unit of the command. -/
  pos  : Nat
  /-- The step within it: verification or operations of `IMG_COMMIT` and `KEY_ADD`, steps of R421 for `NV_REFRESH`. -/
  phase : Nat
  /-- Unit of the sector being copied (R421). -/
  unit : Nat
  /-- Sectors refreshed so far (R421). -/
  count : Nat
deriving DecidableEq, Repr

/-- A JNV entry being written: whose, whether a completion entry, its 32 bytes, and whether its second unit stands. -/
structure JnvWrite where
  jseq  : Word
  compl : Bool
  bytes : Bytes
  half  : Bool
deriving DecidableEq, Repr

/-- One key slot of the VPD zone (R404). -/
structure KeySlot where
  key     : Bytes
  revoked : Bool
  /-- Its read meets an uncorrectable unit (R545). -/
  unread  : Bool
deriving DecidableEq, Repr

/-- Values stored in the CFG zone (R80, R81, R464, R504). -/
structure Cfg where
  /-- Stored operating seconds. [03 R81, 14 R409 | option of 32 bits | none (R539)] -/
  opsec : Option Word := none
  /-- Stored power-cycle count. [03 R80 | option of 24 bits | none (R539)] -/
  pcyc : Option (BitVec 24) := none
  /-- Stored wake-failure count. [03 R76, 17 R480 | option of 8 bits | none (R539)] -/
  wfail : Option Byte := none
  /-- Stored next `JSEQ` N. [18 R504 | option of 32 bits | none (R539)] -/
  n : Option Word := none
  /-- Clean mark of the last stored value. [18 R504 | 1 bit | 0 (R539)] -/
  clean : Bool := false
  /-- Stored session counter. [16 R464 | option of 64 bits | none (R539)] -/
  nonce : Option DWord := none
deriving DecidableEq, Repr

/-- Verification stage of `BRINGUP` (R408): slots still to verify, and the slot in verification. -/
structure Verif where
  /-- Slot in verification. [14 R408 | option | none] -/
  cur : Option Nat := none
  /-- Slots waiting, in descending `GEN` order. [14 R408 | list | empty] -/
  rest : List Nat := []
  /-- A slot was refused in this `BRINGUP`. [07 R191 | 1 bit | 0] -/
  refused : Bool := false
  /-- The admitted image being loaded, with its slot and `GEN`. [14 R407 | option | none] -/
  admitted : Option (Nat × Word × Image) := none
  /-- Loading is complete: the node enters `RUN` at the next cycle start. [03 R71 | 1 bit | 0] -/
  loaded : Bool := false
deriving DecidableEq, Repr

/-- The NV controller, the image slots and the verifier. -/
structure Nv where
  /-- The store, sparse: an unlisted byte reads 0xFF. [14 R409 | 8 MiB | erased (R539)] -/
  mem : List Host.Cell := []
  /-- Erase count per sector. [14 R413 | 2,048 × 32 bits | DESIGN CHOICE 0 (log 4)] -/
  wear : List (Nat × Word) := []
  /-- Operating seconds at the last erase per sector. [14 R413 | 2,048 × 32 bits | DESIGN CHOICE 0 (log 4)] -/
  erasedAt : List (Nat × Word) := []
  /-- Units that hold an error: unit index and whether it is uncorrectable. [14 R411 | list | empty (log 7)] -/
  errs : List (Nat × Bool) := []
  /-- Erase mark. [14 R413 | option of a sector | none] -/
  eraseMark : Option Nat := none
  /-- Slot-record program mark. [14 R413 | option of a slot | none] -/
  recMark : Option Nat := none
  /-- Refresh mark: target sector and spare sector. [14 R413, R421 | option | none] -/
  refMark : Option (Nat × Nat) := none
  /-- The operation in progress. [14 R412 | option | none] -/
  op : Option NvOp := none
  /-- CFG stores still pending. [14 R412 | list | empty] -/
  cfgQ : List Cfg := []
  /-- Values in the CFG zone. [14 R409 | record | erased (R539)] -/
  cfg : Cfg := {}
  /-- Checkpoint save in progress: what is still to program. [14 R420 | list | empty] -/
  chkQ : List NvOp := []
  /-- A checkpoint save is pending, by a host command or by `CHKP`. [14 R420 | 1 bit | 0] -/
  chkPending : Bool := false
  /-- Next CHK position, 0–15. [14 R420 | 4 bits | 0 (R420)] -/
  chkPos : Nat := 0
  /-- Sectors of that position still to pre-erase. [14 R420 | list of sectors | empty] -/
  preErase : List Nat := []
  /-- JNV write point: byte offset in the ring. [18 R500 | 19 bits | 0 (R500)] -/
  jnvPos : Nat := 0
  /-- JNV entry being written. [18 R499 | option | none] -/
  jnvCur : Option JnvWrite := none
  /-- JNV sector whose first entry has been written, so that its successor's erase has been started.
  [18 R500 | option | none] -/
  jnvArm : Option Nat := none
  /-- JNV sector being pre-erased or waiting for it. [18 R500 | option | none] -/
  jnvErase : Option Nat := none
  /-- Host NV command that runs. [14 R415 | option | none] -/
  job : Option NvJob := none
  /-- Host NV commands that wait (`NV_PROGRAM` behind `NV_PROGRAM`). [14 R415 | list | empty] -/
  jobQ : List NvJob := []
  /-- `NV_STATUS`. [14 R415, 17 R488 | 32 bits | 0 (R488)] -/
  status : Word := 0
  /-- `NV_SEL`. [17 R488 | 11 bits | 0 (R488)] -/
  sel : BitVec 11 := 0
  /-- `NV_CORR`. [17 R488 | 32 bits | 0 (R488)] -/
  corr : Word := 0
  /-- `NV_UNCORR`. [17 R488 | 32 bits | 0 (R488)] -/
  uncorr : Word := 0
  /-- Last refusal code per slot, `IM_STATUS`. [14 R406, 17 R488 | 2 × 8 bits | 0 (R488)] -/
  refusal : List Byte := [0, 0]
  /-- Staged slots, `IM_STATUS`. [14 R416, 17 R488 | 2 bits | 0 (R488)] -/
  staged : List Bool := [false, false]
  /-- Key slots 0–7. [14 R404, 20 R539 | 8 × 48 bytes | slot 0 factory key, 1–7 empty (R539)] -/
  keys : List KeySlot :=
    ⟨Config.factoryKey, false, false⟩ :: List.replicate 7 ⟨List.replicate 32 0xFF, false, false⟩
  /-- Verification in `BRINGUP`. [14 R408 | record | idle] -/
  ver : Verif := {}
deriving DecidableEq, Repr

/-! ### Journal and logs (18) -/

/-- A journal entry, Table 18.1. -/
structure JEntry where
  jseq     : Word
  code     : Byte
  path     : Path
  persist  : Bool
  mirrored : Bool
  /-- 2 `QUEUED`, 3 `EXECUTING`, 4 `DONE`, 6 `ABANDONED`. -/
  state    : Nat
  result   : Byte
  detail   : Half
  cyc      : Half
  opsec    : Word
  args     : List Word
deriving DecidableEq, Repr

/-- An entry of the execution queue (R470): a class-P command keeps its place until its last JNV entry is written. -/
structure QCmd where
  /-- Its journal entry, kept beside the RAM ring's. -/
  ent   : JEntry
  /-- The units an `NV_PROGRAM` copied from its bank (R415), or the key and signature of `KEY_ADD`. -/
  data  : Bytes
  /-- Its command entry stands in JNV (R499). -/
  wrote : Bool
  /-- That entry carried `EXECUTING`, so that a completion entry follows (R499). -/
  wroteExec : Bool
deriving DecidableEq, Repr

/-- A record of the operational log, Table 18.2. -/
structure OplRec where
  code   : Half
  inst   : Byte
  data   : List Word
  oseq   : Word
  repeat_ : Half
  /-- The 8-byte form of R507. -/
  short  : Bool
deriving DecidableEq, Repr

/-- The event record the INC counts repeats of (R513). -/
structure IncLast where
  code    : Half
  inst    : Byte
  data    : List Word
  /-- Offset of the event record in the zone. -/
  offset  : Nat
  /-- Repeats counted, saturating at 65,535. -/
  count   : Nat
  /-- Repeats covered by the newest trailer. -/
  written : Nat
  /-- Operating seconds of the last counted repeat. -/
  opsec   : Word
  /-- Power-cycle count of the last counted repeat. -/
  pcyc    : BitVec 24
deriving DecidableEq, Repr

/-- An arming of `LOG_CLEAR` (R517). -/
structure Arm where
  path : Path
  /-- Local ns at which it was armed. -/
  at_  : Nat
deriving DecidableEq, Repr

/-- Journal, logs and event latches. -/
structure Logs where
  /-- OPL records, oldest first. [18 R507 | 32 KiB | empty (R510)] -/
  opl : List OplRec := []
  /-- OPL bytes in use, `LG_OPL_USED`. [17 R482 | 16 bits | 0 (R482)] -/
  oplUsed : Nat := 0
  /-- `OPL_FULL`. [18 R509 | 1 bit | 0 (LG_STATUS)] -/
  oplFull : Bool := false
  /-- Next `OSEQ`. [18 R507 | 32 bits | 0 (R510)] -/
  oseq : Word := 0
  /-- INC records waiting in the write buffer, oldest first, at most 4 KiB. [18 R512 | list of records | empty] -/
  incBuf : List Bytes := []
  /-- INC write point in the zone: the end of the programmed records. [18 R511, R516 | 21 bits | 0 (R539)] -/
  incPos : Nat := 0
  /-- Units of the oldest waiting INC record already programmed. [18 R511 | count | 0] -/
  incUnit : Nat := 0
  /-- The event record of which repeats are counted. [18 R513 | option | none] -/
  incLast : Option IncLast := none
  /-- INC records dropped since the last event 0x9042. [18 R512 | count | 0] -/
  incDrops : Nat := 0
  /-- `INC_FULL`. [18 R514 | 1 bit | 0 (LG_STATUS)] -/
  incFull : Bool := false
  /-- `INC_CLEARING`. [18 R518 | 1 bit | 0 (LG_STATUS)] -/
  incClearing : Bool := false
  /-- OPL armed for clearing. [18 R517 | option | none (LG_STATUS)] -/
  oplArm : Option Arm := none
  /-- INC armed for clearing. [18 R517 | option | none (LG_STATUS)] -/
  incArm : Option Arm := none
  /-- `LG_EVHIT`. [17 R481 | 16 bits | 0 (R482)] -/
  evHit : Half := 0
  /-- `LG_EVIRQ`. [17 R482 | 16 bits | 0 (R482)] -/
  evIrq : Half := 0
  /-- `LG_EVMATCH0`–`15`. [17 R481 | 16 × 32 bits | 0 (R482)] -/
  evMatch : List Word := List.replicate 16 0
  /-- Journal RAM ring, oldest first, at most 2,048. [18 R498 | 2,048 × 32 bytes | empty (R505)] -/
  ring : List JEntry := []
  /-- Next journal sequence number N. [18 R504 | 32 bits | 0 (R504)] -/
  jseq : Word := 0
  /-- `JR_STATUS.GAP`. [18 R505 | 1 bit | 0 (JR_STATUS)] -/
  gap : Bool := false
  /-- Execution queue, in journal order, at most 64. [16 R470 | 64 entries | empty] -/
  execQ : List QCmd := []
  /-- Local ns of the last acceptance, for the 100 µs spacing. [16 R469 | option | none] -/
  lastAccept : Option Nat := none
deriving DecidableEq, Repr

/-! ### Registers and host access (16, 17) -/

/-- A drawer (R519). -/
structure Drawer where
  /-- `DRn_SEL`. [18 R519, 17 R482 | 32 bits | 0 (R482)] -/
  sel : Word := 0
  /-- `DRn_CURSOR` as it reads. [18 R519, 17 R482 | 32 bits | 0 (R482)] -/
  cursor : Word := 0
  /-- Position: byte offset, or index of the JNV ring position for selector 4. [18 R520 | offset | 0] -/
  pos : Nat := 0
  /-- `DRn_WIN0`–`15`. [18 R519, 17 R482 | 16 × 32 bits | 0 (R482)] -/
  win : List Word := List.replicate 16 0
  /-- `DRn_STATUS`. [18 R520 | 11 bits | END = 1 (DRn_STATUS)] -/
  status : Word := 1
deriving DecidableEq, Repr

/-- A command bank (R468). -/
structure CmdBank where
  /-- `CMD_ARG0`–`3`. [17 R479 | 4 × 32 bits | 0 (R479)] -/
  args : List Word := [0, 0, 0, 0]
  /-- `CMD_CODE`. [17 R479 | 8 bits | 0 (R479)] -/
  code : Byte := 0
  /-- `CMD_RESULT.STATE`. [17 R480 | 3 bits | 0 (CMD_RESULT)] -/
  state : Nat := 0
  /-- `CMD_RESULT.RESULT`. [17 R480 | 8 bits | 0 (CMD_RESULT)] -/
  result : Byte := 0
  /-- `CMD_RESULT.DETAIL`. [17 R480 | 16 bits | 0 (CMD_RESULT)] -/
  detail : Half := 0
  /-- `CMD_JSEQ`. [17 R479 | 32 bits | 0 (R479)] -/
  jseq : Word := 0
  /-- `CMD_EVENT`. [17 R479 | 2 bits | 0 (R479)] -/
  event : BitVec 2 := 0
  /-- `CMD_IRQ_EN`. [17 R479 | 2 bits | 0 (R479)] -/
  irqEn : BitVec 2 := 0
  /-- `NV_BUF0`–`63`. [17 R479 | 64 × 32 bits | 0 (R479)] -/
  nvBuf : List Word := List.replicate 64 0
  /-- A submission waiting in `CHECKING`: code and the arguments held. [16 R469 | option | none] -/
  waiting : Option (Byte × List Word) := none
deriving DecidableEq, Repr

/-- An in-band session of one path (R464). -/
structure Session where
  nonce    : DWord
  /-- Waiting for `OPEN` after the `CHALLENGE`. -/
  opening  : Bool
  /-- The `CHALLENGE` has gone out, after its nonce was stored. -/
  sent     : Bool
  keyslot  : Nat
  /-- Last accepted `SEQ`. -/
  seq      : Word
  /-- The stored `RESPONSE`. -/
  response : Bytes
  /-- Where answers go: node number, or E0 source address. -/
  peer     : BitVec 48
deriving DecidableEq, Repr

/-- A PDU in the verifier's queue (R465). -/
structure PduWait where
  path   : Path
  source : BitVec 48
  pdu    : Bytes
deriving DecidableEq, Repr

/-- Registers, command banks, drawers, in-band sessions and the host port. -/
structure Regs where
  /-- `GEN_CTRL`. [17 R479 | 2 bits | 0 (R479)] -/
  genCtrl : BitVec 2 := 0
  /-- `GEN_IRQ_EN`. [17 R479 | 5 bits | 0 (R479)] -/
  irqEn : BitVec 5 := 0
  /-- `GEN_STATUS.CFG_MISMATCH`. [16 R462 | 1 bit | 0 (GEN_STATUS)] -/
  mismatch : Bool := false
  /-- `GEN_TAG0`–`3`. [17 R479 | 4 × 32 bits | 0 (R479)] -/
  tags : List Word := [0, 0, 0, 0]
  /-- `GEN_SCRATCH`. [17 R479 | 32 bits | 0 (R479)] -/
  scratch : Word := 0
  /-- Active values of the `WS` registers by offset; an unlisted one is 0. [00 R6, 17 R486 | 133 × 32 bits | 0] -/
  ws : List (Nat × Word) := []
  /-- Pending shadows that apply at the coming cycle start. [16 R457 | list | empty] -/
  shadow : List (Nat × Word) := []
  /-- Pending shadows written in the last 1 µs of the cycle. [16 R457 | list | empty] -/
  shadowLate : List (Nat × Word) := []
  /-- Active values replaced at the cycle starts of the last 1.3 ms: local ns of the start and the values until then.
  MODEL. [09 R264 | list | empty] -/
  wsHist : List (Nat × List (Nat × Word)) := []
  /-- `CFG_CRC`. [16 R461, 17 R479 | 32 bits | 0 (R479)] -/
  cfgCrc : Word := 0
  /-- `CFG_CTRL.ARMED`. [16 R462 | 1 bit | 0 (CFG_CTRL)] -/
  cfgArmed : Bool := false
  /-- `DISARM` waits for the next cycle start. [16 R462 | 1 bit | 0] -/
  disarm : Bool := false
  /-- Command banks: host port, backbone, E0. [16 R468 | 3 banks | 0 (R479)] -/
  banks : List CmdBank := [{}, {}, {}]
  /-- Drawers `DR0`, `DR1`. [18 R519 | 2 drawers | 0 (R482)] -/
  drawers : List Drawer := [{}, {}]
  /-- Last host port answer: status byte and data word. MODEL. [16 R447 | 40 bits | DESIGN CHOICE 0 (log 4)] -/
  answer : Byte × Word := (0, 0)
  /-- Session counter, the last nonce given. [16 R464 | 64 bits | 0 (R539: never stored)] -/
  nonce : DWord := 0
  /-- Backbone session. [16 R464 | option | none] -/
  sessBb : Option Session := none
  /-- E0 session. [16 R464 | option | none] -/
  sessE0 : Option Session := none
  /-- PDUs the verifier holds, at most 4. [16 R465 | list | empty] -/
  pdus : List PduWait := []
deriving DecidableEq, Repr

/-! ### The whole machine -/

/-- The state of the node and the queue of the commands that are waiting, first in, first out. -/
structure State where
  /-- Device identity. -/
  dev : Dev := {}
  /-- Power, clocks, domains, node state. -/
  pwr : Pwr := {}
  /-- Train time and cycle. -/
  cyc : Cyc := {}
  /-- The Hinge. -/
  hg : Hinge := {}
  /-- The train frame engine. -/
  tf : Tf := {}
  /-- The vehicle network. -/
  vn : Vn := {}
  /-- Equipment ports E0–E3. -/
  eq : List EqPort := [{}, {}, {}, {}]
  /-- The buffer pool. -/
  pool : Pool := {}
  /-- The Shutter. -/
  sh : Shut := {}
  /-- Field channels `CH00`–`CH31`. -/
  ch : List Chan := List.replicate 32 {}
  /-- Measurement. -/
  ms : Meas := {}
  /-- Bench. -/
  bn : Bench := {}
  /-- Cores. -/
  cr : Cores := {}
  /-- Grid and standing orders. -/
  gr : Grid := {}
  /-- NV store, images and verifier. -/
  nv : Nv := {}
  /-- Journal and logs. -/
  lg : Logs := {}
  /-- Registers and host access. -/
  rg : Regs := {}
  /-- What the latest command made the node put out. MODEL. [log 8 | list | empty] -/
  wire : List TxItem := []
  /-- Counter of the free values drawn so far. MODEL. [log 5 | count | DESIGN CHOICE 0 (log 5)] -/
  free : Nat := 0
  /-- Commands waiting, first in, first out. MODEL. [log 1 | list | empty] -/
  pending : List Instr := []
deriving DecidableEq, Repr

/-- Why the node stops. No rule of the manual stops the node for good: every fault the manual describes is a next
state. The one constructor is never raised; it is there because the type must have a name for a stop. -/
inductive Fault
  /-- Raised by nobody. Safe: no meaning answers it. -/
  | none
deriving DecidableEq, Repr

/-- Why a command is refused. -/
inductive Refusal
  /-- Raised by an arm of `exec` whose row has no meaning yet. Safe: it stops the run. -/
  | notModelled (mnemonic : String)
deriving DecidableEq, Repr

/-- The machine right after reset: a factory module (R539) before it is seated, in `OFF` (R31). -/
def State.reset : State := {}

end Sys2Proof.Machine
end

