-- ==== Sys2Proof/Machine/Ops.lean ====
section
/-! DEFINITION. The named operations every family uses: byte strings and check sums, sparse memories, the instant of a
command, free values, and raising an event (18). -/

namespace Sys2Proof.Machine

/-! ### Bytes, words, check sums -/

/-- A 32-bit word of a number. -/
def w32 (n : Nat) : Word := BitVec.ofNat 32 n

/-- The number a byte string spells, most significant byte first (R5). -/
def beNat (b : Bytes) : Nat := b.foldl (fun a x => a * 256 + x.toNat) 0

/-- The `n` bytes of a number, most significant byte first (R5). -/
def beBytes : Nat → Nat → Bytes
  | 0, _ => []
  | n + 1, v => BitVec.ofNat 8 (v / 256 ^ n) :: beBytes n (v % 256 ^ n)

/-- `n` bytes of a byte string from an offset; what lies beyond it reads 0. -/
def slice (b : Bytes) (off n : Nat) : Bytes := (List.range n).map (fun i => b.getD (off + i) 0)

/-- The number in `n` bytes at an offset. -/
def field (b : Bytes) (off n : Nat) : Nat := beNat (slice b off n)

/-- A byte string with the bytes from an offset replaced. -/
def patch (b : Bytes) (off : Nat) (p : Bytes) : Bytes :=
  b.take off ++ p ++ b.drop (off + p.length)

/-- A byte string padded with 0x00 to a length. -/
def padTo (n : Nat) (b : Bytes) : Bytes := b ++ List.replicate (n - b.length) 0

/-- One step of a non-reflected CRC of width `n` over one bit. -/
def crcBit {n : Nat} (poly r : BitVec n) : BitVec n := if r.msb then (r <<< 1) ^^^ poly else r <<< 1

/-- The CRC-16 of R187: polynomial 0x1021, initial value 0xFFFF, no reflection, no final XOR. -/
def crc16 (b : Bytes) : Half :=
  b.foldl (fun r x => (List.range 8).foldl (fun r _ => crcBit 0x1021#16 r) (r ^^^ ((x.setWidth 16 : Half) <<< (8 : Nat)))) 0xFFFF#16

/-- The CRC-8 of R447: polynomial 0x07, initial value 0x00. -/
def crc8 (b : Bytes) : Byte :=
  b.foldl (fun r x => (List.range 8).foldl (fun r _ => crcBit 0x07#8 r) (r ^^^ x)) 0#8

/-- One byte of the reflected CRC-32 of R542. -/
def crc32Byte (r : Word) (x : Byte) : Word :=
  (List.range 8).foldl
    (fun r _ => if r.getLsbD 0 then (r >>> 1) ^^^ 0xEDB88320#32 else r >>> 1) (r ^^^ x.setWidth 32)

/-- The CRC-32 of R542. -/
def crc32 (b : Bytes) : Word := ~~~ (b.foldl crc32Byte 0xFFFFFFFF#32)

/-- Saturating increment of a 16-bit counter. -/
def satInc {n : Nat} (x : BitVec n) : BitVec n := if x = BitVec.allOnes n then x else x + 1

/-- Serial-number order of R501: `a` follows `b`. -/
def follows (a b : Word) : Bool := 1 ≤ (a - b).toNat && (a - b).toNat ≤ 2147483647

/-! ### Sparse memories: strictly rising addresses, no entry that equals the default -/

/-- What a sparse map holds at a key. -/
def smGet {α : Type} (d : α) : List (Nat × α) → Nat → α
  | [], _ => d
  | (a, v) :: r, k => if k = a then v else smGet d r k

/-- A sparse map with a value put at a key; the default leaves no entry. -/
def smPut {α : Type} [DecidableEq α] (d : α) : List (Nat × α) → Nat → α → List (Nat × α)
  | [], k, v => if v = d then [] else [(k, v)]
  | (a, w) :: r, k, v =>
    if k < a then (if v = d then (a, w) :: r else (k, v) :: (a, w) :: r)
    else if k = a then (if v = d then r else (k, v) :: r)
    else (a, w) :: smPut d r k v

/-- The canonical form of a sparse map above a bound. -/
def smWfFrom {α : Type} [DecidableEq α] (d : α) : Nat → List (Nat × α) → Bool
  | _, [] => true
  | n, (a, v) :: r => decide (n ≤ a) && decide (v ≠ d) && smWfFrom d (a + 1) r

/-- The canonical form: addresses strictly rising, no entry equal to what an unlisted address reads as. -/
def smWf {α : Type} [DecidableEq α] (d : α) (m : List (Nat × α)) : Bool := smWfFrom d 0 m

/-- Bytes put from an address upward. -/
def smPutBytes (d : Byte) (m : List Host.Cell) (a : Nat) : Bytes → List Host.Cell
  | [] => m
  | x :: r => smPutBytes d (smPut d m a x) (a + 1) r

/-- `n` bytes read from an address upward. -/
def smBytes (d : Byte) (m : List Host.Cell) (a n : Nat) : Bytes := (List.range n).map (fun i => smGet d m (a + i))

/-- The canonical form of the NV store, whose unlisted bytes read erased (R409). -/
abbrev Memory.wf (m : List Host.Cell) : Bool := smWf (0xFF#8) m

/-! ### The instant, the cycle length, free values -/

/-- The present instant in local ns (log 3). -/
def State.now (s : State) : Nat := s.cyc.base + s.cyc.phase

/-- The instant of a command: time does not run backward, and the outputs are those of this command (logs 3, 8). -/
def begin_ (t : Nat) (s : State) : State :=
  { s with cyc := { s.cyc with phase := max s.cyc.phase t }, wire := [] }

/-- One output. -/
def emit (x : TxItem) (s : State) : State := { s with wire := s.wire ++ [x] }

/-- The cycle length in ns: Table 7.1; 4 ms in the bring-up cycle (R74). -/
def tCycle (s : State) : Nat :=
  match s.pwr.node, s.gr.img with
  | .bringup, _ => 4000000
  | _, some (_, _, im) => 500000 * 2 ^ im.profile.tcode.toNat
  | _, none => 4000000

/-- The macrocycle position 1-64 (R85). -/
def macroPos (s : State) : Nat := s.cyc.cyc.toNat % 64 + 1

/-- The next free word (log 5). -/
def State.freeWord (s : State) : Word := Config.freeWord s.free

/-- The next free choice (log 5). -/
def State.freeBit (s : State) : Bool := Config.freeBit s.free

/-- A free value has been drawn (log 5). -/
def drawn (s : State) : State := { s with free := s.free + 1 }

/-- The image in service. -/
def State.image (s : State) : Option Image := s.gr.img.map (fun x => x.2.2)

/-- The node is in `RUN` or `NOCORE`, where the grid and the power plan rule (R84). -/
def State.running (s : State) : Bool := s.pwr.node = .run || s.pwr.node = .nocore

/-- The node has clocks, host port, logs and NV controller (Tables 3.4 and 3.5). -/
def State.awake (s : State) : Bool :=
  match s.pwr.node with
  | .bringup | .run | .nocore | .quiesce | .limp => true
  | .off | .sleep | .waking => false

/-- A train cycle runs: `BRINGUP`, `RUN`, `NOCORE` (Table 3.4); cycles also count on in `QUIESCE`. -/
def State.cycling (s : State) : Bool :=
  match s.pwr.node with
  | .bringup | .run | .nocore => true
  | _ => false

/-- The node state code of Table 3.4. -/
def NodeState.code : NodeState → Nat
  | .off => 0 | .sleep => 1 | .waking => 2 | .bringup => 3 | .run => 4 | .quiesce => 5 | .limp => 6 | .nocore => 7

/-- The path code of Table 18.1. -/
def pathCode : Path → Nat
  | .host => 0 | .backbone => 1 | .e0 => 2

/-! ### Events (18) -/

/-- Which logs take an event: OPL, INC, and whether it is repeat-counted. -/
structure EvLogs where
  opl : Bool
  inc : Bool
  rep : Bool
deriving DecidableEq, Repr

/-- Events of 02-04: code and 1 OPL + 2 INC + 4 repeat-counted. -/
def eventTableA : List (Nat × Nat) :=
  [(0x0101, 2), (0x0102, 2), (0x0103, 2), (0x0104, 3), (0x0105, 3), (0x0106, 3),
   (0x0200, 1), (0x0201, 2), (0x0202, 3), (0x0203, 3), (0x0204, 1), (0x0205, 3), (0x0206, 5), (0x0207, 3), (0x0208, 2),
   (0x8001, 3), (0x8002, 7), (0x8003, 5), (0x8010, 1), (0x8011, 3), (0x8020, 3), (0x8021, 1)]

/-- Events of 05-07. -/
def eventTableB : List (Nat × Nat) :=
  [(0x1000, 1), (0x1001, 3), (0x1002, 3), (0x1003, 7), (0x1004, 3), (0x1005, 3), (0x1006, 1), (0x1007, 3), (0x1008, 1),
   (0x1009, 5), (0x100A, 3), (0x100B, 3), (0x1010, 1), (0x1011, 1), (0x1012, 3), (0x1013, 3), (0x1015, 3), (0x1020, 1),
   (0x1021, 3), (0x1022, 3), (0x1023, 1),
   (0x2000, 1), (0x2001, 3), (0x2002, 5), (0x2003, 7), (0x2005, 3), (0x2010, 3), (0x2011, 1),
   (0x2040, 7), (0x2041, 5), (0x2042, 5), (0x2043, 5), (0x2044, 3), (0x2045, 5), (0x2050, 5), (0x2052, 5)]

/-- Events of 08-10. -/
def eventTableC : List (Nat × Nat) :=
  [(0x3000, 1), (0x3001, 5), (0x3002, 5), (0x3003, 3), (0x3004, 1), (0x3005, 3), (0x3006, 5), (0x3007, 5), (0x3008, 1),
   (0x300A, 1),
   (0x4000, 1), (0x4001, 3), (0x4002, 5), (0x4003, 5), (0x4005, 5), (0x4006, 5), (0x4007, 5), (0x4008, 5), (0x4010, 7),
   (0x4011, 7), (0x4012, 7), (0x4013, 5), (0x4014, 3), (0x4015, 5),
   (0x5000, 1), (0x5001, 1), (0x5002, 1), (0x5003, 1), (0x5004, 3), (0x5006, 1), (0x5010, 3), (0x5011, 7), (0x5020, 1),
   (0x5021, 5), (0x5022, 5), (0x5023, 1)]

/-- Events of 11-13. -/
def eventTableD : List (Nat × Nat) :=
  [(0x6001, 1), (0x6002, 5), (0x6003, 7), (0x6004, 3), (0x6005, 7), (0x6006, 1), (0x6008, 3), (0x6009, 1), (0x6010, 1),
   (0x6011, 1), (0x6012, 1),
   (0x7000, 3), (0x7001, 3), (0x7002, 3), (0x7003, 3), (0x7004, 3), (0x7005, 3), (0x7006, 1), (0x7007, 7), (0x7008, 7),
   (0x7010, 7), (0x7011, 7), (0x7013, 3), (0x7020, 1), (0x7021, 3), (0x7022, 5), (0x7023, 5),
   (0x8041, 5), (0x8042, 5), (0x8043, 5)]

/-- Events of 14-18. -/
def eventTableE : List (Nat × Nat) :=
  [(0x8080, 3), (0x8081, 3), (0x8083, 1), (0x8084, 3), (0x8088, 3), (0x8089, 3), (0x808A, 7), (0x808B, 5), (0x808C, 3),
   (0x808D, 3), (0x8090, 1), (0x8091, 3), (0x8094, 3), (0x8095, 3), (0x8099, 3),
   (0x8100, 3), (0x8101, 3), (0x8102, 3), (0x8103, 3), (0x8104, 7), (0x8105, 5), (0x8107, 5), (0x8108, 3), (0x810A, 3),
   (0x810B, 1),
   (0x9000, 5), (0x9001, 5), (0x9002, 7), (0x9003, 3), (0x9004, 1), (0x9005, 5),
   (0x9040, 3), (0x9041, 1), (0x9042, 1), (0x9043, 2), (0x9044, 1), (0x9045, 5)]

/-- The event catalogue: every event table of 02-18. -/
def eventTable : List (Nat × Nat) := eventTableA ++ eventTableB ++ eventTableC ++ eventTableD ++ eventTableE

/-- The logs of a catalogued event. -/
def eventLogs (code : Nat) : EvLogs :=
  let f := smGet 0 eventTable code
  ⟨f % 2 = 1, f / 2 % 2 = 1, f / 4 % 2 = 1⟩

/-- The event counts for the coming cycle start, or for the one after when it rises in the cycle's last 1 µs
(R21, R110). -/
def noteWindow (code : Half) (inst : Byte) (s : State) : State :=
  if s.cyc.phase + 1000 ≤ tCycle s then
    if (code, inst) ∈ s.gr.evNow then s else { s with gr := { s.gr with evNow := s.gr.evNow ++ [(code, inst)] } }
  else
    if (code, inst) ∈ s.gr.evNext then s else { s with gr := { s.gr with evNext := s.gr.evNext ++ [(code, inst)] } }

/-- A latch word matches an event code (R481): mask in [31:16], code in [15:0]. -/
def latchMatches (m : Word) (code : Half) : Bool :=
  let mask : Half := (m >>> 16).setWidth 16
  mask ≠ 0 && (code &&& mask) = (m.setWidth 16 &&& mask)

/-- The latch bits an event sets (R481). -/
def latchBits : List Word → Half → Half
  | [], _ => 0
  | m :: r, code => (latchBits r code <<< 1) ||| (if latchMatches m code then 1 else 0)

/-- A raised event counts for standing orders and event latches whatever the logs do (R493). -/
def noteEvent (code : Half) (inst : Byte) (s : State) : State :=
  let s := noteWindow code inst s
  { s with lg := { s.lg with evHit := s.lg.evHit ||| latchBits s.lg.evMatch code } }

/-- Bytes of an OPL record (Table 18.2, R507). -/
def oplLen (r : OplRec) : Nat := if r.short then 8 else 12 + 4 * r.data.length

/-- The event equals the newest OPL record in code, instance and data (R495). -/
def oplSame (lg : Logs) (code : Half) (inst : Byte) (data : List Word) : Bool :=
  match lg.opl.getLast? with
  | some r => r.code = code && r.inst = inst && r.data = data
  | none => false

/-- An event in the OPL (R495, R507-R509). -/
def oplAdd (rep : Bool) (code : Half) (inst : Byte) (data : List Word) (lg : Logs) : Logs :=
  if rep && oplSame lg code inst data then
    { lg with opl := lg.opl.modify (lg.opl.length - 1) (fun r => { r with repeat_ := satInc r.repeat_ }) }
  else if lg.oplFull then lg
  else
    let r : OplRec := ⟨code, inst, data, lg.oseq, 0, inst = 0xFF && data.isEmpty && !rep⟩
    if lg.oplUsed + oplLen r ≤ 32768 then
      { lg with opl := lg.opl ++ [r], oplUsed := lg.oplUsed + oplLen r, oseq := lg.oseq + 1 }
    else { lg with oplFull := true }

/-- A whole INC record (Table 18.3): its body is padded to whole units. -/
def incRecord (code : Half) (inst : Byte) (kind : Byte) (opsec : Word) (pcyc : BitVec 24) (body : Bytes) : Bytes :=
  let units := 1 + (body.length + 15) / 16
  let body := padTo ((units - 1) * 16) body
  let hdr := [0x5A, BitVec.ofNat 8 units] ++ beBytes 2 code.toNat ++ beBytes 4 opsec.toNat ++ beBytes 3 pcyc.toNat
    ++ [inst, kind, 0]
  hdr ++ beBytes 2 (crc16 (hdr ++ body)).toNat ++ body

/-- The data words of an event as bytes (R494). -/
def dataBytes (data : List Word) : Bytes := data.flatMap (fun x => beBytes 4 x.toNat)

/-- Size of the INC zone (Table 14.12). -/
def incSize : Nat := 0x100000

/-- Bytes waiting in the INC write buffer. -/
def incWaiting (lg : Logs) : Nat := (lg.incBuf.map List.length).sum

/-- The next INC record's offset in the zone. -/
def incEnd (lg : Logs) : Nat := lg.incPos + incWaiting lg

/-- A record of `n` bytes fits the zone (R514). -/
def incFits (lg : Logs) (n : Nat) : Bool := incEnd lg + n ≤ incSize

/-- A record of `n` bytes fits the 4 KiB write buffer (R512). -/
def incRoom (lg : Logs) (n : Nat) : Bool := incWaiting lg + n ≤ 4096

/-- The repeat trailer of the counted record (R513), when repeats stand that no trailer covers. -/
def incTrailer (lg : Logs) : Logs :=
  match lg.incLast with
  | none => lg
  | some l =>
    if l.count ≤ l.written then lg
    else if !incFits lg 32 then { lg with incFull := true }
    else if !incRoom lg 32 then { lg with incDrops := lg.incDrops + 1 }
    else
      let r := incRecord l.code l.inst 0x02 l.opsec l.pcyc (beBytes 2 l.count ++ beBytes 4 l.offset)
      { lg with incBuf := lg.incBuf ++ [r], incLast := some { l with written := l.count } }

/-- The event equals the INC's previous record (R495). -/
def incSame (lg : Logs) (code : Half) (inst : Byte) (data : List Word) : Bool :=
  match lg.incLast with
  | some l => l.code = code && l.inst = inst && l.data = data
  | none => false

/-- One more repeat of the counted record, with a trailer every 4,096 until the count saturates (R513). -/
def incRepeat (opsec : Word) (pcyc : BitVec 24) (lg : Logs) : Logs :=
  match lg.incLast with
  | none => lg
  | some l =>
    let n := min 65535 (l.count + 1)
    let lg' := { lg with incLast := some { l with count := n, opsec := opsec, pcyc := pcyc } }
    if l.count < 65535 && n % 4096 = 0 then incTrailer lg' else lg'

/-- An event in the INC (R495, R511-R514). -/
def incAdd (rep : Bool) (opsec : Word) (pcyc : BitVec 24) (code : Half) (inst : Byte) (data : List Word)
    (lg : Logs) : Logs :=
  if rep && incSame lg code inst data then incRepeat opsec pcyc lg
  else
    let lg := incTrailer lg
    let r := incRecord code inst 0x01 opsec pcyc (dataBytes data)
    if lg.incFull && !lg.incClearing then lg
    else if !incFits lg r.length then { lg with incFull := true }
    else if !incRoom lg r.length then { lg with incDrops := lg.incDrops + 1 }
    else
      { lg with
        incBuf := lg.incBuf ++ [r]
        incLast := some ⟨code, inst, data, incEnd lg, 0, 0, opsec, pcyc⟩ }

/-- An event in the OPL; a log that becomes full thereby records event 0x9043 in the INC (R509). -/
def logOpl (rep : Bool) (code : Half) (inst : Byte) (data : List Word) (s : State) : State :=
  let lg := oplAdd rep code inst data s.lg
  if lg.oplFull && !s.lg.oplFull then
    noteEvent 0x9043 0xFF { s with lg := incAdd false s.pwr.opsec s.pwr.pcyc 0x9043 0xFF [] lg }
  else { s with lg := lg }

/-- An event in the INC; a zone that becomes full thereby records event 0x9044 in the OPL (R514). -/
def logInc (rep : Bool) (code : Half) (inst : Byte) (data : List Word) (s : State) : State :=
  let lg := incAdd rep s.pwr.opsec s.pwr.pcyc code inst data s.lg
  if lg.incFull && !s.lg.incFull then
    noteEvent 0x9044 0xFF (logOpl false 0x9044 0xFF [] { s with lg := lg })
  else { s with lg := lg }

/-- Raise an event into given logs. -/
def raiseTo (l : EvLogs) (code : Half) (inst : Byte) (data : List Word) (s : State) : State :=
  let s := noteEvent code inst s
  let s := if l.opl then logOpl l.rep code inst data s else s
  if l.inc then logInc l.rep code inst data s else s

/-- Raise a catalogued event with its instance (0xFF none) and its data words (R493-R495). -/
def raise (code inst : Nat) (data : List Word) (s : State) : State :=
  raiseTo (eventLogs code) (BitVec.ofNat 16 code) (BitVec.ofNat 8 inst) data s

/-- No instance (R494). -/
def noInst : Nat := 0xFF

/-- The two words of a 64-bit item, high word first (R494). -/
def words64 (x : DWord) : List Word := [(x >>> 32).setWidth 32, x.setWidth 32]

end Sys2Proof.Machine
end

