-- ==== Sys2Proof/Machine/Crypto.lean ====
section
/-! DEFINITION. The hashes and the signature form the verifier uses (R403): SHA-256 and SHA-512 of FIPS 180-4 and the
cofactored Ed25519 check of RFC 8032, over plain numbers. -/

namespace Sys2Proof.Machine

/-- The round constants of SHA-256 (FIPS 180-4). Part A. -/
def sha256KA : List (BitVec 32) :=
  [0x428A2F98, 0x71374491, 0xB5C0FBCF, 0xE9B5DBA5, 0x3956C25B, 0x59F111F1, 0x923F82A4, 0xAB1C5ED5,
   0xD807AA98, 0x12835B01, 0x243185BE, 0x550C7DC3, 0x72BE5D74, 0x80DEB1FE, 0x9BDC06A7, 0xC19BF174]

/-- The round constants of SHA-256 (FIPS 180-4). Part B. -/
def sha256KB : List (BitVec 32) :=
  [0xE49B69C1, 0xEFBE4786, 0x0FC19DC6, 0x240CA1CC, 0x2DE92C6F, 0x4A7484AA, 0x5CB0A9DC, 0x76F988DA,
   0x983E5152, 0xA831C66D, 0xB00327C8, 0xBF597FC7, 0xC6E00BF3, 0xD5A79147, 0x06CA6351, 0x14292967]

/-- The round constants of SHA-256 (FIPS 180-4). Part C. -/
def sha256KC : List (BitVec 32) :=
  [0x27B70A85, 0x2E1B2138, 0x4D2C6DFC, 0x53380D13, 0x650A7354, 0x766A0ABB, 0x81C2C92E, 0x92722C85,
   0xA2BFE8A1, 0xA81A664B, 0xC24B8B70, 0xC76C51A3, 0xD192E819, 0xD6990624, 0xF40E3585, 0x106AA070]

/-- The round constants of SHA-256 (FIPS 180-4). Part D. -/
def sha256KD : List (BitVec 32) :=
  [0x19A4C116, 0x1E376C08, 0x2748774C, 0x34B0BCB5, 0x391C0CB3, 0x4ED8AA4A, 0x5B9CCA4F, 0x682E6FF3,
   0x748F82EE, 0x78A5636F, 0x84C87814, 0x8CC70208, 0x90BEFFFA, 0xA4506CEB, 0xBEF9A3F7, 0xC67178F2]

/-- The round constants of SHA-256 (FIPS 180-4). -/
def sha256K : List (BitVec 32) := sha256KA ++ sha256KB ++ sha256KC ++ sha256KD

/-- The initial hash value of SHA-256 (FIPS 180-4). -/
def sha256H : List (BitVec 32) :=
  [0x6A09E667, 0xBB67AE85, 0x3C6EF372, 0xA54FF53A, 0x510E527F, 0x9B05688C, 0x1F83D9AB, 0x5BE0CD19]

/-- The round constants of SHA-512 (FIPS 180-4). Part A. -/
def sha512KA : List (BitVec 64) :=
  [0x428A2F98D728AE22, 0x7137449123EF65CD, 0xB5C0FBCFEC4D3B2F, 0xE9B5DBA58189DBBC, 0x3956C25BF348B538,
   0x59F111F1B605D019, 0x923F82A4AF194F9B, 0xAB1C5ED5DA6D8118, 0xD807AA98A3030242, 0x12835B0145706FBE,
   0x243185BE4EE4B28C, 0x550C7DC3D5FFB4E2, 0x72BE5D74F27B896F, 0x80DEB1FE3B1696B1, 0x9BDC06A725C71235,
   0xC19BF174CF692694]

/-- The round constants of SHA-512 (FIPS 180-4). Part B. -/
def sha512KB : List (BitVec 64) :=
  [0xE49B69C19EF14AD2, 0xEFBE4786384F25E3, 0x0FC19DC68B8CD5B5, 0x240CA1CC77AC9C65, 0x2DE92C6F592B0275,
   0x4A7484AA6EA6E483, 0x5CB0A9DCBD41FBD4, 0x76F988DA831153B5, 0x983E5152EE66DFAB, 0xA831C66D2DB43210,
   0xB00327C898FB213F, 0xBF597FC7BEEF0EE4, 0xC6E00BF33DA88FC2, 0xD5A79147930AA725, 0x06CA6351E003826F,
   0x142929670A0E6E70]

/-- The round constants of SHA-512 (FIPS 180-4). Part C. -/
def sha512KC : List (BitVec 64) :=
  [0x27B70A8546D22FFC, 0x2E1B21385C26C926, 0x4D2C6DFC5AC42AED, 0x53380D139D95B3DF, 0x650A73548BAF63DE,
   0x766A0ABB3C77B2A8, 0x81C2C92E47EDAEE6, 0x92722C851482353B, 0xA2BFE8A14CF10364, 0xA81A664BBC423001,
   0xC24B8B70D0F89791, 0xC76C51A30654BE30, 0xD192E819D6EF5218, 0xD69906245565A910, 0xF40E35855771202A,
   0x106AA07032BBD1B8]

/-- The round constants of SHA-512 (FIPS 180-4). Part D. -/
def sha512KD : List (BitVec 64) :=
  [0x19A4C116B8D2D0C8, 0x1E376C085141AB53, 0x2748774CDF8EEB99, 0x34B0BCB5E19B48A8, 0x391C0CB3C5C95A63,
   0x4ED8AA4AE3418ACB, 0x5B9CCA4F7763E373, 0x682E6FF3D6B2B8A3, 0x748F82EE5DEFB2FC, 0x78A5636F43172F60,
   0x84C87814A1F0AB72, 0x8CC702081A6439EC, 0x90BEFFFA23631E28, 0xA4506CEBDE82BDE9, 0xBEF9A3F7B2C67915,
   0xC67178F2E372532B]

/-- The round constants of SHA-512 (FIPS 180-4). Part E. -/
def sha512KE : List (BitVec 64) :=
  [0xCA273ECEEA26619C, 0xD186B8C721C0C207, 0xEADA7DD6CDE0EB1E, 0xF57D4F7FEE6ED178, 0x06F067AA72176FBA,
   0x0A637DC5A2C898A6, 0x113F9804BEF90DAE, 0x1B710B35131C471B, 0x28DB77F523047D84, 0x32CAAB7B40C72493,
   0x3C9EBE0A15C9BEBC, 0x431D67C49C100D4C, 0x4CC5D4BECB3E42B6, 0x597F299CFC657E2A, 0x5FCB6FAB3AD6FAEC,
   0x6C44198C4A475817]

/-- The round constants of SHA-512 (FIPS 180-4). -/
def sha512K : List (BitVec 64) := sha512KA ++ sha512KB ++ sha512KC ++ sha512KD ++ sha512KE

/-- The initial hash value of SHA-512 (FIPS 180-4). -/
def sha512H : List (BitVec 64) :=
  [0x6A09E667F3BCC908, 0xBB67AE8584CAA73B, 0x3C6EF372FE94F82B, 0xA54FF53A5F1D36F1, 0x510E527FADE682D1,
   0x9B05688C2B3E6C1F, 0x1F83D9ABFB41BD6B, 0x5BE0CD19137E2179]

/-- The message padded to whole blocks of `blk` bytes with its bit length in the last `lenBytes` (FIPS 180-4). -/
def shaPad (blk lenBytes : Nat) (m : Bytes) : Bytes :=
  let used := m.length + 1 + lenBytes
  m ++ [0x80] ++ List.replicate ((blk - used % blk) % blk) 0 ++ beBytes lenBytes (8 * m.length)

/-- One 32-bit rotation right. -/
def ror32 (x : Word) (n : Nat) : Word := x.rotateRight n

/-- The message schedule of SHA-256, newest word first, `n` further words. -/
def sha256Extend : Nat → List Word → List Word
  | 0, w => w
  | n + 1, w =>
    let w2 := w.getD 1 0
    let w15 := w.getD 14 0
    let s0 := ror32 w15 7 ^^^ ror32 w15 18 ^^^ (w15 >>> 3)
    let s1 := ror32 w2 17 ^^^ ror32 w2 19 ^^^ (w2 >>> 10)
    sha256Extend n ((s1 + w.getD 6 0 + s0 + w.getD 15 0) :: w)

/-- One round of SHA-256 on the working variables a to h. -/
def sha256Round (v : List Word) (kw : Word × Word) : List Word :=
  match v with
  | [a, b, c, d, e, f, g, h] =>
    let t1 := h + (ror32 e 6 ^^^ ror32 e 11 ^^^ ror32 e 25) + ((e &&& f) ^^^ (~~~e &&& g)) + kw.1 + kw.2
    let t2 := (ror32 a 2 ^^^ ror32 a 13 ^^^ ror32 a 22) + ((a &&& b) ^^^ (a &&& c) ^^^ (b &&& c))
    [t1 + t2, a, b, c, d + t1, e, f, g]
  | v => v

/-- One block of SHA-256. -/
def sha256Block (h : List Word) (b : Bytes) : List Word :=
  let w := ((List.range 16).map (fun i => w32 (field b (4 * i) 4))).reverse
  let w := (sha256Extend 48 w).reverse
  List.zipWith (· + ·) h ((List.zip sha256K w).foldl sha256Round h)

/-- The blocks of a padded message; the first argument bounds their number. -/
def shaBlocks {α : Type} (f : α → Bytes → α) (blk : Nat) : Nat → α → Bytes → α
  | 0, h, _ => h
  | _ + 1, h, [] => h
  | n + 1, h, m => shaBlocks f blk n (f h (m.take blk)) (m.drop blk)

/-- SHA-256 (FIPS 180-4). -/
def sha256 (m : Bytes) : Bytes :=
  let p := shaPad 64 8 m
  (shaBlocks sha256Block 64 (p.length / 64) sha256H p).flatMap (fun x => beBytes 4 x.toNat)

/-- The message schedule of SHA-512, newest word first, `n` further words. -/
def sha512Extend : Nat → List DWord → List DWord
  | 0, w => w
  | n + 1, w =>
    let w2 := w.getD 1 0
    let w15 := w.getD 14 0
    let s0 := w15.rotateRight 1 ^^^ w15.rotateRight 8 ^^^ (w15 >>> 7)
    let s1 := w2.rotateRight 19 ^^^ w2.rotateRight 61 ^^^ (w2 >>> 6)
    sha512Extend n ((s1 + w.getD 6 0 + s0 + w.getD 15 0) :: w)

/-- One round of SHA-512. -/
def sha512Round (v : List DWord) (kw : DWord × DWord) : List DWord :=
  match v with
  | [a, b, c, d, e, f, g, h] =>
    let t1 := h + (e.rotateRight 14 ^^^ e.rotateRight 18 ^^^ e.rotateRight 41) + ((e &&& f) ^^^ (~~~e &&& g))
      + kw.1 + kw.2
    let t2 := (a.rotateRight 28 ^^^ a.rotateRight 34 ^^^ a.rotateRight 39) + ((a &&& b) ^^^ (a &&& c) ^^^ (b &&& c))
    [t1 + t2, a, b, c, d + t1, e, f, g]
  | v => v

/-- One block of SHA-512. -/
def sha512Block (h : List DWord) (b : Bytes) : List DWord :=
  let w := ((List.range 16).map (fun i => BitVec.ofNat 64 (field b (8 * i) 8))).reverse
  let w := (sha512Extend 64 w).reverse
  List.zipWith (· + ·) h ((List.zip sha512K w).foldl sha512Round h)

/-- SHA-512 (FIPS 180-4). -/
def sha512 (m : Bytes) : Bytes :=
  let p := shaPad 128 16 m
  (shaBlocks sha512Block 128 (p.length / 128) sha512H p).flatMap (fun x => beBytes 8 x.toNat)

/-! ### Ed25519 (RFC 8032, section 5.1) -/

/-- The field prime 2^255 - 19. -/
def edP : Nat := 2 ^ 255 - 19

/-- The group order L. -/
def edL : Nat := 2 ^ 252 + 27742317777372353535851937790883648493

/-- Square and multiply over `n` bits of the exponent, from the top. -/
def powModGo (m b e : Nat) : Nat → Nat → Nat
  | 0, acc => acc
  | n + 1, acc =>
    let sq := acc * acc % m
    powModGo m b e n (if e.testBit n then sq * b % m else sq)

/-- A power modulo the field prime. -/
def edPow (b e : Nat) : Nat := powModGo edP (b % edP) e 256 1

/-- The curve constant d = -121665/121666. -/
def edD : Nat := (edP - 121665) * edPow 121666 (edP - 2) % edP

/-- A point in extended homogeneous coordinates. -/
structure EdPoint where
  x : Nat
  y : Nat
  z : Nat
  t : Nat
deriving DecidableEq, Repr

/-- The neutral point. -/
def edZero : EdPoint := ⟨0, 1, 1, 0⟩

/-- Point addition (RFC 8032, section 5.1.4). -/
def edAdd (p q : EdPoint) : EdPoint :=
  let a := (p.y + edP - p.x) * (q.y + edP - q.x) % edP
  let b := (p.y + p.x) * (q.y + q.x) % edP
  let c := p.t * 2 * edD * q.t % edP
  let d := p.z * 2 * q.z % edP
  let e := (b + edP - a) % edP
  let f := (d + edP - c) % edP
  let g := (d + c) % edP
  let h := (b + a) % edP
  ⟨e * f % edP, g * h % edP, f * g % edP, e * h % edP⟩

/-- A scalar multiple, over `n` bits of the scalar from the top. -/
def edMulGo (k : Nat) (p : EdPoint) : Nat → EdPoint → EdPoint
  | 0, acc => acc
  | n + 1, acc =>
    let dbl := edAdd acc acc
    edMulGo k p n (if k.testBit n then edAdd dbl p else dbl)

/-- A scalar multiple. -/
def edMul (k : Nat) (p : EdPoint) : EdPoint := edMulGo k p 256 edZero

/-- Two points are equal. -/
def edEq (p q : EdPoint) : Bool :=
  decide (p.x * q.z % edP = q.x * p.z % edP) && decide (p.y * q.z % edP = q.y * p.z % edP)

/-- The number a byte string spells, least significant byte first, as RFC 8032 stores its numbers. -/
def leNat (b : Bytes) : Nat := beNat b.reverse

/-- A point from its y coordinate and sign bit (RFC 8032, section 5.1.3); none when it is not on the curve. -/
def edRecover (y : Nat) (sign : Nat) : Option EdPoint :=
  if y ≥ edP then none else
    let u := (y * y + edP - 1) % edP
    let v := (edD * y % edP * y + 1) % edP
    let v3 := v * v % edP * v % edP
    let x0 := u * v3 % edP * edPow (u * v3 % edP * v3 % edP * v % edP) ((edP - 5) / 8) % edP
    let vxx := v * (x0 * x0 % edP) % edP
    let x := if vxx = u then some x0
      else if vxx = (edP - u) % edP then some (x0 * edPow 2 ((edP - 1) / 4) % edP) else none
    match x with
    | none => none
    | some x =>
      if x = 0 && sign = 1 then none
      else
        let x := if x % 2 = sign then x else edP - x
        some ⟨x, y, 1, x * y % edP⟩

/-- A point from its 32-byte encoding. -/
def edDecode (b : Bytes) : Option EdPoint :=
  let n := leNat (slice b 0 32)
  edRecover (n % 2 ^ 255) (n / 2 ^ 255)

/-- The base point B. -/
def edBase : EdPoint := (edRecover (4 * edPow 5 (edP - 2) % edP) 0).getD edZero

/-- The signature check of R403: S canonical, R and A on the curve, [8][S]B = [8]R + [8][k]A. -/
def edVerify (key sig msg : Bytes) : Bool :=
  let rb := slice sig 0 32
  let sc := leNat (slice sig 32 32)
  match edDecode rb, edDecode key with
  | some r, some a =>
    let k := leNat (sha512 (rb ++ slice key 0 32 ++ msg)) % edL
    decide (sc < edL) && edEq (edMul 8 (edMul sc edBase)) (edAdd (edMul 8 r) (edMul 8 (edMul k a)))
  | _, _ => false

end Sys2Proof.Machine
end

