-- ==== Sys2Proof/Machine/Nv.lean ====
section
/-! DEFINITION. The NV store and its controller (14): reads, erases and programs, the order of pending work (R412), the
JNV mirror of the journal (18), checkpoint saves, host NV commands and refresh, up to the end of one operation. -/

namespace Sys2Proof.Machine

/-! ### The store -/

/-- The address a read of the store goes to: a sector under refresh is served from its spare (R421). -/
def nvAddr (nv : Nv) (a : Nat) : Nat :=
  match nv.refMark with
  | some (t, sp) => if a / 4096 = t then sp * 4096 + a % 4096 else a
  | none => a

/-- One byte of the store (R409). -/
def nvByte (nv : Nv) (a : Nat) : Byte := smGet 0xFF nv.mem (nvAddr nv a)

/-- `n` bytes of the store. -/
def nvBytes (nv : Nv) (a n : Nat) : Bytes := (List.range n).map (fun i => nvByte nv (a + i))

/-- No byte within `n` bytes from an address of one sector is programmed. -/
def nvErased (nv : Nv) (a n : Nat) : Bool :=
  let b := nvAddr nv a
  nv.mem.all (fun c => c.1 < b || b + n ≤ c.1)

/-- A range over whole sectors is erased. -/
def nvErasedSectors (nv : Nv) (a sectors : Nat) : Bool :=
  (List.range sectors).all (fun i => nvErased nv (a + 4096 * i) 4096)

/-- An uncorrectable unit lies within the range (R411). -/
def nvBad (nv : Nv) (a n : Nat) : Bool :=
  nv.errs.any (fun e => e.2 && decide (a < 16 * e.1 + 16) && decide (16 * e.1 < a + n))

/-- What a read of the range reports: an event and a count for each unit in error (R411). -/
def nvReport (a n : Nat) (s : State) : State :=
  s.nv.errs.foldl (fun s e =>
    if decide (a < 16 * e.1 + 16) && decide (16 * e.1 < a + n) then
      if e.2 then raise 0x808A noInst [] { s with nv := { s.nv with uncorr := s.nv.uncorr + 1 } }
      else raise 0x808B noInst [] { s with nv := { s.nv with corr := s.nv.corr + 1 } }
    else s) s

/-- The store with a program at an address; programming happens in erased units (R410). -/
def nvWrite (a : Nat) (data : Bytes) (nv : Nv) : Nv := { nv with mem := smPutBytes 0xFF nv.mem a data }

/-- A completed erase of a sector (R409, R413). -/
def nvErase (sector : Nat) (opsec : Word) (nv : Nv) : Nv :=
  { nv with
    mem := nv.mem.filter (fun c => c.1 / 4096 ≠ sector)
    errs := nv.errs.filter (fun e => e.1 / 256 ≠ sector)
    wear := smPut 0 nv.wear sector (smGet 0 nv.wear sector + 1)
    erasedAt := smPut 0 nv.erasedAt sector opsec }

/-- An erase ends: wear, age, and event 0x808D when the count passes 100,000 (R413). -/
def eraseDone (sector : Nat) (s : State) : State :=
  let s := { s with nv := { nvErase sector s.pwr.opsec s.nv with eraseMark := none } }
  if smGet 0 s.nv.wear sector = 100001 then raise 0x808D noInst [] s else s

/-- Undefined bytes in a range: a unit whose programming was cut or did not verify (R410, R414). -/
def nvUndefine (a n : Nat) (s : State) : State :=
  drawn { s with nv := nvWrite a ((List.range n).map (fun i => Config.freeByte s.free (a + i))) s.nv }

/-! ### Slot records (R417) and keys (R404) -/

/-- First address of an image slot. -/
def slotBase (slot : Nat) : Nat := slot * 0x200000

/-- The valid slot record: `GEN`, `LENGTH` and the hash prefix (R417, R545). -/
def slotRecord (nv : Nv) (slot : Nat) : Option (Word × Nat × Bytes) :=
  let b := nvBytes nv (slotBase slot) 32
  let gen := w32 (field b 4 4)
  if field b 0 4 = 0x534C4F54 && field b 28 4 = (crc32 (b.take 28)).toNat && gen ≠ 0 && gen ≠ 0xFFFFFFFF
      && nv.recMark ≠ some slot && !nvBad nv (slotBase slot) 32 then
    some (gen, field b 8 4, slice b 16 12)
  else none

/-- The highest valid `GEN` of both slots; 0 when there is none (R417). -/
def maxGen (nv : Nv) : Nat :=
  max ((slotRecord nv 0).elim 0 (fun r => r.1.toNat)) ((slotRecord nv 1).elim 0 (fun r => r.1.toNat))

/-- A key slot is empty (R404). -/
def keyEmpty (k : KeySlot) : Bool := k.key.all (· = 0xFF)

/-- A key slot may verify: neither empty nor revoked nor unreadable (R404, R545). -/
def keyUsable (nv : Nv) (slot : Nat) : Bool :=
  match nv.keys[slot]? with
  | some k => !keyEmpty k && !k.revoked && !k.unread
  | none => false

/-- The key bytes of a slot. -/
def keyBytes (nv : Nv) (slot : Nat) : Bytes := (nv.keys[slot]?).elim [] KeySlot.key

/-- First address of a key slot in the VPD zone (Table 14.16). -/
def keyAddr (slot : Nat) : Nat := 0x640100 + slot * 0x40

/-! ### Commands in the journal (18) -/

/-- A change of the entry of one command, in the RAM ring and in the execution queue (R498). -/
def entryUpdate (jseq : Word) (f : JEntry → JEntry) (s : State) : State :=
  { s with lg := { s.lg with
      ring := s.lg.ring.map (fun e => if e.jseq = jseq then f e else e)
      execQ := s.lg.execQ.map (fun c => if c.ent.jseq = jseq then { c with ent := f c.ent } else c) } }

/-- The bank of a path. -/
def pathBank (p : Path) : Nat := pathCode p

/-- The bank of the command shows its state, when the command is the bank's last accepted one (R469); an abandoned command
shows as ended, with the result and detail of R498. -/
def bankShow (p : Path) (jseq : Word) (state : Nat) (result : Byte) (detail : Half) (s : State) : State :=
  { s with rg := { s.rg with banks := s.rg.banks.modify (pathBank p) (fun b =>
      let b := if state = 4 then { b with event := b.event ||| 1 } else b
      if b.jseq = jseq && (b.state = 2 || b.state = 3) then
        { b with state := min state 4, result := result, detail := detail } else b) } }

/-- The execution queue without the commands that are through: class R at `DONE` (R470), class P once its last JNV
entry stands (R499). -/
def execPrune (s : State) : State :=
  { s with lg := { s.lg with execQ := s.lg.execQ.filter (fun c =>
      !((c.ent.state = 4 || c.ent.state = 6) && (!c.ent.persist || c.ent.mirrored))) } }

/-- A command changes its state (R469, R498). -/
def cmdState (jseq : Word) (state : Nat) (result : Byte) (detail : Half) (s : State) : State :=
  match s.lg.execQ.find? (fun c => c.ent.jseq = jseq) with
  | none => s
  | some c =>
    let s := entryUpdate jseq (fun e => { e with state := state, result := result, detail := detail }) s
    execPrune (bankShow c.ent.path jseq state result detail s)

/-- Every command not yet `DONE` becomes `ABANDONED` with the code of the node state entered (R498). -/
def abandonCommands (entered : NodeState) (s : State) : State :=
  s.lg.execQ.foldl (fun s c =>
    if c.ent.state = 2 || c.ent.state = 3 then cmdState c.ent.jseq 6 0x04 (BitVec.ofNat 16 entered.code) s else s) s

/-- The 32 bytes of a JNV entry, Table 18.1. -/
def jnvBytes (e : JEntry) (compl : Bool) (cyc : Half) (opsec : Word) : Bytes :=
  let flags := pathCode e.path + (if e.persist then 4 else 0) + (if compl then 8 else 0)
  let head := beBytes 4 e.jseq.toNat ++ [e.code, BitVec.ofNat 8 flags, BitVec.ofNat 8 e.state, e.result]
  let tail := beBytes 2 e.cyc.toNat ++ beBytes 4 e.opsec.toNat ++
    (if compl then beBytes 2 e.detail.toNat ++ beBytes 2 cyc.toNat ++ beBytes 4 opsec.toNat ++ List.replicate 8 0
     else e.args.flatMap (fun w => beBytes 4 w.toNat))
  head ++ beBytes 2 (crc16 (head ++ tail)).toNat ++ tail

/-- The next JNV entry to write (R499): command entries in `JSEQ` order, completion entries once due. -/
def jnvDue : Bool → List QCmd → Option (QCmd × Bool)
  | _, [] => none
  | blocked, c :: r =>
    if !c.ent.persist then jnvDue blocked r
    else if c.wrote then
      if c.wroteExec && (c.ent.state = 4 || c.ent.state = 6) then some (c, true) else jnvDue blocked r
    else if !blocked && 3 ≤ c.ent.state then some (c, false)
    else jnvDue true r

/-- Base and size of the JNV ring (Table 14.12). -/
def jnvBase : Nat := 0x480000
def jnvSize : Nat := 0x80000

/-- The first all-ones position at or after a ring offset, at most `fuel` positions on (R500). -/
def jnvSeek (nv : Nv) : Nat → Nat → Nat
  | 0, pos => pos
  | fuel + 1, pos => if nvErased nv (jnvBase + pos) 32 then pos else jnvSeek nv fuel ((pos + 32) % jnvSize)

/-- A command entry or completion entry now stands in JNV (R499). -/
def jnvMark (w : JnvWrite) (s : State) : State :=
  let exec := w.bytes.getD 6 0 = 3
  let s := { s with lg := { s.lg with execQ := s.lg.execQ.map (fun c =>
    if c.ent.jseq = w.jseq then { c with wrote := true, wroteExec := exec || c.wroteExec } else c) } }
  if w.compl || !exec then execPrune (entryUpdate w.jseq (fun e => { e with mirrored := true }) s) else s

/-- The position just written is left behind; the first entry of a sector starts the next sector's erase (R500). -/
def jnvAdvance (s : State) : State :=
  let sector := s.nv.jnvPos / 4096
  let nv := { s.nv with jnvPos := (s.nv.jnvPos + 32) % jnvSize, jnvCur := none }
  if s.nv.jnvArm = some sector then { s with nv := nv }
  else { s with nv := { nv with jnvArm := some sector, jnvErase := some ((sector + 1) % 128) } }

/-! ### Checkpoint copies (R103) and saves (R420) -/

/-- `IMGID` of an image (R403). -/
def imgId (im : Image) : Word := w32 (field im.hash 0 4)

/-- Bytes of the checkpoint variables the image declares (R102). -/
def chkTotal (im : Image) : Nat := (im.chklist.map (fun e => e.2)).sum

/-- A copy is complete for the running image (R103). -/
def chkComplete (im : Image) (c : ChkCopy) : Bool := c.imgId = imgId im && c.data.length = chkTotal im

/-- The latest complete copy and its place in `PD119` (R103). -/
def chkLatest (s : State) : Option (Nat × ChkCopy) :=
  match s.image with
  | none => none
  | some im =>
    let get := fun i => (s.cr.chk.getD i none).filter (chkComplete im)
    match get 0, get 1 with
    | some a, some b => if follows b.seq a.seq then some (1, b) else some (0, a)
    | some a, none => some (0, a)
    | none, some b => some (1, b)
    | none, none => none

/-- The 16-byte header of Table 4.5. -/
def chkHeader (c : ChkCopy) : Bytes :=
  let h := beBytes 4 c.seq.toNat ++ beBytes 2 c.cyc.toNat ++ beBytes 2 c.data.length ++ beBytes 4 c.imgId.toNat
  h ++ beBytes 4 (crc32 (h ++ c.data)).toNat

/-- First address of CHK position 0-15, in the order A0, B0, A1, ... (R420). -/
def chkAddr (pos : Nat) : Nat := 0x400000 + pos % 2 * 0x40000 + pos / 2 * 0x8000

/-- Unit programs of a save: the variables first, the header last (R420). -/
def chkOps (pos : Nat) (c : ChkCopy) : List NvOp :=
  (List.range (c.data.length / 16)).map (fun i => ⟨.chk, false, chkAddr pos + 16 + 16 * i, slice c.data (16 * i) 16⟩)
    ++ [⟨.chk, false, chkAddr pos, chkHeader c⟩]

/-- The position's sectors (R420). -/
def chkSectors (pos : Nat) : List Nat := (List.range 8).map (fun i => chkAddr pos / 4096 + i)

/-- The header of a CHK position, when its CRC is correct: `SEQ`, `LEN` and `IMGID` (Table 4.5). -/
def chkRead (nv : Nv) (pos : Nat) : Option ChkCopy :=
  let h := nvBytes nv (chkAddr pos) 16
  let len := field h 6 2
  if 16 ≤ len && len ≤ 16384 then
    let d := nvBytes nv (chkAddr pos + 16) len
    if field h 12 4 = (crc32 (h.take 12 ++ d)).toNat then
      some ⟨w32 (field h 0 4), BitVec.ofNat 16 (field h 4 2), w32 (field h 8 4), d⟩
    else none
  else none

/-- The CHK copy with the highest `SEQ` in serial order, with its position (R420). -/
def chkNewest (nv : Nv) : Option (Nat × ChkCopy) :=
  (List.range 16).foldl (fun best p =>
    match best, chkRead nv p with
    | none, some c => some (p, c)
    | some (q, b), some c => if follows c.seq b.seq then some (p, c) else some (q, b)
    | b, none => b) none

/-! ### Host NV commands (R415) -/

/-- A host NV command runs, waits in the controller's queue, or is accepted and not yet begun (R415). -/
def isNvCode (code : Byte) : Bool := code = 0x09 || (0x10 ≤ code.toNat && code.toNat ≤ 0x16)

/-- The command is a host NV command: those of Table 14.14 and step 2 of `LOG_CLEAR` for the INC (R518). -/
def isNvCmd (code : Byte) (args : List Word) : Bool :=
  isNvCode code || (code = 0x0B && args.getD 0 0 = 2 && args.getD 1 0 = 2)

/-- Some host NV command, `NV_PROGRAM` counted or not, runs or waits (R415). -/
def nvBusy (programs : Bool) (s : State) : Bool :=
  (s.nv.job.elim false (fun j => programs || j.code ≠ 0x11)) || (programs && !s.nv.jobQ.isEmpty)
    || s.lg.execQ.any (fun c => c.ent.state = 2 && isNvCmd c.ent.code c.ent.args && (programs || c.ent.code ≠ 0x11))

/-- `NV_STATUS` word (17): state, result, command, progress. -/
def nvStatusWord (st : Nat) (result code : Byte) (progress : Nat) : Word :=
  w32 (st + result.toNat * 2 ^ 8 + code.toNat * 2 ^ 16 + progress * 2 ^ 24)

/-- The running host command ends with a result (R415, R492). -/
def jobEnd (result : Byte) (detail : Half) (s : State) : State :=
  match s.nv.job with
  | none => s
  | some j =>
    let ok := result = 0x00
    let s := { s with nv := { s.nv with
      job := none, status := nvStatusWord (if ok then 2 else 3) result j.code (if ok then 100 else 0) } }
    cmdState j.jseq 4 result detail s

/-- Total of the operations of the running command, for the progress figure. -/
def jobTotal (j : NvJob) : Nat :=
  if j.code = 0x10 then 512 else if j.code = 0x11 then j.a1.toNat else if j.code = 0x14 then j.a1.toNat
  else if j.code = 0x0B then 256 else if j.code = 0x12 || j.code = 0x16 then 1 else 2

/-- `NV_STATUS` as it reads (17). -/
def nvStatus (s : State) : Word :=
  match s.nv.job with
  | some j => nvStatusWord 1 0 j.code (min 100 (100 * j.pos / max 1 (jobTotal j)))
  | none => s.nv.status

/-- The sector `NV_REFRESH` works on. -/
def refSector (j : NvJob) : Nat := j.a0.toNat + j.pos

/-- The spare of this refresh: the two alternate (R421). -/
def refSpare (j : NvJob) : Nat := 2046 + j.count % 2

/-- The next programmed unit of a sector at or after a unit number, 256 when there is none. -/
def nextUnit (mem : List Host.Cell) (sector : Nat) : Nat → Nat → Nat
  | 0, _ => 256
  | fuel + 1, u =>
    if 256 ≤ u then 256
    else if mem.any (fun c => c.1 / 16 = sector * 256 + u) then u else nextUnit mem sector fuel (u + 1)

/-- The next operation of the running host command. -/
def hostOp (nv : Nv) : Option NvOp :=
  match nv.job with
  | none => none
  | some j =>
    let slot := j.a0.toNat
    if j.code = 0x10 then some ⟨.host, true, slotBase slot + 4096 * j.pos, []⟩
    else if j.code = 0x11 then some ⟨.host, false, j.a0.toNat + 16 * j.pos, slice j.data (16 * j.pos) 16⟩
    else if j.code = 0x12 then some ⟨.host, true, j.a0.toNat, []⟩
    else if j.code = 0x13 then
      if j.phase = 1 then some ⟨.host, false, slotBase slot + 16 * j.pos, slice j.data (16 * j.pos) 16⟩ else none
    else if j.code = 0x14 then
      if j.phase = 1 then some ⟨.host, true, refSpare j * 4096, []⟩
      else if j.phase = 2 then
        some ⟨.host, false, refSpare j * 4096 + 16 * j.unit, smBytes 0xFF nv.mem (refSector j * 4096 + 16 * j.unit) 16⟩
      else if j.phase = 3 then some ⟨.host, true, refSector j * 4096, []⟩
      else some ⟨.host, false, refSector j * 4096 + 16 * j.unit, smBytes 0xFF nv.mem (refSpare j * 4096 + 16 * j.unit) 16⟩
    else if j.code = 0x15 then some ⟨.host, false, keyAddr slot + 16 * j.pos, slice j.data (16 * j.pos) 16⟩
    else if j.code = 0x16 then some ⟨.host, false, keyAddr slot + 32, List.replicate 16 0⟩
    else if j.code = 0x0B then some ⟨.host, true, 0x500000 + 4096 * j.pos, []⟩
    else none

/-- The running command with its progress changed. -/
def jobMod (f : NvJob → NvJob) (s : State) : State := { s with nv := { s.nv with job := s.nv.job.map f } }

/-- The refresh is through: event 0x8090 with the count (R421). -/
def refEnd (j : NvJob) (s : State) : State := jobEnd 0 0 (raise 0x8090 noInst [w32 j.count] s)

/-- The next sector `NV_REFRESH` rewrites, from `pos` on: VPD sectors (R534) and the spares themselves are passed
over, and so are sectors younger than the age asked and sectors with an uncorrectable unit, the latter with event
0x808A (R421). -/
def refPick : Nat → State → State
  | 0, s => s
  | fuel + 1, s =>
    match s.nv.job with
    | none => s
    | some j =>
      let sec := refSector j
      let age := (s.pwr.opsec - smGet 0 s.nv.erasedAt sec).toNat
      let skip := jobMod (fun j => { j with pos := j.pos + 1 })
      if j.a1.toNat ≤ j.pos then refEnd j s
      else if (0x640 ≤ sec && sec ≤ 0x64F) || 2046 ≤ sec || age < j.a2.toNat * 3600 then refPick fuel (skip s)
      else if nvBad s.nv (sec * 4096) 4096 then refPick fuel (skip (nvReport (sec * 4096) 4096 s))
      else jobMod (fun j => { j with phase := 1 }) s

/-- Steps 2 to 5 of R421 after an operation of the refresh has ended. -/
def refStep (s : State) : State :=
  match s.nv.job with
  | none => s
  | some j =>
    let sec := refSector j
    let sp := refSpare j
    let toTarget := fun (s : State) =>
      { (jobMod (fun j => { j with phase := 3 }) s) with nv :=
        { (jobMod (fun j => { j with phase := 3 }) s).nv with refMark := some (sec, sp) } }
    let close := fun (s : State) =>
      let s := { s with nv := { s.nv with refMark := none } }
      refPick 2049 (jobMod (fun j => { j with phase := 0, pos := j.pos + 1, count := j.count + 1 }) s)
    if j.phase = 1 || j.phase = 2 then
      let u := nextUnit s.nv.mem sec 257 (if j.phase = 1 then 0 else j.unit + 1)
      if u = 256 then toTarget s else jobMod (fun j => { j with phase := 2, unit := u }) s
    else
      let u := nextUnit s.nv.mem sp 257 (if j.phase = 3 then 0 else j.unit + 1)
      if u = 256 then close s else jobMod (fun j => { j with phase := 4, unit := u }) s

/-- The end of a log clear of the INC (R518): the write point restarts, `INC_FULL` clears, the zero of the wake-failure
count is on its way to its slow register (R57, R8, R77), and event 0x9041 is the zone's first record, before what waited meanwhile. -/
def incCleared (p : Path) (s : State) : State :=
  let waiting := s.lg.incBuf
  let last := s.lg.incLast
  let s := { s with
    lg := { s.lg with incFull := false, incClearing := false, incPos := 0, incUnit := 0, incBuf := [], incLast := none }
    pwr := { s.pwr with slowWrite := some (0x0A4, 0) }
    nv := { s.nv with cfgQ := s.nv.cfgQ ++ [{ wfail := some 0 }] } }
  let s := raiseTo ⟨true, true, false⟩ 0x9041 0xFF [2, w32 (pathCode p)] s
  let off := incWaiting s.lg
  { s with lg := { s.lg with
      incBuf := s.lg.incBuf ++ waiting
      incLast := match last with
        | some l => some { l with offset := l.offset + off }
        | none => s.lg.incLast } }

/-- What the host command does when its last operation has ended. -/
def jobDone (j : NvJob) (s : State) : State :=
  let slot := j.a0.toNat
  if j.code = 0x10 then
    jobEnd 0 0 (raise 0x8083 noInst [] { s with nv := { s.nv with staged := s.nv.staged.set slot true } })
  else if j.code = 0x13 then
    let s := { s with nv := { s.nv with recMark := none, staged := s.nv.staged.set slot false } }
    jobEnd 0 0 (raise 0x8084 noInst [w32 slot, w32 (field j.data 4 4)] s)
  else if j.code = 0x15 then
    let s := { s with nv := { s.nv with keys := s.nv.keys.modify slot (fun k => { k with key := j.data.take 32 }) } }
    jobEnd 0 0 (raise 0x8094 noInst [w32 slot] s)
  else if j.code = 0x16 then
    let s := { s with nv := { s.nv with keys := s.nv.keys.modify slot (fun k => { k with revoked := true }) } }
    jobEnd 0 0 (raise 0x8095 noInst [w32 slot] s)
  else if j.code = 0x0B then jobEnd 0 0 (incCleared j.path s)
  else jobEnd 0 0 s

/-- An operation of the running host command has ended. -/
def hostDone (verified : Bool) (s : State) : State :=
  match s.nv.job with
  | none => s
  | some j =>
    if !verified then
      let s := if j.code = 0x13 then
          { s with nv := { s.nv with recMark := none, staged := s.nv.staged.set j.a0.toNat false } } else s
      jobEnd 0x13 (BitVec.ofNat 16 (if j.code = 0x14 then j.unit else j.pos)) s
    else if j.code = 0x14 then refStep s
    else
      let s := jobMod (fun j => { j with pos := j.pos + 1 }) s
      if jobTotal j ≤ j.pos + 1 then jobDone j s else s

/-- Outside `BRINGUP` the image verifier is powered for the verification of an `IMG_COMMIT` (Table 3.2). -/
def verifierPower (l : Level) (s : State) : State :=
  if s.pwr.node = .bringup then s
  else { s with pwr := { s.pwr with doms := s.pwr.doms.modify 35 (fun d => { d with ctrl := l, act := l }) } }

/-- A host NV command begins (R415, Table 14.14, R518). `data` is what `NV_PROGRAM` copied at acceptance or the key and
signature of `KEY_ADD`. -/
def jobBegin (c : QCmd) (s : State) : State :=
  let a := fun i => c.ent.args.getD i 0
  let j : NvJob := ⟨c.ent.code, c.ent.jseq, c.ent.path, a 0, a 1, a 2, c.data, 0, 0, 0, 0⟩
  let s := cmdState c.ent.jseq 3 0 0 { s with nv := { s.nv with job := some j } }
  if j.code = 0x10 then { s with nv := { s.nv with staged := s.nv.staged.set j.a0.toNat false } }
  else if j.code = 0x11 then
    match (List.range j.a1.toNat).find? (fun u => !nvErased s.nv (j.a0.toNat + 16 * u) 16) with
    | some u =>
      jobEnd 0x12 (BitVec.ofNat 16 u) (raise 0x8088 noInst [j.a0, Config.eventItem 0x8088 (pathCode j.path)] s)
    | none => s
  else if j.code = 0x13 then verifierPower .on s
  else if j.code = 0x14 then refPick 2049 s
  else if j.code = 0x15 then
    let msg := BitVec.ofNat 8 j.a0.toNat :: j.data.take 32
    if edVerify (keyBytes s.nv j.a1.toNat) (slice j.data 32 64) msg then s else jobEnd 0x21 0 s
  else if j.code = 0x0B then
    { s with lg := { s.lg with incClearing := true, incPos := 0, incUnit := 0, incLast := none } }
  else s

/-! ### The controller (R412) -/

/-- The INC unit due (R511, R512). -/
def incOp (s : State) : Option NvOp :=
  match s.lg.incBuf with
  | [] => none
  | r :: _ =>
    if s.lg.incClearing then none
    else some ⟨.inc, false, 0x500000 + s.lg.incPos + 16 * s.lg.incUnit, slice r (16 * s.lg.incUnit) 16⟩

/-- The JNV unit due: bytes 16-31 first, bytes 0-15 last (R499); an ordinary entry waits in the last 64 positions of a
sector for the next sector's erase (R500). -/
def jnvOp (s : State) : Option NvOp :=
  match s.nv.jnvCur with
  | none => none
  | some w =>
    if s.nv.jnvErase ≠ none && 64 ≤ s.nv.jnvPos % 4096 / 32 && !w.half then none
    else if w.half then some ⟨.jnv, false, jnvBase + s.nv.jnvPos, w.bytes.take 16⟩
    else some ⟨.jnv, false, jnvBase + s.nv.jnvPos + 16, w.bytes.drop 16⟩

/-- The entry that is written next, when none is in hand. -/
def jnvLoad (s : State) : State :=
  match s.nv.jnvCur, jnvDue false s.lg.execQ with
  | none, some (c, compl) =>
    { s with nv := { s.nv with
        jnvPos := jnvSeek s.nv 16384 s.nv.jnvPos
        jnvCur := some ⟨c.ent.jseq, compl, jnvBytes c.ent compl s.cyc.cyc s.pwr.opsec, false⟩ } }
  | _, _ => s

/-- A save that is pending begins once its position is pre-erased (R420). -/
def chkLoad (s : State) : State :=
  if s.nv.chkPending && s.nv.chkQ.isEmpty && s.nv.preErase.isEmpty then
    match chkLatest s with
    | some (_, c) => { s with nv := { s.nv with chkQ := chkOps s.nv.chkPos c } }
    | none => { s with nv := { s.nv with chkPending := false } }
  else s

/-- The next operation in the order of R412; the node's own writes to a sector under refresh wait (R421). The quiesce
sequence pre-erases no checkpoint position (Table 10.2). -/
def nvNext (s : State) : Option NvOp :=
  let free := fun (o : NvOp) => match s.nv.refMark with
    | some (t, _) => decide (o.addr / 4096 ≠ t)
    | none => true
  let cfg : Option NvOp := if s.nv.cfgQ.isEmpty then none else some ⟨.cfg, false, 0x600000, []⟩
  let pre : Option NvOp := if s.pwr.node = .quiesce then none else
    s.nv.preErase.head?.map (fun x => ⟨.preErase, true, x * 4096, []⟩)
  let jer : Option NvOp := s.nv.jnvErase.map (fun x => ⟨.jnvErase, true, jnvBase + x * 4096, []⟩)
  (incOp s).filter free <|> (jnvOp s).filter free <|> cfg.filter free <|> (s.nv.chkQ.head?).filter free
    <|> jer.filter free <|> pre.filter free <|> hostOp s.nv

/-- The INC record due fails the check of R410: it is rejected whole with event 0x8088 and passed over. -/
def incRejected (s : State) : Bool :=
  match s.lg.incBuf with
  | [] => false
  | r :: _ => s.lg.incUnit = 0 && !s.lg.incClearing &&
      (List.range (r.length / 16)).any (fun u => !nvErased s.nv (0x500000 + s.lg.incPos + 16 * u) 16)

/-- The rejected INC record leaves the buffer, and the write point its span. -/
def incReject (s : State) : State :=
  let a := 0x500000 + s.lg.incPos
  let n := (s.lg.incBuf.head?.getD []).length
  let s := { s with lg := { s.lg with incBuf := s.lg.incBuf.tail, incPos := s.lg.incPos + n } }
  raise 0x8088 noInst [w32 a, Config.eventItem 0x8088 3] s

/-- A waiting `NV_PROGRAM` starts once no work of higher priority is pending, the previous host NV command has ended,
and every command accepted before it has started (R415). -/
def programStart (s : State) : State :=
  match s.nv.job, s.nv.jobQ with
  | none, jseq :: rest =>
    if s.lg.execQ.any (fun c => c.ent.state = 2 && follows jseq.jseq c.ent.jseq) then s
    else if (nvNext s).isSome then s
    else
      match s.lg.execQ.find? (fun c => c.ent.jseq = jseq.jseq) with
      | some c => jobBegin c { s with nv := { s.nv with jobQ := rest } }
      | none => { s with nv := { s.nv with jobQ := rest } }
  | _, _ => s

/-- The intent marks written before an operation (R413). -/
def nvBegin (o : NvOp) (s : State) : State :=
  let rec' := if o.who = .host && s.nv.job.elim false (fun j => j.code = 0x13)
    then s.nv.job.map (fun j => j.a0.toNat) else s.nv.recMark
  { s with nv := { s.nv with
      op := some o
      eraseMark := if o.erase then some (o.addr / 4096) else s.nv.eraseMark
      recMark := rec' } }

/-- The idle controller takes work: `fuel` bounds the requests it rejects or completes on the way. -/
def nvTake : Nat → State → State
  | 0, s => s
  | fuel + 1, s =>
    let s := programStart (chkLoad (jnvLoad s))
    if incRejected s then nvTake fuel (incReject s)
    else match nvNext s with
      | some o => nvBegin o s
      | none => s

/-- The controller takes work when it is idle, powered and no flush runs (R34, R412). -/
def nvKick (s : State) : State :=
  if s.nv.op = none && s.awake && s.pwr.flush = none then nvTake 16 s else s

/-- An INC unit is programmed; a complete record leaves the buffer, and drops are reported once it has room (R512). -/
def incUnitDone (s : State) : State :=
  match s.lg.incBuf with
  | [] => s
  | r :: rest =>
    if s.lg.incClearing then s
    else if s.lg.incUnit + 1 < r.length / 16 then { s with lg := { s.lg with incUnit := s.lg.incUnit + 1 } }
    else
      let s := { s with lg := { s.lg with incBuf := rest, incUnit := 0, incPos := s.lg.incPos + r.length } }
      if s.lg.incDrops = 0 then s
      else
        let n := s.lg.incDrops
        raise 0x9042 noInst [w32 n] { s with lg := { s.lg with incDrops := 0 } }

/-- A JNV unit is programmed (R499). -/
def jnvUnitDone (s : State) : State :=
  match s.nv.jnvCur with
  | none => s
  | some w =>
    if w.half then jnvAdvance (jnvMark w s)
    else { s with nv := { s.nv with jnvCur := some { w with half := true } } }

/-- Later values of the CFG zone supersede earlier ones (R409). -/
def cfgMerge (old new : Cfg) : Cfg :=
  ⟨new.opsec <|> old.opsec, new.pcyc <|> old.pcyc, new.wfail <|> old.wfail, new.n <|> old.n,
   if new.n.isSome then new.clean else old.clean, new.nonce <|> old.nonce⟩

/-- A CFG store is programmed. -/
def cfgDone (s : State) : State :=
  match s.nv.cfgQ with
  | [] => s
  | c :: r => { s with nv := { s.nv with cfg := cfgMerge s.nv.cfg c, cfgQ := r } }

/-- A unit of a checkpoint save is programmed; after the header the save is done and the next position's pre-erase is
due (R420). -/
def chkUnitDone (s : State) : State :=
  match s.nv.chkQ with
  | [] => s
  | [_] =>
    let pos := (s.nv.chkPos + 1) % 16
    let s := { s with nv := { s.nv with chkQ := [], chkPending := false, chkPos := pos, preErase := chkSectors pos } }
    if s.nv.job.elim false (fun j => j.code = 0x09) then jobEnd 0 0 s else s
  | _ :: r => { s with nv := { s.nv with chkQ := r } }

/-- The operation in progress ends (R410, R412). -/
def nvFinish (verified : Bool) (s : State) : State :=
  match s.nv.op with
  | none => s
  | some o =>
    let s := { s with nv := { s.nv with op := none } }
    let s :=
      if o.erase then eraseDone (o.addr / 4096) s
      else if o.who = .cfg then s
      else if verified then { s with nv := nvWrite o.addr o.data s.nv }
      else raise 0x8089 noInst [] (nvUndefine o.addr 16 s)
    match o.who with
    | .inc => incUnitDone s
    | .jnv => jnvUnitDone s
    | .cfg => cfgDone s
    | .chk => chkUnitDone s
    | .preErase => { s with nv := { s.nv with preErase := s.nv.preErase.tail } }
    | .jnvErase => { s with nv := { s.nv with jnvErase := none } }
    | .host => hostDone (verified || o.erase) s

/-! ### What every meaning does around its effect -/

/-- A meaning whose effect may leave work for the NV controller: the instant, the effect, the controller's next
operation; the queue stays as it was (log 1). -/
def act (t : Nat) (f : State → State) (s : State) : Host.Outcome State Fault Refusal :=
  .next { nvKick (f (begin_ t s)) with pending := s.pending }

end Sys2Proof.Machine
end

