-- ==== Sys2Proof/Machine/Pool.lean ====
section
/-! DEFINITION. The buffer pool (09): descriptors, chains, allocation, free, errors of its RAM, and what a port does by
itself at a frame boundary: PFC frames and the start of the next frame. -/

namespace Sys2Proof.Machine

/-! ### Ports and buffers -/

/-- One equipment port. -/
def State.eqp (s : State) (n : Nat) : EqPort := s.eq.getD n {}

/-- A change of one equipment port. -/
def eqMod (n : Nat) (f : EqPort → EqPort) (s : State) : State := { s with eq := s.eq.modify n f }

/-- The image's configuration of a port (Table 14.8). -/
def eqCfg (s : State) (n : Nat) : Option EqCfg := s.image.bind (fun im => im.eq[n]?)

/-- One buffer. -/
def State.buf (s : State) (b : Nat) : Buf := smGet {} s.pool.bufs b

/-- A change of one buffer. -/
def bufMod (b : Nat) (f : Buf → Buf) (s : State) : State :=
  { s with pool := { s.pool with bufs := smPut {} s.pool.bufs b (f (s.buf b)) } }

/-- `FLAGS` bits of Table 9.3. -/
def fFirst : Byte := 0x01
/-- `LAST`. -/
def fLast : Byte := 0x02
/-- `TAGGED`. -/
def fTagged : Byte := 0x04
/-- `TS_VALID`. -/
def fTsValid : Byte := 0x08
/-- `TS_REQ`. -/
def fTsReq : Byte := 0x10
/-- `RXQ`. -/
def fRxq : Byte := 0x20

/-- A flag of a descriptor. -/
def Buf.has (x : Buf) (f : Byte) : Bool := x.flags &&& f ≠ 0

/-- `RXPORT` of a descriptor. -/
def Buf.rxPort (x : Buf) : Nat := x.flags.toNat / 64

/-- The image declares frame buffer bank `k` as a pool bank (R66): `ON` in all vectors, aimed at by no power entry. -/
def poolBank (im : Image) (k : Nat) : Bool :=
  im.pwrvec.all (fun v => (v >>> (2 * (106 + k))).setWidth 2 = (1#2)) &&
  im.grid.all (fun e => !(0x10 ≤ e.kind.toNat && e.kind.toNat ≤ 0x12 && e.target.toNat = 106 + k))

/-- A number names a pool buffer (R280, R283). -/
def inPool (s : State) (b : Nat) : Bool := decide (b ≤ 4095) && s.image.elim false (fun im => poolBank im (b / 512))

/-- At the first cycle start in `RUN` every pool buffer is free with a zeroed descriptor (R285). -/
def poolStart (s : State) : State :=
  { s with pool := { s.pool with bufs := [], errs := [], free := (List.range 4096).filter (inPool s) } }

/-- Buffers charged to a port's receive quota, U (R267, R275). -/
def charged (s : State) (n : Nat) : Nat :=
  (s.pool.bufs.filter (fun e => e.2.has fRxq && e.2.rxPort = n)).length

/-- A sticky bit of `EQ_POOL_STATUS` sets (R283). -/
def poolSticky (k : Nat) (s : State) : State :=
  { s with pool := { s.pool with sticky := s.pool.sticky ||| BitVec.ofNat 5 (2 ^ k) } }

/-! ### Chains -/

/-- A chain from a buffer on, through `NEXT` (R281): it ends at 0xFFFF, at a buffer already followed, and at a number
outside the pool. -/
def chainGo (s : State) : Nat → Nat → List Nat → List Nat
  | 0, _, seen => seen.reverse
  | n + 1, b, seen =>
    if b ∈ seen then seen.reverse
    else if !inPool s b then (b :: seen).reverse
    else if (s.buf b).next = 0xFFFF then (b :: seen).reverse
    else chainGo s n (s.buf b).next.toNat (b :: seen)

/-- The chain from a buffer on. -/
def chainOf (s : State) (b : Nat) : List Nat := chainGo s 4097 b []

/-- A party owns every buffer of a chain. -/
def ownsAll (s : State) (party : Byte) (bs : List Nat) : Bool := bs.all (fun b => inPool s b && (s.buf b).owner = party)

/-- Ownership of a chain passes. -/
def chainOwner (party : Byte) (bs : List Nat) (s : State) : State :=
  bs.foldl (fun s b => bufMod b (fun x => { x with owner := party }) s) s

/-- Data bytes a chain holds. -/
def chainLen (s : State) (bs : List Nat) : Nat := (bs.map (fun b => (s.buf b).blen.toNat)).sum

/-- The data of a chain. -/
def chainData (s : State) (bs : List Nat) : Bytes :=
  bs.flatMap (fun b => slice (s.buf b).data 0 (s.buf b).blen.toNat)

/-- The 16-byte units that hold the data of a chain. -/
def chainUnits (s : State) (bs : List Nat) : List Nat :=
  bs.flatMap (fun b => (List.range (((s.buf b).blen.toNat + 15) / 16)).map (fun u => 16 * b + u))

/-- A unit of pool RAM holds an error: `some true` an uncorrectable one (R273). -/
def unitErr (s : State) (u : Nat) : Option Bool := (s.pool.errs.find? (fun e => e.1 = u)).map Prod.snd

/-- An uncorrectable error of pool RAM is met: event 0x4014 and its sticky bit (R273). -/
def poolUncorr (s : State) : State := poolSticky 4 (raise 0x4014 noInst [] s)

/-- Units are read (R273): a corrected error is recorded for each. -/
def unitsRead (us : List Nat) (s : State) : State :=
  us.foldl (fun s u => if unitErr s u = some false then raise 0x4015 noInst [] s else s) s

/-- Units are written whole: their errors are gone (R273). -/
def unitsWritten (us : List Nat) (s : State) : State :=
  { s with pool := { s.pool with errs := s.pool.errs.filter (fun e => !(us.contains e.1)) } }

/-! ### Allocation and free -/

/-- A number put into an ascending list. -/
def insertAsc (n : Nat) : List Nat → List Nat
  | [] => [n]
  | m :: r => if n ≤ m then n :: m :: r else m :: insertAsc n r

/-- An ascending list of numbers. -/
def ascending (l : List Nat) : List Nat := l.foldr insertAsc []

/-- The descriptors of an allocated chain: linked, `FIRST` and `LAST` set, each buffer full (R388), and, of a received
frame, charged to its port (R267). -/
def allocGo (owner flags : Byte) : Bool → List Nat → State → State
  | _, [], s => s
  | first, b :: r, s =>
    let f := flags ||| (if first then fFirst else 0) ||| (if r.isEmpty then fLast else 0)
    allocGo owner flags false r (bufMod b (fun x =>
      { next := (r.head?).elim 0xFFFF (BitVec.ofNat 16), owner := owner, flags := f, blen := 256, data := x.data }) s)

/-- No free buffer (R284). -/
def poolEmpty (s : State) : State := poolSticky 3 (raise 0x4013 noInst [] s)

/-- `n` buffers, longest free first, as one chain of a party (R280, R388); none with event 0x4013 when fewer are free. -/
def poolAlloc (n : Nat) (owner flags : Byte) (s : State) : State × List Nat :=
  if s.pool.free.length < n then (poolEmpty s, [])
  else
    let bs := s.pool.free.take n
    (allocGo owner flags true bs { s with pool := { s.pool with free := s.pool.free.drop n } }, bs)

/-- Data put into the buffers of a chain: whole 16-byte units, 0x00 beyond the end of the data (R273). -/
def chainFill : List Nat → Bytes → State → State
  | [], _, s => s
  | b :: r, d, s =>
    let n := min 256 d.length
    let body := padTo ((n + 15) / 16 * 16) (d.take n)
    let s := bufMod b (fun x => { x with blen := BitVec.ofNat 16 n, data := patch (padTo 256 x.data) 0 body }) s
    chainFill r (d.drop n) (unitsWritten ((List.range ((n + 15) / 16)).map (16 * b + ·)) s)

/-- Buffers a byte string needs. -/
def bufsFor (n : Nat) : Nat := max 1 ((n + 255) / 256)

/-- A byte string stored as a chain of a party. -/
def poolStore (owner : Byte) (d : Bytes) (s : State) : State × List Nat :=
  let r := poolAlloc (bufsFor d.length) owner 0 s
  if r.2.isEmpty then r else (chainFill r.2 d r.1, r.2)

/-- Buffers become free at one instant: no owner, no charge, the lower number first (R280, R281). -/
def poolRelease (bs : List Nat) (s : State) : State :=
  let s := bs.foldl (fun s b => bufMod b (fun x => { x with owner := 0, flags := x.flags &&& 0x1F }) s) s
  { s with pool := { s.pool with free := s.pool.free ++ ascending bs } }

/-! ### The start of a frame and PFC frames (R271, R272, R275, R276) -/

/-- Ns of one byte on a link of a speed code. -/
def byteNs (link : Nat) : Nat := if link = 1 then 800 else if link = 2 then 80 else 8

/-- Train time at the present instant (R157). -/
def ttNow (s : State) : DWord := s.cyc.tt + BitVec.ofNat 64 s.cyc.phase

/-- The frame of a chain as it goes out, without its FCS: tag inserted, padded to 60 bytes (R271). -/
def txFrame (s : State) (bs : List Nat) : Bytes :=
  let d := padTo 60 (chainData s bs)
  match bs.head? with
  | none => d
  | some b =>
    if (s.buf b).has fTagged then d.take 12 ++ [0x81, 0x00] ++ beBytes 2 (s.buf b).tci.toNat ++ d.drop 12 else d

/-- The stamp of a frame is pushed into its port's FIFO (R278). -/
def stampPush (n : Nat) (cookie : Half) (stamp : DWord) (s : State) : State :=
  let full := 16 ≤ (s.eqp n).stamps.length
  let s := eqMod n (fun p => { p with stamps := (if full then p.stamps.drop 1 else p.stamps) ++ [(cookie, stamp)] }) s
  if full then raise 0x4007 n [] s else s

/-- The oldest frame of the highest queue that is non-empty and not paused (R272). -/
def eqPick (p : EqPort) : Option (Nat × Nat) :=
  (List.range 8).reverse.findSome? (fun q =>
    if p.pause.getD q 0 = 0 then (p.queues.getD q []).head?.map (fun b => (q, b)) else none)

/-- At a frame boundary the MAC starts the next frame (R272). -/
def eqStart (n : Nat) (s : State) : State :=
  let p := s.eqp n
  if p.link = 0 || p.tx.isSome then s
  else
    match eqPick p with
    | none => s
    | some (q, b) =>
      let bs := chainOf s b
      let bad := (chainUnits s bs).any (fun u => unitErr s u = some true)
      let s := eqMod n (fun p => { p with queues := p.queues.modify q (fun l => l.drop 1), tx := some (q, b) }) s
      let s := emit (.eq n (txFrame s bs) (!bad)) s
      let x := s.buf b
      if x.has fTsReq then
        stampPush n ((x.tstamp >>> (48 : Nat)).setWidth 16) (ttNow s + BitVec.ofNat 64 (8 * byteNs p.link)) s
      else s

/-- A PFC frame goes out and is counted (R275). -/
def pfcSend (n : Nat) (mask : Byte) (time : Half) (s : State) : State :=
  emit (.pfc n mask time) (eqMod n (fun p => { p with pauseTx := p.pauseTx + 1 }) s)

/-- The watermarks of a port at a frame boundary (R275, R276). -/
def pfcCheck (n : Nat) (s : State) : State :=
  let p := s.eqp n
  match eqCfg s n with
  | none => s
  | some c =>
    if p.link = 0 || p.off || p.tx.isSome then s
    else
      let u := charged s n
      if !p.pfc && c.quota * c.high ≤ 100 * u then
        raise 0x4005 n [] (pfcSend n c.pfcMask 0xFFFF (eqMod n (fun p => { p with pfc := true }) s))
      else if p.pfc && 100 * u ≤ c.quota * c.low then
        raise 0x4006 n [] (pfcSend n c.pfcMask 0 (eqMod n (fun p => { p with pfc := false }) s))
      else s

/-- The watermarks of every port. -/
def pfcAll (s : State) : State := (List.range 4).foldl (fun s n => pfcCheck n s) s

/-- A chain is released by its owner. -/
def chainFree (bs : List Nat) (s : State) : State := pfcAll (poolRelease bs s)

/-- Why a free is not carried out (R283): 1 double, 2 foreign, 3 outside, with the buffer that fails first. -/
def freeFault (s : State) (party : Byte) (bs : List Nat) : Option (Nat × Nat) :=
  bs.findSome? (fun b =>
    if !inPool s b then some (3, b)
    else if (s.buf b).owner = 0 then some (1, b)
    else if (s.buf b).owner ≠ party then some (2, b)
    else none)

/-- A party frees the chain from a buffer on (R281, R283): 0 done, else the result code. -/
def freeChain (b : Nat) (party : Byte) (s : State) : State × Nat :=
  let bs := chainOf s b
  match freeFault s party bs with
  | none => (chainFree bs s, 0)
  | some (k, x) =>
    let owner : Word := if k = 3 then 0xFF else w32 (s.buf x).owner.toNat
    (poolSticky (k - 1) (raise (0x400F + k) noInst [w32 x, owner, w32 party.toNat] s), k)

/-! ### Posting (R270) -/

/-- Owner code of a transmit queue (Table 9.4). -/
def queueOwner (n q : Nat) : Byte := BitVec.ofNat 8 (0x10 + 8 * n + q)

/-- Why a post is refused: 1 not owner, 2 length, 3 queue full, 4 link down or port disabled; 0 accepted. -/
def postFault (s : State) (party : Byte) (bs : List Nat) (n q : Nat) : Nat :=
  let p := s.eqp n
  if !ownsAll s party bs then 1
  else if !(decide (60 ≤ chainLen s bs) && decide (chainLen s bs ≤ 1514)) then 2
  else if 128 ≤ (p.queues.getD q []).length then 3
  else if p.link = 0 || p.off then 4
  else 0

/-- A party posts the chain from a buffer on (R270). -/
def postChain (b : Nat) (party : Byte) (n q : Nat) (s : State) : State × Nat :=
  let bs := chainOf s b
  let k := postFault s party bs n q
  if k ≠ 0 then (raise 0x4008 n [w32 n, w32 q, w32 k] s, k)
  else
    let s := chainOwner (queueOwner n q) bs s
    (eqStart n (eqMod n (fun p => { p with queues := p.queues.modify q (· ++ [b]) }) s), 0)

/-! ### The filter registers (R264, R269, Table 17.9) -/

/-- Offsets of a port's `WS` registers: `EQn_RXCTL`, then `EQn_PM0_HI` to `EQn_HASH15`. -/
def eqWsOffsets (n : Nat) : List Nat := (0x3840 + 0x100 * n) :: (List.range 32).map (fun i => 0x3880 + 0x100 * n + 4 * i)

/-- A Boolean as a bit. -/
def bit1 (b : Bool) : Nat := if b then 1 else 0

/-- The words the image gives them. -/
def eqWsWords (c : EqCfg) : List Word :=
  let pms := (List.range 8).flatMap (fun k =>
    match c.pm[k]? with
    | none => [0, 0]
    | some e =>
      [w32 (e.addr.toNat / 2 ^ 32 + 0x10000 * bit1 e.enable + 0x20000 * e.consumer.toNat), e.addr.setWidth 32])
  w32 (bit1 c.bcastEn + 2 * bit1 c.promisc + 4 * c.dpri.toNat) :: pms ++ (List.range 16).map (fun k => c.hash.getD k 0)

/-- The filters and parameters of a port are loaded from the image (R269). -/
def eqLoad (n : Nat) (s : State) : State :=
  match eqCfg s n with
  | none => s
  | some c =>
    { s with rg := { s.rg with ws :=
        ((eqWsOffsets n).zip (eqWsWords c)).foldl (fun m e => smPut 0 m e.1 e.2) s.rg.ws } }

/-! ### A port loses its link or is disabled (R260, R276, R286) -/

/-- Every queued frame is discarded; its buffers are free (R260). `all` also discards the frame in transmission. -/
def eqDiscard (all : Bool) (n : Nat) (s : State) : State × Nat :=
  let p := s.eqp n
  let frames := p.queues.flatten ++ (if all then (p.tx.map Prod.snd).toList else [])
  let bs := frames.flatMap (fun b => chainOf s b)
  let s := eqMod n (fun p => { p with
    queues := List.replicate 8 [], tx := if all then none else p.tx, txDrop := p.txDrop + w32 frames.length }) s
  (poolRelease bs s, frames.length)

/-- An in-band session ends by the node's doing (R467). -/
def sessionDrop (path : Path) (reason : Nat) (s : State) : State :=
  let old := match path with | .e0 => s.rg.sessE0 | _ => s.rg.sessBb
  if old.isNone then s
  else
    let s := match path with
      | .e0 => { s with rg := { s.rg with sessE0 := none } }
      | _ => { s with rg := { s.rg with sessBb := none } }
    raise 0x9004 (pathCode path) [w32 (pathCode path), w32 reason] s

/-- A port's link goes down (R260, R276); on E0 the session closes with it (Table 16.5). -/
def eqLinkLost (n : Nat) (s : State) : State :=
  if (s.eqp n).link = 0 then s
  else
    let r := eqDiscard true n s
    let s := eqMod n (fun p => { p with
      link := 0, pause := List.replicate 8 0, pfc := false, downAt := s.now }) r.1
    let s := raise 0x4001 n [w32 n, w32 r.2] s
    let s := pfcAll s
    if n = 0 then sessionDrop .e0 0x0A s else s

/-- `EQ_OFF` takes effect (R286). -/
def eqOff (n : Nat) (s : State) : State :=
  let s := (eqDiscard false n s).1
  pfcAll (eqMod n (fun p => { p with off := true, offAt := s.now, pause := List.replicate 8 0, pfc := false }) s)

/-- `EQ_ON` takes effect (R286). -/
def eqOn (n : Nat) (s : State) : State := pfcCheck n (eqMod n (fun p => { p with off := false }) s)

end Sys2Proof.Machine
end

