-- ==== Sys2Proof/Machine/Train.lean ====
section
/-! DEFINITION. What every network block reads of the composition (05, 06): own record, number and role, train time
valid, the layout of the cycle, and the message window: Hinge and message frames on the backbone ports (07). -/

namespace Sys2Proof.Machine

/-! ### The composition as the node holds it -/

/-- Bits of a TTR record's `FLAGS` (Table 5.8): 0 `ORIENT`, 1 `SYNC`, 2 `LATE`, 3 `CAB_ACTIVE`, 4 `BRINGUP`, 5 `ON_B`. -/
def recBit (r : TtrRec) (k : Nat) : Bool := r.flags.getLsbD k

/-- The node's own record in a TTR. -/
def recOf (t : Ttr) (id : DWord) : Option TtrRec := t.recs.find? (fun r => r.nodeId = id)

/-- The node's own record in the TTR it holds. -/
def ownRec (s : State) : Option TtrRec := s.hg.ttr.bind (fun t => recOf t s.dev.nodeId)

/-- The node's number; 0 without a TTR (R118). -/
def ownNumber (s : State) : Nat := (ownRec s).elim 0 (fun r => r.number.toNat)

/-- The node is the origin, node 1 (R140). -/
def isOrigin (s : State) : Bool := ownNumber s = 1

/-- The record of a number. -/
def recNumber (t : Ttr) (n : Nat) : Option TtrRec := t.recs.find? (fun r => r.number.toNat = n)

/-- The composition runs the bring-up cycle: its origin's record has `BRINGUP` = 1 (R182). -/
def bringupCycle (s : State) : Bool :=
  s.hg.ttr.elim false (fun t => (recNumber t 1).elim false (fun r => recBit r 4))

/-- Train time is valid in a mode (Table 6.4). -/
def TimeMode.valid : TimeMode → Bool
  | .free | .acquire => false
  | .ensemble | .origin | .self | .holdover => true

/-- Codes of Table 6.4. -/
def TimeMode.code : TimeMode → Nat
  | .free => 0 | .acquire => 1 | .ensemble => 2 | .origin => 3 | .self => 4 | .holdover => 5

/-- Codes of Table 5.1. -/
def HgState.code : HgState → Nat
  | .unnumbered => 0 | .probing => 1 | .discovering => 2 | .awaitSwitch => 3 | .member => 4 | .solitary => 5
  | .admitting => 6 | .failed => 7

/-- An inauguration runs at the node (R178). -/
def HgState.inaugurating : HgState → Bool
  | .probing | .discovering | .awaitSwitch => true
  | _ => false

/-- Codes of Table 10.4. -/
def ShState.code : ShState → Nat
  | .closed => 0 | .guarded => 1 | .open_ => 2 | .closing => 3

/-- Message window of the node's cycle, from and to, in ns after the cycle start (Table 7.1). -/
def messageWindow (s : State) : Nat × Nat :=
  if s.pwr.node = .bringup then (1500000, 3900000)
  else
    match tCycle s with
    | 500000 => (250000, 450000)
    | 1000000 => (400000, 900000)
    | 2000000 => (400000, 1900000)
    | _ => (400000, 3900000)

/-! ### Backbone ports: 0 AF, 1 AR, 2 BF, 3 BR -/

/-- One backbone port. -/
def State.hp (s : State) (p : Nat) : HgPort := s.hg.ports.getD p {}

/-- A change of one backbone port. -/
def hpMod (p : Nat) (f : HgPort → HgPort) (s : State) : State :=
  { s with hg := { s.hg with ports := s.hg.ports.modify p f } }

/-- The opposite port of the same line. -/
def opposite (p : Nat) : Nat := if p % 2 = 0 then p + 1 else p - 1

/-- The line of a port: 0 A, 1 B. -/
def portLine (p : Nat) : Nat := p / 2

/-- Ns of one byte on a backbone link. -/
def bbByteNs (speed : Nat) : Nat := if speed = 2 then 8 else 80

/-- Ports with a settled link. -/
def settledPorts (s : State) : List Nat := (List.range 4).filter (fun p => (s.hp p).speed ≠ 0 && (s.hp p).settled)

/-! ### Message frames (R211-R217) -/

/-- The header of an own message frame (Table 7.6) with its body. -/
def msgPayload (s : State) (m : OwnMsg) (p : Nat) : Bytes :=
  let body := m.buf.elim m.body (fun b => chainData s (chainOf s b))
  let h := [0x02, 0x01, BitVec.ofNat 8 (ownNumber s), m.dst] ++ beBytes 4 s.hg.icount.toNat
    ++ beBytes 2 (m.mseq.getD 0).toNat ++ [BitVec.ofNat 8 (portLine p), m.cls] ++ beBytes 2 body.length
  h ++ beBytes 2 (crc16 h).toNat ++ body

/-- Bytes of a Hinge frame's payload: header and body (R127). -/
def hingeLen (f : HingeFrame) : Nat :=
  20 + (match f.body with
    | .start _ => 4
    | .probe .. => 12
    | .probeRsp .. => 12
    | .discover _ recs => 4 + 20 * recs.length
    | .ttr b => 32 + 20 * b.recs.length
    | .admitReq _ => 48
    | .admitRef _ _ => 9
    | .step _ => 1
    | .stepAck _ _ => 2)

/-- A frame with a payload of `n` bytes ends before the message window does (R214): preamble, MAC header, the 64-byte
minimum and FCS included. -/
def fitsWindow (s : State) (p n : Nat) : Bool :=
  s.tf.window && s.cyc.phase + (26 + max 46 n) * bbByteNs (s.hp p).speed ≤ (messageWindow s).2

/-- The node may originate one more new frame in this window (R210, R213). -/
def mayOriginate (s : State) : Bool :=
  s.hg.st = .member && s.tf.poll.contains (ownNumber s) && s.tf.originated < 4 && ownNumber s ≠ 0

/-- A port's transmitter changes. -/
def portTx (p : Nat) (x : PortTx) (s : State) : State := { s with tf := { s.tf with tx := s.tf.tx.set p x } }

/-- The own frame that a port may send next: one already originated that still has to leave there, else a new one. -/
def ownNext (s : State) (p : Nat) : Option Nat :=
  let idx := s.tf.own.zipIdx
  match idx.find? (fun e => e.1.mseq.isSome && e.1.ports.contains p) with
  | some e => some e.2
  | none =>
    if mayOriginate s && (settledPorts s).contains p then (idx.find? (fun e => e.1.mseq.isNone)).map Prod.snd else none

/-- An own frame is originated: the next `MSEQ`, and every port with a settled link (R213). -/
def originate (i : Nat) (s : State) : State :=
  if (s.tf.own[i]?).elim false (fun m => m.mseq.isNone) then
    { s with tf := { s.tf with
      own := s.tf.own.modify i (fun m => { m with mseq := some s.tf.mseq, ports := settledPorts s })
      mseq := s.tf.mseq + 1
      originated := s.tf.originated + 1 } }
  else s

/-- A port starts its next frame in the order of R214: Hinge, forwarded, own. -/
def portStart (p : Nat) (s : State) : State :=
  if s.tf.tx.getD p .idle ≠ .idle || (s.hp p).speed = 0 then s
  else
    match s.hg.queue.zipIdx.find? (fun e => e.1.1 = p) with
    | some ((_, f), i) =>
      if fitsWindow s p (hingeLen f) then
        emit (.hinge p f) (portTx p .hinge { s with hg := { s.hg with queue := s.hg.queue.eraseIdx i } })
      else s
    | none =>
      match (s.tf.fwd.getD p []).head? with
      | some x =>
        if fitsWindow s p x.length then
          emit (.msg p x) (portTx p .forward { s with tf := { s.tf with fwd := s.tf.fwd.modify p (fun l => l.drop 1) } })
        else s
      | none =>
        match ownNext s p with
        | none => s
        | some i =>
          match s.tf.own[i]? with
          | none => s
          | some m =>
            if fitsWindow s p (msgPayload s m p).length then
              let s := originate i s
              match s.tf.own[i]? with
              | none => s
              | some m => emit (.msg p (msgPayload s m p)) (portTx p .own s)
            else s

/-- Every idle port starts its next frame. -/
def portsStart (s : State) : State := (List.range 4).foldl (fun s p => portStart p s) s

/-- Own frames that have left on every port leave the queue; their buffers are free (R313). -/
def ownLeave (s : State) : State :=
  match s.tf.own.zipIdx.find? (fun e => e.1.mseq.isSome && e.1.ports.isEmpty) with
  | none => s
  | some (m, i) =>
    let s := { s with tf := { s.tf with own := s.tf.own.eraseIdx i, msgTx := s.tf.msgTx + 1 } }
    let s := if m.shutter then { s with sh := { s.sh with toBb := s.sh.toBb + 1 } } else s
    m.buf.elim s (fun b => chainFree (chainOf s b) s)

/-- The frame a port sent has left it (R213, R214). -/
def msgTxDone (p : Nat) (s : State) : State :=
  match s.tf.tx.getD p .idle with
  | .idle => s
  | .own =>
    let s := portTx p .idle s
    let own := match s.tf.own.zipIdx.find? (fun e => e.1.mseq.isSome && e.1.ports.contains p) with
      | none => s.tf.own
      | some (_, i) => s.tf.own.modify i (fun m => { m with ports := m.ports.filter (· ≠ p) })
    portsStart (ownLeave { s with tf := { s.tf with own := own } })
  | _ => portStart p (portTx p .idle s)

/-- An own frame joins the queue (R213). -/
def ownAdd (m : OwnMsg) (s : State) : State := portsStart { s with tf := { s.tf with own := s.tf.own ++ [m] } }

/-- A port lost its link: nothing leaves on it any more (R213: ports with a settled link). -/
def msgLinkLost (p : Nat) (s : State) : State :=
  let s := portTx p .idle s
  let own := s.tf.own.map (fun m => { m with ports := m.ports.filter (· ≠ p) })
  let s := { s with
    hg := { s.hg with queue := s.hg.queue.filter (fun e => e.1 ≠ p) }, tf := { s.tf with own := own } }
  s.tf.own.foldl (fun s _ => ownLeave s) s

/-- The own Hinge header (Table 5.2) of a frame sent on a port. -/
def hingeHdr (s : State) (p : Nat) (icount : Word) : HingeHdr :=
  { version := 1, srcId := s.dev.nodeId, icount := icount
    flags := BitVec.ofNat 8 (portLine p + (if s.pwr.node = .bringup then 2 else 0)), hops := 0, mseq := s.hg.mseq }

/-- A Hinge frame goes out on a port (R124): in the message window while a composition runs, at once otherwise. -/
def hingeSend (p : Nat) (f : HingeFrame) (s : State) : State :=
  if (s.hp p).speed = 0 then s
  else if s.hg.ttr.isNone then emit (.hinge p f) s
  else portStart p { s with hg := { s.hg with queue := s.hg.queue ++ [(p, f)] } }

/-- An own Hinge frame goes out on given ports, one sequence number for all copies (R127, R128). -/
def hingeOwn (ports : List Nat) (icount : Word) (body : Nat → HingeBody) (s : State) : State :=
  let s' := ports.foldl (fun s p => hingeSend p ⟨hingeHdr s p icount, body p⟩ s) s
  { s' with hg := { s'.hg with mseq := s'.hg.mseq + 1 } }

/-- Up ports. -/
def upPorts (s : State) : List Nat := (List.range 4).filter (fun p => (s.hp p).speed ≠ 0)

end Sys2Proof.Machine
end

