-- ==== Sys2Proof/Machine/Domains.lean ====
section
/-! DEFINITION. Power domains: their classes, the gates of R63, switching and settling (03). -/

namespace Sys2Proof.Machine

/-- The power-plan domains of R100. -/
def planned (d : Nat) : Bool :=
  (12 ≤ d && d ≤ 24) || (26 ≤ d && d ≤ 33) || (38 ≤ d && d ≤ 117) || d = 120

/-- The channel domains `PD038`-`PD105`, absent on a TN-6300-N (R2). -/
def fieldDomain (d : Nat) : Bool := 38 ≤ d && d ≤ 105

/-- The domains the node state puts `ON` (Tables 3.4 and 3.5, R78). -/
def stateDomains : NodeState → List Nat
  | .off => []
  | .sleep => [0]
  | .waking => [0]
  | .bringup => [0, 1, 2, 3, 5, 6, 7, 8, 9, 25, 34, 35, 36, 37, 118, 119, 122]
  | .run | .nocore => [0, 1, 2, 3, 5, 6, 7, 8, 9, 10, 11, 25, 34, 36, 37, 118, 119, 122]
  | .quiesce => [0, 1, 2, 3, 5, 25, 34, 36, 37, 118, 119]
  | .limp => [0, 2, 3, 34, 36, 37, 118, 119]

/-- The lower of two levels. -/
def Level.min : Level → Level → Level
  | .off, _ => .off
  | _, .off => .off
  | .low, _ => .low
  | _, .low => .low
  | .on, .on => .on

/-- The image arms a wake detector on an equipment port (R63, R279). -/
def wakeArmed (s : State) (port : Nat) : Bool :=
  match s.image with
  | some im => (im.eq[port]?).elim false (fun c => c.armed ≠ 0)
  | none => false

/-- The level at which the gates of R63 let a planned domain stand in `RUN` and `NOCORE`. -/
def gated (s : State) (d : Nat) (dom : Dom) : Level :=
  if dom.hold then .off
  else if s.dev.variantN && fieldDomain d then .off
  else if s.sh.st = .closed && ((12 ≤ d && d ≤ 24) || (30 ≤ d && d ≤ 33)) then .off
  else if s.sh.st = .closed && 26 ≤ d && d ≤ 29 then (if wakeArmed s (d - 26) then .low else .off)
  else .on

/-- The level a domain is to stand at (R63). -/
def domTarget (s : State) (d : Nat) (dom : Dom) : Level :=
  if planned d && s.running then Level.min dom.ctrl (gated s d dom) else dom.ctrl

/-- One domain. -/
def State.dom (s : State) (d : Nat) : Dom := s.pwr.doms.getD d {}

/-- A domain serves grid actions: it is `ON` and to stay so (R64, R67). -/
def usable (s : State) (d : Nat) : Bool :=
  let x := s.dom d
  x.act = .on && domTarget s d x = .on

/-- What is lost when a core data bank goes `OFF` (R62, R543): its content is free from then on. -/
def bankLost (bank mark : Nat) (c : Core) : Core :=
  { c with
    data := c.data.filter (fun e => e.1 / 65536 ≠ bank)
    dataErr := c.dataErr.filter (fun e => e.1 / 16384 ≠ bank)
    lost := c.lost.set bank (mark + 1) }

/-- The core whose data banks `PD114`-`PD117` hold is the RXC (R425): the one in control, or the one that yielded last. -/
def rxcData (s : State) : Bool := s.cr.active = 1 || (s.cr.active = 2 && s.cr.yieldReg.getLsbD 7)

/-- A change of the core whose data banks `PD114`-`PD117` hold. -/
def dataCoreMod (f : Core → Core) (s : State) : State :=
  if rxcData s then { s with cr := { s.cr with rxc := f s.cr.rxc } } else { s with cr := { s.cr with pxc := f s.cr.pxc } }

/-- A core that goes off with its own domain loses its memories (R62, R425). -/
def coreOff (mark : Nat) : Core := { lost := List.replicate 4 (mark + 1) }

/-! ### What a channel loses with its domains (11) -/

/-- One channel. -/
def State.chan (s : State) (n : Nat) : Chan := s.ch.getD n {}

/-- A change of one channel. -/
def chanMod (n : Nat) (f : Chan → Chan) (s : State) : State := { s with ch := s.ch.modify n f }

/-- The fault cause that shows: the lowest code present (Table 11.8). -/
def causeOf (c : Chan) : Nat :=
  if c.fCoupler then 1 else if c.fSupply then 2 else if c.fLimit then 3 else if c.fThermal then 4
  else if c.fOpen then 5 else 0

/-- The hysteresis memory is reset to undefined (R324). -/
def memReset (c : Chan) : Chan := { c with mem := .undef, memBase := .undef, memHist := [] }

/-- Causes that end with a domain; the memory is reset when none is left (R324). -/
def causesDropped (f : Chan → Chan) (c : Chan) : Chan :=
  let d := f c
  if causeOf c ≠ 0 && causeOf d = 0 then memReset d else d

/-- A front end or coupler goes off: the stage with its causes, and the coupler's own cause (R62). -/
def channelOff (coupler : Bool) : Chan → Chan :=
  causesDropped (fun c =>
    { c with fLimit := false, fThermal := false, fOpen := false, fCoupler := c.fCoupler && !coupler, sink := false })

/-- A group logic goes off (R62). -/
def groupLogicOff : Chan → Chan :=
  causesDropped (fun c =>
    { c with fLimit := false, fThermal := false, fOpen := false, fCoupler := false, fSupply := false })

/-- A group logic comes on again: memories undefined (R324), counters of lost content free (R62, log 5). -/
def groupLogicOn (g : Nat) (s : State) : State :=
  (List.range 8).foldl (fun s i =>
    drawn (chanMod (8 * g + i) (fun c => { memReset c with cnt := s.freeWord, cntAt := [] }) s)) s

/-! ### What the vehicle network loses with its domains (08) -/

/-- One branch. -/
def State.branch (s : State) (b : Nat) : Branch := s.vn.br.getD b {}

/-- A change of one branch. -/
def brMod (b : Nat) (f : Branch → Branch) (s : State) : State := { s with vn := { s.vn with br := s.vn.br.modify b f } }

/-- A branch loses its link or its PHY (Table 8.7). -/
def branchDown (b : Nat) (s : State) : State :=
  brMod b (fun x => { x with
    link := false, st := if x.off then .disabled else .down, good := 0, bad := 0, rx := none, awake := false
    errsum := false }) s

/-- The star goes off: the vehicle cycle ends, its buffers are lost, and the frames it holds are free (R62). -/
def starOff (s : State) : State :=
  let held := s.vn.dynQ.flatMap (fun m => chainOf s m.buf)
  let s := { s with vn := { s.vn with
    running := false, dynQ := [], dc := 0, span := 0, closed := false, sleepCd := 0
    txBuf := List.replicate 64 { lost := s.free + 1 }
    br := s.vn.br.map (fun x => { x with rx := none, good := 0, bad := 0, awake := false, errsum := false }) } }
  drawn (chainFree held s)

/-- What a change of a domain's actual level does to the blocks inside it. -/
def domainHook (d : Nat) (old l : Level) (s : State) : State :=
  if 114 ≤ d && d ≤ 117 && l = .off then
    drawn (dataCoreMod (bankLost (d - 114) s.free) s)
  else if d = 4 && l = .off then drawn { s with cr := { s.cr with rxc := coreOff s.free } }
  else if d = 12 && l = .off then starOff s
  else if 13 ≤ d && d ≤ 24 && l ≠ .on then branchDown (d - 13) s
  else if 26 ≤ d && d ≤ 29 && l ≠ .on then eqLinkLost (d - 26) s
  else if 30 ≤ d && d ≤ 33 then if l = .on then eqLoad (d - 30) s else eqLinkLost (d - 30) s
  else if 38 ≤ d && d ≤ 41 then
    if l = .off then (List.range 8).foldl (fun s i => chanMod (8 * (d - 38) + i) groupLogicOff s) s
    else if old = .off then groupLogicOn (d - 38) s else s
  else if 42 ≤ d && d ≤ 73 && l = .off then chanMod (d - 42) (channelOff false) s
  else if 74 ≤ d && d ≤ 105 && l = .off then chanMod (d - 74) (channelOff true) s
  else s

/-- A domain reaches a level. -/
def reach (d : Nat) (l : Level) (s : State) : State :=
  let old := (s.dom d).act
  let s := { s with pwr := { s.pwr with doms := s.pwr.doms.modify d (fun x => { x with act := l }) } }
  if old = l then s else domainHook d old l s

/-- A domain under the node state or the core redundancy is switched at once (log 20). -/
def setDomain (d : Nat) (l : Level) (s : State) : State :=
  reach d l { s with pwr := { s.pwr with doms := s.pwr.doms.modify d (fun x => { x with ctrl := l }) } }

/-- Every domain at the level a node state gives it; `low` lists the domains at `LOW`. -/
def stateLevels (on low : List Nat) (s : State) : State :=
  { s with pwr := { s.pwr with doms := (List.range 128).map (fun d =>
      let l : Level := if d ∈ on then .on else if d ∈ low then .low else .off
      { (s.dom d) with ctrl := l, act := l }) } }

/-- The domains of a node state on entry into `BRINGUP`: the field side is powered for its inputs (Table 3.5) but on a
TN-6300-N (R2). -/
def bringupDomains (variantN : Bool) : List Nat :=
  stateDomains .bringup ++ (if variantN then [] else (List.range 68).map (· + 38))

/-- The power plan calls for a level (R64, R101): an entry for the level the domain already has does nothing. -/
def planSwitch (d : Nat) (l : Level) (s : State) : State :=
  { s with pwr := { s.pwr with doms := s.pwr.doms.modify d (fun x => { x with ctrl := l }) } }

/-- A state transition: event 0x0200 with the previous state, the new state and the cause (R70, log 21). -/
def transition (next : NodeState) (cause : Nat) (s : State) : State :=
  let from_ := s.pwr.node
  let s := { s with pwr := { s.pwr with node := next } }
  raise 0x0200 noInst [w32 from_.code, w32 next.code, Config.eventItem 0x0200 cause] s

end Sys2Proof.Machine
end

