-- ==== Sys2Proof/Machine/Start.lean ====
section
/-! DEFINITION. What stands and what is lost at the boundaries of the node states: entry into `OFF`, `SLEEP`, `WAKING`,
`BRINGUP` and `LIMP`, the recovery of the NV store at each exit from `OFF` and `SLEEP` (14, 18), and the removal flush
(02). -/

namespace Sys2Proof.Machine

/-! ### What is kept -/

/-- What the NV controller keeps outside the map and over power loss: store, wear, marks, keys, CFG values. -/
def nvStored (n : Nv) : Nv :=
  { mem := n.mem, wear := n.wear, erasedAt := n.erasedAt, errs := n.errs, eraseMark := n.eraseMark
    recMark := n.recMark, refMark := n.refMark, cfg := n.cfg, keys := n.keys }

/-- The state with everything volatile at its reset value: identity, the NV store, pins, time and the model's own fields
stay. `OFF` is left this way (R62, R69, R452, R477). -/
def cold (s : State) : State :=
  { dev := s.dev
    pwr := { seated := s.pwr.seated, bat := s.pwr.bat, xtal := s.pwr.xtal, wakeIn := s.pwr.wakeIn
             markAbsent := s.pwr.markAbsent }
    cyc := { base := s.cyc.base, phase := s.cyc.phase }
    hg := { cab := s.hg.cab }
    ch := s.ch.map (fun c => { level := c.level })
    nv := nvStored s.nv
    wire := s.wire
    free := s.free
    pending := s.pending }

/-- What `PD000` keeps in `SLEEP` and over a warm reset: latches, records, counters, pins, armed sources. -/
def alwaysOn (p q : Pwr) : Pwr :=
  { q with
    wakeFailPin := p.wakeFailPin, wfCount := p.wfCount, wfAttempts := p.wfAttempts, pgLatch := p.pgLatch, qcut := p.qcut
    wfSec := p.wfSec, wfPcyc := p.wfPcyc, wakeSrc := p.wakeSrc, wakeLatch := p.wakeLatch, tapArmed := p.tapArmed
    wakeReport := p.wakeReport
    wakeChArmed := p.wakeChArmed, filters := p.filters, opsec := p.opsec, pcyc := p.pcyc
    slowWrite := p.slowWrite, slowHeld := p.slowHeld }

/-- The state in `SLEEP`: `PD000` stays, and the staging of image slots ends only at a warm reset or an exit from `OFF`
(R416). -/
def asleep (s : State) : State :=
  let c := cold s
  { c with pwr := alwaysOn s.pwr c.pwr, nv := { c.nv with staged := s.nv.staged } }

/-- The state in a warm reset (R79): `PD000`, `PD118` and `PD119` stay, and the write points the controller has found. -/
def warm (s : State) : State :=
  let c := cold s
  { c with
    pwr := alwaysOn s.pwr c.pwr
    lg := { s.lg with oplArm := none, incArm := none, incClearing := false }
    cr := { c.cr with chk := s.cr.chk }
    rg := { c.rg with drawers := s.rg.drawers, nonce := s.rg.nonce }
    nv := { c.nv with
      cfgQ := s.nv.cfgQ, chkPos := s.nv.chkPos, preErase := s.nv.preErase, jnvPos := s.nv.jnvPos
      jnvArm := s.nv.jnvArm, jnvErase := s.nv.jnvErase } }

/-! ### Recovery of the NV store -/

/-- The last unit of the INC zone that is not all ones, plus 1 (R516). -/
def incLastUnit (nv : Nv) : Nat :=
  nv.mem.foldl (fun m c => if 0x500000 ≤ c.1 && c.1 < 0x600000 then max m ((c.1 - 0x500000) / 16 + 1) else m) 0

/-- The walk of R516 over the units below a bound; the result is the end of the last span stepped over by `LEN`. -/
def incWalkGo (nv : Nv) : Nat → Nat → Nat → Nat
  | 0, _, e => e
  | fuel + 1, u, e =>
    let a := 0x500000 + 16 * u
    let len := (nvByte nv (a + 1)).toNat
    if nvByte nv a = 0x5A && 1 ≤ len && len ≤ 16 then incWalkGo nv (fuel - (len - 1)) (u + len) (u + len)
    else incWalkGo nv fuel (u + 1) e

/-- The write point of the INC after a start (R516). -/
def incWalk (nv : Nv) : Nat :=
  let n := incLastUnit nv
  16 * max n (incWalkGo nv n 0 0)

/-- The ring positions of JNV that are not all ones, in ring order. -/
def jnvUsed (nv : Nv) : List Nat :=
  (nv.mem.foldl (fun (l : List Nat) c =>
    if jnvBase ≤ c.1 && c.1 < jnvBase + jnvSize then
      let p := (c.1 - jnvBase) / 32
      if l.head? = some p then l else p :: l
    else l) []).reverse

/-- The entry at a ring position, when its `JCRC` is correct (R503). -/
def jnvEntry (nv : Nv) (p : Nat) : Option Bytes :=
  let b := nvBytes nv (jnvBase + 32 * p) 32
  if field b 8 2 = (crc16 (b.take 8 ++ b.drop 10)).toNat && !nvBad nv (jnvBase + 32 * p) 32 then some b else none

/-- The valid entries of JNV: position and `JSEQ`. -/
def jnvValid (nv : Nv) : List (Nat × Word) :=
  (jnvUsed nv).filterMap (fun p => (jnvEntry nv p).map (fun b => (p, w32 (field b 0 4))))

/-- The valid entry with the newest `JSEQ`; of two with one number the later in the ring. -/
def jnvNewest (nv : Nv) : Option (Nat × Word) :=
  (jnvValid nv).foldl (fun best e =>
    match best with
    | none => some e
    | some b => if follows e.2 b.2 || e.2 = b.2 then some e else some b) none

/-- The JNV write point after a start (R500), and the pre-erase of the next sector where a cut left it undone. -/
def jnvRestart (nv : Nv) : Nv :=
  let pos := match jnvNewest nv with
    | some (p, _) => jnvSeek nv 16384 ((32 * p + 32) % jnvSize)
    | none => 0
  let sector := pos / 4096
  let next := (sector + 1) % 128
  { nv with
    jnvPos := pos
    jnvArm := if pos % 4096 = 0 then none else some sector
    jnvErase := if pos % 4096 ≠ 0 && !nvErased nv (jnvBase + 4096 * next) 4096 then some next else none }

/-- The next checkpoint position after a start, pre-erased in the background when it is not erased (R420). -/
def chkRestart (nv : Nv) : Nv :=
  let pos := match chkNewest nv with
    | some (p, _) => (p + 1) % 16
    | none => 0
  { nv with
    chkPos := pos
    preErase := if nvErasedSectors nv (chkAddr pos) 8 then [] else chkSectors pos }

/-- An interrupted erase is completed with event 0x808C (R414). -/
def recoverErase (s : State) : State :=
  match s.nv.eraseMark with
  | some sec => raise 0x808C noInst [] (eraseDone sec s)
  | none => s

/-- An interrupted refresh is resumed at step 3 of R421 with event 0x8091. -/
def recoverRefresh (s : State) : State :=
  match s.nv.refMark with
  | some (t, sp) =>
    let data := smBytes 0xFF s.nv.mem (sp * 4096) 4096
    let s := eraseDone t s
    raise 0x8091 noInst [] { s with nv := { nvWrite (t * 4096) data s.nv with refMark := none } }
  | none => s

/-- The next journal number after a start (R504): the clean stored value, else the larger of the stored value + 640,000
and the newest JNV number + 1, with event 0x9040. -/
def journalStart (s : State) : State :=
  let newest := (jnvNewest s.nv).map (fun e => e.2 + 1)
  match s.nv.cfg.n, newest with
  | none, none => { s with lg := { s.lg with jseq := 0 } }
  | some n, new =>
    if s.nv.cfg.clean then { s with lg := { s.lg with jseq := n } }
    else
      let a := n + 640000
      let v := new.elim a (fun b => if follows b a then b else a)
      raise 0x9040 noInst [n, v] { s with lg := { s.lg with jseq := v, gap := true } }
  | none, some v => raise 0x9040 noInst [0, v] { s with lg := { s.lg with jseq := v, gap := true } }

/-- What the store's controller and the recorder do at each exit from `OFF` and `SLEEP` before anything else uses the
store (R414, R420, R500, R504, R516). -/
def storeStart (s : State) : State :=
  let s := recoverRefresh (recoverErase s)
  let s := { s with nv := chkRestart (jnvRestart s.nv) }
  let s := { s with lg := { s.lg with incPos := incWalk s.nv } }
  let s := journalStart s
  { s with rg := { s.rg with nonce := s.nv.cfg.nonce.getD 0 } }

/-! ### A cut -/

/-- A unit under program and a sector under erase hold undefined content when cut, and their intent marks stay (R35,
R414, R419). -/
def cutOp (s : State) : State :=
  match s.nv.op with
  | some o =>
    if o.erase then nvUndefine o.addr 4096 s else if o.who = .cfg then s else nvUndefine o.addr 16 s
  | none => s

/-- An INC record of which units were programmed when cut is written again behind its span. -/
def cutInc (s : State) : State :=
  let inOp := s.nv.op.elim false (fun o => o.who = .inc)
  let n := (s.lg.incBuf.head?.getD []).length
  if (inOp || s.lg.incUnit ≠ 0) && !s.lg.incClearing then
    { s with lg := { s.lg with
        incPos := s.lg.incPos + n, incUnit := 0
        incLast := s.lg.incLast.map (fun l =>
          if s.lg.incPos ≤ l.offset then { l with offset := l.offset + n } else l) } }
  else s

/-- A checkpoint save that was cut leaves its position not pre-erased (R420). -/
def cutChk (s : State) : State :=
  if s.nv.chkQ.isEmpty then { s with nv := { s.nv with chkPending := false } }
  else { s with nv := { s.nv with chkQ := [], chkPending := false, preErase := chkSectors s.nv.chkPos } }

/-- Host NV commands end without a result of their own (R419, R498); a clear of the INC that was cut leaves the zone as
far as it was erased. -/
def cutJob (s : State) : State :=
  let st := s.nv.job.elim s.nv.status (fun j => nvStatusWord 3 0x04 j.code 0)
  let s := { s with nv := { s.nv with job := none, jobQ := [], status := st } }
  if s.lg.incClearing then { s with lg := { s.lg with incClearing := false, incPos := incWalk s.nv } } else s

/-- What stands after the flush, the quiesce sequence or a warm reset has cut the controller's work. -/
def nvCut (s : State) : State :=
  let s := cutJob (cutChk (cutInc (cutOp s)))
  { s with nv := { s.nv with op := none, jnvCur := none } }

/-! ### Entry into the node states -/

/-- Entry into `OFF`. -/
def goOff (cause : Nat) (s : State) : State :=
  let s := cold (transition .off cause (nvCut s))
  { s with pwr := { s.pwr with node := .off } }

/-- The wake detectors an image arms in `SLEEP` on a port (R279, Table 10.2). -/
def armedFilters (c : EqCfg) : List (Option WakeFilter) :=
  (List.range 4).map (fun i => if c.armed.getLsbD i then c.filters[i]? else none)

/-- Entry into `SLEEP` (Table 10.2): the sources the image enables are armed with the line-A tap. From a wake failure the
sources stay as they were armed. -/
def goSleep (cause : Nat) (s : State) : State :=
  let arms := match s.image with
    | some im => (im.eq.map armedFilters, if im.node.wakeCh.toNat < 32 then some im.node.wakeCh.toNat else none)
    | none => (s.pwr.filters, s.pwr.wakeChArmed)
  let s := asleep (transition .sleep cause s)
  let low := (List.range 4).filter (fun p => (arms.1.getD p []).any Option.isSome)
  let s := { s with pwr := { s.pwr with
    node := .sleep, tapArmed := true, filters := arms.1, wakeChArmed := arms.2
    flood := if s.pwr.wakeLatch.isSome then .check else .none } }
  stateLevels [0] (low.map (· + 26)) s

/-- Start of the regulator in `WAKING` (R76). -/
def regulatorStart (s : State) : State :=
  { s with pwr := { s.pwr with regOn := true, regAttempts := s.pwr.regAttempts + 1 } }

/-- Entry into `WAKING` from `OFF` (R31, R80, R81, R414): counters come back from the CFG zone, the power-cycle count goes
up, the store is recovered, a flush without its completion mark is recorded. -/
def wakeFromOff (s : State) : State :=
  let s := cold s
  let s := { s with pwr := { s.pwr with
    opsec := s.nv.cfg.opsec.getD 0, pcyc := satInc (s.nv.cfg.pcyc.getD 0), wfCount := s.nv.cfg.wfail.getD 0 } }
  let s := storeStart s
  let s := if s.pwr.markAbsent then raise 0x0103 noInst [] { s with pwr := { s.pwr with markAbsent := false } } else s
  regulatorStart (stateLevels (stateDomains .waking) [] (transition .waking 1 s))

/-- Entry into `WAKING` from `SLEEP`: the wake-source record takes the source (R297), and a late-comer records event
0x5006 (R304). -/
def wakeFromSleep (s : State) : State :=
  let s := storeStart { s with lg := {} }
  let s := { s with pwr := { s.pwr with
    wakeSrc := s.pwr.wakeLatch, wakeReport := true, wakeLatch := none, tapArmed := false, regAttempts := 0, regOn := false } }
  let s := transition .waking 2 s
  let s := if s.pwr.lineActive then raise 0x5006 noInst [] s else s
  regulatorStart (stateLevels (stateDomains .waking) [] s)

/-- The node leaves `SLEEP` once 10 ms have passed and the line check has decided (Table 3.4, R300). -/
def sleepLeave (s : State) : State :=
  if s.pwr.node = .sleep && s.pwr.sleepDwelt && s.pwr.wakeLatch.isSome
      && s.pwr.flood ≠ .check && s.pwr.flood ≠ .listen then wakeFromSleep s
  else s

/-- A wake source is latched: in `QUIESCE` for later, in `SLEEP` it starts the line check (R72, R299, R300). -/
def wakeLatched (src : WakeSrc) (s : State) : State :=
  if s.pwr.wakeLatch.isSome then s
  else match s.pwr.node with
    | .sleep => { s with pwr := { s.pwr with wakeLatch := some src, flood := .check } }
    | .quiesce => { s with pwr := { s.pwr with wakeLatch := some src } }
    | _ => s

/-- `PWR_WAKE_SRC` (17). -/
def wakeSrcWord (w : Option WakeSrc) : Word :=
  match w with
  | none => 0
  | some x => w32 (2 ^ 31 + x.filter.toNat * 2 ^ 18 + x.port.toNat * 2 ^ 16 + x.channel.toNat * 2 ^ 8 + x.cause.toNat)

/-- The wake-failure latch is written to the INC and cleared at `BRINGUP` (R77). -/
def reportWakeFailure (s : State) : State :=
  let s := if s.pwr.pgLatch then
      raise 0x0201 noInst [s.pwr.wfSec, s.pwr.wfPcyc.setWidth 32, s.pwr.wfAttempts.setWidth 32]
        { s with nv := { s.nv with cfgQ := s.nv.cfgQ ++ [{ wfail := some s.pwr.wfCount }] } }
    else s
  { s with pwr := { s.pwr with pgLatch := false, wakeFailPin := false } }

/-- The quiesce cut is written to the INC at `BRINGUP` (R73). -/
def reportQuiesceCut (s : State) : State :=
  if s.pwr.qcut then raise 0x0208 noInst [] { s with pwr := { s.pwr with qcut := false } } else s

/-- The wake source is recorded at `BRINGUP` (R297). -/
def reportWake (s : State) : State :=
  match if s.pwr.wakeReport then s.pwr.wakeSrc else none with
  | some w =>
    let s := { s with pwr := { s.pwr with wakeReport := false } }
    raise 0x5004 noInst [wakeSrcWord (some { w with cause := 0 }) &&& 0x7FFFFFFF, w.cause.setWidth 32] s
  | none => s

/-- The slots to verify, in descending `GEN` order (R408). -/
def verifyOrder (nv : Nv) : List Nat :=
  match slotRecord nv 0, slotRecord nv 1 with
  | some a, some b => if a.1.toNat < b.1.toNat then [1, 0] else [0, 1]
  | some _, none => [0]
  | none, some _ => [1]
  | none, none => []

/-- Verification starts at entry into `BRINGUP` (R408); a slot record met with an uncorrectable unit is reported. -/
def startVerify (s : State) : State :=
  let s := nvReport (slotBase 1) 32 (nvReport (slotBase 0) 32 s)
  match verifyOrder s.nv with
  | [] => { s with nv := { s.nv with ver := {} } }
  | x :: r => { s with nv := { s.nv with ver := { cur := some x, rest := r } } }

/-- Relay set A driven or released; its sense follows (R39, R218). -/
def driveA (on : Bool) (s : State) : State := { s with pwr := { s.pwr with relayA := on, senseA := !on } }

/-- Relay set B driven or released. -/
def driveB (on : Bool) (s : State) : State := { s with pwr := { s.pwr with relayB := on, senseB := !on } }

/-- Entry into `BRINGUP` (R61, R74): the cycle counters start here, relay set A is driven unless a wake flood has still to
die away (R300), the power-cycle count is stored (R80), the latches of `PD000` are reported, verification starts. -/
def goBringup (s : State) : State :=
  let s := { s with
    cyc := { s.cyc with base := s.now, phase := 0 }
    pwr := { s.pwr with locked := true } }
  let s := stateLevels (bringupDomains s.dev.variantN) [] (transition .bringup 3 s)
  let s := { s with nv := { s.nv with cfgQ := s.nv.cfgQ ++ [{ pcyc := some s.pwr.pcyc }] } }
  let s := reportWake (reportQuiesceCut (reportWakeFailure s))
  let s := startVerify s
  if s.pwr.flood = .none then driveA true s else { s with pwr := { s.pwr with relayAWaits := true } }

/-- Entry into `LIMP` after the third failed lock (R58, R78). -/
def goLimp (s : State) : State :=
  let s := { s with pwr := { s.pwr with wakeFailPin := true, pllOn := false, flood := .none } }
  raise 0x0202 noInst [] (stateLevels (stateDomains .limp) [] (transition .limp 4 s))

/-! ### The removal flush -/

/-- The flush starts (R34, R35, R37): the operation in progress is cut, commands not done are abandoned; a second trigger
only sets the second cause bit. -/
def startFlush (cause : Half) (s : State) : State :=
  match s.pwr.flush with
  | some f => if f.cause = cause then s else
    noteEvent cause 0xFF { s with pwr := { s.pwr with flush := some { f with second := true } } }
  | none =>
    let s := abandonCommands .off (nvCut s)
    noteEvent cause 0xFF { s with pwr := { s.pwr with flush := some ⟨cause, false, s.pwr.opsec⟩, markAbsent := true } }

/-- An INC record written by the flush into units that are erased (R34, R511). -/
def flushInc (s : State) : State :=
  s.lg.incBuf.foldl (fun s r =>
    let a := 0x500000 + s.lg.incPos
    let ok := (List.range (r.length / 16)).all (fun u => nvErased s.nv (a + 16 * u) 16)
    { s with
      nv := if ok then nvWrite a r s.nv else s.nv
      lg := { s.lg with incPos := s.lg.incPos + r.length, incBuf := s.lg.incBuf.tail } }) s

/-- The JNV entries due, written by the flush, at most `fuel` (R34, R499, R500). -/
def flushJnv : Nat → State → State
  | 0, s => s
  | fuel + 1, s =>
    match jnvDue false s.lg.execQ with
    | none => s
    | some (c, compl) =>
      let b := jnvBytes c.ent compl s.cyc.cyc s.pwr.opsec
      let pos := jnvSeek s.nv 16384 s.nv.jnvPos
      let s := { s with nv := { nvWrite (jnvBase + pos) b s.nv with jnvPos := (pos + 32) % jnvSize } }
      flushJnv fuel (jnvMark ⟨c.ent.jseq, compl, b, true⟩ s)

/-- The latest complete checkpoint, when it is newer than the one in CHK (R34); a position not pre-erased takes none and
records event 0x8099 (R420). -/
def flushChk (s : State) : State :=
  match chkLatest s with
  | none => s
  | some (_, c) =>
    let newer := match chkNewest s.nv with
      | some (_, d) => follows c.seq d.seq || d.imgId ≠ c.imgId
      | none => true
    if !newer then s
    else if s.nv.preErase.isEmpty && nvErasedSectors s.nv (chkAddr s.nv.chkPos) 8 then
      { s with nv := nvWrite (chkAddr s.nv.chkPos) (chkHeader c ++ c.data) s.nv }
    else flushInc (raise 0x8099 noInst [] s)

/-- What the flush has written when it ends (R34): the waiting INC records, the record of its cause with the second cause
bit, pending repeat trailers, the JNV entries, the checkpoint; then the completion mark. -/
def flushWrite (f : Flush) (s : State) : State :=
  let r := incRecord f.cause 0xFF 0x01 f.opsec s.pwr.pcyc (dataBytes [if f.second then 1 else 0])
  let s := { s with nv := { s.nv with jnvCur := none } }
  let s := if incFits s.lg r.length && !s.lg.incFull
    then { s with lg := { s.lg with incBuf := s.lg.incBuf ++ [r] } } else s
  let s := flushInc { s with lg := incTrailer s.lg }
  let s := flushChk (flushJnv 128 s)
  { s with pwr := { s.pwr with markAbsent := false } }

end Sys2Proof.Machine
end

