-- ==== Sys2Proof/Machine/Grid.lean ====
section
/-! DEFINITION. Firing an entry of the grid table: selection, the ECC of the table, and skipped actions (04, 03). -/

namespace Sys2Proof.Machine

/-- The entry that fires: the grid runs the image in service, the entry's kind is the action's and its `CMASK` selects
the cycle (R84-R86); in the power cycle only the power entries fire (R91). -/
def gridEntry (s : State) (kind : Byte) (i : Nat) : Option GridEntry :=
  match s.image with
  | none => none
  | some im =>
    match im.grid[i]? with
    | none => none
    | some e =>
      let power := 0x10 ≤ kind.toNat && kind.toNat ≤ 0x12
      if s.running && s.gr.on && e.kind = kind && e.cmask.getLsbD (macroPos s - 1) && (2 ≤ s.cyc.runCycles || power)
      then some e else none

/-- The entry's tick is now. -/
def atTick (e : GridEntry) (s : State) : State :=
  { s with cyc := { s.cyc with phase := max s.cyc.phase (8 * e.tick) } }

/-- A grid action fires (R85, R90): an uncorrectable entry is skipped, a corrected one fires. -/
def gridFire (kind : Byte) (i : Nat) (f : GridEntry → State → State) (s : State) : State :=
  match gridEntry s kind i with
  | none => s
  | some e =>
    let s := atTick e s
    if s.gr.errs.any (fun x => x.1 = i && x.2) then raise 0x8002 noInst [w32 i] s
    else if s.gr.errs.any (fun x => x.1 = i) then f e (raise 0x8003 noInst [w32 i] s)
    else f e s

/-- A skipped action (R67). -/
def skipped (d kind : Nat) (s : State) : State := raise 0x0206 d [w32 d, w32 kind] s

/-- The action on a domain that must be `ON` (R67). -/
def onDomain (d kind : Nat) (f : State → State) (s : State) : State := if usable s d then f s else skipped d kind s

end Sys2Proof.Machine
end

