-- ==== Sys2Proof/Machine/Field.lean ====
section
/-! DEFINITION. Field channels (11): hysteresis memory, counters, fault causes, the output stage, captures, and the
meanings of the field events and of `SAMPLE`, `UPDATE` and `COUNT`. -/

namespace Sys2Proof.Machine

/-- The field side is fitted and in service: `BRINGUP` senses, `RUN` and `NOCORE` do all (R2, Table 3.5). -/
def fieldLive (s : State) : Bool := !s.dev.variantN && (s.pwr.node = .bringup || s.running)

/-- The mode a channel works in: `DI-PS` in `BRINGUP`, the image's afterwards (Table 3.5, R320). -/
def chMode (s : State) (n : Nat) : Nat :=
  if !fieldLive s then 0 else if s.pwr.node = .bringup then 3 else ((s.chan n).cfg.setWidth 4).toNat

/-- Front end and coupler of a channel and its group logic serve (R67). -/
def chUsable (s : State) (n : Nat) : Bool := usable s (38 + n / 8) && usable s (42 + n) && usable s (74 + n)

/-- T_SET in ns (R322): 20 µs in `BRINGUP` and by default. -/
def tSet (s : State) (n : Nat) : Nat :=
  let us := ((s.chan n).cfg.toNat / 16) % 256
  if s.pwr.node = .bringup || us = 0 then 20000 else 1000 * us

/-! ### Hysteresis memory and counter -/

/-- The memory takes the comparator into account (R324). While a cause is present no comparator state arrives that could
count (R330, R340, R341). -/
def sensing (s : State) (n : Nat) : Bool :=
  let c := s.chan n
  let m := chMode s n
  1 ≤ m && m ≤ 4 && chUsable s n && causeOf c = 0 && (m ≠ 3 || (c.sink && c.sinkAt + tSet s n ≤ s.now))

/-- Changes of the memory older than 1.2 µs are in every capture (R325). -/
def memFold (now : Nat) (c : Chan) : Chan :=
  match c.memHist with
  | (x, m) :: r => if x + 1200 ≤ now then { c with memBase := m, memHist := r } else c
  | [] => c

/-- The memory takes a value at the crossing's instant; a counting input counts from off to on only (R328). -/
def memTake (counts : Bool) (m : Hyst) (c : Chan) : Chan :=
  let counted := counts && c.mem = .off && m = .on
  { c with
    mem := m
    memHist := c.memHist ++ [(c.levelAt, m)]
    cnt := if counted then c.cnt + 1 else c.cnt
    cntAt := if counted then c.cntAt ++ [c.levelAt] else c.cntAt }

/-- What the comparator calls for: on above, off below, the memory's own value inside the band (R324). -/
def memWanted (c : Chan) : Hyst :=
  match c.level with
  | .above => .on
  | .below => .off
  | .band => c.mem

/-- The memory follows the comparator as far as R324 lets it. -/
def memSettle (n : Nat) (s : State) : State :=
  let now := s.now
  let counts := chMode s n = 4
  let live := sensing s n
  chanMod n (fun c =>
    let c := memFold now (memFold now { c with cntAt := c.cntAt.filter (fun x => now < x + 1200) })
    if live && memWanted c ≠ c.mem then memTake counts (memWanted c) c else c) s

/-- The memory as a capture at `now` shows it (R325): changes of at least 1.2 µs ago are in, those of less than 0.4 µs ago
are not, and between the two the choice is free. -/
def memAt (now : Nat) (late : Bool) : Hyst → List (Nat × Hyst) → Hyst
  | m, [] => m
  | m, (x, v) :: r => if x + 1200 ≤ now || (late && x + 400 ≤ now) then memAt now late v r else m

/-! ### The output stage (R333) -/

/-- The output stage of a `DQ` channel is powered. -/
def stagePowered (s : State) (n : Nat) : Bool :=
  s.running && chMode s n = 5 && (s.dom (38 + n / 8)).act = .on && (s.dom (42 + n)).act = .on && (s.dom (74 + n)).act = .on

/-- The value decided by force, lock and grid value (Table 11.6, last three rows). -/
def decided (c : Chan) : Bool :=
  match c.force, c.lock with
  | some v, _ => v.getLsbD 0
  | none, some v => v
  | none, none => c.grid

/-- The stage drives on (Table 11.6). -/
def stageOn (s : State) (n : Nat) : Bool :=
  let c := s.chan n
  stagePowered s n && !c.fSupply && !c.fThermal && (c.fLimit || c.cmd)

/-- A row above "grid value" decides the output (R384). -/
def overridden (c : Chan) : Bool := c.fSupply || c.fThermal || c.fLimit || c.force.isSome || c.lock.isSome

/-- The sticky bit of a cause in `CHnn_FAULT`. -/
def causeBit (k : Nat) : BitVec 5 := BitVec.ofNat 5 (2 ^ (k - 1))

/-- A cause set or cleared. -/
def causePut (k : Nat) (v : Bool) (c : Chan) : Chan :=
  if k = 1 then { c with fCoupler := v } else if k = 2 then { c with fSupply := v } else if k = 3 then { c with fLimit := v }
  else if k = 4 then { c with fThermal := v } else { c with fOpen := v }

/-- Whole µs of a span, as the events give durations. -/
def micros (ns : Nat) : Word := w32 (min (ns / 1000) 0xFFFFFFFF)

/-- A cause appears (R336, R337, R340, R341). -/
def causeSet (k n : Nat) (s : State) : State :=
  let s := memSettle n s
  chanMod n (fun c =>
    { causePut k true c with
      fault := c.fault ||| causeBit k
      faultAt := if causeOf c = 0 then s.now else c.faultAt }) s

/-- A cause goes. When none is left the memory is reset (R324) and event 0x6001 closes the fault, but for a coupler loss,
which event 0x6006 closes (R340). -/
def causeClear (k n : Nat) (s : State) : State :=
  let former := causeOf (s.chan n)
  let at_ := (s.chan n).faultAt
  let s := chanMod n (causesDropped (causePut k false)) s
  if former ≠ 0 && causeOf (s.chan n) = 0 then
    let s := if k = 1 then s else raise 0x6001 n [w32 n, w32 former, micros (s.now - at_)] s
    memSettle n s
  else s

/-- The link carries the decided value to the stage, unless it is lost (R340); an output that is off has no open load
(R337). -/
def restage (n : Nat) (s : State) : State :=
  let s := chanMod n (fun c => if c.fCoupler then c else { c with cmd := decided c }) s
  if (s.chan n).fOpen && !stageOn s n then causeClear 5 n s else s

/-! ### Captures -/

/-- A capture of one channel (R325, R334, R342, R344). -/
def capture (n : Nat) (volts : Byte) (s : State) : State :=
  let s := memSettle n s
  let c := s.chan n
  let cause := causeOf c
  let dq := chMode s n = 5
  let on := stageOn s n
  let sensed : Nat := match memAt s.now s.freeBit c.memBase c.memHist with
    | .off => 0
    | .on => 1
    | .undef => 2
  let code : Nat :=
    if dq then (if cause ≠ 0 then 3 else if on then 1 else 0)
    else c.force.elim (if cause ≠ 0 then 3 else sensed) BitVec.toNat
  let cyc := s.cyc.cyc.toNat * 65536
  let word := cyc + cause * 256 + (if dq && on then 16 else 0) + (if dq && c.grid then 8 else 0)
    + (if c.force.isSome then 4 else 0) + code
  drawn (chanMod n (fun c =>
    { c with capPrev := c.cap, cap := ⟨w32 word, w32 (cyc + volts.toNat), s.now⟩ }) s)

/-- The channels of a group mask, lowest first. -/
def maskChannels (g : Nat) (mask : Half) : List Nat :=
  ((List.range 8).filter (fun i => mask.getLsbD i)).map (fun i => 8 * g + i)

/-- An action on the channels of a group (R67): a missing group logic skips it whole, a missing front end or coupler skips
the channel. -/
def onChannels (g kind : Nat) (mask : Half) (f : Nat → State → State) (s : State) : State :=
  if !usable s (38 + g) then skipped (38 + g) kind s
  else (maskChannels g mask).foldl (fun s n =>
    if usable s (42 + n) && usable s (74 + n) then f n s
    else
      let s := if usable s (42 + n) then s else skipped (42 + n) kind s
      if usable s (74 + n) then s else skipped (74 + n) kind s) s

/-- SAMPLE (R325): a grid entry, or the fixed bring-up sampling (Table 3.5). -/
def sampleRun (entry : Option Nat) (g : Fin 4) (volts : Bytes) (s : State) : State :=
  let cap := fun n => capture n (volts.getD (n % 8) 0)
  match entry with
  | some i => gridFire 0x01 i (fun e s =>
      if e.target.toNat = g.val then onChannels g.val 0x01 e.param cap s else s) s
  | none => if s.pwr.node = .bringup && fieldLive s then onChannels g.val 0x01 0xFF cap s else s

def execSample (entry : Option Nat) (g : Fin 4) (volts : Bytes) : State → Host.Outcome State Fault Refusal :=
  act 0 (sampleRun entry g volts)

/-- `DRV` values that took effect at least 2 ticks before are applied, the last of them (R332). -/
def updateChannel (n : Nat) (s : State) : State :=
  if chMode s n ≠ 5 then s
  else
    let due := fun (p : Bool × Nat) => decide (p.2 + 16 ≤ s.now)
    restage n (chanMod n (fun c =>
      { c with grid := ((c.pend.filter due).getLast?).elim c.grid Prod.fst, pend := c.pend.filter (fun p => !due p) }) s)

/-- UPDATE (R332). -/
def updateRun (entry : Nat) : State → State :=
  gridFire 0x02 entry (fun e => onChannels (e.target.toNat % 4) 0x02 e.param updateChannel)

def execUpdate (entry : Nat) : State → Host.Outcome State Fault Refusal := act 0 (updateRun entry)

/-- The counter as it stood 1.2 µs before the tick is latched (R328). -/
def countChannel (n : Nat) (s : State) : State :=
  if chMode s n ≠ 4 then s
  else
    let s := memSettle n s
    chanMod n (fun c =>
      let late := (c.cntAt.filter (fun x => s.now < x + 1200)).length
      { c with latchPrev := c.latch, latch := ⟨c.cnt - w32 late, s.cyc.cyc, s.now⟩ }) s

/-- COUNT (R328). -/
def countRun (entry : Nat) : State → State :=
  gridFire 0x03 entry (fun e => onChannels (e.target.toNat % 4) 0x03 e.param countChannel)

def execCount (entry : Nat) : State → Host.Outcome State Fault Refusal := act 0 (countRun entry)

/-! ### Field events -/

/-- INPUT_THRESHOLD_CROSSING (R324). -/
def inputCrossing (n : Nat) (level : Comparator) (s : State) : State :=
  if s.dev.variantN then s
  else memSettle n (chanMod n (fun c => { c with level := level, levelAt := s.now }) (memSettle n s))

def execInputThresholdCrossing (t : Nat) (ch : Fin 32) (level : Comparator) : State → Host.Outcome State Fault Refusal :=
  act t (inputCrossing ch.val level)

/-- DIPS_SINK_ON (R322). -/
def sinkOn (n : Nat) (s : State) : State :=
  if chMode s n = 3 && chUsable s n && !(s.chan n).sink then
    chanMod n (fun c => { c with sink := true, sinkAt := s.now }) s
  else s

def execDipsSinkOn (t : Nat) (ch : Fin 32) : State → Host.Outcome State Fault Refusal := act t (sinkOn ch.val)

/-- DIPS_SINK_OFF (R322). -/
def sinkOff (n : Nat) (s : State) : State := chanMod n (fun c => { c with sink := false }) (memSettle n s)

def execDipsSinkOff (t : Nat) (ch : Fin 32) : State → Host.Outcome State Fault Refusal := act t (sinkOff ch.val)

/-- CURRENT_LIMIT (R336). -/
def currentLimit (n : Nat) (s : State) : State :=
  if stageOn s n && !(s.chan n).fLimit then
    raise 0x6002 n [] (causeSet 3 n (chanMod n (fun c => { c with epLimit := satInc c.epLimit }) s))
  else s

def execCurrentLimit (t : Nat) (ch : Fin 32) : State → Host.Outcome State Fault Refusal := act t (currentLimit ch.val)

/-- CURRENT_LIMIT_END (R333, R336): the stage drives what Table 11.6 decides. -/
def currentLimitEnd (n : Nat) (s : State) : State := restage n (causeClear 3 n s)

def execCurrentLimitEnd (t : Nat) (ch : Fin 32) : State → Host.Outcome State Fault Refusal :=
  act t (currentLimitEnd ch.val)

/-- THERMAL_CUTOFF (R336): the stage goes off, so it no longer limits. -/
def thermalCutoff (n : Nat) (s : State) : State :=
  if stageOn s n then
    let s := causeSet 4 n (chanMod n (fun c => { c with epThermal := satInc c.epThermal }) s)
    restage n (raise 0x6003 n [] (chanMod n (fun c => { c with fLimit := false }) s))
  else s

def execThermalCutoff (t : Nat) (ch : Fin 32) : State → Host.Outcome State Fault Refusal := act t (thermalCutoff ch.val)

/-- THERMAL_RELEASE (R336, R23). -/
def thermalRelease (n : Nat) (s : State) : State := restage n (causeClear 4 n s)

def execThermalRelease (t : Nat) (ch : Fin 32) : State → Host.Outcome State Fault Refusal := act t (thermalRelease ch.val)

/-- OPEN_LOAD_DETECT (R337). -/
def openLoadDetect (n : Nat) (s : State) : State :=
  let c := s.chan n
  if c.cfg.getLsbD 13 && stageOn s n && !c.fLimit && !c.fOpen then
    raise 0x6004 n [] (causeSet 5 n (chanMod n (fun c => { c with opens := satInc c.opens }) s))
  else s

def execOpenLoadDetect (t : Nat) (ch : Fin 32) : State → Host.Outcome State Fault Refusal := act t (openLoadDetect ch.val)

/-- OPEN_LOAD_CLEAR (R337). -/
def openLoadClear (n : Nat) (s : State) : State := causeClear 5 n s

def execOpenLoadClear (t : Nat) (ch : Fin 32) : State → Host.Outcome State Fault Refusal := act t (openLoadClear ch.val)

/-- COUPLER_LOSS (R340); heartbeat loss during supply low is not reported separately (R341). -/
def couplerLoss (n : Nat) (s : State) : State :=
  let c := s.chan n
  if fieldLive s && (s.dom (74 + n)).act = .on && !c.fCoupler && !c.fSupply then
    let s := chanMod n (fun c => { c with losses := satInc c.losses, couplerAt := s.now }) s
    raise 0x6005 n [] (causeSet 1 n s)
  else s

def execCouplerLoss (t : Nat) (ch : Fin 32) : State → Host.Outcome State Fault Refusal := act t (couplerLoss ch.val)

/-- COUPLER_RESTORE (R340). -/
def couplerRestore (n : Nat) (s : State) : State :=
  let c := s.chan n
  if c.fCoupler then raise 0x6006 n [micros (s.now - c.couplerAt)] (restage n (causeClear 1 n s)) else s

def execCouplerRestore (t : Nat) (ch : Fin 32) : State → Host.Outcome State Fault Refusal := act t (couplerRestore ch.val)

/-- The channels of a group. -/
def groupChannels (g : Nat) : List Nat := (List.range 8).map (8 * g + ·)

/-- GROUP_SUPPLY_LOW (R341). -/
def groupSupplyLow (g : Nat) (s : State) : State :=
  if fieldLive s && (s.dom (38 + g)).act = .on && !(s.chan (8 * g)).fSupply then
    let s := (groupChannels g).foldl (fun s n => causeSet 2 n s) s
    (groupChannels g).foldl (fun s n => restage n s) (raise 0x6008 g [] s)
  else s

def execGroupSupplyLow (t : Nat) (g : Fin 4) : State → Host.Outcome State Fault Refusal := act t (groupSupplyLow g.val)

/-- GROUP_SUPPLY_RESTORE (R341): each memory is reset, each output drives its decided value. -/
def groupSupplyRestore (g : Nat) (s : State) : State :=
  if (s.chan (8 * g)).fSupply then
    (groupChannels g).foldl (fun s n =>
      let s := restage n (causeClear 2 n s)
      if causeOf (s.chan n) = 0 then s else chanMod n memReset s) (raise 0x6009 g [] s)
  else s

def execGroupSupplyRestore (t : Nat) (g : Fin 4) : State → Host.Outcome State Fault Refusal :=
  act t (groupSupplyRestore g.val)

/-- FORCE_TIMEOUT (R344): the force ends at the next cycle start. -/
def forceTimeout (n : Nat) (s : State) : State :=
  chanMod n (fun c => if c.force.isSome then { c with forceOver := true } else c) s

def execForceTimeout (t : Nat) (ch : Fin 32) : State → Host.Outcome State Fault Refusal := act t (forceTimeout ch.val)

end Sys2Proof.Machine
end

