-- ==== Sys2Proof/Machine/Measure.lean ====
section
/-! DEFINITION. The measurement unit (12): supply classification, rails and group supplies, temperature levels, the grid
action `MEASURE`. -/

namespace Sys2Proof.Machine

/-! ### Supply classification (R352) -/

/-- A code of quantity 0x00 stands below a voltage in mV (12 bits over 180 V). -/
def batBelow (code mV : Nat) : Bool := code * 180000 < mV * 4096

/-- A code of quantity 0x00 stands above a voltage in mV. -/
def batAbove (code mV : Nat) : Bool := mV * 4096 < code * 180000

/-- Un in mV; 0 while not selected (R353). -/
def unMilli (un : Nat) : Nat := if un = 1 then 24000 else if un = 2 then 72000 else if un = 3 then 110000 else 0

/-- One supply sample in the dip class; `step` is its length in 100 µs. -/
def dipStep (un code step : Nat) (c : Classify) : Classify :=
  if un = 0 || c.intr then { c with dip := false, dipRun := 0, dipTime := 0, dipEnd := 0 }
  else
    let low := batBelow (code * 10) (6 * un)
    let back := !batBelow (code * 10) (7 * un)
    let lowest := if c.dipTime = 0 then code else min c.dipLow code
    if c.dip then { c with dipTime := c.dipTime + step, dipLow := lowest, dipEnd := if back then c.dipEnd + 1 else 0 }
    else if low then
      { c with dipRun := c.dipRun + 1, dipTime := c.dipTime + step, dipLow := lowest, dip := decide (3 ≤ c.dipRun + 1), dipEnd := 0 }
    else { c with dipRun := 0, dipTime := 0, dipEnd := 0 }

/-- One supply sample in the interruption class. -/
def intStep (stop start code step : Nat) (c : Classify) : Classify :=
  if c.intr then
    { c with intTime := c.intTime + step, intEnd := if batAbove code start then c.intEnd + 1 else 0 }
  else if batBelow code stop then
    let began := decide (3 ≤ c.intRun + 1)
    { c with
      intRun := c.intRun + 1, intTime := c.intTime + step, intr := began, intEnd := 0
      intDip := if began && c.dip then c.dipTime - (c.intTime + step) else 0 }
  else { c with intRun := 0, intTime := 0, intEnd := 0 }

/-- One supply sample in the surge class. -/
def surgeStep (un code step : Nat) (c : Classify) : Classify :=
  if un = 0 then c
  else
    let peak := max c.surgePeak code
    if c.surge then
      { c with surgeTime := c.surgeTime + step, surgePeak := peak
               surgeEnd := if batAbove (code * 100) (135 * un) then 0 else c.surgeEnd + 1 }
    else if batAbove (code * 10) (14 * un) then
      { c with surgeRun := c.surgeRun + 1, surgeTime := c.surgeTime + step, surgePeak := peak, surgeEnd := 0
               surge := decide (3 ≤ c.surgeRun + 1) }
    else { c with surgeRun := 0, surgeTime := 0, surgePeak := 0, surgeEnd := 0 }

/-- One supply sample in the overvoltage class, which the event OVERVOLTAGE_1S starts. -/
def overStep (code step : Nat) (c : Classify) : Classify :=
  let high := batAbove code 154000
  if c.ovr then
    { c with overTime := c.overTime + step, overPeak := max c.overPeak code, overEnd := if high then 0 else c.overEnd + 1 }
  else if high then { c with overTime := c.overTime + step, overPeak := max c.overPeak code, overEnd := 0 }
  else { c with overTime := 0, overPeak := 0, overEnd := 0 }

/-- The classification replaced. -/
def clsPut (f : Classify → Classify) (s : State) : State := { s with ms := { s.ms with cls := f s.ms.cls } }

/-- The dip ended with its third ending sample. -/
def dipClose (step : Nat) (s : State) : State :=
  let c := s.ms.cls
  if c.dip && c.dipEnd = 3 then
    let s := clsPut (fun c => { c with dip := false, dipRun := 0, dipTime := 0, dipEnd := 0 }) s
    raise 0x7000 noInst [w32 c.dipLow, w32 (c.dipTime - 3 * step)]
      { s with ms := { s.ms with nDip := satInc s.ms.nDip } }
  else s

/-- The interruption ended: S2 up to 10 ms, S3 up to 20 ms, else beyond S3. -/
def intClose (step : Nat) (s : State) : State :=
  let c := s.ms.cls
  if c.intr && c.intEnd = 3 then
    let d := c.intTime - 3 * step
    let s := clsPut (fun c => { c with intr := false, intRun := 0, intTime := 0, intEnd := 0, intDip := 0 }) s
    let data := [w32 d, w32 c.intDip]
    if d ≤ 100 then raise 0x7001 noInst data { s with ms := { s.ms with nIntS2 := satInc s.ms.nIntS2 } }
    else if d ≤ 200 then raise 0x7002 noInst data { s with ms := { s.ms with nIntS3 := satInc s.ms.nIntS3 } }
    else raise 0x7003 noInst data { s with ms := { s.ms with nIntLong := satInc s.ms.nIntLong } }
  else s

/-- The surge ended. -/
def surgeClose (step : Nat) (s : State) : State :=
  let c := s.ms.cls
  if c.surge && c.surgeEnd = 3 then
    let s := clsPut (fun c => { c with surge := false, surgeRun := 0, surgeTime := 0, surgePeak := 0, surgeEnd := 0 }) s
    raise 0x7004 noInst [w32 c.surgePeak, w32 (c.surgeTime - 3 * step)]
      { s with ms := { s.ms with nSurge := satInc s.ms.nSurge } }
  else s

/-- The overvoltage ended. -/
def overClose (step : Nat) (s : State) : State :=
  let c := s.ms.cls
  if c.ovr && c.overEnd = 3 then
    let s := clsPut (fun c => { c with ovr := false, overTime := 0, overPeak := 0, overEnd := 0 }) s
    raise 0x7005 noInst [w32 c.overPeak, w32 (c.overTime - 3 * step)]
      { s with ms := { s.ms with nOver := satInc s.ms.nOver } }
  else s

/-- The supply ADC runs (R351). -/
def supplyAdcOn (s : State) : Bool := (s.dom 36).act = .on && s.awake

/-- The auxiliary ADC runs (R351). -/
def auxAdcOn (s : State) : Bool := (s.dom 37).act = .on && s.awake

/-- SUPPLY_SAMPLE (R348, R350, R352); while a flush runs nothing is classified (R354). -/
def supplySample (bat iin hu : BitVec 12) (s : State) : State :=
  if !supplyAdcOn s then s
  else
    let s := { s with ms := { s.ms with
      bat := bat, iin := iin, hu := hu, batSum := s.ms.batSum + bat.toNat, batCount := s.ms.batCount + 1 } }
    if s.pwr.flush.isSome then s
    else
      let step := if s.pwr.node = .limp then 10 else 1
      let un := unMilli s.ms.un
      let s := clsPut (fun c =>
        let c := intStep Config.converterStop Config.converterStart bat.toNat step (dipStep un bat.toNat step c)
        overStep bat.toNat step (surgeStep un bat.toNat step c)) s
      overClose step (surgeClose step (intClose step (dipClose step s)))

def execSupplySample (t : Nat) (bat iin hu : BitVec 12) : State → Host.Outcome State Fault Refusal :=
  act t (supplySample bat iin hu)

/-- OVERVOLTAGE_1S (R352, R46). -/
def overvoltage1s (s : State) : State :=
  if supplyAdcOn s && s.ms.cls.overTime ≠ 0 then clsPut (fun c => { c with ovr := true }) s else s

def execOvervoltage1s (t : Nat) : State → Host.Outcome State Fault Refusal := act t overvoltage1s

/-- Un is selected, with event 0x7006: Un in V and the source bit of `MS_UN` (R353). -/
def selectUn (un : Nat) (bySel : Bool) (s : State) : State :=
  raise 0x7006 noInst [w32 (unMilli un / 1000), if bySel then 1 else 0]
    { s with ms := { s.ms with un := un, unBySel := bySel } }

/-- UN_AUTO_SELECT (R353). -/
def unAutoSelect (s : State) : State :=
  if s.cycling && s.ms.batCount ≠ 0 && s.image.elim true (fun im => im.node.unSel = 0) then
    let mean := s.ms.batSum * 180000 / 4096 / s.ms.batCount
    selectUn (if mean < 45000 then 1 else if mean < 95000 then 2 else 3) false s
  else s

def execUnAutoSelect (t : Nat) : State → Host.Outcome State Fault Refusal := act t unAutoSelect

/-! ### Rails, group supplies, temperatures -/

/-- Nominal rail voltages in mV, in the order of Table 12.1. -/
def railNominal : List Nat := [900, 1800, 2500, 3300]

/-- A rail reading lies outside ±5 % of its nominal value (R355). -/
def railBad (i v : Nat) : Bool :=
  let n := railNominal.getD i 0
  v * 100 < 95 * n || 105 * n < v * 100

/-- A rail sample: three in a row out of the window raise event 0x7008, three in a row inside clear it (R355). -/
def railSample (i : Nat) (v : BitVec 12) (s : State) : State :=
  let bad := railBad i v.toNat
  let out := s.ms.railOut.getD i false
  let run := if bad = out then 0 else s.ms.railRun.getD i 0 + 1
  let flip := run = 3
  let s := { s with ms := { s.ms with
    rails := s.ms.rails.set i v
    railRun := s.ms.railRun.set i (if flip then 0 else run)
    railOut := s.ms.railOut.set i (if flip then bad else out) } }
  if flip && bad then raise 0x7008 i [] s else s

/-- A group supply sample against 30 V, 10 bits over 40 V (R355). -/
def groupSample (g : Nat) (v : BitVec 10) (s : State) : State :=
  let bad := decide (30000 * 1024 < v.toNat * 40000)
  let out := s.ms.grpOut.getD g false
  let run := if bad = out then 0 else s.ms.grpRun.getD g 0 + 1
  let flip := run = 3
  let s := { s with ms := { s.ms with
    groups := s.ms.groups.set g v
    grpRun := s.ms.grpRun.set g (if flip then 0 else run)
    grpOut := s.ms.grpOut.set g (if flip then bad else out) } }
  if flip && bad then raise 0x7007 g [] s else s

/-- AUX_SAMPLE (R348, R355): one sample of a temperature, a group supply, a rail or a load current. -/
def auxSample (q : Byte) (v : Half) (s : State) : State :=
  let k := q.toNat
  if 3 ≤ k && k ≤ 5 then (if auxAdcOn s then { s with ms := { s.ms with temps := s.ms.temps.set (k - 3) v } } else s)
  else if 8 ≤ k && k ≤ 11 then
    (if fieldLive s && (s.dom (38 + (k - 8))).act = .on then groupSample (k - 8) (v.setWidth 10) s else s)
  else if 12 ≤ k && k ≤ 15 then (if auxAdcOn s then railSample (k - 12) (v.setWidth 12) s else s)
  else if 0x20 ≤ k && k ≤ 0x3F then
    (if chMode s (k - 0x20) = 5 && (s.dom (74 + (k - 0x20))).act = .on
      then chanMod (k - 0x20) (fun c => { c with load := v.setWidth 10 }) s else s)
  else s

def execAuxSample (t : Nat) (q : Byte) (v : Half) : State → Host.Outcome State Fault Refusal := act t (auxSample q v)

/-- The default thresholds of Table 12.3 in steps of 0.125 °C: WARN then CRIT for each sensor. -/
def tempDefaults : List Int := [600, 720, 680, 800, 640, 760]

/-- A threshold of the image, or the default where the image leaves it 0 or none is in service (R357). -/
def tempThr (s : State) (i : Nat) : Int :=
  let v : Int := s.image.elim 0 (fun im => (im.node.tempThr.getD i 0).toInt)
  if v = 0 then tempDefaults.getD i 0 else v

/-- The level a sensor's reading leads to from its present level (Table 12.4); 3 °C are 24 steps. -/
def tempNext (l : TLevel) (warn crit v : Int) : TLevel :=
  match l with
  | .normal => if crit ≤ v then .crit else if warn ≤ v then .warn else .normal
  | .warn => if crit ≤ v then .crit else if v ≤ warn - 24 then .normal else .warn
  | .crit => if v ≤ warn - 24 then .normal else if v ≤ crit - 24 then .warn else .crit

/-- A change of one counter of a list. -/
def bump (i : Nat) (l : List Half) : List Half := l.modify i satInc

/-- TEMP_LEVEL_CHANGE (R358): the condition that the reading meets has held for 2 s. A faulty sensor's level is frozen
(R359). -/
def tempLevelChange (i : Nat) (v : Half) (s : State) : State :=
  if !auxAdcOn s || s.ms.tBad.getD i false then s
  else
    let old := s.ms.tlevel.getD i .normal
    let new := tempNext old (tempThr s (2 * i)) (tempThr s (2 * i + 1)) v.toInt
    let s := { s with ms := { s.ms with temps := s.ms.temps.set i v, tlevel := s.ms.tlevel.set i new } }
    match old, new with
    | .normal, .warn => raise 0x7010 i [] { s with ms := { s.ms with twarn := bump i s.ms.twarn } }
    | .normal, .crit =>
      raise 0x7011 i [] { s with ms := { s.ms with twarn := bump i s.ms.twarn, tcrit := bump i s.ms.tcrit } }
    | .warn, .crit => raise 0x7011 i [] { s with ms := { s.ms with tcrit := bump i s.ms.tcrit } }
    | _, _ => s

def execTempLevelChange (t : Nat) (i : Fin 3) (v : Half) : State → Host.Outcome State Fault Refusal :=
  act t (tempLevelChange i.val v)

/-- TEMP_SENSOR_STUCK (R359). -/
def tempSensorStuck (i : Nat) (v : Half) (s : State) : State :=
  if !auxAdcOn s || s.ms.tBad.getD i false then s
  else raise 0x7013 i [v.signExtend 32]
    { s with ms := { s.ms with temps := s.ms.temps.set i v, tBad := s.ms.tBad.set i true } }

def execTempSensorStuck (t : Nat) (i : Fin 3) (v : Half) : State → Host.Outcome State Fault Refusal :=
  act t (tempSensorStuck i.val v)

/-- TEMP_SENSOR_PLAUSIBLE (R359). -/
def tempSensorPlausible (i : Nat) (s : State) : State :=
  if auxAdcOn s then { s with ms := { s.ms with tBad := s.ms.tBad.set i false } } else s

def execTempSensorPlausible (t : Nat) (i : Fin 3) : State → Host.Outcome State Fault Refusal :=
  act t (tempSensorPlausible i.val)

/-! ### Measurement sets (R349) -/

/-- The latest sample of a quantity as `MEAS` returns it (R384), when its source is `ON`. -/
def quantity (s : State) (q : Nat) : Option Word :=
  if q = 0 && supplyAdcOn s then some (s.ms.bat.setWidth 32)
  else if q = 1 && supplyAdcOn s then some (s.ms.iin.setWidth 32)
  else if q = 2 && supplyAdcOn s then some (s.ms.hu.setWidth 32)
  else if 3 ≤ q && q ≤ 5 && auxAdcOn s then some ((s.ms.temps.getD (q - 3) 0).signExtend 32)
  else if 8 ≤ q && q ≤ 11 && usable s (38 + (q - 8)) then some ((s.ms.groups.getD (q - 8) 0).setWidth 32)
  else if 12 ≤ q && q ≤ 15 && auxAdcOn s then some ((s.ms.rails.getD (q - 12) 0).setWidth 32)
  else if 0x20 ≤ q && q ≤ 0x3F && chMode s (q - 0x20) = 5 && chUsable s (q - 0x20) then
    some ((s.chan (q - 0x20)).load.setWidth 32)
  else none

/-- The quantities of a set, in order; unused bytes are 0xFF (Table 14.6). -/
def setCodes (im : Image) (i : Nat) : List Byte := ((im.meassets[i]?).getD []).filter (· ≠ 0xFF)

/-- One quantity of a set is captured. -/
def measureOne (set i q : Nat) (s : State) : State :=
  match quantity s q with
  | none => s
  | some v =>
    let k := 16 * set + i
    { s with ms := { s.ms with
      capsPrev := smPut {} s.ms.capsPrev k (smGet {} s.ms.caps k)
      caps := smPut {} s.ms.caps k ⟨v, s.cyc.cyc, s.now⟩ } }

/-- MEASURE (R349). -/
def measureRun (entry : Nat) : State → State :=
  gridFire 0x04 entry (fun e s =>
    let codes := s.image.elim [] (fun im => setCodes im e.target.toNat)
    (List.range codes.length).foldl (fun s i => measureOne e.target.toNat i (codes.getD i 0).toNat s) s)

def execMeasure (entry : Nat) : State → Host.Outcome State Fault Refusal := act 0 (measureRun entry)

end Sys2Proof.Machine
end

