-- ==== Sys2Proof/Machine/Bench.lean ====
section
/-! DEFINITION. The bench engine (12): requests and their refusal, the queue, slots and results. -/

namespace Sys2Proof.Machine

/-- Duration of a request in ns, by kind (Table 12.5). -/
def benchTime (kind : Nat) : Nat :=
  if kind = 1 then 10800 else if kind = 2 then 3200 else if kind = 3 then 16000 else if kind = 4 then 12000 else 16000

/-- The object is valid for the kind (Table 12.5, R364). -/
def benchValid (s : State) (kind obj : Nat) : Bool :=
  (kind = 1 && obj < 256) || (kind = 2 && obj < 32 && !s.dev.variantN) || (kind = 3 && obj < 2)
    || (kind = 4 && (obj ≤ 0x0B || (0x10 ≤ obj && obj ≤ 0x13))) || (kind = 5 && obj < 32)

/-- A declaration lists the resource of a request (Table 12.5, Table 14.6). -/
def benchLists (d : BenchDecl) (kind obj : Nat) : Bool :=
  let b := Config.marchBank obj % 12
  if kind = 1 then (if b < 4 then d.banks.getLsbD b else d.fb.getLsbD (b - 4))
  else if kind = 2 then d.channels.getLsbD obj
  else if kind = 3 then d.adc.getLsbD obj
  else if kind = 4 then (if obj < 12 then d.branches.getLsbD obj else d.ports.getLsbD (obj - 0x10))
  else d.core

/-- The resource's domain is `ON`, a looped port has no link, a core under repair is yielded (R362, Table 12.5). -/
def benchReady (s : State) (kind obj : Nat) : Bool :=
  let b := Config.marchBank obj % 12
  if kind = 1 then usable s (if b < 4 then 114 + b else 106 + (b - 4))
  else if kind = 2 then usable s (74 + obj)
  else if kind = 3 then usable s (36 + obj)
  else if kind = 4 then
    (if obj < 12 then usable s (13 + obj) && !(s.vn.br.getD obj {}).link
     else usable s (26 + (obj - 0x10)) && (s.eq.getD (obj - 0x10) {}).link = 0)
  else s.cr.pxcYielded

/-- The reason a request is refused, in the order of R364 and R365; `task` marks a request of `BENCH` (R389). -/
def benchJudge (s : State) (task : Bool) (kind obj : Nat) : Option Nat :=
  if 16 ≤ s.bn.queue.length then some 1
  else if !benchValid s kind obj then some 2
  else match s.image with
    | none => if kind = 5 then some 4 else none
    | some im =>
      if !im.bench.any (fun d => benchLists d kind obj) then some 3
      else if kind = 5 && (task || !s.cr.pxcYielded) then some 4
      else none

/-- The next ticket not held by a queued or running request (R361). -/
def benchTicket (bn : Bench) : Nat → Nat → Nat
  | 0, t => t
  | fuel + 1, t =>
    if bn.queue.any (fun r => r.ticket = t) || bn.running.elim false (fun r => r.ticket = t)
    then benchTicket bn fuel ((t + 1) % 16) else t

/-- A request (R361-R365): the word is the ticket, or 0x8000_0000 + reason with event 0x7022. In `BRINGUP` it is reported
`BENCH_DEFER` at once (R75, R363). -/
def benchAsk (task repair : Bool) (kind obj : Nat) (s : State) : State × Word :=
  match benchJudge s task kind obj with
  | some r => (raise 0x7022 kind [w32 r] s, w32 (0x80000000 + r))
  | none =>
    let t := benchTicket s.bn 16 s.bn.next
    let early := s.image.isNone
    let r : BenchReq := ⟨t, kind, obj, if early then 1 else 0, 0, repair, false⟩
    let s := { s with bn := { s.bn with
      queue := s.bn.queue ++ [r]
      results := r :: s.bn.results.filter (fun x => x.ticket ≠ t)
      next := (t + 1) % 16, last := t } }
    (if early then raise 0x7023 kind [] s else s, w32 t)

/-- A request's result entry changes. -/
def benchShow (r : BenchReq) (s : State) : State :=
  { s with bn := { s.bn with results := s.bn.results.map (fun x => if x.ticket = r.ticket then r else x) } }

/-- A decision point (R108, R362): the oldest request that the open slot's declaration covers, that fits the rest of the
slot and whose resource is ready starts. -/
def benchDecide (s : State) : State :=
  match s.bn.slot, s.bn.running, s.image with
  | some (d, stop), none, some im =>
    match im.bench[d]? with
    | none => s
    | some decl =>
      match s.bn.queue.find? (fun r =>
        benchLists decl r.kind r.obj && decide (s.now + benchTime r.kind ≤ stop) && benchReady s r.kind r.obj) with
      | none => s
      | some r =>
        let q := { r with status := 2 }
        benchShow q { s with bn := { s.bn with
          running := some q, queue := s.bn.queue.filter (fun x => x.ticket ≠ r.ticket) } }
  | _, _, _ => s

/-- BENCH_SLOT (R107): the entry opens a slot of `PARAM` × 64 ns. -/
def benchSlotRun (entry : Nat) : State → State :=
  gridFire 0x1E entry (fun e => onDomain 120 0x1E (fun s =>
    benchDecide { s with bn := { s.bn with slot := some (e.target.toNat, s.now + 64 * e.param.toNat) } }))

def execBenchSlot (entry : Nat) : State → Host.Outcome State Fault Refusal := act 0 (benchSlotRun entry)

/-- The running request ends (R362, R366). The core redundancy's own passes are recorded once per pass, at step 31, and
only its records are repeat-counted (R440). -/
def benchEnd (pass : Bool) (detail : Word) (s : State) : State :=
  match s.bn.running with
  | none => s
  | some r =>
    let r := { r with status := if pass then 3 else 4, detail := if pass then 0 else detail }
    let s := benchShow r { s with bn := { s.bn with running := none } }
    let inst : Byte := BitVec.ofNat 8 r.kind
    let s :=
      if pass then
        (if r.repair && r.obj ≠ 31 then s else raiseTo ⟨true, false, r.repair⟩ 0x7020 inst [w32 r.obj] s)
      else raiseTo ⟨true, true, r.repair⟩ 0x7021 inst [w32 r.obj, detail] s
    match s.bn.slot with
    | some (_, stop) => if s.now < stop then benchDecide s else s
    | none => s

/-- A whole macrocycle has ended (R363). -/
def benchAge (s : State) : State :=
  s.bn.queue.foldl (fun s r =>
    if r.status ≠ 0 then s
    else
      let q := if r.aged then { r with status := 1 } else { r with aged := true }
      let s := benchShow q { s with bn := { s.bn with queue := s.bn.queue.map (fun x => if x.ticket = q.ticket then q else x) } }
      if r.aged then raise 0x7023 r.kind [] s else s) s

/-- The declaration test when an image enters service (R365). -/
def benchService (s : State) : State :=
  s.bn.queue.foldl (fun s r =>
    if s.image.elim false (fun im => im.bench.any (fun d => benchLists d r.kind r.obj)) then s
    else
      let s := { s with bn := { s.bn with queue := s.bn.queue.filter (fun x => x.ticket ≠ r.ticket) } }
      raise 0x7022 r.kind [3] (benchShow { r with status := 5 } s)) s

/-- The queue is emptied at `QUIESCE`, with event 0x5003 and the number dropped (R296, R365). -/
def benchQuiesce (s : State) : State :=
  let n := s.bn.queue.length + (if s.bn.running.isSome then 1 else 0)
  raise 0x5003 noInst [w32 n] { s with bn := { s.bn with queue := [], running := none, slot := none } }

end Sys2Proof.Machine
end

