-- ==== Sys2Proof/Machine/Shutter.lean ====
section
/-! DEFINITION. The Shutter (10): its state, its routes both ways; and the dynamic frames of the star, which it shares
with `VSND` (08, 13). -/

namespace Sys2Proof.Machine

/-! ### The star configuration (08, Table 14.7) -/

/-- The star configuration in service. -/
def State.star (s : State) : Option Star := s.image.bind Image.star

/-- L_S: longest static frame (R230). -/
def lStatic (st : Star) : Nat := (st.tS * 1000 - 2200) / 80 - 8

/-- Start of static slot `k` after V0, in ns (Table 8.2). -/
def slotStart (st : Star) (k : Nat) : Nat := 10000 + k * st.tS * 1000

/-- Start of the dynamic segment after V0. -/
def dynStart (st : Star) : Nat := slotStart st st.nS

/-- E_D. -/
def dynEnd (st : Star) : Nat := dynStart st + st.nM * st.tM * 1000

/-- Owner of a static slot: branch, 0x0C the node, 0xFF none. -/
def slotOwner (st : Star) (k : Nat) : Nat := if k < st.nS then (st.owners.getD k 0xFF).toNat else 0xFF

/-- The entry of a dynamic ID (1 to N_M). -/
def dynId (st : Star) (id : Nat) : Option DynId := if 1 ≤ id && id ≤ st.nM then st.ids[id - 1]? else none

/-- Owner of a dynamic ID. -/
def dynOwner (st : Star) (id : Nat) : Nat := (dynId st id).elim 0xFF (fun d => d.owner.toNat)

/-- Frame length L of a body of `n` bytes: at least 64, FCS included (R227). -/
def frameLen (n : Nat) : Nat := max 64 (34 + n)

/-- Mini-slots of a frame of length L (R236). -/
def mspanOf (st : Star) (l : Nat) : Nat :=
  if st.tM = 0 then 0 else ((l + 8) * 80 + 2200 + st.tM * 1000 - 1) / (st.tM * 1000)

/-- The vehicle frame header (Table 8.3). -/
def vnHeader (sub flags mspan : Byte) (slot cyc layout : Half) (len : Nat) : Bytes :=
  let h := [sub, 0x01] ++ beBytes 2 slot.toNat ++ [flags, mspan] ++ beBytes 2 cyc.toNat ++ beBytes 2 layout.toNat
    ++ beBytes 2 len ++ [0, 0]
  h ++ beBytes 2 (crc16 h).toNat

/-- The address of one of the node's ports: base + index (Table 14.16). -/
def portAddr (s : State) (index : Nat) : Bytes := beBytes 6 ((s.dev.baseAddr.toNat + index) % 2 ^ 48)

/-- A vehicle frame of the node without its FCS: group address, own branch address, EtherType, header, body, padding. -/
def vnFrame (s : State) (hdr body : Bytes) : Bytes :=
  padTo 60 ([0x03, 0x5E, 0x6E, 0x48, 0x00, 0x10] ++ portAddr s 8 ++ [0x88, 0xB6] ++ hdr ++ body)

/-! ### Dynamic frames of the node (R236, R385) -/

/-- Frames the node holds for a dynamic ID. -/
def dynHeld (s : State) (id : Nat) : Nat := (s.vn.dynQ.filter (fun m => m.id = id)).length

/-- A dynamic frame is refused (R385): ID not node-owned, chain not owned, body beyond L_D - 34, 8 frames queued. -/
def dynFault (s : State) (party : Byte) (bs : List Nat) (id body : Nat) : Bool :=
  match s.star with
  | none => true
  | some st =>
    match dynId st id with
    | none => true
    | some d => d.owner ≠ 0x0C || !ownsAll s party bs || d.maxLen < body + 34 || 8 ≤ dynHeld s id

/-- A dynamic frame is posted; ownership passes to the star (0x3D). -/
def dynPost (id b : Nat) (shutter : Bool) (s : State) : State :=
  let s := chainOwner 0x3D (chainOf s b) s
  { s with vn := { s.vn with dynQ := s.vn.dynQ ++ [⟨id, b, shutter⟩] } }

/-! ### Routes (R312-R315) -/

/-- Frames the Shutter holds toward the backbone. -/
def shHeld (s : State) : Nat := (s.tf.own.filter (fun m => m.shutter)).length

/-- Event 0x5021 (R315): reason 1 the state, 2 the class, 3 a refused post, 4 full (log 21). -/
def shDiscard (reason : Nat) (s : State) : State :=
  raise 0x5021 noInst [Config.eventItem 0x5021 reason] { s with sh := { s.sh with drop := s.sh.drop + 1 } }

/-- Event 0x5022 (R315). -/
def shNoRoute (s : State) : State := raise 0x5022 noInst [] { s with sh := { s.sh with drop := s.sh.drop + 1 } }

/-- The Shutter forwards nothing (Table 10.4). -/
def shBlocked (s : State) : Bool := s.sh.st = .closed || s.sh.st = .closing

/-- The class of a route entry passes (Table 10.4). -/
def classPasses (s : State) (im : Image) (r : Route) : Bool :=
  s.sh.st = .open_ || im.node.guardMask.getLsbD r.tclass.toNat

/-- A frame consumed by the Shutter from a segment: a port with its VID, or a dynamic ID (R313). The chain is the
Shutter's. -/
def shToBackbone (dynamic : Bool) (seg : Nat) (vid : BitVec 12) (b : Nat) (s : State) : State :=
  let bs := chainOf s b
  if shBlocked s then chainFree bs (shDiscard 1 s)
  else
    match s.image with
    | none => chainFree bs (shDiscard 1 s)
    | some im =>
      match im.routes.find? (fun r => !r.toSegment && r.dynamic = dynamic && r.seg = seg && (dynamic || r.vid = vid)) with
      | none => chainFree bs (shNoRoute s)
      | some r =>
        if !classPasses s im r then chainFree bs (shDiscard 2 s)
        else if 64 ≤ shHeld s then chainFree bs (shDiscard 4 s)
        else ownAdd { shutter := true, buf := some b, body := [], cls := 0x02, dst := r.node, mseq := none, ports := [] } s

/-- A vehicle frame's node-dependent fields are rewritten (R314). -/
def vnRewrite (st : Star) (id : Nat) (cyc : Half) (f : Bytes) : Bytes :=
  let l := max 64 (f.length + 4)
  let h := slice f 14 14
  let h := patch h 2 (beBytes 2 id)
  let h := patch h 5 ([BitVec.ofNat 8 (mspanOf st l)] ++ beBytes 2 cyc.toNat ++ beBytes 2 st.layout.toNat)
  padTo 60 (patch f 14 (h ++ beBytes 2 (crc16 h).toNat))

/-- A delivered `CLASS` 0x02 frame (R314): the first entry that matches its `SRC` decides. -/
def shFromBackbone (src : Byte) (body : Bytes) (s : State) : State :=
  if shBlocked s then shDiscard 1 s
  else
    match s.image with
    | none => shDiscard 1 s
    | some im =>
      match im.routes.find? (fun r => r.toSegment && (r.node = 0 || r.node = src)) with
      | none => shNoRoute s
      | some r =>
        if !classPasses s im r then shDiscard 2 s
        else
          let p := poolStore 0x3E body s
          match p.2.head? with
          | none => p.1
          | some b =>
            let s := chainOwner 0x3C p.2 p.1
            let passed (s : State) : State := { s with sh := { s.sh with fromBb := s.sh.fromBb + 1 } }
            if r.dynamic then
              if dynFault s 0x3C p.2 r.seg (body.length - 30) then chainFree p.2 (shDiscard 3 s)
              else passed (dynPost r.seg b true s)
            else
              let tci : Half := BitVec.ofNat 16 (r.queue.toNat * 8192 + im.profile.trainVid.toNat % 4096)
              let s := if r.etag then bufMod b (fun x => { x with flags := x.flags ||| fTagged, tci := tci }) s else s
              let q := postChain b 0x3C r.seg r.queue.toNat s
              if q.2 = 0 then passed q.1 else chainFree (chainOf q.1 b) (shDiscard 3 q.1)

/-! ### Commands and the announcement (R308-R311) -/

/-- The Shutter changes its state (R308). -/
def shSet (st : ShState) (party : Nat) (s : State) : State :=
  let old := s.sh.st
  let s := { s with sh := { s.sh with st := st } }
  if old = st then s else raise 0x5020 noInst [w32 old.code, w32 st.code, w32 party] s

/-- Cycles left until the quiesce cycle (R293). -/
def quiesceLeft (s : State) : Option Nat := s.tf.quiesceCyc.map (fun q => (q - s.cyc.cyc).toNat)

/-- A command to the Shutter at a cycle start: 0 `CLOSED`, 1 `GUARDED`, 2 `OPEN`; party 0 `GATE`, 1 `SHUTTER_SET`,
2 standing order (R309-R311). -/
def shCommand (v party : Nat) (s : State) : State :=
  if !s.running || 2 < v then s
  else
    let old := s.sh.st
    let s := { s with sh := { s.sh with party := party } }
    if v = 0 then
      if shBlocked s then s
      else
        let near := (quiesceLeft s).elim false (fun n => decide (n ≤ 8))
        shSet .closing party { s with sh := { s.sh with left := if near then 0 else 8 } }
    else
      let s := shSet (if v = 1 then .guarded else .open_) party { s with sh := { s.sh with left := 0 } }
      if old = .closing then raise 0x5023 noInst [] s else s

/-- At a cycle start the announcement counts down and ends in `CLOSED` (R310); then the last `GATE` applies (R309). -/
def shCycle (s : State) : State :=
  let s :=
    if s.sh.st = .closing && s.sh.left ≠ 0 then
      let s := { s with sh := { s.sh with left := s.sh.left - 1 } }
      if s.sh.left = 0 then shSet .closed s.sh.party s else s
    else s
  let g := s.sh.gate
  let s := { s with sh := { s.sh with gate := none } }
  g.elim s (fun v => shCommand v 0 s)

/-- The power cycle puts the Shutter into the image's initial state (R316). -/
def shPower (s : State) : State :=
  match s.image with
  | none => s
  | some im =>
    shSet (if im.node.shInit = 1 then .guarded else if im.node.shInit = 2 then .open_ else .closed) 3
      { s with sh := { s.sh with party := 3 } }

/-- `QUIESCE` forces the Shutter `CLOSED`; its queues are freed (Table 10.2). -/
def shQuiesce (s : State) : State :=
  let held := s.tf.own.filterMap (fun m => if m.shutter then m.buf else none)
  let s := chainFree (held.flatMap (fun b => chainOf s b)) s
  let s := { s with
    tf := { s.tf with own := s.tf.own.filter (fun m => !m.shutter) }
    sh := { s.sh with left := 0, gate := none, party := 3 } }
  shSet .closed 3 s

/-- `VSLEEP_CD` of the next `VSYNC` (R294, R310): the nearer of the two announcements, 0 none. -/
def vsleep (s : State) : Nat :=
  let own := if s.sh.st = .closing then s.sh.left else 0
  let q := match quiesceLeft s with
    | some n => if 1 ≤ n && n ≤ 8 then n else 0
    | none => 0
  if own = 0 then q else if q = 0 then own else min own q

end Sys2Proof.Machine
end

