-- ==== Sys2Proof/Machine/InBand.lean ====
section
/-! DEFINITION. In-band access (16): how a PDU arrives, is rejected, queued for the verifier or answered, and how a
session closes. What a verified PDU does stands in Session.lean. -/

namespace Sys2Proof.Machine

/-- The session of a path. -/
def State.session (s : State) (path : Path) : Option Session :=
  match path with
  | .e0 => s.rg.sessE0
  | _ => s.rg.sessBb

/-- A path's session is set. -/
def sessionPut (path : Path) (x : Option Session) (s : State) : State :=
  match path with
  | .e0 => { s with rg := { s.rg with sessE0 := x } }
  | _ => { s with rg := { s.rg with sessBb := x } }

/-- The 12-byte PDU header (Table 16.4). -/
def pduHeader (ty nops : Byte) (session : Half) (seq : Word) (reason : Byte) : Bytes :=
  [ty, nops] ++ beBytes 2 session.toNat ++ beBytes 4 seq.toNat ++ [0, reason, 0, 0]

/-- A frame of the node on E0: one buffer of transmit queue 7, untagged (R466). -/
def e0Send (dest : BitVec 48) (pdu : Bytes) (s : State) : State :=
  let p := s.eqp 0
  if p.link = 0 || p.off || 128 ≤ (p.queues.getD 7 []).length then s
  else
    let f := padTo 60 (beBytes 6 dest.toNat ++ portAddr s 4 ++ [0x88, 0xB5, 0x03, 0x01] ++ pdu)
    let r := poolStore (queueOwner 0 7) f s
    match r.2.head? with
    | none => r.1
    | some b => eqStart 0 (eqMod 0 (fun p => { p with queues := p.queues.modify 7 (· ++ [b]) }) r.1)

/-- An answer of the node: an own message frame to the node number, or a frame to the E0 address (R466). -/
def pduSend (path : Path) (peer : BitVec 48) (pdu : Bytes) (s : State) : State :=
  match path with
  | .e0 => e0Send peer pdu s
  | _ => ownAdd { shutter := false, buf := none, body := pdu, cls := 0x01, dst := peer.setWidth 8, mseq := none
                  ports := [] } s

/-- A PDU is rejected (R467): it changes nothing. -/
def pduReject (path : Path) (source : BitVec 48) (pdu : Bytes) (reason : Nat) (s : State) : State :=
  let s := raise 0x9005 (pathCode path) [w32 (pathCode path), w32 reason] s
  pduSend path source (pduHeader 0x07 0 (BitVec.ofNat 16 (field pdu 2 2)) (w32 (field pdu 4 4)) (BitVec.ofNat 8 reason)) s

/-- The node closes a session with a reason (R467). -/
def sessionClose (path : Path) (reason : Nat) (s : State) : State :=
  match s.session path with
  | none => s
  | some x =>
    let s := if x.opening then s
      else pduSend path x.peer (pduHeader 0x06 0 (x.nonce.setWidth 16) x.seq (BitVec.ofNat 8 reason)) s
    if x.opening then sessionPut path none s else sessionDrop path reason s

/-- Length of a PDU of a type with `n` operations: the signature is part of `OPEN`, `REQUEST` and `CLOSE`. -/
def pduLen (ty n : Nat) : Nat := 12 + 8 * n + (if ty = 3 || ty = 4 || ty = 6 then 64 else 0)

/-- The format of a client's PDU (Table 16.5, code 0x07); an E0 frame may be padded to the Ethernet minimum. -/
def pduFormat (path : Path) (pdu : Bytes) : Bool :=
  let ty := field pdu 0 1
  let n := field pdu 1 1
  let l := pduLen ty n
  (ty = 1 || ty = 3 || ty = 4 || ty = 6) && (if ty = 4 then n ≤ 16 else n = 0)
    && (pdu.length = l || (path = .e0 && l < 44 && pdu.length = 44))
    && field pdu 10 2 = 0 && (ty ≠ 1 || field pdu 2 2 = 0)

/-- The session a PDU names is the path's (Table 16.5, code 0x04). -/
def pduKnown (s : State) (path : Path) (pdu : Bytes) : Bool :=
  match s.session path with
  | none => false
  | some x => x.sent && (x.nonce.setWidth 16 : Half).toNat = field pdu 2 2
      && (x.opening = decide (field pdu 0 1 = 3))

/-- An `OPEN_REQ` opens a session: the next nonce, stored before its `CHALLENGE` goes out (R464). -/
def openSession (path : Path) (source : BitVec 48) (s : State) : State :=
  let n := s.rg.nonce + 1
  let s := { s with
    rg := { s.rg with nonce := n }
    nv := { s.nv with cfgQ := s.nv.cfgQ ++ [{ nonce := some n }] } }
  sessionPut path (some { nonce := n, opening := true, sent := false, keyslot := 0, seq := 0, response := [], peer := source }) s

/-- A PDU arrives (R463-R466). -/
def pduArrive (path : Path) (source : BitVec 48) (pdu : Bytes) (s : State) : State :=
  if !s.awake then s
  else if s.image.isNone then pduReject path source pdu 0x01 s
  else if !pduFormat path pdu then pduReject path source pdu 0x07 s
  else if field pdu 0 1 = 1 then
    if (s.session path).isSome then pduReject path source pdu 0x06 s else openSession path source s
  else if !pduKnown s path pdu then pduReject path source pdu 0x04 s
  else if 4 ≤ s.rg.pdus.length then pduReject path source pdu 0x05 s
  else
    let whole := pdu.take (pduLen (field pdu 0 1) (field pdu 1 1))
    { s with rg := { s.rg with pdus := s.rg.pdus ++ [⟨path, source, whole⟩] } }

/-- The `CHALLENGE` of a session whose nonce now stands in CFG (R464). -/
def challenge (path : Path) (s : State) : State :=
  match s.session path with
  | none => s
  | some x =>
    if x.opening && !x.sent && s.nv.cfg.nonce.elim false (fun n => x.nonce ≤ n) then
      let pdu := pduHeader 0x02 0 (x.nonce.setWidth 16) 0 0 ++ beBytes 8 x.nonce.toNat ++ beBytes 8 s.dev.nodeId.toNat
      pduSend path x.peer pdu (sessionPut path (some { x with sent := true }) s)
    else s

/-- The path a PDU row names: the backbone or E0. -/
def inbandPath (path : Path) : Bool := path ≠ .host

/-- A PDU row whose type byte is the row's (R463). -/
def pduRow (ty : Nat) (path : Path) (source : BitVec 48) (pdu : Bytes) (s : State) : State :=
  if inbandPath path && field pdu 0 1 = ty then pduArrive path source pdu s else s

/-- OPEN_REQ. -/
def execOpenReq (t : Nat) (path : Path) (source : BitVec 48) (pdu : Bytes) : State → Host.Outcome State Fault Refusal :=
  act t (pduRow 1 path source pdu)

/-- OPEN. -/
def execOpenPdu (t : Nat) (path : Path) (source : BitVec 48) (pdu : Bytes) : State → Host.Outcome State Fault Refusal :=
  act t (pduRow 3 path source pdu)

/-- REQUEST. -/
def execRequestPdu (t : Nat) (path : Path) (source : BitVec 48) (pdu : Bytes) : State → Host.Outcome State Fault Refusal :=
  act t (pduRow 4 path source pdu)

/-- CLOSE. -/
def execClosePdu (t : Nat) (path : Path) (source : BitVec 48) (pdu : Bytes) : State → Host.Outcome State Fault Refusal :=
  act t (pduRow 6 path source pdu)

/-- INBAND_OPEN_TIMEOUT (R464): no `OPEN` within 10 s. -/
def inbandOpenTimeout (path : Path) (s : State) : State :=
  match s.session path with
  | none => s
  | some x => if x.opening && x.sent then sessionPut path none s else s

def execInbandOpenTimeout (t : Nat) (path : Path) : State → Host.Outcome State Fault Refusal := act t (inbandOpenTimeout path)

/-- INBAND_IDLE_TIMEOUT (R467): no accepted `REQUEST` for 60 s. -/
def inbandIdleTimeout (path : Path) (s : State) : State :=
  match s.session path with
  | none => s
  | some x => if x.opening then s else sessionClose path 0x08 s

def execInbandIdleTimeout (t : Nat) (path : Path) : State → Host.Outcome State Fault Refusal := act t (inbandIdleTimeout path)

end Sys2Proof.Machine
end

