-- ==== Sys2Proof/Machine/Cores.lean ====
section
/-! DEFINITION. The two cores: memories, checkpoint copies, yield, takeover, the watch of the reserve core, repair and
revert (04, 15). -/

namespace Sys2Proof.Machine

/-! ### Core data memory -/

/-- What an unlisted byte of data memory reads as: 0, or a free byte where the bank's content was lost (log 5). -/
def dataDefault (c : Core) (a : Nat) : Byte :=
  let m := c.lost.getD (a / 65536) 0
  if m = 0 then 0 else Config.freeByte m a

/-- One byte of data memory. -/
def dataByte (c : Core) (a : Nat) : Byte := smGet (dataDefault c a) c.data a

/-- `n` bytes of data memory. -/
def dataBytesAt (c : Core) (a n : Nat) : Bytes := (List.range n).map (fun i => dataByte c (a + i))

/-- One byte written. -/
def dataPut (a : Nat) (v : Byte) (c : Core) : Core := { c with data := smPut (dataDefault c a) c.data a v }

/-- Bytes written from an address upward; a word written whole holds no error any more. -/
def dataPutBytes : Nat → Bytes → Core → Core
  | _, [], c => c
  | a, x :: r, c => dataPutBytes (a + 1) r (dataPut a x c)

/-- Initial data as sparse bytes. -/
def initialCells (b : Bytes) : List Host.Cell :=
  (b.zipIdx.filter (fun e => e.1 ≠ 0)).map (fun e => (e.2, e.1))

/-- Code and initial data of the image are loaded (R407, R432, R433). -/
def coreLoad (im : Image) (c : Core) : Core :=
  { c with code := im.code, data := initialCells im.data, lost := [0, 0, 0, 0], dataErr := [] }

/-- A running task ends without an event; no part of its context survives (R373). -/
def coreStop (c : Core) : Core := { c with task := none, rets := [], loops := [] }

/-- The core in control. -/
def activeCore (s : State) : Option Core :=
  if s.cr.active = 0 then some s.cr.pxc else if s.cr.active = 1 then some s.cr.rxc else none

/-- A change of the core in control. -/
def activeMod (f : Core → Core) (s : State) : State :=
  if s.cr.active = 0 then { s with cr := { s.cr with pxc := f s.cr.pxc } }
  else if s.cr.active = 1 then { s with cr := { s.cr with rxc := f s.cr.rxc } }
  else s

/-- Owner code of the core in control: 0x30 PXC, 0x31 RXC (Table 9.4). -/
def coreOwner (s : State) : Byte := if s.cr.active = 1 then 0x31 else 0x30

/-! ### Reading the active slot -/

/-- First address of the image in a slot: sector 1 (R415, R417). -/
def imgBase (slot : Nat) : Nat := slotBase slot + 4096

/-- Place and length of a section of the image in a slot, by its directory (R397). -/
def imgSection (nv : Nv) (slot ty : Nat) : Option (Nat × Nat) :=
  let b := imgBase slot
  (List.range (beNat (nvBytes nv (b + 14) 2))).findSome? (fun i =>
    let e := nvBytes nv (b + 64 + 16 * i) 16
    if field e 0 2 = ty then some (b + field e 4 4, field e 8 4) else none)

/-- Sector of the first uncorrectable unit in the `CODE` and `DATA` sections of the active slot (R432, R438). -/
def coreLoadBad (s : State) : Option Nat :=
  match s.gr.img with
  | none => none
  | some (slot, _, _) =>
    [6, 7].findSome? (fun ty =>
      match imgSection s.nv slot ty with
      | none => none
      | some (a, n) =>
        (s.nv.errs.find? (fun e => e.2 && decide (a < 16 * e.1 + 16) && decide (16 * e.1 < a + n))).map (fun e => e.1 / 256))

/-- What that read reports (R411). -/
def coreLoadReport (s : State) : State :=
  match s.gr.img with
  | none => s
  | some (slot, _, _) =>
    [6, 7].foldl (fun s ty =>
      match imgSection s.nv slot ty with
      | none => s
      | some (a, n) => nvReport a n s) s

/-! ### Checkpoint variables (R102-R105) -/

/-- The checkpoint variables of a core, in the order of `CHKLIST`. -/
def chkGather (im : Image) (c : Core) : Bytes := im.chklist.flatMap (fun e => dataBytesAt c e.1 e.2)

/-- The checkpoint variables put into a core. -/
def chkScatter (im : Image) (b : Bytes) (c : Core) : Core :=
  (im.chklist.foldl (fun (p : Core × Bytes) e => (dataPutBytes e.1 (p.2.take e.2) p.1, p.2.drop e.2)) (c, b)).1

/-- A data word lies in a checkpoint variable. -/
def chkCovers (im : Image) (w : Nat) : Bool := im.chklist.any (fun e => decide (e.1 ≤ 4 * w) && decide (4 * w < e.1 + e.2))

/-! ### Yield and takeover -/

/-- The image selects `WATCH` (R430). -/
def watchMode (s : State) : Bool := s.image.elim false (fun im => im.node.watch)

/-- No flush runs, so transitions and core steps go on (R36, R72, R437). -/
def calm (s : State) : Bool := s.pwr.flush = none

/-- The core redundancy queues its next repair step (R440). -/
def repairAsk (s : State) : State :=
  if s.running && s.cr.pxcYielded && s.cr.repairing then
    let r := benchAsk false true 5 s.cr.repairStep s
    if r.2.msb then { r.1 with cr := { r.1.cr with repairStep := 0 } } else r.1
  else s

/-- The reserve core leaves service (R435, R438, R442): `PD004` follows the mode. -/
def rxcRetire (s : State) : State :=
  let s := { s with cr := { s.cr with rxc := coreStop s.cr.rxc } }
  if watchMode s then s
  else
    let s := setDomain 4 .off s
    { s with cr := { s.cr with loaded := false, loading := false } }

/-- `NOCORE` is entered with event 0x8102 (R435, R438). -/
def toNocore (step : Nat) (detail : Word) (s : State) : State :=
  let s := raise 0x8102 noInst [w32 step, detail] s
  if s.pwr.node = .run && calm s then transition .nocore 11 s else s

/-- A standing order has been executed: event 0x8010 with its index and condition, and `CR_ORDERS` (R24, R115). -/
def orderDone (index cond : Nat) (s : State) : State :=
  raise 0x8010 noInst [w32 index, w32 cond] { s with cr := { s.cr with orders := s.cr.orders + 1 } }

/-- The takeover starts (R19, R427, R433). -/
def takeoverStart (s : State) : State :=
  let s := orderDone 0xFE 0x8100 s
  let s := { s with cr := { s.cr with
    loading := false, takeover := some ⟨if watchMode s then 2 else 1, 0, 0, 0⟩ } }
  if watchMode s then s else setDomain 4 .on s

/-- The PXC takes its checkpoint variables from a copy, and the revert waits for the macrocycle boundary (R442). -/
def revertOverlay (im : Image) (b : Bytes) (at_ : Nat) (s : State) : State :=
  { s with cr := { s.cr with pxc := chkScatter im b s.cr.pxc, revert := .boundary, revertAt := at_ } }

/-- Step 2 of a revert with the latest complete copy, if there is one (R442, R444). -/
def revertLatest (s : State) : State :=
  match s.image with
  | none => s
  | some im => revertOverlay im ((chkLatest s).elim [] (fun e => e.2.data)) s.now s

/-- The core in control yields (R427): `index` and `entry` name the instruction and the task. -/
def yieldAt (cause index entry : Nat) (s : State) : State :=
  if s.cr.active = 2 then s
  else
    let core := s.cr.active
    let s := activeMod coreStop s
    let s := raise 0x8100 noInst [w32 core, w32 cause, w32 index, w32 entry] s
    let word := w32 (index % 65536 * 65536 + entry % 256 * 256 + core * 128 + cause % 128)
    let s := { s with cr := { s.cr with active := 2, yieldReg := word } }
    if core = 1 then
      let s := { s with cr := { s.cr with rxcFailed := true } }
      let s := if s.cr.revert = .waitCopy then revertLatest s else s
      rxcRetire (toNocore 0 0 s)
    else
      let s := { s with cr := { s.cr with
        pxcYielded := true, pxcEver := true, repairing := true, repairs := 0, repairStep := 0 } }
      if s.pwr.node ≠ .run || !calm s then s
      else repairAsk (if s.cr.rxcFailed then toNocore 0 0 s else takeoverStart s)

/-- The core in control yields; with no task running the index and the entry point are free (log 5). -/
def yieldNow (cause : Nat) (s : State) : State :=
  match activeCore s with
  | none => s
  | some c =>
    match c.task with
    | some t => yieldAt cause c.pc t.entry s
    | none => yieldAt cause (s.freeWord.toNat % 65536) (s.freeWord.toNat / 65536 % 256) (drawn s)

/-- BUDGET_WATCHDOG (R93): the core cycles since the task's start reach the budget. -/
def budgetWatchdog (s : State) : State :=
  match activeCore s with
  | none => s
  | some c =>
    match c.task with
    | none => s
    | some t =>
      yieldNow 0x13 { s with cyc := { s.cyc with phase := max s.cyc.phase (t.start + 4 * t.budget - s.cyc.base) } }

def execBudgetWatchdog : State → Host.Outcome State Fault Refusal := act 0 budgetWatchdog

/-- CORE_CHECK_FAIL (R426, Table 15.1, R429). -/
def coreCheckFail (cause : Nat) (s : State) : State :=
  if (cause = 0x10 || cause = 0x11 || cause = 0x12 || cause = 0x14)
      && (s.running || s.pwr.node = .bringup || s.pwr.node = .limp) then yieldNow cause s
  else s

def execCoreCheckFail (t : Nat) (cause : BitVec 7) : State → Host.Outcome State Fault Refusal :=
  act t (coreCheckFail cause.toNat)

/-- The takeover goes on with another step. -/
def takeoverAt (step : Nat) (s : State) : State :=
  { s with cr := { s.cr with takeover := s.cr.takeover.map (fun k => { k with step := step }) } }

/-- The takeover fails (R438). -/
def takeoverFail (step : Nat) (detail : Word) (s : State) : State :=
  let s := { s with cr := { s.cr with takeover := none, rxcFailed := true } }
  rxcRetire (toNocore step detail s)

/-- Step 3 of a takeover (R433, R438). -/
def takeoverLoad (pass : Bool) (detail : Word) (s : State) : State :=
  match s.image with
  | none => s
  | some im =>
    let bad := coreLoadBad s
    let s := coreLoadReport s
    match bad, pass with
    | some sec, _ => takeoverFail 3 (w32 sec) s
    | none, false => takeoverFail 3 detail s
    | none, true => takeoverAt 4 { s with cr := { s.cr with rxc := coreLoad im s.cr.rxc, loaded := true } }

/-- Step 4 of a takeover (R433, R436): the RXC becomes ready. Without a copy the `SEQ` reported is free (log 5). -/
def takeoverOverlay (s : State) : State :=
  match s.image with
  | none => s
  | some im =>
    let ready := fun (seq : Word) (s : State) => { s with cr := { s.cr with
      takeover := s.cr.takeover.map (fun k => { k with step := 5, readyAt := s.now, seq := seq }) } }
    match chkLatest s with
    | some (_, c) => ready c.seq { s with cr := { s.cr with rxc := chkScatter im c.data s.cr.rxc } }
    | none => ready s.freeWord (drawn (raise 0x8103 noInst [] s))

/-- TAKEOVER_STEP_DONE (R433, R436, R438). -/
def takeoverStepDone (pass : Bool) (detail : Word) (s : State) : State :=
  match s.cr.takeover with
  | none => s
  | some k =>
    if !calm s then s
    else if k.step = 1 then takeoverAt 2 s
    else if k.step = 2 then
      if pass then takeoverAt (if watchMode s && s.cr.loaded then 4 else 3) s else takeoverFail 2 detail s
    else if k.step = 3 then takeoverLoad pass detail s
    else if k.step = 4 then takeoverOverlay s
    else s

def execTakeoverStepDone (t : Nat) (pass : Bool) (detail : Word) : State → Host.Outcome State Fault Refusal :=
  act t (takeoverStepDone pass detail)

/-- Pool buffers of a core pass to the other (R285, R434). -/
def ownersPass (a b : Byte) (s : State) : State :=
  { s with pool := { s.pool with bufs := (s.pool.bufs.map (fun e =>
      (e.1, if e.2.owner = a then { e.2 with owner := b } else e.2))).filter (fun e => e.2 ≠ {}) } }

/-- Control has changed: the banks `PD114`-`PD117` that are off hold nothing of the new core (R425). -/
def controlBanks (s : State) : State :=
  (List.range 4).foldl (fun s b =>
    if (s.dom (114 + b)).act = .off then drawn (dataCoreMod (bankLost b s.free) s) else s) s

/-- At a cycle start: a takeover counts it, and the RXC takes control once it has been ready for 1 µs (R434). -/
def takeoverControl (s : State) : State :=
  match s.cr.takeover with
  | none => s
  | some k =>
    let n := k.starts + 1
    if k.step = 5 && k.readyAt + 1000 ≤ s.now && calm s then
      let s := { s with cr := { s.cr with active := 1, takeover := none, takeovers := satInc s.cr.takeovers } }
      raise 0x8101 noInst [w32 n, k.seq] (controlBanks (ownersPass 0x30 0x31 s))
    else { s with cr := { s.cr with takeover := some { k with starts := n } } }

/-! ### The watch of the reserve core (R430-R432) -/

/-- The RXC is powered and loads (R432). -/
def watchLoad (s : State) : State :=
  let s := setDomain 4 .on s
  { s with cr := { s.cr with loading := true, loaded := false } }

/-- RXC_LOAD_DONE (R432). -/
def rxcLoadDone (s : State) : State :=
  match s.image with
  | none => s
  | some im =>
    if !(s.cr.loading && s.running) then s
    else
      let bad := coreLoadBad s
      let s := coreLoadReport { s with cr := { s.cr with loading := false } }
      if bad.isSome then raise 0x8104 noInst [1] s
      else { s with cr := { s.cr with rxc := coreLoad im s.cr.rxc, loaded := true } }

def execRxcLoadDone (t : Nat) : State → Host.Outcome State Fault Refusal := act t rxcLoadDone

/-- The shadow self-test runs (R431, R438). -/
def shadowRuns (s : State) : Bool :=
  s.running && watchMode s && (s.dom 4).act = .on && s.cr.active ≠ 1 && s.cr.takeover = none && !s.cr.loading

/-- SHADOW_TEST_DONE (R431). -/
def shadowTestDone (pass : Bool) (s : State) : State :=
  if !shadowRuns s then s
  else
    let s := { s with cr := { s.cr with runs := s.cr.runs + 1, rxcOk := pass } }
    if pass then s else raise 0x8104 noInst [0] { s with cr := { s.cr with shFails := satInc s.cr.shFails } }

def execShadowTestDone (t : Nat) (pass : Bool) : State → Host.Outcome State Fault Refusal := act t (shadowTestDone pass)

/-- HEALTH_REPORT (R431). -/
def healthReport (s : State) : State :=
  if s.running && watchMode s then
    raise 0x8105 noInst [if s.cr.rxcOk then 1 else 0, s.cr.shFails.setWidth 32] s
  else s

def execHealthReport (t : Nat) : State → Host.Outcome State Fault Refusal := act t healthReport

/-! ### Repair and revert (R440-R444) -/

/-- A pending revert is cancelled with event 0x810B: 1 repair failed, 2 quiesce (R443, log 21). -/
def revertCancel (reason : Nat) (s : State) : State :=
  if s.cr.revert = .none then s
  else raise 0x810B noInst [Config.eventItem 0x810B reason] { s with cr := { s.cr with revert := .none } }

/-- A repair step has failed (R440, R441, R443). -/
def repairFailed (s : State) : State :=
  revertCancel 1 { s with cr := { s.cr with repairs := 0, repairStep := 0 } }

/-- A pass of all 32 steps (R441). -/
def repairPassed (s : State) : State :=
  let n := min 3 (s.cr.repairs + 1)
  let third := n = 3 && s.cr.repairs < 3
  let revert := s.image.elim false (fun im => im.node.revert)
  let s := { s with cr := { s.cr with repairs := n, repairStep := 0 } }
  if third then
    let s := raise 0x8108 noInst [if revert then 1 else 0] s
    if revert then { s with cr := { s.cr with revert := .holdoff } } else { s with cr := { s.cr with repairing := false } }
  else if n < 3 then repairAsk s
  else s

/-- A request of the core redundancy has ended (R440). -/
def repairEnd (pass : Bool) (s : State) : State :=
  if !(s.cr.pxcYielded && s.cr.repairing) then s
  else if !pass then repairFailed s
  else if s.cr.repairStep < 31 then repairAsk { s with cr := { s.cr with repairStep := s.cr.repairStep + 1 } }
  else repairPassed s

/-- BENCH_REQUEST_END (R362, R366, R440). -/
def benchRequestEnd (pass : Bool) (detail : Word) (s : State) : State :=
  let mine := s.bn.running.elim false (fun r => r.repair)
  let s := benchEnd pass detail s
  if mine then repairEnd pass s else s

def execBenchRequestEnd (t : Nat) (pass : Bool) (detail : Word) : State → Host.Outcome State Fault Refusal :=
  act t (benchRequestEnd pass detail)

/-- REPAIR_RETRY (R440, R441): a new pass starts at step 0, unless one is under way. -/
def repairRetry (s : State) : State :=
  if s.bn.queue.any (fun r => r.repair) || s.bn.running.elim false (fun r => r.repair) then s
  else repairAsk { s with cr := { s.cr with repairStep := 0 } }

def execRepairRetry (t : Nat) : State → Host.Outcome State Fault Refusal := act t repairRetry

/-- REVERT_HOLDOFF_END (R442). -/
def revertHoldoffEnd (s : State) : State :=
  if s.cr.revert = .holdoff && s.running && calm s then { s with cr := { s.cr with revert := .load } } else s

def execRevertHoldoffEnd (t : Nat) : State → Host.Outcome State Fault Refusal := act t revertHoldoffEnd

/-- REVERT_LOAD_DONE (R442): load, then the overlay of step 2 as far as it does not wait for a `CHKP_COPY`. -/
def revertLoadDone (s : State) : State :=
  match s.image with
  | none => s
  | some im =>
    if !(s.cr.revert = .load && s.running && calm s) then s
    else
      let bad := coreLoadBad s
      let s := coreLoadReport s
      if bad.isSome then repairFailed s
      else
        let s := { s with cr := { s.cr with pxc := coreLoad im s.cr.pxc } }
        if chkTotal im = 0 then { s with cr := { s.cr with revert := .boundary, revertAt := s.now } }
        else if s.pwr.node = .nocore then revertLatest s
        else { s with cr := { s.cr with revert := .waitCopy } }

def execRevertLoadDone (t : Nat) : State → Host.Outcome State Fault Refusal := act t revertLoadDone

/-- At a macrocycle boundary: the PXC takes control back (R442 step 3). -/
def revertControl (s : State) : State :=
  if s.cr.revert = .boundary && macroPos s = 1 && s.cr.revertAt + 1000 ≤ s.now && s.cr.takeover = none && calm s
      && s.running then
    let s := { s with cr := { s.cr with
      rxc := coreStop s.cr.rxc, active := 0, pxcYielded := false, repairing := false, revert := .none } }
    let s := controlBanks (ownersPass 0x31 0x30 s)
    let s := raise 0x810A noInst [] (orderDone 0xFF 0x8108 s)
    let s := if s.pwr.node = .nocore then transition .run 12 s else s
    if watchMode s then watchLoad s else rxcRetire s
  else s

/-! ### Grid actions on the active core -/

/-- A core's context at a task start (R92, R373). -/
def taskStart (im : Image) (entry now : Nat) (c : Core) : Core :=
  match im.tasks[entry]? with
  | none => c
  | some e =>
    { c with
      regs := List.replicate 32 0, n := false, z := false, c := false, v := false, sig := 0, rets := [], loops := []
      pc := e.entry.toNat, task := some ⟨entry, now, 0, e.budget, e.banks, e.xsig⟩ }

/-- TASK (R92, R95, R96). -/
def taskFire (e : GridEntry) (s : State) : State :=
  match activeCore s, s.image with
  | some c, some im =>
    let s := match c.task with
      | some t =>
        let s := raise 0x8001 noInst [w32 t.entry, w32 e.target.toNat] s
        { s with cr := { s.cr with overruns := satInc s.cr.overruns } }
      | none => s
    activeMod (taskStart im e.target.toNat s.now) s
  | none, _ => { s with cr := { s.cr with taskSkip := s.cr.taskSkip + 1 } }
  | _, none => s

def taskRun (entry : Nat) : State → State := gridFire 0x1C entry taskFire

def execTask (entry : Nat) : State → Host.Outcome State Fault Refusal := act 0 (taskRun entry)

/-- The data bank of a checkpoint variable that is not `ON`. -/
def chkBankOff (im : Image) (s : State) : Option Nat :=
  (List.range 4).findSome? (fun b =>
    if im.chklist.any (fun e => decide (e.1 < 65536 * (b + 1)) && decide (65536 * b < e.1 + e.2)) && !usable s (114 + b)
    then some (114 + b) else none)

/-- Single-bit errors in the variables are corrected in place (R426). -/
def chkCorrect (im : Image) (c : Core) (s : State) : State :=
  let s := c.dataErr.foldl (fun s e => if chkCovers im e.1 then raise 0x8107 noInst [] s else s) s
  activeMod (fun c => { c with dataErr := c.dataErr.filter (fun e => !chkCovers im e.1) }) s

/-- A completed copy lands over the copy that is not the latest complete one (R102, R103), and a revert that waits for
it goes on (R442). -/
def chkLand (im : Image) (slot : Nat) (s : State) : State :=
  match activeCore s with
  | none => s
  | some c =>
    let d := chkGather im c
    let copy : ChkCopy := ⟨s.cr.chkSeq, s.cyc.cyc, imgId im, d⟩
    let s := { s with cr := { s.cr with chk := s.cr.chk.set slot (some copy), chkSeq := s.cr.chkSeq + 1 } }
    if s.cr.revert = .waitCopy then revertOverlay im d (s.now + 8 * (d.length / 16 + 8)) s else s

/-- CHKP_COPY (R102, R103, R105, R428). -/
def chkpCopyFire (_ : GridEntry) (s : State) : State :=
  match activeCore s, s.image with
  | some c, some im =>
    if chkTotal im = 0 then s
    else match chkBankOff im s with
      | some d => skipped d 0x18 s
      | none =>
        let slot := (chkLatest s).elim 0 (fun e => 1 - e.1)
        if c.dataErr.any (fun e => e.2 && chkCovers im e.1) then
          yieldNow 0x12 (raise 0x8020 noInst [] { s with cr := { s.cr with chk := s.cr.chk.set slot none } })
        else chkLand im slot (chkCorrect im c s)
  | _, _ => s

def chkpCopyRun (entry : Nat) : State → State := gridFire 0x18 entry chkpCopyFire

def execChkpCopy (entry : Nat) : State → Host.Outcome State Fault Refusal := act 0 (chkpCopyRun entry)

end Sys2Proof.Machine
end

