-- ==== Sys2Proof/Machine/Vehicle.lean ====
section
/-! DEFINITION. The vehicle network (08): the star, the slot guardian, the branch states, the static and the dynamic
segment. -/

namespace Sys2Proof.Machine

/-! ### Counters and branch states -/

/-- A frame is cut or blocked (R240, R241): kind 1 `CUT_START`, 2 `CUT_HDR`, 3 `CUT_LEN` (log 21). -/
def guardCount (kind b : Nat) (s : State) : State :=
  let s := brMod b (fun x =>
    if kind = 1 then { x with cutStart := x.cutStart + 1 }
    else if kind = 2 then { x with cutHdr := x.cutHdr + 1 }
    else { x with cutLen := x.cutLen + 1 }) s
  raise 0x3001 b [w32 b, Config.eventItem 0x3001 kind] s

/-- The star serves the vehicle network: it is `ON` (R250, R67). -/
def starOn (s : State) : Bool := s.running && (s.dom 12).act = .on

/-- A branch's link is up and its PHY `ON`. -/
def branchUp (s : State) (b : Nat) : Bool := (s.branch b).link && (s.dom (13 + b)).act = .on

/-- The branches a frame leaves on: every one whose link is up, but for the one it came from (R221). -/
def outBranches (s : State) (but : Option Nat) : BitVec 12 :=
  BitVec.ofNat 12 ((List.range 12).foldl (fun a b => if branchUp s b && but ≠ some b then a + 2 ^ b else a) 0)

/-- Static slots a branch owns. -/
def ownedSlots (st : Star) (b : Nat) : List Nat := (List.range st.nS).filter (fun k => slotOwner st k = b)

/-- The body bytes of a slot's transmit buffer (R231). -/
def slotByte (x : SlotTx) (i : Nat) : Byte :=
  smGet (if x.lost = 0 then 0 else Config.freeByte x.lost i) x.body i

/-- Bytes put into a slot's transmit buffer. -/
def slotPut : Nat → Bytes → SlotTx → SlotTx
  | _, [], x => x
  | i, v :: r, x =>
    slotPut (i + 1) r { x with body := smPut (if x.lost = 0 then 0 else Config.freeByte x.lost i) x.body i v }

/-- A change of one slot's transmit side. -/
def slotMod (k : Nat) (f : SlotTx → SlotTx) (s : State) : State := { s with vn := { s.vn with txBuf := s.vn.txBuf.modify k f } }

/-- A change of what a slot received. -/
def gotMod (k : Nat) (f : SlotRx → SlotRx) (s : State) : State := { s with vn := { s.vn with rx := s.vn.rx.modify k f } }

/-! ### The vehicle cycle -/

/-- What the flags of a vehicle cycle add up to at its end (R242, R251). -/
def vnCycleEnd (s : State) : State :=
  let mask := BitVec.ofNat 12 ((List.range 12).foldl (fun a b => if (s.branch b).awake then a + 2 ^ b else a) 0)
  let s := { s with vn := { s.vn with awake := mask, running := false, dc := 0, span := 0, closed := false } }
  (List.range 12).foldl (fun s b =>
    let e := (s.branch b).errsum
    let s := brMod b (fun x => { x with
      errsums := if e then x.errsums + 1 else x.errsums, errsum := false, awake := false, rx := none }) s
    if e then raise 0x3006 b [] s else s) s

/-- The train cycle ends early, and the vehicle cycle with it (R226). -/
def vnEarlyEnd (s : State) : State :=
  if s.vn.running then raise 0x3008 noInst [] (vnCycleEnd s) else s

/-- The body of `VSYNC` for a branch (Table 8.4). -/
def vsyncBody (s : State) (b : Nat) : Bytes :=
  let cd := vsleep s
  let bits (f : Branch → Bool) := (List.range 12).foldl (fun a k => if f (s.branch k) then a + 2 ^ k else a) 0
  let tcode := s.image.elim 0 (fun im => im.profile.tcode.toNat)
  let flags := bit1 s.cyc.mode.valid + 2 * bit1 (cd ≠ 0) + 4 * tcode + 16 * bit1 (s.cr.active = 2)
  beBytes 8 (ttNow s + 256).toNat ++ beBytes 1 flags ++ beBytes 1 cd ++ beBytes 1 b ++ beBytes 1 (ownNumber s)
    ++ beBytes 2 (bits (fun x => x.st = .integrated)) ++ beBytes 2 (bits (fun x => x.st = .disabled))

/-- `VSYNC` leaves on every branch whose link is up (R228). -/
def vsyncSend (st : Star) (s : State) : State :=
  (List.range 12).foldl (fun s b =>
    if branchUp s b then
      let hdr := vnHeader 0x01 0 0 0xFFFF s.cyc.cyc st.layout 16
      emit (.vehicle (BitVec.ofNat 12 (2 ^ b)) (s.now + 256) (vnFrame s hdr (vsyncBody s b)) true) s
    else s) s

/-- VN_START (R224, R228): the vehicle cycle starts 256 ns after the tick. -/
def vnStartFire (_ : GridEntry) : State → State :=
  onDomain 12 0x0C (fun s =>
    match s.star with
    | none => s
    | some st =>
      let s := if s.vn.running then vnCycleEnd s else s
      let s := { s with vn := { s.vn with
        running := true, v0 := s.now + 256, cyc := s.cyc.cyc, rx := List.replicate 64 {}, dc := 0, boundary := 0, span := 0
        closed := false, sleepCd := vsleep s } }
      vsyncSend st s)

def vnStartRun (entry : Nat) : State → State := gridFire 0x0C entry vnStartFire

def execVnStart (entry : Nat) : State → Host.Outcome State Fault Refusal := act 0 (vnStartRun entry)

/-- VN_COMMIT (R231): the slot's buffer freezes when a `VSND` completed since the last commit. -/
def vnCommitFire (e : GridEntry) : State → State :=
  onDomain 12 0x0D (fun s =>
    slotMod e.target.toNat (fun x => { x with
      frozen := x.done.map (fun d => ((List.range d.1).map (slotByte x), d.2)), done := none }) s)

def vnCommitRun (entry : Nat) : State → State := gridFire 0x0D entry vnCommitFire

def execVnCommit (entry : Nat) : State → Host.Outcome State Fault Refusal := act 0 (vnCommitRun entry)

/-! ### VN_READ: publication, counters, integration (R232, R233, R242-R245) -/

/-- Code of a static slot (Table 8.5) by the order of R233. -/
def slotCode (s : State) (st : Star) (k : Nat) : Nat :=
  let o := slotOwner st k
  if o = 0xFF then 5
  else if o = 0x0C then 6
  else
    match (s.vn.rx.getD k {}).got with
    | .valid => 0
    | .null => 1
    | g =>
      if (s.branch o).st ≠ .integrated then 7
      else match g with
        | .cut => 4
        | .error => 3
        | _ => 2

/-- The published entry of a slot. -/
def slotPub (s : State) (st : Star) (k : Nat) : PubSlot :=
  let c := slotCode s st k
  let x := s.vn.rx.getD k {}
  if c = 0 || c = 6 then ⟨BitVec.ofNat 3 c, x.flags, x.body⟩
  else if c = 1 then ⟨1, x.flags, []⟩
  else ⟨BitVec.ofNat 3 c, 0, []⟩

/-- The counters a slot's code moves (R242). -/
def slotCount (st : Star) (k code : Nat) (s : State) : State :=
  let b := slotOwner st k
  if code = 1 then brMod b (fun x => { x with nulls := x.nulls + 1 }) s
  else if code = 2 then raise 0x3002 b [w32 b, w32 k] (brMod b (fun x => { x with miss := x.miss + 1 }) s)
  else if code = 3 then brMod b (fun x => { x with rxErr := x.rxErr + 1 }) s
  else s

/-- A branch's state after a vehicle cycle in which every owned slot was `DATA` or `NULL`, or not (R244, R245). -/
def integrate (all : Bool) (b : Nat) (s : State) : State :=
  let x := s.branch b
  let s := brMod b (fun x => { x with good := if all then min 4 (x.good + 1) else 0, bad := if all then 0 else min 4 (x.bad + 1) }) s
  if x.st = .listen && all && 3 ≤ x.good then
    raise 0x3004 b [] (brMod b (fun x => { x with st := .integrated, good := 0, bad := 0 }) s)
  else if x.st = .integrated && !all && 3 ≤ x.bad then
    raise 0x3005 b [] (brMod b (fun x => { x with st := .listen, good := 0, bad := 0 }) s)
  else s

/-- A frame still pending at its cut point is cut there (R240): its slot is `CUT`, a dynamic one closes the segment
(R238). -/
def guardianCut (b : Nat) (s : State) : State :=
  match (s.branch b).rx with
  | none => s
  | some r =>
    let s := brMod b (fun x => { x with rx := none }) s
    let s := guardCount 3 b s
    if r.dynamic then raise 0x3007 noInst [] { s with vn := { s.vn with closed := true } }
    else gotMod r.index (fun x => { x with got := .cut }) s

/-- VN_READ. -/
def vnReadFire (_ : GridEntry) : State → State :=
  onDomain 12 0x0E (fun s =>
    match s.star with
    | none => s
    | some st =>
      if !s.vn.running then s
      else
        let s := (List.range 12).foldl (fun s b =>
          if ((s.branch b).rx).elim false (fun r => !r.dynamic) then guardianCut b s else s) s
        let codes := (List.range st.nS).map (slotCode s st)
        let pub := (List.range 64).map (fun k => if k < st.nS then slotPub s st k else {})
        let s := { s with vn := { s.vn with
          pubPrev := s.vn.pub, pub := { slots := pub, cyc := s.vn.cyc, valid := true, at_ := s.now } } }
        let s := (codes.zipIdx).foldl (fun s e => slotCount st e.2 e.1 s) s
        (List.range 12).foldl (fun s b =>
          let own := ownedSlots st b
          if own.isEmpty then s else integrate (own.all (fun k => codes.getD k 2 ≤ 1)) b s) s)

def vnReadRun (entry : Nat) : State → State := gridFire 0x0E entry vnReadFire

def execVnRead (entry : Nat) : State → Host.Outcome State Fault Refusal := act 0 (vnReadRun entry)

/-! ### Frames from the branches (R238-R240) -/

/-- What the guardian's start rows decide (Table 8.6): blocked, a static slot, or the dynamic ID in turn. -/
inductive StartAs
  | blocked
  | slot (k : Nat)
  | ident (id : Nat)
deriving DecidableEq, Repr

/-- The start rows of Table 8.6 for an SFD at an offset from V0. -/
def guardStart (s : State) (st : Star) (b off : Nat) : StartAs :=
  if (s.branch b).off || !s.vn.running || off < 10000 || dynEnd st ≤ off then .blocked
  else if off < dynStart st then
    let k := (off - 10000) / (st.tS * 1000)
    let d := (off - 10000) % (st.tS * 1000)
    if slotOwner st k = b && 100 ≤ d && d ≤ 1000 then .slot k else .blocked
  else if s.vn.dc ≠ 0 && dynOwner st s.vn.dc = b && (s.branch b).st = .integrated && !s.vn.closed && s.vn.span = 0
      && s.vn.boundary + 100 ≤ off && off ≤ s.vn.boundary + 1000 then .ident s.vn.dc
  else .blocked

/-- The header row of Table 8.6. -/
def guardHeader (s : State) (st : Star) (w : StartAs) (f : Bytes) : Bool :=
  let h := slice f 14 16
  let sub := field h 0 1
  let common := field h 1 1 = 1 && field h 8 2 = st.layout.toNat && field h 14 2 = (crc16 (h.take 14)).toNat
  match w with
  | .blocked => false
  | .slot k => common && (sub = 2 || sub = 3) && field h 2 2 = k
  | .ident id =>
    let l := frameLen (field h 10 2)
    let span := field h 5 1
    common && sub = 4 && field h 2 2 = id && span = mspanOf st l
      && decide (l ≤ (dynId st id).elim 0 (fun d => d.maxLen))
      && decide (s.vn.boundary + span * st.tM * 1000 ≤ dynEnd st)

/-- The frame runs into its cut point, or is longer than its slot or ID allows (R230, R236, Table 8.6). -/
def guardLength (s : State) (st : Star) (w : StartAs) (off : Nat) (f : Bytes) : Bool :=
  let l := f.length + 4
  let stop := off + (l + 8) * 80
  match w with
  | .blocked => false
  | .slot k => lStatic st < l || slotStart st (k + 1) - 1200 < stop
  | .ident id =>
    (dynId st id).elim 0 (fun d => d.maxLen) < l || s.vn.boundary + field f 19 1 * st.tM * 1000 - 1200 < stop

/-- A valid frame's flags (R242, R251, R253). -/
def frameFlags (b : Nat) (flags : Nat) (s : State) : State :=
  let x := s.branch b
  let awake := flags % 2 = 1
  let s := if awake && s.vn.sleepCd ≠ 0 && !x.awake then raise 0x300A b [] s else s
  brMod b (fun x => { x with
    rxOk := x.rxOk + 1
    awake := x.awake || (awake && x.st = .integrated)
    errsum := x.errsum || (flags / 4 % 2 = 1) }) s

/-- A delivered frame joins a core receive queue of at most `cap`, or is freed with event 0x8043 (R387). -/
def coreQueueFull (queue b : Nat) (s : State) : State :=
  raise 0x8043 noInst [Config.eventItem 0x8043 queue, w32 b] (chainFree (chainOf s b) s)

/-- Owner code of the core the receive queues belong to: in control, or the last one that was (R434). -/
def queueCore (s : State) : Byte := if rxcData s then 0x31 else 0x30

/-- A dynamic frame goes to its consumer (R237): 0 core queue with the body alone, 1 Shutter, 2 none. -/
def dynDeliver (st : Star) (id : Nat) (f : Bytes) (s : State) : State :=
  let consumer := (dynId st id).elim 2 (fun d => d.consumer.toNat)
  let len := field f 24 2
  if consumer = 0 then
    let p := poolStore 0x3D (slice f 30 len) s
    match p.2.head? with
    | none => p.1
    | some b =>
      if 64 ≤ p.1.vn.coreQ.length then coreQueueFull 4 b p.1
      else
        let s := chainOwner (queueCore p.1) p.2 p.1
        { s with vn := { s.vn with coreQ := s.vn.coreQ ++ [(id, b)] } }
  else if consumer = 1 then
    let p := poolStore 0x3D (f.take (30 + len)) s
    match p.2.head? with
    | none => p.1
    | some b => shToBackbone true id 0 b (chainOwner 0x3C p.2 p.1)
  else s

/-- A frame the guardian let pass to its end. -/
def admitted (st : Star) (b : Nat) (w : StartAs) (f : Bytes) (good : Bool) (s : State) : State :=
  let flags := field f 18 1
  let s := if good then frameFlags b flags s else s
  match w with
  | .blocked => s
  | .slot k =>
    if !good then gotMod k (fun x => { x with got := .error }) s
    else if field f 14 1 = 3 then gotMod k (fun x => { x with got := .null, flags := BitVec.ofNat 4 flags, body := [] }) s
    else gotMod k (fun x => { x with got := .valid, flags := BitVec.ofNat 4 flags, body := slice f 30 (field f 24 2) }) s
  | .ident id =>
    let s := { s with vn := { s.vn with span := field f 19 1 } }
    if !good then raise 0x3007 noInst [] { s with vn := { s.vn with closed := true } }
    else dynDeliver st id f s

/-- VN_FRAME_RX (R240, Table 8.6): the SFD is at the command's instant; the frame is given whole. -/
def vnFrameRx (b : Nat) (f : Bytes) (fcsGood : Bool) (s : State) : State :=
  match s.star with
  | none => s
  | some st =>
    if !starOn s || !branchUp s b then s
    else
      let off := s.now - s.vn.v0
      let w := if s.now < s.vn.v0 then StartAs.blocked else guardStart s st b off
      if w = .blocked then guardCount 1 b s
      else
        let out (whole : Bool) (s : State) : State := emit (.vehicle (outBranches s (some b)) (s.now + 960) f whole) s
        if !guardHeader s st w f then
          let s := guardCount 2 b (out false s)
          match w with
          | .slot k => gotMod k (fun x => { x with got := .cut }) s
          | _ => raise 0x3007 noInst [] { s with vn := { s.vn with closed := true } }
        else if guardLength s st w off f then
          let r : BrRx := match w with
            | .slot k => ⟨f, false, k⟩
            | .ident id => ⟨f, true, id⟩
            | .blocked => ⟨f, true, 0⟩
          let s := brMod b (fun x => { x with rx := some r }) (out false s)
          if r.dynamic then { s with vn := { s.vn with span := field f 19 1 } } else s
        else admitted st b w f fcsGood (out fcsGood s)

def execVnFrameRx (t : Nat) (b : Fin 12) (f : Bytes) (fcsGood : Bool) : State → Host.Outcome State Fault Refusal :=
  act t (vnFrameRx b.val f fcsGood)

/-- GUARDIAN_CUT_POINT (R240). -/
def guardianCutPoint (b : Nat) (s : State) : State := if starOn s then guardianCut b s else s

def execGuardianCutPoint (t : Nat) (b : Fin 12) : State → Host.Outcome State Fault Refusal := act t (guardianCutPoint b.val)

/-- BRANCH_BURST (R243): a burst without a valid SFD counts once; R240's event goes with every count. -/
def branchBurst (b : Nat) (s : State) : State := if starOn s && (s.dom (13 + b)).act = .on then guardCount 1 b s else s

def execBranchBurst (t : Nat) (b : Fin 12) : State → Host.Outcome State Fault Refusal := act t (branchBurst b.val)

/-! ### What the node sends (R231, R236) -/

/-- VN_SLOT_TX (R231): the frozen buffer, or a null frame. -/
def vnSlotTx (k : Nat) (s : State) : State :=
  match s.star with
  | none => s
  | some st =>
    if !starOn s || !s.vn.running || slotOwner st k ≠ 0x0C then s
    else
      let x := s.vn.txBuf.getD k {}
      let (sub, flags, body) : Byte × Byte × Bytes := match x.frozen with
        | some (d, awake) => (0x02, if awake then 1 else 0, d)
        | none => (0x03, 0, [])
      let hdr := vnHeader sub flags 0 (BitVec.ofNat 16 k) s.vn.cyc st.layout body.length
      let s := emit (.vehicle (outBranches s none) s.now (vnFrame s hdr body) true) s
      gotMod k (fun r => { r with got := .valid, flags := flags.setWidth 4, body := body }) s

def execVnSlotTx (t : Nat) (k : Fin 64) : State → Host.Outcome State Fault Refusal := act t (vnSlotTx k.val)

/-- The node's frame for an ID as it goes out, without its FCS. -/
def dynFrame (s : State) (st : Star) (m : DynMsg) : Bytes :=
  let d := chainData s (chainOf s m.buf)
  if m.shutter then vnRewrite st m.id s.vn.cyc d
  else
    let hdr := vnHeader 0x04 0 (BitVec.ofNat 8 (mspanOf st (frameLen d.length))) (BitVec.ofNat 16 m.id) s.vn.cyc st.layout
      d.length
    vnFrame s hdr d

/-- At a boundary the node sends its oldest frame for the ID in turn, when it fits (R236); without a core in control only
the Shutter's (R249). -/
def dynSend (st : Star) (s : State) : State :=
  let cand := s.vn.dynQ.zipIdx.find? (fun e => e.1.id = s.vn.dc && (e.1.shutter || s.cr.active ≠ 2))
  match cand with
  | none => s
  | some (m, i) =>
    let f := dynFrame s st m
    let span := mspanOf st (f.length + 4)
    if s.vn.closed || dynOwner st m.id ≠ 0x0C || dynEnd st < s.vn.boundary + span * st.tM * 1000 then s
    else
      let s := emit (.vehicle (outBranches s none) (s.now + 1460) f true) s
      let s := { s with vn := { s.vn with dynQ := s.vn.dynQ.eraseIdx i, span := span } }
      chainFree (chainOf s m.buf) s

/-- DYN_BOUNDARY (R235): the counter advances by the span of the mini-slot that ends. -/
def dynBoundary (s : State) : State :=
  match s.star with
  | none => s
  | some st =>
    if !starOn s || !s.vn.running || st.nM = 0 then s
    else
      let s := (List.range 12).foldl (fun s b =>
        if ((s.branch b).rx).elim false (fun r => r.dynamic) then guardianCut b s else s) s
      let at_ := if s.vn.dc = 0 then dynStart st else s.vn.boundary + max 1 s.vn.span * st.tM * 1000
      let s := { s with vn := { s.vn with dc := s.vn.dc + 1, boundary := at_, span := 0 } }
      if dynEnd st ≤ at_ then { s with vn := { s.vn with closed := true } }
      else dynSend st { s with cyc := { s.cyc with phase := max s.cyc.phase (s.vn.v0 + at_ - s.cyc.base) } }

def execDynBoundary : State → Host.Outcome State Fault Refusal := act 0 dynBoundary

/-! ### Branch links (Table 8.7) -/

/-- BRANCH_LINK_UP. -/
def branchLinkUp (b : Nat) (s : State) : State :=
  if s.running && s.sh.st ≠ .closed && (s.dom (13 + b)).act = .on && !(s.branch b).link then
    raise 0x3000 b [] (brMod b (fun x => { x with
      link := true, st := if x.off then .disabled else .listen, good := 0, bad := 0 }) s)
  else s

def execBranchLinkUp (t : Nat) (b : Fin 12) : State → Host.Outcome State Fault Refusal := act t (branchLinkUp b.val)

/-- BRANCH_LINK_DOWN. -/
def branchLinkDown (b : Nat) (s : State) : State :=
  if (s.branch b).link then raise 0x3003 b [] (branchDown b s) else s

def execBranchLinkDown (t : Nat) (b : Fin 12) : State → Host.Outcome State Fault Refusal := act t (branchLinkDown b.val)

/-- `BRANCH_OFF` takes effect (R111, R241). -/
def branchOff (b : Nat) : State → State :=
  brMod b (fun x => { x with off := true, st := .disabled, good := 0, bad := 0 })

/-- `BRANCH_OFF` is released (Table 8.7). -/
def branchOn (b : Nat) : State → State :=
  brMod b (fun x => if x.off then { x with off := false, st := if x.link then .listen else .down, good := 0, bad := 0 } else x)

end Sys2Proof.Machine
end

