-- ==== Sys2Proof/Machine/Compose.lean ====
section
/-! DEFINITION. The composition: the node's own record (05), what the origin builds from the records (05, 07), the layout
of the train frame (07), and the adoption of a TTR (05, 06). -/

namespace Sys2Proof.Machine

/-! ### What the node reports of itself (R148) -/

/-- First address of a slot's image: the sector after its record (Table 14.12). -/
def slotImage (slot : Nat) : Nat := slotBase slot + 4096

/-- The slot with the highest `GEN`. -/
def bestSlot (nv : Nv) : Option Nat := (verifyOrder nv).head?

/-- `IMG_VER` of the highest-generation image slot header, unverified; 0 when it cannot be read (R148, Table 7.4). -/
def slotImgVer (nv : Nv) : Nat :=
  match bestSlot nv with
  | none => 0
  | some x => if nvBad nv (slotImage x) 16 then 0 else field (nvBytes nv (slotImage x) 16) 6 2

/-- The directory entry of a type among the first `n`, as offset in the image (R397). -/
def dirFind (nv : Nv) (base ty : Nat) : Nat → Nat → Option Nat
  | 0, _ => none
  | n + 1, a =>
    if nvBad nv a 16 then none
    else if field (nvBytes nv a 16) 0 2 = ty then some (field (nvBytes nv a 16) 4 4)
    else dirFind nv base ty n (a + 16)

/-- The fingerprint of 32 profile bytes (R399). -/
def profileFp (b : Bytes) : Word := w32 (field (sha256 b) 0 4)

/-- The profile fingerprint of the highest-generation slot, unverified; 0 when it cannot be read (R148). -/
def slotFp (nv : Nv) : Word :=
  match bestSlot nv with
  | none => 0
  | some x =>
    let base := slotImage x
    if nvBad nv base 16 then 0
    else
      let n := field (nvBytes nv base 16) 14 2
      if n = 0 || 32 < n then 0
      else
        match dirFind nv base 1 n (base + 64) with
        | none => 0
        | some off => if 2093056 < off + 32 || nvBad nv (base + off) 32 then 0 else profileFp (nvBytes nv (base + off) 32)

/-- The node runs its image: `RUN` or `NOCORE`. -/
def State.runImage (s : State) : Option Image := if s.running then s.image else none

/-- The profile fingerprint the node reports (R148). -/
def ownFp (s : State) : Word := s.runImage.elim (slotFp s.nv) (fun im => im.profile.fp)

/-- The image version the node reports. -/
def ownImgVer (s : State) : Half := s.runImage.elim (BitVec.ofNat 16 (slotImgVer s.nv)) (fun im => im.imgVer)

/-- Flags of a discovery record (Table 5.6). -/
def discFlags (front sync cab bringup onB : Bool) : Byte :=
  BitVec.ofNat 8 (bit1 front + 2 * bit1 sync + 4 * bit1 cab + 8 * bit1 bringup + 16 * bit1 onB)

/-- The node's own discovery record (Table 5.6, R148), without its cable delays. -/
def ownDisc (s : State) (front cab : Bool) : DiscRec :=
  { nodeId := s.dev.nodeId, profileFp := ownFp s, imgVer := ownImgVer s
    flags := discFlags front (s.runImage.elim false (fun im => im.node.sync)) cab (s.runImage.isNone) s.pwr.relayB
    wlen := s.runImage.elim 4 (fun im => im.node.wlen), cdlyA := 0xFFFF, cdlyB := 0xFFFF }

/-- Bit of a discovery record's `FLAGS`. -/
def discBit (r : DiscRec) (k : Nat) : Bool := r.flags.getLsbD k

/-- A cable delay as a port measured it; 0xFFFF not measured. -/
def portDelay (s : State) (p : Nat) : Half := if (s.hp p).rttCount = 0 || (s.hp p).speed = 0 then 0xFFFF else (s.hp p).cdly

/-! ### The hash, the ensemble, the layout (R142, R162, R189, R190) -/

/-- `TOPO_HASH` (R142). -/
def topoHash (recs : List TtrRec) : Word :=
  crc32 (recs.flatMap (fun r => beBytes 8 r.nodeId.toNat ++ [BitVec.ofNat 8 (bit1 (recBit r 0))]))

/-- Records put in ascending `NUMBER`. -/
def insertRec (x : TtrRec) : List TtrRec → List TtrRec
  | [] => [x]
  | y :: r => if x.number.toNat ≤ y.number.toNat then x :: y :: r else y :: insertRec x r

/-- Records in ascending `NUMBER`. -/
def byNumber (l : List TtrRec) : List TtrRec := l.foldr insertRec []

/-- The ensemble (R162): up to 15 numbers, ascending. -/
def ensemble (t : Ttr) : List Nat :=
  (((byNumber t.recs).filter (fun r => recBit r 1 && r.status = 0 && !recBit r 2 && !recBit r 4)).take 15).map
    (fun r => r.number.toNat)

/-- Spare windows S and their words W_S; none in the bring-up cycle (R202). -/
def spareShape (s : State) : Nat × Nat :=
  if bringupCycle s then (0, 0)
  else s.image.elim (0, 0) (fun im => (im.profile.spares.toNat, im.profile.spareWords.toNat))

/-- The windows of the frame in order: `NUMBER`, `LEN` as launched, words of the data area (R189, R192). -/
def windowPlan (s : State) (t : Ttr) : List (Nat × Nat × Nat) :=
  let members := (byNumber t.recs).filter (fun r => r.status = 0 && !recBit r 2)
  let late := (byNumber t.recs).filter (fun r => recBit r 2)
  let sw := spareShape s
  members.map (fun r => (r.number.toNat, r.wlen.toNat, r.wlen.toNat)) ++
    (List.range sw.1).map (fun i =>
      match late[i]? with
      | some r => if r.status = 0 then (r.number.toNat, sw.2, sw.2) else (0, 0, sw.2)
      | none => (0, 0, sw.2))

/-- The windows with the offsets of their headers, from an offset on: `NUMBER`, offset, `LEN`. -/
def layoutFrom : Nat → List (Nat × Nat × Nat) → List (Nat × Nat × Nat)
  | _, [] => []
  | off, (n, l, w) :: r => (n, off, l) :: layoutFrom (off + 4 + 4 * w) r

/-- The windows of the frame with the offsets of their headers (Table 7.2, R188). -/
def frameLayout (s : State) (t : Ttr) : List (Nat × Nat × Nat) := layoutFrom 32 (windowPlan s t)

/-- Offset of the synchronisation block (R190). -/
def syncOffset (s : State) (t : Ttr) : Nat := 32 + ((windowPlan s t).map (fun w => 4 + 4 * w.2.2)).sum

/-- A record is active on a line (R197): every record on line A, those with `ON_B` on line B. -/
def recActive (line : Nat) (r : TtrRec) : Bool := line = 0 || recBit r 5

/-- A record's cable delay on a line; 0xFFFF counts as 750 ns (R202). -/
def recDelay (line : Nat) (r : TtrRec) : Nat :=
  let d := if line = 0 then r.cdlyA else r.cdlyB
  if d = 0xFFFF then 750 else d.toNat

/-- F of an active record beside its neighbours (R170). -/
def recF (a r b : TtrRec) : Nat := if recBit a 4 || recBit r 4 || recBit b 4 then 5760 else 896

/-- The sum of R170 and R202 over active records behind `prev`: each one's cable delay, and F of each record that has one
behind it. -/
def pathSum (line : Nat) : TtrRec → List TtrRec → Nat
  | _, [] => 0
  | _, [r] => recDelay line r
  | p, r :: q :: l => recDelay line r + recF p r q + pathSum line r (q :: l)

/-- Path delay P in ns from the origin to a record on a line (R170); none when the record is not active there. -/
def pathDelay (t : Ttr) (id : DWord) (line : Nat) : Option Nat :=
  let act := t.recs.filter (recActive line)
  match act.findIdx? (fun r => r.nodeId = id) with
  | none => none
  | some 0 => some 0
  | some i =>
    -- F of the last record before the own one looks at the own record, so the sum is taken over the records up to it
    match act.take (i + 1) with
    | [] => some 0
    | a :: l => some (pathSum line a l)

/-! ### What the origin decides (R141, R202) -/

/-- T_TF in ns (Table 7.1). -/
def tfPhase (tc : Nat) (bringup : Bool) : Nat := if bringup then 1500000 else if tc = 500000 then 250000 else 400000

/-- The payload B of R202. -/
def budgetBytes (recs : List TtrRec) (spares words : Nat) : Nat :=
  let wins := (recs.filter (fun r => r.status = 0 && !recBit r 2)).map (fun r => 4 + 4 * r.wlen.toNat)
  let sync := (recs.filter (fun r => recBit r 1 && !recBit r 2 && !recBit r 4)).length
  max 46 (32 + wins.sum + spares * (4 + 4 * words) + 8 * min 15 sync)

/-- D of R202 on a line. -/
def budgetDelay (recs : List TtrRec) (line : Nat) : Nat :=
  match recs.filter (recActive line) with
  | [] => 0
  | a :: l => pathSum line a l

/-- The TTR fits its cycle (R202). -/
def budgetFits (recs : List TtrRec) (spares words tc : Nat) (bringup : Bool) : Bool :=
  let b := budgetBytes recs spares words
  b ≤ 8192 && [0, 1].all (fun line =>
    (recs.filter (recActive line)).isEmpty ||
    4000 + 2 * budgetDelay recs line + 2000 + (18 + b) * (if bringup then 80 else 8) ≤ tfPhase tc bringup - 4000)

/-- Status 0x02 from the highest number downward until the TTR fits (R202); `fuel` bounds the records muted. -/
def muteWindows (spares words tc : Nat) (bringup : Bool) : Nat → List TtrRec → List TtrRec
  | 0, recs => recs
  | n + 1, recs =>
    if budgetFits recs spares words tc bringup then recs
    else
      match ((byNumber recs).filter (fun r => r.status = 0)).getLast? with
      | none => recs
      | some x =>
        muteWindows spares words tc bringup n
          (recs.map (fun r => if r.number = x.number then { r with status := 2 } else r))

/-- The fingerprint of a record's node as the origin learned it. -/
def fpOf (fps : List (DWord × Word)) (id : DWord) : Word := (fps.find? (fun e => e.1 = id)).elim 0 Prod.snd

/-- The train profile: the fingerprint of the lowest-numbered record whose fingerprint is not 0 (R141). -/
def trainProfile (fps : List (DWord × Word)) (recs : List TtrRec) : Word :=
  ((byNumber recs).map (fun r => fpOf fps r.nodeId)).find? (· ≠ 0) |>.getD 0

/-- The MUTE statuses (R141, R202) for a train profile. -/
def statuses (s : State) (fps : List (DWord × Word)) (fp : Word) (recs : List TtrRec) : List TtrRec :=
  let recs := recs.map (fun r =>
    let f := fpOf fps r.nodeId
    { r with status := if f ≠ 0 && f ≠ fp then 1 else 0 })
  let bringup := ((byNumber recs).head?).elim true (fun r => recBit r 4) || s.image.isNone
  let sw := if bringup then (0, 0)
    else s.image.elim (0, 0) (fun im => (im.profile.spares.toNat, im.profile.spareWords.toNat))
  let tc := s.image.elim 4000000 (fun im => 500000 * 2 ^ im.profile.tcode.toNat)
  muteWindows sw.1 sw.2 tc bringup recs.length recs

/-! ### Time mode and the end of a cycle (R174, R178) -/

/-- The time mode changes (R174). -/
def setMode (m : TimeMode) (s : State) : State :=
  let old := s.cyc.mode
  let s := { s with cyc := { s.cyc with mode := m } }
  if old = m then s else raise 0x2000 noInst [w32 old.code, w32 m.code] s

/-- Acquisition is to begin (R178, Table 6.5). -/
def acquireFrom (s : State) : State := { s with cyc := { s.cyc with acquiring := true, acquired := false, step := none, meas := none } }

/-- The cycle in progress ends now (R178): the next cycle starts here with a given `TT` and `CYC`. What a cycle start
does beyond this is CYCLE_START's own meaning. -/
def cycleBoundary (tt : DWord) (cyc : Half) (s : State) : State :=
  { s with cyc := { s.cyc with base := s.cyc.base + s.cyc.phase, phase := 0, tt := tt, cyc := cyc } }

/-! ### Adoption of a TTR (R143, R150, R155) -/

/-- The higher of two inauguration counts (R137). -/
def higher (a b : Word) : Word := if a.toNat < b.toNat then b else a

/-- `TTR` flag bits (Table 5.7): 0 `CAB_CONFLICT`, 1 `NO_CAB`, 2 `OVERFLOW`, 3 `BY_CYC`. -/
def ttrFlag (t : Ttr) (k : Nat) : Bool := t.flags.getLsbD k

/-- Event 0x1007 with the reason when the node's record is MUTE (R141). -/
def muteEvent (old : Option TtrRec) (me : TtrRec) (s : State) : State :=
  if me.status ≠ 0 && old.elim true (fun o => o.status ≠ me.status) then raise 0x1007 noInst [me.status.setWidth 32] s else s

/-- The node holds a TTR from here on, after an inauguration: state, histories (R215), tracking (R307), events. -/
def adopt (st : HgState) (t : Ttr) (icount : Word) (s : State) : State :=
  match recOf t s.dev.nodeId with
  | none => { s with hg := { s.hg with st := .unnumbered, pendTtr := none } }
  | some me =>
    let s := { s with
      hg := { s.hg with
        st := st, ttr := some t, icount := icount, running := higher s.hg.running icount, pendTtr := none, amend := none
        fails := 0, hashDis := 0, hashMuted := false, requests := [] }
      tf := { s.tf with hist := [], track := [], dwell := 0, sleepCd := 0, muted := false } }
    let s := raise 0x1001 noInst [icount, w32 t.recs.length, me.number.setWidth 32, t.topoHash] s
    let s := if st = .solitary then raise 0x1009 noInst [] s
      else
        let s := if ttrFlag t 0 then raise 0x1005 noInst [] s else s
        let s := if ttrFlag t 1 then raise 0x1006 noInst [] s else s
        let vers := (t.recs.filter (fun r => r.status = 0)).map (fun r => r.imgVer)
        if me.number = 1 && vers.any (fun v => some v ≠ vers.head?) then raise 0x1008 noInst [] s else s
    muteEvent none me s

/-- The switch instant (R143, R178, R184): the vehicle cycle ends with the cycle in progress (R226), cycle 0 starts, and
acquisition begins. -/
def switchCycle (s : State) : State :=
  let s := vnEarlyEnd s
  let s := cycleBoundary (s.cyc.tt + BitVec.ofNat 64 s.cyc.phase) 0 s
  setMode .acquire (acquireFrom s)

/-- An amendment is adopted (R150, R152, R184). `onReceipt` says that the node accepts no train frame. -/
def amendAdopt (onReceipt : Bool) (t : Ttr) (icount : Word) (s : State) : State :=
  match recOf t s.dev.nodeId with
  | none => s
  | some me =>
    let old := ownRec s
    let wasBringup := bringupCycle s
    let admitted := s.hg.st = .admitting
    let s := { s with hg := { s.hg with
      ttr := some t, icount := icount, running := higher s.hg.running icount, amend := none, hashDis := 0
      hashMuted := false, st := if admitted then .member else s.hg.st, refused := false } }
    let s := if admitted then { s with tf := { s.tf with hist := [] } } else s
    let late := ((byNumber t.recs).filter (fun r => recBit r 2)).findIdx? (fun r => r.number = me.number)
    let s := if admitted then raise 0x1021 noInst [me.number.setWidth 32, w32 (late.getD 0)] s else s
    let s := muteEvent old me (raise 0x1023 noInst [] s)
    if admitted then setMode .acquire (acquireFrom s)
    else if onReceipt then acquireFrom s
    else if wasBringup && !bringupCycle s then
      -- the start of `ADOPT_CYC` is a switch instant: this cycle is cycle 0 (R184)
      setMode .acquire (acquireFrom { s with cyc := { s.cyc with cyc := 0 } })
    else s

end Sys2Proof.Machine
end

