-- ==== Sys2Proof/Machine/Hinge.lean ====
section
/-! DEFINITION. Meanings of the Hinge family (05): backbone links and steps, the inauguration, amendments and late-comers,
and the relay drive it asks for (07). -/

namespace Sys2Proof.Machine

/-! ### Ports and sides -/

/-- Ports of a side: front AF and BF, rear AR and BR. -/
def sidePorts (front : Bool) : List Nat := if front then [0, 2] else [1, 3]

/-- A port belongs to the front side. -/
def isFront (p : Nat) : Bool := p % 2 = 0

/-- The other line's port of the same side. -/
def otherLine (p : Nat) : Nat := (p + 2) % 4

/-- The lines in use (R131): line A in `BRINGUP`, lines A and B otherwise. -/
def lineInUse (s : State) (p : Nat) : Bool := p < 2 || s.pwr.node ≠ .bringup

/-- A port holds a link in use. -/
def portInUse (s : State) (p : Nat) : Bool := lineInUse s p && ((s.hp p).speed ≠ 0 || (s.hp p).stepping)

/-- Whether a link is settled (R121). -/
def settledNow (s : State) (x : HgPort) : Bool :=
  x.speed = 2 || (x.speed = 1 && !x.stepping &&
    (x.stepFailed || !s.running || (x.nbrState ≠ 0 && x.nbrState ≠ 4 && x.nbrState ≠ 7)))

/-- Every port's settled mark follows the rule. -/
def resettle (s : State) : State :=
  { s with hg := { s.hg with ports := s.hg.ports.map (fun x => { x with settled := settledNow s x }) } }

/-- The count an own Hinge frame belongs to (R127). -/
def ownCount (s : State) : Word := if s.hg.ttr.isSome || s.hg.st = .admitting then s.hg.icount else s.hg.running

/-- The hash the node holds; 0 if none (Table 5.3). -/
def heldHash (s : State) : Word := s.hg.ttr.elim 0 (fun t => t.topoHash)

/-- A `PROBE` goes out on a port (R129). -/
def probePort (p : Nat) (s : State) : State :=
  hingeOwn [p] (ownCount s)
    (fun p => .probe (BitVec.ofNat 8 p) (BitVec.ofNat 8 s.pwr.node.code) (heldHash s) (ownFp s)) s

/-- A `STEP` goes out on a port (R120). -/
def stepPort (p : Nat) (s : State) : State :=
  hingeOwn [p] (ownCount s) (fun _ => .step (BitVec.ofNat 8 s.pwr.node.code)) s

/-- A Hinge frame arrives (R117, R127, R128): version 0x01, not the node's own, and not processed before. -/
def hingeRx (sub : Byte) (p : Nat) (h : HingeHdr) (f : State → State) (s : State) : State :=
  let key : HgKey := ⟨sub, h.srcId, h.icount, h.mseq⟩
  if !s.cycling || h.version ≠ 1 || h.srcId = s.dev.nodeId || (s.hp p).speed = 0 || s.hg.seen.contains key then s
  else f { s with hg := { s.hg with seen := s.hg.seen ++ [key] } }

/-- A received Hinge frame goes on from given ports, regenerated (R127). -/
def hingeFwd (ports : List Nat) (h : HingeHdr) (body : HingeBody) (s : State) : State :=
  ports.foldl (fun s p => hingeSend p
    ⟨{ h with hops := h.hops + 1, flags := (hingeHdr s p h.icount).flags }, body⟩ s) s

/-- Up ports but one. -/
def upExcept (s : State) (p : Nat) : List Nat := (upPorts s).filter (· ≠ p)

/-! ### Entry into an inauguration (R130, R137, R156) -/

/-- The node enters an inauguration: it drops its TTR and everything that rests on it. -/
def inaugEnter (icount : Word) (cause : Byte) (s : State) : State :=
  let s := raise 0x1000 noInst [cause.setWidth 32, icount] s
  { s with
    hg := { s.hg with
      st := .probing, ttr := none, icount := 0, running := icount, lastCause := cause, pendTtr := none, amend := none
      sweepSent := false, heldSweeps := [], requests := [], fps := [], hashDis := 0, coupling := [false, false]
      refused := false, probed := false, admitSends := 0
      ports := s.hg.ports.map (fun x => { x with rttSum := 0, rttCount := 0 }) }
    tf := { s.tf with quiesceCyc := none, sleepCd := 0, dwell := 0, track := [], lastCd := false } }

/-- The node sends `START` with a cause (R130, R137): its `ICOUNT` is one above the highest it holds. A refused node
sends none (R154). -/
def startOwn (cause : Byte) (s : State) : State :=
  if !s.cycling || s.hg.refused then s
  else
    let icount := s.hg.running + 1
    hingeOwn (upPorts s) icount (fun _ => .start cause) (inaugEnter icount cause s)

/-- START (R137, R146): a higher `ICOUNT` is entered and forwarded; an equal or lower one is ignored. -/
def startRx (p : Nat) (h : HingeHdr) (cause : Byte) (s : State) : State :=
  if s.hg.running.toNat < h.icount.toNat then
    let s := inaugEnter h.icount cause s
    hingeFwd (upExcept s p) h (.start cause) s
  else s

def execStart (t : Nat) (p : Fin 4) (h : HingeHdr) (cause : Byte) : State → Host.Outcome State Fault Refusal :=
  act t (hingeRx 0x10 p h (startRx p h cause))

/-! ### Links (R119-R126, R131, R132) -/

/-- A side's coupling mark. -/
def couplingSet (front : Bool) (v : Bool) (s : State) : State :=
  { s with hg := { s.hg with coupling := s.hg.coupling.set (if front then 0 else 1) v } }

/-- The `BRINGUP` wait of R136 still runs. -/
def bringupWait (s : State) : Bool := s.pwr.node = .bringup && s.hg.st = .unnumbered && !s.hg.probed && s.hg.running = 0

/-- LINK_UP (R119): the neighbour is known; a link restored (R132), a new inner neighbour (R134), or a coupling at an
open side (R131). -/
def linkUp (p : Nat) (nbr : DWord) (s : State) : State :=
  if !s.cycling || (s.hp p).speed ≠ 0 || (s.hp p).stepping || nbr = s.dev.nodeId then s
  else
    let old := s.hp p
    let restored := (old.waiting || old.broken) && old.lastNbr = nbr
    let inUse := portInUse s (otherLine p)
    let s := resettle (hpMod p (fun x => { x with
      speed := 1, nbr := nbr, lastNbr := nbr, nbrState := 0, nbrPort := 4, rttSum := 0, rttCount := 0
      waiting := false, broken := false, stepFailed := false, master := false }) s)
    let s :=
      if restored then raise 0x1011 p (words64 nbr) s
      else if !lineInUse s p || bringupWait s || s.hg.refused then s
      else if inUse then
        if s.hg.ttr.elim true (fun t => (recOf t nbr).isNone) then raise 0x1011 p (words64 nbr) s else s
      else couplingSet (isFront p) true s
    let s := if bringupWait s || s.hg.st = .probing then s else probePort p s
    if s.running then stepPort p s else s

def execLinkUp (t : Nat) (p : Fin 4) (nbr : DWord) : State → Host.Outcome State Fault Refusal := act t (linkUp p nbr)

/-- The side's links are gone: uncoupling (R132). -/
def uncouple (front : Bool) (s : State) : State :=
  let s := (sidePorts front).foldl (fun s p => hpMod p (fun x => { x with waiting := false, broken := false }) s) s
  startOwn 0x02 (couplingSet front false s)

/-- LINK_DOWN (R123, R132): inside a step it is no link loss. -/
def linkDown (p : Nat) (s : State) : State :=
  let x := s.hp p
  if x.speed = 0 then s
  else if x.stepping then msgLinkLost p (hpMod p (fun x => { x with speed := 0, settled := false }) s)
  else
    let s := msgLinkLost p (hpMod p (fun x => { x with
      speed := 0, settled := false, nbr := 0, nbrState := 0, nbrPort := 4, stepFailed := false, master := false }) s)
    if !s.cycling || !lineInUse s p then s
    else if (s.hp (otherLine p)).broken then uncouple (isFront p) s
    else hpMod p (fun x => { x with waiting := true }) s

def execLinkDown (t : Nat) (p : Fin 4) : State → Host.Outcome State Fault Refusal := act t (linkDown p)

/-- LINK_DOWN_WAIT_END (R132): uncoupling when the other line in use at that side is down too, else `LINE_BREAK` with the
line, the own number and the port. -/
def linkDownWaitEnd (p : Nat) (s : State) : State :=
  if !s.cycling || !(s.hp p).waiting || (s.hp p).speed ≠ 0 then s
  else if portInUse s (otherLine p) then
    raise 0x1010 (portLine p) [w32 (portLine p), w32 (ownNumber s), w32 p]
      (hpMod p (fun x => { x with waiting := false, broken := true }) s)
  else uncouple (isFront p) s

def execLinkDownWaitEnd (t : Nat) (p : Fin 4) : State → Host.Outcome State Fault Refusal := act t (linkDownWaitEnd p)

/-- LINE_DOWN_2S (R132). -/
def lineDown2s (p : Nat) (s : State) : State :=
  if s.cycling && (s.hp p).broken && (s.hp p).speed = 0 then raise 0x1012 (portLine p) [] s else s

def execLineDown2s (t : Nat) (p : Fin 4) : State → Host.Outcome State Fault Refusal := act t (lineDown2s p)

/-- The own port is master at 1000BASE-T (R120): the front port, or, between two front or two rear ports, the port of the
lower node ID. -/
def isMaster (s : State) (p : Nat) : Bool :=
  let n := (s.hp p).nbrPort
  if n < 4 && isFront n = isFront p then s.dev.nodeId.toNat < (s.hp p).nbr.toNat else isFront p

/-- A node state of Table 3.4 in which a link steps. -/
def steps (nodeState : Byte) : Bool := nodeState = 4 || nodeState = 7

/-- STEP (R120): answered when both ends are in `RUN` or `NOCORE`. -/
def stepRx (p : Nat) (nodeState : Byte) (s : State) : State :=
  let s := resettle (hpMod p (fun x => { x with nbrState := nodeState }) s)
  if s.running && steps nodeState && (s.hp p).speed = 1 then
    let m := isMaster s p
    let s := resettle (hpMod p (fun x => { x with stepping := true, master := m }) s)
    hingeOwn [p] (ownCount s) (fun _ => .stepAck (BitVec.ofNat 8 s.pwr.node.code) (!m)) s
  else s

def execStep (t : Nat) (p : Fin 4) (h : HingeHdr) (nodeState : Byte) : State → Host.Outcome State Fault Refusal :=
  act t (hingeRx 0x17 p h (stepRx p nodeState))

/-- STEP_ACK (R120): the step proceeds. -/
def stepAckRx (p : Nat) (nodeState : Byte) (master : Bool) (s : State) : State :=
  let s := resettle (hpMod p (fun x => { x with nbrState := nodeState }) s)
  if s.running && (s.hp p).speed = 1 && !(s.hp p).stepping then
    resettle (hpMod p (fun x => { x with stepping := true, master := master }) s)
  else s

def execStepAck (t : Nat) (p : Fin 4) (h : HingeHdr) (nodeState : Byte) (master : Bool) :
    State → Host.Outcome State Fault Refusal := act t (hingeRx 0x18 p h (stepAckRx p nodeState master))

/-- STEP_LINK_DROP (R120, R123): both ends drop the link and retrain. -/
def stepLinkDrop (p : Nat) (s : State) : State :=
  if (s.hp p).stepping then msgLinkLost p (hpMod p (fun x => { x with speed := 0, settled := false }) s) else s

def execStepLinkDrop (t : Nat) (p : Fin 4) : State → Host.Outcome State Fault Refusal := act t (stepLinkDrop p)

/-- The body of the node's `ADMIT_REQ` (Table 5.3, R148). -/
def admitBody (late update : Bool) (s : State) : AdmitReq :=
  { late := late, update := update, own := ownDisc s false s.hg.cab, frontNbr := (s.hp 0).nbr, rearNbr := (s.hp 1).nbr
    dlyAFront := portDelay s 0, dlyARear := portDelay s 1, dlyBFront := portDelay s 2, dlyBRear := portDelay s 3 }

/-- The ports toward node 1: the side that faces the reference end (Table 5.8). -/
def towardOrigin (s : State) : List Nat :=
  (sidePorts ((ownRec s).elim true (fun r => !recBit r 0))).filter (fun p => (s.hp p).speed ≠ 0)

/-- A request reaches the origin (R150): one per originator waits for the next amendment. -/
def requestAdd (id : DWord) (r : AdmitReq) (s : State) : State :=
  { s with hg := { s.hg with requests := s.hg.requests.filter (fun e => e.1 ≠ id) ++ [(id, r)] } }

/-- `ADMIT_REQ` with `UPDATE` (R148); the origin takes its own request itself. -/
def sendUpdate (s : State) : State :=
  if s.hg.ttr.isNone then s
  else if isOrigin s then requestAdd s.dev.nodeId (admitBody false true s) s
  else hingeOwn (towardOrigin s) s.hg.icount (fun _ => .admitReq (admitBody false true s)) s

/-- STEP_COMPLETE (R121): the link is settled at 1000BASE-T; after its line-B step the node reports it (R148). -/
def stepComplete (p : Nat) (s : State) : State :=
  if !(s.hp p).stepping then s
  else
    let s := resettle (hpMod p (fun x => { x with speed := 2, stepping := false, stepFailed := false }) s)
    if 2 ≤ p && !(s.hp (opposite p)).stepping then sendUpdate s else s

def execStepComplete (t : Nat) (p : Fin 4) : State → Host.Outcome State Fault Refusal := act t (stepComplete p)

/-- STEP_TIMEOUT (R125): back to 100BASE-TX with event 0x1015. -/
def stepTimeout (p : Nat) (s : State) : State :=
  if !(s.hp p).stepping then s
  else raise 0x1015 p [] (resettle (hpMod p (fun x => { x with speed := 1, stepping := false, stepFailed := true }) s))

def execStepTimeout (t : Nat) (p : Fin 4) : State → Host.Outcome State Fault Refusal := act t (stepTimeout p)

/-- STEP_RETRY (R125). -/
def stepRetry (p : Nat) (s : State) : State :=
  if s.running && (s.hp p).speed = 1 && (s.hp p).stepFailed && !(s.hp p).stepping then stepPort p s else s

def execStepRetry (t : Nat) (p : Fin 4) : State → Host.Outcome State Fault Refusal := act t (stepRetry p)

/-- RELAY_B_DRIVE (R122, Table 7.7). -/
def relayBDrive (s : State) : State :=
  if s.running && s.hg.st ≠ .admitting && !s.hg.refused && !s.pwr.relayB then driveB true s else s

def execRelayBDrive (t : Nat) : State → Host.Outcome State Fault Refusal := act t relayBDrive

/-- OPEN_SIDE_START (R131): the lines in use by both ends are settled, or 1.5 s have passed. -/
def openSideStart (front : Bool) (s : State) : State :=
  if s.hg.coupling.getD (if front then 0 else 1) false && (sidePorts front).any (portInUse s) then
    startOwn 0x01 (couplingSet front false s)
  else s

def execOpenSideStart (t : Nat) (front : Bool) : State → Host.Outcome State Fault Refusal := act t (openSideStart front)

/-! ### Power-up and late-comers (R136, R151, R154) -/

/-- BRINGUP_LINK_WAIT (R136): `PROBE` on each line-A link; with none the node starts an attempt that ends in `SOLITARY`.
After a refusal it is the fresh probe of Table 7.7, which sends no `START`. -/
def bringupLinkWait (s : State) : State :=
  if !s.cycling || s.hg.st ≠ .unnumbered || s.hg.probed || !(bringupWait s || (s.hg.refused && s.pwr.relayA)) then s
  else
    let ports := [0, 1].filter (fun p => (s.hp p).speed ≠ 0)
    if ports.isEmpty then startOwn 0x03 s
    else ports.foldl (fun s p => probePort p s) { s with hg := { s.hg with probed := true } }

def execBringupLinkWait (t : Nat) : State → Host.Outcome State Fault Refusal := act t bringupLinkWait

/-- `ADMIT_REQ` with `LATE` goes out on line A (R151). -/
def admitSend (s : State) : State :=
  hingeOwn ([0, 1].filter (fun p => (s.hp p).speed ≠ 0)) s.hg.icount (fun _ => .admitReq (admitBody true false s))
    { s with hg := { s.hg with admitSends := s.hg.admitSends + 1 } }

/-- The late-comer path (R136, R151). -/
def latePath (icount : Word) (s : State) : State :=
  let s := { s with hg := { s.hg with st := .admitting, icount := icount, admitSends := 0, probed := false, refused := false } }
  admitSend (raise 0x1020 noInst [] (driveB false s))

/-- The admission is refused or unanswered (R154, Table 7.7). -/
def admitRefused (reason : Byte) (s : State) : State :=
  let s := raise 0x1022 noInst [reason.setWidth 32] s
  driveB false (driveA false { s with hg := { s.hg with st := .unnumbered, icount := 0, refused := true, probed := false } })

/-- PROBE (R129): answered by `PROBE_RSP` on the same port. -/
def probeRx (p : Nat) (h : HingeHdr) (sender nodeState : Byte) (residence : Word) (s : State) : State :=
  let s := resettle (hpMod p (fun x => { x with nbrState := nodeState, nbrPort := sender.toNat }) s)
  hingeOwn [p] (ownCount s)
    (fun p => .probeRsp (BitVec.ofNat 8 p) (BitVec.ofNat 8 s.hg.st.code) h.mseq (heldHash s) residence) s

def execProbe (t : Nat) (p : Fin 4) (h : HingeHdr) (sender nodeState : Byte) (_hash _profileFp residence : Word) :
    State → Host.Outcome State Fault Refusal := act t (hingeRx 0x11 p h (probeRx p h sender nodeState residence))

/-- One exchange of R129: the delay is the mean of up to 16 exchanges; the sixteenth completes the measurement, and one
above 750 ns is recorded (R126). -/
def exchange (p : Nat) (roundTrip residence : Nat) (s : State) : State :=
  let x := s.hp p
  if 16 ≤ x.rttCount then s
  else
    let n := x.rttCount + 1
    let sum := x.rttSum + (roundTrip - residence)
    let d := min 0xFFFE ((sum + n) / (2 * n))
    let s := hpMod p (fun x => { x with rttSum := sum, rttCount := n, cdly := BitVec.ofNat 16 d }) s
    if n = 16 && 750 < d then raise 0x1013 p [w32 p, w32 d] s else s

/-- PROBE_RSP (R129, R136): the delay measurement goes on; an answer from a member puts the node on the late-comer path. -/
def probeRspRx (p : Nat) (h : HingeHdr) (responder hingeState : Byte) (residence : Word) (roundTrip : Nat) (cab : Bool)
    (s : State) : State :=
  let s := hpMod p (fun x => { x with nbrPort := responder.toNat }) s
  let s := exchange p roundTrip residence.toNat { s with hg := { s.hg with cab := cab } }
  if s.hg.st = .unnumbered && s.hg.probed && (hingeState = 4 || hingeState = 5) then latePath h.icount s
  else if s.hg.st ≠ .probing && (s.hp p).rttCount < 16 then probePort p s
  else s

def execProbeRsp (t : Nat) (p : Fin 4) (h : HingeHdr) (responder hingeState : Byte) (_echoed : Half) (_hash residence : Word)
    (roundTrip : Nat) (cab : Bool) : State → Host.Outcome State Fault Refusal :=
  act t (hingeRx 0x12 p h (probeRspRx p h responder hingeState residence roundTrip cab))

/-- PROBE_INTERVAL (R138). -/
def probeInterval (s : State) : State :=
  if s.cycling && s.hg.st = .probing then (upPorts s).foldl (fun s p => probePort p s) s else s

def execProbeInterval (t : Nat) : State → Host.Outcome State Fault Refusal := act t probeInterval

/-! ### Sweeps and the decision (R138-R142, R147) -/

/-- The node has a neighbour at a side: a port that got an answer in this inauguration (R138). -/
def hasNeighbour (s : State) (front : Bool) : Bool := (sidePorts front).any (fun p => (s.hp p).rttCount ≠ 0)

/-- The node is an end node (R138). -/
def isEnd (s : State) : Bool := hasNeighbour s true ≠ hasNeighbour s false

/-- The own record for a sweep that arrived at a side (Table 5.6). -/
def sweepRec (s : State) (front : Bool) : DiscRec :=
  let ports := sidePorts front
  { ownDisc s front s.hg.cab with cdlyA := portDelay s (ports.getD 0 0), cdlyB := portDelay s (ports.getD 1 0) }

/-- A TTR built at the reference end is stored and sent (R143, R146). -/
def ttrTake (t : Ttr) (at_ : Nat) (s : State) : State :=
  { s with hg := { s.hg with st := .awaitSwitch, pendTtr := some (t, s.hg.running, at_) } }

/-- The node keeps the TTR with the lower `ORIGIN_ID` (R146). -/
def ttrKeeps (s : State) (t : Ttr) : Bool := s.hg.pendTtr.elim false (fun p => p.1.originId.toNat ≤ t.originId.toNat)

/-- The node that decides under Table 5.9, as its index in the list: the one active cab, or of several the one with the
lowest node ID. -/
def cabIndex (l : List DiscRec) : Option Nat :=
  (l.zipIdx.filter (fun e => discBit e.1 2)).foldl (fun best e =>
    match best with
    | none => some e.2
    | some i => if e.1.nodeId.toNat < ((l[i]?).elim 0 (fun r => r.nodeId.toNat)) then some e.2 else some i) none

/-- The own end, the last of the list, is the reference end (Table 5.9). -/
def ownEndRefers (l : List DiscRec) : Bool :=
  let id (r : Option DiscRec) : Nat := r.elim 0 (fun r => r.nodeId.toNat)
  let lower := id l.getLast? < id l.head?
  match cabIndex l with
  | none => lower
  | some i =>
    let mine := l.length - 1 - i
    if mine < i then true else if i < mine then false else lower

/-- `FLAGS` and `REF_CAUSE` of the TTR (Table 5.9). -/
def refCause (l : List DiscRec) : Byte × Byte :=
  match (l.filter (fun r => discBit r 2)).length with
  | 0 => (2, 3)
  | 1 => (0, 1)
  | _ => (1, 2)

/-- The index before `k` of the nearest record active on line B. -/
def prevOnB (l : List DiscRec) : Nat → Option Nat
  | 0 => none
  | k + 1 => if (l[k]?).elim false (fun r => discBit r 4) then some k else prevOnB l k

/-- The cable delay that the record at index `j` of the list takes over on a line: the one measured by the next active
record nearer to the reference end (R140 step 3). -/
def movedDelay (l : List DiscRec) (line j : Nat) : Half :=
  match (List.range l.length).find? (fun k => j < k &&
    (if line = 0 then decide (k = j + 1) else decide (prevOnB l k = some j)) &&
    (l[k]?).elim false (fun r => (if line = 0 then r.cdlyA else r.cdlyB) ≠ 0xFFFF)) with
  | some k => (l[k]?).elim 0xFFFF (fun r => if line = 0 then r.cdlyA else r.cdlyB)
  | none => 0xFFFF

/-- Record of a TTR from a discovery record (Tables 5.6, 5.8). -/
def ttrRec (r : DiscRec) (number : Nat) (orient late : Bool) (a b : Half) : TtrRec :=
  { nodeId := r.nodeId, number := BitVec.ofNat 8 number
    flags := BitVec.ofNat 8 (bit1 orient + 2 * bit1 (discBit r 1) + 4 * bit1 late + 8 * bit1 (discBit r 2)
      + 16 * bit1 (discBit r 3) + 32 * bit1 (discBit r 4))
    status := 0, wlen := r.wlen, cdlyA := a, cdlyB := b, imgVer := r.imgVer }

/-- The records in order from the reference end, the list's last node first (R140). -/
def buildRecs (l : List DiscRec) : List TtrRec :=
  (List.range l.length).filterMap (fun p =>
    let j := l.length - 1 - p
    (l[j]?).map (fun r => ttrRec r (p + 1) (discBit r 0) false (movedDelay l 0 j) (movedDelay l 1 j)))

/-- The TTR of an inauguration (R140-R143). -/
def buildTtr (s : State) (l : List DiscRec) : Ttr :=
  let fps := l.map (fun r => (r.nodeId, r.profileFp))
  let recs := buildRecs l
  let fp := trainProfile fps recs
  let recs := statuses s fps fp recs
  { rev := 0, flags := (refCause l).1, refCause := (refCause l).2, profileFp := fp, topoHash := topoHash recs
    switchDly := 10000000, adoptCyc := 0, originId := s.dev.nodeId, recs := recs }

/-- An inauguration ends because the composition has more than 63 nodes (R147). -/
def overflowEnd (s : State) : State :=
  raise 0x1004 noInst [] { s with hg := { s.hg with st := .unnumbered, pendTtr := none, probed := false } }

/-- The empty TTR of an abort (R147). -/
def abortTtr (s : State) : Ttr :=
  { rev := 0, flags := 4, refCause := 0, profileFp := 0, topoHash := 0, switchDly := 10000000, adoptCyc := 0
    originId := s.dev.nodeId, recs := [] }

/-- An end node holds the sweep of the other end (R140, R147). -/
def decideEnd (front overflow : Bool) (recs : List DiscRec) (s : State) : State :=
  if overflow || 63 ≤ recs.length then
    overflowEnd (hingeOwn (upPorts s) s.hg.running (fun _ => .ttr (abortTtr s)) s)
  else
    let l := recs ++ [sweepRec s front]
    if !ownEndRefers l then s
    else
      let t := buildTtr s l
      if ttrKeeps s t then s
      else
        let s := ttrTake t (s.now + 10000000)
          { s with hg := { s.hg with fps := l.map (fun r => (r.nodeId, r.profileFp)) } }
        hingeOwn (upPorts s) s.hg.running (fun _ => .ttr t) s

/-- A sweep is taken up (R139, R140, R147). -/
def sweepIn (p : Nat) (h : HingeHdr) (overflow : Bool) (recs : List DiscRec) (s : State) : State :=
  let front := isFront p
  if isEnd s then (if hasNeighbour s front then decideEnd front overflow recs s else s)
  else
    let full := 63 ≤ recs.length
    let ports := (sidePorts (!front)).filter (fun p => (s.hp p).speed ≠ 0)
    hingeFwd ports h (.discover (overflow || full) (if full then recs else recs ++ [sweepRec s front])) s

/-- DISCOVER (R139): held while the node still probes. -/
def discoverRx (p : Nat) (h : HingeHdr) (overflow : Bool) (recs : List DiscRec) (cab : Bool) (s : State) : State :=
  if h.icount ≠ s.hg.running then s
  else
    let s := { s with hg := { s.hg with cab := cab } }
    match s.hg.st with
    | .probing => { s with hg := { s.hg with heldSweeps := s.hg.heldSweeps ++ [(p, ⟨h, .discover overflow recs⟩)] } }
    | .discovering => sweepIn p h overflow recs s
    | _ => s

def execDiscover (t : Nat) (p : Fin 4) (h : HingeHdr) (overflow : Bool) (recs : List DiscRec) (cab : Bool) :
    State → Host.Outcome State Fault Refusal := act t (hingeRx 0x13 p h (discoverRx p h overflow recs cab))

/-- The local TTR of a composition of one (R155). -/
def solitaryTtr (s : State) : Ttr :=
  let r := ownDisc s true s.hg.cab
  let recs := [ttrRec r 1 false false 0xFFFF 0xFFFF]
  { rev := 0, flags := (refCause [r]).1, refCause := (refCause [r]).2, profileFp := r.profileFp, topoHash := topoHash recs
    switchDly := 0, adoptCyc := 0, originId := s.dev.nodeId, recs := recs }

/-- A changed `ICOUNT` closes the backbone session (Table 16.5, code 0x0A). -/
def icountClose (old : Word) (s : State) : State := if s.hg.icount = old then s else sessionClose .backbone 0x0A s

/-- The node becomes `SOLITARY` (R155). -/
def goSolitary (s : State) : State :=
  let old := s.hg.icount
  let s := { s with hg := { s.hg with fps := [(s.dev.nodeId, ownFp s)] } }
  icountClose old (adopt .solitary (solitaryTtr s) s.hg.running s)

/-- A held sweep is taken up once probing has ended (R139). -/
def heldIn (e : Nat × HingeFrame) (s : State) : State :=
  match e.2.body with
  | .discover overflow recs => sweepIn e.1 e.2.hdr overflow recs s
  | _ => s

/-- An end node launches its sweep toward the other end (R139). -/
def launchSweep (s : State) : State :=
  let open_ := !hasNeighbour s true
  let r := ownDisc s open_ s.hg.cab
  hingeOwn ((sidePorts (!open_)).filter (fun p => (s.hp p).speed ≠ 0)) s.hg.running (fun _ => .discover false [r])
    { s with hg := { s.hg with sweepSent := true } }

/-- PROBING_END (R138, R155); at power-up it is the end of the probe without an answer from a member (R136). -/
def probingEnd (cab : Bool) (s : State) : State :=
  if !s.cycling then s
  else
    let s := { s with hg := { s.hg with cab := cab } }
    if s.hg.st = .probing then
      if !hasNeighbour s true && !hasNeighbour s false then goSolitary s
      else
        let s := { s with hg := { s.hg with st := .discovering } }
        let s := if isEnd s then launchSweep s else s
        let held := s.hg.heldSweeps
        held.foldl (fun s e => if s.hg.st = .discovering then heldIn e s else s)
          { s with hg := { s.hg with heldSweeps := [] } }
    else if s.hg.st = .unnumbered && s.hg.probed then startOwn 0x03 s
    else s

def execProbingEnd (t : Nat) (cab : Bool) : State → Host.Outcome State Fault Refusal := act t (probingEnd cab)

/-! ### Failed attempts (R149) -/

/-- An attempt fails: phase 1 no sweep, 2 no TTR, 3 a TTR too late (log 21). -/
def attemptFails (phase : Nat) (s : State) : State :=
  let s := raise 0x1002 noInst [Config.eventItem 0x1002 phase]
    { s with hg := { s.hg with fails := s.hg.fails + 1, pendTtr := none } }
  if 3 ≤ s.hg.fails then raise 0x1003 noInst [] { s with hg := { s.hg with st := .failed } } else startOwn 0x07 s

/-- INAUG_ATTEMPT_TIMEOUT (R149): phase 1 the sweep's 20 ms, any other the 50 ms without a TTR. -/
def inaugAttemptTimeout (phase : Byte) (s : State) : State :=
  if !s.cycling then s
  else if phase = 1 then (if s.hg.st = .discovering && s.hg.sweepSent then attemptFails 1 s else s)
  else if s.hg.st = .probing || s.hg.st = .discovering then attemptFails 2 s
  else s

def execInaugAttemptTimeout (t : Nat) (phase : Byte) : State → Host.Outcome State Fault Refusal :=
  act t (inaugAttemptTimeout phase)

/-- FAILED_RETRY (R149). -/
def failedRetry (s : State) : State := if s.hg.st = .failed then startOwn 0x07 s else s

def execFailedRetry (t : Nat) : State → Host.Outcome State Fault Refusal := act t failedRetry

/-! ### TTRs and amendments (R143, R146, R150) -/

/-- The node accepts train frames: it has accepted one in this cycle (R150). -/
def accepting (s : State) : Bool := s.tf.accepted.isSome

/-- A revision follows another. -/
def revFollows (new old : Byte) : Bool := 1 ≤ (new - old).toNat && (new - old).toNat ≤ 127

/-- An amendment arrives (R150, R152). -/
def amendRx (p : Nat) (h : HingeHdr) (t : Ttr) (s : State) : State :=
  let s := hingeFwd (upExcept s p) h (.ttr t) s
  let listed := (recOf t s.dev.nodeId).isSome
  if !listed then s
  else if s.hg.st = .admitting then amendAdopt true t h.icount s
  else
    match s.hg.ttr with
    | none => s
    | some cur =>
      if h.icount ≠ s.hg.icount || !revFollows t.rev cur.rev then s
      else if accepting s then { s with hg := { s.hg with amend := some t } }
      else amendAdopt true t h.icount s

/-- TTR (R143, R146, R147, R149): the abort, an amendment, or the TTR of the inauguration. -/
def ttrRx (p : Nat) (h : HingeHdr) (t : Ttr) (residence : Nat) (s : State) : State :=
  if ttrFlag t 3 then amendRx p h t s
  else if h.icount ≠ s.hg.running || !s.hg.st.inaugurating then s
  else if ttrFlag t 2 || t.recs.isEmpty then overflowEnd (hingeFwd (upExcept s p) h (.ttr t) s)
  else if t.switchDly.toNat < 100000 then attemptFails 3 s
  else if ttrKeeps s t then s
  else
    let cable := if (s.hp p).rttCount = 0 then 0 else (s.hp p).cdly.toNat
    let s' := ttrTake t (s.now + t.switchDly.toNat - cable) s
    hingeFwd (upExcept s' p) h (.ttr { t with switchDly := w32 (t.switchDly.toNat - residence - cable) }) s'

def execTtr (t : Nat) (p : Fin 4) (h : HingeHdr) (body : Ttr) (residence : Nat) : State → Host.Outcome State Fault Refusal :=
  act t (hingeRx 0x14 p h (ttrRx p h body residence))

/-- ADMIT_REQ (R150-R152): members forward it toward node 1, a node in `ADMITTING` along its line; the origin keeps it. -/
def admitReqRx (p : Nat) (h : HingeHdr) (r : AdmitReq) (s : State) : State :=
  if isOrigin s then requestAdd h.srcId r s
  else if s.hg.st = .member then hingeFwd ((towardOrigin s).filter (· ≠ p)) h (.admitReq r) s
  else if s.hg.st = .admitting then hingeFwd ((upPorts s).filter (· = opposite p)) h (.admitReq r) s
  else s

def execAdmitReq (t : Nat) (p : Fin 4) (h : HingeHdr) (r : AdmitReq) : State → Host.Outcome State Fault Refusal :=
  act t (hingeRx 0x15 p h (admitReqRx p h r))

/-- ADMIT_REF (R154). -/
def admitRefRx (p : Nat) (h : HingeHdr) (id : DWord) (reason : Byte) (s : State) : State :=
  if id = s.dev.nodeId then (if s.hg.st = .admitting then admitRefused reason s else s)
  else hingeFwd (upExcept s p) h (.admitRef id reason) s

def execAdmitRef (t : Nat) (p : Fin 4) (h : HingeHdr) (id : DWord) (reason : Byte) :
    State → Host.Outcome State Fault Refusal := act t (hingeRx 0x16 p h (admitRefRx p h id reason))

/-- ADMIT_RESEND (R154). -/
def admitResend (cab : Bool) (s : State) : State :=
  if !s.cycling || s.hg.st ≠ .admitting then s
  else if s.hg.admitSends < 10 then admitSend { s with hg := { s.hg with cab := cab } }
  else admitRefused 0x00 s

def execAdmitResend (t : Nat) (cab : Bool) : State → Host.Outcome State Fault Refusal := act t (admitResend cab)

/-- ADMIT_REPROBE (R218): relay set A is driven again; the fresh probe follows as at power-up. -/
def admitReprobe (s : State) : State :=
  if s.cycling && s.hg.refused && s.hg.st = .unnumbered && !s.pwr.relayA then
    driveA true { s with hg := { s.hg with probed := false } }
  else s

def execAdmitReprobe (t : Nat) : State → Host.Outcome State Fault Refusal := act t admitReprobe

/-! ### The origin's amendments (R148, R150, R152) -/

/-- The cable delays a request gives: line, front side. -/
def reqDelay (r : AdmitReq) (line : Nat) (front : Bool) : Half :=
  match line, front with
  | 0, true => r.dlyAFront
  | 0, false => r.dlyARear
  | _, true => r.dlyBFront
  | _, false => r.dlyBRear

/-- A record's cable delay on a line replaced. -/
def withDelay (line : Nat) (d : Half) (r : TtrRec) : TtrRec := if line = 0 then { r with cdlyA := d } else { r with cdlyB := d }

/-- The next record behind index `i` that is active on a line takes the delay measured from its side (Table 5.8). -/
def farDelay (i line : Nat) (d : Half) (recs : List TtrRec) : List TtrRec :=
  if d = 0xFFFF || !((recs[i]?).elim false (recActive line)) then recs
  else
    match (recs.zipIdx.find? (fun e => i < e.2 && recActive line e.1)) with
    | some e => recs.modify e.2 (withDelay line d)
    | none => recs

/-- The delays of a request put on the record at `i` and on its farther neighbours. -/
def reqDelays (i : Nat) (r : AdmitReq) (recs : List TtrRec) : List TtrRec :=
  let near := !((recs[i]?).elim false (fun x => recBit x 0))
  let onB := (recs[i]?).elim false (fun x => recBit x 5)
  let recs := if i = 0 then recs
    else recs.modify i (fun x => withDelay 1 (if onB then reqDelay r 1 near else 0xFFFF) (withDelay 0 (reqDelay r 0 near) x))
  farDelay i 1 (reqDelay r 1 (!near)) (farDelay i 0 (reqDelay r 0 (!near)) recs)

/-- An `UPDATE` applied (R148). -/
def applyUpdate (r : AdmitReq) (recs : List TtrRec) : List TtrRec :=
  match recs.findIdx? (fun x => x.nodeId = r.own.nodeId) with
  | none => recs
  | some i =>
    reqDelays i r (recs.modify i (fun x =>
      { ttrRec r.own x.number.toNat (recBit x 0) (recBit x 2) x.cdlyA x.cdlyB with status := x.status }))

/-- The place of a late-comer: between its line-A neighbours; beside the one found, on its far side, when the other is
not listed; with the orientation that follows (R152). -/
def latePlace (r : AdmitReq) (recs : List TtrRec) : Nat × Bool :=
  match recs.findIdx? (fun x => x.nodeId = r.frontNbr), recs.findIdx? (fun x => x.nodeId = r.rearNbr) with
  | some a, some b => (max a b, decide (b < a))
  | some a, none => (a + 1, false)
  | none, some b => (b + 1, true)
  | none, none => (recs.length, false)

/-- Why a late-comer is not admitted (R154): 1 no free number, 2 no free spare window; else its number. -/
def lateNumber (spares : Nat) (recs : List TtrRec) : Nat ⊕ Nat :=
  match (List.range 8).find? (fun i => !recs.any (fun x => x.number.toNat = 56 + i)) with
  | none => .inl 1
  | some i => if spares ≤ (recs.filter (fun x => recBit x 2)).length then .inl 2 else .inr (56 + i)

/-- One request taken into the amendment: the records, and the refusals to send. -/
def takeRequest (spares : Nat) (acc : List TtrRec × List (DWord × Byte)) (e : DWord × AdmitReq) :
    List TtrRec × List (DWord × Byte) :=
  let r := e.2
  if r.update then (applyUpdate r acc.1, acc.2)
  else if acc.1.any (fun x => x.nodeId = r.own.nodeId) then acc
  else
    match lateNumber spares acc.1 with
    | .inl k => (acc.1, acc.2 ++ [(r.own.nodeId, BitVec.ofNat 8 k)])
    | .inr n =>
      let place := latePlace r acc.1
      (reqDelays place.1 r (acc.1.insertIdx place.1 (ttrRec r.own n place.2 true 0xFFFF 0xFFFF)), acc.2)

/-- ORIGIN_AMENDMENT (R150, R152): at most one amendment is in flight. -/
def originAmendment (s : State) : State :=
  match s.hg.ttr with
  | none => s
  | some t =>
    if !isOrigin s || s.hg.amend.isSome || s.hg.requests.isEmpty || !s.cycling then s
    else
      let spares := s.image.elim 0 (fun im => im.profile.spares.toNat)
      let r := s.hg.requests.foldl (takeRequest spares) (t.recs, [])
      let fps := s.hg.requests.foldl (fun fps e =>
        fps.filter (fun x => x.1 ≠ e.2.own.nodeId) ++ [(e.2.own.nodeId, e.2.own.profileFp)]) s.hg.fps
      let s := { s with hg := { s.hg with requests := [], fps := fps } }
      let s := r.2.foldl (fun s e => hingeOwn (upPorts s) s.hg.icount (fun _ => .admitRef e.1 e.2) s) s
      let fp := trainProfile fps r.1
      let recs := statuses s fps fp r.1
      if recs = t.recs then s
      else
        let new := { t with
          rev := t.rev + 1, flags := t.flags ||| 8, profileFp := fp, topoHash := topoHash recs, switchDly := 0
          adoptCyc := s.cyc.cyc + 16, recs := recs }
        hingeOwn (upPorts s) s.hg.icount (fun _ => .ttr new) { s with hg := { s.hg with amend := some new } }

def execOriginAmendment (t : Nat) : State → Host.Outcome State Fault Refusal := act t originAmendment

/-- At a cycle start the amendment of that cycle is adopted, before the shadows (R150). -/
def amendCycle (s : State) : State :=
  match s.hg.amend with
  | some t => if t.adoptCyc = s.cyc.cyc then amendAdopt false t s.hg.icount s else s
  | none => s

/-- The node enters `RUN`: every link at 100BASE-TX is to step (R120), and its record changes (R148) or, at the origin,
its profile (Table 5.4). -/
def hingeRun (s : State) : State :=
  let s := resettle s
  let s := ((List.range 4).filter (fun p => (s.hp p).speed = 1 && !(s.hp p).stepping)).foldl (fun s p => stepPort p s) s
  if isOrigin s && fpOf s.hg.fps s.dev.nodeId ≠ ownFp s then startOwn 0x06 s else sendUpdate s

/-- The accepted copy's hash against the own one (R133, R135). -/
def topoCheck (differs : Bool) (s : State) : State :=
  if s.hg.st ≠ .member then s
  else if !differs then { s with hg := { s.hg with hashDis := 0 } }
  else
    let s := { s with hg := { s.hg with hashDis := s.hg.hashDis + 1 } }
    if s.hg.hashDis ≠ 3 then s
    else
      let s := raise 0x100A noInst [] s
      let recent := s.hg.hashStarts.filter (fun t => s.now < t + 60000000000)
      if s.hg.hashMuted then s
      else if 3 ≤ recent.length then
        raise 0x100B noInst [] { s with hg := { s.hg with hashMuted := true, hashStarts := recent } }
      else startOwn 0x05 { s with hg := { s.hg with hashStarts := recent ++ [s.now] } }

end Sys2Proof.Machine
end

