-- ==== Sys2Proof/Machine/Power.lean ====
section
/-! DEFINITION. Meanings of the power family: power entry and removal (02), clocks, wake failures, warm reset end,
counters (03), and the wake flood (10). An event that the manual does not let occur in the present state changes nothing
(log 2). -/

namespace Sys2Proof.Machine

/-- The node is in a state in which removal and supply loss start the flush (R33). -/
def flushable (s : State) : Bool := s.awake

/-- SEATED_CONFIRM (R31, R36): the node leaves `OFF`. -/
def seatedConfirm (s : State) : State :=
  if s.pwr.node = .off then wakeFromOff { s with pwr := { s.pwr with seated := true, bat := true } } else s

def execSeatedConfirm (t : Nat) : State → Host.Outcome State Fault Refusal := act t seatedConfirm

/-- REMOVAL (R33, R37). -/
def removal (s : State) : State :=
  let s := { s with pwr := { s.pwr with seated := false } }
  if flushable s then startFlush 0x0101 s
  else if s.pwr.node = .sleep || s.pwr.node = .waking then goOff 5 s else s

def execRemoval (t : Nat) : State → Host.Outcome State Fault Refusal := act t removal

/-- SUPPLY_LOSS (R44, R37, R354). -/
def supplyLoss (s : State) : State :=
  if flushable s then startFlush 0x0102 { s with pwr := { s.pwr with bat := false } } else s

def execSupplyLoss (t : Nat) : State → Host.Outcome State Fault Refusal := act t supplyLoss

/-- FLUSH_DONE (R34, R36): the flush has written what R34 lists and its completion mark; the node enters `OFF`. -/
def flushDone (s : State) : State :=
  match s.pwr.flush with
  | some f => goOff 6 (flushWrite f s)
  | none => s

def execFlushDone (t : Nat) : State → Host.Outcome State Fault Refusal := act t flushDone

/-- CONVERTER_STOP (R43, Table 3.4): the hold-up bus takes over, and a sleeping or waking node enters `OFF`. -/
def converterStop (s : State) : State :=
  let s := { s with pwr := { s.pwr with bat := false } }
  if s.pwr.node = .sleep || s.pwr.node = .waking then goOff 7 s else s

def execConverterStop (t : Nat) : State → Host.Outcome State Fault Refusal := act t converterStop

/-- The capacitance is low for the class declared (R48, R356). -/
def holdupLow (s : State) (uF : Nat) : Bool :=
  uF < 500 || (s.image.elim false (fun im => im.node.huClass = 1) && uF < 900)

/-- HOLDUP_MEASURE (R48, R356). -/
def holdupMeasure (uF : Half) (s : State) : State :=
  if s.pwr.node = .off || s.pwr.node = .sleep then s
  else if holdupLow s uF.toNat then
    raise 0x0106 noInst [] { s with pwr := { s.pwr with holdup := uF.setWidth 17 ||| 0x10000 } }
  else { s with pwr := { s.pwr with holdup := uF.setWidth 17 } }

def execHoldupMeasure (t : Nat) (uF : Half) : State → Host.Outcome State Fault Refusal := act t (holdupMeasure uF)

/-- RELAY_SENSE_MISMATCH (R41): the sense input disagrees with the drive; the node changes no drive. -/
def relaySenseMismatch (line : Line) (s : State) : State :=
  if s.pwr.node = .off || s.pwr.node = .sleep then s
  else match line with
    | .a => raise 0x0104 noInst [] { s with pwr := { s.pwr with misA := true, senseA := s.pwr.relayA } }
    | .b => raise 0x0105 noInst [] { s with pwr := { s.pwr with misB := true, senseB := s.pwr.relayB } }

def execRelaySenseMismatch (t : Nat) (line : Line) : State → Host.Outcome State Fault Refusal :=
  act t (relaySenseMismatch line)

/-- POWER_GOOD (R61): the PLL is enabled for its first lock attempt. -/
def powerGood (s : State) : State :=
  if s.pwr.node = .waking && s.pwr.regOn && !s.pwr.pllOn && s.pwr.pllAttempts = 0 then
    setDomain 1 .on { s with pwr := { s.pwr with pllOn := true, pllAttempts := 1 } }
  else s

def execPowerGood (t : Nat) : State → Host.Outcome State Fault Refusal := act t powerGood

/-- The third attempt has timed out (R76): latch with the counters at the failure, wake-failure count, `WAKE_FAIL#`,
back to `SLEEP`. -/
def wakeFailure (s : State) : State :=
  goSleep 8 { s with pwr := { s.pwr with
    pgLatch := true, wfSec := s.pwr.opsec, wfPcyc := s.pwr.pcyc, wfAttempts := 3
    wfCount := satInc s.pwr.wfCount, wakeFailPin := true } }

/-- POWER_GOOD_TIMEOUT (R76). -/
def powerGoodTimeout (s : State) : State :=
  if s.pwr.node = .waking && s.pwr.regOn && s.pwr.pllAttempts = 0 then
    let s := { s with pwr := { s.pwr with regOn := false } }
    if s.pwr.regAttempts < 3 then s else wakeFailure s
  else s

def execPowerGoodTimeout (t : Nat) : State → Host.Outcome State Fault Refusal := act t powerGoodTimeout

/-- REGULATOR_ATTEMPT (R76). -/
def regulatorAttempt (s : State) : State :=
  if s.pwr.node = .waking && !s.pwr.regOn && 1 ≤ s.pwr.regAttempts && s.pwr.regAttempts < 3 then regulatorStart s else s

def execRegulatorAttempt (t : Nat) : State → Host.Outcome State Fault Refusal := act t regulatorAttempt

/-- PLL_LOCKED (R61, Table 3.4). -/
def pllLocked (s : State) : State :=
  if s.pwr.node = .waking && s.pwr.pllOn then goBringup s else s

def execPllLocked (t : Nat) : State → Host.Outcome State Fault Refusal := act t pllLocked

/-- PLL_LOCK_TIMEOUT (R61, R78). -/
def pllLockTimeout (s : State) : State :=
  if s.pwr.node = .waking && s.pwr.pllOn then
    if s.pwr.pllAttempts < 3 then { s with pwr := { s.pwr with pllOn := false } } else goLimp s
  else s

def execPllLockTimeout (t : Nat) : State → Host.Outcome State Fault Refusal := act t pllLockTimeout

/-- PLL_RETRY (R61). -/
def pllRetry (s : State) : State :=
  if s.pwr.node = .waking && s.pwr.regOn && !s.pwr.pllOn && 1 ≤ s.pwr.pllAttempts && s.pwr.pllAttempts < 3 then
    { s with pwr := { s.pwr with pllOn := true, pllAttempts := s.pwr.pllAttempts + 1 } }
  else s

def execPllRetry (t : Nat) : State → Host.Outcome State Fault Refusal := act t pllRetry

/-- The copies slow reads return while `SLOW_CLK` is stopped (R60, R459). -/
def slowCopies (p : Pwr) : SlowCopy :=
  ⟨p.opsec, p.pcyc, wakeSrcWord p.wakeSrc,
   w32 (p.wfAttempts.toNat * 2 ^ 10 + (if p.qcut then 2 ^ 9 else 0) + (if p.pgLatch then 2 ^ 8 else 0) + p.wfCount.toNat),
   p.wfSec, p.wfPcyc⟩

/-- The clock monitor works: the PLL serves the node. -/
def clocked (s : State) : Bool := s.awake && s.pwr.node ≠ .limp

/-- PLL_LOCK_LOSS (R59, R60): event 0x0203 with the crystal-stop cause bit; `SLOW_CLK` stops with the crystal. -/
def pllLockLoss (deviation : Half) (stopped : Bool) (s : State) : State :=
  if clocked s && s.pwr.locked then
    let s := { s with pwr := { s.pwr with
      locked := false, losses := satInc s.pwr.losses, clkDev := deviation, lockLost := true, lockCycles := 0
      xtal := s.pwr.xtal && !stopped
      slowHeld := if stopped then some (slowCopies s.pwr) else s.pwr.slowHeld } }
    raise 0x0203 noInst [if stopped then 1 else 0] s
  else s

def execPllLockLoss (t : Nat) (deviation : Half) (stopped : Bool) : State → Host.Outcome State Fault Refusal :=
  act t (pllLockLoss deviation stopped)

/-- PLL_LOCK_REGAINED (R59). -/
def pllLockRegained (s : State) : State :=
  if clocked s && !s.pwr.locked then
    raise 0x0204 noInst [] { s with pwr := { s.pwr with locked := true, lockCycles := 0, xtal := true, slowHeld := none } }
  else s

def execPllLockRegained (t : Nat) : State → Host.Outcome State Fault Refusal := act t pllLockRegained

/-- DOMAIN_SWITCH_TIMEOUT (R68): recorded while the domain is not at its commanded level; the level stays commanded. -/
def domainSwitchTimeout (d : Nat) (s : State) : State :=
  if d < 128 && (s.dom d).act ≠ domTarget s d (s.dom d) then raise 0x0207 d [w32 d] s else s

def execDomainSwitchTimeout (t : Nat) (d : Nat) : State → Host.Outcome State Fault Refusal := act t (domainSwitchTimeout d)

/-- DOMAIN_SETTLED (R64, R543): the domain reaches its commanded level. -/
def domainSettled (d : Nat) (s : State) : State :=
  if planned d && s.running && (s.dom d).act ≠ domTarget s d (s.dom d) then reach d (domTarget s d (s.dom d)) s else s

def execDomainSettled (t : Nat) (d : Nat) : State → Host.Outcome State Fault Refusal := act t (domainSettled d)

/-- NO_IMAGE_TIMEOUT (R71). -/
def noImageTimeout (s : State) : State :=
  if s.pwr.node = .bringup && s.nv.ver.admitted = none && !s.pwr.noImage then
    raise 0x0205 noInst [] { s with pwr := { s.pwr with noImage := true } }
  else s

def execNoImageTimeout (t : Nat) : State → Host.Outcome State Fault Refusal := act t noImageTimeout

/-- WARM_RESET_END (R79): `WAKING` goes on at the PLL step with three fresh attempts. -/
def warmResetEnd (s : State) : State :=
  if s.pwr.warmOff then
    setDomain 1 .on { s with pwr := { s.pwr with warmOff := false, regOn := true, pllOn := true, pllAttempts := 1 } }
  else s

def execWarmResetEnd (t : Nat) : State → Host.Outcome State Fault Refusal := act t warmResetEnd

/-- SLEEP_MIN_DWELL (R72, R299). -/
def sleepMinDwell (s : State) : State :=
  if s.pwr.node = .sleep then sleepLeave { s with pwr := { s.pwr with sleepDwelt := true } } else s

def execSleepMinDwell (t : Nat) : State → Host.Outcome State Fault Refusal := act t sleepMinDwell

/-- The NV writes of the quiesce sequence are through (Table 10.2). -/
def quiesceDrained (s : State) : Bool :=
  s.nv.op = none && s.lg.incBuf.isEmpty && s.nv.cfgQ.isEmpty && (jnvDue false s.lg.execQ).isNone

/-- QUIESCE_DONE (R296). -/
def quiesceDone (s : State) : State :=
  if s.pwr.node = .quiesce && s.pwr.flush = none && quiesceDrained s then goSleep 9 s else s

def execQuiesceDone (t : Nat) : State → Host.Outcome State Fault Refusal := act t quiesceDone

/-- QUIESCE_CUT (R73): an NV operation in progress is cut. -/
def quiesceCut (s : State) : State :=
  if s.pwr.node = .quiesce && s.pwr.flush = none then
    goSleep 10 (nvCut { s with pwr := { s.pwr with qcut := true } })
  else s

def execQuiesceCut (t : Nat) : State → Host.Outcome State Fault Refusal := act t quiesceCut

/-- OPSEC_TICK (R81, R536): saturating, outside `OFF` and `SLEEP`. -/
def opsecTick (s : State) : State :=
  if s.pwr.node = .off || s.pwr.node = .sleep then s
  else { s with pwr := { s.pwr with opsec := satInc s.pwr.opsec } }

def execOpsecTick (t : Nat) : State → Host.Outcome State Fault Refusal := act t opsecTick

/-- CFG_STORE (R81, R504): operating seconds and the next journal number, without the clean mark. -/
def cfgStore (s : State) : State :=
  if s.awake && s.pwr.flush = none then
    { s with nv := { s.nv with cfgQ := s.nv.cfgQ ++ [{ opsec := some s.pwr.opsec, n := some s.lg.jseq, clean := false }] } }
  else s

def execCfgStore (t : Nat) : State → Host.Outcome State Fault Refusal := act t cfgStore

/-! ### Wake sources and the wake flood (10) -/

/-- WAKE_IN_DETECT (R297). -/
def wakeInDetect (s : State) : State := wakeLatched ⟨0x01, 0, 0, 0⟩ { s with pwr := { s.pwr with wakeIn := true } }

def execWakeInDetect (t : Nat) : State → Host.Outcome State Fault Refusal := act t wakeInDetect

/-- WAKE_CHANNEL_DETECT (R297, R298). In `QUIESCE` the image's wake channel counts (R72). -/
def wakeChannelDetect (s : State) : State :=
  let armed := match s.pwr.node, s.image with
    | .quiesce, some im => if im.node.wakeCh.toNat < 32 then some im.node.wakeCh.toNat else none
    | _, _ => s.pwr.wakeChArmed
  match armed with
  | some c => wakeLatched ⟨0x02, BitVec.ofNat 5 c, 0, 0⟩ s
  | none => s

def execWakeChannelDetect (t : Nat) : State → Host.Outcome State Fault Refusal := act t wakeChannelDetect

/-- The bits of a wake burst (R301). -/
def wakeBurst : Word := 0x6C3B04FB

/-- BURST_RECEIVED (R300, R302, R304): a burst counts only with its sync word and check byte, and only where the tap is
armed or listens. -/
def burstReceived (burst : Word) (s : State) : State :=
  if burst ≠ wakeBurst || !s.pwr.tapArmed then s
  else if s.pwr.node = .sleep && s.pwr.flood = .listen then
    sleepLeave { s with pwr := { s.pwr with flood := .bursts, burstsLeft := 3, relaying := true } }
  else wakeLatched ⟨0x04, 0, 0, 0⟩ s

def execBurstReceived (t : Nat) (burst : Word) : State → Host.Outcome State Fault Refusal := act t (burstReceived burst)

/-- LINE_CHECK_END (R300, R304). -/
def lineCheckEnd (activity pulses : Bool) (s : State) : State :=
  if s.pwr.node = .sleep && s.pwr.flood = .check then
    let byBurst := s.pwr.wakeLatch.elim false (fun w => w.cause = 0x04)
    if activity then sleepLeave { s with pwr := { s.pwr with lineActive := true, flood := .none } }
    else if byBurst then
      sleepLeave { s with pwr := { s.pwr with flood := .bursts, burstsLeft := 3, relaying := true } }
    else if pulses then { s with pwr := { s.pwr with flood := .listen } }
    else sleepLeave { s with pwr := { s.pwr with flood := .bursts, burstsLeft := 3, relaying := false } }
  else s

def execLineCheckEnd (t : Nat) (activity pulses : Bool) : State → Host.Outcome State Fault Refusal :=
  act t (lineCheckEnd activity pulses)

/-- BURST_LISTEN_TIMEOUT (R300): the node enters `WAKING` as an initiator. -/
def burstListenTimeout (s : State) : State :=
  if s.pwr.node = .sleep && s.pwr.flood = .listen then
    sleepLeave { s with pwr := { s.pwr with flood := .bursts, burstsLeft := 3, relaying := false } }
  else s

def execBurstListenTimeout (t : Nat) : State → Host.Outcome State Fault Refusal := act t burstListenTimeout

/-- WAKE_BURST_SEND (R300, R301). -/
def wakeBurstSend (s : State) : State :=
  if (s.pwr.node = .waking || s.pwr.node = .bringup) && s.pwr.flood = .bursts && s.pwr.burstsLeft ≠ 0 then
    let s := { s with pwr := { s.pwr with
      burstsLeft := s.pwr.burstsLeft - 1, flood := if s.pwr.burstsLeft = 1 then .quiet else .bursts } }
    emit (.burst wakeBurst) s
  else s

def execWakeBurstSend (t : Nat) : State → Host.Outcome State Fault Refusal := act t wakeBurstSend

/-- BURST_QUIET (R300, R218): relay set A is driven, at `BRINGUP` entry or later. -/
def burstQuiet (s : State) : State :=
  if s.pwr.flood = .quiet then
    let s := { s with pwr := { s.pwr with flood := .none } }
    if s.pwr.relayAWaits && s.cycling then driveA true { s with pwr := { s.pwr with relayAWaits := false } } else s
  else s

def execBurstQuiet (t : Nat) : State → Host.Outcome State Fault Refusal := act t burstQuiet

end Sys2Proof.Machine
end

