-- ==== Sys2Proof/Machine/Eq.lean ====
section
/-! DEFINITION. The equipment ports (09): links, the receive decision, transmission, pause; and the host's pool
operations (16). -/

namespace Sys2Proof.Machine

/-! ### Links (R258-R261) -/

/-- PHY and MAC of a port are `ON` in `RUN` or `NOCORE` with the Shutter not `CLOSED` (R261). -/
def eqPowered (s : State) (n : Nat) : Bool :=
  s.running && s.sh.st ≠ .closed && (s.dom (26 + n)).act = .on && (s.dom (30 + n)).act = .on

/-- EQ_LINK_UP (R258, R276): speed 0 10, 1 100, 2 1000 Mbit/s. -/
def eqLinkUp (n speed : Nat) (s : State) : State :=
  if eqPowered s n && (s.eqp n).link = 0 && (eqCfg s n).elim false (fun c => c.speedMask.getLsbD speed) then
    let s := eqMod n (fun p => { p with link := speed + 1 }) s
    pfcCheck n (raise 0x4000 n [w32 n, Config.eventItem 0x4000 speed] s)
  else s

def execEqLinkUp (t : Nat) (n : Fin 4) (speed : Fin 3) : State → Host.Outcome State Fault Refusal :=
  act t (eqLinkUp n.val speed.val)

/-- EQ_LINK_DOWN (R260). -/
def execEqLinkDown (t : Nat) (n : Fin 4) : State → Host.Outcome State Fault Refusal := act t (eqLinkLost n.val)

/-- EQ_AUTONEG_FAIL (R259). -/
def eqAutonegFail (n : Nat) (s : State) : State :=
  if eqPowered s n && (s.eqp n).link = 0 then raise 0x4002 n [] s else s

def execEqAutonegFail (t : Nat) (n : Fin 4) : State → Host.Outcome State Fault Refusal := act t (eqAutonegFail n.val)

/-! ### The receive decision (R262-R268, Table 9.2) -/

/-- Active `WS` values at an instant (R264: a decision under way keeps the values in force at its SFD). -/
def wsAt (s : State) (at_ : Nat) : List (Nat × Word) :=
  match s.rg.wsHist.find? (fun h => at_ < h.1) with
  | some h => h.2
  | none => s.rg.ws

/-- A frame carries a C-tag (R265). -/
def tagged (f : Bytes) : Bool := field f 12 2 = 0x8100

/-- Length with FCS within R257. -/
def eqLengthOk (f : Bytes) : Bool :=
  let l := f.length + 4
  if tagged f then 68 ≤ l && l ≤ 1522 else 64 ≤ l && l ≤ 1518

/-- The hash index of a destination (R263). -/
def hashIndex (dest : Bytes) : Nat := (crc32 dest).toNat / 2 ^ 23

/-- The consumer that rows 4-7 of Table 9.2 give, and whether a perfect-match entry did. -/
def eqDecide (ws : List (Nat × Word)) (c : EqCfg) (n : Nat) (f : Bytes) : Option (Nat × Bool) :=
  let dest := f.take 6
  let base := 0x3800 + 0x100 * n
  let w (o : Nat) : Nat := (smGet 0 ws (base + o)).toNat
  let pm := (List.range 8).findSome? (fun k =>
    let hi := w (0x80 + 8 * k)
    if hi / 0x10000 % 2 = 1 && (hi % 0x10000) * 2 ^ 32 + w (0x84 + 8 * k) = beNat dest then some (hi / 0x20000 % 4)
    else none)
  match pm with
  | some c => some (c, true)
  | none =>
    let ctl := w 0x40
    let i := hashIndex dest
    if beNat dest = 0xFFFFFFFFFFFF && ctl % 2 = 1 then some (c.consBcast.toNat, false)
    else if field f 0 1 % 2 = 1 && w (0xC0 + 4 * (i / 32)) / 2 ^ (i % 32) % 2 = 1 then some (c.consHash.toNat, false)
    else if ctl / 2 % 2 = 1 then some (c.consProm.toNat, false)
    else none

/-- A frame dropped with event 0x4003 (R268): reason 1 quota, 2 pool, 3 consumer, 4 link, 5 disabled (log 21). -/
def rxDropped (n reason : Nat) (s : State) : State :=
  raise 0x4003 n [w32 n, Config.eventItem 0x4003 reason] (eqMod n (fun p => { p with rxDrop := p.rxDrop + 1 }) s)

/-- A MAC Control frame (R274). -/
def macControl (n : Nat) (f : Bytes) (s : State) : State :=
  let op := field f 14 2
  let set (g : Nat → Nat → Nat) (s : State) : State :=
    eqMod n (fun p => { p with
      pauseRx := p.pauseRx + 1
      pause := if p.off then p.pause else (List.range 8).map (fun q => g q (p.pause.getD q 0)) }) s
  if op = 0x0001 then eqStart n (set (fun _ _ => field f 16 2) s)
  else if op = 0x0101 then
    eqStart n (set (fun q old => if field f 17 1 / 2 ^ q % 2 = 1 then field f (18 + 2 * q) 2 else old) s)
  else eqMod n (fun p => { p with rxErr := p.rxErr + 1 }) s

/-- Buffers a frame of a port can get before R268 stops it: the count and the reason, 1 quota or 2 pool. -/
def rxStop (s : State) (n q need : Nat) : Option (Nat × Nat) :=
  let u := charged s n
  (List.range need).findSome? (fun i =>
    if q ≤ u + i then some (i, 1) else if s.pool.free.length ≤ i then some (i, 2) else none)

/-- The MAC gives the buffers of a dropped frame back (R268). -/
def rxReturn (i : Nat) (s : State) : State :=
  { s with pool := { s.pool with free := s.pool.free.drop i ++ ascending (s.pool.free.take i) } }

/-- An accepted frame in its chain is handed to its consumer: 0 Shutter, 1 core queue, 2 host (R266, R463). -/
def rxHandOver (n consumer : Nat) (inband : Bool) (f : Bytes) (bs : List Nat) (b : Nat) (s : State) : State :=
  let p := s.eqp n
  let ok (s : State) : State :=
    eqMod n (fun p => { p with rxOk := p.rxOk + 1, rxBytes := p.rxBytes + BitVec.ofNat 64 (f.length + 4) }) s
  if inband then
    let d := chainData s bs
    pduArrive .e0 (BitVec.ofNat 48 (field d 6 6)) (d.drop 16) (chainFree bs (ok s))
  else if consumer = 0 then
    shToBackbone false n ((s.buf b).tci.setWidth 12) b (chainOwner 0x3C bs (ok s))
  else if consumer = 1 then
    if 64 ≤ p.coreQ.length then coreQueueFull n b (rxDropped n 3 s)
    else eqMod n (fun p => { p with coreQ := p.coreQ ++ [b] }) (chainOwner (queueCore s) bs (ok s))
  else if 64 ≤ p.hostQ.length then chainFree bs (rxDropped n 3 s)
  else eqMod n (fun p => { p with hostQ := p.hostQ ++ [b] }) (chainOwner 0x38 bs (ok s))

/-- An accepted frame is stored (R265-R268, R278). -/
def rxStore (n consumer : Nat) (pm : Bool) (c : EqCfg) (dpri : Nat) (f : Bytes) (sfd : Nat) (s : State) : State :=
  let d := if tagged f then f.take 12 ++ f.drop 16 else f
  let need := bufsFor d.length
  match rxStop s n c.quota need with
  | some (i, reason) =>
    let s := rxReturn i s
    rxDropped n reason (if reason = 2 then poolEmpty s else s)
  | none =>
    let flags := fRxq ||| BitVec.ofNat 8 (64 * n) ||| (if tagged f then fTagged else 0)
    let r := poolAlloc need (BitVec.ofNat 8 (1 + n)) flags s
    match r.2.head? with
    | none => r.1
    | some b =>
      let s := chainFill r.2 d r.1
      let tci : Half := if tagged f then BitVec.ofNat 16 (field f 14 2) else BitVec.ofNat 16 (dpri * 8192)
      let s := bufMod b (fun x => { x with
        tci := tci, tstamp := ttNow s - BitVec.ofNat 64 (s.now - sfd)
        flags := x.flags ||| (if s.cyc.mode.valid then fTsValid else 0) }) s
      let inband := n = 0 && pm && consumer = 2 && field d 12 4 = 0x88B50301
      rxHandOver n consumer inband f r.2 b s

/-- EQ_FRAME_RX (R262): the frame ends at the command's instant. -/
def eqFrameRx (n : Nat) (f : Bytes) (fcsGood : Bool) (s : State) : State :=
  let p := s.eqp n
  match eqCfg s n with
  | none => s
  | some c =>
    let sfd := s.now - (f.length + 4) * byteNs p.link
    if p.link = 0 then (if eqPowered s n && p.downAt = s.now then rxDropped n 4 s else s)
    else if !fcsGood || !eqLengthOk f then eqMod n (fun p => { p with rxErr := p.rxErr + 1 }) s
    else if field f 12 2 = 0x8808 then macControl n f s
    else if p.off then
      if sfd < p.offAt then rxDropped n 5 s else eqMod n (fun p => { p with rxDrop := p.rxDrop + 1 }) s
    else
      let ws := wsAt s sfd
      match eqDecide ws c n f with
      | none => eqMod n (fun p => { p with rxFilt := p.rxFilt + 1 }) s
      | some (consumer, pm) =>
        let dpri := (smGet 0 ws (0x3840 + 0x100 * n)).toNat / 4 % 8
        pfcAll (rxStore n consumer pm c dpri f sfd s)

def execEqFrameRx (t : Nat) (n : Fin 4) (f : Bytes) (fcsGood : Bool) : State → Host.Outcome State Fault Refusal :=
  act t (eqFrameRx n.val f fcsGood)

/-! ### Transmission and pause (R272-R275) -/

/-- EQ_TX_DONE (R272, R273): the chain is free; a PFC frame goes before the next frame. -/
def eqTxDone (n : Nat) (s : State) : State :=
  match (s.eqp n).tx with
  | none => s
  | some (_, b) =>
    let bs := chainOf s b
    let us := chainUnits s bs
    let bad := us.any (fun u => unitErr s u = some true)
    let len := (txFrame s bs).length + 4
    let s := unitsRead us s
    let s := eqMod n (fun p => { p with tx := none }) s
    let s :=
      if bad then eqMod n (fun p => { p with txDrop := p.txDrop + 1 }) (poolUncorr s)
      else eqMod n (fun p => { p with txOk := p.txOk + 1, txBytes := p.txBytes + BitVec.ofNat 64 len }) s
    eqStart n (chainFree bs s)

def execEqTxDone (t : Nat) (n : Fin 4) : State → Host.Outcome State Fault Refusal := act t (eqTxDone n.val)

/-- PAUSE_TIMER_EXPIRY (R274). -/
def pauseExpiry (n q : Nat) (s : State) : State := eqStart n (eqMod n (fun p => { p with pause := p.pause.set q 0 }) s)

def execPauseTimerExpiry (t : Nat) (n : Fin 4) (q : Fin 8) : State → Host.Outcome State Fault Refusal :=
  act t (pauseExpiry n.val q.val)

/-- PFC_REFRESH (R275): the pause frame again, 8 ms after the last. -/
def pfcRefresh (n : Nat) (s : State) : State :=
  let p := s.eqp n
  match eqCfg s n with
  | none => s
  | some c => if p.link ≠ 0 && p.pfc && !p.off then pfcSend n c.pfcMask 0xFFFF s else s

def execPfcRefresh (t : Nat) (n : Fin 4) : State → Host.Outcome State Fault Refusal := act t (pfcRefresh n.val)

/-- A stamp FIFO loses its head (R487). -/
def stampPop (n : Nat) (s : State) : State := eqMod n (fun p => { p with stamps := p.stamps.drop 1 }) s

/-- TXTS_POP. -/
def txtsPop (n : Nat) (s : State) : State := if s.awake then stampPop n s else s

def execTxtsPop (t : Nat) (n : Fin 4) : State → Host.Outcome State Fault Refusal := act t (txtsPop n.val)

/-! ### The host's pool operations (R471, Table 16.6) -/

/-- `EQ_HOST_RES` of an operation. -/
def hostRes (code buf : Nat) (s : State) : State :=
  { s with pool := { s.pool with hostRes := w32 (0x80000000 + buf % 4096 * 65536 + code) } }

/-- The operation `EQ_HOST_ARG` names, started by `EQ_HOST_GO`. -/
def poolOp (s : State) : State :=
  let a := s.pool.hostArg.toNat
  let op := a / 0x10000 % 16
  let n := a / 0x100000 % 8
  let buf := a % 4096
  let port := a / 0x1000000 % 4
  if op = 1 then
    let r := poolAlloc (if n = 0 then 8 else n) 0x38 0 s
    match r.2.head? with
    | none => hostRes 5 0 r.1
    | some b => hostRes 0 b r.1
  else if op = 2 then
    let r := freeChain buf 0x38 s
    hostRes r.2 0 r.1
  else if op = 3 then
    let r := postChain buf 0x38 port n s
    hostRes (if r.2 = 0 then 0 else 10 + r.2) 0 r.1
  else if op = 4 then
    match (s.eqp port).hostQ with
    | [] => hostRes 6 0 s
    | b :: r => hostRes 0 b (eqMod port (fun p => { p with hostQ := r }) s)
  else hostRes 7 0 s

/-- The host writes `EQ_HOST_ARG` and pulses `EQ_HOST_GO`. -/
def hostGo (arg : Nat) (s : State) : State :=
  if s.awake then poolOp { s with pool := { s.pool with hostArg := w32 arg } } else s

/-- HOST_ALLOC: n of 0 requests 8 buffers. -/
def execHostAlloc (t : Nat) (n : BitVec 3) : State → Host.Outcome State Fault Refusal :=
  act t (hostGo (0x10000 + n.toNat * 0x100000))

/-- HOST_FREE. -/
def execHostFree (t : Nat) (buf : BitVec 12) : State → Host.Outcome State Fault Refusal :=
  act t (hostGo (0x20000 + buf.toNat))

/-- HOST_POST. -/
def execHostPost (t : Nat) (buf : BitVec 12) (port : Fin 4) (q : Fin 8) : State → Host.Outcome State Fault Refusal :=
  act t (hostGo (0x30000 + buf.toNat + q.val * 0x100000 + port.val * 0x1000000))

/-- HOST_TAKE. -/
def execHostTake (t : Nat) (port : Fin 4) : State → Host.Outcome State Fault Refusal :=
  act t (hostGo (0x40000 + port.val * 0x1000000))

/-- HOST_OP_INVALID: an `OP` that Table 16.6 does not list. -/
def hostOpInvalid (op : BitVec 4) (s : State) : State :=
  if 1 ≤ op.toNat && op.toNat ≤ 4 then s else hostGo (op.toNat * 0x10000) s

def execHostOpInvalid (t : Nat) (op : BitVec 4) : State → Host.Outcome State Fault Refusal := act t (hostOpInvalid op)

end Sys2Proof.Machine
end

