-- ==== Sys2Proof/Machine/Jnis.lean ====
section
/-! DEFINITION. JNIS (13): the execution of one instruction of the running task, flags, loops, and the meanings of the
ALU, memory, control and assertion instructions. A command is the instruction that stands at the pc of the core in
control (notes/assumptions/30.md). -/

namespace Sys2Proof.Machine

/-! ### Registers and flags -/

/-- g[x]; `g0` reads 0 (R371). -/
def reg (c : Core) (x : BitVec 5) : Word := if x = 0 then 0 else c.regs.getD x.toNat 0

/-- A register write; one to `g0` is discarded (R371). -/
def regPut (x : BitVec 5) (v : Word) (c : Core) : Core :=
  if x = 0 then c else { c with regs := c.regs.set x.toNat v }

/-- set_zn (R372). -/
def setZn (r : Word) (c : Core) : Core := { c with z := r = 0, n := r.msb }

/-- set_add (R372). -/
def setAdd (x y : Word) (c : Core) : Core :=
  let r := x + y
  { setZn r c with c := decide (2 ^ 32 ≤ x.toNat + y.toNat), v := x.msb = y.msb && r.msb ≠ x.msb }

/-- set_sub (R372). -/
def setSub (x y : Word) (c : Core) : Core :=
  let r := x - y
  { setZn r c with c := decide (y.toNat ≤ x.toNat), v := x.msb ≠ y.msb && r.msb ≠ x.msb }

/-- The result of a shift by `n` (R376, R378): 0 left, 1 right zero fill, 2 right sign fill, 3 rotate right. -/
def shifted (kind : Nat) (x : Word) (n : Nat) : Word :=
  if kind = 0 then x <<< n else if kind = 1 then x >>> n else if kind = 2 then x.sshiftRight n else x.rotateRight n

/-- The last bit shifted out or rotated (R376, R378). -/
def shiftCarry (kind : Nat) (x : Word) (n : Nat) : Bool := if kind = 0 then x.getLsbD (32 - n) else x.getLsbD (n - 1)

/-- A shift with its flags; a shift by 0 leaves C unchanged (R377). -/
def shiftOp (kind : Nat) (d : BitVec 5) (x : Word) (n : Nat) (c : Core) : Core :=
  let r := shifted kind x n
  let c := setZn r (regPut d r c)
  if n = 0 then c else { c with c := shiftCarry kind x n }

/-- A branch condition (Table 13.3). -/
def condHolds (cond : Nat) (c : Core) : Bool :=
  match cond with
  | 0 => true
  | 1 => c.z
  | 2 => !c.z
  | 3 => c.n ≠ c.v
  | 4 => c.n = c.v
  | 5 => !c.c
  | 6 => c.c
  | 7 => c.v
  | 8 => !c.v
  | 9 => c.n
  | 10 => !c.n
  | _ => false

/-! ### Executing one instruction -/

/-- The running task of the core in control. -/
def runningTask (s : State) : Option (Core × TaskRun) :=
  match activeCore s with
  | none => none
  | some c => c.task.map (fun t => (c, t))

/-- The running task's elapsed count changes. -/
def taskTime (e : Nat) (s : State) : State := activeMod (fun c => { c with task := c.task.map (fun t => { t with e := e }) }) s

/-- The edge 4 × `e` ns after the task's start is now (R370). -/
def atEdge (t : TaskRun) (e : Nat) (s : State) : State :=
  { s with cyc := { s.cyc with phase := max s.cyc.phase (t.start + 4 * e - s.cyc.base) } }

/-- Iteration ends after an instruction that continues from index P (R381, R382): the loop stack and pc, and the cycles
they take. The fuel is the depth of the loop stack. -/
def iterEnds : Nat → Nat → Core → Nat × Core
  | 0, _, c => (0, c)
  | fuel + 1, p, c =>
    match c.loops with
    | [] => (0, c)
    | l :: rest =>
      if l.stop ≠ p || l.level ≠ c.rets.length then (0, c)
      else if 1 < l.left then (1, { c with loops := { l with left := l.left - 1 } :: rest, pc := l.start })
      else
        let r := iterEnds fuel p { c with loops := rest, pc := p + 1 }
        (r.1 + 1, r.2)

/-- An instruction that continues at P + 1 is through (R381); continuing past index 65,535 yields (R374). -/
def continueFrom (p : Nat) (s : State) : State :=
  match runningTask s with
  | none => s
  | some (c, t) =>
    let r := iterEnds 5 p { c with pc := p + 1 }
    let s := taskTime (t.e + r.1) (activeMod (fun _ => r.2) s)
    if 65535 < r.2.pc then yieldAt 0x03 p t.entry s else s

/-- An instruction of `n` cycles (R370): it takes effect at the edge that ends its last cycle, unless the budget watchdog
acts first (R93). `f` is the effect on the whole state. -/
def instr (n : Nat) (f : Core → State → State) (s : State) : State :=
  match runningTask s with
  | none => s
  | some (c, t) =>
    if t.budget < t.e + n then s else f c (taskTime (t.e + n) (atEdge t (t.e + n) s))

/-- An instruction with an illegal encoding (R369) yields with cause 0x01. -/
def legal (ok : Bool) (f : Core → State → State) (c : Core) (s : State) : State := if ok then f c s else yieldNow 0x01 s

/-- An instruction whose effect lies in the core and that continues at the next index. -/
def coreOp (f : Core → Core) (c : Core) (s : State) : State := continueFrom c.pc (activeMod f s)

/-- A group of `k` destination registers is legal (R371). -/
def groupOk (k : Nat) (d : BitVec 5) : Bool := k ≤ 1 || (1 ≤ d.toNat && d.toNat ≤ 31 - k)

/-- The meaning of an instruction. -/
def actJ (f : State → State) : State → Host.Outcome State Fault Refusal := act 0 f

/-! ### ALU (R376-R378) -/

/-- g[d] = r with set_zn. -/
def putZn (d : BitVec 5) (r : Word) (c : Core) : Core := setZn r (regPut d r c)

/-- A register ALU instruction. -/
def alu (n : Nat) (f : Word → Word → Core → Core) (a b : BitVec 5) : State → State :=
  instr n (fun c => coreOp (f (reg c a) (reg c b)) c)

/-- ADD. -/
def execAdd (d a b : BitVec 5) : State → Host.Outcome State Fault Refusal :=
  actJ (alu 1 (fun x y c => setAdd x y (regPut d (x + y) c)) a b)

/-- SUB. -/
def execSub (d a b : BitVec 5) : State → Host.Outcome State Fault Refusal :=
  actJ (alu 1 (fun x y c => setSub x y (regPut d (x - y) c)) a b)

/-- AND. -/
def execAnd (d a b : BitVec 5) : State → Host.Outcome State Fault Refusal :=
  actJ (alu 1 (fun x y => putZn d (x &&& y)) a b)

/-- OR. -/
def execOr (d a b : BitVec 5) : State → Host.Outcome State Fault Refusal :=
  actJ (alu 1 (fun x y => putZn d (x ||| y)) a b)

/-- XOR. -/
def execXor (d a b : BitVec 5) : State → Host.Outcome State Fault Refusal :=
  actJ (alu 1 (fun x y => putZn d (x ^^^ y)) a b)

/-- NOR. -/
def execNor (d a b : BitVec 5) : State → Host.Outcome State Fault Refusal :=
  actJ (alu 1 (fun x y => putZn d (~~~(x ||| y))) a b)

/-- SHL. -/
def execShl (d a b : BitVec 5) : State → Host.Outcome State Fault Refusal :=
  actJ (alu 1 (fun x y => shiftOp 0 d x (y.toNat % 32)) a b)

/-- SHR. -/
def execShr (d a b : BitVec 5) : State → Host.Outcome State Fault Refusal :=
  actJ (alu 1 (fun x y => shiftOp 1 d x (y.toNat % 32)) a b)

/-- SAR. -/
def execSar (d a b : BitVec 5) : State → Host.Outcome State Fault Refusal :=
  actJ (alu 1 (fun x y => shiftOp 2 d x (y.toNat % 32)) a b)

/-- The low word of a product, with V when the signed product does not fit 32 bits. -/
def mulOp (d : BitVec 5) (x y : Word) (c : Core) : Core :=
  let p := x.toInt * y.toInt
  { putZn d (BitVec.ofInt 32 p) c with v := decide (p < -(2 ^ 31)) || decide (2 ^ 31 ≤ p) }

/-- MUL. -/
def execMul (d a b : BitVec 5) : State → Host.Outcome State Fault Refusal := actJ (alu 2 (mulOp d) a b)

/-- MULH. -/
def execMulh (d a b : BitVec 5) : State → Host.Outcome State Fault Refusal :=
  actJ (alu 2 (fun x y => putZn d (BitVec.ofInt 32 (x.toInt * y.toInt / 2 ^ 32))) a b)

/-- DIVU (R377). -/
def execDivu (d a b : BitVec 5) : State → Host.Outcome State Fault Refusal :=
  actJ (alu 18 (fun x y c => { putZn d (if y = 0 then 0xFFFFFFFF else x / y) c with v := y = 0 }) a b)

/-- REMU (R377). -/
def execRemu (d a b : BitVec 5) : State → Host.Outcome State Fault Refusal :=
  actJ (alu 18 (fun x y c => { putZn d (if y = 0 then x else x % y) c with v := y = 0 }) a b)

/-- CMP. -/
def execCmp (d a b : BitVec 5) : State → Host.Outcome State Fault Refusal :=
  actJ (alu 1 (fun x y c => setSub x y (regPut d (if x.slt y then 1 else 0) c)) a b)

/-- CMPU. -/
def execCmpu (d a b : BitVec 5) : State → Host.Outcome State Fault Refusal :=
  actJ (alu 1 (fun x y c => setSub x y (regPut d (if x.ult y then 1 else 0) c)) a b)

/-- MIN. -/
def execMin (d a b : BitVec 5) : State → Host.Outcome State Fault Refusal :=
  actJ (alu 1 (fun x y => putZn d (if x.slt y then x else y)) a b)

/-- MAX. -/
def execMax (d a b : BitVec 5) : State → Host.Outcome State Fault Refusal :=
  actJ (alu 1 (fun x y => putZn d (if x.slt y then y else x)) a b)

/-- An immediate ALU instruction. -/
def aluImm (f : Word → Core → Core) (a : BitVec 5) : State → State := instr 1 (fun c => coreOp (f (reg c a)) c)

/-- ADDI. -/
def execAddi (d a : BitVec 5) (imm : Half) : State → Host.Outcome State Fault Refusal :=
  let y := imm.signExtend 32
  actJ (aluImm (fun x c => setAdd x y (regPut d (x + y) c)) a)

/-- ANDI. -/
def execAndi (d a : BitVec 5) (imm : Half) : State → Host.Outcome State Fault Refusal :=
  actJ (aluImm (fun x => putZn d (x &&& imm.setWidth 32)) a)

/-- ORI. -/
def execOri (d a : BitVec 5) (imm : Half) : State → Host.Outcome State Fault Refusal :=
  actJ (aluImm (fun x => putZn d (x ||| imm.setWidth 32)) a)

/-- XORI. -/
def execXori (d a : BitVec 5) (imm : Half) : State → Host.Outcome State Fault Refusal :=
  actJ (aluImm (fun x => putZn d (x ^^^ imm.setWidth 32)) a)

/-- CMPI. -/
def execCmpi (d a : BitVec 5) (imm : Half) : State → Host.Outcome State Fault Refusal :=
  let y := imm.signExtend 32
  actJ (aluImm (fun x c => setSub x y (regPut d (if x.slt y then 1 else 0) c)) a)

/-- LDHI. -/
def execLdhi (d : BitVec 5) (imm : Half) : State → Host.Outcome State Fault Refusal :=
  actJ (instr 1 (fun c => coreOp (regPut d (imm.setWidth 32 <<< (16 : Nat))) c))

/-- SHFI. -/
def execShfi (d a : BitVec 5) (kind : BitVec 2) (amount : BitVec 5) : State → Host.Outcome State Fault Refusal :=
  actJ (aluImm (fun x => shiftOp kind.toNat d x amount.toNat) a)

/-! ### Memory (R379, R380) -/

/-- Address of a load or store: g[a] + sext(imm16) (R379). -/
def memAddr (c : Core) (a : BitVec 5) (imm : Half) : Nat := (reg c a + imm.signExtend 32).toNat

/-- The access is allowed (R380). -/
def memOk (c : Core) (addr size : Nat) : Bool :=
  addr ≤ 0x3FFFF && addr % size = 0 && c.task.elim false (fun t => t.banks.getLsbD (addr / 65536))

/-- The error of a data word: none, single-bit or uncorrectable (R379). -/
def wordErr (c : Core) (addr : Nat) : Option Bool := (c.dataErr.find? (fun e => e.1 = addr / 4)).map Prod.snd

/-- A word's error is gone. -/
def wordClean (addr : Nat) (c : Core) : Core := { c with dataErr := c.dataErr.filter (fun e => e.1 ≠ addr / 4) }

/-- An access that reads its word first: an uncorrectable word yields with cause 0x12, a single-bit error is corrected in
place with event 0x8107 (R379, R426). -/
def memRead (size : Nat) (a : BitVec 5) (imm : Half) (f : Nat → Core → Core) (c : Core) (s : State) : State :=
  let addr := memAddr c a imm
  if !memOk c addr size then yieldNow 0x02 s
  else match wordErr c addr with
    | some true => yieldNow 0x12 s
    | some false => coreOp (fun c => f addr (wordClean addr c)) c (raise 0x8107 noInst [] s)
    | none => coreOp (f addr) c s

/-- The value in `n` bytes of data memory, zero-extended. -/
def memValue (c : Core) (addr n : Nat) : Word := w32 (beNat (dataBytesAt c addr n))

/-- A load of `n` bytes. -/
def load (n : Nat) (d a : BitVec 5) (imm : Half) : State → State :=
  instr 2 (memRead n a imm (fun addr c => regPut d (memValue c addr n) c))

/-- LDW. -/
def execLdw (d a : BitVec 5) (imm : Half) : State → Host.Outcome State Fault Refusal := actJ (load 4 d a imm)

/-- LDH. -/
def execLdh (d a : BitVec 5) (imm : Half) : State → Host.Outcome State Fault Refusal := actJ (load 2 d a imm)

/-- LDB. -/
def execLdb (d a : BitVec 5) (imm : Half) : State → Host.Outcome State Fault Refusal := actJ (load 1 d a imm)

/-- A store of the low `n` bytes of g[d]. -/
def memStore (n : Nat) (d : BitVec 5) (addr : Nat) (c : Core) : Core :=
  dataPutBytes addr (beBytes n ((reg c d).toNat % 2 ^ (8 * n))) c

/-- STW (R379): the whole word is replaced and nothing is read first. -/
def execStw (d a : BitVec 5) (imm : Half) : State → Host.Outcome State Fault Refusal :=
  actJ (instr 2 (fun c s =>
    let addr := memAddr c a imm
    if !memOk c addr 4 then yieldNow 0x02 s
    else coreOp (fun c => memStore 4 d addr (wordClean addr c)) c s))

/-- STH. -/
def execSth (d a : BitVec 5) (imm : Half) : State → Host.Outcome State Fault Refusal :=
  actJ (instr 2 (memRead 2 a imm (memStore 2 d)))

/-- STB. -/
def execStb (d a : BitVec 5) (imm : Half) : State → Host.Outcome State Fault Refusal :=
  actJ (instr 2 (memRead 1 a imm (memStore 1 d)))

/-! ### Control (R381, R382) -/

/-- HALT: the task ends when its signature is the task's exit signature. -/
def haltOp (c : Core) (s : State) : State :=
  match c.task with
  | none => s
  | some t => if c.sig = t.xsig then activeMod coreStop s else yieldNow 0x09 s

def execHalt : State → Host.Outcome State Fault Refusal := actJ (instr 1 haltOp)

/-- NOP. -/
def execNop : State → Host.Outcome State Fault Refusal := actJ (instr 1 (coreOp id))

/-- ILLEGAL_INSTRUCTION (R369, R374): cause 0x01. The edge ends the first cycle. -/
def execIllegalInstruction : State → Host.Outcome State Fault Refusal :=
  actJ (instr 1 (fun _ => yieldNow 0x01))

/-- A control transfer: the next instruction, without an iteration end. -/
def jump (pc : Nat) (f : Core → Core) (s : State) : State := activeMod (fun c => { f c with pc := pc }) s

/-- The loop entries of a call level that end before an index go (R381). -/
def popLoops (pc level : Nat) (l : List LoopEnt) : List LoopEnt := l.filter (fun x => !(x.level = level && x.stop < pc))

/-- BR. -/
def brOp (cond : BitVec 5) (imm : Half) (c : Core) (s : State) : State :=
  if !condHolds cond.toNat c then continueFrom c.pc s
  else
    let pc := c.pc + 1 + imm.toNat
    if 65535 < pc then yieldNow 0x03 s
    else jump pc (fun c => { c with loops := popLoops pc c.rets.length c.loops }) s

def execBr (cond : BitVec 5) (imm : Half) : State → Host.Outcome State Fault Refusal :=
  actJ (instr 1 (legal (cond.toNat ≤ 10) (brOp cond imm)))

/-- LOOP. -/
def loopOp (a lenH : BitVec 5) (lenL : BitVec 4) (nmax : BitVec 12) (c : Core) (s : State) : State :=
  let len := lenH.toNat * 16 + lenL.toNat + 1
  let count := min (reg c a).toNat nmax.toNat
  if 65535 < c.pc + len then yieldNow 0x03 s
  else if 4 ≤ c.loops.length then yieldNow 0x06 s
  else if count = 0 then
    if 65535 < c.pc + len + 1 then yieldNow 0x03 s else jump (c.pc + len + 1) id s
  else jump (c.pc + 1) (fun c => { c with loops := ⟨c.pc + 1, c.pc + len, count, c.rets.length⟩ :: c.loops }) s

def execLoop (a lenH : BitVec 5) (lenL : BitVec 4) (nmax : BitVec 12) : State → Host.Outcome State Fault Refusal :=
  actJ (instr 1 (loopOp a lenH lenL nmax))

/-- CALL. -/
def callOp (imm : Half) (c : Core) (s : State) : State :=
  if 8 ≤ c.rets.length then yieldNow 0x04 s
  else jump imm.toNat (fun c => regPut 31 (w32 (4 * (c.pc + 1))) { c with rets := (c.pc + 1) :: c.rets }) s

def execCall (imm : Half) : State → Host.Outcome State Fault Refusal := actJ (instr 1 (callOp imm))

/-- RET: the return counts as continuing from P = t - 1. -/
def retOp (c : Core) (s : State) : State :=
  match c.rets with
  | [] => yieldNow 0x04 s
  | t :: rest =>
    if reg c 31 ≠ w32 (4 * t) then yieldNow 0x05 s
    else if c.loops.any (fun l => l.level = c.rets.length) then yieldNow 0x06 s
    else
      let top := match rest with
        | [] => 0
        | u :: _ => 4 * u
      continueFrom (t - 1) (activeMod (fun c => regPut 31 (w32 top) { c with rets := rest }) s)

def execRet : State → Host.Outcome State Fault Refusal := actJ (instr 1 retOp)

/-! ### Assertions and alignment to the grid (R389) -/

/-- ASRT.X. -/
def execAsrtX (imm : Half) : State → Host.Outcome State Fault Refusal :=
  actJ (instr 1 (coreOp (fun c => { c with sig := c.sig ^^^ imm })))

/-- ASRT.C. -/
def execAsrtC (imm : Half) : State → Host.Outcome State Fault Refusal :=
  actJ (instr 1 (fun c s => if c.sig = imm then coreOp id c s else yieldNow 0x07 s))

/-- ASRT.Z. -/
def execAsrtZ (a : BitVec 5) (_imm : Half) : State → Host.Outcome State Fault Refusal :=
  actJ (instr 1 (fun c s => if reg c a = 0 then coreOp id c s else yieldNow 0x08 s))

/-- WAITG: it takes effect at the edge 8 × K ns after the task's start, or after 1 cycle when that edge has passed. -/
def waitOp (k : Half) (s : State) : State :=
  match runningTask s with
  | none => s
  | some (_, t) => instr (max 1 (2 * k.toNat - t.e)) (coreOp id) s

def execWaitg (k : Half) : State → Host.Outcome State Fault Refusal := actJ (waitOp k)

end Sys2Proof.Machine
end

