-- ==== Sys2Proof/Machine/TrainFrame.lean ====
section
/-! DEFINITION. Meanings of the train frame and message window family (07), with the measurements taken from the frame
(06) and the sleep countdown of the origin (10). -/

namespace Sys2Proof.Machine

/-! ### The node's own window (R98, R188-R191, R200, R201, R289) -/

/-- The assigned wake channel's state code is 0b01 (Table 10.1). -/
def wakeChannelOn (s : State) (im : Image) : Bool :=
  im.node.wakeCh.toNat < 32 &&
    (let c := s.chan im.node.wakeCh.toNat; causeOf c = 0 && c.mem = .on)

/-- The awake request (Table 10.1). -/
def awakeRequest (s : State) : Bool :=
  let masked (k : Nat) (b : Bool) : Bool := b && s.image.elim false (fun im => im.node.awakeMask.getLsbD k)
  s.pwr.node = .bringup || s.nv.job.isSome || masked 0 s.tf.taskAwake || masked 1 s.tf.hostHold
    || masked 2 s.pwr.wakeIn || masked 3 (s.image.elim false (wakeChannelOn s)) || masked 4 (s.vn.awake ≠ 0)
    || masked 5 (s.eq.any (fun p => p.link ≠ 0))

/-- The status byte of the window header (Table 7.3). -/
def windowStatus (s : State) : Byte :=
  BitVec.ofNat 8 (s.pwr.node.code + 8 * bit1 s.cyc.mode.valid + 16 * bit1 s.pwr.relayB
    + 32 * bit1 (s.running && s.cr.active = 2))

/-- `VERIFY` of Table 7.4. -/
def verifyCode (s : State) : Nat :=
  if s.running then 4
  else if s.nv.ver.admitted.isSome then 1
  else if s.nv.ver.cur.isNone then 3
  else if s.nv.ver.refused then 2 else 0

/-- The bring-up status content (Table 7.4). -/
def bringupContent (s : State) : Bytes :=
  beBytes 8 s.dev.nodeId.toNat ++ beBytes 2 (slotImgVer s.nv) ++ [BitVec.ofNat 8 (verifyCode s), s.pwr.wfCount]
    ++ beBytes 4 s.pwr.pcyc.toNat

/-- The node's window carries the bring-up status content (R191). -/
def bringupWindow (s : State) : Bool := s.pwr.node = .bringup || bringupCycle s

/-- The node awaits muting (R201). -/
def mutes (s : State) : Bool :=
  s.pwr.node = .run && (ownRec s).elim false (fun r => r.status = 0) &&
    s.hg.ttr.elim false (fun t => ownFp s ≠ t.profileFp)

/-- The flags of the own window but `FRESH`: `AWAKE_REQ`, `LATE`, `MSG_PENDING`, and `NULL` and `MUTE` as given. -/
def windowFlags (s : State) (null mute : Bool) : Byte :=
  BitVec.ofNat 8 (2 * bit1 null + 4 * bit1 (awakeRequest s) + 8 * bit1 mute
    + 16 * bit1 ((ownRec s).elim false (fun r => recBit r 2)) + 32 * bit1 (!s.tf.own.isEmpty))

/-- The content of the own window: flags, status byte, data area (R98, R191, R200, R201). -/
def windowContent (s : State) : Bytes :=
  if bringupWindow s then [windowFlags s false false, windowStatus s] ++ bringupContent s
  else if mutes s then [windowFlags s true true, windowStatus s]
  else if s.tf.ready = .data then
    [windowFlags s false false, windowStatus s] ++ s.tf.win.flatMap (fun w => beBytes 4 w.toNat)
  else [windowFlags s true false, windowStatus s]

/-- TF_SNAP (R98, R200, R201): the window is frozen and its readiness cleared. -/
def tfSnap (s : State) : State :=
  let content := windowContent s
  let window := (ownRec s).elim false (fun r => r.status = 0) && !bringupWindow s
  let muted := !bringupWindow s && mutes s
  let s' := { s with tf := { s.tf with
    frozen := some content, ready := .none, awakeReq := awakeRequest s, muted := muted } }
  if muted then (if s.tf.muted then s' else raise 0x2044 noInst [] s')
  else if window && s.tf.ready = .none then raise 0x2043 noInst [] s'
  else s'

/-! ### Grid action or the engine's own (R183, R185) -/

/-- The train frame engine fires by itself: in `BRINGUP`, and in a composition that runs the bring-up cycle. -/
def engineFires (s : State) : Bool := s.pwr.node = .bringup || (s.running && bringupCycle s)

/-- A train frame action: the engine's own, or an entry of the grid; an entry does nothing where the engine fires. -/
def tfAction (kind : Byte) (entry : Option Nat) (f : State → State) (s : State) : State :=
  match entry with
  | none => if engineFires s then f s else s
  | some i => gridFire kind i (fun _ s => if engineFires s then s else onDomain 7 kind.toNat f s) s

def execTfSnap (entry : Option Nat) (wakeIn : Bool) : State → Host.Outcome State Fault Refusal :=
  act 0 (fun s => tfAction 0x09 entry tfSnap { s with pwr := { s.pwr with wakeIn := wakeIn } })

/-! ### Measurements (R165-R171, R176, R179) -/

/-- Stamps of a line. -/
def lineTime (s : State) (line : Line) : LineTime := match line with | .a => s.cyc.lineA | .b => s.cyc.lineB

/-- A change of a line's stamps. -/
def lineTimeMod (line : Line) (f : LineTime → LineTime) (s : State) : State :=
  match line with
  | .a => { s with cyc := { s.cyc with lineA := f s.cyc.lineA } }
  | .b => { s with cyc := { s.cyc with lineB := f s.cyc.lineB } }

/-- 0 for line A, 1 for line B. -/
def lineNo (line : Line) : Nat := match line with | .a => 0 | .b => 1

/-- The other line. -/
def otherOf (line : Line) : Line := match line with | .a => .b | .b => .a

/-- A stamp: train time at the present instant. -/
def stampNow (s : State) : Int := (s.cyc.tt.toNat + s.cyc.phase : Nat)

/-- m of a line in half ns (R167); none without the round trip of the previous cycle. -/
def lineM (x : LineTime) : Option Int := x.tOut.bind (fun o => x.rtPrev.map (fun r => 2 * o + r))

/-- The node's entry carries `PROVIDE` (R175, R176), given an m on the line. -/
def provides (s : State) : Bool :=
  s.cyc.mode = .ensemble && 64 ≤ s.cyc.sinceAcq && !s.pwr.lockLost && !s.cyc.rateHeld && !s.cyc.withdrawn
    && s.hg.ttr.elim false (fun t => (ensemble t).contains (ownNumber s))

/-- The node's synchronisation entry on a line (Table 6.1). -/
def syncEntry (s : State) (line : Line) : Bytes :=
  let m := if provides s then lineM (lineTime s line) else none
  [BitVec.ofNat 8 (ownNumber s), BitVec.ofNat 8 (bit1 m.isSome + 2 * bit1 s.pwr.lockLost)] ++
    beBytes 6 (m.elim 0 (fun m => (m % 2 ^ 48).toNat))

/-- A 48-bit difference read as a signed value (R168). -/
def signed48 (x : Int) : Int := let n := x % 2 ^ 48; if n < 2 ^ 47 then n else n - 2 ^ 48

/-- The deviations of a copy in half ns (R168). -/
def deviations (s : State) (t : Ttr) (payload : Bytes) (m : Int) : List Int :=
  (ensemble t).zipIdx.filterMap (fun e =>
    let off := syncOffset s t + 8 * e.2
    if field payload off 1 = e.1 && (payload.getD (off + 1) 0).getLsbD 0 then
      some (signed48 ((field payload (off + 2) 6 : Nat) - m))
    else none)

/-- A value put into an ascending list. -/
def insertInt (x : Int) : List Int → List Int
  | [] => [x]
  | y :: r => if x ≤ y then x :: y :: r else y :: insertInt x r

/-- The fault-tolerant midpoint of Table 6.3, twice its value. -/
def midpoint2 (l : List Int) : Option Int :=
  let v := l.foldr insertInt []
  let k := if v.length < 3 then 0 else if v.length < 8 then 1 else 2
  if v.isEmpty then none else some (v.getD k 0 + v.getD (v.length - 1 - k) 0)

/-- The measurement is complete at least 1 µs before the correction interval (R171). -/
def inTime (s : State) : Bool := s.cyc.phase + 3000 ≤ tCycle s

/-- A measurement of this cycle is kept when it is in time (R171). -/
def measured (m : Measure) (devs : Nat) (s : State) : State :=
  if inTime s then { s with cyc := { s.cyc with meas := some m, devs := devs } } else s

/-- The offset e of R170 on a line, in ns, negated: the correction toward the origin. -/
def originOffset (s : State) (t : Ttr) (line : Line) (payload : Bytes) : Option Int :=
  match (lineTime s line).tOut, pathDelay t s.dev.nodeId (lineNo line) with
  | some o, some p => some ((field payload 20 8 : Nat) + (p : Nat) - o)
  | _, _ => none

/-- The first accepted copy in `ACQUIRE` (R179): within 2 µs the node corrects itself and is through; else the cycle is
to end at the origin's next cycle start. -/
def acquireCopy (t : Ttr) (line : Line) (payload : Bytes) (s : State) : State :=
  match (lineTime s line).tOut, pathDelay t s.dev.nodeId (lineNo line) with
  | some o, some p =>
    let ap : Int := (field payload 20 8 : Nat)
    let start := o - (p : Nat) - 4000
    let phase := start - (s.cyc.tt.toNat : Nat)
    let value := ap - 4000 - start
    if phase.natAbs ≤ 2000 && value.natAbs ≤ 2000 then
      let s := { s with cyc := { s.cyc with acquired := true } }
      measured ⟨false, 4 * (ap + (p : Nat) - o)⟩ 0 s
    else
      let tc := tCycle s
      let end_ := phase + (tc : Nat)
      let late := end_ < (s.cyc.phase + 2000 : Nat)
      let n : Nat := if late then 2 else 1
      let at_ := (end_ + (if late then (tc : Int) else 0)).toNat
      let tt := BitVec.ofInt 64 (ap - 4000 + (n * tc : Nat))
      raise 0x2001 noInst [BitVec.ofInt 32 value, BitVec.ofInt 32 phase]
        { s with cyc := { s.cyc with
          step := some (at_, tt, BitVec.ofNat 16 (field payload 4 2) + BitVec.ofNat 16 n) } }
  | _, _ => s

/-- What the accepted copy gives the node's time (R168-R170, R179, R185). -/
def measureCopy (c : Copy) (s : State) : State :=
  match s.hg.ttr with
  | none => s
  | some t =>
    if s.running && (c.payload.getD 2 0).getLsbD 2 then s
    else if s.cyc.mode = .acquire then
      if s.cyc.step.isSome || s.cyc.acquired then s else acquireCopy t c.line c.payload s
    else
      let other := s.tf.cands.find? (fun x => x.line = (otherOf c.line))
      let devs := match lineM (lineTime s c.line), lineM (lineTime s (otherOf c.line)), other with
        | some m, _, _ => deviations s t c.payload m
        | none, some m, some x => deviations s t x.payload m
        | _, _, _ => []
      match midpoint2 devs with
      | some c2 => measured ⟨true, c2⟩ devs.length s
      | none =>
        if isOrigin s then s
        else
          match originOffset s t c.line c.payload with
          | some c1 => measured ⟨false, 4 * c1⟩ 0 s
          | none => s

/-! ### The merge (R203-R205) -/

/-- Header flags of a payload: 2 `BCYC`, 3 `TURNED`, 4 `BROKEN` (Table 7.2). -/
def hdrFlag (payload : Bytes) (k : Nat) : Bool := (payload.getD 2 0).getLsbD k

/-- `HCRC`, `SUBTYPE` and `VERSION` of a train frame header hold. -/
def hdrGood (payload : Bytes) : Bool :=
  32 ≤ payload.length && field payload 0 1 = 1 && field payload 1 1 = 1
    && field payload 30 2 = (crc16 (payload.take 30)).toNat

/-- A header sealed with its `HCRC` (R187). -/
def sealHeader (payload : Bytes) : Bytes :=
  payload.take 30 ++ beBytes 2 (crc16 (payload.take 30)).toNat ++ payload.drop 32

/-- `CYC` is as expected (R194, R203): any in `ACQUIRE`, and any at a node whose own cycle is not the composition's
(R185). -/
def cycGood (s : State) (payload : Bytes) : Bool :=
  field payload 4 2 = s.cyc.cyc.toNat || s.cyc.mode = .acquire || (s.running && bringupCycle s)

/-- `TCODE` and `BCYC` match the composition's cycle (R203); without an image any profile cycle does. -/
def cycleKind (s : State) (payload : Bytes) : Bool :=
  let tcode := field payload 2 1 % 4
  if bringupCycle s then hdrFlag payload 2 && tcode = 3
  else !hdrFlag payload 2 && s.image.elim true (fun im => tcode = im.profile.tcode.toNat)

/-- Event 0x2041 with the line and the reason (R199, R203): 1 FCS, 2 header, 3 not turned, 4 `ICOUNT`, 5 cycle, 6 `CYC`,
7 hash (log 21). -/
def badCopy (line : Line) (reason : Nat) (s : State) : State :=
  let s := match line with
    | .a => { s with tf := { s.tf with badA := s.tf.badA + 1 } }
    | .b => { s with tf := { s.tf with badB := s.tf.badB + 1 } }
  raise 0x2041 (lineNo line) [w32 (lineNo line), Config.eventItem 0x2041 reason] s

/-- Why a candidate is not valid (R203); 0 valid. -/
def candFault (s : State) (payload : Bytes) (fcsGood : Bool) : Nat :=
  if !fcsGood then 1
  else if !hdrGood payload then 2
  else if !hdrFlag payload 3 then 3
  else if field payload 6 4 ≠ s.hg.icount.toNat then 4
  else if !cycleKind s payload then 5
  else if !cycGood s payload then 6
  else 0

/-- The copy carries the node's own hash. -/
def hashAgrees (s : State) (payload : Bytes) : Bool := field payload 10 4 = (heldHash s).toNat

/-- A copy is accepted (R204): the poll list (R213), the quiesce cycle (R293), the hash (R133, R205), the measurement. -/
def acceptCopy (c : Copy) (s : State) : State :=
  let cd := field c.payload 15 1
  let cyc := BitVec.ofNat 16 (field c.payload 4 2)
  let s := match c.line with
    | .a => { s with tf := { s.tf with accA := s.tf.accA + 1 } }
    | .b => { s with tf := { s.tf with accB := s.tf.accB + 1 } }
  let s := { s with tf := { s.tf with
    accepted := some c, held := none, lastCd := cd = 1
    poll := ((List.range 4).map (fun i => field c.payload (16 + i) 1)).filter (· ≠ 0)
    quiesceCyc := if cd = 0 then none else some (cyc + BitVec.ofNat 16 cd) } }
  if hashAgrees s c.payload then topoCheck false (measureCopy c s)
  else topoCheck true (raise 0x2045 noInst [] s)

/-- Position in the TTR of the node that turned a copy (R204). -/
def turnPos (s : State) (payload : Bytes) : Nat :=
  s.hg.ttr.elim 0 (fun t => (t.recs.findIdx? (fun r => r.number.toNat = field payload 28 1)).getD 0)

/-- A copy is judged as a candidate of the merge (R203, R204). -/
def judge (line : Line) (payload : Bytes) (fcsGood : Bool) (s : State) : State :=
  if s.hg.ttr.isNone || s.tf.readDone then s
  else
    let r := candFault s payload fcsGood
    if r ≠ 0 then badCopy line r s
    else
      let c : Copy := ⟨line, payload⟩
      let s := match line with
        | .a => { s with tf := { s.tf with validA := s.tf.validA + 1, cands := s.tf.cands ++ [c] } }
        | .b => { s with tf := { s.tf with validB := s.tf.validB + 1, cands := s.tf.cands ++ [c] } }
      if s.tf.accepted.isSome then s
      else if !hdrFlag payload 4 then acceptCopy c s
      else
        match s.tf.held with
        | none => { s with tf := { s.tf with held := some c } }
        | some h =>
          if turnPos s h.payload < turnPos s payload then { s with tf := { s.tf with held := some c } } else s

/-! ### The passes (R193-R199) -/

/-- The side toward node 1 of a line's two ports: the inner port (R165). -/
def innerPort (s : State) (line : Line) : Nat :=
  2 * lineNo line + (if (ownRec s).elim false (fun r => recBit r 0) then 1 else 0)

/-- The port away from node 1. -/
def outerPort (s : State) (line : Line) : Nat := opposite (innerPort s line)

/-- A link at 100BASE-TX of which no step has failed carries no frame of a profile cycle (R123, R198). -/
def slowLink (s : State) (p : Nat) : Bool := (s.hp p).speed = 1 && !(s.hp p).stepFailed && !bringupCycle s

/-- Why a frame cannot go on from a line's inner to its outer port (R193, R199): 1 link down, 2 speed mismatch, 3 not
settled; 0 it goes on. -/
def onwardFault (s : State) (inner outer : Nat) : Nat :=
  let a := s.hp inner
  let b := s.hp outer
  if b.stepping then 3 else if b.speed = 0 then 1
  else if a.speed ≠ b.speed || slowLink s outer then 2
  else if !a.settled || !b.settled then 3 else 0

/-- The node is active on a line (R197). -/
def activeOn (s : State) (line : Line) : Bool := match line with | .a => s.hg.ttr.isSome | .b => s.pwr.relayB && s.hg.ttr.isSome

/-- The TTR places a node active on the line beyond the own record (R196). -/
def nodesBeyond (s : State) (line : Line) : Bool :=
  match s.hg.ttr with
  | none => false
  | some t =>
    match t.recs.findIdx? (fun r => r.nodeId = s.dev.nodeId) with
    | none => false
    | some i => (t.recs.drop (i + 1)).any (recActive (lineNo line))

/-- Why an outbound copy fails the conditions of R194; 0 it meets them. A node without a TTR judges the header alone. -/
def outFault (s : State) (payload : Bytes) : Nat :=
  if !hdrGood payload then 2
  else
    match s.hg.ttr with
    | none => 0
    | some t =>
      if field payload 6 4 ≠ s.hg.icount.toNat then 4
      else if !cycGood s payload then 6
      else if field payload 10 4 ≠ t.topoHash.toNat then 7
      else 0

/-- The own window and synchronisation entry written into a copy (R164, R194). -/
def writeOwn (s : State) (t : Ttr) (line : Line) (payload : Bytes) : Bytes :=
  let content := s.tf.frozen.getD (windowContent s)
  let p := match (frameLayout s t).find? (fun w => w.1 = ownNumber s) with
    | none => payload
    | some (_, off, len) =>
      let data := (padTo (4 * len) (content.drop 2)).take (4 * len)
      patch (patch payload (off + 1) [content.getD 0 0 ||| 1, content.getD 1 0]) (off + 4) data
  match (ensemble t).findIdx? (· = ownNumber s) with
  | none => p
  | some i => patch p (syncOffset s t + 8 * i) (syncEntry s line)

/-- The node writes into passing copies: a member with a window (R194, R198). -/
def writes (s : State) (line : Line) : Bool :=
  (s.hg.st = .member || s.hg.st = .solitary) && activeOn s line && (ownRec s).elim false (fun r => r.status = 0)

/-- A copy turned around (R196). -/
def turnHeader (s : State) (line : Line) (payload : Bytes) : Bytes :=
  let fl := field payload 2 1
  let fl := fl + (if fl / 8 % 2 = 0 then 8 else 0)
  let fl := fl + (if nodesBeyond s line && fl / 16 % 2 = 0 then 16 else 0)
  sealHeader (patch (patch payload 2 [BitVec.ofNat 8 fl]) 28 [BitVec.ofNat 8 (ownNumber s)])

/-- Event 0x2042 (R199): the frame is turned short of a node active on the line; cause as in `onwardFault` (log 21). -/
def shortTurn (line : Line) (cause : Nat) (s : State) : State :=
  let s := match line with
    | .a => { s with tf := { s.tf with shortA := s.tf.shortA + 1 } }
    | .b => { s with tf := { s.tf with shortB := s.tf.shortB + 1 } }
  raise 0x2042 (lineNo line) [w32 (lineNo line), Config.eventItem 0x2042 cause] s

/-- A node in this Hinge state forwards train frames (R137, R198). -/
def forwards (s : State) (line : Line) : Bool :=
  s.cycling && (match s.hg.st with
    | .probing | .discovering | .awaitSwitch | .failed => false
    | .admitting => line = .a
    | _ => true)

/-- TF_OUTBOUND (R165, R193-R199): the delimiter of the outbound copy reaches the inner port. -/
def tfOutbound (line : Line) (payload : Bytes) (fcsGood : Bool) (s : State) : State :=
  if !forwards s line || isOrigin s then s
  else
    let s := lineTimeMod line (fun x => { x with tOut := some (stampNow s) }) s
    let fault := outFault s payload
    let s := if fault ≠ 0 then badCopy line fault s else s
    let out := match s.hg.ttr with
      | some t => if fault = 0 && writes s line then writeOwn s t line payload else payload
      | none => payload
    let cause := onwardFault s (innerPort s line) (outerPort s line)
    if cause = 0 then emit (.train line false out fcsGood) s
    else
      let short := nodesBeyond s line
      let out := if fault = 0 then turnHeader s line out else out
      let s := if short then shortTurn line cause s else s
      let s := lineTimeMod line (fun x => { x with rt := some 960 }) s
      let s := { s with tf := { s.tf with turned := s.tf.turned.set (lineNo line) (some ⟨out, fcsGood⟩) } }
      emit (.train line true out fcsGood) s

def execTfOutbound (t : Nat) (line : Line) (payload : Bytes) (fcsGood : Bool) :
    State → Host.Outcome State Fault Refusal := act t (tfOutbound line payload fcsGood)

/-- TF_CANDIDATE (R165, R197, R203, R207): a return copy is received whole, its delimiter leaving the inner port (at the
origin arriving) at `returnSfd`; at the turnaround node of the line the candidate is the copy it turned. -/
def tfCandidate (line : Line) (payload : Bytes) (fcsGood : Bool) (returnSfd : Nat) (s : State) : State :=
  if !forwards s line then s
  else
    match s.tf.turned.getD (lineNo line) none with
    | some x =>
      judge line x.payload x.fcsGood
        { s with tf := { s.tf with turned := s.tf.turned.set (lineNo line) none } }
    | none =>
      let s := lineTimeMod line (fun x =>
        { x with rt := x.tOut.map (fun o => ((s.cyc.tt.toNat + returnSfd : Nat) : Int) - o) }) s
      let s := if isOrigin s || (s.hp (innerPort s line)).speed = 0 then s else emit (.train line true payload fcsGood) s
      judge line payload fcsGood s

def execTfCandidate (t : Nat) (line : Line) (payload : Bytes) (fcsGood : Bool) (returnSfd : Nat) :
    State → Host.Outcome State Fault Refusal := act t (tfCandidate line payload fcsGood returnSfd)

/-! ### Launch (R161, R186, R192, R209, R210, R212) -/

/-- The next member after a number, wrapping (R212). -/
def nextMember (nums : List Nat) (k : Nat) : Nat := (nums.find? (fun n => k < n)).getD (nums.headD 0)

/-- One pass of R212 over at most `n` members. -/
def pollPass (nums pend : List Nat) (all : Bool) : Nat → Nat → List Nat → List Nat
  | 0, _, poll => poll
  | n + 1, k, poll =>
    if 4 ≤ poll.length then poll
    else
      pollPass nums pend all n (nextMember nums k)
        (if !poll.contains k && (all || pend.contains k) then poll ++ [k] else poll)

/-- The poll list (R212). -/
def pollList (nums pend : List Nat) (rr : Nat) : List Nat :=
  let k := nextMember nums rr
  pollPass nums pend true nums.length k (pollPass nums pend false nums.length k [])

/-- The payload the origin launches (Table 7.2, R186, R192). -/
def launchPayload (s : State) (t : Ttr) (poll : List Nat) : Bytes :=
  let bring := bringupCycle s
  let tcode := if bring then 3 else s.image.elim 3 (fun im => im.profile.tcode.toNat)
  let flags := tcode + 4 * bit1 bring
  let hdr := [1, 1, BitVec.ofNat 8 flags, 1] ++ beBytes 2 s.cyc.cyc.toNat ++ beBytes 4 s.hg.icount.toNat
    ++ beBytes 4 t.topoHash.toNat ++ [BitVec.ofNat 8 t.recs.length, BitVec.ofNat 8 s.tf.sleepCd]
    ++ (List.range 4).map (fun i => BitVec.ofNat 8 (poll.getD i 0))
    ++ beBytes 8 (s.cyc.tt + 4000).toNat ++ [0, 0]
  let wins := (windowPlan s t).flatMap (fun w =>
    [BitVec.ofNat 8 w.1, 0, 0, BitVec.ofNat 8 w.2.1] ++ List.replicate (4 * w.2.2) 0)
  padTo 46 (hdr ++ beBytes 2 (crc16 hdr).toNat ++ wins ++ List.replicate (8 * (ensemble t).length) 0)

/-- The origin's copy leaves on a line with its own window and entry, or turns at the origin when its port cannot carry
it (R196, R198, R209); a composition of one turns it inside (R210). -/
def launchLine (t : Ttr) (payload : Bytes) (line : Line) (s : State) : State :=
  let s := lineTimeMod line (fun x => { x with tOut := some ((s.cyc.tt.toNat + 4000 : Nat) : Int) }) s
  let out := if writes s line then writeOwn s t line payload else payload
  if s.hg.st = .solitary then judge line (turnHeader s line out) true s
  else
    let p := outerPort s line
    let cause := if (s.hp p).stepping then 3 else if (s.hp p).speed = 0 then 1 else if slowLink s p then 2
      else if !(s.hp p).settled then 3 else 0
    if cause = 0 then emit (.train line false out true) s
    else
      let s := if nodesBeyond s line then shortTurn line cause s else s
      judge line (turnHeader s line out) true s

/-- TF_LAUNCH (R209): nothing at a node that is not origin. -/
def tfLaunch (s : State) : State :=
  match s.hg.ttr with
  | none => s
  | some t =>
    if !isOrigin s then s
    else
      let poll := pollList ((byNumber t.recs).map (fun r => r.number.toNat)) s.tf.pend s.tf.rr
      let payload := launchPayload s t poll
      let s := if s.tf.sleepCd = 16 then raise 0x5000 noInst [] s else s
      let s := { s with tf := { s.tf with rr := poll.getLastD s.tf.rr, sleepCd := s.tf.sleepCd - 1 } }
      let s := launchLine t payload .a s
      if s.hg.st ≠ .solitary && activeOn s .b then launchLine t payload .b s else s

def execTfLaunch (entry : Option Nat) : State → Host.Outcome State Fault Refusal :=
  act 0 (tfAction 0x08 entry tfLaunch)

/-! ### The read (R204, R206, R291-R293, R306) -/

/-- `FRESH` cleared in every window (R205, R206). -/
def staleWindows (offs : List Nat) (payload : Bytes) : Bytes :=
  offs.foldl (fun p o => patch p (o + 1) [p.getD (o + 1) 0 &&& 0xFE]) payload

/-- The accepted copy is published (R206). -/
def publish (c : Copy) (t : Ttr) (s : State) : State :=
  let offs := (frameLayout s t).map (fun w => w.2.1)
  let snap : Snapshot :=
    { payload := if hashAgrees s c.payload then c.payload else staleWindows offs c.payload
      cyc := BitVec.ofNat 16 (field c.payload 4 2), lineB := c.line = .b, valid := true, broken := hdrFlag c.payload 4
      at_ := s.now, offs := offs }
  { s with tf := { s.tf with snap := snap, snapPrev := s.tf.snap } }

/-- Nothing is published: the previous payload stays with every `FRESH` cleared and the valid bit 0 (R206). -/
def publishNone (s : State) : State :=
  let old := s.tf.snap
  { s with tf := { s.tf with
    snap := { old with payload := staleWindows old.offs old.payload, valid := false, at_ := s.now }, snapPrev := old } }

/-- A window of a copy: flags, at the offset of its header. -/
def winFlag (payload : Bytes) (off k : Nat) : Bool := (payload.getD (off + 1) 0).getLsbD k

/-- T_AWAKE_MAX in cycles. -/
def awakeMaxCycles (s : State) (im : Image) : Nat := im.profile.awakeMax.toNat * 60000000000 / tCycle s

/-- T_SLEEP_DWELL in cycles. -/
def dwellCycles (s : State) (im : Image) : Nat := im.profile.sleepDwell.toNat * 1000000000 / tCycle s

/-- The tracking of one member (R306). -/
def trackOf (s : State) (id : DWord) : AwakeTrack := (s.tf.track.find? (fun x => x.nodeId = id)).getD ⟨id, 0, false⟩

/-- The tracking of one member replaced. -/
def trackPut (x : AwakeTrack) (s : State) : State :=
  { s with tf := { s.tf with track := s.tf.track.filter (fun y => y.nodeId ≠ x.nodeId) ++ [x] } }

/-- One member's window in the accepted copy (R291, R306): the state, and whether its request counts. -/
def trackMember (im : Image) (payload : Bytes) (acc : State × List Nat) (e : TtrRec × Nat) : State × List Nat :=
  let s := acc.1
  let awake := winFlag payload e.2 2
  let fresh := winFlag payload e.2 0
  let x := trackOf s e.1.nodeId
  if !(awake || !fresh) then (trackPut { x with run := 0, uncounted := false } s, acc.2)
  else if x.uncounted then acc
  else
    let n := awakeMaxCycles s im
    let run := x.run + 1
    let reached := n ≠ 0 && run % n = 0
    let s := trackPut { x with run := run, uncounted := reached && !im.profile.identify } s
    let s := if reached then
        raise (if im.profile.identify then 0x5011 else 0x5010) noInst
          (e.1.number.setWidth 32 :: words64 e.1.nodeId) s
      else s
    (s, acc.2 ++ [e.1.number.toNat])

/-- The member records that hold a window, with the offset of its header (R291). -/
def windowRecs (s : State) (t : Ttr) : List (TtrRec × Nat) :=
  (frameLayout s t).filterMap (fun w => (recNumber t w.1).bind (fun r => if r.status = 0 then some (r, w.2.1) else none))

/-- What the origin draws from its accepted copy (R291, R292). -/
def sleepWatch (s : State) : State :=
  match s.hg.ttr, s.image with
  | some t, some im =>
    if !isOrigin s || !s.running then s
    else
      let r := match s.tf.accepted with
        | some c => (windowRecs s t).foldl (trackMember im c.payload) (s, [])
        | none => (s, [0])
      let s := r.1
      if r.2.isEmpty then
        let s := { s with tf := { s.tf with dwell := s.tf.dwell + 1 } }
        if s.tf.dwell = dwellCycles s im then { s with tf := { s.tf with sleepCd := 16 } } else s
      else
        let running := s.tf.sleepCd ≠ 0
        let mask := r.2.foldl (fun m n => m ||| (1#64 <<< n)) 0#64
        let s := { s with tf := { s.tf with dwell := 0, sleepCd := 0 } }
        if running then raise 0x5001 noInst (words64 mask) s else s
  | _, _ => s

/-- Numbers whose window shows `MSG_PENDING` in the accepted copy (R212). -/
def pendingNumbers (s : State) : List Nat :=
  match s.hg.ttr, s.tf.accepted with
  | some t, some c => (windowRecs s t).filterMap (fun e => if winFlag c.payload e.2 5 then some e.1.number.toNat else none)
  | _, _ => []

/-- TF_READ (R204, R206, R291): a held copy is accepted, the copy is published, the origin draws its conclusions. A
bring-up frame is not published to `RUN` and `NOCORE` (R185). -/
def tfRead (s : State) : State :=
  let s := match s.tf.accepted, s.tf.held with
    | none, some c => acceptCopy c s
    | _, _ => s
  let s := { s with tf := { s.tf with readDone := true } }
  let s := match s.tf.accepted, s.hg.ttr with
    | some c, some t => if s.running && bringupCycle s then publishNone s else publish c t s
    | _, _ => raise 0x2040 noInst [] (publishNone { s with tf := { s.tf with noCopy := s.tf.noCopy + 1 } })
  sleepWatch { s with tf := { s.tf with pend := pendingNumbers s } }

def execTfRead (entry : Option Nat) : State → Host.Outcome State Fault Refusal := act 0 (tfAction 0x0A entry tfRead)

/-- A cycle starts: the merge and the stamps begin anew (R167, R178, R204). -/
def tfCycle (s : State) : State :=
  let roll (x : LineTime) : LineTime := { tOut := none, rt := none, rtPrev := x.rt }
  { s with
    tf := { s.tf with
      frozen := none, held := none, accepted := none, cands := [], readDone := false, poll := [], window := false
      turned := [none, none], lastCd := false }
    cyc := { s.cyc with lineA := roll s.cyc.lineA, lineB := roll s.cyc.lineB } }

/-! ### The message window (R211-R217) -/

/-- MESSAGE_WINDOW_START (R182, R214), at the instant of Table 7.1. -/
def messageWindowStart (s : State) : State :=
  if !s.cycling then s
  else portsStart { s with
    cyc := { s.cyc with phase := max s.cyc.phase (messageWindow s).1 }
    tf := { s.tf with window := true, originated := 0 } }

def execMessageWindowStart : State → Host.Outcome State Fault Refusal := act 0 messageWindowStart

def execMsgTxDone (t : Nat) (p : Fin 4) : State → Host.Outcome State Fault Refusal := act t (msgTxDone p)

/-- A frame discarded by this node (R216, R217). -/
def msgDropped (s : State) : State := { s with tf := { s.tf with msgDrop := s.tf.msgDrop + 1 } }

/-- The history with a delivered number, or none for a duplicate (R215): bit i of the history stands for H - 1 - i. -/
def histTake (h : MsgHist) (m : Half) : Option MsgHist :=
  let ahead := (m - h.high).toNat
  if 1 ≤ ahead && ahead ≤ 32767 then
    some { h with high := m, bits := (h.bits <<< ahead) ||| (if ahead ≤ 32 then 1#32 <<< (ahead - 1) else 0) }
  else
    let below := (h.high - m).toNat
    if 1 ≤ below && below ≤ 32 && !h.bits.getLsbD (below - 1) then
      some { h with bits := h.bits ||| (1#32 <<< (below - 1)) }
    else none

/-- The histories after a frame of a source, or none for a duplicate. -/
def histsTake (l : List MsgHist) (src : Byte) (m : Half) : Option (List MsgHist) :=
  match l.find? (fun h => h.src = src) with
  | none => some (l ++ [⟨src, m, 0⟩])
  | some h => (histTake h m).map (fun x => l.map (fun y => if y.src = src then x else y))

/-- A delivered frame goes to the consumer of its `CLASS` (Table 7.6, R314, R387). -/
def msgConsume (cls src dst : Byte) (body : Bytes) (s : State) : State :=
  match cls.toNat with
  | 0 =>
    if !s.running then s
    else
      let r := poolStore (queueCore s) body s
      match r.2.head? with
      | none => r.1
      | some b =>
        if 32 ≤ r.1.tf.coreQ.length then coreQueueFull 5 b r.1
        else { r.1 with tf := { r.1.tf with coreQ := r.1.tf.coreQ ++ [(b, src)] } }
  | 1 => if dst = 0xFF then s else pduArrive .backbone (src.setWidth 48) body s
  | 2 => shFromBackbone src body s
  | _ => s

/-- MSG_FRAME_RX (R214-R217). -/
def msgFrameRx (p : Nat) (payload : Bytes) (s : State) : State :=
  if !s.cycling || (s.hp p).speed = 0 || field payload 0 1 ≠ 2 || field payload 1 1 ≠ 1 then s
  else if payload.length < 16 || field payload 14 2 ≠ (crc16 (payload.take 14)).toNat
      || s.hg.ttr.isNone || field payload 4 4 ≠ s.hg.icount.toNat then
    raise 0x2052 noInst [] (msgDropped s)
  else
    let src := payload.getD 2 0
    let dst := payload.getD 3 0
    let own := dst.toNat = ownNumber s
    let q := opposite p
    let s :=
      if own || (s.hp q).speed = 0 then s
      else if 32 ≤ (s.tf.fwd.getD q []).length then raise 0x2050 q [] (msgDropped s)
      else portStart q { s with tf := { s.tf with fwd := s.tf.fwd.modify q (· ++ [payload]) } }
    if !own && dst ≠ 0xFF then s
    else
      match histsTake s.tf.hist src (BitVec.ofNat 16 (field payload 8 2)) with
      | none => s
      | some h =>
        msgConsume (payload.getD 11 0) src dst ((payload.drop 16).take (field payload 12 2))
          { s with tf := { s.tf with hist := h, msgRx := s.tf.msgRx + 1 } }

def execMsgFrameRx (t : Nat) (p : Fin 4) (payload : Bytes) : State → Host.Outcome State Fault Refusal :=
  act t (msgFrameRx p payload)

end Sys2Proof.Machine
end

