-- ==== Sys2Proof/Machine/JnisNet.lean ====
section
/-! DEFINITION. JNIS (13): the field, network, buffer and system instructions (Tables 13.8-13.12), with their refusals
(R375). -/

namespace Sys2Proof.Machine

/-! ### Results and refusals (R371, R375) -/

/-- Values put into the register group from `d` on (R371). -/
def regsPut (d : BitVec 5) : List Word → Core → Core
  | [], c => c
  | v :: r, c => regsPut (d + 1) r (regPut d v c)

/-- The instruction is not refused: V = 0 (R375). -/
def done_ (c : Core) : Core := { c with v := false }

/-- A result with ZN of g[d] and C. -/
def answer (d : BitVec 5) (vs : List Word) (carry : Bool) (c : Core) : Core :=
  { setZn (vs.headD 0) (regsPut d vs c) with c := carry, v := false }

/-- A result code without ZN: C on success, V on refusal (R375). -/
def answerCode (d : BitVec 5) (v : Word) (ok : Bool) (c : Core) : Core :=
  { regsPut d [v] c with c := ok, v := !ok }

/-- Event 0x8041 with the opcode and the object (R375). -/
def refusedEvent (op : Nat) (obj : Word) (s : State) : State := raise 0x8041 noInst [w32 op, obj] s

/-- A refusal that writes 0 to `k` registers from `d` on, with ZN where the row names it (R375). -/
def refuseCore (d : BitVec 5) (k : Nat) (zn : Bool) (c : Core) : Core :=
  let c := regsPut d (List.replicate k 0) c
  { (if zn then setZn 0 c else c) with c := false, v := true }

/-- A refusal with event 0x8041. -/
def refuse (op : Nat) (obj : Word) (d : BitVec 5) (k : Nat) (zn : Bool) (s : State) : State :=
  refusedEvent op obj (activeMod (refuseCore d k zn) s)

/-- A service instruction of 4 cycles: its whole effect, then the next instruction. -/
def service (ok : Bool) (f : Core → State → State) : State → State :=
  instr 4 (legal ok (fun c s => continueFrom c.pc (f c s)))

/-- What was captured or published at an instant is visible 2 ticks later (R97). -/
def visible (s : State) (at_ : Nat) : Bool := at_ + 16 ≤ s.now

/-! ### Field instructions (R383, R384) -/

/-- Channel of a field instruction: g[a] + imm16[7:0]. -/
def chanOf (c : Core) (a : BitVec 5) (ch : Byte) : Nat := (reg c a + ch.setWidth 32).toNat

/-- SAMP. -/
def sampOp (d a : BitVec 5) (k : Byte) (c : Core) (s : State) : State :=
  let n := chanOf c a k
  if 31 < n || chMode s n = 0 then refuse 0x20 (w32 n) d 2 true s
  else
    let ch := s.chan n
    let x := if visible s ch.cap.at_ then ch.cap else ch.capPrev
    activeMod (answer d [x.state, x.volt] ((x.state >>> (16 : Nat)).setWidth 16 = s.cyc.cyc)) s

def execSamp (d a : BitVec 5) (ch : Byte) : State → Host.Outcome State Fault Refusal :=
  actJ (service (groupOk 2 d) (sampOp d a ch))

/-- DRV: d is a source. -/
def drvOp (d a : BitVec 5) (k : Byte) (c : Core) (s : State) : State :=
  let n := chanOf c a k
  if 31 < n || chMode s n ≠ 5 then refuse 0x21 (w32 n) d 0 false s
  else
    let s := activeMod (fun x => { x with c := overridden (s.chan n), v := false }) s
    chanMod n (fun x => { x with pend := x.pend ++ [((reg c d).getLsbD 0, s.now)] }) s

def execDrv (d a : BitVec 5) (ch : Byte) : State → Host.Outcome State Fault Refusal := actJ (service true (drvOp d a ch))

/-- CNTR. -/
def cntrOp (d a : BitVec 5) (k : Byte) (c : Core) (s : State) : State :=
  let n := chanOf c a k
  if 31 < n || chMode s n ≠ 4 then refuse 0x22 (w32 n) d 2 true s
  else
    let ch := s.chan n
    let x := if visible s ch.latch.at_ then ch.latch else ch.latchPrev
    activeMod (answer d [x.value, x.cyc.setWidth 32 <<< (16 : Nat)] (x.cyc = s.cyc.cyc)) s

def execCntr (d a : BitVec 5) (ch : Byte) : State → Host.Outcome State Fault Refusal :=
  actJ (service (groupOk 2 d) (cntrOp d a ch))

/-- MEAS. -/
def measOp (d a : BitVec 5) (set item : BitVec 4) (c : Core) (s : State) : State :=
  let e := (reg c a + item.setWidth 32).toNat
  match (s.image.elim [] (fun im => setCodes im set.toNat))[e]? with
  | none => refuse 0x23 (set.setWidth 32) d 2 true s
  | some q =>
    let k := 16 * set.toNat + e
    let x := if visible s (smGet {} s.ms.caps k).at_ then smGet {} s.ms.caps k else smGet {} s.ms.capsPrev k
    activeMod (answer d [x.value, w32 (x.cyc.toNat * 65536 + q.toNat)] (x.cyc = s.cyc.cyc)) s

def execMeas (d a : BitVec 5) (set : BitVec 4) (item : BitVec 4) : State → Host.Outcome State Fault Refusal :=
  actJ (service (groupOk 2 d) (measOp d a set item))

/-! ### Window and snapshot (R385, R386) -/

/-- A word of the own window buffer. -/
def winPut (wlen w : Nat) (v : Word) (win : List Word) : List Word :=
  ((win ++ List.replicate (wlen - win.length) 0).take wlen).set w v

/-- TWW: d is a source. -/
def twwOp (d a : BitVec 5) (finished : Bool) (k : Byte) (c : Core) (s : State) : State :=
  let w := chanOf c a k
  let wlen := s.image.elim 0 (fun im => im.node.wlen.toNat)
  if wlen ≤ w then refuse 0x28 (w32 w) d 0 false s
  else
    activeMod done_ { s with tf := { s.tf with
      win := winPut wlen w (reg c d) s.tf.win, ready := if finished then .data else s.tf.ready } }

def execTww (d a : BitVec 5) (finished : Bool) (w : Byte) : State → Host.Outcome State Fault Refusal :=
  actJ (service true (twwOp d a finished w))

/-- TNUL. -/
def tnulOp (_ : Core) (s : State) : State := activeMod done_ { s with tf := { s.tf with ready := .null } }

def execTnul : State → Host.Outcome State Fault Refusal := actJ (service true tnulOp)

/-- The published snapshot an instruction sees. -/
def snapSeen (s : State) : Snapshot := if visible s s.tf.snap.at_ then s.tf.snap else s.tf.snapPrev

/-- Offset of the window of a number in a snapshot. -/
def snapWindow (x : Snapshot) (n : Nat) : Option Nat :=
  if n = 0 then none else x.offs.find? (fun o => field x.payload o 1 = n)

/-- C of `TWR` modes 0 and 1: fresh, neither null nor muted, in a valid snapshot. -/
def snapGood (x : Snapshot) (off : Nat) : Bool :=
  winFlag x.payload off 0 && !winFlag x.payload off 1 && !winFlag x.payload off 3 && x.valid

/-- TWR mode 0. -/
def twrWordOp (d a : BitVec 5) (k : Byte) (c : Core) (s : State) : State :=
  let x := snapSeen s
  let n := (reg c a).toNat % 64
  let w := (reg c a).toNat / 256 % 256 + k.toNat
  match snapWindow x n with
  | none => refuse 0x29 (w32 n) d 1 true s
  | some off =>
    if field x.payload (off + 3) 1 ≤ w then refuse 0x29 (w32 n) d 1 true s
    else activeMod (answer d [w32 (field x.payload (off + 4 + 4 * w) 4)] (snapGood x off)) s

def execTwrWindowWord (d a : BitVec 5) (w : Byte) : State → Host.Outcome State Fault Refusal :=
  actJ (service true (twrWordOp d a w))

/-- TWR mode 1. -/
def twrHeaderOp (d a : BitVec 5) (c : Core) (s : State) : State :=
  let x := snapSeen s
  let n := (reg c a).toNat % 64
  match snapWindow x n with
  | none => refuse 0x29 (w32 n) d 1 true s
  | some off => activeMod (answer d [w32 (field x.payload off 4)] (snapGood x off)) s

def execTwrWindowHeader (d a : BitVec 5) : State → Host.Outcome State Fault Refusal :=
  actJ (service true (twrHeaderOp d a))

/-- TWR mode 2. -/
def twrFrameOp (d : BitVec 5) (w : BitVec 3) (_ : Core) (s : State) : State :=
  let x := snapSeen s
  activeMod (answer d [w32 (field x.payload (4 * w.toNat) 4)] x.valid) s

def execTwrFrameHeader (d : BitVec 5) (w : BitVec 3) : State → Host.Outcome State Fault Refusal :=
  actJ (service true (twrFrameOp d w))

/-! ### Vehicle network (R385-R387) -/

/-- Body bytes a node-owned slot carries: L_S - 34; none for another slot. -/
def ownSlotRoom (s : State) (k : Nat) : Option Nat :=
  s.star.bind (fun st => if slotOwner st k = 0x0C then some (lStatic st - 34) else none)

/-- VSND mode 0: d is a source. -/
def vsndWordOp (d a : BitVec 5) (slot : BitVec 6) (c : Core) (s : State) : State :=
  let w := (reg c a).toNat % 256
  match ownSlotRoom s slot.toNat with
  | none => refuse 0x2B (slot.setWidth 32) d 0 false s
  | some room =>
    if room ≤ 4 * w then refuse 0x2B (slot.setWidth 32) d 0 false s
    else activeMod done_ (slotMod slot.toNat (slotPut (4 * w) (beBytes 4 (reg c d).toNat)) s)

def execVsndWord (d a : BitVec 5) (slot : BitVec 6) : State → Host.Outcome State Fault Refusal :=
  actJ (service true (vsndWordOp d a slot))

/-- VSND mode 1: d is a source. -/
def vsndCompleteOp (d a : BitVec 5) (slot : BitVec 6) (c : Core) (s : State) : State :=
  let len := (reg c d).toNat % 2048
  match ownSlotRoom s slot.toNat with
  | none => refuse 0x2B (slot.setWidth 32) d 0 false s
  | some room =>
    if room < len then refuse 0x2B (slot.setWidth 32) d 0 false s
    else activeMod done_ (slotMod slot.toNat (fun x => { x with done := some (len, (reg c a).getLsbD 0) }) s)

def execVsndComplete (d a : BitVec 5) (slot : BitVec 6) : State → Host.Outcome State Fault Refusal :=
  actJ (service true (vsndCompleteOp d a slot))

/-- VSND mode 2: d is a source. -/
def vsndDynamicOp (d a : BitVec 5) (c : Core) (s : State) : State :=
  let id := (reg c d).toNat % 512
  let b := (reg c a).toNat
  let bs := chainOf s b
  if dynFault s (coreOwner s) bs id (chainLen s bs) then refuse 0x2B (w32 id) d 0 false s
  else activeMod (fun c => { c with c := true, v := false }) (dynPost id b false s)

def execVsndDynamic (d a : BitVec 5) : State → Host.Outcome State Fault Refusal := actJ (service true (vsndDynamicOp d a))

/-- The `VN_READ` publication an instruction sees. -/
def pubSeen (s : State) : Publication := if visible s s.vn.pub.at_ then s.vn.pub else s.vn.pubPrev

/-- A static slot's entry in that publication; none above N_S - 1. -/
def pubSlot (s : State) (k : Nat) : Option PubSlot :=
  s.star.bind (fun st => if k < st.nS then some ((pubSeen s).slots.getD k {}) else none)

/-- C of `VRCV` modes 0 and 1. -/
def pubData (s : State) (x : PubSlot) : Bool := (pubSeen s).valid && x.status = 0

/-- The word of a body; bytes beyond `LEN` in its last word are free (log 5). -/
def bodyWord (mark w : Nat) (body : Bytes) : Word :=
  w32 (beNat ((List.range 4).map (fun i => (body[4 * w + i]?).getD (Config.freeByte mark (4 * w + i)))))

/-- VRCV mode 0. -/
def vrcvWordOp (d a : BitVec 5) (slot : BitVec 6) (c : Core) (s : State) : State :=
  let w := (reg c a).toNat % 256
  match pubSlot s slot.toNat with
  | none => refuse 0x2C (slot.setWidth 32) d 1 true s
  | some x =>
    if x.body.length ≤ 4 * w then refuse 0x2C (slot.setWidth 32) d 1 true s
    else drawn (activeMod (answer d [bodyWord s.free w x.body] (pubData s x)) s)

def execVrcvWord (d a : BitVec 5) (slot : BitVec 6) : State → Host.Outcome State Fault Refusal :=
  actJ (service true (vrcvWordOp d a slot))

/-- Status word of a slot (`VRCV` mode 1, `VN_SLOT`). -/
def pubWord (x : PubSlot) : Word := w32 (x.status.toNat + 16 * x.flags.toNat + 65536 * (x.body.length % 2048))

/-- VRCV mode 1. -/
def vrcvStatusOp (d : BitVec 5) (slot : BitVec 6) (_ : Core) (s : State) : State :=
  match pubSlot s slot.toNat with
  | none => refuse 0x2C (slot.setWidth 32) d 2 true s
  | some x => activeMod (answer d [pubWord x, (pubSeen s).cyc.setWidth 32] (pubData s x)) s

def execVrcvStatus (d : BitVec 5) (slot : BitVec 6) : State → Host.Outcome State Fault Refusal :=
  actJ (service (groupOk 2 d) (vrcvStatusOp d slot))

/-- VRCV mode 2. -/
def vrcvDynamicOp (d : BitVec 5) (_ : Core) (s : State) : State :=
  match s.vn.coreQ with
  | [] => activeMod (fun c => { regPut d 0xFFFFFFFF c with c := false, v := false }) s
  | (id, b) :: r =>
    let s := chainOwner (coreOwner s) (chainOf s b) { s with vn := { s.vn with coreQ := r } }
    activeMod (fun c => { regPut d (w32 (b % 4096 + id % 512 * 65536)) c with c := true, v := false }) s

def execVrcvDynamic (d : BitVec 5) : State → Host.Outcome State Fault Refusal := actJ (service true (vrcvDynamicOp d))

/-! ### Message frames (R385, R387) -/

/-- Frames of tasks in the own queue. -/
def ownHeld (s : State) : Nat := (s.tf.own.filter (fun m => m.cls = 0)).length

/-- Result code of `MPOST` mode 0. -/
def mpostCode (s : State) (bs : List Nat) (dst : Byte) : Nat :=
  if 16 ≤ ownHeld s then 1
  else if !ownsAll s (coreOwner s) bs || 1536 < chainLen s bs then 2
  else if !((1 ≤ dst.toNat && dst.toNat ≤ 63) || dst = 0xFF) then 3
  else 0

/-- MPOST mode 0: ownership passes to the train frame engine (Table 9.4). -/
def mpostSendOp (d a : BitVec 5) (dst : Byte) (c : Core) (s : State) : State :=
  let b := (reg c a).toNat
  let bs := chainOf s b
  let k := mpostCode s bs dst
  let s := activeMod (answerCode d (w32 k) (k = 0)) s
  if k ≠ 0 then s
  else
    ownAdd { shutter := false, buf := some b, body := [], cls := 0, dst := dst, mseq := none, ports := [] }
      (chainOwner 0x3E bs s)

def execMpostSend (d a : BitVec 5) (dst : Byte) : State → Host.Outcome State Fault Refusal :=
  actJ (service true (mpostSendOp d a dst))

/-- MPOST mode 1. -/
def mpostTakeOp (d : BitVec 5) (_ : Core) (s : State) : State :=
  match s.tf.coreQ with
  | [] => activeMod (fun c => { regPut d 0xFFFFFFFF c with c := false, v := false }) s
  | (b, src) :: r =>
    let s := chainOwner (coreOwner s) (chainOf s b) { s with tf := { s.tf with coreQ := r } }
    activeMod (fun c => { regPut d (w32 (b % 4096 + src.toNat * 65536)) c with c := true, v := false }) s

def execMpostTake (d : BitVec 5) : State → Host.Outcome State Fault Refusal := actJ (service true (mpostTakeOp d))

/-! ### Buffers (R388) -/

/-- BALLOC. -/
def ballocOp (d : BitVec 5) (n : Nat) (_ : Core) (s : State) : State :=
  let r := poolAlloc n (coreOwner s) 0 s
  match r.2.head? with
  | none => activeMod (answerCode d 0xFFFFFFFF false) r.1
  | some b => activeMod (answerCode d (w32 b) true) r.1

def execBalloc (d : BitVec 5) (n : BitVec 4) : State → Host.Outcome State Fault Refusal :=
  actJ (service (1 ≤ n.toNat && n.toNat ≤ 8) (ballocOp d n.toNat))

/-- BFREE. -/
def bfreeOp (d a : BitVec 5) (c : Core) (s : State) : State :=
  let r := freeChain (reg c a).toNat (coreOwner s) s
  activeMod (answerCode d (w32 r.2) (r.2 = 0)) r.1

def execBfree (d a : BitVec 5) : State → Host.Outcome State Fault Refusal := actJ (service true (bfreeOp d a))

/-! ### System instructions (R389, R390) -/

/-- LOGE: d is a source. C tells whether the OPL took the record or a repeat count. -/
def logeOp (d a : BitVec 5) (inc : Bool) (k : BitVec 12) (c : Core) (s : State) : State :=
  let code : Half := 0xA000 + k.setWidth 16
  let inst : Byte := (reg c a).setWidth 8
  let data := [reg c d]
  let took := oplSame s.lg code inst data || !(oplAdd true code inst data s.lg).oplFull
  activeMod (fun c => { c with c := took, v := false }) (raiseTo ⟨true, inc, true⟩ code inst data s)

def execLoge (d a : BitVec 5) (inc : Bool) (code : BitVec 12) : State → Host.Outcome State Fault Refusal :=
  actJ (service true (logeOp d a inc code))

/-- GATE. -/
def gateOp (a : BitVec 5) (c : Core) (s : State) : State :=
  let v := (reg c a).toNat % 4
  if v = 3 then refuse 0x39 3 0 0 false s
  else activeMod done_ { s with sh := { s.sh with gate := some v } }

def execGate (a : BitVec 5) : State → Host.Outcome State Fault Refusal := actJ (service true (gateOp a))

/-- BENCH: a `CORE_REPAIR` is refused with reason 0x04. -/
def benchOp (d a : BitVec 5) (kind : BitVec 4) (c : Core) (s : State) : State :=
  let r := if kind = 5 then (raise 0x7022 5 [4] s, 0x80000004)
    else benchAsk true false kind.toNat ((reg c a).toNat % 256) s
  activeMod (answerCode d r.2 (!r.2.msb)) r.1

def execBench (d a : BitVec 5) (kind : BitVec 4) : State → Host.Outcome State Fault Refusal :=
  actJ (service true (benchOp d a kind))

/-- Whether a checkpoint save is accepted (R420, Table 14.14): 0 yes, 1 a save is pending, 2 no complete copy. -/
def chkAsk (s : State) : Nat :=
  if s.nv.chkPending then 1 else if (chkLatest s).isNone then 2 else 0

/-- CHKP. The event's object is not numbered (log 21). -/
def chkpOp (d : BitVec 5) (_ : Core) (s : State) : State :=
  let k := chkAsk s
  let s := activeMod (answerCode d (w32 k) (k = 0)) s
  if k = 0 then { s with nv := { s.nv with chkPending := true } }
  else refusedEvent 0x3B (Config.eventItem 0x8041 0x3B) s

def execChkp (d : BitVec 5) : State → Host.Outcome State Fault Refusal := actJ (service true (chkpOp d))

/-! ### Functions of `SYSR` (R391, Table 13.12) -/

/-- A function that returns words and is never refused. -/
def sysr (d : BitVec 5) (k : Nat) (f : State → List Word) : State → Host.Outcome State Fault Refusal :=
  actJ (service (groupOk k d) (fun _ s => activeMod (answer d (f s) true) s))

/-- CYC. -/
def cycWord (s : State) : Word := w32 (s.cyc.cyc.toNat + macroPos s * 65536)

def execCyc (d : BitVec 5) : State → Host.Outcome State Fault Refusal := sysr d 1 (fun s => [cycWord s])

/-- TICK. -/
def tickWord (s : State) : Word := w32 (s.cyc.phase / 8)

def execTick (d : BitVec 5) : State → Host.Outcome State Fault Refusal := sysr d 1 (fun s => [tickWord s])

/-- TT. -/
def execTt (d : BitVec 5) : State → Host.Outcome State Fault Refusal := sysr d 2 (fun s => words64 (ttNow s))

/-- NODE. -/
def nodeWord (s : State) : Word :=
  w32 (ownNumber s % 64 + 256 * s.pwr.node.code + 2048 * bit1 s.cyc.mode.valid + 4096 * s.cyc.mode.code
    + 65536 * s.hg.st.code + 2 ^ 20 * bit1 (isOrigin s) + 2 ^ 21 * bit1 (s.cr.active = 1))

def execNode (d : BitVec 5) : State → Host.Outcome State Fault Refusal := sysr d 1 (fun s => [nodeWord s])

/-- ORDFLAG. -/
def execOrdflag (d : BitVec 5) : State → Host.Outcome State Fault Refusal := sysr d 1 (fun s => [s.cr.ordFlag])

/-- AWAKE: the flag is set and the previous one returned. -/
def awakeOp (d a : BitVec 5) (c : Core) (s : State) : State :=
  let old := s.tf.taskAwake
  activeMod (answer d [w32 (bit1 old)] true) { s with tf := { s.tf with taskAwake := (reg c a).getLsbD 0 } }

def execAwake (d a : BitVec 5) : State → Host.Outcome State Fault Refusal := actJ (service true (awakeOp d a))

/-- CHKP_STAT: without a complete copy `SEQ` and `CYC` are free (log 5). -/
def chkpStatOp (d : BitVec 5) (_ : Core) (s : State) : State :=
  match chkLatest s with
  | some (_, x) => activeMod (answer d [x.seq, w32 (2 ^ 31 + x.cyc.toNat)] true) s
  | none => drawn (activeMod (answer d [s.freeWord, w32 (s.freeWord.toNat % 65536)] true) s)

def execChkpStat (d : BitVec 5) : State → Host.Outcome State Fault Refusal :=
  actJ (service (groupOk 2 d) (chkpStatOp d))

/-- BENCH_RES. -/
def benchResOp (d a : BitVec 5) (c : Core) (s : State) : State :=
  let t := (reg c a).toNat % 16
  match (s.bn.results.take 16).find? (fun r => r.ticket = t) with
  | none => refuse 0x3C (w32 t) d 2 true s
  | some r => activeMod (answer d [w32 (r.status + 16 * r.kind + 256 * r.obj), r.detail] true) s

def execBenchRes (d a : BitVec 5) : State → Host.Outcome State Fault Refusal :=
  actJ (service (groupOk 2 d) (benchResOp d a))

/-! ### Buffer access (R273, R391) -/

/-- Owner of a buffer as events show it (R283): 0xFF outside the pool. -/
def shownOwner (s : State) (b : Nat) : Word := if inPool s b then (s.buf b).owner.setWidth 32 else 0xFF

/-- A refused buffer access: event 0x8042 with the buffer, its owner and the function (R391). -/
def bufRefused (fn b : Nat) (d : BitVec 5) (k : Nat) (s : State) : State :=
  raise 0x8042 noInst [w32 b, shownOwner s b, w32 fn] (activeMod (refuseCore d k (k ≠ 0)) s)

/-- A buffer may be accessed at an offset by a party. -/
def bufOk (s : State) (party : Byte) (b off : Nat) : Bool :=
  inPool s b && (s.buf b).owner = party && off % 4 = 0 && off ≤ 252

/-- A word of a buffer. -/
def bufWord (s : State) (b off : Nat) : Word := w32 (field (s.buf b).data off 4)

/-- A word put into a buffer: a write of part of a unit corrects a single-bit error first (R273). -/
def bufPut (b off : Nat) (v : Word) (s : State) : State :=
  let u := 16 * b + off / 16
  let s := unitsWritten [u] (unitsRead [u] s)
  bufMod b (fun x => { x with data := patch (padTo 256 x.data) off (beBytes 4 v.toNat) }) s

/-- BUF_RD. -/
def bufRdOp (d a b : BitVec 5) (c : Core) (s : State) : State :=
  let n := (reg c a).toNat
  let off := (reg c b).toNat
  let u := 16 * n + off / 16
  if !bufOk s (coreOwner s) n off then bufRefused 0x10 n d 1 s
  else if unitErr s u = some true then poolUncorr (activeMod (refuseCore d 1 true) s)
  else unitsRead [u] (activeMod (answer d [bufWord s n off] true) s)

def execBufRd (d a b : BitVec 5) : State → Host.Outcome State Fault Refusal := actJ (service true (bufRdOp d a b))

/-- BUF_WR: d is a source. -/
def bufWrOp (d a b : BitVec 5) (c : Core) (s : State) : State :=
  let n := (reg c a).toNat
  let off := (reg c b).toNat
  if !bufOk s (coreOwner s) n off then bufRefused 0x11 n d 0 s
  else if unitErr s (16 * n + off / 16) = some true then poolUncorr (activeMod (refuseCore d 0 false) s)
  else bufPut n off (reg c d) (activeMod done_ s)

def execBufWr (d a b : BitVec 5) : State → Host.Outcome State Fault Refusal := actJ (service true (bufWrOp d a b))

/-- A descriptor set by its owner (Tables 9.3 and 13.12): `BLEN`, `TAGGED`, `TS_REQ`, `TCI`, and `COOKIE` in a `FIRST`
buffer. -/
def bufDescribe (w : Word) (cookie : Half) (x : Buf) : Buf :=
  let tag : Byte := (if w.getLsbD 9 then fTagged else 0) ||| (if w.getLsbD 10 then fTsReq else 0)
  { x with
    blen := BitVec.ofNat 16 (w.toNat % 512), tci := (w >>> (16 : Nat)).setWidth 16
    flags := (x.flags &&& ~~~(fTagged ||| fTsReq)) ||| tag
    tstamp := if x.has fFirst then (x.tstamp &&& 0x0000FFFFFFFFFFFF) ||| (cookie.setWidth 64 <<< (48 : Nat)) else x.tstamp }

/-- A descriptor word names a legal `BLEN`. -/
def blenOk (w : Word) : Bool := 1 ≤ w.toNat % 512 && w.toNat % 512 ≤ 256

/-- BUF_SET: d is a source. -/
def bufSetOp (d a b : BitVec 5) (c : Core) (s : State) : State :=
  let n := (reg c a).toNat
  let w := reg c b
  if !(bufOk s (coreOwner s) n 0 && blenOk w) then bufRefused 0x12 n d 0 s
  else bufMod n (bufDescribe w ((reg c d).setWidth 16)) (activeMod done_ s)

def execBufSet (d a b : BitVec 5) : State → Host.Outcome State Fault Refusal := actJ (service true (bufSetOp d a b))

/-- The four descriptor words of a buffer (Table 9.3). -/
def descWords (x : Buf) : List Word :=
  [w32 (x.next.toNat * 65536 + x.owner.toNat * 256 + x.flags.toNat), w32 (x.blen.toNat * 65536 + x.tci.toNat)]
    ++ words64 x.tstamp

/-- BUF_GET. -/
def bufGetOp (d a : BitVec 5) (c : Core) (s : State) : State :=
  let n := (reg c a).toNat
  if 4095 < n then refuse 0x3C (w32 n) d 4 true s
  else activeMod (answer d (descWords (s.buf n)) true) s

def execBufGet (d a : BitVec 5) : State → Host.Outcome State Fault Refusal := actJ (service (groupOk 4 d) (bufGetOp d a))

/-! ### Equipment ports (R270, R278, R391) -/

/-- EQ_POST. -/
def eqPostOp (d a b : BitVec 5) (c : Core) (s : State) : State :=
  let w := (reg c b).toNat
  let r := postChain (reg c a).toNat (coreOwner s) (w % 4) (w / 256 % 8) s
  activeMod (fun c => { answer d [w32 r.2] (r.2 = 0) c with v := r.2 ≠ 0 }) r.1

def execEqPost (d a b : BitVec 5) : State → Host.Outcome State Fault Refusal := actJ (service true (eqPostOp d a b))

/-- EQ_TAKE. -/
def eqTakeOp (d b : BitVec 5) (c : Core) (s : State) : State :=
  let n := (reg c b).toNat % 4
  match (s.eqp n).coreQ with
  | [] => activeMod (answer d [0xFFFFFFFF] false) s
  | x :: r =>
    let s := chainOwner (coreOwner s) (chainOf s x) (eqMod n (fun p => { p with coreQ := r }) s)
    activeMod (answer d [w32 x] true) s

def execEqTake (d b : BitVec 5) : State → Host.Outcome State Fault Refusal := actJ (service true (eqTakeOp d b))

/-- EQ_TXTS (R487): an empty FIFO reads as its registers do, 0. -/
def eqTxtsOp (d b : BitVec 5) (c : Core) (s : State) : State :=
  let n := (reg c b).toNat % 4
  match (s.eqp n).stamps with
  | [] => activeMod (answer d [0, 0, 0] false) s
  | (cookie, tt) :: _ =>
    stampPop n (activeMod (answer d (w32 (2 ^ 31 + cookie.toNat) :: words64 tt) true) s)

def execEqTxts (d b : BitVec 5) : State → Host.Outcome State Fault Refusal := actJ (service (groupOk 3 d) (eqTxtsOp d b))

end Sys2Proof.Machine
end

