-- ==== Sys2Proof/Machine/RegMap.lean ====
section
/-! DEFINITION. What an address of the host port reaches (17): regions, mirrors, aliases, groups and listed words. -/

namespace Sys2Proof.Machine

/-- What an address reaches (R474, Table 17.1): a whole register, one bit of it, one half of it, or a word of the train
frame snapshot. -/
inductive Reach
  | whole (off : Nat)
  | bit (off k : Nat)
  | half (off : Nat) (high : Bool)
  | snap (word : Nat)
deriving DecidableEq, Repr

/-- The mirrors inside register space (R475, Table 17.2). -/
def blockOff (o : Nat) : Nat :=
  if 0x0800 ≤ o && o < 0x1000 then 0x0800 + o % 0x400
  else if 0x2000 ≤ o && o < 0x3000 then 0x2000 + o % 0x800
  else if 0x3000 ≤ o && o < 0x3800 then 0x3000 + o % 0x400
  else if 0x4000 ≤ o then 0x4000 + o % 0x800
  else o

/-- The bases of the register groups but the channel sets (Table 17.3), in ascending order. -/
def groupBases : List Nat :=
  [0x0000, 0x0080, 0x0100, 0x0180, 0x0200, 0x0400, 0x0800, 0x0880, 0x0900, 0x0A00, 0x1000, 0x1800, 0x3000, 0x3200,
   0x3800, 0x3900, 0x3A00, 0x3B00, 0x3C00, 0x3E00, 0x4000, 0x4200, 0x4400, 0x4500, 0x4600]

/-- The group an offset lies in: its base. -/
def groupBase (o : Nat) : Nat := groupBases.foldl (fun g b => if b ≤ o then b else g) 0

/-- The listed words of the group at a base (Tables 17.4 to 17.10). -/
def listedWord (base w : Nat) : Bool :=
  if base = 0x0000 then w ≤ 13
  else if base = 0x0080 then w ≤ 11
  else if base = 0x0100 || base = 0x0180 then w ≤ 2
  else if base = 0x0200 then w ≤ 8
  else if base = 0x0400 then w ≤ 63
  else if base = 0x0800 || base = 0x0880 then w ≤ 3 || (16 ≤ w && w ≤ 31)
  else if base = 0x0900 then w ≤ 4 || (16 ≤ w && w ≤ 31)
  else if base = 0x0A00 then w ≤ 4
  else if base = 0x1000 then w ≤ 22
  else if base = 0x1800 then w ≤ 4 || (8 ≤ w && w ≤ 17) || (32 ≤ w && w ≤ 39) || (64 ≤ w && w ≤ 378)
  else if base = 0x3000 then w ≤ 3 || (64 ≤ w && w ≤ 127)
  else if base = 0x3200 then w ≤ 95
  else if 0x3800 ≤ base && base ≤ 0x3B00 then w ≤ 17 || (32 ≤ w && w ≤ 63)
  else if base = 0x3C00 then w ≤ 4 || (8 ≤ w && w ≤ 11) || (64 ≤ w && w ≤ 127)
  else if base = 0x3E00 then w ≤ 3
  else if base = 0x4000 then w ≤ 5 || (8 ≤ w && w ≤ 10) || (12 ≤ w && w ≤ 31)
  else if base = 0x4200 then w = 0 || (16 ≤ w && w ≤ 47)
  else if base = 0x4400 || base = 0x4500 then w ≤ 6
  else w ≤ 5

/-- The word reached by clearing the highest set bit until a listed word is met (R476); word 0 is always listed. -/
def listedFrom (base : Nat) : Nat → Nat → Nat
  | 0, _ => 0
  | fuel + 1, w => if w = 0 || listedWord base w then w else listedFrom base fuel (w - 2 ^ w.log2)

/-- The register an offset of register space reaches: mirror, then group and word (R475, R476), with words 12-15 of a
channel set on 8-11 (R346). -/
def regOff (off : Nat) : Nat :=
  let o := blockOff (off % 0x8000 / 4 * 4)
  if 0x2000 ≤ o && o < 0x2800 then
    let w := o / 4 % 16
    if 12 ≤ w then o - 16 else o
  else
    let g := groupBase o
    g + 4 * listedFrom g 10 ((o - g) / 4)

/-- What a 20-bit address reaches (R474, R455, R456). -/
def reachOf (addr : Nat) : Reach :=
  let r := addr / 0x10000 % 16
  if r = 0 || r = 2 then .whole (regOff addr)
  else if r = 1 || r = 3 then .snap (addr / 4 % 2048)
  else if r < 8 then .bit (regOff (addr / 128 % 512 * 4)) (addr / 4 % 32)
  else .half (regOff (addr / 8 % 8192 * 4)) (addr / 4 % 2 = 1)

/-- How a register takes a write: never; at once; through its shadow; while not locked; as a pulse (Table 0.2). -/
inductive WriteKind | none | rw | ws | rwl | w1p
deriving DecidableEq, Repr

/-- Kind and writable bits of the registers of the control block (Table 17.4). -/
def writeControl (off : Nat) : WriteKind × Word :=
  if off = 0x008 then (.rw, 0x3)
  else if off = 0x010 then (.rw, 0x1F)
  else if 0x024 ≤ off && off ≤ 0x030 then (.rwl, 0xFFFFFFFF)
  else if off = 0x034 then (.rw, 0xFFFFFFFF)
  else if off = 0x180 then (.ws, 0xFFFFFFFF)
  else if off = 0x188 then (.w1p, 1)
  else if 0x200 ≤ off && off ≤ 0x20C then (.rw, 0xFFFFFFFF)
  else if off = 0x210 then (.rw, 0xFF)
  else if off = 0x220 then (.rw, 0x3)
  else if 0x400 ≤ off && off < 0x800 then (.rw, 0xFFFFFFFF)
  else (.none, 0)

/-- Kind and writable bits of the equipment and pool registers (Table 17.9). The descriptor words stand whole here; the
fields a host may write are R472's. -/
def writeEq (off : Nat) : WriteKind × Word :=
  if off < 0x3C00 then
    let o := off % 0x100
    if o = 0x40 then (.ws, 0x1F)
    else if o = 0x44 then (.w1p, 1)
    else if 0x80 ≤ o && o < 0xC0 then (.ws, if o % 8 = 0 then 0x7FFFF else 0xFFFFFFFF)
    else if 0xC0 ≤ o then (.ws, 0xFFFFFFFF)
    else (.none, 0)
  else if off = 0x3C04 then (.rw, 0x1F)
  else if off = 0x3C08 then (.rw, 0x037F0FFF)
  else if off = 0x3C0C then (.w1p, 1)
  else if (0x3C20 ≤ off && off ≤ 0x3C2C) || (0x3D00 ≤ off && off ≤ 0x3DFC) then (.rw, 0xFFFFFFFF)
  else (.none, 0)

/-- Kind and writable bits of a listed register (Tables 17.4 to 17.10, 11.8); a reserved bit is not writable (R7). -/
def writeOf (off : Nat) : WriteKind × Word :=
  if off < 0x800 then writeControl off
  else if off < 0x900 then
    let o := off % 0x80
    if o = 0 then (.rw, 0xFF) else if o = 4 then (.rw, 0xFFFFFFFF) else if o = 8 then (.w1p, 3) else (.none, 0)
  else if off = 0x910 then (.rw, 0xFFFF)
  else if 0x940 ≤ off && off ≤ 0x97C then (.rw, 0xFFFFFFFF)
  else if 0x2000 ≤ off && off < 0x2800 then if off / 4 % 16 = 7 then (.rw, 0x1F) else (.none, 0)
  else if 0x3800 ≤ off && off < 0x3E00 then writeEq off
  else if off = 0x4604 then (.rw, 0x7FF)
  else (.none, 0)

/-- The RC bits of a register (Tables 17.4 to 17.10, 11.8). -/
def rcBits (off : Nat) : Word :=
  if off = 0x004 then 0x100
  else if off = 0x21C then 0x3
  else if off = 0x90C then 0xFFFF
  else if off = 0x1004 then 0x300
  else if 0x2000 ≤ off && off < 0x2800 && off / 4 % 16 = 6 then 0x1F
  else if off = 0x3C00 then 0x1F
  else 0

/-- The host pool registers of R471, which serve the host port only (R468). -/
def hostPoolReg (off : Nat) : Bool := 0x3C08 ≤ off && off < 0x3E00

/-- The windows of R472 on the selected buffer. -/
def hostWindow (off : Nat) : Bool := (0x3C20 ≤ off && off ≤ 0x3C2C) || (0x3D00 ≤ off && off ≤ 0x3DFC)

end Sys2Proof.Machine
end

