-- ==== Sys2Proof/Machine/Plan.lean ====
section
/-! DEFINITION. The power plan's grid entries and level vectors (03, 04), and the DMA engine (04, 14). -/

namespace Sys2Proof.Machine

/-! ### The power plan (R62-R64, R91, R100, R101) -/

/-- PWR_ON, PWR_OFF, PWR_LOW: the controller of the domain calls for a level. -/
def planFire (l : Level) (e : GridEntry) (s : State) : State :=
  if planned e.target.toNat then planSwitch e.target.toNat l s else s

def pwrOnRun (entry : Nat) : State → State := gridFire 0x10 entry (planFire .on)

def execPwrOn (entry : Nat) : State → Host.Outcome State Fault Refusal := act 0 (pwrOnRun entry)

def pwrOffRun (entry : Nat) : State → State := gridFire 0x11 entry (planFire .off)

def execPwrOff (entry : Nat) : State → Host.Outcome State Fault Refusal := act 0 (pwrOffRun entry)

def pwrLowRun (entry : Nat) : State → State := gridFire 0x12 entry (planFire .low)

def execPwrLow (entry : Nat) : State → Host.Outcome State Fault Refusal := act 0 (pwrLowRun entry)

/-- The field of a domain in a level vector (R398): 0 `OFF`, 1 `ON`, 2 `LOW`, 3 unplanned. -/
def vecField (v : BitVec 256) (d : Nat) : Nat := v.toNat / 4 ^ d % 4

/-- The level a field stands for. -/
def vecLevel (k : Nat) : Option Level :=
  if k = 0 then some .off else if k = 1 then some .on else if k = 2 then some .low else none

/-- At a cycle start every planned domain's controller calls for the level of the position's vector (R91, R100). -/
def vectorApply (s : State) : State :=
  match s.image with
  | none => s
  | some im =>
    match im.pwrvec[macroPos s - 1]? with
    | none => s
    | some v =>
      { s with pwr := { s.pwr with doms := s.pwr.doms.zipIdx.map (fun e =>
          match if planned e.2 then vecLevel (vecField v e.2) else none with
          | some l => { e.1 with ctrl := l }
          | none => e.1) } }

/-! ### DMA (Tables 4.2 and 14.6) -/

/-- The data banks a transfer addresses. -/
def dmaBanks (space addr n : Nat) : List Nat :=
  if space = 0 then (List.range 4).filter (fun b => decide (addr / 65536 ≤ b) && decide (b ≤ (addr + n - 1) / 65536)) else []

/-- A domain the transfer needs and does not find `ON` (R67): its data banks, and the star for the slot buffers and the
publication. -/
def dmaMissing (s : State) (d : DmaDesc) : Option Nat :=
  let need (space addr : Nat) : List Nat :=
    (dmaBanks space addr d.length).map (114 + ·) ++ (if space = 3 || space = 4 then [12] else [])
  (need d.src.toNat d.srcAddr ++ need d.dst.toNat d.dstAddr).find? (fun x => !usable s x)

/-- The core whose data banks serve. -/
def dataCore (s : State) : Core := if rxcData s then s.cr.rxc else s.cr.pxc

/-- The data words of a transfer that hold an error. -/
def dmaErrs (s : State) (d : DmaDesc) : List (Nat × Bool) :=
  if d.src = 0 then
    (dataCore s).dataErr.filter (fun e => decide (d.srcAddr ≤ 4 * e.1) && decide (4 * e.1 < d.srcAddr + d.length))
  else []

/-- The bytes a transfer reads. -/
def dmaSource (s : State) (d : DmaDesc) : Bytes :=
  match d.src.toNat with
  | 0 => dataBytesAt (dataCore s) d.srcAddr d.length
  | 1 => slice (s.tf.win.flatMap (fun w => beBytes 4 w.toNat)) d.srcAddr d.length
  | 2 => slice (snapSeen s).payload d.srcAddr d.length
  | 3 => (List.range d.length).map (fun i =>
      slotByte (s.vn.txBuf.getD (Config.dmaSlot d.srcAddr) {}) (Config.dmaOffset d.srcAddr + i))
  | _ => slice ((pubSeen s).slots.getD (Config.dmaSlot d.srcAddr) {}).body (Config.dmaOffset d.srcAddr) d.length

/-- Data words from a list of bytes. -/
def wordsOf : Nat → Bytes → List Word
  | 0, _ => []
  | n + 1, b => w32 (field b 0 4) :: wordsOf n (b.drop 4)

/-- The own window buffer with bytes put into it; the window is not ready by this (R98). -/
def winBytes (s : State) (addr : Nat) (b : Bytes) : List Word :=
  let wlen := s.image.elim 0 (fun im => im.node.wlen.toNat)
  let old := padTo (4 * wlen) (s.tf.win.flatMap (fun w => beBytes 4 w.toNat))
  wordsOf wlen (patch old addr b)

/-- The bytes a transfer writes; whole words take their check bits with them (R379). -/
def dmaStore (d : DmaDesc) (b : Bytes) (s : State) : State :=
  match d.dst.toNat with
  | 0 => dataCoreMod (fun c =>
      dataPutBytes d.dstAddr b { c with dataErr := c.dataErr.filter (fun e =>
        !(decide (d.dstAddr ≤ 4 * e.1) && decide (4 * e.1 < d.dstAddr + d.length))) }) s
  | 1 => { s with tf := { s.tf with win := winBytes s d.dstAddr b } }
  | 3 => slotMod (Config.dmaSlot d.dstAddr) (slotPut (Config.dmaOffset d.dstAddr) b) s
  | _ => s

/-- Single-bit errors met by the transfer are corrected in place with event 0x8107 each (R426). -/
def dmaCorrect (errs : List (Nat × Bool)) (s : State) : State :=
  errs.foldl (fun s e => raise 0x8107 noInst [] (dataCoreMod (wordClean (4 * e.1)) s)) s

/-- DMA: the whole move stands at its tick. An uncorrectable word read yields the core in control (Table 15.1). -/
def dmaFire (e : GridEntry) (s : State) : State :=
  match (s.image.elim [] Image.dma)[e.target.toNat]? with
  | none => s
  | some d =>
    match dmaMissing s d with
    | some x => skipped x 0x14 s
    | none =>
      let errs := dmaErrs s d
      if errs.any (fun x => x.2) then yieldNow 0x12 s
      else dmaStore d (dmaSource s d) (dmaCorrect errs s)

def dmaRun (entry : Nat) : State → State := gridFire 0x14 entry dmaFire

def execDma (entry : Nat) : State → Host.Outcome State Fault Refusal := act 0 (dmaRun entry)

end Sys2Proof.Machine
end

