-- ==== Sys2Proof/Machine/ImageRead.lean ====
section
/-! DEFINITION. How a node image is read (R396-R400, Tables 14.1-14.9): directory, sections and their entries, from bytes
to `Image`. Reading is total; what an image must meet is checked beside it (R406). -/

namespace Sys2Proof.Machine

/-- `n` bytes from an offset. -/
def part (b : Bytes) (off n : Nat) : Bytes := (b.drop off).take n

/-- `n` entries of `size` bytes each, as far as the bytes reach. -/
def chunks (size : Nat) : Nat → Bytes → List Bytes
  | 0, _ => []
  | _ + 1, [] => []
  | n + 1, b => b.take size :: chunks size n (b.drop size)

/-- Bytes of the sparse store from an address upward; the cells below it are already dropped. -/
def spanGo : Nat → Nat → List Host.Cell → Bytes
  | 0, _, _ => []
  | n + 1, a, [] => 0xFF :: spanGo n (a + 1) []
  | n + 1, a, c :: r => if c.1 = a then c.2 :: spanGo n (a + 1) r else 0xFF :: spanGo n (a + 1) (c :: r)

/-- Sectors of the store as reads see them (R421), in one pass each. -/
def nvSectors (nv : Nv) (a sectors : Nat) : Bytes :=
  (List.range sectors).flatMap (fun k =>
    let x := nvAddr nv (a + 4096 * k)
    spanGo 4096 x (nv.mem.dropWhile (fun c => decide (c.1 < x))))

/-- The image bytes in a slot. -/
def imageBytes (nv : Nv) (slot length : Nat) : Bytes := (nvSectors nv (imgBase slot) ((length + 4095) / 4096)).take length

/-! ### Directory (R397) -/

/-- A directory entry. -/
structure Sect where
  ty    : Nat
  res   : Nat
  off   : Nat
  len   : Nat
  count : Nat
deriving DecidableEq, Repr

/-- The directory of an image. -/
def directory (b : Bytes) : List Sect :=
  (chunks 16 (field b 14 2) (b.drop 64)).map (fun e => ⟨field e 0 2, field e 2 2, field e 4 4, field e 8 4, field e 12 4⟩)

/-- A section of the image. -/
def sectOf (dir : List Sect) (ty : Nat) : Option Sect := dir.find? (fun s => s.ty = ty)

/-- The bytes of a section; none has none. -/
def sectBytes (b : Bytes) (dir : List Sect) (ty : Nat) : Bytes :=
  match sectOf dir ty with
  | some s => part b s.off s.len
  | none => []

/-- `COUNT` of a section. -/
def sectCount (dir : List Sect) (ty : Nat) : Nat := (sectOf dir ty).elim 0 Sect.count

/-- Entry size of Table 14.2; 0 for the sections that carry headers of their own. -/
def entrySize (ty : Nat) : Nat :=
  match ty with
  | 0x01 => 32 | 0x02 => 64 | 0x03 => 16 | 0x04 => 32 | 0x05 => 8 | 0x06 => 4 | 0x07 => 16 | 0x08 => 8
  | 0x09 => 16 | 0x0A => 16 | 0x0B => 8 | 0x0C => 16 | 0x0D => 4 | 0x0F => 784 | 0x10 => 8 | _ => 0

/-- The entries of a section. -/
def sectEntries (b : Bytes) (dir : List Sect) (ty : Nat) : List Bytes :=
  chunks (entrySize ty) (sectCount dir ty) (sectBytes b dir ty)

/-! ### Entries -/

/-- Grid entry (Table 4.1). -/
def readGrid (e : Bytes) : GridEntry :=
  ⟨field e 0 4 / 8192, BitVec.ofNat 8 (field e 3 1), BitVec.ofNat 16 (field e 4 2), BitVec.ofNat 16 (field e 6 2),
   BitVec.ofNat 64 (field e 8 8)⟩

/-- Profile (Table 14.3) with its fingerprint (R399). -/
def readProfile (e : Bytes) : Profile :=
  { tcode := BitVec.ofNat 2 (field e 0 1), spares := BitVec.ofNat 8 (field e 1 1)
    spareWords := BitVec.ofNat 8 (field e 2 1), identify := decide (field e 3 1 = 1)
    sleepDwell := BitVec.ofNat 16 (field e 4 2), awakeMax := BitVec.ofNat 16 (field e 6 2)
    trainVid := BitVec.ofNat 16 (field e 8 2), fp := w32 (field (sha256 e) 0 4) }

/-- Node parameters (Table 14.4). -/
def readNode (e : Bytes) : NodeParams :=
  let f := field e 1 1
  { wlen := BitVec.ofNat 8 (field e 0 1), sync := f.testBit 0, watch := f.testBit 1, restore := f.testBit 2
    revert := f.testBit 3, revertHold := BitVec.ofNat 16 (field e 2 2), unSel := BitVec.ofNat 8 (field e 4 1)
    huClass := BitVec.ofNat 8 (field e 5 1), shInit := BitVec.ofNat 8 (field e 6 1)
    wakeCh := BitVec.ofNat 8 (field e 7 1), awakeMask := BitVec.ofNat 8 (field e 8 1)
    guardMask := BitVec.ofNat 16 (field e 10 2)
    tempThr := (List.range 6).map (fun i => BitVec.ofNat 16 (field e (12 + 2 * i) 2)) }

/-- Claimed W of a task (R400). -/
def claimedW (cert : Bytes) (i : Nat) : Nat := field (part cert (16 + 4 * i) 4) 0 4

/-- Task entries (Table 14.5) with their budgets (R401). -/
def readTasks (es : List Bytes) (cert : Bytes) : List TaskEntry :=
  es.zipIdx.map (fun e =>
    ⟨BitVec.ofNat 16 (field e.1 0 2), BitVec.ofNat 16 (field e.1 2 2), BitVec.ofNat 4 (field e.1 4 1), claimedW cert e.2⟩)

/-- Bench declaration (Table 14.6). -/
def readBench (e : Bytes) : BenchDecl :=
  let x := field e 7 1
  let y := field e 8 1
  ⟨w32 (field e 0 4), BitVec.ofNat 12 (field e 4 2), BitVec.ofNat 8 (field e 6 1), BitVec.ofNat 4 x,
   BitVec.ofNat 2 (x / 16), BitVec.ofNat 4 y, y.testBit 4⟩

/-- DMA descriptor (Table 14.6). -/
def readDma (e : Bytes) : DmaDesc :=
  ⟨BitVec.ofNat 8 (field e 0 1), BitVec.ofNat 8 (field e 1 1), field e 2 2, field e 4 4, field e 8 4⟩

/-- Standing order (Table 4.6). -/
def readOrder (e : Bytes) : Order :=
  ⟨BitVec.ofNat 16 (field e 0 2), BitVec.ofNat 8 (field e 2 1), BitVec.ofNat 8 (field e 4 1), BitVec.ofNat 8 (field e 5 1),
   BitVec.ofNat 16 (field e 6 2)⟩

/-- Star configuration (Table 14.7). -/
def readStar (e : Bytes) : Star :=
  { layout := BitVec.ofNat 16 (field e 0 2), nS := field e 2 1, tS := field e 3 1, nM := field e 4 2, tM := field e 6 1
    owners := part e 16 64
    ids := (chunks 4 400 (e.drop 80)).map (fun x =>
      ⟨BitVec.ofNat 8 (field x 0 1), BitVec.ofNat 8 (field x 1 1), field x 2 2⟩) }

/-- Equipment port (Table 14.8). -/
def readEq (e : Bytes) : EqCfg :=
  let c := field e 129 1
  { pm := (chunks 8 8 e).map (fun x =>
      ⟨BitVec.ofNat 48 (field x 0 6), (field x 6 1).testBit 0, BitVec.ofNat 2 (field x 6 1 / 2)⟩)
    hash := (chunks 4 16 (e.drop 64)).map (fun x => w32 (field x 0 4))
    bcastEn := (field e 128 1).testBit 0, promisc := (field e 128 1).testBit 1
    consBcast := BitVec.ofNat 2 c, consHash := BitVec.ofNat 2 (c / 4), consProm := BitVec.ofNat 2 (c / 16)
    dpri := BitVec.ofNat 3 (field e 130 1), pfcMask := BitVec.ofNat 8 (field e 131 1), quota := field e 132 2
    high := field e 134 1, low := field e 135 1, speedMask := BitVec.ofNat 3 (field e 136 1)
    armed := BitVec.ofNat 4 (field e 137 1)
    filters := (chunks 160 4 (e.drop 144)).map (fun x => ⟨x.take 128, part x 128 16, field x 144 1⟩) }

/-- Shutter route (Tables 10.5 and 14.6). -/
def readRoute (e : Bytes) : Route :=
  let seg := field e 2 2
  { toSegment := (field e 0 1).testBit 0, tclass := BitVec.ofNat 4 (field e 0 1 / 16)
    queue := BitVec.ofNat 3 (field e 1 1), etag := (field e 1 1).testBit 3
    dynamic := seg.testBit 12, seg := seg % 4096, vid := BitVec.ofNat 12 (field e 4 2), node := BitVec.ofNat 8 (field e 6 1) }

/-- Occupancy claim (R400). -/
def readClaim (e : Bytes) : Claim := ⟨field e 0 2, field e 2 1, field e 4 4, field e 8 4⟩

/-- The claims of a certificate. -/
def claimEntries (cert : Bytes) : List Bytes :=
  chunks 12 (field (part cert 2 2) 0 2) (cert.drop (16 + 4 * field (part cert 0 2) 0 2))

/-- An image from its bytes and its hash (R396, R403). -/
def readImage (b hash : Bytes) : Image :=
  let dir := directory b
  let es := sectEntries b dir
  let cert := sectBytes b dir 0x11
  { imgVer := BitVec.ofNat 16 (field b 6 2), target := BitVec.ofNat 8 (field b 12 1), keyslot := field b 13 1
    length := field b 8 4, hash := hash
    profile := readProfile (sectBytes b dir 0x01)
    node := readNode (sectBytes b dir 0x02)
    grid := (es 0x03).map readGrid
    pwrvec := (es 0x04).map (fun e => BitVec.ofNat 256 (field e 0 32))
    tasks := readTasks (es 0x05) cert
    code := (es 0x06).map (fun e => w32 (field e 0 4))
    data := sectBytes b dir 0x07
    chklist := (es 0x08).map (fun e => (field e 0 4, field e 4 4))
    bench := (es 0x09).map readBench
    dma := (es 0x0A).map readDma
    orders := (es 0x0B).map readOrder
    meassets := es 0x0C
    channels := (es 0x0D).map (fun e => BitVec.ofNat 14 (field e 0 4))
    star := (sectOf dir 0x0E).map (fun _ => readStar (sectBytes b dir 0x0E))
    eq := (es 0x0F).map readEq
    routes := (es 0x10).map readRoute
    claims := (claimEntries cert).map readClaim }

end Sys2Proof.Machine
end

