-- ==== Sys2Proof/Machine/CodeCheck.lean ====
section
/-! DEFINITION. The structural rules of JNIS code and its worst-case timing (R369, R392, R393): what the verifier follows
from the task entry points. Code is a list of words; an index beyond it reads 0xFFFF_FFFF. -/

namespace Sys2Proof.Machine

/-! ### One instruction word (R368, R369) -/

/-- op [31:26]. -/
def opOf (w : Word) : Nat := w.toNat / 2 ^ 26

/-- d [25:21]. -/
def dOf (w : Word) : Nat := w.toNat / 2 ^ 21 % 32

/-- a [20:16]. -/
def aOf (w : Word) : Nat := w.toNat / 2 ^ 16 % 32

/-- b [15:11]. -/
def bOf (w : Word) : Nat := w.toNat / 2 ^ 11 % 32

/-- func [10:0]. -/
def funcOf (w : Word) : Nat := w.toNat % 2 ^ 11

/-- imm16 [15:0]. -/
def immOf (w : Word) : Nat := w.toNat % 2 ^ 16

/-- Body length of a `LOOP` (R381). -/
def loopLen (w : Word) : Nat := dOf w * 16 + w.toNat / 2 ^ 12 % 16 + 1

/-- `NMAX` of a `LOOP`. -/
def loopMax (w : Word) : Nat := w.toNat % 2 ^ 12

/-- d starts a legal group of k registers (R371). -/
def dGroup (k : Nat) (w : Word) : Bool := k ≤ 1 || (1 ≤ dOf w && dOf w ≤ 31 - k)

/-- A listed function of opcode 0x02 (Table 13.5). -/
def aluFunc (f : Nat) : Bool :=
  f ≤ 5 || (8 ≤ f && f ≤ 10) || (0x10 ≤ f && f ≤ 0x13) || f = 0x18 || f = 0x19 || f = 0x1C || f = 0x1D

/-- A listed function of `SYSR` with its reserved fields and register groups (R391, Table 13.12). -/
def sysrLegal (w : Word) : Bool :=
  let noA := aOf w = 0
  let noB := bOf w = 0
  let f := funcOf w
  if f = 0x000 || f = 0x001 || f = 0x003 || f = 0x004 then noA && noB
  else if f = 0x002 || f = 0x006 then noA && noB && dGroup 2 w
  else if f = 0x005 then noB
  else if f = 0x007 then noB && dGroup 2 w
  else if f = 0x010 || f = 0x011 || f = 0x012 || f = 0x018 then true
  else if f = 0x013 then noB && dGroup 4 w
  else if f = 0x019 then noA
  else if f = 0x01A then noA && dGroup 3 w
  else false

/-- The encoding is legal (R369). -/
def wordLegal (w : Word) : Bool :=
  let op := opOf w
  let imm := immOf w
  let mode := imm / 2 ^ 14
  if op = 0x00 || op = 0x01 || op = 0x1B || op = 0x2A then w.toNat % 2 ^ 26 = 0
  else if op = 0x02 then aluFunc (funcOf w)
  else if 0x04 ≤ op && op ≤ 0x08 then true
  else if op = 0x09 then aOf w = 0
  else if op = 0x0A then imm < 128
  else if (0x10 ≤ op && op ≤ 0x12) || (0x14 ≤ op && op ≤ 0x16) then true
  else if op = 0x18 then aOf w = 0 && dOf w ≤ 10
  else if op = 0x19 then true
  else if op = 0x1A then aOf w = 0 && dOf w = 0
  else if op = 0x20 || op = 0x22 then imm < 256 && dGroup 2 w
  else if op = 0x21 then imm < 256
  else if op = 0x23 then dGroup 2 w
  else if op = 0x28 then imm / 256 % 128 = 0
  else if op = 0x29 || op = 0x2B then mode ≤ 2
  else if op = 0x2C then mode ≤ 2 && (mode ≠ 1 || dGroup 2 w)
  else if op = 0x2D then true
  else if op = 0x30 then aOf w = 0 && 1 ≤ imm && imm ≤ 8
  else if op = 0x31 then true
  else if op = 0x38 then imm < 2 ^ 13
  else if 0x39 ≤ op && op ≤ 0x3B then true
  else if op = 0x3C then sysrLegal w
  else if op = 0x3D then true
  else if op = 0x3E then (dOf w ≤ 1 && aOf w = 0) || dOf w = 2
  else false

/-- Cycles of an instruction (Table 13.2). -/
def wordCycles (w : Word) : Nat :=
  let op := opOf w
  if op = 0x02 then
    (if funcOf w = 0x10 || funcOf w = 0x11 then 2 else if funcOf w = 0x12 || funcOf w = 0x13 then 18 else 1)
  else if 0x10 ≤ op && op ≤ 0x16 then 2
  else if 0x20 ≤ op && op ≤ 0x3C then 4
  else 1

/-- The word at an index; beyond the `CODE` section it is erased (Table 14.2). -/
def codeAt (code : List Word) (i : Nat) : Word := code.getD i 0xFFFFFFFF

/-! ### What a function reaches (R392) -/

/-- A number put into an ascending list without repeats. -/
def putAsc (x : Nat) : List Nat → List Nat
  | [] => [x]
  | y :: r => if x < y then x :: y :: r else if x = y then y :: r else y :: putAsc x r

/-- Where the instruction at an index may go on within its function; a `CALL` returns only when its callee can. -/
def succs (code : List Word) (canRet : Nat → Bool) (i : Nat) : List Nat :=
  let w := codeAt code i
  let op := opOf w
  if code.length ≤ i || !wordLegal w || op = 0x00 || op = 0x1B then []
  else if op = 0x18 then (i + 1 + immOf w) :: (if dOf w = 0 then [] else [i + 1])
  else if op = 0x19 then [i + 1, i + loopLen w + 1]
  else if op = 0x1A then (if canRet (immOf w) then [i + 1] else [])
  else [i + 1]

/-- The indices reached, in ascending order: every way on leads forward. -/
def walkGo (code : List Word) (canRet : Nat → Bool) : Nat → List Nat → List Nat
  | 0, _ => []
  | _ + 1, [] => []
  | fuel + 1, i :: r => i :: walkGo code canRet fuel ((succs code canRet i).foldl (fun l x => putAsc x l) r)

/-- The indices a function reaches, at a remaining depth of calls. -/
def walkAt (code : List Word) : Nat → Nat → List Nat
  | 0, _ => []
  | d + 1, f => walkGo code (fun g => (walkAt code d g).any (fun i => opOf (codeAt code i) = 0x1B)) 66100 [f]

/-- The indices a function or task reaches without following `CALL`. -/
def walk (code : List Word) (f : Nat) : List Nat := walkAt code 10 f

/-- The instructions of a walk with an opcode. -/
def withOp (code : List Word) (op : Nat) (l : List Nat) : List Nat :=
  l.filter (fun i => decide (i < code.length) && wordLegal (codeAt code i) && opOf (codeAt code i) = op)

/-- The functions called from a function, directly or not. -/
def calleesAt (code : List Word) : Nat → Nat → List Nat
  | 0, _ => []
  | d + 1, f =>
    ((withOp code 0x1A (walk code f)).flatMap (fun i => immOf (codeAt code i) :: calleesAt code d (immOf (codeAt code i)))).eraseDups

/-- The functions a task calls. -/
def callees (code : List Word) (entry : Nat) : List Nat := calleesAt code 9 entry

/-- The loops of a walk: index, first and last index of the body. -/
def loopsOf (code : List Word) (l : List Nat) : List (Nat × Nat × Nat) :=
  (withOp code 0x19 l).map (fun i => (i, i + 1, i + loopLen (codeAt code i)))

/-- An index lies in a body. -/
def inBody (x : Nat × Nat × Nat) (i : Nat) : Bool := decide (x.2.1 ≤ i) && decide (i ≤ x.2.2)

/-- Loops open at an index, by the bodies it lies in. -/
def openAt (loops : List (Nat × Nat × Nat)) (i : Nat) : Nat := (loops.filter (fun x => inBody x i)).length

/-! ### Items 1-10 of R392: the index at fault in one function -/

/-- Item 1: an illegal instruction, or an index beyond `CODE` that a branch, call or entry names. -/
def item1 (code : List Word) (f : Nat) (l : List Nat) : Option Nat :=
  l.find? (fun i =>
    if i < code.length then !wordLegal (codeAt code i)
    else i ≤ 65535 && (i = f || l.any (fun j =>
      decide (j < code.length) && opOf (codeAt code j) = 0x18 && wordLegal (codeAt code j)
        && immOf (codeAt code j) ≠ 0 && j + 1 + immOf (codeAt code j) = i)))

/-- Item 2: a branch target or body end beyond index 65,535. -/
def item2 (code : List Word) (l : List Nat) : Option Nat :=
  l.find? (fun i =>
    let w := codeAt code i
    decide (i < code.length) && wordLegal w &&
      ((opOf w = 0x18 && 65535 < i + 1 + immOf w) || (opOf w = 0x19 && 65535 < i + loopLen w)))

/-- Item 3: a path falls through past the last instruction. -/
def item3 (code : List Word) (l : List Nat) : Option Nat := l.find? (fun i => decide (code.length ≤ i))

/-- Item 4: a call of a function on the path, or a ninth nested call. -/
def item4At (code : List Word) : Nat → List Nat → Nat → Option Nat
  | 0, _, _ => none
  | d + 1, path, f =>
    (withOp code 0x1A (walk code f)).findSome? (fun i =>
      let g := immOf (codeAt code i)
      if (f :: path).contains g || 8 ≤ path.length then some i else item4At code d (f :: path) g)

/-- Item 6: a branch into a body from outside, or a body that leaves the body its `LOOP` stands in. -/
def item6 (code : List Word) (l : List Nat) : Option Nat :=
  let loops := loopsOf code l
  l.find? (fun i =>
    let w := codeAt code i
    if opOf w = 0x18 then loops.any (fun x => inBody x (i + 1 + immOf w) && !inBody x i)
    else if opOf w = 0x19 then loops.any (fun x => inBody x i && decide (x.2.2 < i + loopLen w))
    else false)

/-- Item 7: more than four open loops on a path, counted across calls. -/
def item7At (code : List Word) : Nat → Nat → Nat → Option Nat
  | 0, _, _ => none
  | d + 1, base, f =>
    let l := walk code f
    let loops := loopsOf code l
    l.findSome? (fun i =>
      let w := codeAt code i
      if opOf w = 0x19 && 4 < base + openAt loops i + 1 then some i
      else if opOf w = 0x1A then item7At code d (base + openAt loops i) (immOf w)
      else none)

/-- Item 8: a `RET` in a body of its own function. -/
def item8 (code : List Word) (l : List Nat) : Option Nat :=
  (withOp code 0x1B l).find? (fun i => decide (0 < openAt (loopsOf code l) i))

/-- Item 9: `NMAX` 0. -/
def item9 (code : List Word) (l : List Nat) : Option Nat := (withOp code 0x19 l).find? (fun i => loopMax (codeAt code i) = 0)

/-- Item 10: `WAITG` in a body or in a function. -/
def item10 (code : List Word) (isTask : Bool) (l : List Nat) : Option Nat :=
  (withOp code 0x3D l).find? (fun i => !isTask || decide (0 < openAt (loopsOf code l) i))

/-! ### Items 11-14: `SIG` along every path -/

/-- What the `SIG` pass gathers: `SIG` at each index visited, and the first item broken with its index. -/
structure SigAcc where
  seen : List (Nat × Half)
  bad  : Option (Nat × Nat)
deriving DecidableEq, Repr

/-- A way on to an index with a `SIG`: a second value breaks item 11. -/
def sigPut (x : Nat) (v : Half) : List (Nat × Half) → List (Nat × Half) × Bool
  | [] => ([(x, v)], true)
  | y :: r =>
    if x < y.1 then ((x, v) :: y :: r, true)
    else if x = y.1 then (y :: r, y.2 = v)
    else let p := sigPut x v r; (y :: p.1, p.2)

/-- Ways on. -/
def sigPutAll (xs : List (Nat × Half)) (p : List (Nat × Half) × Option Nat) : List (Nat × Half) × Option Nat :=
  xs.foldl (fun p x =>
    let r := sigPut x.1 x.2 p.1
    (r.1, p.2 <|> (if r.2 then none else some x.1))) p

/-- The `SIG` pass over one function. `call` runs a callee with the `SIG` at the `CALL` and answers the values its `RET`s
leave. `open_` holds, per loop entered, the `LOOP`'s index, its last index and its `SIG`. -/
def sigGo (code : List Word) (xsig : Half) (call : Nat → Half → SigAcc → List Half × SigAcc) :
    Nat → List (Nat × Half) → List (Nat × Nat × Half) → List Half → SigAcc → List Half × SigAcc
  | 0, _, _, outs, acc => (outs, acc)
  | _ + 1, [], _, outs, acc => (outs, acc)
  | fuel + 1, (i, v) :: rest, open_, outs, acc =>
    if acc.bad.isSome then (outs, acc)
    else if acc.seen.any (fun y => y.1 = i && y.2 ≠ v) then (outs, { acc with bad := some (11, i) })
    else
      let acc := { acc with seen := (i, v) :: acc.seen }
      let w := codeAt code i
      let op := opOf w
      let imm : Half := BitVec.ofNat 16 (immOf w)
      if op = 0x00 then
        sigGo code xsig call fuel rest open_ outs (if v = xsig then acc else { acc with bad := some (14, i) })
      else if op = 0x1B then sigGo code xsig call fuel rest open_ (if outs.contains v then outs else v :: outs) acc
      else
        let after : Half := if op = 0x3E && dOf w = 0 then v ^^^ imm else v
        let back := op ≠ 0x18 || dOf w ≠ 0
        let ran := if op = 0x1A then call (immOf w) v acc else ([after], acc)
        let acc := ran.2
        let nexts :=
          if op = 0x18 then (i + 1 + immOf w, v) :: (if dOf w = 0 then [] else [(i + 1, v)])
          else if op = 0x19 then [(i + 1, v), (i + loopLen w + 1, v)]
          else ran.1.map (fun x => (i + 1, x))
        let open_ := if op = 0x19 then (i, i + loopLen w, v) :: open_ else open_
        let ends := if back then ran.1 else []
        let broken := open_.find? (fun x => x.2.1 = i && ends.any (fun y => y ≠ x.2.2))
        let p := sigPutAll nexts (rest, none)
        let bad : Option (Nat × Nat) :=
          if op = 0x3E && dOf w = 1 && v ≠ imm then some (12, i)
          else match broken with
            | some x => some (13, x.1)
            | none => p.2.map (fun j => (11, j))
        sigGo code xsig call fuel p.1 open_ outs { acc with bad := acc.bad <|> bad }

/-- The `SIG` pass at a remaining depth of calls. -/
def sigAt (code : List Word) (xsig : Half) : Nat → Nat → Half → SigAcc → List Half × SigAcc
  | 0, _, _, acc => ([], acc)
  | d + 1, f, v, acc => sigGo code xsig (sigAt code xsig d) 66100 [(f, v)] [] [] acc

/-! ### The structure of all tasks (R392) -/

/-- The functions of a task: its own code first. -/
def functions (code : List Word) (entry : Nat) : List (Bool × Nat) :=
  (true, entry) :: (callees code entry).map (fun g => (false, g))

/-- The first index an item finds over the functions of the tasks. -/
def overFns (code : List Word) (tasks : List TaskEntry) (item : Nat) (f : Bool → Nat → List Nat → Option Nat) :
    Option (Nat × Nat) :=
  (tasks.findSome? (fun t => (functions code t.entry.toNat).findSome? (fun g => f g.1 g.2 (walk code g.2)))).map
    (fun i => (item, i))

/-- The first of items 1-14 that reachable code breaks, with the code index (R392). -/
def structureFault (code : List Word) (tasks : List TaskEntry) : Option (Nat × Nat) :=
  let fns := overFns code tasks
  fns 1 (fun _ f l => item1 code f l)
    <|> fns 2 (fun _ _ l => item2 code l)
    <|> fns 3 (fun _ _ l => item3 code l)
    <|> (tasks.findSome? (fun t => item4At code 10 [] t.entry.toNat)).map (fun i => (4, i))
    <|> fns 5 (fun own _ l => if own then (withOp code 0x1B l).head? else none)
    <|> fns 6 (fun _ _ l => item6 code l)
    <|> (tasks.findSome? (fun t => item7At code 10 0 t.entry.toNat)).map (fun i => (7, i))
    <|> fns 8 (fun _ _ l => item8 code l)
    <|> fns 9 (fun _ _ l => item9 code l)
    <|> fns 10 (fun own _ l => item10 code own l)
    <|> (tasks.foldl (fun (acc : SigAcc) (t : TaskEntry) =>
          if acc.bad.isSome then acc else (sigAt code t.xsig 10 t.entry.toNat 0 acc).2) ⟨[], none⟩).bad

/-! ### Worst-case timing (R393) -/

/-- The larger of two counts; none is minus infinity. -/
def maxCount : Option Nat → Option Nat → Option Nat
  | none, y => y
  | x, none => x
  | some x, some y => some (max x y)

/-- "charge v at j". -/
def charge (j v : Nat) : List (Nat × Nat) → List (Nat × Nat)
  | [] => [(j, v)]
  | y :: r => if j < y.1 then (j, v) :: y :: r else if j = y.1 then (j, max v y.2) :: r else y :: charge j v r

/-- What a region charges: targets beyond its last index with their counts, `RET` and `HALT`. -/
structure Region where
  exits : List (Nat × Nat)
  ret   : Option Nat
  halt  : Option Nat
deriving DecidableEq, Repr

/-- The count at which a region is left. -/
def Region.fall (r : Region) : Option Nat := r.exits.foldl (fun m x => maxCount m (some x.2)) none

/-- One pass over the region `..last`, from the indices charged so far. -/
def wcetGo (code : List Word) (callee : Nat → Option Nat × Option Nat) (last : Nat) :
    Nat → List (Nat × Nat) → Region → Region
  | 0, _, r => r
  | _ + 1, [], r => r
  | fuel + 1, (i, e) :: rest, r =>
    if last < i then wcetGo code callee last fuel rest { r with exits := charge i e r.exits }
    else
      let w := codeAt code i
      let op := opOf w
      let on := fun l r => wcetGo code callee last fuel l r
      if op = 0x19 then
        let b := wcetGo code callee (i + loopLen w) fuel [(i + 1, 0)] ⟨[], none, none⟩
        let wb := (maxCount b.fall (maxCount b.ret b.halt)).getD 0
        let t := e + 1 + loopMax w * (wb + 1)
        let out := rest.filter (fun x => decide (i + loopLen w < x.1))
        let l := if b.fall.isSome then b.exits.foldl (fun l x => charge x.1 t l) (charge (i + loopLen w + 1) t out) else out
        on l { r with
          ret := if b.ret.isSome then maxCount r.ret (some t) else r.ret
          halt := if b.halt.isSome then maxCount r.halt (some t) else r.halt }
      else if op = 0x18 then
        let l := charge (i + 1 + immOf w) (e + 1) rest
        on (if dOf w = 0 then l else charge (i + 1) (e + 1) l) r
      else if op = 0x1A then
        let c := callee (immOf w)
        on (c.1.elim rest (fun x => charge (i + 1) (e + 1 + x) rest))
          { r with halt := maxCount r.halt (c.2.map (fun x => e + 1 + x)) }
      else if op = 0x3D then on (charge (i + 1) (max (e + 1) (2 * immOf w)) rest) r
      else if op = 0x00 then on rest { r with halt := maxCount r.halt (some (e + 1)) }
      else if op = 0x1B then on rest { r with ret := maxCount r.ret (some (e + 1)) }
      else on (charge (i + 1) (e + wordCycles w) rest) r

/-- w_ret and w_halt of a function, at a remaining depth of calls. -/
def wcetAt (code : List Word) : Nat → Nat → Option Nat × Option Nat
  | 0, _ => (none, none)
  | d + 1, f =>
    let r := wcetGo code (wcetAt code d) 65535 66100 [(f, 0)] ⟨[], none, none⟩
    (r.ret, r.halt)

/-- The worst-case elapsed count W of a task in core cycles (R393). -/
def taskW (code : List Word) (t : TaskEntry) : Nat := ((wcetAt code 10 t.entry.toNat).2).getD 0

end Sys2Proof.Machine
end

