-- ==== Sys2Proof/Machine/GridCheck.lean ====
section
/-! DEFINITION. What the verifier holds the grid, the power plan and the occupancy claims against (R86-R89, R94, R100-R102,
R107, R183, R225, R400-R402, R64-R66, R261, R327, R398). Times are ticks of 8 ns over one macrocycle of 64 cycles, which
repeats. A refusal is a code of Table 14.11 and a detail word (R406). -/

namespace Sys2Proof.Machine

/-- The detail word that names a section and an entry (R406). -/
def detail (ty index : Nat) : Nat := ty * 65536 + index

/-- Refused with a code and a detail when a test fails. -/
def refuseIf (bad : Bool) (code det : Nat) : Option (Nat × Nat) := if bad then some (code, det) else none

/-- The first entry of a section a test finds at fault. -/
def firstBad {α : Type} (code ty : Nat) (bad : Nat → α → Bool) (l : List α) : Option (Nat × Nat) :=
  (l.zipIdx.find? (fun e => bad e.2 e.1)).map (fun e => (code, detail ty e.2))

/-- Ticks in a cycle (Table 7.1). -/
def cycTicks (im : Image) : Nat := 62500 * 2 ^ im.profile.tcode.toNat

/-- Ticks in a macrocycle. -/
def macroTicks (im : Image) : Nat := 64 * cycTicks im

/-- The entries with their indices. -/
def gridIdx (im : Image) : List (GridEntry × Nat) := im.grid.zipIdx

/-- The entries of a kind with their indices. -/
def ofKind (im : Image) (k : Nat) : List (GridEntry × Nat) := (gridIdx im).filter (fun e => e.1.kind.toNat = k)

/-- An entry fires at a position (R85). -/
def firesAt (e : GridEntry) (pos : Nat) : Bool := e.cmask.getLsbD (pos - 1)

/-- The firings of chosen entries over the macrocycle: tick from its start, entry, index; in ascending order. -/
def firings (im : Image) (l : List (GridEntry × Nat)) : List (Nat × GridEntry × Nat) :=
  (List.range 64).flatMap (fun p =>
    (l.filter (fun e => firesAt e.1 (p + 1))).map (fun e => (p * cycTicks im + e.1.tick, e.1, e.2)))

/-- `x` ticks after `y` on the circle of the macrocycle. -/
def after (im : Image) (x y : Nat) : Nat := (x + macroTicks im - y % macroTicks im) % macroTicks im

/-- Two intervals of the repeating macrocycle overlap. -/
def overlap (im : Image) (a la b lb : Nat) : Bool :=
  decide (0 < la) && decide (0 < lb) && (decide (after im b a < la) || decide (after im a b < lb))

/-- Half the core cycles of a task, in ticks: ⌈W / 2⌉ (R401). -/
def taskTicks (w : Nat) : Nat := (w + 1) / 2

/-- The task an entry starts. -/
def taskOf (im : Image) (e : GridEntry) : Option TaskEntry := im.tasks[e.target.toNat]?

/-- The budget of the task an entry starts. -/
def budgetOf (im : Image) (e : GridEntry) : Nat := (taskOf im e).elim 0 TaskEntry.budget

/-! ### The power plan as a timeline -/

/-- The level a power entry calls for: as in a vector field. -/
def entryField (k : Nat) : Nat := if k = 0x10 then 1 else if k = 0x12 then 2 else 0

/-- The power entries aimed at a domain. -/
def powerOf (im : Image) (d : Nat) : List (GridEntry × Nat) :=
  (gridIdx im).filter (fun e => decide (0x10 ≤ e.1.kind.toNat) && decide (e.1.kind.toNat ≤ 0x12) && e.1.target.toNat = d)

/-- Field of a domain in the vector of a position 1-64. -/
def vecAt (im : Image) (pos d : Nat) : Nat := vecField (im.pwrvec.getD (pos - 1) 0) d

/-- The changes of level of a domain over the macrocycle, starting from the first vector: tick, level before, level
after. -/
def changes (im : Image) (d : Nat) : List (Nat × Nat × Nat) :=
  ((firings im (powerOf im d)).foldl (fun (p : List (Nat × Nat × Nat) × Nat) f =>
    let l := entryField f.2.1.kind.toNat
    if l = p.2 then p else ((f.1, p.2, l) :: p.1, l)) ([], vecAt im 1 d)).1.reverse

/-- Settle time in ticks of a domain switched `ON` from a level (Table 3.3). -/
def settleTicks (d from_ : Nat) : Nat :=
  if 106 ≤ d && d ≤ 117 then (if from_ = 2 then 25 else 125)
  else if 42 ≤ d && d ≤ 73 then 625
  else if 74 ≤ d && d ≤ 105 then 1250
  else if 38 ≤ d && d ≤ 41 then 2500
  else if 13 ≤ d && d ≤ 24 then 250000
  else if 26 ≤ d && d ≤ 29 then 437500000
  else 250

/-- The domain is `ON` over an interval by the plan; with `settled`, past its settle time too (R64). -/
def heldOn (im : Image) (settled : Bool) (d a n : Nat) : Bool :=
  let ch := changes im d
  match ch with
  | [] => vecAt im 1 d = 1
  | first :: _ =>
    let next := fun (i : Nat) => (ch[i + 1]?).elim first.1 (fun c => c.1)
    ch.zipIdx.any (fun e =>
      if e.1.2.2 = 1 then
        let w := if settled then settleTicks d e.1.2.1 else 0
        let len := if ch.length = 1 then macroTicks im else after im (next e.2) e.1.1
        let at_ := after im a e.1.1
        decide (w ≤ at_) && decide (at_ + n ≤ len)
      else false)

/-- The domain stands at a level throughout: every vector says so and every power entry aimed at it calls for it. -/
def alwaysAt (im : Image) (d field : Nat) : Bool :=
  im.pwrvec.all (fun v => vecField v d = field) && (powerOf im d).all (fun e => entryField e.1.kind.toNat = field)

/-- The domain is never at a level. -/
def neverAt (im : Image) (d field : Nat) : Bool :=
  im.pwrvec.all (fun v => vecField v d ≠ field) && (powerOf im d).all (fun e => entryField e.1.kind.toNat ≠ field)

/-! ### Uses (Table 14.10) -/

/-- A derived use: resource, start in the macrocycle, length, index of its grid entry. -/
structure Use where
  res : Nat
  at_ : Nat
  len : Nat
  idx : Nat
deriving DecidableEq, Repr

/-- Mode of a channel (Table 11.2). -/
def chanMode (im : Image) (n : Nat) : Nat := (im.channels.getD n 0).toNat % 16

/-- T_SET of a channel in ticks (R322). -/
def chanSettle (im : Image) (n : Nat) : Nat := (im.channels.getD n 0).toNat / 16 % 256 * 125

/-- Channels a field action masks. -/
def maskedChans (e : GridEntry) : List Nat :=
  (List.range 8).filterMap (fun i => if e.param.getLsbD i then some (8 * e.target.toNat + i) else none)

/-- The data banks that hold checkpoint variables. -/
def chkBanks (im : Image) : List Nat :=
  (List.range 4).filter (fun b => im.chklist.any (fun e =>
    decide (0 < e.2) && decide (e.1 / 65536 ≤ b) && decide (b ≤ (e.1 + e.2 - 1) / 65536)))

/-- Ticks of a checkpoint copy (R102). -/
def copyTicks (im : Image) : Nat := chkTotal im / 16 + 8

/-- The uses of one firing. -/
def usesOf (im : Image) (f : Nat × GridEntry × Nat) : List Use :=
  let e := f.2.1
  let k := e.kind.toNat
  let u := fun (res len : Nat) => (⟨res, f.1, len, f.2.2⟩ : Use)
  if k = 0x1C then
    match taskOf im e with
    | some t =>
      let n := taskTicks t.budget
      u 0x100 n :: ((List.range 4).filter (fun b => t.banks.getLsbD b)).map (fun b => u (114 + b) n)
    | none => []
  else if k = 0x14 then
    match im.dma[e.target.toNat]? with
    | some d =>
      let n := (d.length + 15) / 16
      u 0x101 n :: (dmaBanks d.src.toNat d.srcAddr d.length ++ dmaBanks d.dst.toNat d.dstAddr d.length).map
        (fun b => u (114 + b) n)
    | none => []
  else if k = 0x18 then u 0x102 (copyTicks im) :: (chkBanks im).map (fun b => u (114 + b) (copyTicks im))
  else if 0x01 ≤ k && k ≤ 0x03 then
    u (38 + e.target.toNat) 1 :: (maskedChans e).flatMap (fun n =>
      if k = 0x01 && chanMode im n = 3 then
        let s := f.1 + macroTicks im - chanSettle im n
        [42 + n, 74 + n].map (fun d =>
          (⟨d, s % macroTicks im, chanSettle im n + 625, f.2.2⟩ : Use))
      else [u (42 + n) 1, u (74 + n) 1])
  else if 0x0C ≤ k && k ≤ 0x0E then [u 12 1]
  else if k = 0x1E then [u 120 (8 * e.param.toNat)]
  else []

/-- Every use of the macrocycle. -/
def allUses (im : Image) : List Use := (firings im (gridIdx im)).flatMap (usesOf im)

/-! ### 0x0A: the grid -/

/-- `TARGET` and `PARAM` within the row of Table 4.2 (R87). -/
def targetOk (e : GridEntry) : Bool :=
  let k := e.kind.toNat
  let t := e.target.toNat
  let p := e.param.toNat
  if 0x01 ≤ k && k ≤ 0x03 then t ≤ 3 && p < 256
  else if k = 0x04 then t ≤ 15 && p = 0
  else if k = 0x08 || k = 0x09 || k = 0x0A || k = 0x0C || k = 0x0E || k = 0x18 then t = 0 && p = 0
  else if k = 0x0D then t ≤ 63 && p = 0
  else if 0x10 ≤ k && k ≤ 0x12 then t ≤ 127 && p = 0
  else if k = 0x14 || k = 0x1C then t ≤ 255 && p = 0
  else if k = 0x1E then t ≤ 63
  else false

/-- The object the entry addresses is declared (R87). -/
def targetDeclared (im : Image) (e : GridEntry) : Bool :=
  let k := e.kind.toNat
  let t := e.target.toNat
  if k = 0x1C then t < im.tasks.length
  else if k = 0x1E then t < im.bench.length
  else if k = 0x14 then t < im.dma.length
  else if k = 0x04 then t < im.meassets.length
  else if k = 0x0D then im.star.elim false (fun st => slotOwner st t = 0x0C)
  else true

/-- One entry on its own: reserved bits, kind, target, parameter, object, last 2 µs (R86-R89). -/
def entryBad (im : Image) (raw : Bytes) : Bool :=
  let e := readGrid raw
  field raw 0 4 / 256 % 32 ≠ 0 || !targetOk e || !targetDeclared im e || !decide (e.tick < cycTicks im - 250)

/-- An entry before its predecessor's tick (R86), or at the tick of an earlier one in a common cycle (R88). -/
def orderBad (im : Image) (i : Nat) (e : GridEntry) : Bool :=
  (i ≠ 0 && decide (e.tick < ((im.grid[i - 1]?).elim 0 GridEntry.tick)))
    || (im.grid.take i).any (fun x => x.tick = e.tick && x.cmask &&& e.cmask ≠ 0)

/-- Exactly one entry of a kind, in every cycle, at a tick that meets a test (R183); else the entry at fault. -/
def oneEach (im : Image) (k : Nat) (ok : Nat → Bool) : Option Nat :=
  match ofKind im k with
  | [] => some 0
  | [e] => if e.1.cmask = BitVec.allOnes 64 && ok e.1.tick then none else some e.2
  | e :: _ => some e.2

/-- First tick of the return read: T_TF (Table 7.1). -/
def tfTicks (im : Image) : Nat := if im.profile.tcode = 0 then 31250 else 50000

/-- The three actions of the train frame (R183). -/
def trainBad (im : Image) : Option Nat :=
  oneEach im 0x08 (· = 468) <|> oneEach im 0x09 (· ≤ 467) <|> oneEach im 0x0A (fun t => decide (tfTicks im ≤ t))

/-- A `TASK` before the previous one's start plus budget plus 2 ticks (R94): its index. -/
def taskEarly (im : Image) : Option Nat :=
  let l := firings im (ofKind im 0x1C)
  match l with
  | [] => none
  | first :: _ =>
    (l.zip (l.tail ++ [first])).findSome? (fun p =>
      let gap := if l.length = 1 then macroTicks im else after im p.2.1 p.1.1
      if 2 * gap < budgetOf im p.1.2.1 + 4 then some p.2.2.2 else none)

/-- The checkpoint copies: one in the macrocycle when variables are declared, else none (R102); no task overlaps one. -/
def copyBad (im : Image) : Option Nat :=
  let copies := firings im (ofKind im 0x18)
  if copies.length ≠ (if im.chklist.isEmpty then 0 else 1) then some ((copies.head?).elim 0 (fun c => c.2.2))
  else (firings im (ofKind im 0x1C)).findSome? (fun t =>
    if copies.any (fun c => overlap im t.1 (taskTicks (budgetOf im t.2.1)) c.1 (copyTicks im)) then some t.2.2 else none)

/-- The domains of the resources a bench declaration lists. -/
def declaredDomains (d : BenchDecl) : List Nat :=
  (List.range 32).flatMap (fun n => if d.channels.getLsbD n then [42 + n, 74 + n] else [])
    ++ (List.range 12).filterMap (fun b => if d.branches.getLsbD b then some (13 + b) else none)
    ++ (List.range 8).filterMap (fun b => if d.fb.getLsbD b then some (106 + b) else none)
    ++ (List.range 4).filterMap (fun b => if d.banks.getLsbD b then some (114 + b) else none)
    ++ (List.range 4).filterMap (fun p => if d.ports.getLsbD p then some (26 + p) else none)

/-- A quantity comes from a declared converter or channel (R348, Table 12.1). -/
def quantityDeclared (d : BenchDecl) (q : Nat) : Bool :=
  (d.adc.getLsbD 0 && q ≤ 2) || (d.adc.getLsbD 1 && ((3 ≤ q && q ≤ 5) || (0x0C ≤ q && q ≤ 0x0F)))
    || (0x20 ≤ q && q ≤ 0x3F && d.channels.getLsbD (q - 0x20))

/-- A firing uses a resource the slot declares idle (R107): by Table 14.10, by switching it, or by measuring it. -/
def meddles (im : Image) (d : BenchDecl) (s n : Nat) (f : Nat × GridEntry × Nat) : Bool :=
  let e := f.2.1
  let k := e.kind.toNat
  let ds := declaredDomains d
  ((usesOf im f).any (fun u => ds.contains u.res && overlap im s n u.at_ u.len))
    || (0x10 ≤ k && k ≤ 0x12 && ds.contains e.target.toNat && overlap im s n f.1 1)
    || (k = 0x04 && overlap im s n f.1 1
        && ((im.meassets.getD e.target.toNat []).any (fun q => quantityDeclared d q.toNat)))

/-- The bench slots (R107): the entry at fault. -/
def benchBad (im : Image) : Option Nat :=
  let slots := firings im (ofKind im 0x1E)
  if !slots.any (fun s => 313 ≤ s.2.1.param.toNat) then some 0
  else slots.findSome? (fun s =>
    let n := 8 * s.2.1.param.toNat
    match im.bench[s.2.1.target.toNat]? with
    | none => some s.2.2
    | some d =>
      if !heldOn im false 120 s.1 n then some s.2.2
      else ((firings im (gridIdx im)).find? (fun f => meddles im d s.1 n f)).map (fun f => f.2.2))

/-! ### 0x0A: the star (R225) -/

/-- A branch is served: it owns a slot or a dynamic ID. -/
def served (st : Star) (b : Nat) : Bool :=
  !(ownedSlots st b).isEmpty || st.ids.any (fun x => x.owner.toNat = b)

/-- The star configuration against grid and plan. -/
def starBad (im : Image) : Option (Nat × Nat) :=
  match im.star with
  | none => ((gridIdx im).find? (fun e => decide (0x0C ≤ e.1.kind.toNat) && decide (e.1.kind.toNat ≤ 0x0E))).map
      (fun e => (0x0A, detail 0x03 e.2))
  | some st =>
    match ofKind im 0x0C with
    | [v] =>
      let v0 := 8 * v.1.tick + 256
      let sEnd := v0 + 10000 + 1000 * st.nS * st.tS
      let eD := sEnd + 1000 * st.nM * st.tM
      let star := fun (bad : Bool) (i : Nat) => refuseIf bad 0x0A (detail 0x0E i)
      star (v.1.cmask ≠ BitVec.allOnes 64) 0
        <|> star (8 * cycTicks im < eD + 2000) 0
        <|> star (st.tS < 8 && (List.range st.nS).any (fun k => slotOwner st k ≠ 0xFF)) 0
        <|> star (st.tM < 2 && st.ids.any (fun x => x.owner ≠ 0xFF)) 0
        <|> star ((List.range 12).any (fun b => served st b && (ownedSlots st b).isEmpty)) 0
        <|> ((ownedSlots st 0x0C).find? (fun k => !(List.range 64).all (fun p =>
              (ofKind im 0x0D).any (fun e => e.1.target.toNat = k && firesAt e.1 (p + 1)
                && decide (8 * e.1.tick + 2000 ≤ v0 + 10000 + 1000 * k * st.tS))))).map (fun k => (0x0A, detail 0x0E k))
        <|> star (!(List.range 64).all (fun p => ((ofKind im 0x0E).filter (fun e => firesAt e.1 (p + 1))).length = 1)) 0
        <|> ((ofKind im 0x0E).find? (fun e => !(decide (sEnd ≤ 8 * e.1.tick) || decide (8 * e.1.tick ≤ v0)))).map
              (fun e => (0x0A, detail 0x03 e.2))
        <|> star (!alwaysAt im 12 1) 0
        <|> star ((List.range 12).any (fun b =>
              if served st b then !alwaysAt im (13 + b) 1 else !(neverAt im (13 + b) 1 && neverAt im (13 + b) 2))) 0
    | _ => some (0x0A, detail 0x0E 0)

/-- Check 0x0A. -/
def gridCheck (im : Image) (raw : List Bytes) : Option (Nat × Nat) :=
  firstBad 0x0A 0x03 (fun _ e => entryBad im e) raw
    <|> firstBad 0x0A 0x03 (orderBad im) im.grid
    <|> (trainBad im).map (fun i => (0x0A, detail 0x03 i))
    <|> (taskEarly im).map (fun i => (0x0A, detail 0x03 i))
    <|> (copyBad im).map (fun i => (0x0A, detail 0x03 i))
    <|> (benchBad im).map (fun i => (0x0A, detail 0x03 i))
    <|> starBad im

/-! ### 0x0B: the power plan -/

/-- `LOW` is a level of the domain (Table 3.2). -/
def hasLow (d : Nat) : Bool := (26 ≤ d && d ≤ 29) || (106 ≤ d && d ≤ 117)

/-- A field of a vector that no plan may hold: a level of a domain outside the plan, `LOW` without a `LOW` level. -/
def fieldBad (d f : Nat) : Bool := if planned d then f = 2 && !hasLow d else f ≠ 3

/-- The level of a domain at the end of a position's cycle: its vector and the entries of the cycle (R100). -/
def levelAfter (im : Image) (pos d : Nat) : Nat :=
  (powerOf im d).foldl (fun l e => if firesAt e.1 pos then entryField e.1.kind.toNat else l) (vecAt im pos d)

/-- A domain unplanned in some vectors only (R398): the first vector that differs. -/
def mixedVec (im : Image) : Option Nat :=
  (im.pwrvec.zipIdx.find? (fun v => (List.range 128).any (fun d =>
    decide ((vecField v.1 d = 3) ≠ (vecAt im 1 d = 3))))).map (fun v => v.2)

/-- A vector that does not follow (R100): its index. -/
def unfollowed (im : Image) : Option Nat :=
  (List.range 64).find? (fun i => (List.range 128).any (fun d =>
    let prev := if i = 0 then 64 else i
    planned d && vecAt im 1 d ≠ 3 && levelAfter im prev d ≠ vecAt im (i + 1) d))

/-- A power entry no plan may hold: another domain, no `LOW` level, an unplanned domain (R100). -/
def powerBad (im : Image) (e : GridEntry) : Bool :=
  let k := e.kind.toNat
  let d := e.target.toNat
  0x10 ≤ k && k ≤ 0x12 && (!planned d || (k = 0x12 && !hasLow d) || vecAt im 1 d = 3)

/-- The domains of a channel against its mode (R65). -/
def channelPlanBad (im : Image) (n : Nat) : Bool :=
  let m := chanMode im n
  if m = 0 then !alwaysAt im (42 + n) 0 || !alwaysAt im (74 + n) 0
  else if m = 4 || m = 5 then !alwaysAt im (42 + n) 1 || !alwaysAt im (74 + n) 1 || !alwaysAt im (38 + n / 8) 1
  else false

/-- The `SAMPLE` firings that cover a channel. -/
def samplesOf (im : Image) (n : Nat) : List (Nat × GridEntry × Nat) :=
  (firings im (ofKind im 0x01)).filter (fun f => (maskedChans f.2.1).contains n)

/-- A `DI-PS` channel against the grid (R327): the `SAMPLE` entry at fault. -/
def pulsedBad (im : Image) (n : Nat) : Option Nat :=
  if chanMode im n ≠ 3 then none
  else
    let l := samplesOf im n
    let t := chanSettle im n
    match l with
    | [] => none
    | first :: _ =>
      (l.find? (fun f => decide (f.2.1.tick < t) || decide (cycTicks im - 250 < f.2.1.tick + 625)
        || !heldOn im true (42 + n) ((f.1 + macroTicks im - t) % macroTicks im) (t + 625)
        || !heldOn im true (74 + n) ((f.1 + macroTicks im - t) % macroTicks im) (t + 625))).map (fun f => f.2.2)
      <|> (l.zip (l.tail ++ [first])).findSome? (fun p =>
        if 1 < l.length && decide (after im p.2.1 p.1.1 < 12500) then some p.2.2.2 else none)

/-- Check 0x0B. -/
def planCheck (im : Image) : Option (Nat × Nat) :=
  (mixedVec im).map (fun i => (0x0B, detail 0x04 i))
    <|> firstBad 0x0B 0x04 (fun _ v => (List.range 128).any (fun d => fieldBad d (vecField v d))) im.pwrvec
    <|> firstBad 0x0B 0x03 (fun _ e => powerBad im e) im.grid
    <|> (unfollowed im).map (fun i => (0x0B, detail 0x04 i))
    <|> firstBad 0x0B 0x0D (fun n _ => channelPlanBad im n) im.channels
    <|> firstBad 0x0B 0x0F (fun p _ => !alwaysAt im (26 + p) 1 && !neverAt im (26 + p) 1) (List.range 4)
    <|> ((firings im (ofKind im 0x01)).find? (fun f => (maskedChans f.2.1).any (fun n => chanMode im n = 0))).map
          (fun f => (0x0B, detail 0x03 f.2.2))
    <|> ((List.range 32).findSome? (pulsedBad im)).map (fun i => (0x0B, detail 0x03 i))
    <|> ((allUses im).find? (fun u => u.res < 128 && !heldOn im true u.res u.at_ u.len)).map (fun u => (0x0B, detail 0x03 u.idx))

/-! ### 0x0C: the claims -/

/-- A claim on its own (R400). -/
def claimBad (im : Image) (raw : Bytes) : Bool :=
  let c := readClaim raw
  !((c.res < 128 && planned c.res && vecAt im 1 c.res ≠ 3) || (0x100 ≤ c.res && c.res ≤ 0x102))
    || 64 < c.pos || field raw 3 1 ≠ 0 || !decide (c.from_ < c.upto) || cycTicks im < c.upto

/-- A claim covers a position. -/
def covers (c : Claim) (pos : Nat) : Bool := c.pos = 0 || c.pos = pos

/-- Part of a use within one cycle lies in a claim of its resource. -/
def partClaimed (im : Image) (res pos a b : Nat) : Bool :=
  im.claims.any (fun c => c.res = res && covers c pos && decide (c.from_ ≤ a) && decide (b ≤ c.upto))

/-- A use lies in claims, from cycle to cycle (R400, R402). -/
def useClaimed (im : Image) (res : Nat) : Nat → Nat → Nat → Bool
  | 0, _, n => n = 0
  | fuel + 1, a, n =>
    let cyc := cycTicks im
    let pos := a / cyc % 64 + 1
    let off := a % cyc
    n = 0 || (partClaimed im res pos off (min cyc (off + n))
      && useClaimed im res fuel (a + min n (cyc - off)) (n - min n (cyc - off)))

/-- Two claims of core, DMA and copy overlap in a position. -/
def claimClash (c d : Claim) : Bool :=
  (c.pos = 0 || d.pos = 0 || c.pos = d.pos) && decide (c.from_ < d.upto) && decide (d.from_ < c.upto)

/-- The plan does not hold a claimed domain (R402). -/
def claimUnheld (im : Image) (c : Claim) : Bool :=
  c.res < 128 && (List.range 64).any (fun p =>
    covers c (p + 1) && !heldOn im true c.res (p * cycTicks im + c.from_) (c.upto - c.from_))

/-- Check 0x0C. -/
def claimCheck (im : Image) (cert : Bytes) : Option (Nat × Nat) :=
  refuseIf ((part cert 4 12).any (· ≠ 0) || field cert 2 2 = 0 || 8192 < field cert 2 2) 0x0C (detail 0x11 0)
    <|> firstBad 0x0C 0x11 (fun _ e => claimBad im e) (claimEntries cert)
    <|> ((allUses im).find? (fun u => !useClaimed im u.res 70 u.at_ u.len)).map (fun u => (0x0C, detail 0x03 u.idx))
    <|> firstBad 0x0C 0x11 (fun i c => decide (128 ≤ c.res) && (im.claims.take i).any (fun d =>
          decide (128 ≤ d.res) && claimClash c d)) im.claims
    <|> firstBad 0x0C 0x11 (fun _ c => claimUnheld im c) im.claims

end Sys2Proof.Machine
end

