-- ==== Sys2Proof/Machine/Verify.lean ====
section
/-! DEFINITION. The image verifier (R406, Table 14.11), admission, loading and the commit of an image (R407, R408, R417). -/

namespace Sys2Proof.Machine

/-! ### 0x01-0x04 -/

/-- Check 0x01 over the 64 header bytes, against the length the slot record or the commit gives. -/
def headerBad (h : Bytes) (length : Nat) : Bool :=
  field h 0 4 ≠ 0x4A4E494D || field h 4 2 ≠ 1 || field h 8 4 ≠ length || length < 4096 || 2093056 < length
    || length % 16 ≠ 0 || 1 < field h 12 1 || 7 < field h 13 1 || (h.drop 32).any (· ≠ 0)

/-- `COUNT` of Table 14.2: least and greatest value. -/
def countRange (ty : Nat) : Nat × Nat :=
  match ty with
  | 0x01 => (1, 1) | 0x02 => (1, 1) | 0x03 => (1, 4096) | 0x04 => (64, 64) | 0x05 => (1, 256) | 0x06 => (1, 65536)
  | 0x07 => (0, 16384) | 0x08 => (0, 64) | 0x09 => (1, 64) | 0x0A => (0, 256) | 0x0B => (0, 64) | 0x0C => (0, 16)
  | 0x0D => (32, 32) | 0x0E => (1, 1) | 0x0F => (4, 4) | 0x10 => (0, 32) | _ => (1, 1)

/-- The section types an image must have (Table 14.2). -/
def requiredTypes : List Nat := [0x01, 0x02, 0x03, 0x04, 0x05, 0x06, 0x09, 0x0D, 0x11]

/-- The length a section must have (R397, R400). -/
def sectLength (b : Bytes) (s : Sect) : Nat :=
  if s.ty = 0x0E then 1680
  else if s.ty = 0x11 then
    let c := part b s.off 16
    16 + 4 * field c 0 2 + 12 * field c 2 2
  else s.count * entrySize s.ty

/-- One directory entry at fault (R397). -/
def sectBad (b : Bytes) (dir : List Sect) (i : Nat) (s : Sect) : Bool :=
  s.ty = 0 || 0x11 < s.ty || (dir.take i).any (fun x => x.ty = s.ty) || s.res ≠ 0
    || s.off % 16 ≠ 0 || s.off < 64 + 16 * dir.length || b.length < s.off + s.len + 64
    || s.count < (countRange s.ty).1 || (countRange s.ty).2 < s.count
    || (s.ty = 0x11 && s.len < 16) || s.len ≠ sectLength b s

/-- The section shares a byte with one listed before it; an empty section shares none. -/
def sectOverlap (dir : List Sect) (i : Nat) (s : Sect) : Bool :=
  (dir.take i).any (fun x => decide (max s.off x.off < min (s.off + s.len) (x.off + x.len)))

/-- A fault of a directory entry, named by its `TYPE` and its place in the directory. -/
def dirFault (bad : Nat → Sect → Bool) (dir : List Sect) : Option (Nat × Nat) :=
  (dir.zipIdx.find? (fun e => bad e.2 e.1)).map (fun e => (0x04, detail (e.1.ty % 65536) e.2))

/-- Check 0x04. -/
def directoryCheck (b : Bytes) : Option (Nat × Nat) :=
  let n := field b 14 2
  if n = 0 || 32 < n then some (0x04, 0)
  else
    let dir := directory b
    let cert := sectBytes b dir 0x11
    dirFault (sectBad b dir) dir
      <|> dirFault (sectOverlap dir) dir
      <|> (requiredTypes.find? (fun t => (sectOf dir t).isNone)).map (fun t => (0x04, detail t 0))
      <|> refuseIf (field cert 0 2 ≠ sectCount dir 0x05) 0x04 (detail 0x11 0)

/-! ### 0x05-0x07 -/

/-- Check 0x05 (Table 14.3). -/
def profileBad (e : Bytes) : Bool :=
  3 < field e 0 1 || 8 < field e 1 1 || 1 < field e 3 1 || field e 4 2 = 0 || 3600 < field e 4 2
    || field e 6 2 = 0 || 1440 < field e 6 2 || field e 8 2 = 0 || 4094 < field e 8 2 || (e.drop 10).any (· ≠ 0)
    || (readProfile e).fp = 0

/-- A threshold in steps of 0.125 °C, the default of Table 12.3 where the image leaves 0. -/
def threshold (t : List Half) (i : Nat) : Int :=
  let v := (t.getD i 0).toInt
  if v ≠ 0 then v else ([600, 720, 680, 800, 640, 760] : List Int).getD i 0

/-- Node parameters out of range (Table 14.4, R357). -/
def nodeBad (e : Bytes) : Bool :=
  let t := (readNode e).tempThr
  15 < field e 1 1 || 3600 < field e 2 2 || 3 < field e 4 1 || 1 < field e 5 1 || 2 < field e 6 1
    || (31 < field e 7 1 && field e 7 1 ≠ 0xFF) || 63 < field e 8 1 || field e 9 1 ≠ 0 || (e.drop 24).any (· ≠ 0)
    || (List.range 3).any (fun i => decide (threshold t (2 * i + 1) - 40 < threshold t (2 * i)))

/-- A channel's configuration (Tables 11.2 and 14.6, R322). -/
def channelBad (wakeCh n : Nat) (e : Bytes) : Bool :=
  let c := field e 0 4
  16383 < c || 5 < c % 16 || (c % 16 = 3 && (c / 16 % 256 < 10 || 200 < c / 16 % 256)) || c.testBit 12 ≠ decide (n = wakeCh)

/-- A quantity code of Table 12.1. -/
def quantityOk (q : Nat) : Bool := q ≤ 5 || (8 ≤ q && q ≤ 0x0F) || (0x20 ≤ q && q ≤ 0x3F)

/-- A measurement set (Table 14.6). -/
def measureBad (e : Bytes) : Bool := e.all (· = 0xFF) || e.any (fun q => q ≠ 0xFF && !quantityOk q.toNat)

/-- An owner code of Table 14.7. -/
def ownerOk (o : Byte) : Bool := o.toNat ≤ 0x0C || o = 0xFF

/-- The star configuration (Tables 8.1 and 14.7): the entry at fault, 0 for a layout parameter, the slot, or the ID. -/
def starParamBad (e : Bytes) : Option Nat :=
  let st := readStar e
  if st.layout = 0 || st.nS < 8 || 64 < st.nS || st.tS < 2 || 64 < st.tS || 400 < st.nM || st.tM = 0 || 8 < st.tM
      || (part e 7 9).any (· ≠ 0) then some 0
  else
    (st.owners.zipIdx.find? (fun o => !ownerOk o.1 || (st.nS ≤ o.2 && o.1 ≠ 0xFF))).map (fun o => o.2)
    <|> (st.ids.zipIdx.find? (fun x => !ownerOk x.1.owner || (st.nM ≤ x.2 && x.1.owner ≠ 0xFF)
          || (x.1.owner ≠ 0xFF && (2 < x.1.consumer.toNat || x.1.maxLen < 64 || 1518 < x.1.maxLen)))).map (fun x => x.2 + 1)

/-- An equipment port (R264, Table 14.8). -/
def portBad (e : Bytes) : Bool :=
  let c := readEq e
  let m := field e 129 1
  (chunks 8 8 e).any (fun x => 7 < field x 6 1 || field x 6 1 / 2 = 3 || field x 7 1 ≠ 0)
    || 3 < field e 128 1 || 63 < m || c.consBcast = 3 || c.consHash = 3 || c.consProm = 3
    || 7 < field e 130 1 || c.quota < 16 || 2048 < c.quota || c.low = 0 || c.high ≤ c.low || 100 < c.high
    || field e 136 1 = 0 || 7 < field e 136 1 || 15 < field e 137 1 || (part e 138 6).any (· ≠ 0)
    || (chunks 160 4 (e.drop 144)).zipIdx.any (fun f =>
          (c.armed.getLsbD f.2 && (field f.1 144 1 = 0 || 128 < field f.1 144 1)) || (f.1.drop 145).any (· ≠ 0))

/-- A Shutter route (R312, Table 14.6): reserved bits, ranges, and an object the image does not configure. -/
def routeBad (im : Image) (e : Bytes) : Bool :=
  let r := readRoute e
  let id := fun (st : Star) => st.ids.getD (r.seg - 1) ⟨0xFF, 2, 0⟩
  let node := r.node.toNat
  field e 0 1 / 2 % 8 ≠ 0 || 15 < field e 1 1 || 1 < field e 2 2 / 4096 || 4095 < field e 4 2 || field e 7 1 ≠ 0
    || (if r.toSegment then 63 < node else (node = 0 || (63 < node && node ≠ 0xFF)))
    || (if r.dynamic then
          r.seg = 0 || im.star.elim true (fun st => decide (st.nM < r.seg)
            || (if r.toSegment then (id st).owner ≠ 0x0C else (id st).owner = 0xFF || (id st).consumer ≠ 1))
        else 3 < r.seg || im.eq.isEmpty)

/-- A transfer runs past the end of its space or object (R544). -/
def spaceBad (im : Image) (space addr n : Nat) : Bool :=
  let slot := fun (owned : Bool) => im.star.elim true (fun st =>
    let k := Config.dmaSlot addr
    decide (st.nS ≤ k) || (owned && slotOwner st k ≠ 0x0C) || decide (lStatic st - 34 < Config.dmaOffset addr + n))
  match space with
  | 0 => 0x40000 < addr + n
  | 1 => 4 * im.node.wlen.toNat < addr + n
  | 2 => 8192 < addr + n
  | 3 => slot true
  | 4 => slot false
  | _ => true

/-- A DMA descriptor (R544). -/
def dmaBad (im : Image) (e : Bytes) : Bool :=
  let d := readDma e
  4 < d.src.toNat || 4 < d.dst.toNat || d.dst = 2 || d.dst = 4 || d.length < 4 || 1024 < d.length || d.length % 4 ≠ 0
    || d.srcAddr % 4 ≠ 0 || d.dstAddr % 4 ≠ 0 || (e.drop 12).any (· ≠ 0)
    || spaceBad im d.src.toNat d.srcAddr d.length || spaceBad im d.dst.toNat d.dstAddr d.length

/-- Check 0x06. -/
def paramCheck (im : Image) (es : Nat → List Bytes) (star : Bytes) : Option (Nat × Nat) :=
  firstBad 0x06 0x02 (fun _ e => nodeBad e) (es 0x02)
    <|> firstBad 0x06 0x0D (channelBad im.node.wakeCh.toNat) (es 0x0D)
    <|> firstBad 0x06 0x0C (fun _ e => measureBad e) (es 0x0C)
    <|> (if im.star.isSome then (starParamBad star).map (fun i => (0x06, detail 0x0E i)) else none)
    <|> firstBad 0x06 0x0F (fun _ e => portBad e) (es 0x0F)
    <|> firstBad 0x06 0x10 (fun _ e => routeBad im e) (es 0x10)
    <|> firstBad 0x06 0x0A (fun _ e => dmaBad im e) (es 0x0A)

/-- Check 0x07 (R2). -/
def variantCheck (variantN : Bool) (im : Image) : Option (Nat × Nat) :=
  if !variantN then none
  else
    refuseIf (im.target = 1) 0x07 0
      <|> firstBad 0x07 0x0D (fun n _ => chanMode im n ≠ 0) im.channels
      <|> refuseIf (im.node.wakeCh ≠ 0xFF) 0x07 (detail 0x02 0)

/-! ### 0x08, 0x09 -/

/-- Check 0x08 (R369, R392). -/
def codeCheck (im : Image) (tasks : List Bytes) : Option (Nat × Nat) :=
  firstBad 0x08 0x05 (fun _ e => 15 < field e 4 1 || (e.drop 5).any (· ≠ 0)) tasks
    <|> (structureFault im.code im.tasks).map (fun x => (0x08, x.1 * 2 ^ 24 + x.2))

/-- Check 0x09 (R401). -/
def budgetCheck (im : Image) : Option (Nat × Nat) := firstBad 0x09 0x05 (fun _ t => decide (t.budget < taskW im.code t)) im.tasks

/-! ### 0x0D-0x0F -/

/-- A domain a standing order may hold (R112). -/
def holdable (d : Nat) : Bool := (12 ≤ d && d ≤ 24) || (26 ≤ d && d ≤ 33) || (38 ≤ d && d ≤ 105) || d = 120

/-- A standing order (R112, Table 4.7). -/
def orderEntryBad (e : Bytes) : Bool :=
  let o := readOrder e
  let obj := o.obj.toNat
  let val := o.val.toNat
  field e 3 1 ≠ 0 ||
    !(match o.action.toNat with
      | 0x00 => true
      | 0x01 | 0x02 => obj ≤ 11 && val = 0
      | 0x03 | 0x04 => holdable obj && val = 0
      | 0x05 => obj ≤ 31 && val ≤ 1
      | 0x06 => obj ≤ 31 && val = 0
      | 0x07 => obj ≤ 3 && val = 0
      | 0x08 => obj = 0 && val ≤ 2
      | 0x09 | 0x0A => obj ≤ 3 && val = 0
      | 0x0B | 0x0C => obj ≤ 31 && val = 0
      | _ => false)

/-- A bench declaration (R361, Table 14.6): reserved bits, pool banks. -/
def benchEntryBad (im : Image) (e : Bytes) : Bool :=
  15 < field e 4 1 || 63 < field e 7 1 || 31 < field e 8 1 || (e.drop 9).any (· ≠ 0)
    || (List.range 8).any (fun k => (readBench e).fb.getLsbD k && poolBank im k)

/-- Check 0x0F (R102, R104, R66, Table 14.6). -/
def chkCheck (im : Image) : Option (Nat × Nat) :=
  if im.chklist.isEmpty then refuseIf im.node.restore 0x0F (detail 0x08 0)
  else
    firstBad 0x0F 0x08 (fun _ e => e.1 % 16 ≠ 0 || e.2 % 16 ≠ 0 || 0x40000 < e.1 + e.2) im.chklist
      <|> refuseIf (chkTotal im < 16 || 16384 < chkTotal im) 0x0F (detail 0x08 0)
      <|> refuseIf ((chkBanks im).any (fun b => !(neverAt im (114 + b) 0 && neverAt im (114 + b) 3))) 0x0F (detail 0x08 0)

/-! ### The whole verification (R406) -/

/-- The checks after the signature, 0x04-0x0F, over the bytes of an image. -/
def contentCheck (variantN : Bool) (b : Bytes) (im : Image) : Option (Nat × Nat) :=
  directoryCheck b
    <|> (let dir := directory b
         let es := sectEntries b dir
         refuseIf (profileBad (sectBytes b dir 0x01)) 0x05 (detail 0x01 0)
           <|> paramCheck im es (sectBytes b dir 0x0E)
           <|> variantCheck variantN im
           <|> codeCheck im (es 0x05)
           <|> budgetCheck im
           <|> gridCheck im (es 0x03)
           <|> planCheck im
           <|> claimCheck im (sectBytes b dir 0x11)
           <|> firstBad 0x0D 0x0B (fun _ e => orderEntryBad e) (es 0x0B)
           <|> firstBad 0x0E 0x09 (fun _ e => benchEntryBad im e) (es 0x09)
           <|> chkCheck im)

/-- What a verification answers: a refusal with its detail, or the image. -/
inductive Verdict | refused (code det : Nat) | admitted (im : Image)
deriving DecidableEq, Repr

/-- The verification of the image in a slot, against a length and, from a slot record, a hash prefix (R403, R406, R545). -/
def verifyImage (nv : Nv) (variantN : Bool) (slot length : Nat) (pre : Option Bytes) : Verdict :=
  let h := nvBytes nv (imgBase slot) 64
  if nvBad nv (imgBase slot) 64 then .refused 0x03 0
  else if headerBad h length then .refused 0x01 0
  else if !keyUsable nv (field h 13 1) then .refused 0x02 0
  else if nvBad nv (imgBase slot) length then .refused 0x03 0
  else
    let b := imageBytes nv slot length
    let hash := sha256 (b.take (length - 64))
    if pre.elim false (fun p => p ≠ hash.take 12) then .refused 0x03 0
    else if !edVerify (keyBytes nv (field h 13 1)) (b.drop (length - 64)) hash then .refused 0x03 0
    else
      let im := readImage b hash
      match contentCheck variantN b im with
      | some (c, d) => .refused c d
      | none => .admitted im

/-- The units the verification reads: the header, and the whole image once its header and key stand. -/
def verifyReport (slot length : Nat) (s : State) : State :=
  let h := nvBytes s.nv (imgBase slot) 64
  if nvBad s.nv (imgBase slot) 64 || headerBad h length || !keyUsable s.nv (field h 13 1)
  then nvReport (imgBase slot) 64 s else nvReport (imgBase slot) length s

/-- A refusal is recorded: event 0x8081 and the slot's last refusal code (R406). -/
def verifyRefused (slot code det : Nat) (s : State) : State :=
  raise 0x8081 noInst [w32 slot, w32 code, w32 det]
    { s with nv := { s.nv with refusal := s.nv.refusal.set slot (BitVec.ofNat 8 code) } }

/-- IMAGE_VERIFIED in `BRINGUP` (R408): the slot is admitted, or refused and the next one is verified. -/
def slotVerified (slot : Nat) (s : State) : State :=
  let rest := match s.nv.ver.rest with
    | [] => { s.nv.ver with cur := none, rest := [], refused := true }
    | x :: r => { s.nv.ver with cur := some x, rest := r, refused := true }
  match slotRecord s.nv slot with
  | none => { s with nv := { s.nv with ver := rest } }
  | some (gen, length, pre) =>
    let v := verifyImage s.nv s.dev.variantN slot length (some pre)
    let s := verifyReport slot length s
    match v with
    | .refused c d => verifyRefused slot c d { s with nv := { s.nv with ver := rest } }
    | .admitted im =>
      raise 0x8080 noInst [w32 slot, gen, im.imgVer.setWidth 32, imgId im]
        { s with nv := { s.nv with ver := { s.nv.ver with cur := none, rest := [], admitted := some (slot, gen, im) } } }

/-- The 32 bytes of a slot record (R417). -/
def recordBytes (gen length : Nat) (hash : Bytes) : Bytes :=
  let b := beBytes 4 0x534C4F54 ++ beBytes 4 gen ++ beBytes 4 length ++ List.replicate 4 0 ++ hash.take 12
  b ++ beBytes 4 (crc32 b).toNat

/-- A commit ends refused: the staging of the slot ends with it (R416). -/
def commitRefused (slot : Nat) (code : Byte) (det : Half) (s : State) : State :=
  jobEnd code det { s with nv := { s.nv with staged := s.nv.staged.set slot false } }

/-- IMAGE_VERIFIED of an `IMG_COMMIT` (R415, R417): on admission the record is programmed. -/
def commitVerified (j : NvJob) (s : State) : State :=
  let slot := j.a0.toNat
  let length := j.a1.toNat
  let v := verifyImage s.nv s.dev.variantN slot length none
  let s := verifierPower .off (verifyReport slot length s)
  match v with
  | .refused c d => commitRefused slot 0x18 (BitVec.ofNat 16 c) (verifyRefused slot c d s)
  | .admitted im =>
    let gen := maxGen s.nv + 1
    if gen = 0xFFFFFFFF then commitRefused slot 0x19 0 s
    else jobMod (fun j => { j with phase := 1, pos := 0, data := recordBytes gen length im.hash }) s

/-- IMAGE_VERIFIED (R406-R408, R415). -/
def imageVerified (s : State) : State :=
  match s.nv.ver.cur with
  | some slot => if s.pwr.node = .bringup then slotVerified slot s else s
  | none =>
    match s.nv.job with
    | some j => if j.code = 0x13 && j.phase = 0 && s.awake then commitVerified j s else s
    | none => s

def execImageVerified (t : Nat) : State → Host.Outcome State Fault Refusal := act t imageVerified

/-- IMAGE_LOADED (R407): the PXC's memories and the channel configuration are written; `RUN` follows at the next cycle
start (R71). -/
def imageLoaded (s : State) : State :=
  match s.nv.ver.admitted with
  | some (_, _, im) =>
    if s.pwr.node = .bringup && !s.nv.ver.loaded then
      { s with
        nv := { s.nv with ver := { s.nv.ver with loaded := true } }
        cr := { s.cr with pxc := coreLoad im s.cr.pxc }
        ch := s.ch.zipIdx.map (fun c => { c.1 with cfg := if s.dev.variantN then 0 else im.channels.getD c.2 0 }) }
    else s
  | none => s

def execImageLoaded (t : Nat) : State → Host.Outcome State Fault Refusal := act t imageLoaded

end Sys2Proof.Machine
end

