-- ==== Sys2Proof/Machine/RegRead.lean ====
section
/-! DEFINITION. What each listed register reads (17), and the clear of the RC bits a read returned (16). -/

namespace Sys2Proof.Machine

/-- A mask of flags, the first at bit 0. -/
def bitsOf : List Bool → Nat
  | [] => 0
  | b :: r => bit1 b + 2 * bitsOf r

/-- A signed value in a register. -/
def sWord (x : Int) : Word := BitVec.ofInt 32 x

/-- A word of a 64-bit value: the high one first. -/
def half64 (x : DWord) (low : Bool) : Word := if low then x.setWidth 32 else (x >>> (32 : Nat)).setWidth 32

/-- Word k of a byte string. -/
def wordAt (b : Bytes) (k : Nat) : Word := w32 (field b (4 * k) 4)

/-! ### Sources of HOST_IRQ# (R453, R480) -/

/-- One command bank. -/
def bankOf (s : State) (path : Path) : CmdBank := s.rg.banks.getD (pathBank path) {}

/-- `GEN_IRQ_STATUS` (Table 17.5). -/
def irqStatus (s : State) : BitVec 5 :=
  let host := bankOf s .host
  BitVec.ofNat 5 (bitsOf
    [s.rg.mismatch && s.rg.genCtrl.getLsbD 1, host.event &&& host.irqEn ≠ 0, s.lg.evHit &&& s.lg.evIrq ≠ 0,
     !s.dev.variantN && s.ch.any (fun c => c.fault &&& c.irqEn ≠ 0), s.pool.sticky &&& s.pool.irqEn ≠ 0])

/-- `HOST_IRQ#` is asserted (R453): the pin is low, in the states that power the host port. -/
def hostIrq (s : State) : Bool := s.awake && irqStatus s &&& s.rg.irqEn ≠ 0

/-! ### Control block (Table 17.4) -/

/-- A slow-domain write is in flight, or `SLOW_CLK` stands (R458, R459). -/
def slowBusy (s : State) : Bool := s.pwr.slowWrite.isSome || s.pwr.slowHeld.isSome

/-- A shadow is pending (R457). -/
def shadowPending (s : State) : Bool := !s.rg.shadow.isEmpty || !s.rg.shadowLate.isEmpty

/-- `RWL` fields are locked: an image is in service (R478). -/
def rwlLocked (s : State) : Bool := s.gr.img.isSome

/-- `GEN_STATUS`. -/
def genStatus (s : State) : Word :=
  w32 (s.pwr.node.code + 2 ^ 8 * bit1 s.rg.mismatch + 2 ^ 17 * bit1 (rwlLocked s) + 2 ^ 18 * bit1 (shadowPending s)
    + 2 ^ 19 * bit1 (slowBusy s))

/-- The copies slow reads return (R6, R459): held while `SLOW_CLK` stands. -/
def slowRead (s : State) (off : Nat) : Word :=
  let c := s.pwr.slowHeld.getD (slowCopies s.pwr)
  if off = 0x01C then c.opsec
  else if off = 0x020 then c.pcyc.setWidth 32
  else if off = 0x0A0 then c.wakeSrc
  else if off = 0x0A4 then c.wakeFail
  else if off = 0x0A8 then c.wfSec
  else c.wfPcyc.setWidth 32

/-- `PWR_STATE` and `PWR_LOW`: bit j of word k tells whether domain 32k + j is at a level. -/
def levelWord (s : State) (l : Level) (k : Nat) : Word :=
  w32 (bitsOf ((List.range 32).map (fun j => (s.dom (32 * k + j)).act = l)))

/-- The active value of a WS register. -/
def wsActive (s : State) (off : Nat) : Word := smGet 0 s.rg.ws off

/-- The pending shadow of a register. -/
def wsPending (s : State) (off : Nat) : Option Word :=
  ((s.rg.shadowLate.find? (fun e => e.1 = off)) <|> (s.rg.shadow.find? (fun e => e.1 = off))).map Prod.snd

/-- What a WS register reads (R6): under `SHVIEW` the pending shadow. -/
def wsRead (s : State) (off : Nat) : Word :=
  if s.rg.genCtrl.getLsbD 0 then (wsPending s off).getD (wsActive s off) else wsActive s off

/-- GEN, PWR, CLK and CFG registers. -/
def readControl (s : State) (off : Nat) : Word :=
  if off = 0x000 then w32 (0x63000000 + s.dev.issue.toNat * 256 + bit1 s.dev.variantN)
  else if off = 0x004 then genStatus s
  else if off = 0x008 then s.rg.genCtrl.setWidth 32
  else if off = 0x00C then (irqStatus s).setWidth 32
  else if off = 0x010 then s.rg.irqEn.setWidth 32
  else if off = 0x014 then half64 s.dev.nodeId false
  else if off = 0x018 then half64 s.dev.nodeId true
  else if off = 0x01C || off = 0x020 then slowRead s off
  else if off ≤ 0x030 then s.rg.tags.getD ((off - 0x024) / 4) 0
  else if off = 0x034 then s.rg.scratch
  else if off ≤ 0x08C then levelWord s .on ((off - 0x080) / 4)
  else if off ≤ 0x09C then levelWord s .low ((off - 0x090) / 4)
  else if off ≤ 0x0AC then slowRead s off
  else if off = 0x100 then w32 (s.pwr.pllAttempts * 256 + 2 * bit1 (s.pwr.node = .limp) + bit1 s.pwr.locked)
  else if off = 0x104 then s.pwr.clkDev.setWidth 32
  else if off = 0x108 then s.pwr.losses.setWidth 32
  else if off = 0x180 then wsRead s off
  else if off = 0x184 then s.rg.cfgCrc
  else w32 (2 ^ 16 * bit1 s.rg.cfgArmed)

/-- The registers of a path's own bank (R468). -/
def readBank (b : CmdBank) (off : Nat) : Word :=
  if off ≤ 0x20C then b.args.getD ((off - 0x200) / 4) 0
  else if off = 0x210 then b.code.setWidth 32
  else if off = 0x214 then w32 (b.detail.toNat * 65536 + b.result.toNat * 256 + b.state)
  else if off = 0x218 then b.jseq
  else if off = 0x21C then b.event.setWidth 32
  else if off = 0x220 then b.irqEn.setWidth 32
  else b.nvBuf.getD ((off - 0x400) / 4) 0

/-! ### Drawers, logs and journal (Table 17.6, R505) -/

/-- A drawer's registers. -/
def readDrawer (d : Drawer) (o : Nat) : Word :=
  if o = 0 then d.sel else if o = 4 then d.cursor else if o = 8 then 0 else if o = 0xC then d.status
  else d.win.getD ((o - 0x40) / 4) 0

/-- Class-P commands that await the JNV (R499). -/
def jnvAwaiting (s : State) : Nat := (s.lg.execQ.filter (fun c => c.ent.persist && !c.ent.mirrored)).length

/-- `JSEQ`s of the valid JNV command entries. -/
def jnvCommands (nv : Nv) : List Word :=
  (jnvUsed nv).filterMap (fun p => (jnvEntry nv p).bind (fun b =>
    if (b.getD 5 0).getLsbD 3 then none else some (w32 (field b 0 4))))

/-- The newest number of a list in serial order, or the oldest. -/
def serialEnd (newest : Bool) (l : List Word) : Option Word :=
  l.foldl (fun best x => match best with
    | none => some x
    | some b => if (if newest then follows x b else follows b x) then some x else some b) none

/-- Log and journal registers. -/
def readLog (s : State) (off : Nat) : Word :=
  let lg := s.lg
  if off = 0x900 then
    w32 (bitsOf [lg.oplFull, lg.incFull, lg.incArm.isSome, lg.oplArm.isSome, lg.incClearing])
  else if off = 0x904 then w32 lg.oplUsed
  else if off = 0x908 then w32 lg.incPos
  else if off = 0x90C then lg.evHit.setWidth 32
  else if off = 0x910 then lg.evIrq.setWidth 32
  else if off ≤ 0x97C then lg.evMatch.getD ((off - 0x940) / 4) 0
  else if off = 0xA00 then
    w32 (jnvAwaiting s + 2 ^ 16 * bit1 lg.ring.isEmpty + 2 ^ 17 * bit1 (jnvValid s.nv).isEmpty + 2 ^ 18 * bit1 lg.gap)
  else if off = 0xA04 then (lg.ring.getLast?).elim (lg.jseq - 1) JEntry.jseq
  else if off = 0xA08 then (lg.ring.head?).elim lg.jseq JEntry.jseq
  else (serialEnd (off = 0xA0C) (jnvCommands s.nv)).getD 0

/-! ### Backbone and Hinge (Table 17.7) -/

/-- The TTR body header (Table 5.7). -/
def ttrHeader (t : Ttr) : Bytes :=
  [BitVec.ofNat 8 t.recs.length, t.rev, t.flags, t.refCause] ++ beBytes 4 t.profileFp.toNat ++ beBytes 4 t.topoHash.toNat
    ++ beBytes 4 t.switchDly.toNat ++ beBytes 2 t.adoptCyc.toNat ++ List.replicate 6 0 ++ beBytes 8 t.originId.toNat

/-- A TTR record (Table 5.8). -/
def ttrRecord (r : TtrRec) : Bytes :=
  beBytes 8 r.nodeId.toNat ++ [r.number, r.flags, r.status, r.wlen] ++ beBytes 2 r.cdlyA.toNat ++ beBytes 2 r.cdlyB.toNat
    ++ beBytes 2 r.imgVer.toNat ++ [0, 0]

/-- `TB_LINK`: 4 bits per port. -/
def linkWord (s : State) : Word :=
  w32 ((List.range 4).foldl (fun a p =>
    let x := s.hp p
    a + (x.speed + 4 * bit1 x.settled + 8 * bit1 x.stepping) * 16 ^ p) 0)

/-- `TB_SYNC`. -/
def syncWord (s : State) : Word :=
  w32 (s.cyc.mode.code
    + bitsOf [s.cyc.mode.valid, provides s, s.cyc.withdrawn, s.pwr.lockLost] * 8
    + 2 ^ 8 * (s.hg.ttr.elim 0 (fun t => (ensemble t).length)) + 2 ^ 16 * s.cyc.devs)

/-- The train frame engine's counters, from `TB_VALID_A` on. -/
def tfCounters (tf : Tf) : List Word :=
  [tf.validA, tf.validB, tf.accA, tf.accB, tf.noCopy, tf.badA, tf.badB, tf.shortA, tf.shortB, tf.msgTx, tf.msgRx,
   tf.msgDrop]

/-- `TB_` registers. -/
def readBackbone (s : State) (off : Nat) : Word :=
  let grid := s.cyc.tt.toNat + s.cyc.phase
  if off = 0x1000 then linkWord s
  else if off = 0x1004 then
    w32 (bitsOf [s.pwr.relayA, s.pwr.relayB, s.pwr.senseA, s.pwr.senseB] + 2 ^ 8 * bit1 s.pwr.misA + 2 ^ 9 * bit1 s.pwr.misB)
  else if off = 0x1008 then syncWord s
  else if off = 0x100C then
    w32 (s.tf.snap.cyc.toNat + 2 ^ 16 * bitsOf [s.tf.snap.lineB, s.tf.snap.valid, s.tf.snap.broken])
  else if off = 0x1010 || off = 0x1014 then half64 (ttNow s) (off = 0x1014)
  else if off = 0x1018 || off = 0x101C then half64 (BitVec.ofNat 64 (grid / 8)) (off = 0x101C)
  else if off = 0x1020 then sWord s.cyc.corr
  else if off = 0x1024 then sWord s.cyc.rate
  else if off = 0x1028 then cycWord s
  else (tfCounters s.tf).getD ((off - 0x102C) / 4) 0

/-- `HG_STATUS`. -/
def hgStatus (s : State) : Word :=
  let late := (ownRec s).elim false (fun r => recBit r 2)
  let mute := (ownRec s).elim false (fun r => r.status ≠ 0)
  let flag := fun k => s.hg.ttr.elim false (fun t => t.flags.getLsbD k)
  w32 (s.hg.st.code + 2 ^ 8 * (ownNumber s % 64) + 2 ^ 16 * (s.hg.ttr.elim 0 (fun t => t.recs.length) % 64)
    + 2 ^ 24 * bitsOf [isOrigin s, late, mute, flag 0, flag 1])

/-- `HG_` registers. -/
def readHinge (s : State) (off : Nat) : Word :=
  if off = 0x1800 then hgStatus s
  else if off = 0x1804 then s.hg.icount
  else if off = 0x1808 then s.hg.ttr.elim 0 Ttr.topoHash
  else if off = 0x180C then s.hg.ttr.elim 0 Ttr.profileFp
  else if off = 0x1810 then w32 (s.hg.lastCause.toNat * 2 ^ 24 + s.hg.ttr.elim 0 (fun t => t.rev.toNat))
  else if off < 0x1840 then half64 (s.hp ((off - 0x1820) / 8)).nbr (off % 8 = 4)
  else if off = 0x1840 then w32 ((s.hp 0).cdly.toNat * 65536 + (s.hp 1).cdly.toNat)
  else if off = 0x1844 then w32 ((s.hp 2).cdly.toNat * 65536 + (s.hp 3).cdly.toNat)
  else if off < 0x1900 then s.hg.ttr.elim 0 (fun t => wordAt (ttrHeader t) ((off - 0x1880) / 4))
  else
    let k := (off - 0x1900) / 4
    s.hg.ttr.elim 0 (fun t => (t.recs[k / 5]?).elim 0 (fun r => wordAt (ttrRecord r) (k % 5)))

/-! ### Channels (Table 11.8) -/

/-- Whole seconds of a force still to run, rounded up. -/
def forceLeft (s : State) (c : Chan) : Nat := if c.forceOver then 0 else (c.forceEnd - s.now + 999999999) / 1000000000

/-- A channel register by its word; every field reads 0 on a TN-6300-N (R2). -/
def readChannel (s : State) (n w : Nat) : Word :=
  let c := s.chan n
  if s.dev.variantN then 0
  else if w = 0 then w32 (1 + 2 * (n / 8) + 8 * (n % 8))
  else if w = 1 then c.cfg.setWidth 32
  else if w = 2 then c.cap.state
  else if w = 3 then c.cap.volt
  else if w = 4 then c.latch.value
  else if w = 5 then c.load.setWidth 32
  else if w = 6 then c.fault.setWidth 32
  else if w = 7 then c.irqEn.setWidth 32
  else if w = 8 then c.force.elim 0 (fun v => w32 (1 + 2 * v.toNat + 65536 * forceLeft s c))
  else if w = 9 then w32 (c.epLimit.toNat + 65536 * c.epThermal.toNat)
  else if w = 10 then w32 (c.losses.toNat + 65536 * c.opens.toNat)
  else 0

/-! ### Vehicle network (Table 17.8) -/

/-- The code of a branch state in `VN_BRANCH`. -/
def BrState.code : BrState → Nat
  | .down => 0 | .listen => 1 | .integrated => 2 | .disabled => 3

/-- A branch counter by its word. -/
def branchCounter (b : Branch) (w : Nat) : Word :=
  [b.cutStart, b.cutHdr, b.cutLen, b.miss, b.rxErr, b.nulls, b.errsums, b.rxOk].getD w 0

/-- `VN_` registers. -/
def readVehicle (s : State) (off : Nat) : Word :=
  if off = 0x3000 then w32 ((List.range 12).foldl (fun a b => a + (s.branch b).st.code * 4 ^ b) 0)
  else if off = 0x3004 then s.vn.awake.setWidth 32
  else if off = 0x3008 then w32 (s.vn.pub.cyc.toNat + 2 ^ 16 * bit1 s.vn.pub.valid)
  else if off = 0x300C then s.star.elim 0 (fun st => w32 (st.layout.toNat + 65536 * (st.nS % 256)))
  else if off < 0x3200 then pubWord (s.vn.pub.slots.getD ((off - 0x3100) / 4) {})
  else branchCounter (s.branch ((off - 0x3200) / 0x20)) (off % 0x20 / 4)

/-! ### Equipment ports, pool, Shutter (Table 17.9) -/

/-- `EQn_LINK`. -/
def eqLinkWord (s : State) (n : Nat) : Word :=
  let p := s.eqp n
  let phy := (s.dom (26 + n)).act
  w32 (p.link + 16 * bitsOf [p.off, phy = .on, phy = .low] + 65536 * (charged s n % 4096) + 2 ^ 28 * bit1 p.pfc)

/-- `EQn_` registers by their offset in the port's set. -/
def readPort (s : State) (n o : Nat) : Word :=
  let p := s.eqp n
  if o = 0 then eqLinkWord s n
  else if o ≤ 0x20 then
    [p.rxOk, p.rxErr, p.rxFilt, p.rxDrop, p.txOk, p.txDrop, p.pauseRx, p.pauseTx].getD (o / 4 - 1) 0
  else if o ≤ 0x28 then half64 p.rxBytes (o = 0x28)
  else if o ≤ 0x30 then half64 p.txBytes (o = 0x30)
  else if o = 0x34 then p.stamps.head?.elim 0 (fun e => w32 (2 ^ 31 + e.1.toNat))
  else if o ≤ 0x3C then p.stamps.head?.elim 0 (fun e => half64 e.2 (o = 0x3C))
  else if o = 0x44 then 0
  else wsRead s (0x3800 + 0x100 * n + o)

/-- The buffer `EQ_HOST_ARG` selects. -/
def hostBuf (s : State) : Nat := s.pool.hostArg.toNat % 4096

/-- `SH_STATUS`. -/
def shStatus (s : State) : Word :=
  w32 (s.sh.st.code + 16 * (s.sh.left % 16) + 256 * (shHeld s % 256) + 65536 * (s.sh.party % 4))

/-- Equipment, pool and Shutter registers. -/
def readEqPool (s : State) (off : Nat) : Word :=
  if off < 0x3C00 then readPort s ((off - 0x3800) / 0x100) (off % 0x100)
  else if off = 0x3C00 then w32 (s.pool.sticky.toNat + 65536 * min s.pool.free.length 0xFFF)
  else if off = 0x3C04 then s.pool.irqEn.setWidth 32
  else if off = 0x3C08 then s.pool.hostArg
  else if off = 0x3C0C then 0
  else if off = 0x3C10 then s.pool.hostRes
  else if off < 0x3D00 then (descWords (s.buf (hostBuf s))).getD ((off - 0x3C20) / 4) 0
  else if off < 0x3E00 then bufWord s (hostBuf s) (off - 0x3D00)
  else if off = 0x3E00 then shStatus s
  else if off = 0x3E04 then s.sh.toBb
  else if off = 0x3E08 then s.sh.fromBb
  else s.sh.drop

/-! ### Measurement, bench, cores, images, NV (Table 17.10, 15) -/

/-- The code of a temperature level. -/
def TLevel.code : TLevel → Nat
  | .normal => 0 | .warn => 1 | .crit => 2

/-- `MS_` registers. -/
def readMeasure (s : State) (off : Nat) : Word :=
  let m := s.ms
  if off = 0x4000 then m.bat.setWidth 32
  else if off = 0x4004 then m.iin.setWidth 32
  else if off = 0x4008 then m.hu.setWidth 32
  else if off = 0x400C then w32 (m.un + 256 * bit1 m.unBySel)
  else if off = 0x4010 then s.pwr.holdup.setWidth 32
  else if off = 0x4014 then
    w32 ((List.range 3).foldl (fun a i => a + (m.tlevel.getD i .normal).code * 4 ^ i) 0 + 256 * bitsOf m.tBad)
  else if off < 0x4030 then (m.temps.getD ((off - 0x4020) / 4) 0).signExtend 32
  else if off < 0x4040 then (m.groups.getD ((off - 0x4030) / 4) 0).setWidth 32
  else if off < 0x4050 then (m.rails.getD ((off - 0x4040) / 4) 0).setWidth 32
  else if off < 0x4068 then
    ([m.nDip, m.nIntS2, m.nIntS3, m.nIntLong, m.nSurge, m.nOver].getD ((off - 0x4050) / 4) 0).setWidth 32
  else if off < 0x4074 then (m.twarn.getD ((off - 0x4068) / 4) 0).setWidth 32
  else (m.tcrit.getD ((off - 0x4074) / 4) 0).setWidth 32

/-- `BN_` registers: result k and its detail word (R363). -/
def readBenchRegs (s : State) (off : Nat) : Word :=
  if off = 0x4200 then
    w32 (s.bn.queue.length % 32 + 256 * bit1 (s.bn.slot.elim false (fun x => s.now < x.2)) + 4096 * (s.bn.last % 16))
  else if off < 0x4280 then (s.bn.results[(off - 0x4240) / 4]?).elim 0 (fun r =>
    w32 (r.ticket % 16 + 16 * (r.status % 8) + 256 * (r.kind % 16) + 65536 * (r.obj % 256) + 2 ^ 31))
  else (s.bn.results[(off - 0x4280) / 4]?).elim 0 BenchReq.detail

/-- `CR_STATUS.PHASE`. -/
def corePhase (cr : Cores) : Nat :=
  match cr.takeover, cr.revert with
  | some t, _ => min 5 t.step
  | none, .none => 0
  | none, .holdoff => 6
  | none, _ => 7

/-- `CR_STATUS`. -/
def crStatus (s : State) : Word :=
  let cr := s.cr
  w32 (cr.active % 4 + 4 * bit1 cr.pxcEver + 16 * bitsOf [watchMode s, cr.rxcFailed] + 256 * corePhase cr
    + 65536 * (cr.repairs % 4) + 2 ^ 24 * cr.takeovers.toNat)

/-- `CR_HEALTH`. -/
def crHealth (s : State) : Word :=
  let cr := s.cr
  w32 (bitsOf [(s.dom 4).act = .on, cr.loaded, cr.rxcOk] + 256 * cr.shFails.toNat + 65536 * cr.runs.toNat)

/-- `CR_` registers. -/
def readCores (s : State) (off : Nat) : Word :=
  if off = 0x4400 then crStatus s
  else if off = 0x4404 then crHealth s
  else if off = 0x4408 then s.cr.yieldReg
  else if off = 0x440C then s.cr.taskSkip
  else if off = 0x4410 then s.cr.ordFlag
  else if off = 0x4414 then s.cr.overruns.setWidth 32
  else s.cr.orders

/-- The active slot: that of the image in service, or admitted and being loaded (R408); none otherwise. -/
def activeSlot (s : State) : Option Nat := (s.gr.img <|> s.nv.ver.admitted).map (fun x => x.1)

/-- `IM_STATUS`. -/
def imStatus (s : State) : Word :=
  w32 ((s.nv.refusal.getD 0 0).toNat + 256 * (s.nv.refusal.getD 1 0).toNat
    + 2 ^ 16 * bitsOf [(slotRecord s.nv 0).isSome, (slotRecord s.nv 1).isSome, s.nv.staged.getD 0 false,
        s.nv.staged.getD 1 false]
    + 2 ^ 20 * (activeSlot s).getD 3)

/-- What `IM_KEYS` shows of a key slot (R545). -/
def keyCode (k : KeySlot) : Nat := if k.unread || k.revoked then 2 else if keyEmpty k then 0 else 1

/-- `IM_` registers. -/
def readImages (s : State) (off : Nat) : Word :=
  if off = 0x4500 then imStatus s
  else if off ≤ 0x4508 then (slotRecord s.nv ((off - 0x4504) / 4)).elim 0 (fun r => r.1)
  else if off = 0x450C then s.image.elim 0 imgId
  else if off = 0x4510 then s.image.elim 0 (fun im => im.imgVer.setWidth 32)
  else if off = 0x4514 then s.image.elim 0 (fun im => im.profile.fp)
  else w32 ((List.range 8).foldl (fun a k => a + (s.nv.keys[k]?).elim 0 keyCode * 4 ^ k) 0)

/-- `NV_` registers (R413). -/
def readNv (s : State) (off : Nat) : Word :=
  let sec := s.nv.sel.toNat
  if off = 0x4600 then nvStatus s
  else if off = 0x4604 then s.nv.sel.setWidth 32
  else if off = 0x4608 then smGet 0 s.nv.wear sec
  else if off = 0x460C then s.pwr.opsec - smGet 0 s.nv.erasedAt sec
  else if off = 0x4610 then s.nv.corr
  else s.nv.uncorr

/-! ### Any register -/

/-- What a listed register reads on a path. -/
def regRead (s : State) (path : Path) (off : Nat) : Word :=
  if off < 0x200 then readControl s off
  else if off < 0x800 then readBank (bankOf s path) off
  else if off < 0x900 then readDrawer (s.rg.drawers.getD ((off - 0x800) / 0x80) {}) (off % 0x80)
  else if off < 0x1000 then readLog s off
  else if off < 0x1800 then readBackbone s off
  else if off < 0x2000 then readHinge s off
  else if off < 0x3000 then readChannel s ((off - 0x2000) / 0x40) (off % 0x40 / 4)
  else if off < 0x3800 then readVehicle s off
  else if off < 0x4000 then readEqPool s off
  else if off < 0x4200 then readMeasure s off
  else if off < 0x4400 then readBenchRegs s off
  else if off < 0x4500 then readCores s off
  else if off < 0x4600 then readImages s off
  else readNv s off

/-- A bank changes. -/
def bankMod (path : Path) (f : CmdBank → CmdBank) (s : State) : State :=
  { s with rg := { s.rg with banks := s.rg.banks.modify (pathBank path) f } }

/-- The RC bits of a register that a read returned as 1 clear (R454). -/
def rcClear (path : Path) (off : Nat) (bits : Word) (s : State) : State :=
  if off = 0x004 then { s with rg := { s.rg with mismatch := s.rg.mismatch && !bits.getLsbD 8 } }
  else if off = 0x21C then bankMod path (fun b => { b with event := b.event &&& ~~~(bits.setWidth 2) }) s
  else if off = 0x90C then { s with lg := { s.lg with evHit := s.lg.evHit &&& ~~~(bits.setWidth 16) } }
  else if off = 0x1004 then
    { s with pwr := { s.pwr with misA := s.pwr.misA && !bits.getLsbD 8, misB := s.pwr.misB && !bits.getLsbD 9 } }
  else if off = 0x3C00 then { s with pool := { s.pool with sticky := s.pool.sticky &&& ~~~(bits.setWidth 5) } }
  else if 0x2000 ≤ off && off < 0x2800 then
    chanMod ((off - 0x2000) / 0x40) (fun c => { c with fault := c.fault &&& ~~~(bits.setWidth 5) }) s
  else s

/-- The status a read of a register ends with before its data (Table 16.3): 4 `PATH`, 5 `OWNER`, 8 `DATA`. -/
def readStatus (s : State) (path : Path) (off : Nat) : Nat :=
  if hostPoolReg off && path ≠ .host then 4
  else if hostWindow off && !bufOk s 0x38 (hostBuf s) 0 then 5
  else if 0x3D00 ≤ off && off < 0x3E00 && unitErr s (16 * hostBuf s + (off - 0x3D00) / 16) = some true then 8
  else if 0x800 ≤ off && off < 0x900 && 0x40 ≤ off % 0x80
      && (s.rg.drawers.getD ((off - 0x800) / 0x80) {}).status.getLsbD 6 then 8
  else 0

/-- What a read of the pool RAM reports and corrects (R273). -/
def readReport (status off : Nat) (s : State) : State :=
  if 0x3D00 ≤ off && off < 0x3E00 then
    if status = 8 then poolUncorr s
    else if status = 0 then unitsRead [16 * hostBuf s + (off - 0x3D00) / 16] s
    else s
  else s

/-- One read of an address (R448, R454-R456): status, data, and what the read itself changes. -/
def accessRead (path : Path) (addr : Nat) (s : State) : Nat × Word × State :=
  if addr % 4 ≠ 0 then (3, 0, s)
  else
    let reg := fun (off : Nat) (mask : Word) (shown : Word → Word) =>
      let st := readStatus s path off
      if st ≠ 0 then (st, (0 : Word), readReport st off s)
      else
        let v := regRead s path off
        (0, shown v, rcClear path off (v &&& rcBits off &&& mask) (readReport 0 off s))
    match reachOf addr with
    | .snap w => (0, wordAt s.tf.snap.payload w, s)
    | .whole off => reg off 0xFFFFFFFF id
    | .bit off k => reg off (1 <<< k) (fun v => (v >>> k) &&& 1)
    | .half off high =>
      let sh := if high then 16 else 0
      reg off (0xFFFF <<< sh) (fun v => (v >>> sh) &&& 0xFFFF)

end Sys2Proof.Machine
end

