-- ==== Sys2Proof/Machine/Commands.lean ====
section
/-! DEFINITION. Host commands (16, 17): submission, checks, acceptance into journal and execution queue, and the effect
of each command where it executes; the warm reset of `NODE_RESET` (03). -/

namespace Sys2Proof.Machine

/-! ### Table 17.12 -/

/-- A code of Table 17.12. -/
def cmdKnown (code : Byte) : Bool := (1 ≤ code.toNat && code.toNat ≤ 0x0B) || (0x10 ≤ code.toNat && code.toNat ≤ 0x16)

/-- Class P: the command is mirrored into JNV. -/
def cmdPersist (code : Byte) : Bool :=
  code = 0x02 || code = 0x06 || code = 0x07 || (0x09 ≤ code.toNat && code.toNat ≤ 0x16)

/-- The node states a command is accepted in (Tables 17.12 and 14.14). -/
def cmdState_ok (code : Byte) (n : NodeState) : Bool :=
  match n with
  | .run | .nocore => true
  | .bringup => !(code = 0x05 || code = 0x06 || code = 0x07 || code = 0x09)
  | .limp => code = 0x02 || code = 0x0A || code = 0x0B || (0x10 ≤ code.toNat && code.toNat ≤ 0x12) || code = 0x14
  | _ => false

/-- The first of the arguments from `k` on that is not 0. -/
def argsZero (args : List Word) (k : Nat) : Option Nat :=
  (List.range 4).find? (fun i => k ≤ i && args.getD i 0 ≠ 0)

/-- A value a force may give a channel of a mode (Table 11.7). -/
def forceValue (mode v : Nat) : Bool := if mode = 5 then v ≤ 1 else v = 0 || v = 1 || v = 3

/-- Arguments of `CH_FORCE` (R343, Table 11.7): the number of the first that is out of range. -/
def forceArgs (s : State) (a0 a1 a2 a3 : Nat) : Option Nat :=
  let ch := a0 % 256
  let act := a0 / 256
  let mode := chMode s ch
  if 31 < ch || 1 < act || mode = 0 || mode = 4 then some 0
  else if 3 < a1 || (act = 1 && !forceValue mode a1) then some 1
  else if 4095 < a2 || (act = 1 && !(1 ≤ a2 && a2 ≤ 3600)) then some 2
  else if a3 ≠ 0 then some 3
  else none

/-- Objects of `ORDER_RELEASE` by action code (Tables 17.12 and 4.7, R112). -/
def releaseOk (act obj : Nat) : Bool :=
  if act = 0x01 then obj ≤ 11
  else if act = 0x03 then holdable obj
  else if act = 0x05 then obj ≤ 31
  else if act = 0x07 || act = 0x09 then obj ≤ 3
  else false

/-- The number of the first argument out of range or with reserved bits set (R490, Tables 17.12 and 14.14). -/
def cmdArg (s : State) (code : Byte) (args : List Word) : Option Nat :=
  let a := fun i => (args.getD i 0).toNat
  if code = 0x0A then none
  else if code = 0x05 then if 2 < a 0 then some 0 else argsZero args 1
  else if code = 0x06 then forceArgs s (a 0) (a 1) (a 2) (a 3)
  else if code = 0x07 then
    if 0xFFFF < a 0 || !releaseOk (a 0 / 256) (a 0 % 256) then some 0 else argsZero args 1
  else if code = 0x08 then if 15 < a 0 then some 0 else if 255 < a 1 then some 1 else argsZero args 2
  else if code = 0x0B then
    if a 0 ≠ 1 && a 0 ≠ 2 then some 0
    else if a 1 ≠ 1 && a 1 ≠ 2 then some 1
    else if a 1 = 1 && a 2 ≠ 0 then some 2
    else argsZero args 3
  else if code = 0x10 then if 1 < a 0 then some 0 else argsZero args 1
  else if code = 0x11 then
    if a 0 % 16 ≠ 0 then some 0 else if a 1 < 1 || 16 < a 1 then some 1 else argsZero args 2
  else if code = 0x12 then if a 0 % 4096 ≠ 0 then some 0 else argsZero args 1
  else if code = 0x13 then if 1 < a 0 then some 0 else argsZero args 2
  else if code = 0x14 then
    if 2047 < a 0 then some 0 else if a 1 < 1 || 2048 < a 1 then some 1 else argsZero args 3
  else if code = 0x15 then argsZero args 2
  else if code = 0x16 then argsZero args 1
  else argsZero args 0

/-! ### Refusals of their own chapters -/

/-- Sectors 1-511 of a staged slot hold the `n` bytes from an address (R415, R416). -/
def zoneOk (s : State) (addr n : Nat) : Bool :=
  let slot := addr / 0x200000
  slot ≤ 1 && s.nv.staged.getD slot false && 4096 ≤ addr % 0x200000 && addr % 0x200000 + n ≤ 0x200000

/-- Key slots that hold a key and are not revoked. -/
def liveKeys (nv : Nv) : Nat := (nv.keys.filter (fun k => !keyEmpty k && !k.revoked)).length

/-- The refusal of a key command (R405): code and detail. -/
def keyRefusal (s : State) (code : Byte) (a0 a1 : Nat) : Option (Nat × Nat) :=
  let k := s.nv.keys[a0]?
  if code = 0x15 then
    if !(k.elim false (fun k => keyEmpty k && !k.revoked)) then some (0x20, a0)
    else if !keyUsable s.nv a1 then some (0x20, a1)
    else none
  else
    if !(k.elim false (fun k => !keyEmpty k && !k.revoked)) then some (0x20, a0)
    else if liveKeys s.nv ≤ 1 then some (0x22, a0)
    else none

/-- The arming of the log a command names. -/
def logArm (lg : Logs) (log : Nat) : Option Arm := if log = 1 then lg.oplArm else lg.incArm

/-- The refusal a command's own chapter gives it at acceptance: code and detail (Table 17.13). -/
def ownRefusal (s : State) (path : Path) (code : Byte) (args : List Word) : Option (Nat × Nat) :=
  let a := fun i => (args.getD i 0).toNat
  let busy := nvBusy (code ≠ 0x11) s
  if code = 0x08 then (benchJudge s false (a 0) (a 1)).map (fun r => (0x2A, r))
  else if code = 0x0B then
    if a 1 = 1 then none
    else if a 2 ≠ 0xC1EA || !((logArm s.lg (a 0)).elim false (fun x => x.path = path)) then some (0x29, 0)
    else if a 0 = 2 && busy then some (0x10, 0)
    else none
  else if code = 0x09 then
    if s.nv.chkPending then some (0x1A, 0)
    else if busy then some (0x10, 0)
    else if chkAsk s = 2 then some (0x1B, 0)
    else none
  else if !isNvCode code then none
  else if busy then some (0x10, 0)
  else if code = 0x10 then if activeSlot s = some (a 0) then some (0x14, 0) else none
  else if code = 0x11 then if zoneOk s (a 0) (16 * a 1) then none else some (0x11, 0)
  else if code = 0x12 then if zoneOk s (a 0) 4096 then none else some (0x11, 0)
  else if code = 0x13 then if s.nv.staged.getD (a 0) false then none else some (0x11, 0)
  else if code = 0x14 then if a 0 + a 1 ≤ 2048 then none else some (0x11, 0)
  else keyRefusal s code (a 0) (a 1)

/-- Why a command is refused (R469, R490-R492): result code and detail; none when it is accepted. -/
def cmdRefusal (s : State) (path : Path) (code : Byte) (args : List Word) : Option (Nat × Nat) :=
  if !cmdKnown code then some (0x02, 0)
  else match cmdArg s code args with
    | some i => some (0x03, i)
    | none =>
      if !cmdState_ok code s.pwr.node then some (0x04, s.pwr.node.code)
      else if 64 ≤ s.lg.execQ.length then some (0x05, 0)
      else ownRefusal s path code args

/-! ### Submission and acceptance (R469, R470, R496-R498) -/

/-- Event 0x9001 and the bank's `REFUSED` bit. -/
def refuseEvent (path : Path) (code : Byte) (reason : Nat) (s : State) : State :=
  raise 0x9001 (pathCode path) [w32 (pathCode path), code.setWidth 32, w32 reason]
    (bankMod path (fun b => { b with event := b.event ||| 2 }) s)

/-- A refused command (R469): not journalled. A refused bench request records its own event too (R364). -/
def cmdRefuse (path : Path) (code : Byte) (args : List Word) (r : Nat × Nat) (s : State) : State :=
  let s := if r.1 = 0x2A then raise 0x7022 (args.getD 0 0).toNat [w32 r.2] s else s
  refuseEvent path code r.1 (bankMod path (fun b => { b with
    state := 5, result := BitVec.ofNat 8 r.1, detail := BitVec.ofNat 16 r.2, waiting := none }) s)

/-- The bytes of a bank's NV buffer, byte 4k the most significant of word k (R5). -/
def nvBufBytes (b : CmdBank) : Bytes := b.nvBuf.flatMap (fun w => beBytes 4 w.toNat)

/-- An accepted command (R469, R470, R496-R498): the next journal number, the RAM entry, a place in the execution queue;
`NV_PROGRAM` copies its units now and queues behind its like (R415). -/
def cmdEnter (path : Path) (code : Byte) (args : List Word) (s : State) : State :=
  let e : JEntry := ⟨s.lg.jseq, code, path, cmdPersist code, false, 2, 0, 0, s.cyc.cyc, s.pwr.opsec, args⟩
  let data := if code = 0x11 then (nvBufBytes (bankOf s path)).take (16 * (args.getD 1 0).toNat) else []
  let a := fun i => args.getD i 0
  let ring := s.lg.ring ++ [e]
  let s := { s with
    lg := { s.lg with
      ring := ring.drop (ring.length - 2048), jseq := s.lg.jseq + 1, execQ := s.lg.execQ ++ [⟨e, data, false, false⟩]
      lastAccept := some s.now }
    nv := { s.nv with
      jobQ := if code = 0x11 then s.nv.jobQ ++ [⟨code, e.jseq, path, a 0, a 1, a 2, data, 0, 0, 0, 0⟩] else s.nv.jobQ } }
  bankMod path (fun b => { b with state := 2, result := 0, detail := 0, jseq := e.jseq, waiting := none }) s

/-- The 100 µs spacing since the last acceptance has passed (R469). -/
def spacingOver (s : State) : Bool := s.lg.lastAccept.elim true (fun t => t + 100000 ≤ s.now)

/-- The command a bank holds in `CHECKING` is accepted or refused. -/
def cmdJudge (path : Path) (s : State) : State :=
  match (bankOf s path).waiting with
  | none => s
  | some (code, args) =>
    match cmdRefusal s path code args with
    | some r => cmdRefuse path code args r s
    | none => cmdEnter path code args s

/-- A write to `CMD_CODE` (R469): while the bank is in `CHECKING` it is refused with the busy result. -/
def cmdSubmit (path : Path) (code : Byte) (s : State) : State :=
  let b := bankOf s path
  if b.state = 1 then
    refuseEvent path code 0x01 (bankMod path (fun b => { b with code := code, result := 0x01 }) s)
  else
    let s := bankMod path (fun b => { b with
      code := code, state := 1, result := 0, detail := 0, waiting := some (code, b.args) }) s
    if spacingOver s then cmdJudge path s else s

/-- A path works: the host port in the states that power it (R452), a session's path while the session is open (R468). -/
def pathOpen (s : State) (path : Path) : Bool :=
  s.awake && match path with
    | .host => true
    | _ => (s.session path).elim false (fun x => !x.opening)

/-- A command with its arguments, given on a path. -/
def cmdGive (code : Byte) (path : Path) (args : List Word) (s : State) : State :=
  if pathOpen s path then cmdSubmit path code (bankMod path (fun b => { b with args := args }) s) else s

/-- COMMAND_ACCEPT (R469). -/
def commandAccept (path : Path) (s : State) : State :=
  if s.awake && (bankOf s path).state = 1 && spacingOver s then cmdJudge path s else s

def execCommandAccept (t : Nat) (path : Path) : State → Host.Outcome State Fault Refusal := act t (commandAccept path)

/-! ### The rows of Table 17.12 -/

def execInaug (t : Nat) (p : Path) (a0 a1 a2 a3 : Word) : State → Host.Outcome State Fault Refusal :=
  act t (cmdGive 0x01 p [a0, a1, a2, a3])

def execNodeReset (t : Nat) (p : Path) (a0 a1 a2 a3 : Word) : State → Host.Outcome State Fault Refusal :=
  act t (cmdGive 0x02 p [a0, a1, a2, a3])

def execSleepReq (t : Nat) (p : Path) (a0 a1 a2 a3 : Word) : State → Host.Outcome State Fault Refusal :=
  act t (cmdGive 0x03 p [a0, a1, a2, a3])

def execWakeReq (t : Nat) (p : Path) (a0 a1 a2 a3 : Word) : State → Host.Outcome State Fault Refusal :=
  act t (cmdGive 0x04 p [a0, a1, a2, a3])

def execShutterSet (t : Nat) (p : Path) (a0 a1 a2 a3 : Word) : State → Host.Outcome State Fault Refusal :=
  act t (cmdGive 0x05 p [a0, a1, a2, a3])

/-- `CMD_ARG0` [15:8] = 0x01, force. -/
def execChForce (t : Nat) (p : Path) (ch : Byte) (a1 a2 a3 : Word) : State → Host.Outcome State Fault Refusal :=
  act t (cmdGive 0x06 p [ch.setWidth 32 + 0x100, a1, a2, a3])

/-- `CMD_ARG0` [15:8] = 0x00, release. -/
def execChForceRelease (t : Nat) (p : Path) (ch : Byte) (a1 a2 a3 : Word) : State → Host.Outcome State Fault Refusal :=
  act t (cmdGive 0x06 p [ch.setWidth 32, a1, a2, a3])

def execOrderRelease (t : Nat) (p : Path) (a0 a1 a2 a3 : Word) : State → Host.Outcome State Fault Refusal :=
  act t (cmdGive 0x07 p [a0, a1, a2, a3])

def execBenchRun (t : Nat) (p : Path) (a0 a1 a2 a3 : Word) : State → Host.Outcome State Fault Refusal :=
  act t (cmdGive 0x08 p [a0, a1, a2, a3])

def execChkpSave (t : Nat) (p : Path) (a0 a1 a2 a3 : Word) : State → Host.Outcome State Fault Refusal :=
  act t (cmdGive 0x09 p [a0, a1, a2, a3])

def execJrnMark (t : Nat) (p : Path) (a0 a1 a2 a3 : Word) : State → Host.Outcome State Fault Refusal :=
  act t (cmdGive 0x0A p [a0, a1, a2, a3])

/-- `LOG_CLEAR` step 1. -/
def execLogClearArm (t : Nat) (p : Path) (a0 a2 a3 : Word) : State → Host.Outcome State Fault Refusal :=
  act t (cmdGive 0x0B p [a0, 1, a2, a3])

/-- `LOG_CLEAR` step 2 of the OPL. -/
def execLogClearOpl (t : Nat) (p : Path) (a2 a3 : Word) : State → Host.Outcome State Fault Refusal :=
  act t (cmdGive 0x0B p [1, 2, a2, a3])

/-- `LOG_CLEAR` step 2 of the INC. -/
def execLogClearInc (t : Nat) (p : Path) (a2 a3 : Word) : State → Host.Outcome State Fault Refusal :=
  act t (cmdGive 0x0B p [2, 2, a2, a3])

def execImgStage (t : Nat) (p : Path) (a0 a1 a2 a3 : Word) : State → Host.Outcome State Fault Refusal :=
  act t (cmdGive 0x10 p [a0, a1, a2, a3])

def execNvProgram (t : Nat) (p : Path) (a0 a1 a2 a3 : Word) : State → Host.Outcome State Fault Refusal :=
  act t (cmdGive 0x11 p [a0, a1, a2, a3])

def execNvErase (t : Nat) (p : Path) (a0 a1 a2 a3 : Word) : State → Host.Outcome State Fault Refusal :=
  act t (cmdGive 0x12 p [a0, a1, a2, a3])

def execImgCommit (t : Nat) (p : Path) (a0 a1 a2 a3 : Word) : State → Host.Outcome State Fault Refusal :=
  act t (cmdGive 0x13 p [a0, a1, a2, a3])

def execNvRefresh (t : Nat) (p : Path) (a0 a1 a2 a3 : Word) : State → Host.Outcome State Fault Refusal :=
  act t (cmdGive 0x14 p [a0, a1, a2, a3])

def execKeyAdd (t : Nat) (p : Path) (a0 a1 a2 a3 : Word) : State → Host.Outcome State Fault Refusal :=
  act t (cmdGive 0x15 p [a0, a1, a2, a3])

def execKeyRevoke (t : Nat) (p : Path) (a0 a1 a2 a3 : Word) : State → Host.Outcome State Fault Refusal :=
  act t (cmdGive 0x16 p [a0, a1, a2, a3])

/-- The instant at which the log armed first is to be disarmed, in ns of the cycle in progress; none armed, now. -/
def disarmAt (s : State) : Nat :=
  match s.lg.oplArm, s.lg.incArm with
  | some x, some y => min x.at_ y.at_ + 10000000000 - s.cyc.base
  | some x, none => x.at_ + 10000000000 - s.cyc.base
  | none, some y => y.at_ + 10000000000 - s.cyc.base
  | none, none => s.cyc.phase

/-- LOG_CLEAR_DISARM (R517): each log whose 10 s are over is disarmed. -/
def logClearDisarm (s : State) : State :=
  let s := { s with cyc := { s.cyc with phase := max s.cyc.phase (disarmAt s) } }
  let live := fun (x : Arm) => decide (s.now < x.at_ + 10000000000)
  { s with lg := { s.lg with oplArm := s.lg.oplArm.filter live, incArm := s.lg.incArm.filter live } }

def execLogClearDisarm : State → Host.Outcome State Fault Refusal := act 0 logClearDisarm

/-! ### What a command does where it executes -/

/-- A force ends, with event 0x6011 and its reason: 1 timeout, 2 release, 3 `QUIESCE`, 4 reset, 5 replaced (R344, log 21);
the output follows Table 11.6 again. -/
def forceEnd (n reason : Nat) (s : State) : State :=
  if (s.chan n).force.isSome then
    raise 0x6011 n [Config.eventItem 0x6011 reason]
      (restage n (chanMod n (fun c => { c with force := none, forceOver := false }) s))
  else s

/-- Every force ends. -/
def forcesEnd (reason : Nat) (s : State) : State := (List.range 32).foldl (fun s n => forceEnd n reason s) s

/-- A force starts (R343, R344); on a forced channel it replaces the old one. -/
def forceStart (n v seconds : Nat) (s : State) : State :=
  let s := forceEnd n 5 s
  let s := chanMod n (fun c => { c with
    force := some (BitVec.ofNat 2 v), forceEnd := s.now + seconds * 1000000000, forceOver := false }) s
  raise 0x6010 n [w32 n, w32 v, w32 seconds] (restage n s)

/-- The `OUTPUT_LOCK` of a channel ends (R111). -/
def lockFree (n : Nat) (s : State) : State := restage n (chanMod n (fun c => { c with lock := none }) s)

/-- A domain's `DOMAIN_HOLD` is set or released (R63, R111). -/
def domHold (d : Nat) (v : Bool) (s : State) : State :=
  { s with pwr := { s.pwr with doms := s.pwr.doms.modify d (fun x => { x with hold := v }) } }

/-- `ORDER_RELEASE` (R111, Table 17.12). -/
def orderRelease (act obj : Nat) (s : State) : State :=
  if act = 0x01 then branchOn obj s
  else if act = 0x03 then domHold obj false s
  else if act = 0x05 then lockFree obj s
  else if act = 0x07 then (groupChannels obj).foldl (fun s n => if chMode s n = 5 then lockFree n s else s) s
  else eqOn obj s

/-- A drawer on a log that was cleared stands at `END` with an empty source (R521). -/
def drawersCleared (sel : Nat) (s : State) : State :=
  { s with rg := { s.rg with drawers := s.rg.drawers.map (fun d =>
      if d.sel.toNat % 256 = sel then
        { d with cursor := 0, pos := 0, win := List.replicate 16 0, status := w32 (1 + 256 * sel) } else d) } }

/-- Step 2 for the OPL (R518): the OPL is empty, `OSEQ` goes on, and event 0x9041 is its first record. -/
def oplClear (path : Path) (s : State) : State :=
  let s := drawersCleared 1 { s with lg := { s.lg with opl := [], oplUsed := 0, oplFull := false } }
  raise 0x9041 noInst [1, w32 (pathCode path)] s

/-- `LOG_CLEAR` step 1 (R517). -/
def logArmSet (log : Nat) (path : Path) (s : State) : State :=
  let x : Option Arm := some ⟨path, s.now⟩
  if log = 1 then { s with lg := { s.lg with oplArm := x } } else { s with lg := { s.lg with incArm := x } }

/-- A command that ends at once (R469). -/
def cmdDone (c : QCmd) (result detail : Nat) (s : State) : State :=
  cmdState c.ent.jseq 4 (BitVec.ofNat 8 result) (BitVec.ofNat 16 detail) s

/-- A checkpoint save by the host starts (R420); what stood in its way since its acceptance ends it. -/
def chkpSaveStart (c : QCmd) (s : State) : State :=
  let k := chkAsk s
  if k ≠ 0 then cmdDone c (if k = 1 then 0x1A else 0x1B) 0 s
  else jobBegin c { s with nv := { s.nv with chkPending := true } }

/-- A host NV command starts, unless another still runs; `KEY_ADD` takes its key and signature now (R405, R415). -/
def nvStart (c : QCmd) (s : State) : State :=
  if s.nv.job.isSome then cmdDone c 0x10 0 s
  else if c.ent.code = 0x09 then chkpSaveStart c s
  else if c.ent.code = 0x15 then jobBegin { c with data := (nvBufBytes (bankOf s c.ent.path)).take 96 } s
  else jobBegin c s

/-- Step 2 of `LOG_CLEAR`: the log's arming ends (R517); the OPL clears at once, the INC as a host NV command (R518). -/
def logClear (c : QCmd) (log : Nat) (s : State) : State :=
  if log = 1 then cmdDone c 0 0 (oplClear c.ent.path { s with lg := { s.lg with oplArm := none } })
  else nvStart c (drawersCleared 2 { s with lg := { s.lg with incArm := none } })

/-- A bench request of the host (R361): `DETAIL` carries the ticket, or the reason of a refusal. -/
def benchStart (c : QCmd) (kind obj : Nat) (s : State) : State :=
  let r := benchAsk false false kind obj s
  if r.2.msb then cmdDone c 0x2A (r.2.toNat % 65536) r.1 else cmdDone c 0 r.2.toNat r.1

/-- A command takes effect (R470). `NODE_RESET` marks the cycle start; the warm reset follows its `DONE` (R79). -/
def cmdRun (c : QCmd) (s : State) : State :=
  let a := fun i => (c.ent.args.getD i 0).toNat
  let code := c.ent.code
  if code = 0x01 then cmdDone c 0 0 (startOwn 0x04 s)
  else if code = 0x02 then cmdDone c 0 0 { s with pwr := { s.pwr with resetNow := true } }
  else if code = 0x03 then cmdDone c 0 0 { s with tf := { s.tf with hostHold := false } }
  else if code = 0x04 then cmdDone c 0 0 { s with tf := { s.tf with hostHold := true } }
  else if code = 0x05 then cmdDone c 0 0 (shCommand (a 0) 1 s)
  else if code = 0x06 then
    cmdDone c 0 0 (if a 0 / 256 = 1 then forceStart (a 0 % 256) (a 1) (a 2) s else forceEnd (a 0 % 256) 2 s)
  else if code = 0x07 then cmdDone c 0 0 (orderRelease (a 0 / 256) (a 0 % 256) s)
  else if code = 0x08 then benchStart c (a 0) (a 1) s
  else if code = 0x0A then cmdDone c 0 0 s
  else if code = 0x0B then
    if a 1 = 1 then cmdDone c 0 0 (logArmSet (a 0) c.ent.path s) else logClear c (a 0) s
  else nvStart c s

/-- The commands due at a cycle start, or in `LIMP`, in journal order (R470); `NV_PROGRAM` starts by R415 instead, and
nothing follows a `NODE_RESET`. -/
def cmdsRun (s : State) : State :=
  (s.lg.execQ.filter (fun c => c.ent.state = 2 && c.ent.code ≠ 0x11)).foldl
    (fun s c => if s.pwr.resetNow then s else cmdRun c s) s

/-- The warm reset (R79, R344, R498, R517, Table 16.5): NV work is cut, commands not `DONE` are abandoned, forces end,
sessions close, everything outside `PD000`, `PD118` and `PD119` takes its reset value and goes `OFF` for 10 ms. -/
def warmReset (s : State) : State :=
  let s := abandonCommands .waking (nvCut s)
  let s := sessionClose .e0 0x0A (sessionClose .backbone 0x0A (forcesEnd 4 s))
  let s := warm (transition .waking 13 s)
  stateLevels [0, 118, 119] [] { s with pwr := { s.pwr with node := .waking, warmOff := true } }

/-- A `NODE_RESET` that executed now resets the node. -/
def resetDue (s : State) : State := if s.pwr.resetNow then warmReset s else s

end Sys2Proof.Machine
end

