-- ==== Sys2Proof/Machine/Drawers.lean ====
section
/-! DEFINITION. The drawers `DR0` and `DR1` (18): positions, windows and status of their four sources. -/

namespace Sys2Proof.Machine

/-! ### Positions of the sources (Table 18.4) -/

/-- Offset of the OPL record at an index. -/
def oplOffset (l : List OplRec) (i : Nat) : Nat := ((l.take i).map oplLen).sum

/-- The index of the first OPL record starting at or after an offset; the length when there is none. -/
def oplIndex (l : List OplRec) (off : Nat) : Nat :=
  ((List.range l.length).find? (fun i => decide (off ≤ oplOffset l i))).getD l.length

/-- The bytes of an OPL record (Table 18.2). -/
def oplBytes (r : OplRec) : Bytes :=
  let head : Bytes := [0xA5, BitVec.ofNat 8 (oplLen r)] ++ beBytes 2 r.code.toNat ++ beBytes 4 r.oseq.toNat
  if r.short then head else head ++ beBytes 2 r.repeat_.toNat ++ [r.inst, 0] ++ dataBytes r.data

/-- The bytes of a RAM journal entry (Table 18.1). -/
def ringBytes (e : JEntry) : Bytes :=
  let flags := pathCode e.path + (if e.persist then 4 else 0) + (if e.mirrored then 16 else 0)
  beBytes 4 e.jseq.toNat ++ [e.code, BitVec.ofNat 8 flags, BitVec.ofNat 8 e.state, e.result] ++ beBytes 2 e.detail.toNat
    ++ beBytes 2 e.cyc.toNat ++ beBytes 4 e.opsec.toNat ++ e.args.flatMap (fun w => beBytes 4 w.toNat)

/-- The length in bytes of the span an INC walk steps over at an offset (R516). -/
def incSpan (nv : Nv) (off : Nat) : Nat :=
  let a := 0x500000 + off
  let len := (nvByte nv (a + 1)).toNat
  if nvByte nv a = 0x5A && 1 ≤ len && len ≤ 16 then 16 * len else 16

/-- The starts of the spans below a bound, in order (R516). -/
def incStarts (nv : Nv) : Nat → Nat → Nat → List Nat
  | 0, _, _ => []
  | fuel + 1, bound, off => if bound ≤ off then [] else off :: incStarts nv fuel bound (off + incSpan nv off)

/-- The INC record at a span start is valid (R511). -/
def incValid (nv : Nv) (off : Nat) : Bool :=
  let a := 0x500000 + off
  let len := (nvByte nv (a + 1)).toNat
  let b := nvBytes nv a (16 * len)
  nvByte nv a = 0x5A && 1 ≤ len && len ≤ 16 && field b 14 2 = (crc16 (b.take 14 ++ b.drop 16)).toNat

/-- The start of the span that holds an offset. -/
def incHolder (nv : Nv) (bound off : Nat) : Nat :=
  ((incStarts nv 65536 bound 0).filter (fun x => x ≤ off)).getLast?.getD 0

/-- The JNV ring positions that are not all ones, from the one after the write point on: oldest first. -/
def jnvRing (nv : Nv) : List Nat :=
  let w := nv.jnvPos / 32
  let used := jnvUsed nv
  used.filter (fun p => w ≤ p) ++ used.filter (fun p => p < w)

/-- The `JSEQ` field at a ring position. -/
def jnvSeq (nv : Nv) (p : Nat) : Word := w32 (field (nvBytes nv (jnvBase + 32 * p) 4) 0 4)

/-! ### Windows -/

/-- What a load shows: cursor, position, window bytes, and the status bits `DATA`, `SKIPPED`, `BAD`, `VALID`, `START`,
`END`. -/
structure View where
  cursor : Word
  pos    : Nat
  bytes  : Bytes
  data   : Bool
  skipped : Bool
  bad    : Bool
  valid  : Bool
  start  : Bool
  end_   : Bool
deriving DecidableEq, Repr

/-- Past the newest item: an empty window. -/
def viewEnd (cursor : Word) (pos : Nat) (start : Bool) : View := ⟨cursor, pos, [], false, false, false, false, start, true⟩

/-- The OPL at an offset (R520). -/
def viewOpl (s : State) (off : Nat) : View :=
  let l := s.lg.opl
  let i := oplIndex l off
  let at_ := oplOffset l i
  match l[i]? with
  | some r => ⟨w32 at_, at_, oplBytes r, false, false, false, true, i = 0, false⟩
  | none => viewEnd (w32 at_) at_ (i = 0)

/-- The INC at the unit of an offset (R520): 64 bytes from the cursor; valid or bad by the record the unit lies in. -/
def viewInc (s : State) (off : Nat) : View :=
  let off := off / 16 * 16
  let bound := s.lg.incPos
  if bound ≤ off then viewEnd (w32 off) off (off = 0)
  else
    let r := incHolder s.nv bound off
    let ok := incValid s.nv r
    let n := min 64 (incSize - off)
    let bad := nvBad s.nv (0x500000 + off) n
    ⟨w32 off, off, nvBytes s.nv (0x500000 + off) n, bad, false, !ok, ok, r = 0, false⟩

/-- The journal RAM at a number (R520, R521): a number overwritten moves to the oldest entry, one not held to the next. -/
def viewRam (s : State) (n : Word) : View :=
  let l := s.lg.ring
  match l.head? with
  | none => viewEnd n 0 true
  | some old =>
    let i := ((List.range l.length).find? (fun i => l[i]?.elim false (fun e => e.jseq = n || follows e.jseq n))).getD l.length
    match l[i]? with
    | some e => ⟨e.jseq, i, ringBytes e, false, follows old.jseq n, false, true, i = 0, false⟩
    | none => viewEnd n i false

/-- The journal in the NV store at a place of the ring, oldest first (R520): an entry whose `JCRC` fails shows `BAD`. -/
def viewJnvAt (s : State) (i : Nat) : View :=
  match (jnvRing s.nv)[i]? with
  | some p =>
    let ok := (jnvEntry s.nv p).isSome
    let bad := nvBad s.nv (jnvBase + 32 * p) 32
    ⟨jnvSeq s.nv p, p, nvBytes s.nv (jnvBase + 32 * p) 32, bad, false, !ok, ok, i = 0, false⟩
  | none => viewEnd s.lg.jseq (s.nv.jnvPos / 32) (i = 0)

/-- The place of the first valid entry that equals or follows a number. -/
def jnvFind (s : State) (n : Word) : Nat :=
  let l := jnvRing s.nv
  ((List.range l.length).find? (fun i => (l[i]?.bind (jnvEntry s.nv)).elim false
    (fun b => let x := w32 (field b 0 4); x = n || follows x n))).getD l.length

/-- The place in the ring of the position a drawer stands at; the end when it stands past the newest. -/
def jnvPlace (s : State) (p : Nat) : Nat :=
  let l := jnvRing s.nv
  ((List.range l.length).find? (fun i => l[i]? = some p)).getD l.length

/-- The source of a selector at its oldest item. -/
def viewOldest (s : State) (sel : Nat) : View :=
  if sel = 1 then viewOpl s 0
  else if sel = 2 then viewInc s 0
  else if sel = 3 then (match s.lg.ring.head? with | some e => viewRam s e.jseq | none => viewEnd s.lg.jseq 0 true)
  else if sel = 4 then viewJnvAt s 0
  else viewEnd 0 0 false

/-- The source at a written cursor; a number older than the oldest entry held has left the ring. -/
def viewCursor (s : State) (sel : Nat) (v : Word) : View :=
  if sel = 1 then viewOpl s v.toNat
  else if sel = 2 then viewInc s v.toNat
  else if sel = 3 then viewRam s v
  else if sel = 4 then
    let left := ((jnvRing s.nv).findSome? (jnvEntry s.nv)).elim false (fun b => follows (w32 (field b 0 4)) v)
    { viewJnvAt s (jnvFind s v) with skipped := left }
  else viewEnd 0 0 false

/-! ### Registers -/

/-- A drawer. -/
def drawerOf (s : State) (n : Nat) : Drawer := s.rg.drawers.getD n {}

/-- A change of a drawer. -/
def drawerMod (n : Nat) (f : Drawer → Drawer) (s : State) : State :=
  { s with rg := { s.rg with drawers := s.rg.drawers.modify n f } }

/-- The selector of a drawer. -/
def Drawer.source (d : Drawer) : Nat := d.sel.toNat % 256

/-- `SRC`: the selector in force, 0 for one that names no source. -/
def Drawer.src (d : Drawer) : Nat := if d.source ≤ 4 then d.source else 0

/-- `DRn_STATUS` of a view that has loaded. -/
def viewStatus (src : Nat) (v : View) : Word :=
  w32 (bitsOf [v.end_, v.start, v.valid, v.bad, v.skipped, false, v.data] + 256 * src)

/-- A drawer goes to a view: cursor and position at once, `BUSY` until the window has loaded (R520). -/
def drawerGo (n : Nat) (v : View) (s : State) : State :=
  drawerMod n (fun d => { d with
    cursor := v.cursor, pos := v.pos, status := viewStatus d.src v ||| 0x20 }) s

/-- Writing `DRn_SEL` (R519). -/
def drawerSel (n : Nat) (v : Word) (s : State) : State :=
  let s := drawerMod n (fun d => { d with sel := v &&& 0xFF }) s
  drawerGo n (viewOldest s (drawerOf s n).source) s

/-- Writing `DRn_CURSOR` (R520). -/
def drawerCur (n : Nat) (v : Word) (s : State) : State := drawerGo n (viewCursor s (drawerOf s n).source v) s

/-- Where `NEXT` leads: past `END` nothing (R521). -/
def viewNext (s : State) (d : Drawer) : View :=
  if d.source = 1 then viewOpl s (d.pos + 1)
  else if d.source = 2 then
    let r := incHolder s.nv s.lg.incPos d.pos
    viewInc s (r + incSpan s.nv r)
  else if d.source = 3 then viewRam s (d.cursor + 1)
  else viewJnvAt s (jnvPlace s d.pos + 1)

/-- Where `PREV` leads: the previous record or entry in ring order. -/
def viewPrev (s : State) (d : Drawer) : View :=
  if d.source = 1 then
    let i := oplIndex s.lg.opl d.pos
    viewOpl s (oplOffset s.lg.opl (i - 1))
  else if d.source = 2 then
    viewInc s (((incStarts s.nv 65536 s.lg.incPos 0).filter (fun x => x < incHolder s.nv s.lg.incPos d.pos
      || (s.lg.incPos ≤ d.pos && x < d.pos))).getLast?.getD 0)
  else if d.source = 3 then
    match (s.lg.ring.filter (fun e => follows d.cursor e.jseq)).getLast? with
    | some e => viewRam s e.jseq
    | none => viewOldest s 3
  else viewJnvAt s (jnvPlace s d.pos - 1)

/-- A pulse of `NEXT` (R521): nothing at `END`. -/
def drawerNext (n : Nat) (s : State) : State :=
  let d := drawerOf s n
  if d.src = 0 || d.status.getLsbD 0 then s else drawerGo n (viewNext s d) s

/-- A pulse of `PREV` (R521): nothing at `START`. -/
def drawerPrev (n : Nat) (s : State) : State :=
  let d := drawerOf s n
  if d.src = 0 || d.status.getLsbD 1 then s else drawerGo n (viewPrev s d) s

/-- `DRn_CTRL`: both pulses in one access change nothing (R521). -/
def drawerCtrl (n : Nat) (v : Word) (s : State) : State :=
  if v.getLsbD 0 && v.getLsbD 1 then s
  else if v.getLsbD 0 then drawerNext n s
  else if v.getLsbD 1 then drawerPrev n s
  else s

/-- The view a drawer that loads shows now. -/
def viewNow (s : State) (d : Drawer) : View :=
  if d.source = 1 then viewOpl s d.pos
  else if d.source = 2 then viewInc s d.pos
  else if d.source = 3 then viewRam s d.cursor
  else if d.source = 4 then viewJnvAt s (jnvPlace s d.pos)
  else viewEnd 0 0 false

/-- DRAWER_LOAD_DONE (R520): the window shows its position and `BUSY` clears. An entry that left its ring meanwhile sets
`SKIPPED`; an invalid one records event 0x9045 with the log and offset (R503, R515), and NV errors are reported (R411). -/
def drawerLoaded (n : Nat) (s : State) : State :=
  let d := drawerOf s n
  if !d.status.getLsbD 5 then s
  else
    let v := viewNow s d
    let v := { v with skipped := v.skipped || d.status.getLsbD 4 }
    let s := if d.source = 2 then nvReport (0x500000 + v.pos) v.bytes.length s
      else if d.source = 4 then nvReport (jnvBase + 32 * v.pos) v.bytes.length s else s
    let s := drawerMod n (fun d => { d with
      cursor := v.cursor, pos := v.pos, status := viewStatus d.src v
      win := (List.range 16).map (wordAt v.bytes) }) s
    if v.bad then
      raise 0x9045 noInst [w32 d.source, w32 (if d.source = 4 then 32 * v.pos else v.pos)] s
    else s

/-! ### The rows -/

/-- DRAWER_SELECT. -/
def drawerSelect (n : Nat) (v : Word) (s : State) : State := if s.awake then drawerSel n v s else s

def execDrawerSelect (t : Nat) (n : Fin 2) (v : Word) : State → Host.Outcome State Fault Refusal :=
  act t (drawerSelect n.val v)

/-- DRAWER_CURSOR. -/
def drawerCursor (n : Nat) (v : Word) (s : State) : State := if s.awake then drawerCur n v s else s

def execDrawerCursor (t : Nat) (n : Fin 2) (v : Word) : State → Host.Outcome State Fault Refusal :=
  act t (drawerCursor n.val v)

/-- DRAWER_NEXT. -/
def drawerNextRow (n : Nat) (s : State) : State := if s.awake then drawerCtrl n 1 s else s

def execDrawerNext (t : Nat) (n : Fin 2) : State → Host.Outcome State Fault Refusal := act t (drawerNextRow n.val)

/-- DRAWER_PREV. -/
def drawerPrevRow (n : Nat) (s : State) : State := if s.awake then drawerCtrl n 2 s else s

def execDrawerPrev (t : Nat) (n : Fin 2) : State → Host.Outcome State Fault Refusal := act t (drawerPrevRow n.val)

/-- DRAWER_LOAD_DONE. -/
def drawerLoadDone (n : Nat) (s : State) : State := if s.awake then drawerLoaded n s else s

def execDrawerLoadDone (t : Nat) (n : Fin 2) : State → Host.Outcome State Fault Refusal := act t (drawerLoadDone n.val)

end Sys2Proof.Machine
end

