-- ==== Sys2Proof/Machine/Registers.lean ====
section
/-! DEFINITION. Writes of registers and the transactions of the host port (16, 17). -/

namespace Sys2Proof.Machine

/-- The bits under a mask replaced. -/
def mergeBits (old mask data : Word) : Word := (old &&& ~~~mask) ||| (data &&& mask)

/-! ### Shadows (R457) -/

/-- A pending value put for a register. -/
def pendingPut (off : Nat) (v : Word) (l : List (Nat × Word)) : List (Nat × Word) :=
  l.filter (fun e => e.1 ≠ off) ++ [(off, v)]

/-- A `PMk_HI` consumer field written with 3 stays as it was (R486). -/
def consumerKept (off : Nat) (base v : Word) : Word :=
  if off < 0x3C00 && 0x80 ≤ off % 0x100 && off % 0x100 < 0xC0 && off % 8 = 0 && v.toNat / 2 ^ 17 % 4 = 3 then
    mergeBits v 0x60000 base
  else v

/-- A write of a WS register (R457): its shadow starts from the pending value, else from the active one. Completed at
least 1 µs before the cycle's end it applies at the coming start, else at the one after; in `LIMP` 1 µs later. A first
value of `CFG_REF` written after a pulse of `DISARM` arms the check at the start at which both act (R462). -/
def shadowWrite (off : Nat) (mask data : Word) (s : State) : State :=
  let base := (wsPending s off).getD (wsActive s off)
  let v := consumerKept off base (mergeBits base mask data)
  if s.pwr.node = .limp || s.cyc.phase + 1000 ≤ tCycle s then
    { s with rg := { s.rg with
        shadow := pendingPut off v s.rg.shadow, disarm := s.rg.disarm && off ≠ 0x180 } }
  else { s with rg := { s.rg with shadowLate := pendingPut off v s.rg.shadowLate } }

/-! ### Host windows (R472) -/

/-- A descriptor word written by the host: `TAGGED` and `TS_REQ`; a legal `BLEN`, and `TCI`; `COOKIE` in a `FIRST` buffer. -/
def descWrite (k : Nat) (v : Word) (x : Buf) : Buf :=
  if k = 0 then
    let m : Byte := fTagged ||| fTsReq
    { x with flags := (x.flags &&& ~~~m) ||| (v.setWidth 8 &&& m) }
  else if k = 1 then
    let n := v.toNat / 65536
    { x with blen := if 1 ≤ n && n ≤ 256 then BitVec.ofNat 16 n else x.blen, tci := v.setWidth 16 }
  else if k = 2 && x.has fFirst then
    { x with tstamp := (x.tstamp &&& 0x0000FFFFFFFFFFFF) ||| ((v.setWidth 64 >>> (16 : Nat)) <<< (48 : Nat)) }
  else x

/-- A write of a host pool register. -/
def poolRegWrite (off : Nat) (v : Word) (s : State) : State :=
  if off = 0x3C08 then { s with pool := { s.pool with hostArg := v } }
  else if off = 0x3C0C then if v.getLsbD 0 then poolOp s else s
  else if off < 0x3D00 then bufMod (hostBuf s) (descWrite ((off - 0x3C20) / 4) v) s
  else bufPut (hostBuf s) (off - 0x3D00) v s

/-! ### Writes -/

/-- A register of a path's own bank (R468, R469). -/
def bankWrite (path : Path) (off : Nat) (v : Word) (s : State) : State :=
  if off ≤ 0x20C then bankMod path (fun b => { b with args := b.args.set ((off - 0x200) / 4) v }) s
  else if off = 0x210 then cmdSubmit path (v.setWidth 8) s
  else if off = 0x220 then bankMod path (fun b => { b with irqEn := v.setWidth 2 }) s
  else bankMod path (fun b => { b with nvBuf := b.nvBuf.set ((off - 0x400) / 4) v }) s

/-- A `RW` or unlocked `RWL` register takes a value. -/
def rwPut (path : Path) (off : Nat) (v : Word) (s : State) : State :=
  if off = 0x008 then { s with rg := { s.rg with genCtrl := v.setWidth 2 } }
  else if off = 0x010 then { s with rg := { s.rg with irqEn := v.setWidth 5 } }
  else if off = 0x034 then { s with rg := { s.rg with scratch := v } }
  else if off ≤ 0x030 then { s with rg := { s.rg with tags := s.rg.tags.set ((off - 0x024) / 4) v } }
  else if off < 0x800 then bankWrite path off v s
  else if off < 0x900 then
    let n := (off - 0x800) / 0x80
    if off % 0x80 = 0 then drawerSel n v s else drawerCur n v s
  else if off = 0x910 then { s with lg := { s.lg with evIrq := v.setWidth 16 } }
  else if off < 0x1000 then { s with lg := { s.lg with evMatch := s.lg.evMatch.set ((off - 0x940) / 4) v } }
  else if off < 0x3000 then
    if s.dev.variantN then s else chanMod ((off - 0x2000) / 0x40) (fun c => { c with irqEn := v.setWidth 5 }) s
  else if off = 0x3C04 then { s with pool := { s.pool with irqEn := v.setWidth 5 } }
  else if off < 0x4000 then poolRegWrite off v s
  else { s with nv := { s.nv with sel := v.setWidth 11 } }

/-- A pulse of a `W1P` register: the bits written as 1 (R6). -/
def pulse (off : Nat) (bits : Word) (s : State) : State :=
  if bits = 0 then s
  else if off = 0x188 then { s with rg := { s.rg with disarm := true } }
  else if off < 0x1000 then drawerCtrl ((off - 0x800) / 0x80) bits s
  else if off = 0x3C0C then poolOp s
  else stampPop ((off - 0x3800) / 0x100) s

/-- The status a write of a register ends with (Table 16.3). -/
def writeStatus (s : State) (path : Path) (off : Nat) : Nat :=
  let k := (writeOf off).1
  if hostPoolReg off && path ≠ .host then 4
  else if hostWindow off && !bufOk s 0x38 (hostBuf s) 0 then 5
  else if k = .none then 6
  else if k = .rwl && rwlLocked s then 7
  else if 0x3D00 ≤ off && off < 0x3E00 && unitErr s (16 * hostBuf s + (off - 0x3D00) / 16) = some true then 8
  else 0

/-- A write of a register under a mask (R448, R455, R456): only its writable bits change (R7). -/
def regWrite (path : Path) (off : Nat) (mask data : Word) (s : State) : Nat × State :=
  let st := writeStatus s path off
  let w := writeOf off
  let m := mask &&& w.2
  if st = 8 then (st, poolUncorr s)
  else if st ≠ 0 || m = 0 then (st, s)
  else match w.1 with
    | .ws => (0, shadowWrite off m data s)
    | .w1p => (0, pulse off (data &&& m) s)
    | _ => (0, rwPut path off (mergeBits (regRead s path off) m data) s)

/-- One write of an address (R448): status and effect. -/
def accessWrite (path : Path) (addr : Nat) (data : Word) (s : State) : Nat × State :=
  if addr % 4 ≠ 0 then (3, s)
  else match reachOf addr with
    | .snap _ => (6, s)
    | .whole off => regWrite path off 0xFFFFFFFF data s
    | .bit off k => regWrite path off (1 <<< k) ((data &&& 1) <<< k) s
    | .half off high =>
      let sh := if high then 16 else 0
      regWrite path off ((data >>> (16 : Nat)) <<< sh) ((data &&& 0xFFFF) <<< sh) s

/-! ### Host port transactions (R447, R448, R451) -/

/-- The reserved bits of a header are 0. -/
def headerOk (h : Word) : Bool := h.toNat / 2 ^ 20 % 256 = 0

/-- The opcode of a header. -/
def headerOp (h : Word) : Nat := h.toNat / 2 ^ 28

/-- The CRC-8 the host sends with a transaction (R447): over the header, and over the data of a write. -/
def hostCrc (h data : Word) : Byte :=
  crc8 (beBytes 4 h.toNat ++ (if headerOp h = 2 then beBytes 4 data.toNat else []))

/-- The node's part of one transaction: status, read data and the effect. -/
def transact (h data : Word) (crc : Byte) (s : State) : Nat × Word × State :=
  if !headerOk h || (headerOp h ≠ 1 && headerOp h ≠ 2) then (1, 0, s)
  else if crc ≠ hostCrc h data then (2, 0, raise 0x9000 noInst [] s)
  else if headerOp h = 1 then accessRead .host (h.toNat % 2 ^ 20) s
  else
    let r := accessWrite .host (h.toNat % 2 ^ 20) data s
    (r.1, 0, r.2)

/-- One whole transaction: the answer goes out on the port, which works in the states that power it (R452). -/
def hostTransaction (h data : Word) (crc : Byte) (s : State) : State :=
  if !s.awake then s
  else
    let r := transact h data crc s
    let a : Byte × Word := (BitVec.ofNat 8 r.1, r.2.1)
    emit (.hostPort a.1 a.2) { r.2.2 with rg := { r.2.2.rg with answer := a } }

/-- REGISTER_WRITE. -/
def execRegisterWrite (t : Nat) (h data : Word) (crc : Byte) : State → Host.Outcome State Fault Refusal :=
  act t (hostTransaction h data crc)

/-- RC_READ: a read carries no data from the host. -/
def execRcRead (t : Nat) (h : Word) (crc : Byte) : State → Host.Outcome State Fault Refusal :=
  act t (hostTransaction h 0 crc)

/-- HP_ABORT (R451): a write past clock 18 has taken effect; an aborted read clears nothing. No status goes out. -/
def hpAbort (h data : Word) (crc : Byte) (clocks : Nat) (s : State) : State :=
  if !s.awake then s
  else if headerOk h && headerOp h = 2 && 18 ≤ clocks then (transact h data crc s).2.2
  else if headerOk h && headerOp h = 1 && 10 ≤ clocks && crc ≠ hostCrc h 0 then raise 0x9000 noInst [] s
  else s

def execHpAbort (t : Nat) (h data : Word) (crc : Byte) (clocks : Nat) : State → Host.Outcome State Fault Refusal :=
  act t (hpAbort h data crc clocks)

/-- CFG_DISARM (R462). -/
def cfgDisarm (s : State) : State := if s.awake then pulse 0x188 1 s else s

def execCfgDisarm (t : Nat) : State → Host.Outcome State Fault Refusal := act t cfgDisarm

/-- A landing slow-domain write sets its register (R8, R57). -/
def slowLand (off : Nat) (v : Word) (p : Pwr) : Pwr :=
  if off = 0x01C then { p with opsec := v }
  else if off = 0x020 then { p with pcyc := v.setWidth 24 }
  else if off = 0x0A4 then { p with wfCount := v.setWidth 8 }
  else p

/-- SLOW_WRITE_LAND (R8, R458, R459): after two `SLOW_CLK` edges, so not while the clock stands. -/
def slowWriteLand (s : State) : State :=
  match s.pwr.slowWrite, s.pwr.slowHeld with
  | some (off, v), none => { s with pwr := { slowLand off v s.pwr with slowWrite := none } }
  | _, _ => s

def execSlowWriteLand (t : Nat) : State → Host.Outcome State Fault Refusal := act t slowWriteLand

end Sys2Proof.Machine
end

