-- ==== Sys2Proof/Machine/Session.lean ====
section
/-! DEFINITION. What a verified in-band PDU does (16), and the end of an NV operation (14), after which a challenge may go
out and a session may lose its key. -/

namespace Sys2Proof.Machine

/-! ### One operation of a `REQUEST` (Table 16.4) -/

/-- The operation of a header on a path, with the effects of a host port access (R466): status and data. -/
def pduAccess (path : Path) (h data : Word) (s : State) : Nat × Word × State :=
  if !headerOk h || (headerOp h ≠ 1 && headerOp h ≠ 2) then (1, 0, s)
  else if headerOp h = 1 then accessRead path (h.toNat % 2 ^ 20) s
  else
    let r := accessWrite path (h.toNat % 2 ^ 20) data s
    (r.1, 0, r.2)

/-- The operations of a `REQUEST` in order, with the bytes of their answers. -/
def pduOps (path : Path) (ops : Bytes) : Nat → State → Bytes × State
  | 0, s => ([], s)
  | n + 1, s =>
    let r := pduAccess path (w32 (field ops 0 4)) (w32 (field ops 4 4)) s
    let q := pduOps path (ops.drop 8) n r.2.2
    ([BitVec.ofNat 8 r.1, 0, 0, 0] ++ beBytes 4 r.2.1.toNat ++ q.1, q.2)

/-! ### The checks (R465, Table 16.5) -/

/-- The bytes a client signs: node ID, nonce, and every PDU byte before the signature. -/
def pduMessage (s : State) (x : Session) (pdu : Bytes) : Bytes :=
  beBytes 8 s.dev.nodeId.toNat ++ beBytes 8 x.nonce.toNat ++ pdu.take (pdu.length - 64)

/-- The reason a PDU that the verifier has read is rejected. -/
def pduFault (s : State) (x : Session) (path : Path) (pdu : Bytes) : Option Nat :=
  let ty := field pdu 0 1
  let key := if ty = 3 then field pdu 8 1 else x.keyslot
  let seq := w32 (field pdu 4 4)
  if !pduKnown s path pdu then some 0x04
  else if !(s.image.elim false (fun im => im.keyslot = key) && keyUsable s.nv key) then some 0x01
  else if !edVerify (keyBytes s.nv key) (pdu.drop (pdu.length - 64)) (pduMessage s x pdu) then some 0x02
  else if (if ty = 3 then seq ≠ 0 else seq ≠ x.seq && seq ≠ x.seq + 1) then some 0x03
  else if ty = 4 && seq = x.seq && x.response.isEmpty then some 0x03
  else none

/-! ### The effect (R464, R466, R467) -/

/-- An accepted `OPEN`: the session stands, with event 0x9003, and is answered by an empty `RESPONSE`. -/
def pduOpen (x : Session) (w : PduWait) (s : State) : State :=
  let key := field w.pdu 8 1
  let s := sessionPut w.path (some { x with opening := false, keyslot := key, seq := 0, response := [] }) s
  let s := raise 0x9003 (pathCode w.path) [w32 (pathCode w.path), w32 key] s
  pduSend w.path w.source (pduHeader 0x05 0 (x.nonce.setWidth 16) 0 0) s

/-- An accepted `REQUEST`: its operations once, or the stored `RESPONSE` again. -/
def pduRequest (x : Session) (w : PduWait) (s : State) : State :=
  let seq := w32 (field w.pdu 4 4)
  let n := field w.pdu 1 1
  if seq = x.seq then pduSend w.path w.source x.response s
  else
    let r := pduOps w.path (w.pdu.drop 12) n s
    let answer := pduHeader 0x05 (BitVec.ofNat 8 n) (x.nonce.setWidth 16) seq 0 ++ r.1
    pduSend w.path w.source answer (sessionPut w.path (some { x with seq := seq, response := answer }) r.2)

/-- A PDU the verifier is through with. -/
def pduVerified (w : PduWait) (s : State) : State :=
  match s.session w.path with
  | none => pduReject w.path w.source w.pdu (if s.image.isNone then 0x01 else 0x04) s
  | some x =>
    match pduFault s x w.path w.pdu with
    | some r => pduReject w.path w.source w.pdu r s
    | none =>
      if field w.pdu 0 1 = 3 then pduOpen x w s
      else if field w.pdu 0 1 = 4 then pduRequest x w s
      else sessionDrop w.path 0x09 s

/-- The verifier is taken: an `IMG_COMMIT` verifies its image (R465). -/
def verifierTaken (s : State) : Bool := s.nv.job.elim false (fun j => j.code = 0x13 && j.phase = 0)

/-- INBAND_PDU_VERIFIED (R465): the oldest PDU held. -/
def inbandPduVerified (s : State) : State :=
  match s.rg.pdus with
  | [] => s
  | w :: rest =>
    if !s.awake || verifierTaken s then s else pduVerified w { s with rg := { s.rg with pdus := rest } }

def execInbandPduVerified (t : Nat) : State → Host.Outcome State Fault Refusal := act t inbandPduVerified

/-! ### The end of an NV operation -/

/-- A session whose key slot has been revoked closes (Table 16.5, code 0x0A). -/
def keyGone (path : Path) (s : State) : State :=
  match s.session path with
  | none => s
  | some x =>
    if !x.opening && (s.nv.keys[x.keyslot]?).elim false KeySlot.revoked then sessionClose path 0x0A s else s

/-- NV_OP_DONE (R412): the operation ends; a challenge whose nonce is stored goes out (R464). -/
def nvOpDone (verified : Bool) (s : State) : State :=
  let s := nvFinish verified s
  keyGone .e0 (keyGone .backbone (challenge .e0 (challenge .backbone s)))

def execNvOpDone (t : Nat) (verified : Bool) : State → Host.Outcome State Fault Refusal := act t (nvOpDone verified)

end Sys2Proof.Machine
end

