-- ==== Sys2Proof/Machine/Orders.lean ====
section
/-! DEFINITION. Standing orders (01, 04) and the configuration check (16), two of the things a cycle start does. -/

namespace Sys2Proof.Machine

/-! ### Standing orders (R16, R21-R25, R109-R115) -/

/-- The condition of an order is high: an event it names was recorded or repeat-counted in the window (R110). -/
def orderHigh (evs : List (Half × Byte)) (o : Order) : Bool :=
  evs.any (fun e => e.1 = o.cond && (o.inst = 0xFF || e.2 = o.inst))

/-- The action of an order can be carried out (R24, Table 4.7). -/
def orderCan (s : State) (o : Order) : Bool :=
  let obj := o.obj.toNat
  let val := o.val.toNat
  match o.action.toNat with
  | 0x01 | 0x02 => decide (obj ≤ 11) && (s.dom 12).act = .on
  | 0x03 | 0x04 => holdable obj && !(s.dev.variantN && fieldDomain obj)
  | 0x05 => decide (obj ≤ 31) && decide (val ≤ 1) && !s.dev.variantN && chMode s obj = 5
  | 0x06 => decide (obj ≤ 31) && !s.dev.variantN && chMode s obj = 5
  | 0x07 => decide (obj ≤ 3) && !s.dev.variantN
  | 0x08 => s.running && decide (val ≤ 2)
  | 0x09 | 0x0A => decide (obj ≤ 3) && (s.dom (30 + obj)).act = .on
  | 0x0B | 0x0C => decide (obj ≤ 31)
  | _ => false

/-- `OUTPUT_LOCK` on a channel (R111); a forced channel keeps its force, with event 0x6012 (R114, R345). -/
def lockSet (n : Nat) (v : Bool) (s : State) : State :=
  let s := restage n (chanMod n (fun c => { c with lock := some v }) s)
  if (s.chan n).force.isSome then raise 0x6012 n [] s else s

/-- The effect of an order's action (Table 4.7). -/
def orderAct (o : Order) (s : State) : State :=
  let obj := o.obj.toNat
  match o.action.toNat with
  | 0x01 => branchOff obj s
  | 0x02 => branchOn obj s
  | 0x03 => domHold obj true s
  | 0x04 => domHold obj false s
  | 0x05 => lockSet obj (o.val.toNat = 1) s
  | 0x06 => lockFree obj s
  | 0x07 => (groupChannels obj).foldl (fun s n => if chMode s n = 5 then lockSet n false s else s) s
  | 0x08 => shCommand o.val.toNat 2 s
  | 0x09 => eqOff obj s
  | 0x0A => eqOn obj s
  | 0x0B => { s with cr := { s.cr with ordFlag := s.cr.ordFlag ||| (1#32 <<< obj) } }
  | 0x0C => { s with cr := { s.cr with ordFlag := s.cr.ordFlag &&& ~~~(1#32 <<< obj) } }
  | _ => s

/-- An order whose condition rose: executed with event 0x8010, or refused with event 0x8011 (R24, R115). -/
def orderRise (i : Nat) (o : Order) (s : State) : State :=
  if orderCan s o then orderDone i o.cond.toNat (orderAct o s)
  else raise 0x8011 noInst [w32 i, o.cond.setWidth 32] s

/-- One order at a cycle start: it acts once per rise of its condition (R22); an entry without an action is unused. -/
def orderAt (evs : List (Half × Byte)) (i : Nat) (o : Order) (s : State) : State :=
  let high := orderHigh evs o
  let was := (s.gr.orders.getD i {}).high
  let s := { s with gr := { s.gr with orders := s.gr.orders.set i { high := high } } }
  if high && !was && o.action ≠ 0 then orderRise i o s else s

/-- The orders from index `i` on, in table order (R21). -/
def ordersFrom (evs : List (Half × Byte)) : Nat → List Order → State → State
  | _, [], s => s
  | i, o :: r, s => ordersFrom evs (i + 1) r (orderAt evs i o s)

/-- Step 3 of R113, with the events counted for this cycle start. -/
def ordersRun (evs : List (Half × Byte)) (s : State) : State :=
  if s.gr.armed && s.running then ordersFrom evs 0 (s.image.elim [] Image.orders) s else s

/-! ### Shadows and the configuration check (R457, R461, R462) -/

/-- A list of pending values applied to the active ones. -/
def shadowsOn (l ws : List (Nat × Word)) : List (Nat × Word) := l.foldl (fun m e => smPut 0 m e.1 e.2) ws

/-- Step 1 of R113: the pending shadows of the coming start apply together; later ones are next. What they replace is
kept for the receive decisions under way (R264). `CFG_REF` arms the check, a pulse of `DISARM` disarms it. -/
def shadowsApply (s : State) : State :=
  let l := s.rg.shadow
  let old := s.rg.wsHist.filter (fun h => s.now < h.1 + 1300000)
  { s with rg := { s.rg with
      ws := shadowsOn l s.rg.ws
      shadow := s.rg.shadowLate
      shadowLate := []
      wsHist := if l.isEmpty then old else old ++ [(s.now, s.rg.ws)]
      cfgArmed := !s.rg.disarm && (s.rg.cfgArmed || l.any (fun e => e.1 = 0x180))
      disarm := false } }

/-- The active values of the configuration registers, in the order of Table 17.11. -/
def cfgWords (s : State) : List Word :=
  [s.rg.genCtrl.setWidth 32 &&& 0xFFFFFFFE, s.rg.irqEn.setWidth 32] ++ s.rg.tags
    ++ [(bankOf s .host).irqEn.setWidth 32, s.lg.evIrq.setWidth 32] ++ s.lg.evMatch
    ++ s.ch.map (fun c => c.irqEn.setWidth 32)
    ++ (List.range 4).flatMap (fun n => (eqWsOffsets n).map (wsActive s))
    ++ [s.pool.irqEn.setWidth 32]

/-- The CRC of the configuration check (R461). -/
def cfgCrcOf (s : State) : Word := crc32 (dataBytes (cfgWords s))

/-- The configuration check of a cycle (R461, R462). -/
def cfgCheck (s : State) : State :=
  let s := { s with rg := { s.rg with cfgCrc := cfgCrcOf s } }
  if s.rg.cfgArmed && s.rg.cfgCrc ≠ wsActive s 0x180 then
    raise 0x9002 noInst [] { s with rg := { s.rg with mismatch := true } }
  else s

end Sys2Proof.Machine
end

