-- ==== Sys2Proof/Machine/Cycle.lean ====
section
/-! DEFINITION. The cycle start (04, 06, 10): time, amendments, quiesce, the three steps of R113, entry into `RUN`; the
switch instant (05), the writes that apply in `LIMP` (16), and the wake patterns of the equipment ports (09). -/

namespace Sys2Proof.Machine

/-! ### Time (R158, R179) -/

/-- Where the cycle in progress ends, and the `TT` and `CYC` of the next one: an acquisition step, else `T_C` on. -/
def cycleNext (s : State) : Nat × DWord × Half :=
  match s.cyc.step with
  | some (n, tt, cyc) => (max s.cyc.phase n, tt, cyc)
  | none => (max s.cyc.phase (tCycle s), s.cyc.tt + BitVec.ofNat 64 (tCycle s), s.cyc.cyc + 1)

/-- Time passes to the next cycle start; a step that shortens the cycle ends the vehicle cycle early (R179, R227). -/
def cycleAdvance (s : State) : State :=
  let short := s.cyc.step.elim false (fun x => decide (x.1 < tCycle s))
  let s := { s with cyc := { s.cyc with phase := (cycleNext s).1 } }
  let n := cycleNext s
  let s := if short then vnEarlyEnd s else s
  { s with cyc := { s.cyc with base := s.cyc.base + n.1, phase := 0, tt := n.2.1, cyc := n.2.2, step := none } }

/-! ### Quiesce (R72, R293-R296, R443) -/

/-- A list of domains switched to one level. -/
def domainsTo (l : Level) (ds : List Nat) (s : State) : State := ds.foldl (fun s d => setDomain d l s) s

/-- The PHY domains of the equipment ports under the gate of a closed Shutter (R63, Table 10.2). -/
def phyGate (s : State) : State :=
  (List.range 4).foldl (fun s p =>
    setDomain (26 + p) (Level.min (s.dom (26 + p)).ctrl (if wakeArmed s p then .low else .off)) s) s

/-- What the quiesce sequence stops (Table 10.2, rows 1-4). -/
def quiesceStops (s : State) : State :=
  let s := forcesEnd 3 s
  let s := { s with
    gr := { s.gr with on := false, armed := false }
    cr := { s.cr with pxc := coreStop s.cr.pxc, rxc := coreStop s.cr.rxc, sleepAfter := false }
    tf := { s.tf with hostHold := false, quiesceCyc := none, sleepCd := 0, window := false }
    rg := { s.rg with shadow := [], shadowLate := [] }
    lg := { s.lg with oplArm := none, incArm := none } }
  let s := shQuiesce s
  let s := domainsTo .off ((List.range 68).map (· + 38) ++ [120]) s
  let s := benchQuiesce s
  let s := driveB false (driveA false { s with pwr := { s.pwr with relayAWaits := false, flood := .none } })
  let s := domainsTo .off ([6, 7, 8, 9, 10, 11, 35, 122] ++ (List.range 13).map (· + 12) ++ [30, 31, 32, 33]) s
  phyGate s

/-- What it gives the NV controller to write: pending repeat trailers, and the operating seconds and the clean mark into
CFG (Table 10.2, R81, R504); JNV entries follow by themselves. -/
def quiesceWrites (s : State) : State :=
  { s with
    lg := incTrailer s.lg
    nv := { s.nv with cfgQ := s.nv.cfgQ ++ [{ opsec := some s.pwr.opsec, n := some s.lg.jseq, clean := true }] } }

/-- The awake request rose in the cycle that carried `SLEEP_CD` = 1 (R295). -/
def lateRequest (s : State) : State :=
  if s.tf.lastCd && !s.tf.awakeAt && (awakeRequest s || s.tf.awakeReq) then raise 0x5002 noInst [] s else s

/-- Entry into `QUIESCE` (R293, R296). -/
def quiesceEnter (s : State) : State :=
  let s := transition .quiesce 15 (lateRequest s)
  let s := revertCancel 2 (abandonCommands .quiesce (nvCut s))
  let s := sessionClose .e0 0x0A (sessionClose .backbone 0x0A s)
  quiesceWrites (quiesceStops s)

/-- The quiesce cycle starts here, or a countdown ended during a takeover (R72, R293). -/
def quiesceDue (s : State) : Bool := s.cycling && (s.tf.quiesceCyc = some s.cyc.cyc || s.cr.sleepAfter)

/-! ### Entry into RUN (R71, R91, R106, R250, R338, R353, R356, R407) -/

/-- The restore of the checkpoint variables (R106). -/
def chkRestore (im : Image) (s : State) : State :=
  let refuse (k : Word) (s : State) : State := raise 0x8021 noInst [k] s
  if !im.node.restore then s
  else match chkNewest s.nv with
    | some (pos, c) =>
      let a := chkAddr pos
      let n := 16 + c.data.length
      if nvBad s.nv a n then refuse 2 (nvReport a n s)
      else if c.imgId ≠ imgId im || c.data.length ≠ chkTotal im then refuse 1 (nvReport a n s)
      else { nvReport a n s with cr := { (nvReport a n s).cr with pxc := chkScatter im c.data s.cr.pxc } }
    | none =>
      if (List.range 16).all (fun p => nvErased s.nv (chkAddr p) 16) then refuse 0 s else refuse 2 s

/-- The core's memories and the checkpoint store in the power cycle (R106, R103). -/
def runCore (im : Image) (s : State) : State :=
  let seq := match chkNewest s.nv with
    | some (_, c) => c.seq + 1
    | none => 0
  chkRestore im { s with cr := { s.cr with
    pxc := coreLoad im s.cr.pxc, ordFlag := 0, chk := [none, none], chkSeq := seq } }

/-- A channel as it enters service: the captures of `BRINGUP` stay (R99). -/
def runChannel (c : Chan) : Chan :=
  { memReset c with
    grid := false, pend := [], lock := none, force := none, forceOver := false, cmd := false, cnt := 0, cntAt := []
    latch := {}, latchPrev := {}, sink := false }

/-- Nothing of a `BRINGUP` snapshot is fresh (R99). -/
def staleSnap (x : Snapshot) : Snapshot := { x with payload := staleWindows x.offs x.payload }

/-- The supply voltage the image selects (R353) and its hold-up class (R356). -/
def runSupply (im : Image) (s : State) : State :=
  let s := if im.node.unSel = 0 then s else selectUn im.node.unSel.toNat true s
  let uF := (s.pwr.holdup.setWidth 16).toNat
  if im.node.huClass = 1 && !s.pwr.holdup.getLsbD 16 && uF ≠ 0 && decide (uF < 900) then
    raise 0x0106 noInst [] { s with pwr := { s.pwr with holdup := s.pwr.holdup ||| 0x10000 } }
  else s

/-- The data banks that the first position's vector leaves `OFF` hold nothing (R62). -/
def runBanks (s : State) : State :=
  (List.range 4).foldl (fun s b =>
    if (s.dom (114 + b)).ctrl = .off then drawn (dataCoreMod (bankLost b s.free) s) else s) s

/-- The core state at entry: with a PXC that yielded in `BRINGUP`, no core is in control (R435); `WATCH` loads the RXC
(R432). -/
def runCores (im : Image) (s : State) : State :=
  let s := if s.cr.active = 2 then repairAsk (transition .nocore 11 s) else s
  if im.node.watch then watchLoad s else s

/-- Entry into `RUN` with the admitted image. -/
def runEnter (x : Nat × Word × Image) (s : State) : State :=
  let im := x.2.2
  let s := transition .run 14 s
  let s := { s with
    gr := { s.gr with img := some x, errs := [], orders := List.replicate im.orders.length {}, armed := true, on := true }
    nv := { s.nv with ver := { s.nv.ver with loaded := false, admitted := none } }
    ch := s.ch.map runChannel
    vn := {}
    cyc := { s.cyc with runCycles := 1 }
    tf := { s.tf with snap := staleSnap s.tf.snap, snapPrev := staleSnap s.tf.snapPrev } }
  let s := setDomain 35 .off (domainsTo .on [10, 11] s)
  let s := runSupply im (benchService (shPower (poolStart (runCore im s))))
  hingeRun (runCores im (runBanks (vectorApply s)))

/-- An image verified and loaded enters service at this cycle start (R71). -/
def runDue (s : State) : State :=
  match s.nv.ver.admitted with
  | some x => if s.pwr.node = .bringup && s.nv.ver.loaded && calm s then runEnter x s else s
  | none => s

/-! ### The cycle start -/

/-- `LOCK_LOST` stands for 64 cycles after the lock is regained (R59, R163). -/
def lockAge (s : State) : State :=
  if s.pwr.locked && s.pwr.lockLost then
    let n := s.pwr.lockCycles + 1
    { s with pwr := { s.pwr with lockCycles := if 64 ≤ n then 0 else n, lockLost := decide (n < 64) } }
  else s

/-- The events counted for this cycle start are taken; those of the last 1 µs count for the next (R110). -/
def eventsTake (s : State) : State := { s with gr := { s.gr with evNow := s.gr.evNext, evNext := [] } }

/-- Forces whose timeout has expired end at the next cycle start (R344). -/
def forcesExpire (s : State) : State :=
  (List.range 32).foldl (fun s n => if (s.chan n).forceOver then forceEnd n 1 s else s) s

/-- The number of cycle starts in service, as far as it matters (R91). -/
def runCount (s : State) : State :=
  if s.running then { s with cyc := { s.cyc with runCycles := min 2 (s.cyc.runCycles + 1) } } else s

/-- What follows the orders: the train frame engine's new cycle, control of the cores, the level vector of the position,
the bench queue's age, and the awake request as the cycle starts. -/
def cycleTail (s : State) : State :=
  let s := revertControl (takeoverControl (tfCycle s))
  let s := if s.running then vectorApply s else s
  let s := if macroPos s = 1 && s.running && s.cyc.runCycles = 2 then benchAge s else s
  { s with tf := { s.tf with awakeAt := awakeRequest s } }

/-- Steps 1-3 of R113 and what follows them, in a cycle that does not begin `QUIESCE`; `evs` are the events counted. -/
def cycleSteps (evs : List (Half × Byte)) (s : State) : State :=
  let s := shCycle (forcesExpire (lockAge (cfgCheck (shadowsApply s))))
  let s := resetDue (cmdsRun (runDue (runCount s)))
  if s.cycling then cycleTail (ordersRun evs s) else s

/-- A cycle start once time and the topology stand. -/
def cycleBody (evs : List (Half × Byte)) (s : State) : State :=
  if s.pwr.node = .quiesce then cfgCheck (shadowsApply s)
  else if quiesceDue s && s.cr.takeover.isSome then
    cycleSteps evs { s with tf := { s.tf with quiesceCyc := none }, cr := { s.cr with sleepAfter := true } }
  else if quiesceDue s && calm s then quiesceEnter s
  else cycleSteps evs s

/-- CYCLE_START (R71, R91, R113, R150, R158, R293): nothing where no cycle runs. Cycles count on in `QUIESCE`. -/
def cycleStart (s : State) : State :=
  if s.cycling || s.pwr.node = .quiesce then
    let evs := s.gr.evNow
    let s := cycleAdvance (eventsTake s)
    cycleBody evs (if s.cycling then amendCycle s else s)
  else s

def execCycleStart : State → Host.Outcome State Fault Refusal := act 0 cycleStart

/-! ### The switch instant (R143, R178) -/

/-- SWITCH_INSTANT, at the instant the TTR gave: it is adopted and cycle 0 of the new composition starts here. -/
def switchInstant (s : State) : State :=
  match s.hg.pendTtr with
  | some (t, icount, at_) =>
    if s.hg.st = .awaitSwitch && s.cycling then
      let old := s.hg.icount
      let s := { s with cyc := { s.cyc with phase := max s.cyc.phase (at_ - s.cyc.base) } }
      cycleBody s.gr.evNow (icountClose old (adopt .member t icount (switchCycle (eventsTake s))))
    else s
  | none => s

def execSwitchInstant : State → Host.Outcome State Fault Refusal := act 0 switchInstant

/-! ### Writes in LIMP (R457) -/

/-- LIMP_APPLY: what waits applies 1 µs after the transaction or acceptance; no cycle starts, so the configuration check
is not armed. -/
def limpApply (s : State) : State :=
  if s.pwr.node = .limp then
    resetDue (cmdsRun { s with cyc := { s.cyc with phase := s.cyc.phase + 1000 }, rg := { s.rg with
      ws := shadowsOn s.rg.shadowLate (shadowsOn s.rg.shadow s.rg.ws), shadow := [], shadowLate := [] } })
  else s

def execLimpApply : State → Host.Outcome State Fault Refusal := act 0 limpApply

/-! ### Wake patterns (R279, R297) -/

/-- A frame matches a filter. -/
def patternMatch (f : WakeFilter) (frame : Bytes) : Bool :=
  decide (f.length ≤ frame.length) &&
    (List.range f.length).all (fun i =>
      !(f.mask.getD (i / 8) 0).getLsbD (7 - i % 8) || frame.getD i 0 = f.pattern.getD i 0)

/-- The filters armed on a port: in `SLEEP` those of `PD000`, in `QUIESCE` the image's. -/
def portFilters (s : State) (port : Nat) : List (Option WakeFilter) :=
  if s.pwr.node = .sleep then s.pwr.filters.getD port []
  else if s.pwr.node = .quiesce then (eqCfg s port).elim [] armedFilters
  else []

/-- WAKE_PATTERN_MATCH: a frame with good FCS at a port whose PHY is at `LOW`. -/
def wakePatternMatch (port : Nat) (frame : Bytes) (s : State) : State :=
  if (s.dom (26 + port)).act ≠ .low then s
  else match (portFilters s port).findIdx? (fun f => f.elim false (fun f => patternMatch f frame)) with
    | some i => wakeLatched ⟨0x03, 0, BitVec.ofNat 2 port, BitVec.ofNat 2 i⟩ s
    | none => s

def execWakePatternMatch (t : Nat) (port : Fin 4) (frame : Bytes) : State → Host.Outcome State Fault Refusal :=
  act t (wakePatternMatch port.val frame)

end Sys2Proof.Machine
end

