-- ==== Sys2Proof/Machine/Time.lean ====
section
/-! DEFINITION. The correction interval (06): offset and rate correction, withdrawal and return, the time mode. -/

namespace Sys2Proof.Machine

/-- A value clipped to a bound in magnitude. -/
def clip (bound x : Int) : Int := max (-bound) (min bound x)

/-- The correction c of a measurement: clipped to ±2,000 ns and rounded toward zero (R171). -/
def appliedC (m : Measure) : Int := (clip 8000 m.c4).tdiv 4

/-- The measurement lies beyond ±2,000 ns (R173). -/
def cClipped (m : Measure) : Bool := 8000 < m.c4.natAbs

/-- The other conditions of R176 for `PROVIDE`. -/
def provideOthers (s : State) : Bool :=
  s.cyc.mode = .ensemble && 64 ≤ s.cyc.sinceAcq && !s.pwr.lockLost && !s.cyc.rateHeld

/-- A member withdraws beyond 1 µs and returns after 64 cycles within 100 ns (R176). -/
def withdrawal (m : Option Measure) (s : State) : State :=
  if !(s.hg.ttr.elim false (fun t => (ensemble t).contains (ownNumber s))) then s
  else
    match m with
    | some ⟨true, c4⟩ =>
      if 4000 < c4.natAbs then
        let s' := { s with cyc := { s.cyc with withdrawn := true, goodRun := 0 } }
        if s.cyc.withdrawn then s' else raise 0x2010 noInst [] s'
      else if s.cyc.withdrawn then
        let n := if c4.natAbs ≤ 400 && provideOthers s then s.cyc.goodRun + 1 else 0
        if 64 ≤ n then raise 0x2011 noInst [] { s with cyc := { s.cyc with withdrawn := false, goodRun := 0 } }
        else { s with cyc := { s.cyc with goodRun := n } }
      else s
    | _ => { s with cyc := { s.cyc with goodRun := 0 } }

/-- The rate correction at an odd `CYC` (R172, R173). -/
def rateUpdate (m : Option Measure) (s : State) : State :=
  let now : Option (Bool × Int) := match m with
    | some x => if cClipped x || s.cyc.acquired then none else some (x.ensemble, appliedC x)
    | none => none
  let old := s.cyc.prev
  let s := { s with cyc := { s.cyc with prev := now } }
  match old, now with
  | some (k, c0), some (k', c1) =>
    if k = k' && s.cyc.cyc.getLsbD 0 then
      let r := s.cyc.rate + ((c0 + c1) * 1000000000).tdiv (4 * (tCycle s : Int))
      let held := clip 200000 r
      let s := { s with cyc := { s.cyc with rate := held, rateHeld := held.natAbs = 200000 } }
      if held = r then s else raise 0x2003 noInst [] s
    else s
  | _, _ => s

/-- The mode of the next cycle (Table 6.5). -/
def modeSelect (m : Option Measure) (s : State) : State :=
  let done := s.cyc.acquired
  let s := { s with cyc := { s.cyc with
    acquiring := s.cyc.acquiring && !done, acquired := false
    sinceAcq := if done then 0 else min 64 (s.cyc.sinceAcq + 1)
    unmeasured := if m.isSome then 0 else min 64 (s.cyc.unmeasured + 1) } }
  let ens := m.elim false Measure.ensemble
  if s.cyc.acquiring then setMode .acquire s
  else if s.hg.st = .solitary || (isOrigin s && !ens) then
    setMode .self { s with cyc := { s.cyc with unmeasured := 0 } }
  else if ens then setMode .ensemble s
  else if m.isSome then setMode .origin s
  else if s.cyc.unmeasured < 64 then setMode .holdover s
  else if s.cyc.mode = .free then s
  else raise 0x2005 noInst [] (setMode .free s)

/-- CORRECTION_INTERVAL (R160, R171-R176). -/
def correctionInterval (s : State) : State :=
  if !s.cycling then s
  else
    let m := s.cyc.meas
    let s := { s with cyc := { s.cyc with
      meas := none, corr := m.elim s.cyc.corr appliedC, phase := max s.cyc.phase (tCycle s - 2000) } }
    let s := if m.elim false cClipped then raise 0x2002 noInst [] s else s
    modeSelect m (rateUpdate m (withdrawal m s))

def execCorrectionInterval : State → Host.Outcome State Fault Refusal := act 0 correctionInterval

end Sys2Proof.Machine
end

