-- ==== Sys2Proof/Machine/Dispatch.lean ====
section
/-! DEFINITION. `exec`: one arm per command of spec/opcode_table.json, each a direct call of its meaning. -/

namespace Sys2Proof.Machine

/-- What a command does to everything but the queue. -/
def exec (i : Instr) (s : State) : Host.Outcome State Fault Refusal :=
  match i with
  | .seatedConfirm t => Sys2Proof.Machine.execSeatedConfirm t s
  | .removal t => Sys2Proof.Machine.execRemoval t s
  | .supplyLoss t => Sys2Proof.Machine.execSupplyLoss t s
  | .flushDone t => Sys2Proof.Machine.execFlushDone t s
  | .converterStop t => Sys2Proof.Machine.execConverterStop t s
  | .holdupMeasure t microFarad => Sys2Proof.Machine.execHoldupMeasure t microFarad s
  | .relaySenseMismatch t line => Sys2Proof.Machine.execRelaySenseMismatch t line s
  | .powerGood t => Sys2Proof.Machine.execPowerGood t s
  | .powerGoodTimeout t => Sys2Proof.Machine.execPowerGoodTimeout t s
  | .regulatorAttempt t => Sys2Proof.Machine.execRegulatorAttempt t s
  | .pllLocked t => Sys2Proof.Machine.execPllLocked t s
  | .pllLockTimeout t => Sys2Proof.Machine.execPllLockTimeout t s
  | .pllRetry t => Sys2Proof.Machine.execPllRetry t s
  | .pllLockLoss t deviation crystalStopped => Sys2Proof.Machine.execPllLockLoss t deviation crystalStopped s
  | .pllLockRegained t => Sys2Proof.Machine.execPllLockRegained t s
  | .domainSwitchTimeout t domain => Sys2Proof.Machine.execDomainSwitchTimeout t domain s
  | .noImageTimeout t => Sys2Proof.Machine.execNoImageTimeout t s
  | .warmResetEnd t => Sys2Proof.Machine.execWarmResetEnd t s
  | .sleepMinDwell t => Sys2Proof.Machine.execSleepMinDwell t s
  | .quiesceDone t => Sys2Proof.Machine.execQuiesceDone t s
  | .quiesceCut t => Sys2Proof.Machine.execQuiesceCut t s
  | .opsecTick t => Sys2Proof.Machine.execOpsecTick t s
  | .cfgStore t => Sys2Proof.Machine.execCfgStore t s
  | .sample entry group volts => Sys2Proof.Machine.execSample entry group volts s
  | .update entry => Sys2Proof.Machine.execUpdate entry s
  | .count entry => Sys2Proof.Machine.execCount entry s
  | .measure entry => Sys2Proof.Machine.execMeasure entry s
  | .tfLaunch entry => Sys2Proof.Machine.execTfLaunch entry s
  | .tfSnap entry wakeIn => Sys2Proof.Machine.execTfSnap entry wakeIn s
  | .tfRead entry => Sys2Proof.Machine.execTfRead entry s
  | .vnStart entry => Sys2Proof.Machine.execVnStart entry s
  | .vnCommit entry => Sys2Proof.Machine.execVnCommit entry s
  | .vnRead entry => Sys2Proof.Machine.execVnRead entry s
  | .pwrOn entry => Sys2Proof.Machine.execPwrOn entry s
  | .pwrOff entry => Sys2Proof.Machine.execPwrOff entry s
  | .pwrLow entry => Sys2Proof.Machine.execPwrLow entry s
  | .dma entry => Sys2Proof.Machine.execDma entry s
  | .chkpCopy entry => Sys2Proof.Machine.execChkpCopy entry s
  | .task entry => Sys2Proof.Machine.execTask entry s
  | .benchSlot entry => Sys2Proof.Machine.execBenchSlot entry s
  | .benchRequestEnd t pass detail => Sys2Proof.Machine.execBenchRequestEnd t pass detail s
  | .linkUp t port neighbour => Sys2Proof.Machine.execLinkUp t port neighbour s
  | .linkDown t port => Sys2Proof.Machine.execLinkDown t port s
  | .linkDownWaitEnd t port => Sys2Proof.Machine.execLinkDownWaitEnd t port s
  | .lineDown2s t port => Sys2Proof.Machine.execLineDown2s t port s
  | .step t port hdr nodeState => Sys2Proof.Machine.execStep t port hdr nodeState s
  | .stepAck t port hdr nodeState master => Sys2Proof.Machine.execStepAck t port hdr nodeState master s
  | .stepLinkDrop t port => Sys2Proof.Machine.execStepLinkDrop t port s
  | .stepComplete t port => Sys2Proof.Machine.execStepComplete t port s
  | .stepTimeout t port => Sys2Proof.Machine.execStepTimeout t port s
  | .stepRetry t port => Sys2Proof.Machine.execStepRetry t port s
  | .relayBDrive t => Sys2Proof.Machine.execRelayBDrive t s
  | .openSideStart t front => Sys2Proof.Machine.execOpenSideStart t front s
  | .bringupLinkWait t => Sys2Proof.Machine.execBringupLinkWait t s
  | .start t port hdr cause => Sys2Proof.Machine.execStart t port hdr cause s
  | .probe t port hdr senderPort nodeState hash profileFp residence => Sys2Proof.Machine.execProbe t port hdr senderPort nodeState hash profileFp residence s
  | .probeRsp t port hdr responderPort hingeState echoed hash residence roundTrip cab => Sys2Proof.Machine.execProbeRsp t port hdr responderPort hingeState echoed hash residence roundTrip cab s
  | .probeInterval t => Sys2Proof.Machine.execProbeInterval t s
  | .probingEnd t cab => Sys2Proof.Machine.execProbingEnd t cab s
  | .discover t port hdr overflow recs cab => Sys2Proof.Machine.execDiscover t port hdr overflow recs cab s
  | .ttr t port hdr body residence => Sys2Proof.Machine.execTtr t port hdr body residence s
  | .admitReq t port hdr req => Sys2Proof.Machine.execAdmitReq t port hdr req s
  | .admitRef t port hdr refusedId reason => Sys2Proof.Machine.execAdmitRef t port hdr refusedId reason s
  | .originAmendment t => Sys2Proof.Machine.execOriginAmendment t s
  | .admitResend t cab => Sys2Proof.Machine.execAdmitResend t cab s
  | .admitReprobe t => Sys2Proof.Machine.execAdmitReprobe t s
  | .inaugAttemptTimeout t phase => Sys2Proof.Machine.execInaugAttemptTimeout t phase s
  | .failedRetry t => Sys2Proof.Machine.execFailedRetry t s
  | .tfOutbound t line payload fcsGood => Sys2Proof.Machine.execTfOutbound t line payload fcsGood s
  | .tfCandidate t line payload fcsGood returnSfd => Sys2Proof.Machine.execTfCandidate t line payload fcsGood returnSfd s
  | .msgFrameRx t port payload => Sys2Proof.Machine.execMsgFrameRx t port payload s
  | .msgTxDone t port => Sys2Proof.Machine.execMsgTxDone t port s
  | .vnFrameRx t branch frame fcsGood => Sys2Proof.Machine.execVnFrameRx t branch frame fcsGood s
  | .guardianCutPoint t branch => Sys2Proof.Machine.execGuardianCutPoint t branch s
  | .branchBurst t branch => Sys2Proof.Machine.execBranchBurst t branch s
  | .vnSlotTx t slot => Sys2Proof.Machine.execVnSlotTx t slot s
  | .branchLinkUp t branch => Sys2Proof.Machine.execBranchLinkUp t branch s
  | .branchLinkDown t branch => Sys2Proof.Machine.execBranchLinkDown t branch s
  | .eqLinkUp t port speed => Sys2Proof.Machine.execEqLinkUp t port speed s
  | .eqLinkDown t port => Sys2Proof.Machine.execEqLinkDown t port s
  | .eqAutonegFail t port => Sys2Proof.Machine.execEqAutonegFail t port s
  | .eqFrameRx t port frame fcsGood => Sys2Proof.Machine.execEqFrameRx t port frame fcsGood s
  | .eqTxDone t port => Sys2Proof.Machine.execEqTxDone t port s
  | .pauseTimerExpiry t port queue => Sys2Proof.Machine.execPauseTimerExpiry t port queue s
  | .pfcRefresh t port => Sys2Proof.Machine.execPfcRefresh t port s
  | .wakePatternMatch t port frame => Sys2Proof.Machine.execWakePatternMatch t port frame s
  | .wakeInDetect t => Sys2Proof.Machine.execWakeInDetect t s
  | .wakeChannelDetect t => Sys2Proof.Machine.execWakeChannelDetect t s
  | .burstReceived t burst => Sys2Proof.Machine.execBurstReceived t burst s
  | .lineCheckEnd t activity pulses => Sys2Proof.Machine.execLineCheckEnd t activity pulses s
  | .burstListenTimeout t => Sys2Proof.Machine.execBurstListenTimeout t s
  | .wakeBurstSend t => Sys2Proof.Machine.execWakeBurstSend t s
  | .burstQuiet t => Sys2Proof.Machine.execBurstQuiet t s
  | .inputThresholdCrossing t channel level => Sys2Proof.Machine.execInputThresholdCrossing t channel level s
  | .dipsSinkOn t channel => Sys2Proof.Machine.execDipsSinkOn t channel s
  | .dipsSinkOff t channel => Sys2Proof.Machine.execDipsSinkOff t channel s
  | .currentLimit t channel => Sys2Proof.Machine.execCurrentLimit t channel s
  | .thermalCutoff t channel => Sys2Proof.Machine.execThermalCutoff t channel s
  | .thermalRelease t channel => Sys2Proof.Machine.execThermalRelease t channel s
  | .openLoadDetect t channel => Sys2Proof.Machine.execOpenLoadDetect t channel s
  | .openLoadClear t channel => Sys2Proof.Machine.execOpenLoadClear t channel s
  | .couplerLoss t channel => Sys2Proof.Machine.execCouplerLoss t channel s
  | .couplerRestore t channel => Sys2Proof.Machine.execCouplerRestore t channel s
  | .groupSupplyLow t group => Sys2Proof.Machine.execGroupSupplyLow t group s
  | .groupSupplyRestore t group => Sys2Proof.Machine.execGroupSupplyRestore t group s
  | .forceTimeout t channel => Sys2Proof.Machine.execForceTimeout t channel s
  | .supplySample t bat iin hu => Sys2Proof.Machine.execSupplySample t bat iin hu s
  | .overvoltage1s t => Sys2Proof.Machine.execOvervoltage1s t s
  | .unAutoSelect t => Sys2Proof.Machine.execUnAutoSelect t s
  | .auxSample t quantity value => Sys2Proof.Machine.execAuxSample t quantity value s
  | .tempLevelChange t sensor reading => Sys2Proof.Machine.execTempLevelChange t sensor reading s
  | .tempSensorStuck t sensor reading => Sys2Proof.Machine.execTempSensorStuck t sensor reading s
  | .coreCheckFail t cause => Sys2Proof.Machine.execCoreCheckFail t cause s
  | .takeoverStepDone t pass detail => Sys2Proof.Machine.execTakeoverStepDone t pass detail s
  | .rxcLoadDone t => Sys2Proof.Machine.execRxcLoadDone t s
  | .shadowTestDone t pass => Sys2Proof.Machine.execShadowTestDone t pass s
  | .healthReport t => Sys2Proof.Machine.execHealthReport t s
  | .repairRetry t => Sys2Proof.Machine.execRepairRetry t s
  | .revertHoldoffEnd t => Sys2Proof.Machine.execRevertHoldoffEnd t s
  | .revertLoadDone t => Sys2Proof.Machine.execRevertLoadDone t s
  | .imageVerified t => Sys2Proof.Machine.execImageVerified t s
  | .imageLoaded t => Sys2Proof.Machine.execImageLoaded t s
  | .nvOpDone t verified => Sys2Proof.Machine.execNvOpDone t verified s
  | .slowWriteLand t => Sys2Proof.Machine.execSlowWriteLand t s
  | .registerWrite t header data crc => Sys2Proof.Machine.execRegisterWrite t header data crc s
  | .rcRead t header crc => Sys2Proof.Machine.execRcRead t header crc s
  | .hpAbort t header data crc clocks => Sys2Proof.Machine.execHpAbort t header data crc clocks s
  | .cfgDisarm t => Sys2Proof.Machine.execCfgDisarm t s
  | .txtsPop t port => Sys2Proof.Machine.execTxtsPop t port s
  | .drawerSelect t drawer value => Sys2Proof.Machine.execDrawerSelect t drawer value s
  | .drawerCursor t drawer value => Sys2Proof.Machine.execDrawerCursor t drawer value s
  | .drawerNext t drawer => Sys2Proof.Machine.execDrawerNext t drawer s
  | .drawerPrev t drawer => Sys2Proof.Machine.execDrawerPrev t drawer s
  | .drawerLoadDone t drawer => Sys2Proof.Machine.execDrawerLoadDone t drawer s
  | .hostAlloc t n => Sys2Proof.Machine.execHostAlloc t n s
  | .hostFree t buf => Sys2Proof.Machine.execHostFree t buf s
  | .hostPost t buf port queue => Sys2Proof.Machine.execHostPost t buf port queue s
  | .hostTake t port => Sys2Proof.Machine.execHostTake t port s
  | .hostOpInvalid t op => Sys2Proof.Machine.execHostOpInvalid t op s
  | .commandAccept t path => Sys2Proof.Machine.execCommandAccept t path s
  | .inaug t path a0 a1 a2 a3 => Sys2Proof.Machine.execInaug t path a0 a1 a2 a3 s
  | .nodeReset t path a0 a1 a2 a3 => Sys2Proof.Machine.execNodeReset t path a0 a1 a2 a3 s
  | .sleepReq t path a0 a1 a2 a3 => Sys2Proof.Machine.execSleepReq t path a0 a1 a2 a3 s
  | .wakeReq t path a0 a1 a2 a3 => Sys2Proof.Machine.execWakeReq t path a0 a1 a2 a3 s
  | .shutterSet t path a0 a1 a2 a3 => Sys2Proof.Machine.execShutterSet t path a0 a1 a2 a3 s
  | .chForce t path channel a1 a2 a3 => Sys2Proof.Machine.execChForce t path channel a1 a2 a3 s
  | .chForceRelease t path channel a1 a2 a3 => Sys2Proof.Machine.execChForceRelease t path channel a1 a2 a3 s
  | .orderRelease t path a0 a1 a2 a3 => Sys2Proof.Machine.execOrderRelease t path a0 a1 a2 a3 s
  | .benchRun t path a0 a1 a2 a3 => Sys2Proof.Machine.execBenchRun t path a0 a1 a2 a3 s
  | .chkpSave t path a0 a1 a2 a3 => Sys2Proof.Machine.execChkpSave t path a0 a1 a2 a3 s
  | .jrnMark t path a0 a1 a2 a3 => Sys2Proof.Machine.execJrnMark t path a0 a1 a2 a3 s
  | .logClearArm t path a0 a2 a3 => Sys2Proof.Machine.execLogClearArm t path a0 a2 a3 s
  | .logClearOpl t path a2 a3 => Sys2Proof.Machine.execLogClearOpl t path a2 a3 s
  | .logClearInc t path a2 a3 => Sys2Proof.Machine.execLogClearInc t path a2 a3 s
  | .imgStage t path a0 a1 a2 a3 => Sys2Proof.Machine.execImgStage t path a0 a1 a2 a3 s
  | .nvProgram t path a0 a1 a2 a3 => Sys2Proof.Machine.execNvProgram t path a0 a1 a2 a3 s
  | .nvErase t path a0 a1 a2 a3 => Sys2Proof.Machine.execNvErase t path a0 a1 a2 a3 s
  | .imgCommit t path a0 a1 a2 a3 => Sys2Proof.Machine.execImgCommit t path a0 a1 a2 a3 s
  | .nvRefresh t path a0 a1 a2 a3 => Sys2Proof.Machine.execNvRefresh t path a0 a1 a2 a3 s
  | .keyAdd t path a0 a1 a2 a3 => Sys2Proof.Machine.execKeyAdd t path a0 a1 a2 a3 s
  | .keyRevoke t path a0 a1 a2 a3 => Sys2Proof.Machine.execKeyRevoke t path a0 a1 a2 a3 s
  | .openReq t path source pdu => Sys2Proof.Machine.execOpenReq t path source pdu s
  | .openPdu t path source pdu => Sys2Proof.Machine.execOpenPdu t path source pdu s
  | .requestPdu t path source pdu => Sys2Proof.Machine.execRequestPdu t path source pdu s
  | .closePdu t path source pdu => Sys2Proof.Machine.execClosePdu t path source pdu s
  | .inbandPduVerified t => Sys2Proof.Machine.execInbandPduVerified t s
  | .inbandOpenTimeout t path => Sys2Proof.Machine.execInbandOpenTimeout t path s
  | .inbandIdleTimeout t path => Sys2Proof.Machine.execInbandIdleTimeout t path s
  | .add d a b => Sys2Proof.Machine.execAdd d a b s
  | .sub d a b => Sys2Proof.Machine.execSub d a b s
  | .and d a b => Sys2Proof.Machine.execAnd d a b s
  | .or d a b => Sys2Proof.Machine.execOr d a b s
  | .xor d a b => Sys2Proof.Machine.execXor d a b s
  | .nor d a b => Sys2Proof.Machine.execNor d a b s
  | .shl d a b => Sys2Proof.Machine.execShl d a b s
  | .shr d a b => Sys2Proof.Machine.execShr d a b s
  | .sar d a b => Sys2Proof.Machine.execSar d a b s
  | .mul d a b => Sys2Proof.Machine.execMul d a b s
  | .mulh d a b => Sys2Proof.Machine.execMulh d a b s
  | .divu d a b => Sys2Proof.Machine.execDivu d a b s
  | .remu d a b => Sys2Proof.Machine.execRemu d a b s
  | .cmp d a b => Sys2Proof.Machine.execCmp d a b s
  | .cmpu d a b => Sys2Proof.Machine.execCmpu d a b s
  | .min d a b => Sys2Proof.Machine.execMin d a b s
  | .max d a b => Sys2Proof.Machine.execMax d a b s
  | .addi d a imm => Sys2Proof.Machine.execAddi d a imm s
  | .andi d a imm => Sys2Proof.Machine.execAndi d a imm s
  | .ori d a imm => Sys2Proof.Machine.execOri d a imm s
  | .xori d a imm => Sys2Proof.Machine.execXori d a imm s
  | .cmpi d a imm => Sys2Proof.Machine.execCmpi d a imm s
  | .ldhi d imm => Sys2Proof.Machine.execLdhi d imm s
  | .shfi d a kind amount => Sys2Proof.Machine.execShfi d a kind amount s
  | .ldw d a imm => Sys2Proof.Machine.execLdw d a imm s
  | .ldh d a imm => Sys2Proof.Machine.execLdh d a imm s
  | .ldb d a imm => Sys2Proof.Machine.execLdb d a imm s
  | .stw d a imm => Sys2Proof.Machine.execStw d a imm s
  | .sth d a imm => Sys2Proof.Machine.execSth d a imm s
  | .stb d a imm => Sys2Proof.Machine.execStb d a imm s
  | .br cond imm => Sys2Proof.Machine.execBr cond imm s
  | .loop a lenH lenL nmax => Sys2Proof.Machine.execLoop a lenH lenL nmax s
  | .call imm => Sys2Proof.Machine.execCall imm s
  | .samp d a ch => Sys2Proof.Machine.execSamp d a ch s
  | .drv d a ch => Sys2Proof.Machine.execDrv d a ch s
  | .cntr d a ch => Sys2Proof.Machine.execCntr d a ch s
  | .meas d a set item => Sys2Proof.Machine.execMeas d a set item s
  | .tww d a done w => Sys2Proof.Machine.execTww d a done w s
  | .twrWindowWord d a w => Sys2Proof.Machine.execTwrWindowWord d a w s
  | .twrWindowHeader d a => Sys2Proof.Machine.execTwrWindowHeader d a s
  | .twrFrameHeader d w => Sys2Proof.Machine.execTwrFrameHeader d w s
  | .vsndWord d a slot => Sys2Proof.Machine.execVsndWord d a slot s
  | .vsndComplete d a slot => Sys2Proof.Machine.execVsndComplete d a slot s
  | .vsndDynamic d a => Sys2Proof.Machine.execVsndDynamic d a s
  | .vrcvWord d a slot => Sys2Proof.Machine.execVrcvWord d a slot s
  | .vrcvStatus d slot => Sys2Proof.Machine.execVrcvStatus d slot s
  | .vrcvDynamic d => Sys2Proof.Machine.execVrcvDynamic d s
  | .mpostSend d a dst => Sys2Proof.Machine.execMpostSend d a dst s
  | .mpostTake d => Sys2Proof.Machine.execMpostTake d s
  | .balloc d n => Sys2Proof.Machine.execBalloc d n s
  | .bfree d a => Sys2Proof.Machine.execBfree d a s
  | .loge d a inc code => Sys2Proof.Machine.execLoge d a inc code s
  | .gate a => Sys2Proof.Machine.execGate a s
  | .bench d a kind => Sys2Proof.Machine.execBench d a kind s
  | .chkp d => Sys2Proof.Machine.execChkp d s
  | .waitg k => Sys2Proof.Machine.execWaitg k s
  | .asrtX imm => Sys2Proof.Machine.execAsrtX imm s
  | .asrtC imm => Sys2Proof.Machine.execAsrtC imm s
  | .asrtZ a imm => Sys2Proof.Machine.execAsrtZ a imm s
  | .cyc d => Sys2Proof.Machine.execCyc d s
  | .tick d => Sys2Proof.Machine.execTick d s
  | .tt d => Sys2Proof.Machine.execTt d s
  | .node d => Sys2Proof.Machine.execNode d s
  | .ordflag d => Sys2Proof.Machine.execOrdflag d s
  | .awake d a => Sys2Proof.Machine.execAwake d a s
  | .chkpStat d => Sys2Proof.Machine.execChkpStat d s
  | .benchRes d a => Sys2Proof.Machine.execBenchRes d a s
  | .bufRd d a b => Sys2Proof.Machine.execBufRd d a b s
  | .bufWr d a b => Sys2Proof.Machine.execBufWr d a b s
  | .bufSet d a b => Sys2Proof.Machine.execBufSet d a b s
  | .bufGet d a => Sys2Proof.Machine.execBufGet d a s
  | .eqPost d a b => Sys2Proof.Machine.execEqPost d a b s
  | .eqTake d b => Sys2Proof.Machine.execEqTake d b s
  | .eqTxts d b => Sys2Proof.Machine.execEqTxts d b s
  | .domainSettled t domain => Sys2Proof.Machine.execDomainSettled t domain s
  | .currentLimitEnd t channel => Sys2Proof.Machine.execCurrentLimitEnd t channel s
  | .tempSensorPlausible t sensor => Sys2Proof.Machine.execTempSensorPlausible t sensor s
  | .cycleStart => Sys2Proof.Machine.execCycleStart s
  | .correctionInterval => Sys2Proof.Machine.execCorrectionInterval s
  | .switchInstant => Sys2Proof.Machine.execSwitchInstant s
  | .messageWindowStart => Sys2Proof.Machine.execMessageWindowStart s
  | .dynBoundary => Sys2Proof.Machine.execDynBoundary s
  | .budgetWatchdog => Sys2Proof.Machine.execBudgetWatchdog s
  | .logClearDisarm => Sys2Proof.Machine.execLogClearDisarm s
  | .halt => Sys2Proof.Machine.execHalt s
  | .nop => Sys2Proof.Machine.execNop s
  | .illegalInstruction => Sys2Proof.Machine.execIllegalInstruction s
  | .ret => Sys2Proof.Machine.execRet s
  | .tnul => Sys2Proof.Machine.execTnul s
  | .limpApply => Sys2Proof.Machine.execLimpApply s

end Sys2Proof.Machine
end

