-- ==== Sys2Proof/Laws/State.lean ====
section
/-! SUPPORT. What the named updates of the state leave alone, field by field, and what a raised event changes. -/

namespace Sys2Proof.Machine

/-! ### `begin_` -/

@[simp] theorem begin_dev (t : Nat) (s : State) : (begin_ t s).dev = s.dev := rfl
@[simp] theorem begin_pwr (t : Nat) (s : State) : (begin_ t s).pwr = s.pwr := rfl
@[simp] theorem begin_hg (t : Nat) (s : State) : (begin_ t s).hg = s.hg := rfl
@[simp] theorem begin_tf (t : Nat) (s : State) : (begin_ t s).tf = s.tf := rfl
@[simp] theorem begin_vn (t : Nat) (s : State) : (begin_ t s).vn = s.vn := rfl
@[simp] theorem begin_eq (t : Nat) (s : State) : (begin_ t s).eq = s.eq := rfl
@[simp] theorem begin_pool (t : Nat) (s : State) : (begin_ t s).pool = s.pool := rfl
@[simp] theorem begin_sh (t : Nat) (s : State) : (begin_ t s).sh = s.sh := rfl
@[simp] theorem begin_ch (t : Nat) (s : State) : (begin_ t s).ch = s.ch := rfl
@[simp] theorem begin_ms (t : Nat) (s : State) : (begin_ t s).ms = s.ms := rfl
@[simp] theorem begin_bn (t : Nat) (s : State) : (begin_ t s).bn = s.bn := rfl
@[simp] theorem begin_cr (t : Nat) (s : State) : (begin_ t s).cr = s.cr := rfl
@[simp] theorem begin_gr (t : Nat) (s : State) : (begin_ t s).gr = s.gr := rfl
@[simp] theorem begin_nv (t : Nat) (s : State) : (begin_ t s).nv = s.nv := rfl
@[simp] theorem begin_lg (t : Nat) (s : State) : (begin_ t s).lg = s.lg := rfl
@[simp] theorem begin_rg (t : Nat) (s : State) : (begin_ t s).rg = s.rg := rfl
@[simp] theorem begin_free (t : Nat) (s : State) : (begin_ t s).free = s.free := rfl
@[simp] theorem begin_pending (t : Nat) (s : State) : (begin_ t s).pending = s.pending := rfl

/-! ### `emit` -/

@[simp] theorem emit_dev (x : TxItem) (s : State) : (emit x s).dev = s.dev := rfl
@[simp] theorem emit_pwr (x : TxItem) (s : State) : (emit x s).pwr = s.pwr := rfl
@[simp] theorem emit_cyc (x : TxItem) (s : State) : (emit x s).cyc = s.cyc := rfl
@[simp] theorem emit_hg (x : TxItem) (s : State) : (emit x s).hg = s.hg := rfl
@[simp] theorem emit_tf (x : TxItem) (s : State) : (emit x s).tf = s.tf := rfl
@[simp] theorem emit_vn (x : TxItem) (s : State) : (emit x s).vn = s.vn := rfl
@[simp] theorem emit_eq (x : TxItem) (s : State) : (emit x s).eq = s.eq := rfl
@[simp] theorem emit_pool (x : TxItem) (s : State) : (emit x s).pool = s.pool := rfl
@[simp] theorem emit_sh (x : TxItem) (s : State) : (emit x s).sh = s.sh := rfl
@[simp] theorem emit_ch (x : TxItem) (s : State) : (emit x s).ch = s.ch := rfl
@[simp] theorem emit_ms (x : TxItem) (s : State) : (emit x s).ms = s.ms := rfl
@[simp] theorem emit_bn (x : TxItem) (s : State) : (emit x s).bn = s.bn := rfl
@[simp] theorem emit_cr (x : TxItem) (s : State) : (emit x s).cr = s.cr := rfl
@[simp] theorem emit_gr (x : TxItem) (s : State) : (emit x s).gr = s.gr := rfl
@[simp] theorem emit_nv (x : TxItem) (s : State) : (emit x s).nv = s.nv := rfl
@[simp] theorem emit_lg (x : TxItem) (s : State) : (emit x s).lg = s.lg := rfl
@[simp] theorem emit_rg (x : TxItem) (s : State) : (emit x s).rg = s.rg := rfl
@[simp] theorem emit_free (x : TxItem) (s : State) : (emit x s).free = s.free := rfl
@[simp] theorem emit_pending (x : TxItem) (s : State) : (emit x s).pending = s.pending := rfl

/-! ### `drawn` -/

@[simp] theorem drawn_dev (s : State) : (drawn s).dev = s.dev := rfl
@[simp] theorem drawn_pwr (s : State) : (drawn s).pwr = s.pwr := rfl
@[simp] theorem drawn_cyc (s : State) : (drawn s).cyc = s.cyc := rfl
@[simp] theorem drawn_hg (s : State) : (drawn s).hg = s.hg := rfl
@[simp] theorem drawn_tf (s : State) : (drawn s).tf = s.tf := rfl
@[simp] theorem drawn_vn (s : State) : (drawn s).vn = s.vn := rfl
@[simp] theorem drawn_eq (s : State) : (drawn s).eq = s.eq := rfl
@[simp] theorem drawn_pool (s : State) : (drawn s).pool = s.pool := rfl
@[simp] theorem drawn_sh (s : State) : (drawn s).sh = s.sh := rfl
@[simp] theorem drawn_ch (s : State) : (drawn s).ch = s.ch := rfl
@[simp] theorem drawn_ms (s : State) : (drawn s).ms = s.ms := rfl
@[simp] theorem drawn_bn (s : State) : (drawn s).bn = s.bn := rfl
@[simp] theorem drawn_cr (s : State) : (drawn s).cr = s.cr := rfl
@[simp] theorem drawn_gr (s : State) : (drawn s).gr = s.gr := rfl
@[simp] theorem drawn_nv (s : State) : (drawn s).nv = s.nv := rfl
@[simp] theorem drawn_lg (s : State) : (drawn s).lg = s.lg := rfl
@[simp] theorem drawn_rg (s : State) : (drawn s).rg = s.rg := rfl
@[simp] theorem drawn_wire (s : State) : (drawn s).wire = s.wire := rfl
@[simp] theorem drawn_pending (s : State) : (drawn s).pending = s.pending := rfl

/-! ### `chanMod` -/

@[simp] theorem chanMod_dev (n : Nat) (f : Chan → Chan) (s : State) : (chanMod n f s).dev = s.dev := rfl
@[simp] theorem chanMod_pwr (n : Nat) (f : Chan → Chan) (s : State) : (chanMod n f s).pwr = s.pwr := rfl
@[simp] theorem chanMod_cyc (n : Nat) (f : Chan → Chan) (s : State) : (chanMod n f s).cyc = s.cyc := rfl
@[simp] theorem chanMod_hg (n : Nat) (f : Chan → Chan) (s : State) : (chanMod n f s).hg = s.hg := rfl
@[simp] theorem chanMod_tf (n : Nat) (f : Chan → Chan) (s : State) : (chanMod n f s).tf = s.tf := rfl
@[simp] theorem chanMod_vn (n : Nat) (f : Chan → Chan) (s : State) : (chanMod n f s).vn = s.vn := rfl
@[simp] theorem chanMod_eq (n : Nat) (f : Chan → Chan) (s : State) : (chanMod n f s).eq = s.eq := rfl
@[simp] theorem chanMod_pool (n : Nat) (f : Chan → Chan) (s : State) : (chanMod n f s).pool = s.pool := rfl
@[simp] theorem chanMod_sh (n : Nat) (f : Chan → Chan) (s : State) : (chanMod n f s).sh = s.sh := rfl
@[simp] theorem chanMod_ms (n : Nat) (f : Chan → Chan) (s : State) : (chanMod n f s).ms = s.ms := rfl
@[simp] theorem chanMod_bn (n : Nat) (f : Chan → Chan) (s : State) : (chanMod n f s).bn = s.bn := rfl
@[simp] theorem chanMod_cr (n : Nat) (f : Chan → Chan) (s : State) : (chanMod n f s).cr = s.cr := rfl
@[simp] theorem chanMod_gr (n : Nat) (f : Chan → Chan) (s : State) : (chanMod n f s).gr = s.gr := rfl
@[simp] theorem chanMod_nv (n : Nat) (f : Chan → Chan) (s : State) : (chanMod n f s).nv = s.nv := rfl
@[simp] theorem chanMod_lg (n : Nat) (f : Chan → Chan) (s : State) : (chanMod n f s).lg = s.lg := rfl
@[simp] theorem chanMod_rg (n : Nat) (f : Chan → Chan) (s : State) : (chanMod n f s).rg = s.rg := rfl
@[simp] theorem chanMod_wire (n : Nat) (f : Chan → Chan) (s : State) : (chanMod n f s).wire = s.wire := rfl
@[simp] theorem chanMod_free (n : Nat) (f : Chan → Chan) (s : State) : (chanMod n f s).free = s.free := rfl
@[simp] theorem chanMod_pending (n : Nat) (f : Chan → Chan) (s : State) : (chanMod n f s).pending = s.pending := rfl

/-! ### `brMod` -/

@[simp] theorem brMod_dev (b : Nat) (f : Branch → Branch) (s : State) : (brMod b f s).dev = s.dev := rfl
@[simp] theorem brMod_pwr (b : Nat) (f : Branch → Branch) (s : State) : (brMod b f s).pwr = s.pwr := rfl
@[simp] theorem brMod_cyc (b : Nat) (f : Branch → Branch) (s : State) : (brMod b f s).cyc = s.cyc := rfl
@[simp] theorem brMod_hg (b : Nat) (f : Branch → Branch) (s : State) : (brMod b f s).hg = s.hg := rfl
@[simp] theorem brMod_tf (b : Nat) (f : Branch → Branch) (s : State) : (brMod b f s).tf = s.tf := rfl
@[simp] theorem brMod_eq (b : Nat) (f : Branch → Branch) (s : State) : (brMod b f s).eq = s.eq := rfl
@[simp] theorem brMod_pool (b : Nat) (f : Branch → Branch) (s : State) : (brMod b f s).pool = s.pool := rfl
@[simp] theorem brMod_sh (b : Nat) (f : Branch → Branch) (s : State) : (brMod b f s).sh = s.sh := rfl
@[simp] theorem brMod_ch (b : Nat) (f : Branch → Branch) (s : State) : (brMod b f s).ch = s.ch := rfl
@[simp] theorem brMod_ms (b : Nat) (f : Branch → Branch) (s : State) : (brMod b f s).ms = s.ms := rfl
@[simp] theorem brMod_bn (b : Nat) (f : Branch → Branch) (s : State) : (brMod b f s).bn = s.bn := rfl
@[simp] theorem brMod_cr (b : Nat) (f : Branch → Branch) (s : State) : (brMod b f s).cr = s.cr := rfl
@[simp] theorem brMod_gr (b : Nat) (f : Branch → Branch) (s : State) : (brMod b f s).gr = s.gr := rfl
@[simp] theorem brMod_nv (b : Nat) (f : Branch → Branch) (s : State) : (brMod b f s).nv = s.nv := rfl
@[simp] theorem brMod_lg (b : Nat) (f : Branch → Branch) (s : State) : (brMod b f s).lg = s.lg := rfl
@[simp] theorem brMod_rg (b : Nat) (f : Branch → Branch) (s : State) : (brMod b f s).rg = s.rg := rfl
@[simp] theorem brMod_wire (b : Nat) (f : Branch → Branch) (s : State) : (brMod b f s).wire = s.wire := rfl
@[simp] theorem brMod_free (b : Nat) (f : Branch → Branch) (s : State) : (brMod b f s).free = s.free := rfl
@[simp] theorem brMod_pending (b : Nat) (f : Branch → Branch) (s : State) : (brMod b f s).pending = s.pending := rfl

/-! ### `slotMod` -/

@[simp] theorem slotMod_dev (k : Nat) (f : SlotTx → SlotTx) (s : State) : (slotMod k f s).dev = s.dev := rfl
@[simp] theorem slotMod_pwr (k : Nat) (f : SlotTx → SlotTx) (s : State) : (slotMod k f s).pwr = s.pwr := rfl
@[simp] theorem slotMod_cyc (k : Nat) (f : SlotTx → SlotTx) (s : State) : (slotMod k f s).cyc = s.cyc := rfl
@[simp] theorem slotMod_hg (k : Nat) (f : SlotTx → SlotTx) (s : State) : (slotMod k f s).hg = s.hg := rfl
@[simp] theorem slotMod_tf (k : Nat) (f : SlotTx → SlotTx) (s : State) : (slotMod k f s).tf = s.tf := rfl
@[simp] theorem slotMod_eq (k : Nat) (f : SlotTx → SlotTx) (s : State) : (slotMod k f s).eq = s.eq := rfl
@[simp] theorem slotMod_pool (k : Nat) (f : SlotTx → SlotTx) (s : State) : (slotMod k f s).pool = s.pool := rfl
@[simp] theorem slotMod_sh (k : Nat) (f : SlotTx → SlotTx) (s : State) : (slotMod k f s).sh = s.sh := rfl
@[simp] theorem slotMod_ch (k : Nat) (f : SlotTx → SlotTx) (s : State) : (slotMod k f s).ch = s.ch := rfl
@[simp] theorem slotMod_ms (k : Nat) (f : SlotTx → SlotTx) (s : State) : (slotMod k f s).ms = s.ms := rfl
@[simp] theorem slotMod_bn (k : Nat) (f : SlotTx → SlotTx) (s : State) : (slotMod k f s).bn = s.bn := rfl
@[simp] theorem slotMod_cr (k : Nat) (f : SlotTx → SlotTx) (s : State) : (slotMod k f s).cr = s.cr := rfl
@[simp] theorem slotMod_gr (k : Nat) (f : SlotTx → SlotTx) (s : State) : (slotMod k f s).gr = s.gr := rfl
@[simp] theorem slotMod_nv (k : Nat) (f : SlotTx → SlotTx) (s : State) : (slotMod k f s).nv = s.nv := rfl
@[simp] theorem slotMod_lg (k : Nat) (f : SlotTx → SlotTx) (s : State) : (slotMod k f s).lg = s.lg := rfl
@[simp] theorem slotMod_rg (k : Nat) (f : SlotTx → SlotTx) (s : State) : (slotMod k f s).rg = s.rg := rfl
@[simp] theorem slotMod_wire (k : Nat) (f : SlotTx → SlotTx) (s : State) : (slotMod k f s).wire = s.wire := rfl
@[simp] theorem slotMod_free (k : Nat) (f : SlotTx → SlotTx) (s : State) : (slotMod k f s).free = s.free := rfl
@[simp] theorem slotMod_pending (k : Nat) (f : SlotTx → SlotTx) (s : State) : (slotMod k f s).pending = s.pending := rfl

/-! ### `eqMod` -/

@[simp] theorem eqMod_dev (n : Nat) (f : EqPort → EqPort) (s : State) : (eqMod n f s).dev = s.dev := rfl
@[simp] theorem eqMod_pwr (n : Nat) (f : EqPort → EqPort) (s : State) : (eqMod n f s).pwr = s.pwr := rfl
@[simp] theorem eqMod_cyc (n : Nat) (f : EqPort → EqPort) (s : State) : (eqMod n f s).cyc = s.cyc := rfl
@[simp] theorem eqMod_hg (n : Nat) (f : EqPort → EqPort) (s : State) : (eqMod n f s).hg = s.hg := rfl
@[simp] theorem eqMod_tf (n : Nat) (f : EqPort → EqPort) (s : State) : (eqMod n f s).tf = s.tf := rfl
@[simp] theorem eqMod_vn (n : Nat) (f : EqPort → EqPort) (s : State) : (eqMod n f s).vn = s.vn := rfl
@[simp] theorem eqMod_pool (n : Nat) (f : EqPort → EqPort) (s : State) : (eqMod n f s).pool = s.pool := rfl
@[simp] theorem eqMod_sh (n : Nat) (f : EqPort → EqPort) (s : State) : (eqMod n f s).sh = s.sh := rfl
@[simp] theorem eqMod_ch (n : Nat) (f : EqPort → EqPort) (s : State) : (eqMod n f s).ch = s.ch := rfl
@[simp] theorem eqMod_ms (n : Nat) (f : EqPort → EqPort) (s : State) : (eqMod n f s).ms = s.ms := rfl
@[simp] theorem eqMod_bn (n : Nat) (f : EqPort → EqPort) (s : State) : (eqMod n f s).bn = s.bn := rfl
@[simp] theorem eqMod_cr (n : Nat) (f : EqPort → EqPort) (s : State) : (eqMod n f s).cr = s.cr := rfl
@[simp] theorem eqMod_gr (n : Nat) (f : EqPort → EqPort) (s : State) : (eqMod n f s).gr = s.gr := rfl
@[simp] theorem eqMod_nv (n : Nat) (f : EqPort → EqPort) (s : State) : (eqMod n f s).nv = s.nv := rfl
@[simp] theorem eqMod_lg (n : Nat) (f : EqPort → EqPort) (s : State) : (eqMod n f s).lg = s.lg := rfl
@[simp] theorem eqMod_rg (n : Nat) (f : EqPort → EqPort) (s : State) : (eqMod n f s).rg = s.rg := rfl
@[simp] theorem eqMod_wire (n : Nat) (f : EqPort → EqPort) (s : State) : (eqMod n f s).wire = s.wire := rfl
@[simp] theorem eqMod_free (n : Nat) (f : EqPort → EqPort) (s : State) : (eqMod n f s).free = s.free := rfl
@[simp] theorem eqMod_pending (n : Nat) (f : EqPort → EqPort) (s : State) : (eqMod n f s).pending = s.pending := rfl

/-! ### `bufMod` -/

@[simp] theorem bufMod_dev (b : Nat) (f : Buf → Buf) (s : State) : (bufMod b f s).dev = s.dev := rfl
@[simp] theorem bufMod_pwr (b : Nat) (f : Buf → Buf) (s : State) : (bufMod b f s).pwr = s.pwr := rfl
@[simp] theorem bufMod_cyc (b : Nat) (f : Buf → Buf) (s : State) : (bufMod b f s).cyc = s.cyc := rfl
@[simp] theorem bufMod_hg (b : Nat) (f : Buf → Buf) (s : State) : (bufMod b f s).hg = s.hg := rfl
@[simp] theorem bufMod_tf (b : Nat) (f : Buf → Buf) (s : State) : (bufMod b f s).tf = s.tf := rfl
@[simp] theorem bufMod_vn (b : Nat) (f : Buf → Buf) (s : State) : (bufMod b f s).vn = s.vn := rfl
@[simp] theorem bufMod_eq (b : Nat) (f : Buf → Buf) (s : State) : (bufMod b f s).eq = s.eq := rfl
@[simp] theorem bufMod_sh (b : Nat) (f : Buf → Buf) (s : State) : (bufMod b f s).sh = s.sh := rfl
@[simp] theorem bufMod_ch (b : Nat) (f : Buf → Buf) (s : State) : (bufMod b f s).ch = s.ch := rfl
@[simp] theorem bufMod_ms (b : Nat) (f : Buf → Buf) (s : State) : (bufMod b f s).ms = s.ms := rfl
@[simp] theorem bufMod_bn (b : Nat) (f : Buf → Buf) (s : State) : (bufMod b f s).bn = s.bn := rfl
@[simp] theorem bufMod_cr (b : Nat) (f : Buf → Buf) (s : State) : (bufMod b f s).cr = s.cr := rfl
@[simp] theorem bufMod_gr (b : Nat) (f : Buf → Buf) (s : State) : (bufMod b f s).gr = s.gr := rfl
@[simp] theorem bufMod_nv (b : Nat) (f : Buf → Buf) (s : State) : (bufMod b f s).nv = s.nv := rfl
@[simp] theorem bufMod_lg (b : Nat) (f : Buf → Buf) (s : State) : (bufMod b f s).lg = s.lg := rfl
@[simp] theorem bufMod_rg (b : Nat) (f : Buf → Buf) (s : State) : (bufMod b f s).rg = s.rg := rfl
@[simp] theorem bufMod_wire (b : Nat) (f : Buf → Buf) (s : State) : (bufMod b f s).wire = s.wire := rfl
@[simp] theorem bufMod_free (b : Nat) (f : Buf → Buf) (s : State) : (bufMod b f s).free = s.free := rfl
@[simp] theorem bufMod_pending (b : Nat) (f : Buf → Buf) (s : State) : (bufMod b f s).pending = s.pending := rfl

/-! ### `poolSticky` -/

@[simp] theorem poolSticky_dev (k : Nat) (s : State) : (poolSticky k s).dev = s.dev := rfl
@[simp] theorem poolSticky_pwr (k : Nat) (s : State) : (poolSticky k s).pwr = s.pwr := rfl
@[simp] theorem poolSticky_cyc (k : Nat) (s : State) : (poolSticky k s).cyc = s.cyc := rfl
@[simp] theorem poolSticky_hg (k : Nat) (s : State) : (poolSticky k s).hg = s.hg := rfl
@[simp] theorem poolSticky_tf (k : Nat) (s : State) : (poolSticky k s).tf = s.tf := rfl
@[simp] theorem poolSticky_vn (k : Nat) (s : State) : (poolSticky k s).vn = s.vn := rfl
@[simp] theorem poolSticky_eq (k : Nat) (s : State) : (poolSticky k s).eq = s.eq := rfl
@[simp] theorem poolSticky_sh (k : Nat) (s : State) : (poolSticky k s).sh = s.sh := rfl
@[simp] theorem poolSticky_ch (k : Nat) (s : State) : (poolSticky k s).ch = s.ch := rfl
@[simp] theorem poolSticky_ms (k : Nat) (s : State) : (poolSticky k s).ms = s.ms := rfl
@[simp] theorem poolSticky_bn (k : Nat) (s : State) : (poolSticky k s).bn = s.bn := rfl
@[simp] theorem poolSticky_cr (k : Nat) (s : State) : (poolSticky k s).cr = s.cr := rfl
@[simp] theorem poolSticky_gr (k : Nat) (s : State) : (poolSticky k s).gr = s.gr := rfl
@[simp] theorem poolSticky_nv (k : Nat) (s : State) : (poolSticky k s).nv = s.nv := rfl
@[simp] theorem poolSticky_lg (k : Nat) (s : State) : (poolSticky k s).lg = s.lg := rfl
@[simp] theorem poolSticky_rg (k : Nat) (s : State) : (poolSticky k s).rg = s.rg := rfl
@[simp] theorem poolSticky_wire (k : Nat) (s : State) : (poolSticky k s).wire = s.wire := rfl
@[simp] theorem poolSticky_free (k : Nat) (s : State) : (poolSticky k s).free = s.free := rfl
@[simp] theorem poolSticky_pending (k : Nat) (s : State) : (poolSticky k s).pending = s.pending := rfl

/-! ### `hpMod` -/

@[simp] theorem hpMod_dev (p : Nat) (f : HgPort → HgPort) (s : State) : (hpMod p f s).dev = s.dev := rfl
@[simp] theorem hpMod_pwr (p : Nat) (f : HgPort → HgPort) (s : State) : (hpMod p f s).pwr = s.pwr := rfl
@[simp] theorem hpMod_cyc (p : Nat) (f : HgPort → HgPort) (s : State) : (hpMod p f s).cyc = s.cyc := rfl
@[simp] theorem hpMod_tf (p : Nat) (f : HgPort → HgPort) (s : State) : (hpMod p f s).tf = s.tf := rfl
@[simp] theorem hpMod_vn (p : Nat) (f : HgPort → HgPort) (s : State) : (hpMod p f s).vn = s.vn := rfl
@[simp] theorem hpMod_eq (p : Nat) (f : HgPort → HgPort) (s : State) : (hpMod p f s).eq = s.eq := rfl
@[simp] theorem hpMod_pool (p : Nat) (f : HgPort → HgPort) (s : State) : (hpMod p f s).pool = s.pool := rfl
@[simp] theorem hpMod_sh (p : Nat) (f : HgPort → HgPort) (s : State) : (hpMod p f s).sh = s.sh := rfl
@[simp] theorem hpMod_ch (p : Nat) (f : HgPort → HgPort) (s : State) : (hpMod p f s).ch = s.ch := rfl
@[simp] theorem hpMod_ms (p : Nat) (f : HgPort → HgPort) (s : State) : (hpMod p f s).ms = s.ms := rfl
@[simp] theorem hpMod_bn (p : Nat) (f : HgPort → HgPort) (s : State) : (hpMod p f s).bn = s.bn := rfl
@[simp] theorem hpMod_cr (p : Nat) (f : HgPort → HgPort) (s : State) : (hpMod p f s).cr = s.cr := rfl
@[simp] theorem hpMod_gr (p : Nat) (f : HgPort → HgPort) (s : State) : (hpMod p f s).gr = s.gr := rfl
@[simp] theorem hpMod_nv (p : Nat) (f : HgPort → HgPort) (s : State) : (hpMod p f s).nv = s.nv := rfl
@[simp] theorem hpMod_lg (p : Nat) (f : HgPort → HgPort) (s : State) : (hpMod p f s).lg = s.lg := rfl
@[simp] theorem hpMod_rg (p : Nat) (f : HgPort → HgPort) (s : State) : (hpMod p f s).rg = s.rg := rfl
@[simp] theorem hpMod_wire (p : Nat) (f : HgPort → HgPort) (s : State) : (hpMod p f s).wire = s.wire := rfl
@[simp] theorem hpMod_free (p : Nat) (f : HgPort → HgPort) (s : State) : (hpMod p f s).free = s.free := rfl
@[simp] theorem hpMod_pending (p : Nat) (f : HgPort → HgPort) (s : State) : (hpMod p f s).pending = s.pending := rfl

/-! ### `portTx` -/

@[simp] theorem portTx_dev (p : Nat) (x : PortTx) (s : State) : (portTx p x s).dev = s.dev := rfl
@[simp] theorem portTx_pwr (p : Nat) (x : PortTx) (s : State) : (portTx p x s).pwr = s.pwr := rfl
@[simp] theorem portTx_cyc (p : Nat) (x : PortTx) (s : State) : (portTx p x s).cyc = s.cyc := rfl
@[simp] theorem portTx_hg (p : Nat) (x : PortTx) (s : State) : (portTx p x s).hg = s.hg := rfl
@[simp] theorem portTx_vn (p : Nat) (x : PortTx) (s : State) : (portTx p x s).vn = s.vn := rfl
@[simp] theorem portTx_eq (p : Nat) (x : PortTx) (s : State) : (portTx p x s).eq = s.eq := rfl
@[simp] theorem portTx_pool (p : Nat) (x : PortTx) (s : State) : (portTx p x s).pool = s.pool := rfl
@[simp] theorem portTx_sh (p : Nat) (x : PortTx) (s : State) : (portTx p x s).sh = s.sh := rfl
@[simp] theorem portTx_ch (p : Nat) (x : PortTx) (s : State) : (portTx p x s).ch = s.ch := rfl
@[simp] theorem portTx_ms (p : Nat) (x : PortTx) (s : State) : (portTx p x s).ms = s.ms := rfl
@[simp] theorem portTx_bn (p : Nat) (x : PortTx) (s : State) : (portTx p x s).bn = s.bn := rfl
@[simp] theorem portTx_cr (p : Nat) (x : PortTx) (s : State) : (portTx p x s).cr = s.cr := rfl
@[simp] theorem portTx_gr (p : Nat) (x : PortTx) (s : State) : (portTx p x s).gr = s.gr := rfl
@[simp] theorem portTx_nv (p : Nat) (x : PortTx) (s : State) : (portTx p x s).nv = s.nv := rfl
@[simp] theorem portTx_lg (p : Nat) (x : PortTx) (s : State) : (portTx p x s).lg = s.lg := rfl
@[simp] theorem portTx_rg (p : Nat) (x : PortTx) (s : State) : (portTx p x s).rg = s.rg := rfl
@[simp] theorem portTx_wire (p : Nat) (x : PortTx) (s : State) : (portTx p x s).wire = s.wire := rfl
@[simp] theorem portTx_free (p : Nat) (x : PortTx) (s : State) : (portTx p x s).free = s.free := rfl
@[simp] theorem portTx_pending (p : Nat) (x : PortTx) (s : State) : (portTx p x s).pending = s.pending := rfl

/-! ### `bankMod` -/

@[simp] theorem bankMod_dev (p : Path) (f : CmdBank → CmdBank) (s : State) : (bankMod p f s).dev = s.dev := rfl
@[simp] theorem bankMod_pwr (p : Path) (f : CmdBank → CmdBank) (s : State) : (bankMod p f s).pwr = s.pwr := rfl
@[simp] theorem bankMod_cyc (p : Path) (f : CmdBank → CmdBank) (s : State) : (bankMod p f s).cyc = s.cyc := rfl
@[simp] theorem bankMod_hg (p : Path) (f : CmdBank → CmdBank) (s : State) : (bankMod p f s).hg = s.hg := rfl
@[simp] theorem bankMod_tf (p : Path) (f : CmdBank → CmdBank) (s : State) : (bankMod p f s).tf = s.tf := rfl
@[simp] theorem bankMod_vn (p : Path) (f : CmdBank → CmdBank) (s : State) : (bankMod p f s).vn = s.vn := rfl
@[simp] theorem bankMod_eq (p : Path) (f : CmdBank → CmdBank) (s : State) : (bankMod p f s).eq = s.eq := rfl
@[simp] theorem bankMod_pool (p : Path) (f : CmdBank → CmdBank) (s : State) : (bankMod p f s).pool = s.pool := rfl
@[simp] theorem bankMod_sh (p : Path) (f : CmdBank → CmdBank) (s : State) : (bankMod p f s).sh = s.sh := rfl
@[simp] theorem bankMod_ch (p : Path) (f : CmdBank → CmdBank) (s : State) : (bankMod p f s).ch = s.ch := rfl
@[simp] theorem bankMod_ms (p : Path) (f : CmdBank → CmdBank) (s : State) : (bankMod p f s).ms = s.ms := rfl
@[simp] theorem bankMod_bn (p : Path) (f : CmdBank → CmdBank) (s : State) : (bankMod p f s).bn = s.bn := rfl
@[simp] theorem bankMod_cr (p : Path) (f : CmdBank → CmdBank) (s : State) : (bankMod p f s).cr = s.cr := rfl
@[simp] theorem bankMod_gr (p : Path) (f : CmdBank → CmdBank) (s : State) : (bankMod p f s).gr = s.gr := rfl
@[simp] theorem bankMod_nv (p : Path) (f : CmdBank → CmdBank) (s : State) : (bankMod p f s).nv = s.nv := rfl
@[simp] theorem bankMod_lg (p : Path) (f : CmdBank → CmdBank) (s : State) : (bankMod p f s).lg = s.lg := rfl
@[simp] theorem bankMod_wire (p : Path) (f : CmdBank → CmdBank) (s : State) : (bankMod p f s).wire = s.wire := rfl
@[simp] theorem bankMod_free (p : Path) (f : CmdBank → CmdBank) (s : State) : (bankMod p f s).free = s.free := rfl
@[simp] theorem bankMod_pending (p : Path) (f : CmdBank → CmdBank) (s : State) : (bankMod p f s).pending = s.pending := rfl

/-! ### `drawerMod` -/

@[simp] theorem drawerMod_dev (n : Nat) (f : Drawer → Drawer) (s : State) : (drawerMod n f s).dev = s.dev := rfl
@[simp] theorem drawerMod_pwr (n : Nat) (f : Drawer → Drawer) (s : State) : (drawerMod n f s).pwr = s.pwr := rfl
@[simp] theorem drawerMod_cyc (n : Nat) (f : Drawer → Drawer) (s : State) : (drawerMod n f s).cyc = s.cyc := rfl
@[simp] theorem drawerMod_hg (n : Nat) (f : Drawer → Drawer) (s : State) : (drawerMod n f s).hg = s.hg := rfl
@[simp] theorem drawerMod_tf (n : Nat) (f : Drawer → Drawer) (s : State) : (drawerMod n f s).tf = s.tf := rfl
@[simp] theorem drawerMod_vn (n : Nat) (f : Drawer → Drawer) (s : State) : (drawerMod n f s).vn = s.vn := rfl
@[simp] theorem drawerMod_eq (n : Nat) (f : Drawer → Drawer) (s : State) : (drawerMod n f s).eq = s.eq := rfl
@[simp] theorem drawerMod_pool (n : Nat) (f : Drawer → Drawer) (s : State) : (drawerMod n f s).pool = s.pool := rfl
@[simp] theorem drawerMod_sh (n : Nat) (f : Drawer → Drawer) (s : State) : (drawerMod n f s).sh = s.sh := rfl
@[simp] theorem drawerMod_ch (n : Nat) (f : Drawer → Drawer) (s : State) : (drawerMod n f s).ch = s.ch := rfl
@[simp] theorem drawerMod_ms (n : Nat) (f : Drawer → Drawer) (s : State) : (drawerMod n f s).ms = s.ms := rfl
@[simp] theorem drawerMod_bn (n : Nat) (f : Drawer → Drawer) (s : State) : (drawerMod n f s).bn = s.bn := rfl
@[simp] theorem drawerMod_cr (n : Nat) (f : Drawer → Drawer) (s : State) : (drawerMod n f s).cr = s.cr := rfl
@[simp] theorem drawerMod_gr (n : Nat) (f : Drawer → Drawer) (s : State) : (drawerMod n f s).gr = s.gr := rfl
@[simp] theorem drawerMod_nv (n : Nat) (f : Drawer → Drawer) (s : State) : (drawerMod n f s).nv = s.nv := rfl
@[simp] theorem drawerMod_lg (n : Nat) (f : Drawer → Drawer) (s : State) : (drawerMod n f s).lg = s.lg := rfl
@[simp] theorem drawerMod_wire (n : Nat) (f : Drawer → Drawer) (s : State) : (drawerMod n f s).wire = s.wire := rfl
@[simp] theorem drawerMod_free (n : Nat) (f : Drawer → Drawer) (s : State) : (drawerMod n f s).free = s.free := rfl
@[simp] theorem drawerMod_pending (n : Nat) (f : Drawer → Drawer) (s : State) : (drawerMod n f s).pending = s.pending := rfl

/-! ### `jobMod` -/

@[simp] theorem jobMod_dev (f : NvJob → NvJob) (s : State) : (jobMod f s).dev = s.dev := rfl
@[simp] theorem jobMod_pwr (f : NvJob → NvJob) (s : State) : (jobMod f s).pwr = s.pwr := rfl
@[simp] theorem jobMod_cyc (f : NvJob → NvJob) (s : State) : (jobMod f s).cyc = s.cyc := rfl
@[simp] theorem jobMod_hg (f : NvJob → NvJob) (s : State) : (jobMod f s).hg = s.hg := rfl
@[simp] theorem jobMod_tf (f : NvJob → NvJob) (s : State) : (jobMod f s).tf = s.tf := rfl
@[simp] theorem jobMod_vn (f : NvJob → NvJob) (s : State) : (jobMod f s).vn = s.vn := rfl
@[simp] theorem jobMod_eq (f : NvJob → NvJob) (s : State) : (jobMod f s).eq = s.eq := rfl
@[simp] theorem jobMod_pool (f : NvJob → NvJob) (s : State) : (jobMod f s).pool = s.pool := rfl
@[simp] theorem jobMod_sh (f : NvJob → NvJob) (s : State) : (jobMod f s).sh = s.sh := rfl
@[simp] theorem jobMod_ch (f : NvJob → NvJob) (s : State) : (jobMod f s).ch = s.ch := rfl
@[simp] theorem jobMod_ms (f : NvJob → NvJob) (s : State) : (jobMod f s).ms = s.ms := rfl
@[simp] theorem jobMod_bn (f : NvJob → NvJob) (s : State) : (jobMod f s).bn = s.bn := rfl
@[simp] theorem jobMod_cr (f : NvJob → NvJob) (s : State) : (jobMod f s).cr = s.cr := rfl
@[simp] theorem jobMod_gr (f : NvJob → NvJob) (s : State) : (jobMod f s).gr = s.gr := rfl
@[simp] theorem jobMod_lg (f : NvJob → NvJob) (s : State) : (jobMod f s).lg = s.lg := rfl
@[simp] theorem jobMod_rg (f : NvJob → NvJob) (s : State) : (jobMod f s).rg = s.rg := rfl
@[simp] theorem jobMod_wire (f : NvJob → NvJob) (s : State) : (jobMod f s).wire = s.wire := rfl
@[simp] theorem jobMod_free (f : NvJob → NvJob) (s : State) : (jobMod f s).free = s.free := rfl
@[simp] theorem jobMod_pending (f : NvJob → NvJob) (s : State) : (jobMod f s).pending = s.pending := rfl

/-! ### `entryUpdate` -/

@[simp] theorem entryUpdate_dev (q : Word) (f : JEntry → JEntry) (s : State) : (entryUpdate q f s).dev = s.dev := rfl
@[simp] theorem entryUpdate_pwr (q : Word) (f : JEntry → JEntry) (s : State) : (entryUpdate q f s).pwr = s.pwr := rfl
@[simp] theorem entryUpdate_cyc (q : Word) (f : JEntry → JEntry) (s : State) : (entryUpdate q f s).cyc = s.cyc := rfl
@[simp] theorem entryUpdate_hg (q : Word) (f : JEntry → JEntry) (s : State) : (entryUpdate q f s).hg = s.hg := rfl
@[simp] theorem entryUpdate_tf (q : Word) (f : JEntry → JEntry) (s : State) : (entryUpdate q f s).tf = s.tf := rfl
@[simp] theorem entryUpdate_vn (q : Word) (f : JEntry → JEntry) (s : State) : (entryUpdate q f s).vn = s.vn := rfl
@[simp] theorem entryUpdate_eq (q : Word) (f : JEntry → JEntry) (s : State) : (entryUpdate q f s).eq = s.eq := rfl
@[simp] theorem entryUpdate_pool (q : Word) (f : JEntry → JEntry) (s : State) : (entryUpdate q f s).pool = s.pool := rfl
@[simp] theorem entryUpdate_sh (q : Word) (f : JEntry → JEntry) (s : State) : (entryUpdate q f s).sh = s.sh := rfl
@[simp] theorem entryUpdate_ch (q : Word) (f : JEntry → JEntry) (s : State) : (entryUpdate q f s).ch = s.ch := rfl
@[simp] theorem entryUpdate_ms (q : Word) (f : JEntry → JEntry) (s : State) : (entryUpdate q f s).ms = s.ms := rfl
@[simp] theorem entryUpdate_bn (q : Word) (f : JEntry → JEntry) (s : State) : (entryUpdate q f s).bn = s.bn := rfl
@[simp] theorem entryUpdate_cr (q : Word) (f : JEntry → JEntry) (s : State) : (entryUpdate q f s).cr = s.cr := rfl
@[simp] theorem entryUpdate_gr (q : Word) (f : JEntry → JEntry) (s : State) : (entryUpdate q f s).gr = s.gr := rfl
@[simp] theorem entryUpdate_nv (q : Word) (f : JEntry → JEntry) (s : State) : (entryUpdate q f s).nv = s.nv := rfl
@[simp] theorem entryUpdate_rg (q : Word) (f : JEntry → JEntry) (s : State) : (entryUpdate q f s).rg = s.rg := rfl
@[simp] theorem entryUpdate_wire (q : Word) (f : JEntry → JEntry) (s : State) : (entryUpdate q f s).wire = s.wire := rfl
@[simp] theorem entryUpdate_free (q : Word) (f : JEntry → JEntry) (s : State) : (entryUpdate q f s).free = s.free := rfl
@[simp] theorem entryUpdate_pending (q : Word) (f : JEntry → JEntry) (s : State) : (entryUpdate q f s).pending = s.pending := rfl

/-! ### `clsPut` -/

@[simp] theorem clsPut_dev (f : Classify → Classify) (s : State) : (clsPut f s).dev = s.dev := rfl
@[simp] theorem clsPut_pwr (f : Classify → Classify) (s : State) : (clsPut f s).pwr = s.pwr := rfl
@[simp] theorem clsPut_cyc (f : Classify → Classify) (s : State) : (clsPut f s).cyc = s.cyc := rfl
@[simp] theorem clsPut_hg (f : Classify → Classify) (s : State) : (clsPut f s).hg = s.hg := rfl
@[simp] theorem clsPut_tf (f : Classify → Classify) (s : State) : (clsPut f s).tf = s.tf := rfl
@[simp] theorem clsPut_vn (f : Classify → Classify) (s : State) : (clsPut f s).vn = s.vn := rfl
@[simp] theorem clsPut_eq (f : Classify → Classify) (s : State) : (clsPut f s).eq = s.eq := rfl
@[simp] theorem clsPut_pool (f : Classify → Classify) (s : State) : (clsPut f s).pool = s.pool := rfl
@[simp] theorem clsPut_sh (f : Classify → Classify) (s : State) : (clsPut f s).sh = s.sh := rfl
@[simp] theorem clsPut_ch (f : Classify → Classify) (s : State) : (clsPut f s).ch = s.ch := rfl
@[simp] theorem clsPut_bn (f : Classify → Classify) (s : State) : (clsPut f s).bn = s.bn := rfl
@[simp] theorem clsPut_cr (f : Classify → Classify) (s : State) : (clsPut f s).cr = s.cr := rfl
@[simp] theorem clsPut_gr (f : Classify → Classify) (s : State) : (clsPut f s).gr = s.gr := rfl
@[simp] theorem clsPut_nv (f : Classify → Classify) (s : State) : (clsPut f s).nv = s.nv := rfl
@[simp] theorem clsPut_lg (f : Classify → Classify) (s : State) : (clsPut f s).lg = s.lg := rfl
@[simp] theorem clsPut_rg (f : Classify → Classify) (s : State) : (clsPut f s).rg = s.rg := rfl
@[simp] theorem clsPut_wire (f : Classify → Classify) (s : State) : (clsPut f s).wire = s.wire := rfl
@[simp] theorem clsPut_free (f : Classify → Classify) (s : State) : (clsPut f s).free = s.free := rfl
@[simp] theorem clsPut_pending (f : Classify → Classify) (s : State) : (clsPut f s).pending = s.pending := rfl

/-! ### `planSwitch` -/

@[simp] theorem planSwitch_dev (d : Nat) (l : Level) (s : State) : (planSwitch d l s).dev = s.dev := rfl
@[simp] theorem planSwitch_cyc (d : Nat) (l : Level) (s : State) : (planSwitch d l s).cyc = s.cyc := rfl
@[simp] theorem planSwitch_hg (d : Nat) (l : Level) (s : State) : (planSwitch d l s).hg = s.hg := rfl
@[simp] theorem planSwitch_tf (d : Nat) (l : Level) (s : State) : (planSwitch d l s).tf = s.tf := rfl
@[simp] theorem planSwitch_vn (d : Nat) (l : Level) (s : State) : (planSwitch d l s).vn = s.vn := rfl
@[simp] theorem planSwitch_eq (d : Nat) (l : Level) (s : State) : (planSwitch d l s).eq = s.eq := rfl
@[simp] theorem planSwitch_pool (d : Nat) (l : Level) (s : State) : (planSwitch d l s).pool = s.pool := rfl
@[simp] theorem planSwitch_sh (d : Nat) (l : Level) (s : State) : (planSwitch d l s).sh = s.sh := rfl
@[simp] theorem planSwitch_ch (d : Nat) (l : Level) (s : State) : (planSwitch d l s).ch = s.ch := rfl
@[simp] theorem planSwitch_ms (d : Nat) (l : Level) (s : State) : (planSwitch d l s).ms = s.ms := rfl
@[simp] theorem planSwitch_bn (d : Nat) (l : Level) (s : State) : (planSwitch d l s).bn = s.bn := rfl
@[simp] theorem planSwitch_cr (d : Nat) (l : Level) (s : State) : (planSwitch d l s).cr = s.cr := rfl
@[simp] theorem planSwitch_gr (d : Nat) (l : Level) (s : State) : (planSwitch d l s).gr = s.gr := rfl
@[simp] theorem planSwitch_nv (d : Nat) (l : Level) (s : State) : (planSwitch d l s).nv = s.nv := rfl
@[simp] theorem planSwitch_lg (d : Nat) (l : Level) (s : State) : (planSwitch d l s).lg = s.lg := rfl
@[simp] theorem planSwitch_rg (d : Nat) (l : Level) (s : State) : (planSwitch d l s).rg = s.rg := rfl
@[simp] theorem planSwitch_wire (d : Nat) (l : Level) (s : State) : (planSwitch d l s).wire = s.wire := rfl
@[simp] theorem planSwitch_free (d : Nat) (l : Level) (s : State) : (planSwitch d l s).free = s.free := rfl
@[simp] theorem planSwitch_pending (d : Nat) (l : Level) (s : State) : (planSwitch d l s).pending = s.pending := rfl

/-! ### `driveA` -/

@[simp] theorem driveA_dev (on : Bool) (s : State) : (driveA on s).dev = s.dev := rfl
@[simp] theorem driveA_cyc (on : Bool) (s : State) : (driveA on s).cyc = s.cyc := rfl
@[simp] theorem driveA_hg (on : Bool) (s : State) : (driveA on s).hg = s.hg := rfl
@[simp] theorem driveA_tf (on : Bool) (s : State) : (driveA on s).tf = s.tf := rfl
@[simp] theorem driveA_vn (on : Bool) (s : State) : (driveA on s).vn = s.vn := rfl
@[simp] theorem driveA_eq (on : Bool) (s : State) : (driveA on s).eq = s.eq := rfl
@[simp] theorem driveA_pool (on : Bool) (s : State) : (driveA on s).pool = s.pool := rfl
@[simp] theorem driveA_sh (on : Bool) (s : State) : (driveA on s).sh = s.sh := rfl
@[simp] theorem driveA_ch (on : Bool) (s : State) : (driveA on s).ch = s.ch := rfl
@[simp] theorem driveA_ms (on : Bool) (s : State) : (driveA on s).ms = s.ms := rfl
@[simp] theorem driveA_bn (on : Bool) (s : State) : (driveA on s).bn = s.bn := rfl
@[simp] theorem driveA_cr (on : Bool) (s : State) : (driveA on s).cr = s.cr := rfl
@[simp] theorem driveA_gr (on : Bool) (s : State) : (driveA on s).gr = s.gr := rfl
@[simp] theorem driveA_nv (on : Bool) (s : State) : (driveA on s).nv = s.nv := rfl
@[simp] theorem driveA_lg (on : Bool) (s : State) : (driveA on s).lg = s.lg := rfl
@[simp] theorem driveA_rg (on : Bool) (s : State) : (driveA on s).rg = s.rg := rfl
@[simp] theorem driveA_wire (on : Bool) (s : State) : (driveA on s).wire = s.wire := rfl
@[simp] theorem driveA_free (on : Bool) (s : State) : (driveA on s).free = s.free := rfl
@[simp] theorem driveA_pending (on : Bool) (s : State) : (driveA on s).pending = s.pending := rfl

/-! ### `driveB` -/

@[simp] theorem driveB_dev (on : Bool) (s : State) : (driveB on s).dev = s.dev := rfl
@[simp] theorem driveB_cyc (on : Bool) (s : State) : (driveB on s).cyc = s.cyc := rfl
@[simp] theorem driveB_hg (on : Bool) (s : State) : (driveB on s).hg = s.hg := rfl
@[simp] theorem driveB_tf (on : Bool) (s : State) : (driveB on s).tf = s.tf := rfl
@[simp] theorem driveB_vn (on : Bool) (s : State) : (driveB on s).vn = s.vn := rfl
@[simp] theorem driveB_eq (on : Bool) (s : State) : (driveB on s).eq = s.eq := rfl
@[simp] theorem driveB_pool (on : Bool) (s : State) : (driveB on s).pool = s.pool := rfl
@[simp] theorem driveB_sh (on : Bool) (s : State) : (driveB on s).sh = s.sh := rfl
@[simp] theorem driveB_ch (on : Bool) (s : State) : (driveB on s).ch = s.ch := rfl
@[simp] theorem driveB_ms (on : Bool) (s : State) : (driveB on s).ms = s.ms := rfl
@[simp] theorem driveB_bn (on : Bool) (s : State) : (driveB on s).bn = s.bn := rfl
@[simp] theorem driveB_cr (on : Bool) (s : State) : (driveB on s).cr = s.cr := rfl
@[simp] theorem driveB_gr (on : Bool) (s : State) : (driveB on s).gr = s.gr := rfl
@[simp] theorem driveB_nv (on : Bool) (s : State) : (driveB on s).nv = s.nv := rfl
@[simp] theorem driveB_lg (on : Bool) (s : State) : (driveB on s).lg = s.lg := rfl
@[simp] theorem driveB_rg (on : Bool) (s : State) : (driveB on s).rg = s.rg := rfl
@[simp] theorem driveB_wire (on : Bool) (s : State) : (driveB on s).wire = s.wire := rfl
@[simp] theorem driveB_free (on : Bool) (s : State) : (driveB on s).free = s.free := rfl
@[simp] theorem driveB_pending (on : Bool) (s : State) : (driveB on s).pending = s.pending := rfl

/-! ### Raised events (R110, R493, R495) -/

@[simp] theorem noteWindow_dev (c : Half) (i : Byte) (s : State) : (noteWindow c i s).dev = s.dev := by unfold noteWindow; split <;> split <;> rfl
@[simp] theorem noteWindow_pwr (c : Half) (i : Byte) (s : State) : (noteWindow c i s).pwr = s.pwr := by unfold noteWindow; split <;> split <;> rfl
@[simp] theorem noteWindow_cyc (c : Half) (i : Byte) (s : State) : (noteWindow c i s).cyc = s.cyc := by unfold noteWindow; split <;> split <;> rfl
@[simp] theorem noteWindow_hg (c : Half) (i : Byte) (s : State) : (noteWindow c i s).hg = s.hg := by unfold noteWindow; split <;> split <;> rfl
@[simp] theorem noteWindow_tf (c : Half) (i : Byte) (s : State) : (noteWindow c i s).tf = s.tf := by unfold noteWindow; split <;> split <;> rfl
@[simp] theorem noteWindow_vn (c : Half) (i : Byte) (s : State) : (noteWindow c i s).vn = s.vn := by unfold noteWindow; split <;> split <;> rfl
@[simp] theorem noteWindow_eq (c : Half) (i : Byte) (s : State) : (noteWindow c i s).eq = s.eq := by unfold noteWindow; split <;> split <;> rfl
@[simp] theorem noteWindow_pool (c : Half) (i : Byte) (s : State) : (noteWindow c i s).pool = s.pool := by unfold noteWindow; split <;> split <;> rfl
@[simp] theorem noteWindow_sh (c : Half) (i : Byte) (s : State) : (noteWindow c i s).sh = s.sh := by unfold noteWindow; split <;> split <;> rfl
@[simp] theorem noteWindow_ch (c : Half) (i : Byte) (s : State) : (noteWindow c i s).ch = s.ch := by unfold noteWindow; split <;> split <;> rfl
@[simp] theorem noteWindow_ms (c : Half) (i : Byte) (s : State) : (noteWindow c i s).ms = s.ms := by unfold noteWindow; split <;> split <;> rfl
@[simp] theorem noteWindow_bn (c : Half) (i : Byte) (s : State) : (noteWindow c i s).bn = s.bn := by unfold noteWindow; split <;> split <;> rfl
@[simp] theorem noteWindow_cr (c : Half) (i : Byte) (s : State) : (noteWindow c i s).cr = s.cr := by unfold noteWindow; split <;> split <;> rfl
@[simp] theorem noteWindow_nv (c : Half) (i : Byte) (s : State) : (noteWindow c i s).nv = s.nv := by unfold noteWindow; split <;> split <;> rfl
@[simp] theorem noteWindow_rg (c : Half) (i : Byte) (s : State) : (noteWindow c i s).rg = s.rg := by unfold noteWindow; split <;> split <;> rfl
@[simp] theorem noteWindow_wire (c : Half) (i : Byte) (s : State) : (noteWindow c i s).wire = s.wire := by unfold noteWindow; split <;> split <;> rfl
@[simp] theorem noteWindow_free (c : Half) (i : Byte) (s : State) : (noteWindow c i s).free = s.free := by unfold noteWindow; split <;> split <;> rfl
@[simp] theorem noteWindow_pending (c : Half) (i : Byte) (s : State) : (noteWindow c i s).pending = s.pending := by unfold noteWindow; split <;> split <;> rfl
@[simp] theorem noteWindow_gr_img (c : Half) (i : Byte) (s : State) : (noteWindow c i s).gr.img = s.gr.img := by unfold noteWindow; split <;> split <;> rfl
@[simp] theorem noteWindow_gr_errs (c : Half) (i : Byte) (s : State) : (noteWindow c i s).gr.errs = s.gr.errs := by unfold noteWindow; split <;> split <;> rfl
@[simp] theorem noteWindow_gr_orders (c : Half) (i : Byte) (s : State) : (noteWindow c i s).gr.orders = s.gr.orders := by unfold noteWindow; split <;> split <;> rfl
@[simp] theorem noteWindow_gr_armed (c : Half) (i : Byte) (s : State) : (noteWindow c i s).gr.armed = s.gr.armed := by unfold noteWindow; split <;> split <;> rfl
@[simp] theorem noteWindow_gr_on (c : Half) (i : Byte) (s : State) : (noteWindow c i s).gr.on = s.gr.on := by unfold noteWindow; split <;> split <;> rfl

@[simp] theorem noteEvent_dev (c : Half) (i : Byte) (s : State) : (noteEvent c i s).dev = s.dev := by simp [noteEvent]
@[simp] theorem noteEvent_pwr (c : Half) (i : Byte) (s : State) : (noteEvent c i s).pwr = s.pwr := by simp [noteEvent]
@[simp] theorem noteEvent_cyc (c : Half) (i : Byte) (s : State) : (noteEvent c i s).cyc = s.cyc := by simp [noteEvent]
@[simp] theorem noteEvent_hg (c : Half) (i : Byte) (s : State) : (noteEvent c i s).hg = s.hg := by simp [noteEvent]
@[simp] theorem noteEvent_tf (c : Half) (i : Byte) (s : State) : (noteEvent c i s).tf = s.tf := by simp [noteEvent]
@[simp] theorem noteEvent_vn (c : Half) (i : Byte) (s : State) : (noteEvent c i s).vn = s.vn := by simp [noteEvent]
@[simp] theorem noteEvent_eq (c : Half) (i : Byte) (s : State) : (noteEvent c i s).eq = s.eq := by simp [noteEvent]
@[simp] theorem noteEvent_pool (c : Half) (i : Byte) (s : State) : (noteEvent c i s).pool = s.pool := by simp [noteEvent]
@[simp] theorem noteEvent_sh (c : Half) (i : Byte) (s : State) : (noteEvent c i s).sh = s.sh := by simp [noteEvent]
@[simp] theorem noteEvent_ch (c : Half) (i : Byte) (s : State) : (noteEvent c i s).ch = s.ch := by simp [noteEvent]
@[simp] theorem noteEvent_ms (c : Half) (i : Byte) (s : State) : (noteEvent c i s).ms = s.ms := by simp [noteEvent]
@[simp] theorem noteEvent_bn (c : Half) (i : Byte) (s : State) : (noteEvent c i s).bn = s.bn := by simp [noteEvent]
@[simp] theorem noteEvent_cr (c : Half) (i : Byte) (s : State) : (noteEvent c i s).cr = s.cr := by simp [noteEvent]
@[simp] theorem noteEvent_nv (c : Half) (i : Byte) (s : State) : (noteEvent c i s).nv = s.nv := by simp [noteEvent]
@[simp] theorem noteEvent_rg (c : Half) (i : Byte) (s : State) : (noteEvent c i s).rg = s.rg := by simp [noteEvent]
@[simp] theorem noteEvent_wire (c : Half) (i : Byte) (s : State) : (noteEvent c i s).wire = s.wire := by simp [noteEvent]
@[simp] theorem noteEvent_free (c : Half) (i : Byte) (s : State) : (noteEvent c i s).free = s.free := by simp [noteEvent]
@[simp] theorem noteEvent_pending (c : Half) (i : Byte) (s : State) : (noteEvent c i s).pending = s.pending := by simp [noteEvent]
@[simp] theorem noteEvent_gr_img (c : Half) (i : Byte) (s : State) : (noteEvent c i s).gr.img = s.gr.img := by simp [noteEvent]
@[simp] theorem noteEvent_gr_errs (c : Half) (i : Byte) (s : State) : (noteEvent c i s).gr.errs = s.gr.errs := by simp [noteEvent]
@[simp] theorem noteEvent_gr_orders (c : Half) (i : Byte) (s : State) : (noteEvent c i s).gr.orders = s.gr.orders := by simp [noteEvent]
@[simp] theorem noteEvent_gr_armed (c : Half) (i : Byte) (s : State) : (noteEvent c i s).gr.armed = s.gr.armed := by simp [noteEvent]
@[simp] theorem noteEvent_gr_on (c : Half) (i : Byte) (s : State) : (noteEvent c i s).gr.on = s.gr.on := by simp [noteEvent]

@[simp] theorem logOpl_dev (r : Bool) (c : Half) (i : Byte) (d : List Word) (s : State) : (logOpl r c i d s).dev = s.dev := by unfold logOpl; dsimp only; split <;> simp
@[simp] theorem logOpl_pwr (r : Bool) (c : Half) (i : Byte) (d : List Word) (s : State) : (logOpl r c i d s).pwr = s.pwr := by unfold logOpl; dsimp only; split <;> simp
@[simp] theorem logOpl_cyc (r : Bool) (c : Half) (i : Byte) (d : List Word) (s : State) : (logOpl r c i d s).cyc = s.cyc := by unfold logOpl; dsimp only; split <;> simp
@[simp] theorem logOpl_hg (r : Bool) (c : Half) (i : Byte) (d : List Word) (s : State) : (logOpl r c i d s).hg = s.hg := by unfold logOpl; dsimp only; split <;> simp
@[simp] theorem logOpl_tf (r : Bool) (c : Half) (i : Byte) (d : List Word) (s : State) : (logOpl r c i d s).tf = s.tf := by unfold logOpl; dsimp only; split <;> simp
@[simp] theorem logOpl_vn (r : Bool) (c : Half) (i : Byte) (d : List Word) (s : State) : (logOpl r c i d s).vn = s.vn := by unfold logOpl; dsimp only; split <;> simp
@[simp] theorem logOpl_eq (r : Bool) (c : Half) (i : Byte) (d : List Word) (s : State) : (logOpl r c i d s).eq = s.eq := by unfold logOpl; dsimp only; split <;> simp
@[simp] theorem logOpl_pool (r : Bool) (c : Half) (i : Byte) (d : List Word) (s : State) : (logOpl r c i d s).pool = s.pool := by unfold logOpl; dsimp only; split <;> simp
@[simp] theorem logOpl_sh (r : Bool) (c : Half) (i : Byte) (d : List Word) (s : State) : (logOpl r c i d s).sh = s.sh := by unfold logOpl; dsimp only; split <;> simp
@[simp] theorem logOpl_ch (r : Bool) (c : Half) (i : Byte) (d : List Word) (s : State) : (logOpl r c i d s).ch = s.ch := by unfold logOpl; dsimp only; split <;> simp
@[simp] theorem logOpl_ms (r : Bool) (c : Half) (i : Byte) (d : List Word) (s : State) : (logOpl r c i d s).ms = s.ms := by unfold logOpl; dsimp only; split <;> simp
@[simp] theorem logOpl_bn (r : Bool) (c : Half) (i : Byte) (d : List Word) (s : State) : (logOpl r c i d s).bn = s.bn := by unfold logOpl; dsimp only; split <;> simp
@[simp] theorem logOpl_cr (r : Bool) (c : Half) (i : Byte) (d : List Word) (s : State) : (logOpl r c i d s).cr = s.cr := by unfold logOpl; dsimp only; split <;> simp
@[simp] theorem logOpl_nv (r : Bool) (c : Half) (i : Byte) (d : List Word) (s : State) : (logOpl r c i d s).nv = s.nv := by unfold logOpl; dsimp only; split <;> simp
@[simp] theorem logOpl_rg (r : Bool) (c : Half) (i : Byte) (d : List Word) (s : State) : (logOpl r c i d s).rg = s.rg := by unfold logOpl; dsimp only; split <;> simp
@[simp] theorem logOpl_wire (r : Bool) (c : Half) (i : Byte) (d : List Word) (s : State) : (logOpl r c i d s).wire = s.wire := by unfold logOpl; dsimp only; split <;> simp
@[simp] theorem logOpl_free (r : Bool) (c : Half) (i : Byte) (d : List Word) (s : State) : (logOpl r c i d s).free = s.free := by unfold logOpl; dsimp only; split <;> simp
@[simp] theorem logOpl_pending (r : Bool) (c : Half) (i : Byte) (d : List Word) (s : State) : (logOpl r c i d s).pending = s.pending := by unfold logOpl; dsimp only; split <;> simp
@[simp] theorem logOpl_gr_img (r : Bool) (c : Half) (i : Byte) (d : List Word) (s : State) : (logOpl r c i d s).gr.img = s.gr.img := by unfold logOpl; dsimp only; split <;> simp
@[simp] theorem logOpl_gr_errs (r : Bool) (c : Half) (i : Byte) (d : List Word) (s : State) : (logOpl r c i d s).gr.errs = s.gr.errs := by unfold logOpl; dsimp only; split <;> simp
@[simp] theorem logOpl_gr_orders (r : Bool) (c : Half) (i : Byte) (d : List Word) (s : State) : (logOpl r c i d s).gr.orders = s.gr.orders := by unfold logOpl; dsimp only; split <;> simp
@[simp] theorem logOpl_gr_armed (r : Bool) (c : Half) (i : Byte) (d : List Word) (s : State) : (logOpl r c i d s).gr.armed = s.gr.armed := by unfold logOpl; dsimp only; split <;> simp
@[simp] theorem logOpl_gr_on (r : Bool) (c : Half) (i : Byte) (d : List Word) (s : State) : (logOpl r c i d s).gr.on = s.gr.on := by unfold logOpl; dsimp only; split <;> simp

@[simp] theorem logInc_dev (r : Bool) (c : Half) (i : Byte) (d : List Word) (s : State) : (logInc r c i d s).dev = s.dev := by unfold logInc; dsimp only; split <;> simp
@[simp] theorem logInc_pwr (r : Bool) (c : Half) (i : Byte) (d : List Word) (s : State) : (logInc r c i d s).pwr = s.pwr := by unfold logInc; dsimp only; split <;> simp
@[simp] theorem logInc_cyc (r : Bool) (c : Half) (i : Byte) (d : List Word) (s : State) : (logInc r c i d s).cyc = s.cyc := by unfold logInc; dsimp only; split <;> simp
@[simp] theorem logInc_hg (r : Bool) (c : Half) (i : Byte) (d : List Word) (s : State) : (logInc r c i d s).hg = s.hg := by unfold logInc; dsimp only; split <;> simp
@[simp] theorem logInc_tf (r : Bool) (c : Half) (i : Byte) (d : List Word) (s : State) : (logInc r c i d s).tf = s.tf := by unfold logInc; dsimp only; split <;> simp
@[simp] theorem logInc_vn (r : Bool) (c : Half) (i : Byte) (d : List Word) (s : State) : (logInc r c i d s).vn = s.vn := by unfold logInc; dsimp only; split <;> simp
@[simp] theorem logInc_eq (r : Bool) (c : Half) (i : Byte) (d : List Word) (s : State) : (logInc r c i d s).eq = s.eq := by unfold logInc; dsimp only; split <;> simp
@[simp] theorem logInc_pool (r : Bool) (c : Half) (i : Byte) (d : List Word) (s : State) : (logInc r c i d s).pool = s.pool := by unfold logInc; dsimp only; split <;> simp
@[simp] theorem logInc_sh (r : Bool) (c : Half) (i : Byte) (d : List Word) (s : State) : (logInc r c i d s).sh = s.sh := by unfold logInc; dsimp only; split <;> simp
@[simp] theorem logInc_ch (r : Bool) (c : Half) (i : Byte) (d : List Word) (s : State) : (logInc r c i d s).ch = s.ch := by unfold logInc; dsimp only; split <;> simp
@[simp] theorem logInc_ms (r : Bool) (c : Half) (i : Byte) (d : List Word) (s : State) : (logInc r c i d s).ms = s.ms := by unfold logInc; dsimp only; split <;> simp
@[simp] theorem logInc_bn (r : Bool) (c : Half) (i : Byte) (d : List Word) (s : State) : (logInc r c i d s).bn = s.bn := by unfold logInc; dsimp only; split <;> simp
@[simp] theorem logInc_cr (r : Bool) (c : Half) (i : Byte) (d : List Word) (s : State) : (logInc r c i d s).cr = s.cr := by unfold logInc; dsimp only; split <;> simp
@[simp] theorem logInc_nv (r : Bool) (c : Half) (i : Byte) (d : List Word) (s : State) : (logInc r c i d s).nv = s.nv := by unfold logInc; dsimp only; split <;> simp
@[simp] theorem logInc_rg (r : Bool) (c : Half) (i : Byte) (d : List Word) (s : State) : (logInc r c i d s).rg = s.rg := by unfold logInc; dsimp only; split <;> simp
@[simp] theorem logInc_wire (r : Bool) (c : Half) (i : Byte) (d : List Word) (s : State) : (logInc r c i d s).wire = s.wire := by unfold logInc; dsimp only; split <;> simp
@[simp] theorem logInc_free (r : Bool) (c : Half) (i : Byte) (d : List Word) (s : State) : (logInc r c i d s).free = s.free := by unfold logInc; dsimp only; split <;> simp
@[simp] theorem logInc_pending (r : Bool) (c : Half) (i : Byte) (d : List Word) (s : State) : (logInc r c i d s).pending = s.pending := by unfold logInc; dsimp only; split <;> simp
@[simp] theorem logInc_gr_img (r : Bool) (c : Half) (i : Byte) (d : List Word) (s : State) : (logInc r c i d s).gr.img = s.gr.img := by unfold logInc; dsimp only; split <;> simp
@[simp] theorem logInc_gr_errs (r : Bool) (c : Half) (i : Byte) (d : List Word) (s : State) : (logInc r c i d s).gr.errs = s.gr.errs := by unfold logInc; dsimp only; split <;> simp
@[simp] theorem logInc_gr_orders (r : Bool) (c : Half) (i : Byte) (d : List Word) (s : State) : (logInc r c i d s).gr.orders = s.gr.orders := by unfold logInc; dsimp only; split <;> simp
@[simp] theorem logInc_gr_armed (r : Bool) (c : Half) (i : Byte) (d : List Word) (s : State) : (logInc r c i d s).gr.armed = s.gr.armed := by unfold logInc; dsimp only; split <;> simp
@[simp] theorem logInc_gr_on (r : Bool) (c : Half) (i : Byte) (d : List Word) (s : State) : (logInc r c i d s).gr.on = s.gr.on := by unfold logInc; dsimp only; split <;> simp

@[simp] theorem raiseTo_dev (l : EvLogs) (c : Half) (i : Byte) (d : List Word) (s : State) : (raiseTo l c i d s).dev = s.dev := by unfold raiseTo; dsimp only; split <;> split <;> simp
@[simp] theorem raiseTo_pwr (l : EvLogs) (c : Half) (i : Byte) (d : List Word) (s : State) : (raiseTo l c i d s).pwr = s.pwr := by unfold raiseTo; dsimp only; split <;> split <;> simp
@[simp] theorem raiseTo_cyc (l : EvLogs) (c : Half) (i : Byte) (d : List Word) (s : State) : (raiseTo l c i d s).cyc = s.cyc := by unfold raiseTo; dsimp only; split <;> split <;> simp
@[simp] theorem raiseTo_hg (l : EvLogs) (c : Half) (i : Byte) (d : List Word) (s : State) : (raiseTo l c i d s).hg = s.hg := by unfold raiseTo; dsimp only; split <;> split <;> simp
@[simp] theorem raiseTo_tf (l : EvLogs) (c : Half) (i : Byte) (d : List Word) (s : State) : (raiseTo l c i d s).tf = s.tf := by unfold raiseTo; dsimp only; split <;> split <;> simp
@[simp] theorem raiseTo_vn (l : EvLogs) (c : Half) (i : Byte) (d : List Word) (s : State) : (raiseTo l c i d s).vn = s.vn := by unfold raiseTo; dsimp only; split <;> split <;> simp
@[simp] theorem raiseTo_eq (l : EvLogs) (c : Half) (i : Byte) (d : List Word) (s : State) : (raiseTo l c i d s).eq = s.eq := by unfold raiseTo; dsimp only; split <;> split <;> simp
@[simp] theorem raiseTo_pool (l : EvLogs) (c : Half) (i : Byte) (d : List Word) (s : State) : (raiseTo l c i d s).pool = s.pool := by unfold raiseTo; dsimp only; split <;> split <;> simp
@[simp] theorem raiseTo_sh (l : EvLogs) (c : Half) (i : Byte) (d : List Word) (s : State) : (raiseTo l c i d s).sh = s.sh := by unfold raiseTo; dsimp only; split <;> split <;> simp
@[simp] theorem raiseTo_ch (l : EvLogs) (c : Half) (i : Byte) (d : List Word) (s : State) : (raiseTo l c i d s).ch = s.ch := by unfold raiseTo; dsimp only; split <;> split <;> simp
@[simp] theorem raiseTo_ms (l : EvLogs) (c : Half) (i : Byte) (d : List Word) (s : State) : (raiseTo l c i d s).ms = s.ms := by unfold raiseTo; dsimp only; split <;> split <;> simp
@[simp] theorem raiseTo_bn (l : EvLogs) (c : Half) (i : Byte) (d : List Word) (s : State) : (raiseTo l c i d s).bn = s.bn := by unfold raiseTo; dsimp only; split <;> split <;> simp
@[simp] theorem raiseTo_cr (l : EvLogs) (c : Half) (i : Byte) (d : List Word) (s : State) : (raiseTo l c i d s).cr = s.cr := by unfold raiseTo; dsimp only; split <;> split <;> simp
@[simp] theorem raiseTo_nv (l : EvLogs) (c : Half) (i : Byte) (d : List Word) (s : State) : (raiseTo l c i d s).nv = s.nv := by unfold raiseTo; dsimp only; split <;> split <;> simp
@[simp] theorem raiseTo_rg (l : EvLogs) (c : Half) (i : Byte) (d : List Word) (s : State) : (raiseTo l c i d s).rg = s.rg := by unfold raiseTo; dsimp only; split <;> split <;> simp
@[simp] theorem raiseTo_wire (l : EvLogs) (c : Half) (i : Byte) (d : List Word) (s : State) : (raiseTo l c i d s).wire = s.wire := by unfold raiseTo; dsimp only; split <;> split <;> simp
@[simp] theorem raiseTo_free (l : EvLogs) (c : Half) (i : Byte) (d : List Word) (s : State) : (raiseTo l c i d s).free = s.free := by unfold raiseTo; dsimp only; split <;> split <;> simp
@[simp] theorem raiseTo_pending (l : EvLogs) (c : Half) (i : Byte) (d : List Word) (s : State) : (raiseTo l c i d s).pending = s.pending := by unfold raiseTo; dsimp only; split <;> split <;> simp
@[simp] theorem raiseTo_gr_img (l : EvLogs) (c : Half) (i : Byte) (d : List Word) (s : State) : (raiseTo l c i d s).gr.img = s.gr.img := by unfold raiseTo; dsimp only; split <;> split <;> simp
@[simp] theorem raiseTo_gr_errs (l : EvLogs) (c : Half) (i : Byte) (d : List Word) (s : State) : (raiseTo l c i d s).gr.errs = s.gr.errs := by unfold raiseTo; dsimp only; split <;> split <;> simp
@[simp] theorem raiseTo_gr_orders (l : EvLogs) (c : Half) (i : Byte) (d : List Word) (s : State) : (raiseTo l c i d s).gr.orders = s.gr.orders := by unfold raiseTo; dsimp only; split <;> split <;> simp
@[simp] theorem raiseTo_gr_armed (l : EvLogs) (c : Half) (i : Byte) (d : List Word) (s : State) : (raiseTo l c i d s).gr.armed = s.gr.armed := by unfold raiseTo; dsimp only; split <;> split <;> simp
@[simp] theorem raiseTo_gr_on (l : EvLogs) (c : Half) (i : Byte) (d : List Word) (s : State) : (raiseTo l c i d s).gr.on = s.gr.on := by unfold raiseTo; dsimp only; split <;> split <;> simp

@[simp] theorem raise_dev (c i : Nat) (d : List Word) (s : State) : (raise c i d s).dev = s.dev := by simp [raise]
@[simp] theorem raise_pwr (c i : Nat) (d : List Word) (s : State) : (raise c i d s).pwr = s.pwr := by simp [raise]
@[simp] theorem raise_cyc (c i : Nat) (d : List Word) (s : State) : (raise c i d s).cyc = s.cyc := by simp [raise]
@[simp] theorem raise_hg (c i : Nat) (d : List Word) (s : State) : (raise c i d s).hg = s.hg := by simp [raise]
@[simp] theorem raise_tf (c i : Nat) (d : List Word) (s : State) : (raise c i d s).tf = s.tf := by simp [raise]
@[simp] theorem raise_vn (c i : Nat) (d : List Word) (s : State) : (raise c i d s).vn = s.vn := by simp [raise]
@[simp] theorem raise_eq (c i : Nat) (d : List Word) (s : State) : (raise c i d s).eq = s.eq := by simp [raise]
@[simp] theorem raise_pool (c i : Nat) (d : List Word) (s : State) : (raise c i d s).pool = s.pool := by simp [raise]
@[simp] theorem raise_sh (c i : Nat) (d : List Word) (s : State) : (raise c i d s).sh = s.sh := by simp [raise]
@[simp] theorem raise_ch (c i : Nat) (d : List Word) (s : State) : (raise c i d s).ch = s.ch := by simp [raise]
@[simp] theorem raise_ms (c i : Nat) (d : List Word) (s : State) : (raise c i d s).ms = s.ms := by simp [raise]
@[simp] theorem raise_bn (c i : Nat) (d : List Word) (s : State) : (raise c i d s).bn = s.bn := by simp [raise]
@[simp] theorem raise_cr (c i : Nat) (d : List Word) (s : State) : (raise c i d s).cr = s.cr := by simp [raise]
@[simp] theorem raise_nv (c i : Nat) (d : List Word) (s : State) : (raise c i d s).nv = s.nv := by simp [raise]
@[simp] theorem raise_rg (c i : Nat) (d : List Word) (s : State) : (raise c i d s).rg = s.rg := by simp [raise]
@[simp] theorem raise_wire (c i : Nat) (d : List Word) (s : State) : (raise c i d s).wire = s.wire := by simp [raise]
@[simp] theorem raise_free (c i : Nat) (d : List Word) (s : State) : (raise c i d s).free = s.free := by simp [raise]
@[simp] theorem raise_pending (c i : Nat) (d : List Word) (s : State) : (raise c i d s).pending = s.pending := by simp [raise]
@[simp] theorem raise_gr_img (c i : Nat) (d : List Word) (s : State) : (raise c i d s).gr.img = s.gr.img := by simp [raise]
@[simp] theorem raise_gr_errs (c i : Nat) (d : List Word) (s : State) : (raise c i d s).gr.errs = s.gr.errs := by simp [raise]
@[simp] theorem raise_gr_orders (c i : Nat) (d : List Word) (s : State) : (raise c i d s).gr.orders = s.gr.orders := by simp [raise]
@[simp] theorem raise_gr_armed (c i : Nat) (d : List Word) (s : State) : (raise c i d s).gr.armed = s.gr.armed := by simp [raise]
@[simp] theorem raise_gr_on (c i : Nat) (d : List Word) (s : State) : (raise c i d s).gr.on = s.gr.on := by simp [raise]

end Sys2Proof.Machine
end

