-- ==== Sys2Proof/Laws/Kick.lean ====
section
/-! SUPPORT. The NV controller's next operation (`nvKick`), which follows every effect: what it leaves alone. -/

namespace Sys2Proof.Machine

/-- What the NV controller leaves alone when it takes work. -/
def kickKept (s : State) :=
  ((s.dev, s.cyc, s.hg, s.tf, s.vn, s.eq, s.pool, s.sh, s.ch, s.ms, s.bn, s.cr, s.wire, s.free, s.pending), { s.pwr with doms := [] },
    { s.gr with evNow := [], evNext := [] }, { s.rg with banks := [] },
    (s.nv.mem, s.nv.wear, s.nv.erasedAt, s.nv.errs, s.nv.cfg, s.nv.cfgQ, s.nv.keys, s.nv.ver, s.nv.refusal))

theorem raise_kickKept (c i : Nat) (d : List Word) (s : State) : kickKept (raise c i d s) = kickKept s := by
  simp [kickKept]

theorem cmdState_kickKept (q : Word) (st : Nat) (r : Byte) (d : Half) (s : State) :
    kickKept (cmdState q st r d s) = kickKept s := by
  unfold cmdState; split <;> rfl

theorem jobEnd_kickKept (r : Byte) (d : Half) (s : State) : kickKept (jobEnd r d s) = kickKept s := by
  unfold jobEnd
  split
  · rfl
  · exact cmdState_kickKept _ _ _ _ _

theorem nvReport_kickKept (a n : Nat) (s : State) : kickKept (nvReport a n s) = kickKept s := by
  have h : ∀ (l : List (Nat × Bool)) (s : State), kickKept (l.foldl (fun s e =>
      if decide (a < 16 * e.1 + 16) && decide (16 * e.1 < a + n) then
        if e.2 then raise 0x808A noInst [] { s with nv := { s.nv with uncorr := s.nv.uncorr + 1 } }
        else raise 0x808B noInst [] { s with nv := { s.nv with corr := s.nv.corr + 1 } }
      else s) s) = kickKept s := by
    intro l
    induction l with
    | nil => intro s; rfl
    | cons e r ih =>
      intro s
      rw [List.foldl_cons, ih]
      split
      · split <;> rw [raise_kickKept] <;> rfl
      · rfl
  exact h s.nv.errs s

theorem refPick_kickKept (n : Nat) (s : State) : kickKept (refPick n s) = kickKept s := by
  induction n generalizing s with
  | zero => rfl
  | succ n ih =>
    unfold refPick
    split
    · rfl
    · dsimp only
      split
      · rw [refEnd, jobEnd_kickKept, raise_kickKept]
      · split
        · rw [ih]; rfl
        · split
          · rw [ih]
            exact (nvReport_kickKept _ _ s).symm ▸ rfl
          · rfl

theorem jobBegin_kickKept (c : QCmd) (s : State) : kickKept (jobBegin c s) = kickKept s := by
  unfold jobBegin
  dsimp only
  generalize hs : cmdState c.ent.jseq 3 0 0 { s with nv := _ } = s1
  have h1 : kickKept s1 = kickKept s := by rw [← hs, cmdState_kickKept]; rfl
  rw [← h1]
  split
  · rfl
  split
  · split
    · rw [jobEnd_kickKept, raise_kickKept]
    · rfl
  split
  · unfold verifierPower; split <;> rfl
  split
  · exact refPick_kickKept _ _
  split
  · split
    · rfl
    · exact jobEnd_kickKept _ _ _
  split <;> rfl

theorem programStart_kickKept (s : State) : kickKept (programStart s) = kickKept s := by
  unfold programStart
  split
  · split
    · rfl
    split
    · rfl
    split
    · rw [jobBegin_kickKept]; rfl
    · rfl
  · rfl

theorem nvTake_kickKept (n : Nat) (s : State) : kickKept (nvTake n s) = kickKept s := by
  induction n generalizing s with
  | zero => rfl
  | succ n ih =>
    have h : kickKept (programStart (chkLoad (jnvLoad s))) = kickKept s := by
      rw [programStart_kickKept]
      have h1 : kickKept (jnvLoad s) = kickKept s := by unfold jnvLoad; split <;> rfl
      rw [← h1]
      unfold chkLoad
      split
      · split <;> rfl
      · rfl
    unfold nvTake
    dsimp only
    rw [← h]
    split
    · rw [ih, incReject, raise_kickKept]; rfl
    · split <;> rfl

/-- The controller leaves alone everything but its own work, the logs, the command banks and the verifier's domain. -/
theorem nvKick_kickKept (s : State) : kickKept (nvKick s) = kickKept s := by
  unfold nvKick
  split
  · exact nvTake_kickKept _ _
  · rfl

@[simp] theorem nvKick_dev (s : State) : (nvKick s).dev = s.dev := congrArg (fun k => k.1.1) (nvKick_kickKept s)
@[simp] theorem nvKick_cyc (s : State) : (nvKick s).cyc = s.cyc := congrArg (fun k => k.1.2.1) (nvKick_kickKept s)
@[simp] theorem nvKick_hg (s : State) : (nvKick s).hg = s.hg := congrArg (fun k => k.1.2.2.1) (nvKick_kickKept s)
@[simp] theorem nvKick_tf (s : State) : (nvKick s).tf = s.tf := congrArg (fun k => k.1.2.2.2.1) (nvKick_kickKept s)
@[simp] theorem nvKick_vn (s : State) : (nvKick s).vn = s.vn := congrArg (fun k => k.1.2.2.2.2.1) (nvKick_kickKept s)
@[simp] theorem nvKick_eq (s : State) : (nvKick s).eq = s.eq := congrArg (fun k => k.1.2.2.2.2.2.1) (nvKick_kickKept s)
@[simp] theorem nvKick_pool (s : State) : (nvKick s).pool = s.pool := congrArg (fun k => k.1.2.2.2.2.2.2.1) (nvKick_kickKept s)
@[simp] theorem nvKick_sh (s : State) : (nvKick s).sh = s.sh := congrArg (fun k => k.1.2.2.2.2.2.2.2.1) (nvKick_kickKept s)
@[simp] theorem nvKick_ch (s : State) : (nvKick s).ch = s.ch := congrArg (fun k => k.1.2.2.2.2.2.2.2.2.1) (nvKick_kickKept s)
@[simp] theorem nvKick_ms (s : State) : (nvKick s).ms = s.ms := congrArg (fun k => k.1.2.2.2.2.2.2.2.2.2.1) (nvKick_kickKept s)
@[simp] theorem nvKick_bn (s : State) : (nvKick s).bn = s.bn := congrArg (fun k => k.1.2.2.2.2.2.2.2.2.2.2.1) (nvKick_kickKept s)
@[simp] theorem nvKick_cr (s : State) : (nvKick s).cr = s.cr := congrArg (fun k => k.1.2.2.2.2.2.2.2.2.2.2.2.1) (nvKick_kickKept s)
@[simp] theorem nvKick_wire (s : State) : (nvKick s).wire = s.wire := congrArg (fun k => k.1.2.2.2.2.2.2.2.2.2.2.2.2.1) (nvKick_kickKept s)
@[simp] theorem nvKick_free (s : State) : (nvKick s).free = s.free := congrArg (fun k => k.1.2.2.2.2.2.2.2.2.2.2.2.2.2.1) (nvKick_kickKept s)
@[simp] theorem nvKick_pending (s : State) : (nvKick s).pending = s.pending := congrArg (fun k => k.1.2.2.2.2.2.2.2.2.2.2.2.2.2.2) (nvKick_kickKept s)
@[simp] theorem nvKick_pwr_node (s : State) : (nvKick s).pwr.node = s.pwr.node := congrArg (fun k => k.2.1.node) (nvKick_kickKept s)
@[simp] theorem nvKick_pwr_seated (s : State) : (nvKick s).pwr.seated = s.pwr.seated := congrArg (fun k => k.2.1.seated) (nvKick_kickKept s)
@[simp] theorem nvKick_pwr_bat (s : State) : (nvKick s).pwr.bat = s.pwr.bat := congrArg (fun k => k.2.1.bat) (nvKick_kickKept s)
@[simp] theorem nvKick_pwr_flush (s : State) : (nvKick s).pwr.flush = s.pwr.flush := congrArg (fun k => k.2.1.flush) (nvKick_kickKept s)
@[simp] theorem nvKick_pwr_markAbsent (s : State) : (nvKick s).pwr.markAbsent = s.pwr.markAbsent := congrArg (fun k => k.2.1.markAbsent) (nvKick_kickKept s)
@[simp] theorem nvKick_pwr_holdup (s : State) : (nvKick s).pwr.holdup = s.pwr.holdup := congrArg (fun k => k.2.1.holdup) (nvKick_kickKept s)
@[simp] theorem nvKick_pwr_regOn (s : State) : (nvKick s).pwr.regOn = s.pwr.regOn := congrArg (fun k => k.2.1.regOn) (nvKick_kickKept s)
@[simp] theorem nvKick_pwr_regAttempts (s : State) : (nvKick s).pwr.regAttempts = s.pwr.regAttempts := congrArg (fun k => k.2.1.regAttempts) (nvKick_kickKept s)
@[simp] theorem nvKick_pwr_pllOn (s : State) : (nvKick s).pwr.pllOn = s.pwr.pllOn := congrArg (fun k => k.2.1.pllOn) (nvKick_kickKept s)
@[simp] theorem nvKick_pwr_pllAttempts (s : State) : (nvKick s).pwr.pllAttempts = s.pwr.pllAttempts := congrArg (fun k => k.2.1.pllAttempts) (nvKick_kickKept s)
@[simp] theorem nvKick_pwr_locked (s : State) : (nvKick s).pwr.locked = s.pwr.locked := congrArg (fun k => k.2.1.locked) (nvKick_kickKept s)
@[simp] theorem nvKick_pwr_xtal (s : State) : (nvKick s).pwr.xtal = s.pwr.xtal := congrArg (fun k => k.2.1.xtal) (nvKick_kickKept s)
@[simp] theorem nvKick_pwr_clkDev (s : State) : (nvKick s).pwr.clkDev = s.pwr.clkDev := congrArg (fun k => k.2.1.clkDev) (nvKick_kickKept s)
@[simp] theorem nvKick_pwr_losses (s : State) : (nvKick s).pwr.losses = s.pwr.losses := congrArg (fun k => k.2.1.losses) (nvKick_kickKept s)
@[simp] theorem nvKick_pwr_lockLost (s : State) : (nvKick s).pwr.lockLost = s.pwr.lockLost := congrArg (fun k => k.2.1.lockLost) (nvKick_kickKept s)
@[simp] theorem nvKick_pwr_lockCycles (s : State) : (nvKick s).pwr.lockCycles = s.pwr.lockCycles := congrArg (fun k => k.2.1.lockCycles) (nvKick_kickKept s)
@[simp] theorem nvKick_pwr_wakeFailPin (s : State) : (nvKick s).pwr.wakeFailPin = s.pwr.wakeFailPin := congrArg (fun k => k.2.1.wakeFailPin) (nvKick_kickKept s)
@[simp] theorem nvKick_pwr_wfCount (s : State) : (nvKick s).pwr.wfCount = s.pwr.wfCount := congrArg (fun k => k.2.1.wfCount) (nvKick_kickKept s)
@[simp] theorem nvKick_pwr_wfAttempts (s : State) : (nvKick s).pwr.wfAttempts = s.pwr.wfAttempts := congrArg (fun k => k.2.1.wfAttempts) (nvKick_kickKept s)
@[simp] theorem nvKick_pwr_pgLatch (s : State) : (nvKick s).pwr.pgLatch = s.pwr.pgLatch := congrArg (fun k => k.2.1.pgLatch) (nvKick_kickKept s)
@[simp] theorem nvKick_pwr_qcut (s : State) : (nvKick s).pwr.qcut = s.pwr.qcut := congrArg (fun k => k.2.1.qcut) (nvKick_kickKept s)
@[simp] theorem nvKick_pwr_wfSec (s : State) : (nvKick s).pwr.wfSec = s.pwr.wfSec := congrArg (fun k => k.2.1.wfSec) (nvKick_kickKept s)
@[simp] theorem nvKick_pwr_wfPcyc (s : State) : (nvKick s).pwr.wfPcyc = s.pwr.wfPcyc := congrArg (fun k => k.2.1.wfPcyc) (nvKick_kickKept s)
@[simp] theorem nvKick_pwr_wakeSrc (s : State) : (nvKick s).pwr.wakeSrc = s.pwr.wakeSrc := congrArg (fun k => k.2.1.wakeSrc) (nvKick_kickKept s)
@[simp] theorem nvKick_pwr_wakeReport (s : State) : (nvKick s).pwr.wakeReport = s.pwr.wakeReport := congrArg (fun k => k.2.1.wakeReport) (nvKick_kickKept s)
@[simp] theorem nvKick_pwr_wakeLatch (s : State) : (nvKick s).pwr.wakeLatch = s.pwr.wakeLatch := congrArg (fun k => k.2.1.wakeLatch) (nvKick_kickKept s)
@[simp] theorem nvKick_pwr_sleepDwelt (s : State) : (nvKick s).pwr.sleepDwelt = s.pwr.sleepDwelt := congrArg (fun k => k.2.1.sleepDwelt) (nvKick_kickKept s)
@[simp] theorem nvKick_pwr_tapArmed (s : State) : (nvKick s).pwr.tapArmed = s.pwr.tapArmed := congrArg (fun k => k.2.1.tapArmed) (nvKick_kickKept s)
@[simp] theorem nvKick_pwr_wakeChArmed (s : State) : (nvKick s).pwr.wakeChArmed = s.pwr.wakeChArmed := congrArg (fun k => k.2.1.wakeChArmed) (nvKick_kickKept s)
@[simp] theorem nvKick_pwr_filters (s : State) : (nvKick s).pwr.filters = s.pwr.filters := congrArg (fun k => k.2.1.filters) (nvKick_kickKept s)
@[simp] theorem nvKick_pwr_flood (s : State) : (nvKick s).pwr.flood = s.pwr.flood := congrArg (fun k => k.2.1.flood) (nvKick_kickKept s)
@[simp] theorem nvKick_pwr_burstsLeft (s : State) : (nvKick s).pwr.burstsLeft = s.pwr.burstsLeft := congrArg (fun k => k.2.1.burstsLeft) (nvKick_kickKept s)
@[simp] theorem nvKick_pwr_relaying (s : State) : (nvKick s).pwr.relaying = s.pwr.relaying := congrArg (fun k => k.2.1.relaying) (nvKick_kickKept s)
@[simp] theorem nvKick_pwr_relayAWaits (s : State) : (nvKick s).pwr.relayAWaits = s.pwr.relayAWaits := congrArg (fun k => k.2.1.relayAWaits) (nvKick_kickKept s)
@[simp] theorem nvKick_pwr_lineActive (s : State) : (nvKick s).pwr.lineActive = s.pwr.lineActive := congrArg (fun k => k.2.1.lineActive) (nvKick_kickKept s)
@[simp] theorem nvKick_pwr_warmOff (s : State) : (nvKick s).pwr.warmOff = s.pwr.warmOff := congrArg (fun k => k.2.1.warmOff) (nvKick_kickKept s)
@[simp] theorem nvKick_pwr_relayA (s : State) : (nvKick s).pwr.relayA = s.pwr.relayA := congrArg (fun k => k.2.1.relayA) (nvKick_kickKept s)
@[simp] theorem nvKick_pwr_relayB (s : State) : (nvKick s).pwr.relayB = s.pwr.relayB := congrArg (fun k => k.2.1.relayB) (nvKick_kickKept s)
@[simp] theorem nvKick_pwr_senseA (s : State) : (nvKick s).pwr.senseA = s.pwr.senseA := congrArg (fun k => k.2.1.senseA) (nvKick_kickKept s)
@[simp] theorem nvKick_pwr_senseB (s : State) : (nvKick s).pwr.senseB = s.pwr.senseB := congrArg (fun k => k.2.1.senseB) (nvKick_kickKept s)
@[simp] theorem nvKick_pwr_misA (s : State) : (nvKick s).pwr.misA = s.pwr.misA := congrArg (fun k => k.2.1.misA) (nvKick_kickKept s)
@[simp] theorem nvKick_pwr_misB (s : State) : (nvKick s).pwr.misB = s.pwr.misB := congrArg (fun k => k.2.1.misB) (nvKick_kickKept s)
@[simp] theorem nvKick_pwr_opsec (s : State) : (nvKick s).pwr.opsec = s.pwr.opsec := congrArg (fun k => k.2.1.opsec) (nvKick_kickKept s)
@[simp] theorem nvKick_pwr_pcyc (s : State) : (nvKick s).pwr.pcyc = s.pwr.pcyc := congrArg (fun k => k.2.1.pcyc) (nvKick_kickKept s)
@[simp] theorem nvKick_pwr_slowWrite (s : State) : (nvKick s).pwr.slowWrite = s.pwr.slowWrite := congrArg (fun k => k.2.1.slowWrite) (nvKick_kickKept s)
@[simp] theorem nvKick_pwr_slowHeld (s : State) : (nvKick s).pwr.slowHeld = s.pwr.slowHeld := congrArg (fun k => k.2.1.slowHeld) (nvKick_kickKept s)
@[simp] theorem nvKick_pwr_wakeIn (s : State) : (nvKick s).pwr.wakeIn = s.pwr.wakeIn := congrArg (fun k => k.2.1.wakeIn) (nvKick_kickKept s)
@[simp] theorem nvKick_pwr_resetNow (s : State) : (nvKick s).pwr.resetNow = s.pwr.resetNow := congrArg (fun k => k.2.1.resetNow) (nvKick_kickKept s)
@[simp] theorem nvKick_pwr_noImage (s : State) : (nvKick s).pwr.noImage = s.pwr.noImage := congrArg (fun k => k.2.1.noImage) (nvKick_kickKept s)
@[simp] theorem nvKick_gr_img (s : State) : (nvKick s).gr.img = s.gr.img := congrArg (fun k => k.2.2.1.img) (nvKick_kickKept s)
@[simp] theorem nvKick_gr_errs (s : State) : (nvKick s).gr.errs = s.gr.errs := congrArg (fun k => k.2.2.1.errs) (nvKick_kickKept s)
@[simp] theorem nvKick_gr_orders (s : State) : (nvKick s).gr.orders = s.gr.orders := congrArg (fun k => k.2.2.1.orders) (nvKick_kickKept s)
@[simp] theorem nvKick_gr_armed (s : State) : (nvKick s).gr.armed = s.gr.armed := congrArg (fun k => k.2.2.1.armed) (nvKick_kickKept s)
@[simp] theorem nvKick_gr_on (s : State) : (nvKick s).gr.on = s.gr.on := congrArg (fun k => k.2.2.1.on) (nvKick_kickKept s)
@[simp] theorem nvKick_rg_genCtrl (s : State) : (nvKick s).rg.genCtrl = s.rg.genCtrl := congrArg (fun k => k.2.2.2.1.genCtrl) (nvKick_kickKept s)
@[simp] theorem nvKick_rg_irqEn (s : State) : (nvKick s).rg.irqEn = s.rg.irqEn := congrArg (fun k => k.2.2.2.1.irqEn) (nvKick_kickKept s)
@[simp] theorem nvKick_rg_mismatch (s : State) : (nvKick s).rg.mismatch = s.rg.mismatch := congrArg (fun k => k.2.2.2.1.mismatch) (nvKick_kickKept s)
@[simp] theorem nvKick_rg_tags (s : State) : (nvKick s).rg.tags = s.rg.tags := congrArg (fun k => k.2.2.2.1.tags) (nvKick_kickKept s)
@[simp] theorem nvKick_rg_scratch (s : State) : (nvKick s).rg.scratch = s.rg.scratch := congrArg (fun k => k.2.2.2.1.scratch) (nvKick_kickKept s)
@[simp] theorem nvKick_rg_ws (s : State) : (nvKick s).rg.ws = s.rg.ws := congrArg (fun k => k.2.2.2.1.ws) (nvKick_kickKept s)
@[simp] theorem nvKick_rg_shadow (s : State) : (nvKick s).rg.shadow = s.rg.shadow := congrArg (fun k => k.2.2.2.1.shadow) (nvKick_kickKept s)
@[simp] theorem nvKick_rg_shadowLate (s : State) : (nvKick s).rg.shadowLate = s.rg.shadowLate := congrArg (fun k => k.2.2.2.1.shadowLate) (nvKick_kickKept s)
@[simp] theorem nvKick_rg_wsHist (s : State) : (nvKick s).rg.wsHist = s.rg.wsHist := congrArg (fun k => k.2.2.2.1.wsHist) (nvKick_kickKept s)
@[simp] theorem nvKick_rg_cfgCrc (s : State) : (nvKick s).rg.cfgCrc = s.rg.cfgCrc := congrArg (fun k => k.2.2.2.1.cfgCrc) (nvKick_kickKept s)
@[simp] theorem nvKick_rg_cfgArmed (s : State) : (nvKick s).rg.cfgArmed = s.rg.cfgArmed := congrArg (fun k => k.2.2.2.1.cfgArmed) (nvKick_kickKept s)
@[simp] theorem nvKick_rg_disarm (s : State) : (nvKick s).rg.disarm = s.rg.disarm := congrArg (fun k => k.2.2.2.1.disarm) (nvKick_kickKept s)
@[simp] theorem nvKick_rg_drawers (s : State) : (nvKick s).rg.drawers = s.rg.drawers := congrArg (fun k => k.2.2.2.1.drawers) (nvKick_kickKept s)
@[simp] theorem nvKick_rg_answer (s : State) : (nvKick s).rg.answer = s.rg.answer := congrArg (fun k => k.2.2.2.1.answer) (nvKick_kickKept s)
@[simp] theorem nvKick_rg_nonce (s : State) : (nvKick s).rg.nonce = s.rg.nonce := congrArg (fun k => k.2.2.2.1.nonce) (nvKick_kickKept s)
@[simp] theorem nvKick_rg_sessBb (s : State) : (nvKick s).rg.sessBb = s.rg.sessBb := congrArg (fun k => k.2.2.2.1.sessBb) (nvKick_kickKept s)
@[simp] theorem nvKick_rg_sessE0 (s : State) : (nvKick s).rg.sessE0 = s.rg.sessE0 := congrArg (fun k => k.2.2.2.1.sessE0) (nvKick_kickKept s)
@[simp] theorem nvKick_rg_pdus (s : State) : (nvKick s).rg.pdus = s.rg.pdus := congrArg (fun k => k.2.2.2.1.pdus) (nvKick_kickKept s)
@[simp] theorem nvKick_nv_mem (s : State) : (nvKick s).nv.mem = s.nv.mem := congrArg (fun k => k.2.2.2.2.1) (nvKick_kickKept s)
@[simp] theorem nvKick_nv_wear (s : State) : (nvKick s).nv.wear = s.nv.wear := congrArg (fun k => k.2.2.2.2.2.1) (nvKick_kickKept s)
@[simp] theorem nvKick_nv_erasedAt (s : State) : (nvKick s).nv.erasedAt = s.nv.erasedAt := congrArg (fun k => k.2.2.2.2.2.2.1) (nvKick_kickKept s)
@[simp] theorem nvKick_nv_errs (s : State) : (nvKick s).nv.errs = s.nv.errs := congrArg (fun k => k.2.2.2.2.2.2.2.1) (nvKick_kickKept s)
@[simp] theorem nvKick_nv_cfg (s : State) : (nvKick s).nv.cfg = s.nv.cfg := congrArg (fun k => k.2.2.2.2.2.2.2.2.1) (nvKick_kickKept s)
@[simp] theorem nvKick_nv_cfgQ (s : State) : (nvKick s).nv.cfgQ = s.nv.cfgQ := congrArg (fun k => k.2.2.2.2.2.2.2.2.2.1) (nvKick_kickKept s)
@[simp] theorem nvKick_nv_keys (s : State) : (nvKick s).nv.keys = s.nv.keys := congrArg (fun k => k.2.2.2.2.2.2.2.2.2.2.1) (nvKick_kickKept s)
@[simp] theorem nvKick_nv_ver (s : State) : (nvKick s).nv.ver = s.nv.ver := congrArg (fun k => k.2.2.2.2.2.2.2.2.2.2.2.1) (nvKick_kickKept s)
@[simp] theorem nvKick_nv_refusal (s : State) : (nvKick s).nv.refusal = s.nv.refusal := congrArg (fun k => k.2.2.2.2.2.2.2.2.2.2.2.2) (nvKick_kickKept s)

end Sys2Proof.Machine
end

