-- ==== Sys2Proof/Laws/Memory.lean ====
section
/-! SUPPORT. The sparse maps: read after write, the canonical form, and the NV store's operations, which keep it. -/

namespace Sys2Proof.Machine

variable {α : Type} [DecidableEq α] {d : α}

/-- A canonical map above a bound is canonical above every lower one. -/
theorem smWfFrom_mono {m : List (Nat × α)} {n k : Nat} (hk : k ≤ n) (h : smWfFrom d n m = true) :
    smWfFrom d k m = true := by
  cases m with
  | nil => rfl
  | cons e r =>
    simp only [smWfFrom, Bool.and_eq_true, decide_eq_true_eq] at h ⊢
    exact ⟨⟨hk.trans h.1.1, h.1.2⟩, h.2⟩

/-- Below its bound a canonical map lists nothing. -/
theorem smGet_below {m : List (Nat × α)} {n k : Nat} (hk : k < n) (h : smWfFrom d n m = true) : smGet d m k = d := by
  induction m generalizing n with
  | nil => rfl
  | cons e r ih =>
    simp only [smWfFrom, Bool.and_eq_true, decide_eq_true_eq] at h
    rw [smGet, if_neg (by omega)]
    exact ih (n := e.1 + 1) (by omega) h.2

/-- A write keeps the canonical form above a bound. -/
theorem smWfFrom_smPut {m : List (Nat × α)} {n k : Nat} (v : α) (hk : n ≤ k) (h : smWfFrom d n m = true) :
    smWfFrom d n (smPut d m k v) = true := by
  induction m generalizing n with
  | nil =>
    rw [smPut]
    split
    · rfl
    · simp [smWfFrom, *]
  | cons e r ih =>
    obtain ⟨a, w⟩ := e
    have h' := h
    simp only [smWfFrom, Bool.and_eq_true, decide_eq_true_eq] at h'
    rw [smPut]
    split
    · split
      · exact h
      · simp only [smWfFrom, Bool.and_eq_true, decide_eq_true_eq]
        exact ⟨⟨hk, ‹_›⟩, ⟨by omega, h'.1.2⟩, h'.2⟩
    · split
      · split
        · exact smWfFrom_mono (by omega) h'.2
        · simp only [smWfFrom, Bool.and_eq_true, decide_eq_true_eq]
          subst k
          exact ⟨⟨hk, ‹_›⟩, h'.2⟩
      · simp only [smWfFrom, Bool.and_eq_true, decide_eq_true_eq]
        exact ⟨h'.1, ih (by omega) h'.2⟩

/-- A write keeps the canonical form. -/
theorem smWf_smPut {m : List (Nat × α)} (k : Nat) (v : α) (h : smWf d m = true) : smWf d (smPut d m k v) = true :=
  smWfFrom_smPut v (Nat.zero_le k) h

/-- Read after write, above a bound. -/
theorem smGet_smPut_from {m : List (Nat × α)} {n : Nat} (k j : Nat) (v : α) (h : smWfFrom d n m = true) :
    smGet d (smPut d m k v) j = if j = k then v else smGet d m j := by
  induction m generalizing n with
  | nil =>
    rw [smPut]
    split <;> simp [smGet, *]
  | cons e r ih =>
    obtain ⟨a, w⟩ := e
    simp only [smWfFrom, Bool.and_eq_true, decide_eq_true_eq] at h
    rw [smPut]
    split
    · split
      · by_cases hj : j = k
        · subst hj
          rw [if_pos rfl, smGet, if_neg (by omega)]
          exact (smGet_below (n := a + 1) (by omega) h.2).trans (by simp [*])
        · rw [if_neg hj]
      · simp [smGet]
    · split
      · subst k
        split
        · by_cases hj : j = a
          · subst hj
            rw [if_pos rfl]
            exact (smGet_below (n := j + 1) (by omega) h.2).trans (by simp [*])
          · rw [if_neg hj, smGet, if_neg hj]
        · by_cases hj : j = a <;> simp [smGet, hj]
      · rw [smGet, smGet]
        by_cases hj : j = a
        · rw [if_pos hj, if_neg (by omega), if_pos hj]
        · rw [if_neg hj, if_neg hj]
          exact ih h.2

/-- Read after write of a canonical map: the place written gives the value, every other place what it gave. -/
theorem smGet_smPut {m : List (Nat × α)} (k j : Nat) (v : α) (h : smWf d m = true) :
    smGet d (smPut d m k v) j = if j = k then v else smGet d m j := smGet_smPut_from k j v h

/-- A run of bytes written keeps the canonical form. -/
theorem smWf_smPutBytes {d : Byte} {m : List Host.Cell} (a : Nat) (b : Bytes) (h : smWf d m = true) :
    smWf d (smPutBytes d m a b) = true := by
  induction b generalizing m a with
  | nil => exact h
  | cons x r ih => exact ih (a + 1) (smWf_smPut a x h)

/-- Reading after a run of bytes is written. -/
theorem smGet_smPutBytes {d : Byte} {m : List Host.Cell} (a j : Nat) (b : Bytes) (h : smWf d m = true) :
    smGet d (smPutBytes d m a b) j = if a ≤ j ∧ j < a + b.length then b.getD (j - a) 0 else smGet d m j := by
  induction b generalizing m a with
  | nil =>
    rw [if_neg (by simp)]
    rfl
  | cons x r ih =>
    rw [smPutBytes, ih (a + 1) (smWf_smPut a x h), smGet_smPut a j x h]
    by_cases h1 : j = a
    · subst h1
      simp
    · by_cases h2 : a + 1 ≤ j ∧ j < a + 1 + r.length
      · rw [if_pos h2, if_pos (by simp; omega), show j - a = j - (a + 1) + 1 by omega]
        simp
      · rw [if_neg h2, if_neg h1, if_neg (by simp; omega)]

/-- Entries dropped from a canonical map leave it canonical. -/
theorem smWfFrom_filter {m : List (Nat × α)} {n : Nat} (p : Nat × α → Bool) (h : smWfFrom d n m = true) :
    smWfFrom d n (m.filter p) = true := by
  induction m generalizing n with
  | nil => rfl
  | cons e r ih =>
    have h' := h
    simp only [smWfFrom, Bool.and_eq_true, decide_eq_true_eq] at h'
    rw [List.filter_cons]
    split
    · simp only [smWfFrom, Bool.and_eq_true, decide_eq_true_eq]
      exact ⟨h'.1, ih h'.2⟩
    · exact smWfFrom_mono (by omega) (ih h'.2)

/-- A program of the NV store keeps the canonical form. -/
theorem nvWrite_wf {nv : Nv} (a : Nat) (b : Bytes) (h : Memory.wf nv.mem = true) : Memory.wf (nvWrite a b nv).mem = true :=
  smWf_smPutBytes a b h

/-- A completed erase keeps the canonical form. -/
theorem nvErase_wf {nv : Nv} (sec : Nat) (o : Word) (h : Memory.wf nv.mem = true) :
    Memory.wf (nvErase sec o nv).mem = true := smWfFrom_filter _ h

/-- What a cut leaves undefined keeps the canonical form. -/
theorem nvUndefine_wf {s : State} (a n : Nat) (h : Memory.wf s.nv.mem = true) :
    Memory.wf (nvUndefine a n s).nv.mem = true := smWf_smPutBytes a _ h

/-- The store right after reset is canonical. -/
theorem reset_wf : Memory.wf State.reset.nv.mem = true := rfl

end Sys2Proof.Machine
end

