-- ==== Sys2Proof/Safety.lean ====
section
/-! DEFINITION. What the claims speak of: the forms in which a command completes, and the invariant every step keeps. -/

namespace Sys2Proof.Machine

/-- The command completes: `exec` answers a next state, of which `P` holds. -/
def Gives (c : Instr) (s : State) (P : State → Prop) : Prop := ∃ u, exec c s = .next u ∧ P u

/-- The event with this code and instance has occurred: it counts for the standing orders of the coming cycle start or
of the one after (R110, R493). -/
def Occurred (code inst : Nat) (s : State) : Prop :=
  (BitVec.ofNat 16 code, BitVec.ofNat 8 inst) ∈ s.gr.evNow ++ s.gr.evNext

/-- The parts of the state a frame tells apart: device, node state, power domains, the rest of the power part, the instant in the cycle, the rest of the clock part, Hinge, train frame and message window, vehicle network, equipment ports, frame pool, Shutter, field channels, measurement unit, bench, cores, grid and standing orders, NV store, NV controller, command banks, the other registers, outputs, free values, the queue. -/
inductive Part
  | dev | node | doms | pwr | phase | cyc | hg | tf | vn | eq | pool | sh
  | ch | ms | bn | cr | gr | store | nv | banks | rg | wire | free | pending
deriving DecidableEq, Repr

/-- Every part whose bit in the mask is 0 is the same in both states. -/
structure Fr (m : Nat) (s u : State) : Prop where
  dev     : m.testBit 0 = false → u.dev = s.dev
  node    : m.testBit 1 = false → u.pwr.node = s.pwr.node
  doms    : m.testBit 2 = false → u.pwr.doms = s.pwr.doms
  pwr     : m.testBit 3 = false → { u.pwr with node := .off, doms := [] } = { s.pwr with node := .off, doms := [] }
  phase   : m.testBit 4 = false → u.cyc.phase = s.cyc.phase
  cyc     : m.testBit 5 = false → { u.cyc with phase := 0 } = { s.cyc with phase := 0 }
  hg      : m.testBit 6 = false → u.hg = s.hg
  tf      : m.testBit 7 = false → u.tf = s.tf
  vn      : m.testBit 8 = false → u.vn = s.vn
  eq      : m.testBit 9 = false → u.eq = s.eq
  pool    : m.testBit 10 = false → u.pool = s.pool
  sh      : m.testBit 11 = false → u.sh = s.sh
  ch      : m.testBit 12 = false → u.ch = s.ch
  ms      : m.testBit 13 = false → u.ms = s.ms
  bn      : m.testBit 14 = false → u.bn = s.bn
  cr      : m.testBit 15 = false → u.cr = s.cr
  gr      : m.testBit 16 = false → { u.gr with evNow := [], evNext := [] } = { s.gr with evNow := [], evNext := [] }
  store   : m.testBit 17 = false → (u.nv.mem, u.nv.wear, u.nv.erasedAt, u.nv.errs, u.nv.keys, u.nv.cfg) =
    (s.nv.mem, s.nv.wear, s.nv.erasedAt, s.nv.errs, s.nv.keys, s.nv.cfg)
  nv      : m.testBit 18 = false → u.nv = s.nv
  banks   : m.testBit 19 = false → u.rg.banks = s.rg.banks
  rg      : m.testBit 20 = false → { u.rg with banks := [] } = { s.rg with banks := [] }
  wire    : m.testBit 21 = false → u.wire = s.wire
  free    : m.testBit 22 = false → u.free = s.free
  pending : m.testBit 23 = false → u.pending = s.pending

/-- The mask of some parts. -/
def mask (ps : List Part) : Nat := ps.foldl (fun m p => m ||| 2 ^ p.ctorIdx) 0

/-- The parts that may change while the block runs any command at all: the instant and the outputs, and what the NV
controller changes when it takes up its next work (its own registers, command states, the verifier's domain). -/
def always : List Part := [.doms, .phase, .nv, .banks, .wire]

/-- From `s` to `u` at most the named parts change; logs and occurred events apart. -/
def ChangesOnly (ps : List Part) (s u : State) : Prop := Fr (mask ps) s u

/-- Whenever the command completes, at most these parts have changed, beside what any command may change. -/
def Touches (ps : List Part) (c : Instr) : Prop := ∀ s u, exec c s = .next u → ChangesOnly (always ++ ps) s u

/-- The canonical form of a sparse memory whose unlisted cells read as `d` gives: addresses strictly rising, from `n` on,
and no entry that equals what its address reads as unlisted. -/
def cellsFrom (d : Nat → Byte) : Nat → List Host.Cell → Bool
  | _, [] => true
  | n, (a, v) :: r => decide (n ≤ a) && decide (v ≠ d a) && cellsFrom d (a + 1) r

/-- The data memory of a core stands in its canonical form. -/
def dataWf (c : Core) : Bool := cellsFrom (dataDefault c) 0 c.data

/-- A core keeps 32 registers, at most 8 return entries and at most 4 loop entries (R371, R373), and its data memory is
canonical. -/
structure CoreInv (c : Core) : Prop where
  regs  : c.regs.length = 32
  rets  : c.rets.length ≤ 8
  loops : c.loops.length ≤ 4
  data  : dataWf c = true

/-- What holds in every state a run reaches: the NV store stands in its canonical form, every bank of like things has
the number the manual gives it, and the cores and the power log hold no more than the manual lets them hold. -/
structure Inv (s : State) : Prop where
  /-- The NV store is canonical (R409). -/
  mem : Memory.wf s.nv.mem = true
  /-- 128 power domains (R62). -/
  doms : s.pwr.doms.length = 128
  /-- Four backbone ports (R119). -/
  ports : s.hg.ports.length = 4
  /-- Four transmitters of the message window (R214). -/
  tx : s.tf.tx.length = 4
  /-- Four queues of forwarded frames (R217). -/
  fwd : s.tf.fwd.length = 4
  /-- Twelve branches (R220). -/
  branches : s.vn.br.length = 12
  /-- 64 static slots, received and transmitted (17, `VN_SLOT`). -/
  slotsRx : s.vn.rx.length = 64
  slotsTx : s.vn.txBuf.length = 64
  /-- Four equipment ports (09). -/
  eqPorts : s.eq.length = 4
  /-- 32 field channels (R318). -/
  chans : s.ch.length = 32
  /-- Three command banks (R468). -/
  banks : s.rg.banks.length = 3
  /-- Two drawers (R519). -/
  drawers : s.rg.drawers.length = 2
  /-- Eight key slots (R404). -/
  keys : s.nv.keys.length = 8
  /-- Two image slots (R406). -/
  refusals : s.nv.refusal.length = 2
  staged : s.nv.staged.length = 2
  /-- Two checkpoint copies in `PD119` (R102). -/
  copies : s.cr.chk.length = 2
  /-- Sixteen event latches (R481). -/
  latches : s.lg.evMatch.length = 16
  pxc : CoreInv s.cr.pxc
  rxc : CoreInv s.cr.rxc
  /-- The OPL holds 32 KiB (R507). -/
  opl : s.lg.oplUsed ≤ 32768
  /-- The frame pool (R273) and the captures of the measuring sets (R349) are canonical. -/
  bufs : smWf {} s.pool.bufs = true
  caps : smWf {} s.ms.caps = true
  capsPrev : smWf {} s.ms.capsPrev = true
  /-- Tickets are 0-15 (R361). -/
  tickets : s.bn.next < 16

/-! ### Forms the claims are written in -/

/-- The entry fires, and its table words hold no error. -/
def Fires (s : State) (kind : Byte) (i : Nat) (e : GridEntry) : Prop :=
  gridEntry s kind i = some e ∧ s.gr.errs.any (fun x => x.1 = i) = false

/-- The state in which the entry fires: its tick. -/
def atEntry (e : GridEntry) (s : State) : State := atTick e (begin_ 0 s)

/-- Hears: a Hinge frame is for the node to process (R117, R127, R128). -/
def Heard (sub : Byte) (p : Nat) (h : HingeHdr) (s : State) : Prop :=
  s.cycling = true ∧ h.version = 1 ∧ h.srcId ≠ s.dev.nodeId ∧ (s.hp p).speed ≠ 0 ∧ (⟨sub, h.srcId, h.icount, h.mseq⟩ : HgKey) ∉ s.hg.seen

/-- A command of a path is accepted at an instant (R469). -/
def Accepts (code : Byte) (p : Path) (args : List Word) (t : Nat) (s : State) : Prop :=
  pathOpen s p = true ∧ (bankOf s p).state ≠ 1 ∧ s.lg.lastAccept.elim true (fun x => x + 100000 ≤ s.cyc.base + max s.cyc.phase t) = true ∧
    cmdRefusal s p code args = none

/-- A command has been accepted: the next journal number, the journal entry, the bank (R469, R496). -/
def Entered (code : Byte) (p : Path) (args : List Word) (t : Nat) (s u : State) : Prop :=
  u.lg.jseq = s.lg.jseq + 1 ∧ u.lg.lastAccept = some (s.cyc.base + max s.cyc.phase t) ∧ (bankOf u p).jseq = s.lg.jseq ∧ (bankOf u p).code = code ∧
    (bankOf u p).waiting = none ∧ ∃ e ∈ u.lg.ring, e.jseq = s.lg.jseq ∧ e.code = code ∧ e.path = p ∧ e.args = args

/-- No iteration ends after the instruction at index `p`: the innermost open loop does not end there, or belongs to another call level (R381). -/
def NoEnd (p : Nat) (c : Core) : Prop := ∀ l r, c.loops = l :: r → l.stop ≠ p ∨ l.level ≠ c.rets.length

/-- The core in control is `c`; it runs task `t`, whose budget allows an instruction of `n` cycles. -/
structure Executes (n : Nat) (s : State) (c : Core) (t : TaskRun) : Prop where
  core : activeCore s = some c
  task : c.task = some t
  budget : t.e + n ≤ t.budget

/-- The instruction executes, no iteration ends after it, and it is not the last of code memory: it continues at the next index. -/
structure Running (n : Nat) (s : State) (c : Core) (t : TaskRun) : Prop extends Executes n s c t where
  noLoop : NoEnd c.pc c
  notLast : c.pc < 65535

/-- From `s` to `u` the core in control has yielded with this cause (R374). -/
def Yielded (cause : Nat) (s : State) (c : Core) (t : TaskRun) (u : State) : Prop :=
  u.cr.active = 2 ∧ u.cr.yieldReg = w32 (c.pc % 65536 * 65536 + t.entry % 256 * 256 + s.cr.active * 128 + cause % 128) ∧ Occurred 0x8100 0xFF u

/-- The core one instruction of `n` cycles later: the next index, `n` cycles on. -/
def stepped (n : Nat) (t : TaskRun) (c : Core) : Core := { c with pc := c.pc + 1, task := some { t with e := t.e + n } }

/-- The core after an answer of the words `vs` with ZN and C (R371, R372, R375). -/
def answered (d : BitVec 5) (vs : List Word) (carry : Bool) (c : Core) : Core :=
  { regsPut d vs c with z := vs.headD 0 = 0, n := (vs.headD 0).msb, c := carry, v := false }

/-- The core after a refusal that writes 0 to `k` registers (R375). -/
def refusedCore (d : BitVec 5) (k : Nat) (zn : Bool) (c : Core) : Core :=
  { regsPut d (List.replicate k 0) c with z := zn || c.z, n := !zn && c.n, c := false, v := true }

/-- The core that is not in control is as before, and of the cores' part nothing but the core in control has changed. -/
structure CoreKept (s u : State) : Prop where
  active : u.cr.active = s.cr.active
  pxc : s.cr.active ≠ 0 → u.cr.pxc = s.cr.pxc
  rxc : s.cr.active ≠ 1 → u.cr.rxc = s.cr.rxc
  rest : { u.cr with pxc := {}, rxc := {} } = { s.cr with pxc := {}, rxc := {} }

/-- Whenever the instruction ends with the same core in control (it did not yield), at most that core, the named parts
and what any command may change have changed. -/
def RunsOn (ps : List Part) (c : Instr) : Prop :=
  ∀ s u, exec c s = .next u → u.cr.active = s.cr.active → ChangesOnly (always ++ .cr :: ps) s u ∧ CoreKept s u

end Sys2Proof.Machine
end

