-- ==== Sys2Proof/Laws/InvBase.lean ====
section
/-! SUPPORT. The invariant `Inv` under the shared operations: updates of the state, cores, logs and raised events. -/

namespace Sys2Proof.Machine

/-- A record update of a state keeps the invariant when its new parts do. -/
theorem Inv.upd {X : State} {pwr cyc hg tf vn eq pool sh ch ms bn cr gr nv lg rg wire free pending} (hX : Inv X)
    (k : Inv X → Inv ⟨X.dev, pwr, cyc, hg, tf, vn, eq, pool, sh, ch, ms, bn, cr, gr, nv, lg, rg, wire, free, pending⟩) :
    Inv ⟨X.dev, pwr, cyc, hg, tf, vn, eq, pool, sh, ch, ms, bn, cr, gr, nv, lg, rg, wire, free, pending⟩ := k hX

/-- A fold keeps the invariant when its step does. -/
theorem foldl_inv {α : Type} {g : State → α → State} (l : List α) {s : State} (h : Inv s)
    (hg : ∀ s x, Inv s → Inv (g s x)) : Inv (l.foldl g s) := by
  induction l generalizing s with
  | nil => exact h
  | cons x r ih => exact ih (hg s x h)

theorem elim_inv {α : Type} {o : Option α} {s : State} {f : α → State} (h : Inv s) (hf : ∀ x, Inv (f x)) :
    Inv (o.elim s f) := by
  cases o with
  | none => exact h
  | some x => exact hf x

theorem ite_inv {c : Prop} [Decidable c] {a b : State} (ha : Inv a) (hb : Inv b) : Inv (if c then a else b) := by
  split
  · exact ha
  · exact hb

/-- A map changed entry by entry, without the entries that then equal what is unlisted, is canonical. -/
theorem smWfFrom_mapFilter {α : Type} [DecidableEq α] {d : α} {m : List (Nat × α)} {n : Nat} (g : α → α)
    (h : smWfFrom d n m = true) : smWfFrom d n ((m.map (fun e => (e.1, g e.2))).filter (fun e => e.2 ≠ d)) = true := by
  induction m generalizing n with
  | nil => rfl
  | cons e r ih =>
    have h' := h
    simp only [smWfFrom, Bool.and_eq_true, decide_eq_true_eq] at h'
    rw [List.map_cons, List.filter_cons]
    split
    · rename_i hx
      simp only [smWfFrom, Bool.and_eq_true, decide_eq_true_eq]
      exact ⟨⟨h'.1.1, by simpa using hx⟩, ih h'.2⟩
    · exact smWfFrom_mono (by omega) (ih h'.2)

/-! ### Data memory -/

theorem cellsFrom_mono {d : Nat → Byte} {m : List Host.Cell} {n k : Nat} (hk : k ≤ n) (h : cellsFrom d n m = true) :
    cellsFrom d k m = true := by
  cases m with
  | nil => rfl
  | cons e r =>
    simp only [cellsFrom, Bool.and_eq_true, decide_eq_true_eq] at h ⊢
    exact ⟨⟨hk.trans h.1.1, h.1.2⟩, h.2⟩

/-- Only what the listed addresses read as unlisted matters. -/
theorem cellsFrom_on {d e : Nat → Byte} {m : List Host.Cell} (h : ∀ x ∈ m, d x.1 = e x.1) (n : Nat) :
    cellsFrom d n m = cellsFrom e n m := by
  induction m generalizing n with
  | nil => rfl
  | cons x r ih =>
    unfold cellsFrom
    rw [h x (by simp), ih (fun y hy => h y (by simp [hy]))]

theorem cellsFrom_congr {d e : Nat → Byte} (h : ∀ a, d a = e a) (m : List Host.Cell) (n : Nat) :
    cellsFrom d n m = cellsFrom e n m := cellsFrom_on (fun x _ => h x.1) n

theorem cellsFrom_below {d : Nat → Byte} {m : List Host.Cell} {n k : Nat} (v : Byte) (hk : k < n)
    (h : cellsFrom d n m = true) : smGet v m k = v := by
  induction m generalizing n with
  | nil => rfl
  | cons e r ih =>
    simp only [cellsFrom, Bool.and_eq_true, decide_eq_true_eq] at h
    rw [smGet, if_neg (by omega)]
    exact ih (n := e.1 + 1) (by omega) h.2

/-- A write keeps the canonical form. -/
theorem cellsFrom_smPut {d : Nat → Byte} {m : List Host.Cell} {n : Nat} (k : Nat) (v : Byte) (hk : n ≤ k)
    (h : cellsFrom d n m = true) : cellsFrom d n (smPut (d k) m k v) = true := by
  induction m generalizing n with
  | nil =>
    rw [smPut]
    split
    · rfl
    · simp [cellsFrom, *]
  | cons e r ih =>
    obtain ⟨a, w⟩ := e
    have h' := h
    simp only [cellsFrom, Bool.and_eq_true, decide_eq_true_eq] at h'
    rw [smPut]
    split
    · split
      · exact h
      · simp only [cellsFrom, Bool.and_eq_true, decide_eq_true_eq]
        exact ⟨⟨hk, ‹_›⟩, ⟨by omega, h'.1.2⟩, h'.2⟩
    · split
      · split
        · exact cellsFrom_mono (by omega) h'.2
        · simp only [cellsFrom, Bool.and_eq_true, decide_eq_true_eq]
          subst k
          exact ⟨⟨hk, ‹_›⟩, h'.2⟩
      · simp only [cellsFrom, Bool.and_eq_true, decide_eq_true_eq]
        exact ⟨h'.1, ih (by omega) h'.2⟩

/-- Read after write: the address written gives the value, every other address what it gave. -/
theorem smGet_cells {d : Nat → Byte} {m : List Host.Cell} {n : Nat} (k j : Nat) (v : Byte)
    (h : cellsFrom d n m = true) : smGet (d j) (smPut (d k) m k v) j = if j = k then v else smGet (d j) m j := by
  induction m generalizing n with
  | nil =>
    rw [smPut]
    split
    · rename_i hv
      by_cases hj : j = k
      · subst hj; simp [smGet, hv]
      · simp [smGet, hj]
    · by_cases hj : j = k <;> simp [smGet, hj]
  | cons e r ih =>
    obtain ⟨a, w⟩ := e
    simp only [cellsFrom, Bool.and_eq_true, decide_eq_true_eq] at h
    rw [smPut]
    split
    · split
      · rename_i hv
        by_cases hj : j = k
        · subst hj
          rw [if_pos rfl, smGet, if_neg (by omega), hv]
          exact cellsFrom_below _ (n := a + 1) (by omega) h.2
        · rw [if_neg hj]
      · simp [smGet]
    · split
      · subst k
        split
        · rename_i hv
          by_cases hj : j = a
          · subst hj
            rw [if_pos rfl, hv]
            exact cellsFrom_below _ (n := j + 1) (by omega) h.2
          · rw [if_neg hj, smGet, if_neg hj]
        · by_cases hj : j = a <;> simp [smGet, hj]
      · rw [smGet, smGet]
        by_cases hj : j = a
        · rw [if_pos hj, if_neg (by omega), if_pos hj]
        · rw [if_neg hj, if_neg hj]
          exact ih h.2

theorem cellsFrom_filter {d : Nat → Byte} {m : List Host.Cell} {n : Nat} (p : Host.Cell → Bool) (h : cellsFrom d n m = true) :
    cellsFrom d n (m.filter p) = true := by
  induction m generalizing n with
  | nil => rfl
  | cons e r ih =>
    have h' := h
    simp only [cellsFrom, Bool.and_eq_true, decide_eq_true_eq] at h'
    rw [List.filter_cons]
    split
    · simp only [cellsFrom, Bool.and_eq_true, decide_eq_true_eq]
      exact ⟨h'.1, ih h'.2⟩
    · exact cellsFrom_mono (by omega) (ih h'.2)

/-- The initial data of an image are canonical. -/
theorem initialCells_wf (b : Bytes) : cellsFrom (fun _ => 0) 0 (initialCells b) = true := by
  suffices H : ∀ (b : Bytes) (n : Nat), cellsFrom (fun _ => 0) n (((b.zipIdx n).filter (fun e => e.1 ≠ 0)).map (fun e => (e.2, e.1))) = true from
    H b 0
  intro b
  induction b with
  | nil => intro n; rfl
  | cons x r ih =>
    intro n
    rw [List.zipIdx_cons, List.filter_cons]
    split
    · rename_i hx
      simp only [List.map_cons, cellsFrom, Bool.and_eq_true, decide_eq_true_eq]
      exact ⟨⟨Nat.le_refl _, by simpa using hx⟩, ih (n + 1)⟩
    · exact cellsFrom_mono (by omega) (ih (n + 1))

/-! ### Cores -/

theorem regPut_inv {c : Core} (x : BitVec 5) (v : Word) (h : CoreInv c) : CoreInv (regPut x v c) := by
  unfold regPut
  split
  · exact h
  · exact ⟨by simp [h.regs], h.rets, h.loops, h.data⟩

theorem coreStop_inv {c : Core} (h : CoreInv c) : CoreInv (coreStop c) := ⟨h.regs, by simp [coreStop], by simp [coreStop], h.data⟩

theorem coreLoad_inv {c : Core} (im : Image) (h : CoreInv c) : CoreInv (coreLoad im c) :=
  ⟨h.regs, h.rets, h.loops, by
    unfold dataWf
    refine (cellsFrom_congr (d := dataDefault (coreLoad im c)) (e := fun _ => 0) ?_ _ _).trans (initialCells_wf im.data)
    intro a
    show dataDefault (coreLoad im c) a = 0
    unfold dataDefault coreLoad
    dsimp only
    rw [show ([0, 0, 0, 0] : List Nat).getD (a / 65536) 0 = 0 by
      rcases a / 65536 with _ | _ | _ | _ | _ <;> rfl]
    rfl⟩

theorem coreOff_inv (n : Nat) : CoreInv (coreOff n) := ⟨by simp [coreOff], by simp [coreOff], by simp [coreOff], rfl⟩

theorem bankLost_inv {c : Core} (b m : Nat) (h : CoreInv c) : CoreInv (bankLost b m c) :=
  ⟨h.regs, h.rets, h.loops, by
    unfold dataWf
    refine (cellsFrom_on ?_ _).trans (cellsFrom_filter (fun e => decide (e.1 / 65536 ≠ b)) h.data)
    intro e he
    have hb : e.1 / 65536 ≠ b := by simpa using (List.mem_filter.mp he).2
    unfold dataDefault bankLost
    dsimp only
    rw [List.getD_eq_getElem?_getD, List.getElem?_set_ne (Ne.symm hb), ← List.getD_eq_getElem?_getD]⟩

theorem core_default_inv : CoreInv {} := ⟨by decide, by decide, by decide, rfl⟩

/-- Two cores with the same registers' number, the same stacks and the same data memory. -/
theorem CoreInv.of_eq {c d : Core} (h : CoreInv c) (h1 : d.regs.length = c.regs.length) (h2 : d.rets = c.rets)
    (h3 : d.loops = c.loops) (h4 : dataWf d = dataWf c) : CoreInv d := ⟨h1.trans h.regs, h2 ▸ h.rets, h3 ▸ h.loops, h4.trans h.data⟩

theorem setZn_inv {c : Core} (r : Word) (h : CoreInv c) : CoreInv (setZn r c) := ⟨h.regs, h.rets, h.loops, h.data⟩

theorem setAdd_inv {c : Core} (x y : Word) (h : CoreInv c) : CoreInv (setAdd x y c) := ⟨h.regs, h.rets, h.loops, h.data⟩

theorem setSub_inv {c : Core} (x y : Word) (h : CoreInv c) : CoreInv (setSub x y c) := ⟨h.regs, h.rets, h.loops, h.data⟩

theorem putZn_inv {c : Core} (d : BitVec 5) (r : Word) (h : CoreInv c) : CoreInv (putZn d r c) :=
  setZn_inv r (regPut_inv d r h)

theorem shiftOp_inv {c : Core} (k : Nat) (d : BitVec 5) (x : Word) (n : Nat) (h : CoreInv c) :
    CoreInv (shiftOp k d x n c) := by
  have h' := putZn_inv d (shifted k x n) h
  unfold shiftOp
  dsimp only
  split
  · exact h'
  · exact ⟨h'.regs, h'.rets, h'.loops, h'.data⟩

theorem mulOp_inv {c : Core} (d : BitVec 5) (x y : Word) (h : CoreInv c) : CoreInv (mulOp d x y c) := by
  have h' := putZn_inv d (BitVec.ofInt 32 (x.toInt * y.toInt)) h
  exact ⟨h'.regs, h'.rets, h'.loops, h'.data⟩

theorem wordClean_inv {c : Core} (a : Nat) (h : CoreInv c) : CoreInv (wordClean a c) := ⟨h.regs, h.rets, h.loops, h.data⟩

theorem dataPut_inv {c : Core} (a : Nat) (v : Byte) (h : CoreInv c) : CoreInv (dataPut a v c) :=
  ⟨h.regs, h.rets, h.loops, cellsFrom_smPut a v (Nat.zero_le _) h.data⟩

theorem dataPutBytes_inv (a : Nat) (b : Bytes) {c : Core} (h : CoreInv c) : CoreInv (dataPutBytes a b c) := by
  induction b generalizing a c with
  | nil => exact h
  | cons x r ih => exact ih (a + 1) (dataPut_inv a x h)

theorem memStore_inv {c : Core} (n : Nat) (d : BitVec 5) (a : Nat) (h : CoreInv c) : CoreInv (memStore n d a c) :=
  dataPutBytes_inv _ _ h

theorem chkScatter_inv {c : Core} (im : Image) (b : Bytes) (h : CoreInv c) : CoreInv (chkScatter im b c) := by
  unfold chkScatter
  suffices H : ∀ (l : List (Nat × Nat)) (p : Core × Bytes), CoreInv p.1 →
      CoreInv (l.foldl (fun (p : Core × Bytes) e => (dataPutBytes e.1 (p.2.take e.2) p.1, p.2.drop e.2)) p).1 from
    H _ _ h
  intro l
  induction l with
  | nil => intro p hp; exact hp
  | cons e r ih => intro p hp; exact ih _ (dataPutBytes_inv _ _ hp)

theorem taskStart_inv {c : Core} (im : Image) (e n : Nat) (h : CoreInv c) : CoreInv (taskStart im e n c) := by
  unfold taskStart
  split
  · exact h
  · exact ⟨by simp, by simp, by simp, h.data⟩

theorem regsPut_inv (d : BitVec 5) (l : List Word) {c : Core} (h : CoreInv c) : CoreInv (regsPut d l c) := by
  induction l generalizing d c with
  | nil => exact h
  | cons v r ih => exact ih (d + 1) (regPut_inv d v h)

theorem answer_inv {c : Core} (d : BitVec 5) (l : List Word) (b : Bool) (h : CoreInv c) : CoreInv (answer d l b c) := by
  have h' := regsPut_inv d l h
  exact ⟨h'.regs, h'.rets, h'.loops, h'.data⟩

theorem answerCode_inv {c : Core} (d : BitVec 5) (v : Word) (b : Bool) (h : CoreInv c) : CoreInv (answerCode d v b c) := by
  have h' := regsPut_inv d [v] h
  exact ⟨h'.regs, h'.rets, h'.loops, h'.data⟩

theorem refuseCore_inv {c : Core} (d : BitVec 5) (k : Nat) (b : Bool) (h : CoreInv c) : CoreInv (refuseCore d k b c) := by
  have h' := regsPut_inv d (List.replicate k 0) h
  unfold refuseCore
  dsimp only
  split <;> exact ⟨h'.regs, h'.rets, h'.loops, h'.data⟩

theorem done_inv {c : Core} (h : CoreInv c) : CoreInv (done_ c) := ⟨h.regs, h.rets, h.loops, h.data⟩

theorem popLoops_le (pc n : Nat) (l : List LoopEnt) : (popLoops pc n l).length ≤ l.length := List.length_filter_le _ _

/-- The core in control under the invariant. -/
theorem activeCore_inv {s : State} {c : Core} (h : Inv s) (hc : activeCore s = some c) : CoreInv c := by
  unfold activeCore at hc
  split at hc
  · cases hc; exact h.pxc
  · split at hc
    · cases hc; exact h.rxc
    · cases hc

theorem activeMod_inv (f : Core → Core) {s : State} (h : Inv s) (hf : ∀ c, CoreInv c → CoreInv (f c)) :
    Inv (activeMod f s) := by
  unfold activeMod
  split
  · exact { h with pxc := hf _ h.pxc }
  · split
    · exact { h with rxc := hf _ h.rxc }
    · exact h

/-- A change of the core in control that is told about that core alone. -/
theorem activeMod_inv_at (f : Core → Core) {s : State} (h : Inv s) (hf : ∀ c, activeCore s = some c → CoreInv (f c)) :
    Inv (activeMod f s) := by
  unfold activeMod
  unfold activeCore at hf
  split
  · exact { h with pxc := hf _ (by simp [*]) }
  · split
    · exact { h with rxc := hf _ (by simp [*]) }
    · exact h

theorem dataCoreMod_inv (f : Core → Core) {s : State} (h : Inv s) (hf : ∀ c, CoreInv c → CoreInv (f c)) :
    Inv (dataCoreMod f s) := by
  unfold dataCoreMod
  split
  · exact { h with rxc := hf _ h.rxc }
  · exact { h with pxc := hf _ h.pxc }

theorem iterEnds_inv (n p : Nat) {c : Core} (h : CoreInv c) : CoreInv (iterEnds n p c).2 := by
  induction n generalizing c with
  | zero => exact h
  | succ n ih =>
    unfold iterEnds
    split
    · exact h
    next l rest hl =>
      have hlen := h.loops
      rw [hl] at hlen
      simp only [List.length_cons] at hlen
      split
      · exact h
      split
      · exact ⟨h.regs, h.rets, by simpa using hlen, h.data⟩
      · exact ih ⟨h.regs, h.rets, by simp; omega, h.data⟩

/-! ### Updaters of one component -/

theorem chanMod_inv (n : Nat) (f : Chan → Chan) {s : State} (h : Inv s) : Inv (chanMod n f s) :=
  { h with chans := by simp [chanMod, h.chans] }

theorem brMod_inv (n : Nat) (f : Branch → Branch) {s : State} (h : Inv s) : Inv (brMod n f s) :=
  { h with branches := by simp [brMod, h.branches] }

theorem slotMod_inv (n : Nat) (f : SlotTx → SlotTx) {s : State} (h : Inv s) : Inv (slotMod n f s) :=
  { h with slotsTx := by simp [slotMod, h.slotsTx] }

theorem gotMod_inv (n : Nat) (f : SlotRx → SlotRx) {s : State} (h : Inv s) : Inv (gotMod n f s) :=
  { h with slotsRx := by simp [gotMod, h.slotsRx] }

theorem eqMod_inv (n : Nat) (f : EqPort → EqPort) {s : State} (h : Inv s) : Inv (eqMod n f s) :=
  { h with eqPorts := by simp [eqMod, h.eqPorts] }

theorem hpMod_inv (n : Nat) (f : HgPort → HgPort) {s : State} (h : Inv s) : Inv (hpMod n f s) :=
  { h with ports := by simp [hpMod, h.ports] }

theorem bankMod_inv (p : Path) (f : CmdBank → CmdBank) {s : State} (h : Inv s) : Inv (bankMod p f s) :=
  { h with banks := by simp [bankMod, h.banks] }

theorem drawerMod_inv (n : Nat) (f : Drawer → Drawer) {s : State} (h : Inv s) : Inv (drawerMod n f s) :=
  { h with drawers := by simp [drawerMod, h.drawers] }

theorem bufMod_inv (b : Nat) (f : Buf → Buf) {s : State} (h : Inv s) : Inv (bufMod b f s) := { h with bufs := smWf_smPut _ _ h.bufs }

theorem jobMod_inv (f : NvJob → NvJob) {s : State} (h : Inv s) : Inv (jobMod f s) := { h with }

theorem clsPut_inv (f : Classify → Classify) {s : State} (h : Inv s) : Inv (clsPut f s) := { h with }

theorem entryUpdate_inv (q : Word) (f : JEntry → JEntry) {s : State} (h : Inv s) : Inv (entryUpdate q f s) :=
  { h with }

theorem lineTimeMod_inv (l : Line) (f : LineTime → LineTime) {s : State} (h : Inv s) : Inv (lineTimeMod l f s) := by
  cases l <;> exact { h with }

/-! ### Logs and raised events -/

/-- What the invariant says of the logs. -/
structure LogInv (l : Logs) : Prop where
  latches : l.evMatch.length = 16
  opl     : l.oplUsed ≤ 32768

theorem Inv.logs {s : State} (h : Inv s) : LogInv s.lg := ⟨h.latches, h.opl⟩

theorem LogInv.put {s : State} (h : Inv s) {l : Logs} (hl : LogInv l) : Inv { s with lg := l } :=
  { h with latches := hl.latches, opl := hl.opl }

theorem oplAdd_inv (r : Bool) (c : Half) (i : Byte) (d : List Word) {l : Logs} (h : LogInv l) : LogInv (oplAdd r c i d l) := by
  unfold oplAdd
  split
  · exact { h with }
  split
  · exact h
  dsimp only
  split
  · exact { h with opl := by assumption }
  · exact { h with }

theorem incTrailer_inv {l : Logs} (h : LogInv l) : LogInv (incTrailer l) := by
  unfold incTrailer
  split
  · exact h
  split
  · exact h
  split
  · exact { h with }
  split <;> exact { h with }

theorem incRepeat_inv (o : Word) (p : BitVec 24) {l : Logs} (h : LogInv l) : LogInv (incRepeat o p l) := by
  unfold incRepeat
  split
  · exact h
  dsimp only
  split
  · exact incTrailer_inv { h with }
  · exact { h with }

theorem incAdd_inv (r : Bool) (o : Word) (p : BitVec 24) (c : Half) (i : Byte) (d : List Word) {l : Logs} (h : LogInv l) :
    LogInv (incAdd r o p c i d l) := by
  unfold incAdd
  have h' := incTrailer_inv h
  split
  · exact incRepeat_inv o p h
  dsimp only
  split
  · exact h'
  split
  · exact { h' with }
  split <;> exact { h' with }

theorem noteEvent_inv (c : Half) (i : Byte) {s : State} (h : Inv s) : Inv (noteEvent c i s) := by
  unfold noteEvent noteWindow
  dsimp only
  split <;> split <;> exact { h with }

theorem logOpl_inv (r : Bool) (c : Half) (i : Byte) (d : List Word) {s : State} (h : Inv s) : Inv (logOpl r c i d s) := by
  have h' := oplAdd_inv r c i d h.logs
  unfold logOpl
  dsimp only
  split
  · exact noteEvent_inv _ _ (LogInv.put h (incAdd_inv _ _ _ _ _ _ h'))
  · exact LogInv.put h h'

theorem logInc_inv (r : Bool) (c : Half) (i : Byte) (d : List Word) {s : State} (h : Inv s) : Inv (logInc r c i d s) := by
  have h' := LogInv.put h (incAdd_inv r s.pwr.opsec s.pwr.pcyc c i d h.logs)
  unfold logInc
  dsimp only
  split
  · exact noteEvent_inv _ _ (logOpl_inv _ _ _ _ h')
  · exact h'

theorem raiseTo_inv (l : EvLogs) (c : Half) (i : Byte) (d : List Word) {s : State} (h : Inv s) : Inv (raiseTo l c i d s) := by
  have h' := noteEvent_inv c i h
  unfold raiseTo
  dsimp only
  split <;> split <;> first
    | exact logInc_inv _ _ _ _ (logOpl_inv _ _ _ _ h')
    | exact logOpl_inv _ _ _ _ h'
    | exact logInc_inv _ _ _ _ h'
    | exact h'

theorem raise_inv (c i : Nat) (d : List Word) {s : State} (h : Inv s) : Inv (raise c i d s) := raiseTo_inv _ _ _ _ h

/-! ### The NV store -/

theorem nvUndefine_inv (a n : Nat) {s : State} (h : Inv s) : Inv (nvUndefine a n s) := { h with mem := nvUndefine_wf a n h.mem }

theorem eraseDone_inv (sec : Nat) {s : State} (h : Inv s) : Inv (eraseDone sec s) := by
  have h' : Inv { s with nv := { nvErase sec s.pwr.opsec s.nv with eraseMark := none } } :=
    { h with mem := nvErase_wf sec s.pwr.opsec h.mem, keys := h.keys, refusals := h.refusals, staged := h.staged }
  unfold eraseDone
  dsimp only
  split
  · exact raise_inv _ _ _ h'
  · exact h'

theorem nvWrite_inv (a : Nat) (b : Bytes) {s : State} (h : Inv s) : Inv { s with nv := nvWrite a b s.nv } :=
  { h with mem := nvWrite_wf a b h.mem, keys := h.keys, refusals := h.refusals, staged := h.staged }

end Sys2Proof.Machine
end

