-- ==== Sys2Proof/Laws/Inv.lean ====
section
/-! SUPPORT. The invariant `Inv` under every operation of the model. -/

set_option linter.all false

namespace Sys2Proof.Machine

theorem noteWindow_inv {s : State} (h : Inv s) : ∀ a0 a1, Inv (noteWindow a0 a1 s) := by
  intro a0 a1
  unfold noteWindow
  try dsimp only
  repeat' (first
    | assumption
    | split
    | (with_reducible refine Inv.upd ?_ (fun k => { k with }))
    | intro _)

theorem resettle_inv {s : State} (h : Inv s) : Inv (resettle s) := by
  unfold resettle
  try dsimp only
  repeat' (first
    | assumption
    | split
    | (with_reducible refine Inv.upd ?_ (fun k => ?_); on_goal 2 => (first | exact { k with } | exact ⟨by first | exact k.mem | exact nvWrite_wf _ _ k.mem | exact smWf_smPutBytes _ _ k.mem, by first | exact k.doms | (simp only [List.length_modify, List.length_set, List.length_map, List.length_zipIdx, List.length_replicate, List.length_range]; first | done | exact k.doms) | rfl, by first | exact k.ports | (simp only [List.length_modify, List.length_set, List.length_map, List.length_zipIdx, List.length_replicate, List.length_range]; first | done | exact k.ports) | rfl, by first | exact k.tx | (simp only [List.length_modify, List.length_set, List.length_map, List.length_zipIdx, List.length_replicate, List.length_range]; first | done | exact k.tx) | rfl, by first | exact k.fwd | (simp only [List.length_modify, List.length_set, List.length_map, List.length_zipIdx, List.length_replicate, List.length_range]; first | done | exact k.fwd) | rfl, by first | exact k.branches | (simp only [List.length_modify, List.length_set, List.length_map, List.length_zipIdx, List.length_replicate, List.length_range]; first | done | exact k.branches) | rfl, by first | exact k.slotsRx | (simp only [List.length_modify, List.length_set, List.length_map, List.length_zipIdx, List.length_replicate, List.length_range]; first | done | exact k.slotsRx) | rfl, by first | exact k.slotsTx | (simp only [List.length_modify, List.length_set, List.length_map, List.length_zipIdx, List.length_replicate, List.length_range]; first | done | exact k.slotsTx) | rfl, by first | exact k.eqPorts | (simp only [List.length_modify, List.length_set, List.length_map, List.length_zipIdx, List.length_replicate, List.length_range]; first | done | exact k.eqPorts) | rfl, by first | exact k.chans | (simp only [List.length_modify, List.length_set, List.length_map, List.length_zipIdx, List.length_replicate, List.length_range]; first | done | exact k.chans) | rfl, by first | exact k.banks | (simp only [List.length_modify, List.length_set, List.length_map, List.length_zipIdx, List.length_replicate, List.length_range]; first | done | exact k.banks) | rfl, by first | exact k.drawers | (simp only [List.length_modify, List.length_set, List.length_map, List.length_zipIdx, List.length_replicate, List.length_range]; first | done | exact k.drawers) | rfl, by first | exact k.keys | (simp only [List.length_modify, List.length_set, List.length_map, List.length_zipIdx, List.length_replicate, List.length_range]; first | done | exact k.keys) | rfl, by first | exact k.refusals | (simp only [List.length_modify, List.length_set, List.length_map, List.length_zipIdx, List.length_replicate, List.length_range]; first | done | exact k.refusals) | rfl, by first | exact k.staged | (simp only [List.length_modify, List.length_set, List.length_map, List.length_zipIdx, List.length_replicate, List.length_range]; first | done | exact k.staged) | rfl, by first | exact k.copies | (simp only [List.length_modify, List.length_set, List.length_map, List.length_zipIdx, List.length_replicate, List.length_range]; first | done | exact k.copies) | rfl, by first | exact k.latches | (simp only [List.length_modify, List.length_set, List.length_map, List.length_zipIdx, List.length_replicate, List.length_range]; first | done | exact k.latches) | rfl, by first | exact k.pxc | (repeat' first | exact k.pxc | exact k.rxc | exact core_default_inv | apply coreLoad_inv | apply coreStop_inv | apply chkScatter_inv | apply coreOff_inv | apply taskStart_inv), by first | exact k.rxc | (repeat' first | exact k.pxc | exact k.rxc | exact core_default_inv | apply coreLoad_inv | apply coreStop_inv | apply chkScatter_inv | apply coreOff_inv | apply taskStart_inv), by first | exact k.opl | simp | (simp only [List.length_modify, List.length_set, List.length_map, List.length_zipIdx, List.length_replicate, List.length_range]; exact k.opl), by first | exact k.bufs | exact smWf_smPut _ _ k.bufs | rfl, by first | exact k.caps | exact smWf_smPut _ _ k.caps | rfl, by first | exact k.capsPrev | exact smWf_smPut _ _ k.capsPrev | rfl, by first | exact k.tickets | exact Nat.mod_lt _ (by decide) | decide⟩))
    | intro _)

theorem stepTimeout_inv {s : State} (h : Inv s) : ∀ a0, Inv (stepTimeout a0 s) := by
  intro a0
  unfold stepTimeout
  try dsimp only
  repeat' (first
    | assumption
    | with_reducible apply raise_inv
    | with_reducible apply resettle_inv
    | with_reducible apply hpMod_inv
    | split
    | (with_reducible refine Inv.upd ?_ (fun k => { k with }))
    | intro _)

theorem incCleared_inv {s : State} (h : Inv s) : ∀ a0, Inv (incCleared a0 s) := by
  intro a0
  unfold incCleared
  try dsimp only
  repeat' (first
    | assumption
    | with_reducible apply raiseTo_inv
    | split
    | (with_reducible refine Inv.upd ?_ (fun k => { k with }))
    | intro _)

theorem execPrune_inv {s : State} (h : Inv s) : Inv (execPrune s) :=
  { h with }
theorem bankShow_inv {s : State} (h : Inv s) : ∀ a0 a1 a2 a3 a4, Inv (bankShow a0 a1 a2 a3 a4 s) := by
  intro a0 a1 a2 a3 a4
  unfold bankShow
  try dsimp only
  repeat' (first
    | assumption
    | split
    | (with_reducible refine Inv.upd ?_ (fun k => ?_); on_goal 2 => (first | exact { k with } | exact ⟨by first | exact k.mem | exact nvWrite_wf _ _ k.mem | exact smWf_smPutBytes _ _ k.mem, by first | exact k.doms | (simp only [List.length_modify, List.length_set, List.length_map, List.length_zipIdx, List.length_replicate, List.length_range]; first | done | exact k.doms) | rfl, by first | exact k.ports | (simp only [List.length_modify, List.length_set, List.length_map, List.length_zipIdx, List.length_replicate, List.length_range]; first | done | exact k.ports) | rfl, by first | exact k.tx | (simp only [List.length_modify, List.length_set, List.length_map, List.length_zipIdx, List.length_replicate, List.length_range]; first | done | exact k.tx) | rfl, by first | exact k.fwd | (simp only [List.length_modify, List.length_set, List.length_map, List.length_zipIdx, List.length_replicate, List.length_range]; first | done | exact k.fwd) | rfl, by first | exact k.branches | (simp only [List.length_modify, List.length_set, List.length_map, List.length_zipIdx, List.length_replicate, List.length_range]; first | done | exact k.branches) | rfl, by first | exact k.slotsRx | (simp only [List.length_modify, List.length_set, List.length_map, List.length_zipIdx, List.length_replicate, List.length_range]; first | done | exact k.slotsRx) | rfl, by first | exact k.slotsTx | (simp only [List.length_modify, List.length_set, List.length_map, List.length_zipIdx, List.length_replicate, List.length_range]; first | done | exact k.slotsTx) | rfl, by first | exact k.eqPorts | (simp only [List.length_modify, List.length_set, List.length_map, List.length_zipIdx, List.length_replicate, List.length_range]; first | done | exact k.eqPorts) | rfl, by first | exact k.chans | (simp only [List.length_modify, List.length_set, List.length_map, List.length_zipIdx, List.length_replicate, List.length_range]; first | done | exact k.chans) | rfl, by first | exact k.banks | (simp only [List.length_modify, List.length_set, List.length_map, List.length_zipIdx, List.length_replicate, List.length_range]; first | done | exact k.banks) | rfl, by first | exact k.drawers | (simp only [List.length_modify, List.length_set, List.length_map, List.length_zipIdx, List.length_replicate, List.length_range]; first | done | exact k.drawers) | rfl, by first | exact k.keys | (simp only [List.length_modify, List.length_set, List.length_map, List.length_zipIdx, List.length_replicate, List.length_range]; first | done | exact k.keys) | rfl, by first | exact k.refusals | (simp only [List.length_modify, List.length_set, List.length_map, List.length_zipIdx, List.length_replicate, List.length_range]; first | done | exact k.refusals) | rfl, by first | exact k.staged | (simp only [List.length_modify, List.length_set, List.length_map, List.length_zipIdx, List.length_replicate, List.length_range]; first | done | exact k.staged) | rfl, by first | exact k.copies | (simp only [List.length_modify, List.length_set, List.length_map, List.length_zipIdx, List.length_replicate, List.length_range]; first | done | exact k.copies) | rfl, by first | exact k.latches | (simp only [List.length_modify, List.length_set, List.length_map, List.length_zipIdx, List.length_replicate, List.length_range]; first | done | exact k.latches) | rfl, by first | exact k.pxc | (repeat' first | exact k.pxc | exact k.rxc | exact core_default_inv | apply coreLoad_inv | apply coreStop_inv | apply chkScatter_inv | apply coreOff_inv | apply taskStart_inv), by first | exact k.rxc | (repeat' first | exact k.pxc | exact k.rxc | exact core_default_inv | apply coreLoad_inv | apply coreStop_inv | apply chkScatter_inv | apply coreOff_inv | apply taskStart_inv), by first | exact k.opl | simp | (simp only [List.length_modify, List.length_set, List.length_map, List.length_zipIdx, List.length_replicate, List.length_range]; exact k.opl), by first | exact k.bufs | exact smWf_smPut _ _ k.bufs | rfl, by first | exact k.caps | exact smWf_smPut _ _ k.caps | rfl, by first | exact k.capsPrev | exact smWf_smPut _ _ k.capsPrev | rfl, by first | exact k.tickets | exact Nat.mod_lt _ (by decide) | decide⟩))
    | intro _)

theorem cmdState_inv {s : State} (h : Inv s) : ∀ a0 a1 a2 a3, Inv (cmdState a0 a1 a2 a3 s) := by
  intro a0 a1 a2 a3
  unfold cmdState
  try dsimp only
  repeat' (first
    | assumption
    | with_reducible apply entryUpdate_inv
    | with_reducible apply execPrune_inv
    | with_reducible apply bankShow_inv
    | split
    | (with_reducible refine Inv.upd ?_ (fun k => { k with }))
    | intro _)

theorem abandonCommands_inv {s : State} (h : Inv s) : ∀ a0, Inv (abandonCommands a0 s) := by
  intro a0
  unfold abandonCommands
  try dsimp only
  repeat' (first
    | assumption
    | with_reducible apply cmdState_inv
    | (with_reducible apply foldl_inv)
    | split
    | intro _)

theorem cutJob_inv {s : State} (h : Inv s) : Inv (cutJob s) := by
  unfold cutJob
  try dsimp only
  repeat' (first
    | assumption
    | (with_reducible apply elim_inv)
    | split
    | (with_reducible refine Inv.upd ?_ (fun k => { k with }))
    | intro _)

theorem cutChk_inv {s : State} (h : Inv s) : Inv (cutChk s) := by
  unfold cutChk
  try dsimp only
  repeat' (first
    | assumption
    | split
    | (with_reducible refine Inv.upd ?_ (fun k => { k with }))
    | intro _)

theorem cutInc_inv {s : State} (h : Inv s) : Inv (cutInc s) := by
  unfold cutInc
  try dsimp only
  repeat' (first
    | assumption
    | (with_reducible apply elim_inv)
    | split
    | (with_reducible refine Inv.upd ?_ (fun k => { k with }))
    | intro _)

theorem drawn_inv {s : State} (h : Inv s) : Inv (drawn s) := by
  unfold drawn
  try dsimp only
  repeat' (first
    | assumption
    | split
    | (with_reducible refine Inv.upd ?_ (fun k => { k with }))
    | intro _)

theorem cutOp_inv {s : State} (h : Inv s) : Inv (cutOp s) := by
  unfold cutOp
  split
  · exact ite_inv (nvUndefine_inv _ _ h) (ite_inv h (nvUndefine_inv _ _ h))
  · exact h
theorem nvCut_inv {s : State} (h : Inv s) : Inv (nvCut s) := by
  unfold nvCut
  try dsimp only
  repeat' (first
    | assumption
    | with_reducible apply cutJob_inv
    | with_reducible apply cutChk_inv
    | with_reducible apply cutInc_inv
    | with_reducible apply cutOp_inv
    | split
    | (with_reducible refine Inv.upd ?_ (fun k => { k with }))
    | intro _)

theorem startFlush_inv {s : State} (h : Inv s) : ∀ a0, Inv (startFlush a0 s) := by
  intro a0
  unfold startFlush
  try dsimp only
  repeat' (first
    | assumption
    | with_reducible apply noteEvent_inv
    | with_reducible apply abandonCommands_inv
    | with_reducible apply nvCut_inv
    | split
    | (with_reducible refine Inv.upd ?_ (fun k => { k with }))
    | intro _)

theorem noImageTimeout_inv {s : State} (h : Inv s) : Inv (noImageTimeout s) := by
  unfold noImageTimeout
  try dsimp only
  repeat' (first
    | assumption
    | with_reducible apply raise_inv
    | split
    | (with_reducible refine Inv.upd ?_ (fun k => { k with }))
    | intro _)

theorem drawerGo_inv {s : State} (h : Inv s) : ∀ a0 a1, Inv (drawerGo a0 a1 s) := by
  intro a0 a1
  unfold drawerGo
  try dsimp only
  repeat' (first
    | assumption
    | with_reducible apply drawerMod_inv
    | split
    | (with_reducible refine Inv.upd ?_ (fun k => { k with }))
    | intro _)

theorem drawerNext_inv {s : State} (h : Inv s) : ∀ a0, Inv (drawerNext a0 s) := by
  intro a0
  unfold drawerNext
  try dsimp only
  repeat' (first
    | assumption
    | with_reducible apply drawerGo_inv
    | split
    | intro _)

theorem drawerPrev_inv {s : State} (h : Inv s) : ∀ a0, Inv (drawerPrev a0 s) := by
  intro a0
  unfold drawerPrev
  try dsimp only
  repeat' (first
    | assumption
    | with_reducible apply drawerGo_inv
    | split
    | intro _)

theorem drawerCtrl_inv {s : State} (h : Inv s) : ∀ a0 a1, Inv (drawerCtrl a0 a1 s) := by
  intro a0 a1
  unfold drawerCtrl
  try dsimp only
  repeat' (first
    | assumption
    | with_reducible apply drawerNext_inv
    | with_reducible apply drawerPrev_inv
    | split
    | intro _)

theorem drawerNextRow_inv {s : State} (h : Inv s) : ∀ a0, Inv (drawerNextRow a0 s) := by
  intro a0
  unfold drawerNextRow
  try dsimp only
  repeat' (first
    | assumption
    | with_reducible apply drawerCtrl_inv
    | split
    | intro _)

theorem emit_inv {s : State} (h : Inv s) : ∀ a0, Inv (emit a0 s) := by
  intro a0
  unfold emit
  try dsimp only
  repeat' (first
    | assumption
    | split
    | (with_reducible refine Inv.upd ?_ (fun k => { k with }))
    | intro _)

theorem portTx_inv {s : State} (h : Inv s) : ∀ a0 a1, Inv (portTx a0 a1 s) := by
  intro a0 a1
  unfold portTx
  try dsimp only
  repeat' (first
    | assumption
    | split
    | (with_reducible refine Inv.upd ?_ (fun k => ?_); on_goal 2 => (first | exact { k with } | exact ⟨by first | exact k.mem | exact nvWrite_wf _ _ k.mem | exact smWf_smPutBytes _ _ k.mem, by first | exact k.doms | (simp only [List.length_modify, List.length_set, List.length_map, List.length_zipIdx, List.length_replicate, List.length_range]; first | done | exact k.doms) | rfl, by first | exact k.ports | (simp only [List.length_modify, List.length_set, List.length_map, List.length_zipIdx, List.length_replicate, List.length_range]; first | done | exact k.ports) | rfl, by first | exact k.tx | (simp only [List.length_modify, List.length_set, List.length_map, List.length_zipIdx, List.length_replicate, List.length_range]; first | done | exact k.tx) | rfl, by first | exact k.fwd | (simp only [List.length_modify, List.length_set, List.length_map, List.length_zipIdx, List.length_replicate, List.length_range]; first | done | exact k.fwd) | rfl, by first | exact k.branches | (simp only [List.length_modify, List.length_set, List.length_map, List.length_zipIdx, List.length_replicate, List.length_range]; first | done | exact k.branches) | rfl, by first | exact k.slotsRx | (simp only [List.length_modify, List.length_set, List.length_map, List.length_zipIdx, List.length_replicate, List.length_range]; first | done | exact k.slotsRx) | rfl, by first | exact k.slotsTx | (simp only [List.length_modify, List.length_set, List.length_map, List.length_zipIdx, List.length_replicate, List.length_range]; first | done | exact k.slotsTx) | rfl, by first | exact k.eqPorts | (simp only [List.length_modify, List.length_set, List.length_map, List.length_zipIdx, List.length_replicate, List.length_range]; first | done | exact k.eqPorts) | rfl, by first | exact k.chans | (simp only [List.length_modify, List.length_set, List.length_map, List.length_zipIdx, List.length_replicate, List.length_range]; first | done | exact k.chans) | rfl, by first | exact k.banks | (simp only [List.length_modify, List.length_set, List.length_map, List.length_zipIdx, List.length_replicate, List.length_range]; first | done | exact k.banks) | rfl, by first | exact k.drawers | (simp only [List.length_modify, List.length_set, List.length_map, List.length_zipIdx, List.length_replicate, List.length_range]; first | done | exact k.drawers) | rfl, by first | exact k.keys | (simp only [List.length_modify, List.length_set, List.length_map, List.length_zipIdx, List.length_replicate, List.length_range]; first | done | exact k.keys) | rfl, by first | exact k.refusals | (simp only [List.length_modify, List.length_set, List.length_map, List.length_zipIdx, List.length_replicate, List.length_range]; first | done | exact k.refusals) | rfl, by first | exact k.staged | (simp only [List.length_modify, List.length_set, List.length_map, List.length_zipIdx, List.length_replicate, List.length_range]; first | done | exact k.staged) | rfl, by first | exact k.copies | (simp only [List.length_modify, List.length_set, List.length_map, List.length_zipIdx, List.length_replicate, List.length_range]; first | done | exact k.copies) | rfl, by first | exact k.latches | (simp only [List.length_modify, List.length_set, List.length_map, List.length_zipIdx, List.length_replicate, List.length_range]; first | done | exact k.latches) | rfl, by first | exact k.pxc | (repeat' first | exact k.pxc | exact k.rxc | exact core_default_inv | apply coreLoad_inv | apply coreStop_inv | apply chkScatter_inv | apply coreOff_inv | apply taskStart_inv), by first | exact k.rxc | (repeat' first | exact k.pxc | exact k.rxc | exact core_default_inv | apply coreLoad_inv | apply coreStop_inv | apply chkScatter_inv | apply coreOff_inv | apply taskStart_inv), by first | exact k.opl | simp | (simp only [List.length_modify, List.length_set, List.length_map, List.length_zipIdx, List.length_replicate, List.length_range]; exact k.opl), by first | exact k.bufs | exact smWf_smPut _ _ k.bufs | rfl, by first | exact k.caps | exact smWf_smPut _ _ k.caps | rfl, by first | exact k.capsPrev | exact smWf_smPut _ _ k.capsPrev | rfl, by first | exact k.tickets | exact Nat.mod_lt _ (by decide) | decide⟩))
    | intro _)

theorem originate_inv {s : State} (h : Inv s) : ∀ a0, Inv (originate a0 s) := by
  intro a0
  unfold originate
  try dsimp only
  repeat' (first
    | assumption
    | (with_reducible apply elim_inv)
    | split
    | (with_reducible refine Inv.upd ?_ (fun k => { k with }))
    | intro _)

theorem portStart_inv {s : State} (h : Inv s) : ∀ a0, Inv (portStart a0 s) := by
  intro a0
  unfold portStart
  try dsimp only
  repeat' (first
    | assumption
    | with_reducible apply emit_inv
    | with_reducible apply portTx_inv
    | with_reducible apply originate_inv
    | split
    | (with_reducible refine Inv.upd ?_ (fun k => ?_); on_goal 2 => (first | exact { k with } | exact ⟨by first | exact k.mem | exact nvWrite_wf _ _ k.mem | exact smWf_smPutBytes _ _ k.mem, by first | exact k.doms | (simp only [List.length_modify, List.length_set, List.length_map, List.length_zipIdx, List.length_replicate, List.length_range]; first | done | exact k.doms) | rfl, by first | exact k.ports | (simp only [List.length_modify, List.length_set, List.length_map, List.length_zipIdx, List.length_replicate, List.length_range]; first | done | exact k.ports) | rfl, by first | exact k.tx | (simp only [List.length_modify, List.length_set, List.length_map, List.length_zipIdx, List.length_replicate, List.length_range]; first | done | exact k.tx) | rfl, by first | exact k.fwd | (simp only [List.length_modify, List.length_set, List.length_map, List.length_zipIdx, List.length_replicate, List.length_range]; first | done | exact k.fwd) | rfl, by first | exact k.branches | (simp only [List.length_modify, List.length_set, List.length_map, List.length_zipIdx, List.length_replicate, List.length_range]; first | done | exact k.branches) | rfl, by first | exact k.slotsRx | (simp only [List.length_modify, List.length_set, List.length_map, List.length_zipIdx, List.length_replicate, List.length_range]; first | done | exact k.slotsRx) | rfl, by first | exact k.slotsTx | (simp only [List.length_modify, List.length_set, List.length_map, List.length_zipIdx, List.length_replicate, List.length_range]; first | done | exact k.slotsTx) | rfl, by first | exact k.eqPorts | (simp only [List.length_modify, List.length_set, List.length_map, List.length_zipIdx, List.length_replicate, List.length_range]; first | done | exact k.eqPorts) | rfl, by first | exact k.chans | (simp only [List.length_modify, List.length_set, List.length_map, List.length_zipIdx, List.length_replicate, List.length_range]; first | done | exact k.chans) | rfl, by first | exact k.banks | (simp only [List.length_modify, List.length_set, List.length_map, List.length_zipIdx, List.length_replicate, List.length_range]; first | done | exact k.banks) | rfl, by first | exact k.drawers | (simp only [List.length_modify, List.length_set, List.length_map, List.length_zipIdx, List.length_replicate, List.length_range]; first | done | exact k.drawers) | rfl, by first | exact k.keys | (simp only [List.length_modify, List.length_set, List.length_map, List.length_zipIdx, List.length_replicate, List.length_range]; first | done | exact k.keys) | rfl, by first | exact k.refusals | (simp only [List.length_modify, List.length_set, List.length_map, List.length_zipIdx, List.length_replicate, List.length_range]; first | done | exact k.refusals) | rfl, by first | exact k.staged | (simp only [List.length_modify, List.length_set, List.length_map, List.length_zipIdx, List.length_replicate, List.length_range]; first | done | exact k.staged) | rfl, by first | exact k.copies | (simp only [List.length_modify, List.length_set, List.length_map, List.length_zipIdx, List.length_replicate, List.length_range]; first | done | exact k.copies) | rfl, by first | exact k.latches | (simp only [List.length_modify, List.length_set, List.length_map, List.length_zipIdx, List.length_replicate, List.length_range]; first | done | exact k.latches) | rfl, by first | exact k.pxc | (repeat' first | exact k.pxc | exact k.rxc | exact core_default_inv | apply coreLoad_inv | apply coreStop_inv | apply chkScatter_inv | apply coreOff_inv | apply taskStart_inv), by first | exact k.rxc | (repeat' first | exact k.pxc | exact k.rxc | exact core_default_inv | apply coreLoad_inv | apply coreStop_inv | apply chkScatter_inv | apply coreOff_inv | apply taskStart_inv), by first | exact k.opl | simp | (simp only [List.length_modify, List.length_set, List.length_map, List.length_zipIdx, List.length_replicate, List.length_range]; exact k.opl), by first | exact k.bufs | exact smWf_smPut _ _ k.bufs | rfl, by first | exact k.caps | exact smWf_smPut _ _ k.caps | rfl, by first | exact k.capsPrev | exact smWf_smPut _ _ k.capsPrev | rfl, by first | exact k.tickets | exact Nat.mod_lt _ (by decide) | decide⟩))
    | intro _)

theorem hingeSend_inv {s : State} (h : Inv s) : ∀ a0 a1, Inv (hingeSend a0 a1 s) := by
  intro a0 a1
  unfold hingeSend
  try dsimp only
  repeat' (first
    | assumption
    | with_reducible apply emit_inv
    | with_reducible apply portStart_inv
    | split
    | (with_reducible refine Inv.upd ?_ (fun k => { k with }))
    | intro _)

theorem hingeOwn_inv {s : State} (h : Inv s) : ∀ a0 a1 a2, Inv (hingeOwn a0 a1 a2 s) := by
  intro a0 a1 a2
  unfold hingeOwn
  try dsimp only
  repeat' (first
    | assumption
    | with_reducible apply hingeSend_inv
    | (with_reducible apply foldl_inv)
    | split
    | (with_reducible refine Inv.upd ?_ (fun k => { k with }))
    | intro _)

theorem inaugEnter_inv {s : State} (h : Inv s) : ∀ a0 a1, Inv (inaugEnter a0 a1 s) := by
  intro a0 a1
  unfold inaugEnter
  try dsimp only
  repeat' (first
    | assumption
    | with_reducible apply raise_inv
    | split
    | (with_reducible refine Inv.upd ?_ (fun k => ?_); on_goal 2 => (first | exact { k with } | exact ⟨by first | exact k.mem | exact nvWrite_wf _ _ k.mem | exact smWf_smPutBytes _ _ k.mem, by first | exact k.doms | (simp only [List.length_modify, List.length_set, List.length_map, List.length_zipIdx, List.length_replicate, List.length_range]; first | done | exact k.doms) | rfl, by first | exact k.ports | (simp only [List.length_modify, List.length_set, List.length_map, List.length_zipIdx, List.length_replicate, List.length_range]; first | done | exact k.ports) | rfl, by first | exact k.tx | (simp only [List.length_modify, List.length_set, List.length_map, List.length_zipIdx, List.length_replicate, List.length_range]; first | done | exact k.tx) | rfl, by first | exact k.fwd | (simp only [List.length_modify, List.length_set, List.length_map, List.length_zipIdx, List.length_replicate, List.length_range]; first | done | exact k.fwd) | rfl, by first | exact k.branches | (simp only [List.length_modify, List.length_set, List.length_map, List.length_zipIdx, List.length_replicate, List.length_range]; first | done | exact k.branches) | rfl, by first | exact k.slotsRx | (simp only [List.length_modify, List.length_set, List.length_map, List.length_zipIdx, List.length_replicate, List.length_range]; first | done | exact k.slotsRx) | rfl, by first | exact k.slotsTx | (simp only [List.length_modify, List.length_set, List.length_map, List.length_zipIdx, List.length_replicate, List.length_range]; first | done | exact k.slotsTx) | rfl, by first | exact k.eqPorts | (simp only [List.length_modify, List.length_set, List.length_map, List.length_zipIdx, List.length_replicate, List.length_range]; first | done | exact k.eqPorts) | rfl, by first | exact k.chans | (simp only [List.length_modify, List.length_set, List.length_map, List.length_zipIdx, List.length_replicate, List.length_range]; first | done | exact k.chans) | rfl, by first | exact k.banks | (simp only [List.length_modify, List.length_set, List.length_map, List.length_zipIdx, List.length_replicate, List.length_range]; first | done | exact k.banks) | rfl, by first | exact k.drawers | (simp only [List.length_modify, List.length_set, List.length_map, List.length_zipIdx, List.length_replicate, List.length_range]; first | done | exact k.drawers) | rfl, by first | exact k.keys | (simp only [List.length_modify, List.length_set, List.length_map, List.length_zipIdx, List.length_replicate, List.length_range]; first | done | exact k.keys) | rfl, by first | exact k.refusals | (simp only [List.length_modify, List.length_set, List.length_map, List.length_zipIdx, List.length_replicate, List.length_range]; first | done | exact k.refusals) | rfl, by first | exact k.staged | (simp only [List.length_modify, List.length_set, List.length_map, List.length_zipIdx, List.length_replicate, List.length_range]; first | done | exact k.staged) | rfl, by first | exact k.copies | (simp only [List.length_modify, List.length_set, List.length_map, List.length_zipIdx, List.length_replicate, List.length_range]; first | done | exact k.copies) | rfl, by first | exact k.latches | (simp only [List.length_modify, List.length_set, List.length_map, List.length_zipIdx, List.length_replicate, List.length_range]; first | done | exact k.latches) | rfl, by first | exact k.pxc | (repeat' first | exact k.pxc | exact k.rxc | exact core_default_inv | apply coreLoad_inv | apply coreStop_inv | apply chkScatter_inv | apply coreOff_inv | apply taskStart_inv), by first | exact k.rxc | (repeat' first | exact k.pxc | exact k.rxc | exact core_default_inv | apply coreLoad_inv | apply coreStop_inv | apply chkScatter_inv | apply coreOff_inv | apply taskStart_inv), by first | exact k.opl | simp | (simp only [List.length_modify, List.length_set, List.length_map, List.length_zipIdx, List.length_replicate, List.length_range]; exact k.opl), by first | exact k.bufs | exact smWf_smPut _ _ k.bufs | rfl, by first | exact k.caps | exact smWf_smPut _ _ k.caps | rfl, by first | exact k.capsPrev | exact smWf_smPut _ _ k.capsPrev | rfl, by first | exact k.tickets | exact Nat.mod_lt _ (by decide) | decide⟩))
    | intro _)

theorem startOwn_inv {s : State} (h : Inv s) : ∀ a0, Inv (startOwn a0 s) := by
  intro a0
  unfold startOwn
  try dsimp only
  repeat' (first
    | assumption
    | with_reducible apply hingeOwn_inv
    | with_reducible apply inaugEnter_inv
    | split
    | intro _)

theorem failedRetry_inv {s : State} (h : Inv s) : Inv (failedRetry s) := by
  unfold failedRetry
  try dsimp only
  repeat' (first
    | assumption
    | with_reducible apply startOwn_inv
    | split
    | intro _)

theorem revertOverlay_inv {s : State} (h : Inv s) : ∀ a0 a1 a2, Inv (revertOverlay a0 a1 a2 s) := by
  intro a0 a1 a2
  unfold revertOverlay
  try dsimp only
  repeat' (first
    | assumption
    | with_reducible apply chkScatter_inv
    | with_reducible apply chkScatter_inv
    | split
    | (with_reducible refine Inv.upd ?_ (fun k => ?_); on_goal 2 => (first | exact { k with } | exact ⟨by first | exact k.mem | exact nvWrite_wf _ _ k.mem | exact smWf_smPutBytes _ _ k.mem, by first | exact k.doms | (simp only [List.length_modify, List.length_set, List.length_map, List.length_zipIdx, List.length_replicate, List.length_range]; first | done | exact k.doms) | rfl, by first | exact k.ports | (simp only [List.length_modify, List.length_set, List.length_map, List.length_zipIdx, List.length_replicate, List.length_range]; first | done | exact k.ports) | rfl, by first | exact k.tx | (simp only [List.length_modify, List.length_set, List.length_map, List.length_zipIdx, List.length_replicate, List.length_range]; first | done | exact k.tx) | rfl, by first | exact k.fwd | (simp only [List.length_modify, List.length_set, List.length_map, List.length_zipIdx, List.length_replicate, List.length_range]; first | done | exact k.fwd) | rfl, by first | exact k.branches | (simp only [List.length_modify, List.length_set, List.length_map, List.length_zipIdx, List.length_replicate, List.length_range]; first | done | exact k.branches) | rfl, by first | exact k.slotsRx | (simp only [List.length_modify, List.length_set, List.length_map, List.length_zipIdx, List.length_replicate, List.length_range]; first | done | exact k.slotsRx) | rfl, by first | exact k.slotsTx | (simp only [List.length_modify, List.length_set, List.length_map, List.length_zipIdx, List.length_replicate, List.length_range]; first | done | exact k.slotsTx) | rfl, by first | exact k.eqPorts | (simp only [List.length_modify, List.length_set, List.length_map, List.length_zipIdx, List.length_replicate, List.length_range]; first | done | exact k.eqPorts) | rfl, by first | exact k.chans | (simp only [List.length_modify, List.length_set, List.length_map, List.length_zipIdx, List.length_replicate, List.length_range]; first | done | exact k.chans) | rfl, by first | exact k.banks | (simp only [List.length_modify, List.length_set, List.length_map, List.length_zipIdx, List.length_replicate, List.length_range]; first | done | exact k.banks) | rfl, by first | exact k.drawers | (simp only [List.length_modify, List.length_set, List.length_map, List.length_zipIdx, List.length_replicate, List.length_range]; first | done | exact k.drawers) | rfl, by first | exact k.keys | (simp only [List.length_modify, List.length_set, List.length_map, List.length_zipIdx, List.length_replicate, List.length_range]; first | done | exact k.keys) | rfl, by first | exact k.refusals | (simp only [List.length_modify, List.length_set, List.length_map, List.length_zipIdx, List.length_replicate, List.length_range]; first | done | exact k.refusals) | rfl, by first | exact k.staged | (simp only [List.length_modify, List.length_set, List.length_map, List.length_zipIdx, List.length_replicate, List.length_range]; first | done | exact k.staged) | rfl, by first | exact k.copies | (simp only [List.length_modify, List.length_set, List.length_map, List.length_zipIdx, List.length_replicate, List.length_range]; first | done | exact k.copies) | rfl, by first | exact k.latches | (simp only [List.length_modify, List.length_set, List.length_map, List.length_zipIdx, List.length_replicate, List.length_range]; first | done | exact k.latches) | rfl, by first | exact k.pxc | (repeat' first | exact k.pxc | exact k.rxc | exact core_default_inv | apply coreLoad_inv | apply coreStop_inv | apply chkScatter_inv | apply coreOff_inv | apply taskStart_inv), by first | exact k.rxc | (repeat' first | exact k.pxc | exact k.rxc | exact core_default_inv | apply coreLoad_inv | apply coreStop_inv | apply chkScatter_inv | apply coreOff_inv | apply taskStart_inv), by first | exact k.opl | simp | (simp only [List.length_modify, List.length_set, List.length_map, List.length_zipIdx, List.length_replicate, List.length_range]; exact k.opl), by first | exact k.bufs | exact smWf_smPut _ _ k.bufs | rfl, by first | exact k.caps | exact smWf_smPut _ _ k.caps | rfl, by first | exact k.capsPrev | exact smWf_smPut _ _ k.capsPrev | rfl, by first | exact k.tickets | exact Nat.mod_lt _ (by decide) | decide⟩))
    | intro _)

theorem revertLatest_inv {s : State} (h : Inv s) : Inv (revertLatest s) := by
  unfold revertLatest
  try dsimp only
  repeat' (first
    | assumption
    | with_reducible apply revertOverlay_inv
    | (with_reducible apply elim_inv)
    | split
    | intro _)

theorem pfcSend_inv {s : State} (h : Inv s) : ∀ a0 a1 a2, Inv (pfcSend a0 a1 a2 s) := by
  intro a0 a1 a2
  unfold pfcSend
  try dsimp only
  repeat' (first
    | assumption
    | with_reducible apply emit_inv
    | with_reducible apply eqMod_inv
    | split
    | (with_reducible refine Inv.upd ?_ (fun k => { k with }))
    | intro _)

theorem pfcCheck_inv {s : State} (h : Inv s) : ∀ a0, Inv (pfcCheck a0 s) := by
  intro a0
  unfold pfcCheck
  try dsimp only
  repeat' (first
    | assumption
    | with_reducible apply raise_inv
    | with_reducible apply pfcSend_inv
    | with_reducible apply eqMod_inv
    | split
    | (with_reducible refine Inv.upd ?_ (fun k => { k with }))
    | intro _)

theorem pfcAll_inv {s : State} (h : Inv s) : Inv (pfcAll s) := by
  unfold pfcAll
  try dsimp only
  repeat' (first
    | assumption
    | with_reducible apply pfcCheck_inv
    | (with_reducible apply foldl_inv)
    | split
    | intro _)

theorem poolRelease_inv {s : State} (h : Inv s) : ∀ a0, Inv (poolRelease a0 s) := by
  intro a0
  unfold poolRelease
  try dsimp only
  repeat' (first
    | assumption
    | with_reducible apply bufMod_inv
    | (with_reducible apply foldl_inv)
    | split
    | (with_reducible refine Inv.upd ?_ (fun k => { k with }))
    | intro _)

theorem chainFree_inv {s : State} (h : Inv s) : ∀ a0, Inv (chainFree a0 s) := by
  intro a0
  unfold chainFree
  try dsimp only
  repeat' (first
    | assumption
    | with_reducible apply pfcAll_inv
    | with_reducible apply poolRelease_inv
    | split
    | intro _)

theorem starOff_inv {s : State} (h : Inv s) : Inv (starOff s) := by
  unfold starOff
  try dsimp only
  repeat' (first
    | assumption
    | with_reducible apply drawn_inv
    | with_reducible apply chainFree_inv
    | split
    | (with_reducible refine Inv.upd ?_ (fun k => ?_); on_goal 2 => (first | exact { k with } | exact ⟨by first | exact k.mem | exact nvWrite_wf _ _ k.mem | exact smWf_smPutBytes _ _ k.mem, by first | exact k.doms | (simp only [List.length_modify, List.length_set, List.length_map, List.length_zipIdx, List.length_replicate, List.length_range]; first | done | exact k.doms) | rfl, by first | exact k.ports | (simp only [List.length_modify, List.length_set, List.length_map, List.length_zipIdx, List.length_replicate, List.length_range]; first | done | exact k.ports) | rfl, by first | exact k.tx | (simp only [List.length_modify, List.length_set, List.length_map, List.length_zipIdx, List.length_replicate, List.length_range]; first | done | exact k.tx) | rfl, by first | exact k.fwd | (simp only [List.length_modify, List.length_set, List.length_map, List.length_zipIdx, List.length_replicate, List.length_range]; first | done | exact k.fwd) | rfl, by first | exact k.branches | (simp only [List.length_modify, List.length_set, List.length_map, List.length_zipIdx, List.length_replicate, List.length_range]; first | done | exact k.branches) | rfl, by first | exact k.slotsRx | (simp only [List.length_modify, List.length_set, List.length_map, List.length_zipIdx, List.length_replicate, List.length_range]; first | done | exact k.slotsRx) | rfl, by first | exact k.slotsTx | (simp only [List.length_modify, List.length_set, List.length_map, List.length_zipIdx, List.length_replicate, List.length_range]; first | done | exact k.slotsTx) | rfl, by first | exact k.eqPorts | (simp only [List.length_modify, List.length_set, List.length_map, List.length_zipIdx, List.length_replicate, List.length_range]; first | done | exact k.eqPorts) | rfl, by first | exact k.chans | (simp only [List.length_modify, List.length_set, List.length_map, List.length_zipIdx, List.length_replicate, List.length_range]; first | done | exact k.chans) | rfl, by first | exact k.banks | (simp only [List.length_modify, List.length_set, List.length_map, List.length_zipIdx, List.length_replicate, List.length_range]; first | done | exact k.banks) | rfl, by first | exact k.drawers | (simp only [List.length_modify, List.length_set, List.length_map, List.length_zipIdx, List.length_replicate, List.length_range]; first | done | exact k.drawers) | rfl, by first | exact k.keys | (simp only [List.length_modify, List.length_set, List.length_map, List.length_zipIdx, List.length_replicate, List.length_range]; first | done | exact k.keys) | rfl, by first | exact k.refusals | (simp only [List.length_modify, List.length_set, List.length_map, List.length_zipIdx, List.length_replicate, List.length_range]; first | done | exact k.refusals) | rfl, by first | exact k.staged | (simp only [List.length_modify, List.length_set, List.length_map, List.length_zipIdx, List.length_replicate, List.length_range]; first | done | exact k.staged) | rfl, by first | exact k.copies | (simp only [List.length_modify, List.length_set, List.length_map, List.length_zipIdx, List.length_replicate, List.length_range]; first | done | exact k.copies) | rfl, by first | exact k.latches | (simp only [List.length_modify, List.length_set, List.length_map, List.length_zipIdx, List.length_replicate, List.length_range]; first | done | exact k.latches) | rfl, by first | exact k.pxc | (repeat' first | exact k.pxc | exact k.rxc | exact core_default_inv | apply coreLoad_inv | apply coreStop_inv | apply chkScatter_inv | apply coreOff_inv | apply taskStart_inv), by first | exact k.rxc | (repeat' first | exact k.pxc | exact k.rxc | exact core_default_inv | apply coreLoad_inv | apply coreStop_inv | apply chkScatter_inv | apply coreOff_inv | apply taskStart_inv), by first | exact k.opl | simp | (simp only [List.length_modify, List.length_set, List.length_map, List.length_zipIdx, List.length_replicate, List.length_range]; exact k.opl), by first | exact k.bufs | exact smWf_smPut _ _ k.bufs | rfl, by first | exact k.caps | exact smWf_smPut _ _ k.caps | rfl, by first | exact k.capsPrev | exact smWf_smPut _ _ k.capsPrev | rfl, by first | exact k.tickets | exact Nat.mod_lt _ (by decide) | decide⟩))
    | intro _)

theorem branchDown_inv {s : State} (h : Inv s) : ∀ a0, Inv (branchDown a0 s) := by
  intro a0
  unfold branchDown
  try dsimp only
  repeat' (first
    | assumption
    | with_reducible apply brMod_inv
    | split
    | (with_reducible refine Inv.upd ?_ (fun k => { k with }))
    | intro _)

theorem eqDiscard_inv {s : State} (h : Inv s) : ∀ a0 a1, Inv (eqDiscard a0 a1 s).1 := by
  intro a0 a1
  unfold eqDiscard
  try dsimp only
  repeat' (first
    | assumption
    | with_reducible apply eqMod_inv
    | with_reducible apply poolRelease_inv
    | split
    | (with_reducible refine Inv.upd ?_ (fun k => { k with }))
    | intro _)

theorem sessionDrop_inv {s : State} (h : Inv s) : ∀ a0 a1, Inv (sessionDrop a0 a1 s) := by
  intro a0 a1
  unfold sessionDrop
  try dsimp only
  repeat' (first
    | assumption
    | with_reducible apply raise_inv
    | split
    | (with_reducible refine Inv.upd ?_ (fun k => { k with }))
    | intro _)

theorem eqLinkLost_inv {s : State} (h : Inv s) : ∀ a0, Inv (eqLinkLost a0 s) := by
  intro a0
  unfold eqLinkLost
  try dsimp only
  repeat' (first
    | assumption
    | with_reducible apply eqDiscard_inv
    | with_reducible apply eqMod_inv
    | with_reducible apply raise_inv
    | with_reducible apply pfcAll_inv
    | with_reducible apply sessionDrop_inv
    | split
    | (with_reducible refine Inv.upd ?_ (fun k => { k with }))
    | intro _)

theorem eqLoad_inv {s : State} (h : Inv s) : ∀ a0, Inv (eqLoad a0 s) := by
  intro a0
  unfold eqLoad
  try dsimp only
  repeat' (first
    | assumption
    | (with_reducible apply foldl_inv)
    | split
    | (with_reducible refine Inv.upd ?_ (fun k => { k with }))
    | intro _)

theorem groupLogicOn_inv {s : State} (h : Inv s) : ∀ g, Inv (groupLogicOn g s) := fun g => by
  unfold groupLogicOn
  exact foldl_inv _ h (fun _ _ hs => drawn_inv (chanMod_inv _ _ hs))
theorem domainHook_inv {s : State} (h : Inv s) : ∀ d o l, Inv (domainHook d o l s) := fun d o l => by
  unfold domainHook
  refine ite_inv (drawn_inv (dataCoreMod_inv _ h (fun _ hc => bankLost_inv _ _ hc))) ?_
  refine ite_inv (drawn_inv { h with rxc := coreOff_inv _ }) ?_
  refine ite_inv (starOff_inv h) ?_
  refine ite_inv (branchDown_inv h _) ?_
  refine ite_inv (eqLinkLost_inv h _) ?_
  refine ite_inv (ite_inv (eqLoad_inv h _) (eqLinkLost_inv h _)) ?_
  refine ite_inv (ite_inv (foldl_inv _ h (fun _ _ hs => chanMod_inv _ _ hs)) (ite_inv (groupLogicOn_inv h _) h)) ?_
  refine ite_inv (chanMod_inv _ _ h) ?_
  exact ite_inv (chanMod_inv _ _ h) h
theorem reach_inv {s : State} (h : Inv s) : ∀ a0 a1, Inv (reach a0 a1 s) := by
  intro a0 a1
  unfold reach
  try dsimp only
  repeat' (first
    | assumption
    | with_reducible apply domainHook_inv
    | split
    | (with_reducible refine Inv.upd ?_ (fun k => ?_); on_goal 2 => (first | exact { k with } | exact ⟨by first | exact k.mem | exact nvWrite_wf _ _ k.mem | exact smWf_smPutBytes _ _ k.mem, by first | exact k.doms | (simp only [List.length_modify, List.length_set, List.length_map, List.length_zipIdx, List.length_replicate, List.length_range]; first | done | exact k.doms) | rfl, by first | exact k.ports | (simp only [List.length_modify, List.length_set, List.length_map, List.length_zipIdx, List.length_replicate, List.length_range]; first | done | exact k.ports) | rfl, by first | exact k.tx | (simp only [List.length_modify, List.length_set, List.length_map, List.length_zipIdx, List.length_replicate, List.length_range]; first | done | exact k.tx) | rfl, by first | exact k.fwd | (simp only [List.length_modify, List.length_set, List.length_map, List.length_zipIdx, List.length_replicate, List.length_range]; first | done | exact k.fwd) | rfl, by first | exact k.branches | (simp only [List.length_modify, List.length_set, List.length_map, List.length_zipIdx, List.length_replicate, List.length_range]; first | done | exact k.branches) | rfl, by first | exact k.slotsRx | (simp only [List.length_modify, List.length_set, List.length_map, List.length_zipIdx, List.length_replicate, List.length_range]; first | done | exact k.slotsRx) | rfl, by first | exact k.slotsTx | (simp only [List.length_modify, List.length_set, List.length_map, List.length_zipIdx, List.length_replicate, List.length_range]; first | done | exact k.slotsTx) | rfl, by first | exact k.eqPorts | (simp only [List.length_modify, List.length_set, List.length_map, List.length_zipIdx, List.length_replicate, List.length_range]; first | done | exact k.eqPorts) | rfl, by first | exact k.chans | (simp only [List.length_modify, List.length_set, List.length_map, List.length_zipIdx, List.length_replicate, List.length_range]; first | done | exact k.chans) | rfl, by first | exact k.banks | (simp only [List.length_modify, List.length_set, List.length_map, List.length_zipIdx, List.length_replicate, List.length_range]; first | done | exact k.banks) | rfl, by first | exact k.drawers | (simp only [List.length_modify, List.length_set, List.length_map, List.length_zipIdx, List.length_replicate, List.length_range]; first | done | exact k.drawers) | rfl, by first | exact k.keys | (simp only [List.length_modify, List.length_set, List.length_map, List.length_zipIdx, List.length_replicate, List.length_range]; first | done | exact k.keys) | rfl, by first | exact k.refusals | (simp only [List.length_modify, List.length_set, List.length_map, List.length_zipIdx, List.length_replicate, List.length_range]; first | done | exact k.refusals) | rfl, by first | exact k.staged | (simp only [List.length_modify, List.length_set, List.length_map, List.length_zipIdx, List.length_replicate, List.length_range]; first | done | exact k.staged) | rfl, by first | exact k.copies | (simp only [List.length_modify, List.length_set, List.length_map, List.length_zipIdx, List.length_replicate, List.length_range]; first | done | exact k.copies) | rfl, by first | exact k.latches | (simp only [List.length_modify, List.length_set, List.length_map, List.length_zipIdx, List.length_replicate, List.length_range]; first | done | exact k.latches) | rfl, by first | exact k.pxc | (repeat' first | exact k.pxc | exact k.rxc | exact core_default_inv | apply coreLoad_inv | apply coreStop_inv | apply chkScatter_inv | apply coreOff_inv | apply taskStart_inv), by first | exact k.rxc | (repeat' first | exact k.pxc | exact k.rxc | exact core_default_inv | apply coreLoad_inv | apply coreStop_inv | apply chkScatter_inv | apply coreOff_inv | apply taskStart_inv), by first | exact k.opl | simp | (simp only [List.length_modify, List.length_set, List.length_map, List.length_zipIdx, List.length_replicate, List.length_range]; exact k.opl), by first | exact k.bufs | exact smWf_smPut _ _ k.bufs | rfl, by first | exact k.caps | exact smWf_smPut _ _ k.caps | rfl, by first | exact k.capsPrev | exact smWf_smPut _ _ k.capsPrev | rfl, by first | exact k.tickets | exact Nat.mod_lt _ (by decide) | decide⟩))
    | intro _)

theorem setDomain_inv {s : State} (h : Inv s) : ∀ a0 a1, Inv (setDomain a0 a1 s) := by
  intro a0 a1
  unfold setDomain
  try dsimp only
  repeat' (first
    | assumption
    | with_reducible apply reach_inv
    | split
    | (with_reducible refine Inv.upd ?_ (fun k => ?_); on_goal 2 => (first | exact { k with } | exact ⟨by first | exact k.mem | exact nvWrite_wf _ _ k.mem | exact smWf_smPutBytes _ _ k.mem, by first | exact k.doms | (simp only [List.length_modify, List.length_set, List.length_map, List.length_zipIdx, List.length_replicate, List.length_range]; first | done | exact k.doms) | rfl, by first | exact k.ports | (simp only [List.length_modify, List.length_set, List.length_map, List.length_zipIdx, List.length_replicate, List.length_range]; first | done | exact k.ports) | rfl, by first | exact k.tx | (simp only [List.length_modify, List.length_set, List.length_map, List.length_zipIdx, List.length_replicate, List.length_range]; first | done | exact k.tx) | rfl, by first | exact k.fwd | (simp only [List.length_modify, List.length_set, List.length_map, List.length_zipIdx, List.length_replicate, List.length_range]; first | done | exact k.fwd) | rfl, by first | exact k.branches | (simp only [List.length_modify, List.length_set, List.length_map, List.length_zipIdx, List.length_replicate, List.length_range]; first | done | exact k.branches) | rfl, by first | exact k.slotsRx | (simp only [List.length_modify, List.length_set, List.length_map, List.length_zipIdx, List.length_replicate, List.length_range]; first | done | exact k.slotsRx) | rfl, by first | exact k.slotsTx | (simp only [List.length_modify, List.length_set, List.length_map, List.length_zipIdx, List.length_replicate, List.length_range]; first | done | exact k.slotsTx) | rfl, by first | exact k.eqPorts | (simp only [List.length_modify, List.length_set, List.length_map, List.length_zipIdx, List.length_replicate, List.length_range]; first | done | exact k.eqPorts) | rfl, by first | exact k.chans | (simp only [List.length_modify, List.length_set, List.length_map, List.length_zipIdx, List.length_replicate, List.length_range]; first | done | exact k.chans) | rfl, by first | exact k.banks | (simp only [List.length_modify, List.length_set, List.length_map, List.length_zipIdx, List.length_replicate, List.length_range]; first | done | exact k.banks) | rfl, by first | exact k.drawers | (simp only [List.length_modify, List.length_set, List.length_map, List.length_zipIdx, List.length_replicate, List.length_range]; first | done | exact k.drawers) | rfl, by first | exact k.keys | (simp only [List.length_modify, List.length_set, List.length_map, List.length_zipIdx, List.length_replicate, List.length_range]; first | done | exact k.keys) | rfl, by first | exact k.refusals | (simp only [List.length_modify, List.length_set, List.length_map, List.length_zipIdx, List.length_replicate, List.length_range]; first | done | exact k.refusals) | rfl, by first | exact k.staged | (simp only [List.length_modify, List.length_set, List.length_map, List.length_zipIdx, List.length_replicate, List.length_range]; first | done | exact k.staged) | rfl, by first | exact k.copies | (simp only [List.length_modify, List.length_set, List.length_map, List.length_zipIdx, List.length_replicate, List.length_range]; first | done | exact k.copies) | rfl, by first | exact k.latches | (simp only [List.length_modify, List.length_set, List.length_map, List.length_zipIdx, List.length_replicate, List.length_range]; first | done | exact k.latches) | rfl, by first | exact k.pxc | (repeat' first | exact k.pxc | exact k.rxc | exact core_default_inv | apply coreLoad_inv | apply coreStop_inv | apply chkScatter_inv | apply coreOff_inv | apply taskStart_inv), by first | exact k.rxc | (repeat' first | exact k.pxc | exact k.rxc | exact core_default_inv | apply coreLoad_inv | apply coreStop_inv | apply chkScatter_inv | apply coreOff_inv | apply taskStart_inv), by first | exact k.opl | simp | (simp only [List.length_modify, List.length_set, List.length_map, List.length_zipIdx, List.length_replicate, List.length_range]; exact k.opl), by first | exact k.bufs | exact smWf_smPut _ _ k.bufs | rfl, by first | exact k.caps | exact smWf_smPut _ _ k.caps | rfl, by first | exact k.capsPrev | exact smWf_smPut _ _ k.capsPrev | rfl, by first | exact k.tickets | exact Nat.mod_lt _ (by decide) | decide⟩))
    | intro _)

theorem rxcRetire_inv {s : State} (h : Inv s) : Inv (rxcRetire s) := by
  unfold rxcRetire
  try dsimp only
  repeat' (first
    | assumption
    | with_reducible apply coreStop_inv
    | with_reducible apply setDomain_inv
    | with_reducible apply coreStop_inv
    | split
    | (with_reducible refine Inv.upd ?_ (fun k => ?_); on_goal 2 => (first | exact { k with } | exact ⟨by first | exact k.mem | exact nvWrite_wf _ _ k.mem | exact smWf_smPutBytes _ _ k.mem, by first | exact k.doms | (simp only [List.length_modify, List.length_set, List.length_map, List.length_zipIdx, List.length_replicate, List.length_range]; first | done | exact k.doms) | rfl, by first | exact k.ports | (simp only [List.length_modify, List.length_set, List.length_map, List.length_zipIdx, List.length_replicate, List.length_range]; first | done | exact k.ports) | rfl, by first | exact k.tx | (simp only [List.length_modify, List.length_set, List.length_map, List.length_zipIdx, List.length_replicate, List.length_range]; first | done | exact k.tx) | rfl, by first | exact k.fwd | (simp only [List.length_modify, List.length_set, List.length_map, List.length_zipIdx, List.length_replicate, List.length_range]; first | done | exact k.fwd) | rfl, by first | exact k.branches | (simp only [List.length_modify, List.length_set, List.length_map, List.length_zipIdx, List.length_replicate, List.length_range]; first | done | exact k.branches) | rfl, by first | exact k.slotsRx | (simp only [List.length_modify, List.length_set, List.length_map, List.length_zipIdx, List.length_replicate, List.length_range]; first | done | exact k.slotsRx) | rfl, by first | exact k.slotsTx | (simp only [List.length_modify, List.length_set, List.length_map, List.length_zipIdx, List.length_replicate, List.length_range]; first | done | exact k.slotsTx) | rfl, by first | exact k.eqPorts | (simp only [List.length_modify, List.length_set, List.length_map, List.length_zipIdx, List.length_replicate, List.length_range]; first | done | exact k.eqPorts) | rfl, by first | exact k.chans | (simp only [List.length_modify, List.length_set, List.length_map, List.length_zipIdx, List.length_replicate, List.length_range]; first | done | exact k.chans) | rfl, by first | exact k.banks | (simp only [List.length_modify, List.length_set, List.length_map, List.length_zipIdx, List.length_replicate, List.length_range]; first | done | exact k.banks) | rfl, by first | exact k.drawers | (simp only [List.length_modify, List.length_set, List.length_map, List.length_zipIdx, List.length_replicate, List.length_range]; first | done | exact k.drawers) | rfl, by first | exact k.keys | (simp only [List.length_modify, List.length_set, List.length_map, List.length_zipIdx, List.length_replicate, List.length_range]; first | done | exact k.keys) | rfl, by first | exact k.refusals | (simp only [List.length_modify, List.length_set, List.length_map, List.length_zipIdx, List.length_replicate, List.length_range]; first | done | exact k.refusals) | rfl, by first | exact k.staged | (simp only [List.length_modify, List.length_set, List.length_map, List.length_zipIdx, List.length_replicate, List.length_range]; first | done | exact k.staged) | rfl, by first | exact k.copies | (simp only [List.length_modify, List.length_set, List.length_map, List.length_zipIdx, List.length_replicate, List.length_range]; first | done | exact k.copies) | rfl, by first | exact k.latches | (simp only [List.length_modify, List.length_set, List.length_map, List.length_zipIdx, List.length_replicate, List.length_range]; first | done | exact k.latches) | rfl, by first | exact k.pxc | (repeat' first | exact k.pxc | exact k.rxc | exact core_default_inv | apply coreLoad_inv | apply coreStop_inv | apply chkScatter_inv | apply coreOff_inv | apply taskStart_inv), by first | exact k.rxc | (repeat' first | exact k.pxc | exact k.rxc | exact core_default_inv | apply coreLoad_inv | apply coreStop_inv | apply chkScatter_inv | apply coreOff_inv | apply taskStart_inv), by first | exact k.opl | simp | (simp only [List.length_modify, List.length_set, List.length_map, List.length_zipIdx, List.length_replicate, List.length_range]; exact k.opl), by first | exact k.bufs | exact smWf_smPut _ _ k.bufs | rfl, by first | exact k.caps | exact smWf_smPut _ _ k.caps | rfl, by first | exact k.capsPrev | exact smWf_smPut _ _ k.capsPrev | rfl, by first | exact k.tickets | exact Nat.mod_lt _ (by decide) | decide⟩))
    | intro _)

theorem transition_inv {s : State} (h : Inv s) : ∀ a0 a1, Inv (transition a0 a1 s) := by
  intro a0 a1
  unfold transition
  try dsimp only
  repeat' (first
    | assumption
    | with_reducible apply raise_inv
    | split
    | (with_reducible refine Inv.upd ?_ (fun k => { k with }))
    | intro _)

theorem toNocore_inv {s : State} (h : Inv s) : ∀ a0 a1, Inv (toNocore a0 a1 s) := by
  intro a0 a1
  unfold toNocore
  try dsimp only
  repeat' (first
    | assumption
    | with_reducible apply raise_inv
    | with_reducible apply transition_inv
    | split
    | intro _)

theorem benchAsk_inv {s : State} (h : Inv s) : ∀ a0 a1 a2 a3, Inv (benchAsk a0 a1 a2 a3 s).1 := by
  intro a0 a1 a2 a3
  unfold benchAsk
  try dsimp only
  repeat' (first
    | assumption
    | with_reducible apply raise_inv
    | split
    | (with_reducible refine Inv.upd ?_ (fun k => { k with tickets := Nat.mod_lt _ (by decide) }))
    | intro _)
theorem repairAsk_inv {s : State} (h : Inv s) : Inv (repairAsk s) := by
  unfold repairAsk
  try dsimp only
  repeat' (first
    | assumption
    | with_reducible apply benchAsk_inv
    | split
    | (with_reducible refine Inv.upd ?_ (fun k => { k with }))
    | intro _)

theorem orderDone_inv {s : State} (h : Inv s) : ∀ a0 a1, Inv (orderDone a0 a1 s) := by
  intro a0 a1
  unfold orderDone
  try dsimp only
  repeat' (first
    | assumption
    | with_reducible apply raise_inv
    | split
    | (with_reducible refine Inv.upd ?_ (fun k => { k with }))
    | intro _)

theorem takeoverStart_inv {s : State} (h : Inv s) : Inv (takeoverStart s) := by
  unfold takeoverStart
  try dsimp only
  repeat' (first
    | assumption
    | with_reducible apply orderDone_inv
    | with_reducible apply setDomain_inv
    | split
    | (with_reducible refine Inv.upd ?_ (fun k => { k with }))
    | intro _)

theorem yieldAt_inv {s : State} (h : Inv s) : ∀ a0 a1 a2, Inv (yieldAt a0 a1 a2 s) := by
  intro a0 a1 a2
  unfold yieldAt
  try dsimp only
  repeat' (first
    | assumption
    | with_reducible apply activeMod_inv
    | with_reducible apply coreStop_inv
    | with_reducible apply raise_inv
    | with_reducible apply revertLatest_inv
    | with_reducible apply rxcRetire_inv
    | with_reducible apply toNocore_inv
    | with_reducible apply repairAsk_inv
    | with_reducible apply takeoverStart_inv
    | with_reducible apply coreStop_inv
    | exact (⟨CoreInv.regs (by assumption), CoreInv.rets (by assumption), CoreInv.loops (by assumption), CoreInv.data (by assumption)⟩ : CoreInv _)
    | split
    | (with_reducible refine Inv.upd ?_ (fun k => { k with }))
    | intro _)

theorem yieldNow_inv {s : State} (h : Inv s) : ∀ a0, Inv (yieldNow a0 s) := by
  intro a0
  unfold yieldNow
  try dsimp only
  repeat' (first
    | assumption
    | with_reducible apply activeCore_inv
    | with_reducible apply yieldAt_inv
    | with_reducible apply drawn_inv
    | split
    | intro _)

theorem jump_inv {s : State} (h : Inv s) (pc : Nat) (f : Core → Core) (hf : ∀ c, CoreInv c → CoreInv (f c)) :
    Inv (jump pc f s) :=
  activeMod_inv _ h (fun c hc => ⟨(hf c hc).regs, (hf c hc).rets, (hf c hc).loops, (hf c hc).data⟩)
theorem callOp_inv {s : State} (h : Inv s) (imm : Half) (c : Core)
    (hc : ∀ d, activeCore s = some d → d.rets = c.rets ∧ d.loops = c.loops) : Inv (callOp imm c s) := by
  unfold callOp
  split
  · exact yieldNow_inv h _
  next hl =>
    apply activeMod_inv_at _ h
    intro d hd
    have hdi := activeCore_inv h hd
    have hx : CoreInv { d with rets := (d.pc + 1) :: d.rets } :=
      ⟨hdi.regs, by rw [List.length_cons, (hc d hd).1]; omega, hdi.loops, hdi.data⟩
    have hy := regPut_inv 31 (w32 (4 * (d.pc + 1))) hx
    exact ⟨hy.regs, hy.rets, hy.loops, hy.data⟩
theorem atTick_inv {s : State} (h : Inv s) : ∀ a0, Inv (atTick a0 s) := by
  intro a0
  unfold atTick
  try dsimp only
  repeat' (first
    | assumption
    | split
    | (with_reducible refine Inv.upd ?_ (fun k => { k with }))
    | intro _)

theorem gridFire_inv {s : State} (h : Inv s) (k : Byte) (i : Nat) (f : GridEntry → State → State)
    (hf : ∀ e s, Inv s → Inv (f e s)) : Inv (gridFire k i f s) := by
  unfold gridFire
  split
  · exact h
  · have h' := fun e => atTick_inv h e
    dsimp only
    split
    · exact raise_inv _ _ _ (h' _)
    split
    · exact hf _ _ (raise_inv _ _ _ (h' _))
    · exact hf _ _ (h' _)
theorem skipped_inv {s : State} (h : Inv s) : ∀ a0 a1, Inv (skipped a0 a1 s) := by
  intro a0 a1
  unfold skipped
  try dsimp only
  repeat' (first
    | assumption
    | with_reducible apply raise_inv
    | split
    | intro _)

theorem onDomain_inv {s : State} (h : Inv s) (d k : Nat) (f : State → State) (hf : ∀ s, Inv s → Inv (f s)) :
    Inv (onDomain d k f s) := by
  unfold onDomain
  split
  · exact hf s h
  · exact skipped_inv h _ _
theorem vnCycleEnd_inv {s : State} (h : Inv s) : Inv (vnCycleEnd s) := by
  unfold vnCycleEnd
  exact foldl_inv _ { h with } (fun _ _ hs => ite_inv (raise_inv _ _ _ (brMod_inv _ _ hs)) (brMod_inv _ _ hs))
theorem vsyncSend_inv {s : State} (h : Inv s) : ∀ st, Inv (vsyncSend st s) := fun st => by
  unfold vsyncSend
  exact foldl_inv _ h (fun _ _ hs => ite_inv (emit_inv hs _) hs)
theorem vnStartFire_inv {s : State} (h : Inv s) : ∀ e, Inv (vnStartFire e s) := fun e => by
  unfold vnStartFire
  apply onDomain_inv h
  intro s hs
  dsimp only
  split
  · exact hs
  · with_reducible refine vsyncSend_inv ?_ _
    generalize hx : (if s.vn.running = true then vnCycleEnd s else s) = x
    have h2 : Inv x := by
      rw [← hx]
      exact ite_inv (vnCycleEnd_inv hs) hs
    exact { h2 with slotsRx := List.length_replicate }
theorem vnStartRun_inv {s : State} (h : Inv s) : ∀ a0, Inv (vnStartRun a0 s) := by
  intro a0
  unfold vnStartRun
  try dsimp only
  repeat' (first
    | assumption
    | with_reducible apply gridFire_inv
    | with_reducible apply vnStartFire_inv
    | split
    | intro _)

theorem refusedEvent_inv {s : State} (h : Inv s) : ∀ a0 a1, Inv (refusedEvent a0 a1 s) := by
  intro a0 a1
  unfold refusedEvent
  try dsimp only
  repeat' (first
    | assumption
    | with_reducible apply raise_inv
    | split
    | intro _)

theorem chkpOp_inv {s : State} (h : Inv s) : ∀ a0 a1, Inv (chkpOp a0 a1 s) := by
  intro a0 a1
  unfold chkpOp
  try dsimp only
  repeat' (first
    | assumption
    | with_reducible apply activeMod_inv
    | with_reducible apply answerCode_inv
    | with_reducible apply refusedEvent_inv
    | with_reducible apply answerCode_inv
    | exact (⟨CoreInv.regs (by assumption), CoreInv.rets (by assumption), CoreInv.loops (by assumption), CoreInv.data (by assumption)⟩ : CoreInv _)
    | split
    | (with_reducible refine Inv.upd ?_ (fun k => { k with }))
    | intro _)

theorem stateLevels_inv {s : State} (h : Inv s) : ∀ a0 a1, Inv (stateLevels a0 a1 s) := by
  intro a0 a1
  unfold stateLevels
  try dsimp only
  repeat' (first
    | assumption
    | split
    | (with_reducible refine Inv.upd ?_ (fun k => ?_); on_goal 2 => (first | exact { k with } | exact ⟨by first | exact k.mem | exact nvWrite_wf _ _ k.mem | exact smWf_smPutBytes _ _ k.mem, by first | exact k.doms | (simp only [List.length_modify, List.length_set, List.length_map, List.length_zipIdx, List.length_replicate, List.length_range]; first | done | exact k.doms) | rfl, by first | exact k.ports | (simp only [List.length_modify, List.length_set, List.length_map, List.length_zipIdx, List.length_replicate, List.length_range]; first | done | exact k.ports) | rfl, by first | exact k.tx | (simp only [List.length_modify, List.length_set, List.length_map, List.length_zipIdx, List.length_replicate, List.length_range]; first | done | exact k.tx) | rfl, by first | exact k.fwd | (simp only [List.length_modify, List.length_set, List.length_map, List.length_zipIdx, List.length_replicate, List.length_range]; first | done | exact k.fwd) | rfl, by first | exact k.branches | (simp only [List.length_modify, List.length_set, List.length_map, List.length_zipIdx, List.length_replicate, List.length_range]; first | done | exact k.branches) | rfl, by first | exact k.slotsRx | (simp only [List.length_modify, List.length_set, List.length_map, List.length_zipIdx, List.length_replicate, List.length_range]; first | done | exact k.slotsRx) | rfl, by first | exact k.slotsTx | (simp only [List.length_modify, List.length_set, List.length_map, List.length_zipIdx, List.length_replicate, List.length_range]; first | done | exact k.slotsTx) | rfl, by first | exact k.eqPorts | (simp only [List.length_modify, List.length_set, List.length_map, List.length_zipIdx, List.length_replicate, List.length_range]; first | done | exact k.eqPorts) | rfl, by first | exact k.chans | (simp only [List.length_modify, List.length_set, List.length_map, List.length_zipIdx, List.length_replicate, List.length_range]; first | done | exact k.chans) | rfl, by first | exact k.banks | (simp only [List.length_modify, List.length_set, List.length_map, List.length_zipIdx, List.length_replicate, List.length_range]; first | done | exact k.banks) | rfl, by first | exact k.drawers | (simp only [List.length_modify, List.length_set, List.length_map, List.length_zipIdx, List.length_replicate, List.length_range]; first | done | exact k.drawers) | rfl, by first | exact k.keys | (simp only [List.length_modify, List.length_set, List.length_map, List.length_zipIdx, List.length_replicate, List.length_range]; first | done | exact k.keys) | rfl, by first | exact k.refusals | (simp only [List.length_modify, List.length_set, List.length_map, List.length_zipIdx, List.length_replicate, List.length_range]; first | done | exact k.refusals) | rfl, by first | exact k.staged | (simp only [List.length_modify, List.length_set, List.length_map, List.length_zipIdx, List.length_replicate, List.length_range]; first | done | exact k.staged) | rfl, by first | exact k.copies | (simp only [List.length_modify, List.length_set, List.length_map, List.length_zipIdx, List.length_replicate, List.length_range]; first | done | exact k.copies) | rfl, by first | exact k.latches | (simp only [List.length_modify, List.length_set, List.length_map, List.length_zipIdx, List.length_replicate, List.length_range]; first | done | exact k.latches) | rfl, by first | exact k.pxc | (repeat' first | exact k.pxc | exact k.rxc | exact core_default_inv | apply coreLoad_inv | apply coreStop_inv | apply chkScatter_inv | apply coreOff_inv | apply taskStart_inv), by first | exact k.rxc | (repeat' first | exact k.pxc | exact k.rxc | exact core_default_inv | apply coreLoad_inv | apply coreStop_inv | apply chkScatter_inv | apply coreOff_inv | apply taskStart_inv), by first | exact k.opl | simp | (simp only [List.length_modify, List.length_set, List.length_map, List.length_zipIdx, List.length_replicate, List.length_range]; exact k.opl), by first | exact k.bufs | exact smWf_smPut _ _ k.bufs | rfl, by first | exact k.caps | exact smWf_smPut _ _ k.caps | rfl, by first | exact k.capsPrev | exact smWf_smPut _ _ k.capsPrev | rfl, by first | exact k.tickets | exact Nat.mod_lt _ (by decide) | decide⟩))
    | intro _)

theorem goLimp_inv {s : State} (h : Inv s) : Inv (goLimp s) := by
  unfold goLimp
  try dsimp only
  repeat' (first
    | assumption
    | with_reducible apply raise_inv
    | with_reducible apply stateLevels_inv
    | with_reducible apply transition_inv
    | split
    | (with_reducible refine Inv.upd ?_ (fun k => { k with }))
    | intro _)

theorem vectorApply_inv {s : State} (h : Inv s) : Inv (vectorApply s) := by
  unfold vectorApply
  try dsimp only
  repeat' (first
    | assumption
    | split
    | (with_reducible refine Inv.upd ?_ (fun k => ?_); on_goal 2 => (first | exact { k with } | exact ⟨by first | exact k.mem | exact nvWrite_wf _ _ k.mem | exact smWf_smPutBytes _ _ k.mem, by first | exact k.doms | (simp only [List.length_modify, List.length_set, List.length_map, List.length_zipIdx, List.length_replicate, List.length_range]; first | done | exact k.doms) | rfl, by first | exact k.ports | (simp only [List.length_modify, List.length_set, List.length_map, List.length_zipIdx, List.length_replicate, List.length_range]; first | done | exact k.ports) | rfl, by first | exact k.tx | (simp only [List.length_modify, List.length_set, List.length_map, List.length_zipIdx, List.length_replicate, List.length_range]; first | done | exact k.tx) | rfl, by first | exact k.fwd | (simp only [List.length_modify, List.length_set, List.length_map, List.length_zipIdx, List.length_replicate, List.length_range]; first | done | exact k.fwd) | rfl, by first | exact k.branches | (simp only [List.length_modify, List.length_set, List.length_map, List.length_zipIdx, List.length_replicate, List.length_range]; first | done | exact k.branches) | rfl, by first | exact k.slotsRx | (simp only [List.length_modify, List.length_set, List.length_map, List.length_zipIdx, List.length_replicate, List.length_range]; first | done | exact k.slotsRx) | rfl, by first | exact k.slotsTx | (simp only [List.length_modify, List.length_set, List.length_map, List.length_zipIdx, List.length_replicate, List.length_range]; first | done | exact k.slotsTx) | rfl, by first | exact k.eqPorts | (simp only [List.length_modify, List.length_set, List.length_map, List.length_zipIdx, List.length_replicate, List.length_range]; first | done | exact k.eqPorts) | rfl, by first | exact k.chans | (simp only [List.length_modify, List.length_set, List.length_map, List.length_zipIdx, List.length_replicate, List.length_range]; first | done | exact k.chans) | rfl, by first | exact k.banks | (simp only [List.length_modify, List.length_set, List.length_map, List.length_zipIdx, List.length_replicate, List.length_range]; first | done | exact k.banks) | rfl, by first | exact k.drawers | (simp only [List.length_modify, List.length_set, List.length_map, List.length_zipIdx, List.length_replicate, List.length_range]; first | done | exact k.drawers) | rfl, by first | exact k.keys | (simp only [List.length_modify, List.length_set, List.length_map, List.length_zipIdx, List.length_replicate, List.length_range]; first | done | exact k.keys) | rfl, by first | exact k.refusals | (simp only [List.length_modify, List.length_set, List.length_map, List.length_zipIdx, List.length_replicate, List.length_range]; first | done | exact k.refusals) | rfl, by first | exact k.staged | (simp only [List.length_modify, List.length_set, List.length_map, List.length_zipIdx, List.length_replicate, List.length_range]; first | done | exact k.staged) | rfl, by first | exact k.copies | (simp only [List.length_modify, List.length_set, List.length_map, List.length_zipIdx, List.length_replicate, List.length_range]; first | done | exact k.copies) | rfl, by first | exact k.latches | (simp only [List.length_modify, List.length_set, List.length_map, List.length_zipIdx, List.length_replicate, List.length_range]; first | done | exact k.latches) | rfl, by first | exact k.pxc | (repeat' first | exact k.pxc | exact k.rxc | exact core_default_inv | apply coreLoad_inv | apply coreStop_inv | apply chkScatter_inv | apply coreOff_inv | apply taskStart_inv), by first | exact k.rxc | (repeat' first | exact k.pxc | exact k.rxc | exact core_default_inv | apply coreLoad_inv | apply coreStop_inv | apply chkScatter_inv | apply coreOff_inv | apply taskStart_inv), by first | exact k.opl | simp | (simp only [List.length_modify, List.length_set, List.length_map, List.length_zipIdx, List.length_replicate, List.length_range]; exact k.opl), by first | exact k.bufs | exact smWf_smPut _ _ k.bufs | rfl, by first | exact k.caps | exact smWf_smPut _ _ k.caps | rfl, by first | exact k.capsPrev | exact smWf_smPut _ _ k.capsPrev | rfl, by first | exact k.tickets | exact Nat.mod_lt _ (by decide) | decide⟩))
    | intro _)

theorem refreshed_inv {s : State} (h : Inv s) (a : Nat) (b : Bytes) :
    Inv { s with nv := { nvWrite a b s.nv with refMark := none } } := by
  have h2 := nvWrite_inv a b h
  exact { h2 with }
theorem recoverRefresh_inv {s : State} (h : Inv s) : Inv (recoverRefresh s) := by
  unfold recoverRefresh
  split
  next t sp _ =>
    generalize 4096 = n
    with_reducible exact raise_inv _ _ _ (refreshed_inv (eraseDone_inv t h) _ _)
  · exact h
theorem recoverErase_inv {s : State} (h : Inv s) : Inv (recoverErase s) := by
  unfold recoverErase
  try dsimp only
  repeat' (first
    | assumption
    | with_reducible apply raise_inv
    | with_reducible apply eraseDone_inv
    | split
    | intro _)

theorem journalStart_inv {s : State} (h : Inv s) : Inv (journalStart s) := by
  unfold journalStart
  try dsimp only
  repeat' (first
    | assumption
    | with_reducible apply raise_inv
    | (with_reducible apply elim_inv)
    | split
    | (with_reducible refine Inv.upd ?_ (fun k => { k with }))
    | intro _)

theorem storeStart_inv {s : State} (h : Inv s) : Inv (storeStart s) := by
  unfold storeStart
  have h1 := recoverRefresh_inv (recoverErase_inv h)
  have h2 : Inv { recoverRefresh (recoverErase s) with nv := chkRestart (jnvRestart (recoverRefresh (recoverErase s)).nv) } :=
    { h1 with }
  have h3 := journalStart_inv (s := { recoverRefresh (recoverErase s) with
    nv := chkRestart (jnvRestart (recoverRefresh (recoverErase s)).nv)
    lg := { (recoverRefresh (recoverErase s)).lg with
      incPos := incWalk (chkRestart (jnvRestart (recoverRefresh (recoverErase s)).nv)) } }) { h2 with }
  exact { h3 with }
theorem regulatorStart_inv {s : State} (h : Inv s) : Inv (regulatorStart s) := by
  unfold regulatorStart
  try dsimp only
  repeat' (first
    | assumption
    | split
    | (with_reducible refine Inv.upd ?_ (fun k => { k with }))
    | intro _)

theorem wakeFromSleep_inv {s : State} (h : Inv s) : Inv (wakeFromSleep s) := by
  unfold wakeFromSleep
  try dsimp only
  repeat' (first
    | assumption
    | with_reducible apply storeStart_inv
    | with_reducible apply transition_inv
    | with_reducible apply raise_inv
    | with_reducible apply regulatorStart_inv
    | with_reducible apply stateLevels_inv
    | split
    | (with_reducible refine Inv.upd ?_ (fun k => ?_); on_goal 2 => (first | exact { k with } | exact ⟨by first | exact k.mem | exact nvWrite_wf _ _ k.mem | exact smWf_smPutBytes _ _ k.mem, by first | exact k.doms | (simp only [List.length_modify, List.length_set, List.length_map, List.length_zipIdx, List.length_replicate, List.length_range]; first | done | exact k.doms) | rfl, by first | exact k.ports | (simp only [List.length_modify, List.length_set, List.length_map, List.length_zipIdx, List.length_replicate, List.length_range]; first | done | exact k.ports) | rfl, by first | exact k.tx | (simp only [List.length_modify, List.length_set, List.length_map, List.length_zipIdx, List.length_replicate, List.length_range]; first | done | exact k.tx) | rfl, by first | exact k.fwd | (simp only [List.length_modify, List.length_set, List.length_map, List.length_zipIdx, List.length_replicate, List.length_range]; first | done | exact k.fwd) | rfl, by first | exact k.branches | (simp only [List.length_modify, List.length_set, List.length_map, List.length_zipIdx, List.length_replicate, List.length_range]; first | done | exact k.branches) | rfl, by first | exact k.slotsRx | (simp only [List.length_modify, List.length_set, List.length_map, List.length_zipIdx, List.length_replicate, List.length_range]; first | done | exact k.slotsRx) | rfl, by first | exact k.slotsTx | (simp only [List.length_modify, List.length_set, List.length_map, List.length_zipIdx, List.length_replicate, List.length_range]; first | done | exact k.slotsTx) | rfl, by first | exact k.eqPorts | (simp only [List.length_modify, List.length_set, List.length_map, List.length_zipIdx, List.length_replicate, List.length_range]; first | done | exact k.eqPorts) | rfl, by first | exact k.chans | (simp only [List.length_modify, List.length_set, List.length_map, List.length_zipIdx, List.length_replicate, List.length_range]; first | done | exact k.chans) | rfl, by first | exact k.banks | (simp only [List.length_modify, List.length_set, List.length_map, List.length_zipIdx, List.length_replicate, List.length_range]; first | done | exact k.banks) | rfl, by first | exact k.drawers | (simp only [List.length_modify, List.length_set, List.length_map, List.length_zipIdx, List.length_replicate, List.length_range]; first | done | exact k.drawers) | rfl, by first | exact k.keys | (simp only [List.length_modify, List.length_set, List.length_map, List.length_zipIdx, List.length_replicate, List.length_range]; first | done | exact k.keys) | rfl, by first | exact k.refusals | (simp only [List.length_modify, List.length_set, List.length_map, List.length_zipIdx, List.length_replicate, List.length_range]; first | done | exact k.refusals) | rfl, by first | exact k.staged | (simp only [List.length_modify, List.length_set, List.length_map, List.length_zipIdx, List.length_replicate, List.length_range]; first | done | exact k.staged) | rfl, by first | exact k.copies | (simp only [List.length_modify, List.length_set, List.length_map, List.length_zipIdx, List.length_replicate, List.length_range]; first | done | exact k.copies) | rfl, by first | exact k.latches | (simp only [List.length_modify, List.length_set, List.length_map, List.length_zipIdx, List.length_replicate, List.length_range]; first | done | exact k.latches) | rfl, by first | exact k.pxc | (repeat' first | exact k.pxc | exact k.rxc | exact core_default_inv | apply coreLoad_inv | apply coreStop_inv | apply chkScatter_inv | apply coreOff_inv | apply taskStart_inv), by first | exact k.rxc | (repeat' first | exact k.pxc | exact k.rxc | exact core_default_inv | apply coreLoad_inv | apply coreStop_inv | apply chkScatter_inv | apply coreOff_inv | apply taskStart_inv), by first | exact k.opl | simp | (simp only [List.length_modify, List.length_set, List.length_map, List.length_zipIdx, List.length_replicate, List.length_range]; exact k.opl), by first | exact k.bufs | exact smWf_smPut _ _ k.bufs | rfl, by first | exact k.caps | exact smWf_smPut _ _ k.caps | rfl, by first | exact k.capsPrev | exact smWf_smPut _ _ k.capsPrev | rfl, by first | exact k.tickets | exact Nat.mod_lt _ (by decide) | decide⟩))
    | intro _)

theorem sleepLeave_inv {s : State} (h : Inv s) : Inv (sleepLeave s) := by
  unfold sleepLeave
  try dsimp only
  repeat' (first
    | assumption
    | with_reducible apply wakeFromSleep_inv
    | split
    | intro _)

theorem lineCheckEnd_inv {s : State} (h : Inv s) : ∀ a0 a1, Inv (lineCheckEnd a0 a1 s) := by
  intro a0 a1
  unfold lineCheckEnd
  try dsimp only
  repeat' (first
    | assumption
    | with_reducible apply sleepLeave_inv
    | (with_reducible apply elim_inv)
    | split
    | (with_reducible refine Inv.upd ?_ (fun k => { k with }))
    | intro _)

theorem drawerSel_inv {s : State} (h : Inv s) : ∀ a0 a1, Inv (drawerSel a0 a1 s) := by
  intro a0 a1
  unfold drawerSel
  try dsimp only
  repeat' (first
    | assumption
    | with_reducible apply drawerMod_inv
    | with_reducible apply drawerGo_inv
    | split
    | (with_reducible refine Inv.upd ?_ (fun k => { k with }))
    | intro _)

theorem legal_inv {s : State} (h : Inv s) (ok : Bool) (f : Core → State → State) (c : Core)
    (hf : ∀ s, Inv s → Inv (f c s)) : Inv (legal ok f c s) := by
  unfold legal
  split
  · exact hf s h
  · exact yieldNow_inv h _
theorem sessionPut_inv {s : State} (h : Inv s) : ∀ a0 a1, Inv (sessionPut a0 a1 s) := by
  intro a0 a1
  unfold sessionPut
  try dsimp only
  repeat' (first
    | assumption
    | split
    | (with_reducible refine Inv.upd ?_ (fun k => { k with }))
    | intro _)

theorem poolSticky_inv {s : State} (h : Inv s) : ∀ a0, Inv (poolSticky a0 s) := by
  intro a0
  unfold poolSticky
  try dsimp only
  repeat' (first
    | assumption
    | split
    | (with_reducible refine Inv.upd ?_ (fun k => { k with }))
    | intro _)

theorem poolEmpty_inv {s : State} (h : Inv s) : Inv (poolEmpty s) := by
  unfold poolEmpty
  try dsimp only
  repeat' (first
    | assumption
    | with_reducible apply poolSticky_inv
    | with_reducible apply raise_inv
    | split
    | intro _)

theorem allocGo_inv {s : State} (h : Inv s) : ∀ o f first l, Inv (allocGo o f first l s) := by
  intro o f first l
  induction l generalizing s first with
  | nil => exact h
  | cons b r ih => exact ih (bufMod_inv _ _ h) _
theorem poolAlloc_inv {s : State} (h : Inv s) : ∀ a0 a1 a2, Inv (poolAlloc a0 a1 a2 s).1 := by
  intro a0 a1 a2
  unfold poolAlloc
  try dsimp only
  repeat' (first
    | assumption
    | with_reducible apply poolEmpty_inv
    | with_reducible apply allocGo_inv
    | split
    | (with_reducible refine Inv.upd ?_ (fun k => { k with }))
    | intro _)

theorem unitsWritten_inv {s : State} (h : Inv s) : ∀ a0, Inv (unitsWritten a0 s) := by
  intro a0
  unfold unitsWritten
  try dsimp only
  repeat' (first
    | assumption
    | split
    | (with_reducible refine Inv.upd ?_ (fun k => { k with }))
    | intro _)

theorem chainFill_inv {s : State} (h : Inv s) : ∀ l d, Inv (chainFill l d s) := by
  intro l d
  induction l generalizing s d with
  | nil => exact h
  | cons b r ih => exact ih (unitsWritten_inv (bufMod_inv _ _ h) _) _
theorem poolStore_inv {s : State} (h : Inv s) : ∀ a0 a1, Inv (poolStore a0 a1 s).1 := by
  intro a0 a1
  unfold poolStore
  try dsimp only
  repeat' (first
    | assumption
    | with_reducible apply poolAlloc_inv
    | with_reducible apply chainFill_inv
    | split
    | intro _)

theorem stampPush_inv {s : State} (h : Inv s) : ∀ a0 a1 a2, Inv (stampPush a0 a1 a2 s) := by
  intro a0 a1 a2
  unfold stampPush
  try dsimp only
  repeat' (first
    | assumption
    | with_reducible apply eqMod_inv
    | with_reducible apply raise_inv
    | split
    | (with_reducible refine Inv.upd ?_ (fun k => { k with }))
    | intro _)

theorem eqStart_inv {s : State} (h : Inv s) : ∀ a0, Inv (eqStart a0 s) := by
  intro a0
  unfold eqStart
  try dsimp only
  repeat' (first
    | assumption
    | with_reducible apply eqMod_inv
    | with_reducible apply emit_inv
    | with_reducible apply stampPush_inv
    | split
    | (with_reducible refine Inv.upd ?_ (fun k => { k with }))
    | intro _)

theorem e0Send_inv {s : State} (h : Inv s) : ∀ a0 a1, Inv (e0Send a0 a1 s) := by
  intro a0 a1
  unfold e0Send
  try dsimp only
  repeat' (first
    | assumption
    | with_reducible apply poolStore_inv
    | with_reducible apply eqStart_inv
    | with_reducible apply eqMod_inv
    | split
    | (with_reducible refine Inv.upd ?_ (fun k => { k with }))
    | intro _)

theorem portsStart_inv {s : State} (h : Inv s) : Inv (portsStart s) := by
  unfold portsStart
  try dsimp only
  repeat' (first
    | assumption
    | with_reducible apply portStart_inv
    | (with_reducible apply foldl_inv)
    | split
    | intro _)

theorem ownAdd_inv {s : State} (h : Inv s) : ∀ a0, Inv (ownAdd a0 s) := by
  intro a0
  unfold ownAdd
  try dsimp only
  repeat' (first
    | assumption
    | with_reducible apply portsStart_inv
    | split
    | (with_reducible refine Inv.upd ?_ (fun k => { k with }))
    | intro _)

theorem pduSend_inv {s : State} (h : Inv s) : ∀ a0 a1 a2, Inv (pduSend a0 a1 a2 s) := by
  intro a0 a1 a2
  unfold pduSend
  try dsimp only
  repeat' (first
    | assumption
    | with_reducible apply e0Send_inv
    | with_reducible apply ownAdd_inv
    | split
    | (with_reducible refine Inv.upd ?_ (fun k => { k with }))
    | intro _)

theorem pduOpen_inv {s : State} (h : Inv s) : ∀ a0 a1, Inv (pduOpen a0 a1 s) := by
  intro a0 a1
  unfold pduOpen
  try dsimp only
  repeat' (first
    | assumption
    | with_reducible apply sessionPut_inv
    | with_reducible apply raise_inv
    | with_reducible apply pduSend_inv
    | split
    | (with_reducible refine Inv.upd ?_ (fun k => { k with }))
    | intro _)

theorem trackPut_inv {s : State} (h : Inv s) : ∀ a0, Inv (trackPut a0 s) := by
  intro a0
  unfold trackPut
  try dsimp only
  repeat' (first
    | assumption
    | split
    | (with_reducible refine Inv.upd ?_ (fun k => { k with }))
    | intro _)

theorem trackMember_inv {s : State} (h : Inv s) : ∀ im p l e, Inv (trackMember im p (s, l) e).1 := by
  intro im p l e
  unfold trackMember
  dsimp only
  split
  · exact trackPut_inv h _
  · split
    · exact h
    · exact ite_inv (raise_inv _ _ _ (trackPut_inv h _)) (trackPut_inv h _)
theorem sleepWatch_inv {s : State} (h : Inv s) : Inv (sleepWatch s) := by
  unfold sleepWatch
  split
  next t im _ _ =>
    have hm : ∀ (pl : Bytes) (l : List (TtrRec × Nat)) (a : State × List Nat), Inv a.1 →
        Inv (l.foldl (trackMember im pl) a).1 := by
      intro pl l
      induction l with
      | nil => exact fun _ ha => ha
      | cons e r ih => exact fun a ha => ih _ (trackMember_inv ha im pl a.2 e)
    have h2 : Inv (match s.tf.accepted with
        | some c => (windowRecs s t).foldl (trackMember im c.payload) (s, [])
        | none => (s, [0])).1 := by
      split
      · exact hm _ _ _ h
      · exact h
    refine ite_inv h (ite_inv (ite_inv { h2 with } { h2 with }) (ite_inv (raise_inv _ _ _ { h2 with }) { h2 with }))
  · exact h
theorem muteEvent_inv {s : State} (h : Inv s) : ∀ a0 a1, Inv (muteEvent a0 a1 s) := by
  intro a0 a1
  unfold muteEvent
  try dsimp only
  repeat' (first
    | assumption
    | with_reducible apply raise_inv
    | (with_reducible apply elim_inv)
    | split
    | intro _)

theorem setMode_inv {s : State} (h : Inv s) : ∀ a0, Inv (setMode a0 s) := by
  intro a0
  unfold setMode
  try dsimp only
  repeat' (first
    | assumption
    | with_reducible apply raise_inv
    | split
    | (with_reducible refine Inv.upd ?_ (fun k => { k with }))
    | intro _)

theorem acquireFrom_inv {s : State} (h : Inv s) : Inv (acquireFrom s) := by
  unfold acquireFrom
  try dsimp only
  repeat' (first
    | assumption
    | split
    | (with_reducible refine Inv.upd ?_ (fun k => { k with }))
    | intro _)

theorem amendAdopt_inv {s : State} (h : Inv s) : ∀ a0 a1 a2, Inv (amendAdopt a0 a1 a2 s) := by
  intro a0 a1 a2
  unfold amendAdopt
  try dsimp only
  repeat' (first
    | assumption
    | with_reducible apply raise_inv
    | with_reducible apply muteEvent_inv
    | with_reducible apply setMode_inv
    | with_reducible apply acquireFrom_inv
    | split
    | (with_reducible refine Inv.upd ?_ (fun k => { k with }))
    | intro _)

theorem chainOwner_inv {s : State} (h : Inv s) : ∀ a0 a1, Inv (chainOwner a0 a1 s) := by
  intro a0 a1
  unfold chainOwner
  try dsimp only
  repeat' (first
    | assumption
    | with_reducible apply bufMod_inv
    | (with_reducible apply foldl_inv)
    | split
    | (with_reducible refine Inv.upd ?_ (fun k => { k with }))
    | intro _)

theorem postChain_inv {s : State} (h : Inv s) : ∀ a0 a1 a2 a3, Inv (postChain a0 a1 a2 a3 s).1 := by
  intro a0 a1 a2 a3
  unfold postChain
  try dsimp only
  repeat' (first
    | assumption
    | with_reducible apply raise_inv
    | with_reducible apply chainOwner_inv
    | with_reducible apply eqStart_inv
    | with_reducible apply eqMod_inv
    | split
    | (with_reducible refine Inv.upd ?_ (fun k => { k with }))
    | intro _)

theorem eqPostOp_inv {s : State} (h : Inv s) : ∀ d a b c, Inv (eqPostOp d a b c s) := fun d a b c => by
  unfold eqPostOp
  dsimp only
  with_reducible refine activeMod_inv _ (postChain_inv h _ _ _ _) (fun x hx => ?_)
  generalize postChain (reg c a).toNat (coreOwner s) ((reg c b).toNat % 4) ((reg c b).toNat / 256 % 8) s = r
  have h' := answer_inv d [w32 r.2] (r.2 = 0) hx
  exact ⟨h'.regs, h'.rets, h'.loops, h'.data⟩
theorem logArmSet_inv {s : State} (h : Inv s) : ∀ a0 a1, Inv (logArmSet a0 a1 s) := by
  intro a0 a1
  unfold logArmSet
  try dsimp only
  repeat' (first
    | assumption
    | split
    | (with_reducible refine Inv.upd ?_ (fun k => { k with }))
    | intro _)

theorem guardCount_inv {s : State} (h : Inv s) : ∀ a0 a1, Inv (guardCount a0 a1 s) := by
  intro a0 a1
  unfold guardCount
  try dsimp only
  repeat' (first
    | assumption
    | with_reducible apply brMod_inv
    | with_reducible apply raise_inv
    | split
    | (with_reducible refine Inv.upd ?_ (fun k => { k with }))
    | intro _)

theorem guardianCut_inv {s : State} (h : Inv s) : ∀ a0, Inv (guardianCut a0 s) := by
  intro a0
  unfold guardianCut
  try dsimp only
  repeat' (first
    | assumption
    | with_reducible apply brMod_inv
    | with_reducible apply guardCount_inv
    | with_reducible apply raise_inv
    | with_reducible apply gotMod_inv
    | split
    | (with_reducible refine Inv.upd ?_ (fun k => { k with }))
    | intro _)

theorem sessionClose_inv {s : State} (h : Inv s) : ∀ a0 a1, Inv (sessionClose a0 a1 s) := by
  intro a0 a1
  unfold sessionClose
  try dsimp only
  repeat' (first
    | assumption
    | with_reducible apply pduSend_inv
    | with_reducible apply sessionPut_inv
    | with_reducible apply sessionDrop_inv
    | split
    | intro _)

theorem keyGone_inv {s : State} (h : Inv s) : ∀ a0, Inv (keyGone a0 s) := by
  intro a0
  unfold keyGone
  try dsimp only
  repeat' (first
    | assumption
    | with_reducible apply sessionClose_inv
    | (with_reducible apply elim_inv)
    | split
    | intro _)

theorem takeoverFail_inv {s : State} (h : Inv s) : ∀ a0 a1, Inv (takeoverFail a0 a1 s) := by
  intro a0 a1
  unfold takeoverFail
  try dsimp only
  repeat' (first
    | assumption
    | with_reducible apply rxcRetire_inv
    | with_reducible apply toNocore_inv
    | split
    | (with_reducible refine Inv.upd ?_ (fun k => { k with }))
    | intro _)

theorem requestAdd_inv {s : State} (h : Inv s) : ∀ a0 a1, Inv (requestAdd a0 a1 s) := by
  intro a0 a1
  unfold requestAdd
  try dsimp only
  repeat' (first
    | assumption
    | split
    | (with_reducible refine Inv.upd ?_ (fun k => { k with }))
    | intro _)

theorem sendUpdate_inv {s : State} (h : Inv s) : Inv (sendUpdate s) := by
  unfold sendUpdate
  try dsimp only
  repeat' (first
    | assumption
    | with_reducible apply requestAdd_inv
    | with_reducible apply hingeOwn_inv
    | split
    | intro _)

theorem stepComplete_inv {s : State} (h : Inv s) : ∀ a0, Inv (stepComplete a0 s) := by
  intro a0
  unfold stepComplete
  try dsimp only
  repeat' (first
    | assumption
    | with_reducible apply resettle_inv
    | with_reducible apply hpMod_inv
    | with_reducible apply sendUpdate_inv
    | split
    | (with_reducible refine Inv.upd ?_ (fun k => { k with }))
    | intro _)

theorem memSettle_inv {s : State} (h : Inv s) : ∀ a0, Inv (memSettle a0 s) := by
  intro a0
  unfold memSettle
  try dsimp only
  repeat' (first
    | assumption
    | with_reducible apply chanMod_inv
    | split
    | (with_reducible refine Inv.upd ?_ (fun k => { k with }))
    | intro _)

theorem causeClear_inv {s : State} (h : Inv s) : ∀ a0 a1, Inv (causeClear a0 a1 s) := by
  intro a0 a1
  unfold causeClear
  try dsimp only
  repeat' (first
    | assumption
    | with_reducible apply chanMod_inv
    | with_reducible apply raise_inv
    | with_reducible apply memSettle_inv
    | split
    | intro _)

theorem cold_inv {s : State} (h : Inv s) : Inv (cold s) := by
  have c0 := core_default_inv
  exact ⟨h.mem, rfl, rfl, rfl, rfl, rfl, rfl, rfl, rfl, (List.length_map _).trans h.chans, rfl, rfl, h.keys, rfl, rfl, rfl, rfl,
    c0, c0, Nat.zero_le _, rfl, rfl, rfl, Nat.zero_lt_succ _⟩
theorem revertCancel_inv {s : State} (h : Inv s) : ∀ a0, Inv (revertCancel a0 s) := by
  intro a0
  unfold revertCancel
  try dsimp only
  repeat' (first
    | assumption
    | with_reducible apply raise_inv
    | split
    | (with_reducible refine Inv.upd ?_ (fun k => { k with }))
    | intro _)

theorem repairFailed_inv {s : State} (h : Inv s) : Inv (repairFailed s) := by
  unfold repairFailed
  try dsimp only
  repeat' (first
    | assumption
    | with_reducible apply revertCancel_inv
    | split
    | (with_reducible refine Inv.upd ?_ (fun k => { k with }))
    | intro _)

theorem repairPassed_inv {s : State} (h : Inv s) : Inv (repairPassed s) := by
  unfold repairPassed
  try dsimp only
  repeat' (first
    | assumption
    | with_reducible apply raise_inv
    | with_reducible apply repairAsk_inv
    | (with_reducible apply elim_inv)
    | split
    | (with_reducible refine Inv.upd ?_ (fun k => { k with }))
    | intro _)

theorem repairEnd_inv {s : State} (h : Inv s) : ∀ a0, Inv (repairEnd a0 s) := by
  intro a0
  unfold repairEnd
  try dsimp only
  repeat' (first
    | assumption
    | with_reducible apply repairFailed_inv
    | with_reducible apply repairAsk_inv
    | with_reducible apply repairPassed_inv
    | split
    | (with_reducible refine Inv.upd ?_ (fun k => { k with }))
    | intro _)

theorem planSwitch_inv {s : State} (h : Inv s) : ∀ a0 a1, Inv (planSwitch a0 a1 s) := by
  intro a0 a1
  unfold planSwitch
  try dsimp only
  repeat' (first
    | assumption
    | split
    | (with_reducible refine Inv.upd ?_ (fun k => ?_); on_goal 2 => (first | exact { k with } | exact ⟨by first | exact k.mem | exact nvWrite_wf _ _ k.mem | exact smWf_smPutBytes _ _ k.mem, by first | exact k.doms | (simp only [List.length_modify, List.length_set, List.length_map, List.length_zipIdx, List.length_replicate, List.length_range]; first | done | exact k.doms) | rfl, by first | exact k.ports | (simp only [List.length_modify, List.length_set, List.length_map, List.length_zipIdx, List.length_replicate, List.length_range]; first | done | exact k.ports) | rfl, by first | exact k.tx | (simp only [List.length_modify, List.length_set, List.length_map, List.length_zipIdx, List.length_replicate, List.length_range]; first | done | exact k.tx) | rfl, by first | exact k.fwd | (simp only [List.length_modify, List.length_set, List.length_map, List.length_zipIdx, List.length_replicate, List.length_range]; first | done | exact k.fwd) | rfl, by first | exact k.branches | (simp only [List.length_modify, List.length_set, List.length_map, List.length_zipIdx, List.length_replicate, List.length_range]; first | done | exact k.branches) | rfl, by first | exact k.slotsRx | (simp only [List.length_modify, List.length_set, List.length_map, List.length_zipIdx, List.length_replicate, List.length_range]; first | done | exact k.slotsRx) | rfl, by first | exact k.slotsTx | (simp only [List.length_modify, List.length_set, List.length_map, List.length_zipIdx, List.length_replicate, List.length_range]; first | done | exact k.slotsTx) | rfl, by first | exact k.eqPorts | (simp only [List.length_modify, List.length_set, List.length_map, List.length_zipIdx, List.length_replicate, List.length_range]; first | done | exact k.eqPorts) | rfl, by first | exact k.chans | (simp only [List.length_modify, List.length_set, List.length_map, List.length_zipIdx, List.length_replicate, List.length_range]; first | done | exact k.chans) | rfl, by first | exact k.banks | (simp only [List.length_modify, List.length_set, List.length_map, List.length_zipIdx, List.length_replicate, List.length_range]; first | done | exact k.banks) | rfl, by first | exact k.drawers | (simp only [List.length_modify, List.length_set, List.length_map, List.length_zipIdx, List.length_replicate, List.length_range]; first | done | exact k.drawers) | rfl, by first | exact k.keys | (simp only [List.length_modify, List.length_set, List.length_map, List.length_zipIdx, List.length_replicate, List.length_range]; first | done | exact k.keys) | rfl, by first | exact k.refusals | (simp only [List.length_modify, List.length_set, List.length_map, List.length_zipIdx, List.length_replicate, List.length_range]; first | done | exact k.refusals) | rfl, by first | exact k.staged | (simp only [List.length_modify, List.length_set, List.length_map, List.length_zipIdx, List.length_replicate, List.length_range]; first | done | exact k.staged) | rfl, by first | exact k.copies | (simp only [List.length_modify, List.length_set, List.length_map, List.length_zipIdx, List.length_replicate, List.length_range]; first | done | exact k.copies) | rfl, by first | exact k.latches | (simp only [List.length_modify, List.length_set, List.length_map, List.length_zipIdx, List.length_replicate, List.length_range]; first | done | exact k.latches) | rfl, by first | exact k.pxc | (repeat' first | exact k.pxc | exact k.rxc | exact core_default_inv | apply coreLoad_inv | apply coreStop_inv | apply chkScatter_inv | apply coreOff_inv | apply taskStart_inv), by first | exact k.rxc | (repeat' first | exact k.pxc | exact k.rxc | exact core_default_inv | apply coreLoad_inv | apply coreStop_inv | apply chkScatter_inv | apply coreOff_inv | apply taskStart_inv), by first | exact k.opl | simp | (simp only [List.length_modify, List.length_set, List.length_map, List.length_zipIdx, List.length_replicate, List.length_range]; exact k.opl), by first | exact k.bufs | exact smWf_smPut _ _ k.bufs | rfl, by first | exact k.caps | exact smWf_smPut _ _ k.caps | rfl, by first | exact k.capsPrev | exact smWf_smPut _ _ k.capsPrev | rfl, by first | exact k.tickets | exact Nat.mod_lt _ (by decide) | decide⟩))
    | intro _)

theorem planFire_inv {s : State} (h : Inv s) : ∀ a0 a1, Inv (planFire a0 a1 s) := by
  intro a0 a1
  unfold planFire
  try dsimp only
  repeat' (first
    | assumption
    | with_reducible apply planSwitch_inv
    | split
    | intro _)

theorem pwrOffRun_inv {s : State} (h : Inv s) : ∀ a0, Inv (pwrOffRun a0 s) := by
  intro a0
  unfold pwrOffRun
  try dsimp only
  repeat' (first
    | assumption
    | with_reducible apply gridFire_inv
    | with_reducible apply planFire_inv
    | split
    | intro _)

theorem begin__inv {s : State} (h : Inv s) : ∀ a0, Inv (begin_ a0 s) := by
  intro a0
  unfold begin_
  try dsimp only
  repeat' (first
    | assumption
    | split
    | (with_reducible refine Inv.upd ?_ (fun k => { k with }))
    | intro _)

theorem cmdDone_inv {s : State} (h : Inv s) : ∀ a0 a1 a2, Inv (cmdDone a0 a1 a2 s) := by
  intro a0 a1 a2
  unfold cmdDone
  try dsimp only
  repeat' (first
    | assumption
    | with_reducible apply cmdState_inv
    | split
    | intro _)

theorem jobEnd_inv {s : State} (h : Inv s) : ∀ a0 a1, Inv (jobEnd a0 a1 s) := by
  intro a0 a1
  unfold jobEnd
  try dsimp only
  repeat' (first
    | assumption
    | with_reducible apply cmdState_inv
    | split
    | (with_reducible refine Inv.upd ?_ (fun k => { k with }))
    | intro _)

theorem verifierPower_inv {s : State} (h : Inv s) : ∀ a0, Inv (verifierPower a0 s) := by
  intro a0
  unfold verifierPower
  try dsimp only
  repeat' (first
    | assumption
    | split
    | (with_reducible refine Inv.upd ?_ (fun k => ?_); on_goal 2 => (first | exact { k with } | exact ⟨by first | exact k.mem | exact nvWrite_wf _ _ k.mem | exact smWf_smPutBytes _ _ k.mem, by first | exact k.doms | (simp only [List.length_modify, List.length_set, List.length_map, List.length_zipIdx, List.length_replicate, List.length_range]; first | done | exact k.doms) | rfl, by first | exact k.ports | (simp only [List.length_modify, List.length_set, List.length_map, List.length_zipIdx, List.length_replicate, List.length_range]; first | done | exact k.ports) | rfl, by first | exact k.tx | (simp only [List.length_modify, List.length_set, List.length_map, List.length_zipIdx, List.length_replicate, List.length_range]; first | done | exact k.tx) | rfl, by first | exact k.fwd | (simp only [List.length_modify, List.length_set, List.length_map, List.length_zipIdx, List.length_replicate, List.length_range]; first | done | exact k.fwd) | rfl, by first | exact k.branches | (simp only [List.length_modify, List.length_set, List.length_map, List.length_zipIdx, List.length_replicate, List.length_range]; first | done | exact k.branches) | rfl, by first | exact k.slotsRx | (simp only [List.length_modify, List.length_set, List.length_map, List.length_zipIdx, List.length_replicate, List.length_range]; first | done | exact k.slotsRx) | rfl, by first | exact k.slotsTx | (simp only [List.length_modify, List.length_set, List.length_map, List.length_zipIdx, List.length_replicate, List.length_range]; first | done | exact k.slotsTx) | rfl, by first | exact k.eqPorts | (simp only [List.length_modify, List.length_set, List.length_map, List.length_zipIdx, List.length_replicate, List.length_range]; first | done | exact k.eqPorts) | rfl, by first | exact k.chans | (simp only [List.length_modify, List.length_set, List.length_map, List.length_zipIdx, List.length_replicate, List.length_range]; first | done | exact k.chans) | rfl, by first | exact k.banks | (simp only [List.length_modify, List.length_set, List.length_map, List.length_zipIdx, List.length_replicate, List.length_range]; first | done | exact k.banks) | rfl, by first | exact k.drawers | (simp only [List.length_modify, List.length_set, List.length_map, List.length_zipIdx, List.length_replicate, List.length_range]; first | done | exact k.drawers) | rfl, by first | exact k.keys | (simp only [List.length_modify, List.length_set, List.length_map, List.length_zipIdx, List.length_replicate, List.length_range]; first | done | exact k.keys) | rfl, by first | exact k.refusals | (simp only [List.length_modify, List.length_set, List.length_map, List.length_zipIdx, List.length_replicate, List.length_range]; first | done | exact k.refusals) | rfl, by first | exact k.staged | (simp only [List.length_modify, List.length_set, List.length_map, List.length_zipIdx, List.length_replicate, List.length_range]; first | done | exact k.staged) | rfl, by first | exact k.copies | (simp only [List.length_modify, List.length_set, List.length_map, List.length_zipIdx, List.length_replicate, List.length_range]; first | done | exact k.copies) | rfl, by first | exact k.latches | (simp only [List.length_modify, List.length_set, List.length_map, List.length_zipIdx, List.length_replicate, List.length_range]; first | done | exact k.latches) | rfl, by first | exact k.pxc | (repeat' first | exact k.pxc | exact k.rxc | exact core_default_inv | apply coreLoad_inv | apply coreStop_inv | apply chkScatter_inv | apply coreOff_inv | apply taskStart_inv), by first | exact k.rxc | (repeat' first | exact k.pxc | exact k.rxc | exact core_default_inv | apply coreLoad_inv | apply coreStop_inv | apply chkScatter_inv | apply coreOff_inv | apply taskStart_inv), by first | exact k.opl | simp | (simp only [List.length_modify, List.length_set, List.length_map, List.length_zipIdx, List.length_replicate, List.length_range]; exact k.opl), by first | exact k.bufs | exact smWf_smPut _ _ k.bufs | rfl, by first | exact k.caps | exact smWf_smPut _ _ k.caps | rfl, by first | exact k.capsPrev | exact smWf_smPut _ _ k.capsPrev | rfl, by first | exact k.tickets | exact Nat.mod_lt _ (by decide) | decide⟩))
    | intro _)

theorem refEnd_inv {s : State} (h : Inv s) : ∀ a0, Inv (refEnd a0 s) := by
  intro a0
  unfold refEnd
  try dsimp only
  repeat' (first
    | assumption
    | with_reducible apply jobEnd_inv
    | with_reducible apply raise_inv
    | split
    | intro _)

theorem nvReport_inv {s : State} (h : Inv s) : ∀ a0 a1, Inv (nvReport a0 a1 s) := by
  intro a0 a1
  unfold nvReport
  try dsimp only
  repeat' (first
    | assumption
    | with_reducible apply raise_inv
    | (with_reducible apply foldl_inv)
    | split
    | (with_reducible refine Inv.upd ?_ (fun k => { k with }))
    | intro _)

theorem refPick_inv {s : State} (h : Inv s) : ∀ n, Inv (refPick n s) := by
  intro n
  induction n generalizing s with
  | zero => exact h
  | succ n ih =>
    unfold refPick
    split
    · exact h
    · dsimp only
      split
      · exact refEnd_inv h _
      split
      · exact ih (jobMod_inv _ h)
      split
      · exact ih (jobMod_inv _ (nvReport_inv h _ _))
      · exact jobMod_inv _ h
theorem jobBegin_inv {s : State} (h : Inv s) : ∀ a0, Inv (jobBegin a0 s) := by
  intro a0
  unfold jobBegin
  try dsimp only
  repeat' (first
    | assumption
    | with_reducible apply cmdState_inv
    | with_reducible apply jobEnd_inv
    | with_reducible apply raise_inv
    | with_reducible apply verifierPower_inv
    | with_reducible apply refPick_inv
    | split
    | (with_reducible refine Inv.upd ?_ (fun k => ?_); on_goal 2 => (first | exact { k with } | exact ⟨by first | exact k.mem | exact nvWrite_wf _ _ k.mem | exact smWf_smPutBytes _ _ k.mem, by first | exact k.doms | (simp only [List.length_modify, List.length_set, List.length_map, List.length_zipIdx, List.length_replicate, List.length_range]; first | done | exact k.doms) | rfl, by first | exact k.ports | (simp only [List.length_modify, List.length_set, List.length_map, List.length_zipIdx, List.length_replicate, List.length_range]; first | done | exact k.ports) | rfl, by first | exact k.tx | (simp only [List.length_modify, List.length_set, List.length_map, List.length_zipIdx, List.length_replicate, List.length_range]; first | done | exact k.tx) | rfl, by first | exact k.fwd | (simp only [List.length_modify, List.length_set, List.length_map, List.length_zipIdx, List.length_replicate, List.length_range]; first | done | exact k.fwd) | rfl, by first | exact k.branches | (simp only [List.length_modify, List.length_set, List.length_map, List.length_zipIdx, List.length_replicate, List.length_range]; first | done | exact k.branches) | rfl, by first | exact k.slotsRx | (simp only [List.length_modify, List.length_set, List.length_map, List.length_zipIdx, List.length_replicate, List.length_range]; first | done | exact k.slotsRx) | rfl, by first | exact k.slotsTx | (simp only [List.length_modify, List.length_set, List.length_map, List.length_zipIdx, List.length_replicate, List.length_range]; first | done | exact k.slotsTx) | rfl, by first | exact k.eqPorts | (simp only [List.length_modify, List.length_set, List.length_map, List.length_zipIdx, List.length_replicate, List.length_range]; first | done | exact k.eqPorts) | rfl, by first | exact k.chans | (simp only [List.length_modify, List.length_set, List.length_map, List.length_zipIdx, List.length_replicate, List.length_range]; first | done | exact k.chans) | rfl, by first | exact k.banks | (simp only [List.length_modify, List.length_set, List.length_map, List.length_zipIdx, List.length_replicate, List.length_range]; first | done | exact k.banks) | rfl, by first | exact k.drawers | (simp only [List.length_modify, List.length_set, List.length_map, List.length_zipIdx, List.length_replicate, List.length_range]; first | done | exact k.drawers) | rfl, by first | exact k.keys | (simp only [List.length_modify, List.length_set, List.length_map, List.length_zipIdx, List.length_replicate, List.length_range]; first | done | exact k.keys) | rfl, by first | exact k.refusals | (simp only [List.length_modify, List.length_set, List.length_map, List.length_zipIdx, List.length_replicate, List.length_range]; first | done | exact k.refusals) | rfl, by first | exact k.staged | (simp only [List.length_modify, List.length_set, List.length_map, List.length_zipIdx, List.length_replicate, List.length_range]; first | done | exact k.staged) | rfl, by first | exact k.copies | (simp only [List.length_modify, List.length_set, List.length_map, List.length_zipIdx, List.length_replicate, List.length_range]; first | done | exact k.copies) | rfl, by first | exact k.latches | (simp only [List.length_modify, List.length_set, List.length_map, List.length_zipIdx, List.length_replicate, List.length_range]; first | done | exact k.latches) | rfl, by first | exact k.pxc | (repeat' first | exact k.pxc | exact k.rxc | exact core_default_inv | apply coreLoad_inv | apply coreStop_inv | apply chkScatter_inv | apply coreOff_inv | apply taskStart_inv), by first | exact k.rxc | (repeat' first | exact k.pxc | exact k.rxc | exact core_default_inv | apply coreLoad_inv | apply coreStop_inv | apply chkScatter_inv | apply coreOff_inv | apply taskStart_inv), by first | exact k.opl | simp | (simp only [List.length_modify, List.length_set, List.length_map, List.length_zipIdx, List.length_replicate, List.length_range]; exact k.opl), by first | exact k.bufs | exact smWf_smPut _ _ k.bufs | rfl, by first | exact k.caps | exact smWf_smPut _ _ k.caps | rfl, by first | exact k.capsPrev | exact smWf_smPut _ _ k.capsPrev | rfl, by first | exact k.tickets | exact Nat.mod_lt _ (by decide) | decide⟩))
    | intro _)

theorem chkpSaveStart_inv {s : State} (h : Inv s) : ∀ a0, Inv (chkpSaveStart a0 s) := by
  intro a0
  unfold chkpSaveStart
  try dsimp only
  repeat' (first
    | assumption
    | with_reducible apply cmdDone_inv
    | with_reducible apply jobBegin_inv
    | split
    | (with_reducible refine Inv.upd ?_ (fun k => { k with }))
    | intro _)

theorem nvStart_inv {s : State} (h : Inv s) : ∀ a0, Inv (nvStart a0 s) := by
  intro a0
  unfold nvStart
  try dsimp only
  repeat' (first
    | assumption
    | with_reducible apply cmdDone_inv
    | with_reducible apply chkpSaveStart_inv
    | with_reducible apply jobBegin_inv
    | split
    | (with_reducible refine Inv.upd ?_ (fun k => { k with }))
    | intro _)

theorem coreLoadReport_inv {s : State} (h : Inv s) : Inv (coreLoadReport s) := by
  unfold coreLoadReport
  try dsimp only
  repeat' (first
    | assumption
    | with_reducible apply nvReport_inv
    | (with_reducible apply foldl_inv)
    | split
    | intro _)

theorem rxcLoadDone_inv {s : State} (h : Inv s) : Inv (rxcLoadDone s) := by
  unfold rxcLoadDone
  try dsimp only
  repeat' (first
    | assumption
    | with_reducible apply coreLoadReport_inv
    | with_reducible apply raise_inv
    | with_reducible apply coreLoad_inv
    | with_reducible apply coreLoad_inv
    | split
    | (with_reducible refine Inv.upd ?_ (fun k => ?_); on_goal 2 => (first | exact { k with } | exact ⟨by first | exact k.mem | exact nvWrite_wf _ _ k.mem | exact smWf_smPutBytes _ _ k.mem, by first | exact k.doms | (simp only [List.length_modify, List.length_set, List.length_map, List.length_zipIdx, List.length_replicate, List.length_range]; first | done | exact k.doms) | rfl, by first | exact k.ports | (simp only [List.length_modify, List.length_set, List.length_map, List.length_zipIdx, List.length_replicate, List.length_range]; first | done | exact k.ports) | rfl, by first | exact k.tx | (simp only [List.length_modify, List.length_set, List.length_map, List.length_zipIdx, List.length_replicate, List.length_range]; first | done | exact k.tx) | rfl, by first | exact k.fwd | (simp only [List.length_modify, List.length_set, List.length_map, List.length_zipIdx, List.length_replicate, List.length_range]; first | done | exact k.fwd) | rfl, by first | exact k.branches | (simp only [List.length_modify, List.length_set, List.length_map, List.length_zipIdx, List.length_replicate, List.length_range]; first | done | exact k.branches) | rfl, by first | exact k.slotsRx | (simp only [List.length_modify, List.length_set, List.length_map, List.length_zipIdx, List.length_replicate, List.length_range]; first | done | exact k.slotsRx) | rfl, by first | exact k.slotsTx | (simp only [List.length_modify, List.length_set, List.length_map, List.length_zipIdx, List.length_replicate, List.length_range]; first | done | exact k.slotsTx) | rfl, by first | exact k.eqPorts | (simp only [List.length_modify, List.length_set, List.length_map, List.length_zipIdx, List.length_replicate, List.length_range]; first | done | exact k.eqPorts) | rfl, by first | exact k.chans | (simp only [List.length_modify, List.length_set, List.length_map, List.length_zipIdx, List.length_replicate, List.length_range]; first | done | exact k.chans) | rfl, by first | exact k.banks | (simp only [List.length_modify, List.length_set, List.length_map, List.length_zipIdx, List.length_replicate, List.length_range]; first | done | exact k.banks) | rfl, by first | exact k.drawers | (simp only [List.length_modify, List.length_set, List.length_map, List.length_zipIdx, List.length_replicate, List.length_range]; first | done | exact k.drawers) | rfl, by first | exact k.keys | (simp only [List.length_modify, List.length_set, List.length_map, List.length_zipIdx, List.length_replicate, List.length_range]; first | done | exact k.keys) | rfl, by first | exact k.refusals | (simp only [List.length_modify, List.length_set, List.length_map, List.length_zipIdx, List.length_replicate, List.length_range]; first | done | exact k.refusals) | rfl, by first | exact k.staged | (simp only [List.length_modify, List.length_set, List.length_map, List.length_zipIdx, List.length_replicate, List.length_range]; first | done | exact k.staged) | rfl, by first | exact k.copies | (simp only [List.length_modify, List.length_set, List.length_map, List.length_zipIdx, List.length_replicate, List.length_range]; first | done | exact k.copies) | rfl, by first | exact k.latches | (simp only [List.length_modify, List.length_set, List.length_map, List.length_zipIdx, List.length_replicate, List.length_range]; first | done | exact k.latches) | rfl, by first | exact k.pxc | (repeat' first | exact k.pxc | exact k.rxc | exact core_default_inv | apply coreLoad_inv | apply coreStop_inv | apply chkScatter_inv | apply coreOff_inv | apply taskStart_inv), by first | exact k.rxc | (repeat' first | exact k.pxc | exact k.rxc | exact core_default_inv | apply coreLoad_inv | apply coreStop_inv | apply chkScatter_inv | apply coreOff_inv | apply taskStart_inv), by first | exact k.opl | simp | (simp only [List.length_modify, List.length_set, List.length_map, List.length_zipIdx, List.length_replicate, List.length_range]; exact k.opl), by first | exact k.bufs | exact smWf_smPut _ _ k.bufs | rfl, by first | exact k.caps | exact smWf_smPut _ _ k.caps | rfl, by first | exact k.capsPrev | exact smWf_smPut _ _ k.capsPrev | rfl, by first | exact k.tickets | exact Nat.mod_lt _ (by decide) | decide⟩))
    | intro _)

theorem messageWindowStart_inv {s : State} (h : Inv s) : Inv (messageWindowStart s) := by
  unfold messageWindowStart
  try dsimp only
  repeat' (first
    | assumption
    | with_reducible apply portsStart_inv
    | split
    | (with_reducible refine Inv.upd ?_ (fun k => { k with }))
    | intro _)

theorem rxReturn_inv {s : State} (h : Inv s) : ∀ a0, Inv (rxReturn a0 s) := by
  intro a0
  unfold rxReturn
  try dsimp only
  repeat' (first
    | assumption
    | split
    | (with_reducible refine Inv.upd ?_ (fun k => { k with }))
    | intro _)

theorem rxDropped_inv {s : State} (h : Inv s) : ∀ a0 a1, Inv (rxDropped a0 a1 s) := by
  intro a0 a1
  unfold rxDropped
  try dsimp only
  repeat' (first
    | assumption
    | with_reducible apply raise_inv
    | with_reducible apply eqMod_inv
    | split
    | (with_reducible refine Inv.upd ?_ (fun k => { k with }))
    | intro _)

theorem pduReject_inv {s : State} (h : Inv s) : ∀ a0 a1 a2 a3, Inv (pduReject a0 a1 a2 a3 s) := by
  intro a0 a1 a2 a3
  unfold pduReject
  try dsimp only
  repeat' (first
    | assumption
    | with_reducible apply raise_inv
    | with_reducible apply pduSend_inv
    | split
    | intro _)

theorem openSession_inv {s : State} (h : Inv s) : ∀ a0 a1, Inv (openSession a0 a1 s) := by
  intro a0 a1
  unfold openSession
  try dsimp only
  repeat' (first
    | assumption
    | with_reducible apply sessionPut_inv
    | split
    | (with_reducible refine Inv.upd ?_ (fun k => { k with }))
    | intro _)

theorem pduArrive_inv {s : State} (h : Inv s) : ∀ a0 a1 a2, Inv (pduArrive a0 a1 a2 s) := by
  intro a0 a1 a2
  unfold pduArrive
  try dsimp only
  repeat' (first
    | assumption
    | with_reducible apply pduReject_inv
    | with_reducible apply openSession_inv
    | split
    | (with_reducible refine Inv.upd ?_ (fun k => { k with }))
    | intro _)

theorem shDiscard_inv {s : State} (h : Inv s) : ∀ a0, Inv (shDiscard a0 s) := by
  intro a0
  unfold shDiscard
  try dsimp only
  repeat' (first
    | assumption
    | with_reducible apply raise_inv
    | split
    | (with_reducible refine Inv.upd ?_ (fun k => { k with }))
    | intro _)

theorem shNoRoute_inv {s : State} (h : Inv s) : Inv (shNoRoute s) := by
  unfold shNoRoute
  try dsimp only
  repeat' (first
    | assumption
    | with_reducible apply raise_inv
    | split
    | (with_reducible refine Inv.upd ?_ (fun k => { k with }))
    | intro _)

theorem shToBackbone_inv {s : State} (h : Inv s) : ∀ a0 a1 a2 a3, Inv (shToBackbone a0 a1 a2 a3 s) := by
  intro a0 a1 a2 a3
  unfold shToBackbone
  try dsimp only
  repeat' (first
    | assumption
    | with_reducible apply chainFree_inv
    | with_reducible apply shDiscard_inv
    | with_reducible apply shNoRoute_inv
    | with_reducible apply ownAdd_inv
    | split
    | (with_reducible refine Inv.upd ?_ (fun k => { k with }))
    | intro _)

theorem coreQueueFull_inv {s : State} (h : Inv s) : ∀ a0 a1, Inv (coreQueueFull a0 a1 s) := by
  intro a0 a1
  unfold coreQueueFull
  try dsimp only
  repeat' (first
    | assumption
    | with_reducible apply raise_inv
    | with_reducible apply chainFree_inv
    | split
    | intro _)

theorem rxHandOver_inv {s : State} (h : Inv s) : ∀ a0 a1 a2 a3 a4 a5, Inv (rxHandOver a0 a1 a2 a3 a4 a5 s) := by
  intro a0 a1 a2 a3 a4 a5
  unfold rxHandOver
  try dsimp only
  repeat' (first
    | assumption
    | with_reducible apply eqMod_inv
    | with_reducible apply pduArrive_inv
    | with_reducible apply chainFree_inv
    | with_reducible apply shToBackbone_inv
    | with_reducible apply chainOwner_inv
    | with_reducible apply coreQueueFull_inv
    | with_reducible apply rxDropped_inv
    | split
    | (with_reducible refine Inv.upd ?_ (fun k => { k with }))
    | intro _)

theorem rxStore_inv {s : State} (h : Inv s) : ∀ a0 a1 a2 a3 a4 a5 a6, Inv (rxStore a0 a1 a2 a3 a4 a5 a6 s) := by
  intro a0 a1 a2 a3 a4 a5 a6
  unfold rxStore
  try dsimp only
  repeat' (first
    | assumption
    | with_reducible apply rxReturn_inv
    | with_reducible apply rxDropped_inv
    | with_reducible apply poolEmpty_inv
    | with_reducible apply poolAlloc_inv
    | with_reducible apply chainFill_inv
    | with_reducible apply bufMod_inv
    | with_reducible apply rxHandOver_inv
    | split
    | (with_reducible refine Inv.upd ?_ (fun k => { k with }))
    | intro _)

theorem restage_inv {s : State} (h : Inv s) : ∀ a0, Inv (restage a0 s) := by
  intro a0
  unfold restage
  try dsimp only
  repeat' (first
    | assumption
    | with_reducible apply chanMod_inv
    | with_reducible apply causeClear_inv
    | split
    | (with_reducible refine Inv.upd ?_ (fun k => { k with }))
    | intro _)

theorem currentLimitEnd_inv {s : State} (h : Inv s) : ∀ a0, Inv (currentLimitEnd a0 s) := by
  intro a0
  unfold currentLimitEnd
  try dsimp only
  repeat' (first
    | assumption
    | with_reducible apply restage_inv
    | with_reducible apply causeClear_inv
    | split
    | intro _)

theorem capture_inv {s : State} (h : Inv s) : ∀ a0 a1, Inv (capture a0 a1 s) := by
  intro a0 a1
  unfold capture
  try dsimp only
  repeat' (first
    | assumption
    | with_reducible apply memSettle_inv
    | with_reducible apply drawn_inv
    | with_reducible apply chanMod_inv
    | (with_reducible apply elim_inv)
    | split
    | (with_reducible refine Inv.upd ?_ (fun k => { k with }))
    | intro _)

theorem badCopy_inv {s : State} (h : Inv s) : ∀ a0 a1, Inv (badCopy a0 a1 s) := by
  intro a0 a1
  unfold badCopy
  try dsimp only
  repeat' (first
    | assumption
    | with_reducible apply raise_inv
    | split
    | (with_reducible refine Inv.upd ?_ (fun k => { k with }))
    | intro _)

theorem topoCheck_inv {s : State} (h : Inv s) : ∀ a0, Inv (topoCheck a0 s) := by
  intro a0
  unfold topoCheck
  try dsimp only
  repeat' (first
    | assumption
    | with_reducible apply raise_inv
    | with_reducible apply startOwn_inv
    | split
    | (with_reducible refine Inv.upd ?_ (fun k => { k with }))
    | intro _)

theorem measured_inv {s : State} (h : Inv s) : ∀ a0 a1, Inv (measured a0 a1 s) := by
  intro a0 a1
  unfold measured
  try dsimp only
  repeat' (first
    | assumption
    | split
    | (with_reducible refine Inv.upd ?_ (fun k => { k with }))
    | intro _)

theorem acquireCopy_inv {s : State} (h : Inv s) : ∀ a0 a1 a2, Inv (acquireCopy a0 a1 a2 s) := by
  intro a0 a1 a2
  unfold acquireCopy
  try dsimp only
  repeat' (first
    | assumption
    | with_reducible apply measured_inv
    | with_reducible apply raise_inv
    | split
    | (with_reducible refine Inv.upd ?_ (fun k => { k with }))
    | intro _)

theorem measureCopy_inv {s : State} (h : Inv s) : ∀ a0, Inv (measureCopy a0 s) := by
  intro a0
  unfold measureCopy
  try dsimp only
  repeat' (first
    | assumption
    | with_reducible apply acquireCopy_inv
    | with_reducible apply measured_inv
    | split
    | intro _)

theorem acceptCopy_inv {s : State} (h : Inv s) : ∀ a0, Inv (acceptCopy a0 s) := by
  intro a0
  unfold acceptCopy
  try dsimp only
  repeat' (first
    | assumption
    | with_reducible apply topoCheck_inv
    | with_reducible apply measureCopy_inv
    | with_reducible apply raise_inv
    | split
    | (with_reducible refine Inv.upd ?_ (fun k => { k with }))
    | intro _)

theorem judge_inv {s : State} (h : Inv s) : ∀ a0 a1 a2, Inv (judge a0 a1 a2 s) := by
  intro a0 a1 a2
  unfold judge
  try dsimp only
  repeat' (first
    | assumption
    | with_reducible apply badCopy_inv
    | with_reducible apply acceptCopy_inv
    | split
    | (with_reducible refine Inv.upd ?_ (fun k => { k with }))
    | intro _)

theorem shortTurn_inv {s : State} (h : Inv s) : ∀ a0 a1, Inv (shortTurn a0 a1 s) := by
  intro a0 a1
  unfold shortTurn
  try dsimp only
  repeat' (first
    | assumption
    | with_reducible apply raise_inv
    | split
    | (with_reducible refine Inv.upd ?_ (fun k => { k with }))
    | intro _)

theorem launchLine_inv {s : State} (h : Inv s) : ∀ a0 a1 a2, Inv (launchLine a0 a1 a2 s) := by
  intro a0 a1 a2
  unfold launchLine
  try dsimp only
  repeat' (first
    | assumption
    | with_reducible apply lineTimeMod_inv
    | with_reducible apply judge_inv
    | with_reducible apply emit_inv
    | with_reducible apply shortTurn_inv
    | split
    | (with_reducible refine Inv.upd ?_ (fun k => { k with }))
    | intro _)

theorem shSet_inv {s : State} (h : Inv s) : ∀ a0 a1, Inv (shSet a0 a1 s) := by
  intro a0 a1
  unfold shSet
  try dsimp only
  repeat' (first
    | assumption
    | with_reducible apply raise_inv
    | split
    | (with_reducible refine Inv.upd ?_ (fun k => { k with }))
    | intro _)

theorem shCommand_inv {s : State} (h : Inv s) : ∀ a0 a1, Inv (shCommand a0 a1 s) := by
  intro a0 a1
  unfold shCommand
  try dsimp only
  repeat' (first
    | assumption
    | with_reducible apply shSet_inv
    | with_reducible apply raise_inv
    | (with_reducible apply elim_inv)
    | split
    | (with_reducible refine Inv.upd ?_ (fun k => { k with }))
    | intro _)

theorem couplingSet_inv {s : State} (h : Inv s) : ∀ a0 a1, Inv (couplingSet a0 a1 s) := by
  intro a0 a1
  unfold couplingSet
  try dsimp only
  repeat' (first
    | assumption
    | split
    | (with_reducible refine Inv.upd ?_ (fun k => { k with }))
    | intro _)

theorem probePort_inv {s : State} (h : Inv s) : ∀ a0, Inv (probePort a0 s) := by
  intro a0
  unfold probePort
  try dsimp only
  repeat' (first
    | assumption
    | with_reducible apply hingeOwn_inv
    | split
    | intro _)

theorem stepPort_inv {s : State} (h : Inv s) : ∀ a0, Inv (stepPort a0 s) := by
  intro a0
  unfold stepPort
  try dsimp only
  repeat' (first
    | assumption
    | with_reducible apply hingeOwn_inv
    | split
    | intro _)

theorem linkUp_inv {s : State} (h : Inv s) : ∀ a0 a1, Inv (linkUp a0 a1 s) := by
  intro a0 a1
  unfold linkUp
  try dsimp only
  repeat' (first
    | assumption
    | with_reducible apply resettle_inv
    | with_reducible apply hpMod_inv
    | with_reducible apply raise_inv
    | with_reducible apply couplingSet_inv
    | with_reducible apply probePort_inv
    | with_reducible apply stepPort_inv
    | (with_reducible apply elim_inv)
    | split
    | (with_reducible refine Inv.upd ?_ (fun k => { k with }))
    | intro _)

theorem vnCommitFire_inv {s : State} (h : Inv s) : ∀ a0, Inv (vnCommitFire a0 s) := by
  intro a0
  unfold vnCommitFire
  try dsimp only
  repeat' (first
    | assumption
    | with_reducible apply onDomain_inv
    | with_reducible apply slotMod_inv
    | split
    | (with_reducible refine Inv.upd ?_ (fun k => { k with }))
    | intro _)

theorem wakeBurstSend_inv {s : State} (h : Inv s) : Inv (wakeBurstSend s) := by
  unfold wakeBurstSend
  try dsimp only
  repeat' (first
    | assumption
    | with_reducible apply emit_inv
    | split
    | (with_reducible refine Inv.upd ?_ (fun k => { k with }))
    | intro _)

theorem programStart_inv {s : State} (h : Inv s) : Inv (programStart s) := by
  unfold programStart
  try dsimp only
  repeat' (first
    | assumption
    | with_reducible apply jobBegin_inv
    | split
    | (with_reducible refine Inv.upd ?_ (fun k => { k with }))
    | intro _)

theorem chkLoad_inv {s : State} (h : Inv s) : Inv (chkLoad s) := by
  unfold chkLoad
  try dsimp only
  repeat' (first
    | assumption
    | split
    | (with_reducible refine Inv.upd ?_ (fun k => { k with }))
    | intro _)

theorem jnvLoad_inv {s : State} (h : Inv s) : Inv (jnvLoad s) := by
  unfold jnvLoad
  try dsimp only
  repeat' (first
    | assumption
    | split
    | (with_reducible refine Inv.upd ?_ (fun k => { k with }))
    | intro _)

theorem incReject_inv {s : State} (h : Inv s) : Inv (incReject s) := by
  unfold incReject
  try dsimp only
  repeat' (first
    | assumption
    | with_reducible apply raise_inv
    | split
    | (with_reducible refine Inv.upd ?_ (fun k => { k with }))
    | intro _)

theorem nvBegin_inv {s : State} (h : Inv s) : ∀ a0, Inv (nvBegin a0 s) := by
  intro a0
  unfold nvBegin
  try dsimp only
  repeat' (first
    | assumption
    | (with_reducible apply elim_inv)
    | split
    | (with_reducible refine Inv.upd ?_ (fun k => { k with }))
    | intro _)

theorem nvTake_inv {s : State} (h : Inv s) : ∀ n, Inv (nvTake n s) := by
  intro n
  induction n generalizing s with
  | zero => exact h
  | succ n ih =>
    have h' := programStart_inv (chkLoad_inv (jnvLoad_inv h))
    unfold nvTake
    dsimp only
    split
    · exact ih (incReject_inv h')
    split
    · exact nvBegin_inv h' _
    · exact h'
theorem nvKick_inv {s : State} (h : Inv s) : Inv (nvKick s) := by
  unfold nvKick
  try dsimp only
  repeat' (first
    | assumption
    | with_reducible apply nvTake_inv
    | split
    | intro _)

theorem icountClose_inv {s : State} (h : Inv s) : ∀ a0, Inv (icountClose a0 s) := by
  intro a0
  unfold icountClose
  try dsimp only
  repeat' (first
    | assumption
    | with_reducible apply sessionClose_inv
    | split
    | intro _)

theorem adopt_inv {s : State} (h : Inv s) : ∀ a0 a1 a2, Inv (adopt a0 a1 a2 s) := by
  intro a0 a1 a2
  unfold adopt
  try dsimp only
  repeat' (first
    | assumption
    | with_reducible apply raise_inv
    | with_reducible apply muteEvent_inv
    | split
    | (with_reducible refine Inv.upd ?_ (fun k => { k with }))
    | intro _)

theorem goSolitary_inv {s : State} (h : Inv s) : Inv (goSolitary s) := by
  unfold goSolitary
  try dsimp only
  repeat' (first
    | assumption
    | with_reducible apply icountClose_inv
    | with_reducible apply adopt_inv
    | split
    | (with_reducible refine Inv.upd ?_ (fun k => { k with }))
    | intro _)

theorem launchSweep_inv {s : State} (h : Inv s) : Inv (launchSweep s) := by
  unfold launchSweep
  try dsimp only
  repeat' (first
    | assumption
    | with_reducible apply hingeOwn_inv
    | split
    | (with_reducible refine Inv.upd ?_ (fun k => { k with }))
    | intro _)

theorem overflowEnd_inv {s : State} (h : Inv s) : Inv (overflowEnd s) := by
  unfold overflowEnd
  try dsimp only
  repeat' (first
    | assumption
    | with_reducible apply raise_inv
    | split
    | (with_reducible refine Inv.upd ?_ (fun k => { k with }))
    | intro _)

theorem ttrTake_inv {s : State} (h : Inv s) : ∀ a0 a1, Inv (ttrTake a0 a1 s) := by
  intro a0 a1
  unfold ttrTake
  try dsimp only
  repeat' (first
    | assumption
    | split
    | (with_reducible refine Inv.upd ?_ (fun k => { k with }))
    | intro _)

theorem decideEnd_inv {s : State} (h : Inv s) : ∀ a0 a1 a2, Inv (decideEnd a0 a1 a2 s) := by
  intro a0 a1 a2
  unfold decideEnd
  try dsimp only
  repeat' (first
    | assumption
    | with_reducible apply overflowEnd_inv
    | with_reducible apply hingeOwn_inv
    | with_reducible apply ttrTake_inv
    | split
    | (with_reducible refine Inv.upd ?_ (fun k => { k with }))
    | intro _)

theorem hingeFwd_inv {s : State} (h : Inv s) : ∀ a0 a1 a2, Inv (hingeFwd a0 a1 a2 s) := by
  intro a0 a1 a2
  unfold hingeFwd
  try dsimp only
  repeat' (first
    | assumption
    | with_reducible apply hingeSend_inv
    | (with_reducible apply foldl_inv)
    | split
    | (with_reducible refine Inv.upd ?_ (fun k => { k with }))
    | intro _)

theorem sweepIn_inv {s : State} (h : Inv s) : ∀ a0 a1 a2 a3, Inv (sweepIn a0 a1 a2 a3 s) := by
  intro a0 a1 a2 a3
  unfold sweepIn
  try dsimp only
  repeat' (first
    | assumption
    | with_reducible apply decideEnd_inv
    | with_reducible apply hingeFwd_inv
    | split
    | intro _)

theorem heldIn_inv {s : State} (h : Inv s) : ∀ a0, Inv (heldIn a0 s) := by
  intro a0
  unfold heldIn
  try dsimp only
  repeat' (first
    | assumption
    | with_reducible apply sweepIn_inv
    | split
    | intro _)

theorem probingEnd_inv {s : State} (h : Inv s) : ∀ a0, Inv (probingEnd a0 s) := by
  intro a0
  unfold probingEnd
  try dsimp only
  repeat' (first
    | assumption
    | with_reducible apply goSolitary_inv
    | with_reducible apply launchSweep_inv
    | with_reducible apply heldIn_inv
    | with_reducible apply startOwn_inv
    | (with_reducible apply foldl_inv)
    | split
    | (with_reducible refine Inv.upd ?_ (fun k => { k with }))
    | intro _)

theorem benchShow_inv {s : State} (h : Inv s) : ∀ a0, Inv (benchShow a0 s) := by
  intro a0
  unfold benchShow
  try dsimp only
  repeat' (first
    | assumption
    | split
    | (with_reducible refine Inv.upd ?_ (fun k => { k with }))
    | intro _)

theorem benchService_inv {s : State} (h : Inv s) : Inv (benchService s) := by
  unfold benchService
  try dsimp only
  repeat' (first
    | assumption
    | with_reducible apply raise_inv
    | with_reducible apply benchShow_inv
    | (with_reducible apply foldl_inv)
    | (with_reducible apply elim_inv)
    | split
    | (with_reducible refine Inv.upd ?_ (fun k => { k with }))
    | intro _)

theorem stampPop_inv {s : State} (h : Inv s) : ∀ a0, Inv (stampPop a0 s) := by
  intro a0
  unfold stampPop
  try dsimp only
  repeat' (first
    | assumption
    | with_reducible apply eqMod_inv
    | split
    | (with_reducible refine Inv.upd ?_ (fun k => { k with }))
    | intro _)

theorem txtsPop_inv {s : State} (h : Inv s) : ∀ a0, Inv (txtsPop a0 s) := by
  intro a0
  unfold txtsPop
  try dsimp only
  repeat' (first
    | assumption
    | with_reducible apply stampPop_inv
    | split
    | intro _)

theorem branchOff_inv {s : State} (h : Inv s) : ∀ a0, Inv (branchOff a0 s) := by
  intro a0
  unfold branchOff
  try dsimp only
  repeat' (first
    | assumption
    | with_reducible apply brMod_inv
    | split
    | (with_reducible refine Inv.upd ?_ (fun k => { k with }))
    | intro _)

theorem branchOn_inv {s : State} (h : Inv s) : ∀ a0, Inv (branchOn a0 s) := by
  intro a0
  unfold branchOn
  try dsimp only
  repeat' (first
    | assumption
    | with_reducible apply brMod_inv
    | split
    | (with_reducible refine Inv.upd ?_ (fun k => { k with }))
    | intro _)

theorem domHold_inv {s : State} (h : Inv s) : ∀ a0 a1, Inv (domHold a0 a1 s) := by
  intro a0 a1
  unfold domHold
  try dsimp only
  repeat' (first
    | assumption
    | split
    | (with_reducible refine Inv.upd ?_ (fun k => ?_); on_goal 2 => (first | exact { k with } | exact ⟨by first | exact k.mem | exact nvWrite_wf _ _ k.mem | exact smWf_smPutBytes _ _ k.mem, by first | exact k.doms | (simp only [List.length_modify, List.length_set, List.length_map, List.length_zipIdx, List.length_replicate, List.length_range]; first | done | exact k.doms) | rfl, by first | exact k.ports | (simp only [List.length_modify, List.length_set, List.length_map, List.length_zipIdx, List.length_replicate, List.length_range]; first | done | exact k.ports) | rfl, by first | exact k.tx | (simp only [List.length_modify, List.length_set, List.length_map, List.length_zipIdx, List.length_replicate, List.length_range]; first | done | exact k.tx) | rfl, by first | exact k.fwd | (simp only [List.length_modify, List.length_set, List.length_map, List.length_zipIdx, List.length_replicate, List.length_range]; first | done | exact k.fwd) | rfl, by first | exact k.branches | (simp only [List.length_modify, List.length_set, List.length_map, List.length_zipIdx, List.length_replicate, List.length_range]; first | done | exact k.branches) | rfl, by first | exact k.slotsRx | (simp only [List.length_modify, List.length_set, List.length_map, List.length_zipIdx, List.length_replicate, List.length_range]; first | done | exact k.slotsRx) | rfl, by first | exact k.slotsTx | (simp only [List.length_modify, List.length_set, List.length_map, List.length_zipIdx, List.length_replicate, List.length_range]; first | done | exact k.slotsTx) | rfl, by first | exact k.eqPorts | (simp only [List.length_modify, List.length_set, List.length_map, List.length_zipIdx, List.length_replicate, List.length_range]; first | done | exact k.eqPorts) | rfl, by first | exact k.chans | (simp only [List.length_modify, List.length_set, List.length_map, List.length_zipIdx, List.length_replicate, List.length_range]; first | done | exact k.chans) | rfl, by first | exact k.banks | (simp only [List.length_modify, List.length_set, List.length_map, List.length_zipIdx, List.length_replicate, List.length_range]; first | done | exact k.banks) | rfl, by first | exact k.drawers | (simp only [List.length_modify, List.length_set, List.length_map, List.length_zipIdx, List.length_replicate, List.length_range]; first | done | exact k.drawers) | rfl, by first | exact k.keys | (simp only [List.length_modify, List.length_set, List.length_map, List.length_zipIdx, List.length_replicate, List.length_range]; first | done | exact k.keys) | rfl, by first | exact k.refusals | (simp only [List.length_modify, List.length_set, List.length_map, List.length_zipIdx, List.length_replicate, List.length_range]; first | done | exact k.refusals) | rfl, by first | exact k.staged | (simp only [List.length_modify, List.length_set, List.length_map, List.length_zipIdx, List.length_replicate, List.length_range]; first | done | exact k.staged) | rfl, by first | exact k.copies | (simp only [List.length_modify, List.length_set, List.length_map, List.length_zipIdx, List.length_replicate, List.length_range]; first | done | exact k.copies) | rfl, by first | exact k.latches | (simp only [List.length_modify, List.length_set, List.length_map, List.length_zipIdx, List.length_replicate, List.length_range]; first | done | exact k.latches) | rfl, by first | exact k.pxc | (repeat' first | exact k.pxc | exact k.rxc | exact core_default_inv | apply coreLoad_inv | apply coreStop_inv | apply chkScatter_inv | apply coreOff_inv | apply taskStart_inv), by first | exact k.rxc | (repeat' first | exact k.pxc | exact k.rxc | exact core_default_inv | apply coreLoad_inv | apply coreStop_inv | apply chkScatter_inv | apply coreOff_inv | apply taskStart_inv), by first | exact k.opl | simp | (simp only [List.length_modify, List.length_set, List.length_map, List.length_zipIdx, List.length_replicate, List.length_range]; exact k.opl), by first | exact k.bufs | exact smWf_smPut _ _ k.bufs | rfl, by first | exact k.caps | exact smWf_smPut _ _ k.caps | rfl, by first | exact k.capsPrev | exact smWf_smPut _ _ k.capsPrev | rfl, by first | exact k.tickets | exact Nat.mod_lt _ (by decide) | decide⟩))
    | intro _)

theorem lockSet_inv {s : State} (h : Inv s) : ∀ a0 a1, Inv (lockSet a0 a1 s) := by
  intro a0 a1
  unfold lockSet
  try dsimp only
  repeat' (first
    | assumption
    | with_reducible apply restage_inv
    | with_reducible apply chanMod_inv
    | with_reducible apply raise_inv
    | split
    | (with_reducible refine Inv.upd ?_ (fun k => { k with }))
    | intro _)

theorem lockFree_inv {s : State} (h : Inv s) : ∀ a0, Inv (lockFree a0 s) := by
  intro a0
  unfold lockFree
  try dsimp only
  repeat' (first
    | assumption
    | with_reducible apply restage_inv
    | with_reducible apply chanMod_inv
    | split
    | (with_reducible refine Inv.upd ?_ (fun k => { k with }))
    | intro _)

theorem eqOff_inv {s : State} (h : Inv s) : ∀ a0, Inv (eqOff a0 s) := by
  intro a0
  unfold eqOff
  try dsimp only
  repeat' (first
    | assumption
    | with_reducible apply eqDiscard_inv
    | with_reducible apply pfcAll_inv
    | with_reducible apply eqMod_inv
    | split
    | (with_reducible refine Inv.upd ?_ (fun k => { k with }))
    | intro _)

theorem eqOn_inv {s : State} (h : Inv s) : ∀ a0, Inv (eqOn a0 s) := by
  intro a0
  unfold eqOn
  try dsimp only
  repeat' (first
    | assumption
    | with_reducible apply pfcCheck_inv
    | with_reducible apply eqMod_inv
    | split
    | (with_reducible refine Inv.upd ?_ (fun k => { k with }))
    | intro _)

theorem orderAct_inv {s : State} (h : Inv s) : ∀ a0, Inv (orderAct a0 s) := by
  intro a0
  unfold orderAct
  try dsimp only
  repeat' (first
    | assumption
    | with_reducible apply branchOff_inv
    | with_reducible apply branchOn_inv
    | with_reducible apply domHold_inv
    | with_reducible apply lockSet_inv
    | with_reducible apply lockFree_inv
    | with_reducible apply shCommand_inv
    | with_reducible apply eqOff_inv
    | with_reducible apply eqOn_inv
    | (with_reducible apply foldl_inv)
    | split
    | (with_reducible refine Inv.upd ?_ (fun k => { k with }))
    | intro _)

theorem orderRise_inv {s : State} (h : Inv s) : ∀ a0 a1, Inv (orderRise a0 a1 s) := by
  intro a0 a1
  unfold orderRise
  try dsimp only
  repeat' (first
    | assumption
    | with_reducible apply orderDone_inv
    | with_reducible apply orderAct_inv
    | with_reducible apply raise_inv
    | split
    | intro _)

theorem orderAt_inv {s : State} (h : Inv s) : ∀ a0 a1 a2, Inv (orderAt a0 a1 a2 s) := by
  intro a0 a1 a2
  unfold orderAt
  try dsimp only
  repeat' (first
    | assumption
    | with_reducible apply orderRise_inv
    | split
    | (with_reducible refine Inv.upd ?_ (fun k => { k with }))
    | intro _)

theorem ordersFrom_inv {s : State} (h : Inv s) : ∀ evs i l, Inv (ordersFrom evs i l s) := by
  intro evs i l
  induction l generalizing i s with
  | nil => exact h
  | cons o r ih => exact ih (orderAt_inv h _ _ _) _
theorem ordersRun_inv {s : State} (h : Inv s) : ∀ a0, Inv (ordersRun a0 s) := by
  intro a0
  unfold ordersRun
  try dsimp only
  repeat' (first
    | assumption
    | with_reducible apply ordersFrom_inv
    | (with_reducible apply elim_inv)
    | split
    | intro _)

theorem drawersCleared_inv {s : State} (h : Inv s) : ∀ a0, Inv (drawersCleared a0 s) := by
  intro a0
  unfold drawersCleared
  try dsimp only
  repeat' (first
    | assumption
    | split
    | (with_reducible refine Inv.upd ?_ (fun k => ?_); on_goal 2 => (first | exact { k with } | exact ⟨by first | exact k.mem | exact nvWrite_wf _ _ k.mem | exact smWf_smPutBytes _ _ k.mem, by first | exact k.doms | (simp only [List.length_modify, List.length_set, List.length_map, List.length_zipIdx, List.length_replicate, List.length_range]; first | done | exact k.doms) | rfl, by first | exact k.ports | (simp only [List.length_modify, List.length_set, List.length_map, List.length_zipIdx, List.length_replicate, List.length_range]; first | done | exact k.ports) | rfl, by first | exact k.tx | (simp only [List.length_modify, List.length_set, List.length_map, List.length_zipIdx, List.length_replicate, List.length_range]; first | done | exact k.tx) | rfl, by first | exact k.fwd | (simp only [List.length_modify, List.length_set, List.length_map, List.length_zipIdx, List.length_replicate, List.length_range]; first | done | exact k.fwd) | rfl, by first | exact k.branches | (simp only [List.length_modify, List.length_set, List.length_map, List.length_zipIdx, List.length_replicate, List.length_range]; first | done | exact k.branches) | rfl, by first | exact k.slotsRx | (simp only [List.length_modify, List.length_set, List.length_map, List.length_zipIdx, List.length_replicate, List.length_range]; first | done | exact k.slotsRx) | rfl, by first | exact k.slotsTx | (simp only [List.length_modify, List.length_set, List.length_map, List.length_zipIdx, List.length_replicate, List.length_range]; first | done | exact k.slotsTx) | rfl, by first | exact k.eqPorts | (simp only [List.length_modify, List.length_set, List.length_map, List.length_zipIdx, List.length_replicate, List.length_range]; first | done | exact k.eqPorts) | rfl, by first | exact k.chans | (simp only [List.length_modify, List.length_set, List.length_map, List.length_zipIdx, List.length_replicate, List.length_range]; first | done | exact k.chans) | rfl, by first | exact k.banks | (simp only [List.length_modify, List.length_set, List.length_map, List.length_zipIdx, List.length_replicate, List.length_range]; first | done | exact k.banks) | rfl, by first | exact k.drawers | (simp only [List.length_modify, List.length_set, List.length_map, List.length_zipIdx, List.length_replicate, List.length_range]; first | done | exact k.drawers) | rfl, by first | exact k.keys | (simp only [List.length_modify, List.length_set, List.length_map, List.length_zipIdx, List.length_replicate, List.length_range]; first | done | exact k.keys) | rfl, by first | exact k.refusals | (simp only [List.length_modify, List.length_set, List.length_map, List.length_zipIdx, List.length_replicate, List.length_range]; first | done | exact k.refusals) | rfl, by first | exact k.staged | (simp only [List.length_modify, List.length_set, List.length_map, List.length_zipIdx, List.length_replicate, List.length_range]; first | done | exact k.staged) | rfl, by first | exact k.copies | (simp only [List.length_modify, List.length_set, List.length_map, List.length_zipIdx, List.length_replicate, List.length_range]; first | done | exact k.copies) | rfl, by first | exact k.latches | (simp only [List.length_modify, List.length_set, List.length_map, List.length_zipIdx, List.length_replicate, List.length_range]; first | done | exact k.latches) | rfl, by first | exact k.pxc | (repeat' first | exact k.pxc | exact k.rxc | exact core_default_inv | apply coreLoad_inv | apply coreStop_inv | apply chkScatter_inv | apply coreOff_inv | apply taskStart_inv), by first | exact k.rxc | (repeat' first | exact k.pxc | exact k.rxc | exact core_default_inv | apply coreLoad_inv | apply coreStop_inv | apply chkScatter_inv | apply coreOff_inv | apply taskStart_inv), by first | exact k.opl | simp | (simp only [List.length_modify, List.length_set, List.length_map, List.length_zipIdx, List.length_replicate, List.length_range]; exact k.opl), by first | exact k.bufs | exact smWf_smPut _ _ k.bufs | rfl, by first | exact k.caps | exact smWf_smPut _ _ k.caps | rfl, by first | exact k.capsPrev | exact smWf_smPut _ _ k.capsPrev | rfl, by first | exact k.tickets | exact Nat.mod_lt _ (by decide) | decide⟩))
    | intro _)

theorem oplClear_inv {s : State} (h : Inv s) : ∀ a0, Inv (oplClear a0 s) := by
  intro a0
  unfold oplClear
  try dsimp only
  repeat' (first
    | assumption
    | with_reducible apply drawersCleared_inv
    | with_reducible apply raise_inv
    | split
    | (with_reducible refine Inv.upd ?_ (fun k => ?_); on_goal 2 => (first | exact { k with } | exact ⟨by first | exact k.mem | exact nvWrite_wf _ _ k.mem | exact smWf_smPutBytes _ _ k.mem, by first | exact k.doms | (simp only [List.length_modify, List.length_set, List.length_map, List.length_zipIdx, List.length_replicate, List.length_range]; first | done | exact k.doms) | rfl, by first | exact k.ports | (simp only [List.length_modify, List.length_set, List.length_map, List.length_zipIdx, List.length_replicate, List.length_range]; first | done | exact k.ports) | rfl, by first | exact k.tx | (simp only [List.length_modify, List.length_set, List.length_map, List.length_zipIdx, List.length_replicate, List.length_range]; first | done | exact k.tx) | rfl, by first | exact k.fwd | (simp only [List.length_modify, List.length_set, List.length_map, List.length_zipIdx, List.length_replicate, List.length_range]; first | done | exact k.fwd) | rfl, by first | exact k.branches | (simp only [List.length_modify, List.length_set, List.length_map, List.length_zipIdx, List.length_replicate, List.length_range]; first | done | exact k.branches) | rfl, by first | exact k.slotsRx | (simp only [List.length_modify, List.length_set, List.length_map, List.length_zipIdx, List.length_replicate, List.length_range]; first | done | exact k.slotsRx) | rfl, by first | exact k.slotsTx | (simp only [List.length_modify, List.length_set, List.length_map, List.length_zipIdx, List.length_replicate, List.length_range]; first | done | exact k.slotsTx) | rfl, by first | exact k.eqPorts | (simp only [List.length_modify, List.length_set, List.length_map, List.length_zipIdx, List.length_replicate, List.length_range]; first | done | exact k.eqPorts) | rfl, by first | exact k.chans | (simp only [List.length_modify, List.length_set, List.length_map, List.length_zipIdx, List.length_replicate, List.length_range]; first | done | exact k.chans) | rfl, by first | exact k.banks | (simp only [List.length_modify, List.length_set, List.length_map, List.length_zipIdx, List.length_replicate, List.length_range]; first | done | exact k.banks) | rfl, by first | exact k.drawers | (simp only [List.length_modify, List.length_set, List.length_map, List.length_zipIdx, List.length_replicate, List.length_range]; first | done | exact k.drawers) | rfl, by first | exact k.keys | (simp only [List.length_modify, List.length_set, List.length_map, List.length_zipIdx, List.length_replicate, List.length_range]; first | done | exact k.keys) | rfl, by first | exact k.refusals | (simp only [List.length_modify, List.length_set, List.length_map, List.length_zipIdx, List.length_replicate, List.length_range]; first | done | exact k.refusals) | rfl, by first | exact k.staged | (simp only [List.length_modify, List.length_set, List.length_map, List.length_zipIdx, List.length_replicate, List.length_range]; first | done | exact k.staged) | rfl, by first | exact k.copies | (simp only [List.length_modify, List.length_set, List.length_map, List.length_zipIdx, List.length_replicate, List.length_range]; first | done | exact k.copies) | rfl, by first | exact k.latches | (simp only [List.length_modify, List.length_set, List.length_map, List.length_zipIdx, List.length_replicate, List.length_range]; first | done | exact k.latches) | rfl, by first | exact k.pxc | (repeat' first | exact k.pxc | exact k.rxc | exact core_default_inv | apply coreLoad_inv | apply coreStop_inv | apply chkScatter_inv | apply coreOff_inv | apply taskStart_inv), by first | exact k.rxc | (repeat' first | exact k.pxc | exact k.rxc | exact core_default_inv | apply coreLoad_inv | apply coreStop_inv | apply chkScatter_inv | apply coreOff_inv | apply taskStart_inv), by first | exact k.opl | simp | (simp only [List.length_modify, List.length_set, List.length_map, List.length_zipIdx, List.length_replicate, List.length_range]; exact k.opl), by first | exact k.bufs | exact smWf_smPut _ _ k.bufs | rfl, by first | exact k.caps | exact smWf_smPut _ _ k.caps | rfl, by first | exact k.capsPrev | exact smWf_smPut _ _ k.capsPrev | rfl, by first | exact k.tickets | exact Nat.mod_lt _ (by decide) | decide⟩))
    | intro _)

theorem logClear_inv {s : State} (h : Inv s) : ∀ a0 a1, Inv (logClear a0 a1 s) := by
  intro a0 a1
  unfold logClear
  try dsimp only
  repeat' (first
    | assumption
    | with_reducible apply cmdDone_inv
    | with_reducible apply oplClear_inv
    | with_reducible apply nvStart_inv
    | with_reducible apply drawersCleared_inv
    | split
    | (with_reducible refine Inv.upd ?_ (fun k => { k with }))
    | intro _)

theorem twrFrameOp_inv {s : State} (h : Inv s) : ∀ a0 a1 a2, Inv (twrFrameOp a0 a1 a2 s) := by
  intro a0 a1 a2
  unfold twrFrameOp
  try dsimp only
  repeat' (first
    | assumption
    | with_reducible apply activeMod_inv
    | with_reducible apply answer_inv
    | with_reducible apply answer_inv
    | exact (⟨CoreInv.regs (by assumption), CoreInv.rets (by assumption), CoreInv.loops (by assumption), CoreInv.data (by assumption)⟩ : CoreInv _)
    | split
    | intro _)

theorem forceEnd_inv {s : State} (h : Inv s) : ∀ a0 a1, Inv (forceEnd a0 a1 s) := by
  intro a0 a1
  unfold forceEnd
  try dsimp only
  repeat' (first
    | assumption
    | with_reducible apply raise_inv
    | with_reducible apply restage_inv
    | with_reducible apply chanMod_inv
    | split
    | (with_reducible refine Inv.upd ?_ (fun k => { k with }))
    | intro _)

theorem forceStart_inv {s : State} (h : Inv s) : ∀ a0 a1 a2, Inv (forceStart a0 a1 a2 s) := by
  intro a0 a1 a2
  unfold forceStart
  try dsimp only
  repeat' (first
    | assumption
    | with_reducible apply forceEnd_inv
    | with_reducible apply chanMod_inv
    | with_reducible apply raise_inv
    | with_reducible apply restage_inv
    | split
    | (with_reducible refine Inv.upd ?_ (fun k => { k with }))
    | intro _)

theorem atEdge_inv {s : State} (h : Inv s) : ∀ a0 a1, Inv (atEdge a0 a1 s) := by
  intro a0 a1
  unfold atEdge
  try dsimp only
  repeat' (first
    | assumption
    | split
    | (with_reducible refine Inv.upd ?_ (fun k => { k with }))
    | intro _)

theorem wakeLatched_inv {s : State} (h : Inv s) : ∀ a0, Inv (wakeLatched a0 s) := by
  intro a0
  unfold wakeLatched
  try dsimp only
  repeat' (first
    | assumption
    | split
    | (with_reducible refine Inv.upd ?_ (fun k => { k with }))
    | intro _)

theorem burstReceived_inv {s : State} (h : Inv s) : ∀ a0, Inv (burstReceived a0 s) := by
  intro a0
  unfold burstReceived
  try dsimp only
  repeat' (first
    | assumption
    | with_reducible apply sleepLeave_inv
    | with_reducible apply wakeLatched_inv
    | split
    | (with_reducible refine Inv.upd ?_ (fun k => { k with }))
    | intro _)

theorem wakeFromOff_inv {s : State} (h : Inv s) : Inv (wakeFromOff s) := by
  unfold wakeFromOff
  try dsimp only
  repeat' (first
    | assumption
    | with_reducible apply cold_inv
    | with_reducible apply storeStart_inv
    | with_reducible apply raise_inv
    | with_reducible apply regulatorStart_inv
    | with_reducible apply stateLevels_inv
    | with_reducible apply transition_inv
    | split
    | (with_reducible refine Inv.upd ?_ (fun k => { k with }))
    | intro _)

theorem modeSelect_inv {s : State} (h : Inv s) : ∀ a0, Inv (modeSelect a0 s) := by
  intro a0
  unfold modeSelect
  try dsimp only
  repeat' (first
    | assumption
    | with_reducible apply setMode_inv
    | with_reducible apply raise_inv
    | (with_reducible apply elim_inv)
    | split
    | (with_reducible refine Inv.upd ?_ (fun k => { k with }))
    | intro _)

theorem poolUncorr_inv {s : State} (h : Inv s) : Inv (poolUncorr s) := by
  unfold poolUncorr
  try dsimp only
  repeat' (first
    | assumption
    | with_reducible apply poolSticky_inv
    | with_reducible apply raise_inv
    | split
    | intro _)

theorem unitsRead_inv {s : State} (h : Inv s) : ∀ a0, Inv (unitsRead a0 s) := by
  intro a0
  unfold unitsRead
  try dsimp only
  repeat' (first
    | assumption
    | with_reducible apply raise_inv
    | (with_reducible apply foldl_inv)
    | split
    | intro _)

theorem readReport_inv {s : State} (h : Inv s) : ∀ a0 a1, Inv (readReport a0 a1 s) := by
  intro a0 a1
  unfold readReport
  try dsimp only
  repeat' (first
    | assumption
    | with_reducible apply poolUncorr_inv
    | with_reducible apply unitsRead_inv
    | split
    | intro _)

theorem rcClear_inv {s : State} (h : Inv s) : ∀ a0 a1 a2, Inv (rcClear a0 a1 a2 s) := by
  intro a0 a1 a2
  unfold rcClear
  try dsimp only
  repeat' (first
    | assumption
    | with_reducible apply bankMod_inv
    | with_reducible apply chanMod_inv
    | split
    | (with_reducible refine Inv.upd ?_ (fun k => { k with }))
    | intro _)

theorem accessRead_inv {s : State} (h : Inv s) : ∀ a0 a1, Inv (accessRead a0 a1 s).2.2 := by
  intro a0 a1
  unfold accessRead
  try dsimp only
  repeat' (first
    | assumption
    | with_reducible apply readReport_inv
    | with_reducible apply rcClear_inv
    | split
    | intro _)

theorem shadowWrite_inv {s : State} (h : Inv s) : ∀ a0 a1 a2, Inv (shadowWrite a0 a1 a2 s) := by
  intro a0 a1 a2
  unfold shadowWrite
  try dsimp only
  repeat' (first
    | assumption
    | split
    | (with_reducible refine Inv.upd ?_ (fun k => { k with }))
    | intro _)

theorem hostRes_inv {s : State} (h : Inv s) : ∀ a0 a1, Inv (hostRes a0 a1 s) := by
  intro a0 a1
  unfold hostRes
  try dsimp only
  repeat' (first
    | assumption
    | split
    | (with_reducible refine Inv.upd ?_ (fun k => { k with }))
    | intro _)

theorem freeChain_inv {s : State} (h : Inv s) : ∀ a0 a1, Inv (freeChain a0 a1 s).1 := by
  intro a0 a1
  unfold freeChain
  try dsimp only
  repeat' (first
    | assumption
    | with_reducible apply chainFree_inv
    | with_reducible apply poolSticky_inv
    | with_reducible apply raise_inv
    | split
    | intro _)

theorem poolOp_inv {s : State} (h : Inv s) : Inv (poolOp s) := by
  unfold poolOp
  try dsimp only
  repeat' (first
    | assumption
    | with_reducible apply poolAlloc_inv
    | with_reducible apply hostRes_inv
    | with_reducible apply freeChain_inv
    | with_reducible apply postChain_inv
    | with_reducible apply eqMod_inv
    | split
    | (with_reducible refine Inv.upd ?_ (fun k => { k with }))
    | intro _)

theorem pulse_inv {s : State} (h : Inv s) : ∀ a0 a1, Inv (pulse a0 a1 s) := by
  intro a0 a1
  unfold pulse
  try dsimp only
  repeat' (first
    | assumption
    | with_reducible apply drawerCtrl_inv
    | with_reducible apply poolOp_inv
    | with_reducible apply stampPop_inv
    | split
    | (with_reducible refine Inv.upd ?_ (fun k => { k with }))
    | intro _)

theorem refuseEvent_inv {s : State} (h : Inv s) : ∀ a0 a1 a2, Inv (refuseEvent a0 a1 a2 s) := by
  intro a0 a1 a2
  unfold refuseEvent
  try dsimp only
  repeat' (first
    | assumption
    | with_reducible apply raise_inv
    | with_reducible apply bankMod_inv
    | split
    | (with_reducible refine Inv.upd ?_ (fun k => { k with }))
    | intro _)

theorem cmdRefuse_inv {s : State} (h : Inv s) : ∀ a0 a1 a2 a3, Inv (cmdRefuse a0 a1 a2 a3 s) := by
  intro a0 a1 a2 a3
  unfold cmdRefuse
  try dsimp only
  repeat' (first
    | assumption
    | with_reducible apply raise_inv
    | with_reducible apply refuseEvent_inv
    | with_reducible apply bankMod_inv
    | split
    | (with_reducible refine Inv.upd ?_ (fun k => { k with }))
    | intro _)

theorem cmdEnter_inv {s : State} (h : Inv s) : ∀ p c a, Inv (cmdEnter p c a s) := fun p c a => by
  unfold cmdEnter
  exact bankMod_inv _ _ { h with }
theorem cmdJudge_inv {s : State} (h : Inv s) : ∀ a0, Inv (cmdJudge a0 s) := by
  intro a0
  unfold cmdJudge
  try dsimp only
  repeat' (first
    | assumption
    | with_reducible apply cmdRefuse_inv
    | with_reducible apply cmdEnter_inv
    | split
    | intro _)

theorem cmdSubmit_inv {s : State} (h : Inv s) : ∀ a0 a1, Inv (cmdSubmit a0 a1 s) := by
  intro a0 a1
  unfold cmdSubmit
  try dsimp only
  repeat' (first
    | assumption
    | with_reducible apply refuseEvent_inv
    | with_reducible apply bankMod_inv
    | with_reducible apply cmdJudge_inv
    | split
    | (with_reducible refine Inv.upd ?_ (fun k => { k with }))
    | intro _)

theorem bankWrite_inv {s : State} (h : Inv s) : ∀ a0 a1 a2, Inv (bankWrite a0 a1 a2 s) := by
  intro a0 a1 a2
  unfold bankWrite
  try dsimp only
  repeat' (first
    | assumption
    | with_reducible apply bankMod_inv
    | with_reducible apply cmdSubmit_inv
    | split
    | (with_reducible refine Inv.upd ?_ (fun k => { k with }))
    | intro _)

theorem drawerCur_inv {s : State} (h : Inv s) : ∀ a0 a1, Inv (drawerCur a0 a1 s) := by
  intro a0 a1
  unfold drawerCur
  try dsimp only
  repeat' (first
    | assumption
    | with_reducible apply drawerGo_inv
    | split
    | intro _)

theorem bufPut_inv {s : State} (h : Inv s) : ∀ a0 a1 a2, Inv (bufPut a0 a1 a2 s) := by
  intro a0 a1 a2
  unfold bufPut
  try dsimp only
  repeat' (first
    | assumption
    | with_reducible apply unitsWritten_inv
    | with_reducible apply unitsRead_inv
    | with_reducible apply bufMod_inv
    | split
    | (with_reducible refine Inv.upd ?_ (fun k => { k with }))
    | intro _)

theorem poolRegWrite_inv {s : State} (h : Inv s) : ∀ a0 a1, Inv (poolRegWrite a0 a1 s) := by
  intro a0 a1
  unfold poolRegWrite
  try dsimp only
  repeat' (first
    | assumption
    | with_reducible apply poolOp_inv
    | with_reducible apply bufMod_inv
    | with_reducible apply bufPut_inv
    | split
    | (with_reducible refine Inv.upd ?_ (fun k => { k with }))
    | intro _)

theorem rwPut_inv {s : State} (h : Inv s) : ∀ p o v, Inv (rwPut p o v s) := fun p o v => by
  unfold rwPut
  refine ite_inv { h with } (ite_inv { h with } (ite_inv { h with } (ite_inv { h with } ?_)))
  refine ite_inv (bankWrite_inv h _ _ _) (ite_inv (ite_inv (drawerSel_inv h _ _) (drawerCur_inv h _ _)) ?_)
  refine ite_inv { h with } (ite_inv { h with latches := List.length_set.trans h.latches } ?_)
  refine ite_inv (ite_inv h (chanMod_inv _ _ h)) (ite_inv { h with } (ite_inv (poolRegWrite_inv h _ _) { h with }))
theorem regWrite_inv {s : State} (h : Inv s) : ∀ a0 a1 a2 a3, Inv (regWrite a0 a1 a2 a3 s).2 := by
  intro a0 a1 a2 a3
  unfold regWrite
  try dsimp only
  repeat' (first
    | assumption
    | with_reducible apply poolUncorr_inv
    | with_reducible apply shadowWrite_inv
    | with_reducible apply pulse_inv
    | with_reducible apply rwPut_inv
    | split
    | (with_reducible refine Inv.upd ?_ (fun k => ?_); on_goal 2 => (first | exact { k with } | exact ⟨by first | exact k.mem | exact nvWrite_wf _ _ k.mem | exact smWf_smPutBytes _ _ k.mem, by first | exact k.doms | (simp only [List.length_modify, List.length_set, List.length_map, List.length_zipIdx, List.length_replicate, List.length_range]; first | done | exact k.doms) | rfl, by first | exact k.ports | (simp only [List.length_modify, List.length_set, List.length_map, List.length_zipIdx, List.length_replicate, List.length_range]; first | done | exact k.ports) | rfl, by first | exact k.tx | (simp only [List.length_modify, List.length_set, List.length_map, List.length_zipIdx, List.length_replicate, List.length_range]; first | done | exact k.tx) | rfl, by first | exact k.fwd | (simp only [List.length_modify, List.length_set, List.length_map, List.length_zipIdx, List.length_replicate, List.length_range]; first | done | exact k.fwd) | rfl, by first | exact k.branches | (simp only [List.length_modify, List.length_set, List.length_map, List.length_zipIdx, List.length_replicate, List.length_range]; first | done | exact k.branches) | rfl, by first | exact k.slotsRx | (simp only [List.length_modify, List.length_set, List.length_map, List.length_zipIdx, List.length_replicate, List.length_range]; first | done | exact k.slotsRx) | rfl, by first | exact k.slotsTx | (simp only [List.length_modify, List.length_set, List.length_map, List.length_zipIdx, List.length_replicate, List.length_range]; first | done | exact k.slotsTx) | rfl, by first | exact k.eqPorts | (simp only [List.length_modify, List.length_set, List.length_map, List.length_zipIdx, List.length_replicate, List.length_range]; first | done | exact k.eqPorts) | rfl, by first | exact k.chans | (simp only [List.length_modify, List.length_set, List.length_map, List.length_zipIdx, List.length_replicate, List.length_range]; first | done | exact k.chans) | rfl, by first | exact k.banks | (simp only [List.length_modify, List.length_set, List.length_map, List.length_zipIdx, List.length_replicate, List.length_range]; first | done | exact k.banks) | rfl, by first | exact k.drawers | (simp only [List.length_modify, List.length_set, List.length_map, List.length_zipIdx, List.length_replicate, List.length_range]; first | done | exact k.drawers) | rfl, by first | exact k.keys | (simp only [List.length_modify, List.length_set, List.length_map, List.length_zipIdx, List.length_replicate, List.length_range]; first | done | exact k.keys) | rfl, by first | exact k.refusals | (simp only [List.length_modify, List.length_set, List.length_map, List.length_zipIdx, List.length_replicate, List.length_range]; first | done | exact k.refusals) | rfl, by first | exact k.staged | (simp only [List.length_modify, List.length_set, List.length_map, List.length_zipIdx, List.length_replicate, List.length_range]; first | done | exact k.staged) | rfl, by first | exact k.copies | (simp only [List.length_modify, List.length_set, List.length_map, List.length_zipIdx, List.length_replicate, List.length_range]; first | done | exact k.copies) | rfl, by first | exact k.latches | (simp only [List.length_modify, List.length_set, List.length_map, List.length_zipIdx, List.length_replicate, List.length_range]; first | done | exact k.latches) | rfl, by first | exact k.pxc | (repeat' first | exact k.pxc | exact k.rxc | exact core_default_inv | apply coreLoad_inv | apply coreStop_inv | apply chkScatter_inv | apply coreOff_inv | apply taskStart_inv), by first | exact k.rxc | (repeat' first | exact k.pxc | exact k.rxc | exact core_default_inv | apply coreLoad_inv | apply coreStop_inv | apply chkScatter_inv | apply coreOff_inv | apply taskStart_inv), by first | exact k.opl | simp | (simp only [List.length_modify, List.length_set, List.length_map, List.length_zipIdx, List.length_replicate, List.length_range]; exact k.opl), by first | exact k.bufs | exact smWf_smPut _ _ k.bufs | rfl, by first | exact k.caps | exact smWf_smPut _ _ k.caps | rfl, by first | exact k.capsPrev | exact smWf_smPut _ _ k.capsPrev | rfl, by first | exact k.tickets | exact Nat.mod_lt _ (by decide) | decide⟩))
    | intro _)

theorem accessWrite_inv {s : State} (h : Inv s) : ∀ a0 a1 a2, Inv (accessWrite a0 a1 a2 s).2 := by
  intro a0 a1 a2
  unfold accessWrite
  try dsimp only
  repeat' (first
    | assumption
    | with_reducible apply regWrite_inv
    | split
    | intro _)

theorem pduAccess_inv {s : State} (h : Inv s) : ∀ a0 a1 a2, Inv (pduAccess a0 a1 a2 s).2.2 := by
  intro a0 a1 a2
  unfold pduAccess
  try dsimp only
  repeat' (first
    | assumption
    | with_reducible apply accessRead_inv
    | with_reducible apply accessWrite_inv
    | split
    | intro _)

theorem pduOps_inv {s : State} (h : Inv s) : ∀ p o n, Inv (pduOps p o n s).2 := by
  intro p o n
  induction n generalizing s o with
  | zero => exact h
  | succ n ih => exact ih (pduAccess_inv h _ _ _) _
theorem pduRequest_inv {s : State} (h : Inv s) : ∀ a0 a1, Inv (pduRequest a0 a1 s) := by
  intro a0 a1
  unfold pduRequest
  try dsimp only
  repeat' (first
    | assumption
    | with_reducible apply pduSend_inv
    | with_reducible apply pduOps_inv
    | with_reducible apply sessionPut_inv
    | with_reducible apply answer_inv
    | split
    | (with_reducible refine Inv.upd ?_ (fun k => { k with }))
    | intro _)

theorem pduVerified_inv {s : State} (h : Inv s) : ∀ a0, Inv (pduVerified a0 s) := by
  intro a0
  unfold pduVerified
  try dsimp only
  repeat' (first
    | assumption
    | with_reducible apply pduReject_inv
    | with_reducible apply pduOpen_inv
    | with_reducible apply pduRequest_inv
    | with_reducible apply sessionDrop_inv
    | split
    | intro _)

theorem taskTime_inv {s : State} (h : Inv s) : ∀ e, Inv (taskTime e s) := fun _ =>
  activeMod_inv _ h (fun _ hc => ⟨hc.regs, hc.rets, hc.loops, hc.data⟩)
theorem continueFrom_inv {s : State} (h : Inv s) : ∀ p, Inv (continueFrom p s) := by
  intro p
  unfold continueFrom
  split
  · exact h
  next c t hc =>
    have hcore : CoreInv c := by
      unfold runningTask at hc
      split at hc
      · cases hc
      next d hd =>
        rw [Option.map_eq_some_iff] at hc
        obtain ⟨_, _, he⟩ := hc
        cases he
        exact activeCore_inv h hd
    have hx : CoreInv { c with pc := p + 1 } := ⟨hcore.regs, hcore.rets, hcore.loops, hcore.data⟩
    have h' := taskTime_inv (activeMod_inv (fun _ => (iterEnds 5 p { c with pc := p + 1 }).2) h
      (fun _ _ => iterEnds_inv 5 p hx)) (t.e + (iterEnds 5 p { c with pc := p + 1 }).1)
    exact ite_inv (yieldAt_inv h' _ _ _) h'
theorem retOp_inv {s : State} (h : Inv s) (c : Core)
    (hc : ∀ d, activeCore s = some d → d.rets = c.rets ∧ d.loops = c.loops) : Inv (retOp c s) := by
  unfold retOp
  split
  · exact yieldNow_inv h _
  next t rest hr =>
    refine ite_inv (yieldNow_inv h _) (ite_inv (yieldNow_inv h _) (continueFrom_inv (activeMod_inv_at _ h ?_) _))
    intro d hd
    have hdi := activeCore_inv h hd
    have hl := hdi.rets
    rw [(hc d hd).1, hr] at hl
    exact regPut_inv _ _ ⟨hdi.regs, by simp at hl ⊢; omega, hdi.loops, hdi.data⟩
theorem ownLeave_inv {s : State} (h : Inv s) : Inv (ownLeave s) := by
  unfold ownLeave
  try dsimp only
  repeat' (first
    | assumption
    | with_reducible apply chainFree_inv
    | (with_reducible apply elim_inv)
    | split
    | (with_reducible refine Inv.upd ?_ (fun k => { k with }))
    | intro _)

theorem tfLaunch_inv {s : State} (h : Inv s) : Inv (tfLaunch s) := by
  unfold tfLaunch
  try dsimp only
  repeat' (first
    | assumption
    | with_reducible apply raise_inv
    | with_reducible apply launchLine_inv
    | split
    | (with_reducible refine Inv.upd ?_ (fun k => { k with }))
    | intro _)

theorem instr_inv_at {s : State} (h : Inv s) (n : Nat) (f : Core → State → State)
    (hf : ∀ c t s', runningTask s = some (c, t) → Inv s' → (∀ d, activeCore s' = some d → d.rets = c.rets ∧ d.loops = c.loops) →
      Inv (f c s')) : Inv (instr n f s) := by
  unfold instr
  split
  · exact h
  next c t hc =>
    split
    · exact h
    · have hx : Inv (atEdge t (t.e + n) s) := { h with }
      refine hf c t _ hc (taskTime_inv hx _) ?_
      intro d hd
      have hcs : activeCore s = some c := by
        unfold runningTask at hc
        split at hc
        · cases hc
        next d hd =>
          rw [Option.map_eq_some_iff] at hc
          obtain ⟨_, _, he⟩ := hc
          cases he
          exact hd
      unfold activeCore at hd hcs
      unfold taskTime activeMod atEdge at hd
      by_cases h0 : s.cr.active = 0
      · simp [h0] at hd hcs
        subst hcs
        subst hd
        exact ⟨rfl, rfl⟩
      · by_cases h1 : s.cr.active = 1
        · simp [h1] at hd hcs
          subst hcs
          subst hd
          exact ⟨rfl, rfl⟩
        · simp [h0, h1] at hd
theorem instr_inv {s : State} (h : Inv s) (n : Nat) (f : Core → State → State) (hf : ∀ c s, Inv s → Inv (f c s)) :
    Inv (instr n f s) := instr_inv_at h n f (fun c _ s' _ hs _ => hf c s' hs)
theorem service_inv {s : State} (h : Inv s) (ok : Bool) (f : Core → State → State) (hf : ∀ c s, Inv s → Inv (f c s)) :
    Inv (service ok f s) :=
  instr_inv h _ _ (fun c _ hs => legal_inv hs _ _ _ (fun _ hs => continueFrom_inv (hf c _ hs) _))
theorem verifyRefused_inv {s : State} (h : Inv s) : ∀ a0 a1 a2, Inv (verifyRefused a0 a1 a2 s) := by
  intro a0 a1 a2
  unfold verifyRefused
  try dsimp only
  repeat' (first
    | assumption
    | with_reducible apply raise_inv
    | split
    | (with_reducible refine Inv.upd ?_ (fun k => ?_); on_goal 2 => (first | exact { k with } | exact ⟨by first | exact k.mem | exact nvWrite_wf _ _ k.mem | exact smWf_smPutBytes _ _ k.mem, by first | exact k.doms | (simp only [List.length_modify, List.length_set, List.length_map, List.length_zipIdx, List.length_replicate, List.length_range]; first | done | exact k.doms) | rfl, by first | exact k.ports | (simp only [List.length_modify, List.length_set, List.length_map, List.length_zipIdx, List.length_replicate, List.length_range]; first | done | exact k.ports) | rfl, by first | exact k.tx | (simp only [List.length_modify, List.length_set, List.length_map, List.length_zipIdx, List.length_replicate, List.length_range]; first | done | exact k.tx) | rfl, by first | exact k.fwd | (simp only [List.length_modify, List.length_set, List.length_map, List.length_zipIdx, List.length_replicate, List.length_range]; first | done | exact k.fwd) | rfl, by first | exact k.branches | (simp only [List.length_modify, List.length_set, List.length_map, List.length_zipIdx, List.length_replicate, List.length_range]; first | done | exact k.branches) | rfl, by first | exact k.slotsRx | (simp only [List.length_modify, List.length_set, List.length_map, List.length_zipIdx, List.length_replicate, List.length_range]; first | done | exact k.slotsRx) | rfl, by first | exact k.slotsTx | (simp only [List.length_modify, List.length_set, List.length_map, List.length_zipIdx, List.length_replicate, List.length_range]; first | done | exact k.slotsTx) | rfl, by first | exact k.eqPorts | (simp only [List.length_modify, List.length_set, List.length_map, List.length_zipIdx, List.length_replicate, List.length_range]; first | done | exact k.eqPorts) | rfl, by first | exact k.chans | (simp only [List.length_modify, List.length_set, List.length_map, List.length_zipIdx, List.length_replicate, List.length_range]; first | done | exact k.chans) | rfl, by first | exact k.banks | (simp only [List.length_modify, List.length_set, List.length_map, List.length_zipIdx, List.length_replicate, List.length_range]; first | done | exact k.banks) | rfl, by first | exact k.drawers | (simp only [List.length_modify, List.length_set, List.length_map, List.length_zipIdx, List.length_replicate, List.length_range]; first | done | exact k.drawers) | rfl, by first | exact k.keys | (simp only [List.length_modify, List.length_set, List.length_map, List.length_zipIdx, List.length_replicate, List.length_range]; first | done | exact k.keys) | rfl, by first | exact k.refusals | (simp only [List.length_modify, List.length_set, List.length_map, List.length_zipIdx, List.length_replicate, List.length_range]; first | done | exact k.refusals) | rfl, by first | exact k.staged | (simp only [List.length_modify, List.length_set, List.length_map, List.length_zipIdx, List.length_replicate, List.length_range]; first | done | exact k.staged) | rfl, by first | exact k.copies | (simp only [List.length_modify, List.length_set, List.length_map, List.length_zipIdx, List.length_replicate, List.length_range]; first | done | exact k.copies) | rfl, by first | exact k.latches | (simp only [List.length_modify, List.length_set, List.length_map, List.length_zipIdx, List.length_replicate, List.length_range]; first | done | exact k.latches) | rfl, by first | exact k.pxc | (repeat' first | exact k.pxc | exact k.rxc | exact core_default_inv | apply coreLoad_inv | apply coreStop_inv | apply chkScatter_inv | apply coreOff_inv | apply taskStart_inv), by first | exact k.rxc | (repeat' first | exact k.pxc | exact k.rxc | exact core_default_inv | apply coreLoad_inv | apply coreStop_inv | apply chkScatter_inv | apply coreOff_inv | apply taskStart_inv), by first | exact k.opl | simp | (simp only [List.length_modify, List.length_set, List.length_map, List.length_zipIdx, List.length_replicate, List.length_range]; exact k.opl), by first | exact k.bufs | exact smWf_smPut _ _ k.bufs | rfl, by first | exact k.caps | exact smWf_smPut _ _ k.caps | rfl, by first | exact k.capsPrev | exact smWf_smPut _ _ k.capsPrev | rfl, by first | exact k.tickets | exact Nat.mod_lt _ (by decide) | decide⟩))
    | intro _)

theorem incUnitDone_inv {s : State} (h : Inv s) : Inv (incUnitDone s) := by
  unfold incUnitDone
  try dsimp only
  repeat' (first
    | assumption
    | with_reducible apply raise_inv
    | split
    | (with_reducible refine Inv.upd ?_ (fun k => { k with }))
    | intro _)

theorem jnvAdvance_inv {s : State} (h : Inv s) : Inv (jnvAdvance s) := by
  unfold jnvAdvance
  try dsimp only
  repeat' (first
    | assumption
    | split
    | (with_reducible refine Inv.upd ?_ (fun k => { k with }))
    | intro _)

theorem jnvMark_inv {s : State} (h : Inv s) : ∀ a0, Inv (jnvMark a0 s) := by
  intro a0
  unfold jnvMark
  try dsimp only
  repeat' (first
    | assumption
    | with_reducible apply execPrune_inv
    | with_reducible apply entryUpdate_inv
    | split
    | (with_reducible refine Inv.upd ?_ (fun k => { k with }))
    | intro _)

theorem jnvUnitDone_inv {s : State} (h : Inv s) : Inv (jnvUnitDone s) := by
  unfold jnvUnitDone
  try dsimp only
  repeat' (first
    | assumption
    | with_reducible apply jnvAdvance_inv
    | with_reducible apply jnvMark_inv
    | split
    | (with_reducible refine Inv.upd ?_ (fun k => { k with }))
    | intro _)

theorem cfgDone_inv {s : State} (h : Inv s) : Inv (cfgDone s) := by
  unfold cfgDone
  try dsimp only
  repeat' (first
    | assumption
    | split
    | (with_reducible refine Inv.upd ?_ (fun k => { k with }))
    | intro _)

theorem chkUnitDone_inv {s : State} (h : Inv s) : Inv (chkUnitDone s) := by
  unfold chkUnitDone
  try dsimp only
  repeat' (first
    | assumption
    | with_reducible apply jobEnd_inv
    | (with_reducible apply elim_inv)
    | split
    | (with_reducible refine Inv.upd ?_ (fun k => { k with }))
    | intro _)

theorem refStep_inv {s : State} (h : Inv s) : Inv (refStep s) := by
  unfold refStep
  try dsimp only
  repeat' (first
    | assumption
    | with_reducible apply jobMod_inv
    | with_reducible apply refPick_inv
    | split
    | (with_reducible refine Inv.upd ?_ (fun k => { k with }))
    | intro _)

theorem jobDone_inv {s : State} (h : Inv s) : ∀ a0, Inv (jobDone a0 s) := by
  intro a0
  unfold jobDone
  try dsimp only
  repeat' (first
    | assumption
    | with_reducible apply jobEnd_inv
    | with_reducible apply raise_inv
    | with_reducible apply incCleared_inv
    | split
    | (with_reducible refine Inv.upd ?_ (fun k => ?_); on_goal 2 => (first | exact { k with } | exact ⟨by first | exact k.mem | exact nvWrite_wf _ _ k.mem | exact smWf_smPutBytes _ _ k.mem, by first | exact k.doms | (simp only [List.length_modify, List.length_set, List.length_map, List.length_zipIdx, List.length_replicate, List.length_range]; first | done | exact k.doms) | rfl, by first | exact k.ports | (simp only [List.length_modify, List.length_set, List.length_map, List.length_zipIdx, List.length_replicate, List.length_range]; first | done | exact k.ports) | rfl, by first | exact k.tx | (simp only [List.length_modify, List.length_set, List.length_map, List.length_zipIdx, List.length_replicate, List.length_range]; first | done | exact k.tx) | rfl, by first | exact k.fwd | (simp only [List.length_modify, List.length_set, List.length_map, List.length_zipIdx, List.length_replicate, List.length_range]; first | done | exact k.fwd) | rfl, by first | exact k.branches | (simp only [List.length_modify, List.length_set, List.length_map, List.length_zipIdx, List.length_replicate, List.length_range]; first | done | exact k.branches) | rfl, by first | exact k.slotsRx | (simp only [List.length_modify, List.length_set, List.length_map, List.length_zipIdx, List.length_replicate, List.length_range]; first | done | exact k.slotsRx) | rfl, by first | exact k.slotsTx | (simp only [List.length_modify, List.length_set, List.length_map, List.length_zipIdx, List.length_replicate, List.length_range]; first | done | exact k.slotsTx) | rfl, by first | exact k.eqPorts | (simp only [List.length_modify, List.length_set, List.length_map, List.length_zipIdx, List.length_replicate, List.length_range]; first | done | exact k.eqPorts) | rfl, by first | exact k.chans | (simp only [List.length_modify, List.length_set, List.length_map, List.length_zipIdx, List.length_replicate, List.length_range]; first | done | exact k.chans) | rfl, by first | exact k.banks | (simp only [List.length_modify, List.length_set, List.length_map, List.length_zipIdx, List.length_replicate, List.length_range]; first | done | exact k.banks) | rfl, by first | exact k.drawers | (simp only [List.length_modify, List.length_set, List.length_map, List.length_zipIdx, List.length_replicate, List.length_range]; first | done | exact k.drawers) | rfl, by first | exact k.keys | (simp only [List.length_modify, List.length_set, List.length_map, List.length_zipIdx, List.length_replicate, List.length_range]; first | done | exact k.keys) | rfl, by first | exact k.refusals | (simp only [List.length_modify, List.length_set, List.length_map, List.length_zipIdx, List.length_replicate, List.length_range]; first | done | exact k.refusals) | rfl, by first | exact k.staged | (simp only [List.length_modify, List.length_set, List.length_map, List.length_zipIdx, List.length_replicate, List.length_range]; first | done | exact k.staged) | rfl, by first | exact k.copies | (simp only [List.length_modify, List.length_set, List.length_map, List.length_zipIdx, List.length_replicate, List.length_range]; first | done | exact k.copies) | rfl, by first | exact k.latches | (simp only [List.length_modify, List.length_set, List.length_map, List.length_zipIdx, List.length_replicate, List.length_range]; first | done | exact k.latches) | rfl, by first | exact k.pxc | (repeat' first | exact k.pxc | exact k.rxc | exact core_default_inv | apply coreLoad_inv | apply coreStop_inv | apply chkScatter_inv | apply coreOff_inv | apply taskStart_inv), by first | exact k.rxc | (repeat' first | exact k.pxc | exact k.rxc | exact core_default_inv | apply coreLoad_inv | apply coreStop_inv | apply chkScatter_inv | apply coreOff_inv | apply taskStart_inv), by first | exact k.opl | simp | (simp only [List.length_modify, List.length_set, List.length_map, List.length_zipIdx, List.length_replicate, List.length_range]; exact k.opl), by first | exact k.bufs | exact smWf_smPut _ _ k.bufs | rfl, by first | exact k.caps | exact smWf_smPut _ _ k.caps | rfl, by first | exact k.capsPrev | exact smWf_smPut _ _ k.capsPrev | rfl, by first | exact k.tickets | exact Nat.mod_lt _ (by decide) | decide⟩))
    | intro _)

theorem hostDone_inv {s : State} (h : Inv s) : ∀ a0, Inv (hostDone a0 s) := by
  intro a0
  unfold hostDone
  try dsimp only
  repeat' (first
    | assumption
    | with_reducible apply jobEnd_inv
    | with_reducible apply refStep_inv
    | with_reducible apply jobMod_inv
    | with_reducible apply jobDone_inv
    | split
    | (with_reducible refine Inv.upd ?_ (fun k => ?_); on_goal 2 => (first | exact { k with } | exact ⟨by first | exact k.mem | exact nvWrite_wf _ _ k.mem | exact smWf_smPutBytes _ _ k.mem, by first | exact k.doms | (simp only [List.length_modify, List.length_set, List.length_map, List.length_zipIdx, List.length_replicate, List.length_range]; first | done | exact k.doms) | rfl, by first | exact k.ports | (simp only [List.length_modify, List.length_set, List.length_map, List.length_zipIdx, List.length_replicate, List.length_range]; first | done | exact k.ports) | rfl, by first | exact k.tx | (simp only [List.length_modify, List.length_set, List.length_map, List.length_zipIdx, List.length_replicate, List.length_range]; first | done | exact k.tx) | rfl, by first | exact k.fwd | (simp only [List.length_modify, List.length_set, List.length_map, List.length_zipIdx, List.length_replicate, List.length_range]; first | done | exact k.fwd) | rfl, by first | exact k.branches | (simp only [List.length_modify, List.length_set, List.length_map, List.length_zipIdx, List.length_replicate, List.length_range]; first | done | exact k.branches) | rfl, by first | exact k.slotsRx | (simp only [List.length_modify, List.length_set, List.length_map, List.length_zipIdx, List.length_replicate, List.length_range]; first | done | exact k.slotsRx) | rfl, by first | exact k.slotsTx | (simp only [List.length_modify, List.length_set, List.length_map, List.length_zipIdx, List.length_replicate, List.length_range]; first | done | exact k.slotsTx) | rfl, by first | exact k.eqPorts | (simp only [List.length_modify, List.length_set, List.length_map, List.length_zipIdx, List.length_replicate, List.length_range]; first | done | exact k.eqPorts) | rfl, by first | exact k.chans | (simp only [List.length_modify, List.length_set, List.length_map, List.length_zipIdx, List.length_replicate, List.length_range]; first | done | exact k.chans) | rfl, by first | exact k.banks | (simp only [List.length_modify, List.length_set, List.length_map, List.length_zipIdx, List.length_replicate, List.length_range]; first | done | exact k.banks) | rfl, by first | exact k.drawers | (simp only [List.length_modify, List.length_set, List.length_map, List.length_zipIdx, List.length_replicate, List.length_range]; first | done | exact k.drawers) | rfl, by first | exact k.keys | (simp only [List.length_modify, List.length_set, List.length_map, List.length_zipIdx, List.length_replicate, List.length_range]; first | done | exact k.keys) | rfl, by first | exact k.refusals | (simp only [List.length_modify, List.length_set, List.length_map, List.length_zipIdx, List.length_replicate, List.length_range]; first | done | exact k.refusals) | rfl, by first | exact k.staged | (simp only [List.length_modify, List.length_set, List.length_map, List.length_zipIdx, List.length_replicate, List.length_range]; first | done | exact k.staged) | rfl, by first | exact k.copies | (simp only [List.length_modify, List.length_set, List.length_map, List.length_zipIdx, List.length_replicate, List.length_range]; first | done | exact k.copies) | rfl, by first | exact k.latches | (simp only [List.length_modify, List.length_set, List.length_map, List.length_zipIdx, List.length_replicate, List.length_range]; first | done | exact k.latches) | rfl, by first | exact k.pxc | (repeat' first | exact k.pxc | exact k.rxc | exact core_default_inv | apply coreLoad_inv | apply coreStop_inv | apply chkScatter_inv | apply coreOff_inv | apply taskStart_inv), by first | exact k.rxc | (repeat' first | exact k.pxc | exact k.rxc | exact core_default_inv | apply coreLoad_inv | apply coreStop_inv | apply chkScatter_inv | apply coreOff_inv | apply taskStart_inv), by first | exact k.opl | simp | (simp only [List.length_modify, List.length_set, List.length_map, List.length_zipIdx, List.length_replicate, List.length_range]; exact k.opl), by first | exact k.bufs | exact smWf_smPut _ _ k.bufs | rfl, by first | exact k.caps | exact smWf_smPut _ _ k.caps | rfl, by first | exact k.capsPrev | exact smWf_smPut _ _ k.capsPrev | rfl, by first | exact k.tickets | exact Nat.mod_lt _ (by decide) | decide⟩))
    | intro _)

theorem nvFinish_inv {s : State} (h : Inv s) : ∀ v, Inv (nvFinish v s) := fun v => by
  unfold nvFinish
  split
  · exact h
  next o _ =>
    have h1 : Inv { s with nv := { s.nv with op := none } } := { h with }
    have h2 := ite_inv (c := o.erase = true) (eraseDone_inv (o.addr / 4096) h1)
      (ite_inv (c := o.who = .cfg) h1 (ite_inv (c := v = true) (nvWrite_inv o.addr o.data h1)
        (raise_inv 0x8089 noInst [] (nvUndefine_inv o.addr 16 h1))))
    dsimp only
    split
    · exact incUnitDone_inv h2
    · exact jnvUnitDone_inv h2
    · exact cfgDone_inv h2
    · exact chkUnitDone_inv h2
    · exact { h2 with }
    · exact { h2 with }
    · exact hostDone_inv h2 _
theorem tfCycle_inv {s : State} (h : Inv s) : Inv (tfCycle s) := by
  unfold tfCycle
  try dsimp only
  repeat' (first
    | assumption
    | split
    | (with_reducible refine Inv.upd ?_ (fun k => { k with }))
    | intro _)

theorem logeOp_inv {s : State} (h : Inv s) : ∀ d a i k c, Inv (logeOp d a i k c s) := fun d a i k c => by
  unfold logeOp
  exact activeMod_inv _ (raiseTo_inv _ _ _ _ h) (fun _ hc => ⟨hc.regs, hc.rets, hc.loops, hc.data⟩)
theorem selectUn_inv {s : State} (h : Inv s) : ∀ a0 a1, Inv (selectUn a0 a1 s) := by
  intro a0 a1
  unfold selectUn
  try dsimp only
  repeat' (first
    | assumption
    | with_reducible apply raise_inv
    | split
    | (with_reducible refine Inv.upd ?_ (fun k => { k with }))
    | intro _)

theorem runSupply_inv {s : State} (h : Inv s) : ∀ a0, Inv (runSupply a0 s) := by
  intro a0
  unfold runSupply
  try dsimp only
  repeat' (first
    | assumption
    | with_reducible apply selectUn_inv
    | with_reducible apply raise_inv
    | split
    | (with_reducible refine Inv.upd ?_ (fun k => { k with }))
    | intro _)

theorem tempSensorPlausible_inv {s : State} (h : Inv s) : ∀ a0, Inv (tempSensorPlausible a0 s) := by
  intro a0
  unfold tempSensorPlausible
  try dsimp only
  repeat' (first
    | assumption
    | split
    | (with_reducible refine Inv.upd ?_ (fun k => { k with }))
    | intro _)

theorem eqAutonegFail_inv {s : State} (h : Inv s) : ∀ a0, Inv (eqAutonegFail a0 s) := by
  intro a0
  unfold eqAutonegFail
  try dsimp only
  repeat' (first
    | assumption
    | with_reducible apply raise_inv
    | split
    | intro _)

theorem revertHoldoffEnd_inv {s : State} (h : Inv s) : Inv (revertHoldoffEnd s) := by
  unfold revertHoldoffEnd
  try dsimp only
  repeat' (first
    | assumption
    | split
    | (with_reducible refine Inv.upd ?_ (fun k => { k with }))
    | intro _)

theorem slotCount_inv {s : State} (h : Inv s) : ∀ a0 a1 a2, Inv (slotCount a0 a1 a2 s) := by
  intro a0 a1 a2
  unfold slotCount
  try dsimp only
  repeat' (first
    | assumption
    | with_reducible apply brMod_inv
    | with_reducible apply raise_inv
    | split
    | (with_reducible refine Inv.upd ?_ (fun k => { k with }))
    | intro _)

theorem integrate_inv {s : State} (h : Inv s) : ∀ a0 a1, Inv (integrate a0 a1 s) := by
  intro a0 a1
  unfold integrate
  try dsimp only
  repeat' (first
    | assumption
    | with_reducible apply brMod_inv
    | with_reducible apply raise_inv
    | split
    | (with_reducible refine Inv.upd ?_ (fun k => { k with }))
    | intro _)

theorem vnReadFire_inv {s : State} (h : Inv s) : ∀ e, Inv (vnReadFire e s) := fun e => by
  unfold vnReadFire
  with_reducible apply onDomain_inv h
  intro s hs
  dsimp only
  split
  · exact hs
  · with_reducible refine ite_inv hs (foldl_inv _ ?_ (fun _ _ h3 => ite_inv h3 (integrate_inv h3 _ _)))
    with_reducible refine foldl_inv _ ?_ (fun _ _ h3 => slotCount_inv h3 _ _ _)
    generalize hx : List.foldl (fun s b => if Option.elim (s.branch b).rx false (fun r => !r.dynamic) = true then guardianCut b s
      else s) s (List.range 12) = x
    have h2 : Inv x := by
      rw [← hx]
      with_reducible exact foldl_inv _ hs (fun _ _ h3 => ite_inv (guardianCut_inv h3 _) h3)
    exact { h2 with }
theorem vnReadRun_inv {s : State} (h : Inv s) : ∀ a0, Inv (vnReadRun a0 s) := by
  intro a0
  unfold vnReadRun
  try dsimp only
  repeat' (first
    | assumption
    | with_reducible apply gridFire_inv
    | with_reducible apply vnReadFire_inv
    | split
    | (with_reducible refine Inv.upd ?_ (fun k => ?_); on_goal 2 => (first | exact { k with } | exact ⟨by first | exact k.mem | exact nvWrite_wf _ _ k.mem | exact smWf_smPutBytes _ _ k.mem, by first | exact k.doms | (simp only [List.length_modify, List.length_set, List.length_map, List.length_zipIdx, List.length_replicate, List.length_range]; first | done | exact k.doms) | rfl, by first | exact k.ports | (simp only [List.length_modify, List.length_set, List.length_map, List.length_zipIdx, List.length_replicate, List.length_range]; first | done | exact k.ports) | rfl, by first | exact k.tx | (simp only [List.length_modify, List.length_set, List.length_map, List.length_zipIdx, List.length_replicate, List.length_range]; first | done | exact k.tx) | rfl, by first | exact k.fwd | (simp only [List.length_modify, List.length_set, List.length_map, List.length_zipIdx, List.length_replicate, List.length_range]; first | done | exact k.fwd) | rfl, by first | exact k.branches | (simp only [List.length_modify, List.length_set, List.length_map, List.length_zipIdx, List.length_replicate, List.length_range]; first | done | exact k.branches) | rfl, by first | exact k.slotsRx | (simp only [List.length_modify, List.length_set, List.length_map, List.length_zipIdx, List.length_replicate, List.length_range]; first | done | exact k.slotsRx) | rfl, by first | exact k.slotsTx | (simp only [List.length_modify, List.length_set, List.length_map, List.length_zipIdx, List.length_replicate, List.length_range]; first | done | exact k.slotsTx) | rfl, by first | exact k.eqPorts | (simp only [List.length_modify, List.length_set, List.length_map, List.length_zipIdx, List.length_replicate, List.length_range]; first | done | exact k.eqPorts) | rfl, by first | exact k.chans | (simp only [List.length_modify, List.length_set, List.length_map, List.length_zipIdx, List.length_replicate, List.length_range]; first | done | exact k.chans) | rfl, by first | exact k.banks | (simp only [List.length_modify, List.length_set, List.length_map, List.length_zipIdx, List.length_replicate, List.length_range]; first | done | exact k.banks) | rfl, by first | exact k.drawers | (simp only [List.length_modify, List.length_set, List.length_map, List.length_zipIdx, List.length_replicate, List.length_range]; first | done | exact k.drawers) | rfl, by first | exact k.keys | (simp only [List.length_modify, List.length_set, List.length_map, List.length_zipIdx, List.length_replicate, List.length_range]; first | done | exact k.keys) | rfl, by first | exact k.refusals | (simp only [List.length_modify, List.length_set, List.length_map, List.length_zipIdx, List.length_replicate, List.length_range]; first | done | exact k.refusals) | rfl, by first | exact k.staged | (simp only [List.length_modify, List.length_set, List.length_map, List.length_zipIdx, List.length_replicate, List.length_range]; first | done | exact k.staged) | rfl, by first | exact k.copies | (simp only [List.length_modify, List.length_set, List.length_map, List.length_zipIdx, List.length_replicate, List.length_range]; first | done | exact k.copies) | rfl, by first | exact k.latches | (simp only [List.length_modify, List.length_set, List.length_map, List.length_zipIdx, List.length_replicate, List.length_range]; first | done | exact k.latches) | rfl, by first | exact k.pxc | (repeat' first | exact k.pxc | exact k.rxc | exact core_default_inv | apply coreLoad_inv | apply coreStop_inv | apply chkScatter_inv | apply coreOff_inv | apply taskStart_inv), by first | exact k.rxc | (repeat' first | exact k.pxc | exact k.rxc | exact core_default_inv | apply coreLoad_inv | apply coreStop_inv | apply chkScatter_inv | apply coreOff_inv | apply taskStart_inv), by first | exact k.opl | simp | (simp only [List.length_modify, List.length_set, List.length_map, List.length_zipIdx, List.length_replicate, List.length_range]; exact k.opl), by first | exact k.bufs | exact smWf_smPut _ _ k.bufs | rfl, by first | exact k.caps | exact smWf_smPut _ _ k.caps | rfl, by first | exact k.capsPrev | exact smWf_smPut _ _ k.capsPrev | rfl, by first | exact k.tickets | exact Nat.mod_lt _ (by decide) | decide⟩))
    | intro _)

theorem powerGood_inv {s : State} (h : Inv s) : Inv (powerGood s) := by
  unfold powerGood
  try dsimp only
  repeat' (first
    | assumption
    | with_reducible apply setDomain_inv
    | split
    | (with_reducible refine Inv.upd ?_ (fun k => { k with }))
    | intro _)

theorem updateChannel_inv {s : State} (h : Inv s) : ∀ a0, Inv (updateChannel a0 s) := by
  intro a0
  unfold updateChannel
  try dsimp only
  repeat' (first
    | assumption
    | with_reducible apply restage_inv
    | with_reducible apply chanMod_inv
    | (with_reducible apply elim_inv)
    | split
    | (with_reducible refine Inv.upd ?_ (fun k => { k with }))
    | intro _)

theorem asleep_inv {s : State} (h : Inv s) : Inv (asleep s) := by
  have h2 := cold_inv h
  exact { h2 with staged := h.staged }
theorem goSleep_inv {s : State} (h : Inv s) : ∀ a0, Inv (goSleep a0 s) := by
  intro a0
  unfold goSleep
  try dsimp only
  repeat' (first
    | assumption
    | with_reducible apply asleep_inv
    | with_reducible apply transition_inv
    | with_reducible apply stateLevels_inv
    | split
    | (with_reducible refine Inv.upd ?_ (fun k => { k with }))
    | intro _)

theorem branchLinkDown_inv {s : State} (h : Inv s) : ∀ a0, Inv (branchLinkDown a0 s) := by
  intro a0
  unfold branchLinkDown
  try dsimp only
  repeat' (first
    | assumption
    | with_reducible apply raise_inv
    | with_reducible apply branchDown_inv
    | split
    | intro _)

theorem frameFlags_inv {s : State} (h : Inv s) : ∀ a0 a1, Inv (frameFlags a0 a1 s) := by
  intro a0 a1
  unfold frameFlags
  try dsimp only
  repeat' (first
    | assumption
    | with_reducible apply raise_inv
    | with_reducible apply brMod_inv
    | split
    | (with_reducible refine Inv.upd ?_ (fun k => { k with }))
    | intro _)

theorem dynDeliver_inv {s : State} (h : Inv s) : ∀ a0 a1 a2, Inv (dynDeliver a0 a1 a2 s) := by
  intro a0 a1 a2
  unfold dynDeliver
  try dsimp only
  repeat' (first
    | assumption
    | with_reducible apply poolStore_inv
    | with_reducible apply coreQueueFull_inv
    | with_reducible apply chainOwner_inv
    | with_reducible apply shToBackbone_inv
    | (with_reducible apply elim_inv)
    | split
    | (with_reducible refine Inv.upd ?_ (fun k => { k with }))
    | intro _)

theorem admitted_inv {s : State} (h : Inv s) : ∀ a0 a1 a2 a3 a4, Inv (admitted a0 a1 a2 a3 a4 s) := by
  intro a0 a1 a2 a3 a4
  unfold admitted
  try dsimp only
  repeat' (first
    | assumption
    | with_reducible apply frameFlags_inv
    | with_reducible apply gotMod_inv
    | with_reducible apply raise_inv
    | with_reducible apply dynDeliver_inv
    | split
    | (with_reducible refine Inv.upd ?_ (fun k => { k with }))
    | intro _)

theorem vnFrameRx_inv {s : State} (h : Inv s) : ∀ a0 a1 a2, Inv (vnFrameRx a0 a1 a2 s) := by
  intro a0 a1 a2
  unfold vnFrameRx
  try dsimp only
  repeat' (first
    | assumption
    | with_reducible apply guardCount_inv
    | with_reducible apply emit_inv
    | with_reducible apply gotMod_inv
    | with_reducible apply raise_inv
    | with_reducible apply brMod_inv
    | with_reducible apply admitted_inv
    | split
    | (with_reducible refine Inv.upd ?_ (fun k => { k with }))
    | intro _)

theorem drawerCursor_inv {s : State} (h : Inv s) : ∀ a0 a1, Inv (drawerCursor a0 a1 s) := by
  intro a0 a1
  unfold drawerCursor
  try dsimp only
  repeat' (first
    | assumption
    | with_reducible apply drawerCur_inv
    | split
    | intro _)

theorem orderRelease_inv {s : State} (h : Inv s) : ∀ a0 a1, Inv (orderRelease a0 a1 s) := by
  intro a0 a1
  unfold orderRelease
  try dsimp only
  repeat' (first
    | assumption
    | with_reducible apply branchOn_inv
    | with_reducible apply domHold_inv
    | with_reducible apply lockFree_inv
    | with_reducible apply eqOn_inv
    | (with_reducible apply foldl_inv)
    | split
    | intro _)

theorem reportWake_inv {s : State} (h : Inv s) : Inv (reportWake s) := by
  unfold reportWake
  try dsimp only
  repeat' (first
    | assumption
    | with_reducible apply raise_inv
    | split
    | (with_reducible refine Inv.upd ?_ (fun k => { k with }))
    | intro _)

theorem repairRetry_inv {s : State} (h : Inv s) : Inv (repairRetry s) := by
  unfold repairRetry
  try dsimp only
  repeat' (first
    | assumption
    | with_reducible apply repairAsk_inv
    | (with_reducible apply elim_inv)
    | split
    | (with_reducible refine Inv.upd ?_ (fun k => { k with }))
    | intro _)

theorem pllLockLoss_inv {s : State} (h : Inv s) : ∀ a0 a1, Inv (pllLockLoss a0 a1 s) := by
  intro a0 a1
  unfold pllLockLoss
  try dsimp only
  repeat' (first
    | assumption
    | with_reducible apply raise_inv
    | split
    | (with_reducible refine Inv.upd ?_ (fun k => { k with }))
    | intro _)

theorem commitRefused_inv {s : State} (h : Inv s) : ∀ a0 a1 a2, Inv (commitRefused a0 a1 a2 s) := by
  intro a0 a1 a2
  unfold commitRefused
  try dsimp only
  repeat' (first
    | assumption
    | with_reducible apply jobEnd_inv
    | split
    | (with_reducible refine Inv.upd ?_ (fun k => ?_); on_goal 2 => (first | exact { k with } | exact ⟨by first | exact k.mem | exact nvWrite_wf _ _ k.mem | exact smWf_smPutBytes _ _ k.mem, by first | exact k.doms | (simp only [List.length_modify, List.length_set, List.length_map, List.length_zipIdx, List.length_replicate, List.length_range]; first | done | exact k.doms) | rfl, by first | exact k.ports | (simp only [List.length_modify, List.length_set, List.length_map, List.length_zipIdx, List.length_replicate, List.length_range]; first | done | exact k.ports) | rfl, by first | exact k.tx | (simp only [List.length_modify, List.length_set, List.length_map, List.length_zipIdx, List.length_replicate, List.length_range]; first | done | exact k.tx) | rfl, by first | exact k.fwd | (simp only [List.length_modify, List.length_set, List.length_map, List.length_zipIdx, List.length_replicate, List.length_range]; first | done | exact k.fwd) | rfl, by first | exact k.branches | (simp only [List.length_modify, List.length_set, List.length_map, List.length_zipIdx, List.length_replicate, List.length_range]; first | done | exact k.branches) | rfl, by first | exact k.slotsRx | (simp only [List.length_modify, List.length_set, List.length_map, List.length_zipIdx, List.length_replicate, List.length_range]; first | done | exact k.slotsRx) | rfl, by first | exact k.slotsTx | (simp only [List.length_modify, List.length_set, List.length_map, List.length_zipIdx, List.length_replicate, List.length_range]; first | done | exact k.slotsTx) | rfl, by first | exact k.eqPorts | (simp only [List.length_modify, List.length_set, List.length_map, List.length_zipIdx, List.length_replicate, List.length_range]; first | done | exact k.eqPorts) | rfl, by first | exact k.chans | (simp only [List.length_modify, List.length_set, List.length_map, List.length_zipIdx, List.length_replicate, List.length_range]; first | done | exact k.chans) | rfl, by first | exact k.banks | (simp only [List.length_modify, List.length_set, List.length_map, List.length_zipIdx, List.length_replicate, List.length_range]; first | done | exact k.banks) | rfl, by first | exact k.drawers | (simp only [List.length_modify, List.length_set, List.length_map, List.length_zipIdx, List.length_replicate, List.length_range]; first | done | exact k.drawers) | rfl, by first | exact k.keys | (simp only [List.length_modify, List.length_set, List.length_map, List.length_zipIdx, List.length_replicate, List.length_range]; first | done | exact k.keys) | rfl, by first | exact k.refusals | (simp only [List.length_modify, List.length_set, List.length_map, List.length_zipIdx, List.length_replicate, List.length_range]; first | done | exact k.refusals) | rfl, by first | exact k.staged | (simp only [List.length_modify, List.length_set, List.length_map, List.length_zipIdx, List.length_replicate, List.length_range]; first | done | exact k.staged) | rfl, by first | exact k.copies | (simp only [List.length_modify, List.length_set, List.length_map, List.length_zipIdx, List.length_replicate, List.length_range]; first | done | exact k.copies) | rfl, by first | exact k.latches | (simp only [List.length_modify, List.length_set, List.length_map, List.length_zipIdx, List.length_replicate, List.length_range]; first | done | exact k.latches) | rfl, by first | exact k.pxc | (repeat' first | exact k.pxc | exact k.rxc | exact core_default_inv | apply coreLoad_inv | apply coreStop_inv | apply chkScatter_inv | apply coreOff_inv | apply taskStart_inv), by first | exact k.rxc | (repeat' first | exact k.pxc | exact k.rxc | exact core_default_inv | apply coreLoad_inv | apply coreStop_inv | apply chkScatter_inv | apply coreOff_inv | apply taskStart_inv), by first | exact k.opl | simp | (simp only [List.length_modify, List.length_set, List.length_map, List.length_zipIdx, List.length_replicate, List.length_range]; exact k.opl), by first | exact k.bufs | exact smWf_smPut _ _ k.bufs | rfl, by first | exact k.caps | exact smWf_smPut _ _ k.caps | rfl, by first | exact k.capsPrev | exact smWf_smPut _ _ k.capsPrev | rfl, by first | exact k.tickets | exact Nat.mod_lt _ (by decide) | decide⟩))
    | intro _)

theorem takeoverAt_inv {s : State} (h : Inv s) : ∀ a0, Inv (takeoverAt a0 s) := by
  intro a0
  unfold takeoverAt
  try dsimp only
  repeat' (first
    | assumption
    | split
    | (with_reducible refine Inv.upd ?_ (fun k => { k with }))
    | intro _)

theorem onChannels_inv {s : State} (h : Inv s) (g k : Nat) (m : Half) (f : Nat → State → State)
    (hf : ∀ n s, Inv s → Inv (f n s)) : Inv (onChannels g k m f s) := by
  unfold onChannels
  refine ite_inv (skipped_inv h _ _) (foldl_inv _ h (fun s n hs => ?_))
  exact ite_inv (hf n s hs) (ite_inv (ite_inv hs (skipped_inv hs _ _)) (skipped_inv (ite_inv hs (skipped_inv hs _ _)) _ _))
theorem sampleRun_inv {s : State} (h : Inv s) : ∀ a0 a1 a2, Inv (sampleRun a0 a1 a2 s) := by
  intro a0 a1 a2
  unfold sampleRun
  try dsimp only
  repeat' (first
    | assumption
    | with_reducible apply capture_inv
    | with_reducible apply gridFire_inv
    | with_reducible apply onChannels_inv
    | split
    | intro _)

theorem msgLinkLost_inv {s : State} (h : Inv s) : ∀ a0, Inv (msgLinkLost a0 s) := by
  intro a0
  unfold msgLinkLost
  try dsimp only
  repeat' (first
    | assumption
    | with_reducible apply portTx_inv
    | with_reducible apply ownLeave_inv
    | (with_reducible apply foldl_inv)
    | split
    | (with_reducible refine Inv.upd ?_ (fun k => { k with }))
    | intro _)

theorem goOff_inv {s : State} (h : Inv s) : ∀ a0, Inv (goOff a0 s) := by
  intro a0
  unfold goOff
  try dsimp only
  repeat' (first
    | assumption
    | with_reducible apply cold_inv
    | with_reducible apply transition_inv
    | with_reducible apply nvCut_inv
    | split
    | (with_reducible refine Inv.upd ?_ (fun k => { k with }))
    | intro _)

theorem shadowTestDone_inv {s : State} (h : Inv s) : ∀ a0, Inv (shadowTestDone a0 s) := by
  intro a0
  unfold shadowTestDone
  try dsimp only
  repeat' (first
    | assumption
    | with_reducible apply raise_inv
    | split
    | (with_reducible refine Inv.upd ?_ (fun k => { k with }))
    | intro _)

theorem awakeOp_inv {s : State} (h : Inv s) : ∀ a0 a1 a2, Inv (awakeOp a0 a1 a2 s) := by
  intro a0 a1 a2
  unfold awakeOp
  try dsimp only
  repeat' (first
    | assumption
    | with_reducible apply activeMod_inv
    | with_reducible apply answer_inv
    | with_reducible apply answer_inv
    | exact (⟨CoreInv.regs (by assumption), CoreInv.rets (by assumption), CoreInv.loops (by assumption), CoreInv.data (by assumption)⟩ : CoreInv _)
    | split
    | (with_reducible refine Inv.upd ?_ (fun k => { k with }))
    | intro _)

theorem groupSample_inv {s : State} (h : Inv s) : ∀ a0 a1, Inv (groupSample a0 a1 s) := by
  intro a0 a1
  unfold groupSample
  try dsimp only
  repeat' (first
    | assumption
    | with_reducible apply raise_inv
    | split
    | (with_reducible refine Inv.upd ?_ (fun k => { k with }))
    | intro _)

theorem railSample_inv {s : State} (h : Inv s) : ∀ a0 a1, Inv (railSample a0 a1 s) := by
  intro a0 a1
  unfold railSample
  try dsimp only
  repeat' (first
    | assumption
    | with_reducible apply raise_inv
    | split
    | (with_reducible refine Inv.upd ?_ (fun k => { k with }))
    | intro _)

theorem auxSample_inv {s : State} (h : Inv s) : ∀ a0 a1, Inv (auxSample a0 a1 s) := by
  intro a0 a1
  unfold auxSample
  try dsimp only
  repeat' (first
    | assumption
    | with_reducible apply groupSample_inv
    | with_reducible apply railSample_inv
    | with_reducible apply chanMod_inv
    | split
    | (with_reducible refine Inv.upd ?_ (fun k => { k with }))
    | intro _)

theorem causeSet_inv {s : State} (h : Inv s) : ∀ a0 a1, Inv (causeSet a0 a1 s) := by
  intro a0 a1
  unfold causeSet
  try dsimp only
  repeat' (first
    | assumption
    | with_reducible apply memSettle_inv
    | with_reducible apply chanMod_inv
    | split
    | (with_reducible refine Inv.upd ?_ (fun k => { k with }))
    | intro _)

theorem currentLimit_inv {s : State} (h : Inv s) : ∀ a0, Inv (currentLimit a0 s) := by
  intro a0
  unfold currentLimit
  try dsimp only
  repeat' (first
    | assumption
    | with_reducible apply raise_inv
    | with_reducible apply causeSet_inv
    | with_reducible apply chanMod_inv
    | split
    | (with_reducible refine Inv.upd ?_ (fun k => { k with }))
    | intro _)

theorem shCycle_inv {s : State} (h : Inv s) : Inv (shCycle s) := by
  unfold shCycle
  try dsimp only
  repeat' (first
    | assumption
    | with_reducible apply shSet_inv
    | with_reducible apply shCommand_inv
    | (with_reducible apply elim_inv)
    | split
    | (with_reducible refine Inv.upd ?_ (fun k => { k with }))
    | intro _)

theorem forcesExpire_inv {s : State} (h : Inv s) : Inv (forcesExpire s) := by
  unfold forcesExpire
  exact foldl_inv _ h (fun _ _ hs => ite_inv (forceEnd_inv hs _ _) hs)
theorem lockAge_inv {s : State} (h : Inv s) : Inv (lockAge s) := by
  unfold lockAge
  try dsimp only
  repeat' (first
    | assumption
    | split
    | (with_reducible refine Inv.upd ?_ (fun k => { k with }))
    | intro _)

theorem cfgCheck_inv {s : State} (h : Inv s) : Inv (cfgCheck s) := by
  unfold cfgCheck
  try dsimp only
  repeat' (first
    | assumption
    | with_reducible apply raise_inv
    | split
    | (with_reducible refine Inv.upd ?_ (fun k => { k with }))
    | intro _)

theorem shadowsApply_inv {s : State} (h : Inv s) : Inv (shadowsApply s) := by
  unfold shadowsApply
  try dsimp only
  repeat' (first
    | assumption
    | split
    | (with_reducible refine Inv.upd ?_ (fun k => { k with }))
    | intro _)

theorem forcesEnd_inv {s : State} (h : Inv s) : ∀ r, Inv (forcesEnd r s) := fun r => by
  unfold forcesEnd
  exact foldl_inv _ h (fun _ _ hs => forceEnd_inv hs _ _)
theorem warm_inv {s : State} (h : Inv s) : Inv (warm s) := by
  have h2 := cold_inv h
  exact { h2 with copies := h.copies, drawers := h.drawers, opl := h.opl, latches := h.latches }
theorem warmReset_inv {s : State} (h : Inv s) : Inv (warmReset s) := by
  have h1 := warm_inv (transition_inv (sessionClose_inv (sessionClose_inv (forcesEnd_inv
    (abandonCommands_inv (nvCut_inv h) .waking) 4) .backbone 0x0A) .e0 0x0A) .waking 13)
  unfold warmReset
  dsimp only
  generalize warm _ = w at h1 ⊢
  with_reducible refine stateLevels_inv ?_ _ _
  exact { h1 with }
theorem resetDue_inv {s : State} (h : Inv s) : Inv (resetDue s) := by
  unfold resetDue
  exact ite_inv (warmReset_inv h) h
theorem benchStart_inv {s : State} (h : Inv s) : ∀ a0 a1 a2, Inv (benchStart a0 a1 a2 s) := by
  intro a0 a1 a2
  unfold benchStart
  try dsimp only
  repeat' (first
    | assumption
    | with_reducible apply benchAsk_inv
    | with_reducible apply cmdDone_inv
    | split
    | intro _)

theorem cmdRun_inv {s : State} (h : Inv s) : ∀ c, Inv (cmdRun c s) := fun c => by
  unfold cmdRun
  refine ite_inv (cmdDone_inv (startOwn_inv h _) _ _ _) ?_
  refine ite_inv (cmdDone_inv (by exact { h with }) _ _ _) ?_
  refine ite_inv (cmdDone_inv (by exact { h with }) _ _ _) ?_
  refine ite_inv (cmdDone_inv (by exact { h with }) _ _ _) ?_
  refine ite_inv (cmdDone_inv (shCommand_inv h _ _) _ _ _) ?_
  refine ite_inv (cmdDone_inv (ite_inv (forceStart_inv h _ _ _) (forceEnd_inv h _ _)) _ _ _) ?_
  refine ite_inv (cmdDone_inv (orderRelease_inv h _ _) _ _ _) ?_
  refine ite_inv (benchStart_inv h _ _ _) ?_
  refine ite_inv (cmdDone_inv h _ _ _) ?_
  refine ite_inv (ite_inv (cmdDone_inv (logArmSet_inv h _ _) _ _ _) (logClear_inv h _ _)) ?_
  exact nvStart_inv h _
theorem cmdsRun_inv {s : State} (h : Inv s) : Inv (cmdsRun s) := by
  unfold cmdsRun
  try dsimp only
  repeat' (first
    | assumption
    | with_reducible apply cmdRun_inv
    | (with_reducible apply foldl_inv)
    | split
    | (with_reducible refine Inv.upd ?_ (fun k => ?_); on_goal 2 => (first | exact { k with } | exact ⟨by first | exact k.mem | exact nvWrite_wf _ _ k.mem | exact smWf_smPutBytes _ _ k.mem, by first | exact k.doms | (simp only [List.length_modify, List.length_set, List.length_map, List.length_zipIdx, List.length_replicate, List.length_range]; first | done | exact k.doms) | rfl, by first | exact k.ports | (simp only [List.length_modify, List.length_set, List.length_map, List.length_zipIdx, List.length_replicate, List.length_range]; first | done | exact k.ports) | rfl, by first | exact k.tx | (simp only [List.length_modify, List.length_set, List.length_map, List.length_zipIdx, List.length_replicate, List.length_range]; first | done | exact k.tx) | rfl, by first | exact k.fwd | (simp only [List.length_modify, List.length_set, List.length_map, List.length_zipIdx, List.length_replicate, List.length_range]; first | done | exact k.fwd) | rfl, by first | exact k.branches | (simp only [List.length_modify, List.length_set, List.length_map, List.length_zipIdx, List.length_replicate, List.length_range]; first | done | exact k.branches) | rfl, by first | exact k.slotsRx | (simp only [List.length_modify, List.length_set, List.length_map, List.length_zipIdx, List.length_replicate, List.length_range]; first | done | exact k.slotsRx) | rfl, by first | exact k.slotsTx | (simp only [List.length_modify, List.length_set, List.length_map, List.length_zipIdx, List.length_replicate, List.length_range]; first | done | exact k.slotsTx) | rfl, by first | exact k.eqPorts | (simp only [List.length_modify, List.length_set, List.length_map, List.length_zipIdx, List.length_replicate, List.length_range]; first | done | exact k.eqPorts) | rfl, by first | exact k.chans | (simp only [List.length_modify, List.length_set, List.length_map, List.length_zipIdx, List.length_replicate, List.length_range]; first | done | exact k.chans) | rfl, by first | exact k.banks | (simp only [List.length_modify, List.length_set, List.length_map, List.length_zipIdx, List.length_replicate, List.length_range]; first | done | exact k.banks) | rfl, by first | exact k.drawers | (simp only [List.length_modify, List.length_set, List.length_map, List.length_zipIdx, List.length_replicate, List.length_range]; first | done | exact k.drawers) | rfl, by first | exact k.keys | (simp only [List.length_modify, List.length_set, List.length_map, List.length_zipIdx, List.length_replicate, List.length_range]; first | done | exact k.keys) | rfl, by first | exact k.refusals | (simp only [List.length_modify, List.length_set, List.length_map, List.length_zipIdx, List.length_replicate, List.length_range]; first | done | exact k.refusals) | rfl, by first | exact k.staged | (simp only [List.length_modify, List.length_set, List.length_map, List.length_zipIdx, List.length_replicate, List.length_range]; first | done | exact k.staged) | rfl, by first | exact k.copies | (simp only [List.length_modify, List.length_set, List.length_map, List.length_zipIdx, List.length_replicate, List.length_range]; first | done | exact k.copies) | rfl, by first | exact k.latches | (simp only [List.length_modify, List.length_set, List.length_map, List.length_zipIdx, List.length_replicate, List.length_range]; first | done | exact k.latches) | rfl, by first | exact k.pxc | (repeat' first | exact k.pxc | exact k.rxc | exact core_default_inv | apply coreLoad_inv | apply coreStop_inv | apply chkScatter_inv | apply coreOff_inv | apply taskStart_inv), by first | exact k.rxc | (repeat' first | exact k.pxc | exact k.rxc | exact core_default_inv | apply coreLoad_inv | apply coreStop_inv | apply chkScatter_inv | apply coreOff_inv | apply taskStart_inv), by first | exact k.opl | simp | (simp only [List.length_modify, List.length_set, List.length_map, List.length_zipIdx, List.length_replicate, List.length_range]; exact k.opl), by first | exact k.bufs | exact smWf_smPut _ _ k.bufs | rfl, by first | exact k.caps | exact smWf_smPut _ _ k.caps | rfl, by first | exact k.capsPrev | exact smWf_smPut _ _ k.capsPrev | rfl, by first | exact k.tickets | exact Nat.mod_lt _ (by decide) | decide⟩))
    | intro _)

theorem domainsTo_inv {s : State} (h : Inv s) : ∀ a0 a1, Inv (domainsTo a0 a1 s) := by
  intro a0 a1
  unfold domainsTo
  try dsimp only
  repeat' (first
    | assumption
    | with_reducible apply setDomain_inv
    | (with_reducible apply foldl_inv)
    | split
    | intro _)

theorem shPower_inv {s : State} (h : Inv s) : Inv (shPower s) := by
  unfold shPower
  try dsimp only
  repeat' (first
    | assumption
    | with_reducible apply shSet_inv
    | split
    | (with_reducible refine Inv.upd ?_ (fun k => { k with }))
    | intro _)

theorem poolStart_inv {s : State} (h : Inv s) : Inv (poolStart s) := { h with bufs := rfl }
theorem chkRestore_inv {s : State} (h : Inv s) : ∀ im, Inv (chkRestore im s) := fun im => by
  unfold chkRestore
  refine ite_inv h ?_
  split
  next pos c _ =>
    have h2 := nvReport_inv h (chkAddr pos) (16 + c.data.length)
    exact ite_inv (raise_inv _ _ _ h2) (ite_inv (raise_inv _ _ _ h2) { h2 with pxc := chkScatter_inv _ _ h.pxc })
  · exact ite_inv (raise_inv _ _ _ h) (raise_inv _ _ _ h)
theorem runCore_inv {s : State} (h : Inv s) : ∀ im, Inv (runCore im s) := fun im => by
  unfold runCore
  dsimp only
  with_reducible refine chkRestore_inv ?_ _
  exact { h with pxc := coreLoad_inv _ h.pxc, copies := rfl }
theorem hingeRun_inv {s : State} (h : Inv s) : Inv (hingeRun s) := by
  unfold hingeRun
  try dsimp only
  repeat' (first
    | assumption
    | with_reducible apply resettle_inv
    | with_reducible apply stepPort_inv
    | with_reducible apply startOwn_inv
    | with_reducible apply sendUpdate_inv
    | (with_reducible apply foldl_inv)
    | split
    | intro _)

theorem watchLoad_inv {s : State} (h : Inv s) : Inv (watchLoad s) := by
  unfold watchLoad
  try dsimp only
  repeat' (first
    | assumption
    | with_reducible apply setDomain_inv
    | split
    | (with_reducible refine Inv.upd ?_ (fun k => { k with }))
    | intro _)

theorem runCores_inv {s : State} (h : Inv s) : ∀ a0, Inv (runCores a0 s) := by
  intro a0
  unfold runCores
  try dsimp only
  repeat' (first
    | assumption
    | with_reducible apply repairAsk_inv
    | with_reducible apply transition_inv
    | with_reducible apply watchLoad_inv
    | split
    | intro _)

theorem runBanks_inv {s : State} (h : Inv s) : Inv (runBanks s) := by
  unfold runBanks
  exact foldl_inv _ h (fun _ _ hs => ite_inv (drawn_inv (dataCoreMod_inv _ hs (fun _ hc => bankLost_inv _ _ hc))) hs)
theorem runEnter_inv {s : State} (h : Inv s) : ∀ x, Inv (runEnter x s) := fun x => by
  have h1 := transition_inv h .run 14
  unfold runEnter
  dsimp only
  generalize transition .run 14 s = t at h1 ⊢
  with_reducible refine hingeRun_inv (runCores_inv (runBanks_inv (vectorApply_inv (runSupply_inv (benchService_inv (shPower_inv
    (poolStart_inv (runCore_inv (setDomain_inv (domainsTo_inv ?_ _ _) _ _) _)))) _))) _)
  exact { h1 with chans := (List.length_map _).trans h1.chans, branches := rfl, slotsRx := rfl, slotsTx := rfl }
theorem runDue_inv {s : State} (h : Inv s) : Inv (runDue s) := by
  unfold runDue
  try dsimp only
  repeat' (first
    | assumption
    | with_reducible apply runEnter_inv
    | split
    | intro _)

theorem runCount_inv {s : State} (h : Inv s) : Inv (runCount s) := by
  unfold runCount
  try dsimp only
  repeat' (first
    | assumption
    | split
    | (with_reducible refine Inv.upd ?_ (fun k => { k with }))
    | intro _)

theorem controlBanks_inv {s : State} (h : Inv s) : Inv (controlBanks s) := by
  unfold controlBanks
  exact foldl_inv _ h (fun _ _ hs => ite_inv (drawn_inv (dataCoreMod_inv _ hs (fun _ hc => bankLost_inv _ _ hc))) hs)
theorem ownersPass_inv {s : State} (h : Inv s) : ∀ a0 a1, Inv (ownersPass a0 a1 s) := by
  intro a b
  exact { h with bufs := smWfFrom_mapFilter (fun x : Buf => if x.owner = a then { x with owner := b } else x) h.bufs }
theorem revertControl_inv {s : State} (h : Inv s) : Inv (revertControl s) := by
  unfold revertControl
  refine ite_inv ?_ h
  have h1 : Inv { s with cr := { s.cr with
      rxc := coreStop s.cr.rxc, active := 0, pxcYielded := false, repairing := false, revert := .none } } :=
    { h with rxc := coreStop_inv h.rxc }
  have h2 := raise_inv 0x810A noInst [] (orderDone_inv (controlBanks_inv (ownersPass_inv h1 0x31 0x30)) 0xFF 0x8108)
  exact ite_inv (watchLoad_inv (ite_inv (transition_inv h2 _ _) h2)) (rxcRetire_inv (ite_inv (transition_inv h2 _ _) h2))
theorem takeoverControl_inv {s : State} (h : Inv s) : Inv (takeoverControl s) := by
  unfold takeoverControl
  split
  · exact h
  · with_reducible refine ite_inv (raise_inv _ _ _ (controlBanks_inv (ownersPass_inv ?_ _ _))) ?_
    · exact { h with }
    · exact { h with }
theorem benchAge_inv {s : State} (h : Inv s) : Inv (benchAge s) := by
  unfold benchAge
  try dsimp only
  repeat' (first
    | assumption
    | with_reducible apply benchShow_inv
    | with_reducible apply raise_inv
    | (with_reducible apply foldl_inv)
    | split
    | (with_reducible refine Inv.upd ?_ (fun k => { k with }))
    | intro _)

theorem cycleTail_inv {s : State} (h : Inv s) : Inv (cycleTail s) := by
  unfold cycleTail
  try dsimp only
  repeat' (first
    | assumption
    | with_reducible apply revertControl_inv
    | with_reducible apply takeoverControl_inv
    | with_reducible apply tfCycle_inv
    | with_reducible apply vectorApply_inv
    | with_reducible apply benchAge_inv
    | split
    | (with_reducible refine Inv.upd ?_ (fun k => ?_); on_goal 2 => (first | exact { k with } | exact ⟨by first | exact k.mem | exact nvWrite_wf _ _ k.mem | exact smWf_smPutBytes _ _ k.mem, by first | exact k.doms | (simp only [List.length_modify, List.length_set, List.length_map, List.length_zipIdx, List.length_replicate, List.length_range]; first | done | exact k.doms) | rfl, by first | exact k.ports | (simp only [List.length_modify, List.length_set, List.length_map, List.length_zipIdx, List.length_replicate, List.length_range]; first | done | exact k.ports) | rfl, by first | exact k.tx | (simp only [List.length_modify, List.length_set, List.length_map, List.length_zipIdx, List.length_replicate, List.length_range]; first | done | exact k.tx) | rfl, by first | exact k.fwd | (simp only [List.length_modify, List.length_set, List.length_map, List.length_zipIdx, List.length_replicate, List.length_range]; first | done | exact k.fwd) | rfl, by first | exact k.branches | (simp only [List.length_modify, List.length_set, List.length_map, List.length_zipIdx, List.length_replicate, List.length_range]; first | done | exact k.branches) | rfl, by first | exact k.slotsRx | (simp only [List.length_modify, List.length_set, List.length_map, List.length_zipIdx, List.length_replicate, List.length_range]; first | done | exact k.slotsRx) | rfl, by first | exact k.slotsTx | (simp only [List.length_modify, List.length_set, List.length_map, List.length_zipIdx, List.length_replicate, List.length_range]; first | done | exact k.slotsTx) | rfl, by first | exact k.eqPorts | (simp only [List.length_modify, List.length_set, List.length_map, List.length_zipIdx, List.length_replicate, List.length_range]; first | done | exact k.eqPorts) | rfl, by first | exact k.chans | (simp only [List.length_modify, List.length_set, List.length_map, List.length_zipIdx, List.length_replicate, List.length_range]; first | done | exact k.chans) | rfl, by first | exact k.banks | (simp only [List.length_modify, List.length_set, List.length_map, List.length_zipIdx, List.length_replicate, List.length_range]; first | done | exact k.banks) | rfl, by first | exact k.drawers | (simp only [List.length_modify, List.length_set, List.length_map, List.length_zipIdx, List.length_replicate, List.length_range]; first | done | exact k.drawers) | rfl, by first | exact k.keys | (simp only [List.length_modify, List.length_set, List.length_map, List.length_zipIdx, List.length_replicate, List.length_range]; first | done | exact k.keys) | rfl, by first | exact k.refusals | (simp only [List.length_modify, List.length_set, List.length_map, List.length_zipIdx, List.length_replicate, List.length_range]; first | done | exact k.refusals) | rfl, by first | exact k.staged | (simp only [List.length_modify, List.length_set, List.length_map, List.length_zipIdx, List.length_replicate, List.length_range]; first | done | exact k.staged) | rfl, by first | exact k.copies | (simp only [List.length_modify, List.length_set, List.length_map, List.length_zipIdx, List.length_replicate, List.length_range]; first | done | exact k.copies) | rfl, by first | exact k.latches | (simp only [List.length_modify, List.length_set, List.length_map, List.length_zipIdx, List.length_replicate, List.length_range]; first | done | exact k.latches) | rfl, by first | exact k.pxc | (repeat' first | exact k.pxc | exact k.rxc | exact core_default_inv | apply coreLoad_inv | apply coreStop_inv | apply chkScatter_inv | apply coreOff_inv | apply taskStart_inv), by first | exact k.rxc | (repeat' first | exact k.pxc | exact k.rxc | exact core_default_inv | apply coreLoad_inv | apply coreStop_inv | apply chkScatter_inv | apply coreOff_inv | apply taskStart_inv), by first | exact k.opl | simp | (simp only [List.length_modify, List.length_set, List.length_map, List.length_zipIdx, List.length_replicate, List.length_range]; exact k.opl), by first | exact k.bufs | exact smWf_smPut _ _ k.bufs | rfl, by first | exact k.caps | exact smWf_smPut _ _ k.caps | rfl, by first | exact k.capsPrev | exact smWf_smPut _ _ k.capsPrev | rfl, by first | exact k.tickets | exact Nat.mod_lt _ (by decide) | decide⟩))
    | intro _)

theorem cycleSteps_inv {s : State} (h : Inv s) : ∀ e, Inv (cycleSteps e s) := fun e => by
  have h1 := resetDue_inv (cmdsRun_inv (runDue_inv (runCount_inv (shCycle_inv (forcesExpire_inv (lockAge_inv
    (cfgCheck_inv (shadowsApply_inv h))))))))
  unfold cycleSteps
  dsimp only
  with_reducible exact ite_inv (cycleTail_inv (ordersRun_inv h1 e)) h1
theorem pauseExpiry_inv {s : State} (h : Inv s) : ∀ a0 a1, Inv (pauseExpiry a0 a1 s) := by
  intro a0 a1
  unfold pauseExpiry
  try dsimp only
  repeat' (first
    | assumption
    | with_reducible apply eqStart_inv
    | with_reducible apply eqMod_inv
    | split
    | (with_reducible refine Inv.upd ?_ (fun k => { k with }))
    | intro _)

theorem wakePatternMatch_inv {s : State} (h : Inv s) : ∀ a0 a1, Inv (wakePatternMatch a0 a1 s) := by
  intro a0 a1
  unfold wakePatternMatch
  try dsimp only
  repeat' (first
    | assumption
    | with_reducible apply wakeLatched_inv
    | (with_reducible apply elim_inv)
    | split
    | intro _)

theorem holdupMeasure_inv {s : State} (h : Inv s) : ∀ a0, Inv (holdupMeasure a0 s) := by
  intro a0
  unfold holdupMeasure
  try dsimp only
  repeat' (first
    | assumption
    | with_reducible apply raise_inv
    | split
    | (with_reducible refine Inv.upd ?_ (fun k => { k with }))
    | intro _)

theorem domainSettled_inv {s : State} (h : Inv s) : ∀ a0, Inv (domainSettled a0 s) := by
  intro a0
  unfold domainSettled
  try dsimp only
  repeat' (first
    | assumption
    | with_reducible apply reach_inv
    | split
    | intro _)

theorem challenge_inv {s : State} (h : Inv s) : ∀ a0, Inv (challenge a0 s) := by
  intro a0
  unfold challenge
  try dsimp only
  repeat' (first
    | assumption
    | with_reducible apply pduSend_inv
    | with_reducible apply sessionPut_inv
    | (with_reducible apply elim_inv)
    | split
    | (with_reducible refine Inv.upd ?_ (fun k => { k with }))
    | intro _)

theorem nvOpDone_inv {s : State} (h : Inv s) : ∀ a0, Inv (nvOpDone a0 s) := by
  intro a0
  unfold nvOpDone
  try dsimp only
  repeat' (first
    | assumption
    | with_reducible apply nvFinish_inv
    | with_reducible apply keyGone_inv
    | with_reducible apply challenge_inv
    | split
    | intro _)

theorem mpostTakeOp_inv {s : State} (h : Inv s) : ∀ d c, Inv (mpostTakeOp d c s) := fun d c => by
  unfold mpostTakeOp
  split
  · with_reducible refine activeMod_inv _ h (fun c hc => ?_)
    have h' := regPut_inv d 0xFFFFFFFF hc
    exact ⟨h'.regs, h'.rets, h'.loops, h'.data⟩
  next b src r _ =>
    with_reducible refine activeMod_inv _ (chainOwner_inv ?_ _ _) (fun c hc => ?_)
    · exact { h with }
    · have h' := regPut_inv d (w32 (b % 4096 + src.toNat * 65536)) hc
      exact ⟨h'.regs, h'.rets, h'.loops, h'.data⟩
theorem pllLockRegained_inv {s : State} (h : Inv s) : Inv (pllLockRegained s) := by
  unfold pllLockRegained
  try dsimp only
  repeat' (first
    | assumption
    | with_reducible apply raise_inv
    | split
    | (with_reducible refine Inv.upd ?_ (fun k => { k with }))
    | intro _)

theorem exchange_inv {s : State} (h : Inv s) : ∀ a0 a1 a2, Inv (exchange a0 a1 a2 s) := by
  intro a0 a1 a2
  unfold exchange
  try dsimp only
  repeat' (first
    | assumption
    | with_reducible apply hpMod_inv
    | with_reducible apply raise_inv
    | split
    | (with_reducible refine Inv.upd ?_ (fun k => { k with }))
    | intro _)

theorem admitSend_inv {s : State} (h : Inv s) : Inv (admitSend s) := by
  unfold admitSend
  try dsimp only
  repeat' (first
    | assumption
    | with_reducible apply hingeOwn_inv
    | split
    | (with_reducible refine Inv.upd ?_ (fun k => { k with }))
    | intro _)

theorem driveB_inv {s : State} (h : Inv s) : ∀ a0, Inv (driveB a0 s) := by
  intro a0
  unfold driveB
  try dsimp only
  repeat' (first
    | assumption
    | split
    | (with_reducible refine Inv.upd ?_ (fun k => { k with }))
    | intro _)

theorem latePath_inv {s : State} (h : Inv s) : ∀ a0, Inv (latePath a0 s) := by
  intro a0
  unfold latePath
  try dsimp only
  repeat' (first
    | assumption
    | with_reducible apply admitSend_inv
    | with_reducible apply raise_inv
    | with_reducible apply driveB_inv
    | split
    | (with_reducible refine Inv.upd ?_ (fun k => { k with }))
    | intro _)

theorem probeRspRx_inv {s : State} (h : Inv s) : ∀ a0 a1 a2 a3 a4 a5 a6, Inv (probeRspRx a0 a1 a2 a3 a4 a5 a6 s) := by
  intro a0 a1 a2 a3 a4 a5 a6
  unfold probeRspRx
  try dsimp only
  repeat' (first
    | assumption
    | with_reducible apply hpMod_inv
    | with_reducible apply exchange_inv
    | with_reducible apply latePath_inv
    | with_reducible apply probePort_inv
    | split
    | (with_reducible refine Inv.upd ?_ (fun k => { k with }))
    | intro _)

theorem wakeInDetect_inv {s : State} (h : Inv s) : Inv (wakeInDetect s) := by
  unfold wakeInDetect
  try dsimp only
  repeat' (first
    | assumption
    | with_reducible apply wakeLatched_inv
    | split
    | (with_reducible refine Inv.upd ?_ (fun k => { k with }))
    | intro _)

theorem lateRequest_inv {s : State} (h : Inv s) : Inv (lateRequest s) := by
  unfold lateRequest
  try dsimp only
  repeat' (first
    | assumption
    | with_reducible apply raise_inv
    | split
    | intro _)

theorem quiesceWrites_inv {s : State} (h : Inv s) : Inv (quiesceWrites s) := by
  have h1 := incTrailer_inv h.logs
  exact { h with opl := h1.opl, latches := h1.latches }
theorem shQuiesce_inv {s : State} (h : Inv s) : Inv (shQuiesce s) := by
  unfold shQuiesce
  try dsimp only
  repeat' (first
    | assumption
    | with_reducible apply chainFree_inv
    | with_reducible apply shSet_inv
    | split
    | (with_reducible refine Inv.upd ?_ (fun k => { k with }))
    | intro _)

theorem benchQuiesce_inv {s : State} (h : Inv s) : Inv (benchQuiesce s) := by
  unfold benchQuiesce
  try dsimp only
  repeat' (first
    | assumption
    | with_reducible apply raise_inv
    | split
    | (with_reducible refine Inv.upd ?_ (fun k => { k with }))
    | intro _)

theorem driveA_inv {s : State} (h : Inv s) : ∀ a0, Inv (driveA a0 s) := by
  intro a0
  unfold driveA
  try dsimp only
  repeat' (first
    | assumption
    | split
    | (with_reducible refine Inv.upd ?_ (fun k => { k with }))
    | intro _)

theorem phyGate_inv {s : State} (h : Inv s) : Inv (phyGate s) := by
  unfold phyGate
  exact foldl_inv _ h (fun _ _ hs => setDomain_inv hs _ _)
theorem quiesceStops_inv {s : State} (h : Inv s) : Inv (quiesceStops s) := by
  have h1 := forcesEnd_inv h 3
  unfold quiesceStops
  generalize forcesEnd 3 s = t at h1 ⊢
  dsimp only
  with_reducible refine phyGate_inv (domainsTo_inv (driveB_inv (driveA_inv ?_ false) false) _ _)
  generalize hx : shQuiesce _ = x
  have h2 : Inv x := by
    rw [← hx]
    with_reducible refine shQuiesce_inv ?_
    exact { h1 with pxc := coreStop_inv h1.pxc, rxc := coreStop_inv h1.rxc }
  have h3 := benchQuiesce_inv (domainsTo_inv h2 .off (List.map (fun x => x + 38) (List.range 68) ++ [120]))
  generalize benchQuiesce _ = y at h3 ⊢
  exact { h3 with }
theorem quiesceEnter_inv {s : State} (h : Inv s) : Inv (quiesceEnter s) :=
  quiesceWrites_inv (quiesceStops_inv (sessionClose_inv (sessionClose_inv (revertCancel_inv (abandonCommands_inv (nvCut_inv
    (transition_inv (lateRequest_inv h) _ _)) _) _) _ _) _ _))
theorem cycleBody_inv {s : State} (h : Inv s) : ∀ e, Inv (cycleBody e s) := fun e => by
  unfold cycleBody
  with_reducible refine ite_inv (cfgCheck_inv (shadowsApply_inv h)) (ite_inv (cycleSteps_inv ?_ e)
    (ite_inv (quiesceEnter_inv h) (cycleSteps_inv h e)))
  exact { h with }
theorem budgetWatchdog_inv {s : State} (h : Inv s) : Inv (budgetWatchdog s) := by
  unfold budgetWatchdog
  try dsimp only
  repeat' (first
    | assumption
    | with_reducible apply activeCore_inv
    | with_reducible apply yieldNow_inv
    | split
    | (with_reducible refine Inv.upd ?_ (fun k => { k with }))
    | intro _)

theorem coreOp_inv {s : State} (h : Inv s) (f : Core → Core) (c : Core) (hf : ∀ c, CoreInv c → CoreInv (f c)) :
    Inv (coreOp f c s) := continueFrom_inv (activeMod_inv f h hf) _
theorem waitOp_inv {s : State} (h : Inv s) : ∀ a0, Inv (waitOp a0 s) := by
  intro a0
  unfold waitOp
  try dsimp only
  repeat' (first
    | assumption
    | with_reducible apply instr_inv
    | with_reducible apply coreOp_inv
    | split
    | intro _)

theorem refuse_inv {s : State} (h : Inv s) : ∀ a0 a1 a2 a3 a4, Inv (refuse a0 a1 a2 a3 a4 s) := by
  intro a0 a1 a2 a3 a4
  unfold refuse
  try dsimp only
  repeat' (first
    | assumption
    | with_reducible apply refusedEvent_inv
    | with_reducible apply activeMod_inv
    | with_reducible apply refuseCore_inv
    | with_reducible apply refuseCore_inv
    | exact (⟨CoreInv.regs (by assumption), CoreInv.rets (by assumption), CoreInv.loops (by assumption), CoreInv.data (by assumption)⟩ : CoreInv _)
    | split
    | intro _)

theorem vsndWordOp_inv {s : State} (h : Inv s) : ∀ a0 a1 a2 a3, Inv (vsndWordOp a0 a1 a2 a3 s) := by
  intro a0 a1 a2 a3
  unfold vsndWordOp
  try dsimp only
  repeat' (first
    | assumption
    | with_reducible apply refuse_inv
    | with_reducible apply activeMod_inv
    | with_reducible apply slotMod_inv
    | with_reducible apply done_inv
    | exact (⟨CoreInv.regs (by assumption), CoreInv.rets (by assumption), CoreInv.loops (by assumption), CoreInv.data (by assumption)⟩ : CoreInv _)
    | split
    | intro _)

theorem surgeClose_inv {s : State} (h : Inv s) : ∀ a0, Inv (surgeClose a0 s) := by
  intro a0
  unfold surgeClose
  try dsimp only
  repeat' (first
    | assumption
    | with_reducible apply clsPut_inv
    | with_reducible apply raise_inv
    | split
    | (with_reducible refine Inv.upd ?_ (fun k => { k with }))
    | intro _)

theorem transact_inv {s : State} (h : Inv s) : ∀ a0 a1 a2, Inv (transact a0 a1 a2 s).2.2 := by
  intro a0 a1 a2
  unfold transact
  try dsimp only
  repeat' (first
    | assumption
    | with_reducible apply raise_inv
    | with_reducible apply accessRead_inv
    | with_reducible apply accessWrite_inv
    | split
    | intro _)

theorem hostTransaction_inv {s : State} (h : Inv s) : ∀ a0 a1 a2, Inv (hostTransaction a0 a1 a2 s) := by
  intro a0 a1 a2
  unfold hostTransaction
  try dsimp only
  repeat' (first
    | assumption
    | with_reducible apply transact_inv
    | with_reducible apply emit_inv
    | with_reducible apply answer_inv
    | split
    | (with_reducible refine Inv.upd ?_ (fun k => { k with }))
    | intro _)

theorem haltOp_inv {s : State} (h : Inv s) : ∀ a0, Inv (haltOp a0 s) := by
  intro a0
  unfold haltOp
  try dsimp only
  repeat' (first
    | assumption
    | with_reducible apply activeMod_inv
    | with_reducible apply coreStop_inv
    | with_reducible apply yieldNow_inv
    | with_reducible apply coreStop_inv
    | exact (⟨CoreInv.regs (by assumption), CoreInv.rets (by assumption), CoreInv.loops (by assumption), CoreInv.data (by assumption)⟩ : CoreInv _)
    | split
    | intro _)

theorem benchDecide_inv {s : State} (h : Inv s) : Inv (benchDecide s) := by
  unfold benchDecide
  try dsimp only
  repeat' (first
    | assumption
    | with_reducible apply benchShow_inv
    | split
    | (with_reducible refine Inv.upd ?_ (fun k => { k with }))
    | intro _)

theorem benchEnd_inv {s : State} (h : Inv s) : ∀ a0 a1, Inv (benchEnd a0 a1 s) := by
  intro a0 a1
  unfold benchEnd
  try dsimp only
  repeat' (first
    | assumption
    | with_reducible apply benchShow_inv
    | with_reducible apply raiseTo_inv
    | with_reducible apply benchDecide_inv
    | split
    | (with_reducible refine Inv.upd ?_ (fun k => { k with }))
    | intro _)

theorem overClose_inv {s : State} (h : Inv s) : ∀ a0, Inv (overClose a0 s) := by
  intro a0
  unfold overClose
  try dsimp only
  repeat' (first
    | assumption
    | with_reducible apply clsPut_inv
    | with_reducible apply raise_inv
    | split
    | (with_reducible refine Inv.upd ?_ (fun k => { k with }))
    | intro _)

theorem intClose_inv {s : State} (h : Inv s) : ∀ a0, Inv (intClose a0 s) := by
  intro a0
  unfold intClose
  try dsimp only
  repeat' (first
    | assumption
    | with_reducible apply clsPut_inv
    | with_reducible apply raise_inv
    | split
    | (with_reducible refine Inv.upd ?_ (fun k => { k with }))
    | intro _)

theorem dipClose_inv {s : State} (h : Inv s) : ∀ a0, Inv (dipClose a0 s) := by
  intro a0
  unfold dipClose
  try dsimp only
  repeat' (first
    | assumption
    | with_reducible apply clsPut_inv
    | with_reducible apply raise_inv
    | split
    | (with_reducible refine Inv.upd ?_ (fun k => { k with }))
    | intro _)

theorem supplySample_inv {s : State} (h : Inv s) : ∀ a0 a1 a2, Inv (supplySample a0 a1 a2 s) := by
  intro a0 a1 a2
  unfold supplySample
  try dsimp only
  repeat' (first
    | assumption
    | with_reducible apply clsPut_inv
    | with_reducible apply overClose_inv
    | with_reducible apply surgeClose_inv
    | with_reducible apply intClose_inv
    | with_reducible apply dipClose_inv
    | split
    | (with_reducible refine Inv.upd ?_ (fun k => { k with }))
    | intro _)

theorem originAmendment_inv {s : State} (h : Inv s) : Inv (originAmendment s) := by
  unfold originAmendment
  try dsimp only
  repeat' (first
    | assumption
    | with_reducible apply hingeOwn_inv
    | (with_reducible apply foldl_inv)
    | (with_reducible apply elim_inv)
    | split
    | (with_reducible refine Inv.upd ?_ (fun k => { k with }))
    | intro _)

theorem vrcvWordOp_inv {s : State} (h : Inv s) : ∀ a0 a1 a2 a3, Inv (vrcvWordOp a0 a1 a2 a3 s) := by
  intro a0 a1 a2 a3
  unfold vrcvWordOp
  try dsimp only
  repeat' (first
    | assumption
    | with_reducible apply refuse_inv
    | with_reducible apply drawn_inv
    | with_reducible apply activeMod_inv
    | with_reducible apply answer_inv
    | with_reducible apply answer_inv
    | exact (⟨CoreInv.regs (by assumption), CoreInv.rets (by assumption), CoreInv.loops (by assumption), CoreInv.data (by assumption)⟩ : CoreInv _)
    | split
    | intro _)

theorem dmaStore_inv {s : State} (h : Inv s) : ∀ d b, Inv (dmaStore d b s) := fun d b => by
  unfold dmaStore
  split
  · exact dataCoreMod_inv _ h (fun _ hc => dataPutBytes_inv _ _ ⟨hc.regs, hc.rets, hc.loops, hc.data⟩)
  · exact { h with }
  · exact slotMod_inv _ _ h
  · exact h
theorem dmaCorrect_inv {s : State} (h : Inv s) : ∀ a0, Inv (dmaCorrect a0 s) := by
  intro a0
  unfold dmaCorrect
  try dsimp only
  repeat' (first
    | assumption
    | with_reducible apply raise_inv
    | with_reducible apply dataCoreMod_inv
    | with_reducible apply wordClean_inv
    | with_reducible apply wordClean_inv
    | exact (⟨CoreInv.regs (by assumption), CoreInv.rets (by assumption), CoreInv.loops (by assumption), CoreInv.data (by assumption)⟩ : CoreInv _)
    | (with_reducible apply foldl_inv)
    | split
    | intro _)

theorem dmaFire_inv {s : State} (h : Inv s) : ∀ a0, Inv (dmaFire a0 s) := by
  intro a0
  unfold dmaFire
  try dsimp only
  repeat' (first
    | assumption
    | with_reducible apply skipped_inv
    | with_reducible apply yieldNow_inv
    | with_reducible apply dmaStore_inv
    | with_reducible apply dmaCorrect_inv
    | (with_reducible apply elim_inv)
    | split
    | intro _)

theorem vsndCompleteOp_inv {s : State} (h : Inv s) : ∀ a0 a1 a2 a3, Inv (vsndCompleteOp a0 a1 a2 a3 s) := by
  intro a0 a1 a2 a3
  unfold vsndCompleteOp
  try dsimp only
  repeat' (first
    | assumption
    | with_reducible apply refuse_inv
    | with_reducible apply activeMod_inv
    | with_reducible apply slotMod_inv
    | with_reducible apply done_inv
    | exact (⟨CoreInv.regs (by assumption), CoreInv.rets (by assumption), CoreInv.loops (by assumption), CoreInv.data (by assumption)⟩ : CoreInv _)
    | split
    | (with_reducible refine Inv.upd ?_ (fun k => { k with }))
    | intro _)

theorem guardianCutPoint_inv {s : State} (h : Inv s) : ∀ a0, Inv (guardianCutPoint a0 s) := by
  intro a0
  unfold guardianCutPoint
  try dsimp only
  repeat' (first
    | assumption
    | with_reducible apply guardianCut_inv
    | split
    | intro _)

theorem probeInterval_inv {s : State} (h : Inv s) : Inv (probeInterval s) := by
  unfold probeInterval
  try dsimp only
  repeat' (first
    | assumption
    | with_reducible apply probePort_inv
    | (with_reducible apply foldl_inv)
    | split
    | intro _)

theorem cntrOp_inv {s : State} (h : Inv s) : ∀ a0 a1 a2 a3, Inv (cntrOp a0 a1 a2 a3 s) := by
  intro a0 a1 a2 a3
  unfold cntrOp
  try dsimp only
  repeat' (first
    | assumption
    | with_reducible apply refuse_inv
    | with_reducible apply activeMod_inv
    | with_reducible apply answer_inv
    | with_reducible apply answer_inv
    | exact (⟨CoreInv.regs (by assumption), CoreInv.rets (by assumption), CoreInv.loops (by assumption), CoreInv.data (by assumption)⟩ : CoreInv _)
    | split
    | intro _)

theorem burstQuiet_inv {s : State} (h : Inv s) : Inv (burstQuiet s) := by
  unfold burstQuiet
  try dsimp only
  repeat' (first
    | assumption
    | with_reducible apply driveA_inv
    | split
    | (with_reducible refine Inv.upd ?_ (fun k => { k with }))
    | intro _)

theorem memRead_inv {s : State} (h : Inv s) (n : Nat) (a : BitVec 5) (imm : Half) (f : Nat → Core → Core) (c : Core)
    (hf : ∀ x c, CoreInv c → CoreInv (f x c)) : Inv (memRead n a imm f c s) := by
  unfold memRead
  dsimp only
  split
  · exact yieldNow_inv h _
  split
  · exact yieldNow_inv h _
  · exact coreOp_inv (raise_inv _ _ _ h) _ _ (fun c hc => hf _ _ (wordClean_inv _ hc))
  · exact coreOp_inv h _ _ (hf _)
theorem load_inv {s : State} (h : Inv s) : ∀ a0 a1 a2 a3, Inv (load a0 a1 a2 a3 s) := by
  intro a0 a1 a2 a3
  unfold load
  try dsimp only
  repeat' (first
    | assumption
    | with_reducible apply instr_inv
    | with_reducible apply memRead_inv
    | with_reducible apply regPut_inv
    | with_reducible apply regPut_inv
    | split
    | intro _)

theorem limpApply_inv {s : State} (h : Inv s) : Inv (limpApply s) := by
  unfold limpApply
  try dsimp only
  repeat' (first
    | assumption
    | with_reducible apply resetDue_inv
    | with_reducible apply cmdsRun_inv
    | split
    | (with_reducible refine Inv.upd ?_ (fun k => { k with }))
    | intro _)

theorem admitRefused_inv {s : State} (h : Inv s) : ∀ a0, Inv (admitRefused a0 s) := by
  intro a0
  unfold admitRefused
  try dsimp only
  repeat' (first
    | assumption
    | with_reducible apply raise_inv
    | with_reducible apply driveB_inv
    | with_reducible apply driveA_inv
    | split
    | (with_reducible refine Inv.upd ?_ (fun k => { k with }))
    | intro _)

theorem admitRefRx_inv {s : State} (h : Inv s) : ∀ a0 a1 a2 a3, Inv (admitRefRx a0 a1 a2 a3 s) := by
  intro a0 a1 a2 a3
  unfold admitRefRx
  try dsimp only
  repeat' (first
    | assumption
    | with_reducible apply admitRefused_inv
    | with_reducible apply hingeFwd_inv
    | split
    | intro _)

theorem countChannel_inv {s : State} (h : Inv s) : ∀ a0, Inv (countChannel a0 s) := by
  intro a0
  unfold countChannel
  try dsimp only
  repeat' (first
    | assumption
    | with_reducible apply memSettle_inv
    | with_reducible apply chanMod_inv
    | split
    | (with_reducible refine Inv.upd ?_ (fun k => { k with }))
    | intro _)

theorem benchSlotRun_inv {s : State} (h : Inv s) : ∀ a0, Inv (benchSlotRun a0 s) := by
  intro a0
  unfold benchSlotRun
  try dsimp only
  repeat' (first
    | assumption
    | with_reducible apply gridFire_inv
    | with_reducible apply onDomain_inv
    | with_reducible apply benchDecide_inv
    | split
    | (with_reducible refine Inv.upd ?_ (fun k => { k with }))
    | intro _)

theorem cfgStore_inv {s : State} (h : Inv s) : Inv (cfgStore s) := by
  unfold cfgStore
  try dsimp only
  repeat' (first
    | assumption
    | split
    | (with_reducible refine Inv.upd ?_ (fun k => { k with }))
    | intro _)

theorem eqLinkUp_inv {s : State} (h : Inv s) : ∀ a0 a1, Inv (eqLinkUp a0 a1 s) := by
  intro a0 a1
  unfold eqLinkUp
  try dsimp only
  repeat' (first
    | assumption
    | with_reducible apply eqMod_inv
    | with_reducible apply pfcCheck_inv
    | with_reducible apply raise_inv
    | (with_reducible apply elim_inv)
    | split
    | (with_reducible refine Inv.upd ?_ (fun k => { k with }))
    | intro _)

theorem pwrOnRun_inv {s : State} (h : Inv s) : ∀ a0, Inv (pwrOnRun a0 s) := by
  intro a0
  unfold pwrOnRun
  try dsimp only
  repeat' (first
    | assumption
    | with_reducible apply gridFire_inv
    | with_reducible apply planFire_inv
    | split
    | intro _)

theorem pllRetry_inv {s : State} (h : Inv s) : Inv (pllRetry s) := by
  unfold pllRetry
  try dsimp only
  repeat' (first
    | assumption
    | split
    | (with_reducible refine Inv.upd ?_ (fun k => { k with }))
    | intro _)

theorem macControl_inv {s : State} (h : Inv s) : ∀ a0 a1, Inv (macControl a0 a1 s) := by
  intro a0 a1
  unfold macControl
  try dsimp only
  repeat' (first
    | assumption
    | with_reducible apply eqMod_inv
    | with_reducible apply eqStart_inv
    | split
    | (with_reducible refine Inv.upd ?_ (fun k => { k with }))
    | intro _)

theorem benchRequestEnd_inv {s : State} (h : Inv s) : ∀ a0 a1, Inv (benchRequestEnd a0 a1 s) := by
  intro a0 a1
  unfold benchRequestEnd
  try dsimp only
  repeat' (first
    | assumption
    | with_reducible apply benchEnd_inv
    | with_reducible apply repairEnd_inv
    | (with_reducible apply elim_inv)
    | split
    | intro _)

theorem wakeChannelDetect_inv {s : State} (h : Inv s) : Inv (wakeChannelDetect s) := by
  unfold wakeChannelDetect
  try dsimp only
  repeat' (first
    | assumption
    | with_reducible apply wakeLatched_inv
    | split
    | intro _)

theorem vnSlotTx_inv {s : State} (h : Inv s) : ∀ a0, Inv (vnSlotTx a0 s) := by
  intro a0
  unfold vnSlotTx
  try dsimp only
  repeat' (first
    | assumption
    | with_reducible apply emit_inv
    | with_reducible apply gotMod_inv
    | split
    | (with_reducible refine Inv.upd ?_ (fun k => { k with }))
    | intro _)

theorem vnCommitRun_inv {s : State} (h : Inv s) : ∀ a0, Inv (vnCommitRun a0 s) := by
  intro a0
  unfold vnCommitRun
  try dsimp only
  repeat' (first
    | assumption
    | with_reducible apply gridFire_inv
    | with_reducible apply vnCommitFire_inv
    | split
    | intro _)

theorem probeRx_inv {s : State} (h : Inv s) : ∀ a0 a1 a2 a3 a4, Inv (probeRx a0 a1 a2 a3 a4 s) := by
  intro a0 a1 a2 a3 a4
  unfold probeRx
  try dsimp only
  repeat' (first
    | assumption
    | with_reducible apply resettle_inv
    | with_reducible apply hpMod_inv
    | with_reducible apply hingeOwn_inv
    | split
    | (with_reducible refine Inv.upd ?_ (fun k => { k with }))
    | intro _)

theorem tfOutbound_inv {s : State} (h : Inv s) : ∀ a0 a1 a2, Inv (tfOutbound a0 a1 a2 s) := by
  intro a0 a1 a2
  unfold tfOutbound
  try dsimp only
  repeat' (first
    | assumption
    | with_reducible apply lineTimeMod_inv
    | with_reducible apply badCopy_inv
    | with_reducible apply emit_inv
    | with_reducible apply shortTurn_inv
    | split
    | (with_reducible refine Inv.upd ?_ (fun k => { k with }))
    | intro _)

theorem chkLand_inv {s : State} (h : Inv s) : ∀ a0 a1, Inv (chkLand a0 a1 s) := by
  intro a0 a1
  unfold chkLand
  try dsimp only
  repeat' (first
    | assumption
    | with_reducible apply activeCore_inv
    | with_reducible apply revertOverlay_inv
    | split
    | (with_reducible refine Inv.upd ?_ (fun k => ?_); on_goal 2 => (first | exact { k with } | exact ⟨by first | exact k.mem | exact nvWrite_wf _ _ k.mem | exact smWf_smPutBytes _ _ k.mem, by first | exact k.doms | (simp only [List.length_modify, List.length_set, List.length_map, List.length_zipIdx, List.length_replicate, List.length_range]; first | done | exact k.doms) | rfl, by first | exact k.ports | (simp only [List.length_modify, List.length_set, List.length_map, List.length_zipIdx, List.length_replicate, List.length_range]; first | done | exact k.ports) | rfl, by first | exact k.tx | (simp only [List.length_modify, List.length_set, List.length_map, List.length_zipIdx, List.length_replicate, List.length_range]; first | done | exact k.tx) | rfl, by first | exact k.fwd | (simp only [List.length_modify, List.length_set, List.length_map, List.length_zipIdx, List.length_replicate, List.length_range]; first | done | exact k.fwd) | rfl, by first | exact k.branches | (simp only [List.length_modify, List.length_set, List.length_map, List.length_zipIdx, List.length_replicate, List.length_range]; first | done | exact k.branches) | rfl, by first | exact k.slotsRx | (simp only [List.length_modify, List.length_set, List.length_map, List.length_zipIdx, List.length_replicate, List.length_range]; first | done | exact k.slotsRx) | rfl, by first | exact k.slotsTx | (simp only [List.length_modify, List.length_set, List.length_map, List.length_zipIdx, List.length_replicate, List.length_range]; first | done | exact k.slotsTx) | rfl, by first | exact k.eqPorts | (simp only [List.length_modify, List.length_set, List.length_map, List.length_zipIdx, List.length_replicate, List.length_range]; first | done | exact k.eqPorts) | rfl, by first | exact k.chans | (simp only [List.length_modify, List.length_set, List.length_map, List.length_zipIdx, List.length_replicate, List.length_range]; first | done | exact k.chans) | rfl, by first | exact k.banks | (simp only [List.length_modify, List.length_set, List.length_map, List.length_zipIdx, List.length_replicate, List.length_range]; first | done | exact k.banks) | rfl, by first | exact k.drawers | (simp only [List.length_modify, List.length_set, List.length_map, List.length_zipIdx, List.length_replicate, List.length_range]; first | done | exact k.drawers) | rfl, by first | exact k.keys | (simp only [List.length_modify, List.length_set, List.length_map, List.length_zipIdx, List.length_replicate, List.length_range]; first | done | exact k.keys) | rfl, by first | exact k.refusals | (simp only [List.length_modify, List.length_set, List.length_map, List.length_zipIdx, List.length_replicate, List.length_range]; first | done | exact k.refusals) | rfl, by first | exact k.staged | (simp only [List.length_modify, List.length_set, List.length_map, List.length_zipIdx, List.length_replicate, List.length_range]; first | done | exact k.staged) | rfl, by first | exact k.copies | (simp only [List.length_modify, List.length_set, List.length_map, List.length_zipIdx, List.length_replicate, List.length_range]; first | done | exact k.copies) | rfl, by first | exact k.latches | (simp only [List.length_modify, List.length_set, List.length_map, List.length_zipIdx, List.length_replicate, List.length_range]; first | done | exact k.latches) | rfl, by first | exact k.pxc | (repeat' first | exact k.pxc | exact k.rxc | exact core_default_inv | apply coreLoad_inv | apply coreStop_inv | apply chkScatter_inv | apply coreOff_inv | apply taskStart_inv), by first | exact k.rxc | (repeat' first | exact k.pxc | exact k.rxc | exact core_default_inv | apply coreLoad_inv | apply coreStop_inv | apply chkScatter_inv | apply coreOff_inv | apply taskStart_inv), by first | exact k.opl | simp | (simp only [List.length_modify, List.length_set, List.length_map, List.length_zipIdx, List.length_replicate, List.length_range]; exact k.opl), by first | exact k.bufs | exact smWf_smPut _ _ k.bufs | rfl, by first | exact k.caps | exact smWf_smPut _ _ k.caps | rfl, by first | exact k.capsPrev | exact smWf_smPut _ _ k.capsPrev | rfl, by first | exact k.tickets | exact Nat.mod_lt _ (by decide) | decide⟩))
    | intro _)

theorem publishNone_inv {s : State} (h : Inv s) : Inv (publishNone s) := by
  unfold publishNone
  try dsimp only
  repeat' (first
    | assumption
    | split
    | (with_reducible refine Inv.upd ?_ (fun k => { k with }))
    | intro _)

theorem publish_inv {s : State} (h : Inv s) : ∀ a0 a1, Inv (publish a0 a1 s) := by
  intro a0 a1
  unfold publish
  try dsimp only
  repeat' (first
    | assumption
    | split
    | (with_reducible refine Inv.upd ?_ (fun k => { k with }))
    | intro _)

theorem tfRead_inv {s : State} (h : Inv s) : Inv (tfRead s) := by
  unfold tfRead
  try dsimp only
  repeat' (first
    | assumption
    | with_reducible apply acceptCopy_inv
    | with_reducible apply publishNone_inv
    | with_reducible apply publish_inv
    | with_reducible apply raise_inv
    | with_reducible apply sleepWatch_inv
    | split
    | (with_reducible refine Inv.upd ?_ (fun k => { k with }))
    | intro _)

theorem inbandIdleTimeout_inv {s : State} (h : Inv s) : ∀ a0, Inv (inbandIdleTimeout a0 s) := by
  intro a0
  unfold inbandIdleTimeout
  try dsimp only
  repeat' (first
    | assumption
    | with_reducible apply sessionClose_inv
    | split
    | intro _)

theorem quiesceDone_inv {s : State} (h : Inv s) : Inv (quiesceDone s) := by
  unfold quiesceDone
  try dsimp only
  repeat' (first
    | assumption
    | with_reducible apply goSleep_inv
    | split
    | intro _)

theorem flushJnv_inv {s : State} (h : Inv s) : ∀ n, Inv (flushJnv n s) := by
  intro n
  induction n generalizing s with
  | zero => exact h
  | succ n ih =>
    unfold flushJnv
    split
    · exact h
    next c compl _ =>
      dsimp only
      generalize jnvBytes c.ent compl s.cyc.cyc s.pwr.opsec = b
      have h1 := nvWrite_inv (jnvBase + jnvSeek s.nv 16384 s.nv.jnvPos) b h
      generalize jnvSeek s.nv 16384 s.nv.jnvPos = pos at h1 ⊢
      with_reducible refine ih (jnvMark_inv ?_ _)
      exact { h1 with }
theorem cfgDisarm_inv {s : State} (h : Inv s) : Inv (cfgDisarm s) := by
  unfold cfgDisarm
  try dsimp only
  repeat' (first
    | assumption
    | with_reducible apply pulse_inv
    | split
    | intro _)

theorem cycleBoundary_inv {s : State} (h : Inv s) : ∀ a0 a1, Inv (cycleBoundary a0 a1 s) := by
  intro a0 a1
  unfold cycleBoundary
  try dsimp only
  repeat' (first
    | assumption
    | split
    | (with_reducible refine Inv.upd ?_ (fun k => { k with }))
    | intro _)

theorem eqTxtsOp_inv {s : State} (h : Inv s) : ∀ a0 a1 a2, Inv (eqTxtsOp a0 a1 a2 s) := by
  intro a0 a1 a2
  unfold eqTxtsOp
  try dsimp only
  repeat' (first
    | assumption
    | with_reducible apply activeMod_inv
    | with_reducible apply answer_inv
    | with_reducible apply stampPop_inv
    | with_reducible apply answer_inv
    | exact (⟨CoreInv.regs (by assumption), CoreInv.rets (by assumption), CoreInv.loops (by assumption), CoreInv.data (by assumption)⟩ : CoreInv _)
    | split
    | intro _)

theorem chkpStatOp_inv {s : State} (h : Inv s) : ∀ a0 a1, Inv (chkpStatOp a0 a1 s) := by
  intro a0 a1
  unfold chkpStatOp
  try dsimp only
  repeat' (first
    | assumption
    | with_reducible apply activeMod_inv
    | with_reducible apply answer_inv
    | with_reducible apply drawn_inv
    | with_reducible apply answer_inv
    | exact (⟨CoreInv.regs (by assumption), CoreInv.rets (by assumption), CoreInv.loops (by assumption), CoreInv.data (by assumption)⟩ : CoreInv _)
    | split
    | intro _)

theorem lineDown2s_inv {s : State} (h : Inv s) : ∀ a0, Inv (lineDown2s a0 s) := by
  intro a0
  unfold lineDown2s
  try dsimp only
  repeat' (first
    | assumption
    | with_reducible apply raise_inv
    | split
    | intro _)

theorem takeoverOverlay_inv {s : State} (h : Inv s) : Inv (takeoverOverlay s) := by
  unfold takeoverOverlay
  try dsimp only
  repeat' (first
    | assumption
    | with_reducible apply chkScatter_inv
    | with_reducible apply drawn_inv
    | with_reducible apply raise_inv
    | with_reducible apply chkScatter_inv
    | split
    | (with_reducible refine Inv.upd ?_ (fun k => ?_); on_goal 2 => (first | exact { k with } | exact ⟨by first | exact k.mem | exact nvWrite_wf _ _ k.mem | exact smWf_smPutBytes _ _ k.mem, by first | exact k.doms | (simp only [List.length_modify, List.length_set, List.length_map, List.length_zipIdx, List.length_replicate, List.length_range]; first | done | exact k.doms) | rfl, by first | exact k.ports | (simp only [List.length_modify, List.length_set, List.length_map, List.length_zipIdx, List.length_replicate, List.length_range]; first | done | exact k.ports) | rfl, by first | exact k.tx | (simp only [List.length_modify, List.length_set, List.length_map, List.length_zipIdx, List.length_replicate, List.length_range]; first | done | exact k.tx) | rfl, by first | exact k.fwd | (simp only [List.length_modify, List.length_set, List.length_map, List.length_zipIdx, List.length_replicate, List.length_range]; first | done | exact k.fwd) | rfl, by first | exact k.branches | (simp only [List.length_modify, List.length_set, List.length_map, List.length_zipIdx, List.length_replicate, List.length_range]; first | done | exact k.branches) | rfl, by first | exact k.slotsRx | (simp only [List.length_modify, List.length_set, List.length_map, List.length_zipIdx, List.length_replicate, List.length_range]; first | done | exact k.slotsRx) | rfl, by first | exact k.slotsTx | (simp only [List.length_modify, List.length_set, List.length_map, List.length_zipIdx, List.length_replicate, List.length_range]; first | done | exact k.slotsTx) | rfl, by first | exact k.eqPorts | (simp only [List.length_modify, List.length_set, List.length_map, List.length_zipIdx, List.length_replicate, List.length_range]; first | done | exact k.eqPorts) | rfl, by first | exact k.chans | (simp only [List.length_modify, List.length_set, List.length_map, List.length_zipIdx, List.length_replicate, List.length_range]; first | done | exact k.chans) | rfl, by first | exact k.banks | (simp only [List.length_modify, List.length_set, List.length_map, List.length_zipIdx, List.length_replicate, List.length_range]; first | done | exact k.banks) | rfl, by first | exact k.drawers | (simp only [List.length_modify, List.length_set, List.length_map, List.length_zipIdx, List.length_replicate, List.length_range]; first | done | exact k.drawers) | rfl, by first | exact k.keys | (simp only [List.length_modify, List.length_set, List.length_map, List.length_zipIdx, List.length_replicate, List.length_range]; first | done | exact k.keys) | rfl, by first | exact k.refusals | (simp only [List.length_modify, List.length_set, List.length_map, List.length_zipIdx, List.length_replicate, List.length_range]; first | done | exact k.refusals) | rfl, by first | exact k.staged | (simp only [List.length_modify, List.length_set, List.length_map, List.length_zipIdx, List.length_replicate, List.length_range]; first | done | exact k.staged) | rfl, by first | exact k.copies | (simp only [List.length_modify, List.length_set, List.length_map, List.length_zipIdx, List.length_replicate, List.length_range]; first | done | exact k.copies) | rfl, by first | exact k.latches | (simp only [List.length_modify, List.length_set, List.length_map, List.length_zipIdx, List.length_replicate, List.length_range]; first | done | exact k.latches) | rfl, by first | exact k.pxc | (repeat' first | exact k.pxc | exact k.rxc | exact core_default_inv | apply coreLoad_inv | apply coreStop_inv | apply chkScatter_inv | apply coreOff_inv | apply taskStart_inv), by first | exact k.rxc | (repeat' first | exact k.pxc | exact k.rxc | exact core_default_inv | apply coreLoad_inv | apply coreStop_inv | apply chkScatter_inv | apply coreOff_inv | apply taskStart_inv), by first | exact k.opl | simp | (simp only [List.length_modify, List.length_set, List.length_map, List.length_zipIdx, List.length_replicate, List.length_range]; exact k.opl), by first | exact k.bufs | exact smWf_smPut _ _ k.bufs | rfl, by first | exact k.caps | exact smWf_smPut _ _ k.caps | rfl, by first | exact k.capsPrev | exact smWf_smPut _ _ k.capsPrev | rfl, by first | exact k.tickets | exact Nat.mod_lt _ (by decide) | decide⟩))
    | intro _)

theorem brOp_inv {s : State} (h : Inv s) : ∀ k i c, Inv (brOp k i c s) := fun k i c => by
  unfold brOp
  refine ite_inv (continueFrom_inv h _) (ite_inv (yieldNow_inv h _) (activeMod_inv _ h (fun c hc => ?_)))
  exact ⟨hc.regs, hc.rets, Nat.le_trans (popLoops_le _ _ _) hc.loops, hc.data⟩
theorem bufRefused_inv {s : State} (h : Inv s) : ∀ a0 a1 a2 a3, Inv (bufRefused a0 a1 a2 a3 s) := by
  intro a0 a1 a2 a3
  unfold bufRefused
  try dsimp only
  repeat' (first
    | assumption
    | with_reducible apply raise_inv
    | with_reducible apply activeMod_inv
    | with_reducible apply refuseCore_inv
    | with_reducible apply refuseCore_inv
    | exact (⟨CoreInv.regs (by assumption), CoreInv.rets (by assumption), CoreInv.loops (by assumption), CoreInv.data (by assumption)⟩ : CoreInv _)
    | split
    | intro _)

theorem bufWrOp_inv {s : State} (h : Inv s) : ∀ a0 a1 a2 a3, Inv (bufWrOp a0 a1 a2 a3 s) := by
  intro a0 a1 a2 a3
  unfold bufWrOp
  try dsimp only
  repeat' (first
    | assumption
    | with_reducible apply bufRefused_inv
    | with_reducible apply poolUncorr_inv
    | with_reducible apply activeMod_inv
    | with_reducible apply refuseCore_inv
    | with_reducible apply bufPut_inv
    | with_reducible apply refuseCore_inv
    | with_reducible apply done_inv
    | exact (⟨CoreInv.regs (by assumption), CoreInv.rets (by assumption), CoreInv.loops (by assumption), CoreInv.data (by assumption)⟩ : CoreInv _)
    | split
    | intro _)

theorem domainSwitchTimeout_inv {s : State} (h : Inv s) : ∀ a0, Inv (domainSwitchTimeout a0 s) := by
  intro a0
  unfold domainSwitchTimeout
  try dsimp only
  repeat' (first
    | assumption
    | with_reducible apply raise_inv
    | split
    | intro _)

theorem measureOne_inv {s : State} (h : Inv s) : ∀ a0 a1 a2, Inv (measureOne a0 a1 a2 s) := by
  intro a0 a1 a2
  unfold measureOne
  split
  · exact h
  · exact { h with caps := smWf_smPut _ _ h.caps, capsPrev := smWf_smPut _ _ h.capsPrev }

theorem pllLockTimeout_inv {s : State} (h : Inv s) : Inv (pllLockTimeout s) := by
  unfold pllLockTimeout
  try dsimp only
  repeat' (first
    | assumption
    | with_reducible apply goLimp_inv
    | split
    | (with_reducible refine Inv.upd ?_ (fun k => { k with }))
    | intro _)

theorem rateUpdate_inv {s : State} (h : Inv s) : ∀ a0, Inv (rateUpdate a0 s) := by
  intro a0
  unfold rateUpdate
  try dsimp only
  repeat' (first
    | assumption
    | with_reducible apply raise_inv
    | split
    | (with_reducible refine Inv.upd ?_ (fun k => { k with }))
    | intro _)

theorem eqTakeOp_inv {s : State} (h : Inv s) : ∀ a0 a1 a2, Inv (eqTakeOp a0 a1 a2 s) := by
  intro a0 a1 a2
  unfold eqTakeOp
  try dsimp only
  repeat' (first
    | assumption
    | with_reducible apply activeMod_inv
    | with_reducible apply answer_inv
    | with_reducible apply chainOwner_inv
    | with_reducible apply eqMod_inv
    | with_reducible apply answer_inv
    | exact (⟨CoreInv.regs (by assumption), CoreInv.rets (by assumption), CoreInv.loops (by assumption), CoreInv.data (by assumption)⟩ : CoreInv _)
    | split
    | (with_reducible refine Inv.upd ?_ (fun k => { k with }))
    | intro _)

theorem pwrLowRun_inv {s : State} (h : Inv s) : ∀ a0, Inv (pwrLowRun a0 s) := by
  intro a0
  unfold pwrLowRun
  try dsimp only
  repeat' (first
    | assumption
    | with_reducible apply gridFire_inv
    | with_reducible apply planFire_inv
    | split
    | intro _)

theorem imageLoaded_inv {s : State} (h : Inv s) : Inv (imageLoaded s) := by
  unfold imageLoaded
  try dsimp only
  repeat' (first
    | assumption
    | with_reducible apply coreLoad_inv
    | with_reducible apply coreLoad_inv
    | split
    | (with_reducible refine Inv.upd ?_ (fun k => ?_); on_goal 2 => (first | exact { k with } | exact ⟨by first | exact k.mem | exact nvWrite_wf _ _ k.mem | exact smWf_smPutBytes _ _ k.mem, by first | exact k.doms | (simp only [List.length_modify, List.length_set, List.length_map, List.length_zipIdx, List.length_replicate, List.length_range]; first | done | exact k.doms) | rfl, by first | exact k.ports | (simp only [List.length_modify, List.length_set, List.length_map, List.length_zipIdx, List.length_replicate, List.length_range]; first | done | exact k.ports) | rfl, by first | exact k.tx | (simp only [List.length_modify, List.length_set, List.length_map, List.length_zipIdx, List.length_replicate, List.length_range]; first | done | exact k.tx) | rfl, by first | exact k.fwd | (simp only [List.length_modify, List.length_set, List.length_map, List.length_zipIdx, List.length_replicate, List.length_range]; first | done | exact k.fwd) | rfl, by first | exact k.branches | (simp only [List.length_modify, List.length_set, List.length_map, List.length_zipIdx, List.length_replicate, List.length_range]; first | done | exact k.branches) | rfl, by first | exact k.slotsRx | (simp only [List.length_modify, List.length_set, List.length_map, List.length_zipIdx, List.length_replicate, List.length_range]; first | done | exact k.slotsRx) | rfl, by first | exact k.slotsTx | (simp only [List.length_modify, List.length_set, List.length_map, List.length_zipIdx, List.length_replicate, List.length_range]; first | done | exact k.slotsTx) | rfl, by first | exact k.eqPorts | (simp only [List.length_modify, List.length_set, List.length_map, List.length_zipIdx, List.length_replicate, List.length_range]; first | done | exact k.eqPorts) | rfl, by first | exact k.chans | (simp only [List.length_modify, List.length_set, List.length_map, List.length_zipIdx, List.length_replicate, List.length_range]; first | done | exact k.chans) | rfl, by first | exact k.banks | (simp only [List.length_modify, List.length_set, List.length_map, List.length_zipIdx, List.length_replicate, List.length_range]; first | done | exact k.banks) | rfl, by first | exact k.drawers | (simp only [List.length_modify, List.length_set, List.length_map, List.length_zipIdx, List.length_replicate, List.length_range]; first | done | exact k.drawers) | rfl, by first | exact k.keys | (simp only [List.length_modify, List.length_set, List.length_map, List.length_zipIdx, List.length_replicate, List.length_range]; first | done | exact k.keys) | rfl, by first | exact k.refusals | (simp only [List.length_modify, List.length_set, List.length_map, List.length_zipIdx, List.length_replicate, List.length_range]; first | done | exact k.refusals) | rfl, by first | exact k.staged | (simp only [List.length_modify, List.length_set, List.length_map, List.length_zipIdx, List.length_replicate, List.length_range]; first | done | exact k.staged) | rfl, by first | exact k.copies | (simp only [List.length_modify, List.length_set, List.length_map, List.length_zipIdx, List.length_replicate, List.length_range]; first | done | exact k.copies) | rfl, by first | exact k.latches | (simp only [List.length_modify, List.length_set, List.length_map, List.length_zipIdx, List.length_replicate, List.length_range]; first | done | exact k.latches) | rfl, by first | exact k.pxc | (repeat' first | exact k.pxc | exact k.rxc | exact core_default_inv | apply coreLoad_inv | apply coreStop_inv | apply chkScatter_inv | apply coreOff_inv | apply taskStart_inv), by first | exact k.rxc | (repeat' first | exact k.pxc | exact k.rxc | exact core_default_inv | apply coreLoad_inv | apply coreStop_inv | apply chkScatter_inv | apply coreOff_inv | apply taskStart_inv), by first | exact k.opl | simp | (simp only [List.length_modify, List.length_set, List.length_map, List.length_zipIdx, List.length_replicate, List.length_range]; exact k.opl), by first | exact k.bufs | exact smWf_smPut _ _ k.bufs | rfl, by first | exact k.caps | exact smWf_smPut _ _ k.caps | rfl, by first | exact k.capsPrev | exact smWf_smPut _ _ k.capsPrev | rfl, by first | exact k.tickets | exact Nat.mod_lt _ (by decide) | decide⟩))
    | intro _)

theorem unAutoSelect_inv {s : State} (h : Inv s) : Inv (unAutoSelect s) := by
  unfold unAutoSelect
  try dsimp only
  repeat' (first
    | assumption
    | with_reducible apply selectUn_inv
    | (with_reducible apply elim_inv)
    | split
    | intro _)

theorem discoverRx_inv {s : State} (h : Inv s) : ∀ a0 a1 a2 a3 a4, Inv (discoverRx a0 a1 a2 a3 a4 s) := by
  intro a0 a1 a2 a3 a4
  unfold discoverRx
  try dsimp only
  repeat' (first
    | assumption
    | with_reducible apply sweepIn_inv
    | split
    | (with_reducible refine Inv.upd ?_ (fun k => { k with }))
    | intro _)

theorem flushInc_inv {s : State} (h : Inv s) : Inv (flushInc s) := by
  unfold flushInc
  refine foldl_inv _ h (fun s r hs => ?_)
  dsimp only
  split
  · have h1 := nvWrite_inv (0x500000 + s.lg.incPos) r hs
    exact { h1 with }
  · exact { hs with }
theorem eqTxDone_inv {s : State} (h : Inv s) : ∀ a0, Inv (eqTxDone a0 s) := by
  intro a0
  unfold eqTxDone
  try dsimp only
  repeat' (first
    | assumption
    | with_reducible apply unitsRead_inv
    | with_reducible apply eqMod_inv
    | with_reducible apply poolUncorr_inv
    | with_reducible apply eqStart_inv
    | with_reducible apply chainFree_inv
    | split
    | (with_reducible refine Inv.upd ?_ (fun k => { k with }))
    | intro _)

theorem takeoverLoad_inv {s : State} (h : Inv s) : ∀ a0 a1, Inv (takeoverLoad a0 a1 s) := by
  intro a0 a1
  unfold takeoverLoad
  try dsimp only
  repeat' (first
    | assumption
    | with_reducible apply coreLoadReport_inv
    | with_reducible apply takeoverFail_inv
    | with_reducible apply takeoverAt_inv
    | with_reducible apply coreLoad_inv
    | with_reducible apply coreLoad_inv
    | split
    | (with_reducible refine Inv.upd ?_ (fun k => ?_); on_goal 2 => (first | exact { k with } | exact ⟨by first | exact k.mem | exact nvWrite_wf _ _ k.mem | exact smWf_smPutBytes _ _ k.mem, by first | exact k.doms | (simp only [List.length_modify, List.length_set, List.length_map, List.length_zipIdx, List.length_replicate, List.length_range]; first | done | exact k.doms) | rfl, by first | exact k.ports | (simp only [List.length_modify, List.length_set, List.length_map, List.length_zipIdx, List.length_replicate, List.length_range]; first | done | exact k.ports) | rfl, by first | exact k.tx | (simp only [List.length_modify, List.length_set, List.length_map, List.length_zipIdx, List.length_replicate, List.length_range]; first | done | exact k.tx) | rfl, by first | exact k.fwd | (simp only [List.length_modify, List.length_set, List.length_map, List.length_zipIdx, List.length_replicate, List.length_range]; first | done | exact k.fwd) | rfl, by first | exact k.branches | (simp only [List.length_modify, List.length_set, List.length_map, List.length_zipIdx, List.length_replicate, List.length_range]; first | done | exact k.branches) | rfl, by first | exact k.slotsRx | (simp only [List.length_modify, List.length_set, List.length_map, List.length_zipIdx, List.length_replicate, List.length_range]; first | done | exact k.slotsRx) | rfl, by first | exact k.slotsTx | (simp only [List.length_modify, List.length_set, List.length_map, List.length_zipIdx, List.length_replicate, List.length_range]; first | done | exact k.slotsTx) | rfl, by first | exact k.eqPorts | (simp only [List.length_modify, List.length_set, List.length_map, List.length_zipIdx, List.length_replicate, List.length_range]; first | done | exact k.eqPorts) | rfl, by first | exact k.chans | (simp only [List.length_modify, List.length_set, List.length_map, List.length_zipIdx, List.length_replicate, List.length_range]; first | done | exact k.chans) | rfl, by first | exact k.banks | (simp only [List.length_modify, List.length_set, List.length_map, List.length_zipIdx, List.length_replicate, List.length_range]; first | done | exact k.banks) | rfl, by first | exact k.drawers | (simp only [List.length_modify, List.length_set, List.length_map, List.length_zipIdx, List.length_replicate, List.length_range]; first | done | exact k.drawers) | rfl, by first | exact k.keys | (simp only [List.length_modify, List.length_set, List.length_map, List.length_zipIdx, List.length_replicate, List.length_range]; first | done | exact k.keys) | rfl, by first | exact k.refusals | (simp only [List.length_modify, List.length_set, List.length_map, List.length_zipIdx, List.length_replicate, List.length_range]; first | done | exact k.refusals) | rfl, by first | exact k.staged | (simp only [List.length_modify, List.length_set, List.length_map, List.length_zipIdx, List.length_replicate, List.length_range]; first | done | exact k.staged) | rfl, by first | exact k.copies | (simp only [List.length_modify, List.length_set, List.length_map, List.length_zipIdx, List.length_replicate, List.length_range]; first | done | exact k.copies) | rfl, by first | exact k.latches | (simp only [List.length_modify, List.length_set, List.length_map, List.length_zipIdx, List.length_replicate, List.length_range]; first | done | exact k.latches) | rfl, by first | exact k.pxc | (repeat' first | exact k.pxc | exact k.rxc | exact core_default_inv | apply coreLoad_inv | apply coreStop_inv | apply chkScatter_inv | apply coreOff_inv | apply taskStart_inv), by first | exact k.rxc | (repeat' first | exact k.pxc | exact k.rxc | exact core_default_inv | apply coreLoad_inv | apply coreStop_inv | apply chkScatter_inv | apply coreOff_inv | apply taskStart_inv), by first | exact k.opl | simp | (simp only [List.length_modify, List.length_set, List.length_map, List.length_zipIdx, List.length_replicate, List.length_range]; exact k.opl), by first | exact k.bufs | exact smWf_smPut _ _ k.bufs | rfl, by first | exact k.caps | exact smWf_smPut _ _ k.caps | rfl, by first | exact k.capsPrev | exact smWf_smPut _ _ k.capsPrev | rfl, by first | exact k.tickets | exact Nat.mod_lt _ (by decide) | decide⟩))
    | intro _)

theorem takeoverStepDone_inv {s : State} (h : Inv s) : ∀ a0 a1, Inv (takeoverStepDone a0 a1 s) := by
  intro a0 a1
  unfold takeoverStepDone
  try dsimp only
  repeat' (first
    | assumption
    | with_reducible apply takeoverAt_inv
    | with_reducible apply takeoverFail_inv
    | with_reducible apply takeoverLoad_inv
    | with_reducible apply takeoverOverlay_inv
    | split
    | intro _)

theorem converterStop_inv {s : State} (h : Inv s) : Inv (converterStop s) := by
  unfold converterStop
  try dsimp only
  repeat' (first
    | assumption
    | with_reducible apply goOff_inv
    | split
    | (with_reducible refine Inv.upd ?_ (fun k => { k with }))
    | intro _)

theorem bringupLinkWait_inv {s : State} (h : Inv s) : Inv (bringupLinkWait s) := by
  unfold bringupLinkWait
  try dsimp only
  repeat' (first
    | assumption
    | with_reducible apply startOwn_inv
    | with_reducible apply probePort_inv
    | (with_reducible apply foldl_inv)
    | split
    | (with_reducible refine Inv.upd ?_ (fun k => { k with }))
    | intro _)

theorem flushChk_inv {s : State} (h : Inv s) : Inv (flushChk s) := by
  unfold flushChk
  try dsimp only
  repeat' (first
    | assumption
    | with_reducible apply nvWrite_inv
    | with_reducible apply flushInc_inv
    | with_reducible apply raise_inv
    | split
    | (with_reducible refine Inv.upd ?_ (fun k => { k with }))
    | intro _)

theorem relayBDrive_inv {s : State} (h : Inv s) : Inv (relayBDrive s) := by
  unfold relayBDrive
  try dsimp only
  repeat' (first
    | assumption
    | with_reducible apply driveB_inv
    | split
    | intro _)

theorem loopOp_inv {s : State} (h : Inv s) (a lenH : BitVec 5) (lenL : BitVec 4) (nmax : BitVec 12) (c : Core)
    (hc : ∀ d, activeCore s = some d → d.rets = c.rets ∧ d.loops = c.loops) : Inv (loopOp a lenH lenL nmax c s) := by
  unfold loopOp
  dsimp only
  split
  · exact yieldNow_inv h _
  split
  · exact yieldNow_inv h _
  next hl =>
    split
    · split
      · exact yieldNow_inv h _
      · exact activeMod_inv _ h (fun c hc => ⟨hc.regs, hc.rets, hc.loops, hc.data⟩)
    · apply activeMod_inv_at _ h
      intro d hd
      have hdi := activeCore_inv h hd
      refine ⟨hdi.regs, hdi.rets, ?_, hdi.data⟩
      show (_ :: d.loops).length ≤ 4
      rw [List.length_cons, (hc d hd).2]
      omega
theorem forceTimeout_inv {s : State} (h : Inv s) : ∀ a0, Inv (forceTimeout a0 s) := by
  intro a0
  unfold forceTimeout
  try dsimp only
  repeat' (first
    | assumption
    | with_reducible apply chanMod_inv
    | split
    | (with_reducible refine Inv.upd ?_ (fun k => { k with }))
    | intro _)

theorem aluImm_inv {s : State} (h : Inv s) (f : Word → Core → Core) (a : BitVec 5)
    (hf : ∀ x c, CoreInv c → CoreInv (f x c)) : Inv (aluImm f a s) :=
  instr_inv h _ _ (fun _ _ hs => coreOp_inv hs _ _ (hf _))
theorem thermalRelease_inv {s : State} (h : Inv s) : ∀ a0, Inv (thermalRelease a0 s) := by
  intro a0
  unfold thermalRelease
  try dsimp only
  repeat' (first
    | assumption
    | with_reducible apply restage_inv
    | with_reducible apply causeClear_inv
    | split
    | intro _)

theorem alu_inv {s : State} (h : Inv s) (n : Nat) (f : Word → Word → Core → Core) (a b : BitVec 5)
    (hf : ∀ x y c, CoreInv c → CoreInv (f x y c)) : Inv (alu n f a b s) :=
  instr_inv h _ _ (fun _ _ hs => coreOp_inv hs _ _ (hf _ _))
theorem overvoltage1s_inv {s : State} (h : Inv s) : Inv (overvoltage1s s) := by
  unfold overvoltage1s
  try dsimp only
  repeat' (first
    | assumption
    | with_reducible apply clsPut_inv
    | split
    | (with_reducible refine Inv.upd ?_ (fun k => { k with }))
    | intro _)

theorem taskFire_inv {s : State} (h : Inv s) : ∀ a0, Inv (taskFire a0 s) := by
  intro a0
  unfold taskFire
  try dsimp only
  repeat' (first
    | assumption
    | with_reducible apply activeCore_inv
    | with_reducible apply raise_inv
    | with_reducible apply activeMod_inv
    | with_reducible apply taskStart_inv
    | with_reducible apply taskStart_inv
    | exact (⟨CoreInv.regs (by assumption), CoreInv.rets (by assumption), CoreInv.loops (by assumption), CoreInv.data (by assumption)⟩ : CoreInv _)
    | split
    | (with_reducible refine Inv.upd ?_ (fun k => { k with }))
    | intro _)

theorem taskRun_inv {s : State} (h : Inv s) : ∀ a0, Inv (taskRun a0 s) := by
  intro a0
  unfold taskRun
  try dsimp only
  repeat' (first
    | assumption
    | with_reducible apply gridFire_inv
    | with_reducible apply taskFire_inv
    | split
    | intro _)

theorem dynPost_inv {s : State} (h : Inv s) : ∀ a0 a1 a2, Inv (dynPost a0 a1 a2 s) := by
  intro a0 a1 a2
  unfold dynPost
  try dsimp only
  repeat' (first
    | assumption
    | with_reducible apply chainOwner_inv
    | split
    | (with_reducible refine Inv.upd ?_ (fun k => { k with }))
    | intro _)

theorem shFromBackbone_inv {s : State} (h : Inv s) : ∀ a0 a1, Inv (shFromBackbone a0 a1 s) := by
  intro a0 a1
  unfold shFromBackbone
  try dsimp only
  repeat' (first
    | assumption
    | with_reducible apply shDiscard_inv
    | with_reducible apply shNoRoute_inv
    | with_reducible apply poolStore_inv
    | with_reducible apply chainOwner_inv
    | with_reducible apply chainFree_inv
    | with_reducible apply dynPost_inv
    | with_reducible apply bufMod_inv
    | with_reducible apply postChain_inv
    | split
    | (with_reducible refine Inv.upd ?_ (fun k => { k with }))
    | intro _)

theorem msgConsume_inv {s : State} (h : Inv s) : ∀ a0 a1 a2 a3, Inv (msgConsume a0 a1 a2 a3 s) := by
  intro a0 a1 a2 a3
  unfold msgConsume
  try dsimp only
  repeat' (first
    | assumption
    | with_reducible apply poolStore_inv
    | with_reducible apply coreQueueFull_inv
    | with_reducible apply pduArrive_inv
    | with_reducible apply shFromBackbone_inv
    | split
    | (with_reducible refine Inv.upd ?_ (fun k => { k with }))
    | intro _)

theorem supplyLoss_inv {s : State} (h : Inv s) : Inv (supplyLoss s) := by
  unfold supplyLoss
  try dsimp only
  repeat' (first
    | assumption
    | with_reducible apply startFlush_inv
    | split
    | (with_reducible refine Inv.upd ?_ (fun k => { k with }))
    | intro _)

theorem vrcvStatusOp_inv {s : State} (h : Inv s) : ∀ a0 a1 a2, Inv (vrcvStatusOp a0 a1 a2 s) := by
  intro a0 a1 a2
  unfold vrcvStatusOp
  try dsimp only
  repeat' (first
    | assumption
    | with_reducible apply refuse_inv
    | with_reducible apply activeMod_inv
    | with_reducible apply answer_inv
    | with_reducible apply answer_inv
    | exact (⟨CoreInv.regs (by assumption), CoreInv.rets (by assumption), CoreInv.loops (by assumption), CoreInv.data (by assumption)⟩ : CoreInv _)
    | split
    | intro _)

theorem benchResOp_inv {s : State} (h : Inv s) : ∀ a0 a1 a2, Inv (benchResOp a0 a1 a2 s) := by
  intro a0 a1 a2
  unfold benchResOp
  try dsimp only
  repeat' (first
    | assumption
    | with_reducible apply refuse_inv
    | with_reducible apply activeMod_inv
    | with_reducible apply answer_inv
    | with_reducible apply answer_inv
    | exact (⟨CoreInv.regs (by assumption), CoreInv.rets (by assumption), CoreInv.loops (by assumption), CoreInv.data (by assumption)⟩ : CoreInv _)
    | split
    | intro _)

theorem amendRx_inv {s : State} (h : Inv s) : ∀ a0 a1 a2, Inv (amendRx a0 a1 a2 s) := by
  intro a0 a1 a2
  unfold amendRx
  try dsimp only
  repeat' (first
    | assumption
    | with_reducible apply hingeFwd_inv
    | with_reducible apply amendAdopt_inv
    | split
    | (with_reducible refine Inv.upd ?_ (fun k => { k with }))
    | intro _)

theorem branchBurst_inv {s : State} (h : Inv s) : ∀ a0, Inv (branchBurst a0 s) := by
  intro a0
  unfold branchBurst
  try dsimp only
  repeat' (first
    | assumption
    | with_reducible apply guardCount_inv
    | split
    | intro _)

theorem twwOp_inv {s : State} (h : Inv s) : ∀ a0 a1 a2 a3 a4, Inv (twwOp a0 a1 a2 a3 a4 s) := by
  intro a0 a1 a2 a3 a4
  unfold twwOp
  try dsimp only
  repeat' (first
    | assumption
    | with_reducible apply refuse_inv
    | with_reducible apply activeMod_inv
    | with_reducible apply done_inv
    | exact (⟨CoreInv.regs (by assumption), CoreInv.rets (by assumption), CoreInv.loops (by assumption), CoreInv.data (by assumption)⟩ : CoreInv _)
    | (with_reducible apply elim_inv)
    | split
    | (with_reducible refine Inv.upd ?_ (fun k => { k with }))
    | intro _)

theorem tempLevelChange_inv {s : State} (h : Inv s) : ∀ a0 a1, Inv (tempLevelChange a0 a1 s) := by
  intro a0 a1
  unfold tempLevelChange
  try dsimp only
  repeat' (first
    | assumption
    | with_reducible apply raise_inv
    | split
    | (with_reducible refine Inv.upd ?_ (fun k => { k with }))
    | intro _)

theorem verifyReport_inv {s : State} (h : Inv s) : ∀ a0 a1, Inv (verifyReport a0 a1 s) := by
  intro a0 a1
  unfold verifyReport
  try dsimp only
  repeat' (first
    | assumption
    | with_reducible apply nvReport_inv
    | split
    | intro _)

theorem slotVerified_inv {s : State} (h : Inv s) : ∀ a0, Inv (slotVerified a0 s) := by
  intro a0
  unfold slotVerified
  try dsimp only
  repeat' (first
    | assumption
    | with_reducible apply verifyReport_inv
    | with_reducible apply verifyRefused_inv
    | with_reducible apply raise_inv
    | split
    | (with_reducible refine Inv.upd ?_ (fun k => { k with }))
    | intro _)

theorem commitVerified_inv {s : State} (h : Inv s) : ∀ a0, Inv (commitVerified a0 s) := by
  intro a0
  unfold commitVerified
  try dsimp only
  repeat' (first
    | assumption
    | with_reducible apply verifierPower_inv
    | with_reducible apply verifyReport_inv
    | with_reducible apply commitRefused_inv
    | with_reducible apply verifyRefused_inv
    | with_reducible apply jobMod_inv
    | split
    | (with_reducible refine Inv.upd ?_ (fun k => { k with }))
    | intro _)

theorem imageVerified_inv {s : State} (h : Inv s) : Inv (imageVerified s) := by
  unfold imageVerified
  try dsimp only
  repeat' (first
    | assumption
    | with_reducible apply slotVerified_inv
    | with_reducible apply commitVerified_inv
    | split
    | intro _)

theorem reportQuiesceCut_inv {s : State} (h : Inv s) : Inv (reportQuiesceCut s) := by
  unfold reportQuiesceCut
  try dsimp only
  repeat' (first
    | assumption
    | with_reducible apply raise_inv
    | split
    | (with_reducible refine Inv.upd ?_ (fun k => { k with }))
    | intro _)

theorem reportWakeFailure_inv {s : State} (h : Inv s) : Inv (reportWakeFailure s) := by
  unfold reportWakeFailure
  try dsimp only
  repeat' (first
    | assumption
    | with_reducible apply raise_inv
    | split
    | (with_reducible refine Inv.upd ?_ (fun k => { k with }))
    | intro _)

theorem startVerify_inv {s : State} (h : Inv s) : Inv (startVerify s) := by
  unfold startVerify
  try dsimp only
  repeat' (first
    | assumption
    | with_reducible apply nvReport_inv
    | split
    | (with_reducible refine Inv.upd ?_ (fun k => { k with }))
    | intro _)

theorem goBringup_inv {s : State} (h : Inv s) : Inv (goBringup s) := by
  unfold goBringup
  dsimp only
  generalize hx : transition .bringup 3 _ = x
  have h1 : Inv x := by
    rw [← hx]
    with_reducible refine transition_inv ?_ _ _
    exact { h with }
  have h2 := stateLevels_inv h1 (bringupDomains s.dev.variantN) []
  generalize stateLevels (bringupDomains s.dev.variantN) [] x = y at h2 ⊢
  generalize hz : startVerify _ = z
  have h3 : Inv z := by
    rw [← hz]
    with_reducible refine startVerify_inv (reportWake_inv (reportQuiesceCut_inv (reportWakeFailure_inv ?_)))
    exact { h2 with }
  with_reducible refine ite_inv (driveA_inv h3 _) ?_
  exact { h3 with }
theorem pllLocked_inv {s : State} (h : Inv s) : Inv (pllLocked s) := by
  unfold pllLocked
  exact ite_inv (goBringup_inv h) h
theorem couplerRestore_inv {s : State} (h : Inv s) : ∀ a0, Inv (couplerRestore a0 s) := by
  intro a0
  unfold couplerRestore
  try dsimp only
  repeat' (first
    | assumption
    | with_reducible apply raise_inv
    | with_reducible apply restage_inv
    | with_reducible apply causeClear_inv
    | split
    | intro _)

theorem warmResetEnd_inv {s : State} (h : Inv s) : Inv (warmResetEnd s) := by
  unfold warmResetEnd
  try dsimp only
  repeat' (first
    | assumption
    | with_reducible apply setDomain_inv
    | split
    | (with_reducible refine Inv.upd ?_ (fun k => { k with }))
    | intro _)

theorem bufSetOp_inv {s : State} (h : Inv s) : ∀ a0 a1 a2 a3, Inv (bufSetOp a0 a1 a2 a3 s) := by
  intro a0 a1 a2 a3
  unfold bufSetOp
  try dsimp only
  repeat' (first
    | assumption
    | with_reducible apply bufRefused_inv
    | with_reducible apply bufMod_inv
    | with_reducible apply activeMod_inv
    | with_reducible apply done_inv
    | exact (⟨CoreInv.regs (by assumption), CoreInv.rets (by assumption), CoreInv.loops (by assumption), CoreInv.data (by assumption)⟩ : CoreInv _)
    | split
    | intro _)

theorem quiesceCut_inv {s : State} (h : Inv s) : Inv (quiesceCut s) := by
  unfold quiesceCut
  try dsimp only
  repeat' (first
    | assumption
    | with_reducible apply goSleep_inv
    | with_reducible apply nvCut_inv
    | split
    | (with_reducible refine Inv.upd ?_ (fun k => { k with }))
    | intro _)

theorem vnEarlyEnd_inv {s : State} (h : Inv s) : Inv (vnEarlyEnd s) := by
  unfold vnEarlyEnd
  exact ite_inv (raise_inv _ _ _ (vnCycleEnd_inv h)) h
theorem switchCycle_inv {s : State} (h : Inv s) : Inv (switchCycle s) := by
  unfold switchCycle
  try dsimp only
  repeat' (first
    | assumption
    | with_reducible apply vnEarlyEnd_inv
    | with_reducible apply cycleBoundary_inv
    | with_reducible apply setMode_inv
    | with_reducible apply acquireFrom_inv
    | split
    | (with_reducible refine Inv.upd ?_ (fun k => ?_); on_goal 2 => (first | exact { k with } | exact ⟨by first | exact k.mem | exact nvWrite_wf _ _ k.mem | exact smWf_smPutBytes _ _ k.mem, by first | exact k.doms | (simp only [List.length_modify, List.length_set, List.length_map, List.length_zipIdx, List.length_replicate, List.length_range]; first | done | exact k.doms) | rfl, by first | exact k.ports | (simp only [List.length_modify, List.length_set, List.length_map, List.length_zipIdx, List.length_replicate, List.length_range]; first | done | exact k.ports) | rfl, by first | exact k.tx | (simp only [List.length_modify, List.length_set, List.length_map, List.length_zipIdx, List.length_replicate, List.length_range]; first | done | exact k.tx) | rfl, by first | exact k.fwd | (simp only [List.length_modify, List.length_set, List.length_map, List.length_zipIdx, List.length_replicate, List.length_range]; first | done | exact k.fwd) | rfl, by first | exact k.branches | (simp only [List.length_modify, List.length_set, List.length_map, List.length_zipIdx, List.length_replicate, List.length_range]; first | done | exact k.branches) | rfl, by first | exact k.slotsRx | (simp only [List.length_modify, List.length_set, List.length_map, List.length_zipIdx, List.length_replicate, List.length_range]; first | done | exact k.slotsRx) | rfl, by first | exact k.slotsTx | (simp only [List.length_modify, List.length_set, List.length_map, List.length_zipIdx, List.length_replicate, List.length_range]; first | done | exact k.slotsTx) | rfl, by first | exact k.eqPorts | (simp only [List.length_modify, List.length_set, List.length_map, List.length_zipIdx, List.length_replicate, List.length_range]; first | done | exact k.eqPorts) | rfl, by first | exact k.chans | (simp only [List.length_modify, List.length_set, List.length_map, List.length_zipIdx, List.length_replicate, List.length_range]; first | done | exact k.chans) | rfl, by first | exact k.banks | (simp only [List.length_modify, List.length_set, List.length_map, List.length_zipIdx, List.length_replicate, List.length_range]; first | done | exact k.banks) | rfl, by first | exact k.drawers | (simp only [List.length_modify, List.length_set, List.length_map, List.length_zipIdx, List.length_replicate, List.length_range]; first | done | exact k.drawers) | rfl, by first | exact k.keys | (simp only [List.length_modify, List.length_set, List.length_map, List.length_zipIdx, List.length_replicate, List.length_range]; first | done | exact k.keys) | rfl, by first | exact k.refusals | (simp only [List.length_modify, List.length_set, List.length_map, List.length_zipIdx, List.length_replicate, List.length_range]; first | done | exact k.refusals) | rfl, by first | exact k.staged | (simp only [List.length_modify, List.length_set, List.length_map, List.length_zipIdx, List.length_replicate, List.length_range]; first | done | exact k.staged) | rfl, by first | exact k.copies | (simp only [List.length_modify, List.length_set, List.length_map, List.length_zipIdx, List.length_replicate, List.length_range]; first | done | exact k.copies) | rfl, by first | exact k.latches | (simp only [List.length_modify, List.length_set, List.length_map, List.length_zipIdx, List.length_replicate, List.length_range]; first | done | exact k.latches) | rfl, by first | exact k.pxc | (repeat' first | exact k.pxc | exact k.rxc | exact core_default_inv | apply coreLoad_inv | apply coreStop_inv | apply chkScatter_inv | apply coreOff_inv | apply taskStart_inv), by first | exact k.rxc | (repeat' first | exact k.pxc | exact k.rxc | exact core_default_inv | apply coreLoad_inv | apply coreStop_inv | apply chkScatter_inv | apply coreOff_inv | apply taskStart_inv), by first | exact k.opl | simp | (simp only [List.length_modify, List.length_set, List.length_map, List.length_zipIdx, List.length_replicate, List.length_range]; exact k.opl), by first | exact k.bufs | exact smWf_smPut _ _ k.bufs | rfl, by first | exact k.caps | exact smWf_smPut _ _ k.caps | rfl, by first | exact k.capsPrev | exact smWf_smPut _ _ k.capsPrev | rfl, by first | exact k.tickets | exact Nat.mod_lt _ (by decide) | decide⟩))
    | intro _)

theorem startRx_inv {s : State} (h : Inv s) : ∀ a0 a1 a2, Inv (startRx a0 a1 a2 s) := by
  intro a0 a1 a2
  unfold startRx
  try dsimp only
  repeat' (first
    | assumption
    | with_reducible apply inaugEnter_inv
    | with_reducible apply hingeFwd_inv
    | split
    | intro _)

theorem dmaRun_inv {s : State} (h : Inv s) : ∀ a0, Inv (dmaRun a0 s) := by
  intro a0
  unfold dmaRun
  try dsimp only
  repeat' (first
    | assumption
    | with_reducible apply gridFire_inv
    | with_reducible apply dmaFire_inv
    | split
    | intro _)

theorem revertLoadDone_inv {s : State} (h : Inv s) : Inv (revertLoadDone s) := by
  unfold revertLoadDone
  try dsimp only
  repeat' (first
    | assumption
    | with_reducible apply coreLoadReport_inv
    | with_reducible apply repairFailed_inv
    | with_reducible apply coreLoad_inv
    | with_reducible apply revertLatest_inv
    | with_reducible apply coreLoad_inv
    | split
    | (with_reducible refine Inv.upd ?_ (fun k => ?_); on_goal 2 => (first | exact { k with } | exact ⟨by first | exact k.mem | exact nvWrite_wf _ _ k.mem | exact smWf_smPutBytes _ _ k.mem, by first | exact k.doms | (simp only [List.length_modify, List.length_set, List.length_map, List.length_zipIdx, List.length_replicate, List.length_range]; first | done | exact k.doms) | rfl, by first | exact k.ports | (simp only [List.length_modify, List.length_set, List.length_map, List.length_zipIdx, List.length_replicate, List.length_range]; first | done | exact k.ports) | rfl, by first | exact k.tx | (simp only [List.length_modify, List.length_set, List.length_map, List.length_zipIdx, List.length_replicate, List.length_range]; first | done | exact k.tx) | rfl, by first | exact k.fwd | (simp only [List.length_modify, List.length_set, List.length_map, List.length_zipIdx, List.length_replicate, List.length_range]; first | done | exact k.fwd) | rfl, by first | exact k.branches | (simp only [List.length_modify, List.length_set, List.length_map, List.length_zipIdx, List.length_replicate, List.length_range]; first | done | exact k.branches) | rfl, by first | exact k.slotsRx | (simp only [List.length_modify, List.length_set, List.length_map, List.length_zipIdx, List.length_replicate, List.length_range]; first | done | exact k.slotsRx) | rfl, by first | exact k.slotsTx | (simp only [List.length_modify, List.length_set, List.length_map, List.length_zipIdx, List.length_replicate, List.length_range]; first | done | exact k.slotsTx) | rfl, by first | exact k.eqPorts | (simp only [List.length_modify, List.length_set, List.length_map, List.length_zipIdx, List.length_replicate, List.length_range]; first | done | exact k.eqPorts) | rfl, by first | exact k.chans | (simp only [List.length_modify, List.length_set, List.length_map, List.length_zipIdx, List.length_replicate, List.length_range]; first | done | exact k.chans) | rfl, by first | exact k.banks | (simp only [List.length_modify, List.length_set, List.length_map, List.length_zipIdx, List.length_replicate, List.length_range]; first | done | exact k.banks) | rfl, by first | exact k.drawers | (simp only [List.length_modify, List.length_set, List.length_map, List.length_zipIdx, List.length_replicate, List.length_range]; first | done | exact k.drawers) | rfl, by first | exact k.keys | (simp only [List.length_modify, List.length_set, List.length_map, List.length_zipIdx, List.length_replicate, List.length_range]; first | done | exact k.keys) | rfl, by first | exact k.refusals | (simp only [List.length_modify, List.length_set, List.length_map, List.length_zipIdx, List.length_replicate, List.length_range]; first | done | exact k.refusals) | rfl, by first | exact k.staged | (simp only [List.length_modify, List.length_set, List.length_map, List.length_zipIdx, List.length_replicate, List.length_range]; first | done | exact k.staged) | rfl, by first | exact k.copies | (simp only [List.length_modify, List.length_set, List.length_map, List.length_zipIdx, List.length_replicate, List.length_range]; first | done | exact k.copies) | rfl, by first | exact k.latches | (simp only [List.length_modify, List.length_set, List.length_map, List.length_zipIdx, List.length_replicate, List.length_range]; first | done | exact k.latches) | rfl, by first | exact k.pxc | (repeat' first | exact k.pxc | exact k.rxc | exact core_default_inv | apply coreLoad_inv | apply coreStop_inv | apply chkScatter_inv | apply coreOff_inv | apply taskStart_inv), by first | exact k.rxc | (repeat' first | exact k.pxc | exact k.rxc | exact core_default_inv | apply coreLoad_inv | apply coreStop_inv | apply chkScatter_inv | apply coreOff_inv | apply taskStart_inv), by first | exact k.opl | simp | (simp only [List.length_modify, List.length_set, List.length_map, List.length_zipIdx, List.length_replicate, List.length_range]; exact k.opl), by first | exact k.bufs | exact smWf_smPut _ _ k.bufs | rfl, by first | exact k.caps | exact smWf_smPut _ _ k.caps | rfl, by first | exact k.capsPrev | exact smWf_smPut _ _ k.capsPrev | rfl, by first | exact k.tickets | exact Nat.mod_lt _ (by decide) | decide⟩))
    | intro _)

theorem slowLand_doms (o : Nat) (v : Word) (p : Pwr) : (slowLand o v p).doms = p.doms := by
  unfold slowLand
  split
  · rfl
  split
  · rfl
  split <;> rfl
theorem slowWriteLand_inv {s : State} (h : Inv s) : Inv (slowWriteLand s) := by
  unfold slowWriteLand
  split
  · exact { h with doms := (congrArg List.length (slowLand_doms _ _ _)).trans h.doms }
  · exact h
theorem healthReport_inv {s : State} (h : Inv s) : Inv (healthReport s) := by
  unfold healthReport
  try dsimp only
  repeat' (first
    | assumption
    | with_reducible apply raise_inv
    | split
    | intro _)

theorem couplerLoss_inv {s : State} (h : Inv s) : ∀ a0, Inv (couplerLoss a0 s) := by
  intro a0
  unfold couplerLoss
  try dsimp only
  repeat' (first
    | assumption
    | with_reducible apply chanMod_inv
    | with_reducible apply raise_inv
    | with_reducible apply causeSet_inv
    | split
    | (with_reducible refine Inv.upd ?_ (fun k => { k with }))
    | intro _)

theorem cycleAdvance_inv {s : State} (h : Inv s) : Inv (cycleAdvance s) := by
  unfold cycleAdvance
  try dsimp only
  repeat' (first
    | assumption
    | with_reducible apply vnEarlyEnd_inv
    | (with_reducible apply elim_inv)
    | split
    | (with_reducible refine Inv.upd ?_ (fun k => { k with }))
    | intro _)

theorem inputCrossing_inv {s : State} (h : Inv s) : ∀ a0 a1, Inv (inputCrossing a0 a1 s) := by
  intro a0 a1
  unfold inputCrossing
  try dsimp only
  repeat' (first
    | assumption
    | with_reducible apply memSettle_inv
    | with_reducible apply chanMod_inv
    | split
    | (with_reducible refine Inv.upd ?_ (fun k => { k with }))
    | intro _)

theorem admitReqRx_inv {s : State} (h : Inv s) : ∀ a0 a1 a2, Inv (admitReqRx a0 a1 a2 s) := by
  intro a0 a1 a2
  unfold admitReqRx
  try dsimp only
  repeat' (first
    | assumption
    | with_reducible apply requestAdd_inv
    | with_reducible apply hingeFwd_inv
    | split
    | intro _)

theorem drawerPrevRow_inv {s : State} (h : Inv s) : ∀ a0, Inv (drawerPrevRow a0 s) := by
  intro a0
  unfold drawerPrevRow
  try dsimp only
  repeat' (first
    | assumption
    | with_reducible apply drawerCtrl_inv
    | split
    | intro _)

theorem flushWrite_inv {s : State} (h : Inv s) : ∀ f, Inv (flushWrite f s) := fun f => by
  unfold flushWrite
  dsimp only
  generalize incRecord f.cause _ _ _ _ _ = r
  generalize hy : flushChk _ = y
  have h3 : Inv y := by
    rw [← hy]
    with_reducible refine flushChk_inv (flushJnv_inv (flushInc_inv ?_) 128)
    split
    · exact { h with
        latches := (incTrailer_inv (l := { s.lg with incBuf := s.lg.incBuf ++ [r] }) ⟨h.latches, h.opl⟩).latches
        opl := (incTrailer_inv (l := { s.lg with incBuf := s.lg.incBuf ++ [r] }) ⟨h.latches, h.opl⟩).opl }
    · exact { h with
        latches := (incTrailer_inv ⟨h.latches, h.opl⟩).latches, opl := (incTrailer_inv ⟨h.latches, h.opl⟩).opl }
  exact { h3 with }
theorem bfreeOp_inv {s : State} (h : Inv s) : ∀ a0 a1 a2, Inv (bfreeOp a0 a1 a2 s) := by
  intro a0 a1 a2
  unfold bfreeOp
  try dsimp only
  repeat' (first
    | assumption
    | with_reducible apply freeChain_inv
    | with_reducible apply activeMod_inv
    | with_reducible apply answerCode_inv
    | with_reducible apply answerCode_inv
    | exact (⟨CoreInv.regs (by assumption), CoreInv.rets (by assumption), CoreInv.loops (by assumption), CoreInv.data (by assumption)⟩ : CoreInv _)
    | split
    | intro _)

theorem openSideStart_inv {s : State} (h : Inv s) : ∀ a0, Inv (openSideStart a0 s) := by
  intro a0
  unfold openSideStart
  try dsimp only
  repeat' (first
    | assumption
    | with_reducible apply startOwn_inv
    | with_reducible apply couplingSet_inv
    | split
    | intro _)

theorem wakeFailure_inv {s : State} (h : Inv s) : Inv (wakeFailure s) := by
  unfold wakeFailure
  try dsimp only
  repeat' (first
    | assumption
    | with_reducible apply goSleep_inv
    | split
    | (with_reducible refine Inv.upd ?_ (fun k => { k with }))
    | intro _)

theorem opsecTick_inv {s : State} (h : Inv s) : Inv (opsecTick s) := by
  unfold opsecTick
  try dsimp only
  repeat' (first
    | assumption
    | split
    | (with_reducible refine Inv.upd ?_ (fun k => { k with }))
    | intro _)

theorem eventsTake_inv {s : State} (h : Inv s) : Inv (eventsTake s) := by
  unfold eventsTake
  try dsimp only
  repeat' (first
    | assumption
    | split
    | (with_reducible refine Inv.upd ?_ (fun k => { k with }))
    | intro _)

theorem drawerLoaded_inv {s : State} (h : Inv s) : ∀ a0, Inv (drawerLoaded a0 s) := by
  intro a0
  unfold drawerLoaded
  try dsimp only
  repeat' (first
    | assumption
    | with_reducible apply nvReport_inv
    | with_reducible apply drawerMod_inv
    | with_reducible apply raise_inv
    | split
    | (with_reducible refine Inv.upd ?_ (fun k => { k with }))
    | intro _)

theorem stepRetry_inv {s : State} (h : Inv s) : ∀ a0, Inv (stepRetry a0 s) := by
  intro a0
  unfold stepRetry
  try dsimp only
  repeat' (first
    | assumption
    | with_reducible apply stepPort_inv
    | split
    | intro _)

theorem burstListenTimeout_inv {s : State} (h : Inv s) : Inv (burstListenTimeout s) := by
  unfold burstListenTimeout
  try dsimp only
  repeat' (first
    | assumption
    | with_reducible apply sleepLeave_inv
    | split
    | (with_reducible refine Inv.upd ?_ (fun k => { k with }))
    | intro _)

theorem measureRun_inv {s : State} (h : Inv s) : ∀ a0, Inv (measureRun a0 s) := by
  intro a0
  unfold measureRun
  try dsimp only
  repeat' (first
    | assumption
    | with_reducible apply gridFire_inv
    | with_reducible apply measureOne_inv
    | (with_reducible apply foldl_inv)
    | (with_reducible apply elim_inv)
    | split
    | intro _)

theorem hostGo_inv {s : State} (h : Inv s) : ∀ a0, Inv (hostGo a0 s) := by
  intro a0
  unfold hostGo
  try dsimp only
  repeat' (first
    | assumption
    | with_reducible apply poolOp_inv
    | split
    | (with_reducible refine Inv.upd ?_ (fun k => { k with }))
    | intro _)

theorem amendCycle_inv {s : State} (h : Inv s) : Inv (amendCycle s) := by
  unfold amendCycle
  try dsimp only
  repeat' (first
    | assumption
    | with_reducible apply amendAdopt_inv
    | split
    | intro _)

theorem flushDone_inv {s : State} (h : Inv s) : Inv (flushDone s) := by
  unfold flushDone
  split
  · exact goOff_inv (flushWrite_inv h _) _
  · exact h
theorem groupSupplyRestore_inv {s : State} (h : Inv s) : ∀ g, Inv (groupSupplyRestore g s) := fun g => by
  unfold groupSupplyRestore
  refine ite_inv (foldl_inv _ (raise_inv _ _ _ h) (fun _ _ hs => ?_)) h
  have h1 := fun k n => restage_inv (causeClear_inv hs k n) n
  exact ite_inv (h1 _ _) (chanMod_inv _ _ (h1 _ _))
theorem attemptFails_inv {s : State} (h : Inv s) : ∀ a0, Inv (attemptFails a0 s) := by
  intro a0
  unfold attemptFails
  try dsimp only
  repeat' (first
    | assumption
    | with_reducible apply raise_inv
    | with_reducible apply startOwn_inv
    | split
    | (with_reducible refine Inv.upd ?_ (fun k => { k with }))
    | intro _)

theorem ttrRx_inv {s : State} (h : Inv s) : ∀ a0 a1 a2 a3, Inv (ttrRx a0 a1 a2 a3 s) := by
  intro a0 a1 a2 a3
  unfold ttrRx
  try dsimp only
  repeat' (first
    | assumption
    | with_reducible apply amendRx_inv
    | with_reducible apply overflowEnd_inv
    | with_reducible apply hingeFwd_inv
    | with_reducible apply attemptFails_inv
    | with_reducible apply ttrTake_inv
    | split
    | (with_reducible refine Inv.upd ?_ (fun k => { k with }))
    | intro _)

theorem dynSend_inv {s : State} (h : Inv s) : ∀ a0, Inv (dynSend a0 s) := by
  intro a0
  unfold dynSend
  try dsimp only
  repeat' (first
    | assumption
    | with_reducible apply emit_inv
    | with_reducible apply chainFree_inv
    | split
    | (with_reducible refine Inv.upd ?_ (fun k => { k with }))
    | intro _)

theorem powerGoodTimeout_inv {s : State} (h : Inv s) : Inv (powerGoodTimeout s) := by
  unfold powerGoodTimeout
  try dsimp only
  repeat' (first
    | assumption
    | with_reducible apply wakeFailure_inv
    | split
    | (with_reducible refine Inv.upd ?_ (fun k => { k with }))
    | intro _)

theorem admitReprobe_inv {s : State} (h : Inv s) : Inv (admitReprobe s) := by
  unfold admitReprobe
  try dsimp only
  repeat' (first
    | assumption
    | with_reducible apply driveA_inv
    | split
    | (with_reducible refine Inv.upd ?_ (fun k => { k with }))
    | intro _)

theorem chkCorrect_inv {s : State} (h : Inv s) : ∀ im c, Inv (chkCorrect im c s) := fun im c => by
  unfold chkCorrect
  exact activeMod_inv _ (foldl_inv _ h (fun _ _ hs => ite_inv (raise_inv _ _ _ hs) hs)) (fun _ hc => ⟨hc.regs, hc.rets, hc.loops, hc.data⟩)
theorem chkpCopyFire_inv {s : State} (h : Inv s) : ∀ a0, Inv (chkpCopyFire a0 s) := by
  intro a0
  unfold chkpCopyFire
  try dsimp only
  repeat' (first
    | assumption
    | with_reducible apply activeCore_inv
    | with_reducible apply skipped_inv
    | with_reducible apply yieldNow_inv
    | with_reducible apply raise_inv
    | with_reducible apply chkLand_inv
    | with_reducible apply chkCorrect_inv
    | (with_reducible apply elim_inv)
    | split
    | (with_reducible refine Inv.upd ?_ (fun k => ?_); on_goal 2 => (first | exact { k with } | exact ⟨by first | exact k.mem | exact nvWrite_wf _ _ k.mem | exact smWf_smPutBytes _ _ k.mem, by first | exact k.doms | (simp only [List.length_modify, List.length_set, List.length_map, List.length_zipIdx, List.length_replicate, List.length_range]; first | done | exact k.doms) | rfl, by first | exact k.ports | (simp only [List.length_modify, List.length_set, List.length_map, List.length_zipIdx, List.length_replicate, List.length_range]; first | done | exact k.ports) | rfl, by first | exact k.tx | (simp only [List.length_modify, List.length_set, List.length_map, List.length_zipIdx, List.length_replicate, List.length_range]; first | done | exact k.tx) | rfl, by first | exact k.fwd | (simp only [List.length_modify, List.length_set, List.length_map, List.length_zipIdx, List.length_replicate, List.length_range]; first | done | exact k.fwd) | rfl, by first | exact k.branches | (simp only [List.length_modify, List.length_set, List.length_map, List.length_zipIdx, List.length_replicate, List.length_range]; first | done | exact k.branches) | rfl, by first | exact k.slotsRx | (simp only [List.length_modify, List.length_set, List.length_map, List.length_zipIdx, List.length_replicate, List.length_range]; first | done | exact k.slotsRx) | rfl, by first | exact k.slotsTx | (simp only [List.length_modify, List.length_set, List.length_map, List.length_zipIdx, List.length_replicate, List.length_range]; first | done | exact k.slotsTx) | rfl, by first | exact k.eqPorts | (simp only [List.length_modify, List.length_set, List.length_map, List.length_zipIdx, List.length_replicate, List.length_range]; first | done | exact k.eqPorts) | rfl, by first | exact k.chans | (simp only [List.length_modify, List.length_set, List.length_map, List.length_zipIdx, List.length_replicate, List.length_range]; first | done | exact k.chans) | rfl, by first | exact k.banks | (simp only [List.length_modify, List.length_set, List.length_map, List.length_zipIdx, List.length_replicate, List.length_range]; first | done | exact k.banks) | rfl, by first | exact k.drawers | (simp only [List.length_modify, List.length_set, List.length_map, List.length_zipIdx, List.length_replicate, List.length_range]; first | done | exact k.drawers) | rfl, by first | exact k.keys | (simp only [List.length_modify, List.length_set, List.length_map, List.length_zipIdx, List.length_replicate, List.length_range]; first | done | exact k.keys) | rfl, by first | exact k.refusals | (simp only [List.length_modify, List.length_set, List.length_map, List.length_zipIdx, List.length_replicate, List.length_range]; first | done | exact k.refusals) | rfl, by first | exact k.staged | (simp only [List.length_modify, List.length_set, List.length_map, List.length_zipIdx, List.length_replicate, List.length_range]; first | done | exact k.staged) | rfl, by first | exact k.copies | (simp only [List.length_modify, List.length_set, List.length_map, List.length_zipIdx, List.length_replicate, List.length_range]; first | done | exact k.copies) | rfl, by first | exact k.latches | (simp only [List.length_modify, List.length_set, List.length_map, List.length_zipIdx, List.length_replicate, List.length_range]; first | done | exact k.latches) | rfl, by first | exact k.pxc | (repeat' first | exact k.pxc | exact k.rxc | exact core_default_inv | apply coreLoad_inv | apply coreStop_inv | apply chkScatter_inv | apply coreOff_inv | apply taskStart_inv), by first | exact k.rxc | (repeat' first | exact k.pxc | exact k.rxc | exact core_default_inv | apply coreLoad_inv | apply coreStop_inv | apply chkScatter_inv | apply coreOff_inv | apply taskStart_inv), by first | exact k.opl | simp | (simp only [List.length_modify, List.length_set, List.length_map, List.length_zipIdx, List.length_replicate, List.length_range]; exact k.opl), by first | exact k.bufs | exact smWf_smPut _ _ k.bufs | rfl, by first | exact k.caps | exact smWf_smPut _ _ k.caps | rfl, by first | exact k.capsPrev | exact smWf_smPut _ _ k.capsPrev | rfl, by first | exact k.tickets | exact Nat.mod_lt _ (by decide) | decide⟩))
    | intro _)

theorem chkpCopyRun_inv {s : State} (h : Inv s) : ∀ a0, Inv (chkpCopyRun a0 s) := by
  intro a0
  unfold chkpCopyRun
  try dsimp only
  repeat' (first
    | assumption
    | with_reducible apply gridFire_inv
    | with_reducible apply chkpCopyFire_inv
    | split
    | intro _)

theorem vrcvDynamicOp_inv {s : State} (h : Inv s) : ∀ d c, Inv (vrcvDynamicOp d c s) := fun d c => by
  unfold vrcvDynamicOp
  split
  · with_reducible refine activeMod_inv _ h (fun c hc => ?_)
    have h' := regPut_inv d 0xFFFFFFFF hc
    exact ⟨h'.regs, h'.rets, h'.loops, h'.data⟩
  next id b r _ =>
    with_reducible refine activeMod_inv _ (chainOwner_inv ?_ _ _) (fun c hc => ?_)
    · exact { h with }
    · have h' := regPut_inv d (w32 (b % 4096 + id % 512 * 65536)) hc
      exact ⟨h'.regs, h'.rets, h'.loops, h'.data⟩
theorem seatedConfirm_inv {s : State} (h : Inv s) : Inv (seatedConfirm s) := by
  unfold seatedConfirm
  try dsimp only
  repeat' (first
    | assumption
    | with_reducible apply wakeFromOff_inv
    | split
    | (with_reducible refine Inv.upd ?_ (fun k => { k with }))
    | intro _)

theorem withdrawal_inv {s : State} (h : Inv s) : ∀ a0, Inv (withdrawal a0 s) := by
  intro a0
  unfold withdrawal
  try dsimp only
  repeat' (first
    | assumption
    | with_reducible apply raise_inv
    | (with_reducible apply elim_inv)
    | split
    | (with_reducible refine Inv.upd ?_ (fun k => { k with }))
    | intro _)

theorem correctionInterval_inv {s : State} (h : Inv s) : Inv (correctionInterval s) := by
  unfold correctionInterval
  try dsimp only
  repeat' (first
    | assumption
    | with_reducible apply raise_inv
    | with_reducible apply modeSelect_inv
    | with_reducible apply rateUpdate_inv
    | with_reducible apply withdrawal_inv
    | (with_reducible apply elim_inv)
    | split
    | (with_reducible refine Inv.upd ?_ (fun k => { k with }))
    | intro _)

theorem sinkOn_inv {s : State} (h : Inv s) : ∀ a0, Inv (sinkOn a0 s) := by
  intro a0
  unfold sinkOn
  try dsimp only
  repeat' (first
    | assumption
    | with_reducible apply chanMod_inv
    | split
    | (with_reducible refine Inv.upd ?_ (fun k => { k with }))
    | intro _)

theorem cycleStart_inv {s : State} (h : Inv s) : Inv (cycleStart s) := by
  unfold cycleStart
  try dsimp only
  repeat' (first
    | assumption
    | with_reducible apply cycleAdvance_inv
    | with_reducible apply eventsTake_inv
    | with_reducible apply cycleBody_inv
    | with_reducible apply amendCycle_inv
    | split
    | intro _)

theorem cmdGive_inv {s : State} (h : Inv s) : ∀ a0 a1 a2, Inv (cmdGive a0 a1 a2 s) := by
  intro a0 a1 a2
  unfold cmdGive
  try dsimp only
  repeat' (first
    | assumption
    | with_reducible apply cmdSubmit_inv
    | with_reducible apply bankMod_inv
    | split
    | (with_reducible refine Inv.upd ?_ (fun k => { k with }))
    | intro _)

theorem pduRow_inv {s : State} (h : Inv s) : ∀ a0 a1 a2 a3, Inv (pduRow a0 a1 a2 a3 s) := by
  intro a0 a1 a2 a3
  unfold pduRow
  try dsimp only
  repeat' (first
    | assumption
    | with_reducible apply pduArrive_inv
    | split
    | intro _)

theorem regulatorAttempt_inv {s : State} (h : Inv s) : Inv (regulatorAttempt s) := by
  unfold regulatorAttempt
  try dsimp only
  repeat' (first
    | assumption
    | with_reducible apply regulatorStart_inv
    | split
    | intro _)

theorem sampOp_inv {s : State} (h : Inv s) : ∀ a0 a1 a2 a3, Inv (sampOp a0 a1 a2 a3 s) := by
  intro a0 a1 a2 a3
  unfold sampOp
  try dsimp only
  repeat' (first
    | assumption
    | with_reducible apply refuse_inv
    | with_reducible apply activeMod_inv
    | with_reducible apply answer_inv
    | with_reducible apply answer_inv
    | exact (⟨CoreInv.regs (by assumption), CoreInv.rets (by assumption), CoreInv.loops (by assumption), CoreInv.data (by assumption)⟩ : CoreInv _)
    | split
    | intro _)

theorem inbandOpenTimeout_inv {s : State} (h : Inv s) : ∀ a0, Inv (inbandOpenTimeout a0 s) := by
  intro a0
  unfold inbandOpenTimeout
  try dsimp only
  repeat' (first
    | assumption
    | with_reducible apply sessionPut_inv
    | split
    | intro _)

theorem branchLinkUp_inv {s : State} (h : Inv s) : ∀ a0, Inv (branchLinkUp a0 s) := by
  intro a0
  unfold branchLinkUp
  try dsimp only
  repeat' (first
    | assumption
    | with_reducible apply raise_inv
    | with_reducible apply brMod_inv
    | split
    | (with_reducible refine Inv.upd ?_ (fun k => { k with }))
    | intro _)

theorem dynBoundary_inv {s : State} (h : Inv s) : Inv (dynBoundary s) := by
  unfold dynBoundary
  split
  · exact h
  · with_reducible refine ite_inv h ?_
    generalize hx : List.foldl (fun s b => if Option.elim (s.branch b).rx false (fun r => r.dynamic) = true then guardianCut b s
      else s) s (List.range 12) = x
    have h2 : Inv x := by
      rw [← hx]
      with_reducible exact foldl_inv _ h (fun _ _ h3 => ite_inv (guardianCut_inv h3 _) h3)
    dsimp only
    with_reducible refine ite_inv ?_ (dynSend_inv ?_ _)
    · exact { h2 with }
    · exact { h2 with }
theorem bufGetOp_inv {s : State} (h : Inv s) : ∀ a0 a1 a2, Inv (bufGetOp a0 a1 a2 s) := by
  intro a0 a1 a2
  unfold bufGetOp
  try dsimp only
  repeat' (first
    | assumption
    | with_reducible apply refuse_inv
    | with_reducible apply activeMod_inv
    | with_reducible apply answer_inv
    | with_reducible apply answer_inv
    | exact (⟨CoreInv.regs (by assumption), CoreInv.rets (by assumption), CoreInv.loops (by assumption), CoreInv.data (by assumption)⟩ : CoreInv _)
    | split
    | intro _)

theorem benchOp_inv {s : State} (h : Inv s) : ∀ a0 a1 a2 a3, Inv (benchOp a0 a1 a2 a3 s) := by
  intro a0 a1 a2 a3
  unfold benchOp
  try dsimp only
  repeat' (first
    | assumption
    | with_reducible apply raise_inv
    | with_reducible apply benchAsk_inv
    | with_reducible apply activeMod_inv
    | with_reducible apply answerCode_inv
    | with_reducible apply answerCode_inv
    | exact (⟨CoreInv.regs (by assumption), CoreInv.rets (by assumption), CoreInv.loops (by assumption), CoreInv.data (by assumption)⟩ : CoreInv _)
    | split
    | intro _)

theorem drawerLoadDone_inv {s : State} (h : Inv s) : ∀ a0, Inv (drawerLoadDone a0 s) := by
  intro a0
  unfold drawerLoadDone
  try dsimp only
  repeat' (first
    | assumption
    | with_reducible apply drawerLoaded_inv
    | split
    | intro _)

theorem tfSnap_inv {s : State} (h : Inv s) : Inv (tfSnap s) := by
  unfold tfSnap
  try dsimp only
  repeat' (first
    | assumption
    | with_reducible apply raise_inv
    | (with_reducible apply elim_inv)
    | split
    | (with_reducible refine Inv.upd ?_ (fun k => { k with }))
    | intro _)

theorem stepAckRx_inv {s : State} (h : Inv s) : ∀ a0 a1 a2, Inv (stepAckRx a0 a1 a2 s) := by
  intro a0 a1 a2
  unfold stepAckRx
  try dsimp only
  repeat' (first
    | assumption
    | with_reducible apply resettle_inv
    | with_reducible apply hpMod_inv
    | split
    | (with_reducible refine Inv.upd ?_ (fun k => { k with }))
    | intro _)

theorem tfCandidate_inv {s : State} (h : Inv s) : ∀ a0 a1 a2 a3, Inv (tfCandidate a0 a1 a2 a3 s) := by
  intro a0 a1 a2 a3
  unfold tfCandidate
  try dsimp only
  repeat' (first
    | assumption
    | with_reducible apply judge_inv
    | with_reducible apply lineTimeMod_inv
    | with_reducible apply emit_inv
    | split
    | (with_reducible refine Inv.upd ?_ (fun k => { k with }))
    | intro _)

theorem updateRun_inv {s : State} (h : Inv s) : ∀ a0, Inv (updateRun a0 s) := by
  intro a0
  unfold updateRun
  try dsimp only
  repeat' (first
    | assumption
    | with_reducible apply gridFire_inv
    | with_reducible apply onChannels_inv
    | with_reducible apply updateChannel_inv
    | split
    | intro _)

theorem msgTxDone_inv {s : State} (h : Inv s) : ∀ p, Inv (msgTxDone p s) := fun p => by
  unfold msgTxDone
  split
  · exact h
  · have h1 := portTx_inv h p .idle
    exact portsStart_inv (ownLeave_inv { h1 with })
  · exact portStart_inv (portTx_inv h _ _) _
theorem stepLinkDrop_inv {s : State} (h : Inv s) : ∀ a0, Inv (stepLinkDrop a0 s) := by
  intro a0
  unfold stepLinkDrop
  try dsimp only
  repeat' (first
    | assumption
    | with_reducible apply msgLinkLost_inv
    | with_reducible apply hpMod_inv
    | split
    | (with_reducible refine Inv.upd ?_ (fun k => { k with }))
    | intro _)

theorem stepRx_inv {s : State} (h : Inv s) : ∀ a0 a1, Inv (stepRx a0 a1 s) := by
  intro a0 a1
  unfold stepRx
  try dsimp only
  repeat' (first
    | assumption
    | with_reducible apply resettle_inv
    | with_reducible apply hpMod_inv
    | with_reducible apply hingeOwn_inv
    | split
    | (with_reducible refine Inv.upd ?_ (fun k => { k with }))
    | intro _)

theorem groupSupplyLow_inv {s : State} (h : Inv s) : ∀ g, Inv (groupSupplyLow g s) := fun g => by
  unfold groupSupplyLow
  refine ite_inv (foldl_inv _ (raise_inv _ _ _ (foldl_inv _ h (fun _ _ hs => causeSet_inv hs _ _))) (fun _ _ hs => ?_)) h
  exact restage_inv hs _
theorem uncouple_inv {s : State} (h : Inv s) : ∀ a0, Inv (uncouple a0 s) := by
  intro a0
  unfold uncouple
  try dsimp only
  repeat' (first
    | assumption
    | with_reducible apply hpMod_inv
    | with_reducible apply startOwn_inv
    | with_reducible apply couplingSet_inv
    | (with_reducible apply foldl_inv)
    | split
    | (with_reducible refine Inv.upd ?_ (fun k => { k with }))
    | intro _)

theorem linkDownWaitEnd_inv {s : State} (h : Inv s) : ∀ a0, Inv (linkDownWaitEnd a0 s) := by
  intro a0
  unfold linkDownWaitEnd
  try dsimp only
  repeat' (first
    | assumption
    | with_reducible apply raise_inv
    | with_reducible apply hpMod_inv
    | with_reducible apply uncouple_inv
    | split
    | (with_reducible refine Inv.upd ?_ (fun k => { k with }))
    | intro _)

theorem twrWordOp_inv {s : State} (h : Inv s) : ∀ a0 a1 a2 a3, Inv (twrWordOp a0 a1 a2 a3 s) := by
  intro a0 a1 a2 a3
  unfold twrWordOp
  try dsimp only
  repeat' (first
    | assumption
    | with_reducible apply refuse_inv
    | with_reducible apply activeMod_inv
    | with_reducible apply answer_inv
    | with_reducible apply answer_inv
    | exact (⟨CoreInv.regs (by assumption), CoreInv.rets (by assumption), CoreInv.loops (by assumption), CoreInv.data (by assumption)⟩ : CoreInv _)
    | split
    | intro _)

theorem sinkOff_inv {s : State} (h : Inv s) : ∀ a0, Inv (sinkOff a0 s) := by
  intro a0
  unfold sinkOff
  try dsimp only
  repeat' (first
    | assumption
    | with_reducible apply chanMod_inv
    | with_reducible apply memSettle_inv
    | split
    | (with_reducible refine Inv.upd ?_ (fun k => { k with }))
    | intro _)

theorem inaugAttemptTimeout_inv {s : State} (h : Inv s) : ∀ a0, Inv (inaugAttemptTimeout a0 s) := by
  intro a0
  unfold inaugAttemptTimeout
  try dsimp only
  repeat' (first
    | assumption
    | with_reducible apply attemptFails_inv
    | split
    | intro _)

theorem openLoadClear_inv {s : State} (h : Inv s) : ∀ a0, Inv (openLoadClear a0 s) := by
  intro a0
  unfold openLoadClear
  try dsimp only
  repeat' (first
    | assumption
    | with_reducible apply causeClear_inv
    | split
    | intro _)

theorem twrHeaderOp_inv {s : State} (h : Inv s) : ∀ a0 a1 a2, Inv (twrHeaderOp a0 a1 a2 s) := by
  intro a0 a1 a2
  unfold twrHeaderOp
  try dsimp only
  repeat' (first
    | assumption
    | with_reducible apply refuse_inv
    | with_reducible apply activeMod_inv
    | with_reducible apply answer_inv
    | with_reducible apply answer_inv
    | exact (⟨CoreInv.regs (by assumption), CoreInv.rets (by assumption), CoreInv.loops (by assumption), CoreInv.data (by assumption)⟩ : CoreInv _)
    | split
    | intro _)

theorem commandAccept_inv {s : State} (h : Inv s) : ∀ a0, Inv (commandAccept a0 s) := by
  intro a0
  unfold commandAccept
  try dsimp only
  repeat' (first
    | assumption
    | with_reducible apply cmdJudge_inv
    | split
    | intro _)

theorem bufRdOp_inv {s : State} (h : Inv s) : ∀ a0 a1 a2 a3, Inv (bufRdOp a0 a1 a2 a3 s) := by
  intro a0 a1 a2 a3
  unfold bufRdOp
  try dsimp only
  repeat' (first
    | assumption
    | with_reducible apply bufRefused_inv
    | with_reducible apply poolUncorr_inv
    | with_reducible apply activeMod_inv
    | with_reducible apply refuseCore_inv
    | with_reducible apply unitsRead_inv
    | with_reducible apply answer_inv
    | with_reducible apply answer_inv
    | with_reducible apply refuseCore_inv
    | exact (⟨CoreInv.regs (by assumption), CoreInv.rets (by assumption), CoreInv.loops (by assumption), CoreInv.data (by assumption)⟩ : CoreInv _)
    | split
    | intro _)

theorem linkDown_inv {s : State} (h : Inv s) : ∀ a0, Inv (linkDown a0 s) := by
  intro a0
  unfold linkDown
  try dsimp only
  repeat' (first
    | assumption
    | with_reducible apply msgLinkLost_inv
    | with_reducible apply hpMod_inv
    | with_reducible apply uncouple_inv
    | split
    | (with_reducible refine Inv.upd ?_ (fun k => { k with }))
    | intro _)

theorem tnulOp_inv {s : State} (h : Inv s) : ∀ a0, Inv (tnulOp a0 s) := by
  intro a0
  unfold tnulOp
  try dsimp only
  repeat' (first
    | assumption
    | with_reducible apply activeMod_inv
    | with_reducible apply done_inv
    | exact (⟨CoreInv.regs (by assumption), CoreInv.rets (by assumption), CoreInv.loops (by assumption), CoreInv.data (by assumption)⟩ : CoreInv _)
    | split
    | (with_reducible refine Inv.upd ?_ (fun k => { k with }))
    | intro _)

theorem switchInstant_inv {s : State} (h : Inv s) : Inv (switchInstant s) := by
  unfold switchInstant
  try dsimp only
  repeat' (first
    | assumption
    | with_reducible apply cycleBody_inv
    | with_reducible apply icountClose_inv
    | with_reducible apply adopt_inv
    | with_reducible apply switchCycle_inv
    | with_reducible apply eventsTake_inv
    | split
    | (with_reducible refine Inv.upd ?_ (fun k => { k with }))
    | intro _)

theorem sleepMinDwell_inv {s : State} (h : Inv s) : Inv (sleepMinDwell s) := by
  unfold sleepMinDwell
  try dsimp only
  repeat' (first
    | assumption
    | with_reducible apply sleepLeave_inv
    | split
    | (with_reducible refine Inv.upd ?_ (fun k => { k with }))
    | intro _)

theorem hostOpInvalid_inv {s : State} (h : Inv s) : ∀ a0, Inv (hostOpInvalid a0 s) := by
  intro a0
  unfold hostOpInvalid
  try dsimp only
  repeat' (first
    | assumption
    | with_reducible apply hostGo_inv
    | split
    | intro _)

theorem thermalCutoff_inv {s : State} (h : Inv s) : ∀ a0, Inv (thermalCutoff a0 s) := by
  intro a0
  unfold thermalCutoff
  try dsimp only
  repeat' (first
    | assumption
    | with_reducible apply causeSet_inv
    | with_reducible apply chanMod_inv
    | with_reducible apply restage_inv
    | with_reducible apply raise_inv
    | split
    | (with_reducible refine Inv.upd ?_ (fun k => { k with }))
    | intro _)

theorem mpostSendOp_inv {s : State} (h : Inv s) : ∀ d a t c, Inv (mpostSendOp d a t c s) := fun d a t c => by
  unfold mpostSendOp
  have h1 := fun k b => activeMod_inv (answerCode d k b) h (fun _ hc => answerCode_inv _ _ _ hc)
  exact ite_inv (h1 _ _) (ownAdd_inv (chainOwner_inv (h1 _ _) _ _) _)
theorem relaySenseMismatch_inv {s : State} (h : Inv s) : ∀ a0, Inv (relaySenseMismatch a0 s) := by
  intro a0
  unfold relaySenseMismatch
  try dsimp only
  repeat' (first
    | assumption
    | with_reducible apply raise_inv
    | split
    | (with_reducible refine Inv.upd ?_ (fun k => { k with }))
    | intro _)

theorem openLoadDetect_inv {s : State} (h : Inv s) : ∀ a0, Inv (openLoadDetect a0 s) := by
  intro a0
  unfold openLoadDetect
  try dsimp only
  repeat' (first
    | assumption
    | with_reducible apply raise_inv
    | with_reducible apply causeSet_inv
    | with_reducible apply chanMod_inv
    | split
    | (with_reducible refine Inv.upd ?_ (fun k => { k with }))
    | intro _)

theorem hingeRx_inv {s : State} (h : Inv s) (sub : Byte) (p : Nat) (hd : HingeHdr) (f : State → State)
    (hf : ∀ s, Inv s → Inv (f s)) : Inv (hingeRx sub p hd f s) := by
  unfold hingeRx
  dsimp only
  split
  · exact h
  · exact hf _ { h with }
theorem measOp_inv {s : State} (h : Inv s) : ∀ a0 a1 a2 a3 a4, Inv (measOp a0 a1 a2 a3 a4 s) := by
  intro a0 a1 a2 a3 a4
  unfold measOp
  try dsimp only
  repeat' (first
    | assumption
    | with_reducible apply refuse_inv
    | with_reducible apply activeMod_inv
    | with_reducible apply answer_inv
    | with_reducible apply answer_inv
    | exact (⟨CoreInv.regs (by assumption), CoreInv.rets (by assumption), CoreInv.loops (by assumption), CoreInv.data (by assumption)⟩ : CoreInv _)
    | (with_reducible apply elim_inv)
    | split
    | (with_reducible refine Inv.upd ?_ (fun k => { k with }))
    | intro _)

theorem vsndDynamicOp_inv {s : State} (h : Inv s) : ∀ d a c, Inv (vsndDynamicOp d a c s) := fun d a c => by
  unfold vsndDynamicOp
  exact ite_inv (refuse_inv h _ _ _ _ _) (activeMod_inv _ (dynPost_inv h _ _ _) (fun _ hc => ⟨hc.regs, hc.rets, hc.loops, hc.data⟩))
theorem inbandPduVerified_inv {s : State} (h : Inv s) : Inv (inbandPduVerified s) := by
  unfold inbandPduVerified
  try dsimp only
  repeat' (first
    | assumption
    | with_reducible apply pduVerified_inv
    | split
    | (with_reducible refine Inv.upd ?_ (fun k => { k with }))
    | intro _)

theorem msgDropped_inv {s : State} (h : Inv s) : Inv (msgDropped s) := by
  unfold msgDropped
  try dsimp only
  repeat' (first
    | assumption
    | split
    | (with_reducible refine Inv.upd ?_ (fun k => { k with }))
    | intro _)

theorem msgFrameRx_inv {s : State} (h : Inv s) : ∀ a0 a1, Inv (msgFrameRx a0 a1 s) := by
  intro a0 a1
  unfold msgFrameRx
  try dsimp only
  repeat' (first
    | assumption
    | with_reducible apply raise_inv
    | with_reducible apply msgDropped_inv
    | with_reducible apply portStart_inv
    | with_reducible apply msgConsume_inv
    | split
    | (with_reducible refine Inv.upd ?_ (fun k => ?_); on_goal 2 => (first | exact { k with } | exact ⟨by first | exact k.mem | exact nvWrite_wf _ _ k.mem | exact smWf_smPutBytes _ _ k.mem, by first | exact k.doms | (simp only [List.length_modify, List.length_set, List.length_map, List.length_zipIdx, List.length_replicate, List.length_range]; first | done | exact k.doms) | rfl, by first | exact k.ports | (simp only [List.length_modify, List.length_set, List.length_map, List.length_zipIdx, List.length_replicate, List.length_range]; first | done | exact k.ports) | rfl, by first | exact k.tx | (simp only [List.length_modify, List.length_set, List.length_map, List.length_zipIdx, List.length_replicate, List.length_range]; first | done | exact k.tx) | rfl, by first | exact k.fwd | (simp only [List.length_modify, List.length_set, List.length_map, List.length_zipIdx, List.length_replicate, List.length_range]; first | done | exact k.fwd) | rfl, by first | exact k.branches | (simp only [List.length_modify, List.length_set, List.length_map, List.length_zipIdx, List.length_replicate, List.length_range]; first | done | exact k.branches) | rfl, by first | exact k.slotsRx | (simp only [List.length_modify, List.length_set, List.length_map, List.length_zipIdx, List.length_replicate, List.length_range]; first | done | exact k.slotsRx) | rfl, by first | exact k.slotsTx | (simp only [List.length_modify, List.length_set, List.length_map, List.length_zipIdx, List.length_replicate, List.length_range]; first | done | exact k.slotsTx) | rfl, by first | exact k.eqPorts | (simp only [List.length_modify, List.length_set, List.length_map, List.length_zipIdx, List.length_replicate, List.length_range]; first | done | exact k.eqPorts) | rfl, by first | exact k.chans | (simp only [List.length_modify, List.length_set, List.length_map, List.length_zipIdx, List.length_replicate, List.length_range]; first | done | exact k.chans) | rfl, by first | exact k.banks | (simp only [List.length_modify, List.length_set, List.length_map, List.length_zipIdx, List.length_replicate, List.length_range]; first | done | exact k.banks) | rfl, by first | exact k.drawers | (simp only [List.length_modify, List.length_set, List.length_map, List.length_zipIdx, List.length_replicate, List.length_range]; first | done | exact k.drawers) | rfl, by first | exact k.keys | (simp only [List.length_modify, List.length_set, List.length_map, List.length_zipIdx, List.length_replicate, List.length_range]; first | done | exact k.keys) | rfl, by first | exact k.refusals | (simp only [List.length_modify, List.length_set, List.length_map, List.length_zipIdx, List.length_replicate, List.length_range]; first | done | exact k.refusals) | rfl, by first | exact k.staged | (simp only [List.length_modify, List.length_set, List.length_map, List.length_zipIdx, List.length_replicate, List.length_range]; first | done | exact k.staged) | rfl, by first | exact k.copies | (simp only [List.length_modify, List.length_set, List.length_map, List.length_zipIdx, List.length_replicate, List.length_range]; first | done | exact k.copies) | rfl, by first | exact k.latches | (simp only [List.length_modify, List.length_set, List.length_map, List.length_zipIdx, List.length_replicate, List.length_range]; first | done | exact k.latches) | rfl, by first | exact k.pxc | (repeat' first | exact k.pxc | exact k.rxc | exact core_default_inv | apply coreLoad_inv | apply coreStop_inv | apply chkScatter_inv | apply coreOff_inv | apply taskStart_inv), by first | exact k.rxc | (repeat' first | exact k.pxc | exact k.rxc | exact core_default_inv | apply coreLoad_inv | apply coreStop_inv | apply chkScatter_inv | apply coreOff_inv | apply taskStart_inv), by first | exact k.opl | simp | (simp only [List.length_modify, List.length_set, List.length_map, List.length_zipIdx, List.length_replicate, List.length_range]; exact k.opl), by first | exact k.bufs | exact smWf_smPut _ _ k.bufs | rfl, by first | exact k.caps | exact smWf_smPut _ _ k.caps | rfl, by first | exact k.capsPrev | exact smWf_smPut _ _ k.capsPrev | rfl, by first | exact k.tickets | exact Nat.mod_lt _ (by decide) | decide⟩))
    | intro _)

theorem tempSensorStuck_inv {s : State} (h : Inv s) : ∀ a0 a1, Inv (tempSensorStuck a0 a1 s) := by
  intro a0 a1
  unfold tempSensorStuck
  try dsimp only
  repeat' (first
    | assumption
    | with_reducible apply raise_inv
    | split
    | (with_reducible refine Inv.upd ?_ (fun k => { k with }))
    | intro _)

theorem eqFrameRx_inv {s : State} (h : Inv s) : ∀ a0 a1 a2, Inv (eqFrameRx a0 a1 a2 s) := by
  intro a0 a1 a2
  unfold eqFrameRx
  try dsimp only
  repeat' (first
    | assumption
    | with_reducible apply rxDropped_inv
    | with_reducible apply eqMod_inv
    | with_reducible apply macControl_inv
    | with_reducible apply pfcAll_inv
    | with_reducible apply rxStore_inv
    | split
    | (with_reducible refine Inv.upd ?_ (fun k => { k with }))
    | intro _)

theorem hpAbort_inv {s : State} (h : Inv s) : ∀ a0 a1 a2 a3, Inv (hpAbort a0 a1 a2 a3 s) := by
  intro a0 a1 a2 a3
  unfold hpAbort
  try dsimp only
  repeat' (first
    | assumption
    | with_reducible apply transact_inv
    | with_reducible apply raise_inv
    | split
    | intro _)

theorem ballocOp_inv {s : State} (h : Inv s) : ∀ a0 a1 a2, Inv (ballocOp a0 a1 a2 s) := by
  intro a0 a1 a2
  unfold ballocOp
  try dsimp only
  repeat' (first
    | assumption
    | with_reducible apply poolAlloc_inv
    | with_reducible apply activeMod_inv
    | with_reducible apply answerCode_inv
    | with_reducible apply answerCode_inv
    | exact (⟨CoreInv.regs (by assumption), CoreInv.rets (by assumption), CoreInv.loops (by assumption), CoreInv.data (by assumption)⟩ : CoreInv _)
    | split
    | intro _)

theorem admitResend_inv {s : State} (h : Inv s) : ∀ a0, Inv (admitResend a0 s) := by
  intro a0
  unfold admitResend
  try dsimp only
  repeat' (first
    | assumption
    | with_reducible apply admitSend_inv
    | with_reducible apply admitRefused_inv
    | split
    | (with_reducible refine Inv.upd ?_ (fun k => { k with }))
    | intro _)

theorem removal_inv {s : State} (h : Inv s) : Inv (removal s) := by
  unfold removal
  try dsimp only
  repeat' (first
    | assumption
    | with_reducible apply startFlush_inv
    | with_reducible apply goOff_inv
    | split
    | (with_reducible refine Inv.upd ?_ (fun k => { k with }))
    | intro _)

theorem drawerSelect_inv {s : State} (h : Inv s) : ∀ a0 a1, Inv (drawerSelect a0 a1 s) := by
  intro a0 a1
  unfold drawerSelect
  try dsimp only
  repeat' (first
    | assumption
    | with_reducible apply drawerSel_inv
    | split
    | intro _)

theorem countRun_inv {s : State} (h : Inv s) : ∀ a0, Inv (countRun a0 s) := by
  intro a0
  unfold countRun
  try dsimp only
  repeat' (first
    | assumption
    | with_reducible apply gridFire_inv
    | with_reducible apply onChannels_inv
    | with_reducible apply countChannel_inv
    | split
    | intro _)

theorem coreCheckFail_inv {s : State} (h : Inv s) : ∀ a0, Inv (coreCheckFail a0 s) := by
  intro a0
  unfold coreCheckFail
  try dsimp only
  repeat' (first
    | assumption
    | with_reducible apply yieldNow_inv
    | split
    | intro _)

theorem tfAction_inv {s : State} (h : Inv s) (k : Byte) (e : Option Nat) (f : State → State)
    (hf : ∀ s, Inv s → Inv (f s)) : Inv (tfAction k e f s) := by
  unfold tfAction
  split
  · split
    · exact hf s h
    · exact h
  · apply gridFire_inv h
    intro _ s hs
    split
    · exact hs
    · exact onDomain_inv hs _ _ _ hf
theorem logClearDisarm_inv {s : State} (h : Inv s) : Inv (logClearDisarm s) := by
  unfold logClearDisarm
  try dsimp only
  repeat' (first
    | assumption
    | split
    | (with_reducible refine Inv.upd ?_ (fun k => { k with }))
    | intro _)

theorem pfcRefresh_inv {s : State} (h : Inv s) : ∀ a0, Inv (pfcRefresh a0 s) := by
  intro a0
  unfold pfcRefresh
  try dsimp only
  repeat' (first
    | assumption
    | with_reducible apply pfcSend_inv
    | split
    | intro _)

theorem drvOp_inv {s : State} (h : Inv s) : ∀ d a k c, Inv (drvOp d a k c s) := fun d a k c => by
  unfold drvOp
  exact ite_inv (refuse_inv h _ _ _ _ _) (chanMod_inv _ _ (activeMod_inv _ h (fun _ hc => ⟨hc.regs, hc.rets, hc.loops, hc.data⟩)))
theorem gateOp_inv {s : State} (h : Inv s) : ∀ a0 a1, Inv (gateOp a0 a1 s) := by
  intro a0 a1
  unfold gateOp
  try dsimp only
  repeat' (first
    | assumption
    | with_reducible apply refuse_inv
    | with_reducible apply activeMod_inv
    | with_reducible apply done_inv
    | exact (⟨CoreInv.regs (by assumption), CoreInv.rets (by assumption), CoreInv.loops (by assumption), CoreInv.data (by assumption)⟩ : CoreInv _)
    | split
    | (with_reducible refine Inv.upd ?_ (fun k => { k with }))
    | intro _)

/-! ### Commands -/

theorem act_inv {f : State → State} {t : Nat} {s s' : State} (h : Inv s) (hf : ∀ s, Inv s → Inv (f s))
    (he : act t f s = .next s') : Inv s' := by
  cases he
  have h2 := nvKick_inv (hf _ (begin__inv h t))
  exact { h2 with }

theorem actJ_inv {f : State → State} {s s' : State} (h : Inv s) (hf : ∀ s, Inv s → Inv (f s))
    (he : actJ f s = .next s') : Inv s' := act_inv h hf he

end Sys2Proof.Machine
end

