-- ==== Sys2Proof/Certificates/Slice0/Obligations.lean ====
section
/-! DEFINITION. The statements for the provers. Each clause of a statement stands on its own; the label before it names the
command or the case. -/

set_option linter.all false

open Sys2Proof Sys2Proof.Machine

/-- A step runs the front command of the queue with the rest of it in place; on an empty queue the block idles (the idling
is the model's choice, log 1). For every command c at the front of the queue, step is exec of c on the state with the
rest of the queue. With an empty queue step answers the same state: the model's own choice, log 1. Rests on
00_scope.md. -/
def Obligations.StepRunsFrontCommand : Prop :=
  -- stepFront
  (∀ c r s, s.pending = c :: r → step s = exec c { s with pending := r }) ∧
  -- stepIdle
  (∀ s : State, s.pending = [] → step s = .next s)

/-- Every command answers a next state and leaves the queue alone. For every command and every state, exec answers a next
state whose queue is that of the state before: no command ends in a fault or a refusal. The clause says nothing of the
effect. Rests on 00_scope.md. -/
def Obligations.EveryCommandCompletes : Prop :=
  -- completes
  (∀ c s, ∃ u, exec c s = .next u ∧ u.pending = s.pending)

/-- The reset state is a factory module in OFF, and it meets the invariant. State.reset is in OFF and not seated, no image
is in service, the NV store reads all ones, no power-cycle count, operating seconds or wake-failure count is stored,
key slot 0 holds the factory key and slots 1-7 are empty, no slot is staged, and the queue is empty. It meets Inv.
That the reset state is the module before its first insertion is the model's reading, log 9. Rests on R31, R539, R62,
R371. -/
def Obligations.ResetIsAFactoryModuleInOff : Prop :=
  -- resetState
  (State.reset.pwr.node = .off ∧ State.reset.pwr.seated = false ∧ State.reset.gr.img = none ∧ State.reset.pending = [] ∧
    (∀ a, smGet 0xFF State.reset.nv.mem a = 0xFF) ∧ State.reset.nv.cfg.pcyc = none ∧ State.reset.nv.cfg.opsec = none ∧ State.reset.nv.cfg.wfail = none ∧
    State.reset.nv.keys.map KeySlot.key = Config.factoryKey :: List.replicate 7 (List.replicate 32 0xFF) ∧ State.reset.nv.staged = [false, false]) ∧
  -- resetInv
  (Machine.Inv State.reset)

/-- Every step keeps the invariant of the machine. For every state that meets Inv, whatever the front command and its
operands: if step answers a next state, that state meets Inv. Inv holds: the NV store, the frame pool, the captures
and the data memories of both cores are canonical; there are 128 domains, 4 backbone and 4 equipment ports, 12
branches, 64 slots each way, 32 channels, 3 command banks, 2 drawers, 8 key slots, 2 image slots, 2 checkpoint copies
and 16 event latches; a core has 32 registers, at most 8 return entries and at most 4 loop entries; the OPL uses at
most 32,768 bytes; the next bench ticket is below 16. The canonical forms are the model's, log 49. Rests on R62, R119,
R220, R318, R371, R373, R404, R409, R468, R507, R519. -/
def Obligations.StepKeepsInvariant : Prop :=
  -- stepInv
  (∀ s u, Machine.Inv s → step s = .next u → Machine.Inv u)

/-- Core data memory, the NV store and the pool descriptors read back what was written and leave every other address
alone. Bytes written into a canonical data memory read back at their addresses and every other address reads as
before; a word written big-endian loads as itself. Bytes the NV controller writes read back, an erased sector reads
0xFF and every other sector as before. A buffer changed in the pool reads as changed, every other buffer as before.
That memories are kept in a canonical form is the model's, log 49. Rests on R379, R409, R410, R273. -/
def Obligations.MemoriesReadBackWhatWasWritten : Prop :=
  -- dataBack
  (∀ (c : Core) (a j : Nat) (b : Bytes), dataWf c = true → dataByte (dataPutBytes a b c) j = if a ≤ j ∧ j < a + b.length then b.getD (j - a) 0 else dataByte c j) ∧
  -- loadStore
  (∀ (c : Core) (a : Nat) (v : Word), dataWf c = true → w32 (beNat (dataBytesAt (dataPutBytes a (beBytes 4 v.toNat) c) a 4)) = v) ∧
  -- nvBack
  (∀ (nv : Nv) (a j : Nat) (b : Bytes), Memory.wf nv.mem = true → smGet 0xFF (nvWrite a b nv).mem j = if a ≤ j ∧ j < a + b.length then b.getD (j - a) 0 else smGet 0xFF nv.mem j) ∧
  -- nvErased
  (∀ (nv : Nv) (sec j : Nat) (o : Word), Memory.wf nv.mem = true → smGet 0xFF (nvErase sec o nv).mem j = if j / 4096 = sec then 0xFF else smGet 0xFF nv.mem j) ∧
  -- poolBack
  (∀ (s : State) (b j : Nat) (f : Buf → Buf), smWf {} s.pool.bufs = true → (bufMod b f s).buf j = if j = b then f (s.buf b) else s.buf j)

/-- Power entry, removal, supply loss, converter stop and the end of the flush. A confirmed seat takes the node from OFF
to WAKING with the first regulator attempt, the stored operating seconds and a power-cycle count one up. Removal and
supply loss in an awake node start the flush with their causes; removal and converter stop in SLEEP or WAKING lead to
OFF; the end of the flush leads to OFF. Each clause concludes that exec answers a next state, under conditions on the
state and the operands alone, and says what that state holds. That a flush lasts until FLUSH_DONE is the model's, log
14. Instants are the operands t (log 3). Rests on R31, R33, R34, R36, R44, R80, R81, R43. -/
def Obligations.PowerEntryAndFlush : Prop :=
  -- seatedConfirm
  (∀ s t, s.pwr.node = .off → Gives (.seatedConfirm t) s (fun u => u.pwr.node = .waking ∧ u.pwr.regOn = true ∧
    u.pwr.regAttempts = 1 ∧ u.pwr.pcyc = satInc (s.nv.cfg.pcyc.getD 0) ∧ u.pwr.opsec = s.nv.cfg.opsec.getD 0)) ∧
  -- removal
  (∀ s t, s.awake = true → s.pwr.flush = none → Gives (.removal t) s (fun u => u.pwr.seated = false ∧
    u.pwr.flush = some ⟨0x0101, false, s.pwr.opsec⟩ ∧ Occurred 0x0101 0xFF u)) ∧
  -- removalAsleep
  (∀ s t, s.pwr.node = .sleep ∨ s.pwr.node = .waking → Gives (.removal t) s (fun u => u.pwr.node = .off ∧ u.pwr.seated = false)) ∧
  -- supplyLoss
  (∀ s t, s.awake = true → s.pwr.flush = none → Gives (.supplyLoss t) s (fun u =>
    u.pwr.flush = some ⟨0x0102, false, s.pwr.opsec⟩ ∧ Occurred 0x0102 0xFF u)) ∧
  -- flushDone
  (∀ s t, s.pwr.flush.isSome = true → Gives (.flushDone t) s (fun u => u.pwr.node = .off ∧ u.pwr.flush = none ∧ u.pwr.markAbsent = false)) ∧
  -- converterStop
  (∀ s t, s.pwr.node = .sleep ∨ s.pwr.node = .waking → Gives (.converterStop t) s (fun u => u.pwr.node = .off ∧ u.pwr.bat = false))

/-- Regulator, PLL, relay sense and hold-up events of a waking node, and the end of a warm reset. The three regulator and
three PLL attempts with their failures, lock loss and lock regained, the hold-up measurement, a relay sense mismatch
and the end of a warm reset. Each clause concludes that exec answers a next state, under conditions on the state and
the operands alone, and says what that state holds. The warm reset's state is the model's reading, log 15. Instants
are the operands t (log 3). Rests on R41, R48, R59, R61, R76, R78, R79, R356. -/
def Obligations.WakingAndClocks : Prop :=
  -- holdupLow
  (∀ s t uF, s.pwr.node ≠ .off → s.pwr.node ≠ .sleep → uF.toNat < 500 → Gives (.holdupMeasure t uF) s (fun u =>
    u.pwr.holdup = uF.setWidth 17 ||| 0x10000 ∧ Occurred 0x0106 0xFF u)) ∧
  -- holdupGood
  (∀ s t uF, s.pwr.node ≠ .off → s.pwr.node ≠ .sleep → 900 ≤ uF.toNat → Gives (.holdupMeasure t uF) s (fun u =>
    u.pwr.holdup = uF.setWidth 17)) ∧
  -- relaySenseMismatch
  (∀ s t line, s.pwr.node ≠ .off → s.pwr.node ≠ .sleep → Gives (.relaySenseMismatch t line) s (fun u =>
    u.pwr.relayA = s.pwr.relayA ∧ u.pwr.relayB = s.pwr.relayB ∧
    (line = .a → u.pwr.misA = true ∧ Occurred 0x0104 0xFF u) ∧ (line = .b → u.pwr.misB = true ∧ Occurred 0x0105 0xFF u))) ∧
  -- powerGood
  (∀ s t, s.pwr.node = .waking → s.pwr.regOn = true → s.pwr.pllOn = false → s.pwr.pllAttempts = 0 →
    Gives (.powerGood t) s (fun u => u.pwr.pllOn = true ∧ u.pwr.pllAttempts = 1 ∧ u.pwr.node = .waking)) ∧
  -- powerGoodTimeout
  (∀ s t, s.pwr.node = .waking → s.pwr.regOn = true → s.pwr.pllAttempts = 0 → s.pwr.regAttempts < 3 →
    Gives (.powerGoodTimeout t) s (fun u => u.pwr.node = .waking ∧ u.pwr.regOn = false ∧ u.pwr.regAttempts = s.pwr.regAttempts)) ∧
  -- wakeFailure
  (∀ s t, s.pwr.node = .waking → s.pwr.regOn = true → s.pwr.pllAttempts = 0 → 3 ≤ s.pwr.regAttempts →
    Gives (.powerGoodTimeout t) s (fun u => u.pwr.node = .sleep ∧ u.pwr.pgLatch = true ∧ u.pwr.wakeFailPin = true ∧
      u.pwr.wfCount = satInc s.pwr.wfCount ∧ u.pwr.wfAttempts = 3 ∧ u.pwr.wfSec = s.pwr.opsec ∧ u.pwr.wfPcyc = s.pwr.pcyc)) ∧
  -- regulatorAttempt
  (∀ s t, s.pwr.node = .waking → s.pwr.regOn = false → 1 ≤ s.pwr.regAttempts → s.pwr.regAttempts < 3 →
    Gives (.regulatorAttempt t) s (fun u => u.pwr.regOn = true ∧ u.pwr.regAttempts = s.pwr.regAttempts + 1)) ∧
  -- pllLocked
  (∀ s t, s.pwr.node = .waking → s.pwr.pllOn = true → Gives (.pllLocked t) s (fun u =>
    u.pwr.node = .bringup ∧ u.cyc.phase = 0)) ∧
  -- pllLockTimeout
  (∀ s t, s.pwr.node = .waking → s.pwr.pllOn = true → s.pwr.pllAttempts < 3 →
    Gives (.pllLockTimeout t) s (fun u => u.pwr.node = .waking ∧ u.pwr.pllOn = false)) ∧
  -- pllLockFailure
  (∀ s t, s.pwr.node = .waking → s.pwr.pllOn = true → 3 ≤ s.pwr.pllAttempts →
    Gives (.pllLockTimeout t) s (fun u => u.pwr.node = .limp ∧ u.pwr.wakeFailPin = true ∧ Occurred 0x0202 0xFF u)) ∧
  -- pllRetry
  (∀ s t, s.pwr.node = .waking → s.pwr.regOn = true → s.pwr.pllOn = false → 1 ≤ s.pwr.pllAttempts → s.pwr.pllAttempts < 3 →
    Gives (.pllRetry t) s (fun u => u.pwr.pllOn = true ∧ u.pwr.pllAttempts = s.pwr.pllAttempts + 1)) ∧
  -- pllLockLoss
  (∀ s t dev stopped, s.awake = true → s.pwr.node ≠ .limp → s.pwr.locked = true → Gives (.pllLockLoss t dev stopped) s (fun u =>
    u.pwr.locked = false ∧ u.pwr.losses = satInc s.pwr.losses ∧ u.pwr.clkDev = dev ∧ u.pwr.lockLost = true ∧ Occurred 0x0203 0xFF u)) ∧
  -- pllLockRegained
  (∀ s t, s.awake = true → s.pwr.node ≠ .limp → s.pwr.locked = false → Gives (.pllLockRegained t) s (fun u =>
    u.pwr.locked = true ∧ Occurred 0x0204 0xFF u)) ∧
  -- warmResetEnd
  (∀ s t, s.pwr.warmOff = true → Gives (.warmResetEnd t) s (fun u => u.pwr.warmOff = false ∧ u.pwr.regOn = true ∧
    u.pwr.pllOn = true ∧ u.pwr.pllAttempts = 1))

/-- Domain switching, node state limits, operating seconds and the CFG stores. A planned domain reaches its target, a
switch that times out records 0x0207, no image in time records 0x0205, the sleep dwell, the end and the cut of
quiesce, the operating seconds, and the CFG store that queues operating seconds and N. Each clause concludes that exec
answers a next state, under conditions on the state and the operands alone, and says what that state holds. Instants
are the operands t (log 3). Rests on R64, R68, R71, R72, R73, R81, R296, R504, R536. -/
def Obligations.DomainsAndNodeStates : Prop :=
  -- domainSwitchTimeout
  (∀ s t d, d < 128 → (s.dom d).act ≠ domTarget s d (s.dom d) → Gives (.domainSwitchTimeout t d) s (fun u =>
    u.pwr.node = s.pwr.node ∧ Occurred 0x0207 d u)) ∧
  -- domainSettled
  (∀ s t d, Machine.Inv s → planned d = true → s.running = true → Gives (.domainSettled t d) s (fun u => (u.dom d).act = domTarget s d (s.dom d))) ∧
  -- noImageTimeout
  (∀ s t, s.pwr.node = .bringup → s.nv.ver.admitted = none → s.pwr.noImage = false →
    Gives (.noImageTimeout t) s (fun u => u.pwr.noImage = true ∧ Occurred 0x0205 0xFF u)) ∧
  -- sleepMinDwell
  (∀ s t, s.pwr.node = .sleep → s.pwr.wakeLatch = none → Gives (.sleepMinDwell t) s (fun u => u.pwr.node = .sleep ∧ u.pwr.sleepDwelt = true)) ∧
  -- quiesceDone
  (∀ s t, s.pwr.node = .quiesce → s.pwr.flush = none → quiesceDrained s = true → Gives (.quiesceDone t) s (fun u => u.pwr.node = .sleep)) ∧
  -- quiesceCut
  (∀ s t, s.pwr.node = .quiesce → s.pwr.flush = none → Gives (.quiesceCut t) s (fun u => u.pwr.node = .sleep ∧ u.pwr.qcut = true)) ∧
  -- opsecTick
  (∀ s t, s.pwr.node ≠ .off → s.pwr.node ≠ .sleep → Gives (.opsecTick t) s (fun u => u.pwr.opsec = satInc s.pwr.opsec)) ∧
  -- cfgStore
  (∀ s t, s.awake = true → s.pwr.flush = none → Gives (.cfgStore t) s (fun u =>
    u.nv.cfgQ = s.nv.cfgQ ++ [{ opsec := some s.pwr.opsec, n := some s.lg.jseq, clean := false }]))

/-- Wake sources, the line check and the wake flood. WAKE_IN in SLEEP and in QUIESCE, the wake channel, wake patterns,
bursts good and bad, the end of the line check, the listen timeout, the sending of a burst and the quiet after the
bursts. Each clause concludes that exec answers a next state, under conditions on the state and the operands alone,
and says what that state holds. Instants are the operands t (log 3). Rests on R72, R297, R299, R300, R301, R302, R304. -/
def Obligations.WakeSources : Prop :=
  -- wakeInDetect
  (∀ s t, s.pwr.node = .sleep → s.pwr.wakeLatch = none → Gives (.wakeInDetect t) s (fun u =>
    u.pwr.wakeLatch = some ⟨0x01, 0, 0, 0⟩ ∧ u.pwr.flood = .check ∧ u.pwr.node = .sleep)) ∧
  -- wakeInDetectQ
  (∀ s t, s.pwr.node = .quiesce → s.pwr.wakeLatch = none → Gives (.wakeInDetect t) s (fun u =>
    u.pwr.wakeLatch = some ⟨0x01, 0, 0, 0⟩ ∧ u.pwr.node = .quiesce)) ∧
  -- wakeChannelDetect
  (∀ s t c, s.pwr.node = .sleep → s.pwr.wakeLatch = none → s.pwr.wakeChArmed = some c → Gives (.wakeChannelDetect t) s (fun u =>
    u.pwr.wakeLatch = some ⟨0x02, BitVec.ofNat 5 c, 0, 0⟩ ∧ u.pwr.flood = .check)) ∧
  -- wakePatternMatch
  (∀ s t (n : Fin 4) f i, s.pwr.node = .sleep → s.pwr.wakeLatch = none → (s.dom (26 + n.val)).act = .low →
    (s.pwr.filters.getD n.val []).findIdx? (fun g => g.elim false (fun g => patternMatch g f)) = some i →
    Gives (.wakePatternMatch t n f) s (fun u => u.pwr.wakeLatch = some ⟨0x03, 0, BitVec.ofNat 2 n.val, BitVec.ofNat 2 i⟩ ∧ u.pwr.flood = .check)) ∧
  -- burstReceived
  (∀ s t, s.pwr.node = .sleep → s.pwr.tapArmed = true → s.pwr.wakeLatch = none → s.pwr.flood ≠ .listen →
    Gives (.burstReceived t wakeBurst) s (fun u => u.pwr.wakeLatch = some ⟨0x04, 0, 0, 0⟩ ∧ u.pwr.flood = .check)) ∧
  -- burstBad
  (∀ s t b, b ≠ wakeBurst → Gives (.burstReceived t b) s (fun u => u.pwr.wakeLatch = s.pwr.wakeLatch ∧ u.pwr.flood = s.pwr.flood ∧ u.pwr.node = s.pwr.node)) ∧
  -- lineCheckListen
  (∀ s t w, s.pwr.node = .sleep → s.pwr.flood = .check → s.pwr.wakeLatch = some w → w.cause ≠ 0x04 →
    Gives (.lineCheckEnd t false true) s (fun u => u.pwr.flood = .listen ∧ u.pwr.node = .sleep)) ∧
  -- lineCheckWakes
  (∀ s t w p, s.pwr.node = .sleep → s.pwr.flood = .check → s.pwr.sleepDwelt = true → s.pwr.wakeLatch = some w →
    Gives (.lineCheckEnd t true p) s (fun u => u.pwr.node = .waking ∧ u.pwr.wakeSrc = some w ∧ u.pwr.regOn = true ∧ u.pwr.regAttempts = 1)) ∧
  -- burstListenTimeout
  (∀ s t w, s.pwr.node = .sleep → s.pwr.flood = .listen → s.pwr.sleepDwelt = true → s.pwr.wakeLatch = some w →
    Gives (.burstListenTimeout t) s (fun u => u.pwr.node = .waking ∧ u.pwr.wakeSrc = some w)) ∧
  -- wakeBurstSend
  (∀ s t, s.pwr.node = .waking ∨ s.pwr.node = .bringup → s.pwr.flood = .bursts → s.pwr.burstsLeft ≠ 0 → Gives (.wakeBurstSend t) s (fun u =>
    u.pwr.burstsLeft = s.pwr.burstsLeft - 1 ∧ u.wire = [.burst wakeBurst])) ∧
  -- burstQuiet
  (∀ s t, s.pwr.flood = .quiet → s.cycling = true → s.pwr.relayAWaits = true → Gives (.burstQuiet t) s (fun u =>
    u.pwr.flood = .none ∧ u.pwr.relayA = true ∧ u.pwr.relayAWaits = false))

/-- Backbone links, speed steps, relay set B and probes. Link up and down, a drop during a step, the end of the wait with
a line break or an uncoupling, the 2 s event, STEP, STEP_ACK, the end, the timeout and the retry of a step, relay set
B, PROBE, PROBE_RSP and the probe interval. Each clause concludes that exec answers a next state, under conditions on
the state and the operands alone, and says what that state holds. Details of probing are the model's reading, log 39.
Instants are the operands t (log 3). Rests on R119, R120, R121, R122, R123, R125, R131, R132, R129. -/
def Obligations.HingeLinks : Prop :=
  -- linkUp
  (∀ s t (p : Fin 4) n, Machine.Inv s → s.cycling = true → (s.hp p).speed = 0 → (s.hp p).stepping = false → n ≠ s.dev.nodeId →
    Gives (.linkUp t p n) s (fun u => (u.hp p).speed = 1 ∧ (u.hp p).nbr = n ∧ (u.hp p).waiting = false)) ∧
  -- linkDown
  (∀ s t (p : Fin 4), Machine.Inv s → s.cycling = true → (s.hp p).speed ≠ 0 → (s.hp p).stepping = false → lineInUse s p = true → (s.hp (otherLine p)).broken = false →
    Gives (.linkDown t p) s (fun u => (u.hp p).speed = 0 ∧ (u.hp p).waiting = true ∧ (u.hp p).nbr = 0)) ∧
  -- stepDrop
  (∀ s t (p : Fin 4), Machine.Inv s → (s.hp p).stepping = true → Gives (.stepLinkDrop t p) s (fun u => (u.hp p).speed = 0 ∧ (u.hp p).settled = false ∧ (u.hp p).stepping = true)) ∧
  -- lineBreak
  (∀ s t (p : Fin 4), Machine.Inv s → s.cycling = true → (s.hp p).waiting = true → (s.hp p).speed = 0 → portInUse s (otherLine p) = true →
    Gives (.linkDownWaitEnd t p) s (fun u => (u.hp p).broken = true ∧ (u.hp p).waiting = false ∧ u.hg.st = s.hg.st ∧ Occurred 0x1010 (portLine p) u)) ∧
  -- uncoupled
  (∀ s t (p : Fin 4), s.cycling = true → s.hg.refused = false → (s.hp p).waiting = true → (s.hp p).speed = 0 → portInUse s (otherLine p) = false →
    Gives (.linkDownWaitEnd t p) s (fun u => u.hg.st = .probing ∧ u.hg.lastCause = 2 ∧ u.hg.running = s.hg.running + 1 ∧ Occurred 0x1000 0xFF u)) ∧
  -- lineDown2s
  (∀ s t (p : Fin 4), s.cycling = true → (s.hp p).broken = true → (s.hp p).speed = 0 → Gives (.lineDown2s t p) s (fun u => u.hg = s.hg ∧ Occurred 0x1012 (portLine p) u)) ∧
  -- step
  (∀ s t (p : Fin 4) h n, Machine.Inv s → Heard 0x17 p h s → s.running = true → steps n = true → (s.hp p).speed = 1 → (s.hp p).stepping = false →
    Gives (.step t p h n) s (fun u => (u.hp p).stepping = true ∧ (u.hp p).nbrState = n ∧ (u.hp p).master = isMaster s p)) ∧
  -- stepAck
  (∀ s t (p : Fin 4) h n m, Machine.Inv s → Heard 0x18 p h s → s.running = true → (s.hp p).speed = 1 → (s.hp p).stepping = false →
    Gives (.stepAck t p h n m) s (fun u => (u.hp p).stepping = true ∧ (u.hp p).nbrState = n ∧ (u.hp p).master = m)) ∧
  -- stepComplete
  (∀ s t (p : Fin 4), Machine.Inv s → (s.hp p).stepping = true → Gives (.stepComplete t p) s (fun u => (u.hp p).speed = 2 ∧ (u.hp p).stepping = false ∧ (u.hp p).settled = true)) ∧
  -- stepTimeout
  (∀ s t (p : Fin 4), Machine.Inv s → (s.hp p).stepping = true → Gives (.stepTimeout t p) s (fun u => (u.hp p).speed = 1 ∧ (u.hp p).stepping = false ∧
    (u.hp p).stepFailed = true ∧ Occurred 0x1015 p u)) ∧
  -- stepRetry
  (∀ s t (p : Fin 4), s.running = true → (s.hp p).speed = 1 → (s.hp p).stepFailed = true → (s.hp p).stepping = false → s.hg.ttr.isNone = false → s.tf.window = false →
    Gives (.stepRetry t p) s (fun u => u.hg.queue = s.hg.queue ++ [(p.val, ⟨hingeHdr s p (ownCount s), .step (BitVec.ofNat 8 s.pwr.node.code)⟩)])) ∧
  -- relayBDrive
  (∀ s t, s.running = true → s.hg.st ≠ .admitting → s.hg.refused = false → s.pwr.relayB = false → Gives (.relayBDrive t) s (fun u => u.pwr.relayB = true)) ∧
  -- probe
  (∀ s t (p : Fin 4) h a n x f r, Machine.Inv s → Heard 0x11 p h s → s.hg.ttr.isNone = true → Gives (.probe t p h a n x f r) s (fun u =>
    (u.hp p).nbrState = n ∧ (u.hp p).nbrPort = a.toNat ∧
    u.wire = [.hinge p ⟨hingeHdr s p (ownCount s), .probeRsp (BitVec.ofNat 8 p) (BitVec.ofNat 8 s.hg.st.code) h.mseq 0 r⟩])) ∧
  -- probeRsp
  (∀ s t (p : Fin 4) h a st e x r rt cab, Machine.Inv s → Heard 0x12 p h s → s.hg.st ≠ .unnumbered → (s.hp p).rttCount < 16 →
    Gives (.probeRsp t p h a st e x r rt cab) s (fun u => (u.hp p).rttCount = (s.hp p).rttCount + 1 ∧ (u.hp p).rttSum = (s.hp p).rttSum + (rt - r.toNat) ∧ u.hg.cab = cab)) ∧
  -- probeInterval
  (∀ s t, s.cycling = true → s.hg.st = .probing → s.hg.ttr = none → Gives (.probeInterval t) s (fun u => ∀ p < 4, (s.hp p).speed ≠ 0 →
    ∃ h, TxItem.hinge p ⟨h, .probe (BitVec.ofNat 8 p) (BitVec.ofNat 8 s.pwr.node.code) 0 (ownFp s)⟩ ∈ u.wire))

/-- Inauguration: starts, attempts, sweeps, TTR, admission and amendments. START, the open side, the link wait of
bring-up, the retry after a failure, the end of an attempt, a held sweep, the end of probing, a TTR taken or aborting,
ADMIT_REQ, ADMIT_REF, its resend, the probe again, and the amendment of the origin. Each clause concludes that exec
answers a next state, under conditions on the state and the operands alone, and says what that state holds. Details
are the model's reading, logs 39 and 41. Instants are the operands t (log 3). Rests on R130, R136, R137, R138, R139,
R143, R146, R147, R149, R150, R151, R154. -/
def Obligations.HingeInauguration : Prop :=
  -- start
  (∀ s t (p : Fin 4) h c, Heard 0x10 p h s → s.hg.running.toNat < h.icount.toNat → Gives (.start t p h c) s (fun u =>
    u.hg.st = .probing ∧ u.hg.running = h.icount ∧ u.hg.lastCause = c ∧ u.hg.ttr = none ∧ u.hg.icount = 0 ∧ Occurred 0x1000 0xFF u)) ∧
  -- openSideStart
  (∀ s t b, s.cycling = true → s.hg.refused = false → s.hg.coupling.getD (if b then 0 else 1) false = true → (sidePorts b).any (portInUse s) = true →
    Gives (.openSideStart t b) s (fun u => u.hg.st = .probing ∧ u.hg.running = s.hg.running + 1 ∧ u.hg.lastCause = 1 ∧ u.hg.ttr = none ∧ Occurred 0x1000 0xFF u)) ∧
  -- bringupAlone
  (∀ s t, s.cycling = true → s.hg.st = .unnumbered → s.hg.probed = false → bringupWait s = true → s.hg.refused = false → (s.hp 0).speed = 0 → (s.hp 1).speed = 0 →
    Gives (.bringupLinkWait t) s (fun u => u.hg.st = .probing ∧ u.hg.running = s.hg.running + 1 ∧ u.hg.lastCause = 3 ∧ u.hg.ttr = none ∧ Occurred 0x1000 0xFF u)) ∧
  -- bringupProbes
  (∀ s t, s.cycling = true → s.hg.st = .unnumbered → s.hg.probed = false → bringupWait s = true → (s.hp 0).speed ≠ 0 →
    Gives (.bringupLinkWait t) s (fun u => u.hg.probed = true ∧ u.hg.st = .unnumbered)) ∧
  -- failedRetry
  (∀ s t, s.cycling = true → s.hg.refused = false → s.hg.st = .failed → Gives (.failedRetry t) s (fun u => u.hg.st = .probing ∧ u.hg.running = s.hg.running + 1 ∧ u.hg.lastCause = 7 ∧ u.hg.ttr = none ∧ Occurred 0x1000 0xFF u)) ∧
  -- attemptAgain
  (∀ s t, s.cycling = true → s.hg.refused = false → s.hg.st = .probing → s.hg.fails < 2 → Gives (.inaugAttemptTimeout t 2) s (fun u => u.hg.fails = s.hg.fails + 1 ∧
    u.hg.st = .probing ∧ u.hg.running = s.hg.running + 1 ∧ u.hg.lastCause = 7 ∧ Occurred 0x1002 0xFF u ∧ Occurred 0x1000 0xFF u)) ∧
  -- attemptsOver
  (∀ s t, s.cycling = true → s.hg.st = .probing → s.hg.fails = 2 → Gives (.inaugAttemptTimeout t 2) s (fun u => u.hg.fails = 3 ∧
    u.hg.st = .failed ∧ Occurred 0x1002 0xFF u ∧ Occurred 0x1003 0xFF u)) ∧
  -- discoverHeld
  (∀ s t (p : Fin 4) h o r cab, Heard 0x13 p h s → h.icount = s.hg.running → s.hg.st = .probing → Gives (.discover t p h o r cab) s (fun u =>
    u.hg.heldSweeps = s.hg.heldSweeps ++ [(p.val, ⟨h, .discover o r⟩)] ∧ u.hg.cab = cab)) ∧
  -- probingEnd
  (∀ s t cab, s.cycling = true → s.hg.st = .probing → hasNeighbour s true = true → hasNeighbour s false = true → s.hg.heldSweeps = [] →
    Gives (.probingEnd t cab) s (fun u => u.hg.st = .discovering ∧ u.hg.cab = cab)) ∧
  -- ttrTaken
  (∀ s t (p : Fin 4) h b r, Heard 0x14 p h s → ttrFlag b 3 = false → ttrFlag b 2 = false → b.recs ≠ [] → h.icount = s.hg.running → s.hg.st.inaugurating = true →
    100000 ≤ b.switchDly.toNat → ttrKeeps s b = false → (s.hp p).rttCount = 0 → Gives (.ttr t p h b r) s (fun u => u.hg.st = .awaitSwitch ∧
      u.hg.pendTtr = some (b, s.hg.running, s.cyc.base + max s.cyc.phase t + b.switchDly.toNat))) ∧
  -- ttrAbort
  (∀ s t (p : Fin 4) h b r, Heard 0x14 p h s → ttrFlag b 3 = false → ttrFlag b 2 = true → h.icount = s.hg.running → s.hg.st.inaugurating = true →
    Gives (.ttr t p h b r) s (fun u => u.hg.st = .unnumbered ∧ u.hg.pendTtr = none ∧ Occurred 0x1004 0xFF u)) ∧
  -- admitReq
  (∀ s t (p : Fin 4) h r, Heard 0x15 p h s → isOrigin s = true → Gives (.admitReq t p h r) s (fun u =>
    u.hg.requests = s.hg.requests.filter (fun e => e.1 ≠ h.srcId) ++ [(h.srcId, r)])) ∧
  -- admitRef
  (∀ s t (p : Fin 4) h k, Heard 0x16 p h s → s.hg.st = .admitting → Gives (.admitRef t p h s.dev.nodeId k) s (fun u => u.hg.st = .unnumbered ∧ u.hg.refused = true ∧
    u.pwr.relayA = false ∧ u.pwr.relayB = false ∧ Occurred 0x1022 0xFF u)) ∧
  -- admitResend
  (∀ s t cab, s.cycling = true → s.hg.st = .admitting → s.hg.admitSends < 10 → Gives (.admitResend t cab) s (fun u => u.hg.admitSends = s.hg.admitSends + 1 ∧ u.hg.st = .admitting)) ∧
  -- admitReprobe
  (∀ s t, s.cycling = true → s.hg.refused = true → s.hg.st = .unnumbered → s.pwr.relayA = false → Gives (.admitReprobe t) s (fun u => u.pwr.relayA = true ∧ u.hg.probed = false)) ∧
  -- originAmendment
  (∀ s t x, s.hg.ttr = some x → isOrigin s = true → s.hg.amend = none → s.hg.requests ≠ [] → s.cycling = true → Gives (.originAmendment t) s (fun u =>
    u.hg.requests = [] ∧ (u.hg.amend = none ∨ ∃ new, u.hg.amend = some new ∧ new.rev = x.rev + 1 ∧ new.adoptCyc = s.cyc.cyc + 16 ∧ new.topoHash = topoHash new.recs ∧ new.recs ≠ x.recs)))

/-- The cycle start, the switch instant, the correction interval and LIMP_APPLY. A cycle start moves the base, train time
and CYC as the cycle model gives them, or a warm reset is due; the entry into QUIESCE; the switch instant sets CYC to
0; the correction interval takes the measurement; LIMP_APPLY applies the shadows 1 us on. Each clause concludes that
exec answers a next state, under conditions on the state and the operands alone, and says what that state holds. The
reading of corrections is log 35, of QUIESCE log 17, of LIMP log 51. Instants are the operands t (log 3). Rests on
R158, R171, R143, R178, R179, R293, R447, R457. -/
def Obligations.CycleStartAndTime : Prop :=
  -- cycleStart
  (∀ s, s.cycling = true ∨ s.pwr.node = .quiesce → (s.pwr.node = .bringup → s.nv.ver.admitted = none) → s.hg.amend = none →
    Gives .cycleStart s (fun u => u.pwr.node = .waking ∨ (u.cyc.base = s.cyc.base + (cycleNext s).1 ∧ u.cyc.phase = 0 ∧
      u.cyc.tt = (cycleNext s).2.1 ∧ u.cyc.cyc = (cycleNext s).2.2))) ∧
  -- quiesceEntry
  (∀ s, s.cycling = true → s.hg.amend = none → s.tf.quiesceCyc = some (cycleNext s).2.2 → s.cr.takeover = none → s.pwr.flush = none →
    Gives .cycleStart s (fun u => u.pwr.node = .quiesce)) ∧
  -- switchInstant
  (∀ s t ic a, s.hg.pendTtr = some (t, ic, a) → s.hg.st = .awaitSwitch → s.cycling = true → (s.pwr.node = .bringup → s.nv.ver.admitted = none) →
    Gives .switchInstant s (fun u => u.pwr.node = .waking ∨ (u.cyc.base = s.cyc.base + max s.cyc.phase (a - s.cyc.base) ∧ u.cyc.phase = 0 ∧ u.cyc.cyc = 0 ∧
      u.cyc.tt = s.cyc.tt + BitVec.ofNat 64 (max s.cyc.phase (a - s.cyc.base))))) ∧
  -- correctionInterval
  (∀ s, s.cycling = true → Gives .correctionInterval s (fun u => u.cyc.corr = s.cyc.meas.elim s.cyc.corr appliedC ∧ u.cyc.meas = none ∧
    u.cyc.phase = max s.cyc.phase (tCycle s - 2000))) ∧
  -- limpApply
  (∀ s, s.pwr.node = .limp → s.lg.execQ = [] → s.pwr.resetNow = false → Gives .limpApply s (fun u =>
    u.rg.ws = shadowsOn s.rg.shadowLate (shadowsOn s.rg.shadow s.rg.ws) ∧ u.rg.shadow = [] ∧ u.rg.shadowLate = [] ∧ u.cyc.phase = s.cyc.phase + 1000))

/-- The train frame: snapshot, read, outbound copy, turn, candidate and launch. TF_SNAP freezes the window; TF_READ
publishes the accepted copy or none; an outbound frame is written and forwarded or turned; a candidate is accepted or
counted bad; the origin launches. Each clause concludes that exec answers a next state, under conditions on the state
and the operands alone, and says what that state holds. Details are the model's reading, log 37. Instants are the
operands t (log 3). Rests on R98, R193, R194, R197, R203, R204, R206, R209. -/
def Obligations.TrainFrameAtTheNode : Prop :=
  -- tfSnap
  (∀ s w, engineFires { s with pwr := { s.pwr with wakeIn := w } } = true → Gives (.tfSnap none w) s (fun u =>
    u.tf.frozen = some (windowContent { s with pwr := { s.pwr with wakeIn := w } }) ∧ u.tf.ready = .none)) ∧
  -- tfSnapGrid
  (∀ s i e w, Fires s 0x09 i e → engineFires { s with pwr := { s.pwr with wakeIn := w } } = false → usable s 7 = true →
    Gives (.tfSnap (some i) w) s (fun u => u.tf.frozen = some (windowContent { s with pwr := { s.pwr with wakeIn := w } }) ∧ u.tf.ready = .none)) ∧
  -- tfReadNone
  (∀ s, engineFires s = true → s.tf.accepted = none → s.tf.held = none → Gives (.tfRead none) s (fun u =>
    u.tf.snap.valid = false ∧ u.tf.snapPrev = s.tf.snap ∧ u.tf.noCopy = s.tf.noCopy + 1 ∧ Occurred 0x2040 0xFF u)) ∧
  -- tfReadCopy
  (∀ s i e c t, Fires s 0x0A i e → engineFires s = false → usable s 7 = true → s.tf.accepted = some c → s.hg.ttr = some t →
    Gives (.tfRead (some i)) s (fun u => u.tf.snap = (publish c t (atEntry e s)).tf.snap ∧ u.tf.snapPrev = s.tf.snap)) ∧
  -- tfOutbound
  (∀ s t x line p good, forwards s line = true → isOrigin s = false → s.hg.ttr = some x → outFault s p = 0 → writes s line = true →
    onwardFault s (innerPort s line) (outerPort s line) = 0 → Gives (.tfOutbound t line p good) s (fun u =>
      (lineTime u line).tOut = some ((s.cyc.tt.toNat + max s.cyc.phase t : Nat) : Int) ∧
      u.wire = [.train line false (writeOwn (lineTimeMod line (fun y => { y with tOut := some ((s.cyc.tt.toNat + max s.cyc.phase t : Nat) : Int) }) s) x line p) good])) ∧
  -- tfTurn
  (∀ s t line p good, forwards s line = true → isOrigin s = false → outFault s p = 0 → nodesBeyond s line = false →
    onwardFault s (innerPort s line) (outerPort s line) ≠ 0 → s.tf.turned.length = 2 → Gives (.tfOutbound t line p good) s (fun u =>
      (lineTime u line).rt = some 960 ∧ ∃ out, u.tf.turned.getD (lineNo line) none = some ⟨out, good⟩ ∧ u.wire = [.train line true out good])) ∧
  -- tfCandidate
  (∀ s t line p r x, forwards s line = true → s.hg.ttr = some x → s.tf.turned.getD (lineNo line) none = none → s.tf.readDone = false →
    s.tf.accepted = none → candFault s p true = 0 → hdrFlag p 4 = false → hashAgrees s p = true →
    Gives (.tfCandidate t line p true r) s (fun u => u.tf.accepted = some ⟨line, p⟩)) ∧
  -- tfCandidateBad
  (∀ s t p good r x, forwards s .a = true → s.hg.ttr = some x → s.tf.turned.getD 0 none = none → s.tf.readDone = false →
    candFault s p good ≠ 0 → Gives (.tfCandidate t .a p good r) s (fun u => u.tf.badA = s.tf.badA + 1 ∧ u.tf.cands = s.tf.cands ∧ Occurred 0x2041 0 u)) ∧
  -- tfLaunch
  (∀ s x, engineFires s = true → s.hg.ttr = some x → isOrigin s = true → s.tf.sleepCd = 0 → s.hg.st = .member → activeOn s .b = false → writes s .a = false →
    (s.hp (outerPort s .a)).stepping = false → (s.hp (outerPort s .a)).speed ≠ 0 → slowLink s (outerPort s .a) = false → (s.hp (outerPort s .a)).settled = true →
    Gives (.tfLaunch none) s (fun u => u.cyc.lineA.tOut = some ((s.cyc.tt.toNat + 4000 : Nat) : Int) ∧
      u.wire = [.train .a false (launchPayload s x (pollList ((byNumber x.recs).map (fun r => r.number.toNat)) s.tf.pend s.tf.rr)) true]))

/-- Message frames: start of the window, bad frames, forwarding, delivery and the end of a transmission. The message
window opens; a bad message frame is dropped and recorded; a frame for another node is queued for the opposite port; a
frame for this node enters the history; a transmission ends. Each clause concludes that exec answers a next state,
under conditions on the state and the operands alone, and says what that state holds. Frames outside RUN and NOCORE
are dropped by the model's reading, log 38. Instants are the operands t (log 3). Rests on R182, R211, R213, R214,
R215, R216, R217. -/
def Obligations.MessageWindowFrames : Prop :=
  -- messageWindowStart
  (∀ s, s.cycling = true → Gives .messageWindowStart s (fun u => u.tf.window = true ∧ (messageWindow s).1 ≤ u.cyc.phase)) ∧
  -- msgFrameBad
  (∀ s t (p : Fin 4) f, s.cycling = true → (s.hp p).speed ≠ 0 → field f 0 1 = 2 → field f 1 1 = 1 →
    (f.length < 16 ∨ field f 14 2 ≠ (crc16 (f.take 14)).toNat ∨ s.hg.ttr = none ∨ field f 4 4 ≠ s.hg.icount.toNat) →
    Gives (.msgFrameRx t p f) s (fun u => u.tf.msgDrop = s.tf.msgDrop + 1 ∧ u.tf.fwd = s.tf.fwd ∧ u.tf.coreQ = s.tf.coreQ ∧ Occurred 0x2052 0xFF u)) ∧
  -- msgForward
  (∀ s t (p : Fin 4) f, s.cycling = true → (s.hp p).speed ≠ 0 → field f 0 1 = 2 → field f 1 1 = 1 → 16 ≤ f.length →
    field f 14 2 = (crc16 (f.take 14)).toNat → s.hg.ttr.isSome = true → field f 4 4 = s.hg.icount.toNat → Machine.Inv s → s.tf.window = false → (f.getD 3 0).toNat ≠ ownNumber s →
    f.getD 3 0 ≠ 0xFF → (s.hp (opposite p)).speed ≠ 0 → (s.tf.fwd.getD (opposite p) []).length < 32 →
    Gives (.msgFrameRx t p f) s (fun u => u.tf.fwd.getD (opposite p) [] = s.tf.fwd.getD (opposite p) [] ++ [f] ∧ u.tf.msgRx = s.tf.msgRx)) ∧
  -- msgDeliver
  (∀ s t (p : Fin 4) f, s.cycling = true → (s.hp p).speed ≠ 0 → field f 0 1 = 2 → field f 1 1 = 1 → 16 ≤ f.length →
    field f 14 2 = (crc16 (f.take 14)).toNat → s.hg.ttr.isSome = true → field f 4 4 = s.hg.icount.toNat → (f.getD 3 0).toNat = ownNumber s → f.getD 11 0 = 0 → s.running = false → ∀ h,
    histsTake s.tf.hist (f.getD 2 0) (BitVec.ofNat 16 (field f 8 2)) = some h →
    Gives (.msgFrameRx t p f) s (fun u => u.tf.hist = h ∧ u.tf.msgRx = s.tf.msgRx + 1 ∧ u.tf.coreQ = s.tf.coreQ)) ∧
  -- msgTxDone
  (∀ s t (p : Fin 4), Machine.Inv s → s.tf.tx.getD p .idle ≠ .idle → s.tf.tx.getD p .idle ≠ .own → s.tf.window = false → Gives (.msgTxDone t p) s (fun u => u.tf.tx.getD p .idle = .idle))

/-- SAMPLE, UPDATE, COUNT and MEASURE at their ticks. A capture keeps the previous one and carries its instant; UPDATE
applies the last DRV value at least 2 ticks old; COUNT latches with instant and CYC; MEASURE captures the value, CYC
and instant of each quantity. Each clause concludes that exec answers a next state, under conditions on the state and
the operands alone, and says what that state holds. Rests on R85, R86, R325, R328, R332, R349, R67. -/
def Obligations.GridFieldActions : Prop :=
  -- sample
  (∀ s i (g : Fin 4) v e k, Machine.Inv s → Fires s 0x01 i e → e.target.toNat = g.val → k < 8 → e.param.getLsbD k = true →
    usable s (38 + g.val) = true → usable s (42 + (8 * g.val + k)) = true → usable s (74 + (8 * g.val + k)) = true →
    Gives (.sample (some i) g v) s (fun u => (u.chan (8 * g.val + k)).capPrev = (s.chan (8 * g.val + k)).cap ∧
      (u.chan (8 * g.val + k)).cap.at_ = s.cyc.base + max s.cyc.phase (8 * e.tick))) ∧
  -- update
  (∀ s i e k, Machine.Inv s → Fires s 0x02 i e → k < 8 → e.param.getLsbD k = true →
    usable s (38 + e.target.toNat % 4) = true → usable s (42 + (8 * (e.target.toNat % 4) + k)) = true →
    usable s (74 + (8 * (e.target.toNat % 4) + k)) = true → chMode s (8 * (e.target.toNat % 4) + k) = 5 →
    Gives (.update i) s (fun u => (u.chan (8 * (e.target.toNat % 4) + k)).grid =
      (((s.chan (8 * (e.target.toNat % 4) + k)).pend.filter (fun p => p.2 + 16 ≤ s.cyc.base + max s.cyc.phase (8 * e.tick))).getLast?).elim
        (s.chan (8 * (e.target.toNat % 4) + k)).grid Prod.fst)) ∧
  -- count
  (∀ s i e k, Machine.Inv s → Fires s 0x03 i e → k < 8 → e.param.getLsbD k = true →
    usable s (38 + e.target.toNat % 4) = true → usable s (42 + (8 * (e.target.toNat % 4) + k)) = true →
    usable s (74 + (8 * (e.target.toNat % 4) + k)) = true → chMode s (8 * (e.target.toNat % 4) + k) = 4 →
    Gives (.count i) s (fun u => (u.chan (8 * (e.target.toNat % 4) + k)).latchPrev = (s.chan (8 * (e.target.toNat % 4) + k)).latch ∧
      (u.chan (8 * (e.target.toNat % 4) + k)).latch.at_ = s.cyc.base + max s.cyc.phase (8 * e.tick) ∧
      (u.chan (8 * (e.target.toNat % 4) + k)).latch.cyc = s.cyc.cyc)) ∧
  -- measure
  (∀ s i e im k v, smWf {} s.ms.caps = true → Fires s 0x04 i e → s.image = some im → k < (setCodes im e.target.toNat).length →
    quantity s ((setCodes im e.target.toNat).getD k 0).toNat = some v →
    Gives (.measure i) s (fun u => smGet {} u.ms.caps (16 * e.target.toNat + k) = ⟨v, s.cyc.cyc, s.cyc.base + max s.cyc.phase (8 * e.tick)⟩))

/-- Grid entries of the vehicle network, the power plan, DMA, checkpoint, task and bench. VN_START, VN_COMMIT, VN_READ,
the PWR entries, TASK with its context and skipped without a core, BENCH_SLOT, CHKP_COPY and DMA into the window, a
slot and data memory. Each clause concludes that exec answers a next state, under conditions on the state and the
operands alone, and says what that state holds. The slot and offset a DMA address names are free functions of Config,
log 27. Rests on R92, R95, R101, R102, R107, R224, R231, R232. -/
def Obligations.GridPlanAndCoreActions : Prop :=
  -- vnStart
  (∀ s i e st, Fires s 0x0C i e → usable s 12 = true → s.star = some st →
    Gives (.vnStart i) s (fun u => u.vn.running = true ∧ u.vn.v0 = s.cyc.base + max s.cyc.phase (8 * e.tick) + 256 ∧ u.vn.cyc = s.cyc.cyc ∧
      u.vn.dc = 0 ∧ u.vn.rx = List.replicate 64 {})) ∧
  -- vnCommit
  (∀ s i e, Machine.Inv s → Fires s 0x0D i e → usable s 12 = true → e.target.toNat < 64 →
    Gives (.vnCommit i) s (fun u => (u.vn.txBuf.getD e.target.toNat {}).done = none ∧ (u.vn.txBuf.getD e.target.toNat {}).frozen =
      (s.vn.txBuf.getD e.target.toNat {}).done.map (fun d => ((List.range d.1).map (slotByte (s.vn.txBuf.getD e.target.toNat {})), d.2)))) ∧
  -- vnRead
  (∀ s i e st, Fires s 0x0E i e → usable s 12 = true → s.star = some st → s.vn.running = true →
    Gives (.vnRead i) s (fun u => u.vn.pub.cyc = s.vn.cyc ∧ u.vn.pub.valid = true ∧ u.vn.pub.at_ = s.cyc.base + max s.cyc.phase (8 * e.tick) ∧
      u.vn.pubPrev = s.vn.pub)) ∧
  -- pwrOn
  (∀ s i e, Machine.Inv s → Fires s 0x10 i e → planned e.target.toNat = true →
    Gives (.pwrOn i) s (fun u => (u.dom e.target.toNat).ctrl = .on)) ∧
  -- pwrOff
  (∀ s i e, Machine.Inv s → Fires s 0x11 i e → planned e.target.toNat = true →
    Gives (.pwrOff i) s (fun u => (u.dom e.target.toNat).ctrl = .off)) ∧
  -- pwrLow
  (∀ s i e, Machine.Inv s → Fires s 0x12 i e → planned e.target.toNat = true →
    Gives (.pwrLow i) s (fun u => (u.dom e.target.toNat).ctrl = .low)) ∧
  -- task
  (∀ s i e im x, Fires s 0x1C i e → s.image = some im → im.tasks[e.target.toNat]? = some x → s.cr.active = 0 → s.cr.pxc.task = none →
    Gives (.task i) s (fun u => u.cr.pxc.pc = x.entry.toNat ∧ u.cr.pxc.regs = List.replicate 32 0 ∧
      u.cr.pxc.task = some ⟨e.target.toNat, s.cyc.base + max s.cyc.phase (8 * e.tick), 0, x.budget, x.banks, x.xsig⟩ ∧ u.cr.pxc.rets = [] ∧ u.cr.pxc.loops = [])) ∧
  -- taskSkipped
  (∀ s i e, Fires s 0x1C i e → s.cr.active = 2 → Gives (.task i) s (fun u => u.cr.taskSkip = s.cr.taskSkip + 1)) ∧
  -- benchSlot
  (∀ s i e, Fires s 0x1E i e → usable s 120 = true →
    Gives (.benchSlot i) s (fun u => u.bn.slot = some (e.target.toNat, s.cyc.base + max s.cyc.phase (8 * e.tick) + 64 * e.param.toNat))) ∧
  -- chkpCopy
  (∀ s i e im, Fires s 0x18 i e → s.image = some im → s.cr.active = 0 → s.cr.pxc.dataErr = [] → chkTotal im ≠ 0 → chkBankOff im s = none →
    s.cr.revert = .none → Machine.Inv s →
    Gives (.chkpCopy i) s (fun u => u.cr.chk.getD ((chkLatest s).elim 0 (fun c => 1 - c.1)) none =
        some ⟨s.cr.chkSeq, s.cyc.cyc, imgId im, chkGather im s.cr.pxc⟩ ∧ u.cr.chkSeq = s.cr.chkSeq + 1)) ∧
  -- dmaWindow
  (∀ s i e d, Fires s 0x14 i e → (s.image.elim [] Image.dma)[e.target.toNat]? = some d → dmaMissing s d = none →
    (dmaErrs s d).any (fun x => x.2) = false → d.dst = 1 → Gives (.dma i) s (fun u => u.tf.win = winBytes s d.dstAddr (dmaSource (atEntry e s) d))) ∧
  -- dmaSlot
  (∀ s i e d, Fires s 0x14 i e → (s.image.elim [] Image.dma)[e.target.toNat]? = some d → dmaMissing s d = none →
    (dmaErrs s d).any (fun x => x.2) = false → d.dst = 3 → Machine.Inv s → Gives (.dma i) s (fun u => ∀ j < 64, u.vn.txBuf.getD j {} = if j = Config.dmaSlot d.dstAddr then
    slotPut (Config.dmaOffset d.dstAddr) (dmaSource (atEntry e s) d) (s.vn.txBuf.getD j {}) else s.vn.txBuf.getD j {})) ∧
  -- dmaData
  (∀ s i e d, Fires s 0x14 i e → (s.image.elim [] Image.dma)[e.target.toNat]? = some d → dmaMissing s d = none →
    (dmaErrs s d).any (fun x => x.2) = false → d.dst = 0 → Gives (.dma i) s (fun u => (dataCore u).data = (dataPutBytes d.dstAddr (dmaSource (atEntry e s) d) (dataCore s)).data))

/-- Branch links, the guardian, static slots and mini-slots of the vehicle network. Branch link up and down, a burst, the
guardian cut point, the transmission of an own slot, a frame before and inside its slot, and the dynamic boundary.
Each clause concludes that exec answers a next state, under conditions on the state and the operands alone, and says
what that state holds. Instants are the operands t (log 3). Rests on R231, R235, R238, R240, R241, R242, R243, R244. -/
def Obligations.VehicleNetwork : Prop :=
  -- branchLinkUp
  (∀ s t (b : Fin 12), Machine.Inv s → s.running = true → s.sh.st ≠ .closed → (s.dom (13 + b.val)).act = .on → (s.branch b.val).link = false →
    Gives (.branchLinkUp t b) s (fun u => (u.branch b.val).link = true ∧
      (u.branch b.val).st = (if (s.branch b.val).off then .disabled else .listen) ∧ Occurred 0x3000 b.val u)) ∧
  -- branchLinkDown
  (∀ s t (b : Fin 12), Machine.Inv s → (s.branch b.val).link = true →
    Gives (.branchLinkDown t b) s (fun u => (u.branch b.val).link = false ∧
      (u.branch b.val).st = (if (s.branch b.val).off then .disabled else .down) ∧ Occurred 0x3003 b.val u)) ∧
  -- branchBurst
  (∀ s t (b : Fin 12), Machine.Inv s → starOn s = true → (s.dom (13 + b.val)).act = .on →
    Gives (.branchBurst t b) s (fun u => (u.branch b.val).cutStart = (s.branch b.val).cutStart + 1 ∧ Occurred 0x3001 b.val u)) ∧
  -- guardianCutPoint
  (∀ s t (b : Fin 12) r, Machine.Inv s → starOn s = true → (s.branch b.val).rx = some r →
    Gives (.guardianCutPoint t b) s (fun u => (u.branch b.val).rx = none ∧ (u.branch b.val).cutLen = (s.branch b.val).cutLen + 1 ∧
      (r.dynamic = true → u.vn.closed = true ∧ Occurred 0x3007 0xFF u))) ∧
  -- vnSlotTx
  (∀ s t (k : Fin 64) st, Machine.Inv s → s.star = some st → starOn s = true → s.vn.running = true → slotOwner st k.val = 0x0C →
    Gives (.vnSlotTx t k) s (fun u => (u.vn.rx.getD k.val {}).got = .valid ∧
      (∀ d a, (s.vn.txBuf.getD k.val {}).frozen = some (d, a) → (u.vn.rx.getD k.val {}).body = d ∧
        u.wire = [.vehicle (outBranches s none) (s.cyc.base + max s.cyc.phase t)
          (vnFrame s (vnHeader 0x02 (if a then 1 else 0) 0 (BitVec.ofNat 16 k.val) s.vn.cyc st.layout d.length) d) true]) ∧
      ((s.vn.txBuf.getD k.val {}).frozen = none → (u.vn.rx.getD k.val {}).body = [] ∧
        u.wire = [.vehicle (outBranches s none) (s.cyc.base + max s.cyc.phase t)
          (vnFrame s (vnHeader 0x03 0 0 (BitVec.ofNat 16 k.val) s.vn.cyc st.layout 0) []) true]))) ∧
  -- vnFrameRxBlocked
  (∀ s t (b : Fin 12) f g st, Machine.Inv s → s.star = some st → starOn s = true → branchUp s b.val = true → s.cyc.base + max s.cyc.phase t < s.vn.v0 →
    Gives (.vnFrameRx t b f g) s (fun u => (u.branch b.val).cutStart = (s.branch b.val).cutStart + 1 ∧ u.wire = [] ∧ Occurred 0x3001 b.val u)) ∧
  -- vnFrameRx
  (∀ s t (b : Fin 12) f st k, Machine.Inv s → s.star = some st → starOn s = true → branchUp s b.val = true → s.vn.v0 ≤ s.cyc.base + max s.cyc.phase t →
    k < 64 → guardStart s st b.val (s.cyc.base + max s.cyc.phase t - s.vn.v0) = .slot k → guardHeader s st (.slot k) f = true →
    guardLength s st (.slot k) (s.cyc.base + max s.cyc.phase t - s.vn.v0) f = false → field f 14 1 ≠ 3 →
    Gives (.vnFrameRx t b f true) s (fun u => (u.vn.rx.getD k {}).got = .valid ∧ (u.vn.rx.getD k {}).body = slice f 30 (field f 24 2) ∧
      (u.branch b.val).rxOk = (s.branch b.val).rxOk + 1 ∧
      u.wire = [.vehicle (outBranches s (some b.val)) (s.cyc.base + max s.cyc.phase t + 960) f true])) ∧
  -- dynBoundary
  (∀ s st, s.star = some st → starOn s = true → s.vn.running = true → st.nM ≠ 0 →
    Gives .dynBoundary s (fun u => u.vn.dc = s.vn.dc + 1 ∧ u.vn.boundary =
      (if s.vn.dc = 0 then dynStart st else s.vn.boundary + max 1 s.vn.span * st.tM * 1000)))

/-- Equipment port links, pause timers, the PFC refresh and time stamp pops. Link up, link down, a failed autonegotiation,
the expiry of a pause timer, the refresh of PFC and the pop of a time stamp. Each clause concludes that exec answers a
next state, under conditions on the state and the operands alone, and says what that state holds. Instants are the
operands t (log 3). Rests on R258, R259, R260, R274, R275, R276, R487. -/
def Obligations.EquipmentLinksAndTimers : Prop :=
  -- eqLinkUp
  (∀ s t (n : Fin 4) (sp : Fin 3), Machine.Inv s → eqPowered s n.val = true → (s.eqp n.val).link = 0 →
    (eqCfg s n.val).elim false (fun c => c.speedMask.getLsbD sp.val) = true →
    Gives (.eqLinkUp t n sp) s (fun u => (u.eqp n.val).link = sp.val + 1 ∧ Occurred 0x4000 n.val u)) ∧
  -- eqLinkDown
  (∀ s t (n : Fin 4), Machine.Inv s → (s.eqp n.val).link ≠ 0 →
    Gives (.eqLinkDown t n) s (fun u => (u.eqp n.val).link = 0 ∧ (u.eqp n.val).queues = List.replicate 8 [] ∧
      (u.eqp n.val).tx = none ∧ Occurred 0x4001 n.val u)) ∧
  -- eqAutonegFail
  (∀ s t (n : Fin 4), eqPowered s n.val = true → (s.eqp n.val).link = 0 →
    Gives (.eqAutonegFail t n) s (fun u => u.eq = s.eq ∧ Occurred 0x4002 n.val u)) ∧
  -- pauseTimerExpiry
  (∀ s t (n : Fin 4) (q : Fin 8), Machine.Inv s → Gives (.pauseTimerExpiry t n q) s (fun u => (u.eqp n.val).pause.getD q.val 0 = 0)) ∧
  -- pfcRefresh
  (∀ s t (n : Fin 4) c, Machine.Inv s → eqCfg s n.val = some c → (s.eqp n.val).link ≠ 0 → (s.eqp n.val).pfc = true →
    (s.eqp n.val).off = false → Gives (.pfcRefresh t n) s (fun u => u.wire = [.pfc n.val c.pfcMask 0xFFFF] ∧
      (u.eqp n.val).pauseTx = (s.eqp n.val).pauseTx + 1)) ∧
  -- txtsPop
  (∀ s t (n : Fin 4), Machine.Inv s → s.awake = true → Gives (.txtsPop t n) s (fun u => (u.eqp n.val).stamps = (s.eqp n.val).stamps.drop 1))

/-- Frames of an equipment port: bad, received for the host, transmitted. A frame with a bad FCS is counted and leaves the
pool alone; a frame for the host is stored and queued; a transmission that ends frees its chain. Each clause concludes
that exec answers a next state, under conditions on the state and the operands alone, and says what that state holds.
Reception in one step is the model's, log 12. Instants are the operands t (log 3). Rests on R1. -/
def Obligations.EquipmentFrames : Prop :=
  -- fr_eqLinkUp
  (∀ a0 a1 a2, Touches [.eq] (.eqLinkUp a0 a1 a2)) ∧
  -- fr_eqLinkDown
  (∀ a0 a1, Touches [.eq, .pool, .rg] (.eqLinkDown a0 a1)) ∧
  -- fr_eqAutonegFail
  (∀ a0 a1, Touches [] (.eqAutonegFail a0 a1)) ∧
  -- fr_eqFrameRx
  (∀ a0 a1 a2 a3, Touches [.hg, .tf, .eq, .pool, .sh, .rg] (.eqFrameRx a0 a1 a2 a3)) ∧
  -- fr_eqTxDone
  (∀ a0 a1, Touches [.eq, .pool] (.eqTxDone a0 a1)) ∧
  -- fr_pauseTimerExpiry
  (∀ a0 a1 a2, Touches [.eq] (.pauseTimerExpiry a0 a1 a2)) ∧
  -- fr_pfcRefresh
  (∀ a0 a1, Touches [.eq] (.pfcRefresh a0 a1)) ∧
  -- fr_txtsPop
  (∀ a0 a1, Touches [.eq] (.txtsPop a0 a1)) ∧
  -- fr_hostAlloc
  (∀ a0 a1, Touches [.eq, .pool] (.hostAlloc a0 a1)) ∧
  -- fr_hostFree
  (∀ a0 a1, Touches [.eq, .pool] (.hostFree a0 a1)) ∧
  -- fr_hostPost
  (∀ a0 a1 a2 a3, Touches [.eq, .pool] (.hostPost a0 a1 a2 a3)) ∧
  -- fr_hostTake
  (∀ a0 a1, Touches [.eq, .pool] (.hostTake a0 a1)) ∧
  -- fr_hostOpInvalid
  (∀ a0 a1, Touches [.eq, .pool] (.hostOpInvalid a0 a1))

/-- The host's operations on the frame pool. ALLOC, FREE, POST, TAKE and an invalid operation: EQ_HOST_RES and the pool.
Each clause concludes that exec answers a next state, under conditions on the state and the operands alone, and says
what that state holds. Instants are the operands t (log 3). Rests on R471, R281, R388, R270. -/
def Obligations.HostPoolOperations : Prop :=
  -- hostAlloc
  (∀ s t (n : BitVec 3) b, s.awake = true → (if n = 0 then 8 else n.toNat) ≤ s.pool.free.length → s.pool.free.head? = some b →
    Gives (.hostAlloc t n) s (fun u => u.pool.hostRes = w32 (0x80000000 + b % 4096 * 65536) ∧
      u.pool.free = s.pool.free.drop (if n = 0 then 8 else n.toNat))) ∧
  -- hostFree
  (∀ s t (b : BitVec 12), s.awake = true → freeFault s 0x38 (chainOf s b.toNat) = none →
    Gives (.hostFree t b) s (fun u => u.pool.hostRes = w32 0x80000000 ∧ u.pool.free = s.pool.free ++ ascending (chainOf s b.toNat))) ∧
  -- hostPost
  (∀ s t (b : BitVec 12) (n : Fin 4) (q : Fin 8), s.awake = true → postFault s 0x38 (chainOf s b.toNat) n.val q.val = 0 →
    Gives (.hostPost t b n q) s (fun u => u.pool.hostRes = w32 0x80000000)) ∧
  -- hostTake
  (∀ s t (n : Fin 4) b r, Machine.Inv s → s.awake = true → (s.eqp n.val).hostQ = b :: r →
    Gives (.hostTake t n) s (fun u => u.pool.hostRes = w32 (0x80000000 + b % 4096 * 65536) ∧ (u.eqp n.val).hostQ = r)) ∧
  -- hostOpInvalid
  (∀ s t (op : BitVec 4), s.awake = true → op.toNat = 0 ∨ 4 < op.toNat → Gives (.hostOpInvalid t op) s (fun u =>
    u.pool.hostRes = w32 0x80000007 ∧ u.pool.bufs = s.pool.bufs ∧ u.pool.free = s.pool.free))

/-- Field channel events: comparator, sink, causes, supply and force. The comparator, the sink of DI-PS, current limit,
thermal cut-off, open load, coupler, group supply and the end of a force, with their causes, counters and events. Each
clause concludes that exec answers a next state, under conditions on the state and the operands alone, and says what
that state holds. Which return records 0x6001 is the model's reading, log 29. Instants are the operands t (log 3).
Rests on R322, R324, R336, R337, R340, R341, R344. -/
def Obligations.FieldChannelEvents : Prop :=
  -- inputThresholdCrossing
  (∀ s t (ch : Fin 32) l, Machine.Inv s → s.dev.variantN = false →
    Gives (.inputThresholdCrossing t ch l) s (fun u => (u.chan ch.val).level = l ∧ (u.chan ch.val).levelAt = s.cyc.base + max s.cyc.phase t ∧
      (sensing (begin_ t s) ch.val = true → (l = .above → (u.chan ch.val).mem = .on) ∧ (l = .below → (u.chan ch.val).mem = .off)))) ∧
  -- dipsSinkOn
  (∀ s t (ch : Fin 32), Machine.Inv s → chMode s ch.val = 3 → chUsable s ch.val = true → (s.chan ch.val).sink = false →
    Gives (.dipsSinkOn t ch) s (fun u => (u.chan ch.val).sink = true ∧ (u.chan ch.val).sinkAt = s.cyc.base + max s.cyc.phase t)) ∧
  -- dipsSinkOff
  (∀ s t (ch : Fin 32), Machine.Inv s → Gives (.dipsSinkOff t ch) s (fun u => (u.chan ch.val).sink = false)) ∧
  -- currentLimit
  (∀ s t (ch : Fin 32), Machine.Inv s → stageOn s ch.val = true → (s.chan ch.val).fLimit = false →
    Gives (.currentLimit t ch) s (fun u => (u.chan ch.val).fLimit = true ∧ (u.chan ch.val).epLimit = satInc (s.chan ch.val).epLimit ∧
      (u.chan ch.val).fault = (s.chan ch.val).fault ||| causeBit 3 ∧ Occurred 0x6002 ch.val u)) ∧
  -- currentLimitEnd
  (∀ s t (ch : Fin 32), Machine.Inv s → Gives (.currentLimitEnd t ch) s (fun u => (u.chan ch.val).fLimit = false)) ∧
  -- thermalCutoff
  (∀ s t (ch : Fin 32), Machine.Inv s → stageOn s ch.val = true →
    Gives (.thermalCutoff t ch) s (fun u => (u.chan ch.val).fThermal = true ∧ (u.chan ch.val).fLimit = false ∧
      (u.chan ch.val).epThermal = satInc (s.chan ch.val).epThermal ∧ Occurred 0x6003 ch.val u)) ∧
  -- thermalRelease
  (∀ s t (ch : Fin 32), Machine.Inv s → Gives (.thermalRelease t ch) s (fun u => (u.chan ch.val).fThermal = false)) ∧
  -- openLoadDetect
  (∀ s t (ch : Fin 32), Machine.Inv s → (s.chan ch.val).cfg.getLsbD 13 = true → stageOn s ch.val = true → (s.chan ch.val).fLimit = false →
    (s.chan ch.val).fOpen = false → Gives (.openLoadDetect t ch) s (fun u => (u.chan ch.val).fOpen = true ∧
      (u.chan ch.val).opens = satInc (s.chan ch.val).opens ∧ Occurred 0x6004 ch.val u)) ∧
  -- openLoadClear
  (∀ s t (ch : Fin 32), Machine.Inv s → Gives (.openLoadClear t ch) s (fun u => (u.chan ch.val).fOpen = false)) ∧
  -- couplerLoss
  (∀ s t (ch : Fin 32), Machine.Inv s → fieldLive s = true → (s.dom (74 + ch.val)).act = .on → (s.chan ch.val).fCoupler = false →
    (s.chan ch.val).fSupply = false → Gives (.couplerLoss t ch) s (fun u => (u.chan ch.val).fCoupler = true ∧
      (u.chan ch.val).losses = satInc (s.chan ch.val).losses ∧ Occurred 0x6005 ch.val u)) ∧
  -- couplerRestore
  (∀ s t (ch : Fin 32), Machine.Inv s → (s.chan ch.val).fCoupler = true →
    Gives (.couplerRestore t ch) s (fun u => (u.chan ch.val).fCoupler = false ∧ Occurred 0x6006 ch.val u)) ∧
  -- groupSupplyLow
  (∀ s t (g : Fin 4), Machine.Inv s → fieldLive s = true → (s.dom (38 + g.val)).act = .on → (s.chan (8 * g.val)).fSupply = false →
    Gives (.groupSupplyLow t g) s (fun u => (∀ i < 8, (u.chan (8 * g.val + i)).fSupply = true) ∧ Occurred 0x6008 g.val u)) ∧
  -- groupSupplyRestore
  (∀ s t (g : Fin 4), Machine.Inv s → (s.chan (8 * g.val)).fSupply = true →
    Gives (.groupSupplyRestore t g) s (fun u => (∀ i < 8, (u.chan (8 * g.val + i)).fSupply = false) ∧ Occurred 0x6009 g.val u)) ∧
  -- forceTimeout
  (∀ s t (ch : Fin 32), Machine.Inv s → (s.chan ch.val).force.isSome = true → Gives (.forceTimeout t ch) s (fun u => (u.chan ch.val).forceOver = true))

/-- Supply samples, Un, auxiliary samples and temperatures. The supply sample, the 1 s limit of overvoltage, the automatic
choice of Un, auxiliary samples of temperatures, groups, rails and loads, temperature levels, a stuck and a plausible
sensor. Each clause concludes that exec answers a next state, under conditions on the state and the operands alone,
and says what that state holds. Instants are the operands t (log 3). Rests on R348, R350, R352, R353, R355, R357,
R358, R359. -/
def Obligations.SuppliesAndTemperatures : Prop :=
  -- supplySample
  (∀ s t b i h, supplyAdcOn s = true → Gives (.supplySample t b i h) s (fun u => u.ms.bat = b ∧ u.ms.iin = i ∧ u.ms.hu = h ∧
    u.ms.batSum = s.ms.batSum + b.toNat ∧ u.ms.batCount = s.ms.batCount + 1)) ∧
  -- overvoltage1s
  (∀ s t, supplyAdcOn s = true → s.ms.cls.overTime ≠ 0 → Gives (.overvoltage1s t) s (fun u => u.ms.cls.ovr = true)) ∧
  -- unAutoSelect
  (∀ s t, s.cycling = true → s.ms.batCount ≠ 0 → s.image.elim true (fun im => im.node.unSel = 0) = true →
    Gives (.unAutoSelect t) s (fun u => u.ms.un = (if s.ms.batSum * 180000 / 4096 / s.ms.batCount < 45000 then 1
      else if s.ms.batSum * 180000 / 4096 / s.ms.batCount < 95000 then 2 else 3) ∧ u.ms.unBySel = false ∧ Occurred 0x7006 0xFF u)) ∧
  -- auxTemp
  (∀ s t (i : Fin 3) v, auxAdcOn s = true → Gives (.auxSample t (BitVec.ofNat 8 (3 + i.val)) v) s (fun u => u.ms.temps = s.ms.temps.set i.val v)) ∧
  -- auxGroup
  (∀ s t (g : Fin 4) v, fieldLive s = true → (s.dom (38 + g.val)).act = .on →
    Gives (.auxSample t (BitVec.ofNat 8 (8 + g.val)) v) s (fun u => u.ms.groups = s.ms.groups.set g.val (v.setWidth 10))) ∧
  -- auxRail
  (∀ s t (i : Fin 4) v, auxAdcOn s = true →
    Gives (.auxSample t (BitVec.ofNat 8 (12 + i.val)) v) s (fun u => u.ms.rails = s.ms.rails.set i.val (v.setWidth 12))) ∧
  -- auxLoad
  (∀ s t (ch : Fin 32) v, Machine.Inv s → chMode s ch.val = 5 → (s.dom (74 + ch.val)).act = .on →
    Gives (.auxSample t (BitVec.ofNat 8 (0x20 + ch.val)) v) s (fun u => (u.chan ch.val).load = v.setWidth 10)) ∧
  -- tempLevelChange
  (∀ s t (i : Fin 3) v, auxAdcOn s = true → s.ms.tBad.getD i.val false = false →
    Gives (.tempLevelChange t i v) s (fun u => u.ms.temps = s.ms.temps.set i.val v ∧ u.ms.tlevel = s.ms.tlevel.set i.val
      (tempNext (s.ms.tlevel.getD i.val .normal) (tempThr s (2 * i.val)) (tempThr s (2 * i.val + 1)) v.toInt))) ∧
  -- tempWarn
  (∀ s t (i : Fin 3) v, auxAdcOn s = true → s.ms.tBad.getD i.val false = false → s.ms.tlevel.getD i.val .normal = .normal →
    tempThr s (2 * i.val) ≤ v.toInt → v.toInt < tempThr s (2 * i.val + 1) →
    Gives (.tempLevelChange t i v) s (fun u => u.ms.twarn = bump i.val s.ms.twarn ∧ Occurred 0x7010 i.val u)) ∧
  -- tempSensorStuck
  (∀ s t (i : Fin 3) v, auxAdcOn s = true → s.ms.tBad.getD i.val false = false →
    Gives (.tempSensorStuck t i v) s (fun u => u.ms.temps = s.ms.temps.set i.val v ∧ u.ms.tBad = s.ms.tBad.set i.val true ∧ Occurred 0x7013 i.val u)) ∧
  -- tempSensorPlausible
  (∀ s t (i : Fin 3), auxAdcOn s = true → Gives (.tempSensorPlausible t i) s (fun u => u.ms.tBad = s.ms.tBad.set i.val false))

/-- Yield, takeover, watch, repair, revert and bench requests of the cores. The core check and the budget watchdog yield;
the steps of a takeover; the watch of the RXC; the health report; the retry of a repair; hold-off and load of a
revert; the end of a bench request. Each clause concludes that exec answers a next state, under conditions on the
state and the operands alone, and says what that state holds. Details are the model's reading, log 52. Instants are
the operands t (log 3). Rests on R93, R426, R427, R431, R432, R433, R436, R438, R440, R442. -/
def Obligations.CoresAndRedundancy : Prop :=
  -- coreCheckFail
  (∀ s t (x : BitVec 7) c k, x.toNat = 0x10 ∨ x.toNat = 0x11 ∨ x.toNat = 0x12 ∨ x.toNat = 0x14 → s.running = true →
    activeCore s = some c → c.task = some k → Gives (.coreCheckFail t x) s (fun u => u.cr.active = 2 ∧
      u.cr.yieldReg = w32 (c.pc % 65536 * 65536 + k.entry % 256 * 256 + s.cr.active * 128 + x.toNat % 128) ∧ Occurred 0x8100 0xFF u)) ∧
  -- budgetWatchdog
  (∀ s c k, activeCore s = some c → c.task = some k → Gives .budgetWatchdog s (fun u => u.cr.active = 2 ∧
      u.cr.yieldReg = w32 (c.pc % 65536 * 65536 + k.entry % 256 * 256 + s.cr.active * 128 + 0x13) ∧ Occurred 0x8100 0xFF u)) ∧
  -- takeoverPower
  (∀ s t p d k, s.cr.takeover = some k → s.pwr.flush = none → k.step = 1 → Gives (.takeoverStepDone t p d) s (fun u =>
    u.cr.takeover = some { k with step := 2 })) ∧
  -- takeoverTest
  (∀ s t d k, s.cr.takeover = some k → s.pwr.flush = none → k.step = 2 → Gives (.takeoverStepDone t true d) s (fun u =>
    u.cr.takeover = some { k with step := if watchMode s && s.cr.loaded then 4 else 3 })) ∧
  -- takeoverTestFails
  (∀ s t d k, s.cr.takeover = some k → s.pwr.flush = none → k.step = 2 → Gives (.takeoverStepDone t false d) s (fun u =>
    u.cr.takeover = none ∧ u.cr.rxcFailed = true ∧ Occurred 0x8102 0xFF u)) ∧
  -- takeoverOverlay
  (∀ s t p d k im c i, s.cr.takeover = some k → s.pwr.flush = none → k.step = 4 → s.image = some im → chkLatest s = some (i, c) →
    Gives (.takeoverStepDone t p d) s (fun u => u.cr.takeover = some { k with step := 5, readyAt := s.cyc.base + max s.cyc.phase t, seq := c.seq } ∧
      u.cr.rxc = chkScatter im c.data s.cr.rxc)) ∧
  -- rxcLoadDone
  (∀ s t im, s.image = some im → s.cr.loading = true → s.running = true → coreLoadBad s = none →
    Gives (.rxcLoadDone t) s (fun u => u.cr.loading = false ∧ u.cr.loaded = true ∧ u.cr.rxc = coreLoad im s.cr.rxc)) ∧
  -- shadowTestDone
  (∀ s t p, shadowRuns s = true → Gives (.shadowTestDone t p) s (fun u => u.cr.runs = s.cr.runs + 1 ∧ u.cr.rxcOk = p ∧
    (p = false → u.cr.shFails = satInc s.cr.shFails ∧ Occurred 0x8104 0xFF u))) ∧
  -- healthReport
  (∀ s t, s.running = true → watchMode s = true → Gives (.healthReport t) s (fun u => u.cr = s.cr ∧ Occurred 0x8105 0xFF u)) ∧
  -- repairRetry
  (∀ s t, s.running = true → s.cr.pxcYielded = true → s.cr.repairing = true → s.bn.queue = [] → s.bn.running = none → s.image.isSome = true →
    benchJudge s false 5 0 = none → Gives (.repairRetry t) s (fun u => u.cr.repairStep = 0 ∧
      u.bn.queue = [⟨benchTicket s.bn 16 s.bn.next, 5, 0, 0, 0, true, false⟩])) ∧
  -- revertHoldoffEnd
  (∀ s t, s.cr.revert = .holdoff → s.running = true → s.pwr.flush = none → Gives (.revertHoldoffEnd t) s (fun u => u.cr.revert = .load)) ∧
  -- revertLoadDone
  (∀ s t im, s.image = some im → s.cr.revert = .load → s.running = true → s.pwr.flush = none → coreLoadBad s = none → chkTotal im = 0 →
    Gives (.revertLoadDone t) s (fun u => u.cr.revert = .boundary ∧ u.cr.pxc = coreLoad im s.cr.pxc)) ∧
  -- benchRequestEnd
  (∀ s t p d r, s.bn.running = some r → r.repair = false → s.bn.slot = none → Gives (.benchRequestEnd t p d) s (fun u =>
    u.bn.running = none ∧ u.bn.results = s.bn.results.map (fun x => if x.ticket = r.ticket then
      { r with status := if p then 3 else 4, detail := if p then 0 else d } else x) ∧ Occurred (if p then 0x7020 else 0x7021) r.kind u))

/-- Verification and loading of images, and the ends of NV operations. An image admitted and refused in BRINGUP, its
loading, and the end of a program operation, of an erase and of a CFG store. Each clause concludes that exec answers a
next state, under conditions on the state and the operands alone, and says what that state holds. Instants are the
operands t (log 3). Rests on R71, R407, R410, R412. -/
def Obligations.ImagesAndNvOperations : Prop :=
  -- imageVerified
  (∀ s t k gen len pre, s.pwr.node = .bringup → s.nv.ver.cur = some k → slotRecord s.nv k = some (gen, len, pre) →
    Gives (.imageVerified t) s (fun u => match verifyImage s.nv s.dev.variantN k len (some pre) with
      | .admitted im => u.nv.ver.admitted = some (k, gen, im) ∧ u.nv.ver.cur = none ∧ Occurred 0x8080 0xFF u
      | .refused _ _ => u.nv.ver.admitted = s.nv.ver.admitted ∧ u.nv.ver.refused = true ∧ u.nv.ver.cur = s.nv.ver.rest.head?)) ∧
  -- imageLoaded
  (∀ s t k gen im, s.nv.ver.admitted = some (k, gen, im) → s.pwr.node = .bringup → s.nv.ver.loaded = false →
    Gives (.imageLoaded t) s (fun u => u.nv.ver.loaded = true ∧ u.cr.pxc = coreLoad im s.cr.pxc ∧ u.ch.length = s.ch.length)) ∧
  -- nvUnit
  (∀ s t o, s.nv.op = some o → o.erase = false → o.who = .inc ∨ o.who = .chk → Gives (.nvOpDone t true) s (fun u =>
    u.nv.mem = (nvWrite o.addr o.data s.nv).mem)) ∧
  -- sectorErased
  (∀ s t v o, s.nv.op = some o → o.erase = true → o.who = .preErase → Gives (.nvOpDone t v) s (fun u =>
    u.nv.mem = (eraseDone (o.addr / 4096) { begin_ t s with nv := { s.nv with op := none } }).nv.mem)) ∧
  -- cfgStored
  (∀ s t v o c r, s.nv.op = some o → o.erase = false → o.who = .cfg → s.nv.cfgQ = c :: r → Gives (.nvOpDone t v) s (fun u =>
    u.nv.cfg = cfgMerge s.nv.cfg c ∧ u.nv.cfgQ = r))

/-- Host port transactions, register writes, slow writes and drawers. Write and read transactions, a bad CRC, an aborted
transaction, DISARM, a slow write that lands, the end of an arming, and the drawers. Each clause concludes that exec
answers a next state, under conditions on the state and the operands alone, and says what that state holds. The window
of a drawer follows at DRAWER_LOAD_DONE by the model's reading, log 47. Instants are the operands t (log 3). Rests on
R447, R448, R451, R452, R457, R462, R8, R517, R519, R520, R521. -/
def Obligations.RegistersAndDrawers : Prop :=
  -- registerWrite
  (∀ s t h d crc, s.awake = true → headerOk h = true → headerOp h = 2 → crc = hostCrc h d → Gives (.registerWrite t h d crc) s (fun u =>
    u.rg.answer = (BitVec.ofNat 8 (accessWrite .host (h.toNat % 2 ^ 20) d (begin_ t s)).1, 0) ∧
    TxItem.hostPort (BitVec.ofNat 8 (accessWrite .host (h.toNat % 2 ^ 20) d (begin_ t s)).1) 0 ∈ u.wire)) ∧
  -- registerValue
  (∀ s t d, s.awake = true → Gives (.registerWrite t 0x20000034 d (hostCrc 0x20000034 d)) s (fun u => u.rg.scratch = d ∧ u.rg.answer = (0, 0) ∧ u.wire = [.hostPort 0 0])) ∧
  -- rcRead
  (∀ s t h crc, s.awake = true → headerOk h = true → headerOp h = 1 → crc = hostCrc h 0 → Gives (.rcRead t h crc) s (fun u =>
    u.rg.answer = (BitVec.ofNat 8 (accessRead .host (h.toNat % 2 ^ 20) (begin_ t s)).1, (accessRead .host (h.toNat % 2 ^ 20) (begin_ t s)).2.1))) ∧
  -- crcError
  (∀ s t h d crc, s.awake = true → headerOk h = true → headerOp h = 2 → crc ≠ hostCrc h d → Gives (.registerWrite t h d crc) s (fun u =>
    u.rg.answer = (2, 0) ∧ u.wire = [.hostPort 2 0] ∧ u.rg.shadow = s.rg.shadow ∧ u.rg.scratch = s.rg.scratch ∧ Occurred 0x9000 0xFF u)) ∧
  -- hpAbort
  (∀ s t d n, s.awake = true → 18 ≤ n → Gives (.hpAbort t 0x20000034 d (hostCrc 0x20000034 d) n) s (fun u => u.rg.scratch = d ∧ u.wire = [] ∧ u.rg.answer = s.rg.answer)) ∧
  -- cfgDisarm
  (∀ s t, s.awake = true → Gives (.cfgDisarm t) s (fun u => u.rg.disarm = true)) ∧
  -- slowWriteLand
  (∀ s t o v, s.pwr.slowWrite = some (o, v) → s.pwr.slowHeld = none → Gives (.slowWriteLand t) s (fun u =>
    u.pwr.slowWrite = none ∧ u.pwr.wfCount = (slowLand o v s.pwr).wfCount ∧ u.pwr.opsec = (slowLand o v s.pwr).opsec ∧ u.pwr.pcyc = (slowLand o v s.pwr).pcyc)) ∧
  -- logClearDisarm
  (∀ s x, s.lg.oplArm = some x → s.lg.incArm = none → s.cyc.base ≤ x.at_ + 10000000000 → Gives .logClearDisarm s (fun u =>
    u.lg.oplArm = none ∧ u.cyc.phase = max s.cyc.phase (x.at_ + 10000000000 - s.cyc.base))) ∧
  -- drawerSelect
  (∀ s t (n : Fin 2) v, Machine.Inv s → s.awake = true → Gives (.drawerSelect t n v) s (fun u => (drawerOf u n).sel = v &&& 0xFF ∧ (drawerOf u n).status.getLsbD 5 = true ∧
    (drawerOf u n).win = (drawerOf s n).win)) ∧
  -- drawerCursor
  (∀ s t (n : Fin 2) v, Machine.Inv s → s.awake = true → Gives (.drawerCursor t n v) s (fun u => (drawerOf u n).cursor = (viewCursor s (drawerOf s n).source v).cursor ∧
    (drawerOf u n).status.getLsbD 5 = true ∧ (drawerOf u n).sel = (drawerOf s n).sel)) ∧
  -- drawerNext
  (∀ s t (n : Fin 2), Machine.Inv s → s.awake = true → (drawerOf s n).src ≠ 0 → (drawerOf s n).status.getLsbD 0 = false → Gives (.drawerNext t n) s (fun u =>
    (drawerOf u n).cursor = (viewNext s (drawerOf s n)).cursor ∧ (drawerOf u n).pos = (viewNext s (drawerOf s n)).pos ∧ (drawerOf u n).status.getLsbD 5 = true)) ∧
  -- drawerPrev
  (∀ s t (n : Fin 2), Machine.Inv s → s.awake = true → (drawerOf s n).src ≠ 0 → (drawerOf s n).status.getLsbD 1 = false → Gives (.drawerPrev t n) s (fun u =>
    (drawerOf u n).cursor = (viewPrev s (drawerOf s n)).cursor ∧ (drawerOf u n).pos = (viewPrev s (drawerOf s n)).pos ∧ (drawerOf u n).status.getLsbD 5 = true)) ∧
  -- drawerLoadDone
  (∀ s t (n : Fin 2), Machine.Inv s → s.awake = true → (drawerOf s n).status.getLsbD 5 = true → Gives (.drawerLoadDone t n) s (fun u =>
    (drawerOf u n).win = (List.range 16).map (wordAt (viewNow s (drawerOf s n)).bytes) ∧ (drawerOf u n).cursor = (viewNow s (drawerOf s n)).cursor ∧
    (drawerOf u n).status.getLsbD 5 = false))

/-- A host command that is accepted takes the next journal number, an entry and its bank. Each of the 21 command rows and
COMMAND_ACCEPT: where the command is accepted (Accepts: the path may command, its bank is free, 100 us have passed
since the last acceptance, no refusal holds), exec answers a next state in which it has been entered (Entered).
Instants are the operands t (log 3). Rests on R469, R470, R496, R498. -/
def Obligations.HostCommandsEnterTheJournal : Prop :=
  -- inaug
  (∀ s t p a b c d, Machine.Inv s → Accepts 0x01 p [a, b, c, d] t s → Gives (.inaug t p a b c d) s (Entered 0x01 p [a, b, c, d] t s)) ∧
  -- nodeReset
  (∀ s t p a b c d, Machine.Inv s → Accepts 0x02 p [a, b, c, d] t s → Gives (.nodeReset t p a b c d) s (Entered 0x02 p [a, b, c, d] t s)) ∧
  -- sleepReq
  (∀ s t p a b c d, Machine.Inv s → Accepts 0x03 p [a, b, c, d] t s → Gives (.sleepReq t p a b c d) s (Entered 0x03 p [a, b, c, d] t s)) ∧
  -- wakeReq
  (∀ s t p a b c d, Machine.Inv s → Accepts 0x04 p [a, b, c, d] t s → Gives (.wakeReq t p a b c d) s (Entered 0x04 p [a, b, c, d] t s)) ∧
  -- shutterSet
  (∀ s t p a b c d, Machine.Inv s → Accepts 0x05 p [a, b, c, d] t s → Gives (.shutterSet t p a b c d) s (Entered 0x05 p [a, b, c, d] t s)) ∧
  -- orderRelease
  (∀ s t p a b c d, Machine.Inv s → Accepts 0x07 p [a, b, c, d] t s → Gives (.orderRelease t p a b c d) s (Entered 0x07 p [a, b, c, d] t s)) ∧
  -- benchRun
  (∀ s t p a b c d, Machine.Inv s → Accepts 0x08 p [a, b, c, d] t s → Gives (.benchRun t p a b c d) s (Entered 0x08 p [a, b, c, d] t s)) ∧
  -- chkpSave
  (∀ s t p a b c d, Machine.Inv s → Accepts 0x09 p [a, b, c, d] t s → Gives (.chkpSave t p a b c d) s (Entered 0x09 p [a, b, c, d] t s)) ∧
  -- jrnMark
  (∀ s t p a b c d, Machine.Inv s → Accepts 0x0A p [a, b, c, d] t s → Gives (.jrnMark t p a b c d) s (Entered 0x0A p [a, b, c, d] t s)) ∧
  -- imgStage
  (∀ s t p a b c d, Machine.Inv s → Accepts 0x10 p [a, b, c, d] t s → Gives (.imgStage t p a b c d) s (Entered 0x10 p [a, b, c, d] t s)) ∧
  -- nvProgram
  (∀ s t p a b c d, Machine.Inv s → Accepts 0x11 p [a, b, c, d] t s → Gives (.nvProgram t p a b c d) s (Entered 0x11 p [a, b, c, d] t s)) ∧
  -- nvErase
  (∀ s t p a b c d, Machine.Inv s → Accepts 0x12 p [a, b, c, d] t s → Gives (.nvErase t p a b c d) s (Entered 0x12 p [a, b, c, d] t s)) ∧
  -- imgCommit
  (∀ s t p a b c d, Machine.Inv s → Accepts 0x13 p [a, b, c, d] t s → Gives (.imgCommit t p a b c d) s (Entered 0x13 p [a, b, c, d] t s)) ∧
  -- nvRefresh
  (∀ s t p a b c d, Machine.Inv s → Accepts 0x14 p [a, b, c, d] t s → Gives (.nvRefresh t p a b c d) s (Entered 0x14 p [a, b, c, d] t s)) ∧
  -- keyAdd
  (∀ s t p a b c d, Machine.Inv s → Accepts 0x15 p [a, b, c, d] t s → Gives (.keyAdd t p a b c d) s (Entered 0x15 p [a, b, c, d] t s)) ∧
  -- keyRevoke
  (∀ s t p a b c d, Machine.Inv s → Accepts 0x16 p [a, b, c, d] t s → Gives (.keyRevoke t p a b c d) s (Entered 0x16 p [a, b, c, d] t s)) ∧
  -- chForce
  (∀ s t p (n : Byte) b c d, Machine.Inv s → Accepts 0x06 p [n.setWidth 32 + 0x100, b, c, d] t s → Gives (.chForce t p n b c d) s (Entered 0x06 p [n.setWidth 32 + 0x100, b, c, d] t s)) ∧
  -- chForceRelease
  (∀ s t p (n : Byte) b c d, Machine.Inv s → Accepts 0x06 p [n.setWidth 32, b, c, d] t s → Gives (.chForceRelease t p n b c d) s (Entered 0x06 p [n.setWidth 32, b, c, d] t s)) ∧
  -- logClearArm
  (∀ s t p a c d, Machine.Inv s → Accepts 0x0B p [a, 1, c, d] t s → Gives (.logClearArm t p a c d) s (Entered 0x0B p [a, 1, c, d] t s)) ∧
  -- logClearOpl
  (∀ s t p c d, Machine.Inv s → Accepts 0x0B p [1, 2, c, d] t s → Gives (.logClearOpl t p c d) s (Entered 0x0B p [1, 2, c, d] t s)) ∧
  -- logClearInc
  (∀ s t p c d, Machine.Inv s → Accepts 0x0B p [2, 2, c, d] t s → Gives (.logClearInc t p c d) s (Entered 0x0B p [2, 2, c, d] t s)) ∧
  -- commandAccept
  (∀ s t p code args, Machine.Inv s → s.awake = true → (bankOf s p).state = 1 → (bankOf s p).waiting = some (code, args) → (bankOf s p).code = code →
    s.lg.lastAccept.elim true (fun x => x + 100000 ≤ s.cyc.base + max s.cyc.phase t) = true → cmdRefusal s p code args = none →
    Gives (.commandAccept t p) s (Entered code p args t s))

/-- What a host command of the execution queue does where it runs. INAUG, NODE_RESET, SLEEP_REQ and WAKE_REQ, SHUTTER_SET,
CH_FORCE and its release, ORDER_RELEASE of a domain hold, JRN_MARK and the arming of LOG_CLEAR: the state after
cmdRun, the operation a cycle start applies to each queued command. Rests on R470, R343, R344, R111, R517, R79, R130. -/
def Obligations.HostCommandsExecute : Prop :=
  -- inaugRun
  (∀ (c : QCmd) s, c.ent.code = 0x01 → s.cycling = true → s.hg.refused = false → (cmdRun c s).hg.st = .probing ∧ (cmdRun c s).hg.lastCause = 4 ∧
    (cmdRun c s).hg.running = s.hg.running + 1 ∧ Occurred 0x1000 0xFF (cmdRun c s)) ∧
  -- resetRun
  (∀ (c : QCmd) s, c.ent.code = 0x02 → (cmdRun c s).pwr.resetNow = true) ∧
  -- sleepRun
  (∀ (c : QCmd) s, (c.ent.code = 0x03 → (cmdRun c s).tf.hostHold = false) ∧ (c.ent.code = 0x04 → (cmdRun c s).tf.hostHold = true)) ∧
  -- shutterRun
  (∀ (c : QCmd) s, c.ent.code = 0x05 → s.running = true → (c.ent.args.getD 0 0 = 2 → (cmdRun c s).sh.st = .open_) ∧ (c.ent.args.getD 0 0 = 1 → (cmdRun c s).sh.st = .guarded)) ∧
  -- forceRun
  (∀ (c : QCmd) s n, Machine.Inv s → c.ent.code = 0x06 → n < 32 → (c.ent.args.getD 0 0).toNat = 0x100 + n → ((cmdRun c s).chan n).force = some (BitVec.ofNat 2 (c.ent.args.getD 1 0).toNat) ∧
    ((cmdRun c s).chan n).forceEnd = s.now + (c.ent.args.getD 2 0).toNat * 1000000000 ∧ Occurred 0x6010 n (cmdRun c s)) ∧
  -- releaseRun
  (∀ (c : QCmd) s n, Machine.Inv s → c.ent.code = 0x06 → n < 32 → (c.ent.args.getD 0 0).toNat = n → (s.chan n).force.isSome = true → ((cmdRun c s).chan n).force = none ∧ Occurred 0x6011 n (cmdRun c s)) ∧
  -- holdRun
  (∀ (c : QCmd) s d, Machine.Inv s → c.ent.code = 0x07 → d < 128 → (c.ent.args.getD 0 0).toNat = 0x300 + d → ((cmdRun c s).dom d).hold = false) ∧
  -- markRun
  (∀ (c : QCmd) s, c.ent.code = 0x0A → (∃ q ∈ s.lg.execQ, q.ent.jseq = c.ent.jseq) → ∀ e ∈ (cmdRun c s).lg.ring, e.jseq = c.ent.jseq → e.state = 4 ∧ e.result = 0) ∧
  -- armRun
  (∀ (c : QCmd) s, c.ent.code = 0x0B → (c.ent.args.getD 1 0) = 1 → (c.ent.args.getD 0 0) = 1 → (cmdRun c s).lg.oplArm = some ⟨c.ent.path, s.now⟩)

/-- In-band PDUs, their verification and the ends of a session. OPEN_REQ gives a nonce and opens a session; OPEN, REQUEST
and CLOSE wait for the verifier; a verified OPEN, a repeated REQUEST and a CLOSE; the open and the idle timeout. Each
clause concludes that exec answers a next state, under conditions on the state and the operands alone, and says what
that state holds. The order of checks is the model's reading, log 13. Instants are the operands t (log 3). Rests on
R463, R464, R465, R466, R467. -/
def Obligations.InBandAccess : Prop :=
  -- openReq
  (∀ s t p (q : BitVec 48) d im, p ≠ .host → s.awake = true → s.image = some im → pduFormat p d = true → field d 0 1 = 1 → s.session p = none → Gives (.openReq t p q d) s (fun u => u.rg.nonce = s.rg.nonce + 1 ∧
    u.session p = some { nonce := s.rg.nonce + 1, opening := true, sent := false, keyslot := 0, seq := 0, response := [], peer := q } ∧
    u.nv.cfgQ = s.nv.cfgQ ++ [{ nonce := some (s.rg.nonce + 1) }])) ∧
  -- openPdu
  (∀ s t p (q : BitVec 48) d im, p ≠ .host → s.awake = true → s.image = some im → pduFormat p d = true → field d 0 1 = 3 → pduKnown s p d = true → s.rg.pdus.length < 4 → Gives (.openPdu t p q d) s (fun u =>
    u.rg.pdus = s.rg.pdus ++ [⟨p, q, d.take (pduLen (field d 0 1) (field d 1 1))⟩] ∧ u.session p = s.session p)) ∧
  -- requestPdu
  (∀ s t p (q : BitVec 48) d im, p ≠ .host → s.awake = true → s.image = some im → pduFormat p d = true → field d 0 1 = 4 → pduKnown s p d = true → s.rg.pdus.length < 4 → Gives (.requestPdu t p q d) s (fun u =>
    u.rg.pdus = s.rg.pdus ++ [⟨p, q, d.take (pduLen (field d 0 1) (field d 1 1))⟩] ∧ u.session p = s.session p)) ∧
  -- closePdu
  (∀ s t p (q : BitVec 48) d im, p ≠ .host → s.awake = true → s.image = some im → pduFormat p d = true → field d 0 1 = 6 → pduKnown s p d = true → s.rg.pdus.length < 4 → Gives (.closePdu t p q d) s (fun u =>
    u.rg.pdus = s.rg.pdus ++ [⟨p, q, d.take (pduLen (field d 0 1) (field d 1 1))⟩] ∧ u.session p = s.session p)) ∧
  -- openVerified
  (∀ s t w r x, s.rg.pdus = w :: r → s.awake = true → verifierTaken s = false → s.session w.path = some x → pduFault s x w.path w.pdu = none → field w.pdu 0 1 = 3 → Gives (.inbandPduVerified t) s (fun u => u.rg.pdus = r ∧
    u.session w.path = some { x with opening := false, keyslot := field w.pdu 8 1, seq := 0, response := [] })) ∧
  -- requestRepeated
  (∀ s t w r x, s.rg.pdus = w :: r → s.awake = true → verifierTaken s = false → s.session w.path = some x → pduFault s x w.path w.pdu = none → field w.pdu 0 1 = 4 → w32 (field w.pdu 4 4) = x.seq → Gives (.inbandPduVerified t) s (fun u => u.rg.pdus = r ∧ u.session w.path = some x)) ∧
  -- closeVerified
  (∀ s t w r x, s.rg.pdus = w :: r → s.awake = true → verifierTaken s = false → s.session w.path = some x → pduFault s x w.path w.pdu = none → field w.pdu 0 1 = 6 → Gives (.inbandPduVerified t) s (fun u => u.session w.path = none ∧ Occurred 0x9004 (pathCode w.path) u)) ∧
  -- inbandOpenTimeout
  (∀ s t p x, s.session p = some x → x.opening = true → x.sent = true → Gives (.inbandOpenTimeout t p) s (fun u => u.session p = none)) ∧
  -- inbandIdleTimeout
  (∀ s t p x, s.session p = some x → x.opening = false → Gives (.inbandIdleTimeout t p) s (fun u => u.session p = none ∧ Occurred 0x9004 (pathCode p) u))

/-- Result, flags, time and next index of the 24 ALU instructions. For each of ADD, SUB, AND, OR, XOR, NOR, MIN, MAX, SHL,
SHR, SAR, MUL, MULH, DIVU, REMU, CMP, CMPU, ADDI, ANDI, ORI, XORI, CMPI, LDHI and SHFI: the whole core after it, with
g[d] written (g0 discards the write), exactly the flags the instruction sets, the pc one on and the cycles of the
instruction elapsed. Each clause concludes that exec answers a next state, under conditions on the state and the
operands alone, and says what that state holds. Running says: a core is in control, it runs a task whose budget allows
the instruction, no iteration ends after it and it is not the last of code memory. A command is the instruction at the
pc (log 30). Rests on R376, R377, R378, R372, R371, R370. -/
def Obligations.AluInstructions : Prop :=
  -- add
  (∀ s c t d a b, Running 1 s c t → Gives (.add d a b) s (fun u => activeCore u = some { stepped 1 t (regPut d (reg c a + reg c b) c) with z := reg c a + reg c b = 0, n := (reg c a + reg c b).msb, c := decide (2 ^ 32 ≤ (reg c a).toNat + (reg c b).toNat), v := (reg c a).msb = (reg c b).msb && (reg c a + reg c b).msb ≠ (reg c a).msb })) ∧
  -- sub
  (∀ s c t d a b, Running 1 s c t → Gives (.sub d a b) s (fun u => activeCore u = some { stepped 1 t (regPut d (reg c a - reg c b) c) with z := reg c a - reg c b = 0, n := (reg c a - reg c b).msb, c := decide ((reg c b).toNat ≤ (reg c a).toNat), v := (reg c a).msb ≠ (reg c b).msb && (reg c a - reg c b).msb ≠ (reg c a).msb })) ∧
  -- and
  (∀ s c t d a b, Running 1 s c t → Gives (.and d a b) s (fun u => activeCore u = some { stepped 1 t (regPut d (reg c a &&& reg c b) c) with z := decide ((reg c a &&& reg c b) = 0), n := ((reg c a &&& reg c b)).msb })) ∧
  -- or
  (∀ s c t d a b, Running 1 s c t → Gives (.or d a b) s (fun u => activeCore u = some { stepped 1 t (regPut d (reg c a ||| reg c b) c) with z := decide ((reg c a ||| reg c b) = 0), n := ((reg c a ||| reg c b)).msb })) ∧
  -- xor
  (∀ s c t d a b, Running 1 s c t → Gives (.xor d a b) s (fun u => activeCore u = some { stepped 1 t (regPut d (reg c a ^^^ reg c b) c) with z := decide ((reg c a ^^^ reg c b) = 0), n := ((reg c a ^^^ reg c b)).msb })) ∧
  -- nor
  (∀ s c t d a b, Running 1 s c t → Gives (.nor d a b) s (fun u => activeCore u = some { stepped 1 t (regPut d (~~~(reg c a ||| reg c b)) c) with z := decide ((~~~(reg c a ||| reg c b)) = 0), n := ((~~~(reg c a ||| reg c b))).msb })) ∧
  -- min
  (∀ s c t d a b, Running 1 s c t → Gives (.min d a b) s (fun u => activeCore u = some { stepped 1 t (regPut d (if (reg c a).slt (reg c b) then reg c a else reg c b) c) with z := decide ((if (reg c a).slt (reg c b) then reg c a else reg c b) = 0), n := ((if (reg c a).slt (reg c b) then reg c a else reg c b)).msb })) ∧
  -- max
  (∀ s c t d a b, Running 1 s c t → Gives (.max d a b) s (fun u => activeCore u = some { stepped 1 t (regPut d (if (reg c a).slt (reg c b) then reg c b else reg c a) c) with z := decide ((if (reg c a).slt (reg c b) then reg c b else reg c a) = 0), n := ((if (reg c a).slt (reg c b) then reg c b else reg c a)).msb })) ∧
  -- shl
  (∀ s c t d a b, Running 1 s c t → Gives (.shl d a b) s (fun u => activeCore u = some { stepped 1 t (regPut d ((reg c a) <<< ((reg c b).toNat % 32)) c) with z := decide (((reg c a) <<< ((reg c b).toNat % 32)) = 0), n := (((reg c a) <<< ((reg c b).toNat % 32))).msb, c := if (reg c b).toNat % 32 = 0 then c.c else (reg c a).getLsbD (32 - (reg c b).toNat % 32) })) ∧
  -- shr
  (∀ s c t d a b, Running 1 s c t → Gives (.shr d a b) s (fun u => activeCore u = some { stepped 1 t (regPut d ((reg c a) >>> ((reg c b).toNat % 32)) c) with z := decide (((reg c a) >>> ((reg c b).toNat % 32)) = 0), n := (((reg c a) >>> ((reg c b).toNat % 32))).msb, c := if (reg c b).toNat % 32 = 0 then c.c else (reg c a).getLsbD ((reg c b).toNat % 32 - 1) })) ∧
  -- sar
  (∀ s c t d a b, Running 1 s c t → Gives (.sar d a b) s (fun u => activeCore u = some { stepped 1 t (regPut d ((reg c a).sshiftRight ((reg c b).toNat % 32)) c) with z := decide (((reg c a).sshiftRight ((reg c b).toNat % 32)) = 0), n := (((reg c a).sshiftRight ((reg c b).toNat % 32))).msb, c := if (reg c b).toNat % 32 = 0 then c.c else (reg c a).getLsbD ((reg c b).toNat % 32 - 1) })) ∧
  -- mul
  (∀ s c t d a b, Running 2 s c t → Gives (.mul d a b) s (fun u => activeCore u = some { stepped 2 t (regPut d (reg c a * reg c b) c) with z := decide ((reg c a * reg c b) = 0), n := ((reg c a * reg c b)).msb, v := decide ((reg c a).toInt * (reg c b).toInt < -(2 ^ 31)) || decide (2 ^ 31 ≤ (reg c a).toInt * (reg c b).toInt) })) ∧
  -- mulh
  (∀ s c t d a b, Running 2 s c t → Gives (.mulh d a b) s (fun u => activeCore u = some { stepped 2 t (regPut d (BitVec.ofInt 32 ((reg c a).toInt * (reg c b).toInt / 2 ^ 32)) c) with z := decide ((BitVec.ofInt 32 ((reg c a).toInt * (reg c b).toInt / 2 ^ 32)) = 0), n := ((BitVec.ofInt 32 ((reg c a).toInt * (reg c b).toInt / 2 ^ 32))).msb })) ∧
  -- divu
  (∀ s c t d a b, Running 18 s c t → Gives (.divu d a b) s (fun u => activeCore u = some { stepped 18 t (regPut d (if reg c b = 0 then 0xFFFFFFFF else reg c a / reg c b) c) with z := decide ((if reg c b = 0 then 0xFFFFFFFF else reg c a / reg c b : Word) = 0), n := ((if reg c b = 0 then 0xFFFFFFFF else reg c a / reg c b : Word)).msb, v := decide (reg c b = 0) })) ∧
  -- remu
  (∀ s c t d a b, Running 18 s c t → Gives (.remu d a b) s (fun u => activeCore u = some { stepped 18 t (regPut d (if reg c b = 0 then reg c a else reg c a % reg c b) c) with z := decide ((if reg c b = 0 then reg c a else reg c a % reg c b : Word) = 0), n := ((if reg c b = 0 then reg c a else reg c a % reg c b : Word)).msb, v := decide (reg c b = 0) })) ∧
  -- cmp
  (∀ s c t d a b, Running 1 s c t → Gives (.cmp d a b) s (fun u => activeCore u = some { stepped 1 t (regPut d (if (reg c a).slt (reg c b) then 1 else 0) c) with z := reg c a - reg c b = 0, n := (reg c a - reg c b).msb, c := decide ((reg c b).toNat ≤ (reg c a).toNat), v := (reg c a).msb ≠ (reg c b).msb && (reg c a - reg c b).msb ≠ (reg c a).msb })) ∧
  -- cmpu
  (∀ s c t d a b, Running 1 s c t → Gives (.cmpu d a b) s (fun u => activeCore u = some { stepped 1 t (regPut d (if (reg c a).ult (reg c b) then 1 else 0) c) with z := reg c a - reg c b = 0, n := (reg c a - reg c b).msb, c := decide ((reg c b).toNat ≤ (reg c a).toNat), v := (reg c a).msb ≠ (reg c b).msb && (reg c a - reg c b).msb ≠ (reg c a).msb })) ∧
  -- addi
  (∀ s c t d a imm, Running 1 s c t → Gives (.addi d a imm) s (fun u => activeCore u = some { stepped 1 t (regPut d (reg c a + imm.signExtend 32) c) with z := reg c a + imm.signExtend 32 = 0, n := (reg c a + imm.signExtend 32).msb, c := decide (2 ^ 32 ≤ (reg c a).toNat + (imm.signExtend 32).toNat), v := (reg c a).msb = (imm.signExtend 32).msb && (reg c a + imm.signExtend 32).msb ≠ (reg c a).msb })) ∧
  -- andi
  (∀ s c t d a imm, Running 1 s c t → Gives (.andi d a imm) s (fun u => activeCore u = some { stepped 1 t (regPut d (reg c a &&& imm.setWidth 32) c) with z := decide ((reg c a &&& imm.setWidth 32) = 0), n := ((reg c a &&& imm.setWidth 32)).msb })) ∧
  -- ori
  (∀ s c t d a imm, Running 1 s c t → Gives (.ori d a imm) s (fun u => activeCore u = some { stepped 1 t (regPut d (reg c a ||| imm.setWidth 32) c) with z := decide ((reg c a ||| imm.setWidth 32) = 0), n := ((reg c a ||| imm.setWidth 32)).msb })) ∧
  -- xori
  (∀ s c t d a imm, Running 1 s c t → Gives (.xori d a imm) s (fun u => activeCore u = some { stepped 1 t (regPut d (reg c a ^^^ imm.setWidth 32) c) with z := decide ((reg c a ^^^ imm.setWidth 32) = 0), n := ((reg c a ^^^ imm.setWidth 32)).msb })) ∧
  -- cmpi
  (∀ s c t d a imm, Running 1 s c t → Gives (.cmpi d a imm) s (fun u => activeCore u = some { stepped 1 t (regPut d (if (reg c a).slt (imm.signExtend 32) then 1 else 0) c) with z := reg c a - imm.signExtend 32 = 0, n := (reg c a - imm.signExtend 32).msb, c := decide ((imm.signExtend 32).toNat ≤ (reg c a).toNat), v := (reg c a).msb ≠ (imm.signExtend 32).msb && (reg c a - imm.signExtend 32).msb ≠ (reg c a).msb })) ∧
  -- ldhi
  (∀ s c t d imm, Running 1 s c t → Gives (.ldhi d imm) s (fun u => activeCore u = some (stepped 1 t (regPut d (imm.setWidth 32 <<< (16 : Nat)) c)))) ∧
  -- shfi
  (∀ s c t d a (kind : BitVec 2) amount, Running 1 s c t → Gives (.shfi d a kind amount) s (fun u => activeCore u = some { stepped 1 t (regPut d (if kind = 0 then reg c a <<< amount.toNat else if kind = 1 then reg c a >>> amount.toNat else if kind = 2 then (reg c a).sshiftRight amount.toNat else (reg c a).rotateRight amount.toNat) c) with z := decide ((if kind = 0 then reg c a <<< amount.toNat else if kind = 1 then reg c a >>> amount.toNat else if kind = 2 then (reg c a).sshiftRight amount.toNat else (reg c a).rotateRight amount.toNat) = 0), n := ((if kind = 0 then reg c a <<< amount.toNat else if kind = 1 then reg c a >>> amount.toNat else if kind = 2 then (reg c a).sshiftRight amount.toNat else (reg c a).rotateRight amount.toNat)).msb, c := if amount = 0 then c.c else if kind = 0 then (reg c a).getLsbD (32 - amount.toNat) else (reg c a).getLsbD (amount.toNat - 1) }))

/-- Loads and stores: the register or the bytes written, and the accesses that yield. LDW, LDH, LDB, STW, STH and STB at
an allowed address: the whole core after it; a single-bit error is corrected with 0x8107. An access beyond data
memory, misaligned or outside the banks of the task yields with cause 0x02, one that meets an uncorrectable word with
0x12. Each clause concludes that exec answers a next state, under conditions on the state and the operands alone, and
says what that state holds. Running says: a core is in control, it runs a task whose budget allows the instruction, no
iteration ends after it and it is not the last of code memory. A command is the instruction at the pc (log 30). Rests
on R379, R380, R371, R370, R374. -/
def Obligations.LoadsAndStores : Prop :=
  -- ldw
  (∀ s c t d a imm ad, ad = (reg c a + imm.signExtend 32).toNat → Running 2 s c t → ad ≤ 0x3FFFF → ad % 4 = 0 → t.banks.getLsbD (ad / 65536) = true → wordErr c ad ≠ some true → Gives (.ldw d a imm) s (fun u =>
    activeCore u = some (stepped 2 t (regPut d (w32 (beNat (dataBytesAt c ad 4))) (if wordErr c ad = some false then wordClean ad c else c))) ∧
    (wordErr c ad = some false → Occurred 0x8107 0xFF u))) ∧
  -- ldh
  (∀ s c t d a imm ad, ad = (reg c a + imm.signExtend 32).toNat → Running 2 s c t → ad ≤ 0x3FFFF → ad % 2 = 0 → t.banks.getLsbD (ad / 65536) = true → wordErr c ad ≠ some true → Gives (.ldh d a imm) s (fun u =>
    activeCore u = some (stepped 2 t (regPut d (w32 (beNat (dataBytesAt c ad 2))) (if wordErr c ad = some false then wordClean ad c else c))) ∧
    (wordErr c ad = some false → Occurred 0x8107 0xFF u))) ∧
  -- ldb
  (∀ s c t d a imm ad, ad = (reg c a + imm.signExtend 32).toNat → Running 2 s c t → ad ≤ 0x3FFFF → ad % 1 = 0 → t.banks.getLsbD (ad / 65536) = true → wordErr c ad ≠ some true → Gives (.ldb d a imm) s (fun u =>
    activeCore u = some (stepped 2 t (regPut d (w32 (beNat (dataBytesAt c ad 1))) (if wordErr c ad = some false then wordClean ad c else c))) ∧
    (wordErr c ad = some false → Occurred 0x8107 0xFF u))) ∧
  -- stw
  (∀ s c t d a imm ad, ad = (reg c a + imm.signExtend 32).toNat → Running 2 s c t → ad ≤ 0x3FFFF → ad % 4 = 0 → t.banks.getLsbD (ad / 65536) = true → Gives (.stw d a imm) s (fun u => activeCore u = some (stepped 2 t (dataPutBytes ad (beBytes 4 (reg c d).toNat) (wordClean ad c))))) ∧
  -- sth
  (∀ s c t d a imm ad, ad = (reg c a + imm.signExtend 32).toNat → Running 2 s c t → ad ≤ 0x3FFFF → ad % 2 = 0 → t.banks.getLsbD (ad / 65536) = true → wordErr c ad ≠ some true → Gives (.sth d a imm) s (fun u =>
    activeCore u = some (stepped 2 t (dataPutBytes ad (beBytes 2 ((reg c d).toNat % 2 ^ 16)) (if wordErr c ad = some false then wordClean ad c else c))) ∧
    (wordErr c ad = some false → Occurred 0x8107 0xFF u))) ∧
  -- stb
  (∀ s c t d a imm ad, ad = (reg c a + imm.signExtend 32).toNat → Running 2 s c t → ad ≤ 0x3FFFF → ad % 1 = 0 → t.banks.getLsbD (ad / 65536) = true → wordErr c ad ≠ some true → Gives (.stb d a imm) s (fun u =>
    activeCore u = some (stepped 2 t (dataPutBytes ad (beBytes 1 ((reg c d).toNat % 2 ^ 8)) (if wordErr c ad = some false then wordClean ad c else c))) ∧
    (wordErr c ad = some false → Occurred 0x8107 0xFF u))) ∧
  -- ldwBad
  (∀ s c t d a imm ad, ad = (reg c a + imm.signExtend 32).toNat → Executes 2 s c t → (0x3FFFF < ad ∨ ad % 4 ≠ 0 ∨ t.banks.getLsbD (ad / 65536) = false) → Gives (.ldw d a imm) s (Yielded 0x02 s c t)) ∧
  -- ldwEcc
  (∀ s c t d a imm ad, ad = (reg c a + imm.signExtend 32).toNat → Executes 2 s c t → ad ≤ 0x3FFFF → ad % 4 = 0 → t.banks.getLsbD (ad / 65536) = true → wordErr c ad = some true → Gives (.ldw d a imm) s (Yielded 0x12 s c t)) ∧
  -- ldhBad
  (∀ s c t d a imm ad, ad = (reg c a + imm.signExtend 32).toNat → Executes 2 s c t → (0x3FFFF < ad ∨ ad % 2 ≠ 0 ∨ t.banks.getLsbD (ad / 65536) = false) → Gives (.ldh d a imm) s (Yielded 0x02 s c t)) ∧
  -- ldhEcc
  (∀ s c t d a imm ad, ad = (reg c a + imm.signExtend 32).toNat → Executes 2 s c t → ad ≤ 0x3FFFF → ad % 2 = 0 → t.banks.getLsbD (ad / 65536) = true → wordErr c ad = some true → Gives (.ldh d a imm) s (Yielded 0x12 s c t)) ∧
  -- ldbBad
  (∀ s c t d a imm ad, ad = (reg c a + imm.signExtend 32).toNat → Executes 2 s c t → (0x3FFFF < ad ∨ ad % 1 ≠ 0 ∨ t.banks.getLsbD (ad / 65536) = false) → Gives (.ldb d a imm) s (Yielded 0x02 s c t)) ∧
  -- ldbEcc
  (∀ s c t d a imm ad, ad = (reg c a + imm.signExtend 32).toNat → Executes 2 s c t → ad ≤ 0x3FFFF → ad % 1 = 0 → t.banks.getLsbD (ad / 65536) = true → wordErr c ad = some true → Gives (.ldb d a imm) s (Yielded 0x12 s c t)) ∧
  -- sthBad
  (∀ s c t d a imm ad, ad = (reg c a + imm.signExtend 32).toNat → Executes 2 s c t → (0x3FFFF < ad ∨ ad % 2 ≠ 0 ∨ t.banks.getLsbD (ad / 65536) = false) → Gives (.sth d a imm) s (Yielded 0x02 s c t)) ∧
  -- sthEcc
  (∀ s c t d a imm ad, ad = (reg c a + imm.signExtend 32).toNat → Executes 2 s c t → ad ≤ 0x3FFFF → ad % 2 = 0 → t.banks.getLsbD (ad / 65536) = true → wordErr c ad = some true → Gives (.sth d a imm) s (Yielded 0x12 s c t)) ∧
  -- stbBad
  (∀ s c t d a imm ad, ad = (reg c a + imm.signExtend 32).toNat → Executes 2 s c t → (0x3FFFF < ad ∨ ad % 1 ≠ 0 ∨ t.banks.getLsbD (ad / 65536) = false) → Gives (.stb d a imm) s (Yielded 0x02 s c t)) ∧
  -- stbEcc
  (∀ s c t d a imm ad, ad = (reg c a + imm.signExtend 32).toNat → Executes 2 s c t → ad ≤ 0x3FFFF → ad % 1 = 0 → t.banks.getLsbD (ad / 65536) = true → wordErr c ad = some true → Gives (.stb d a imm) s (Yielded 0x12 s c t)) ∧
  -- stwBad
  (∀ s c t d a imm ad, ad = (reg c a + imm.signExtend 32).toNat → Executes 2 s c t → (0x3FFFF < ad ∨ ad % 4 ≠ 0 ∨ t.banks.getLsbD (ad / 65536) = false) → Gives (.stw d a imm) s (Yielded 0x02 s c t))

/-- NOP, HALT, BR, LOOP, CALL, RET, ASRT, WAITG, an illegal word, and iteration ends. The core after each of them where it
runs, the cause with which each yields where it fails, and the iteration ends of an open loop shown on NOP. The order
in which LOOP and RET check is the model's reading, log 26. Each clause concludes that exec answers a next state,
under conditions on the state and the operands alone, and says what that state holds. Running says: a core is in
control, it runs a task whose budget allows the instruction, no iteration ends after it and it is not the last of code
memory. A command is the instruction at the pc (log 30). Rests on R381, R382, R370, R374, R389. -/
def Obligations.ControlAndAssertions : Prop :=
  -- nop
  (∀ s c t, Running 1 s c t → Gives .nop s (fun u => activeCore u = some (stepped 1 t c))) ∧
  -- halt
  (∀ s c t, Executes 1 s c t → c.sig = t.xsig → Gives .halt s (fun u => activeCore u = some { c with task := none, rets := [], loops := [] })) ∧
  -- brNot
  (∀ s c t cond imm, Running 1 s c t → cond.toNat ≤ 10 → condHolds cond.toNat c = false → Gives (.br cond imm) s (fun u => activeCore u = some (stepped 1 t c))) ∧
  -- brTaken
  (∀ s c t cond imm, Executes 1 s c t → cond.toNat ≤ 10 → condHolds cond.toNat c = true → c.pc + 1 + imm.toNat ≤ 65535 → Gives (.br cond imm) s (fun u => activeCore u = some { c with pc := c.pc + 1 + imm.toNat, task := some { t with e := t.e + 1 }, loops := c.loops.filter (fun l => !(l.level = c.rets.length && l.stop < c.pc + 1 + imm.toNat)) })) ∧
  -- loopNone
  (∀ s c t a lenH lenL nmax, Executes 1 s c t → c.pc + (lenH.toNat * 16 + lenL.toNat + 1) + 1 ≤ 65535 → c.loops.length < 4 → min (reg c a).toNat nmax.toNat = 0 → Gives (.loop a lenH lenL nmax) s (fun u => activeCore u = some { c with pc := c.pc + (lenH.toNat * 16 + lenL.toNat + 1) + 1, task := some { t with e := t.e + 1 } })) ∧
  -- loopSome
  (∀ s c t a lenH lenL nmax, Executes 1 s c t → c.pc + (lenH.toNat * 16 + lenL.toNat + 1) ≤ 65535 → c.loops.length < 4 → min (reg c a).toNat nmax.toNat ≠ 0 → Gives (.loop a lenH lenL nmax) s (fun u => activeCore u = some { c with pc := c.pc + 1, task := some { t with e := t.e + 1 }, loops := ⟨c.pc + 1, c.pc + (lenH.toNat * 16 + lenL.toNat + 1), min (reg c a).toNat nmax.toNat, c.rets.length⟩ :: c.loops })) ∧
  -- call
  (∀ s c t imm, Executes 1 s c t → c.rets.length < 8 → Gives (.call imm) s (fun u => activeCore u = some { c with pc := imm.toNat, task := some { t with e := t.e + 1 }, rets := (c.pc + 1) :: c.rets, regs := c.regs.set 31 (w32 (4 * (c.pc + 1))) })) ∧
  -- ret
  (∀ s c t r rest, Executes 1 s c t → (∀ l ∈ c.loops, l.level ≠ c.rets.length) → NoEnd (r - 1) { c with rets := rest } → c.rets = r :: rest → 0 < r → r ≤ 65535 → reg c 31 = w32 (4 * r) → Gives .ret s (fun u => activeCore u = some { c with pc := r, task := some { t with e := t.e + 1 }, rets := rest, regs := c.regs.set 31 (w32 (4 * rest.headD 0)) })) ∧
  -- illegal
  (∀ s c t, Executes 1 s c t → Gives .illegalInstruction s (Yielded 0x01 s c t)) ∧
  -- haltBad
  (∀ s c t, Executes 1 s c t → c.sig ≠ t.xsig → Gives .halt s (Yielded 0x09 s c t)) ∧
  -- brBad
  (∀ s c t cond imm, Executes 1 s c t → (10 < cond.toNat → Gives (.br cond imm) s (Yielded 0x01 s c t)) ∧ (condHolds cond.toNat c = true → 65535 < c.pc + 1 + imm.toNat → Gives (.br cond imm) s (Yielded 0x03 s c t))) ∧
  -- loopBad
  (∀ s c t a lenH lenL nmax, Executes 1 s c t → (65535 < c.pc + (lenH.toNat * 16 + lenL.toNat + 1) → Gives (.loop a lenH lenL nmax) s (Yielded 0x03 s c t)) ∧ (c.pc + (lenH.toNat * 16 + lenL.toNat + 1) ≤ 65535 → 4 ≤ c.loops.length → Gives (.loop a lenH lenL nmax) s (Yielded 0x06 s c t))) ∧
  -- callBad
  (∀ s c t imm, Executes 1 s c t → 8 ≤ c.rets.length → Gives (.call imm) s (Yielded 0x04 s c t)) ∧
  -- retBad
  (∀ s c t, Executes 1 s c t → (c.rets = [] → Gives .ret s (Yielded 0x04 s c t)) ∧ (∀ r rest, c.rets = r :: rest → (reg c 31 ≠ w32 (4 * r) → Gives .ret s (Yielded 0x05 s c t)) ∧ (reg c 31 = w32 (4 * r) → (∃ l ∈ c.loops, l.level = c.rets.length) → Gives .ret s (Yielded 0x06 s c t)))) ∧
  -- loopEnd
  (∀ s c t l rest, Executes 1 s c t → c.loops = l :: rest → l.stop = c.pc → l.level = c.rets.length → 1 < l.left → l.start ≤ 65535 → Gives .nop s (fun u => activeCore u = some { c with pc := l.start, task := some { t with e := t.e + 2 }, loops := { l with left := l.left - 1 } :: rest })) ∧
  -- loopLast
  (∀ s c t l rest, Executes 1 s c t → c.loops = l :: rest → l.stop = c.pc → l.level = c.rets.length → l.left ≤ 1 → (∀ m ∈ rest, m.stop ≠ c.pc) → c.pc < 65535 → Gives .nop s (fun u => activeCore u = some { c with pc := c.pc + 1, task := some { t with e := t.e + 2 }, loops := rest })) ∧
  -- asrtX
  (∀ s c t imm, Running 1 s c t → Gives (.asrtX imm) s (fun u => activeCore u = some { stepped 1 t c with sig := c.sig ^^^ imm })) ∧
  -- asrtC
  (∀ s c t imm, (Running 1 s c t → c.sig = imm → Gives (.asrtC imm) s (fun u => activeCore u = some (stepped 1 t c))) ∧ (Executes 1 s c t → c.sig ≠ imm → Gives (.asrtC imm) s (Yielded 0x07 s c t))) ∧
  -- asrtZ
  (∀ s c t a imm, (Running 1 s c t → reg c a = 0 → Gives (.asrtZ a imm) s (fun u => activeCore u = some (stepped 1 t c))) ∧ (Executes 1 s c t → reg c a ≠ 0 → Gives (.asrtZ a imm) s (Yielded 0x08 s c t))) ∧
  -- waitg
  (∀ s c t k, Running (max 1 (2 * k.toNat - t.e)) s c t → Gives (.waitg k) s (fun u => activeCore u = some (stepped (max 1 (2 * k.toNat - t.e)) t c)))

/-- SAMP, DRV, CNTR and MEAS answer the visible capture or drive the channel. The core after each, with the capture
visible at the edge (2 ticks, R97), C as the rule gives it, and the pending value of DRV. Each clause concludes that
exec answers a next state, under conditions on the state and the operands alone, and says what that state holds.
Running says: a core is in control, it runs a task whose budget allows the instruction, no iteration ends after it and
it is not the last of code memory. A command is the instruction at the pc (log 30). Rests on R383, R384, R371, R375. -/
def Obligations.FieldInstructions : Prop :=
  -- samp
  (∀ s c t d a ch, Running 4 s c t → 1 ≤ d.toNat → d.toNat ≤ 31 - 2 → ∀ n x, n = (reg c a + ch.setWidth 32).toNat → n ≤ 31 → chMode s n ≠ 0 →
    x = (if (s.chan n).cap.at_ + 16 ≤ (atEdge t (t.e + 4) s).now then (s.chan n).cap else (s.chan n).capPrev) → Gives (.samp d a ch) s (fun u => activeCore u = some (stepped 4 t (answered d [x.state, x.volt] ((x.state >>> (16 : Nat)).setWidth 16 = s.cyc.cyc) c)) ∧ True)) ∧
  -- drv
  (∀ s c t d a ch, Running 4 s c t → ∀ n, n = (reg c a + ch.setWidth 32).toNat → n ≤ 31 → chMode s n = 5 → Gives (.drv d a ch) s (fun u => activeCore u = some (stepped 4 t { c with c := overridden (s.chan n), v := false }) ∧ u.ch = s.ch.modify n (fun x => { x with pend := x.pend ++ [((reg c d).getLsbD 0, (atEdge t (t.e + 4) s).now)] }))) ∧
  -- cntr
  (∀ s c t d a ch, Running 4 s c t → 1 ≤ d.toNat → d.toNat ≤ 31 - 2 → ∀ n x, n = (reg c a + ch.setWidth 32).toNat → n ≤ 31 → chMode s n = 4 →
    x = (if (s.chan n).latch.at_ + 16 ≤ (atEdge t (t.e + 4) s).now then (s.chan n).latch else (s.chan n).latchPrev) → Gives (.cntr d a ch) s (fun u => activeCore u = some (stepped 4 t (answered d [x.value, x.cyc.setWidth 32 <<< (16 : Nat)] (x.cyc = s.cyc.cyc) c)) ∧ True)) ∧
  -- meas
  (∀ s c t d a set item, Running 4 s c t → 1 ≤ d.toNat → d.toNat ≤ 31 - 2 → ∀ im q x j, s.image = some im → (setCodes im set.toNat)[(reg c a + item.setWidth 32).toNat]? = some q → j = 16 * set.toNat + (reg c a + item.setWidth 32).toNat →
    x = (if (smGet {} s.ms.caps j).at_ + 16 ≤ (atEdge t (t.e + 4) s).now then smGet {} s.ms.caps j else smGet {} s.ms.capsPrev j) → Gives (.meas d a set item) s (fun u => activeCore u = some (stepped 4 t (answered d [x.value, w32 (x.cyc.toNat * 65536 + q.toNat)] (x.cyc = s.cyc.cyc) c)) ∧ True))

/-- Refusals of the service instructions, and their forms that are illegal. Each refused instruction writes 0 to its
group, clears C, sets V, records 0x8041 and goes on; a group of registers that does not fit, or a BALLOC count outside
1-8, yields with cause 0x01. The object of 0x8041 is not stated here (log 11). Each clause concludes that exec answers
a next state, under conditions on the state and the operands alone, and says what that state holds. Running says: a
core is in control, it runs a task whose budget allows the instruction, no iteration ends after it and it is not the
last of code memory. A command is the instruction at the pc (log 30). Rests on R375, R383, R385, R389, R391, R369,
R371, R374. -/
def Obligations.ServiceRefusals : Prop :=
  -- sampRefused
  (∀ s c t d a ch, Running 4 s c t → 1 ≤ d.toNat → d.toNat ≤ 31 - 2 → ∀ n, n = (reg c a + ch.setWidth 32).toNat → 31 < n ∨ chMode s n = 0 → Gives (.samp d a ch) s (fun u => activeCore u = some (stepped 4 t (refusedCore d 2 true c)) ∧ Occurred 0x8041 0xFF u)) ∧
  -- drvRefused
  (∀ s c t d a ch, Running 4 s c t → ∀ n, n = (reg c a + ch.setWidth 32).toNat → 31 < n ∨ chMode s n ≠ 5 → Gives (.drv d a ch) s (fun u => activeCore u = some (stepped 4 t (refusedCore d 0 false c)) ∧ Occurred 0x8041 0xFF u)) ∧
  -- cntrRefused
  (∀ s c t d a ch, Running 4 s c t → 1 ≤ d.toNat → d.toNat ≤ 31 - 2 → ∀ n, n = (reg c a + ch.setWidth 32).toNat → 31 < n ∨ chMode s n ≠ 4 → Gives (.cntr d a ch) s (fun u => activeCore u = some (stepped 4 t (refusedCore d 2 true c)) ∧ Occurred 0x8041 0xFF u)) ∧
  -- twwRefused
  (∀ s c t d a done w, Running 4 s c t → ∀ k im, k = (reg c a + w.setWidth 32).toNat → s.image = some im → im.node.wlen.toNat ≤ k → Gives (.tww d a done w) s (fun u => activeCore u = some (stepped 4 t (refusedCore d 0 false c)) ∧ Occurred 0x8041 0xFF u)) ∧
  -- twrWindowWordRefused
  (∀ s c t d a w, Running 4 s c t → ∀ x n, x = (if s.tf.snap.at_ + 16 ≤ (atEdge t (t.e + 4) s).now then s.tf.snap else s.tf.snapPrev) → n = (reg c a).toNat % 64 → (∀ off, n ≠ 0 → x.offs.find? (fun o => field x.payload o 1 = n) = some off → field x.payload (off + 3) 1 ≤ (reg c a).toNat / 256 % 256 + w.toNat) → Gives (.twrWindowWord d a w) s (fun u => activeCore u = some (stepped 4 t (refusedCore d 1 true c)) ∧ Occurred 0x8041 0xFF u)) ∧
  -- twrWindowHeaderRefused
  (∀ s c t d a, Running 4 s c t → ∀ x n, x = (if s.tf.snap.at_ + 16 ≤ (atEdge t (t.e + 4) s).now then s.tf.snap else s.tf.snapPrev) → n = (reg c a).toNat % 64 → (n = 0 ∨ x.offs.find? (fun o => field x.payload o 1 = n) = none) → Gives (.twrWindowHeader d a) s (fun u => activeCore u = some (stepped 4 t (refusedCore d 1 true c)) ∧ Occurred 0x8041 0xFF u)) ∧
  -- vsndWordRefused
  (∀ s c t d a slot, Running 4 s c t → (∀ st, s.star = some st → slotOwner st slot.toNat = 0x0C → lStatic st - 34 ≤ 4 * ((reg c a).toNat % 256)) → Gives (.vsndWord d a slot) s (fun u => activeCore u = some (stepped 4 t (refusedCore d 0 false c)) ∧ Occurred 0x8041 0xFF u)) ∧
  -- vsndCompleteRefused
  (∀ s c t d a slot, Running 4 s c t → (∀ st, s.star = some st → slotOwner st slot.toNat = 0x0C → lStatic st - 34 < (reg c d).toNat % 2048) → Gives (.vsndComplete d a slot) s (fun u => activeCore u = some (stepped 4 t (refusedCore d 0 false c)) ∧ Occurred 0x8041 0xFF u)) ∧
  -- vsndDynamicRefused
  (∀ s c t d a, Running 4 s c t → dynFault s (coreOwner s) (chainOf s (reg c a).toNat) ((reg c d).toNat % 512) (chainLen s (chainOf s (reg c a).toNat)) = true → Gives (.vsndDynamic d a) s (fun u => activeCore u = some (stepped 4 t (refusedCore d 0 false c)) ∧ Occurred 0x8041 0xFF u)) ∧
  -- vrcvWordRefused
  (∀ s c t d a slot, Running 4 s c t → (∀ st, s.star = some st → slot.toNat < st.nS → ((if s.vn.pub.at_ + 16 ≤ (atEdge t (t.e + 4) s).now then s.vn.pub else s.vn.pubPrev).slots.getD slot.toNat {}).body.length ≤ 4 * ((reg c a).toNat % 256)) → Gives (.vrcvWord d a slot) s (fun u => activeCore u = some (stepped 4 t (refusedCore d 1 true c)) ∧ Occurred 0x8041 0xFF u)) ∧
  -- vrcvStatusRefused
  (∀ s c t d slot, Running 4 s c t → 1 ≤ d.toNat → d.toNat ≤ 31 - 2 → (∀ st, s.star = some st → st.nS ≤ slot.toNat) → Gives (.vrcvStatus d slot) s (fun u => activeCore u = some (stepped 4 t (refusedCore d 2 true c)) ∧ Occurred 0x8041 0xFF u)) ∧
  -- gateRefused
  (∀ s c t a, Running 4 s c t → (reg c a).toNat % 4 = 3 → Gives (.gate a) s (fun u => activeCore u = some (stepped 4 t (refusedCore 0 0 false c)) ∧ Occurred 0x8041 0xFF u)) ∧
  -- measRefused
  (∀ s c t d a set item, Running 4 s c t → 1 ≤ d.toNat → d.toNat ≤ 31 - 2 → (∀ im, s.image = some im → (setCodes im set.toNat)[(reg c a + item.setWidth 32).toNat]? = none) → Gives (.meas d a set item) s (fun u => activeCore u = some (stepped 4 t (refusedCore d 2 true c)) ∧ Occurred 0x8041 0xFF u)) ∧
  -- benchResRefused
  (∀ s c t d a, Running 4 s c t → 1 ≤ d.toNat → d.toNat ≤ 31 - 2 → (s.bn.results.take 16).find? (fun r => r.ticket = (reg c a).toNat % 16) = none → Gives (.benchRes d a) s (fun u => activeCore u = some (stepped 4 t (refusedCore d 2 true c)) ∧ Occurred 0x8041 0xFF u)) ∧
  -- bufGetRefused
  (∀ s c t d a, Running 4 s c t → 1 ≤ d.toNat → d.toNat ≤ 31 - 4 → 4095 < (reg c a).toNat → Gives (.bufGet d a) s (fun u => activeCore u = some (stepped 4 t (refusedCore d 4 true c)) ∧ Occurred 0x8041 0xFF u)) ∧
  -- sampIllegal
  (∀ s c t d a ch, Executes 4 s c t → (d = 0 ∨ 31 - 2 < d.toNat) → Gives (.samp d a ch) s (Yielded 0x01 s c t)) ∧
  -- cntrIllegal
  (∀ s c t d a ch, Executes 4 s c t → (d = 0 ∨ 31 - 2 < d.toNat) → Gives (.cntr d a ch) s (Yielded 0x01 s c t)) ∧
  -- measIllegal
  (∀ s c t d a set item, Executes 4 s c t → (d = 0 ∨ 31 - 2 < d.toNat) → Gives (.meas d a set item) s (Yielded 0x01 s c t)) ∧
  -- vrcvStatusIllegal
  (∀ s c t d slot, Executes 4 s c t → (d = 0 ∨ 31 - 2 < d.toNat) → Gives (.vrcvStatus d slot) s (Yielded 0x01 s c t)) ∧
  -- ttIllegal
  (∀ s c t d, Executes 4 s c t → (d = 0 ∨ 31 - 2 < d.toNat) → Gives (.tt d) s (Yielded 0x01 s c t)) ∧
  -- chkpStatIllegal
  (∀ s c t d, Executes 4 s c t → (d = 0 ∨ 31 - 2 < d.toNat) → Gives (.chkpStat d) s (Yielded 0x01 s c t)) ∧
  -- benchResIllegal
  (∀ s c t d a, Executes 4 s c t → (d = 0 ∨ 31 - 2 < d.toNat) → Gives (.benchRes d a) s (Yielded 0x01 s c t)) ∧
  -- eqTxtsIllegal
  (∀ s c t d b, Executes 4 s c t → (d = 0 ∨ 31 - 3 < d.toNat) → Gives (.eqTxts d b) s (Yielded 0x01 s c t)) ∧
  -- bufGetIllegal
  (∀ s c t d a, Executes 4 s c t → (d = 0 ∨ 31 - 4 < d.toNat) → Gives (.bufGet d a) s (Yielded 0x01 s c t)) ∧
  -- ballocIllegal
  (∀ s c t d n, Executes 4 s c t → (n = 0 ∨ 8 < n.toNat) → Gives (.balloc d n) s (Yielded 0x01 s c t))

/-- TWW, TNUL, TWR and MPOST at the window, the snapshot and the message queues. The core after each, the window buffer,
the ready mark, the words of the published snapshot, the own message queue and the queue of the cores. Each clause
concludes that exec answers a next state, under conditions on the state and the operands alone, and says what that
state holds. The order of the reasons of MPOST is the model's reading, log 26. Running says: a core is in control, it
runs a task whose budget allows the instruction, no iteration ends after it and it is not the last of code memory. A
command is the instruction at the pc (log 30). Rests on R385, R386, R387, R375. -/
def Obligations.WindowAndMessageInstructions : Prop :=
  -- tww
  (∀ s c t d a done w, Running 4 s c t → ∀ k im, k = (reg c a + w.setWidth 32).toNat → s.image = some im → k < im.node.wlen.toNat → Gives (.tww d a done w) s (fun u => activeCore u = some (stepped 4 t { c with v := false }) ∧ u.tf = { s.tf with win := winPut im.node.wlen.toNat k (reg c d) s.tf.win, ready := if done then .data else s.tf.ready })) ∧
  -- tnul
  (∀ s c t, Running 4 s c t → Gives .tnul s (fun u => activeCore u = some (stepped 4 t { c with v := false }) ∧ u.tf = { s.tf with ready := .null })) ∧
  -- twrWindowWord
  (∀ s c t d a w, Running 4 s c t → ∀ x n off j, x = (if s.tf.snap.at_ + 16 ≤ (atEdge t (t.e + 4) s).now then s.tf.snap else s.tf.snapPrev) → n = (reg c a).toNat % 64 → n ≠ 0 → x.offs.find? (fun o => field x.payload o 1 = n) = some off → j = (reg c a).toNat / 256 % 256 + w.toNat → j < field x.payload (off + 3) 1 → Gives (.twrWindowWord d a w) s (fun u => activeCore u = some (stepped 4 t (answered d [w32 (field x.payload (off + 4 + 4 * j) 4)] (winFlag x.payload off 0 && !winFlag x.payload off 1 && !winFlag x.payload off 3 && x.valid) c)) ∧ True)) ∧
  -- twrWindowHeader
  (∀ s c t d a, Running 4 s c t → ∀ x n off, x = (if s.tf.snap.at_ + 16 ≤ (atEdge t (t.e + 4) s).now then s.tf.snap else s.tf.snapPrev) → n = (reg c a).toNat % 64 → n ≠ 0 → x.offs.find? (fun o => field x.payload o 1 = n) = some off → Gives (.twrWindowHeader d a) s (fun u => activeCore u = some (stepped 4 t (answered d [w32 (field x.payload off 4)] (winFlag x.payload off 0 && !winFlag x.payload off 1 && !winFlag x.payload off 3 && x.valid) c)) ∧ True)) ∧
  -- twrFrameHeader
  (∀ s c t d w, Running 4 s c t → ∀ x, x = (if s.tf.snap.at_ + 16 ≤ (atEdge t (t.e + 4) s).now then s.tf.snap else s.tf.snapPrev) → Gives (.twrFrameHeader d w) s (fun u => activeCore u = some (stepped 4 t (answered d [w32 (field x.payload (4 * w.toNat) 4)] (x.valid) c)) ∧ True)) ∧
  -- mpostTake
  (∀ s c t d, Running 4 s c t → ∀ b src r, s.tf.coreQ = (b, src) :: r → Gives (.mpostTake d) s (fun u => activeCore u = some (stepped 4 t { regPut d (w32 (b % 4096 + src.toNat * 65536)) c with c := true, v := false }) ∧ u.tf.coreQ = r ∧ u.pool = (chainOwner (coreOwner s) (chainOf s b) s).pool)) ∧
  -- mpostTakeEmpty
  (∀ s c t d, Running 4 s c t → s.tf.coreQ = [] → Gives (.mpostTake d) s (fun u => activeCore u = some (stepped 4 t { regPut d 0xFFFFFFFF c with c := false, v := false }) ∧ True)) ∧
  -- mpostSend
  (∀ s c t d a dst bs, Running 4 s c t → bs = chainOf s (reg c a).toNat → (s.tf.own.filter (fun m => m.cls = 0)).length < 16 → ownsAll s (coreOwner s) bs = true → chainLen s bs ≤ 1536 →
    (1 ≤ dst.toNat ∧ dst.toNat ≤ 63 ∨ dst = 0xFF) → Gives (.mpostSend d a dst) s (fun u => activeCore u = some (stepped 4 t { regPut d 0 c with c := true, v := false }) ∧
    u.pool = (chainOwner 0x3E bs s).pool ∧ (s.tf.window = false → u.tf.own = s.tf.own ++ [{ shutter := false, buf := some (reg c a).toNat, body := [], cls := 0, dst := dst, mseq := none, ports := [] }]))) ∧
  -- mpostRefused
  (∀ s c t d a dst bs, Running 4 s c t → bs = chainOf s (reg c a).toNat → 16 ≤ (s.tf.own.filter (fun m => m.cls = 0)).length ∨ ownsAll s (coreOwner s) bs = false ∨ 1536 < chainLen s bs ∨ ¬ (1 ≤ dst.toNat ∧ dst.toNat ≤ 63 ∨ dst = 0xFF) → 
    Gives (.mpostSend d a dst) s (fun u => activeCore u = some (stepped 4 t { regPut d (if 16 ≤ (s.tf.own.filter (fun m => m.cls = 0)).length then 1 else if ownsAll s (coreOwner s) bs = false ∨ 1536 < chainLen s bs then 2 else 3) c with c := false, v := true }) ∧
    u.pool = s.pool ∧ u.tf = s.tf))

/-- VSND and VRCV at the slot buffers, the publication and the dynamic queue. The core after each, the slot buffer, the
dynamic queue and the words of the publication. Each clause concludes that exec answers a next state, under conditions
on the state and the operands alone, and says what that state holds. Bytes beyond LEN in the last word are free (log
5). Running says: a core is in control, it runs a task whose budget allows the instruction, no iteration ends after it
and it is not the last of code memory. A command is the instruction at the pc (log 30). Rests on R385, R387, R375. -/
def Obligations.VehicleInstructions : Prop :=
  -- vsndWord
  (∀ s c t d a slot, Running 4 s c t → ∀ st, s.star = some st → slotOwner st slot.toNat = 0x0C → 4 * ((reg c a).toNat % 256) < lStatic st - 34 → Gives (.vsndWord d a slot) s (fun u => activeCore u = some (stepped 4 t { c with v := false }) ∧ u.vn.txBuf = s.vn.txBuf.modify slot.toNat (slotPut (4 * ((reg c a).toNat % 256)) (beBytes 4 (reg c d).toNat)))) ∧
  -- vsndComplete
  (∀ s c t d a slot, Running 4 s c t → ∀ st, s.star = some st → slotOwner st slot.toNat = 0x0C → (reg c d).toNat % 2048 ≤ lStatic st - 34 → Gives (.vsndComplete d a slot) s (fun u => activeCore u = some (stepped 4 t { c with v := false }) ∧ u.vn.txBuf = s.vn.txBuf.modify slot.toNat (fun x => { x with done := some ((reg c d).toNat % 2048, (reg c a).getLsbD 0) }))) ∧
  -- vsndDynamic
  (∀ s c t d a, Running 4 s c t → ∀ st i bs, s.star = some st → dynId st ((reg c d).toNat % 512) = some i → i.owner = 0x0C → bs = chainOf s (reg c a).toNat → ownsAll s (coreOwner s) bs = true → chainLen s bs + 34 ≤ i.maxLen → dynHeld s ((reg c d).toNat % 512) < 8 → Gives (.vsndDynamic d a) s (fun u => activeCore u = some (stepped 4 t { c with c := true, v := false }) ∧ u.vn.dynQ = s.vn.dynQ ++ [⟨(reg c d).toNat % 512, (reg c a).toNat, false⟩] ∧ u.pool = (chainOwner 0x3D bs s).pool)) ∧
  -- vrcvWord
  (∀ s c t d a slot, Running 4 s c t → ∀ st p x, s.star = some st → slot.toNat < st.nS → p = (if s.vn.pub.at_ + 16 ≤ (atEdge t (t.e + 4) s).now then s.vn.pub else s.vn.pubPrev) → x = p.slots.getD slot.toNat {} → 4 * ((reg c a).toNat % 256) < x.body.length → Gives (.vrcvWord d a slot) s (fun u => activeCore u = some (stepped 4 t (answered d [bodyWord s.free ((reg c a).toNat % 256) x.body] (p.valid && decide (x.status = 0)) c)) ∧ True)) ∧
  -- vrcvStatus
  (∀ s c t d slot, Running 4 s c t → 1 ≤ d.toNat → d.toNat ≤ 31 - 2 → ∀ st p x, s.star = some st → slot.toNat < st.nS → p = (if s.vn.pub.at_ + 16 ≤ (atEdge t (t.e + 4) s).now then s.vn.pub else s.vn.pubPrev) → x = p.slots.getD slot.toNat {} → Gives (.vrcvStatus d slot) s (fun u => activeCore u = some (stepped 4 t (answered d [w32 (x.status.toNat + 16 * x.flags.toNat + 65536 * (x.body.length % 2048)), p.cyc.setWidth 32] (p.valid && decide (x.status = 0)) c)) ∧ True)) ∧
  -- vrcvDynamic
  (∀ s c t d, Running 4 s c t → ∀ id b r, s.vn.coreQ = (id, b) :: r → Gives (.vrcvDynamic d) s (fun u => activeCore u = some (stepped 4 t { regPut d (w32 (b % 4096 + id % 512 * 65536)) c with c := true, v := false }) ∧ u.vn.coreQ = r ∧ u.pool = (chainOwner (coreOwner s) (chainOf s b) s).pool)) ∧
  -- vrcvDynamicEmpty
  (∀ s c t d, Running 4 s c t → s.vn.coreQ = [] → Gives (.vrcvDynamic d) s (fun u => activeCore u = some (stepped 4 t { regPut d 0xFFFFFFFF c with c := false, v := false }) ∧ True))

/-- BALLOC, BFREE, GATE, LOGE, BENCH and CHKP. The core after each, in the case of success and of the result code that
says no, with the pool, the Shutter gate, the log, the bench queue and the pending save. Each clause concludes that
exec answers a next state, under conditions on the state and the operands alone, and says what that state holds.
Running says: a core is in control, it runs a task whose budget allows the instruction, no iteration ends after it and
it is not the last of code memory. A command is the instruction at the pc (log 30). Rests on R388, R389, R375. -/
def Obligations.BufferAndSystemInstructions : Prop :=
  -- balloc
  (∀ s c t d n, Running 4 s c t → 1 ≤ n.toNat → n.toNat ≤ 8 → (n.toNat ≤ s.pool.free.length → Gives (.balloc d n) s (fun u => activeCore u = some (stepped 4 t { regPut d (w32 (s.pool.free.headD 0)) c with c := true, v := false }) ∧ u.pool.free = s.pool.free.drop n.toNat)) ∧
    (s.pool.free.length < n.toNat → Gives (.balloc d n) s (fun u => activeCore u = some (stepped 4 t { regPut d 0xFFFFFFFF c with c := false, v := true }) ∧ u.pool.free = s.pool.free ∧ Occurred 0x4013 0xFF u))) ∧
  -- gate
  (∀ s c t a, Running 4 s c t → (reg c a).toNat % 4 ≠ 3 → Gives (.gate a) s (fun u => activeCore u = some (stepped 4 t { c with v := false }) ∧ u.sh = { s.sh with gate := some ((reg c a).toNat % 4) })) ∧
  -- bfree
  (∀ s c t d a bs, Running 4 s c t → bs = chainOf s (reg c a).toNat → (freeFault s (coreOwner s) bs = none → Gives (.bfree d a) s (fun u => activeCore u = some (stepped 4 t { regPut d 0 c with c := true, v := false }) ∧ u.pool.free = s.pool.free ++ ascending bs)) ∧
    (∀ j x, freeFault s (coreOwner s) bs = some (j, x) → 1 ≤ j → j ≤ 3 → Gives (.bfree d a) s (fun u => activeCore u = some (stepped 4 t { regPut d (w32 j) c with c := false, v := true }) ∧ u.pool.free = s.pool.free ∧ Occurred (0x400F + j) 0xFF u))) ∧
  -- loge
  (∀ s c t d a inc code, Running 4 s c t → Gives (.loge d a inc code) s (fun u => activeCore u = some (stepped 4 t { c with c := oplSame s.lg (0xA000 + code.setWidth 16) ((reg c a).setWidth 8) [reg c d] || !(oplAdd true (0xA000 + code.setWidth 16) ((reg c a).setWidth 8) [reg c d] s.lg).oplFull, v := false }) ∧ Occurred (0xA000 + code.toNat) (reg c a).toNat u)) ∧
  -- bench
  (∀ s c t d a kind, Running 4 s c t → s.bn.next < 16 → kind ≠ 5 → benchJudge s true kind.toNat ((reg c a).toNat % 256) = none → Gives (.bench d a kind) s (fun u =>
    activeCore u = some (stepped 4 t { regPut d (w32 (benchTicket s.bn 16 s.bn.next)) c with c := true, v := false }) ∧
    u.bn.queue = s.bn.queue ++ [⟨benchTicket s.bn 16 s.bn.next, kind.toNat, (reg c a).toNat % 256, if s.image.isNone then 1 else 0, 0, false, false⟩])) ∧
  -- chkp
  (∀ s c t d, Running 4 s c t → (s.nv.chkPending = false → (chkLatest s).isSome = true → Gives (.chkp d) s (fun u => activeCore u = some (stepped 4 t { regPut d 0 c with c := true, v := false }) ∧ (s.nv.op ≠ none → u.nv.chkPending = true))) ∧
    (s.nv.chkPending = true ∨ chkLatest s = none → Gives (.chkp d) s (fun u => activeCore u = some (stepped 4 t { regPut d (if s.nv.chkPending then 1 else 2) c with c := false, v := true }) ∧ Occurred 0x8041 0xFF u)))

/-- CYC, TICK, TT, NODE, ORDFLAG, AWAKE, CHKP_STAT and BENCH_RES answer their words. The core after each with the words of
Table 13.12; without a complete copy SEQ and CYC of CHKP_STAT are free (log 5). Each clause concludes that exec
answers a next state, under conditions on the state and the operands alone, and says what that state holds. Running
says: a core is in control, it runs a task whose budget allows the instruction, no iteration ends after it and it is
not the last of code memory. A command is the instruction at the pc (log 30). Rests on R391, R371, R375. -/
def Obligations.SystemFunctions : Prop :=
  -- cyc
  (∀ s c t d, Running 4 s c t → Gives (.cyc d) s (fun u => activeCore u = some (stepped 4 t (answered d [w32 (s.cyc.cyc.toNat + (s.cyc.cyc.toNat % 64 + 1) * 65536)] (true) c)) ∧ True)) ∧
  -- tick
  (∀ s c t d, Running 4 s c t → Gives (.tick d) s (fun u => activeCore u = some (stepped 4 t (answered d [w32 ((max s.cyc.phase (t.start + 4 * (t.e + 4) - s.cyc.base)) / 8)] (true) c)) ∧ True)) ∧
  -- tt
  (∀ s c t d, Running 4 s c t → 1 ≤ d.toNat → d.toNat ≤ 31 - 2 → Gives (.tt d) s (fun u => activeCore u = some (stepped 4 t (answered d [((s.cyc.tt + BitVec.ofNat 64 (max s.cyc.phase (t.start + 4 * (t.e + 4) - s.cyc.base))) >>> 32).setWidth 32, (s.cyc.tt + BitVec.ofNat 64 (max s.cyc.phase (t.start + 4 * (t.e + 4) - s.cyc.base))).setWidth 32] (true) c)) ∧ True)) ∧
  -- node
  (∀ s c t d, Running 4 s c t → Gives (.node d) s (fun u => activeCore u = some (stepped 4 t (answered d [w32 (ownNumber s % 64 + 256 * s.pwr.node.code + 2048 * bit1 s.cyc.mode.valid + 4096 * s.cyc.mode.code + 65536 * s.hg.st.code + 2 ^ 20 * bit1 (isOrigin s) + 2 ^ 21 * bit1 (s.cr.active = 1))] (true) c)) ∧ True)) ∧
  -- ordflag
  (∀ s c t d, Running 4 s c t → Gives (.ordflag d) s (fun u => activeCore u = some (stepped 4 t (answered d [s.cr.ordFlag] (true) c)) ∧ True)) ∧
  -- awake
  (∀ s c t d a, Running 4 s c t → Gives (.awake d a) s (fun u => activeCore u = some (stepped 4 t (answered d [w32 (bit1 s.tf.taskAwake)] (true) c)) ∧ u.tf = { s.tf with taskAwake := (reg c a).getLsbD 0 })) ∧
  -- chkpStat
  (∀ s c t d, Running 4 s c t → 1 ≤ d.toNat → d.toNat ≤ 31 - 2 → ∀ i x, chkLatest s = some (i, x) → Gives (.chkpStat d) s (fun u => activeCore u = some (stepped 4 t (answered d [x.seq, w32 (2 ^ 31 + x.cyc.toNat)] (true) c)) ∧ True)) ∧
  -- chkpStatNone
  (∀ s c t d, Running 4 s c t → 1 ≤ d.toNat → d.toNat ≤ 31 - 2 → chkLatest s = none → Gives (.chkpStat d) s (fun u => activeCore u = some (stepped 4 t (answered d [s.freeWord, w32 (s.freeWord.toNat % 65536)] (true) c)) ∧ True)) ∧
  -- benchRes
  (∀ s c t d a, Running 4 s c t → 1 ≤ d.toNat → d.toNat ≤ 31 - 2 → ∀ r, (s.bn.results.take 16).find? (fun r => r.ticket = (reg c a).toNat % 16) = some r → Gives (.benchRes d a) s (fun u => activeCore u = some (stepped 4 t (answered d [w32 (r.status + 16 * r.kind + 256 * r.obj), r.detail] (true) c)) ∧ True))

/-- BUF_RD, BUF_WR, BUF_SET and BUF_GET, their refusals, and the refused BENCH. The core after each and the buffer
changed; an access to a buffer that is not the core's, or at a bad offset, is refused with 0x8042; one that meets an
uncorrectable unit with 0x4014. Each clause concludes that exec answers a next state, under conditions on the state
and the operands alone, and says what that state holds. Running says: a core is in control, it runs a task whose
budget allows the instruction, no iteration ends after it and it is not the last of code memory. A command is the
instruction at the pc (log 30). Rests on R391, R273, R283, R389. -/
def Obligations.BufferFunctions : Prop :=
  -- bufRd
  (∀ s c t d a b, Running 4 s c t → ∀ n off, n = (reg c a).toNat → off = (reg c b).toNat → inPool s n = true → (s.buf n).owner = coreOwner s → off % 4 = 0 → off ≤ 252 → unitErr s (16 * n + off / 16) ≠ some true → Gives (.bufRd d a b) s (fun u => activeCore u = some (stepped 4 t (answered d [w32 (field (s.buf n).data off 4)] (true) c)) ∧ u.pool = s.pool)) ∧
  -- bufWr
  (∀ s c t d a b, Running 4 s c t → ∀ n off, n = (reg c a).toNat → off = (reg c b).toNat → inPool s n = true → (s.buf n).owner = coreOwner s → off % 4 = 0 → off ≤ 252 → unitErr s (16 * n + off / 16) ≠ some true → Gives (.bufWr d a b) s (fun u => activeCore u = some (stepped 4 t { c with v := false }) ∧ u.pool.bufs = smPut {} s.pool.bufs n { s.buf n with data := patch (padTo 256 (s.buf n).data) off (beBytes 4 (reg c d).toNat) })) ∧
  -- bufSet
  (∀ s c t d a b, Running 4 s c t → ∀ n, n = (reg c a).toNat → inPool s n = true → (s.buf n).owner = coreOwner s → 1 ≤ (reg c b).toNat % 512 → (reg c b).toNat % 512 ≤ 256 → Gives (.bufSet d a b) s (fun u => activeCore u = some (stepped 4 t { c with v := false }) ∧ u.pool.bufs = smPut {} s.pool.bufs n (bufDescribe (reg c b) ((reg c d).setWidth 16) (s.buf n)))) ∧
  -- bufGet
  (∀ s c t d a, Running 4 s c t → 1 ≤ d.toNat → d.toNat ≤ 31 - 4 → (reg c a).toNat ≤ 4095 → Gives (.bufGet d a) s (fun u => activeCore u = some (stepped 4 t (answered d [w32 ((s.buf (reg c a).toNat).next.toNat * 65536 + (s.buf (reg c a).toNat).owner.toNat * 256 + (s.buf (reg c a).toNat).flags.toNat), w32 ((s.buf (reg c a).toNat).blen.toNat * 65536 + (s.buf (reg c a).toNat).tci.toNat), ((s.buf (reg c a).toNat).tstamp >>> 32).setWidth 32, (s.buf (reg c a).toNat).tstamp.setWidth 32] (true) c)) ∧ True)) ∧
  -- bufRdRefused
  (∀ s c t d a b, Running 4 s c t → (inPool s (reg c a).toNat = false ∨ (s.buf (reg c a).toNat).owner ≠ coreOwner s ∨ (reg c b).toNat % 4 ≠ 0 ∨ 252 < (reg c b).toNat) → Gives (.bufRd d a b) s (fun u => activeCore u = some (stepped 4 t (refusedCore d 1 true c)) ∧ u.pool = s.pool ∧ Occurred 0x8042 0xFF u)) ∧
  -- bufWrRefused
  (∀ s c t d a b, Running 4 s c t → (inPool s (reg c a).toNat = false ∨ (s.buf (reg c a).toNat).owner ≠ coreOwner s ∨ (reg c b).toNat % 4 ≠ 0 ∨ 252 < (reg c b).toNat) → Gives (.bufWr d a b) s (fun u => activeCore u = some (stepped 4 t (refusedCore d 0 false c)) ∧ u.pool = s.pool ∧ Occurred 0x8042 0xFF u)) ∧
  -- bufSetRefused
  (∀ s c t d a b, Running 4 s c t → (inPool s (reg c a).toNat = false ∨ (s.buf (reg c a).toNat).owner ≠ coreOwner s ∨ (reg c b).toNat % 512 = 0 ∨ 256 < (reg c b).toNat % 512) → Gives (.bufSet d a b) s (fun u => activeCore u = some (stepped 4 t (refusedCore d 0 false c)) ∧ u.pool = s.pool ∧ Occurred 0x8042 0xFF u)) ∧
  -- bufRdEcc
  (∀ s c t d a b, Running 4 s c t → ∀ n off, n = (reg c a).toNat → off = (reg c b).toNat → inPool s n = true → (s.buf n).owner = coreOwner s → off % 4 = 0 → off ≤ 252 → unitErr s (16 * n + off / 16) = some true → Gives (.bufRd d a b) s (fun u => activeCore u = some (stepped 4 t (refusedCore d 1 true c)) ∧ u.pool.bufs = s.pool.bufs ∧ Occurred 0x4014 0xFF u)) ∧
  -- bufWrEcc
  (∀ s c t d a b, Running 4 s c t → ∀ n off, n = (reg c a).toNat → off = (reg c b).toNat → inPool s n = true → (s.buf n).owner = coreOwner s → off % 4 = 0 → off ≤ 252 → unitErr s (16 * n + off / 16) = some true → Gives (.bufWr d a b) s (fun u => activeCore u = some (stepped 4 t (refusedCore d 0 false c)) ∧ u.pool.bufs = s.pool.bufs ∧ Occurred 0x4014 0xFF u)) ∧
  -- benchRefused
  (∀ s c t d a kind k, Running 4 s c t → (kind = 5 ∧ k = 4 ∨ kind ≠ 5 ∧ benchJudge s true kind.toNat ((reg c a).toNat % 256) = some k) → k < 2 ^ 31 → Gives (.bench d a kind) s (fun u =>
    activeCore u = some (stepped 4 t { regPut d (w32 (0x80000000 + k)) c with c := false, v := true }) ∧ u.bn = s.bn ∧ Occurred 0x7022 kind.toNat u))

/-- EQ_POST, EQ_TAKE and EQ_TXTS at the equipment ports. The core after each, in the case of success and of refusal or of
an empty queue, with the queue or the FIFO changed. An empty FIFO answers 0 by the model's reading, log 26. Each
clause concludes that exec answers a next state, under conditions on the state and the operands alone, and says what
that state holds. Running says: a core is in control, it runs a task whose budget allows the instruction, no iteration
ends after it and it is not the last of code memory. A command is the instruction at the pc (log 30). Rests on R391,
R270, R278, R487. -/
def Obligations.EquipmentFunctions : Prop :=
  -- eqPost
  (∀ s c t d a b n q bs, Running 4 s c t → n = (reg c b).toNat % 4 → q = (reg c b).toNat / 256 % 8 → bs = chainOf s (reg c a).toNat → postFault s (coreOwner s) bs n q = 0 → (s.eqp n).tx.isSome = true → n < s.eq.length →
    Gives (.eqPost d a b) s (fun u => activeCore u = some (stepped 4 t (answered d [0] true c)) ∧ (u.eqp n).queues = (s.eqp n).queues.modify q (· ++ [(reg c a).toNat]) ∧ u.pool = (chainOwner (queueOwner n q) bs s).pool)) ∧
  -- eqPostRefused
  (∀ s c t d a b n q bs j, Running 4 s c t → n = (reg c b).toNat % 4 → q = (reg c b).toNat / 256 % 8 → bs = chainOf s (reg c a).toNat → postFault s (coreOwner s) bs n q = j → j ≠ 0 →
    Gives (.eqPost d a b) s (fun u => activeCore u = some (stepped 4 t { answered d [w32 j] false c with v := true }) ∧ u.eq = s.eq ∧ u.pool = s.pool ∧ Occurred 0x4008 n u)) ∧
  -- eqTake
  (∀ s c t d b n, Running 4 s c t → n = (reg c b).toNat % 4 → n < s.eq.length → ((s.eqp n).coreQ = [] → Gives (.eqTake d b) s (fun u => activeCore u = some (stepped 4 t (answered d [0xFFFFFFFF] false c)))) ∧
    (∀ x r, (s.eqp n).coreQ = x :: r → Gives (.eqTake d b) s (fun u => activeCore u = some (stepped 4 t (answered d [w32 x] true c)) ∧ (u.eqp n).coreQ = r ∧ u.pool = (chainOwner (coreOwner s) (chainOf s x) s).pool))) ∧
  -- eqTxts
  (∀ s c t d b n, Running 4 s c t → 1 ≤ d.toNat → d.toNat ≤ 28 → n = (reg c b).toNat % 4 → n < s.eq.length → ((s.eqp n).stamps = [] → Gives (.eqTxts d b) s (fun u => activeCore u = some (stepped 4 t (answered d [0, 0, 0] false c)))) ∧
    (∀ k w r, (s.eqp n).stamps = (k, w) :: r → Gives (.eqTxts d b) s (fun u => activeCore u = some (stepped 4 t (answered d [w32 (2 ^ 31 + k.toNat), (w >>> 32).setWidth 32, w.setWidth 32] true c)) ∧ (u.eqp n).stamps = r)))

/-- Serial number a follows b when a - b mod 2^32 lies in 1-2,147,483,647. For all words a and b, the model's follows is
true exactly where a - b mod 2^32 lies in 1-2,147,483,647. Formalises R501. -/
def Obligations.SerialComparison : Prop :=
  -- follows
  (∀ a b : Word, (follows a b = true ↔ 1 ≤ (a.toNat + 2 ^ 32 - b.toNat) % 2 ^ 32 ∧ (a.toNat + 2 ^ 32 - b.toNat) % 2 ^ 32 ≤ 2147483647) ∧ ((follows a b = false ∧ follows b a = false) ↔ ((a.toNat + 2 ^ 32 - b.toNat) % 2 ^ 32 = 0 ∨ (a.toNat + 2 ^ 32 - b.toNat) % 2 ^ 32 = 2147483648)))

/-- An event latch sets when the code and the mask agree, and a mask of 0 matches nothing. Bit k of LG_EVHIT sets at an
event whose code AND mask equals the code of latch k AND mask; a latch with mask 0 sets at no event. Stated over
noteEvent, the operation that records every event. Formalises R481. -/
def Obligations.EventLatches : Prop :=
  -- latchSets
  (∀ (s : State) (c i : Nat) (d : List Word) (k : Nat) (w : Word) (m : Half), k < 16 → s.lg.evMatch[k]? = some w → m = (w >>> (16 : Nat)).setWidth 16 → m ≠ 0 →
    BitVec.ofNat 16 c &&& m = w.setWidth 16 &&& m → (raise c i d s).lg.evHit.getLsbD k = true) ∧
  -- latchOff
  (∀ (s : State) (c i : Nat) (d : List Word) (k : Nat) (w : Word), s.lg.evMatch[k]? = some w → (w >>> (16 : Nat)).setWidth 16 = (0 : Half) →
    (raise c i d s).lg.evHit.getLsbD k = s.lg.evHit.getLsbD k)

/-- A shift by 0 leaves C, division by 0 gives its results and V, and no ALU operation ends the run. SHL, SHR and SAR by 0
mod 32 and SHFI by 0 leave C; DIVU by 0 gives 0xFFFFFFFF and REMU by 0 gives g[a]; both take 18 cycles whatever the
operands; each ALU instruction answers a next state in which the task runs on at the next index. Formalises R377. -/
def Obligations.AluLimits : Prop :=
  -- aluShiftZero
  (∀ s c t d a b, Running 1 s c t → (reg c b).toNat % 32 = 0 → ∀ i ∈ [Instr.shl d a b, .shr d a b, .sar d a b], Gives i s (fun u => ∃ k, activeCore u = some k ∧ k.c = c.c)) ∧
  -- shfiZero
  (∀ s c t d a (k : BitVec 2), Running 1 s c t → Gives (.shfi d a k 0) s (fun u => ∃ x, activeCore u = some x ∧ x.c = c.c)) ∧
  -- divZero
  (∀ s c t d a b, Running 18 s c t → d ≠ 0 → reg c b = 0 → c.regs.length = 32 → Gives (.divu d a b) s (fun u => ∃ k, activeCore u = some k ∧ reg k d = 0xFFFFFFFF) ∧ Gives (.remu d a b) s (fun u => ∃ k, activeCore u = some k ∧ reg k d = reg c a)) ∧
  -- divTime
  (∀ s c t d a b, Running 18 s c t → ∀ i ∈ [Instr.divu d a b, .remu d a b], Gives i s (fun u => ∃ k r, activeCore u = some k ∧ k.task = some r ∧ r.e = t.e + 18)) ∧
  -- aluNoFault
  (∀ s c t d a b imm (k : BitVec 2) m, Running 18 s c t → ∀ i ∈ [Instr.add d a b, .sub d a b, .and d a b, .or d a b, .xor d a b, .nor d a b, .shl d a b, .shr d a b, .sar d a b, .mul d a b, .mulh d a b, .divu d a b, .remu d a b, .cmp d a b, .cmpu d a b, .min d a b, .max d a b, Instr.addi d a imm, .andi d a imm, .ori d a imm, .xori d a imm, .cmpi d a imm, .ldhi d imm, .shfi d a k m],
    Gives i s (fun u => ∃ x r, activeCore u = some x ∧ x.task = some r ∧ x.pc = c.pc + 1))

/-- An entry fires at position p when bit p - 1 of its CMASK is 1; the position goes 1 to 64 with CYC. The position is CYC
mod 64 + 1, lies in 1-64, and when CYC goes one up (wrapping) it goes to its successor, 64 to 1. From the second cycle
in RUN on, with the grid running, an entry of the image is the entry a grid command of its kind and index fires
exactly when bit p - 1 of its CMASK is 1 at position p. Formalises R85. -/
def Obligations.MacrocyclePosition : Prop :=
  -- macroPos
  (∀ s : State, macroPos s = s.cyc.cyc.toNat % 64 + 1 ∧ 1 ≤ macroPos s ∧ macroPos s ≤ 64) ∧
  -- macroNext
  (∀ s u : State, u.cyc.cyc = s.cyc.cyc + 1 → macroPos u = macroPos s % 64 + 1) ∧
  -- entryFires
  (∀ s kind i e im, s.image = some im → im.grid[i]? = some e → s.running = true → s.gr.on = true → e.kind = kind → 2 ≤ s.cyc.runCycles → (gridEntry s kind i = some e ↔ e.cmask.getLsbD (macroPos s - 1) = true))

/-- Every task starts with its registers, flags, signature and stacks as the context table says. Where a TASK entry fires
with a core in control, that core starts with g0-g31 and the flags 0, SIG 0 and both stacks empty, whatever the task
before left. Formalises R373. -/
def Obligations.TaskContext : Prop :=
  -- taskContext
  (∀ s i e im x c, Fires s 0x1C i e → s.image = some im → im.tasks[e.target.toNat]? = some x → activeCore s = some c →
    Gives (.task i) s (fun u => ∃ k, activeCore u = some k ∧ k.regs = List.replicate 32 0 ∧ k.n = false ∧ k.z = false ∧ k.c = false ∧ k.v = false ∧ k.sig = 0 ∧ k.rets = [] ∧ k.loops = []))

/-- A record that does not fit the OPL is not written, sets OPL_FULL and records 0x9043. A record that is not a repeat and
whose length does not fit in 32 KiB leaves the OPL as it is, sets OPL_FULL, and 0x9043 occurs and enters the INC
buffer. With OPL_FULL set, a record that is no repeat changes nothing. Formalises R509. -/
def Obligations.OplFull : Prop :=
  -- oplFull
  (∀ s rep code inst data, (rep && oplSame s.lg code inst data) = false → s.lg.oplFull = false → 32768 < s.lg.oplUsed + oplLen ⟨code, inst, data, s.lg.oseq, 0, inst = 0xFF && data.isEmpty && !rep⟩ →
    (logOpl rep code inst data s).lg.opl = s.lg.opl ∧ (logOpl rep code inst data s).lg.oplFull = true ∧ Occurred 0x9043 0xFF (logOpl rep code inst data s) ∧
    (logOpl rep code inst data s).lg.incBuf = (incAdd false s.pwr.opsec s.pwr.pcyc 0x9043 0xFF [] s.lg).incBuf) ∧
  -- oplKept
  (∀ s rep code inst data, s.lg.oplFull = true → (rep && oplSame s.lg code inst data) = false → (logOpl rep code inst data s) = s)

/-- A DQ channel never reports 0b10. The state code captured for a DQ channel is 3 with a fault cause, else 1 with its
stage on, else 0, and never 2. Formalises R334. -/
def Obligations.OutputStateCode : Prop :=
  -- dqCode
  (∀ s n v, n < s.ch.length → chMode s n = 5 → (((capture n v s).chan n).cap.state.toNat % 4 = if causeOf (s.chan n) ≠ 0 then 3 else if stageOn s n then 1 else 0) ∧ ((capture n v s).chan n).cap.state.toNat % 4 ≠ 2)

/-- Power, clock, domain and wake events change at most their parts of the state. For each command named: Each clause: if
exec answers a next state, at most the named parts of the state have changed, beside those any command may change (the
instant in the cycle, the outputs, and what the NV controller changes when it takes its next work: its own registers,
the banks that show its command, the verifier's domain). The logs and the record of events are outside every frame.
Parts are those of Part in Safety. Rests on R31, R34, R64, R68, R78, R296, R299. -/
def Obligations.PowerCommandFrames : Prop :=
  -- fr_seatedConfirm
  (∀ a0, Touches [.node, .pwr, .cyc, .hg, .tf, .vn, .eq, .pool, .sh, .ch, .ms, .bn, .cr, .gr, .store, .rg] (.seatedConfirm a0)) ∧
  -- fr_removal
  (∀ a0, Touches [.node, .pwr, .cyc, .hg, .tf, .vn, .eq, .pool, .sh, .ch, .ms, .bn, .cr, .gr, .store, .rg, .free] (.removal a0)) ∧
  -- fr_supplyLoss
  (∀ a0, Touches [.pwr, .store, .free] (.supplyLoss a0)) ∧
  -- fr_flushDone
  (∀ a0, Touches [.node, .pwr, .cyc, .hg, .tf, .vn, .eq, .pool, .sh, .ch, .ms, .bn, .cr, .gr, .store, .rg, .free] (.flushDone a0)) ∧
  -- fr_converterStop
  (∀ a0, Touches [.node, .pwr, .cyc, .hg, .tf, .vn, .eq, .pool, .sh, .ch, .ms, .bn, .cr, .gr, .store, .rg, .free] (.converterStop a0)) ∧
  -- fr_holdupMeasure
  (∀ a0 a1, Touches [.pwr] (.holdupMeasure a0 a1)) ∧
  -- fr_relaySenseMismatch
  (∀ a0 a1, Touches [.pwr] (.relaySenseMismatch a0 a1)) ∧
  -- fr_powerGood
  (∀ a0, Touches [.pwr, .vn, .eq, .pool, .ch, .cr, .rg, .free] (.powerGood a0)) ∧
  -- fr_powerGoodTimeout
  (∀ a0, Touches [.node, .pwr, .cyc, .hg, .tf, .vn, .eq, .pool, .sh, .ch, .ms, .bn, .cr, .gr, .store, .rg] (.powerGoodTimeout a0)) ∧
  -- fr_regulatorAttempt
  (∀ a0, Touches [.pwr] (.regulatorAttempt a0)) ∧
  -- fr_pllLocked
  (∀ a0, Touches [.node, .pwr, .cyc] (.pllLocked a0)) ∧
  -- fr_pllLockTimeout
  (∀ a0, Touches [.node, .pwr] (.pllLockTimeout a0)) ∧
  -- fr_pllRetry
  (∀ a0, Touches [.pwr] (.pllRetry a0)) ∧
  -- fr_pllLockLoss
  (∀ a0 a1 a2, Touches [.pwr] (.pllLockLoss a0 a1 a2)) ∧
  -- fr_pllLockRegained
  (∀ a0, Touches [.pwr] (.pllLockRegained a0)) ∧
  -- fr_domainSwitchTimeout
  (∀ a0 a1, Touches [] (.domainSwitchTimeout a0 a1)) ∧
  -- fr_domainSettled
  (∀ a0 a1, Touches [.vn, .eq, .pool, .ch, .cr, .rg, .free] (.domainSettled a0 a1)) ∧
  -- fr_noImageTimeout
  (∀ a0, Touches [.pwr] (.noImageTimeout a0)) ∧
  -- fr_warmResetEnd
  (∀ a0, Touches [.pwr, .vn, .eq, .pool, .ch, .cr, .rg, .free] (.warmResetEnd a0)) ∧
  -- fr_sleepMinDwell
  (∀ a0, Touches [.node, .pwr, .store, .rg] (.sleepMinDwell a0)) ∧
  -- fr_quiesceDone
  (∀ a0, Touches [.node, .pwr, .cyc, .hg, .tf, .vn, .eq, .pool, .sh, .ch, .ms, .bn, .cr, .gr, .store, .rg] (.quiesceDone a0)) ∧
  -- fr_quiesceCut
  (∀ a0, Touches [.node, .pwr, .cyc, .hg, .tf, .vn, .eq, .pool, .sh, .ch, .ms, .bn, .cr, .gr, .store, .rg, .free] (.quiesceCut a0)) ∧
  -- fr_opsecTick
  (∀ a0, Touches [.pwr] (.opsecTick a0)) ∧
  -- fr_wakePatternMatch
  (∀ a0 a1 a2, Touches [.pwr] (.wakePatternMatch a0 a1 a2)) ∧
  -- fr_wakeInDetect
  (∀ a0, Touches [.pwr] (.wakeInDetect a0)) ∧
  -- fr_wakeChannelDetect
  (∀ a0, Touches [.pwr] (.wakeChannelDetect a0)) ∧
  -- fr_burstReceived
  (∀ a0 a1, Touches [.node, .pwr, .store, .rg] (.burstReceived a0 a1)) ∧
  -- fr_lineCheckEnd
  (∀ a0 a1 a2, Touches [.node, .pwr, .store, .rg] (.lineCheckEnd a0 a1 a2)) ∧
  -- fr_burstListenTimeout
  (∀ a0, Touches [.node, .pwr, .store, .rg] (.burstListenTimeout a0)) ∧
  -- fr_wakeBurstSend
  (∀ a0, Touches [.pwr] (.wakeBurstSend a0)) ∧
  -- fr_burstQuiet
  (∀ a0, Touches [.pwr] (.burstQuiet a0))

/-- Cycle, grid and LIMP actions change at most their parts of the state. For each command named: Each clause: if exec
answers a next state, at most the named parts of the state have changed, beside those any command may change (the
instant in the cycle, the outputs, and what the NV controller changes when it takes its next work: its own registers,
the banks that show its command, the verifier's domain). The logs and the record of events are outside every frame.
Parts are those of Part in Safety. Rests on R85, R92, R98, R101, R113, R325, R332, R349, R457. -/
def Obligations.GridCommandFrames : Prop :=
  -- fr_cfgStore
  (∀ a0, Touches [] (.cfgStore a0)) ∧
  -- fr_cycleStart
  (Touches [.node, .pwr, .cyc, .hg, .tf, .vn, .eq, .pool, .sh, .ch, .ms, .bn, .cr, .gr, .store, .rg, .free] (.cycleStart)) ∧
  -- fr_sample
  (∀ a0 a1 a2, Touches [.ch, .free] (.sample a0 a1 a2)) ∧
  -- fr_update
  (∀ a0, Touches [.ch] (.update a0)) ∧
  -- fr_count
  (∀ a0, Touches [.ch] (.count a0)) ∧
  -- fr_measure
  (∀ a0, Touches [.ms] (.measure a0)) ∧
  -- fr_tfLaunch
  (∀ a0, Touches [.cyc, .hg, .tf] (.tfLaunch a0)) ∧
  -- fr_tfSnap
  (∀ a0 a1, Touches [.pwr, .tf] (.tfSnap a0 a1)) ∧
  -- fr_tfRead
  (∀ a0, Touches [.cyc, .hg, .tf] (.tfRead a0)) ∧
  -- fr_vnStart
  (∀ a0, Touches [.vn] (.vnStart a0)) ∧
  -- fr_vnCommit
  (∀ a0, Touches [.vn] (.vnCommit a0)) ∧
  -- fr_vnRead
  (∀ a0, Touches [.vn] (.vnRead a0)) ∧
  -- fr_pwrOn
  (∀ a0, Touches [] (.pwrOn a0)) ∧
  -- fr_pwrOff
  (∀ a0, Touches [] (.pwrOff a0)) ∧
  -- fr_pwrLow
  (∀ a0, Touches [] (.pwrLow a0)) ∧
  -- fr_dma
  (∀ a0, Touches [.node, .tf, .vn, .eq, .pool, .ch, .bn, .cr, .rg, .free] (.dma a0)) ∧
  -- fr_chkpCopy
  (∀ a0, Touches [.node, .vn, .eq, .pool, .ch, .bn, .cr, .rg, .free] (.chkpCopy a0)) ∧
  -- fr_task
  (∀ a0, Touches [.cr] (.task a0)) ∧
  -- fr_benchSlot
  (∀ a0, Touches [.bn] (.benchSlot a0)) ∧
  -- fr_benchRequestEnd
  (∀ a0 a1 a2, Touches [.bn, .cr] (.benchRequestEnd a0 a1 a2)) ∧
  -- fr_correctionInterval
  (Touches [.cyc] (.correctionInterval)) ∧
  -- fr_limpApply
  (Touches [.node, .pwr, .cyc, .hg, .tf, .vn, .eq, .pool, .sh, .ch, .ms, .bn, .cr, .gr, .store, .rg, .free] (.limpApply))

/-- Backbone, inauguration, train frame and message events change at most their parts of the state. For each command
named: Each clause: if exec answers a next state, at most the named parts of the state have changed, beside those any
command may change (the instant in the cycle, the outputs, and what the NV controller changes when it takes its next
work: its own registers, the banks that show its command, the verifier's domain). The logs and the record of events
are outside every frame. Parts are those of Part in Safety. Rests on R117, R119, R120, R130, R150, R193, R211. -/
def Obligations.BackboneCommandFrames : Prop :=
  -- fr_linkUp
  (∀ a0 a1 a2, Touches [.hg, .tf] (.linkUp a0 a1 a2)) ∧
  -- fr_linkDown
  (∀ a0 a1, Touches [.hg, .tf, .eq, .pool, .sh] (.linkDown a0 a1)) ∧
  -- fr_linkDownWaitEnd
  (∀ a0 a1, Touches [.hg, .tf] (.linkDownWaitEnd a0 a1)) ∧
  -- fr_lineDown2s
  (∀ a0 a1, Touches [] (.lineDown2s a0 a1)) ∧
  -- fr_step
  (∀ a0 a1 a2 a3, Touches [.hg, .tf] (.step a0 a1 a2 a3)) ∧
  -- fr_stepAck
  (∀ a0 a1 a2 a3 a4, Touches [.hg] (.stepAck a0 a1 a2 a3 a4)) ∧
  -- fr_stepLinkDrop
  (∀ a0 a1, Touches [.hg, .tf, .eq, .pool, .sh] (.stepLinkDrop a0 a1)) ∧
  -- fr_stepComplete
  (∀ a0 a1, Touches [.hg, .tf] (.stepComplete a0 a1)) ∧
  -- fr_stepTimeout
  (∀ a0 a1, Touches [.hg] (.stepTimeout a0 a1)) ∧
  -- fr_stepRetry
  (∀ a0 a1, Touches [.hg, .tf] (.stepRetry a0 a1)) ∧
  -- fr_relayBDrive
  (∀ a0, Touches [.pwr] (.relayBDrive a0)) ∧
  -- fr_openSideStart
  (∀ a0 a1, Touches [.hg, .tf] (.openSideStart a0 a1)) ∧
  -- fr_bringupLinkWait
  (∀ a0, Touches [.hg, .tf] (.bringupLinkWait a0)) ∧
  -- fr_start
  (∀ a0 a1 a2 a3, Touches [.hg, .tf] (.start a0 a1 a2 a3)) ∧
  -- fr_probe
  (∀ a0 a1 a2 a3 a4 a5 a6 a7, Touches [.hg, .tf] (.probe a0 a1 a2 a3 a4 a5 a6 a7)) ∧
  -- fr_probeRsp
  (∀ a0 a1 a2 a3 a4 a5 a6 a7 a8 a9, Touches [.pwr, .hg, .tf] (.probeRsp a0 a1 a2 a3 a4 a5 a6 a7 a8 a9)) ∧
  -- fr_probeInterval
  (∀ a0, Touches [.hg, .tf] (.probeInterval a0)) ∧
  -- fr_probingEnd
  (∀ a0 a1, Touches [.hg, .tf, .eq, .pool, .rg] (.probingEnd a0 a1)) ∧
  -- fr_discover
  (∀ a0 a1 a2 a3 a4 a5, Touches [.hg, .tf] (.discover a0 a1 a2 a3 a4 a5)) ∧
  -- fr_ttr
  (∀ a0 a1 a2 a3 a4, Touches [.cyc, .hg, .tf] (.ttr a0 a1 a2 a3 a4)) ∧
  -- fr_admitReq
  (∀ a0 a1 a2 a3, Touches [.hg, .tf] (.admitReq a0 a1 a2 a3)) ∧
  -- fr_admitRef
  (∀ a0 a1 a2 a3 a4, Touches [.pwr, .hg, .tf] (.admitRef a0 a1 a2 a3 a4)) ∧
  -- fr_originAmendment
  (∀ a0, Touches [.hg, .tf] (.originAmendment a0)) ∧
  -- fr_admitResend
  (∀ a0 a1, Touches [.pwr, .hg, .tf] (.admitResend a0 a1)) ∧
  -- fr_admitReprobe
  (∀ a0, Touches [.pwr, .hg] (.admitReprobe a0)) ∧
  -- fr_inaugAttemptTimeout
  (∀ a0 a1, Touches [.hg, .tf] (.inaugAttemptTimeout a0 a1)) ∧
  -- fr_failedRetry
  (∀ a0, Touches [.hg, .tf] (.failedRetry a0)) ∧
  -- fr_switchInstant
  (Touches [.node, .pwr, .cyc, .hg, .tf, .vn, .eq, .pool, .sh, .ch, .ms, .bn, .cr, .gr, .store, .rg, .free] (.switchInstant)) ∧
  -- fr_tfOutbound
  (∀ a0 a1 a2 a3, Touches [.cyc, .tf] (.tfOutbound a0 a1 a2 a3)) ∧
  -- fr_tfCandidate
  (∀ a0 a1 a2 a3 a4, Touches [.cyc, .hg, .tf] (.tfCandidate a0 a1 a2 a3 a4)) ∧
  -- fr_messageWindowStart
  (Touches [.hg, .tf] (.messageWindowStart)) ∧
  -- fr_msgFrameRx
  (∀ a0 a1 a2, Touches [.hg, .tf, .vn, .eq, .pool, .sh, .rg] (.msgFrameRx a0 a1 a2)) ∧
  -- fr_msgTxDone
  (∀ a0 a1, Touches [.hg, .tf, .eq, .pool, .sh] (.msgTxDone a0 a1))

/-- Vehicle network events change at most their parts of the state. For each command named: Each clause: if exec answers a
next state, at most the named parts of the state have changed, beside those any command may change (the instant in the
cycle, the outputs, and what the NV controller changes when it takes its next work: its own registers, the banks that
show its command, the verifier's domain). The logs and the record of events are outside every frame. Parts are those
of Part in Safety. Rests on R220, R231, R240, R243. -/
def Obligations.VehicleCommandFrames : Prop :=
  -- fr_vnFrameRx
  (∀ a0 a1 a2 a3, Touches [.hg, .tf, .vn, .eq, .pool, .sh] (.vnFrameRx a0 a1 a2 a3)) ∧
  -- fr_guardianCutPoint
  (∀ a0 a1, Touches [.vn] (.guardianCutPoint a0 a1)) ∧
  -- fr_branchBurst
  (∀ a0 a1, Touches [.vn] (.branchBurst a0 a1)) ∧
  -- fr_vnSlotTx
  (∀ a0 a1, Touches [.vn] (.vnSlotTx a0 a1)) ∧
  -- fr_dynBoundary
  (Touches [.vn, .eq, .pool] (.dynBoundary)) ∧
  -- fr_branchLinkUp
  (∀ a0 a1, Touches [.vn] (.branchLinkUp a0 a1)) ∧
  -- fr_branchLinkDown
  (∀ a0 a1, Touches [.vn] (.branchLinkDown a0 a1))

/-- Equipment port events and host pool operations change at most their parts of the state. For each command named: Each
clause: if exec answers a next state, at most the named parts of the state have changed, beside those any command may
change (the instant in the cycle, the outputs, and what the NV controller changes when it takes its next work: its own
registers, the banks that show its command, the verifier's domain). The logs and the record of events are outside
every frame. Parts are those of Part in Safety. Rests on R257, R262, R274, R281, R471. -/
def Obligations.EquipmentCommandFrames : Prop :=
  -- fr_eqLinkUp
  (∀ a0 a1 a2, Touches [.eq] (.eqLinkUp a0 a1 a2)) ∧
  -- fr_eqLinkDown
  (∀ a0 a1, Touches [.eq, .pool, .rg] (.eqLinkDown a0 a1)) ∧
  -- fr_eqAutonegFail
  (∀ a0 a1, Touches [] (.eqAutonegFail a0 a1)) ∧
  -- fr_eqFrameRx
  (∀ a0 a1 a2 a3, Touches [.hg, .tf, .eq, .pool, .sh, .rg] (.eqFrameRx a0 a1 a2 a3)) ∧
  -- fr_eqTxDone
  (∀ a0 a1, Touches [.eq, .pool] (.eqTxDone a0 a1)) ∧
  -- fr_pauseTimerExpiry
  (∀ a0 a1 a2, Touches [.eq] (.pauseTimerExpiry a0 a1 a2)) ∧
  -- fr_pfcRefresh
  (∀ a0 a1, Touches [.eq] (.pfcRefresh a0 a1)) ∧
  -- fr_txtsPop
  (∀ a0 a1, Touches [.eq] (.txtsPop a0 a1)) ∧
  -- fr_hostAlloc
  (∀ a0 a1, Touches [.eq, .pool] (.hostAlloc a0 a1)) ∧
  -- fr_hostFree
  (∀ a0 a1, Touches [.eq, .pool] (.hostFree a0 a1)) ∧
  -- fr_hostPost
  (∀ a0 a1 a2 a3, Touches [.eq, .pool] (.hostPost a0 a1 a2 a3)) ∧
  -- fr_hostTake
  (∀ a0 a1, Touches [.eq, .pool] (.hostTake a0 a1)) ∧
  -- fr_hostOpInvalid
  (∀ a0 a1, Touches [.eq, .pool] (.hostOpInvalid a0 a1))

/-- Field, supply and temperature events change at most their parts of the state. For each command named: Each clause: if
exec answers a next state, at most the named parts of the state have changed, beside those any command may change (the
instant in the cycle, the outputs, and what the NV controller changes when it takes its next work: its own registers,
the banks that show its command, the verifier's domain). The logs and the record of events are outside every frame.
Parts are those of Part in Safety. Rests on R318, R324, R336, R350, R355, R357. -/
def Obligations.FieldCommandFrames : Prop :=
  -- fr_inputThresholdCrossing
  (∀ a0 a1 a2, Touches [.ch] (.inputThresholdCrossing a0 a1 a2)) ∧
  -- fr_dipsSinkOn
  (∀ a0 a1, Touches [.ch] (.dipsSinkOn a0 a1)) ∧
  -- fr_dipsSinkOff
  (∀ a0 a1, Touches [.ch] (.dipsSinkOff a0 a1)) ∧
  -- fr_currentLimit
  (∀ a0 a1, Touches [.ch] (.currentLimit a0 a1)) ∧
  -- fr_currentLimitEnd
  (∀ a0 a1, Touches [.ch] (.currentLimitEnd a0 a1)) ∧
  -- fr_thermalCutoff
  (∀ a0 a1, Touches [.ch] (.thermalCutoff a0 a1)) ∧
  -- fr_thermalRelease
  (∀ a0 a1, Touches [.ch] (.thermalRelease a0 a1)) ∧
  -- fr_openLoadDetect
  (∀ a0 a1, Touches [.ch] (.openLoadDetect a0 a1)) ∧
  -- fr_openLoadClear
  (∀ a0 a1, Touches [.ch] (.openLoadClear a0 a1)) ∧
  -- fr_couplerLoss
  (∀ a0 a1, Touches [.ch] (.couplerLoss a0 a1)) ∧
  -- fr_couplerRestore
  (∀ a0 a1, Touches [.ch] (.couplerRestore a0 a1)) ∧
  -- fr_groupSupplyLow
  (∀ a0 a1, Touches [.ch] (.groupSupplyLow a0 a1)) ∧
  -- fr_groupSupplyRestore
  (∀ a0 a1, Touches [.ch] (.groupSupplyRestore a0 a1)) ∧
  -- fr_forceTimeout
  (∀ a0 a1, Touches [.ch] (.forceTimeout a0 a1)) ∧
  -- fr_supplySample
  (∀ a0 a1 a2 a3, Touches [.ms] (.supplySample a0 a1 a2 a3)) ∧
  -- fr_overvoltage1s
  (∀ a0, Touches [.ms] (.overvoltage1s a0)) ∧
  -- fr_unAutoSelect
  (∀ a0, Touches [.ms] (.unAutoSelect a0)) ∧
  -- fr_auxSample
  (∀ a0 a1 a2, Touches [.ch, .ms] (.auxSample a0 a1 a2)) ∧
  -- fr_tempLevelChange
  (∀ a0 a1 a2, Touches [.ms] (.tempLevelChange a0 a1 a2)) ∧
  -- fr_tempSensorStuck
  (∀ a0 a1 a2, Touches [.ms] (.tempSensorStuck a0 a1 a2)) ∧
  -- fr_tempSensorPlausible
  (∀ a0 a1, Touches [.ms] (.tempSensorPlausible a0 a1))

/-- Core redundancy, image and NV events change at most their parts of the state. For each command named: Each clause: if
exec answers a next state, at most the named parts of the state have changed, beside those any command may change (the
instant in the cycle, the outputs, and what the NV controller changes when it takes its next work: its own registers,
the banks that show its command, the verifier's domain). The logs and the record of events are outside every frame.
Parts are those of Part in Safety. Rests on R93, R427, R431, R436, R407, R412, R8. -/
def Obligations.CoreCommandFrames : Prop :=
  -- fr_budgetWatchdog
  (Touches [.node, .vn, .eq, .pool, .ch, .bn, .cr, .rg, .free] (.budgetWatchdog)) ∧
  -- fr_coreCheckFail
  (∀ a0 a1, Touches [.node, .vn, .eq, .pool, .ch, .bn, .cr, .rg, .free] (.coreCheckFail a0 a1)) ∧
  -- fr_takeoverStepDone
  (∀ a0 a1 a2, Touches [.node, .vn, .eq, .pool, .ch, .cr, .rg, .free] (.takeoverStepDone a0 a1 a2)) ∧
  -- fr_rxcLoadDone
  (∀ a0, Touches [.cr] (.rxcLoadDone a0)) ∧
  -- fr_shadowTestDone
  (∀ a0 a1, Touches [.cr] (.shadowTestDone a0 a1)) ∧
  -- fr_healthReport
  (∀ a0, Touches [] (.healthReport a0)) ∧
  -- fr_repairRetry
  (∀ a0, Touches [.bn, .cr] (.repairRetry a0)) ∧
  -- fr_revertHoldoffEnd
  (∀ a0, Touches [.cr] (.revertHoldoffEnd a0)) ∧
  -- fr_revertLoadDone
  (∀ a0, Touches [.cr] (.revertLoadDone a0)) ∧
  -- fr_imageVerified
  (∀ a0, Touches [] (.imageVerified a0)) ∧
  -- fr_imageLoaded
  (∀ a0, Touches [.ch, .cr] (.imageLoaded a0)) ∧
  -- fr_nvOpDone
  (∀ a0 a1, Touches [.pwr, .hg, .tf, .eq, .pool, .store, .rg, .free] (.nvOpDone a0 a1)) ∧
  -- fr_slowWriteLand
  (∀ a0, Touches [.node, .pwr] (.slowWriteLand a0))

/-- Register accesses, drawers, host commands and in-band access change at most their parts of the state. For each command
named: Each clause: if exec answers a next state, at most the named parts of the state have changed, beside those any
command may change (the instant in the cycle, the outputs, and what the NV controller changes when it takes its next
work: its own registers, the banks that show its command, the verifier's domain). The logs and the record of events
are outside every frame. Parts are those of Part in Safety. Rests on R447, R457, R469, R463, R519. -/
def Obligations.RegisterCommandFrames : Prop :=
  -- fr_registerWrite
  (∀ a0 a1 a2 a3, Touches [.pwr, .eq, .pool, .ch, .rg] (.registerWrite a0 a1 a2 a3)) ∧
  -- fr_rcRead
  (∀ a0 a1 a2, Touches [.pwr, .eq, .pool, .ch, .rg] (.rcRead a0 a1 a2)) ∧
  -- fr_hpAbort
  (∀ a0 a1 a2 a3 a4, Touches [.pwr, .eq, .pool, .ch, .rg] (.hpAbort a0 a1 a2 a3 a4)) ∧
  -- fr_cfgDisarm
  (∀ a0, Touches [.eq, .pool, .rg] (.cfgDisarm a0)) ∧
  -- fr_drawerSelect
  (∀ a0 a1 a2, Touches [.rg] (.drawerSelect a0 a1 a2)) ∧
  -- fr_drawerCursor
  (∀ a0 a1 a2, Touches [.rg] (.drawerCursor a0 a1 a2)) ∧
  -- fr_drawerNext
  (∀ a0 a1, Touches [.rg] (.drawerNext a0 a1)) ∧
  -- fr_drawerPrev
  (∀ a0 a1, Touches [.rg] (.drawerPrev a0 a1)) ∧
  -- fr_drawerLoadDone
  (∀ a0 a1, Touches [.rg] (.drawerLoadDone a0 a1)) ∧
  -- fr_commandAccept
  (∀ a0 a1, Touches [] (.commandAccept a0 a1)) ∧
  -- fr_inaug
  (∀ a0 a1 a2 a3 a4 a5, Touches [] (.inaug a0 a1 a2 a3 a4 a5)) ∧
  -- fr_nodeReset
  (∀ a0 a1 a2 a3 a4 a5, Touches [] (.nodeReset a0 a1 a2 a3 a4 a5)) ∧
  -- fr_sleepReq
  (∀ a0 a1 a2 a3 a4 a5, Touches [] (.sleepReq a0 a1 a2 a3 a4 a5)) ∧
  -- fr_wakeReq
  (∀ a0 a1 a2 a3 a4 a5, Touches [] (.wakeReq a0 a1 a2 a3 a4 a5)) ∧
  -- fr_shutterSet
  (∀ a0 a1 a2 a3 a4 a5, Touches [] (.shutterSet a0 a1 a2 a3 a4 a5)) ∧
  -- fr_chForce
  (∀ a0 a1 a2 a3 a4 a5, Touches [] (.chForce a0 a1 a2 a3 a4 a5)) ∧
  -- fr_chForceRelease
  (∀ a0 a1 a2 a3 a4 a5, Touches [] (.chForceRelease a0 a1 a2 a3 a4 a5)) ∧
  -- fr_orderRelease
  (∀ a0 a1 a2 a3 a4 a5, Touches [] (.orderRelease a0 a1 a2 a3 a4 a5)) ∧
  -- fr_benchRun
  (∀ a0 a1 a2 a3 a4 a5, Touches [] (.benchRun a0 a1 a2 a3 a4 a5)) ∧
  -- fr_chkpSave
  (∀ a0 a1 a2 a3 a4 a5, Touches [] (.chkpSave a0 a1 a2 a3 a4 a5)) ∧
  -- fr_jrnMark
  (∀ a0 a1 a2 a3 a4 a5, Touches [] (.jrnMark a0 a1 a2 a3 a4 a5)) ∧
  -- fr_logClearArm
  (∀ a0 a1 a2 a3 a4, Touches [] (.logClearArm a0 a1 a2 a3 a4)) ∧
  -- fr_logClearOpl
  (∀ a0 a1 a2 a3, Touches [] (.logClearOpl a0 a1 a2 a3)) ∧
  -- fr_logClearInc
  (∀ a0 a1 a2 a3, Touches [] (.logClearInc a0 a1 a2 a3)) ∧
  -- fr_logClearDisarm
  (Touches [] (.logClearDisarm)) ∧
  -- fr_imgStage
  (∀ a0 a1 a2 a3 a4 a5, Touches [] (.imgStage a0 a1 a2 a3 a4 a5)) ∧
  -- fr_nvProgram
  (∀ a0 a1 a2 a3 a4 a5, Touches [] (.nvProgram a0 a1 a2 a3 a4 a5)) ∧
  -- fr_nvErase
  (∀ a0 a1 a2 a3 a4 a5, Touches [] (.nvErase a0 a1 a2 a3 a4 a5)) ∧
  -- fr_imgCommit
  (∀ a0 a1 a2 a3 a4 a5, Touches [] (.imgCommit a0 a1 a2 a3 a4 a5)) ∧
  -- fr_nvRefresh
  (∀ a0 a1 a2 a3 a4 a5, Touches [] (.nvRefresh a0 a1 a2 a3 a4 a5)) ∧
  -- fr_keyAdd
  (∀ a0 a1 a2 a3 a4 a5, Touches [] (.keyAdd a0 a1 a2 a3 a4 a5)) ∧
  -- fr_keyRevoke
  (∀ a0 a1 a2 a3 a4 a5, Touches [] (.keyRevoke a0 a1 a2 a3 a4 a5)) ∧
  -- fr_openReq
  (∀ a0 a1 a2 a3, Touches [.hg, .tf, .eq, .pool, .rg] (.openReq a0 a1 a2 a3)) ∧
  -- fr_openPdu
  (∀ a0 a1 a2 a3, Touches [.hg, .tf, .eq, .pool, .rg] (.openPdu a0 a1 a2 a3)) ∧
  -- fr_requestPdu
  (∀ a0 a1 a2 a3, Touches [.hg, .tf, .eq, .pool, .rg] (.requestPdu a0 a1 a2 a3)) ∧
  -- fr_closePdu
  (∀ a0 a1 a2 a3, Touches [.hg, .tf, .eq, .pool, .rg] (.closePdu a0 a1 a2 a3)) ∧
  -- fr_inbandPduVerified
  (∀ a0, Touches [.pwr, .hg, .tf, .eq, .pool, .ch, .rg] (.inbandPduVerified a0)) ∧
  -- fr_inbandOpenTimeout
  (∀ a0 a1, Touches [.rg] (.inbandOpenTimeout a0 a1)) ∧
  -- fr_inbandIdleTimeout
  (∀ a0 a1, Touches [.hg, .tf, .eq, .pool, .rg] (.inbandIdleTimeout a0 a1))

/-- ALU instructions change nothing but the core in control, unless it yields. For each ALU instruction: Each clause has
two parts. RunsOn: if exec answers a next state with the same core in control, at most that core, the named parts and
what any command may change have changed; the other core and the rest of the cores' part (yield register, copies,
takeover, repair, revert) are as before. Touches: in every case, a yield included, at most the named parts have
changed. The logs and the record of events are outside every frame. Rests on R370, R376, R378, R427. -/
def Obligations.ArithmeticInstructionFrames : Prop :=
  -- run_add
  (∀ a0 a1 a2, RunsOn [] (.add a0 a1 a2) ∧ Touches [.node, .vn, .eq, .pool, .ch, .bn, .cr, .rg, .free] (.add a0 a1 a2)) ∧
  -- run_sub
  (∀ a0 a1 a2, RunsOn [] (.sub a0 a1 a2) ∧ Touches [.node, .vn, .eq, .pool, .ch, .bn, .cr, .rg, .free] (.sub a0 a1 a2)) ∧
  -- run_and
  (∀ a0 a1 a2, RunsOn [] (.and a0 a1 a2) ∧ Touches [.node, .vn, .eq, .pool, .ch, .bn, .cr, .rg, .free] (.and a0 a1 a2)) ∧
  -- run_or
  (∀ a0 a1 a2, RunsOn [] (.or a0 a1 a2) ∧ Touches [.node, .vn, .eq, .pool, .ch, .bn, .cr, .rg, .free] (.or a0 a1 a2)) ∧
  -- run_xor
  (∀ a0 a1 a2, RunsOn [] (.xor a0 a1 a2) ∧ Touches [.node, .vn, .eq, .pool, .ch, .bn, .cr, .rg, .free] (.xor a0 a1 a2)) ∧
  -- run_nor
  (∀ a0 a1 a2, RunsOn [] (.nor a0 a1 a2) ∧ Touches [.node, .vn, .eq, .pool, .ch, .bn, .cr, .rg, .free] (.nor a0 a1 a2)) ∧
  -- run_shl
  (∀ a0 a1 a2, RunsOn [] (.shl a0 a1 a2) ∧ Touches [.node, .vn, .eq, .pool, .ch, .bn, .cr, .rg, .free] (.shl a0 a1 a2)) ∧
  -- run_shr
  (∀ a0 a1 a2, RunsOn [] (.shr a0 a1 a2) ∧ Touches [.node, .vn, .eq, .pool, .ch, .bn, .cr, .rg, .free] (.shr a0 a1 a2)) ∧
  -- run_sar
  (∀ a0 a1 a2, RunsOn [] (.sar a0 a1 a2) ∧ Touches [.node, .vn, .eq, .pool, .ch, .bn, .cr, .rg, .free] (.sar a0 a1 a2)) ∧
  -- run_mul
  (∀ a0 a1 a2, RunsOn [] (.mul a0 a1 a2) ∧ Touches [.node, .vn, .eq, .pool, .ch, .bn, .cr, .rg, .free] (.mul a0 a1 a2)) ∧
  -- run_mulh
  (∀ a0 a1 a2, RunsOn [] (.mulh a0 a1 a2) ∧ Touches [.node, .vn, .eq, .pool, .ch, .bn, .cr, .rg, .free] (.mulh a0 a1 a2)) ∧
  -- run_divu
  (∀ a0 a1 a2, RunsOn [] (.divu a0 a1 a2) ∧ Touches [.node, .vn, .eq, .pool, .ch, .bn, .cr, .rg, .free] (.divu a0 a1 a2)) ∧
  -- run_remu
  (∀ a0 a1 a2, RunsOn [] (.remu a0 a1 a2) ∧ Touches [.node, .vn, .eq, .pool, .ch, .bn, .cr, .rg, .free] (.remu a0 a1 a2)) ∧
  -- run_cmp
  (∀ a0 a1 a2, RunsOn [] (.cmp a0 a1 a2) ∧ Touches [.node, .vn, .eq, .pool, .ch, .bn, .cr, .rg, .free] (.cmp a0 a1 a2)) ∧
  -- run_cmpu
  (∀ a0 a1 a2, RunsOn [] (.cmpu a0 a1 a2) ∧ Touches [.node, .vn, .eq, .pool, .ch, .bn, .cr, .rg, .free] (.cmpu a0 a1 a2)) ∧
  -- run_min
  (∀ a0 a1 a2, RunsOn [] (.min a0 a1 a2) ∧ Touches [.node, .vn, .eq, .pool, .ch, .bn, .cr, .rg, .free] (.min a0 a1 a2)) ∧
  -- run_max
  (∀ a0 a1 a2, RunsOn [] (.max a0 a1 a2) ∧ Touches [.node, .vn, .eq, .pool, .ch, .bn, .cr, .rg, .free] (.max a0 a1 a2)) ∧
  -- run_addi
  (∀ a0 a1 a2, RunsOn [] (.addi a0 a1 a2) ∧ Touches [.node, .vn, .eq, .pool, .ch, .bn, .cr, .rg, .free] (.addi a0 a1 a2)) ∧
  -- run_andi
  (∀ a0 a1 a2, RunsOn [] (.andi a0 a1 a2) ∧ Touches [.node, .vn, .eq, .pool, .ch, .bn, .cr, .rg, .free] (.andi a0 a1 a2)) ∧
  -- run_ori
  (∀ a0 a1 a2, RunsOn [] (.ori a0 a1 a2) ∧ Touches [.node, .vn, .eq, .pool, .ch, .bn, .cr, .rg, .free] (.ori a0 a1 a2)) ∧
  -- run_xori
  (∀ a0 a1 a2, RunsOn [] (.xori a0 a1 a2) ∧ Touches [.node, .vn, .eq, .pool, .ch, .bn, .cr, .rg, .free] (.xori a0 a1 a2)) ∧
  -- run_cmpi
  (∀ a0 a1 a2, RunsOn [] (.cmpi a0 a1 a2) ∧ Touches [.node, .vn, .eq, .pool, .ch, .bn, .cr, .rg, .free] (.cmpi a0 a1 a2)) ∧
  -- run_ldhi
  (∀ a0 a1, RunsOn [] (.ldhi a0 a1) ∧ Touches [.node, .vn, .eq, .pool, .ch, .bn, .cr, .rg, .free] (.ldhi a0 a1)) ∧
  -- run_shfi
  (∀ a0 a1 a2 a3, RunsOn [] (.shfi a0 a1 a2 a3) ∧ Touches [.node, .vn, .eq, .pool, .ch, .bn, .cr, .rg, .free] (.shfi a0 a1 a2 a3))

/-- Memory, control and assertion instructions change nothing but the core in control, unless it yields. For each load,
store, control transfer, assertion, NOP, HALT and WAITG: Each clause has two parts. RunsOn: if exec answers a next
state with the same core in control, at most that core, the named parts and what any command may change have changed;
the other core and the rest of the cores' part (yield register, copies, takeover, repair, revert) are as before.
Touches: in every case, a yield included, at most the named parts have changed. The logs and the record of events are
outside every frame. Rests on R370, R379, R381, R389, R427. -/
def Obligations.MemoryAndControlInstructionFrames : Prop :=
  -- run_ldw
  (∀ a0 a1 a2, RunsOn [] (.ldw a0 a1 a2) ∧ Touches [.node, .vn, .eq, .pool, .ch, .bn, .cr, .rg, .free] (.ldw a0 a1 a2)) ∧
  -- run_ldh
  (∀ a0 a1 a2, RunsOn [] (.ldh a0 a1 a2) ∧ Touches [.node, .vn, .eq, .pool, .ch, .bn, .cr, .rg, .free] (.ldh a0 a1 a2)) ∧
  -- run_ldb
  (∀ a0 a1 a2, RunsOn [] (.ldb a0 a1 a2) ∧ Touches [.node, .vn, .eq, .pool, .ch, .bn, .cr, .rg, .free] (.ldb a0 a1 a2)) ∧
  -- run_stw
  (∀ a0 a1 a2, RunsOn [] (.stw a0 a1 a2) ∧ Touches [.node, .vn, .eq, .pool, .ch, .bn, .cr, .rg, .free] (.stw a0 a1 a2)) ∧
  -- run_sth
  (∀ a0 a1 a2, RunsOn [] (.sth a0 a1 a2) ∧ Touches [.node, .vn, .eq, .pool, .ch, .bn, .cr, .rg, .free] (.sth a0 a1 a2)) ∧
  -- run_stb
  (∀ a0 a1 a2, RunsOn [] (.stb a0 a1 a2) ∧ Touches [.node, .vn, .eq, .pool, .ch, .bn, .cr, .rg, .free] (.stb a0 a1 a2)) ∧
  -- run_br
  (∀ a0 a1, RunsOn [] (.br a0 a1) ∧ Touches [.node, .vn, .eq, .pool, .ch, .bn, .cr, .rg, .free] (.br a0 a1)) ∧
  -- run_loop
  (∀ a0 a1 a2 a3, RunsOn [] (.loop a0 a1 a2 a3) ∧ Touches [.node, .vn, .eq, .pool, .ch, .bn, .cr, .rg, .free] (.loop a0 a1 a2 a3)) ∧
  -- run_call
  (∀ a0, RunsOn [] (.call a0) ∧ Touches [.node, .vn, .eq, .pool, .ch, .bn, .cr, .rg, .free] (.call a0)) ∧
  -- run_ret
  (RunsOn [] (.ret) ∧ Touches [.node, .vn, .eq, .pool, .ch, .bn, .cr, .rg, .free] (.ret)) ∧
  -- run_halt
  (RunsOn [] (.halt) ∧ Touches [.node, .vn, .eq, .pool, .ch, .bn, .cr, .rg, .free] (.halt)) ∧
  -- run_nop
  (RunsOn [] (.nop) ∧ Touches [.node, .vn, .eq, .pool, .ch, .bn, .cr, .rg, .free] (.nop)) ∧
  -- run_illegalInstruction
  (RunsOn [] (.illegalInstruction) ∧ Touches [.node, .vn, .eq, .pool, .ch, .bn, .cr, .rg, .free] (.illegalInstruction)) ∧
  -- run_asrtX
  (∀ a0, RunsOn [] (.asrtX a0) ∧ Touches [.node, .vn, .eq, .pool, .ch, .bn, .cr, .rg, .free] (.asrtX a0)) ∧
  -- run_asrtC
  (∀ a0, RunsOn [] (.asrtC a0) ∧ Touches [.node, .vn, .eq, .pool, .ch, .bn, .cr, .rg, .free] (.asrtC a0)) ∧
  -- run_asrtZ
  (∀ a0 a1, RunsOn [] (.asrtZ a0 a1) ∧ Touches [.node, .vn, .eq, .pool, .ch, .bn, .cr, .rg, .free] (.asrtZ a0 a1)) ∧
  -- run_waitg
  (∀ a0, RunsOn [] (.waitg a0) ∧ Touches [.node, .vn, .eq, .pool, .ch, .bn, .cr, .rg, .free] (.waitg a0))

/-- Service instructions change nothing but the core in control and the part they serve, unless the core yields. For each
field, network, buffer and system instruction: Each clause has two parts. RunsOn: if exec answers a next state with
the same core in control, at most that core, the named parts and what any command may change have changed; the other
core and the rest of the cores' part (yield register, copies, takeover, repair, revert) are as before. Touches: in
every case, a yield included, at most the named parts have changed. The logs and the record of events are outside
every frame. Rests on R375, R383, R385, R388, R389, R391, R427. -/
def Obligations.ServiceInstructionFrames : Prop :=
  -- run_samp
  (∀ a0 a1 a2, RunsOn [] (.samp a0 a1 a2) ∧ Touches [.node, .vn, .eq, .pool, .ch, .bn, .cr, .rg, .free] (.samp a0 a1 a2)) ∧
  -- run_drv
  (∀ a0 a1 a2, RunsOn [.ch] (.drv a0 a1 a2) ∧ Touches [.node, .vn, .eq, .pool, .ch, .bn, .cr, .rg, .free] (.drv a0 a1 a2)) ∧
  -- run_cntr
  (∀ a0 a1 a2, RunsOn [] (.cntr a0 a1 a2) ∧ Touches [.node, .vn, .eq, .pool, .ch, .bn, .cr, .rg, .free] (.cntr a0 a1 a2)) ∧
  -- run_meas
  (∀ a0 a1 a2 a3, RunsOn [] (.meas a0 a1 a2 a3) ∧ Touches [.node, .vn, .eq, .pool, .ch, .bn, .cr, .rg, .free] (.meas a0 a1 a2 a3)) ∧
  -- run_tww
  (∀ a0 a1 a2 a3, RunsOn [.tf] (.tww a0 a1 a2 a3) ∧ Touches [.node, .vn, .eq, .pool, .ch, .bn, .cr, .rg, .free, .tf] (.tww a0 a1 a2 a3)) ∧
  -- run_tnul
  (RunsOn [.tf] (.tnul) ∧ Touches [.node, .vn, .eq, .pool, .ch, .bn, .cr, .rg, .free, .tf] (.tnul)) ∧
  -- run_twrWindowWord
  (∀ a0 a1 a2, RunsOn [] (.twrWindowWord a0 a1 a2) ∧ Touches [.node, .vn, .eq, .pool, .ch, .bn, .cr, .rg, .free] (.twrWindowWord a0 a1 a2)) ∧
  -- run_twrWindowHeader
  (∀ a0 a1, RunsOn [] (.twrWindowHeader a0 a1) ∧ Touches [.node, .vn, .eq, .pool, .ch, .bn, .cr, .rg, .free] (.twrWindowHeader a0 a1)) ∧
  -- run_twrFrameHeader
  (∀ a0 a1, RunsOn [] (.twrFrameHeader a0 a1) ∧ Touches [.node, .vn, .eq, .pool, .ch, .bn, .cr, .rg, .free] (.twrFrameHeader a0 a1)) ∧
  -- run_vsndWord
  (∀ a0 a1 a2, RunsOn [.vn] (.vsndWord a0 a1 a2) ∧ Touches [.node, .vn, .eq, .pool, .ch, .bn, .cr, .rg, .free] (.vsndWord a0 a1 a2)) ∧
  -- run_vsndComplete
  (∀ a0 a1 a2, RunsOn [.vn] (.vsndComplete a0 a1 a2) ∧ Touches [.node, .vn, .eq, .pool, .ch, .bn, .cr, .rg, .free] (.vsndComplete a0 a1 a2)) ∧
  -- run_vsndDynamic
  (∀ a0 a1, RunsOn [.vn, .pool] (.vsndDynamic a0 a1) ∧ Touches [.node, .vn, .eq, .pool, .ch, .bn, .cr, .rg, .free] (.vsndDynamic a0 a1)) ∧
  -- run_vrcvWord
  (∀ a0 a1 a2, RunsOn [.free] (.vrcvWord a0 a1 a2) ∧ Touches [.node, .vn, .eq, .pool, .ch, .bn, .cr, .rg, .free] (.vrcvWord a0 a1 a2)) ∧
  -- run_vrcvStatus
  (∀ a0 a1, RunsOn [] (.vrcvStatus a0 a1) ∧ Touches [.node, .vn, .eq, .pool, .ch, .bn, .cr, .rg, .free] (.vrcvStatus a0 a1)) ∧
  -- run_vrcvDynamic
  (∀ a0, RunsOn [.vn, .pool] (.vrcvDynamic a0) ∧ Touches [.node, .vn, .eq, .pool, .ch, .bn, .cr, .rg, .free] (.vrcvDynamic a0)) ∧
  -- run_mpostSend
  (∀ a0 a1 a2, RunsOn [.hg, .tf, .pool] (.mpostSend a0 a1 a2) ∧ Touches [.node, .vn, .eq, .pool, .ch, .bn, .cr, .rg, .free, .hg, .tf] (.mpostSend a0 a1 a2)) ∧
  -- run_mpostTake
  (∀ a0, RunsOn [.tf, .pool] (.mpostTake a0) ∧ Touches [.node, .vn, .eq, .pool, .ch, .bn, .cr, .rg, .free, .tf] (.mpostTake a0)) ∧
  -- run_balloc
  (∀ a0 a1, RunsOn [.pool] (.balloc a0 a1) ∧ Touches [.node, .vn, .eq, .pool, .ch, .bn, .cr, .rg, .free] (.balloc a0 a1)) ∧
  -- run_bfree
  (∀ a0 a1, RunsOn [.eq, .pool] (.bfree a0 a1) ∧ Touches [.node, .vn, .eq, .pool, .ch, .bn, .cr, .rg, .free] (.bfree a0 a1)) ∧
  -- run_loge
  (∀ a0 a1 a2 a3, RunsOn [] (.loge a0 a1 a2 a3) ∧ Touches [.node, .vn, .eq, .pool, .ch, .bn, .cr, .rg, .free] (.loge a0 a1 a2 a3)) ∧
  -- run_gate
  (∀ a0, RunsOn [.sh] (.gate a0) ∧ Touches [.node, .vn, .eq, .pool, .ch, .bn, .cr, .rg, .free, .sh] (.gate a0)) ∧
  -- run_bench
  (∀ a0 a1 a2, RunsOn [.bn] (.bench a0 a1 a2) ∧ Touches [.node, .vn, .eq, .pool, .ch, .bn, .cr, .rg, .free] (.bench a0 a1 a2)) ∧
  -- run_chkp
  (∀ a0, RunsOn [] (.chkp a0) ∧ Touches [.node, .vn, .eq, .pool, .ch, .bn, .cr, .rg, .free] (.chkp a0)) ∧
  -- run_cyc
  (∀ a0, RunsOn [] (.cyc a0) ∧ Touches [.node, .vn, .eq, .pool, .ch, .bn, .cr, .rg, .free] (.cyc a0)) ∧
  -- run_tick
  (∀ a0, RunsOn [] (.tick a0) ∧ Touches [.node, .vn, .eq, .pool, .ch, .bn, .cr, .rg, .free] (.tick a0)) ∧
  -- run_tt
  (∀ a0, RunsOn [] (.tt a0) ∧ Touches [.node, .vn, .eq, .pool, .ch, .bn, .cr, .rg, .free] (.tt a0)) ∧
  -- run_node
  (∀ a0, RunsOn [] (.node a0) ∧ Touches [.node, .vn, .eq, .pool, .ch, .bn, .cr, .rg, .free] (.node a0)) ∧
  -- run_ordflag
  (∀ a0, RunsOn [] (.ordflag a0) ∧ Touches [.node, .vn, .eq, .pool, .ch, .bn, .cr, .rg, .free] (.ordflag a0)) ∧
  -- run_awake
  (∀ a0 a1, RunsOn [.tf] (.awake a0 a1) ∧ Touches [.node, .vn, .eq, .pool, .ch, .bn, .cr, .rg, .free, .tf] (.awake a0 a1)) ∧
  -- run_chkpStat
  (∀ a0, RunsOn [.free] (.chkpStat a0) ∧ Touches [.node, .vn, .eq, .pool, .ch, .bn, .cr, .rg, .free] (.chkpStat a0)) ∧
  -- run_benchRes
  (∀ a0 a1, RunsOn [] (.benchRes a0 a1) ∧ Touches [.node, .vn, .eq, .pool, .ch, .bn, .cr, .rg, .free] (.benchRes a0 a1)) ∧
  -- run_bufRd
  (∀ a0 a1 a2, RunsOn [.pool] (.bufRd a0 a1 a2) ∧ Touches [.node, .vn, .eq, .pool, .ch, .bn, .cr, .rg, .free] (.bufRd a0 a1 a2)) ∧
  -- run_bufWr
  (∀ a0 a1 a2, RunsOn [.pool] (.bufWr a0 a1 a2) ∧ Touches [.node, .vn, .eq, .pool, .ch, .bn, .cr, .rg, .free] (.bufWr a0 a1 a2)) ∧
  -- run_bufSet
  (∀ a0 a1 a2, RunsOn [.pool] (.bufSet a0 a1 a2) ∧ Touches [.node, .vn, .eq, .pool, .ch, .bn, .cr, .rg, .free] (.bufSet a0 a1 a2)) ∧
  -- run_bufGet
  (∀ a0 a1, RunsOn [] (.bufGet a0 a1) ∧ Touches [.node, .vn, .eq, .pool, .ch, .bn, .cr, .rg, .free] (.bufGet a0 a1)) ∧
  -- run_eqPost
  (∀ a0 a1 a2, RunsOn [.eq, .pool] (.eqPost a0 a1 a2) ∧ Touches [.node, .vn, .eq, .pool, .ch, .bn, .cr, .rg, .free] (.eqPost a0 a1 a2)) ∧
  -- run_eqTake
  (∀ a0 a1, RunsOn [.eq, .pool] (.eqTake a0 a1) ∧ Touches [.node, .vn, .eq, .pool, .ch, .bn, .cr, .rg, .free] (.eqTake a0 a1)) ∧
  -- run_eqTxts
  (∀ a0 a1, RunsOn [.eq] (.eqTxts a0 a1) ∧ Touches [.node, .vn, .eq, .pool, .ch, .bn, .cr, .rg, .free] (.eqTxts a0 a1))
end

