-- ==== Sys2Proof/Laws/FrameBase.lean ====
section
/-! SUPPORT. Frames: what an operation may change at all, as a mask over the parts of the state. Bit by bit the mask
names: device, node state, domains, the rest of the power part, the instant, the rest of the clock part, Hinge, train
frame, vehicle network, equipment ports, pool, Shutter, channels, measurements, bench, cores, grid, the NV store, the NV
controller, command banks, the other registers, outputs, free values, the queue. The logs and the events of the present
window are outside every frame. -/

namespace Sys2Proof.Machine

/-- One mask lies within another. -/
def within (a b : Nat) : Bool := a &&& b == a

theorem within_bit {a b : Nat} (h : within a b = true) (i : Nat) (hb : b.testBit i = false) : a.testBit i = false := by
  have h2 : a &&& b = a := by simpa [within] using h
  rw [← h2, Nat.testBit_and, hb, Bool.and_false]

theorem within_trans {a b c : Nat} (h : within a b = true) (k : within b c = true) : within a c = true := by
  unfold within at *
  simp only [beq_iff_eq] at *
  rw [← h, Nat.and_assoc, k]

theorem Fr.refl (m : Nat) (s : State) : Fr m s s := by
  constructor <;> exact fun _ => rfl

theorem Fr.trans {m : Nat} {s u v : State} (h : Fr m s u) (k : Fr m u v) : Fr m s v where
  dev b := (k.dev b).trans (h.dev b)
  node b := (k.node b).trans (h.node b)
  doms b := (k.doms b).trans (h.doms b)
  pwr b := (k.pwr b).trans (h.pwr b)
  phase b := (k.phase b).trans (h.phase b)
  cyc b := (k.cyc b).trans (h.cyc b)
  hg b := (k.hg b).trans (h.hg b)
  tf b := (k.tf b).trans (h.tf b)
  vn b := (k.vn b).trans (h.vn b)
  eq b := (k.eq b).trans (h.eq b)
  pool b := (k.pool b).trans (h.pool b)
  sh b := (k.sh b).trans (h.sh b)
  ch b := (k.ch b).trans (h.ch b)
  ms b := (k.ms b).trans (h.ms b)
  bn b := (k.bn b).trans (h.bn b)
  cr b := (k.cr b).trans (h.cr b)
  gr b := (k.gr b).trans (h.gr b)
  store b := (k.store b).trans (h.store b)
  nv b := (k.nv b).trans (h.nv b)
  banks b := (k.banks b).trans (h.banks b)
  rg b := (k.rg b).trans (h.rg b)
  wire b := (k.wire b).trans (h.wire b)
  free b := (k.free b).trans (h.free b)
  pending b := (k.pending b).trans (h.pending b)

/-- A frame within a wider one. -/
theorem Fr.weaken {a b : Nat} {s u : State} (hab : within a b = true) (h : Fr a s u) : Fr b s u where
  dev k := h.dev (within_bit hab _ k)
  node k := h.node (within_bit hab _ k)
  doms k := h.doms (within_bit hab _ k)
  pwr k := h.pwr (within_bit hab _ k)
  phase k := h.phase (within_bit hab _ k)
  cyc k := h.cyc (within_bit hab _ k)
  hg k := h.hg (within_bit hab _ k)
  tf k := h.tf (within_bit hab _ k)
  vn k := h.vn (within_bit hab _ k)
  eq k := h.eq (within_bit hab _ k)
  pool k := h.pool (within_bit hab _ k)
  sh k := h.sh (within_bit hab _ k)
  ch k := h.ch (within_bit hab _ k)
  ms k := h.ms (within_bit hab _ k)
  bn k := h.bn (within_bit hab _ k)
  cr k := h.cr (within_bit hab _ k)
  gr k := h.gr (within_bit hab _ k)
  store k := h.store (within_bit hab _ k)
  nv k := h.nv (within_bit hab _ k)
  banks k := h.banks (within_bit hab _ k)
  rg k := h.rg (within_bit hab _ k)
  wire k := h.wire (within_bit hab _ k)
  free k := h.free (within_bit hab _ k)
  pending k := h.pending (within_bit hab _ k)

/-- One operation after others. -/
theorem Fr.step {a b : Nat} {s u v : State} (hab : within a b = true) (h : Fr a u v) (k : Fr b s u) : Fr b s v :=
  k.trans (h.weaken hab)

/-- A record update after others. -/
theorem Fr.upd {m : Nat} {r X : State} {pwr cyc hg tf vn eq pool sh ch ms bn cr gr nv lg rg wire free pending}
    (k : Fr m r X)
    (h : Fr m X ⟨X.dev, pwr, cyc, hg, tf, vn, eq, pool, sh, ch, ms, bn, cr, gr, nv, lg, rg, wire, free, pending⟩) :
    Fr m r ⟨X.dev, pwr, cyc, hg, tf, vn, eq, pool, sh, ch, ms, bn, cr, gr, nv, lg, rg, wire, free, pending⟩ := k.trans h

theorem Fr.foldl {α : Type} {m : Nat} {g : State → α → State} (l : List α) {r s : State} (h : Fr m r s)
    (hg : ∀ s x, Fr m s (g s x)) : Fr m r (l.foldl g s) := by
  induction l generalizing s with
  | nil => exact h
  | cons x l ih => exact ih (h.trans (hg s x))

theorem Fr.elim {α : Type} {m : Nat} {o : Option α} {r s : State} {f : α → State} (h : Fr m r s) (hf : ∀ x, Fr m r (f x)) :
    Fr m r (o.elim s f) := by
  cases o with
  | none => exact h
  | some x => exact hf x

theorem Fr.ite {m : Nat} {c : Prop} [Decidable c] {r a b : State} (ha : Fr m r a) (hb : Fr m r b) :
    Fr m r (if c then a else b) := by
  split
  · exact ha
  · exact hb

end Sys2Proof.Machine
end

