-- ==== Sys2Proof/Laws/Frame.lean ====
section
/-! SUPPORT. The frame of every operation of the model: what it may change at all. -/

set_option linter.all false

namespace Sys2Proof.Machine

theorem noteWindow_fr {s : State} : ∀ a0 a1, Fr 0 s (noteWindow a0 a1 s) := by
  intro a0 a1
  unfold noteWindow
  try dsimp only
  repeat' (first
    | with_reducible exact Fr.refl _ _
    | intro _
    | with_reducible refine Fr.ite ?_ ?_
    | (with_reducible refine Fr.upd ?_ ?_; on_goal 2 => (fail_if_success (with_reducible exact Fr.refl _ _)); (constructor <;> first | exact fun h => absurd h (by decide) | exact fun _ => rfl))
    | split)

theorem noteEvent_fr {s : State} : ∀ a0 a1, Fr 0 s (noteEvent a0 a1 s) := by
  intro a0 a1
  unfold noteEvent
  try dsimp only
  repeat' (first
    | with_reducible exact Fr.refl _ _
    | intro _
    | with_reducible refine Fr.ite ?_ ?_
    | (with_reducible refine Fr.upd ?_ ?_; on_goal 2 => (fail_if_success (with_reducible exact Fr.refl _ _)); (constructor <;> first | exact fun h => absurd h (by decide) | exact fun _ => rfl))
    | ((with_reducible apply Fr.step); (on_goal 2 => with_reducible apply noteWindow_fr); (on_goal 1 => decide))
    | split)

theorem logOpl_fr {s : State} : ∀ a0 a1 a2 a3, Fr 0 s (logOpl a0 a1 a2 a3 s) := by
  intro a0 a1 a2 a3
  unfold logOpl
  try dsimp only
  repeat' (first
    | with_reducible exact Fr.refl _ _
    | intro _
    | with_reducible refine Fr.ite ?_ ?_
    | (with_reducible refine Fr.upd ?_ ?_; on_goal 2 => (fail_if_success (with_reducible exact Fr.refl _ _)); (constructor <;> first | exact fun h => absurd h (by decide) | exact fun _ => rfl))
    | ((with_reducible apply Fr.step); (on_goal 2 => with_reducible apply noteEvent_fr); (on_goal 1 => decide))
    | split)

theorem logInc_fr {s : State} : ∀ a0 a1 a2 a3, Fr 0 s (logInc a0 a1 a2 a3 s) := by
  intro a0 a1 a2 a3
  unfold logInc
  try dsimp only
  repeat' (first
    | with_reducible exact Fr.refl _ _
    | intro _
    | with_reducible refine Fr.ite ?_ ?_
    | (with_reducible refine Fr.upd ?_ ?_; on_goal 2 => (fail_if_success (with_reducible exact Fr.refl _ _)); (constructor <;> first | exact fun h => absurd h (by decide) | exact fun _ => rfl))
    | ((with_reducible apply Fr.step); (on_goal 2 => with_reducible apply noteEvent_fr); (on_goal 1 => decide))
    | ((with_reducible apply Fr.step); (on_goal 2 => with_reducible apply logOpl_fr); (on_goal 1 => decide))
    | split)

theorem raiseTo_fr {s : State} : ∀ a0 a1 a2 a3, Fr 0 s (raiseTo a0 a1 a2 a3 s) := by
  intro a0 a1 a2 a3
  unfold raiseTo
  try dsimp only
  repeat' (first
    | with_reducible exact Fr.refl _ _
    | intro _
    | with_reducible refine Fr.ite ?_ ?_
    | ((with_reducible apply Fr.step); (on_goal 2 => with_reducible apply noteEvent_fr); (on_goal 1 => decide))
    | ((with_reducible apply Fr.step); (on_goal 2 => with_reducible apply logOpl_fr); (on_goal 1 => decide))
    | ((with_reducible apply Fr.step); (on_goal 2 => with_reducible apply logInc_fr); (on_goal 1 => decide))
    | split)

theorem raise_fr {s : State} : ∀ a0 a1 a2, Fr 0 s (raise a0 a1 a2 s) := by
  intro a0 a1 a2
  unfold raise
  try dsimp only
  repeat' (first
    | with_reducible exact Fr.refl _ _
    | intro _
    | with_reducible refine Fr.ite ?_ ?_
    | ((with_reducible apply Fr.step); (on_goal 2 => with_reducible apply raiseTo_fr); (on_goal 1 => decide))
    | split)

theorem resettle_fr {s : State} : Fr 64 s (resettle s) := by
  unfold resettle
  try dsimp only
  repeat' (first
    | with_reducible exact Fr.refl _ _
    | intro _
    | with_reducible refine Fr.ite ?_ ?_
    | (with_reducible refine Fr.upd ?_ ?_; on_goal 2 => (fail_if_success (with_reducible exact Fr.refl _ _)); (constructor <;> first | exact fun h => absurd h (by decide) | exact fun _ => rfl))
    | split)

theorem hpMod_fr {s : State} : ∀ a0 a1, Fr 64 s (hpMod a0 a1 s) := by
  intro a0 a1
  unfold hpMod
  try dsimp only
  repeat' (first
    | with_reducible exact Fr.refl _ _
    | intro _
    | with_reducible refine Fr.ite ?_ ?_
    | (with_reducible refine Fr.upd ?_ ?_; on_goal 2 => (fail_if_success (with_reducible exact Fr.refl _ _)); (constructor <;> first | exact fun h => absurd h (by decide) | exact fun _ => rfl))
    | split)

theorem stepTimeout_fr {s : State} : ∀ a0, Fr 64 s (stepTimeout a0 s) := by
  intro a0
  unfold stepTimeout
  try dsimp only
  repeat' (first
    | with_reducible exact Fr.refl _ _
    | intro _
    | with_reducible refine Fr.ite ?_ ?_
    | (with_reducible refine Fr.upd ?_ ?_; on_goal 2 => (fail_if_success (with_reducible exact Fr.refl _ _)); (constructor <;> first | exact fun h => absurd h (by decide) | exact fun _ => rfl))
    | ((with_reducible apply Fr.step); (on_goal 2 => with_reducible apply raise_fr); (on_goal 1 => decide))
    | ((with_reducible apply Fr.step); (on_goal 2 => with_reducible apply resettle_fr); (on_goal 1 => decide))
    | ((with_reducible apply Fr.step); (on_goal 2 => with_reducible apply hpMod_fr); (on_goal 1 => decide))
    | split)

theorem incCleared_fr {s : State} : ∀ a0, Fr 262152 s (incCleared a0 s) := by
  intro a0
  unfold incCleared
  try dsimp only
  repeat' (first
    | with_reducible exact Fr.refl _ _
    | intro _
    | with_reducible refine Fr.ite ?_ ?_
    | (with_reducible refine Fr.upd ?_ ?_; on_goal 2 => (fail_if_success (with_reducible exact Fr.refl _ _)); (constructor <;> first | exact fun h => absurd h (by decide) | exact fun _ => rfl))
    | ((with_reducible apply Fr.step); (on_goal 2 => with_reducible apply raiseTo_fr); (on_goal 1 => decide))
    | split)

theorem eqMod_fr {s : State} : ∀ a0 a1, Fr 512 s (eqMod a0 a1 s) := by
  intro a0 a1
  unfold eqMod
  try dsimp only
  repeat' (first
    | with_reducible exact Fr.refl _ _
    | intro _
    | with_reducible refine Fr.ite ?_ ?_
    | (with_reducible refine Fr.upd ?_ ?_; on_goal 2 => (fail_if_success (with_reducible exact Fr.refl _ _)); (constructor <;> first | exact fun h => absurd h (by decide) | exact fun _ => rfl))
    | split)

theorem entryUpdate_fr {s : State} : ∀ a0 a1, Fr 0 s (entryUpdate a0 a1 s) := by
  intro a0 a1
  unfold entryUpdate
  try dsimp only
  repeat' (first
    | with_reducible exact Fr.refl _ _
    | intro _
    | with_reducible refine Fr.ite ?_ ?_
    | (with_reducible refine Fr.upd ?_ ?_; on_goal 2 => (fail_if_success (with_reducible exact Fr.refl _ _)); (constructor <;> first | exact fun h => absurd h (by decide) | exact fun _ => rfl))
    | split)

theorem execPrune_fr {s : State} : Fr 0 s (execPrune s) := by
  unfold execPrune
  try dsimp only
  repeat' (first
    | with_reducible exact Fr.refl _ _
    | intro _
    | with_reducible refine Fr.ite ?_ ?_
    | (with_reducible refine Fr.upd ?_ ?_; on_goal 2 => (fail_if_success (with_reducible exact Fr.refl _ _)); (constructor <;> first | exact fun h => absurd h (by decide) | exact fun _ => rfl))
    | split)

theorem bankShow_fr {s : State} : ∀ a0 a1 a2 a3 a4, Fr 524288 s (bankShow a0 a1 a2 a3 a4 s) := by
  intro a0 a1 a2 a3 a4
  unfold bankShow
  try dsimp only
  repeat' (first
    | with_reducible exact Fr.refl _ _
    | intro _
    | with_reducible refine Fr.ite ?_ ?_
    | (with_reducible refine Fr.upd ?_ ?_; on_goal 2 => (fail_if_success (with_reducible exact Fr.refl _ _)); (constructor <;> first | exact fun h => absurd h (by decide) | exact fun _ => rfl))
    | split)

theorem cmdState_fr {s : State} : ∀ a0 a1 a2 a3, Fr 524288 s (cmdState a0 a1 a2 a3 s) := by
  intro a0 a1 a2 a3
  unfold cmdState
  try dsimp only
  repeat' (first
    | with_reducible exact Fr.refl _ _
    | intro _
    | with_reducible refine Fr.ite ?_ ?_
    | (with_reducible refine Fr.upd ?_ ?_; on_goal 2 => (fail_if_success (with_reducible exact Fr.refl _ _)); (constructor <;> first | exact fun h => absurd h (by decide) | exact fun _ => rfl))
    | ((with_reducible apply Fr.step); (on_goal 2 => with_reducible apply entryUpdate_fr); (on_goal 1 => decide))
    | ((with_reducible apply Fr.step); (on_goal 2 => with_reducible apply execPrune_fr); (on_goal 1 => decide))
    | ((with_reducible apply Fr.step); (on_goal 2 => with_reducible apply bankShow_fr); (on_goal 1 => decide))
    | split)

theorem abandonCommands_fr {s : State} : ∀ a0, Fr 524288 s (abandonCommands a0 s) := by
  intro a0
  unfold abandonCommands
  try dsimp only
  repeat' (first
    | with_reducible exact Fr.refl _ _
    | intro _
    | with_reducible refine Fr.foldl _ ?_ ?_
    | with_reducible refine Fr.ite ?_ ?_
    | ((with_reducible apply Fr.step); (on_goal 2 => with_reducible apply cmdState_fr); (on_goal 1 => decide))
    | split)

theorem cutJob_fr {s : State} : Fr 262144 s (cutJob s) := by
  unfold cutJob
  try dsimp only
  repeat' (first
    | with_reducible exact Fr.refl _ _
    | intro _
    | with_reducible refine Fr.elim ?_ ?_
    | with_reducible refine Fr.ite ?_ ?_
    | (with_reducible refine Fr.upd ?_ ?_; on_goal 2 => (fail_if_success (with_reducible exact Fr.refl _ _)); (constructor <;> first | exact fun h => absurd h (by decide) | exact fun _ => rfl))
    | split)

theorem cutChk_fr {s : State} : Fr 262144 s (cutChk s) := by
  unfold cutChk
  try dsimp only
  repeat' (first
    | with_reducible exact Fr.refl _ _
    | intro _
    | with_reducible refine Fr.ite ?_ ?_
    | (with_reducible refine Fr.upd ?_ ?_; on_goal 2 => (fail_if_success (with_reducible exact Fr.refl _ _)); (constructor <;> first | exact fun h => absurd h (by decide) | exact fun _ => rfl))
    | split)

theorem cutInc_fr {s : State} : Fr 0 s (cutInc s) := by
  unfold cutInc
  try dsimp only
  repeat' (first
    | with_reducible exact Fr.refl _ _
    | intro _
    | with_reducible refine Fr.elim ?_ ?_
    | with_reducible refine Fr.ite ?_ ?_
    | (with_reducible refine Fr.upd ?_ ?_; on_goal 2 => (fail_if_success (with_reducible exact Fr.refl _ _)); (constructor <;> first | exact fun h => absurd h (by decide) | exact fun _ => rfl))
    | split)

theorem drawn_fr {s : State} : Fr 4194304 s (drawn s) := by
  unfold drawn
  try dsimp only
  repeat' (first
    | with_reducible exact Fr.refl _ _
    | intro _
    | with_reducible refine Fr.ite ?_ ?_
    | (with_reducible refine Fr.upd ?_ ?_; on_goal 2 => (fail_if_success (with_reducible exact Fr.refl _ _)); (constructor <;> first | exact fun h => absurd h (by decide) | exact fun _ => rfl))
    | split)

theorem nvUndefine_fr {s : State} : ∀ a0 a1, Fr 4587520 s (nvUndefine a0 a1 s) := by
  intro a0 a1
  unfold nvUndefine
  try dsimp only
  repeat' (first
    | with_reducible exact Fr.refl _ _
    | intro _
    | with_reducible refine Fr.ite ?_ ?_
    | (with_reducible refine Fr.upd ?_ ?_; on_goal 2 => (fail_if_success (with_reducible exact Fr.refl _ _)); (constructor <;> first | exact fun h => absurd h (by decide) | exact fun _ => rfl))
    | ((with_reducible apply Fr.step); (on_goal 2 => with_reducible apply drawn_fr); (on_goal 1 => decide))
    | split)

theorem cutOp_fr {s : State} : Fr 4587520 s (cutOp s) := by
  unfold cutOp
  try dsimp only
  repeat' (first
    | with_reducible exact Fr.refl _ _
    | intro _
    | with_reducible refine Fr.ite ?_ ?_
    | ((with_reducible apply Fr.step); (on_goal 2 => with_reducible apply nvUndefine_fr); (on_goal 1 => decide))
    | split)

theorem nvCut_fr {s : State} : Fr 4587520 s (nvCut s) := by
  unfold nvCut
  try dsimp only
  repeat' (first
    | with_reducible exact Fr.refl _ _
    | intro _
    | with_reducible refine Fr.ite ?_ ?_
    | (with_reducible refine Fr.upd ?_ ?_; on_goal 2 => (fail_if_success (with_reducible exact Fr.refl _ _)); (constructor <;> first | exact fun h => absurd h (by decide) | exact fun _ => rfl))
    | ((with_reducible apply Fr.step); (on_goal 2 => with_reducible apply cutJob_fr); (on_goal 1 => decide))
    | ((with_reducible apply Fr.step); (on_goal 2 => with_reducible apply cutChk_fr); (on_goal 1 => decide))
    | ((with_reducible apply Fr.step); (on_goal 2 => with_reducible apply cutInc_fr); (on_goal 1 => decide))
    | ((with_reducible apply Fr.step); (on_goal 2 => with_reducible apply cutOp_fr); (on_goal 1 => decide))
    | split)

theorem startFlush_fr {s : State} : ∀ a0, Fr 5111816 s (startFlush a0 s) := by
  intro a0
  unfold startFlush
  try dsimp only
  repeat' (first
    | with_reducible exact Fr.refl _ _
    | intro _
    | with_reducible refine Fr.ite ?_ ?_
    | (with_reducible refine Fr.upd ?_ ?_; on_goal 2 => (fail_if_success (with_reducible exact Fr.refl _ _)); (constructor <;> first | exact fun h => absurd h (by decide) | exact fun _ => rfl))
    | ((with_reducible apply Fr.step); (on_goal 2 => with_reducible apply noteEvent_fr); (on_goal 1 => decide))
    | ((with_reducible apply Fr.step); (on_goal 2 => with_reducible apply abandonCommands_fr); (on_goal 1 => decide))
    | ((with_reducible apply Fr.step); (on_goal 2 => with_reducible apply nvCut_fr); (on_goal 1 => decide))
    | split)

theorem noImageTimeout_fr {s : State} : Fr 8 s (noImageTimeout s) := by
  unfold noImageTimeout
  try dsimp only
  repeat' (first
    | with_reducible exact Fr.refl _ _
    | intro _
    | with_reducible refine Fr.ite ?_ ?_
    | (with_reducible refine Fr.upd ?_ ?_; on_goal 2 => (fail_if_success (with_reducible exact Fr.refl _ _)); (constructor <;> first | exact fun h => absurd h (by decide) | exact fun _ => rfl))
    | ((with_reducible apply Fr.step); (on_goal 2 => with_reducible apply raise_fr); (on_goal 1 => decide))
    | split)

theorem drawerMod_fr {s : State} : ∀ a0 a1, Fr 1048576 s (drawerMod a0 a1 s) := by
  intro a0 a1
  unfold drawerMod
  try dsimp only
  repeat' (first
    | with_reducible exact Fr.refl _ _
    | intro _
    | with_reducible refine Fr.ite ?_ ?_
    | (with_reducible refine Fr.upd ?_ ?_; on_goal 2 => (fail_if_success (with_reducible exact Fr.refl _ _)); (constructor <;> first | exact fun h => absurd h (by decide) | exact fun _ => rfl))
    | split)

theorem drawerGo_fr {s : State} : ∀ a0 a1, Fr 1048576 s (drawerGo a0 a1 s) := by
  intro a0 a1
  unfold drawerGo
  try dsimp only
  repeat' (first
    | with_reducible exact Fr.refl _ _
    | intro _
    | with_reducible refine Fr.ite ?_ ?_
    | (with_reducible refine Fr.upd ?_ ?_; on_goal 2 => (fail_if_success (with_reducible exact Fr.refl _ _)); (constructor <;> first | exact fun h => absurd h (by decide) | exact fun _ => rfl))
    | ((with_reducible apply Fr.step); (on_goal 2 => with_reducible apply drawerMod_fr); (on_goal 1 => decide))
    | split)

theorem drawerNext_fr {s : State} : ∀ a0, Fr 1048576 s (drawerNext a0 s) := by
  intro a0
  unfold drawerNext
  try dsimp only
  repeat' (first
    | with_reducible exact Fr.refl _ _
    | intro _
    | with_reducible refine Fr.ite ?_ ?_
    | ((with_reducible apply Fr.step); (on_goal 2 => with_reducible apply drawerGo_fr); (on_goal 1 => decide))
    | split)

theorem drawerPrev_fr {s : State} : ∀ a0, Fr 1048576 s (drawerPrev a0 s) := by
  intro a0
  unfold drawerPrev
  try dsimp only
  repeat' (first
    | with_reducible exact Fr.refl _ _
    | intro _
    | with_reducible refine Fr.ite ?_ ?_
    | ((with_reducible apply Fr.step); (on_goal 2 => with_reducible apply drawerGo_fr); (on_goal 1 => decide))
    | split)

theorem drawerCtrl_fr {s : State} : ∀ a0 a1, Fr 1048576 s (drawerCtrl a0 a1 s) := by
  intro a0 a1
  unfold drawerCtrl
  try dsimp only
  repeat' (first
    | with_reducible exact Fr.refl _ _
    | intro _
    | with_reducible refine Fr.ite ?_ ?_
    | ((with_reducible apply Fr.step); (on_goal 2 => with_reducible apply drawerNext_fr); (on_goal 1 => decide))
    | ((with_reducible apply Fr.step); (on_goal 2 => with_reducible apply drawerPrev_fr); (on_goal 1 => decide))
    | split)

theorem drawerNextRow_fr {s : State} : ∀ a0, Fr 1048576 s (drawerNextRow a0 s) := by
  intro a0
  unfold drawerNextRow
  try dsimp only
  repeat' (first
    | with_reducible exact Fr.refl _ _
    | intro _
    | with_reducible refine Fr.ite ?_ ?_
    | ((with_reducible apply Fr.step); (on_goal 2 => with_reducible apply drawerCtrl_fr); (on_goal 1 => decide))
    | split)

theorem emit_fr {s : State} : ∀ a0, Fr 2097152 s (emit a0 s) := by
  intro a0
  unfold emit
  try dsimp only
  repeat' (first
    | with_reducible exact Fr.refl _ _
    | intro _
    | with_reducible refine Fr.ite ?_ ?_
    | (with_reducible refine Fr.upd ?_ ?_; on_goal 2 => (fail_if_success (with_reducible exact Fr.refl _ _)); (constructor <;> first | exact fun h => absurd h (by decide) | exact fun _ => rfl))
    | split)

theorem portTx_fr {s : State} : ∀ a0 a1, Fr 128 s (portTx a0 a1 s) := by
  intro a0 a1
  unfold portTx
  try dsimp only
  repeat' (first
    | with_reducible exact Fr.refl _ _
    | intro _
    | with_reducible refine Fr.ite ?_ ?_
    | (with_reducible refine Fr.upd ?_ ?_; on_goal 2 => (fail_if_success (with_reducible exact Fr.refl _ _)); (constructor <;> first | exact fun h => absurd h (by decide) | exact fun _ => rfl))
    | split)

theorem originate_fr {s : State} : ∀ a0, Fr 128 s (originate a0 s) := by
  intro a0
  unfold originate
  try dsimp only
  repeat' (first
    | with_reducible exact Fr.refl _ _
    | intro _
    | with_reducible refine Fr.elim ?_ ?_
    | with_reducible refine Fr.ite ?_ ?_
    | (with_reducible refine Fr.upd ?_ ?_; on_goal 2 => (fail_if_success (with_reducible exact Fr.refl _ _)); (constructor <;> first | exact fun h => absurd h (by decide) | exact fun _ => rfl))
    | split)

theorem portStart_fr {s : State} : ∀ a0, Fr 2097344 s (portStart a0 s) := by
  intro a0
  unfold portStart
  try dsimp only
  repeat' (first
    | with_reducible exact Fr.refl _ _
    | intro _
    | with_reducible refine Fr.ite ?_ ?_
    | (with_reducible refine Fr.upd ?_ ?_; on_goal 2 => (fail_if_success (with_reducible exact Fr.refl _ _)); (constructor <;> first | exact fun h => absurd h (by decide) | exact fun _ => rfl))
    | ((with_reducible apply Fr.step); (on_goal 2 => with_reducible apply emit_fr); (on_goal 1 => decide))
    | ((with_reducible apply Fr.step); (on_goal 2 => with_reducible apply portTx_fr); (on_goal 1 => decide))
    | ((with_reducible apply Fr.step); (on_goal 2 => with_reducible apply originate_fr); (on_goal 1 => decide))
    | split)

theorem hingeSend_fr {s : State} : ∀ a0 a1, Fr 2097344 s (hingeSend a0 a1 s) := by
  intro a0 a1
  unfold hingeSend
  try dsimp only
  repeat' (first
    | with_reducible exact Fr.refl _ _
    | intro _
    | with_reducible refine Fr.ite ?_ ?_
    | (with_reducible refine Fr.upd ?_ ?_; on_goal 2 => (fail_if_success (with_reducible exact Fr.refl _ _)); (constructor <;> first | exact fun h => absurd h (by decide) | exact fun _ => rfl))
    | ((with_reducible apply Fr.step); (on_goal 2 => with_reducible apply emit_fr); (on_goal 1 => decide))
    | ((with_reducible apply Fr.step); (on_goal 2 => with_reducible apply portStart_fr); (on_goal 1 => decide))
    | split)

theorem hingeOwn_fr {s : State} : ∀ a0 a1 a2, Fr 2097344 s (hingeOwn a0 a1 a2 s) := by
  intro a0 a1 a2
  unfold hingeOwn
  try dsimp only
  repeat' (first
    | with_reducible exact Fr.refl _ _
    | intro _
    | with_reducible refine Fr.foldl _ ?_ ?_
    | with_reducible refine Fr.ite ?_ ?_
    | (with_reducible refine Fr.upd ?_ ?_; on_goal 2 => (fail_if_success (with_reducible exact Fr.refl _ _)); (constructor <;> first | exact fun h => absurd h (by decide) | exact fun _ => rfl))
    | ((with_reducible apply Fr.step); (on_goal 2 => with_reducible apply hingeSend_fr); (on_goal 1 => decide))
    | split)

theorem inaugEnter_fr {s : State} : ∀ a0 a1, Fr 192 s (inaugEnter a0 a1 s) := by
  intro a0 a1
  unfold inaugEnter
  try dsimp only
  repeat' (first
    | with_reducible exact Fr.refl _ _
    | intro _
    | with_reducible refine Fr.ite ?_ ?_
    | (with_reducible refine Fr.upd ?_ ?_; on_goal 2 => (fail_if_success (with_reducible exact Fr.refl _ _)); (constructor <;> first | exact fun h => absurd h (by decide) | exact fun _ => rfl))
    | ((with_reducible apply Fr.step); (on_goal 2 => with_reducible apply raise_fr); (on_goal 1 => decide))
    | split)

theorem startOwn_fr {s : State} : ∀ a0, Fr 2097344 s (startOwn a0 s) := by
  intro a0
  unfold startOwn
  try dsimp only
  repeat' (first
    | with_reducible exact Fr.refl _ _
    | intro _
    | with_reducible refine Fr.ite ?_ ?_
    | ((with_reducible apply Fr.step); (on_goal 2 => with_reducible apply hingeOwn_fr); (on_goal 1 => decide))
    | ((with_reducible apply Fr.step); (on_goal 2 => with_reducible apply inaugEnter_fr); (on_goal 1 => decide))
    | split)

theorem failedRetry_fr {s : State} : Fr 2097344 s (failedRetry s) := by
  unfold failedRetry
  try dsimp only
  repeat' (first
    | with_reducible exact Fr.refl _ _
    | intro _
    | with_reducible refine Fr.ite ?_ ?_
    | ((with_reducible apply Fr.step); (on_goal 2 => with_reducible apply startOwn_fr); (on_goal 1 => decide))
    | split)

theorem activeMod_fr {s : State} : ∀ a0, Fr 32768 s (activeMod a0 s) := by
  intro a0
  unfold activeMod
  try dsimp only
  repeat' (first
    | with_reducible exact Fr.refl _ _
    | intro _
    | with_reducible refine Fr.ite ?_ ?_
    | (with_reducible refine Fr.upd ?_ ?_; on_goal 2 => (fail_if_success (with_reducible exact Fr.refl _ _)); (constructor <;> first | exact fun h => absurd h (by decide) | exact fun _ => rfl))
    | split)

theorem revertOverlay_fr {s : State} : ∀ a0 a1 a2, Fr 32768 s (revertOverlay a0 a1 a2 s) := by
  intro a0 a1 a2
  unfold revertOverlay
  try dsimp only
  repeat' (first
    | with_reducible exact Fr.refl _ _
    | intro _
    | with_reducible refine Fr.ite ?_ ?_
    | (with_reducible refine Fr.upd ?_ ?_; on_goal 2 => (fail_if_success (with_reducible exact Fr.refl _ _)); (constructor <;> first | exact fun h => absurd h (by decide) | exact fun _ => rfl))
    | split)

theorem revertLatest_fr {s : State} : Fr 32768 s (revertLatest s) := by
  unfold revertLatest
  try dsimp only
  repeat' (first
    | with_reducible exact Fr.refl _ _
    | intro _
    | with_reducible refine Fr.elim ?_ ?_
    | with_reducible refine Fr.ite ?_ ?_
    | ((with_reducible apply Fr.step); (on_goal 2 => with_reducible apply revertOverlay_fr); (on_goal 1 => decide))
    | split)

theorem dataCoreMod_fr {s : State} : ∀ a0, Fr 32768 s (dataCoreMod a0 s) := by
  intro a0
  unfold dataCoreMod
  try dsimp only
  repeat' (first
    | with_reducible exact Fr.refl _ _
    | intro _
    | with_reducible refine Fr.ite ?_ ?_
    | (with_reducible refine Fr.upd ?_ ?_; on_goal 2 => (fail_if_success (with_reducible exact Fr.refl _ _)); (constructor <;> first | exact fun h => absurd h (by decide) | exact fun _ => rfl))
    | split)

theorem pfcSend_fr {s : State} : ∀ a0 a1 a2, Fr 2097664 s (pfcSend a0 a1 a2 s) := by
  intro a0 a1 a2
  unfold pfcSend
  try dsimp only
  repeat' (first
    | with_reducible exact Fr.refl _ _
    | intro _
    | with_reducible refine Fr.ite ?_ ?_
    | (with_reducible refine Fr.upd ?_ ?_; on_goal 2 => (fail_if_success (with_reducible exact Fr.refl _ _)); (constructor <;> first | exact fun h => absurd h (by decide) | exact fun _ => rfl))
    | ((with_reducible apply Fr.step); (on_goal 2 => with_reducible apply emit_fr); (on_goal 1 => decide))
    | ((with_reducible apply Fr.step); (on_goal 2 => with_reducible apply eqMod_fr); (on_goal 1 => decide))
    | split)

theorem pfcCheck_fr {s : State} : ∀ a0, Fr 2097664 s (pfcCheck a0 s) := by
  intro a0
  unfold pfcCheck
  try dsimp only
  repeat' (first
    | with_reducible exact Fr.refl _ _
    | intro _
    | with_reducible refine Fr.ite ?_ ?_
    | (with_reducible refine Fr.upd ?_ ?_; on_goal 2 => (fail_if_success (with_reducible exact Fr.refl _ _)); (constructor <;> first | exact fun h => absurd h (by decide) | exact fun _ => rfl))
    | ((with_reducible apply Fr.step); (on_goal 2 => with_reducible apply raise_fr); (on_goal 1 => decide))
    | ((with_reducible apply Fr.step); (on_goal 2 => with_reducible apply pfcSend_fr); (on_goal 1 => decide))
    | ((with_reducible apply Fr.step); (on_goal 2 => with_reducible apply eqMod_fr); (on_goal 1 => decide))
    | split)

theorem pfcAll_fr {s : State} : Fr 2097664 s (pfcAll s) := by
  unfold pfcAll
  try dsimp only
  repeat' (first
    | with_reducible exact Fr.refl _ _
    | intro _
    | with_reducible refine Fr.foldl _ ?_ ?_
    | with_reducible refine Fr.ite ?_ ?_
    | ((with_reducible apply Fr.step); (on_goal 2 => with_reducible apply pfcCheck_fr); (on_goal 1 => decide))
    | split)

theorem bufMod_fr {s : State} : ∀ a0 a1, Fr 1024 s (bufMod a0 a1 s) := by
  intro a0 a1
  unfold bufMod
  try dsimp only
  repeat' (first
    | with_reducible exact Fr.refl _ _
    | intro _
    | with_reducible refine Fr.ite ?_ ?_
    | (with_reducible refine Fr.upd ?_ ?_; on_goal 2 => (fail_if_success (with_reducible exact Fr.refl _ _)); (constructor <;> first | exact fun h => absurd h (by decide) | exact fun _ => rfl))
    | split)

theorem poolRelease_fr {s : State} : ∀ a0, Fr 1024 s (poolRelease a0 s) := by
  intro a0
  unfold poolRelease
  try dsimp only
  repeat' (first
    | with_reducible exact Fr.refl _ _
    | intro _
    | with_reducible refine Fr.foldl _ ?_ ?_
    | with_reducible refine Fr.ite ?_ ?_
    | (with_reducible refine Fr.upd ?_ ?_; on_goal 2 => (fail_if_success (with_reducible exact Fr.refl _ _)); (constructor <;> first | exact fun h => absurd h (by decide) | exact fun _ => rfl))
    | ((with_reducible apply Fr.step); (on_goal 2 => with_reducible apply bufMod_fr); (on_goal 1 => decide))
    | split)

theorem chainFree_fr {s : State} : ∀ a0, Fr 2098688 s (chainFree a0 s) := by
  intro a0
  unfold chainFree
  try dsimp only
  repeat' (first
    | with_reducible exact Fr.refl _ _
    | intro _
    | with_reducible refine Fr.ite ?_ ?_
    | ((with_reducible apply Fr.step); (on_goal 2 => with_reducible apply pfcAll_fr); (on_goal 1 => decide))
    | ((with_reducible apply Fr.step); (on_goal 2 => with_reducible apply poolRelease_fr); (on_goal 1 => decide))
    | split)

theorem starOff_fr {s : State} : Fr 6293248 s (starOff s) := by
  unfold starOff
  try dsimp only
  repeat' (first
    | with_reducible exact Fr.refl _ _
    | intro _
    | with_reducible refine Fr.ite ?_ ?_
    | (with_reducible refine Fr.upd ?_ ?_; on_goal 2 => (fail_if_success (with_reducible exact Fr.refl _ _)); (constructor <;> first | exact fun h => absurd h (by decide) | exact fun _ => rfl))
    | ((with_reducible apply Fr.step); (on_goal 2 => with_reducible apply drawn_fr); (on_goal 1 => decide))
    | ((with_reducible apply Fr.step); (on_goal 2 => with_reducible apply chainFree_fr); (on_goal 1 => decide))
    | split)

theorem brMod_fr {s : State} : ∀ a0 a1, Fr 256 s (brMod a0 a1 s) := by
  intro a0 a1
  unfold brMod
  try dsimp only
  repeat' (first
    | with_reducible exact Fr.refl _ _
    | intro _
    | with_reducible refine Fr.ite ?_ ?_
    | (with_reducible refine Fr.upd ?_ ?_; on_goal 2 => (fail_if_success (with_reducible exact Fr.refl _ _)); (constructor <;> first | exact fun h => absurd h (by decide) | exact fun _ => rfl))
    | split)

theorem branchDown_fr {s : State} : ∀ a0, Fr 256 s (branchDown a0 s) := by
  intro a0
  unfold branchDown
  try dsimp only
  repeat' (first
    | with_reducible exact Fr.refl _ _
    | intro _
    | with_reducible refine Fr.ite ?_ ?_
    | (with_reducible refine Fr.upd ?_ ?_; on_goal 2 => (fail_if_success (with_reducible exact Fr.refl _ _)); (constructor <;> first | exact fun h => absurd h (by decide) | exact fun _ => rfl))
    | ((with_reducible apply Fr.step); (on_goal 2 => with_reducible apply brMod_fr); (on_goal 1 => decide))
    | split)

theorem eqDiscard_fr {s : State} : ∀ a0 a1, Fr 1536 s (eqDiscard a0 a1 s).1 := by
  intro a0 a1
  unfold eqDiscard
  try dsimp only
  repeat' (first
    | with_reducible exact Fr.refl _ _
    | intro _
    | with_reducible refine Fr.ite ?_ ?_
    | (with_reducible refine Fr.upd ?_ ?_; on_goal 2 => (fail_if_success (with_reducible exact Fr.refl _ _)); (constructor <;> first | exact fun h => absurd h (by decide) | exact fun _ => rfl))
    | ((with_reducible apply Fr.step); (on_goal 2 => with_reducible apply eqMod_fr); (on_goal 1 => decide))
    | ((with_reducible apply Fr.step); (on_goal 2 => with_reducible apply poolRelease_fr); (on_goal 1 => decide))
    | split)

theorem sessionDrop_fr {s : State} : ∀ a0 a1, Fr 1048576 s (sessionDrop a0 a1 s) := by
  intro a0 a1
  unfold sessionDrop
  try dsimp only
  repeat' (first
    | with_reducible exact Fr.refl _ _
    | intro _
    | with_reducible refine Fr.ite ?_ ?_
    | (with_reducible refine Fr.upd ?_ ?_; on_goal 2 => (fail_if_success (with_reducible exact Fr.refl _ _)); (constructor <;> first | exact fun h => absurd h (by decide) | exact fun _ => rfl))
    | ((with_reducible apply Fr.step); (on_goal 2 => with_reducible apply raise_fr); (on_goal 1 => decide))
    | split)

theorem eqLinkLost_fr {s : State} : ∀ a0, Fr 3147264 s (eqLinkLost a0 s) := by
  intro a0
  unfold eqLinkLost
  try dsimp only
  repeat' (first
    | with_reducible exact Fr.refl _ _
    | intro _
    | with_reducible refine Fr.ite ?_ ?_
    | (with_reducible refine Fr.upd ?_ ?_; on_goal 2 => (fail_if_success (with_reducible exact Fr.refl _ _)); (constructor <;> first | exact fun h => absurd h (by decide) | exact fun _ => rfl))
    | ((with_reducible apply Fr.step); (on_goal 2 => with_reducible apply eqDiscard_fr); (on_goal 1 => decide))
    | ((with_reducible apply Fr.step); (on_goal 2 => with_reducible apply eqMod_fr); (on_goal 1 => decide))
    | ((with_reducible apply Fr.step); (on_goal 2 => with_reducible apply raise_fr); (on_goal 1 => decide))
    | ((with_reducible apply Fr.step); (on_goal 2 => with_reducible apply pfcAll_fr); (on_goal 1 => decide))
    | ((with_reducible apply Fr.step); (on_goal 2 => with_reducible apply sessionDrop_fr); (on_goal 1 => decide))
    | split)

theorem eqLoad_fr {s : State} : ∀ a0, Fr 1048576 s (eqLoad a0 s) := by
  intro a0
  unfold eqLoad
  try dsimp only
  repeat' (first
    | with_reducible exact Fr.refl _ _
    | intro _
    | with_reducible refine Fr.foldl _ ?_ ?_
    | with_reducible refine Fr.ite ?_ ?_
    | (with_reducible refine Fr.upd ?_ ?_; on_goal 2 => (fail_if_success (with_reducible exact Fr.refl _ _)); (constructor <;> first | exact fun h => absurd h (by decide) | exact fun _ => rfl))
    | split)

theorem chanMod_fr {s : State} : ∀ a0 a1, Fr 4096 s (chanMod a0 a1 s) := by
  intro a0 a1
  unfold chanMod
  try dsimp only
  repeat' (first
    | with_reducible exact Fr.refl _ _
    | intro _
    | with_reducible refine Fr.ite ?_ ?_
    | (with_reducible refine Fr.upd ?_ ?_; on_goal 2 => (fail_if_success (with_reducible exact Fr.refl _ _)); (constructor <;> first | exact fun h => absurd h (by decide) | exact fun _ => rfl))
    | split)

theorem groupLogicOn_fr {s : State} : ∀ a0, Fr 4198400 s (groupLogicOn a0 s) := by
  intro a0
  unfold groupLogicOn
  try dsimp only
  repeat' (first
    | with_reducible exact Fr.refl _ _
    | intro _
    | with_reducible refine Fr.foldl _ ?_ ?_
    | with_reducible refine Fr.ite ?_ ?_
    | (with_reducible refine Fr.upd ?_ ?_; on_goal 2 => (fail_if_success (with_reducible exact Fr.refl _ _)); (constructor <;> first | exact fun h => absurd h (by decide) | exact fun _ => rfl))
    | ((with_reducible apply Fr.step); (on_goal 2 => with_reducible apply drawn_fr); (on_goal 1 => decide))
    | ((with_reducible apply Fr.step); (on_goal 2 => with_reducible apply chanMod_fr); (on_goal 1 => decide))
    | split)

theorem domainHook_fr {s : State} : ∀ d o l, Fr 7378688 s (domainHook d o l s) := fun d o l => by
  unfold domainHook
  refine Fr.ite (Fr.weaken (by decide) ((Fr.weaken (by decide) (dataCoreMod_fr _)).trans (Fr.weaken (b := 7378688) (by decide) drawn_fr))) ?_
  refine Fr.ite (Fr.step (by decide) drawn_fr ?_) ?_
  · constructor <;> first | exact fun h => absurd h (by decide) | exact fun _ => rfl
  refine Fr.ite (Fr.weaken (by decide) starOff_fr) ?_
  refine Fr.ite (Fr.weaken (by decide) (branchDown_fr _)) ?_
  refine Fr.ite (Fr.weaken (by decide) (eqLinkLost_fr _)) ?_
  refine Fr.ite (Fr.ite (Fr.weaken (by decide) (eqLoad_fr _)) (Fr.weaken (by decide) (eqLinkLost_fr _))) ?_
  refine Fr.ite (Fr.ite (Fr.foldl _ (Fr.refl _ _) (fun _ _ => Fr.weaken (by decide) (chanMod_fr _ _)))
    (Fr.ite (Fr.weaken (by decide) (groupLogicOn_fr _)) (Fr.refl _ _))) ?_
  exact Fr.ite (Fr.weaken (by decide) (chanMod_fr _ _)) (Fr.ite (Fr.weaken (by decide) (chanMod_fr _ _)) (Fr.refl _ _))
theorem reach_fr {s : State} : ∀ a0 a1, Fr 7378692 s (reach a0 a1 s) := by
  intro a0 a1
  unfold reach
  try dsimp only
  repeat' (first
    | with_reducible exact Fr.refl _ _
    | intro _
    | with_reducible refine Fr.ite ?_ ?_
    | (with_reducible refine Fr.upd ?_ ?_; on_goal 2 => (fail_if_success (with_reducible exact Fr.refl _ _)); (constructor <;> first | exact fun h => absurd h (by decide) | exact fun _ => rfl))
    | ((with_reducible apply Fr.step); (on_goal 2 => with_reducible apply domainHook_fr); (on_goal 1 => decide))
    | split)

theorem setDomain_fr {s : State} : ∀ a0 a1, Fr 7378692 s (setDomain a0 a1 s) := by
  intro a0 a1
  unfold setDomain
  try dsimp only
  repeat' (first
    | with_reducible exact Fr.refl _ _
    | intro _
    | with_reducible refine Fr.ite ?_ ?_
    | (with_reducible refine Fr.upd ?_ ?_; on_goal 2 => (fail_if_success (with_reducible exact Fr.refl _ _)); (constructor <;> first | exact fun h => absurd h (by decide) | exact fun _ => rfl))
    | ((with_reducible apply Fr.step); (on_goal 2 => with_reducible apply reach_fr); (on_goal 1 => decide))
    | split)

theorem rxcRetire_fr {s : State} : Fr 7378692 s (rxcRetire s) := by
  unfold rxcRetire
  try dsimp only
  repeat' (first
    | with_reducible exact Fr.refl _ _
    | intro _
    | with_reducible refine Fr.ite ?_ ?_
    | (with_reducible refine Fr.upd ?_ ?_; on_goal 2 => (fail_if_success (with_reducible exact Fr.refl _ _)); (constructor <;> first | exact fun h => absurd h (by decide) | exact fun _ => rfl))
    | ((with_reducible apply Fr.step); (on_goal 2 => with_reducible apply setDomain_fr); (on_goal 1 => decide))
    | split)

theorem transition_fr {s : State} : ∀ a0 a1, Fr 2 s (transition a0 a1 s) := by
  intro a0 a1
  unfold transition
  try dsimp only
  repeat' (first
    | with_reducible exact Fr.refl _ _
    | intro _
    | with_reducible refine Fr.ite ?_ ?_
    | (with_reducible refine Fr.upd ?_ ?_; on_goal 2 => (fail_if_success (with_reducible exact Fr.refl _ _)); (constructor <;> first | exact fun h => absurd h (by decide) | exact fun _ => rfl))
    | ((with_reducible apply Fr.step); (on_goal 2 => with_reducible apply raise_fr); (on_goal 1 => decide))
    | split)

theorem toNocore_fr {s : State} : ∀ a0 a1, Fr 2 s (toNocore a0 a1 s) := by
  intro a0 a1
  unfold toNocore
  try dsimp only
  repeat' (first
    | with_reducible exact Fr.refl _ _
    | intro _
    | with_reducible refine Fr.ite ?_ ?_
    | ((with_reducible apply Fr.step); (on_goal 2 => with_reducible apply raise_fr); (on_goal 1 => decide))
    | ((with_reducible apply Fr.step); (on_goal 2 => with_reducible apply transition_fr); (on_goal 1 => decide))
    | split)

theorem benchAsk_fr {s : State} : ∀ a0 a1 a2 a3, Fr 16384 s (benchAsk a0 a1 a2 a3 s).1 := by
  intro a0 a1 a2 a3
  unfold benchAsk
  try dsimp only
  repeat' (first
    | with_reducible exact Fr.refl _ _
    | intro _
    | with_reducible refine Fr.ite ?_ ?_
    | (with_reducible refine Fr.upd ?_ ?_; on_goal 2 => (fail_if_success (with_reducible exact Fr.refl _ _)); (constructor <;> first | exact fun h => absurd h (by decide) | exact fun _ => rfl))
    | ((with_reducible apply Fr.step); (on_goal 2 => with_reducible apply raise_fr); (on_goal 1 => decide))
    | split)

theorem repairAsk_fr {s : State} : Fr 49152 s (repairAsk s) := by
  unfold repairAsk
  try dsimp only
  repeat' (first
    | with_reducible exact Fr.refl _ _
    | intro _
    | with_reducible refine Fr.ite ?_ ?_
    | (with_reducible refine Fr.upd ?_ ?_; on_goal 2 => (fail_if_success (with_reducible exact Fr.refl _ _)); (constructor <;> first | exact fun h => absurd h (by decide) | exact fun _ => rfl))
    | ((with_reducible apply Fr.step); (on_goal 2 => with_reducible apply benchAsk_fr); (on_goal 1 => decide))
    | split)

theorem orderDone_fr {s : State} : ∀ a0 a1, Fr 32768 s (orderDone a0 a1 s) := by
  intro a0 a1
  unfold orderDone
  try dsimp only
  repeat' (first
    | with_reducible exact Fr.refl _ _
    | intro _
    | with_reducible refine Fr.ite ?_ ?_
    | (with_reducible refine Fr.upd ?_ ?_; on_goal 2 => (fail_if_success (with_reducible exact Fr.refl _ _)); (constructor <;> first | exact fun h => absurd h (by decide) | exact fun _ => rfl))
    | ((with_reducible apply Fr.step); (on_goal 2 => with_reducible apply raise_fr); (on_goal 1 => decide))
    | split)

theorem takeoverStart_fr {s : State} : Fr 7378692 s (takeoverStart s) := by
  unfold takeoverStart
  try dsimp only
  repeat' (first
    | with_reducible exact Fr.refl _ _
    | intro _
    | with_reducible refine Fr.ite ?_ ?_
    | (with_reducible refine Fr.upd ?_ ?_; on_goal 2 => (fail_if_success (with_reducible exact Fr.refl _ _)); (constructor <;> first | exact fun h => absurd h (by decide) | exact fun _ => rfl))
    | ((with_reducible apply Fr.step); (on_goal 2 => with_reducible apply orderDone_fr); (on_goal 1 => decide))
    | ((with_reducible apply Fr.step); (on_goal 2 => with_reducible apply setDomain_fr); (on_goal 1 => decide))
    | split)

theorem yieldAt_fr {s : State} : ∀ a0 a1 a2, Fr 7395078 s (yieldAt a0 a1 a2 s) := by
  intro a0 a1 a2
  unfold yieldAt
  try dsimp only
  repeat' (first
    | with_reducible exact Fr.refl _ _
    | intro _
    | with_reducible refine Fr.ite ?_ ?_
    | (with_reducible refine Fr.upd ?_ ?_; on_goal 2 => (fail_if_success (with_reducible exact Fr.refl _ _)); (constructor <;> first | exact fun h => absurd h (by decide) | exact fun _ => rfl))
    | ((with_reducible apply Fr.step); (on_goal 2 => with_reducible apply activeMod_fr); (on_goal 1 => decide))
    | ((with_reducible apply Fr.step); (on_goal 2 => with_reducible apply raise_fr); (on_goal 1 => decide))
    | ((with_reducible apply Fr.step); (on_goal 2 => with_reducible apply revertLatest_fr); (on_goal 1 => decide))
    | ((with_reducible apply Fr.step); (on_goal 2 => with_reducible apply rxcRetire_fr); (on_goal 1 => decide))
    | ((with_reducible apply Fr.step); (on_goal 2 => with_reducible apply toNocore_fr); (on_goal 1 => decide))
    | ((with_reducible apply Fr.step); (on_goal 2 => with_reducible apply repairAsk_fr); (on_goal 1 => decide))
    | ((with_reducible apply Fr.step); (on_goal 2 => with_reducible apply takeoverStart_fr); (on_goal 1 => decide))
    | split)

theorem yieldNow_fr {s : State} : ∀ a0, Fr 7395078 s (yieldNow a0 s) := by
  intro a0
  unfold yieldNow
  try dsimp only
  repeat' (first
    | with_reducible exact Fr.refl _ _
    | intro _
    | with_reducible refine Fr.ite ?_ ?_
    | ((with_reducible apply Fr.step); (on_goal 2 => with_reducible apply yieldAt_fr); (on_goal 1 => decide))
    | ((with_reducible apply Fr.step); (on_goal 2 => with_reducible apply drawn_fr); (on_goal 1 => decide))
    | split)

theorem jump_fr {s : State} : ∀ a0 a1, Fr 32768 s (jump a0 a1 s) := by
  intro a0 a1
  unfold jump
  try dsimp only
  repeat' (first
    | with_reducible exact Fr.refl _ _
    | intro _
    | with_reducible refine Fr.ite ?_ ?_
    | (with_reducible refine Fr.upd ?_ ?_; on_goal 2 => (fail_if_success (with_reducible exact Fr.refl _ _)); (constructor <;> first | exact fun h => absurd h (by decide) | exact fun _ => rfl))
    | ((with_reducible apply Fr.step); (on_goal 2 => with_reducible apply activeMod_fr); (on_goal 1 => decide))
    | split)

theorem callOp_fr {s : State} : ∀ a0 a1, Fr 7395078 s (callOp a0 a1 s) := by
  intro a0 a1
  unfold callOp
  try dsimp only
  repeat' (first
    | with_reducible exact Fr.refl _ _
    | intro _
    | with_reducible refine Fr.ite ?_ ?_
    | (with_reducible refine Fr.upd ?_ ?_; on_goal 2 => (fail_if_success (with_reducible exact Fr.refl _ _)); (constructor <;> first | exact fun h => absurd h (by decide) | exact fun _ => rfl))
    | ((with_reducible apply Fr.step); (on_goal 2 => with_reducible apply yieldNow_fr); (on_goal 1 => decide))
    | ((with_reducible apply Fr.step); (on_goal 2 => with_reducible apply jump_fr); (on_goal 1 => decide))
    | split)

theorem atTick_fr {s : State} : ∀ a0, Fr 16 s (atTick a0 s) := by
  intro a0
  unfold atTick
  try dsimp only
  repeat' (first
    | with_reducible exact Fr.refl _ _
    | intro _
    | with_reducible refine Fr.ite ?_ ?_
    | (with_reducible refine Fr.upd ?_ ?_; on_goal 2 => (fail_if_success (with_reducible exact Fr.refl _ _)); (constructor <;> first | exact fun h => absurd h (by decide) | exact fun _ => rfl))
    | split)

theorem gridFire_fr {m : Nat} {s : State} {k : Byte} {i : Nat} {f : GridEntry → State → State}
    (hm : within 16 m = true) (hf : ∀ e s, Fr m s (f e s)) : Fr m s (gridFire k i f s) := by
  unfold gridFire
  split
  · exact Fr.refl _ _
  · dsimp only
    refine Fr.ite ?_ (Fr.ite ?_ ?_)
    · with_reducible exact Fr.weaken hm ((atTick_fr _).trans (Fr.weaken (by decide) (raise_fr _ _ _)))
    · with_reducible exact (Fr.weaken hm ((atTick_fr _).trans (Fr.weaken (by decide) (raise_fr _ _ _)))).trans (hf _ _)
    · with_reducible exact (Fr.weaken hm (atTick_fr _)).trans (hf _ _)
theorem skipped_fr {s : State} : ∀ a0 a1, Fr 0 s (skipped a0 a1 s) := by
  intro a0 a1
  unfold skipped
  try dsimp only
  repeat' (first
    | with_reducible exact Fr.refl _ _
    | intro _
    | with_reducible refine Fr.ite ?_ ?_
    | ((with_reducible apply Fr.step); (on_goal 2 => with_reducible apply raise_fr); (on_goal 1 => decide))
    | split)

theorem onDomain_fr {m : Nat} {s : State} {d k : Nat} {f : State → State} (hm : within 0 m = true)
    (hf : ∀ s, Fr m s (f s)) : Fr m s (onDomain d k f s) := by
  unfold onDomain
  split
  · exact hf s
  · exact Fr.weaken hm (skipped_fr _ _)
theorem vnCycleEnd_fr {s : State} : Fr 256 s (vnCycleEnd s) := by
  unfold vnCycleEnd
  try dsimp only
  repeat' (first
    | with_reducible exact Fr.refl _ _
    | intro _
    | with_reducible refine Fr.foldl _ ?_ ?_
    | with_reducible refine Fr.ite ?_ ?_
    | (with_reducible refine Fr.upd ?_ ?_; on_goal 2 => (fail_if_success (with_reducible exact Fr.refl _ _)); (constructor <;> first | exact fun h => absurd h (by decide) | exact fun _ => rfl))
    | ((with_reducible apply Fr.step); (on_goal 2 => with_reducible apply brMod_fr); (on_goal 1 => decide))
    | ((with_reducible apply Fr.step); (on_goal 2 => with_reducible apply raise_fr); (on_goal 1 => decide))
    | split)

theorem vsyncSend_fr {s : State} : ∀ a0, Fr 2097152 s (vsyncSend a0 s) := by
  intro a0
  unfold vsyncSend
  try dsimp only
  repeat' (first
    | with_reducible exact Fr.refl _ _
    | intro _
    | with_reducible refine Fr.foldl _ ?_ ?_
    | with_reducible refine Fr.ite ?_ ?_
    | ((with_reducible apply Fr.step); (on_goal 2 => with_reducible apply emit_fr); (on_goal 1 => decide))
    | split)

theorem vnStartFire_fr {s : State} : ∀ a0, Fr 2097408 s (vnStartFire a0 s) := by
  intro a0
  unfold vnStartFire
  try dsimp only
  repeat' (first
    | with_reducible exact Fr.refl _ _
    | intro _
    | with_reducible refine Fr.ite ?_ ?_
    | (with_reducible refine Fr.upd ?_ ?_; on_goal 2 => (fail_if_success (with_reducible exact Fr.refl _ _)); (constructor <;> first | exact fun h => absurd h (by decide) | exact fun _ => rfl))
    | ((with_reducible apply Fr.trans); (on_goal 2 => ((with_reducible apply onDomain_fr); (on_goal 1 => decide))))
    | ((with_reducible apply Fr.step); (on_goal 2 => with_reducible apply vnCycleEnd_fr); (on_goal 1 => decide))
    | ((with_reducible apply Fr.step); (on_goal 2 => with_reducible apply vsyncSend_fr); (on_goal 1 => decide))
    | split)

theorem vnStartRun_fr {s : State} : ∀ a0, Fr 2097424 s (vnStartRun a0 s) := by
  intro a0
  unfold vnStartRun
  try dsimp only
  repeat' (first
    | with_reducible exact Fr.refl _ _
    | intro _
    | with_reducible refine Fr.ite ?_ ?_
    | ((with_reducible apply Fr.trans); (on_goal 2 => ((with_reducible apply gridFire_fr); (on_goal 1 => decide))))
    | ((with_reducible apply Fr.step); (on_goal 2 => with_reducible apply vnStartFire_fr); (on_goal 1 => decide))
    | split)

theorem refusedEvent_fr {s : State} : ∀ a0 a1, Fr 0 s (refusedEvent a0 a1 s) := by
  intro a0 a1
  unfold refusedEvent
  try dsimp only
  repeat' (first
    | with_reducible exact Fr.refl _ _
    | intro _
    | with_reducible refine Fr.ite ?_ ?_
    | ((with_reducible apply Fr.step); (on_goal 2 => with_reducible apply raise_fr); (on_goal 1 => decide))
    | split)

theorem chkpOp_fr {s : State} : ∀ a0 a1, Fr 294912 s (chkpOp a0 a1 s) := by
  intro a0 a1
  unfold chkpOp
  try dsimp only
  repeat' (first
    | with_reducible exact Fr.refl _ _
    | intro _
    | with_reducible refine Fr.ite ?_ ?_
    | (with_reducible refine Fr.upd ?_ ?_; on_goal 2 => (fail_if_success (with_reducible exact Fr.refl _ _)); (constructor <;> first | exact fun h => absurd h (by decide) | exact fun _ => rfl))
    | ((with_reducible apply Fr.step); (on_goal 2 => with_reducible apply activeMod_fr); (on_goal 1 => decide))
    | ((with_reducible apply Fr.step); (on_goal 2 => with_reducible apply refusedEvent_fr); (on_goal 1 => decide))
    | split)

theorem bankMod_fr {s : State} : ∀ a0 a1, Fr 524288 s (bankMod a0 a1 s) := by
  intro a0 a1
  unfold bankMod
  try dsimp only
  repeat' (first
    | with_reducible exact Fr.refl _ _
    | intro _
    | with_reducible refine Fr.ite ?_ ?_
    | (with_reducible refine Fr.upd ?_ ?_; on_goal 2 => (fail_if_success (with_reducible exact Fr.refl _ _)); (constructor <;> first | exact fun h => absurd h (by decide) | exact fun _ => rfl))
    | split)

theorem stateLevels_fr {s : State} : ∀ a0 a1, Fr 4 s (stateLevels a0 a1 s) := by
  intro a0 a1
  unfold stateLevels
  try dsimp only
  repeat' (first
    | with_reducible exact Fr.refl _ _
    | intro _
    | with_reducible refine Fr.ite ?_ ?_
    | (with_reducible refine Fr.upd ?_ ?_; on_goal 2 => (fail_if_success (with_reducible exact Fr.refl _ _)); (constructor <;> first | exact fun h => absurd h (by decide) | exact fun _ => rfl))
    | split)

theorem goLimp_fr {s : State} : Fr 14 s (goLimp s) := by
  unfold goLimp
  try dsimp only
  repeat' (first
    | with_reducible exact Fr.refl _ _
    | intro _
    | with_reducible refine Fr.ite ?_ ?_
    | (with_reducible refine Fr.upd ?_ ?_; on_goal 2 => (fail_if_success (with_reducible exact Fr.refl _ _)); (constructor <;> first | exact fun h => absurd h (by decide) | exact fun _ => rfl))
    | ((with_reducible apply Fr.step); (on_goal 2 => with_reducible apply raise_fr); (on_goal 1 => decide))
    | ((with_reducible apply Fr.step); (on_goal 2 => with_reducible apply stateLevels_fr); (on_goal 1 => decide))
    | ((with_reducible apply Fr.step); (on_goal 2 => with_reducible apply transition_fr); (on_goal 1 => decide))
    | split)

theorem vectorApply_fr {s : State} : Fr 4 s (vectorApply s) := by
  unfold vectorApply
  try dsimp only
  repeat' (first
    | with_reducible exact Fr.refl _ _
    | intro _
    | with_reducible refine Fr.ite ?_ ?_
    | (with_reducible refine Fr.upd ?_ ?_; on_goal 2 => (fail_if_success (with_reducible exact Fr.refl _ _)); (constructor <;> first | exact fun h => absurd h (by decide) | exact fun _ => rfl))
    | split)

theorem eraseDone_fr {s : State} : ∀ a0, Fr 393216 s (eraseDone a0 s) := by
  intro a0
  unfold eraseDone
  try dsimp only
  repeat' (first
    | with_reducible exact Fr.refl _ _
    | intro _
    | with_reducible refine Fr.ite ?_ ?_
    | (with_reducible refine Fr.upd ?_ ?_; on_goal 2 => (fail_if_success (with_reducible exact Fr.refl _ _)); (constructor <;> first | exact fun h => absurd h (by decide) | exact fun _ => rfl))
    | ((with_reducible apply Fr.step); (on_goal 2 => with_reducible apply raise_fr); (on_goal 1 => decide))
    | split)

theorem recoverRefresh_fr {s : State} : Fr 393216 s (recoverRefresh s) := by
  unfold recoverRefresh
  try dsimp only
  repeat' (first
    | with_reducible exact Fr.refl _ _
    | intro _
    | with_reducible refine Fr.ite ?_ ?_
    | (with_reducible refine Fr.upd ?_ ?_; on_goal 2 => (fail_if_success (with_reducible exact Fr.refl _ _)); (constructor <;> first | exact fun h => absurd h (by decide) | exact fun _ => rfl))
    | ((with_reducible apply Fr.step); (on_goal 2 => with_reducible apply eraseDone_fr); (on_goal 1 => decide))
    | ((with_reducible apply Fr.step); (on_goal 2 => with_reducible apply raise_fr); (on_goal 1 => decide))
    | split)

theorem recoverErase_fr {s : State} : Fr 393216 s (recoverErase s) := by
  unfold recoverErase
  try dsimp only
  repeat' (first
    | with_reducible exact Fr.refl _ _
    | intro _
    | with_reducible refine Fr.ite ?_ ?_
    | ((with_reducible apply Fr.step); (on_goal 2 => with_reducible apply raise_fr); (on_goal 1 => decide))
    | ((with_reducible apply Fr.step); (on_goal 2 => with_reducible apply eraseDone_fr); (on_goal 1 => decide))
    | split)

theorem journalStart_fr {s : State} : Fr 0 s (journalStart s) := by
  unfold journalStart
  try dsimp only
  repeat' (first
    | with_reducible exact Fr.refl _ _
    | intro _
    | with_reducible refine Fr.elim ?_ ?_
    | with_reducible refine Fr.ite ?_ ?_
    | (with_reducible refine Fr.upd ?_ ?_; on_goal 2 => (fail_if_success (with_reducible exact Fr.refl _ _)); (constructor <;> first | exact fun h => absurd h (by decide) | exact fun _ => rfl))
    | ((with_reducible apply Fr.step); (on_goal 2 => with_reducible apply raise_fr); (on_goal 1 => decide))
    | split)

theorem storeStart_fr {s : State} : Fr 1441792 s (storeStart s) := by
  unfold storeStart
  try dsimp only
  repeat' (first
    | with_reducible exact Fr.refl _ _
    | intro _
    | with_reducible refine Fr.ite ?_ ?_
    | (with_reducible refine Fr.upd ?_ ?_; on_goal 2 => (fail_if_success (with_reducible exact Fr.refl _ _)); (constructor <;> first | exact fun h => absurd h (by decide) | exact fun _ => rfl))
    | ((with_reducible apply Fr.step); (on_goal 2 => with_reducible apply recoverRefresh_fr); (on_goal 1 => decide))
    | ((with_reducible apply Fr.step); (on_goal 2 => with_reducible apply recoverErase_fr); (on_goal 1 => decide))
    | ((with_reducible apply Fr.step); (on_goal 2 => with_reducible apply journalStart_fr); (on_goal 1 => decide))
    | split)

theorem regulatorStart_fr {s : State} : Fr 8 s (regulatorStart s) := by
  unfold regulatorStart
  try dsimp only
  repeat' (first
    | with_reducible exact Fr.refl _ _
    | intro _
    | with_reducible refine Fr.ite ?_ ?_
    | (with_reducible refine Fr.upd ?_ ?_; on_goal 2 => (fail_if_success (with_reducible exact Fr.refl _ _)); (constructor <;> first | exact fun h => absurd h (by decide) | exact fun _ => rfl))
    | split)

theorem wakeFromSleep_fr {s : State} : Fr 1441806 s (wakeFromSleep s) := by
  unfold wakeFromSleep
  try dsimp only
  repeat' (first
    | with_reducible exact Fr.refl _ _
    | intro _
    | with_reducible refine Fr.ite ?_ ?_
    | (with_reducible refine Fr.upd ?_ ?_; on_goal 2 => (fail_if_success (with_reducible exact Fr.refl _ _)); (constructor <;> first | exact fun h => absurd h (by decide) | exact fun _ => rfl))
    | ((with_reducible apply Fr.step); (on_goal 2 => with_reducible apply storeStart_fr); (on_goal 1 => decide))
    | ((with_reducible apply Fr.step); (on_goal 2 => with_reducible apply transition_fr); (on_goal 1 => decide))
    | ((with_reducible apply Fr.step); (on_goal 2 => with_reducible apply raise_fr); (on_goal 1 => decide))
    | ((with_reducible apply Fr.step); (on_goal 2 => with_reducible apply regulatorStart_fr); (on_goal 1 => decide))
    | ((with_reducible apply Fr.step); (on_goal 2 => with_reducible apply stateLevels_fr); (on_goal 1 => decide))
    | split)

theorem sleepLeave_fr {s : State} : Fr 1441806 s (sleepLeave s) := by
  unfold sleepLeave
  try dsimp only
  repeat' (first
    | with_reducible exact Fr.refl _ _
    | intro _
    | with_reducible refine Fr.ite ?_ ?_
    | ((with_reducible apply Fr.step); (on_goal 2 => with_reducible apply wakeFromSleep_fr); (on_goal 1 => decide))
    | split)

theorem lineCheckEnd_fr {s : State} : ∀ a0 a1, Fr 1441806 s (lineCheckEnd a0 a1 s) := by
  intro a0 a1
  unfold lineCheckEnd
  try dsimp only
  repeat' (first
    | with_reducible exact Fr.refl _ _
    | intro _
    | with_reducible refine Fr.elim ?_ ?_
    | with_reducible refine Fr.ite ?_ ?_
    | (with_reducible refine Fr.upd ?_ ?_; on_goal 2 => (fail_if_success (with_reducible exact Fr.refl _ _)); (constructor <;> first | exact fun h => absurd h (by decide) | exact fun _ => rfl))
    | ((with_reducible apply Fr.step); (on_goal 2 => with_reducible apply sleepLeave_fr); (on_goal 1 => decide))
    | split)

theorem drawerSel_fr {s : State} : ∀ a0 a1, Fr 1048576 s (drawerSel a0 a1 s) := by
  intro a0 a1
  unfold drawerSel
  try dsimp only
  repeat' (first
    | with_reducible exact Fr.refl _ _
    | intro _
    | with_reducible refine Fr.ite ?_ ?_
    | (with_reducible refine Fr.upd ?_ ?_; on_goal 2 => (fail_if_success (with_reducible exact Fr.refl _ _)); (constructor <;> first | exact fun h => absurd h (by decide) | exact fun _ => rfl))
    | ((with_reducible apply Fr.step); (on_goal 2 => with_reducible apply drawerMod_fr); (on_goal 1 => decide))
    | ((with_reducible apply Fr.step); (on_goal 2 => with_reducible apply drawerGo_fr); (on_goal 1 => decide))
    | split)

theorem legal_fr {m : Nat} {s : State} {ok : Bool} {f : Core → State → State} {c : Core}
    (hm : within 7395078 m = true) (hf : ∀ s, Fr m s (f c s)) : Fr m s (legal ok f c s) := by
  unfold legal
  split
  · exact hf s
  · exact Fr.weaken hm (yieldNow_fr _)
theorem sessionPut_fr {s : State} : ∀ a0 a1, Fr 1048576 s (sessionPut a0 a1 s) := by
  intro a0 a1
  unfold sessionPut
  try dsimp only
  repeat' (first
    | with_reducible exact Fr.refl _ _
    | intro _
    | with_reducible refine Fr.ite ?_ ?_
    | (with_reducible refine Fr.upd ?_ ?_; on_goal 2 => (fail_if_success (with_reducible exact Fr.refl _ _)); (constructor <;> first | exact fun h => absurd h (by decide) | exact fun _ => rfl))
    | split)

theorem poolSticky_fr {s : State} : ∀ a0, Fr 1024 s (poolSticky a0 s) := by
  intro a0
  unfold poolSticky
  try dsimp only
  repeat' (first
    | with_reducible exact Fr.refl _ _
    | intro _
    | with_reducible refine Fr.ite ?_ ?_
    | (with_reducible refine Fr.upd ?_ ?_; on_goal 2 => (fail_if_success (with_reducible exact Fr.refl _ _)); (constructor <;> first | exact fun h => absurd h (by decide) | exact fun _ => rfl))
    | split)

theorem poolEmpty_fr {s : State} : Fr 1024 s (poolEmpty s) := by
  unfold poolEmpty
  try dsimp only
  repeat' (first
    | with_reducible exact Fr.refl _ _
    | intro _
    | with_reducible refine Fr.ite ?_ ?_
    | ((with_reducible apply Fr.step); (on_goal 2 => with_reducible apply poolSticky_fr); (on_goal 1 => decide))
    | ((with_reducible apply Fr.step); (on_goal 2 => with_reducible apply raise_fr); (on_goal 1 => decide))
    | split)

theorem allocGo_fr {s : State} : ∀ o f first l, Fr 1024 s (allocGo o f first l s) := by
  intro o f first l
  induction l generalizing s first with
  | nil => exact Fr.refl _ _
  | cons b r ih => exact (Fr.weaken (by decide) (bufMod_fr _ _)).trans (ih _)
theorem poolAlloc_fr {s : State} : ∀ a0 a1 a2, Fr 1024 s (poolAlloc a0 a1 a2 s).1 := by
  intro a0 a1 a2
  unfold poolAlloc
  try dsimp only
  repeat' (first
    | with_reducible exact Fr.refl _ _
    | intro _
    | with_reducible refine Fr.ite ?_ ?_
    | (with_reducible refine Fr.upd ?_ ?_; on_goal 2 => (fail_if_success (with_reducible exact Fr.refl _ _)); (constructor <;> first | exact fun h => absurd h (by decide) | exact fun _ => rfl))
    | ((with_reducible apply Fr.step); (on_goal 2 => with_reducible apply poolEmpty_fr); (on_goal 1 => decide))
    | ((with_reducible apply Fr.step); (on_goal 2 => with_reducible apply allocGo_fr); (on_goal 1 => decide))
    | split)

theorem unitsWritten_fr {s : State} : ∀ a0, Fr 1024 s (unitsWritten a0 s) := by
  intro a0
  unfold unitsWritten
  try dsimp only
  repeat' (first
    | with_reducible exact Fr.refl _ _
    | intro _
    | with_reducible refine Fr.ite ?_ ?_
    | (with_reducible refine Fr.upd ?_ ?_; on_goal 2 => (fail_if_success (with_reducible exact Fr.refl _ _)); (constructor <;> first | exact fun h => absurd h (by decide) | exact fun _ => rfl))
    | split)

theorem chainFill_fr {s : State} : ∀ l d, Fr 1024 s (chainFill l d s) := by
  intro l d
  induction l generalizing s d with
  | nil => exact Fr.refl _ _
  | cons b r ih =>
    exact (Fr.step (by decide) (unitsWritten_fr _) (Fr.weaken (by decide) (bufMod_fr _ _))).trans (ih _)
theorem poolStore_fr {s : State} : ∀ a0 a1, Fr 1024 s (poolStore a0 a1 s).1 := by
  intro a0 a1
  unfold poolStore
  try dsimp only
  repeat' (first
    | with_reducible exact Fr.refl _ _
    | intro _
    | with_reducible refine Fr.ite ?_ ?_
    | ((with_reducible apply Fr.step); (on_goal 2 => with_reducible apply poolAlloc_fr); (on_goal 1 => decide))
    | ((with_reducible apply Fr.step); (on_goal 2 => with_reducible apply chainFill_fr); (on_goal 1 => decide))
    | split)

theorem stampPush_fr {s : State} : ∀ a0 a1 a2, Fr 512 s (stampPush a0 a1 a2 s) := by
  intro a0 a1 a2
  unfold stampPush
  try dsimp only
  repeat' (first
    | with_reducible exact Fr.refl _ _
    | intro _
    | with_reducible refine Fr.ite ?_ ?_
    | (with_reducible refine Fr.upd ?_ ?_; on_goal 2 => (fail_if_success (with_reducible exact Fr.refl _ _)); (constructor <;> first | exact fun h => absurd h (by decide) | exact fun _ => rfl))
    | ((with_reducible apply Fr.step); (on_goal 2 => with_reducible apply eqMod_fr); (on_goal 1 => decide))
    | ((with_reducible apply Fr.step); (on_goal 2 => with_reducible apply raise_fr); (on_goal 1 => decide))
    | split)

theorem eqStart_fr {s : State} : ∀ a0, Fr 2097664 s (eqStart a0 s) := by
  intro a0
  unfold eqStart
  try dsimp only
  repeat' (first
    | with_reducible exact Fr.refl _ _
    | intro _
    | with_reducible refine Fr.ite ?_ ?_
    | (with_reducible refine Fr.upd ?_ ?_; on_goal 2 => (fail_if_success (with_reducible exact Fr.refl _ _)); (constructor <;> first | exact fun h => absurd h (by decide) | exact fun _ => rfl))
    | ((with_reducible apply Fr.step); (on_goal 2 => with_reducible apply eqMod_fr); (on_goal 1 => decide))
    | ((with_reducible apply Fr.step); (on_goal 2 => with_reducible apply emit_fr); (on_goal 1 => decide))
    | ((with_reducible apply Fr.step); (on_goal 2 => with_reducible apply stampPush_fr); (on_goal 1 => decide))
    | split)

theorem e0Send_fr {s : State} : ∀ a0 a1, Fr 2098688 s (e0Send a0 a1 s) := by
  intro a0 a1
  unfold e0Send
  try dsimp only
  repeat' (first
    | with_reducible exact Fr.refl _ _
    | intro _
    | with_reducible refine Fr.ite ?_ ?_
    | (with_reducible refine Fr.upd ?_ ?_; on_goal 2 => (fail_if_success (with_reducible exact Fr.refl _ _)); (constructor <;> first | exact fun h => absurd h (by decide) | exact fun _ => rfl))
    | ((with_reducible apply Fr.step); (on_goal 2 => with_reducible apply poolStore_fr); (on_goal 1 => decide))
    | ((with_reducible apply Fr.step); (on_goal 2 => with_reducible apply eqStart_fr); (on_goal 1 => decide))
    | ((with_reducible apply Fr.step); (on_goal 2 => with_reducible apply eqMod_fr); (on_goal 1 => decide))
    | split)

theorem portsStart_fr {s : State} : Fr 2097344 s (portsStart s) := by
  unfold portsStart
  try dsimp only
  repeat' (first
    | with_reducible exact Fr.refl _ _
    | intro _
    | with_reducible refine Fr.foldl _ ?_ ?_
    | with_reducible refine Fr.ite ?_ ?_
    | ((with_reducible apply Fr.step); (on_goal 2 => with_reducible apply portStart_fr); (on_goal 1 => decide))
    | split)

theorem ownAdd_fr {s : State} : ∀ a0, Fr 2097344 s (ownAdd a0 s) := by
  intro a0
  unfold ownAdd
  try dsimp only
  repeat' (first
    | with_reducible exact Fr.refl _ _
    | intro _
    | with_reducible refine Fr.ite ?_ ?_
    | (with_reducible refine Fr.upd ?_ ?_; on_goal 2 => (fail_if_success (with_reducible exact Fr.refl _ _)); (constructor <;> first | exact fun h => absurd h (by decide) | exact fun _ => rfl))
    | ((with_reducible apply Fr.step); (on_goal 2 => with_reducible apply portsStart_fr); (on_goal 1 => decide))
    | split)

theorem pduSend_fr {s : State} : ∀ a0 a1 a2, Fr 2098880 s (pduSend a0 a1 a2 s) := by
  intro a0 a1 a2
  unfold pduSend
  try dsimp only
  repeat' (first
    | with_reducible exact Fr.refl _ _
    | intro _
    | with_reducible refine Fr.ite ?_ ?_
    | (with_reducible refine Fr.upd ?_ ?_; on_goal 2 => (fail_if_success (with_reducible exact Fr.refl _ _)); (constructor <;> first | exact fun h => absurd h (by decide) | exact fun _ => rfl))
    | ((with_reducible apply Fr.step); (on_goal 2 => with_reducible apply e0Send_fr); (on_goal 1 => decide))
    | ((with_reducible apply Fr.step); (on_goal 2 => with_reducible apply ownAdd_fr); (on_goal 1 => decide))
    | split)

theorem pduOpen_fr {s : State} : ∀ a0 a1, Fr 3147456 s (pduOpen a0 a1 s) := by
  intro a0 a1
  unfold pduOpen
  try dsimp only
  repeat' (first
    | with_reducible exact Fr.refl _ _
    | intro _
    | with_reducible refine Fr.ite ?_ ?_
    | (with_reducible refine Fr.upd ?_ ?_; on_goal 2 => (fail_if_success (with_reducible exact Fr.refl _ _)); (constructor <;> first | exact fun h => absurd h (by decide) | exact fun _ => rfl))
    | ((with_reducible apply Fr.step); (on_goal 2 => with_reducible apply sessionPut_fr); (on_goal 1 => decide))
    | ((with_reducible apply Fr.step); (on_goal 2 => with_reducible apply raise_fr); (on_goal 1 => decide))
    | ((with_reducible apply Fr.step); (on_goal 2 => with_reducible apply pduSend_fr); (on_goal 1 => decide))
    | split)

theorem trackPut_fr {s : State} : ∀ a0, Fr 128 s (trackPut a0 s) := by
  intro a0
  unfold trackPut
  try dsimp only
  repeat' (first
    | with_reducible exact Fr.refl _ _
    | intro _
    | with_reducible refine Fr.ite ?_ ?_
    | (with_reducible refine Fr.upd ?_ ?_; on_goal 2 => (fail_if_success (with_reducible exact Fr.refl _ _)); (constructor <;> first | exact fun h => absurd h (by decide) | exact fun _ => rfl))
    | split)

theorem trackMember_fr {s : State} : ∀ im p l e, Fr 128 s (trackMember im p (s, l) e).1 := by
  intro im p l e
  unfold trackMember
  dsimp only
  split
  · exact trackPut_fr _
  · split
    · exact Fr.refl _ _
    · refine Fr.ite (Fr.trans ?_ (Fr.weaken (by decide) (raise_fr _ _ _))) (trackPut_fr _)
      exact trackPut_fr _
theorem sleepWatch_fr {s : State} : Fr 128 s (sleepWatch s) := by
  have hm : ∀ (im : Image) (pl : Bytes) (l : List (TtrRec × Nat)) (a : State × List Nat), Fr 128 s a.1 →
      Fr 128 s (l.foldl (trackMember im pl) a).1 := by
    intro im pl l
    induction l with
    | nil => exact fun _ ha => ha
    | cons e r ih => exact fun a ha => ih _ (ha.trans (trackMember_fr im pl a.2 e))
  unfold sleepWatch
  split
  next t im _ _ =>
    have h2 : Fr 128 s (match s.tf.accepted with
        | some c => (windowRecs s t).foldl (trackMember im c.payload) (s, [])
        | none => (s, [0])).1 := by
      split
      · exact hm _ _ _ _ (Fr.refl _ _)
      · exact Fr.refl _ _
    dsimp only
    refine Fr.ite (Fr.refl _ _) (Fr.ite (Fr.ite (Fr.upd h2 ?_) (Fr.upd h2 ?_))
      (Fr.ite (Fr.step (by decide) (raise_fr _ _ _) (Fr.upd h2 ?_)) (Fr.upd h2 ?_))) <;>
      (constructor <;> first | exact fun h => absurd h (by decide) | exact fun _ => rfl)
  · exact Fr.refl _ _

theorem muteEvent_fr {s : State} : ∀ a0 a1, Fr 0 s (muteEvent a0 a1 s) := by
  intro a0 a1
  unfold muteEvent
  try dsimp only
  repeat' (first
    | with_reducible exact Fr.refl _ _
    | intro _
    | with_reducible refine Fr.elim ?_ ?_
    | with_reducible refine Fr.ite ?_ ?_
    | ((with_reducible apply Fr.step); (on_goal 2 => with_reducible apply raise_fr); (on_goal 1 => decide))
    | split)

theorem setMode_fr {s : State} : ∀ a0, Fr 32 s (setMode a0 s) := by
  intro a0
  unfold setMode
  try dsimp only
  repeat' (first
    | with_reducible exact Fr.refl _ _
    | intro _
    | with_reducible refine Fr.ite ?_ ?_
    | (with_reducible refine Fr.upd ?_ ?_; on_goal 2 => (fail_if_success (with_reducible exact Fr.refl _ _)); (constructor <;> first | exact fun h => absurd h (by decide) | exact fun _ => rfl))
    | ((with_reducible apply Fr.step); (on_goal 2 => with_reducible apply raise_fr); (on_goal 1 => decide))
    | split)

theorem acquireFrom_fr {s : State} : Fr 32 s (acquireFrom s) := by
  unfold acquireFrom
  try dsimp only
  repeat' (first
    | with_reducible exact Fr.refl _ _
    | intro _
    | with_reducible refine Fr.ite ?_ ?_
    | (with_reducible refine Fr.upd ?_ ?_; on_goal 2 => (fail_if_success (with_reducible exact Fr.refl _ _)); (constructor <;> first | exact fun h => absurd h (by decide) | exact fun _ => rfl))
    | split)

theorem amendAdopt_fr {s : State} : ∀ a0 a1 a2, Fr 224 s (amendAdopt a0 a1 a2 s) := by
  intro a0 a1 a2
  unfold amendAdopt
  try dsimp only
  repeat' (first
    | with_reducible exact Fr.refl _ _
    | intro _
    | with_reducible refine Fr.ite ?_ ?_
    | (with_reducible refine Fr.upd ?_ ?_; on_goal 2 => (fail_if_success (with_reducible exact Fr.refl _ _)); (constructor <;> first | exact fun h => absurd h (by decide) | exact fun _ => rfl))
    | ((with_reducible apply Fr.step); (on_goal 2 => with_reducible apply raise_fr); (on_goal 1 => decide))
    | ((with_reducible apply Fr.step); (on_goal 2 => with_reducible apply muteEvent_fr); (on_goal 1 => decide))
    | ((with_reducible apply Fr.step); (on_goal 2 => with_reducible apply setMode_fr); (on_goal 1 => decide))
    | ((with_reducible apply Fr.step); (on_goal 2 => with_reducible apply acquireFrom_fr); (on_goal 1 => decide))
    | split)

theorem chainOwner_fr {s : State} : ∀ a0 a1, Fr 1024 s (chainOwner a0 a1 s) := by
  intro a0 a1
  unfold chainOwner
  try dsimp only
  repeat' (first
    | with_reducible exact Fr.refl _ _
    | intro _
    | with_reducible refine Fr.foldl _ ?_ ?_
    | with_reducible refine Fr.ite ?_ ?_
    | (with_reducible refine Fr.upd ?_ ?_; on_goal 2 => (fail_if_success (with_reducible exact Fr.refl _ _)); (constructor <;> first | exact fun h => absurd h (by decide) | exact fun _ => rfl))
    | ((with_reducible apply Fr.step); (on_goal 2 => with_reducible apply bufMod_fr); (on_goal 1 => decide))
    | split)

theorem postChain_fr {s : State} : ∀ a0 a1 a2 a3, Fr 2098688 s (postChain a0 a1 a2 a3 s).1 := by
  intro a0 a1 a2 a3
  unfold postChain
  try dsimp only
  repeat' (first
    | with_reducible exact Fr.refl _ _
    | intro _
    | with_reducible refine Fr.ite ?_ ?_
    | (with_reducible refine Fr.upd ?_ ?_; on_goal 2 => (fail_if_success (with_reducible exact Fr.refl _ _)); (constructor <;> first | exact fun h => absurd h (by decide) | exact fun _ => rfl))
    | ((with_reducible apply Fr.step); (on_goal 2 => with_reducible apply raise_fr); (on_goal 1 => decide))
    | ((with_reducible apply Fr.step); (on_goal 2 => with_reducible apply chainOwner_fr); (on_goal 1 => decide))
    | ((with_reducible apply Fr.step); (on_goal 2 => with_reducible apply eqStart_fr); (on_goal 1 => decide))
    | ((with_reducible apply Fr.step); (on_goal 2 => with_reducible apply eqMod_fr); (on_goal 1 => decide))
    | split)

theorem eqPostOp_fr {s : State} : ∀ a0 a1 a2 a3, Fr 2131456 s (eqPostOp a0 a1 a2 a3 s) := by
  intro a0 a1 a2 a3
  unfold eqPostOp
  try dsimp only
  repeat' (first
    | with_reducible exact Fr.refl _ _
    | intro _
    | with_reducible refine Fr.ite ?_ ?_
    | (with_reducible refine Fr.upd ?_ ?_; on_goal 2 => (fail_if_success (with_reducible exact Fr.refl _ _)); (constructor <;> first | exact fun h => absurd h (by decide) | exact fun _ => rfl))
    | ((with_reducible apply Fr.step); (on_goal 2 => with_reducible apply postChain_fr); (on_goal 1 => decide))
    | ((with_reducible apply Fr.step); (on_goal 2 => with_reducible apply activeMod_fr); (on_goal 1 => decide))
    | split)

theorem logArmSet_fr {s : State} : ∀ a0 a1, Fr 0 s (logArmSet a0 a1 s) := by
  intro a0 a1
  unfold logArmSet
  try dsimp only
  repeat' (first
    | with_reducible exact Fr.refl _ _
    | intro _
    | with_reducible refine Fr.ite ?_ ?_
    | (with_reducible refine Fr.upd ?_ ?_; on_goal 2 => (fail_if_success (with_reducible exact Fr.refl _ _)); (constructor <;> first | exact fun h => absurd h (by decide) | exact fun _ => rfl))
    | split)

theorem guardCount_fr {s : State} : ∀ a0 a1, Fr 256 s (guardCount a0 a1 s) := by
  intro a0 a1
  unfold guardCount
  try dsimp only
  repeat' (first
    | with_reducible exact Fr.refl _ _
    | intro _
    | with_reducible refine Fr.ite ?_ ?_
    | (with_reducible refine Fr.upd ?_ ?_; on_goal 2 => (fail_if_success (with_reducible exact Fr.refl _ _)); (constructor <;> first | exact fun h => absurd h (by decide) | exact fun _ => rfl))
    | ((with_reducible apply Fr.step); (on_goal 2 => with_reducible apply brMod_fr); (on_goal 1 => decide))
    | ((with_reducible apply Fr.step); (on_goal 2 => with_reducible apply raise_fr); (on_goal 1 => decide))
    | split)

theorem gotMod_fr {s : State} : ∀ a0 a1, Fr 256 s (gotMod a0 a1 s) := by
  intro a0 a1
  unfold gotMod
  try dsimp only
  repeat' (first
    | with_reducible exact Fr.refl _ _
    | intro _
    | with_reducible refine Fr.ite ?_ ?_
    | (with_reducible refine Fr.upd ?_ ?_; on_goal 2 => (fail_if_success (with_reducible exact Fr.refl _ _)); (constructor <;> first | exact fun h => absurd h (by decide) | exact fun _ => rfl))
    | split)

theorem guardianCut_fr {s : State} : ∀ a0, Fr 256 s (guardianCut a0 s) := by
  intro a0
  unfold guardianCut
  try dsimp only
  repeat' (first
    | with_reducible exact Fr.refl _ _
    | intro _
    | with_reducible refine Fr.ite ?_ ?_
    | (with_reducible refine Fr.upd ?_ ?_; on_goal 2 => (fail_if_success (with_reducible exact Fr.refl _ _)); (constructor <;> first | exact fun h => absurd h (by decide) | exact fun _ => rfl))
    | ((with_reducible apply Fr.step); (on_goal 2 => with_reducible apply brMod_fr); (on_goal 1 => decide))
    | ((with_reducible apply Fr.step); (on_goal 2 => with_reducible apply guardCount_fr); (on_goal 1 => decide))
    | ((with_reducible apply Fr.step); (on_goal 2 => with_reducible apply raise_fr); (on_goal 1 => decide))
    | ((with_reducible apply Fr.step); (on_goal 2 => with_reducible apply gotMod_fr); (on_goal 1 => decide))
    | split)

theorem sessionClose_fr {s : State} : ∀ a0 a1, Fr 3147456 s (sessionClose a0 a1 s) := by
  intro a0 a1
  unfold sessionClose
  try dsimp only
  repeat' (first
    | with_reducible exact Fr.refl _ _
    | intro _
    | with_reducible refine Fr.ite ?_ ?_
    | ((with_reducible apply Fr.step); (on_goal 2 => with_reducible apply pduSend_fr); (on_goal 1 => decide))
    | ((with_reducible apply Fr.step); (on_goal 2 => with_reducible apply sessionPut_fr); (on_goal 1 => decide))
    | ((with_reducible apply Fr.step); (on_goal 2 => with_reducible apply sessionDrop_fr); (on_goal 1 => decide))
    | split)

theorem keyGone_fr {s : State} : ∀ a0, Fr 3147456 s (keyGone a0 s) := by
  intro a0
  unfold keyGone
  try dsimp only
  repeat' (first
    | with_reducible exact Fr.refl _ _
    | intro _
    | with_reducible refine Fr.elim ?_ ?_
    | with_reducible refine Fr.ite ?_ ?_
    | ((with_reducible apply Fr.step); (on_goal 2 => with_reducible apply sessionClose_fr); (on_goal 1 => decide))
    | split)

theorem takeoverFail_fr {s : State} : ∀ a0 a1, Fr 7378694 s (takeoverFail a0 a1 s) := by
  intro a0 a1
  unfold takeoverFail
  try dsimp only
  repeat' (first
    | with_reducible exact Fr.refl _ _
    | intro _
    | with_reducible refine Fr.ite ?_ ?_
    | (with_reducible refine Fr.upd ?_ ?_; on_goal 2 => (fail_if_success (with_reducible exact Fr.refl _ _)); (constructor <;> first | exact fun h => absurd h (by decide) | exact fun _ => rfl))
    | ((with_reducible apply Fr.step); (on_goal 2 => with_reducible apply rxcRetire_fr); (on_goal 1 => decide))
    | ((with_reducible apply Fr.step); (on_goal 2 => with_reducible apply toNocore_fr); (on_goal 1 => decide))
    | split)

theorem requestAdd_fr {s : State} : ∀ a0 a1, Fr 64 s (requestAdd a0 a1 s) := by
  intro a0 a1
  unfold requestAdd
  try dsimp only
  repeat' (first
    | with_reducible exact Fr.refl _ _
    | intro _
    | with_reducible refine Fr.ite ?_ ?_
    | (with_reducible refine Fr.upd ?_ ?_; on_goal 2 => (fail_if_success (with_reducible exact Fr.refl _ _)); (constructor <;> first | exact fun h => absurd h (by decide) | exact fun _ => rfl))
    | split)

theorem sendUpdate_fr {s : State} : Fr 2097344 s (sendUpdate s) := by
  unfold sendUpdate
  try dsimp only
  repeat' (first
    | with_reducible exact Fr.refl _ _
    | intro _
    | with_reducible refine Fr.ite ?_ ?_
    | ((with_reducible apply Fr.step); (on_goal 2 => with_reducible apply requestAdd_fr); (on_goal 1 => decide))
    | ((with_reducible apply Fr.step); (on_goal 2 => with_reducible apply hingeOwn_fr); (on_goal 1 => decide))
    | split)

theorem stepComplete_fr {s : State} : ∀ a0, Fr 2097344 s (stepComplete a0 s) := by
  intro a0
  unfold stepComplete
  try dsimp only
  repeat' (first
    | with_reducible exact Fr.refl _ _
    | intro _
    | with_reducible refine Fr.ite ?_ ?_
    | (with_reducible refine Fr.upd ?_ ?_; on_goal 2 => (fail_if_success (with_reducible exact Fr.refl _ _)); (constructor <;> first | exact fun h => absurd h (by decide) | exact fun _ => rfl))
    | ((with_reducible apply Fr.step); (on_goal 2 => with_reducible apply resettle_fr); (on_goal 1 => decide))
    | ((with_reducible apply Fr.step); (on_goal 2 => with_reducible apply hpMod_fr); (on_goal 1 => decide))
    | ((with_reducible apply Fr.step); (on_goal 2 => with_reducible apply sendUpdate_fr); (on_goal 1 => decide))
    | split)

theorem memSettle_fr {s : State} : ∀ a0, Fr 4096 s (memSettle a0 s) := by
  intro a0
  unfold memSettle
  try dsimp only
  repeat' (first
    | with_reducible exact Fr.refl _ _
    | intro _
    | with_reducible refine Fr.ite ?_ ?_
    | (with_reducible refine Fr.upd ?_ ?_; on_goal 2 => (fail_if_success (with_reducible exact Fr.refl _ _)); (constructor <;> first | exact fun h => absurd h (by decide) | exact fun _ => rfl))
    | ((with_reducible apply Fr.step); (on_goal 2 => with_reducible apply chanMod_fr); (on_goal 1 => decide))
    | split)

theorem causeClear_fr {s : State} : ∀ a0 a1, Fr 4096 s (causeClear a0 a1 s) := by
  intro a0 a1
  unfold causeClear
  try dsimp only
  repeat' (first
    | with_reducible exact Fr.refl _ _
    | intro _
    | with_reducible refine Fr.ite ?_ ?_
    | ((with_reducible apply Fr.step); (on_goal 2 => with_reducible apply chanMod_fr); (on_goal 1 => decide))
    | ((with_reducible apply Fr.step); (on_goal 2 => with_reducible apply raise_fr); (on_goal 1 => decide))
    | ((with_reducible apply Fr.step); (on_goal 2 => with_reducible apply memSettle_fr); (on_goal 1 => decide))
    | split)

theorem cold_fr {s : State} : Fr 2097134 s (cold s) := by
  unfold cold
  try dsimp only
  repeat' (first
    | with_reducible exact Fr.refl _ _
    | intro _
    | with_reducible refine Fr.ite ?_ ?_
    | (with_reducible refine Fr.upd ?_ ?_; on_goal 2 => (fail_if_success (with_reducible exact Fr.refl _ _)); (constructor <;> first | exact fun h => absurd h (by decide) | exact fun _ => rfl))
    | split)

theorem revertCancel_fr {s : State} : ∀ a0, Fr 32768 s (revertCancel a0 s) := by
  intro a0
  unfold revertCancel
  try dsimp only
  repeat' (first
    | with_reducible exact Fr.refl _ _
    | intro _
    | with_reducible refine Fr.ite ?_ ?_
    | (with_reducible refine Fr.upd ?_ ?_; on_goal 2 => (fail_if_success (with_reducible exact Fr.refl _ _)); (constructor <;> first | exact fun h => absurd h (by decide) | exact fun _ => rfl))
    | ((with_reducible apply Fr.step); (on_goal 2 => with_reducible apply raise_fr); (on_goal 1 => decide))
    | split)

theorem repairFailed_fr {s : State} : Fr 32768 s (repairFailed s) := by
  unfold repairFailed
  try dsimp only
  repeat' (first
    | with_reducible exact Fr.refl _ _
    | intro _
    | with_reducible refine Fr.ite ?_ ?_
    | (with_reducible refine Fr.upd ?_ ?_; on_goal 2 => (fail_if_success (with_reducible exact Fr.refl _ _)); (constructor <;> first | exact fun h => absurd h (by decide) | exact fun _ => rfl))
    | ((with_reducible apply Fr.step); (on_goal 2 => with_reducible apply revertCancel_fr); (on_goal 1 => decide))
    | split)

theorem repairPassed_fr {s : State} : Fr 49152 s (repairPassed s) := by
  unfold repairPassed
  try dsimp only
  repeat' (first
    | with_reducible exact Fr.refl _ _
    | intro _
    | with_reducible refine Fr.elim ?_ ?_
    | with_reducible refine Fr.ite ?_ ?_
    | (with_reducible refine Fr.upd ?_ ?_; on_goal 2 => (fail_if_success (with_reducible exact Fr.refl _ _)); (constructor <;> first | exact fun h => absurd h (by decide) | exact fun _ => rfl))
    | ((with_reducible apply Fr.step); (on_goal 2 => with_reducible apply raise_fr); (on_goal 1 => decide))
    | ((with_reducible apply Fr.step); (on_goal 2 => with_reducible apply repairAsk_fr); (on_goal 1 => decide))
    | split)

theorem repairEnd_fr {s : State} : ∀ a0, Fr 49152 s (repairEnd a0 s) := by
  intro a0
  unfold repairEnd
  try dsimp only
  repeat' (first
    | with_reducible exact Fr.refl _ _
    | intro _
    | with_reducible refine Fr.ite ?_ ?_
    | (with_reducible refine Fr.upd ?_ ?_; on_goal 2 => (fail_if_success (with_reducible exact Fr.refl _ _)); (constructor <;> first | exact fun h => absurd h (by decide) | exact fun _ => rfl))
    | ((with_reducible apply Fr.step); (on_goal 2 => with_reducible apply repairFailed_fr); (on_goal 1 => decide))
    | ((with_reducible apply Fr.step); (on_goal 2 => with_reducible apply repairAsk_fr); (on_goal 1 => decide))
    | ((with_reducible apply Fr.step); (on_goal 2 => with_reducible apply repairPassed_fr); (on_goal 1 => decide))
    | split)

theorem planSwitch_fr {s : State} : ∀ a0 a1, Fr 4 s (planSwitch a0 a1 s) := by
  intro a0 a1
  unfold planSwitch
  try dsimp only
  repeat' (first
    | with_reducible exact Fr.refl _ _
    | intro _
    | with_reducible refine Fr.ite ?_ ?_
    | (with_reducible refine Fr.upd ?_ ?_; on_goal 2 => (fail_if_success (with_reducible exact Fr.refl _ _)); (constructor <;> first | exact fun h => absurd h (by decide) | exact fun _ => rfl))
    | split)

theorem planFire_fr {s : State} : ∀ a0 a1, Fr 4 s (planFire a0 a1 s) := by
  intro a0 a1
  unfold planFire
  try dsimp only
  repeat' (first
    | with_reducible exact Fr.refl _ _
    | intro _
    | with_reducible refine Fr.ite ?_ ?_
    | ((with_reducible apply Fr.step); (on_goal 2 => with_reducible apply planSwitch_fr); (on_goal 1 => decide))
    | split)

theorem pwrOffRun_fr {s : State} : ∀ a0, Fr 20 s (pwrOffRun a0 s) := by
  intro a0
  unfold pwrOffRun
  try dsimp only
  repeat' (first
    | with_reducible exact Fr.refl _ _
    | intro _
    | with_reducible refine Fr.ite ?_ ?_
    | ((with_reducible apply Fr.trans); (on_goal 2 => ((with_reducible apply gridFire_fr); (on_goal 1 => decide))))
    | ((with_reducible apply Fr.step); (on_goal 2 => with_reducible apply planFire_fr); (on_goal 1 => decide))
    | split)

theorem begin__fr {s : State} : ∀ a0, Fr 2097168 s (begin_ a0 s) := by
  intro a0
  unfold begin_
  try dsimp only
  repeat' (first
    | with_reducible exact Fr.refl _ _
    | intro _
    | with_reducible refine Fr.ite ?_ ?_
    | (with_reducible refine Fr.upd ?_ ?_; on_goal 2 => (fail_if_success (with_reducible exact Fr.refl _ _)); (constructor <;> first | exact fun h => absurd h (by decide) | exact fun _ => rfl))
    | split)

theorem cmdDone_fr {s : State} : ∀ a0 a1 a2, Fr 524288 s (cmdDone a0 a1 a2 s) := by
  intro a0 a1 a2
  unfold cmdDone
  try dsimp only
  repeat' (first
    | with_reducible exact Fr.refl _ _
    | intro _
    | with_reducible refine Fr.ite ?_ ?_
    | ((with_reducible apply Fr.step); (on_goal 2 => with_reducible apply cmdState_fr); (on_goal 1 => decide))
    | split)

theorem jobEnd_fr {s : State} : ∀ a0 a1, Fr 786432 s (jobEnd a0 a1 s) := by
  intro a0 a1
  unfold jobEnd
  try dsimp only
  repeat' (first
    | with_reducible exact Fr.refl _ _
    | intro _
    | with_reducible refine Fr.ite ?_ ?_
    | (with_reducible refine Fr.upd ?_ ?_; on_goal 2 => (fail_if_success (with_reducible exact Fr.refl _ _)); (constructor <;> first | exact fun h => absurd h (by decide) | exact fun _ => rfl))
    | ((with_reducible apply Fr.step); (on_goal 2 => with_reducible apply cmdState_fr); (on_goal 1 => decide))
    | split)

theorem verifierPower_fr {s : State} : ∀ a0, Fr 4 s (verifierPower a0 s) := by
  intro a0
  unfold verifierPower
  try dsimp only
  repeat' (first
    | with_reducible exact Fr.refl _ _
    | intro _
    | with_reducible refine Fr.ite ?_ ?_
    | (with_reducible refine Fr.upd ?_ ?_; on_goal 2 => (fail_if_success (with_reducible exact Fr.refl _ _)); (constructor <;> first | exact fun h => absurd h (by decide) | exact fun _ => rfl))
    | split)

theorem refEnd_fr {s : State} : ∀ a0, Fr 786432 s (refEnd a0 s) := by
  intro a0
  unfold refEnd
  try dsimp only
  repeat' (first
    | with_reducible exact Fr.refl _ _
    | intro _
    | with_reducible refine Fr.ite ?_ ?_
    | ((with_reducible apply Fr.step); (on_goal 2 => with_reducible apply jobEnd_fr); (on_goal 1 => decide))
    | ((with_reducible apply Fr.step); (on_goal 2 => with_reducible apply raise_fr); (on_goal 1 => decide))
    | split)

theorem jobMod_fr {s : State} : ∀ a0, Fr 262144 s (jobMod a0 s) := by
  intro a0
  unfold jobMod
  try dsimp only
  repeat' (first
    | with_reducible exact Fr.refl _ _
    | intro _
    | with_reducible refine Fr.ite ?_ ?_
    | (with_reducible refine Fr.upd ?_ ?_; on_goal 2 => (fail_if_success (with_reducible exact Fr.refl _ _)); (constructor <;> first | exact fun h => absurd h (by decide) | exact fun _ => rfl))
    | split)

theorem nvReport_fr {s : State} : ∀ a0 a1, Fr 262144 s (nvReport a0 a1 s) := by
  intro a0 a1
  unfold nvReport
  try dsimp only
  repeat' (first
    | with_reducible exact Fr.refl _ _
    | intro _
    | with_reducible refine Fr.foldl _ ?_ ?_
    | with_reducible refine Fr.ite ?_ ?_
    | (with_reducible refine Fr.upd ?_ ?_; on_goal 2 => (fail_if_success (with_reducible exact Fr.refl _ _)); (constructor <;> first | exact fun h => absurd h (by decide) | exact fun _ => rfl))
    | ((with_reducible apply Fr.step); (on_goal 2 => with_reducible apply raise_fr); (on_goal 1 => decide))
    | split)

theorem refPick_fr {s : State} : ∀ n, Fr 786432 s (refPick n s) := by
  intro n
  induction n generalizing s with
  | zero => exact Fr.refl _ _
  | succ n ih =>
    unfold refPick
    split
    · exact Fr.refl _ _
    · dsimp only
      refine Fr.ite (Fr.weaken (by decide) (refEnd_fr _)) (Fr.ite ?_ (Fr.ite ?_ ?_))
      · exact (Fr.weaken (by decide) (jobMod_fr _)).trans (ih)
      · exact (Fr.step (by decide) (jobMod_fr _) (Fr.weaken (by decide) (nvReport_fr _ _))).trans (ih)
      · exact Fr.weaken (by decide) (jobMod_fr _)
theorem jobBegin_fr {s : State} : ∀ a0, Fr 786436 s (jobBegin a0 s) := by
  intro a0
  unfold jobBegin
  try dsimp only
  repeat' (first
    | with_reducible exact Fr.refl _ _
    | intro _
    | with_reducible refine Fr.ite ?_ ?_
    | (with_reducible refine Fr.upd ?_ ?_; on_goal 2 => (fail_if_success (with_reducible exact Fr.refl _ _)); (constructor <;> first | exact fun h => absurd h (by decide) | exact fun _ => rfl))
    | ((with_reducible apply Fr.step); (on_goal 2 => with_reducible apply cmdState_fr); (on_goal 1 => decide))
    | ((with_reducible apply Fr.step); (on_goal 2 => with_reducible apply jobEnd_fr); (on_goal 1 => decide))
    | ((with_reducible apply Fr.step); (on_goal 2 => with_reducible apply raise_fr); (on_goal 1 => decide))
    | ((with_reducible apply Fr.step); (on_goal 2 => with_reducible apply verifierPower_fr); (on_goal 1 => decide))
    | ((with_reducible apply Fr.step); (on_goal 2 => with_reducible apply refPick_fr); (on_goal 1 => decide))
    | split)

theorem chkpSaveStart_fr {s : State} : ∀ a0, Fr 786436 s (chkpSaveStart a0 s) := by
  intro a0
  unfold chkpSaveStart
  try dsimp only
  repeat' (first
    | with_reducible exact Fr.refl _ _
    | intro _
    | with_reducible refine Fr.ite ?_ ?_
    | (with_reducible refine Fr.upd ?_ ?_; on_goal 2 => (fail_if_success (with_reducible exact Fr.refl _ _)); (constructor <;> first | exact fun h => absurd h (by decide) | exact fun _ => rfl))
    | ((with_reducible apply Fr.step); (on_goal 2 => with_reducible apply cmdDone_fr); (on_goal 1 => decide))
    | ((with_reducible apply Fr.step); (on_goal 2 => with_reducible apply jobBegin_fr); (on_goal 1 => decide))
    | split)

theorem nvStart_fr {s : State} : ∀ a0, Fr 786436 s (nvStart a0 s) := by
  intro a0
  unfold nvStart
  try dsimp only
  repeat' (first
    | with_reducible exact Fr.refl _ _
    | intro _
    | with_reducible refine Fr.ite ?_ ?_
    | (with_reducible refine Fr.upd ?_ ?_; on_goal 2 => (fail_if_success (with_reducible exact Fr.refl _ _)); (constructor <;> first | exact fun h => absurd h (by decide) | exact fun _ => rfl))
    | ((with_reducible apply Fr.step); (on_goal 2 => with_reducible apply cmdDone_fr); (on_goal 1 => decide))
    | ((with_reducible apply Fr.step); (on_goal 2 => with_reducible apply chkpSaveStart_fr); (on_goal 1 => decide))
    | ((with_reducible apply Fr.step); (on_goal 2 => with_reducible apply jobBegin_fr); (on_goal 1 => decide))
    | split)

theorem coreLoadReport_fr {s : State} : Fr 262144 s (coreLoadReport s) := by
  unfold coreLoadReport
  try dsimp only
  repeat' (first
    | with_reducible exact Fr.refl _ _
    | intro _
    | with_reducible refine Fr.foldl _ ?_ ?_
    | with_reducible refine Fr.ite ?_ ?_
    | ((with_reducible apply Fr.step); (on_goal 2 => with_reducible apply nvReport_fr); (on_goal 1 => decide))
    | split)

theorem rxcLoadDone_fr {s : State} : Fr 294912 s (rxcLoadDone s) := by
  unfold rxcLoadDone
  try dsimp only
  repeat' (first
    | with_reducible exact Fr.refl _ _
    | intro _
    | with_reducible refine Fr.ite ?_ ?_
    | (with_reducible refine Fr.upd ?_ ?_; on_goal 2 => (fail_if_success (with_reducible exact Fr.refl _ _)); (constructor <;> first | exact fun h => absurd h (by decide) | exact fun _ => rfl))
    | ((with_reducible apply Fr.step); (on_goal 2 => with_reducible apply coreLoadReport_fr); (on_goal 1 => decide))
    | ((with_reducible apply Fr.step); (on_goal 2 => with_reducible apply raise_fr); (on_goal 1 => decide))
    | split)

theorem messageWindowStart_fr {s : State} : Fr 2097360 s (messageWindowStart s) := by
  unfold messageWindowStart
  try dsimp only
  repeat' (first
    | with_reducible exact Fr.refl _ _
    | intro _
    | with_reducible refine Fr.ite ?_ ?_
    | (with_reducible refine Fr.upd ?_ ?_; on_goal 2 => (fail_if_success (with_reducible exact Fr.refl _ _)); (constructor <;> first | exact fun h => absurd h (by decide) | exact fun _ => rfl))
    | ((with_reducible apply Fr.step); (on_goal 2 => with_reducible apply portsStart_fr); (on_goal 1 => decide))
    | split)

theorem rxReturn_fr {s : State} : ∀ a0, Fr 1024 s (rxReturn a0 s) := by
  intro a0
  unfold rxReturn
  try dsimp only
  repeat' (first
    | with_reducible exact Fr.refl _ _
    | intro _
    | with_reducible refine Fr.ite ?_ ?_
    | (with_reducible refine Fr.upd ?_ ?_; on_goal 2 => (fail_if_success (with_reducible exact Fr.refl _ _)); (constructor <;> first | exact fun h => absurd h (by decide) | exact fun _ => rfl))
    | split)

theorem rxDropped_fr {s : State} : ∀ a0 a1, Fr 512 s (rxDropped a0 a1 s) := by
  intro a0 a1
  unfold rxDropped
  try dsimp only
  repeat' (first
    | with_reducible exact Fr.refl _ _
    | intro _
    | with_reducible refine Fr.ite ?_ ?_
    | (with_reducible refine Fr.upd ?_ ?_; on_goal 2 => (fail_if_success (with_reducible exact Fr.refl _ _)); (constructor <;> first | exact fun h => absurd h (by decide) | exact fun _ => rfl))
    | ((with_reducible apply Fr.step); (on_goal 2 => with_reducible apply raise_fr); (on_goal 1 => decide))
    | ((with_reducible apply Fr.step); (on_goal 2 => with_reducible apply eqMod_fr); (on_goal 1 => decide))
    | split)

theorem pduReject_fr {s : State} : ∀ a0 a1 a2 a3, Fr 2098880 s (pduReject a0 a1 a2 a3 s) := by
  intro a0 a1 a2 a3
  unfold pduReject
  try dsimp only
  repeat' (first
    | with_reducible exact Fr.refl _ _
    | intro _
    | with_reducible refine Fr.ite ?_ ?_
    | ((with_reducible apply Fr.step); (on_goal 2 => with_reducible apply raise_fr); (on_goal 1 => decide))
    | ((with_reducible apply Fr.step); (on_goal 2 => with_reducible apply pduSend_fr); (on_goal 1 => decide))
    | split)

theorem openSession_fr {s : State} : ∀ a0 a1, Fr 1310720 s (openSession a0 a1 s) := by
  intro a0 a1
  unfold openSession
  try dsimp only
  repeat' (first
    | with_reducible exact Fr.refl _ _
    | intro _
    | with_reducible refine Fr.ite ?_ ?_
    | (with_reducible refine Fr.upd ?_ ?_; on_goal 2 => (fail_if_success (with_reducible exact Fr.refl _ _)); (constructor <;> first | exact fun h => absurd h (by decide) | exact fun _ => rfl))
    | ((with_reducible apply Fr.step); (on_goal 2 => with_reducible apply sessionPut_fr); (on_goal 1 => decide))
    | split)

theorem pduArrive_fr {s : State} : ∀ a0 a1 a2, Fr 3409600 s (pduArrive a0 a1 a2 s) := by
  intro a0 a1 a2
  unfold pduArrive
  try dsimp only
  repeat' (first
    | with_reducible exact Fr.refl _ _
    | intro _
    | with_reducible refine Fr.ite ?_ ?_
    | (with_reducible refine Fr.upd ?_ ?_; on_goal 2 => (fail_if_success (with_reducible exact Fr.refl _ _)); (constructor <;> first | exact fun h => absurd h (by decide) | exact fun _ => rfl))
    | ((with_reducible apply Fr.step); (on_goal 2 => with_reducible apply pduReject_fr); (on_goal 1 => decide))
    | ((with_reducible apply Fr.step); (on_goal 2 => with_reducible apply openSession_fr); (on_goal 1 => decide))
    | split)

theorem shDiscard_fr {s : State} : ∀ a0, Fr 2048 s (shDiscard a0 s) := by
  intro a0
  unfold shDiscard
  try dsimp only
  repeat' (first
    | with_reducible exact Fr.refl _ _
    | intro _
    | with_reducible refine Fr.ite ?_ ?_
    | (with_reducible refine Fr.upd ?_ ?_; on_goal 2 => (fail_if_success (with_reducible exact Fr.refl _ _)); (constructor <;> first | exact fun h => absurd h (by decide) | exact fun _ => rfl))
    | ((with_reducible apply Fr.step); (on_goal 2 => with_reducible apply raise_fr); (on_goal 1 => decide))
    | split)

theorem shNoRoute_fr {s : State} : Fr 2048 s (shNoRoute s) := by
  unfold shNoRoute
  try dsimp only
  repeat' (first
    | with_reducible exact Fr.refl _ _
    | intro _
    | with_reducible refine Fr.ite ?_ ?_
    | (with_reducible refine Fr.upd ?_ ?_; on_goal 2 => (fail_if_success (with_reducible exact Fr.refl _ _)); (constructor <;> first | exact fun h => absurd h (by decide) | exact fun _ => rfl))
    | ((with_reducible apply Fr.step); (on_goal 2 => with_reducible apply raise_fr); (on_goal 1 => decide))
    | split)

theorem shToBackbone_fr {s : State} : ∀ a0 a1 a2 a3, Fr 2100928 s (shToBackbone a0 a1 a2 a3 s) := by
  intro a0 a1 a2 a3
  unfold shToBackbone
  try dsimp only
  repeat' (first
    | with_reducible exact Fr.refl _ _
    | intro _
    | with_reducible refine Fr.ite ?_ ?_
    | (with_reducible refine Fr.upd ?_ ?_; on_goal 2 => (fail_if_success (with_reducible exact Fr.refl _ _)); (constructor <;> first | exact fun h => absurd h (by decide) | exact fun _ => rfl))
    | ((with_reducible apply Fr.step); (on_goal 2 => with_reducible apply chainFree_fr); (on_goal 1 => decide))
    | ((with_reducible apply Fr.step); (on_goal 2 => with_reducible apply shDiscard_fr); (on_goal 1 => decide))
    | ((with_reducible apply Fr.step); (on_goal 2 => with_reducible apply shNoRoute_fr); (on_goal 1 => decide))
    | ((with_reducible apply Fr.step); (on_goal 2 => with_reducible apply ownAdd_fr); (on_goal 1 => decide))
    | split)

theorem coreQueueFull_fr {s : State} : ∀ a0 a1, Fr 2098688 s (coreQueueFull a0 a1 s) := by
  intro a0 a1
  unfold coreQueueFull
  try dsimp only
  repeat' (first
    | with_reducible exact Fr.refl _ _
    | intro _
    | with_reducible refine Fr.ite ?_ ?_
    | ((with_reducible apply Fr.step); (on_goal 2 => with_reducible apply raise_fr); (on_goal 1 => decide))
    | ((with_reducible apply Fr.step); (on_goal 2 => with_reducible apply chainFree_fr); (on_goal 1 => decide))
    | split)

theorem rxHandOver_fr {s : State} : ∀ a0 a1 a2 a3 a4 a5, Fr 3411648 s (rxHandOver a0 a1 a2 a3 a4 a5 s) := by
  intro a0 a1 a2 a3 a4 a5
  unfold rxHandOver
  try dsimp only
  repeat' (first
    | with_reducible exact Fr.refl _ _
    | intro _
    | with_reducible refine Fr.ite ?_ ?_
    | (with_reducible refine Fr.upd ?_ ?_; on_goal 2 => (fail_if_success (with_reducible exact Fr.refl _ _)); (constructor <;> first | exact fun h => absurd h (by decide) | exact fun _ => rfl))
    | ((with_reducible apply Fr.step); (on_goal 2 => with_reducible apply eqMod_fr); (on_goal 1 => decide))
    | ((with_reducible apply Fr.step); (on_goal 2 => with_reducible apply pduArrive_fr); (on_goal 1 => decide))
    | ((with_reducible apply Fr.step); (on_goal 2 => with_reducible apply chainFree_fr); (on_goal 1 => decide))
    | ((with_reducible apply Fr.step); (on_goal 2 => with_reducible apply shToBackbone_fr); (on_goal 1 => decide))
    | ((with_reducible apply Fr.step); (on_goal 2 => with_reducible apply chainOwner_fr); (on_goal 1 => decide))
    | ((with_reducible apply Fr.step); (on_goal 2 => with_reducible apply coreQueueFull_fr); (on_goal 1 => decide))
    | ((with_reducible apply Fr.step); (on_goal 2 => with_reducible apply rxDropped_fr); (on_goal 1 => decide))
    | split)

theorem rxStore_fr {s : State} : ∀ a0 a1 a2 a3 a4 a5 a6, Fr 3411648 s (rxStore a0 a1 a2 a3 a4 a5 a6 s) := by
  intro a0 a1 a2 a3 a4 a5 a6
  unfold rxStore
  try dsimp only
  repeat' (first
    | with_reducible exact Fr.refl _ _
    | intro _
    | with_reducible refine Fr.ite ?_ ?_
    | (with_reducible refine Fr.upd ?_ ?_; on_goal 2 => (fail_if_success (with_reducible exact Fr.refl _ _)); (constructor <;> first | exact fun h => absurd h (by decide) | exact fun _ => rfl))
    | ((with_reducible apply Fr.step); (on_goal 2 => with_reducible apply rxReturn_fr); (on_goal 1 => decide))
    | ((with_reducible apply Fr.step); (on_goal 2 => with_reducible apply rxDropped_fr); (on_goal 1 => decide))
    | ((with_reducible apply Fr.step); (on_goal 2 => with_reducible apply poolEmpty_fr); (on_goal 1 => decide))
    | ((with_reducible apply Fr.step); (on_goal 2 => with_reducible apply poolAlloc_fr); (on_goal 1 => decide))
    | ((with_reducible apply Fr.step); (on_goal 2 => with_reducible apply chainFill_fr); (on_goal 1 => decide))
    | ((with_reducible apply Fr.step); (on_goal 2 => with_reducible apply bufMod_fr); (on_goal 1 => decide))
    | ((with_reducible apply Fr.step); (on_goal 2 => with_reducible apply rxHandOver_fr); (on_goal 1 => decide))
    | split)

theorem restage_fr {s : State} : ∀ a0, Fr 4096 s (restage a0 s) := by
  intro a0
  unfold restage
  try dsimp only
  repeat' (first
    | with_reducible exact Fr.refl _ _
    | intro _
    | with_reducible refine Fr.ite ?_ ?_
    | (with_reducible refine Fr.upd ?_ ?_; on_goal 2 => (fail_if_success (with_reducible exact Fr.refl _ _)); (constructor <;> first | exact fun h => absurd h (by decide) | exact fun _ => rfl))
    | ((with_reducible apply Fr.step); (on_goal 2 => with_reducible apply chanMod_fr); (on_goal 1 => decide))
    | ((with_reducible apply Fr.step); (on_goal 2 => with_reducible apply causeClear_fr); (on_goal 1 => decide))
    | split)

theorem currentLimitEnd_fr {s : State} : ∀ a0, Fr 4096 s (currentLimitEnd a0 s) := by
  intro a0
  unfold currentLimitEnd
  try dsimp only
  repeat' (first
    | with_reducible exact Fr.refl _ _
    | intro _
    | with_reducible refine Fr.ite ?_ ?_
    | ((with_reducible apply Fr.step); (on_goal 2 => with_reducible apply restage_fr); (on_goal 1 => decide))
    | ((with_reducible apply Fr.step); (on_goal 2 => with_reducible apply causeClear_fr); (on_goal 1 => decide))
    | split)

theorem capture_fr {s : State} : ∀ a0 a1, Fr 4198400 s (capture a0 a1 s) := by
  intro a0 a1
  unfold capture
  try dsimp only
  repeat' (first
    | with_reducible exact Fr.refl _ _
    | intro _
    | with_reducible refine Fr.elim ?_ ?_
    | with_reducible refine Fr.ite ?_ ?_
    | (with_reducible refine Fr.upd ?_ ?_; on_goal 2 => (fail_if_success (with_reducible exact Fr.refl _ _)); (constructor <;> first | exact fun h => absurd h (by decide) | exact fun _ => rfl))
    | ((with_reducible apply Fr.step); (on_goal 2 => with_reducible apply memSettle_fr); (on_goal 1 => decide))
    | ((with_reducible apply Fr.step); (on_goal 2 => with_reducible apply drawn_fr); (on_goal 1 => decide))
    | ((with_reducible apply Fr.step); (on_goal 2 => with_reducible apply chanMod_fr); (on_goal 1 => decide))
    | split)

theorem lineTimeMod_fr {s : State} : ∀ a0 a1, Fr 32 s (lineTimeMod a0 a1 s) := by
  intro a0 a1
  unfold lineTimeMod
  try dsimp only
  repeat' (first
    | with_reducible exact Fr.refl _ _
    | intro _
    | with_reducible refine Fr.ite ?_ ?_
    | (with_reducible refine Fr.upd ?_ ?_; on_goal 2 => (fail_if_success (with_reducible exact Fr.refl _ _)); (constructor <;> first | exact fun h => absurd h (by decide) | exact fun _ => rfl))
    | split)

theorem badCopy_fr {s : State} : ∀ a0 a1, Fr 128 s (badCopy a0 a1 s) := by
  intro a0 a1
  unfold badCopy
  try dsimp only
  repeat' (first
    | with_reducible exact Fr.refl _ _
    | intro _
    | with_reducible refine Fr.ite ?_ ?_
    | (with_reducible refine Fr.upd ?_ ?_; on_goal 2 => (fail_if_success (with_reducible exact Fr.refl _ _)); (constructor <;> first | exact fun h => absurd h (by decide) | exact fun _ => rfl))
    | ((with_reducible apply Fr.step); (on_goal 2 => with_reducible apply raise_fr); (on_goal 1 => decide))
    | split)

theorem topoCheck_fr {s : State} : ∀ a0, Fr 2097344 s (topoCheck a0 s) := by
  intro a0
  unfold topoCheck
  try dsimp only
  repeat' (first
    | with_reducible exact Fr.refl _ _
    | intro _
    | with_reducible refine Fr.ite ?_ ?_
    | (with_reducible refine Fr.upd ?_ ?_; on_goal 2 => (fail_if_success (with_reducible exact Fr.refl _ _)); (constructor <;> first | exact fun h => absurd h (by decide) | exact fun _ => rfl))
    | ((with_reducible apply Fr.step); (on_goal 2 => with_reducible apply raise_fr); (on_goal 1 => decide))
    | ((with_reducible apply Fr.step); (on_goal 2 => with_reducible apply startOwn_fr); (on_goal 1 => decide))
    | split)

theorem measured_fr {s : State} : ∀ a0 a1, Fr 32 s (measured a0 a1 s) := by
  intro a0 a1
  unfold measured
  try dsimp only
  repeat' (first
    | with_reducible exact Fr.refl _ _
    | intro _
    | with_reducible refine Fr.ite ?_ ?_
    | (with_reducible refine Fr.upd ?_ ?_; on_goal 2 => (fail_if_success (with_reducible exact Fr.refl _ _)); (constructor <;> first | exact fun h => absurd h (by decide) | exact fun _ => rfl))
    | split)

theorem acquireCopy_fr {s : State} : ∀ a0 a1 a2, Fr 32 s (acquireCopy a0 a1 a2 s) := by
  intro a0 a1 a2
  unfold acquireCopy
  try dsimp only
  repeat' (first
    | with_reducible exact Fr.refl _ _
    | intro _
    | with_reducible refine Fr.ite ?_ ?_
    | (with_reducible refine Fr.upd ?_ ?_; on_goal 2 => (fail_if_success (with_reducible exact Fr.refl _ _)); (constructor <;> first | exact fun h => absurd h (by decide) | exact fun _ => rfl))
    | ((with_reducible apply Fr.step); (on_goal 2 => with_reducible apply measured_fr); (on_goal 1 => decide))
    | ((with_reducible apply Fr.step); (on_goal 2 => with_reducible apply raise_fr); (on_goal 1 => decide))
    | split)

theorem measureCopy_fr {s : State} : ∀ a0, Fr 32 s (measureCopy a0 s) := by
  intro a0
  unfold measureCopy
  try dsimp only
  repeat' (first
    | with_reducible exact Fr.refl _ _
    | intro _
    | with_reducible refine Fr.ite ?_ ?_
    | ((with_reducible apply Fr.step); (on_goal 2 => with_reducible apply acquireCopy_fr); (on_goal 1 => decide))
    | ((with_reducible apply Fr.step); (on_goal 2 => with_reducible apply measured_fr); (on_goal 1 => decide))
    | split)

theorem acceptCopy_fr {s : State} : ∀ a0, Fr 2097376 s (acceptCopy a0 s) := by
  intro a0
  unfold acceptCopy
  try dsimp only
  repeat' (first
    | with_reducible exact Fr.refl _ _
    | intro _
    | with_reducible refine Fr.ite ?_ ?_
    | (with_reducible refine Fr.upd ?_ ?_; on_goal 2 => (fail_if_success (with_reducible exact Fr.refl _ _)); (constructor <;> first | exact fun h => absurd h (by decide) | exact fun _ => rfl))
    | ((with_reducible apply Fr.step); (on_goal 2 => with_reducible apply topoCheck_fr); (on_goal 1 => decide))
    | ((with_reducible apply Fr.step); (on_goal 2 => with_reducible apply measureCopy_fr); (on_goal 1 => decide))
    | ((with_reducible apply Fr.step); (on_goal 2 => with_reducible apply raise_fr); (on_goal 1 => decide))
    | split)

theorem judge_fr {s : State} : ∀ a0 a1 a2, Fr 2097376 s (judge a0 a1 a2 s) := by
  intro a0 a1 a2
  unfold judge
  try dsimp only
  repeat' (first
    | with_reducible exact Fr.refl _ _
    | intro _
    | with_reducible refine Fr.ite ?_ ?_
    | (with_reducible refine Fr.upd ?_ ?_; on_goal 2 => (fail_if_success (with_reducible exact Fr.refl _ _)); (constructor <;> first | exact fun h => absurd h (by decide) | exact fun _ => rfl))
    | ((with_reducible apply Fr.step); (on_goal 2 => with_reducible apply badCopy_fr); (on_goal 1 => decide))
    | ((with_reducible apply Fr.step); (on_goal 2 => with_reducible apply acceptCopy_fr); (on_goal 1 => decide))
    | split)

theorem shortTurn_fr {s : State} : ∀ a0 a1, Fr 128 s (shortTurn a0 a1 s) := by
  intro a0 a1
  unfold shortTurn
  try dsimp only
  repeat' (first
    | with_reducible exact Fr.refl _ _
    | intro _
    | with_reducible refine Fr.ite ?_ ?_
    | (with_reducible refine Fr.upd ?_ ?_; on_goal 2 => (fail_if_success (with_reducible exact Fr.refl _ _)); (constructor <;> first | exact fun h => absurd h (by decide) | exact fun _ => rfl))
    | ((with_reducible apply Fr.step); (on_goal 2 => with_reducible apply raise_fr); (on_goal 1 => decide))
    | split)

theorem launchLine_fr {s : State} : ∀ a0 a1 a2, Fr 2097376 s (launchLine a0 a1 a2 s) := by
  intro a0 a1 a2
  unfold launchLine
  try dsimp only
  repeat' (first
    | with_reducible exact Fr.refl _ _
    | intro _
    | with_reducible refine Fr.ite ?_ ?_
    | (with_reducible refine Fr.upd ?_ ?_; on_goal 2 => (fail_if_success (with_reducible exact Fr.refl _ _)); (constructor <;> first | exact fun h => absurd h (by decide) | exact fun _ => rfl))
    | ((with_reducible apply Fr.step); (on_goal 2 => with_reducible apply lineTimeMod_fr); (on_goal 1 => decide))
    | ((with_reducible apply Fr.step); (on_goal 2 => with_reducible apply judge_fr); (on_goal 1 => decide))
    | ((with_reducible apply Fr.step); (on_goal 2 => with_reducible apply emit_fr); (on_goal 1 => decide))
    | ((with_reducible apply Fr.step); (on_goal 2 => with_reducible apply shortTurn_fr); (on_goal 1 => decide))
    | split)

theorem shSet_fr {s : State} : ∀ a0 a1, Fr 2048 s (shSet a0 a1 s) := by
  intro a0 a1
  unfold shSet
  try dsimp only
  repeat' (first
    | with_reducible exact Fr.refl _ _
    | intro _
    | with_reducible refine Fr.ite ?_ ?_
    | (with_reducible refine Fr.upd ?_ ?_; on_goal 2 => (fail_if_success (with_reducible exact Fr.refl _ _)); (constructor <;> first | exact fun h => absurd h (by decide) | exact fun _ => rfl))
    | ((with_reducible apply Fr.step); (on_goal 2 => with_reducible apply raise_fr); (on_goal 1 => decide))
    | split)

theorem shCommand_fr {s : State} : ∀ a0 a1, Fr 2048 s (shCommand a0 a1 s) := by
  intro a0 a1
  unfold shCommand
  try dsimp only
  repeat' (first
    | with_reducible exact Fr.refl _ _
    | intro _
    | with_reducible refine Fr.elim ?_ ?_
    | with_reducible refine Fr.ite ?_ ?_
    | (with_reducible refine Fr.upd ?_ ?_; on_goal 2 => (fail_if_success (with_reducible exact Fr.refl _ _)); (constructor <;> first | exact fun h => absurd h (by decide) | exact fun _ => rfl))
    | ((with_reducible apply Fr.step); (on_goal 2 => with_reducible apply shSet_fr); (on_goal 1 => decide))
    | ((with_reducible apply Fr.step); (on_goal 2 => with_reducible apply raise_fr); (on_goal 1 => decide))
    | split)

theorem couplingSet_fr {s : State} : ∀ a0 a1, Fr 64 s (couplingSet a0 a1 s) := by
  intro a0 a1
  unfold couplingSet
  try dsimp only
  repeat' (first
    | with_reducible exact Fr.refl _ _
    | intro _
    | with_reducible refine Fr.ite ?_ ?_
    | (with_reducible refine Fr.upd ?_ ?_; on_goal 2 => (fail_if_success (with_reducible exact Fr.refl _ _)); (constructor <;> first | exact fun h => absurd h (by decide) | exact fun _ => rfl))
    | split)

theorem probePort_fr {s : State} : ∀ a0, Fr 2097344 s (probePort a0 s) := by
  intro a0
  unfold probePort
  try dsimp only
  repeat' (first
    | with_reducible exact Fr.refl _ _
    | intro _
    | with_reducible refine Fr.ite ?_ ?_
    | ((with_reducible apply Fr.step); (on_goal 2 => with_reducible apply hingeOwn_fr); (on_goal 1 => decide))
    | split)

theorem stepPort_fr {s : State} : ∀ a0, Fr 2097344 s (stepPort a0 s) := by
  intro a0
  unfold stepPort
  try dsimp only
  repeat' (first
    | with_reducible exact Fr.refl _ _
    | intro _
    | with_reducible refine Fr.ite ?_ ?_
    | ((with_reducible apply Fr.step); (on_goal 2 => with_reducible apply hingeOwn_fr); (on_goal 1 => decide))
    | split)

theorem linkUp_fr {s : State} : ∀ a0 a1, Fr 2097344 s (linkUp a0 a1 s) := by
  intro a0 a1
  unfold linkUp
  try dsimp only
  repeat' (first
    | with_reducible exact Fr.refl _ _
    | intro _
    | with_reducible refine Fr.elim ?_ ?_
    | with_reducible refine Fr.ite ?_ ?_
    | (with_reducible refine Fr.upd ?_ ?_; on_goal 2 => (fail_if_success (with_reducible exact Fr.refl _ _)); (constructor <;> first | exact fun h => absurd h (by decide) | exact fun _ => rfl))
    | ((with_reducible apply Fr.step); (on_goal 2 => with_reducible apply resettle_fr); (on_goal 1 => decide))
    | ((with_reducible apply Fr.step); (on_goal 2 => with_reducible apply hpMod_fr); (on_goal 1 => decide))
    | ((with_reducible apply Fr.step); (on_goal 2 => with_reducible apply raise_fr); (on_goal 1 => decide))
    | ((with_reducible apply Fr.step); (on_goal 2 => with_reducible apply couplingSet_fr); (on_goal 1 => decide))
    | ((with_reducible apply Fr.step); (on_goal 2 => with_reducible apply probePort_fr); (on_goal 1 => decide))
    | ((with_reducible apply Fr.step); (on_goal 2 => with_reducible apply stepPort_fr); (on_goal 1 => decide))
    | split)

theorem slotMod_fr {s : State} : ∀ a0 a1, Fr 256 s (slotMod a0 a1 s) := by
  intro a0 a1
  unfold slotMod
  try dsimp only
  repeat' (first
    | with_reducible exact Fr.refl _ _
    | intro _
    | with_reducible refine Fr.ite ?_ ?_
    | (with_reducible refine Fr.upd ?_ ?_; on_goal 2 => (fail_if_success (with_reducible exact Fr.refl _ _)); (constructor <;> first | exact fun h => absurd h (by decide) | exact fun _ => rfl))
    | split)

theorem vnCommitFire_fr {s : State} : ∀ a0, Fr 256 s (vnCommitFire a0 s) := by
  intro a0
  unfold vnCommitFire
  try dsimp only
  repeat' (first
    | with_reducible exact Fr.refl _ _
    | intro _
    | with_reducible refine Fr.ite ?_ ?_
    | (with_reducible refine Fr.upd ?_ ?_; on_goal 2 => (fail_if_success (with_reducible exact Fr.refl _ _)); (constructor <;> first | exact fun h => absurd h (by decide) | exact fun _ => rfl))
    | ((with_reducible apply Fr.trans); (on_goal 2 => ((with_reducible apply onDomain_fr); (on_goal 1 => decide))))
    | ((with_reducible apply Fr.step); (on_goal 2 => with_reducible apply slotMod_fr); (on_goal 1 => decide))
    | split)

theorem wakeBurstSend_fr {s : State} : Fr 2097160 s (wakeBurstSend s) := by
  unfold wakeBurstSend
  try dsimp only
  repeat' (first
    | with_reducible exact Fr.refl _ _
    | intro _
    | with_reducible refine Fr.ite ?_ ?_
    | (with_reducible refine Fr.upd ?_ ?_; on_goal 2 => (fail_if_success (with_reducible exact Fr.refl _ _)); (constructor <;> first | exact fun h => absurd h (by decide) | exact fun _ => rfl))
    | ((with_reducible apply Fr.step); (on_goal 2 => with_reducible apply emit_fr); (on_goal 1 => decide))
    | split)

theorem programStart_fr {s : State} : Fr 786436 s (programStart s) := by
  unfold programStart
  try dsimp only
  repeat' (first
    | with_reducible exact Fr.refl _ _
    | intro _
    | with_reducible refine Fr.ite ?_ ?_
    | (with_reducible refine Fr.upd ?_ ?_; on_goal 2 => (fail_if_success (with_reducible exact Fr.refl _ _)); (constructor <;> first | exact fun h => absurd h (by decide) | exact fun _ => rfl))
    | ((with_reducible apply Fr.step); (on_goal 2 => with_reducible apply jobBegin_fr); (on_goal 1 => decide))
    | split)

theorem chkLoad_fr {s : State} : Fr 262144 s (chkLoad s) := by
  unfold chkLoad
  try dsimp only
  repeat' (first
    | with_reducible exact Fr.refl _ _
    | intro _
    | with_reducible refine Fr.ite ?_ ?_
    | (with_reducible refine Fr.upd ?_ ?_; on_goal 2 => (fail_if_success (with_reducible exact Fr.refl _ _)); (constructor <;> first | exact fun h => absurd h (by decide) | exact fun _ => rfl))
    | split)

theorem jnvLoad_fr {s : State} : Fr 262144 s (jnvLoad s) := by
  unfold jnvLoad
  try dsimp only
  repeat' (first
    | with_reducible exact Fr.refl _ _
    | intro _
    | with_reducible refine Fr.ite ?_ ?_
    | (with_reducible refine Fr.upd ?_ ?_; on_goal 2 => (fail_if_success (with_reducible exact Fr.refl _ _)); (constructor <;> first | exact fun h => absurd h (by decide) | exact fun _ => rfl))
    | split)

theorem incReject_fr {s : State} : Fr 0 s (incReject s) := by
  unfold incReject
  try dsimp only
  repeat' (first
    | with_reducible exact Fr.refl _ _
    | intro _
    | with_reducible refine Fr.ite ?_ ?_
    | (with_reducible refine Fr.upd ?_ ?_; on_goal 2 => (fail_if_success (with_reducible exact Fr.refl _ _)); (constructor <;> first | exact fun h => absurd h (by decide) | exact fun _ => rfl))
    | ((with_reducible apply Fr.step); (on_goal 2 => with_reducible apply raise_fr); (on_goal 1 => decide))
    | split)

theorem nvBegin_fr {s : State} : ∀ a0, Fr 262144 s (nvBegin a0 s) := by
  intro a0
  unfold nvBegin
  try dsimp only
  repeat' (first
    | with_reducible exact Fr.refl _ _
    | intro _
    | with_reducible refine Fr.elim ?_ ?_
    | with_reducible refine Fr.ite ?_ ?_
    | (with_reducible refine Fr.upd ?_ ?_; on_goal 2 => (fail_if_success (with_reducible exact Fr.refl _ _)); (constructor <;> first | exact fun h => absurd h (by decide) | exact fun _ => rfl))
    | split)

theorem nvTake_fr {s : State} : ∀ n, Fr 786436 s (nvTake n s) := by
  intro n
  induction n generalizing s with
  | zero => exact Fr.refl _ _
  | succ n ih =>
    have h : Fr 786436 s (programStart (chkLoad (jnvLoad s))) :=
      Fr.step (by decide) programStart_fr (Fr.step (by decide) chkLoad_fr (Fr.weaken (by decide) jnvLoad_fr))
    unfold nvTake
    dsimp only
    refine Fr.ite ((Fr.step (by decide) incReject_fr h).trans ih) ?_
    split
    · exact Fr.step (by decide) (nvBegin_fr _) h
    · exact h
theorem nvKick_fr {s : State} : Fr 786436 s (nvKick s) := by
  unfold nvKick
  try dsimp only
  repeat' (first
    | with_reducible exact Fr.refl _ _
    | intro _
    | with_reducible refine Fr.ite ?_ ?_
    | ((with_reducible apply Fr.step); (on_goal 2 => with_reducible apply nvTake_fr); (on_goal 1 => decide))
    | split)

theorem icountClose_fr {s : State} : ∀ a0, Fr 3147456 s (icountClose a0 s) := by
  intro a0
  unfold icountClose
  try dsimp only
  repeat' (first
    | with_reducible exact Fr.refl _ _
    | intro _
    | with_reducible refine Fr.ite ?_ ?_
    | ((with_reducible apply Fr.step); (on_goal 2 => with_reducible apply sessionClose_fr); (on_goal 1 => decide))
    | split)

theorem adopt_fr {s : State} : ∀ a0 a1 a2, Fr 192 s (adopt a0 a1 a2 s) := by
  intro a0 a1 a2
  unfold adopt
  try dsimp only
  repeat' (first
    | with_reducible exact Fr.refl _ _
    | intro _
    | with_reducible refine Fr.ite ?_ ?_
    | (with_reducible refine Fr.upd ?_ ?_; on_goal 2 => (fail_if_success (with_reducible exact Fr.refl _ _)); (constructor <;> first | exact fun h => absurd h (by decide) | exact fun _ => rfl))
    | ((with_reducible apply Fr.step); (on_goal 2 => with_reducible apply raise_fr); (on_goal 1 => decide))
    | ((with_reducible apply Fr.step); (on_goal 2 => with_reducible apply muteEvent_fr); (on_goal 1 => decide))
    | split)

theorem goSolitary_fr {s : State} : Fr 3147456 s (goSolitary s) := by
  unfold goSolitary
  try dsimp only
  repeat' (first
    | with_reducible exact Fr.refl _ _
    | intro _
    | with_reducible refine Fr.ite ?_ ?_
    | (with_reducible refine Fr.upd ?_ ?_; on_goal 2 => (fail_if_success (with_reducible exact Fr.refl _ _)); (constructor <;> first | exact fun h => absurd h (by decide) | exact fun _ => rfl))
    | ((with_reducible apply Fr.step); (on_goal 2 => with_reducible apply icountClose_fr); (on_goal 1 => decide))
    | ((with_reducible apply Fr.step); (on_goal 2 => with_reducible apply adopt_fr); (on_goal 1 => decide))
    | split)

theorem launchSweep_fr {s : State} : Fr 2097344 s (launchSweep s) := by
  unfold launchSweep
  try dsimp only
  repeat' (first
    | with_reducible exact Fr.refl _ _
    | intro _
    | with_reducible refine Fr.ite ?_ ?_
    | (with_reducible refine Fr.upd ?_ ?_; on_goal 2 => (fail_if_success (with_reducible exact Fr.refl _ _)); (constructor <;> first | exact fun h => absurd h (by decide) | exact fun _ => rfl))
    | ((with_reducible apply Fr.step); (on_goal 2 => with_reducible apply hingeOwn_fr); (on_goal 1 => decide))
    | split)

theorem overflowEnd_fr {s : State} : Fr 64 s (overflowEnd s) := by
  unfold overflowEnd
  try dsimp only
  repeat' (first
    | with_reducible exact Fr.refl _ _
    | intro _
    | with_reducible refine Fr.ite ?_ ?_
    | (with_reducible refine Fr.upd ?_ ?_; on_goal 2 => (fail_if_success (with_reducible exact Fr.refl _ _)); (constructor <;> first | exact fun h => absurd h (by decide) | exact fun _ => rfl))
    | ((with_reducible apply Fr.step); (on_goal 2 => with_reducible apply raise_fr); (on_goal 1 => decide))
    | split)

theorem ttrTake_fr {s : State} : ∀ a0 a1, Fr 64 s (ttrTake a0 a1 s) := by
  intro a0 a1
  unfold ttrTake
  try dsimp only
  repeat' (first
    | with_reducible exact Fr.refl _ _
    | intro _
    | with_reducible refine Fr.ite ?_ ?_
    | (with_reducible refine Fr.upd ?_ ?_; on_goal 2 => (fail_if_success (with_reducible exact Fr.refl _ _)); (constructor <;> first | exact fun h => absurd h (by decide) | exact fun _ => rfl))
    | split)

theorem decideEnd_fr {s : State} : ∀ a0 a1 a2, Fr 2097344 s (decideEnd a0 a1 a2 s) := by
  intro a0 a1 a2
  unfold decideEnd
  try dsimp only
  repeat' (first
    | with_reducible exact Fr.refl _ _
    | intro _
    | with_reducible refine Fr.ite ?_ ?_
    | (with_reducible refine Fr.upd ?_ ?_; on_goal 2 => (fail_if_success (with_reducible exact Fr.refl _ _)); (constructor <;> first | exact fun h => absurd h (by decide) | exact fun _ => rfl))
    | ((with_reducible apply Fr.step); (on_goal 2 => with_reducible apply overflowEnd_fr); (on_goal 1 => decide))
    | ((with_reducible apply Fr.step); (on_goal 2 => with_reducible apply hingeOwn_fr); (on_goal 1 => decide))
    | ((with_reducible apply Fr.step); (on_goal 2 => with_reducible apply ttrTake_fr); (on_goal 1 => decide))
    | split)

theorem hingeFwd_fr {s : State} : ∀ a0 a1 a2, Fr 2097344 s (hingeFwd a0 a1 a2 s) := by
  intro a0 a1 a2
  unfold hingeFwd
  try dsimp only
  repeat' (first
    | with_reducible exact Fr.refl _ _
    | intro _
    | with_reducible refine Fr.foldl _ ?_ ?_
    | with_reducible refine Fr.ite ?_ ?_
    | (with_reducible refine Fr.upd ?_ ?_; on_goal 2 => (fail_if_success (with_reducible exact Fr.refl _ _)); (constructor <;> first | exact fun h => absurd h (by decide) | exact fun _ => rfl))
    | ((with_reducible apply Fr.step); (on_goal 2 => with_reducible apply hingeSend_fr); (on_goal 1 => decide))
    | split)

theorem sweepIn_fr {s : State} : ∀ a0 a1 a2 a3, Fr 2097344 s (sweepIn a0 a1 a2 a3 s) := by
  intro a0 a1 a2 a3
  unfold sweepIn
  try dsimp only
  repeat' (first
    | with_reducible exact Fr.refl _ _
    | intro _
    | with_reducible refine Fr.ite ?_ ?_
    | ((with_reducible apply Fr.step); (on_goal 2 => with_reducible apply decideEnd_fr); (on_goal 1 => decide))
    | ((with_reducible apply Fr.step); (on_goal 2 => with_reducible apply hingeFwd_fr); (on_goal 1 => decide))
    | split)

theorem heldIn_fr {s : State} : ∀ a0, Fr 2097344 s (heldIn a0 s) := by
  intro a0
  unfold heldIn
  try dsimp only
  repeat' (first
    | with_reducible exact Fr.refl _ _
    | intro _
    | with_reducible refine Fr.ite ?_ ?_
    | ((with_reducible apply Fr.step); (on_goal 2 => with_reducible apply sweepIn_fr); (on_goal 1 => decide))
    | split)

theorem probingEnd_fr {s : State} : ∀ a0, Fr 3147456 s (probingEnd a0 s) := by
  intro a0
  unfold probingEnd
  try dsimp only
  repeat' (first
    | with_reducible exact Fr.refl _ _
    | intro _
    | with_reducible refine Fr.foldl _ ?_ ?_
    | with_reducible refine Fr.ite ?_ ?_
    | (with_reducible refine Fr.upd ?_ ?_; on_goal 2 => (fail_if_success (with_reducible exact Fr.refl _ _)); (constructor <;> first | exact fun h => absurd h (by decide) | exact fun _ => rfl))
    | ((with_reducible apply Fr.step); (on_goal 2 => with_reducible apply goSolitary_fr); (on_goal 1 => decide))
    | ((with_reducible apply Fr.step); (on_goal 2 => with_reducible apply launchSweep_fr); (on_goal 1 => decide))
    | ((with_reducible apply Fr.step); (on_goal 2 => with_reducible apply heldIn_fr); (on_goal 1 => decide))
    | ((with_reducible apply Fr.step); (on_goal 2 => with_reducible apply startOwn_fr); (on_goal 1 => decide))
    | split)

theorem benchShow_fr {s : State} : ∀ a0, Fr 16384 s (benchShow a0 s) := by
  intro a0
  unfold benchShow
  try dsimp only
  repeat' (first
    | with_reducible exact Fr.refl _ _
    | intro _
    | with_reducible refine Fr.ite ?_ ?_
    | (with_reducible refine Fr.upd ?_ ?_; on_goal 2 => (fail_if_success (with_reducible exact Fr.refl _ _)); (constructor <;> first | exact fun h => absurd h (by decide) | exact fun _ => rfl))
    | split)

theorem benchService_fr {s : State} : Fr 16384 s (benchService s) := by
  unfold benchService
  try dsimp only
  repeat' (first
    | with_reducible exact Fr.refl _ _
    | intro _
    | with_reducible refine Fr.foldl _ ?_ ?_
    | with_reducible refine Fr.elim ?_ ?_
    | with_reducible refine Fr.ite ?_ ?_
    | (with_reducible refine Fr.upd ?_ ?_; on_goal 2 => (fail_if_success (with_reducible exact Fr.refl _ _)); (constructor <;> first | exact fun h => absurd h (by decide) | exact fun _ => rfl))
    | ((with_reducible apply Fr.step); (on_goal 2 => with_reducible apply raise_fr); (on_goal 1 => decide))
    | ((with_reducible apply Fr.step); (on_goal 2 => with_reducible apply benchShow_fr); (on_goal 1 => decide))
    | split)

theorem stampPop_fr {s : State} : ∀ a0, Fr 512 s (stampPop a0 s) := by
  intro a0
  unfold stampPop
  try dsimp only
  repeat' (first
    | with_reducible exact Fr.refl _ _
    | intro _
    | with_reducible refine Fr.ite ?_ ?_
    | (with_reducible refine Fr.upd ?_ ?_; on_goal 2 => (fail_if_success (with_reducible exact Fr.refl _ _)); (constructor <;> first | exact fun h => absurd h (by decide) | exact fun _ => rfl))
    | ((with_reducible apply Fr.step); (on_goal 2 => with_reducible apply eqMod_fr); (on_goal 1 => decide))
    | split)

theorem txtsPop_fr {s : State} : ∀ a0, Fr 512 s (txtsPop a0 s) := by
  intro a0
  unfold txtsPop
  try dsimp only
  repeat' (first
    | with_reducible exact Fr.refl _ _
    | intro _
    | with_reducible refine Fr.ite ?_ ?_
    | ((with_reducible apply Fr.step); (on_goal 2 => with_reducible apply stampPop_fr); (on_goal 1 => decide))
    | split)

theorem branchOff_fr {s : State} : ∀ a0, Fr 256 s (branchOff a0 s) := by
  intro a0
  unfold branchOff
  try dsimp only
  repeat' (first
    | with_reducible exact Fr.refl _ _
    | intro _
    | with_reducible refine Fr.ite ?_ ?_
    | (with_reducible refine Fr.upd ?_ ?_; on_goal 2 => (fail_if_success (with_reducible exact Fr.refl _ _)); (constructor <;> first | exact fun h => absurd h (by decide) | exact fun _ => rfl))
    | ((with_reducible apply Fr.step); (on_goal 2 => with_reducible apply brMod_fr); (on_goal 1 => decide))
    | split)

theorem branchOn_fr {s : State} : ∀ a0, Fr 256 s (branchOn a0 s) := by
  intro a0
  unfold branchOn
  try dsimp only
  repeat' (first
    | with_reducible exact Fr.refl _ _
    | intro _
    | with_reducible refine Fr.ite ?_ ?_
    | (with_reducible refine Fr.upd ?_ ?_; on_goal 2 => (fail_if_success (with_reducible exact Fr.refl _ _)); (constructor <;> first | exact fun h => absurd h (by decide) | exact fun _ => rfl))
    | ((with_reducible apply Fr.step); (on_goal 2 => with_reducible apply brMod_fr); (on_goal 1 => decide))
    | split)

theorem domHold_fr {s : State} : ∀ a0 a1, Fr 4 s (domHold a0 a1 s) := by
  intro a0 a1
  unfold domHold
  try dsimp only
  repeat' (first
    | with_reducible exact Fr.refl _ _
    | intro _
    | with_reducible refine Fr.ite ?_ ?_
    | (with_reducible refine Fr.upd ?_ ?_; on_goal 2 => (fail_if_success (with_reducible exact Fr.refl _ _)); (constructor <;> first | exact fun h => absurd h (by decide) | exact fun _ => rfl))
    | split)

theorem lockSet_fr {s : State} : ∀ a0 a1, Fr 4096 s (lockSet a0 a1 s) := by
  intro a0 a1
  unfold lockSet
  try dsimp only
  repeat' (first
    | with_reducible exact Fr.refl _ _
    | intro _
    | with_reducible refine Fr.ite ?_ ?_
    | (with_reducible refine Fr.upd ?_ ?_; on_goal 2 => (fail_if_success (with_reducible exact Fr.refl _ _)); (constructor <;> first | exact fun h => absurd h (by decide) | exact fun _ => rfl))
    | ((with_reducible apply Fr.step); (on_goal 2 => with_reducible apply restage_fr); (on_goal 1 => decide))
    | ((with_reducible apply Fr.step); (on_goal 2 => with_reducible apply chanMod_fr); (on_goal 1 => decide))
    | ((with_reducible apply Fr.step); (on_goal 2 => with_reducible apply raise_fr); (on_goal 1 => decide))
    | split)

theorem lockFree_fr {s : State} : ∀ a0, Fr 4096 s (lockFree a0 s) := by
  intro a0
  unfold lockFree
  try dsimp only
  repeat' (first
    | with_reducible exact Fr.refl _ _
    | intro _
    | with_reducible refine Fr.ite ?_ ?_
    | (with_reducible refine Fr.upd ?_ ?_; on_goal 2 => (fail_if_success (with_reducible exact Fr.refl _ _)); (constructor <;> first | exact fun h => absurd h (by decide) | exact fun _ => rfl))
    | ((with_reducible apply Fr.step); (on_goal 2 => with_reducible apply restage_fr); (on_goal 1 => decide))
    | ((with_reducible apply Fr.step); (on_goal 2 => with_reducible apply chanMod_fr); (on_goal 1 => decide))
    | split)

theorem eqOff_fr {s : State} : ∀ a0, Fr 2098688 s (eqOff a0 s) := by
  intro a0
  unfold eqOff
  try dsimp only
  repeat' (first
    | with_reducible exact Fr.refl _ _
    | intro _
    | with_reducible refine Fr.ite ?_ ?_
    | (with_reducible refine Fr.upd ?_ ?_; on_goal 2 => (fail_if_success (with_reducible exact Fr.refl _ _)); (constructor <;> first | exact fun h => absurd h (by decide) | exact fun _ => rfl))
    | ((with_reducible apply Fr.step); (on_goal 2 => with_reducible apply eqDiscard_fr); (on_goal 1 => decide))
    | ((with_reducible apply Fr.step); (on_goal 2 => with_reducible apply pfcAll_fr); (on_goal 1 => decide))
    | ((with_reducible apply Fr.step); (on_goal 2 => with_reducible apply eqMod_fr); (on_goal 1 => decide))
    | split)

theorem eqOn_fr {s : State} : ∀ a0, Fr 2097664 s (eqOn a0 s) := by
  intro a0
  unfold eqOn
  try dsimp only
  repeat' (first
    | with_reducible exact Fr.refl _ _
    | intro _
    | with_reducible refine Fr.ite ?_ ?_
    | (with_reducible refine Fr.upd ?_ ?_; on_goal 2 => (fail_if_success (with_reducible exact Fr.refl _ _)); (constructor <;> first | exact fun h => absurd h (by decide) | exact fun _ => rfl))
    | ((with_reducible apply Fr.step); (on_goal 2 => with_reducible apply pfcCheck_fr); (on_goal 1 => decide))
    | ((with_reducible apply Fr.step); (on_goal 2 => with_reducible apply eqMod_fr); (on_goal 1 => decide))
    | split)

theorem orderAct_fr {s : State} : ∀ a0, Fr 2137860 s (orderAct a0 s) := by
  intro a0
  unfold orderAct
  try dsimp only
  repeat' (first
    | with_reducible exact Fr.refl _ _
    | intro _
    | with_reducible refine Fr.foldl _ ?_ ?_
    | with_reducible refine Fr.ite ?_ ?_
    | (with_reducible refine Fr.upd ?_ ?_; on_goal 2 => (fail_if_success (with_reducible exact Fr.refl _ _)); (constructor <;> first | exact fun h => absurd h (by decide) | exact fun _ => rfl))
    | ((with_reducible apply Fr.step); (on_goal 2 => with_reducible apply branchOff_fr); (on_goal 1 => decide))
    | ((with_reducible apply Fr.step); (on_goal 2 => with_reducible apply branchOn_fr); (on_goal 1 => decide))
    | ((with_reducible apply Fr.step); (on_goal 2 => with_reducible apply domHold_fr); (on_goal 1 => decide))
    | ((with_reducible apply Fr.step); (on_goal 2 => with_reducible apply lockSet_fr); (on_goal 1 => decide))
    | ((with_reducible apply Fr.step); (on_goal 2 => with_reducible apply lockFree_fr); (on_goal 1 => decide))
    | ((with_reducible apply Fr.step); (on_goal 2 => with_reducible apply shCommand_fr); (on_goal 1 => decide))
    | ((with_reducible apply Fr.step); (on_goal 2 => with_reducible apply eqOff_fr); (on_goal 1 => decide))
    | ((with_reducible apply Fr.step); (on_goal 2 => with_reducible apply eqOn_fr); (on_goal 1 => decide))
    | split)

theorem orderRise_fr {s : State} : ∀ a0 a1, Fr 2137860 s (orderRise a0 a1 s) := by
  intro a0 a1
  unfold orderRise
  try dsimp only
  repeat' (first
    | with_reducible exact Fr.refl _ _
    | intro _
    | with_reducible refine Fr.ite ?_ ?_
    | ((with_reducible apply Fr.step); (on_goal 2 => with_reducible apply orderDone_fr); (on_goal 1 => decide))
    | ((with_reducible apply Fr.step); (on_goal 2 => with_reducible apply orderAct_fr); (on_goal 1 => decide))
    | ((with_reducible apply Fr.step); (on_goal 2 => with_reducible apply raise_fr); (on_goal 1 => decide))
    | split)

theorem orderAt_fr {s : State} : ∀ a0 a1 a2, Fr 2203396 s (orderAt a0 a1 a2 s) := by
  intro a0 a1 a2
  unfold orderAt
  try dsimp only
  repeat' (first
    | with_reducible exact Fr.refl _ _
    | intro _
    | with_reducible refine Fr.ite ?_ ?_
    | (with_reducible refine Fr.upd ?_ ?_; on_goal 2 => (fail_if_success (with_reducible exact Fr.refl _ _)); (constructor <;> first | exact fun h => absurd h (by decide) | exact fun _ => rfl))
    | ((with_reducible apply Fr.step); (on_goal 2 => with_reducible apply orderRise_fr); (on_goal 1 => decide))
    | split)

theorem ordersFrom_fr {s : State} : ∀ evs i l, Fr 2203396 s (ordersFrom evs i l s) := by
  intro evs i l
  induction l generalizing i s with
  | nil => exact Fr.refl _ _
  | cons o r ih => exact (Fr.weaken (by decide) (orderAt_fr _ _ _)).trans (ih _)
theorem ordersRun_fr {s : State} : ∀ a0, Fr 2203396 s (ordersRun a0 s) := by
  intro a0
  unfold ordersRun
  try dsimp only
  repeat' (first
    | with_reducible exact Fr.refl _ _
    | intro _
    | with_reducible refine Fr.elim ?_ ?_
    | with_reducible refine Fr.ite ?_ ?_
    | ((with_reducible apply Fr.step); (on_goal 2 => with_reducible apply ordersFrom_fr); (on_goal 1 => decide))
    | split)

theorem drawersCleared_fr {s : State} : ∀ a0, Fr 1048576 s (drawersCleared a0 s) := by
  intro a0
  unfold drawersCleared
  try dsimp only
  repeat' (first
    | with_reducible exact Fr.refl _ _
    | intro _
    | with_reducible refine Fr.ite ?_ ?_
    | (with_reducible refine Fr.upd ?_ ?_; on_goal 2 => (fail_if_success (with_reducible exact Fr.refl _ _)); (constructor <;> first | exact fun h => absurd h (by decide) | exact fun _ => rfl))
    | split)

theorem oplClear_fr {s : State} : ∀ a0, Fr 1048576 s (oplClear a0 s) := by
  intro a0
  unfold oplClear
  try dsimp only
  repeat' (first
    | with_reducible exact Fr.refl _ _
    | intro _
    | with_reducible refine Fr.ite ?_ ?_
    | (with_reducible refine Fr.upd ?_ ?_; on_goal 2 => (fail_if_success (with_reducible exact Fr.refl _ _)); (constructor <;> first | exact fun h => absurd h (by decide) | exact fun _ => rfl))
    | ((with_reducible apply Fr.step); (on_goal 2 => with_reducible apply drawersCleared_fr); (on_goal 1 => decide))
    | ((with_reducible apply Fr.step); (on_goal 2 => with_reducible apply raise_fr); (on_goal 1 => decide))
    | split)

theorem logClear_fr {s : State} : ∀ a0 a1, Fr 1835012 s (logClear a0 a1 s) := by
  intro a0 a1
  unfold logClear
  try dsimp only
  repeat' (first
    | with_reducible exact Fr.refl _ _
    | intro _
    | with_reducible refine Fr.ite ?_ ?_
    | (with_reducible refine Fr.upd ?_ ?_; on_goal 2 => (fail_if_success (with_reducible exact Fr.refl _ _)); (constructor <;> first | exact fun h => absurd h (by decide) | exact fun _ => rfl))
    | ((with_reducible apply Fr.step); (on_goal 2 => with_reducible apply cmdDone_fr); (on_goal 1 => decide))
    | ((with_reducible apply Fr.step); (on_goal 2 => with_reducible apply oplClear_fr); (on_goal 1 => decide))
    | ((with_reducible apply Fr.step); (on_goal 2 => with_reducible apply nvStart_fr); (on_goal 1 => decide))
    | ((with_reducible apply Fr.step); (on_goal 2 => with_reducible apply drawersCleared_fr); (on_goal 1 => decide))
    | split)

theorem twrFrameOp_fr {s : State} : ∀ a0 a1 a2, Fr 32768 s (twrFrameOp a0 a1 a2 s) := by
  intro a0 a1 a2
  unfold twrFrameOp
  try dsimp only
  repeat' (first
    | with_reducible exact Fr.refl _ _
    | intro _
    | with_reducible refine Fr.ite ?_ ?_
    | ((with_reducible apply Fr.step); (on_goal 2 => with_reducible apply activeMod_fr); (on_goal 1 => decide))
    | split)

theorem forceEnd_fr {s : State} : ∀ a0 a1, Fr 4096 s (forceEnd a0 a1 s) := by
  intro a0 a1
  unfold forceEnd
  try dsimp only
  repeat' (first
    | with_reducible exact Fr.refl _ _
    | intro _
    | with_reducible refine Fr.ite ?_ ?_
    | (with_reducible refine Fr.upd ?_ ?_; on_goal 2 => (fail_if_success (with_reducible exact Fr.refl _ _)); (constructor <;> first | exact fun h => absurd h (by decide) | exact fun _ => rfl))
    | ((with_reducible apply Fr.step); (on_goal 2 => with_reducible apply raise_fr); (on_goal 1 => decide))
    | ((with_reducible apply Fr.step); (on_goal 2 => with_reducible apply restage_fr); (on_goal 1 => decide))
    | ((with_reducible apply Fr.step); (on_goal 2 => with_reducible apply chanMod_fr); (on_goal 1 => decide))
    | split)

theorem forceStart_fr {s : State} : ∀ a0 a1 a2, Fr 4096 s (forceStart a0 a1 a2 s) := by
  intro a0 a1 a2
  unfold forceStart
  try dsimp only
  repeat' (first
    | with_reducible exact Fr.refl _ _
    | intro _
    | with_reducible refine Fr.ite ?_ ?_
    | (with_reducible refine Fr.upd ?_ ?_; on_goal 2 => (fail_if_success (with_reducible exact Fr.refl _ _)); (constructor <;> first | exact fun h => absurd h (by decide) | exact fun _ => rfl))
    | ((with_reducible apply Fr.step); (on_goal 2 => with_reducible apply forceEnd_fr); (on_goal 1 => decide))
    | ((with_reducible apply Fr.step); (on_goal 2 => with_reducible apply chanMod_fr); (on_goal 1 => decide))
    | ((with_reducible apply Fr.step); (on_goal 2 => with_reducible apply raise_fr); (on_goal 1 => decide))
    | ((with_reducible apply Fr.step); (on_goal 2 => with_reducible apply restage_fr); (on_goal 1 => decide))
    | split)

theorem atEdge_fr {s : State} : ∀ a0 a1, Fr 16 s (atEdge a0 a1 s) := by
  intro a0 a1
  unfold atEdge
  try dsimp only
  repeat' (first
    | with_reducible exact Fr.refl _ _
    | intro _
    | with_reducible refine Fr.ite ?_ ?_
    | (with_reducible refine Fr.upd ?_ ?_; on_goal 2 => (fail_if_success (with_reducible exact Fr.refl _ _)); (constructor <;> first | exact fun h => absurd h (by decide) | exact fun _ => rfl))
    | split)

theorem wakeLatched_fr {s : State} : ∀ a0, Fr 8 s (wakeLatched a0 s) := by
  intro a0
  unfold wakeLatched
  try dsimp only
  repeat' (first
    | with_reducible exact Fr.refl _ _
    | intro _
    | with_reducible refine Fr.ite ?_ ?_
    | (with_reducible refine Fr.upd ?_ ?_; on_goal 2 => (fail_if_success (with_reducible exact Fr.refl _ _)); (constructor <;> first | exact fun h => absurd h (by decide) | exact fun _ => rfl))
    | split)

theorem burstReceived_fr {s : State} : ∀ a0, Fr 1441806 s (burstReceived a0 s) := by
  intro a0
  unfold burstReceived
  try dsimp only
  repeat' (first
    | with_reducible exact Fr.refl _ _
    | intro _
    | with_reducible refine Fr.ite ?_ ?_
    | (with_reducible refine Fr.upd ?_ ?_; on_goal 2 => (fail_if_success (with_reducible exact Fr.refl _ _)); (constructor <;> first | exact fun h => absurd h (by decide) | exact fun _ => rfl))
    | ((with_reducible apply Fr.step); (on_goal 2 => with_reducible apply sleepLeave_fr); (on_goal 1 => decide))
    | ((with_reducible apply Fr.step); (on_goal 2 => with_reducible apply wakeLatched_fr); (on_goal 1 => decide))
    | split)

theorem wakeFromOff_fr {s : State} : Fr 2097134 s (wakeFromOff s) := by
  unfold wakeFromOff
  try dsimp only
  repeat' (first
    | with_reducible exact Fr.refl _ _
    | intro _
    | with_reducible refine Fr.ite ?_ ?_
    | (with_reducible refine Fr.upd ?_ ?_; on_goal 2 => (fail_if_success (with_reducible exact Fr.refl _ _)); (constructor <;> first | exact fun h => absurd h (by decide) | exact fun _ => rfl))
    | ((with_reducible apply Fr.step); (on_goal 2 => with_reducible apply cold_fr); (on_goal 1 => decide))
    | ((with_reducible apply Fr.step); (on_goal 2 => with_reducible apply storeStart_fr); (on_goal 1 => decide))
    | ((with_reducible apply Fr.step); (on_goal 2 => with_reducible apply raise_fr); (on_goal 1 => decide))
    | ((with_reducible apply Fr.step); (on_goal 2 => with_reducible apply regulatorStart_fr); (on_goal 1 => decide))
    | ((with_reducible apply Fr.step); (on_goal 2 => with_reducible apply stateLevels_fr); (on_goal 1 => decide))
    | ((with_reducible apply Fr.step); (on_goal 2 => with_reducible apply transition_fr); (on_goal 1 => decide))
    | split)

theorem modeSelect_fr {s : State} : ∀ a0, Fr 32 s (modeSelect a0 s) := by
  intro a0
  unfold modeSelect
  try dsimp only
  repeat' (first
    | with_reducible exact Fr.refl _ _
    | intro _
    | with_reducible refine Fr.elim ?_ ?_
    | with_reducible refine Fr.ite ?_ ?_
    | (with_reducible refine Fr.upd ?_ ?_; on_goal 2 => (fail_if_success (with_reducible exact Fr.refl _ _)); (constructor <;> first | exact fun h => absurd h (by decide) | exact fun _ => rfl))
    | ((with_reducible apply Fr.step); (on_goal 2 => with_reducible apply setMode_fr); (on_goal 1 => decide))
    | ((with_reducible apply Fr.step); (on_goal 2 => with_reducible apply raise_fr); (on_goal 1 => decide))
    | split)

theorem poolUncorr_fr {s : State} : Fr 1024 s (poolUncorr s) := by
  unfold poolUncorr
  try dsimp only
  repeat' (first
    | with_reducible exact Fr.refl _ _
    | intro _
    | with_reducible refine Fr.ite ?_ ?_
    | ((with_reducible apply Fr.step); (on_goal 2 => with_reducible apply poolSticky_fr); (on_goal 1 => decide))
    | ((with_reducible apply Fr.step); (on_goal 2 => with_reducible apply raise_fr); (on_goal 1 => decide))
    | split)

theorem unitsRead_fr {s : State} : ∀ a0, Fr 0 s (unitsRead a0 s) := by
  intro a0
  unfold unitsRead
  try dsimp only
  repeat' (first
    | with_reducible exact Fr.refl _ _
    | intro _
    | with_reducible refine Fr.foldl _ ?_ ?_
    | with_reducible refine Fr.ite ?_ ?_
    | ((with_reducible apply Fr.step); (on_goal 2 => with_reducible apply raise_fr); (on_goal 1 => decide))
    | split)

theorem readReport_fr {s : State} : ∀ a0 a1, Fr 1024 s (readReport a0 a1 s) := by
  intro a0 a1
  unfold readReport
  try dsimp only
  repeat' (first
    | with_reducible exact Fr.refl _ _
    | intro _
    | with_reducible refine Fr.ite ?_ ?_
    | ((with_reducible apply Fr.step); (on_goal 2 => with_reducible apply poolUncorr_fr); (on_goal 1 => decide))
    | ((with_reducible apply Fr.step); (on_goal 2 => with_reducible apply unitsRead_fr); (on_goal 1 => decide))
    | split)

theorem rcClear_fr {s : State} : ∀ a0 a1 a2, Fr 1577992 s (rcClear a0 a1 a2 s) := by
  intro a0 a1 a2
  unfold rcClear
  try dsimp only
  repeat' (first
    | with_reducible exact Fr.refl _ _
    | intro _
    | with_reducible refine Fr.ite ?_ ?_
    | (with_reducible refine Fr.upd ?_ ?_; on_goal 2 => (fail_if_success (with_reducible exact Fr.refl _ _)); (constructor <;> first | exact fun h => absurd h (by decide) | exact fun _ => rfl))
    | ((with_reducible apply Fr.step); (on_goal 2 => with_reducible apply bankMod_fr); (on_goal 1 => decide))
    | ((with_reducible apply Fr.step); (on_goal 2 => with_reducible apply chanMod_fr); (on_goal 1 => decide))
    | split)

theorem accessRead_fr {s : State} : ∀ a0 a1, Fr 1577992 s (accessRead a0 a1 s).2.2 := by
  intro a0 a1
  unfold accessRead
  try dsimp only
  repeat' (first
    | with_reducible exact Fr.refl _ _
    | intro _
    | with_reducible refine Fr.ite ?_ ?_
    | ((with_reducible apply Fr.step); (on_goal 2 => with_reducible apply readReport_fr); (on_goal 1 => decide))
    | ((with_reducible apply Fr.step); (on_goal 2 => with_reducible apply rcClear_fr); (on_goal 1 => decide))
    | split)

theorem shadowWrite_fr {s : State} : ∀ a0 a1 a2, Fr 1048576 s (shadowWrite a0 a1 a2 s) := by
  intro a0 a1 a2
  unfold shadowWrite
  try dsimp only
  repeat' (first
    | with_reducible exact Fr.refl _ _
    | intro _
    | with_reducible refine Fr.ite ?_ ?_
    | (with_reducible refine Fr.upd ?_ ?_; on_goal 2 => (fail_if_success (with_reducible exact Fr.refl _ _)); (constructor <;> first | exact fun h => absurd h (by decide) | exact fun _ => rfl))
    | split)

theorem hostRes_fr {s : State} : ∀ a0 a1, Fr 1024 s (hostRes a0 a1 s) := by
  intro a0 a1
  unfold hostRes
  try dsimp only
  repeat' (first
    | with_reducible exact Fr.refl _ _
    | intro _
    | with_reducible refine Fr.ite ?_ ?_
    | (with_reducible refine Fr.upd ?_ ?_; on_goal 2 => (fail_if_success (with_reducible exact Fr.refl _ _)); (constructor <;> first | exact fun h => absurd h (by decide) | exact fun _ => rfl))
    | split)

theorem freeChain_fr {s : State} : ∀ a0 a1, Fr 2098688 s (freeChain a0 a1 s).1 := by
  intro a0 a1
  unfold freeChain
  try dsimp only
  repeat' (first
    | with_reducible exact Fr.refl _ _
    | intro _
    | with_reducible refine Fr.ite ?_ ?_
    | ((with_reducible apply Fr.step); (on_goal 2 => with_reducible apply chainFree_fr); (on_goal 1 => decide))
    | ((with_reducible apply Fr.step); (on_goal 2 => with_reducible apply poolSticky_fr); (on_goal 1 => decide))
    | ((with_reducible apply Fr.step); (on_goal 2 => with_reducible apply raise_fr); (on_goal 1 => decide))
    | split)

theorem poolOp_fr {s : State} : Fr 2098688 s (poolOp s) := by
  unfold poolOp
  try dsimp only
  repeat' (first
    | with_reducible exact Fr.refl _ _
    | intro _
    | with_reducible refine Fr.ite ?_ ?_
    | (with_reducible refine Fr.upd ?_ ?_; on_goal 2 => (fail_if_success (with_reducible exact Fr.refl _ _)); (constructor <;> first | exact fun h => absurd h (by decide) | exact fun _ => rfl))
    | ((with_reducible apply Fr.step); (on_goal 2 => with_reducible apply poolAlloc_fr); (on_goal 1 => decide))
    | ((with_reducible apply Fr.step); (on_goal 2 => with_reducible apply hostRes_fr); (on_goal 1 => decide))
    | ((with_reducible apply Fr.step); (on_goal 2 => with_reducible apply freeChain_fr); (on_goal 1 => decide))
    | ((with_reducible apply Fr.step); (on_goal 2 => with_reducible apply postChain_fr); (on_goal 1 => decide))
    | ((with_reducible apply Fr.step); (on_goal 2 => with_reducible apply eqMod_fr); (on_goal 1 => decide))
    | split)

theorem pulse_fr {s : State} : ∀ a0 a1, Fr 3147264 s (pulse a0 a1 s) := by
  intro a0 a1
  unfold pulse
  try dsimp only
  repeat' (first
    | with_reducible exact Fr.refl _ _
    | intro _
    | with_reducible refine Fr.ite ?_ ?_
    | (with_reducible refine Fr.upd ?_ ?_; on_goal 2 => (fail_if_success (with_reducible exact Fr.refl _ _)); (constructor <;> first | exact fun h => absurd h (by decide) | exact fun _ => rfl))
    | ((with_reducible apply Fr.step); (on_goal 2 => with_reducible apply drawerCtrl_fr); (on_goal 1 => decide))
    | ((with_reducible apply Fr.step); (on_goal 2 => with_reducible apply poolOp_fr); (on_goal 1 => decide))
    | ((with_reducible apply Fr.step); (on_goal 2 => with_reducible apply stampPop_fr); (on_goal 1 => decide))
    | split)

theorem refuseEvent_fr {s : State} : ∀ a0 a1 a2, Fr 524288 s (refuseEvent a0 a1 a2 s) := by
  intro a0 a1 a2
  unfold refuseEvent
  try dsimp only
  repeat' (first
    | with_reducible exact Fr.refl _ _
    | intro _
    | with_reducible refine Fr.ite ?_ ?_
    | (with_reducible refine Fr.upd ?_ ?_; on_goal 2 => (fail_if_success (with_reducible exact Fr.refl _ _)); (constructor <;> first | exact fun h => absurd h (by decide) | exact fun _ => rfl))
    | ((with_reducible apply Fr.step); (on_goal 2 => with_reducible apply raise_fr); (on_goal 1 => decide))
    | ((with_reducible apply Fr.step); (on_goal 2 => with_reducible apply bankMod_fr); (on_goal 1 => decide))
    | split)

theorem cmdRefuse_fr {s : State} : ∀ a0 a1 a2 a3, Fr 524288 s (cmdRefuse a0 a1 a2 a3 s) := by
  intro a0 a1 a2 a3
  unfold cmdRefuse
  try dsimp only
  repeat' (first
    | with_reducible exact Fr.refl _ _
    | intro _
    | with_reducible refine Fr.ite ?_ ?_
    | (with_reducible refine Fr.upd ?_ ?_; on_goal 2 => (fail_if_success (with_reducible exact Fr.refl _ _)); (constructor <;> first | exact fun h => absurd h (by decide) | exact fun _ => rfl))
    | ((with_reducible apply Fr.step); (on_goal 2 => with_reducible apply raise_fr); (on_goal 1 => decide))
    | ((with_reducible apply Fr.step); (on_goal 2 => with_reducible apply refuseEvent_fr); (on_goal 1 => decide))
    | ((with_reducible apply Fr.step); (on_goal 2 => with_reducible apply bankMod_fr); (on_goal 1 => decide))
    | split)

theorem cmdEnter_fr {s : State} : ∀ a0 a1 a2, Fr 786432 s (cmdEnter a0 a1 a2 s) := by
  intro a0 a1 a2
  unfold cmdEnter
  try dsimp only
  repeat' (first
    | with_reducible exact Fr.refl _ _
    | intro _
    | with_reducible refine Fr.ite ?_ ?_
    | (with_reducible refine Fr.upd ?_ ?_; on_goal 2 => (fail_if_success (with_reducible exact Fr.refl _ _)); (constructor <;> first | exact fun h => absurd h (by decide) | exact fun _ => rfl))
    | ((with_reducible apply Fr.step); (on_goal 2 => with_reducible apply bankMod_fr); (on_goal 1 => decide))
    | split)

theorem cmdJudge_fr {s : State} : ∀ a0, Fr 786432 s (cmdJudge a0 s) := by
  intro a0
  unfold cmdJudge
  try dsimp only
  repeat' (first
    | with_reducible exact Fr.refl _ _
    | intro _
    | with_reducible refine Fr.ite ?_ ?_
    | ((with_reducible apply Fr.step); (on_goal 2 => with_reducible apply cmdRefuse_fr); (on_goal 1 => decide))
    | ((with_reducible apply Fr.step); (on_goal 2 => with_reducible apply cmdEnter_fr); (on_goal 1 => decide))
    | split)

theorem cmdSubmit_fr {s : State} : ∀ a0 a1, Fr 786432 s (cmdSubmit a0 a1 s) := by
  intro a0 a1
  unfold cmdSubmit
  try dsimp only
  repeat' (first
    | with_reducible exact Fr.refl _ _
    | intro _
    | with_reducible refine Fr.ite ?_ ?_
    | (with_reducible refine Fr.upd ?_ ?_; on_goal 2 => (fail_if_success (with_reducible exact Fr.refl _ _)); (constructor <;> first | exact fun h => absurd h (by decide) | exact fun _ => rfl))
    | ((with_reducible apply Fr.step); (on_goal 2 => with_reducible apply refuseEvent_fr); (on_goal 1 => decide))
    | ((with_reducible apply Fr.step); (on_goal 2 => with_reducible apply bankMod_fr); (on_goal 1 => decide))
    | ((with_reducible apply Fr.step); (on_goal 2 => with_reducible apply cmdJudge_fr); (on_goal 1 => decide))
    | split)

theorem bankWrite_fr {s : State} : ∀ a0 a1 a2, Fr 786432 s (bankWrite a0 a1 a2 s) := by
  intro a0 a1 a2
  unfold bankWrite
  try dsimp only
  repeat' (first
    | with_reducible exact Fr.refl _ _
    | intro _
    | with_reducible refine Fr.ite ?_ ?_
    | (with_reducible refine Fr.upd ?_ ?_; on_goal 2 => (fail_if_success (with_reducible exact Fr.refl _ _)); (constructor <;> first | exact fun h => absurd h (by decide) | exact fun _ => rfl))
    | ((with_reducible apply Fr.step); (on_goal 2 => with_reducible apply bankMod_fr); (on_goal 1 => decide))
    | ((with_reducible apply Fr.step); (on_goal 2 => with_reducible apply cmdSubmit_fr); (on_goal 1 => decide))
    | split)

theorem drawerCur_fr {s : State} : ∀ a0 a1, Fr 1048576 s (drawerCur a0 a1 s) := by
  intro a0 a1
  unfold drawerCur
  try dsimp only
  repeat' (first
    | with_reducible exact Fr.refl _ _
    | intro _
    | with_reducible refine Fr.ite ?_ ?_
    | ((with_reducible apply Fr.step); (on_goal 2 => with_reducible apply drawerGo_fr); (on_goal 1 => decide))
    | split)

theorem bufPut_fr {s : State} : ∀ a0 a1 a2, Fr 1024 s (bufPut a0 a1 a2 s) := by
  intro a0 a1 a2
  unfold bufPut
  try dsimp only
  repeat' (first
    | with_reducible exact Fr.refl _ _
    | intro _
    | with_reducible refine Fr.ite ?_ ?_
    | (with_reducible refine Fr.upd ?_ ?_; on_goal 2 => (fail_if_success (with_reducible exact Fr.refl _ _)); (constructor <;> first | exact fun h => absurd h (by decide) | exact fun _ => rfl))
    | ((with_reducible apply Fr.step); (on_goal 2 => with_reducible apply unitsWritten_fr); (on_goal 1 => decide))
    | ((with_reducible apply Fr.step); (on_goal 2 => with_reducible apply unitsRead_fr); (on_goal 1 => decide))
    | ((with_reducible apply Fr.step); (on_goal 2 => with_reducible apply bufMod_fr); (on_goal 1 => decide))
    | split)

theorem poolRegWrite_fr {s : State} : ∀ a0 a1, Fr 2098688 s (poolRegWrite a0 a1 s) := by
  intro a0 a1
  unfold poolRegWrite
  try dsimp only
  repeat' (first
    | with_reducible exact Fr.refl _ _
    | intro _
    | with_reducible refine Fr.ite ?_ ?_
    | (with_reducible refine Fr.upd ?_ ?_; on_goal 2 => (fail_if_success (with_reducible exact Fr.refl _ _)); (constructor <;> first | exact fun h => absurd h (by decide) | exact fun _ => rfl))
    | ((with_reducible apply Fr.step); (on_goal 2 => with_reducible apply poolOp_fr); (on_goal 1 => decide))
    | ((with_reducible apply Fr.step); (on_goal 2 => with_reducible apply bufMod_fr); (on_goal 1 => decide))
    | ((with_reducible apply Fr.step); (on_goal 2 => with_reducible apply bufPut_fr); (on_goal 1 => decide))
    | split)

theorem rwPut_fr {s : State} : ∀ a0 a1 a2, Fr 3937792 s (rwPut a0 a1 a2 s) := by
  intro a0 a1 a2
  unfold rwPut
  try dsimp only
  repeat' (first
    | with_reducible exact Fr.refl _ _
    | intro _
    | with_reducible refine Fr.ite ?_ ?_
    | (with_reducible refine Fr.upd ?_ ?_; on_goal 2 => (fail_if_success (with_reducible exact Fr.refl _ _)); (constructor <;> first | exact fun h => absurd h (by decide) | exact fun _ => rfl))
    | ((with_reducible apply Fr.step); (on_goal 2 => with_reducible apply bankWrite_fr); (on_goal 1 => decide))
    | ((with_reducible apply Fr.step); (on_goal 2 => with_reducible apply drawerSel_fr); (on_goal 1 => decide))
    | ((with_reducible apply Fr.step); (on_goal 2 => with_reducible apply drawerCur_fr); (on_goal 1 => decide))
    | ((with_reducible apply Fr.step); (on_goal 2 => with_reducible apply chanMod_fr); (on_goal 1 => decide))
    | ((with_reducible apply Fr.step); (on_goal 2 => with_reducible apply poolRegWrite_fr); (on_goal 1 => decide))
    | split)

theorem regWrite_fr {s : State} : ∀ a0 a1 a2 a3, Fr 3937792 s (regWrite a0 a1 a2 a3 s).2 := by
  intro a0 a1 a2 a3
  unfold regWrite
  try dsimp only
  repeat' (first
    | with_reducible exact Fr.refl _ _
    | intro _
    | with_reducible refine Fr.ite ?_ ?_
    | ((with_reducible apply Fr.step); (on_goal 2 => with_reducible apply poolUncorr_fr); (on_goal 1 => decide))
    | ((with_reducible apply Fr.step); (on_goal 2 => with_reducible apply shadowWrite_fr); (on_goal 1 => decide))
    | ((with_reducible apply Fr.step); (on_goal 2 => with_reducible apply pulse_fr); (on_goal 1 => decide))
    | ((with_reducible apply Fr.step); (on_goal 2 => with_reducible apply rwPut_fr); (on_goal 1 => decide))
    | split)

theorem accessWrite_fr {s : State} : ∀ a0 a1 a2, Fr 3937792 s (accessWrite a0 a1 a2 s).2 := by
  intro a0 a1 a2
  unfold accessWrite
  try dsimp only
  repeat' (first
    | with_reducible exact Fr.refl _ _
    | intro _
    | with_reducible refine Fr.ite ?_ ?_
    | ((with_reducible apply Fr.step); (on_goal 2 => with_reducible apply regWrite_fr); (on_goal 1 => decide))
    | split)

theorem pduAccess_fr {s : State} : ∀ a0 a1 a2, Fr 3937800 s (pduAccess a0 a1 a2 s).2.2 := by
  intro a0 a1 a2
  unfold pduAccess
  try dsimp only
  repeat' (first
    | with_reducible exact Fr.refl _ _
    | intro _
    | with_reducible refine Fr.ite ?_ ?_
    | ((with_reducible apply Fr.step); (on_goal 2 => with_reducible apply accessRead_fr); (on_goal 1 => decide))
    | ((with_reducible apply Fr.step); (on_goal 2 => with_reducible apply accessWrite_fr); (on_goal 1 => decide))
    | split)

theorem pduOps_fr {s : State} : ∀ p o n, Fr 3937800 s (pduOps p o n s).2 := by
  intro p o n
  induction n generalizing s o with
  | zero => exact Fr.refl _ _
  | succ n ih => exact (Fr.weaken (by decide) (pduAccess_fr _ _ _)).trans (ih _)
theorem pduRequest_fr {s : State} : ∀ a0 a1, Fr 3937992 s (pduRequest a0 a1 s) := by
  intro a0 a1
  unfold pduRequest
  try dsimp only
  repeat' (first
    | with_reducible exact Fr.refl _ _
    | intro _
    | with_reducible refine Fr.ite ?_ ?_
    | (with_reducible refine Fr.upd ?_ ?_; on_goal 2 => (fail_if_success (with_reducible exact Fr.refl _ _)); (constructor <;> first | exact fun h => absurd h (by decide) | exact fun _ => rfl))
    | ((with_reducible apply Fr.step); (on_goal 2 => with_reducible apply pduSend_fr); (on_goal 1 => decide))
    | ((with_reducible apply Fr.step); (on_goal 2 => with_reducible apply pduOps_fr); (on_goal 1 => decide))
    | ((with_reducible apply Fr.step); (on_goal 2 => with_reducible apply sessionPut_fr); (on_goal 1 => decide))
    | split)

theorem pduVerified_fr {s : State} : ∀ a0, Fr 3937992 s (pduVerified a0 s) := by
  intro a0
  unfold pduVerified
  try dsimp only
  repeat' (first
    | with_reducible exact Fr.refl _ _
    | intro _
    | with_reducible refine Fr.ite ?_ ?_
    | ((with_reducible apply Fr.step); (on_goal 2 => with_reducible apply pduReject_fr); (on_goal 1 => decide))
    | ((with_reducible apply Fr.step); (on_goal 2 => with_reducible apply pduOpen_fr); (on_goal 1 => decide))
    | ((with_reducible apply Fr.step); (on_goal 2 => with_reducible apply pduRequest_fr); (on_goal 1 => decide))
    | ((with_reducible apply Fr.step); (on_goal 2 => with_reducible apply sessionDrop_fr); (on_goal 1 => decide))
    | split)

theorem taskTime_fr {s : State} : ∀ a0, Fr 32768 s (taskTime a0 s) := by
  intro a0
  unfold taskTime
  try dsimp only
  repeat' (first
    | with_reducible exact Fr.refl _ _
    | intro _
    | with_reducible refine Fr.ite ?_ ?_
    | (with_reducible refine Fr.upd ?_ ?_; on_goal 2 => (fail_if_success (with_reducible exact Fr.refl _ _)); (constructor <;> first | exact fun h => absurd h (by decide) | exact fun _ => rfl))
    | ((with_reducible apply Fr.step); (on_goal 2 => with_reducible apply activeMod_fr); (on_goal 1 => decide))
    | split)

theorem continueFrom_fr {s : State} : ∀ p, Fr 7395078 s (continueFrom p s) := by
  intro p
  unfold continueFrom
  split
  · exact Fr.refl _ _
  · have h : ∀ e f, Fr 7395078 s (taskTime e (activeMod f s)) := fun e f =>
      Fr.step (by decide) (taskTime_fr _) (Fr.weaken (by decide) (activeMod_fr _))
    exact Fr.ite (Fr.step (by decide) (yieldAt_fr _ _ _) (h _ _)) (h _ _)
theorem retOp_fr {s : State} : ∀ a0, Fr 7395078 s (retOp a0 s) := by
  intro a0
  unfold retOp
  try dsimp only
  repeat' (first
    | with_reducible exact Fr.refl _ _
    | intro _
    | with_reducible refine Fr.ite ?_ ?_
    | (with_reducible refine Fr.upd ?_ ?_; on_goal 2 => (fail_if_success (with_reducible exact Fr.refl _ _)); (constructor <;> first | exact fun h => absurd h (by decide) | exact fun _ => rfl))
    | ((with_reducible apply Fr.step); (on_goal 2 => with_reducible apply yieldNow_fr); (on_goal 1 => decide))
    | ((with_reducible apply Fr.step); (on_goal 2 => with_reducible apply continueFrom_fr); (on_goal 1 => decide))
    | ((with_reducible apply Fr.step); (on_goal 2 => with_reducible apply activeMod_fr); (on_goal 1 => decide))
    | split)

theorem ownLeave_fr {s : State} : Fr 2100864 s (ownLeave s) := by
  unfold ownLeave
  try dsimp only
  repeat' (first
    | with_reducible exact Fr.refl _ _
    | intro _
    | with_reducible refine Fr.elim ?_ ?_
    | with_reducible refine Fr.ite ?_ ?_
    | (with_reducible refine Fr.upd ?_ ?_; on_goal 2 => (fail_if_success (with_reducible exact Fr.refl _ _)); (constructor <;> first | exact fun h => absurd h (by decide) | exact fun _ => rfl))
    | ((with_reducible apply Fr.step); (on_goal 2 => with_reducible apply chainFree_fr); (on_goal 1 => decide))
    | split)

theorem tfLaunch_fr {s : State} : Fr 2097376 s (tfLaunch s) := by
  unfold tfLaunch
  try dsimp only
  repeat' (first
    | with_reducible exact Fr.refl _ _
    | intro _
    | with_reducible refine Fr.ite ?_ ?_
    | (with_reducible refine Fr.upd ?_ ?_; on_goal 2 => (fail_if_success (with_reducible exact Fr.refl _ _)); (constructor <;> first | exact fun h => absurd h (by decide) | exact fun _ => rfl))
    | ((with_reducible apply Fr.step); (on_goal 2 => with_reducible apply raise_fr); (on_goal 1 => decide))
    | ((with_reducible apply Fr.step); (on_goal 2 => with_reducible apply launchLine_fr); (on_goal 1 => decide))
    | split)

theorem instr_fr {m : Nat} {s : State} {n : Nat} {f : Core → State → State} (hm : within 32784 m = true)
    (hf : ∀ c s, Fr m s (f c s)) : Fr m s (instr n f s) := by
  unfold instr
  split
  · exact Fr.refl _ _
  · refine Fr.ite (Fr.refl _ _) (Fr.trans (Fr.weaken hm ?_) (hf _ _))
    exact Fr.step (by decide) (taskTime_fr _) (Fr.weaken (by decide) (atEdge_fr _ _))
theorem service_fr {m : Nat} {s : State} {ok : Bool} {f : Core → State → State} (hm : within 7395094 m = true)
    (hf : ∀ c s, Fr m s (f c s)) : Fr m s (service ok f s) := by
  unfold service
  have hw : ∀ {a}, within a 7395094 = true → within a m = true := fun h => by
    have h1 := hm
    unfold within at *
    simp only [beq_iff_eq] at *
    rw [← h, Nat.and_assoc, h1]
  refine instr_fr (hw (by decide)) (fun c s => legal_fr (hw (by decide)) (fun s => ?_))
  exact (hf c s).trans (Fr.weaken (hw (by decide)) (continueFrom_fr _))
theorem verifyRefused_fr {s : State} : ∀ a0 a1 a2, Fr 262144 s (verifyRefused a0 a1 a2 s) := by
  intro a0 a1 a2
  unfold verifyRefused
  try dsimp only
  repeat' (first
    | with_reducible exact Fr.refl _ _
    | intro _
    | with_reducible refine Fr.ite ?_ ?_
    | (with_reducible refine Fr.upd ?_ ?_; on_goal 2 => (fail_if_success (with_reducible exact Fr.refl _ _)); (constructor <;> first | exact fun h => absurd h (by decide) | exact fun _ => rfl))
    | ((with_reducible apply Fr.step); (on_goal 2 => with_reducible apply raise_fr); (on_goal 1 => decide))
    | split)

theorem incUnitDone_fr {s : State} : Fr 0 s (incUnitDone s) := by
  unfold incUnitDone
  try dsimp only
  repeat' (first
    | with_reducible exact Fr.refl _ _
    | intro _
    | with_reducible refine Fr.ite ?_ ?_
    | (with_reducible refine Fr.upd ?_ ?_; on_goal 2 => (fail_if_success (with_reducible exact Fr.refl _ _)); (constructor <;> first | exact fun h => absurd h (by decide) | exact fun _ => rfl))
    | ((with_reducible apply Fr.step); (on_goal 2 => with_reducible apply raise_fr); (on_goal 1 => decide))
    | split)

theorem jnvAdvance_fr {s : State} : Fr 393216 s (jnvAdvance s) := by
  unfold jnvAdvance
  try dsimp only
  repeat' (first
    | with_reducible exact Fr.refl _ _
    | intro _
    | with_reducible refine Fr.ite ?_ ?_
    | (with_reducible refine Fr.upd ?_ ?_; on_goal 2 => (fail_if_success (with_reducible exact Fr.refl _ _)); (constructor <;> first | exact fun h => absurd h (by decide) | exact fun _ => rfl))
    | split)

theorem jnvMark_fr {s : State} : ∀ a0, Fr 0 s (jnvMark a0 s) := by
  intro a0
  unfold jnvMark
  try dsimp only
  repeat' (first
    | with_reducible exact Fr.refl _ _
    | intro _
    | with_reducible refine Fr.ite ?_ ?_
    | (with_reducible refine Fr.upd ?_ ?_; on_goal 2 => (fail_if_success (with_reducible exact Fr.refl _ _)); (constructor <;> first | exact fun h => absurd h (by decide) | exact fun _ => rfl))
    | ((with_reducible apply Fr.step); (on_goal 2 => with_reducible apply execPrune_fr); (on_goal 1 => decide))
    | ((with_reducible apply Fr.step); (on_goal 2 => with_reducible apply entryUpdate_fr); (on_goal 1 => decide))
    | split)

theorem jnvUnitDone_fr {s : State} : Fr 393216 s (jnvUnitDone s) := by
  unfold jnvUnitDone
  try dsimp only
  repeat' (first
    | with_reducible exact Fr.refl _ _
    | intro _
    | with_reducible refine Fr.ite ?_ ?_
    | (with_reducible refine Fr.upd ?_ ?_; on_goal 2 => (fail_if_success (with_reducible exact Fr.refl _ _)); (constructor <;> first | exact fun h => absurd h (by decide) | exact fun _ => rfl))
    | ((with_reducible apply Fr.step); (on_goal 2 => with_reducible apply jnvAdvance_fr); (on_goal 1 => decide))
    | ((with_reducible apply Fr.step); (on_goal 2 => with_reducible apply jnvMark_fr); (on_goal 1 => decide))
    | split)

theorem cfgDone_fr {s : State} : Fr 393216 s (cfgDone s) := by
  unfold cfgDone
  try dsimp only
  repeat' (first
    | with_reducible exact Fr.refl _ _
    | intro _
    | with_reducible refine Fr.ite ?_ ?_
    | (with_reducible refine Fr.upd ?_ ?_; on_goal 2 => (fail_if_success (with_reducible exact Fr.refl _ _)); (constructor <;> first | exact fun h => absurd h (by decide) | exact fun _ => rfl))
    | split)

theorem chkUnitDone_fr {s : State} : Fr 786432 s (chkUnitDone s) := by
  unfold chkUnitDone
  try dsimp only
  repeat' (first
    | with_reducible exact Fr.refl _ _
    | intro _
    | with_reducible refine Fr.elim ?_ ?_
    | with_reducible refine Fr.ite ?_ ?_
    | (with_reducible refine Fr.upd ?_ ?_; on_goal 2 => (fail_if_success (with_reducible exact Fr.refl _ _)); (constructor <;> first | exact fun h => absurd h (by decide) | exact fun _ => rfl))
    | ((with_reducible apply Fr.step); (on_goal 2 => with_reducible apply jobEnd_fr); (on_goal 1 => decide))
    | split)

theorem refStep_fr {s : State} : Fr 786432 s (refStep s) := by
  unfold refStep
  try dsimp only
  repeat' (first
    | with_reducible exact Fr.refl _ _
    | intro _
    | with_reducible refine Fr.ite ?_ ?_
    | (with_reducible refine Fr.upd ?_ ?_; on_goal 2 => (fail_if_success (with_reducible exact Fr.refl _ _)); (constructor <;> first | exact fun h => absurd h (by decide) | exact fun _ => rfl))
    | ((with_reducible apply Fr.step); (on_goal 2 => with_reducible apply jobMod_fr); (on_goal 1 => decide))
    | ((with_reducible apply Fr.step); (on_goal 2 => with_reducible apply refPick_fr); (on_goal 1 => decide))
    | split)

theorem jobDone_fr {s : State} : ∀ a0, Fr 917512 s (jobDone a0 s) := by
  intro a0
  unfold jobDone
  try dsimp only
  repeat' (first
    | with_reducible exact Fr.refl _ _
    | intro _
    | with_reducible refine Fr.ite ?_ ?_
    | (with_reducible refine Fr.upd ?_ ?_; on_goal 2 => (fail_if_success (with_reducible exact Fr.refl _ _)); (constructor <;> first | exact fun h => absurd h (by decide) | exact fun _ => rfl))
    | ((with_reducible apply Fr.step); (on_goal 2 => with_reducible apply jobEnd_fr); (on_goal 1 => decide))
    | ((with_reducible apply Fr.step); (on_goal 2 => with_reducible apply raise_fr); (on_goal 1 => decide))
    | ((with_reducible apply Fr.step); (on_goal 2 => with_reducible apply incCleared_fr); (on_goal 1 => decide))
    | split)

theorem hostDone_fr {s : State} : ∀ a0, Fr 917512 s (hostDone a0 s) := by
  intro a0
  unfold hostDone
  try dsimp only
  repeat' (first
    | with_reducible exact Fr.refl _ _
    | intro _
    | with_reducible refine Fr.ite ?_ ?_
    | (with_reducible refine Fr.upd ?_ ?_; on_goal 2 => (fail_if_success (with_reducible exact Fr.refl _ _)); (constructor <;> first | exact fun h => absurd h (by decide) | exact fun _ => rfl))
    | ((with_reducible apply Fr.step); (on_goal 2 => with_reducible apply jobEnd_fr); (on_goal 1 => decide))
    | ((with_reducible apply Fr.step); (on_goal 2 => with_reducible apply refStep_fr); (on_goal 1 => decide))
    | ((with_reducible apply Fr.step); (on_goal 2 => with_reducible apply jobMod_fr); (on_goal 1 => decide))
    | ((with_reducible apply Fr.step); (on_goal 2 => with_reducible apply jobDone_fr); (on_goal 1 => decide))
    | split)

theorem nvFinish_fr {s : State} : ∀ a0, Fr 5111816 s (nvFinish a0 s) := by
  intro a0
  unfold nvFinish
  try dsimp only
  repeat' (first
    | with_reducible exact Fr.refl _ _
    | intro _
    | with_reducible refine Fr.ite ?_ ?_
    | (with_reducible refine Fr.upd ?_ ?_; on_goal 2 => (fail_if_success (with_reducible exact Fr.refl _ _)); (constructor <;> first | exact fun h => absurd h (by decide) | exact fun _ => rfl))
    | ((with_reducible apply Fr.step); (on_goal 2 => with_reducible apply eraseDone_fr); (on_goal 1 => decide))
    | ((with_reducible apply Fr.step); (on_goal 2 => with_reducible apply raise_fr); (on_goal 1 => decide))
    | ((with_reducible apply Fr.step); (on_goal 2 => with_reducible apply nvUndefine_fr); (on_goal 1 => decide))
    | ((with_reducible apply Fr.step); (on_goal 2 => with_reducible apply incUnitDone_fr); (on_goal 1 => decide))
    | ((with_reducible apply Fr.step); (on_goal 2 => with_reducible apply jnvUnitDone_fr); (on_goal 1 => decide))
    | ((with_reducible apply Fr.step); (on_goal 2 => with_reducible apply cfgDone_fr); (on_goal 1 => decide))
    | ((with_reducible apply Fr.step); (on_goal 2 => with_reducible apply chkUnitDone_fr); (on_goal 1 => decide))
    | ((with_reducible apply Fr.step); (on_goal 2 => with_reducible apply hostDone_fr); (on_goal 1 => decide))
    | split)

theorem tfCycle_fr {s : State} : Fr 160 s (tfCycle s) := by
  unfold tfCycle
  try dsimp only
  repeat' (first
    | with_reducible exact Fr.refl _ _
    | intro _
    | with_reducible refine Fr.ite ?_ ?_
    | (with_reducible refine Fr.upd ?_ ?_; on_goal 2 => (fail_if_success (with_reducible exact Fr.refl _ _)); (constructor <;> first | exact fun h => absurd h (by decide) | exact fun _ => rfl))
    | split)

theorem logeOp_fr {s : State} : ∀ a0 a1 a2 a3 a4, Fr 32768 s (logeOp a0 a1 a2 a3 a4 s) := by
  intro a0 a1 a2 a3 a4
  unfold logeOp
  try dsimp only
  repeat' (first
    | with_reducible exact Fr.refl _ _
    | intro _
    | with_reducible refine Fr.ite ?_ ?_
    | (with_reducible refine Fr.upd ?_ ?_; on_goal 2 => (fail_if_success (with_reducible exact Fr.refl _ _)); (constructor <;> first | exact fun h => absurd h (by decide) | exact fun _ => rfl))
    | ((with_reducible apply Fr.step); (on_goal 2 => with_reducible apply activeMod_fr); (on_goal 1 => decide))
    | ((with_reducible apply Fr.step); (on_goal 2 => with_reducible apply raiseTo_fr); (on_goal 1 => decide))
    | split)

theorem selectUn_fr {s : State} : ∀ a0 a1, Fr 8192 s (selectUn a0 a1 s) := by
  intro a0 a1
  unfold selectUn
  try dsimp only
  repeat' (first
    | with_reducible exact Fr.refl _ _
    | intro _
    | with_reducible refine Fr.ite ?_ ?_
    | (with_reducible refine Fr.upd ?_ ?_; on_goal 2 => (fail_if_success (with_reducible exact Fr.refl _ _)); (constructor <;> first | exact fun h => absurd h (by decide) | exact fun _ => rfl))
    | ((with_reducible apply Fr.step); (on_goal 2 => with_reducible apply raise_fr); (on_goal 1 => decide))
    | split)

theorem runSupply_fr {s : State} : ∀ a0, Fr 8200 s (runSupply a0 s) := by
  intro a0
  unfold runSupply
  try dsimp only
  repeat' (first
    | with_reducible exact Fr.refl _ _
    | intro _
    | with_reducible refine Fr.ite ?_ ?_
    | (with_reducible refine Fr.upd ?_ ?_; on_goal 2 => (fail_if_success (with_reducible exact Fr.refl _ _)); (constructor <;> first | exact fun h => absurd h (by decide) | exact fun _ => rfl))
    | ((with_reducible apply Fr.step); (on_goal 2 => with_reducible apply selectUn_fr); (on_goal 1 => decide))
    | ((with_reducible apply Fr.step); (on_goal 2 => with_reducible apply raise_fr); (on_goal 1 => decide))
    | split)

theorem tempSensorPlausible_fr {s : State} : ∀ a0, Fr 8192 s (tempSensorPlausible a0 s) := by
  intro a0
  unfold tempSensorPlausible
  try dsimp only
  repeat' (first
    | with_reducible exact Fr.refl _ _
    | intro _
    | with_reducible refine Fr.ite ?_ ?_
    | (with_reducible refine Fr.upd ?_ ?_; on_goal 2 => (fail_if_success (with_reducible exact Fr.refl _ _)); (constructor <;> first | exact fun h => absurd h (by decide) | exact fun _ => rfl))
    | split)

theorem eqAutonegFail_fr {s : State} : ∀ a0, Fr 0 s (eqAutonegFail a0 s) := by
  intro a0
  unfold eqAutonegFail
  try dsimp only
  repeat' (first
    | with_reducible exact Fr.refl _ _
    | intro _
    | with_reducible refine Fr.ite ?_ ?_
    | ((with_reducible apply Fr.step); (on_goal 2 => with_reducible apply raise_fr); (on_goal 1 => decide))
    | split)

theorem revertHoldoffEnd_fr {s : State} : Fr 32768 s (revertHoldoffEnd s) := by
  unfold revertHoldoffEnd
  try dsimp only
  repeat' (first
    | with_reducible exact Fr.refl _ _
    | intro _
    | with_reducible refine Fr.ite ?_ ?_
    | (with_reducible refine Fr.upd ?_ ?_; on_goal 2 => (fail_if_success (with_reducible exact Fr.refl _ _)); (constructor <;> first | exact fun h => absurd h (by decide) | exact fun _ => rfl))
    | split)

theorem slotCount_fr {s : State} : ∀ a0 a1 a2, Fr 256 s (slotCount a0 a1 a2 s) := by
  intro a0 a1 a2
  unfold slotCount
  try dsimp only
  repeat' (first
    | with_reducible exact Fr.refl _ _
    | intro _
    | with_reducible refine Fr.ite ?_ ?_
    | (with_reducible refine Fr.upd ?_ ?_; on_goal 2 => (fail_if_success (with_reducible exact Fr.refl _ _)); (constructor <;> first | exact fun h => absurd h (by decide) | exact fun _ => rfl))
    | ((with_reducible apply Fr.step); (on_goal 2 => with_reducible apply brMod_fr); (on_goal 1 => decide))
    | ((with_reducible apply Fr.step); (on_goal 2 => with_reducible apply raise_fr); (on_goal 1 => decide))
    | split)

theorem integrate_fr {s : State} : ∀ a0 a1, Fr 256 s (integrate a0 a1 s) := by
  intro a0 a1
  unfold integrate
  try dsimp only
  repeat' (first
    | with_reducible exact Fr.refl _ _
    | intro _
    | with_reducible refine Fr.ite ?_ ?_
    | (with_reducible refine Fr.upd ?_ ?_; on_goal 2 => (fail_if_success (with_reducible exact Fr.refl _ _)); (constructor <;> first | exact fun h => absurd h (by decide) | exact fun _ => rfl))
    | ((with_reducible apply Fr.step); (on_goal 2 => with_reducible apply brMod_fr); (on_goal 1 => decide))
    | ((with_reducible apply Fr.step); (on_goal 2 => with_reducible apply raise_fr); (on_goal 1 => decide))
    | split)

theorem vnReadFire_fr {s : State} : ∀ a0, Fr 256 s (vnReadFire a0 s) := by
  intro a0
  unfold vnReadFire
  try dsimp only
  repeat' (first
    | with_reducible exact Fr.refl _ _
    | intro _
    | with_reducible refine Fr.foldl _ ?_ ?_
    | with_reducible refine Fr.elim ?_ ?_
    | with_reducible refine Fr.ite ?_ ?_
    | (with_reducible refine Fr.upd ?_ ?_; on_goal 2 => (fail_if_success (with_reducible exact Fr.refl _ _)); (constructor <;> first | exact fun h => absurd h (by decide) | exact fun _ => rfl))
    | ((with_reducible apply Fr.trans); (on_goal 2 => ((with_reducible apply onDomain_fr); (on_goal 1 => decide))))
    | ((with_reducible apply Fr.step); (on_goal 2 => with_reducible apply guardianCut_fr); (on_goal 1 => decide))
    | ((with_reducible apply Fr.step); (on_goal 2 => with_reducible apply slotCount_fr); (on_goal 1 => decide))
    | ((with_reducible apply Fr.step); (on_goal 2 => with_reducible apply integrate_fr); (on_goal 1 => decide))
    | split)

theorem vnReadRun_fr {s : State} : ∀ a0, Fr 272 s (vnReadRun a0 s) := by
  intro a0
  unfold vnReadRun
  try dsimp only
  repeat' (first
    | with_reducible exact Fr.refl _ _
    | intro _
    | with_reducible refine Fr.ite ?_ ?_
    | ((with_reducible apply Fr.trans); (on_goal 2 => ((with_reducible apply gridFire_fr); (on_goal 1 => decide))))
    | ((with_reducible apply Fr.step); (on_goal 2 => with_reducible apply vnReadFire_fr); (on_goal 1 => decide))
    | split)

theorem powerGood_fr {s : State} : Fr 7378700 s (powerGood s) := by
  unfold powerGood
  try dsimp only
  repeat' (first
    | with_reducible exact Fr.refl _ _
    | intro _
    | with_reducible refine Fr.ite ?_ ?_
    | (with_reducible refine Fr.upd ?_ ?_; on_goal 2 => (fail_if_success (with_reducible exact Fr.refl _ _)); (constructor <;> first | exact fun h => absurd h (by decide) | exact fun _ => rfl))
    | ((with_reducible apply Fr.step); (on_goal 2 => with_reducible apply setDomain_fr); (on_goal 1 => decide))
    | split)

theorem updateChannel_fr {s : State} : ∀ a0, Fr 4096 s (updateChannel a0 s) := by
  intro a0
  unfold updateChannel
  try dsimp only
  repeat' (first
    | with_reducible exact Fr.refl _ _
    | intro _
    | with_reducible refine Fr.elim ?_ ?_
    | with_reducible refine Fr.ite ?_ ?_
    | (with_reducible refine Fr.upd ?_ ?_; on_goal 2 => (fail_if_success (with_reducible exact Fr.refl _ _)); (constructor <;> first | exact fun h => absurd h (by decide) | exact fun _ => rfl))
    | ((with_reducible apply Fr.step); (on_goal 2 => with_reducible apply restage_fr); (on_goal 1 => decide))
    | ((with_reducible apply Fr.step); (on_goal 2 => with_reducible apply chanMod_fr); (on_goal 1 => decide))
    | split)

theorem asleep_fr {s : State} : Fr 2097134 s (asleep s) := by
  unfold asleep
  try dsimp only
  repeat' (first
    | with_reducible exact Fr.refl _ _
    | intro _
    | with_reducible refine Fr.ite ?_ ?_
    | (with_reducible refine Fr.upd ?_ ?_; on_goal 2 => (fail_if_success (with_reducible exact Fr.refl _ _)); (constructor <;> first | exact fun h => absurd h (by decide) | exact fun _ => rfl))
    | ((with_reducible apply Fr.step); (on_goal 2 => with_reducible apply cold_fr); (on_goal 1 => decide))
    | split)

theorem goSleep_fr {s : State} : ∀ a0, Fr 2097134 s (goSleep a0 s) := by
  intro a0
  unfold goSleep
  try dsimp only
  repeat' (first
    | with_reducible exact Fr.refl _ _
    | intro _
    | with_reducible refine Fr.ite ?_ ?_
    | (with_reducible refine Fr.upd ?_ ?_; on_goal 2 => (fail_if_success (with_reducible exact Fr.refl _ _)); (constructor <;> first | exact fun h => absurd h (by decide) | exact fun _ => rfl))
    | ((with_reducible apply Fr.step); (on_goal 2 => with_reducible apply asleep_fr); (on_goal 1 => decide))
    | ((with_reducible apply Fr.step); (on_goal 2 => with_reducible apply transition_fr); (on_goal 1 => decide))
    | ((with_reducible apply Fr.step); (on_goal 2 => with_reducible apply stateLevels_fr); (on_goal 1 => decide))
    | split)

theorem branchLinkDown_fr {s : State} : ∀ a0, Fr 256 s (branchLinkDown a0 s) := by
  intro a0
  unfold branchLinkDown
  try dsimp only
  repeat' (first
    | with_reducible exact Fr.refl _ _
    | intro _
    | with_reducible refine Fr.ite ?_ ?_
    | ((with_reducible apply Fr.step); (on_goal 2 => with_reducible apply raise_fr); (on_goal 1 => decide))
    | ((with_reducible apply Fr.step); (on_goal 2 => with_reducible apply branchDown_fr); (on_goal 1 => decide))
    | split)

theorem frameFlags_fr {s : State} : ∀ a0 a1, Fr 256 s (frameFlags a0 a1 s) := by
  intro a0 a1
  unfold frameFlags
  try dsimp only
  repeat' (first
    | with_reducible exact Fr.refl _ _
    | intro _
    | with_reducible refine Fr.ite ?_ ?_
    | (with_reducible refine Fr.upd ?_ ?_; on_goal 2 => (fail_if_success (with_reducible exact Fr.refl _ _)); (constructor <;> first | exact fun h => absurd h (by decide) | exact fun _ => rfl))
    | ((with_reducible apply Fr.step); (on_goal 2 => with_reducible apply raise_fr); (on_goal 1 => decide))
    | ((with_reducible apply Fr.step); (on_goal 2 => with_reducible apply brMod_fr); (on_goal 1 => decide))
    | split)

theorem dynDeliver_fr {s : State} : ∀ a0 a1 a2, Fr 2101184 s (dynDeliver a0 a1 a2 s) := by
  intro a0 a1 a2
  unfold dynDeliver
  try dsimp only
  repeat' (first
    | with_reducible exact Fr.refl _ _
    | intro _
    | with_reducible refine Fr.elim ?_ ?_
    | with_reducible refine Fr.ite ?_ ?_
    | (with_reducible refine Fr.upd ?_ ?_; on_goal 2 => (fail_if_success (with_reducible exact Fr.refl _ _)); (constructor <;> first | exact fun h => absurd h (by decide) | exact fun _ => rfl))
    | ((with_reducible apply Fr.step); (on_goal 2 => with_reducible apply poolStore_fr); (on_goal 1 => decide))
    | ((with_reducible apply Fr.step); (on_goal 2 => with_reducible apply coreQueueFull_fr); (on_goal 1 => decide))
    | ((with_reducible apply Fr.step); (on_goal 2 => with_reducible apply chainOwner_fr); (on_goal 1 => decide))
    | ((with_reducible apply Fr.step); (on_goal 2 => with_reducible apply shToBackbone_fr); (on_goal 1 => decide))
    | split)

theorem admitted_fr {s : State} : ∀ a0 a1 a2 a3 a4, Fr 2101184 s (admitted a0 a1 a2 a3 a4 s) := by
  intro a0 a1 a2 a3 a4
  unfold admitted
  try dsimp only
  repeat' (first
    | with_reducible exact Fr.refl _ _
    | intro _
    | with_reducible refine Fr.ite ?_ ?_
    | (with_reducible refine Fr.upd ?_ ?_; on_goal 2 => (fail_if_success (with_reducible exact Fr.refl _ _)); (constructor <;> first | exact fun h => absurd h (by decide) | exact fun _ => rfl))
    | ((with_reducible apply Fr.step); (on_goal 2 => with_reducible apply frameFlags_fr); (on_goal 1 => decide))
    | ((with_reducible apply Fr.step); (on_goal 2 => with_reducible apply gotMod_fr); (on_goal 1 => decide))
    | ((with_reducible apply Fr.step); (on_goal 2 => with_reducible apply raise_fr); (on_goal 1 => decide))
    | ((with_reducible apply Fr.step); (on_goal 2 => with_reducible apply dynDeliver_fr); (on_goal 1 => decide))
    | split)

theorem vnFrameRx_fr {s : State} : ∀ a0 a1 a2, Fr 2101184 s (vnFrameRx a0 a1 a2 s) := by
  intro a0 a1 a2
  unfold vnFrameRx
  try dsimp only
  repeat' (first
    | with_reducible exact Fr.refl _ _
    | intro _
    | with_reducible refine Fr.ite ?_ ?_
    | (with_reducible refine Fr.upd ?_ ?_; on_goal 2 => (fail_if_success (with_reducible exact Fr.refl _ _)); (constructor <;> first | exact fun h => absurd h (by decide) | exact fun _ => rfl))
    | ((with_reducible apply Fr.step); (on_goal 2 => with_reducible apply guardCount_fr); (on_goal 1 => decide))
    | ((with_reducible apply Fr.step); (on_goal 2 => with_reducible apply emit_fr); (on_goal 1 => decide))
    | ((with_reducible apply Fr.step); (on_goal 2 => with_reducible apply gotMod_fr); (on_goal 1 => decide))
    | ((with_reducible apply Fr.step); (on_goal 2 => with_reducible apply raise_fr); (on_goal 1 => decide))
    | ((with_reducible apply Fr.step); (on_goal 2 => with_reducible apply brMod_fr); (on_goal 1 => decide))
    | ((with_reducible apply Fr.step); (on_goal 2 => with_reducible apply admitted_fr); (on_goal 1 => decide))
    | split)

theorem drawerCursor_fr {s : State} : ∀ a0 a1, Fr 1048576 s (drawerCursor a0 a1 s) := by
  intro a0 a1
  unfold drawerCursor
  try dsimp only
  repeat' (first
    | with_reducible exact Fr.refl _ _
    | intro _
    | with_reducible refine Fr.ite ?_ ?_
    | ((with_reducible apply Fr.step); (on_goal 2 => with_reducible apply drawerCur_fr); (on_goal 1 => decide))
    | split)

theorem orderRelease_fr {s : State} : ∀ a0 a1, Fr 2102020 s (orderRelease a0 a1 s) := by
  intro a0 a1
  unfold orderRelease
  try dsimp only
  repeat' (first
    | with_reducible exact Fr.refl _ _
    | intro _
    | with_reducible refine Fr.foldl _ ?_ ?_
    | with_reducible refine Fr.ite ?_ ?_
    | ((with_reducible apply Fr.step); (on_goal 2 => with_reducible apply branchOn_fr); (on_goal 1 => decide))
    | ((with_reducible apply Fr.step); (on_goal 2 => with_reducible apply domHold_fr); (on_goal 1 => decide))
    | ((with_reducible apply Fr.step); (on_goal 2 => with_reducible apply lockFree_fr); (on_goal 1 => decide))
    | ((with_reducible apply Fr.step); (on_goal 2 => with_reducible apply eqOn_fr); (on_goal 1 => decide))
    | split)

theorem clsPut_fr {s : State} : ∀ a0, Fr 8192 s (clsPut a0 s) := by
  intro a0
  unfold clsPut
  try dsimp only
  repeat' (first
    | with_reducible exact Fr.refl _ _
    | intro _
    | with_reducible refine Fr.ite ?_ ?_
    | (with_reducible refine Fr.upd ?_ ?_; on_goal 2 => (fail_if_success (with_reducible exact Fr.refl _ _)); (constructor <;> first | exact fun h => absurd h (by decide) | exact fun _ => rfl))
    | split)

theorem reportWake_fr {s : State} : Fr 8 s (reportWake s) := by
  unfold reportWake
  try dsimp only
  repeat' (first
    | with_reducible exact Fr.refl _ _
    | intro _
    | with_reducible refine Fr.ite ?_ ?_
    | (with_reducible refine Fr.upd ?_ ?_; on_goal 2 => (fail_if_success (with_reducible exact Fr.refl _ _)); (constructor <;> first | exact fun h => absurd h (by decide) | exact fun _ => rfl))
    | ((with_reducible apply Fr.step); (on_goal 2 => with_reducible apply raise_fr); (on_goal 1 => decide))
    | split)

theorem repairRetry_fr {s : State} : Fr 49152 s (repairRetry s) := by
  unfold repairRetry
  try dsimp only
  repeat' (first
    | with_reducible exact Fr.refl _ _
    | intro _
    | with_reducible refine Fr.elim ?_ ?_
    | with_reducible refine Fr.ite ?_ ?_
    | (with_reducible refine Fr.upd ?_ ?_; on_goal 2 => (fail_if_success (with_reducible exact Fr.refl _ _)); (constructor <;> first | exact fun h => absurd h (by decide) | exact fun _ => rfl))
    | ((with_reducible apply Fr.step); (on_goal 2 => with_reducible apply repairAsk_fr); (on_goal 1 => decide))
    | split)

theorem pllLockLoss_fr {s : State} : ∀ a0 a1, Fr 8 s (pllLockLoss a0 a1 s) := by
  intro a0 a1
  unfold pllLockLoss
  try dsimp only
  repeat' (first
    | with_reducible exact Fr.refl _ _
    | intro _
    | with_reducible refine Fr.ite ?_ ?_
    | (with_reducible refine Fr.upd ?_ ?_; on_goal 2 => (fail_if_success (with_reducible exact Fr.refl _ _)); (constructor <;> first | exact fun h => absurd h (by decide) | exact fun _ => rfl))
    | ((with_reducible apply Fr.step); (on_goal 2 => with_reducible apply raise_fr); (on_goal 1 => decide))
    | split)

theorem commitRefused_fr {s : State} : ∀ a0 a1 a2, Fr 786432 s (commitRefused a0 a1 a2 s) := by
  intro a0 a1 a2
  unfold commitRefused
  try dsimp only
  repeat' (first
    | with_reducible exact Fr.refl _ _
    | intro _
    | with_reducible refine Fr.ite ?_ ?_
    | (with_reducible refine Fr.upd ?_ ?_; on_goal 2 => (fail_if_success (with_reducible exact Fr.refl _ _)); (constructor <;> first | exact fun h => absurd h (by decide) | exact fun _ => rfl))
    | ((with_reducible apply Fr.step); (on_goal 2 => with_reducible apply jobEnd_fr); (on_goal 1 => decide))
    | split)

theorem takeoverAt_fr {s : State} : ∀ a0, Fr 32768 s (takeoverAt a0 s) := by
  intro a0
  unfold takeoverAt
  try dsimp only
  repeat' (first
    | with_reducible exact Fr.refl _ _
    | intro _
    | with_reducible refine Fr.ite ?_ ?_
    | (with_reducible refine Fr.upd ?_ ?_; on_goal 2 => (fail_if_success (with_reducible exact Fr.refl _ _)); (constructor <;> first | exact fun h => absurd h (by decide) | exact fun _ => rfl))
    | split)

theorem onChannels_fr {m : Nat} {s : State} {g k : Nat} {w : Half} {f : Nat → State → State}
    (hm : within 0 m = true) (hf : ∀ n s, Fr m s (f n s)) : Fr m s (onChannels g k w f s) := by
  have hs := fun d s => Fr.weaken hm (skipped_fr (s := s) d k)
  unfold onChannels
  refine Fr.ite (hs _ _) (Fr.foldl _ (Fr.refl _ _) (fun s n => ?_))
  exact Fr.ite (hf n s) (Fr.ite (Fr.ite (Fr.refl _ _) (hs _ _)) ((Fr.ite (Fr.refl _ _) (hs _ _)).trans (hs _ _)))
theorem sampleRun_fr {s : State} : ∀ a0 a1 a2, Fr 4198416 s (sampleRun a0 a1 a2 s) := by
  intro a0 a1 a2
  unfold sampleRun
  try dsimp only
  repeat' (first
    | with_reducible exact Fr.refl _ _
    | intro _
    | with_reducible refine Fr.ite ?_ ?_
    | ((with_reducible apply Fr.step); (on_goal 2 => with_reducible apply capture_fr); (on_goal 1 => decide))
    | ((with_reducible apply Fr.trans); (on_goal 2 => ((with_reducible apply gridFire_fr); (on_goal 1 => decide))))
    | ((with_reducible apply Fr.trans); (on_goal 2 => ((with_reducible apply onChannels_fr); (on_goal 1 => decide))))
    | split)

theorem msgLinkLost_fr {s : State} : ∀ a0, Fr 2100928 s (msgLinkLost a0 s) := by
  intro a0
  unfold msgLinkLost
  try dsimp only
  repeat' (first
    | with_reducible exact Fr.refl _ _
    | intro _
    | with_reducible refine Fr.foldl _ ?_ ?_
    | with_reducible refine Fr.ite ?_ ?_
    | (with_reducible refine Fr.upd ?_ ?_; on_goal 2 => (fail_if_success (with_reducible exact Fr.refl _ _)); (constructor <;> first | exact fun h => absurd h (by decide) | exact fun _ => rfl))
    | ((with_reducible apply Fr.step); (on_goal 2 => with_reducible apply portTx_fr); (on_goal 1 => decide))
    | ((with_reducible apply Fr.step); (on_goal 2 => with_reducible apply ownLeave_fr); (on_goal 1 => decide))
    | split)

theorem goOff_fr {s : State} : ∀ a0, Fr 6291438 s (goOff a0 s) := by
  intro a0
  unfold goOff
  try dsimp only
  repeat' (first
    | with_reducible exact Fr.refl _ _
    | intro _
    | with_reducible refine Fr.ite ?_ ?_
    | (with_reducible refine Fr.upd ?_ ?_; on_goal 2 => (fail_if_success (with_reducible exact Fr.refl _ _)); (constructor <;> first | exact fun h => absurd h (by decide) | exact fun _ => rfl))
    | ((with_reducible apply Fr.step); (on_goal 2 => with_reducible apply cold_fr); (on_goal 1 => decide))
    | ((with_reducible apply Fr.step); (on_goal 2 => with_reducible apply transition_fr); (on_goal 1 => decide))
    | ((with_reducible apply Fr.step); (on_goal 2 => with_reducible apply nvCut_fr); (on_goal 1 => decide))
    | split)

theorem shadowTestDone_fr {s : State} : ∀ a0, Fr 32768 s (shadowTestDone a0 s) := by
  intro a0
  unfold shadowTestDone
  try dsimp only
  repeat' (first
    | with_reducible exact Fr.refl _ _
    | intro _
    | with_reducible refine Fr.ite ?_ ?_
    | (with_reducible refine Fr.upd ?_ ?_; on_goal 2 => (fail_if_success (with_reducible exact Fr.refl _ _)); (constructor <;> first | exact fun h => absurd h (by decide) | exact fun _ => rfl))
    | ((with_reducible apply Fr.step); (on_goal 2 => with_reducible apply raise_fr); (on_goal 1 => decide))
    | split)

theorem awakeOp_fr {s : State} : ∀ a0 a1 a2, Fr 32896 s (awakeOp a0 a1 a2 s) := by
  intro a0 a1 a2
  unfold awakeOp
  try dsimp only
  repeat' (first
    | with_reducible exact Fr.refl _ _
    | intro _
    | with_reducible refine Fr.ite ?_ ?_
    | (with_reducible refine Fr.upd ?_ ?_; on_goal 2 => (fail_if_success (with_reducible exact Fr.refl _ _)); (constructor <;> first | exact fun h => absurd h (by decide) | exact fun _ => rfl))
    | ((with_reducible apply Fr.step); (on_goal 2 => with_reducible apply activeMod_fr); (on_goal 1 => decide))
    | split)

theorem groupSample_fr {s : State} : ∀ a0 a1, Fr 8192 s (groupSample a0 a1 s) := by
  intro a0 a1
  unfold groupSample
  try dsimp only
  repeat' (first
    | with_reducible exact Fr.refl _ _
    | intro _
    | with_reducible refine Fr.ite ?_ ?_
    | (with_reducible refine Fr.upd ?_ ?_; on_goal 2 => (fail_if_success (with_reducible exact Fr.refl _ _)); (constructor <;> first | exact fun h => absurd h (by decide) | exact fun _ => rfl))
    | ((with_reducible apply Fr.step); (on_goal 2 => with_reducible apply raise_fr); (on_goal 1 => decide))
    | split)

theorem railSample_fr {s : State} : ∀ a0 a1, Fr 8192 s (railSample a0 a1 s) := by
  intro a0 a1
  unfold railSample
  try dsimp only
  repeat' (first
    | with_reducible exact Fr.refl _ _
    | intro _
    | with_reducible refine Fr.ite ?_ ?_
    | (with_reducible refine Fr.upd ?_ ?_; on_goal 2 => (fail_if_success (with_reducible exact Fr.refl _ _)); (constructor <;> first | exact fun h => absurd h (by decide) | exact fun _ => rfl))
    | ((with_reducible apply Fr.step); (on_goal 2 => with_reducible apply raise_fr); (on_goal 1 => decide))
    | split)

theorem auxSample_fr {s : State} : ∀ a0 a1, Fr 12288 s (auxSample a0 a1 s) := by
  intro a0 a1
  unfold auxSample
  try dsimp only
  repeat' (first
    | with_reducible exact Fr.refl _ _
    | intro _
    | with_reducible refine Fr.ite ?_ ?_
    | (with_reducible refine Fr.upd ?_ ?_; on_goal 2 => (fail_if_success (with_reducible exact Fr.refl _ _)); (constructor <;> first | exact fun h => absurd h (by decide) | exact fun _ => rfl))
    | ((with_reducible apply Fr.step); (on_goal 2 => with_reducible apply groupSample_fr); (on_goal 1 => decide))
    | ((with_reducible apply Fr.step); (on_goal 2 => with_reducible apply railSample_fr); (on_goal 1 => decide))
    | ((with_reducible apply Fr.step); (on_goal 2 => with_reducible apply chanMod_fr); (on_goal 1 => decide))
    | split)

theorem causeSet_fr {s : State} : ∀ a0 a1, Fr 4096 s (causeSet a0 a1 s) := by
  intro a0 a1
  unfold causeSet
  try dsimp only
  repeat' (first
    | with_reducible exact Fr.refl _ _
    | intro _
    | with_reducible refine Fr.ite ?_ ?_
    | (with_reducible refine Fr.upd ?_ ?_; on_goal 2 => (fail_if_success (with_reducible exact Fr.refl _ _)); (constructor <;> first | exact fun h => absurd h (by decide) | exact fun _ => rfl))
    | ((with_reducible apply Fr.step); (on_goal 2 => with_reducible apply memSettle_fr); (on_goal 1 => decide))
    | ((with_reducible apply Fr.step); (on_goal 2 => with_reducible apply chanMod_fr); (on_goal 1 => decide))
    | split)

theorem currentLimit_fr {s : State} : ∀ a0, Fr 4096 s (currentLimit a0 s) := by
  intro a0
  unfold currentLimit
  try dsimp only
  repeat' (first
    | with_reducible exact Fr.refl _ _
    | intro _
    | with_reducible refine Fr.ite ?_ ?_
    | (with_reducible refine Fr.upd ?_ ?_; on_goal 2 => (fail_if_success (with_reducible exact Fr.refl _ _)); (constructor <;> first | exact fun h => absurd h (by decide) | exact fun _ => rfl))
    | ((with_reducible apply Fr.step); (on_goal 2 => with_reducible apply raise_fr); (on_goal 1 => decide))
    | ((with_reducible apply Fr.step); (on_goal 2 => with_reducible apply causeSet_fr); (on_goal 1 => decide))
    | ((with_reducible apply Fr.step); (on_goal 2 => with_reducible apply chanMod_fr); (on_goal 1 => decide))
    | split)

theorem shCycle_fr {s : State} : Fr 2048 s (shCycle s) := by
  unfold shCycle
  try dsimp only
  repeat' (first
    | with_reducible exact Fr.refl _ _
    | intro _
    | with_reducible refine Fr.elim ?_ ?_
    | with_reducible refine Fr.ite ?_ ?_
    | (with_reducible refine Fr.upd ?_ ?_; on_goal 2 => (fail_if_success (with_reducible exact Fr.refl _ _)); (constructor <;> first | exact fun h => absurd h (by decide) | exact fun _ => rfl))
    | ((with_reducible apply Fr.step); (on_goal 2 => with_reducible apply shSet_fr); (on_goal 1 => decide))
    | ((with_reducible apply Fr.step); (on_goal 2 => with_reducible apply shCommand_fr); (on_goal 1 => decide))
    | split)

theorem forcesExpire_fr {s : State} : Fr 4096 s (forcesExpire s) := by
  unfold forcesExpire
  try dsimp only
  repeat' (first
    | with_reducible exact Fr.refl _ _
    | intro _
    | with_reducible refine Fr.foldl _ ?_ ?_
    | with_reducible refine Fr.ite ?_ ?_
    | ((with_reducible apply Fr.step); (on_goal 2 => with_reducible apply forceEnd_fr); (on_goal 1 => decide))
    | split)

theorem lockAge_fr {s : State} : Fr 8 s (lockAge s) := by
  unfold lockAge
  try dsimp only
  repeat' (first
    | with_reducible exact Fr.refl _ _
    | intro _
    | with_reducible refine Fr.ite ?_ ?_
    | (with_reducible refine Fr.upd ?_ ?_; on_goal 2 => (fail_if_success (with_reducible exact Fr.refl _ _)); (constructor <;> first | exact fun h => absurd h (by decide) | exact fun _ => rfl))
    | split)

theorem cfgCheck_fr {s : State} : Fr 1048576 s (cfgCheck s) := by
  unfold cfgCheck
  try dsimp only
  repeat' (first
    | with_reducible exact Fr.refl _ _
    | intro _
    | with_reducible refine Fr.ite ?_ ?_
    | (with_reducible refine Fr.upd ?_ ?_; on_goal 2 => (fail_if_success (with_reducible exact Fr.refl _ _)); (constructor <;> first | exact fun h => absurd h (by decide) | exact fun _ => rfl))
    | ((with_reducible apply Fr.step); (on_goal 2 => with_reducible apply raise_fr); (on_goal 1 => decide))
    | split)

theorem shadowsApply_fr {s : State} : Fr 1048576 s (shadowsApply s) := by
  unfold shadowsApply
  try dsimp only
  repeat' (first
    | with_reducible exact Fr.refl _ _
    | intro _
    | with_reducible refine Fr.ite ?_ ?_
    | (with_reducible refine Fr.upd ?_ ?_; on_goal 2 => (fail_if_success (with_reducible exact Fr.refl _ _)); (constructor <;> first | exact fun h => absurd h (by decide) | exact fun _ => rfl))
    | split)

theorem forcesEnd_fr {s : State} : ∀ a0, Fr 4096 s (forcesEnd a0 s) := by
  intro a0
  unfold forcesEnd
  try dsimp only
  repeat' (first
    | with_reducible exact Fr.refl _ _
    | intro _
    | with_reducible refine Fr.foldl _ ?_ ?_
    | with_reducible refine Fr.ite ?_ ?_
    | ((with_reducible apply Fr.step); (on_goal 2 => with_reducible apply forceEnd_fr); (on_goal 1 => decide))
    | split)

theorem warm_fr {s : State} : Fr 2097134 s (warm s) := by
  unfold warm
  try dsimp only
  repeat' (first
    | with_reducible exact Fr.refl _ _
    | intro _
    | with_reducible refine Fr.ite ?_ ?_
    | (with_reducible refine Fr.upd ?_ ?_; on_goal 2 => (fail_if_success (with_reducible exact Fr.refl _ _)); (constructor <;> first | exact fun h => absurd h (by decide) | exact fun _ => rfl))
    | ((with_reducible apply Fr.step); (on_goal 2 => with_reducible apply cold_fr); (on_goal 1 => decide))
    | split)

theorem warmReset_fr {s : State} : Fr 8388590 s (warmReset s) := by
  unfold warmReset
  try dsimp only
  repeat' (first
    | with_reducible exact Fr.refl _ _
    | intro _
    | with_reducible refine Fr.ite ?_ ?_
    | (with_reducible refine Fr.upd ?_ ?_; on_goal 2 => (fail_if_success (with_reducible exact Fr.refl _ _)); (constructor <;> first | exact fun h => absurd h (by decide) | exact fun _ => rfl))
    | ((with_reducible apply Fr.step); (on_goal 2 => with_reducible apply abandonCommands_fr); (on_goal 1 => decide))
    | ((with_reducible apply Fr.step); (on_goal 2 => with_reducible apply nvCut_fr); (on_goal 1 => decide))
    | ((with_reducible apply Fr.step); (on_goal 2 => with_reducible apply sessionClose_fr); (on_goal 1 => decide))
    | ((with_reducible apply Fr.step); (on_goal 2 => with_reducible apply forcesEnd_fr); (on_goal 1 => decide))
    | ((with_reducible apply Fr.step); (on_goal 2 => with_reducible apply warm_fr); (on_goal 1 => decide))
    | ((with_reducible apply Fr.step); (on_goal 2 => with_reducible apply transition_fr); (on_goal 1 => decide))
    | ((with_reducible apply Fr.step); (on_goal 2 => with_reducible apply stateLevels_fr); (on_goal 1 => decide))
    | split)

theorem resetDue_fr {s : State} : Fr 8388590 s (resetDue s) := by
  unfold resetDue
  try dsimp only
  repeat' (first
    | with_reducible exact Fr.refl _ _
    | intro _
    | with_reducible refine Fr.ite ?_ ?_
    | ((with_reducible apply Fr.step); (on_goal 2 => with_reducible apply warmReset_fr); (on_goal 1 => decide))
    | split)

theorem benchStart_fr {s : State} : ∀ a0 a1 a2, Fr 540672 s (benchStart a0 a1 a2 s) := by
  intro a0 a1 a2
  unfold benchStart
  try dsimp only
  repeat' (first
    | with_reducible exact Fr.refl _ _
    | intro _
    | with_reducible refine Fr.ite ?_ ?_
    | ((with_reducible apply Fr.step); (on_goal 2 => with_reducible apply benchAsk_fr); (on_goal 1 => decide))
    | ((with_reducible apply Fr.step); (on_goal 2 => with_reducible apply cmdDone_fr); (on_goal 1 => decide))
    | split)

theorem cmdRun_fr {s : State} : ∀ a0, Fr 3955660 s (cmdRun a0 s) := by
  intro a0
  unfold cmdRun
  try dsimp only
  repeat' (first
    | with_reducible exact Fr.refl _ _
    | intro _
    | with_reducible refine Fr.ite ?_ ?_
    | (with_reducible refine Fr.upd ?_ ?_; on_goal 2 => (fail_if_success (with_reducible exact Fr.refl _ _)); (constructor <;> first | exact fun h => absurd h (by decide) | exact fun _ => rfl))
    | ((with_reducible apply Fr.step); (on_goal 2 => with_reducible apply cmdDone_fr); (on_goal 1 => decide))
    | ((with_reducible apply Fr.step); (on_goal 2 => with_reducible apply startOwn_fr); (on_goal 1 => decide))
    | ((with_reducible apply Fr.step); (on_goal 2 => with_reducible apply shCommand_fr); (on_goal 1 => decide))
    | ((with_reducible apply Fr.step); (on_goal 2 => with_reducible apply forceStart_fr); (on_goal 1 => decide))
    | ((with_reducible apply Fr.step); (on_goal 2 => with_reducible apply forceEnd_fr); (on_goal 1 => decide))
    | ((with_reducible apply Fr.step); (on_goal 2 => with_reducible apply orderRelease_fr); (on_goal 1 => decide))
    | ((with_reducible apply Fr.step); (on_goal 2 => with_reducible apply benchStart_fr); (on_goal 1 => decide))
    | ((with_reducible apply Fr.step); (on_goal 2 => with_reducible apply logArmSet_fr); (on_goal 1 => decide))
    | ((with_reducible apply Fr.step); (on_goal 2 => with_reducible apply logClear_fr); (on_goal 1 => decide))
    | ((with_reducible apply Fr.step); (on_goal 2 => with_reducible apply nvStart_fr); (on_goal 1 => decide))
    | split)

theorem cmdsRun_fr {s : State} : Fr 3955660 s (cmdsRun s) := by
  unfold cmdsRun
  try dsimp only
  repeat' (first
    | with_reducible exact Fr.refl _ _
    | intro _
    | with_reducible refine Fr.foldl _ ?_ ?_
    | with_reducible refine Fr.ite ?_ ?_
    | ((with_reducible apply Fr.step); (on_goal 2 => with_reducible apply cmdRun_fr); (on_goal 1 => decide))
    | split)

theorem domainsTo_fr {s : State} : ∀ a0 a1, Fr 7378692 s (domainsTo a0 a1 s) := by
  intro a0 a1
  unfold domainsTo
  try dsimp only
  repeat' (first
    | with_reducible exact Fr.refl _ _
    | intro _
    | with_reducible refine Fr.foldl _ ?_ ?_
    | with_reducible refine Fr.ite ?_ ?_
    | ((with_reducible apply Fr.step); (on_goal 2 => with_reducible apply setDomain_fr); (on_goal 1 => decide))
    | split)

theorem shPower_fr {s : State} : Fr 2048 s (shPower s) := by
  unfold shPower
  try dsimp only
  repeat' (first
    | with_reducible exact Fr.refl _ _
    | intro _
    | with_reducible refine Fr.ite ?_ ?_
    | (with_reducible refine Fr.upd ?_ ?_; on_goal 2 => (fail_if_success (with_reducible exact Fr.refl _ _)); (constructor <;> first | exact fun h => absurd h (by decide) | exact fun _ => rfl))
    | ((with_reducible apply Fr.step); (on_goal 2 => with_reducible apply shSet_fr); (on_goal 1 => decide))
    | split)

theorem poolStart_fr {s : State} : Fr 1024 s (poolStart s) := by
  unfold poolStart
  try dsimp only
  repeat' (first
    | with_reducible exact Fr.refl _ _
    | intro _
    | with_reducible refine Fr.ite ?_ ?_
    | (with_reducible refine Fr.upd ?_ ?_; on_goal 2 => (fail_if_success (with_reducible exact Fr.refl _ _)); (constructor <;> first | exact fun h => absurd h (by decide) | exact fun _ => rfl))
    | split)

theorem chkRestore_fr {s : State} : ∀ a0, Fr 294912 s (chkRestore a0 s) := by
  intro a0
  unfold chkRestore
  try dsimp only
  repeat' (first
    | with_reducible exact Fr.refl _ _
    | intro _
    | with_reducible refine Fr.ite ?_ ?_
    | (with_reducible refine Fr.upd ?_ ?_; on_goal 2 => (fail_if_success (with_reducible exact Fr.refl _ _)); (constructor <;> first | exact fun h => absurd h (by decide) | exact fun _ => rfl))
    | ((with_reducible apply Fr.step); (on_goal 2 => with_reducible apply raise_fr); (on_goal 1 => decide))
    | ((with_reducible apply Fr.step); (on_goal 2 => with_reducible apply nvReport_fr); (on_goal 1 => decide))
    | split)

theorem runCore_fr {s : State} : ∀ a0, Fr 294912 s (runCore a0 s) := by
  intro a0
  unfold runCore
  try dsimp only
  repeat' (first
    | with_reducible exact Fr.refl _ _
    | intro _
    | with_reducible refine Fr.ite ?_ ?_
    | (with_reducible refine Fr.upd ?_ ?_; on_goal 2 => (fail_if_success (with_reducible exact Fr.refl _ _)); (constructor <;> first | exact fun h => absurd h (by decide) | exact fun _ => rfl))
    | ((with_reducible apply Fr.step); (on_goal 2 => with_reducible apply chkRestore_fr); (on_goal 1 => decide))
    | split)

theorem hingeRun_fr {s : State} : Fr 2097344 s (hingeRun s) := by
  unfold hingeRun
  try dsimp only
  repeat' (first
    | with_reducible exact Fr.refl _ _
    | intro _
    | with_reducible refine Fr.foldl _ ?_ ?_
    | with_reducible refine Fr.ite ?_ ?_
    | ((with_reducible apply Fr.step); (on_goal 2 => with_reducible apply resettle_fr); (on_goal 1 => decide))
    | ((with_reducible apply Fr.step); (on_goal 2 => with_reducible apply stepPort_fr); (on_goal 1 => decide))
    | ((with_reducible apply Fr.step); (on_goal 2 => with_reducible apply startOwn_fr); (on_goal 1 => decide))
    | ((with_reducible apply Fr.step); (on_goal 2 => with_reducible apply sendUpdate_fr); (on_goal 1 => decide))
    | split)

theorem watchLoad_fr {s : State} : Fr 7378692 s (watchLoad s) := by
  unfold watchLoad
  try dsimp only
  repeat' (first
    | with_reducible exact Fr.refl _ _
    | intro _
    | with_reducible refine Fr.ite ?_ ?_
    | (with_reducible refine Fr.upd ?_ ?_; on_goal 2 => (fail_if_success (with_reducible exact Fr.refl _ _)); (constructor <;> first | exact fun h => absurd h (by decide) | exact fun _ => rfl))
    | ((with_reducible apply Fr.step); (on_goal 2 => with_reducible apply setDomain_fr); (on_goal 1 => decide))
    | split)

theorem runCores_fr {s : State} : ∀ a0, Fr 7395078 s (runCores a0 s) := by
  intro a0
  unfold runCores
  try dsimp only
  repeat' (first
    | with_reducible exact Fr.refl _ _
    | intro _
    | with_reducible refine Fr.ite ?_ ?_
    | ((with_reducible apply Fr.step); (on_goal 2 => with_reducible apply repairAsk_fr); (on_goal 1 => decide))
    | ((with_reducible apply Fr.step); (on_goal 2 => with_reducible apply transition_fr); (on_goal 1 => decide))
    | ((with_reducible apply Fr.step); (on_goal 2 => with_reducible apply watchLoad_fr); (on_goal 1 => decide))
    | split)

theorem runBanks_fr {s : State} : Fr 4227072 s (runBanks s) := by
  unfold runBanks
  try dsimp only
  repeat' (first
    | with_reducible exact Fr.refl _ _
    | intro _
    | with_reducible refine Fr.foldl _ ?_ ?_
    | with_reducible refine Fr.ite ?_ ?_
    | ((with_reducible apply Fr.step); (on_goal 2 => with_reducible apply drawn_fr); (on_goal 1 => decide))
    | ((with_reducible apply Fr.step); (on_goal 2 => with_reducible apply dataCoreMod_fr); (on_goal 1 => decide))
    | split)

theorem runEnter_fr {s : State} : ∀ a0, Fr 7733230 s (runEnter a0 s) := by
  intro a0
  unfold runEnter
  try dsimp only
  repeat' (first
    | with_reducible exact Fr.refl _ _
    | intro _
    | with_reducible refine Fr.ite ?_ ?_
    | (with_reducible refine Fr.upd ?_ ?_; on_goal 2 => (fail_if_success (with_reducible exact Fr.refl _ _)); (constructor <;> first | exact fun h => absurd h (by decide) | exact fun _ => rfl))
    | ((with_reducible apply Fr.step); (on_goal 2 => with_reducible apply transition_fr); (on_goal 1 => decide))
    | ((with_reducible apply Fr.step); (on_goal 2 => with_reducible apply setDomain_fr); (on_goal 1 => decide))
    | ((with_reducible apply Fr.step); (on_goal 2 => with_reducible apply domainsTo_fr); (on_goal 1 => decide))
    | ((with_reducible apply Fr.step); (on_goal 2 => with_reducible apply runSupply_fr); (on_goal 1 => decide))
    | ((with_reducible apply Fr.step); (on_goal 2 => with_reducible apply benchService_fr); (on_goal 1 => decide))
    | ((with_reducible apply Fr.step); (on_goal 2 => with_reducible apply shPower_fr); (on_goal 1 => decide))
    | ((with_reducible apply Fr.step); (on_goal 2 => with_reducible apply poolStart_fr); (on_goal 1 => decide))
    | ((with_reducible apply Fr.step); (on_goal 2 => with_reducible apply runCore_fr); (on_goal 1 => decide))
    | ((with_reducible apply Fr.step); (on_goal 2 => with_reducible apply hingeRun_fr); (on_goal 1 => decide))
    | ((with_reducible apply Fr.step); (on_goal 2 => with_reducible apply runCores_fr); (on_goal 1 => decide))
    | ((with_reducible apply Fr.step); (on_goal 2 => with_reducible apply runBanks_fr); (on_goal 1 => decide))
    | ((with_reducible apply Fr.step); (on_goal 2 => with_reducible apply vectorApply_fr); (on_goal 1 => decide))
    | split)

theorem runDue_fr {s : State} : Fr 7733230 s (runDue s) := by
  unfold runDue
  try dsimp only
  repeat' (first
    | with_reducible exact Fr.refl _ _
    | intro _
    | with_reducible refine Fr.ite ?_ ?_
    | ((with_reducible apply Fr.step); (on_goal 2 => with_reducible apply runEnter_fr); (on_goal 1 => decide))
    | split)

theorem runCount_fr {s : State} : Fr 32 s (runCount s) := by
  unfold runCount
  try dsimp only
  repeat' (first
    | with_reducible exact Fr.refl _ _
    | intro _
    | with_reducible refine Fr.ite ?_ ?_
    | (with_reducible refine Fr.upd ?_ ?_; on_goal 2 => (fail_if_success (with_reducible exact Fr.refl _ _)); (constructor <;> first | exact fun h => absurd h (by decide) | exact fun _ => rfl))
    | split)

theorem controlBanks_fr {s : State} : Fr 4227072 s (controlBanks s) := by
  unfold controlBanks
  try dsimp only
  repeat' (first
    | with_reducible exact Fr.refl _ _
    | intro _
    | with_reducible refine Fr.foldl _ ?_ ?_
    | with_reducible refine Fr.ite ?_ ?_
    | ((with_reducible apply Fr.step); (on_goal 2 => with_reducible apply drawn_fr); (on_goal 1 => decide))
    | ((with_reducible apply Fr.step); (on_goal 2 => with_reducible apply dataCoreMod_fr); (on_goal 1 => decide))
    | split)

theorem ownersPass_fr {s : State} : ∀ a0 a1, Fr 1024 s (ownersPass a0 a1 s) := by
  intro a0 a1
  unfold ownersPass
  try dsimp only
  repeat' (first
    | with_reducible exact Fr.refl _ _
    | intro _
    | with_reducible refine Fr.ite ?_ ?_
    | (with_reducible refine Fr.upd ?_ ?_; on_goal 2 => (fail_if_success (with_reducible exact Fr.refl _ _)); (constructor <;> first | exact fun h => absurd h (by decide) | exact fun _ => rfl))
    | split)

theorem revertControl_fr {s : State} : Fr 7378694 s (revertControl s) := by
  unfold revertControl
  try dsimp only
  repeat' (first
    | with_reducible exact Fr.refl _ _
    | intro _
    | with_reducible refine Fr.ite ?_ ?_
    | (with_reducible refine Fr.upd ?_ ?_; on_goal 2 => (fail_if_success (with_reducible exact Fr.refl _ _)); (constructor <;> first | exact fun h => absurd h (by decide) | exact fun _ => rfl))
    | ((with_reducible apply Fr.step); (on_goal 2 => with_reducible apply controlBanks_fr); (on_goal 1 => decide))
    | ((with_reducible apply Fr.step); (on_goal 2 => with_reducible apply ownersPass_fr); (on_goal 1 => decide))
    | ((with_reducible apply Fr.step); (on_goal 2 => with_reducible apply raise_fr); (on_goal 1 => decide))
    | ((with_reducible apply Fr.step); (on_goal 2 => with_reducible apply orderDone_fr); (on_goal 1 => decide))
    | ((with_reducible apply Fr.step); (on_goal 2 => with_reducible apply transition_fr); (on_goal 1 => decide))
    | ((with_reducible apply Fr.step); (on_goal 2 => with_reducible apply watchLoad_fr); (on_goal 1 => decide))
    | ((with_reducible apply Fr.step); (on_goal 2 => with_reducible apply rxcRetire_fr); (on_goal 1 => decide))
    | split)

theorem takeoverControl_fr {s : State} : Fr 4228096 s (takeoverControl s) := by
  unfold takeoverControl
  try dsimp only
  repeat' (first
    | with_reducible exact Fr.refl _ _
    | intro _
    | with_reducible refine Fr.ite ?_ ?_
    | (with_reducible refine Fr.upd ?_ ?_; on_goal 2 => (fail_if_success (with_reducible exact Fr.refl _ _)); (constructor <;> first | exact fun h => absurd h (by decide) | exact fun _ => rfl))
    | ((with_reducible apply Fr.step); (on_goal 2 => with_reducible apply raise_fr); (on_goal 1 => decide))
    | ((with_reducible apply Fr.step); (on_goal 2 => with_reducible apply controlBanks_fr); (on_goal 1 => decide))
    | ((with_reducible apply Fr.step); (on_goal 2 => with_reducible apply ownersPass_fr); (on_goal 1 => decide))
    | split)

theorem benchAge_fr {s : State} : Fr 16384 s (benchAge s) := by
  unfold benchAge
  try dsimp only
  repeat' (first
    | with_reducible exact Fr.refl _ _
    | intro _
    | with_reducible refine Fr.foldl _ ?_ ?_
    | with_reducible refine Fr.ite ?_ ?_
    | (with_reducible refine Fr.upd ?_ ?_; on_goal 2 => (fail_if_success (with_reducible exact Fr.refl _ _)); (constructor <;> first | exact fun h => absurd h (by decide) | exact fun _ => rfl))
    | ((with_reducible apply Fr.step); (on_goal 2 => with_reducible apply benchShow_fr); (on_goal 1 => decide))
    | ((with_reducible apply Fr.step); (on_goal 2 => with_reducible apply raise_fr); (on_goal 1 => decide))
    | split)

theorem cycleTail_fr {s : State} : Fr 7395238 s (cycleTail s) := by
  unfold cycleTail
  try dsimp only
  repeat' (first
    | with_reducible exact Fr.refl _ _
    | intro _
    | with_reducible refine Fr.ite ?_ ?_
    | (with_reducible refine Fr.upd ?_ ?_; on_goal 2 => (fail_if_success (with_reducible exact Fr.refl _ _)); (constructor <;> first | exact fun h => absurd h (by decide) | exact fun _ => rfl))
    | ((with_reducible apply Fr.step); (on_goal 2 => with_reducible apply revertControl_fr); (on_goal 1 => decide))
    | ((with_reducible apply Fr.step); (on_goal 2 => with_reducible apply takeoverControl_fr); (on_goal 1 => decide))
    | ((with_reducible apply Fr.step); (on_goal 2 => with_reducible apply tfCycle_fr); (on_goal 1 => decide))
    | ((with_reducible apply Fr.step); (on_goal 2 => with_reducible apply vectorApply_fr); (on_goal 1 => decide))
    | ((with_reducible apply Fr.step); (on_goal 2 => with_reducible apply benchAge_fr); (on_goal 1 => decide))
    | split)

theorem cycleSteps_fr {s : State} : ∀ a0, Fr 8388590 s (cycleSteps a0 s) := by
  intro a0
  unfold cycleSteps
  try dsimp only
  repeat' (first
    | with_reducible exact Fr.refl _ _
    | intro _
    | with_reducible refine Fr.ite ?_ ?_
    | ((with_reducible apply Fr.step); (on_goal 2 => with_reducible apply shCycle_fr); (on_goal 1 => decide))
    | ((with_reducible apply Fr.step); (on_goal 2 => with_reducible apply forcesExpire_fr); (on_goal 1 => decide))
    | ((with_reducible apply Fr.step); (on_goal 2 => with_reducible apply lockAge_fr); (on_goal 1 => decide))
    | ((with_reducible apply Fr.step); (on_goal 2 => with_reducible apply cfgCheck_fr); (on_goal 1 => decide))
    | ((with_reducible apply Fr.step); (on_goal 2 => with_reducible apply shadowsApply_fr); (on_goal 1 => decide))
    | ((with_reducible apply Fr.step); (on_goal 2 => with_reducible apply resetDue_fr); (on_goal 1 => decide))
    | ((with_reducible apply Fr.step); (on_goal 2 => with_reducible apply cmdsRun_fr); (on_goal 1 => decide))
    | ((with_reducible apply Fr.step); (on_goal 2 => with_reducible apply runDue_fr); (on_goal 1 => decide))
    | ((with_reducible apply Fr.step); (on_goal 2 => with_reducible apply runCount_fr); (on_goal 1 => decide))
    | ((with_reducible apply Fr.step); (on_goal 2 => with_reducible apply cycleTail_fr); (on_goal 1 => decide))
    | ((with_reducible apply Fr.step); (on_goal 2 => with_reducible apply ordersRun_fr); (on_goal 1 => decide))
    | split)

theorem pauseExpiry_fr {s : State} : ∀ a0 a1, Fr 2097664 s (pauseExpiry a0 a1 s) := by
  intro a0 a1
  unfold pauseExpiry
  try dsimp only
  repeat' (first
    | with_reducible exact Fr.refl _ _
    | intro _
    | with_reducible refine Fr.ite ?_ ?_
    | (with_reducible refine Fr.upd ?_ ?_; on_goal 2 => (fail_if_success (with_reducible exact Fr.refl _ _)); (constructor <;> first | exact fun h => absurd h (by decide) | exact fun _ => rfl))
    | ((with_reducible apply Fr.step); (on_goal 2 => with_reducible apply eqStart_fr); (on_goal 1 => decide))
    | ((with_reducible apply Fr.step); (on_goal 2 => with_reducible apply eqMod_fr); (on_goal 1 => decide))
    | split)

theorem wakePatternMatch_fr {s : State} : ∀ a0 a1, Fr 8 s (wakePatternMatch a0 a1 s) := by
  intro a0 a1
  unfold wakePatternMatch
  try dsimp only
  repeat' (first
    | with_reducible exact Fr.refl _ _
    | intro _
    | with_reducible refine Fr.elim ?_ ?_
    | with_reducible refine Fr.ite ?_ ?_
    | ((with_reducible apply Fr.step); (on_goal 2 => with_reducible apply wakeLatched_fr); (on_goal 1 => decide))
    | split)

theorem holdupMeasure_fr {s : State} : ∀ a0, Fr 8 s (holdupMeasure a0 s) := by
  intro a0
  unfold holdupMeasure
  try dsimp only
  repeat' (first
    | with_reducible exact Fr.refl _ _
    | intro _
    | with_reducible refine Fr.ite ?_ ?_
    | (with_reducible refine Fr.upd ?_ ?_; on_goal 2 => (fail_if_success (with_reducible exact Fr.refl _ _)); (constructor <;> first | exact fun h => absurd h (by decide) | exact fun _ => rfl))
    | ((with_reducible apply Fr.step); (on_goal 2 => with_reducible apply raise_fr); (on_goal 1 => decide))
    | split)

theorem domainSettled_fr {s : State} : ∀ a0, Fr 7378692 s (domainSettled a0 s) := by
  intro a0
  unfold domainSettled
  try dsimp only
  repeat' (first
    | with_reducible exact Fr.refl _ _
    | intro _
    | with_reducible refine Fr.ite ?_ ?_
    | ((with_reducible apply Fr.step); (on_goal 2 => with_reducible apply reach_fr); (on_goal 1 => decide))
    | split)

theorem challenge_fr {s : State} : ∀ a0, Fr 3147456 s (challenge a0 s) := by
  intro a0
  unfold challenge
  try dsimp only
  repeat' (first
    | with_reducible exact Fr.refl _ _
    | intro _
    | with_reducible refine Fr.elim ?_ ?_
    | with_reducible refine Fr.ite ?_ ?_
    | (with_reducible refine Fr.upd ?_ ?_; on_goal 2 => (fail_if_success (with_reducible exact Fr.refl _ _)); (constructor <;> first | exact fun h => absurd h (by decide) | exact fun _ => rfl))
    | ((with_reducible apply Fr.step); (on_goal 2 => with_reducible apply pduSend_fr); (on_goal 1 => decide))
    | ((with_reducible apply Fr.step); (on_goal 2 => with_reducible apply sessionPut_fr); (on_goal 1 => decide))
    | split)

theorem nvOpDone_fr {s : State} : ∀ a0, Fr 8259272 s (nvOpDone a0 s) := by
  intro a0
  unfold nvOpDone
  try dsimp only
  repeat' (first
    | with_reducible exact Fr.refl _ _
    | intro _
    | with_reducible refine Fr.ite ?_ ?_
    | ((with_reducible apply Fr.step); (on_goal 2 => with_reducible apply nvFinish_fr); (on_goal 1 => decide))
    | ((with_reducible apply Fr.step); (on_goal 2 => with_reducible apply keyGone_fr); (on_goal 1 => decide))
    | ((with_reducible apply Fr.step); (on_goal 2 => with_reducible apply challenge_fr); (on_goal 1 => decide))
    | split)

theorem mpostTakeOp_fr {s : State} : ∀ a0 a1, Fr 33920 s (mpostTakeOp a0 a1 s) := by
  intro a0 a1
  unfold mpostTakeOp
  try dsimp only
  repeat' (first
    | with_reducible exact Fr.refl _ _
    | intro _
    | with_reducible refine Fr.ite ?_ ?_
    | (with_reducible refine Fr.upd ?_ ?_; on_goal 2 => (fail_if_success (with_reducible exact Fr.refl _ _)); (constructor <;> first | exact fun h => absurd h (by decide) | exact fun _ => rfl))
    | ((with_reducible apply Fr.step); (on_goal 2 => with_reducible apply activeMod_fr); (on_goal 1 => decide))
    | ((with_reducible apply Fr.step); (on_goal 2 => with_reducible apply chainOwner_fr); (on_goal 1 => decide))
    | split)

theorem pllLockRegained_fr {s : State} : Fr 8 s (pllLockRegained s) := by
  unfold pllLockRegained
  try dsimp only
  repeat' (first
    | with_reducible exact Fr.refl _ _
    | intro _
    | with_reducible refine Fr.ite ?_ ?_
    | (with_reducible refine Fr.upd ?_ ?_; on_goal 2 => (fail_if_success (with_reducible exact Fr.refl _ _)); (constructor <;> first | exact fun h => absurd h (by decide) | exact fun _ => rfl))
    | ((with_reducible apply Fr.step); (on_goal 2 => with_reducible apply raise_fr); (on_goal 1 => decide))
    | split)

theorem exchange_fr {s : State} : ∀ a0 a1 a2, Fr 64 s (exchange a0 a1 a2 s) := by
  intro a0 a1 a2
  unfold exchange
  try dsimp only
  repeat' (first
    | with_reducible exact Fr.refl _ _
    | intro _
    | with_reducible refine Fr.ite ?_ ?_
    | (with_reducible refine Fr.upd ?_ ?_; on_goal 2 => (fail_if_success (with_reducible exact Fr.refl _ _)); (constructor <;> first | exact fun h => absurd h (by decide) | exact fun _ => rfl))
    | ((with_reducible apply Fr.step); (on_goal 2 => with_reducible apply hpMod_fr); (on_goal 1 => decide))
    | ((with_reducible apply Fr.step); (on_goal 2 => with_reducible apply raise_fr); (on_goal 1 => decide))
    | split)

theorem admitSend_fr {s : State} : Fr 2097344 s (admitSend s) := by
  unfold admitSend
  try dsimp only
  repeat' (first
    | with_reducible exact Fr.refl _ _
    | intro _
    | with_reducible refine Fr.ite ?_ ?_
    | (with_reducible refine Fr.upd ?_ ?_; on_goal 2 => (fail_if_success (with_reducible exact Fr.refl _ _)); (constructor <;> first | exact fun h => absurd h (by decide) | exact fun _ => rfl))
    | ((with_reducible apply Fr.step); (on_goal 2 => with_reducible apply hingeOwn_fr); (on_goal 1 => decide))
    | split)

theorem driveB_fr {s : State} : ∀ a0, Fr 8 s (driveB a0 s) := by
  intro a0
  unfold driveB
  try dsimp only
  repeat' (first
    | with_reducible exact Fr.refl _ _
    | intro _
    | with_reducible refine Fr.ite ?_ ?_
    | (with_reducible refine Fr.upd ?_ ?_; on_goal 2 => (fail_if_success (with_reducible exact Fr.refl _ _)); (constructor <;> first | exact fun h => absurd h (by decide) | exact fun _ => rfl))
    | split)

theorem latePath_fr {s : State} : ∀ a0, Fr 2097352 s (latePath a0 s) := by
  intro a0
  unfold latePath
  try dsimp only
  repeat' (first
    | with_reducible exact Fr.refl _ _
    | intro _
    | with_reducible refine Fr.ite ?_ ?_
    | (with_reducible refine Fr.upd ?_ ?_; on_goal 2 => (fail_if_success (with_reducible exact Fr.refl _ _)); (constructor <;> first | exact fun h => absurd h (by decide) | exact fun _ => rfl))
    | ((with_reducible apply Fr.step); (on_goal 2 => with_reducible apply admitSend_fr); (on_goal 1 => decide))
    | ((with_reducible apply Fr.step); (on_goal 2 => with_reducible apply raise_fr); (on_goal 1 => decide))
    | ((with_reducible apply Fr.step); (on_goal 2 => with_reducible apply driveB_fr); (on_goal 1 => decide))
    | split)

theorem probeRspRx_fr {s : State} : ∀ a0 a1 a2 a3 a4 a5 a6, Fr 2097352 s (probeRspRx a0 a1 a2 a3 a4 a5 a6 s) := by
  intro a0 a1 a2 a3 a4 a5 a6
  unfold probeRspRx
  try dsimp only
  repeat' (first
    | with_reducible exact Fr.refl _ _
    | intro _
    | with_reducible refine Fr.ite ?_ ?_
    | (with_reducible refine Fr.upd ?_ ?_; on_goal 2 => (fail_if_success (with_reducible exact Fr.refl _ _)); (constructor <;> first | exact fun h => absurd h (by decide) | exact fun _ => rfl))
    | ((with_reducible apply Fr.step); (on_goal 2 => with_reducible apply hpMod_fr); (on_goal 1 => decide))
    | ((with_reducible apply Fr.step); (on_goal 2 => with_reducible apply exchange_fr); (on_goal 1 => decide))
    | ((with_reducible apply Fr.step); (on_goal 2 => with_reducible apply latePath_fr); (on_goal 1 => decide))
    | ((with_reducible apply Fr.step); (on_goal 2 => with_reducible apply probePort_fr); (on_goal 1 => decide))
    | split)

theorem wakeInDetect_fr {s : State} : Fr 8 s (wakeInDetect s) := by
  unfold wakeInDetect
  try dsimp only
  repeat' (first
    | with_reducible exact Fr.refl _ _
    | intro _
    | with_reducible refine Fr.ite ?_ ?_
    | (with_reducible refine Fr.upd ?_ ?_; on_goal 2 => (fail_if_success (with_reducible exact Fr.refl _ _)); (constructor <;> first | exact fun h => absurd h (by decide) | exact fun _ => rfl))
    | ((with_reducible apply Fr.step); (on_goal 2 => with_reducible apply wakeLatched_fr); (on_goal 1 => decide))
    | split)

theorem lateRequest_fr {s : State} : Fr 0 s (lateRequest s) := by
  unfold lateRequest
  try dsimp only
  repeat' (first
    | with_reducible exact Fr.refl _ _
    | intro _
    | with_reducible refine Fr.ite ?_ ?_
    | ((with_reducible apply Fr.step); (on_goal 2 => with_reducible apply raise_fr); (on_goal 1 => decide))
    | split)

theorem quiesceWrites_fr {s : State} : Fr 262144 s (quiesceWrites s) := by
  unfold quiesceWrites
  try dsimp only
  repeat' (first
    | with_reducible exact Fr.refl _ _
    | intro _
    | with_reducible refine Fr.ite ?_ ?_
    | (with_reducible refine Fr.upd ?_ ?_; on_goal 2 => (fail_if_success (with_reducible exact Fr.refl _ _)); (constructor <;> first | exact fun h => absurd h (by decide) | exact fun _ => rfl))
    | split)

theorem shQuiesce_fr {s : State} : Fr 2100864 s (shQuiesce s) := by
  unfold shQuiesce
  try dsimp only
  repeat' (first
    | with_reducible exact Fr.refl _ _
    | intro _
    | with_reducible refine Fr.ite ?_ ?_
    | (with_reducible refine Fr.upd ?_ ?_; on_goal 2 => (fail_if_success (with_reducible exact Fr.refl _ _)); (constructor <;> first | exact fun h => absurd h (by decide) | exact fun _ => rfl))
    | ((with_reducible apply Fr.step); (on_goal 2 => with_reducible apply chainFree_fr); (on_goal 1 => decide))
    | ((with_reducible apply Fr.step); (on_goal 2 => with_reducible apply shSet_fr); (on_goal 1 => decide))
    | split)

theorem benchQuiesce_fr {s : State} : Fr 16384 s (benchQuiesce s) := by
  unfold benchQuiesce
  try dsimp only
  repeat' (first
    | with_reducible exact Fr.refl _ _
    | intro _
    | with_reducible refine Fr.ite ?_ ?_
    | (with_reducible refine Fr.upd ?_ ?_; on_goal 2 => (fail_if_success (with_reducible exact Fr.refl _ _)); (constructor <;> first | exact fun h => absurd h (by decide) | exact fun _ => rfl))
    | ((with_reducible apply Fr.step); (on_goal 2 => with_reducible apply raise_fr); (on_goal 1 => decide))
    | split)

theorem driveA_fr {s : State} : ∀ a0, Fr 8 s (driveA a0 s) := by
  intro a0
  unfold driveA
  try dsimp only
  repeat' (first
    | with_reducible exact Fr.refl _ _
    | intro _
    | with_reducible refine Fr.ite ?_ ?_
    | (with_reducible refine Fr.upd ?_ ?_; on_goal 2 => (fail_if_success (with_reducible exact Fr.refl _ _)); (constructor <;> first | exact fun h => absurd h (by decide) | exact fun _ => rfl))
    | split)

theorem phyGate_fr {s : State} : Fr 7378692 s (phyGate s) := by
  unfold phyGate
  try dsimp only
  repeat' (first
    | with_reducible exact Fr.refl _ _
    | intro _
    | with_reducible refine Fr.foldl _ ?_ ?_
    | with_reducible refine Fr.ite ?_ ?_
    | ((with_reducible apply Fr.step); (on_goal 2 => with_reducible apply setDomain_fr); (on_goal 1 => decide))
    | split)

theorem quiesceStops_fr {s : State} : Fr 7462796 s (quiesceStops s) := by
  unfold quiesceStops
  try dsimp only
  repeat' (first
    | with_reducible exact Fr.refl _ _
    | intro _
    | with_reducible refine Fr.ite ?_ ?_
    | (with_reducible refine Fr.upd ?_ ?_; on_goal 2 => (fail_if_success (with_reducible exact Fr.refl _ _)); (constructor <;> first | exact fun h => absurd h (by decide) | exact fun _ => rfl))
    | ((with_reducible apply Fr.step); (on_goal 2 => with_reducible apply forcesEnd_fr); (on_goal 1 => decide))
    | ((with_reducible apply Fr.step); (on_goal 2 => with_reducible apply shQuiesce_fr); (on_goal 1 => decide))
    | ((with_reducible apply Fr.step); (on_goal 2 => with_reducible apply domainsTo_fr); (on_goal 1 => decide))
    | ((with_reducible apply Fr.step); (on_goal 2 => with_reducible apply benchQuiesce_fr); (on_goal 1 => decide))
    | ((with_reducible apply Fr.step); (on_goal 2 => with_reducible apply driveB_fr); (on_goal 1 => decide))
    | ((with_reducible apply Fr.step); (on_goal 2 => with_reducible apply driveA_fr); (on_goal 1 => decide))
    | ((with_reducible apply Fr.step); (on_goal 2 => with_reducible apply phyGate_fr); (on_goal 1 => decide))
    | split)

theorem quiesceEnter_fr {s : State} : Fr 8380366 s (quiesceEnter s) := by
  unfold quiesceEnter
  try dsimp only
  repeat' (first
    | with_reducible exact Fr.refl _ _
    | intro _
    | with_reducible refine Fr.ite ?_ ?_
    | ((with_reducible apply Fr.step); (on_goal 2 => with_reducible apply transition_fr); (on_goal 1 => decide))
    | ((with_reducible apply Fr.step); (on_goal 2 => with_reducible apply lateRequest_fr); (on_goal 1 => decide))
    | ((with_reducible apply Fr.step); (on_goal 2 => with_reducible apply revertCancel_fr); (on_goal 1 => decide))
    | ((with_reducible apply Fr.step); (on_goal 2 => with_reducible apply abandonCommands_fr); (on_goal 1 => decide))
    | ((with_reducible apply Fr.step); (on_goal 2 => with_reducible apply nvCut_fr); (on_goal 1 => decide))
    | ((with_reducible apply Fr.step); (on_goal 2 => with_reducible apply sessionClose_fr); (on_goal 1 => decide))
    | ((with_reducible apply Fr.step); (on_goal 2 => with_reducible apply quiesceWrites_fr); (on_goal 1 => decide))
    | ((with_reducible apply Fr.step); (on_goal 2 => with_reducible apply quiesceStops_fr); (on_goal 1 => decide))
    | split)

theorem cycleBody_fr {s : State} : ∀ a0, Fr 8388590 s (cycleBody a0 s) := by
  intro a0
  unfold cycleBody
  try dsimp only
  repeat' (first
    | with_reducible exact Fr.refl _ _
    | intro _
    | with_reducible refine Fr.ite ?_ ?_
    | (with_reducible refine Fr.upd ?_ ?_; on_goal 2 => (fail_if_success (with_reducible exact Fr.refl _ _)); (constructor <;> first | exact fun h => absurd h (by decide) | exact fun _ => rfl))
    | ((with_reducible apply Fr.step); (on_goal 2 => with_reducible apply cfgCheck_fr); (on_goal 1 => decide))
    | ((with_reducible apply Fr.step); (on_goal 2 => with_reducible apply shadowsApply_fr); (on_goal 1 => decide))
    | ((with_reducible apply Fr.step); (on_goal 2 => with_reducible apply cycleSteps_fr); (on_goal 1 => decide))
    | ((with_reducible apply Fr.step); (on_goal 2 => with_reducible apply quiesceEnter_fr); (on_goal 1 => decide))
    | split)

theorem budgetWatchdog_fr {s : State} : Fr 7395094 s (budgetWatchdog s) := by
  unfold budgetWatchdog
  try dsimp only
  repeat' (first
    | with_reducible exact Fr.refl _ _
    | intro _
    | with_reducible refine Fr.ite ?_ ?_
    | (with_reducible refine Fr.upd ?_ ?_; on_goal 2 => (fail_if_success (with_reducible exact Fr.refl _ _)); (constructor <;> first | exact fun h => absurd h (by decide) | exact fun _ => rfl))
    | ((with_reducible apply Fr.step); (on_goal 2 => with_reducible apply yieldNow_fr); (on_goal 1 => decide))
    | split)

theorem coreOp_fr {s : State} : ∀ a0 a1, Fr 7395078 s (coreOp a0 a1 s) := by
  intro a0 a1
  unfold coreOp
  try dsimp only
  repeat' (first
    | with_reducible exact Fr.refl _ _
    | intro _
    | with_reducible refine Fr.ite ?_ ?_
    | ((with_reducible apply Fr.step); (on_goal 2 => with_reducible apply continueFrom_fr); (on_goal 1 => decide))
    | ((with_reducible apply Fr.step); (on_goal 2 => with_reducible apply activeMod_fr); (on_goal 1 => decide))
    | split)

theorem waitOp_fr {s : State} : ∀ a0, Fr 7395094 s (waitOp a0 s) := by
  intro a0
  unfold waitOp
  try dsimp only
  repeat' (first
    | with_reducible exact Fr.refl _ _
    | intro _
    | with_reducible refine Fr.ite ?_ ?_
    | ((with_reducible apply Fr.trans); (on_goal 2 => ((with_reducible apply instr_fr); (on_goal 1 => decide))))
    | ((with_reducible apply Fr.step); (on_goal 2 => with_reducible apply coreOp_fr); (on_goal 1 => decide))
    | split)

theorem refuse_fr {s : State} : ∀ a0 a1 a2 a3 a4, Fr 32768 s (refuse a0 a1 a2 a3 a4 s) := by
  intro a0 a1 a2 a3 a4
  unfold refuse
  try dsimp only
  repeat' (first
    | with_reducible exact Fr.refl _ _
    | intro _
    | with_reducible refine Fr.ite ?_ ?_
    | ((with_reducible apply Fr.step); (on_goal 2 => with_reducible apply refusedEvent_fr); (on_goal 1 => decide))
    | ((with_reducible apply Fr.step); (on_goal 2 => with_reducible apply activeMod_fr); (on_goal 1 => decide))
    | split)

theorem vsndWordOp_fr {s : State} : ∀ a0 a1 a2 a3, Fr 33024 s (vsndWordOp a0 a1 a2 a3 s) := by
  intro a0 a1 a2 a3
  unfold vsndWordOp
  try dsimp only
  repeat' (first
    | with_reducible exact Fr.refl _ _
    | intro _
    | with_reducible refine Fr.ite ?_ ?_
    | ((with_reducible apply Fr.step); (on_goal 2 => with_reducible apply refuse_fr); (on_goal 1 => decide))
    | ((with_reducible apply Fr.step); (on_goal 2 => with_reducible apply activeMod_fr); (on_goal 1 => decide))
    | ((with_reducible apply Fr.step); (on_goal 2 => with_reducible apply slotMod_fr); (on_goal 1 => decide))
    | split)

theorem surgeClose_fr {s : State} : ∀ a0, Fr 8192 s (surgeClose a0 s) := by
  intro a0
  unfold surgeClose
  try dsimp only
  repeat' (first
    | with_reducible exact Fr.refl _ _
    | intro _
    | with_reducible refine Fr.ite ?_ ?_
    | (with_reducible refine Fr.upd ?_ ?_; on_goal 2 => (fail_if_success (with_reducible exact Fr.refl _ _)); (constructor <;> first | exact fun h => absurd h (by decide) | exact fun _ => rfl))
    | ((with_reducible apply Fr.step); (on_goal 2 => with_reducible apply clsPut_fr); (on_goal 1 => decide))
    | ((with_reducible apply Fr.step); (on_goal 2 => with_reducible apply raise_fr); (on_goal 1 => decide))
    | split)

theorem transact_fr {s : State} : ∀ a0 a1 a2, Fr 3937800 s (transact a0 a1 a2 s).2.2 := by
  intro a0 a1 a2
  unfold transact
  try dsimp only
  repeat' (first
    | with_reducible exact Fr.refl _ _
    | intro _
    | with_reducible refine Fr.ite ?_ ?_
    | ((with_reducible apply Fr.step); (on_goal 2 => with_reducible apply raise_fr); (on_goal 1 => decide))
    | ((with_reducible apply Fr.step); (on_goal 2 => with_reducible apply accessRead_fr); (on_goal 1 => decide))
    | ((with_reducible apply Fr.step); (on_goal 2 => with_reducible apply accessWrite_fr); (on_goal 1 => decide))
    | split)

theorem hostTransaction_fr {s : State} : ∀ a0 a1 a2, Fr 3937800 s (hostTransaction a0 a1 a2 s) := by
  intro a0 a1 a2
  unfold hostTransaction
  try dsimp only
  repeat' (first
    | with_reducible exact Fr.refl _ _
    | intro _
    | with_reducible refine Fr.ite ?_ ?_
    | (with_reducible refine Fr.upd ?_ ?_; on_goal 2 => (fail_if_success (with_reducible exact Fr.refl _ _)); (constructor <;> first | exact fun h => absurd h (by decide) | exact fun _ => rfl))
    | ((with_reducible apply Fr.step); (on_goal 2 => with_reducible apply transact_fr); (on_goal 1 => decide))
    | ((with_reducible apply Fr.step); (on_goal 2 => with_reducible apply emit_fr); (on_goal 1 => decide))
    | split)

theorem haltOp_fr {s : State} : ∀ a0, Fr 7395078 s (haltOp a0 s) := by
  intro a0
  unfold haltOp
  try dsimp only
  repeat' (first
    | with_reducible exact Fr.refl _ _
    | intro _
    | with_reducible refine Fr.ite ?_ ?_
    | ((with_reducible apply Fr.step); (on_goal 2 => with_reducible apply activeMod_fr); (on_goal 1 => decide))
    | ((with_reducible apply Fr.step); (on_goal 2 => with_reducible apply yieldNow_fr); (on_goal 1 => decide))
    | split)

theorem benchDecide_fr {s : State} : Fr 16384 s (benchDecide s) := by
  unfold benchDecide
  try dsimp only
  repeat' (first
    | with_reducible exact Fr.refl _ _
    | intro _
    | with_reducible refine Fr.ite ?_ ?_
    | (with_reducible refine Fr.upd ?_ ?_; on_goal 2 => (fail_if_success (with_reducible exact Fr.refl _ _)); (constructor <;> first | exact fun h => absurd h (by decide) | exact fun _ => rfl))
    | ((with_reducible apply Fr.step); (on_goal 2 => with_reducible apply benchShow_fr); (on_goal 1 => decide))
    | split)

theorem benchEnd_fr {s : State} : ∀ a0 a1, Fr 16384 s (benchEnd a0 a1 s) := by
  intro a0 a1
  unfold benchEnd
  try dsimp only
  repeat' (first
    | with_reducible exact Fr.refl _ _
    | intro _
    | with_reducible refine Fr.ite ?_ ?_
    | (with_reducible refine Fr.upd ?_ ?_; on_goal 2 => (fail_if_success (with_reducible exact Fr.refl _ _)); (constructor <;> first | exact fun h => absurd h (by decide) | exact fun _ => rfl))
    | ((with_reducible apply Fr.step); (on_goal 2 => with_reducible apply benchShow_fr); (on_goal 1 => decide))
    | ((with_reducible apply Fr.step); (on_goal 2 => with_reducible apply raiseTo_fr); (on_goal 1 => decide))
    | ((with_reducible apply Fr.step); (on_goal 2 => with_reducible apply benchDecide_fr); (on_goal 1 => decide))
    | split)

theorem overClose_fr {s : State} : ∀ a0, Fr 8192 s (overClose a0 s) := by
  intro a0
  unfold overClose
  try dsimp only
  repeat' (first
    | with_reducible exact Fr.refl _ _
    | intro _
    | with_reducible refine Fr.ite ?_ ?_
    | (with_reducible refine Fr.upd ?_ ?_; on_goal 2 => (fail_if_success (with_reducible exact Fr.refl _ _)); (constructor <;> first | exact fun h => absurd h (by decide) | exact fun _ => rfl))
    | ((with_reducible apply Fr.step); (on_goal 2 => with_reducible apply clsPut_fr); (on_goal 1 => decide))
    | ((with_reducible apply Fr.step); (on_goal 2 => with_reducible apply raise_fr); (on_goal 1 => decide))
    | split)

theorem intClose_fr {s : State} : ∀ a0, Fr 8192 s (intClose a0 s) := by
  intro a0
  unfold intClose
  try dsimp only
  repeat' (first
    | with_reducible exact Fr.refl _ _
    | intro _
    | with_reducible refine Fr.ite ?_ ?_
    | (with_reducible refine Fr.upd ?_ ?_; on_goal 2 => (fail_if_success (with_reducible exact Fr.refl _ _)); (constructor <;> first | exact fun h => absurd h (by decide) | exact fun _ => rfl))
    | ((with_reducible apply Fr.step); (on_goal 2 => with_reducible apply clsPut_fr); (on_goal 1 => decide))
    | ((with_reducible apply Fr.step); (on_goal 2 => with_reducible apply raise_fr); (on_goal 1 => decide))
    | split)

theorem dipClose_fr {s : State} : ∀ a0, Fr 8192 s (dipClose a0 s) := by
  intro a0
  unfold dipClose
  try dsimp only
  repeat' (first
    | with_reducible exact Fr.refl _ _
    | intro _
    | with_reducible refine Fr.ite ?_ ?_
    | (with_reducible refine Fr.upd ?_ ?_; on_goal 2 => (fail_if_success (with_reducible exact Fr.refl _ _)); (constructor <;> first | exact fun h => absurd h (by decide) | exact fun _ => rfl))
    | ((with_reducible apply Fr.step); (on_goal 2 => with_reducible apply clsPut_fr); (on_goal 1 => decide))
    | ((with_reducible apply Fr.step); (on_goal 2 => with_reducible apply raise_fr); (on_goal 1 => decide))
    | split)

theorem supplySample_fr {s : State} : ∀ a0 a1 a2, Fr 8192 s (supplySample a0 a1 a2 s) := by
  intro a0 a1 a2
  unfold supplySample
  try dsimp only
  repeat' (first
    | with_reducible exact Fr.refl _ _
    | intro _
    | with_reducible refine Fr.ite ?_ ?_
    | (with_reducible refine Fr.upd ?_ ?_; on_goal 2 => (fail_if_success (with_reducible exact Fr.refl _ _)); (constructor <;> first | exact fun h => absurd h (by decide) | exact fun _ => rfl))
    | ((with_reducible apply Fr.step); (on_goal 2 => with_reducible apply clsPut_fr); (on_goal 1 => decide))
    | ((with_reducible apply Fr.step); (on_goal 2 => with_reducible apply overClose_fr); (on_goal 1 => decide))
    | ((with_reducible apply Fr.step); (on_goal 2 => with_reducible apply surgeClose_fr); (on_goal 1 => decide))
    | ((with_reducible apply Fr.step); (on_goal 2 => with_reducible apply intClose_fr); (on_goal 1 => decide))
    | ((with_reducible apply Fr.step); (on_goal 2 => with_reducible apply dipClose_fr); (on_goal 1 => decide))
    | split)

theorem originAmendment_fr {s : State} : Fr 2097344 s (originAmendment s) := by
  unfold originAmendment
  try dsimp only
  repeat' (first
    | with_reducible exact Fr.refl _ _
    | intro _
    | with_reducible refine Fr.foldl _ ?_ ?_
    | with_reducible refine Fr.elim ?_ ?_
    | with_reducible refine Fr.ite ?_ ?_
    | (with_reducible refine Fr.upd ?_ ?_; on_goal 2 => (fail_if_success (with_reducible exact Fr.refl _ _)); (constructor <;> first | exact fun h => absurd h (by decide) | exact fun _ => rfl))
    | ((with_reducible apply Fr.step); (on_goal 2 => with_reducible apply hingeOwn_fr); (on_goal 1 => decide))
    | split)

theorem vrcvWordOp_fr {s : State} : ∀ a0 a1 a2 a3, Fr 4227072 s (vrcvWordOp a0 a1 a2 a3 s) := by
  intro a0 a1 a2 a3
  unfold vrcvWordOp
  try dsimp only
  repeat' (first
    | with_reducible exact Fr.refl _ _
    | intro _
    | with_reducible refine Fr.ite ?_ ?_
    | ((with_reducible apply Fr.step); (on_goal 2 => with_reducible apply refuse_fr); (on_goal 1 => decide))
    | ((with_reducible apply Fr.step); (on_goal 2 => with_reducible apply drawn_fr); (on_goal 1 => decide))
    | ((with_reducible apply Fr.step); (on_goal 2 => with_reducible apply activeMod_fr); (on_goal 1 => decide))
    | split)

theorem dmaStore_fr {s : State} : ∀ a0 a1, Fr 33152 s (dmaStore a0 a1 s) := by
  intro a0 a1
  unfold dmaStore
  try dsimp only
  repeat' (first
    | with_reducible exact Fr.refl _ _
    | intro _
    | with_reducible refine Fr.ite ?_ ?_
    | (with_reducible refine Fr.upd ?_ ?_; on_goal 2 => (fail_if_success (with_reducible exact Fr.refl _ _)); (constructor <;> first | exact fun h => absurd h (by decide) | exact fun _ => rfl))
    | ((with_reducible apply Fr.step); (on_goal 2 => with_reducible apply dataCoreMod_fr); (on_goal 1 => decide))
    | ((with_reducible apply Fr.step); (on_goal 2 => with_reducible apply slotMod_fr); (on_goal 1 => decide))
    | split)

theorem dmaCorrect_fr {s : State} : ∀ a0, Fr 32768 s (dmaCorrect a0 s) := by
  intro a0
  unfold dmaCorrect
  try dsimp only
  repeat' (first
    | with_reducible exact Fr.refl _ _
    | intro _
    | with_reducible refine Fr.foldl _ ?_ ?_
    | with_reducible refine Fr.ite ?_ ?_
    | ((with_reducible apply Fr.step); (on_goal 2 => with_reducible apply raise_fr); (on_goal 1 => decide))
    | ((with_reducible apply Fr.step); (on_goal 2 => with_reducible apply dataCoreMod_fr); (on_goal 1 => decide))
    | split)

theorem dmaFire_fr {s : State} : ∀ a0, Fr 7395206 s (dmaFire a0 s) := by
  intro a0
  unfold dmaFire
  try dsimp only
  repeat' (first
    | with_reducible exact Fr.refl _ _
    | intro _
    | with_reducible refine Fr.elim ?_ ?_
    | with_reducible refine Fr.ite ?_ ?_
    | ((with_reducible apply Fr.step); (on_goal 2 => with_reducible apply skipped_fr); (on_goal 1 => decide))
    | ((with_reducible apply Fr.step); (on_goal 2 => with_reducible apply yieldNow_fr); (on_goal 1 => decide))
    | ((with_reducible apply Fr.step); (on_goal 2 => with_reducible apply dmaStore_fr); (on_goal 1 => decide))
    | ((with_reducible apply Fr.step); (on_goal 2 => with_reducible apply dmaCorrect_fr); (on_goal 1 => decide))
    | split)

theorem vsndCompleteOp_fr {s : State} : ∀ a0 a1 a2 a3, Fr 33024 s (vsndCompleteOp a0 a1 a2 a3 s) := by
  intro a0 a1 a2 a3
  unfold vsndCompleteOp
  try dsimp only
  repeat' (first
    | with_reducible exact Fr.refl _ _
    | intro _
    | with_reducible refine Fr.ite ?_ ?_
    | (with_reducible refine Fr.upd ?_ ?_; on_goal 2 => (fail_if_success (with_reducible exact Fr.refl _ _)); (constructor <;> first | exact fun h => absurd h (by decide) | exact fun _ => rfl))
    | ((with_reducible apply Fr.step); (on_goal 2 => with_reducible apply refuse_fr); (on_goal 1 => decide))
    | ((with_reducible apply Fr.step); (on_goal 2 => with_reducible apply activeMod_fr); (on_goal 1 => decide))
    | ((with_reducible apply Fr.step); (on_goal 2 => with_reducible apply slotMod_fr); (on_goal 1 => decide))
    | split)

theorem guardianCutPoint_fr {s : State} : ∀ a0, Fr 256 s (guardianCutPoint a0 s) := by
  intro a0
  unfold guardianCutPoint
  try dsimp only
  repeat' (first
    | with_reducible exact Fr.refl _ _
    | intro _
    | with_reducible refine Fr.ite ?_ ?_
    | ((with_reducible apply Fr.step); (on_goal 2 => with_reducible apply guardianCut_fr); (on_goal 1 => decide))
    | split)

theorem probeInterval_fr {s : State} : Fr 2097344 s (probeInterval s) := by
  unfold probeInterval
  try dsimp only
  repeat' (first
    | with_reducible exact Fr.refl _ _
    | intro _
    | with_reducible refine Fr.foldl _ ?_ ?_
    | with_reducible refine Fr.ite ?_ ?_
    | ((with_reducible apply Fr.step); (on_goal 2 => with_reducible apply probePort_fr); (on_goal 1 => decide))
    | split)

theorem cntrOp_fr {s : State} : ∀ a0 a1 a2 a3, Fr 32768 s (cntrOp a0 a1 a2 a3 s) := by
  intro a0 a1 a2 a3
  unfold cntrOp
  try dsimp only
  repeat' (first
    | with_reducible exact Fr.refl _ _
    | intro _
    | with_reducible refine Fr.ite ?_ ?_
    | ((with_reducible apply Fr.step); (on_goal 2 => with_reducible apply refuse_fr); (on_goal 1 => decide))
    | ((with_reducible apply Fr.step); (on_goal 2 => with_reducible apply activeMod_fr); (on_goal 1 => decide))
    | split)

theorem burstQuiet_fr {s : State} : Fr 8 s (burstQuiet s) := by
  unfold burstQuiet
  try dsimp only
  repeat' (first
    | with_reducible exact Fr.refl _ _
    | intro _
    | with_reducible refine Fr.ite ?_ ?_
    | (with_reducible refine Fr.upd ?_ ?_; on_goal 2 => (fail_if_success (with_reducible exact Fr.refl _ _)); (constructor <;> first | exact fun h => absurd h (by decide) | exact fun _ => rfl))
    | ((with_reducible apply Fr.step); (on_goal 2 => with_reducible apply driveA_fr); (on_goal 1 => decide))
    | split)

theorem memRead_fr {s : State} {n : Nat} {a : BitVec 5} {imm : Half} {f : Nat → Core → Core} {c : Core} :
    Fr 7395078 s (memRead n a imm f c s) := by
  unfold memRead
  dsimp only
  refine Fr.ite (Fr.weaken (by decide) (yieldNow_fr _)) ?_
  split
  · exact Fr.weaken (by decide) (yieldNow_fr _)
  · exact Fr.step (by decide) (coreOp_fr _ _) (Fr.weaken (by decide) (raise_fr _ _ _))
  · exact Fr.weaken (by decide) (coreOp_fr _ _)
theorem load_fr {s : State} : ∀ a0 a1 a2 a3, Fr 7395094 s (load a0 a1 a2 a3 s) := by
  intro a0 a1 a2 a3
  unfold load
  try dsimp only
  repeat' (first
    | with_reducible exact Fr.refl _ _
    | intro _
    | with_reducible refine Fr.ite ?_ ?_
    | ((with_reducible apply Fr.trans); (on_goal 2 => ((with_reducible apply instr_fr); (on_goal 1 => decide))))
    | ((with_reducible apply Fr.step); (on_goal 2 => with_reducible apply memRead_fr); (on_goal 1 => decide))
    | split)

theorem limpApply_fr {s : State} : Fr 8388606 s (limpApply s) := by
  unfold limpApply
  try dsimp only
  repeat' (first
    | with_reducible exact Fr.refl _ _
    | intro _
    | with_reducible refine Fr.ite ?_ ?_
    | (with_reducible refine Fr.upd ?_ ?_; on_goal 2 => (fail_if_success (with_reducible exact Fr.refl _ _)); (constructor <;> first | exact fun h => absurd h (by decide) | exact fun _ => rfl))
    | ((with_reducible apply Fr.step); (on_goal 2 => with_reducible apply resetDue_fr); (on_goal 1 => decide))
    | ((with_reducible apply Fr.step); (on_goal 2 => with_reducible apply cmdsRun_fr); (on_goal 1 => decide))
    | split)

theorem admitRefused_fr {s : State} : ∀ a0, Fr 72 s (admitRefused a0 s) := by
  intro a0
  unfold admitRefused
  try dsimp only
  repeat' (first
    | with_reducible exact Fr.refl _ _
    | intro _
    | with_reducible refine Fr.ite ?_ ?_
    | (with_reducible refine Fr.upd ?_ ?_; on_goal 2 => (fail_if_success (with_reducible exact Fr.refl _ _)); (constructor <;> first | exact fun h => absurd h (by decide) | exact fun _ => rfl))
    | ((with_reducible apply Fr.step); (on_goal 2 => with_reducible apply raise_fr); (on_goal 1 => decide))
    | ((with_reducible apply Fr.step); (on_goal 2 => with_reducible apply driveB_fr); (on_goal 1 => decide))
    | ((with_reducible apply Fr.step); (on_goal 2 => with_reducible apply driveA_fr); (on_goal 1 => decide))
    | split)

theorem admitRefRx_fr {s : State} : ∀ a0 a1 a2 a3, Fr 2097352 s (admitRefRx a0 a1 a2 a3 s) := by
  intro a0 a1 a2 a3
  unfold admitRefRx
  try dsimp only
  repeat' (first
    | with_reducible exact Fr.refl _ _
    | intro _
    | with_reducible refine Fr.ite ?_ ?_
    | ((with_reducible apply Fr.step); (on_goal 2 => with_reducible apply admitRefused_fr); (on_goal 1 => decide))
    | ((with_reducible apply Fr.step); (on_goal 2 => with_reducible apply hingeFwd_fr); (on_goal 1 => decide))
    | split)

theorem countChannel_fr {s : State} : ∀ a0, Fr 4096 s (countChannel a0 s) := by
  intro a0
  unfold countChannel
  try dsimp only
  repeat' (first
    | with_reducible exact Fr.refl _ _
    | intro _
    | with_reducible refine Fr.ite ?_ ?_
    | (with_reducible refine Fr.upd ?_ ?_; on_goal 2 => (fail_if_success (with_reducible exact Fr.refl _ _)); (constructor <;> first | exact fun h => absurd h (by decide) | exact fun _ => rfl))
    | ((with_reducible apply Fr.step); (on_goal 2 => with_reducible apply memSettle_fr); (on_goal 1 => decide))
    | ((with_reducible apply Fr.step); (on_goal 2 => with_reducible apply chanMod_fr); (on_goal 1 => decide))
    | split)

theorem benchSlotRun_fr {s : State} : ∀ a0, Fr 16400 s (benchSlotRun a0 s) := by
  intro a0
  unfold benchSlotRun
  try dsimp only
  repeat' (first
    | with_reducible exact Fr.refl _ _
    | intro _
    | with_reducible refine Fr.ite ?_ ?_
    | (with_reducible refine Fr.upd ?_ ?_; on_goal 2 => (fail_if_success (with_reducible exact Fr.refl _ _)); (constructor <;> first | exact fun h => absurd h (by decide) | exact fun _ => rfl))
    | ((with_reducible apply Fr.trans); (on_goal 2 => ((with_reducible apply gridFire_fr); (on_goal 1 => decide))))
    | ((with_reducible apply Fr.trans); (on_goal 2 => ((with_reducible apply onDomain_fr); (on_goal 1 => decide))))
    | ((with_reducible apply Fr.step); (on_goal 2 => with_reducible apply benchDecide_fr); (on_goal 1 => decide))
    | split)

theorem cfgStore_fr {s : State} : Fr 262144 s (cfgStore s) := by
  unfold cfgStore
  try dsimp only
  repeat' (first
    | with_reducible exact Fr.refl _ _
    | intro _
    | with_reducible refine Fr.ite ?_ ?_
    | (with_reducible refine Fr.upd ?_ ?_; on_goal 2 => (fail_if_success (with_reducible exact Fr.refl _ _)); (constructor <;> first | exact fun h => absurd h (by decide) | exact fun _ => rfl))
    | split)

theorem eqLinkUp_fr {s : State} : ∀ a0 a1, Fr 2097664 s (eqLinkUp a0 a1 s) := by
  intro a0 a1
  unfold eqLinkUp
  try dsimp only
  repeat' (first
    | with_reducible exact Fr.refl _ _
    | intro _
    | with_reducible refine Fr.elim ?_ ?_
    | with_reducible refine Fr.ite ?_ ?_
    | (with_reducible refine Fr.upd ?_ ?_; on_goal 2 => (fail_if_success (with_reducible exact Fr.refl _ _)); (constructor <;> first | exact fun h => absurd h (by decide) | exact fun _ => rfl))
    | ((with_reducible apply Fr.step); (on_goal 2 => with_reducible apply eqMod_fr); (on_goal 1 => decide))
    | ((with_reducible apply Fr.step); (on_goal 2 => with_reducible apply pfcCheck_fr); (on_goal 1 => decide))
    | ((with_reducible apply Fr.step); (on_goal 2 => with_reducible apply raise_fr); (on_goal 1 => decide))
    | split)

theorem pwrOnRun_fr {s : State} : ∀ a0, Fr 20 s (pwrOnRun a0 s) := by
  intro a0
  unfold pwrOnRun
  try dsimp only
  repeat' (first
    | with_reducible exact Fr.refl _ _
    | intro _
    | with_reducible refine Fr.ite ?_ ?_
    | ((with_reducible apply Fr.trans); (on_goal 2 => ((with_reducible apply gridFire_fr); (on_goal 1 => decide))))
    | ((with_reducible apply Fr.step); (on_goal 2 => with_reducible apply planFire_fr); (on_goal 1 => decide))
    | split)

theorem pllRetry_fr {s : State} : Fr 8 s (pllRetry s) := by
  unfold pllRetry
  try dsimp only
  repeat' (first
    | with_reducible exact Fr.refl _ _
    | intro _
    | with_reducible refine Fr.ite ?_ ?_
    | (with_reducible refine Fr.upd ?_ ?_; on_goal 2 => (fail_if_success (with_reducible exact Fr.refl _ _)); (constructor <;> first | exact fun h => absurd h (by decide) | exact fun _ => rfl))
    | split)

theorem macControl_fr {s : State} : ∀ a0 a1, Fr 2097664 s (macControl a0 a1 s) := by
  intro a0 a1
  unfold macControl
  try dsimp only
  repeat' (first
    | with_reducible exact Fr.refl _ _
    | intro _
    | with_reducible refine Fr.ite ?_ ?_
    | (with_reducible refine Fr.upd ?_ ?_; on_goal 2 => (fail_if_success (with_reducible exact Fr.refl _ _)); (constructor <;> first | exact fun h => absurd h (by decide) | exact fun _ => rfl))
    | ((with_reducible apply Fr.step); (on_goal 2 => with_reducible apply eqMod_fr); (on_goal 1 => decide))
    | ((with_reducible apply Fr.step); (on_goal 2 => with_reducible apply eqStart_fr); (on_goal 1 => decide))
    | split)

theorem benchRequestEnd_fr {s : State} : ∀ a0 a1, Fr 49152 s (benchRequestEnd a0 a1 s) := by
  intro a0 a1
  unfold benchRequestEnd
  try dsimp only
  repeat' (first
    | with_reducible exact Fr.refl _ _
    | intro _
    | with_reducible refine Fr.elim ?_ ?_
    | with_reducible refine Fr.ite ?_ ?_
    | ((with_reducible apply Fr.step); (on_goal 2 => with_reducible apply benchEnd_fr); (on_goal 1 => decide))
    | ((with_reducible apply Fr.step); (on_goal 2 => with_reducible apply repairEnd_fr); (on_goal 1 => decide))
    | split)

theorem wakeChannelDetect_fr {s : State} : Fr 8 s (wakeChannelDetect s) := by
  unfold wakeChannelDetect
  try dsimp only
  repeat' (first
    | with_reducible exact Fr.refl _ _
    | intro _
    | with_reducible refine Fr.ite ?_ ?_
    | ((with_reducible apply Fr.step); (on_goal 2 => with_reducible apply wakeLatched_fr); (on_goal 1 => decide))
    | split)

theorem vnSlotTx_fr {s : State} : ∀ a0, Fr 2097408 s (vnSlotTx a0 s) := by
  intro a0
  unfold vnSlotTx
  try dsimp only
  repeat' (first
    | with_reducible exact Fr.refl _ _
    | intro _
    | with_reducible refine Fr.ite ?_ ?_
    | (with_reducible refine Fr.upd ?_ ?_; on_goal 2 => (fail_if_success (with_reducible exact Fr.refl _ _)); (constructor <;> first | exact fun h => absurd h (by decide) | exact fun _ => rfl))
    | ((with_reducible apply Fr.step); (on_goal 2 => with_reducible apply emit_fr); (on_goal 1 => decide))
    | ((with_reducible apply Fr.step); (on_goal 2 => with_reducible apply gotMod_fr); (on_goal 1 => decide))
    | split)

theorem vnCommitRun_fr {s : State} : ∀ a0, Fr 272 s (vnCommitRun a0 s) := by
  intro a0
  unfold vnCommitRun
  try dsimp only
  repeat' (first
    | with_reducible exact Fr.refl _ _
    | intro _
    | with_reducible refine Fr.ite ?_ ?_
    | ((with_reducible apply Fr.trans); (on_goal 2 => ((with_reducible apply gridFire_fr); (on_goal 1 => decide))))
    | ((with_reducible apply Fr.step); (on_goal 2 => with_reducible apply vnCommitFire_fr); (on_goal 1 => decide))
    | split)

theorem probeRx_fr {s : State} : ∀ a0 a1 a2 a3 a4, Fr 2097344 s (probeRx a0 a1 a2 a3 a4 s) := by
  intro a0 a1 a2 a3 a4
  unfold probeRx
  try dsimp only
  repeat' (first
    | with_reducible exact Fr.refl _ _
    | intro _
    | with_reducible refine Fr.ite ?_ ?_
    | (with_reducible refine Fr.upd ?_ ?_; on_goal 2 => (fail_if_success (with_reducible exact Fr.refl _ _)); (constructor <;> first | exact fun h => absurd h (by decide) | exact fun _ => rfl))
    | ((with_reducible apply Fr.step); (on_goal 2 => with_reducible apply resettle_fr); (on_goal 1 => decide))
    | ((with_reducible apply Fr.step); (on_goal 2 => with_reducible apply hpMod_fr); (on_goal 1 => decide))
    | ((with_reducible apply Fr.step); (on_goal 2 => with_reducible apply hingeOwn_fr); (on_goal 1 => decide))
    | split)

theorem tfOutbound_fr {s : State} : ∀ a0 a1 a2, Fr 2097312 s (tfOutbound a0 a1 a2 s) := by
  intro a0 a1 a2
  unfold tfOutbound
  try dsimp only
  repeat' (first
    | with_reducible exact Fr.refl _ _
    | intro _
    | with_reducible refine Fr.ite ?_ ?_
    | (with_reducible refine Fr.upd ?_ ?_; on_goal 2 => (fail_if_success (with_reducible exact Fr.refl _ _)); (constructor <;> first | exact fun h => absurd h (by decide) | exact fun _ => rfl))
    | ((with_reducible apply Fr.step); (on_goal 2 => with_reducible apply lineTimeMod_fr); (on_goal 1 => decide))
    | ((with_reducible apply Fr.step); (on_goal 2 => with_reducible apply badCopy_fr); (on_goal 1 => decide))
    | ((with_reducible apply Fr.step); (on_goal 2 => with_reducible apply emit_fr); (on_goal 1 => decide))
    | ((with_reducible apply Fr.step); (on_goal 2 => with_reducible apply shortTurn_fr); (on_goal 1 => decide))
    | split)

theorem chkLand_fr {s : State} : ∀ a0 a1, Fr 32768 s (chkLand a0 a1 s) := by
  intro a0 a1
  unfold chkLand
  try dsimp only
  repeat' (first
    | with_reducible exact Fr.refl _ _
    | intro _
    | with_reducible refine Fr.ite ?_ ?_
    | (with_reducible refine Fr.upd ?_ ?_; on_goal 2 => (fail_if_success (with_reducible exact Fr.refl _ _)); (constructor <;> first | exact fun h => absurd h (by decide) | exact fun _ => rfl))
    | ((with_reducible apply Fr.step); (on_goal 2 => with_reducible apply revertOverlay_fr); (on_goal 1 => decide))
    | split)

theorem publishNone_fr {s : State} : Fr 128 s (publishNone s) := by
  unfold publishNone
  try dsimp only
  repeat' (first
    | with_reducible exact Fr.refl _ _
    | intro _
    | with_reducible refine Fr.ite ?_ ?_
    | (with_reducible refine Fr.upd ?_ ?_; on_goal 2 => (fail_if_success (with_reducible exact Fr.refl _ _)); (constructor <;> first | exact fun h => absurd h (by decide) | exact fun _ => rfl))
    | split)

theorem publish_fr {s : State} : ∀ a0 a1, Fr 128 s (publish a0 a1 s) := by
  intro a0 a1
  unfold publish
  try dsimp only
  repeat' (first
    | with_reducible exact Fr.refl _ _
    | intro _
    | with_reducible refine Fr.ite ?_ ?_
    | (with_reducible refine Fr.upd ?_ ?_; on_goal 2 => (fail_if_success (with_reducible exact Fr.refl _ _)); (constructor <;> first | exact fun h => absurd h (by decide) | exact fun _ => rfl))
    | split)

theorem tfRead_fr {s : State} : Fr 2097376 s (tfRead s) := by
  unfold tfRead
  try dsimp only
  repeat' (first
    | with_reducible exact Fr.refl _ _
    | intro _
    | with_reducible refine Fr.ite ?_ ?_
    | (with_reducible refine Fr.upd ?_ ?_; on_goal 2 => (fail_if_success (with_reducible exact Fr.refl _ _)); (constructor <;> first | exact fun h => absurd h (by decide) | exact fun _ => rfl))
    | ((with_reducible apply Fr.step); (on_goal 2 => with_reducible apply acceptCopy_fr); (on_goal 1 => decide))
    | ((with_reducible apply Fr.step); (on_goal 2 => with_reducible apply publishNone_fr); (on_goal 1 => decide))
    | ((with_reducible apply Fr.step); (on_goal 2 => with_reducible apply publish_fr); (on_goal 1 => decide))
    | ((with_reducible apply Fr.step); (on_goal 2 => with_reducible apply raise_fr); (on_goal 1 => decide))
    | ((with_reducible apply Fr.step); (on_goal 2 => with_reducible apply sleepWatch_fr); (on_goal 1 => decide))
    | split)

theorem inbandIdleTimeout_fr {s : State} : ∀ a0, Fr 3147456 s (inbandIdleTimeout a0 s) := by
  intro a0
  unfold inbandIdleTimeout
  try dsimp only
  repeat' (first
    | with_reducible exact Fr.refl _ _
    | intro _
    | with_reducible refine Fr.ite ?_ ?_
    | ((with_reducible apply Fr.step); (on_goal 2 => with_reducible apply sessionClose_fr); (on_goal 1 => decide))
    | split)

theorem quiesceDone_fr {s : State} : Fr 2097134 s (quiesceDone s) := by
  unfold quiesceDone
  try dsimp only
  repeat' (first
    | with_reducible exact Fr.refl _ _
    | intro _
    | with_reducible refine Fr.ite ?_ ?_
    | ((with_reducible apply Fr.step); (on_goal 2 => with_reducible apply goSleep_fr); (on_goal 1 => decide))
    | split)

theorem flushJnv_fr {s : State} : ∀ n, Fr 393216 s (flushJnv n s) := by
  intro n
  induction n generalizing s with
  | zero => exact Fr.refl _ _
  | succ n ih =>
    unfold flushJnv
    split
    · exact Fr.refl _ _
    · refine Fr.trans ?_ ih
      refine Fr.step (by decide) (jnvMark_fr _) ?_
      constructor <;> first | exact fun h => absurd h (by decide) | exact fun _ => rfl
theorem cfgDisarm_fr {s : State} : Fr 3147264 s (cfgDisarm s) := by
  unfold cfgDisarm
  try dsimp only
  repeat' (first
    | with_reducible exact Fr.refl _ _
    | intro _
    | with_reducible refine Fr.ite ?_ ?_
    | ((with_reducible apply Fr.step); (on_goal 2 => with_reducible apply pulse_fr); (on_goal 1 => decide))
    | split)

theorem cycleBoundary_fr {s : State} : ∀ a0 a1, Fr 48 s (cycleBoundary a0 a1 s) := by
  intro a0 a1
  unfold cycleBoundary
  try dsimp only
  repeat' (first
    | with_reducible exact Fr.refl _ _
    | intro _
    | with_reducible refine Fr.ite ?_ ?_
    | (with_reducible refine Fr.upd ?_ ?_; on_goal 2 => (fail_if_success (with_reducible exact Fr.refl _ _)); (constructor <;> first | exact fun h => absurd h (by decide) | exact fun _ => rfl))
    | split)

theorem eqTxtsOp_fr {s : State} : ∀ a0 a1 a2, Fr 33280 s (eqTxtsOp a0 a1 a2 s) := by
  intro a0 a1 a2
  unfold eqTxtsOp
  try dsimp only
  repeat' (first
    | with_reducible exact Fr.refl _ _
    | intro _
    | with_reducible refine Fr.ite ?_ ?_
    | ((with_reducible apply Fr.step); (on_goal 2 => with_reducible apply activeMod_fr); (on_goal 1 => decide))
    | ((with_reducible apply Fr.step); (on_goal 2 => with_reducible apply stampPop_fr); (on_goal 1 => decide))
    | split)

theorem chkpStatOp_fr {s : State} : ∀ a0 a1, Fr 4227072 s (chkpStatOp a0 a1 s) := by
  intro a0 a1
  unfold chkpStatOp
  try dsimp only
  repeat' (first
    | with_reducible exact Fr.refl _ _
    | intro _
    | with_reducible refine Fr.ite ?_ ?_
    | ((with_reducible apply Fr.step); (on_goal 2 => with_reducible apply activeMod_fr); (on_goal 1 => decide))
    | ((with_reducible apply Fr.step); (on_goal 2 => with_reducible apply drawn_fr); (on_goal 1 => decide))
    | split)

theorem lineDown2s_fr {s : State} : ∀ a0, Fr 0 s (lineDown2s a0 s) := by
  intro a0
  unfold lineDown2s
  try dsimp only
  repeat' (first
    | with_reducible exact Fr.refl _ _
    | intro _
    | with_reducible refine Fr.ite ?_ ?_
    | ((with_reducible apply Fr.step); (on_goal 2 => with_reducible apply raise_fr); (on_goal 1 => decide))
    | split)

theorem takeoverOverlay_fr {s : State} : Fr 4227072 s (takeoverOverlay s) := by
  unfold takeoverOverlay
  try dsimp only
  repeat' (first
    | with_reducible exact Fr.refl _ _
    | intro _
    | with_reducible refine Fr.ite ?_ ?_
    | (with_reducible refine Fr.upd ?_ ?_; on_goal 2 => (fail_if_success (with_reducible exact Fr.refl _ _)); (constructor <;> first | exact fun h => absurd h (by decide) | exact fun _ => rfl))
    | ((with_reducible apply Fr.step); (on_goal 2 => with_reducible apply drawn_fr); (on_goal 1 => decide))
    | ((with_reducible apply Fr.step); (on_goal 2 => with_reducible apply raise_fr); (on_goal 1 => decide))
    | split)

theorem brOp_fr {s : State} : ∀ a0 a1 a2, Fr 7395078 s (brOp a0 a1 a2 s) := by
  intro a0 a1 a2
  unfold brOp
  try dsimp only
  repeat' (first
    | with_reducible exact Fr.refl _ _
    | intro _
    | with_reducible refine Fr.ite ?_ ?_
    | (with_reducible refine Fr.upd ?_ ?_; on_goal 2 => (fail_if_success (with_reducible exact Fr.refl _ _)); (constructor <;> first | exact fun h => absurd h (by decide) | exact fun _ => rfl))
    | ((with_reducible apply Fr.step); (on_goal 2 => with_reducible apply continueFrom_fr); (on_goal 1 => decide))
    | ((with_reducible apply Fr.step); (on_goal 2 => with_reducible apply yieldNow_fr); (on_goal 1 => decide))
    | ((with_reducible apply Fr.step); (on_goal 2 => with_reducible apply jump_fr); (on_goal 1 => decide))
    | split)

theorem bufRefused_fr {s : State} : ∀ a0 a1 a2 a3, Fr 32768 s (bufRefused a0 a1 a2 a3 s) := by
  intro a0 a1 a2 a3
  unfold bufRefused
  try dsimp only
  repeat' (first
    | with_reducible exact Fr.refl _ _
    | intro _
    | with_reducible refine Fr.ite ?_ ?_
    | ((with_reducible apply Fr.step); (on_goal 2 => with_reducible apply raise_fr); (on_goal 1 => decide))
    | ((with_reducible apply Fr.step); (on_goal 2 => with_reducible apply activeMod_fr); (on_goal 1 => decide))
    | split)

theorem bufWrOp_fr {s : State} : ∀ a0 a1 a2 a3, Fr 33792 s (bufWrOp a0 a1 a2 a3 s) := by
  intro a0 a1 a2 a3
  unfold bufWrOp
  try dsimp only
  repeat' (first
    | with_reducible exact Fr.refl _ _
    | intro _
    | with_reducible refine Fr.ite ?_ ?_
    | ((with_reducible apply Fr.step); (on_goal 2 => with_reducible apply bufRefused_fr); (on_goal 1 => decide))
    | ((with_reducible apply Fr.step); (on_goal 2 => with_reducible apply poolUncorr_fr); (on_goal 1 => decide))
    | ((with_reducible apply Fr.step); (on_goal 2 => with_reducible apply activeMod_fr); (on_goal 1 => decide))
    | ((with_reducible apply Fr.step); (on_goal 2 => with_reducible apply bufPut_fr); (on_goal 1 => decide))
    | split)

theorem domainSwitchTimeout_fr {s : State} : ∀ a0, Fr 0 s (domainSwitchTimeout a0 s) := by
  intro a0
  unfold domainSwitchTimeout
  try dsimp only
  repeat' (first
    | with_reducible exact Fr.refl _ _
    | intro _
    | with_reducible refine Fr.ite ?_ ?_
    | ((with_reducible apply Fr.step); (on_goal 2 => with_reducible apply raise_fr); (on_goal 1 => decide))
    | split)

theorem measureOne_fr {s : State} : ∀ a0 a1 a2, Fr 8192 s (measureOne a0 a1 a2 s) := by
  intro a0 a1 a2
  unfold measureOne
  try dsimp only
  repeat' (first
    | with_reducible exact Fr.refl _ _
    | intro _
    | with_reducible refine Fr.ite ?_ ?_
    | (with_reducible refine Fr.upd ?_ ?_; on_goal 2 => (fail_if_success (with_reducible exact Fr.refl _ _)); (constructor <;> first | exact fun h => absurd h (by decide) | exact fun _ => rfl))
    | split)

theorem pllLockTimeout_fr {s : State} : Fr 14 s (pllLockTimeout s) := by
  unfold pllLockTimeout
  try dsimp only
  repeat' (first
    | with_reducible exact Fr.refl _ _
    | intro _
    | with_reducible refine Fr.ite ?_ ?_
    | (with_reducible refine Fr.upd ?_ ?_; on_goal 2 => (fail_if_success (with_reducible exact Fr.refl _ _)); (constructor <;> first | exact fun h => absurd h (by decide) | exact fun _ => rfl))
    | ((with_reducible apply Fr.step); (on_goal 2 => with_reducible apply goLimp_fr); (on_goal 1 => decide))
    | split)

theorem rateUpdate_fr {s : State} : ∀ a0, Fr 32 s (rateUpdate a0 s) := by
  intro a0
  unfold rateUpdate
  try dsimp only
  repeat' (first
    | with_reducible exact Fr.refl _ _
    | intro _
    | with_reducible refine Fr.ite ?_ ?_
    | (with_reducible refine Fr.upd ?_ ?_; on_goal 2 => (fail_if_success (with_reducible exact Fr.refl _ _)); (constructor <;> first | exact fun h => absurd h (by decide) | exact fun _ => rfl))
    | ((with_reducible apply Fr.step); (on_goal 2 => with_reducible apply raise_fr); (on_goal 1 => decide))
    | split)

theorem eqTakeOp_fr {s : State} : ∀ a0 a1 a2, Fr 34304 s (eqTakeOp a0 a1 a2 s) := by
  intro a0 a1 a2
  unfold eqTakeOp
  try dsimp only
  repeat' (first
    | with_reducible exact Fr.refl _ _
    | intro _
    | with_reducible refine Fr.ite ?_ ?_
    | (with_reducible refine Fr.upd ?_ ?_; on_goal 2 => (fail_if_success (with_reducible exact Fr.refl _ _)); (constructor <;> first | exact fun h => absurd h (by decide) | exact fun _ => rfl))
    | ((with_reducible apply Fr.step); (on_goal 2 => with_reducible apply activeMod_fr); (on_goal 1 => decide))
    | ((with_reducible apply Fr.step); (on_goal 2 => with_reducible apply chainOwner_fr); (on_goal 1 => decide))
    | ((with_reducible apply Fr.step); (on_goal 2 => with_reducible apply eqMod_fr); (on_goal 1 => decide))
    | split)

theorem pwrLowRun_fr {s : State} : ∀ a0, Fr 20 s (pwrLowRun a0 s) := by
  intro a0
  unfold pwrLowRun
  try dsimp only
  repeat' (first
    | with_reducible exact Fr.refl _ _
    | intro _
    | with_reducible refine Fr.ite ?_ ?_
    | ((with_reducible apply Fr.trans); (on_goal 2 => ((with_reducible apply gridFire_fr); (on_goal 1 => decide))))
    | ((with_reducible apply Fr.step); (on_goal 2 => with_reducible apply planFire_fr); (on_goal 1 => decide))
    | split)

theorem imageLoaded_fr {s : State} : Fr 299008 s (imageLoaded s) := by
  unfold imageLoaded
  try dsimp only
  repeat' (first
    | with_reducible exact Fr.refl _ _
    | intro _
    | with_reducible refine Fr.ite ?_ ?_
    | (with_reducible refine Fr.upd ?_ ?_; on_goal 2 => (fail_if_success (with_reducible exact Fr.refl _ _)); (constructor <;> first | exact fun h => absurd h (by decide) | exact fun _ => rfl))
    | split)

theorem unAutoSelect_fr {s : State} : Fr 8192 s (unAutoSelect s) := by
  unfold unAutoSelect
  try dsimp only
  repeat' (first
    | with_reducible exact Fr.refl _ _
    | intro _
    | with_reducible refine Fr.elim ?_ ?_
    | with_reducible refine Fr.ite ?_ ?_
    | ((with_reducible apply Fr.step); (on_goal 2 => with_reducible apply selectUn_fr); (on_goal 1 => decide))
    | split)

theorem discoverRx_fr {s : State} : ∀ a0 a1 a2 a3 a4, Fr 2097344 s (discoverRx a0 a1 a2 a3 a4 s) := by
  intro a0 a1 a2 a3 a4
  unfold discoverRx
  try dsimp only
  repeat' (first
    | with_reducible exact Fr.refl _ _
    | intro _
    | with_reducible refine Fr.ite ?_ ?_
    | (with_reducible refine Fr.upd ?_ ?_; on_goal 2 => (fail_if_success (with_reducible exact Fr.refl _ _)); (constructor <;> first | exact fun h => absurd h (by decide) | exact fun _ => rfl))
    | ((with_reducible apply Fr.step); (on_goal 2 => with_reducible apply sweepIn_fr); (on_goal 1 => decide))
    | split)

theorem flushInc_fr {s : State} : Fr 393216 s (flushInc s) := by
  unfold flushInc
  try dsimp only
  repeat' (first
    | with_reducible exact Fr.refl _ _
    | intro _
    | with_reducible refine Fr.foldl _ ?_ ?_
    | with_reducible refine Fr.ite ?_ ?_
    | (with_reducible refine Fr.upd ?_ ?_; on_goal 2 => (fail_if_success (with_reducible exact Fr.refl _ _)); (constructor <;> first | exact fun h => absurd h (by decide) | exact fun _ => rfl))
    | split)

theorem eqTxDone_fr {s : State} : ∀ a0, Fr 2098688 s (eqTxDone a0 s) := by
  intro a0
  unfold eqTxDone
  try dsimp only
  repeat' (first
    | with_reducible exact Fr.refl _ _
    | intro _
    | with_reducible refine Fr.ite ?_ ?_
    | (with_reducible refine Fr.upd ?_ ?_; on_goal 2 => (fail_if_success (with_reducible exact Fr.refl _ _)); (constructor <;> first | exact fun h => absurd h (by decide) | exact fun _ => rfl))
    | ((with_reducible apply Fr.step); (on_goal 2 => with_reducible apply unitsRead_fr); (on_goal 1 => decide))
    | ((with_reducible apply Fr.step); (on_goal 2 => with_reducible apply eqMod_fr); (on_goal 1 => decide))
    | ((with_reducible apply Fr.step); (on_goal 2 => with_reducible apply poolUncorr_fr); (on_goal 1 => decide))
    | ((with_reducible apply Fr.step); (on_goal 2 => with_reducible apply eqStart_fr); (on_goal 1 => decide))
    | ((with_reducible apply Fr.step); (on_goal 2 => with_reducible apply chainFree_fr); (on_goal 1 => decide))
    | split)

theorem takeoverLoad_fr {s : State} : ∀ a0 a1, Fr 7640838 s (takeoverLoad a0 a1 s) := by
  intro a0 a1
  unfold takeoverLoad
  try dsimp only
  repeat' (first
    | with_reducible exact Fr.refl _ _
    | intro _
    | with_reducible refine Fr.ite ?_ ?_
    | (with_reducible refine Fr.upd ?_ ?_; on_goal 2 => (fail_if_success (with_reducible exact Fr.refl _ _)); (constructor <;> first | exact fun h => absurd h (by decide) | exact fun _ => rfl))
    | ((with_reducible apply Fr.step); (on_goal 2 => with_reducible apply coreLoadReport_fr); (on_goal 1 => decide))
    | ((with_reducible apply Fr.step); (on_goal 2 => with_reducible apply takeoverFail_fr); (on_goal 1 => decide))
    | ((with_reducible apply Fr.step); (on_goal 2 => with_reducible apply takeoverAt_fr); (on_goal 1 => decide))
    | split)

theorem takeoverStepDone_fr {s : State} : ∀ a0 a1, Fr 7640838 s (takeoverStepDone a0 a1 s) := by
  intro a0 a1
  unfold takeoverStepDone
  try dsimp only
  repeat' (first
    | with_reducible exact Fr.refl _ _
    | intro _
    | with_reducible refine Fr.ite ?_ ?_
    | ((with_reducible apply Fr.step); (on_goal 2 => with_reducible apply takeoverAt_fr); (on_goal 1 => decide))
    | ((with_reducible apply Fr.step); (on_goal 2 => with_reducible apply takeoverFail_fr); (on_goal 1 => decide))
    | ((with_reducible apply Fr.step); (on_goal 2 => with_reducible apply takeoverLoad_fr); (on_goal 1 => decide))
    | ((with_reducible apply Fr.step); (on_goal 2 => with_reducible apply takeoverOverlay_fr); (on_goal 1 => decide))
    | split)

theorem converterStop_fr {s : State} : Fr 6291438 s (converterStop s) := by
  unfold converterStop
  try dsimp only
  repeat' (first
    | with_reducible exact Fr.refl _ _
    | intro _
    | with_reducible refine Fr.ite ?_ ?_
    | (with_reducible refine Fr.upd ?_ ?_; on_goal 2 => (fail_if_success (with_reducible exact Fr.refl _ _)); (constructor <;> first | exact fun h => absurd h (by decide) | exact fun _ => rfl))
    | ((with_reducible apply Fr.step); (on_goal 2 => with_reducible apply goOff_fr); (on_goal 1 => decide))
    | split)

theorem bringupLinkWait_fr {s : State} : Fr 2097344 s (bringupLinkWait s) := by
  unfold bringupLinkWait
  try dsimp only
  repeat' (first
    | with_reducible exact Fr.refl _ _
    | intro _
    | with_reducible refine Fr.foldl _ ?_ ?_
    | with_reducible refine Fr.ite ?_ ?_
    | (with_reducible refine Fr.upd ?_ ?_; on_goal 2 => (fail_if_success (with_reducible exact Fr.refl _ _)); (constructor <;> first | exact fun h => absurd h (by decide) | exact fun _ => rfl))
    | ((with_reducible apply Fr.step); (on_goal 2 => with_reducible apply startOwn_fr); (on_goal 1 => decide))
    | ((with_reducible apply Fr.step); (on_goal 2 => with_reducible apply probePort_fr); (on_goal 1 => decide))
    | split)

theorem flushChk_fr {s : State} : Fr 393216 s (flushChk s) := by
  unfold flushChk
  try dsimp only
  repeat' (first
    | with_reducible exact Fr.refl _ _
    | intro _
    | with_reducible refine Fr.ite ?_ ?_
    | (with_reducible refine Fr.upd ?_ ?_; on_goal 2 => (fail_if_success (with_reducible exact Fr.refl _ _)); (constructor <;> first | exact fun h => absurd h (by decide) | exact fun _ => rfl))
    | ((with_reducible apply Fr.step); (on_goal 2 => with_reducible apply flushInc_fr); (on_goal 1 => decide))
    | ((with_reducible apply Fr.step); (on_goal 2 => with_reducible apply raise_fr); (on_goal 1 => decide))
    | split)

theorem relayBDrive_fr {s : State} : Fr 8 s (relayBDrive s) := by
  unfold relayBDrive
  try dsimp only
  repeat' (first
    | with_reducible exact Fr.refl _ _
    | intro _
    | with_reducible refine Fr.ite ?_ ?_
    | ((with_reducible apply Fr.step); (on_goal 2 => with_reducible apply driveB_fr); (on_goal 1 => decide))
    | split)

theorem loopOp_fr {s : State} : ∀ a0 a1 a2 a3 a4, Fr 7395078 s (loopOp a0 a1 a2 a3 a4 s) := by
  intro a0 a1 a2 a3 a4
  unfold loopOp
  try dsimp only
  repeat' (first
    | with_reducible exact Fr.refl _ _
    | intro _
    | with_reducible refine Fr.ite ?_ ?_
    | (with_reducible refine Fr.upd ?_ ?_; on_goal 2 => (fail_if_success (with_reducible exact Fr.refl _ _)); (constructor <;> first | exact fun h => absurd h (by decide) | exact fun _ => rfl))
    | ((with_reducible apply Fr.step); (on_goal 2 => with_reducible apply yieldNow_fr); (on_goal 1 => decide))
    | ((with_reducible apply Fr.step); (on_goal 2 => with_reducible apply jump_fr); (on_goal 1 => decide))
    | split)

theorem forceTimeout_fr {s : State} : ∀ a0, Fr 4096 s (forceTimeout a0 s) := by
  intro a0
  unfold forceTimeout
  try dsimp only
  repeat' (first
    | with_reducible exact Fr.refl _ _
    | intro _
    | with_reducible refine Fr.ite ?_ ?_
    | (with_reducible refine Fr.upd ?_ ?_; on_goal 2 => (fail_if_success (with_reducible exact Fr.refl _ _)); (constructor <;> first | exact fun h => absurd h (by decide) | exact fun _ => rfl))
    | ((with_reducible apply Fr.step); (on_goal 2 => with_reducible apply chanMod_fr); (on_goal 1 => decide))
    | split)

theorem aluImm_fr {s : State} : ∀ a0 a1, Fr 7395094 s (aluImm a0 a1 s) := by
  intro a0 a1
  unfold aluImm
  try dsimp only
  repeat' (first
    | with_reducible exact Fr.refl _ _
    | intro _
    | with_reducible refine Fr.ite ?_ ?_
    | ((with_reducible apply Fr.trans); (on_goal 2 => ((with_reducible apply instr_fr); (on_goal 1 => decide))))
    | ((with_reducible apply Fr.step); (on_goal 2 => with_reducible apply coreOp_fr); (on_goal 1 => decide))
    | split)

theorem thermalRelease_fr {s : State} : ∀ a0, Fr 4096 s (thermalRelease a0 s) := by
  intro a0
  unfold thermalRelease
  try dsimp only
  repeat' (first
    | with_reducible exact Fr.refl _ _
    | intro _
    | with_reducible refine Fr.ite ?_ ?_
    | ((with_reducible apply Fr.step); (on_goal 2 => with_reducible apply restage_fr); (on_goal 1 => decide))
    | ((with_reducible apply Fr.step); (on_goal 2 => with_reducible apply causeClear_fr); (on_goal 1 => decide))
    | split)

theorem alu_fr {s : State} : ∀ a0 a1 a2 a3, Fr 7395094 s (alu a0 a1 a2 a3 s) := by
  intro a0 a1 a2 a3
  unfold alu
  try dsimp only
  repeat' (first
    | with_reducible exact Fr.refl _ _
    | intro _
    | with_reducible refine Fr.ite ?_ ?_
    | ((with_reducible apply Fr.trans); (on_goal 2 => ((with_reducible apply instr_fr); (on_goal 1 => decide))))
    | ((with_reducible apply Fr.step); (on_goal 2 => with_reducible apply coreOp_fr); (on_goal 1 => decide))
    | split)

theorem overvoltage1s_fr {s : State} : Fr 8192 s (overvoltage1s s) := by
  unfold overvoltage1s
  try dsimp only
  repeat' (first
    | with_reducible exact Fr.refl _ _
    | intro _
    | with_reducible refine Fr.ite ?_ ?_
    | (with_reducible refine Fr.upd ?_ ?_; on_goal 2 => (fail_if_success (with_reducible exact Fr.refl _ _)); (constructor <;> first | exact fun h => absurd h (by decide) | exact fun _ => rfl))
    | ((with_reducible apply Fr.step); (on_goal 2 => with_reducible apply clsPut_fr); (on_goal 1 => decide))
    | split)

theorem taskFire_fr {s : State} : ∀ a0, Fr 32768 s (taskFire a0 s) := by
  intro a0
  unfold taskFire
  try dsimp only
  repeat' (first
    | with_reducible exact Fr.refl _ _
    | intro _
    | with_reducible refine Fr.ite ?_ ?_
    | (with_reducible refine Fr.upd ?_ ?_; on_goal 2 => (fail_if_success (with_reducible exact Fr.refl _ _)); (constructor <;> first | exact fun h => absurd h (by decide) | exact fun _ => rfl))
    | ((with_reducible apply Fr.step); (on_goal 2 => with_reducible apply raise_fr); (on_goal 1 => decide))
    | ((with_reducible apply Fr.step); (on_goal 2 => with_reducible apply activeMod_fr); (on_goal 1 => decide))
    | split)

theorem taskRun_fr {s : State} : ∀ a0, Fr 32784 s (taskRun a0 s) := by
  intro a0
  unfold taskRun
  try dsimp only
  repeat' (first
    | with_reducible exact Fr.refl _ _
    | intro _
    | with_reducible refine Fr.ite ?_ ?_
    | ((with_reducible apply Fr.trans); (on_goal 2 => ((with_reducible apply gridFire_fr); (on_goal 1 => decide))))
    | ((with_reducible apply Fr.step); (on_goal 2 => with_reducible apply taskFire_fr); (on_goal 1 => decide))
    | split)

theorem dynPost_fr {s : State} : ∀ a0 a1 a2, Fr 1280 s (dynPost a0 a1 a2 s) := by
  intro a0 a1 a2
  unfold dynPost
  try dsimp only
  repeat' (first
    | with_reducible exact Fr.refl _ _
    | intro _
    | with_reducible refine Fr.ite ?_ ?_
    | (with_reducible refine Fr.upd ?_ ?_; on_goal 2 => (fail_if_success (with_reducible exact Fr.refl _ _)); (constructor <;> first | exact fun h => absurd h (by decide) | exact fun _ => rfl))
    | ((with_reducible apply Fr.step); (on_goal 2 => with_reducible apply chainOwner_fr); (on_goal 1 => decide))
    | split)

theorem shFromBackbone_fr {s : State} : ∀ a0 a1, Fr 2100992 s (shFromBackbone a0 a1 s) := by
  intro a0 a1
  unfold shFromBackbone
  try dsimp only
  repeat' (first
    | with_reducible exact Fr.refl _ _
    | intro _
    | with_reducible refine Fr.ite ?_ ?_
    | (with_reducible refine Fr.upd ?_ ?_; on_goal 2 => (fail_if_success (with_reducible exact Fr.refl _ _)); (constructor <;> first | exact fun h => absurd h (by decide) | exact fun _ => rfl))
    | ((with_reducible apply Fr.step); (on_goal 2 => with_reducible apply shDiscard_fr); (on_goal 1 => decide))
    | ((with_reducible apply Fr.step); (on_goal 2 => with_reducible apply shNoRoute_fr); (on_goal 1 => decide))
    | ((with_reducible apply Fr.step); (on_goal 2 => with_reducible apply poolStore_fr); (on_goal 1 => decide))
    | ((with_reducible apply Fr.step); (on_goal 2 => with_reducible apply chainOwner_fr); (on_goal 1 => decide))
    | ((with_reducible apply Fr.step); (on_goal 2 => with_reducible apply chainFree_fr); (on_goal 1 => decide))
    | ((with_reducible apply Fr.step); (on_goal 2 => with_reducible apply dynPost_fr); (on_goal 1 => decide))
    | ((with_reducible apply Fr.step); (on_goal 2 => with_reducible apply bufMod_fr); (on_goal 1 => decide))
    | ((with_reducible apply Fr.step); (on_goal 2 => with_reducible apply postChain_fr); (on_goal 1 => decide))
    | split)

theorem msgConsume_fr {s : State} : ∀ a0 a1 a2 a3, Fr 3411904 s (msgConsume a0 a1 a2 a3 s) := by
  intro a0 a1 a2 a3
  unfold msgConsume
  try dsimp only
  repeat' (first
    | with_reducible exact Fr.refl _ _
    | intro _
    | with_reducible refine Fr.ite ?_ ?_
    | (with_reducible refine Fr.upd ?_ ?_; on_goal 2 => (fail_if_success (with_reducible exact Fr.refl _ _)); (constructor <;> first | exact fun h => absurd h (by decide) | exact fun _ => rfl))
    | ((with_reducible apply Fr.step); (on_goal 2 => with_reducible apply poolStore_fr); (on_goal 1 => decide))
    | ((with_reducible apply Fr.step); (on_goal 2 => with_reducible apply coreQueueFull_fr); (on_goal 1 => decide))
    | ((with_reducible apply Fr.step); (on_goal 2 => with_reducible apply pduArrive_fr); (on_goal 1 => decide))
    | ((with_reducible apply Fr.step); (on_goal 2 => with_reducible apply shFromBackbone_fr); (on_goal 1 => decide))
    | split)

theorem supplyLoss_fr {s : State} : Fr 5111816 s (supplyLoss s) := by
  unfold supplyLoss
  try dsimp only
  repeat' (first
    | with_reducible exact Fr.refl _ _
    | intro _
    | with_reducible refine Fr.ite ?_ ?_
    | (with_reducible refine Fr.upd ?_ ?_; on_goal 2 => (fail_if_success (with_reducible exact Fr.refl _ _)); (constructor <;> first | exact fun h => absurd h (by decide) | exact fun _ => rfl))
    | ((with_reducible apply Fr.step); (on_goal 2 => with_reducible apply startFlush_fr); (on_goal 1 => decide))
    | split)

theorem vrcvStatusOp_fr {s : State} : ∀ a0 a1 a2, Fr 32768 s (vrcvStatusOp a0 a1 a2 s) := by
  intro a0 a1 a2
  unfold vrcvStatusOp
  try dsimp only
  repeat' (first
    | with_reducible exact Fr.refl _ _
    | intro _
    | with_reducible refine Fr.ite ?_ ?_
    | ((with_reducible apply Fr.step); (on_goal 2 => with_reducible apply refuse_fr); (on_goal 1 => decide))
    | ((with_reducible apply Fr.step); (on_goal 2 => with_reducible apply activeMod_fr); (on_goal 1 => decide))
    | split)

theorem benchResOp_fr {s : State} : ∀ a0 a1 a2, Fr 32768 s (benchResOp a0 a1 a2 s) := by
  intro a0 a1 a2
  unfold benchResOp
  try dsimp only
  repeat' (first
    | with_reducible exact Fr.refl _ _
    | intro _
    | with_reducible refine Fr.ite ?_ ?_
    | ((with_reducible apply Fr.step); (on_goal 2 => with_reducible apply refuse_fr); (on_goal 1 => decide))
    | ((with_reducible apply Fr.step); (on_goal 2 => with_reducible apply activeMod_fr); (on_goal 1 => decide))
    | split)

theorem amendRx_fr {s : State} : ∀ a0 a1 a2, Fr 2097376 s (amendRx a0 a1 a2 s) := by
  intro a0 a1 a2
  unfold amendRx
  try dsimp only
  repeat' (first
    | with_reducible exact Fr.refl _ _
    | intro _
    | with_reducible refine Fr.ite ?_ ?_
    | (with_reducible refine Fr.upd ?_ ?_; on_goal 2 => (fail_if_success (with_reducible exact Fr.refl _ _)); (constructor <;> first | exact fun h => absurd h (by decide) | exact fun _ => rfl))
    | ((with_reducible apply Fr.step); (on_goal 2 => with_reducible apply hingeFwd_fr); (on_goal 1 => decide))
    | ((with_reducible apply Fr.step); (on_goal 2 => with_reducible apply amendAdopt_fr); (on_goal 1 => decide))
    | split)

theorem branchBurst_fr {s : State} : ∀ a0, Fr 256 s (branchBurst a0 s) := by
  intro a0
  unfold branchBurst
  try dsimp only
  repeat' (first
    | with_reducible exact Fr.refl _ _
    | intro _
    | with_reducible refine Fr.ite ?_ ?_
    | ((with_reducible apply Fr.step); (on_goal 2 => with_reducible apply guardCount_fr); (on_goal 1 => decide))
    | split)

theorem twwOp_fr {s : State} : ∀ a0 a1 a2 a3 a4, Fr 32896 s (twwOp a0 a1 a2 a3 a4 s) := by
  intro a0 a1 a2 a3 a4
  unfold twwOp
  try dsimp only
  repeat' (first
    | with_reducible exact Fr.refl _ _
    | intro _
    | with_reducible refine Fr.elim ?_ ?_
    | with_reducible refine Fr.ite ?_ ?_
    | (with_reducible refine Fr.upd ?_ ?_; on_goal 2 => (fail_if_success (with_reducible exact Fr.refl _ _)); (constructor <;> first | exact fun h => absurd h (by decide) | exact fun _ => rfl))
    | ((with_reducible apply Fr.step); (on_goal 2 => with_reducible apply refuse_fr); (on_goal 1 => decide))
    | ((with_reducible apply Fr.step); (on_goal 2 => with_reducible apply activeMod_fr); (on_goal 1 => decide))
    | split)

theorem tempLevelChange_fr {s : State} : ∀ a0 a1, Fr 8192 s (tempLevelChange a0 a1 s) := by
  intro a0 a1
  unfold tempLevelChange
  try dsimp only
  repeat' (first
    | with_reducible exact Fr.refl _ _
    | intro _
    | with_reducible refine Fr.ite ?_ ?_
    | (with_reducible refine Fr.upd ?_ ?_; on_goal 2 => (fail_if_success (with_reducible exact Fr.refl _ _)); (constructor <;> first | exact fun h => absurd h (by decide) | exact fun _ => rfl))
    | ((with_reducible apply Fr.step); (on_goal 2 => with_reducible apply raise_fr); (on_goal 1 => decide))
    | split)

theorem verifyReport_fr {s : State} : ∀ a0 a1, Fr 262144 s (verifyReport a0 a1 s) := by
  intro a0 a1
  unfold verifyReport
  try dsimp only
  repeat' (first
    | with_reducible exact Fr.refl _ _
    | intro _
    | with_reducible refine Fr.ite ?_ ?_
    | ((with_reducible apply Fr.step); (on_goal 2 => with_reducible apply nvReport_fr); (on_goal 1 => decide))
    | split)

theorem slotVerified_fr {s : State} : ∀ a0, Fr 262144 s (slotVerified a0 s) := by
  intro a0
  unfold slotVerified
  try dsimp only
  repeat' (first
    | with_reducible exact Fr.refl _ _
    | intro _
    | with_reducible refine Fr.ite ?_ ?_
    | (with_reducible refine Fr.upd ?_ ?_; on_goal 2 => (fail_if_success (with_reducible exact Fr.refl _ _)); (constructor <;> first | exact fun h => absurd h (by decide) | exact fun _ => rfl))
    | ((with_reducible apply Fr.step); (on_goal 2 => with_reducible apply verifyReport_fr); (on_goal 1 => decide))
    | ((with_reducible apply Fr.step); (on_goal 2 => with_reducible apply verifyRefused_fr); (on_goal 1 => decide))
    | ((with_reducible apply Fr.step); (on_goal 2 => with_reducible apply raise_fr); (on_goal 1 => decide))
    | split)

theorem commitVerified_fr {s : State} : ∀ a0, Fr 786436 s (commitVerified a0 s) := by
  intro a0
  unfold commitVerified
  try dsimp only
  repeat' (first
    | with_reducible exact Fr.refl _ _
    | intro _
    | with_reducible refine Fr.ite ?_ ?_
    | (with_reducible refine Fr.upd ?_ ?_; on_goal 2 => (fail_if_success (with_reducible exact Fr.refl _ _)); (constructor <;> first | exact fun h => absurd h (by decide) | exact fun _ => rfl))
    | ((with_reducible apply Fr.step); (on_goal 2 => with_reducible apply verifierPower_fr); (on_goal 1 => decide))
    | ((with_reducible apply Fr.step); (on_goal 2 => with_reducible apply verifyReport_fr); (on_goal 1 => decide))
    | ((with_reducible apply Fr.step); (on_goal 2 => with_reducible apply commitRefused_fr); (on_goal 1 => decide))
    | ((with_reducible apply Fr.step); (on_goal 2 => with_reducible apply verifyRefused_fr); (on_goal 1 => decide))
    | ((with_reducible apply Fr.step); (on_goal 2 => with_reducible apply jobMod_fr); (on_goal 1 => decide))
    | split)

theorem imageVerified_fr {s : State} : Fr 786436 s (imageVerified s) := by
  unfold imageVerified
  try dsimp only
  repeat' (first
    | with_reducible exact Fr.refl _ _
    | intro _
    | with_reducible refine Fr.ite ?_ ?_
    | ((with_reducible apply Fr.step); (on_goal 2 => with_reducible apply slotVerified_fr); (on_goal 1 => decide))
    | ((with_reducible apply Fr.step); (on_goal 2 => with_reducible apply commitVerified_fr); (on_goal 1 => decide))
    | split)

theorem reportQuiesceCut_fr {s : State} : Fr 8 s (reportQuiesceCut s) := by
  unfold reportQuiesceCut
  try dsimp only
  repeat' (first
    | with_reducible exact Fr.refl _ _
    | intro _
    | with_reducible refine Fr.ite ?_ ?_
    | (with_reducible refine Fr.upd ?_ ?_; on_goal 2 => (fail_if_success (with_reducible exact Fr.refl _ _)); (constructor <;> first | exact fun h => absurd h (by decide) | exact fun _ => rfl))
    | ((with_reducible apply Fr.step); (on_goal 2 => with_reducible apply raise_fr); (on_goal 1 => decide))
    | split)

theorem reportWakeFailure_fr {s : State} : Fr 262152 s (reportWakeFailure s) := by
  unfold reportWakeFailure
  try dsimp only
  repeat' (first
    | with_reducible exact Fr.refl _ _
    | intro _
    | with_reducible refine Fr.ite ?_ ?_
    | (with_reducible refine Fr.upd ?_ ?_; on_goal 2 => (fail_if_success (with_reducible exact Fr.refl _ _)); (constructor <;> first | exact fun h => absurd h (by decide) | exact fun _ => rfl))
    | ((with_reducible apply Fr.step); (on_goal 2 => with_reducible apply raise_fr); (on_goal 1 => decide))
    | split)

theorem startVerify_fr {s : State} : Fr 262144 s (startVerify s) := by
  unfold startVerify
  try dsimp only
  repeat' (first
    | with_reducible exact Fr.refl _ _
    | intro _
    | with_reducible refine Fr.ite ?_ ?_
    | (with_reducible refine Fr.upd ?_ ?_; on_goal 2 => (fail_if_success (with_reducible exact Fr.refl _ _)); (constructor <;> first | exact fun h => absurd h (by decide) | exact fun _ => rfl))
    | ((with_reducible apply Fr.step); (on_goal 2 => with_reducible apply nvReport_fr); (on_goal 1 => decide))
    | split)

theorem goBringup_fr {s : State} : Fr 262206 s (goBringup s) := by
  unfold goBringup
  try dsimp only
  repeat' (first
    | with_reducible exact Fr.refl _ _
    | intro _
    | with_reducible refine Fr.ite ?_ ?_
    | (with_reducible refine Fr.upd ?_ ?_; on_goal 2 => (fail_if_success (with_reducible exact Fr.refl _ _)); (constructor <;> first | exact fun h => absurd h (by decide) | exact fun _ => rfl))
    | ((with_reducible apply Fr.step); (on_goal 2 => with_reducible apply stateLevels_fr); (on_goal 1 => decide))
    | ((with_reducible apply Fr.step); (on_goal 2 => with_reducible apply transition_fr); (on_goal 1 => decide))
    | ((with_reducible apply Fr.step); (on_goal 2 => with_reducible apply reportWake_fr); (on_goal 1 => decide))
    | ((with_reducible apply Fr.step); (on_goal 2 => with_reducible apply reportQuiesceCut_fr); (on_goal 1 => decide))
    | ((with_reducible apply Fr.step); (on_goal 2 => with_reducible apply reportWakeFailure_fr); (on_goal 1 => decide))
    | ((with_reducible apply Fr.step); (on_goal 2 => with_reducible apply startVerify_fr); (on_goal 1 => decide))
    | ((with_reducible apply Fr.step); (on_goal 2 => with_reducible apply driveA_fr); (on_goal 1 => decide))
    | split)

theorem pllLocked_fr {s : State} : Fr 262206 s (pllLocked s) := by
  unfold pllLocked
  try dsimp only
  repeat' (first
    | with_reducible exact Fr.refl _ _
    | intro _
    | with_reducible refine Fr.ite ?_ ?_
    | ((with_reducible apply Fr.step); (on_goal 2 => with_reducible apply goBringup_fr); (on_goal 1 => decide))
    | split)

theorem couplerRestore_fr {s : State} : ∀ a0, Fr 4096 s (couplerRestore a0 s) := by
  intro a0
  unfold couplerRestore
  try dsimp only
  repeat' (first
    | with_reducible exact Fr.refl _ _
    | intro _
    | with_reducible refine Fr.ite ?_ ?_
    | ((with_reducible apply Fr.step); (on_goal 2 => with_reducible apply raise_fr); (on_goal 1 => decide))
    | ((with_reducible apply Fr.step); (on_goal 2 => with_reducible apply restage_fr); (on_goal 1 => decide))
    | ((with_reducible apply Fr.step); (on_goal 2 => with_reducible apply causeClear_fr); (on_goal 1 => decide))
    | split)

theorem warmResetEnd_fr {s : State} : Fr 7378700 s (warmResetEnd s) := by
  unfold warmResetEnd
  try dsimp only
  repeat' (first
    | with_reducible exact Fr.refl _ _
    | intro _
    | with_reducible refine Fr.ite ?_ ?_
    | (with_reducible refine Fr.upd ?_ ?_; on_goal 2 => (fail_if_success (with_reducible exact Fr.refl _ _)); (constructor <;> first | exact fun h => absurd h (by decide) | exact fun _ => rfl))
    | ((with_reducible apply Fr.step); (on_goal 2 => with_reducible apply setDomain_fr); (on_goal 1 => decide))
    | split)

theorem bufSetOp_fr {s : State} : ∀ a0 a1 a2 a3, Fr 33792 s (bufSetOp a0 a1 a2 a3 s) := by
  intro a0 a1 a2 a3
  unfold bufSetOp
  try dsimp only
  repeat' (first
    | with_reducible exact Fr.refl _ _
    | intro _
    | with_reducible refine Fr.ite ?_ ?_
    | ((with_reducible apply Fr.step); (on_goal 2 => with_reducible apply bufRefused_fr); (on_goal 1 => decide))
    | ((with_reducible apply Fr.step); (on_goal 2 => with_reducible apply bufMod_fr); (on_goal 1 => decide))
    | ((with_reducible apply Fr.step); (on_goal 2 => with_reducible apply activeMod_fr); (on_goal 1 => decide))
    | split)

theorem quiesceCut_fr {s : State} : Fr 6291438 s (quiesceCut s) := by
  unfold quiesceCut
  try dsimp only
  repeat' (first
    | with_reducible exact Fr.refl _ _
    | intro _
    | with_reducible refine Fr.ite ?_ ?_
    | (with_reducible refine Fr.upd ?_ ?_; on_goal 2 => (fail_if_success (with_reducible exact Fr.refl _ _)); (constructor <;> first | exact fun h => absurd h (by decide) | exact fun _ => rfl))
    | ((with_reducible apply Fr.step); (on_goal 2 => with_reducible apply goSleep_fr); (on_goal 1 => decide))
    | ((with_reducible apply Fr.step); (on_goal 2 => with_reducible apply nvCut_fr); (on_goal 1 => decide))
    | split)

theorem vnEarlyEnd_fr {s : State} : Fr 256 s (vnEarlyEnd s) := by
  unfold vnEarlyEnd
  try dsimp only
  repeat' (first
    | with_reducible exact Fr.refl _ _
    | intro _
    | with_reducible refine Fr.ite ?_ ?_
    | ((with_reducible apply Fr.step); (on_goal 2 => with_reducible apply raise_fr); (on_goal 1 => decide))
    | ((with_reducible apply Fr.step); (on_goal 2 => with_reducible apply vnCycleEnd_fr); (on_goal 1 => decide))
    | split)

theorem switchCycle_fr {s : State} : Fr 304 s (switchCycle s) := by
  unfold switchCycle
  try dsimp only
  repeat' (first
    | with_reducible exact Fr.refl _ _
    | intro _
    | with_reducible refine Fr.ite ?_ ?_
    | ((with_reducible apply Fr.step); (on_goal 2 => with_reducible apply vnEarlyEnd_fr); (on_goal 1 => decide))
    | ((with_reducible apply Fr.step); (on_goal 2 => with_reducible apply cycleBoundary_fr); (on_goal 1 => decide))
    | ((with_reducible apply Fr.step); (on_goal 2 => with_reducible apply setMode_fr); (on_goal 1 => decide))
    | ((with_reducible apply Fr.step); (on_goal 2 => with_reducible apply acquireFrom_fr); (on_goal 1 => decide))
    | split)

theorem startRx_fr {s : State} : ∀ a0 a1 a2, Fr 2097344 s (startRx a0 a1 a2 s) := by
  intro a0 a1 a2
  unfold startRx
  try dsimp only
  repeat' (first
    | with_reducible exact Fr.refl _ _
    | intro _
    | with_reducible refine Fr.ite ?_ ?_
    | ((with_reducible apply Fr.step); (on_goal 2 => with_reducible apply inaugEnter_fr); (on_goal 1 => decide))
    | ((with_reducible apply Fr.step); (on_goal 2 => with_reducible apply hingeFwd_fr); (on_goal 1 => decide))
    | split)

theorem dmaRun_fr {s : State} : ∀ a0, Fr 7395222 s (dmaRun a0 s) := by
  intro a0
  unfold dmaRun
  try dsimp only
  repeat' (first
    | with_reducible exact Fr.refl _ _
    | intro _
    | with_reducible refine Fr.ite ?_ ?_
    | ((with_reducible apply Fr.trans); (on_goal 2 => ((with_reducible apply gridFire_fr); (on_goal 1 => decide))))
    | ((with_reducible apply Fr.step); (on_goal 2 => with_reducible apply dmaFire_fr); (on_goal 1 => decide))
    | split)

theorem revertLoadDone_fr {s : State} : Fr 294912 s (revertLoadDone s) := by
  unfold revertLoadDone
  try dsimp only
  repeat' (first
    | with_reducible exact Fr.refl _ _
    | intro _
    | with_reducible refine Fr.ite ?_ ?_
    | (with_reducible refine Fr.upd ?_ ?_; on_goal 2 => (fail_if_success (with_reducible exact Fr.refl _ _)); (constructor <;> first | exact fun h => absurd h (by decide) | exact fun _ => rfl))
    | ((with_reducible apply Fr.step); (on_goal 2 => with_reducible apply coreLoadReport_fr); (on_goal 1 => decide))
    | ((with_reducible apply Fr.step); (on_goal 2 => with_reducible apply repairFailed_fr); (on_goal 1 => decide))
    | ((with_reducible apply Fr.step); (on_goal 2 => with_reducible apply revertLatest_fr); (on_goal 1 => decide))
    | split)

theorem slowWriteLand_fr {s : State} : Fr 14 s (slowWriteLand s) := by
  unfold slowWriteLand
  try dsimp only
  repeat' (first
    | with_reducible exact Fr.refl _ _
    | intro _
    | with_reducible refine Fr.ite ?_ ?_
    | (with_reducible refine Fr.upd ?_ ?_; on_goal 2 => (fail_if_success (with_reducible exact Fr.refl _ _)); (constructor <;> first | exact fun h => absurd h (by decide) | exact fun _ => rfl))
    | split)

theorem healthReport_fr {s : State} : Fr 0 s (healthReport s) := by
  unfold healthReport
  try dsimp only
  repeat' (first
    | with_reducible exact Fr.refl _ _
    | intro _
    | with_reducible refine Fr.ite ?_ ?_
    | ((with_reducible apply Fr.step); (on_goal 2 => with_reducible apply raise_fr); (on_goal 1 => decide))
    | split)

theorem couplerLoss_fr {s : State} : ∀ a0, Fr 4096 s (couplerLoss a0 s) := by
  intro a0
  unfold couplerLoss
  try dsimp only
  repeat' (first
    | with_reducible exact Fr.refl _ _
    | intro _
    | with_reducible refine Fr.ite ?_ ?_
    | (with_reducible refine Fr.upd ?_ ?_; on_goal 2 => (fail_if_success (with_reducible exact Fr.refl _ _)); (constructor <;> first | exact fun h => absurd h (by decide) | exact fun _ => rfl))
    | ((with_reducible apply Fr.step); (on_goal 2 => with_reducible apply chanMod_fr); (on_goal 1 => decide))
    | ((with_reducible apply Fr.step); (on_goal 2 => with_reducible apply raise_fr); (on_goal 1 => decide))
    | ((with_reducible apply Fr.step); (on_goal 2 => with_reducible apply causeSet_fr); (on_goal 1 => decide))
    | split)

theorem cycleAdvance_fr {s : State} : Fr 304 s (cycleAdvance s) := by
  unfold cycleAdvance
  try dsimp only
  repeat' (first
    | with_reducible exact Fr.refl _ _
    | intro _
    | with_reducible refine Fr.elim ?_ ?_
    | with_reducible refine Fr.ite ?_ ?_
    | (with_reducible refine Fr.upd ?_ ?_; on_goal 2 => (fail_if_success (with_reducible exact Fr.refl _ _)); (constructor <;> first | exact fun h => absurd h (by decide) | exact fun _ => rfl))
    | ((with_reducible apply Fr.step); (on_goal 2 => with_reducible apply vnEarlyEnd_fr); (on_goal 1 => decide))
    | split)

theorem inputCrossing_fr {s : State} : ∀ a0 a1, Fr 4096 s (inputCrossing a0 a1 s) := by
  intro a0 a1
  unfold inputCrossing
  try dsimp only
  repeat' (first
    | with_reducible exact Fr.refl _ _
    | intro _
    | with_reducible refine Fr.ite ?_ ?_
    | (with_reducible refine Fr.upd ?_ ?_; on_goal 2 => (fail_if_success (with_reducible exact Fr.refl _ _)); (constructor <;> first | exact fun h => absurd h (by decide) | exact fun _ => rfl))
    | ((with_reducible apply Fr.step); (on_goal 2 => with_reducible apply memSettle_fr); (on_goal 1 => decide))
    | ((with_reducible apply Fr.step); (on_goal 2 => with_reducible apply chanMod_fr); (on_goal 1 => decide))
    | split)

theorem admitReqRx_fr {s : State} : ∀ a0 a1 a2, Fr 2097344 s (admitReqRx a0 a1 a2 s) := by
  intro a0 a1 a2
  unfold admitReqRx
  try dsimp only
  repeat' (first
    | with_reducible exact Fr.refl _ _
    | intro _
    | with_reducible refine Fr.ite ?_ ?_
    | ((with_reducible apply Fr.step); (on_goal 2 => with_reducible apply requestAdd_fr); (on_goal 1 => decide))
    | ((with_reducible apply Fr.step); (on_goal 2 => with_reducible apply hingeFwd_fr); (on_goal 1 => decide))
    | split)

theorem drawerPrevRow_fr {s : State} : ∀ a0, Fr 1048576 s (drawerPrevRow a0 s) := by
  intro a0
  unfold drawerPrevRow
  try dsimp only
  repeat' (first
    | with_reducible exact Fr.refl _ _
    | intro _
    | with_reducible refine Fr.ite ?_ ?_
    | ((with_reducible apply Fr.step); (on_goal 2 => with_reducible apply drawerCtrl_fr); (on_goal 1 => decide))
    | split)

theorem flushWrite_fr {s : State} : ∀ a0, Fr 393224 s (flushWrite a0 s) := by
  intro a0
  unfold flushWrite
  try dsimp only
  repeat' (first
    | with_reducible exact Fr.refl _ _
    | intro _
    | with_reducible refine Fr.ite ?_ ?_
    | (with_reducible refine Fr.upd ?_ ?_; on_goal 2 => (fail_if_success (with_reducible exact Fr.refl _ _)); (constructor <;> first | exact fun h => absurd h (by decide) | exact fun _ => rfl))
    | ((with_reducible apply Fr.step); (on_goal 2 => with_reducible apply flushInc_fr); (on_goal 1 => decide))
    | ((with_reducible apply Fr.step); (on_goal 2 => with_reducible apply flushChk_fr); (on_goal 1 => decide))
    | ((with_reducible apply Fr.step); (on_goal 2 => with_reducible apply flushJnv_fr); (on_goal 1 => decide))
    | split)

theorem bfreeOp_fr {s : State} : ∀ a0 a1 a2, Fr 2131456 s (bfreeOp a0 a1 a2 s) := by
  intro a0 a1 a2
  unfold bfreeOp
  try dsimp only
  repeat' (first
    | with_reducible exact Fr.refl _ _
    | intro _
    | with_reducible refine Fr.ite ?_ ?_
    | ((with_reducible apply Fr.step); (on_goal 2 => with_reducible apply freeChain_fr); (on_goal 1 => decide))
    | ((with_reducible apply Fr.step); (on_goal 2 => with_reducible apply activeMod_fr); (on_goal 1 => decide))
    | split)

theorem openSideStart_fr {s : State} : ∀ a0, Fr 2097344 s (openSideStart a0 s) := by
  intro a0
  unfold openSideStart
  try dsimp only
  repeat' (first
    | with_reducible exact Fr.refl _ _
    | intro _
    | with_reducible refine Fr.ite ?_ ?_
    | ((with_reducible apply Fr.step); (on_goal 2 => with_reducible apply startOwn_fr); (on_goal 1 => decide))
    | ((with_reducible apply Fr.step); (on_goal 2 => with_reducible apply couplingSet_fr); (on_goal 1 => decide))
    | split)

theorem wakeFailure_fr {s : State} : Fr 2097134 s (wakeFailure s) := by
  unfold wakeFailure
  try dsimp only
  repeat' (first
    | with_reducible exact Fr.refl _ _
    | intro _
    | with_reducible refine Fr.ite ?_ ?_
    | (with_reducible refine Fr.upd ?_ ?_; on_goal 2 => (fail_if_success (with_reducible exact Fr.refl _ _)); (constructor <;> first | exact fun h => absurd h (by decide) | exact fun _ => rfl))
    | ((with_reducible apply Fr.step); (on_goal 2 => with_reducible apply goSleep_fr); (on_goal 1 => decide))
    | split)

theorem opsecTick_fr {s : State} : Fr 8 s (opsecTick s) := by
  unfold opsecTick
  try dsimp only
  repeat' (first
    | with_reducible exact Fr.refl _ _
    | intro _
    | with_reducible refine Fr.ite ?_ ?_
    | (with_reducible refine Fr.upd ?_ ?_; on_goal 2 => (fail_if_success (with_reducible exact Fr.refl _ _)); (constructor <;> first | exact fun h => absurd h (by decide) | exact fun _ => rfl))
    | split)

theorem eventsTake_fr {s : State} : Fr 0 s (eventsTake s) := by
  unfold eventsTake
  try dsimp only
  repeat' (first
    | with_reducible exact Fr.refl _ _
    | intro _
    | with_reducible refine Fr.ite ?_ ?_
    | (with_reducible refine Fr.upd ?_ ?_; on_goal 2 => (fail_if_success (with_reducible exact Fr.refl _ _)); (constructor <;> first | exact fun h => absurd h (by decide) | exact fun _ => rfl))
    | split)

theorem drawerLoaded_fr {s : State} : ∀ a0, Fr 1310720 s (drawerLoaded a0 s) := by
  intro a0
  unfold drawerLoaded
  try dsimp only
  repeat' (first
    | with_reducible exact Fr.refl _ _
    | intro _
    | with_reducible refine Fr.ite ?_ ?_
    | (with_reducible refine Fr.upd ?_ ?_; on_goal 2 => (fail_if_success (with_reducible exact Fr.refl _ _)); (constructor <;> first | exact fun h => absurd h (by decide) | exact fun _ => rfl))
    | ((with_reducible apply Fr.step); (on_goal 2 => with_reducible apply nvReport_fr); (on_goal 1 => decide))
    | ((with_reducible apply Fr.step); (on_goal 2 => with_reducible apply drawerMod_fr); (on_goal 1 => decide))
    | ((with_reducible apply Fr.step); (on_goal 2 => with_reducible apply raise_fr); (on_goal 1 => decide))
    | split)

theorem stepRetry_fr {s : State} : ∀ a0, Fr 2097344 s (stepRetry a0 s) := by
  intro a0
  unfold stepRetry
  try dsimp only
  repeat' (first
    | with_reducible exact Fr.refl _ _
    | intro _
    | with_reducible refine Fr.ite ?_ ?_
    | ((with_reducible apply Fr.step); (on_goal 2 => with_reducible apply stepPort_fr); (on_goal 1 => decide))
    | split)

theorem burstListenTimeout_fr {s : State} : Fr 1441806 s (burstListenTimeout s) := by
  unfold burstListenTimeout
  try dsimp only
  repeat' (first
    | with_reducible exact Fr.refl _ _
    | intro _
    | with_reducible refine Fr.ite ?_ ?_
    | (with_reducible refine Fr.upd ?_ ?_; on_goal 2 => (fail_if_success (with_reducible exact Fr.refl _ _)); (constructor <;> first | exact fun h => absurd h (by decide) | exact fun _ => rfl))
    | ((with_reducible apply Fr.step); (on_goal 2 => with_reducible apply sleepLeave_fr); (on_goal 1 => decide))
    | split)

theorem measureRun_fr {s : State} : ∀ a0, Fr 8208 s (measureRun a0 s) := by
  intro a0
  unfold measureRun
  try dsimp only
  repeat' (first
    | with_reducible exact Fr.refl _ _
    | intro _
    | with_reducible refine Fr.foldl _ ?_ ?_
    | with_reducible refine Fr.elim ?_ ?_
    | with_reducible refine Fr.ite ?_ ?_
    | ((with_reducible apply Fr.trans); (on_goal 2 => ((with_reducible apply gridFire_fr); (on_goal 1 => decide))))
    | ((with_reducible apply Fr.step); (on_goal 2 => with_reducible apply measureOne_fr); (on_goal 1 => decide))
    | split)

theorem hostGo_fr {s : State} : ∀ a0, Fr 2098688 s (hostGo a0 s) := by
  intro a0
  unfold hostGo
  try dsimp only
  repeat' (first
    | with_reducible exact Fr.refl _ _
    | intro _
    | with_reducible refine Fr.ite ?_ ?_
    | (with_reducible refine Fr.upd ?_ ?_; on_goal 2 => (fail_if_success (with_reducible exact Fr.refl _ _)); (constructor <;> first | exact fun h => absurd h (by decide) | exact fun _ => rfl))
    | ((with_reducible apply Fr.step); (on_goal 2 => with_reducible apply poolOp_fr); (on_goal 1 => decide))
    | split)

theorem amendCycle_fr {s : State} : Fr 224 s (amendCycle s) := by
  unfold amendCycle
  try dsimp only
  repeat' (first
    | with_reducible exact Fr.refl _ _
    | intro _
    | with_reducible refine Fr.ite ?_ ?_
    | ((with_reducible apply Fr.step); (on_goal 2 => with_reducible apply amendAdopt_fr); (on_goal 1 => decide))
    | split)

theorem flushDone_fr {s : State} : Fr 6291438 s (flushDone s) := by
  unfold flushDone
  try dsimp only
  repeat' (first
    | with_reducible exact Fr.refl _ _
    | intro _
    | with_reducible refine Fr.ite ?_ ?_
    | ((with_reducible apply Fr.step); (on_goal 2 => with_reducible apply goOff_fr); (on_goal 1 => decide))
    | ((with_reducible apply Fr.step); (on_goal 2 => with_reducible apply flushWrite_fr); (on_goal 1 => decide))
    | split)

theorem groupSupplyRestore_fr {s : State} : ∀ a0, Fr 4096 s (groupSupplyRestore a0 s) := by
  intro a0
  unfold groupSupplyRestore
  try dsimp only
  repeat' (first
    | with_reducible exact Fr.refl _ _
    | intro _
    | with_reducible refine Fr.foldl _ ?_ ?_
    | with_reducible refine Fr.ite ?_ ?_
    | ((with_reducible apply Fr.step); (on_goal 2 => with_reducible apply restage_fr); (on_goal 1 => decide))
    | ((with_reducible apply Fr.step); (on_goal 2 => with_reducible apply causeClear_fr); (on_goal 1 => decide))
    | ((with_reducible apply Fr.step); (on_goal 2 => with_reducible apply chanMod_fr); (on_goal 1 => decide))
    | ((with_reducible apply Fr.step); (on_goal 2 => with_reducible apply raise_fr); (on_goal 1 => decide))
    | split)

theorem attemptFails_fr {s : State} : ∀ a0, Fr 2097344 s (attemptFails a0 s) := by
  intro a0
  unfold attemptFails
  try dsimp only
  repeat' (first
    | with_reducible exact Fr.refl _ _
    | intro _
    | with_reducible refine Fr.ite ?_ ?_
    | (with_reducible refine Fr.upd ?_ ?_; on_goal 2 => (fail_if_success (with_reducible exact Fr.refl _ _)); (constructor <;> first | exact fun h => absurd h (by decide) | exact fun _ => rfl))
    | ((with_reducible apply Fr.step); (on_goal 2 => with_reducible apply raise_fr); (on_goal 1 => decide))
    | ((with_reducible apply Fr.step); (on_goal 2 => with_reducible apply startOwn_fr); (on_goal 1 => decide))
    | split)

theorem ttrRx_fr {s : State} : ∀ a0 a1 a2 a3, Fr 2097376 s (ttrRx a0 a1 a2 a3 s) := by
  intro a0 a1 a2 a3
  unfold ttrRx
  try dsimp only
  repeat' (first
    | with_reducible exact Fr.refl _ _
    | intro _
    | with_reducible refine Fr.ite ?_ ?_
    | (with_reducible refine Fr.upd ?_ ?_; on_goal 2 => (fail_if_success (with_reducible exact Fr.refl _ _)); (constructor <;> first | exact fun h => absurd h (by decide) | exact fun _ => rfl))
    | ((with_reducible apply Fr.step); (on_goal 2 => with_reducible apply amendRx_fr); (on_goal 1 => decide))
    | ((with_reducible apply Fr.step); (on_goal 2 => with_reducible apply overflowEnd_fr); (on_goal 1 => decide))
    | ((with_reducible apply Fr.step); (on_goal 2 => with_reducible apply hingeFwd_fr); (on_goal 1 => decide))
    | ((with_reducible apply Fr.step); (on_goal 2 => with_reducible apply attemptFails_fr); (on_goal 1 => decide))
    | ((with_reducible apply Fr.step); (on_goal 2 => with_reducible apply ttrTake_fr); (on_goal 1 => decide))
    | split)

theorem dynSend_fr {s : State} : ∀ a0, Fr 2098944 s (dynSend a0 s) := by
  intro a0
  unfold dynSend
  try dsimp only
  repeat' (first
    | with_reducible exact Fr.refl _ _
    | intro _
    | with_reducible refine Fr.ite ?_ ?_
    | (with_reducible refine Fr.upd ?_ ?_; on_goal 2 => (fail_if_success (with_reducible exact Fr.refl _ _)); (constructor <;> first | exact fun h => absurd h (by decide) | exact fun _ => rfl))
    | ((with_reducible apply Fr.step); (on_goal 2 => with_reducible apply emit_fr); (on_goal 1 => decide))
    | ((with_reducible apply Fr.step); (on_goal 2 => with_reducible apply chainFree_fr); (on_goal 1 => decide))
    | split)

theorem powerGoodTimeout_fr {s : State} : Fr 2097134 s (powerGoodTimeout s) := by
  unfold powerGoodTimeout
  try dsimp only
  repeat' (first
    | with_reducible exact Fr.refl _ _
    | intro _
    | with_reducible refine Fr.ite ?_ ?_
    | (with_reducible refine Fr.upd ?_ ?_; on_goal 2 => (fail_if_success (with_reducible exact Fr.refl _ _)); (constructor <;> first | exact fun h => absurd h (by decide) | exact fun _ => rfl))
    | ((with_reducible apply Fr.step); (on_goal 2 => with_reducible apply wakeFailure_fr); (on_goal 1 => decide))
    | split)

theorem admitReprobe_fr {s : State} : Fr 72 s (admitReprobe s) := by
  unfold admitReprobe
  try dsimp only
  repeat' (first
    | with_reducible exact Fr.refl _ _
    | intro _
    | with_reducible refine Fr.ite ?_ ?_
    | (with_reducible refine Fr.upd ?_ ?_; on_goal 2 => (fail_if_success (with_reducible exact Fr.refl _ _)); (constructor <;> first | exact fun h => absurd h (by decide) | exact fun _ => rfl))
    | ((with_reducible apply Fr.step); (on_goal 2 => with_reducible apply driveA_fr); (on_goal 1 => decide))
    | split)

theorem chkCorrect_fr {s : State} : ∀ a0 a1, Fr 32768 s (chkCorrect a0 a1 s) := by
  intro a0 a1
  unfold chkCorrect
  try dsimp only
  repeat' (first
    | with_reducible exact Fr.refl _ _
    | intro _
    | with_reducible refine Fr.foldl _ ?_ ?_
    | with_reducible refine Fr.ite ?_ ?_
    | (with_reducible refine Fr.upd ?_ ?_; on_goal 2 => (fail_if_success (with_reducible exact Fr.refl _ _)); (constructor <;> first | exact fun h => absurd h (by decide) | exact fun _ => rfl))
    | ((with_reducible apply Fr.step); (on_goal 2 => with_reducible apply raise_fr); (on_goal 1 => decide))
    | ((with_reducible apply Fr.step); (on_goal 2 => with_reducible apply activeMod_fr); (on_goal 1 => decide))
    | split)

theorem chkpCopyFire_fr {s : State} : ∀ a0, Fr 7395078 s (chkpCopyFire a0 s) := by
  intro a0
  unfold chkpCopyFire
  try dsimp only
  repeat' (first
    | with_reducible exact Fr.refl _ _
    | intro _
    | with_reducible refine Fr.elim ?_ ?_
    | with_reducible refine Fr.ite ?_ ?_
    | (with_reducible refine Fr.upd ?_ ?_; on_goal 2 => (fail_if_success (with_reducible exact Fr.refl _ _)); (constructor <;> first | exact fun h => absurd h (by decide) | exact fun _ => rfl))
    | ((with_reducible apply Fr.step); (on_goal 2 => with_reducible apply skipped_fr); (on_goal 1 => decide))
    | ((with_reducible apply Fr.step); (on_goal 2 => with_reducible apply yieldNow_fr); (on_goal 1 => decide))
    | ((with_reducible apply Fr.step); (on_goal 2 => with_reducible apply raise_fr); (on_goal 1 => decide))
    | ((with_reducible apply Fr.step); (on_goal 2 => with_reducible apply chkLand_fr); (on_goal 1 => decide))
    | ((with_reducible apply Fr.step); (on_goal 2 => with_reducible apply chkCorrect_fr); (on_goal 1 => decide))
    | split)

theorem chkpCopyRun_fr {s : State} : ∀ a0, Fr 7395094 s (chkpCopyRun a0 s) := by
  intro a0
  unfold chkpCopyRun
  try dsimp only
  repeat' (first
    | with_reducible exact Fr.refl _ _
    | intro _
    | with_reducible refine Fr.ite ?_ ?_
    | ((with_reducible apply Fr.trans); (on_goal 2 => ((with_reducible apply gridFire_fr); (on_goal 1 => decide))))
    | ((with_reducible apply Fr.step); (on_goal 2 => with_reducible apply chkpCopyFire_fr); (on_goal 1 => decide))
    | split)

theorem vrcvDynamicOp_fr {s : State} : ∀ a0 a1, Fr 34048 s (vrcvDynamicOp a0 a1 s) := by
  intro a0 a1
  unfold vrcvDynamicOp
  try dsimp only
  repeat' (first
    | with_reducible exact Fr.refl _ _
    | intro _
    | with_reducible refine Fr.ite ?_ ?_
    | (with_reducible refine Fr.upd ?_ ?_; on_goal 2 => (fail_if_success (with_reducible exact Fr.refl _ _)); (constructor <;> first | exact fun h => absurd h (by decide) | exact fun _ => rfl))
    | ((with_reducible apply Fr.step); (on_goal 2 => with_reducible apply activeMod_fr); (on_goal 1 => decide))
    | ((with_reducible apply Fr.step); (on_goal 2 => with_reducible apply chainOwner_fr); (on_goal 1 => decide))
    | split)

theorem seatedConfirm_fr {s : State} : Fr 2097134 s (seatedConfirm s) := by
  unfold seatedConfirm
  try dsimp only
  repeat' (first
    | with_reducible exact Fr.refl _ _
    | intro _
    | with_reducible refine Fr.ite ?_ ?_
    | (with_reducible refine Fr.upd ?_ ?_; on_goal 2 => (fail_if_success (with_reducible exact Fr.refl _ _)); (constructor <;> first | exact fun h => absurd h (by decide) | exact fun _ => rfl))
    | ((with_reducible apply Fr.step); (on_goal 2 => with_reducible apply wakeFromOff_fr); (on_goal 1 => decide))
    | split)

theorem withdrawal_fr {s : State} : ∀ a0, Fr 32 s (withdrawal a0 s) := by
  intro a0
  unfold withdrawal
  try dsimp only
  repeat' (first
    | with_reducible exact Fr.refl _ _
    | intro _
    | with_reducible refine Fr.elim ?_ ?_
    | with_reducible refine Fr.ite ?_ ?_
    | (with_reducible refine Fr.upd ?_ ?_; on_goal 2 => (fail_if_success (with_reducible exact Fr.refl _ _)); (constructor <;> first | exact fun h => absurd h (by decide) | exact fun _ => rfl))
    | ((with_reducible apply Fr.step); (on_goal 2 => with_reducible apply raise_fr); (on_goal 1 => decide))
    | split)

theorem correctionInterval_fr {s : State} : Fr 48 s (correctionInterval s) := by
  unfold correctionInterval
  try dsimp only
  repeat' (first
    | with_reducible exact Fr.refl _ _
    | intro _
    | with_reducible refine Fr.elim ?_ ?_
    | with_reducible refine Fr.ite ?_ ?_
    | (with_reducible refine Fr.upd ?_ ?_; on_goal 2 => (fail_if_success (with_reducible exact Fr.refl _ _)); (constructor <;> first | exact fun h => absurd h (by decide) | exact fun _ => rfl))
    | ((with_reducible apply Fr.step); (on_goal 2 => with_reducible apply raise_fr); (on_goal 1 => decide))
    | ((with_reducible apply Fr.step); (on_goal 2 => with_reducible apply modeSelect_fr); (on_goal 1 => decide))
    | ((with_reducible apply Fr.step); (on_goal 2 => with_reducible apply rateUpdate_fr); (on_goal 1 => decide))
    | ((with_reducible apply Fr.step); (on_goal 2 => with_reducible apply withdrawal_fr); (on_goal 1 => decide))
    | split)

theorem sinkOn_fr {s : State} : ∀ a0, Fr 4096 s (sinkOn a0 s) := by
  intro a0
  unfold sinkOn
  try dsimp only
  repeat' (first
    | with_reducible exact Fr.refl _ _
    | intro _
    | with_reducible refine Fr.ite ?_ ?_
    | (with_reducible refine Fr.upd ?_ ?_; on_goal 2 => (fail_if_success (with_reducible exact Fr.refl _ _)); (constructor <;> first | exact fun h => absurd h (by decide) | exact fun _ => rfl))
    | ((with_reducible apply Fr.step); (on_goal 2 => with_reducible apply chanMod_fr); (on_goal 1 => decide))
    | split)

theorem cycleStart_fr {s : State} : Fr 8388606 s (cycleStart s) := by
  unfold cycleStart
  try dsimp only
  repeat' (first
    | with_reducible exact Fr.refl _ _
    | intro _
    | with_reducible refine Fr.ite ?_ ?_
    | ((with_reducible apply Fr.step); (on_goal 2 => with_reducible apply cycleAdvance_fr); (on_goal 1 => decide))
    | ((with_reducible apply Fr.step); (on_goal 2 => with_reducible apply eventsTake_fr); (on_goal 1 => decide))
    | ((with_reducible apply Fr.step); (on_goal 2 => with_reducible apply cycleBody_fr); (on_goal 1 => decide))
    | ((with_reducible apply Fr.step); (on_goal 2 => with_reducible apply amendCycle_fr); (on_goal 1 => decide))
    | split)

theorem cmdGive_fr {s : State} : ∀ a0 a1 a2, Fr 786432 s (cmdGive a0 a1 a2 s) := by
  intro a0 a1 a2
  unfold cmdGive
  try dsimp only
  repeat' (first
    | with_reducible exact Fr.refl _ _
    | intro _
    | with_reducible refine Fr.ite ?_ ?_
    | (with_reducible refine Fr.upd ?_ ?_; on_goal 2 => (fail_if_success (with_reducible exact Fr.refl _ _)); (constructor <;> first | exact fun h => absurd h (by decide) | exact fun _ => rfl))
    | ((with_reducible apply Fr.step); (on_goal 2 => with_reducible apply cmdSubmit_fr); (on_goal 1 => decide))
    | ((with_reducible apply Fr.step); (on_goal 2 => with_reducible apply bankMod_fr); (on_goal 1 => decide))
    | split)

theorem pduRow_fr {s : State} : ∀ a0 a1 a2 a3, Fr 3409600 s (pduRow a0 a1 a2 a3 s) := by
  intro a0 a1 a2 a3
  unfold pduRow
  try dsimp only
  repeat' (first
    | with_reducible exact Fr.refl _ _
    | intro _
    | with_reducible refine Fr.ite ?_ ?_
    | ((with_reducible apply Fr.step); (on_goal 2 => with_reducible apply pduArrive_fr); (on_goal 1 => decide))
    | split)

theorem regulatorAttempt_fr {s : State} : Fr 8 s (regulatorAttempt s) := by
  unfold regulatorAttempt
  try dsimp only
  repeat' (first
    | with_reducible exact Fr.refl _ _
    | intro _
    | with_reducible refine Fr.ite ?_ ?_
    | ((with_reducible apply Fr.step); (on_goal 2 => with_reducible apply regulatorStart_fr); (on_goal 1 => decide))
    | split)

theorem sampOp_fr {s : State} : ∀ a0 a1 a2 a3, Fr 32768 s (sampOp a0 a1 a2 a3 s) := by
  intro a0 a1 a2 a3
  unfold sampOp
  try dsimp only
  repeat' (first
    | with_reducible exact Fr.refl _ _
    | intro _
    | with_reducible refine Fr.ite ?_ ?_
    | ((with_reducible apply Fr.step); (on_goal 2 => with_reducible apply refuse_fr); (on_goal 1 => decide))
    | ((with_reducible apply Fr.step); (on_goal 2 => with_reducible apply activeMod_fr); (on_goal 1 => decide))
    | split)

theorem inbandOpenTimeout_fr {s : State} : ∀ a0, Fr 1048576 s (inbandOpenTimeout a0 s) := by
  intro a0
  unfold inbandOpenTimeout
  try dsimp only
  repeat' (first
    | with_reducible exact Fr.refl _ _
    | intro _
    | with_reducible refine Fr.ite ?_ ?_
    | ((with_reducible apply Fr.step); (on_goal 2 => with_reducible apply sessionPut_fr); (on_goal 1 => decide))
    | split)

theorem branchLinkUp_fr {s : State} : ∀ a0, Fr 256 s (branchLinkUp a0 s) := by
  intro a0
  unfold branchLinkUp
  try dsimp only
  repeat' (first
    | with_reducible exact Fr.refl _ _
    | intro _
    | with_reducible refine Fr.ite ?_ ?_
    | (with_reducible refine Fr.upd ?_ ?_; on_goal 2 => (fail_if_success (with_reducible exact Fr.refl _ _)); (constructor <;> first | exact fun h => absurd h (by decide) | exact fun _ => rfl))
    | ((with_reducible apply Fr.step); (on_goal 2 => with_reducible apply raise_fr); (on_goal 1 => decide))
    | ((with_reducible apply Fr.step); (on_goal 2 => with_reducible apply brMod_fr); (on_goal 1 => decide))
    | split)

theorem dynBoundary_fr {s : State} : Fr 2098960 s (dynBoundary s) := by
  unfold dynBoundary
  try dsimp only
  repeat' (first
    | with_reducible exact Fr.refl _ _
    | intro _
    | with_reducible refine Fr.foldl _ ?_ ?_
    | with_reducible refine Fr.elim ?_ ?_
    | with_reducible refine Fr.ite ?_ ?_
    | (with_reducible refine Fr.upd ?_ ?_; on_goal 2 => (fail_if_success (with_reducible exact Fr.refl _ _)); (constructor <;> first | exact fun h => absurd h (by decide) | exact fun _ => rfl))
    | ((with_reducible apply Fr.step); (on_goal 2 => with_reducible apply guardianCut_fr); (on_goal 1 => decide))
    | ((with_reducible apply Fr.step); (on_goal 2 => with_reducible apply dynSend_fr); (on_goal 1 => decide))
    | split)

theorem bufGetOp_fr {s : State} : ∀ a0 a1 a2, Fr 32768 s (bufGetOp a0 a1 a2 s) := by
  intro a0 a1 a2
  unfold bufGetOp
  try dsimp only
  repeat' (first
    | with_reducible exact Fr.refl _ _
    | intro _
    | with_reducible refine Fr.ite ?_ ?_
    | ((with_reducible apply Fr.step); (on_goal 2 => with_reducible apply refuse_fr); (on_goal 1 => decide))
    | ((with_reducible apply Fr.step); (on_goal 2 => with_reducible apply activeMod_fr); (on_goal 1 => decide))
    | split)

theorem benchOp_fr {s : State} : ∀ a0 a1 a2 a3, Fr 49152 s (benchOp a0 a1 a2 a3 s) := by
  intro a0 a1 a2 a3
  unfold benchOp
  try dsimp only
  repeat' (first
    | with_reducible exact Fr.refl _ _
    | intro _
    | with_reducible refine Fr.ite ?_ ?_
    | ((with_reducible apply Fr.step); (on_goal 2 => with_reducible apply raise_fr); (on_goal 1 => decide))
    | ((with_reducible apply Fr.step); (on_goal 2 => with_reducible apply benchAsk_fr); (on_goal 1 => decide))
    | ((with_reducible apply Fr.step); (on_goal 2 => with_reducible apply activeMod_fr); (on_goal 1 => decide))
    | split)

theorem drawerLoadDone_fr {s : State} : ∀ a0, Fr 1310720 s (drawerLoadDone a0 s) := by
  intro a0
  unfold drawerLoadDone
  try dsimp only
  repeat' (first
    | with_reducible exact Fr.refl _ _
    | intro _
    | with_reducible refine Fr.ite ?_ ?_
    | ((with_reducible apply Fr.step); (on_goal 2 => with_reducible apply drawerLoaded_fr); (on_goal 1 => decide))
    | split)

theorem tfSnap_fr {s : State} : Fr 128 s (tfSnap s) := by
  unfold tfSnap
  try dsimp only
  repeat' (first
    | with_reducible exact Fr.refl _ _
    | intro _
    | with_reducible refine Fr.elim ?_ ?_
    | with_reducible refine Fr.ite ?_ ?_
    | (with_reducible refine Fr.upd ?_ ?_; on_goal 2 => (fail_if_success (with_reducible exact Fr.refl _ _)); (constructor <;> first | exact fun h => absurd h (by decide) | exact fun _ => rfl))
    | ((with_reducible apply Fr.step); (on_goal 2 => with_reducible apply raise_fr); (on_goal 1 => decide))
    | split)

theorem stepAckRx_fr {s : State} : ∀ a0 a1 a2, Fr 64 s (stepAckRx a0 a1 a2 s) := by
  intro a0 a1 a2
  unfold stepAckRx
  try dsimp only
  repeat' (first
    | with_reducible exact Fr.refl _ _
    | intro _
    | with_reducible refine Fr.ite ?_ ?_
    | (with_reducible refine Fr.upd ?_ ?_; on_goal 2 => (fail_if_success (with_reducible exact Fr.refl _ _)); (constructor <;> first | exact fun h => absurd h (by decide) | exact fun _ => rfl))
    | ((with_reducible apply Fr.step); (on_goal 2 => with_reducible apply resettle_fr); (on_goal 1 => decide))
    | ((with_reducible apply Fr.step); (on_goal 2 => with_reducible apply hpMod_fr); (on_goal 1 => decide))
    | split)

theorem tfCandidate_fr {s : State} : ∀ a0 a1 a2 a3, Fr 2097376 s (tfCandidate a0 a1 a2 a3 s) := by
  intro a0 a1 a2 a3
  unfold tfCandidate
  try dsimp only
  repeat' (first
    | with_reducible exact Fr.refl _ _
    | intro _
    | with_reducible refine Fr.ite ?_ ?_
    | (with_reducible refine Fr.upd ?_ ?_; on_goal 2 => (fail_if_success (with_reducible exact Fr.refl _ _)); (constructor <;> first | exact fun h => absurd h (by decide) | exact fun _ => rfl))
    | ((with_reducible apply Fr.step); (on_goal 2 => with_reducible apply judge_fr); (on_goal 1 => decide))
    | ((with_reducible apply Fr.step); (on_goal 2 => with_reducible apply lineTimeMod_fr); (on_goal 1 => decide))
    | ((with_reducible apply Fr.step); (on_goal 2 => with_reducible apply emit_fr); (on_goal 1 => decide))
    | split)

theorem updateRun_fr {s : State} : ∀ a0, Fr 4112 s (updateRun a0 s) := by
  intro a0
  unfold updateRun
  try dsimp only
  repeat' (first
    | with_reducible exact Fr.refl _ _
    | intro _
    | with_reducible refine Fr.ite ?_ ?_
    | ((with_reducible apply Fr.trans); (on_goal 2 => ((with_reducible apply gridFire_fr); (on_goal 1 => decide))))
    | ((with_reducible apply Fr.trans); (on_goal 2 => ((with_reducible apply onChannels_fr); (on_goal 1 => decide))))
    | ((with_reducible apply Fr.step); (on_goal 2 => with_reducible apply updateChannel_fr); (on_goal 1 => decide))
    | split)

theorem msgTxDone_fr {s : State} : ∀ a0, Fr 2100928 s (msgTxDone a0 s) := by
  intro a0
  unfold msgTxDone
  try dsimp only
  repeat' (first
    | with_reducible exact Fr.refl _ _
    | intro _
    | with_reducible refine Fr.ite ?_ ?_
    | (with_reducible refine Fr.upd ?_ ?_; on_goal 2 => (fail_if_success (with_reducible exact Fr.refl _ _)); (constructor <;> first | exact fun h => absurd h (by decide) | exact fun _ => rfl))
    | ((with_reducible apply Fr.step); (on_goal 2 => with_reducible apply portTx_fr); (on_goal 1 => decide))
    | ((with_reducible apply Fr.step); (on_goal 2 => with_reducible apply portsStart_fr); (on_goal 1 => decide))
    | ((with_reducible apply Fr.step); (on_goal 2 => with_reducible apply ownLeave_fr); (on_goal 1 => decide))
    | ((with_reducible apply Fr.step); (on_goal 2 => with_reducible apply portStart_fr); (on_goal 1 => decide))
    | split)

theorem stepLinkDrop_fr {s : State} : ∀ a0, Fr 2100928 s (stepLinkDrop a0 s) := by
  intro a0
  unfold stepLinkDrop
  try dsimp only
  repeat' (first
    | with_reducible exact Fr.refl _ _
    | intro _
    | with_reducible refine Fr.ite ?_ ?_
    | (with_reducible refine Fr.upd ?_ ?_; on_goal 2 => (fail_if_success (with_reducible exact Fr.refl _ _)); (constructor <;> first | exact fun h => absurd h (by decide) | exact fun _ => rfl))
    | ((with_reducible apply Fr.step); (on_goal 2 => with_reducible apply msgLinkLost_fr); (on_goal 1 => decide))
    | ((with_reducible apply Fr.step); (on_goal 2 => with_reducible apply hpMod_fr); (on_goal 1 => decide))
    | split)

theorem stepRx_fr {s : State} : ∀ a0 a1, Fr 2097344 s (stepRx a0 a1 s) := by
  intro a0 a1
  unfold stepRx
  try dsimp only
  repeat' (first
    | with_reducible exact Fr.refl _ _
    | intro _
    | with_reducible refine Fr.ite ?_ ?_
    | (with_reducible refine Fr.upd ?_ ?_; on_goal 2 => (fail_if_success (with_reducible exact Fr.refl _ _)); (constructor <;> first | exact fun h => absurd h (by decide) | exact fun _ => rfl))
    | ((with_reducible apply Fr.step); (on_goal 2 => with_reducible apply resettle_fr); (on_goal 1 => decide))
    | ((with_reducible apply Fr.step); (on_goal 2 => with_reducible apply hpMod_fr); (on_goal 1 => decide))
    | ((with_reducible apply Fr.step); (on_goal 2 => with_reducible apply hingeOwn_fr); (on_goal 1 => decide))
    | split)

theorem groupSupplyLow_fr {s : State} : ∀ a0, Fr 4096 s (groupSupplyLow a0 s) := by
  intro a0
  unfold groupSupplyLow
  try dsimp only
  repeat' (first
    | with_reducible exact Fr.refl _ _
    | intro _
    | with_reducible refine Fr.foldl _ ?_ ?_
    | with_reducible refine Fr.ite ?_ ?_
    | ((with_reducible apply Fr.step); (on_goal 2 => with_reducible apply causeSet_fr); (on_goal 1 => decide))
    | ((with_reducible apply Fr.step); (on_goal 2 => with_reducible apply restage_fr); (on_goal 1 => decide))
    | ((with_reducible apply Fr.step); (on_goal 2 => with_reducible apply raise_fr); (on_goal 1 => decide))
    | split)

theorem uncouple_fr {s : State} : ∀ a0, Fr 2097344 s (uncouple a0 s) := by
  intro a0
  unfold uncouple
  try dsimp only
  repeat' (first
    | with_reducible exact Fr.refl _ _
    | intro _
    | with_reducible refine Fr.foldl _ ?_ ?_
    | with_reducible refine Fr.ite ?_ ?_
    | (with_reducible refine Fr.upd ?_ ?_; on_goal 2 => (fail_if_success (with_reducible exact Fr.refl _ _)); (constructor <;> first | exact fun h => absurd h (by decide) | exact fun _ => rfl))
    | ((with_reducible apply Fr.step); (on_goal 2 => with_reducible apply hpMod_fr); (on_goal 1 => decide))
    | ((with_reducible apply Fr.step); (on_goal 2 => with_reducible apply startOwn_fr); (on_goal 1 => decide))
    | ((with_reducible apply Fr.step); (on_goal 2 => with_reducible apply couplingSet_fr); (on_goal 1 => decide))
    | split)

theorem linkDownWaitEnd_fr {s : State} : ∀ a0, Fr 2097344 s (linkDownWaitEnd a0 s) := by
  intro a0
  unfold linkDownWaitEnd
  try dsimp only
  repeat' (first
    | with_reducible exact Fr.refl _ _
    | intro _
    | with_reducible refine Fr.ite ?_ ?_
    | (with_reducible refine Fr.upd ?_ ?_; on_goal 2 => (fail_if_success (with_reducible exact Fr.refl _ _)); (constructor <;> first | exact fun h => absurd h (by decide) | exact fun _ => rfl))
    | ((with_reducible apply Fr.step); (on_goal 2 => with_reducible apply raise_fr); (on_goal 1 => decide))
    | ((with_reducible apply Fr.step); (on_goal 2 => with_reducible apply hpMod_fr); (on_goal 1 => decide))
    | ((with_reducible apply Fr.step); (on_goal 2 => with_reducible apply uncouple_fr); (on_goal 1 => decide))
    | split)

theorem twrWordOp_fr {s : State} : ∀ a0 a1 a2 a3, Fr 32768 s (twrWordOp a0 a1 a2 a3 s) := by
  intro a0 a1 a2 a3
  unfold twrWordOp
  try dsimp only
  repeat' (first
    | with_reducible exact Fr.refl _ _
    | intro _
    | with_reducible refine Fr.ite ?_ ?_
    | ((with_reducible apply Fr.step); (on_goal 2 => with_reducible apply refuse_fr); (on_goal 1 => decide))
    | ((with_reducible apply Fr.step); (on_goal 2 => with_reducible apply activeMod_fr); (on_goal 1 => decide))
    | split)

theorem sinkOff_fr {s : State} : ∀ a0, Fr 4096 s (sinkOff a0 s) := by
  intro a0
  unfold sinkOff
  try dsimp only
  repeat' (first
    | with_reducible exact Fr.refl _ _
    | intro _
    | with_reducible refine Fr.ite ?_ ?_
    | (with_reducible refine Fr.upd ?_ ?_; on_goal 2 => (fail_if_success (with_reducible exact Fr.refl _ _)); (constructor <;> first | exact fun h => absurd h (by decide) | exact fun _ => rfl))
    | ((with_reducible apply Fr.step); (on_goal 2 => with_reducible apply chanMod_fr); (on_goal 1 => decide))
    | ((with_reducible apply Fr.step); (on_goal 2 => with_reducible apply memSettle_fr); (on_goal 1 => decide))
    | split)

theorem inaugAttemptTimeout_fr {s : State} : ∀ a0, Fr 2097344 s (inaugAttemptTimeout a0 s) := by
  intro a0
  unfold inaugAttemptTimeout
  try dsimp only
  repeat' (first
    | with_reducible exact Fr.refl _ _
    | intro _
    | with_reducible refine Fr.ite ?_ ?_
    | ((with_reducible apply Fr.step); (on_goal 2 => with_reducible apply attemptFails_fr); (on_goal 1 => decide))
    | split)

theorem openLoadClear_fr {s : State} : ∀ a0, Fr 4096 s (openLoadClear a0 s) := by
  intro a0
  unfold openLoadClear
  try dsimp only
  repeat' (first
    | with_reducible exact Fr.refl _ _
    | intro _
    | with_reducible refine Fr.ite ?_ ?_
    | ((with_reducible apply Fr.step); (on_goal 2 => with_reducible apply causeClear_fr); (on_goal 1 => decide))
    | split)

theorem twrHeaderOp_fr {s : State} : ∀ a0 a1 a2, Fr 32768 s (twrHeaderOp a0 a1 a2 s) := by
  intro a0 a1 a2
  unfold twrHeaderOp
  try dsimp only
  repeat' (first
    | with_reducible exact Fr.refl _ _
    | intro _
    | with_reducible refine Fr.ite ?_ ?_
    | ((with_reducible apply Fr.step); (on_goal 2 => with_reducible apply refuse_fr); (on_goal 1 => decide))
    | ((with_reducible apply Fr.step); (on_goal 2 => with_reducible apply activeMod_fr); (on_goal 1 => decide))
    | split)

theorem commandAccept_fr {s : State} : ∀ a0, Fr 786432 s (commandAccept a0 s) := by
  intro a0
  unfold commandAccept
  try dsimp only
  repeat' (first
    | with_reducible exact Fr.refl _ _
    | intro _
    | with_reducible refine Fr.ite ?_ ?_
    | ((with_reducible apply Fr.step); (on_goal 2 => with_reducible apply cmdJudge_fr); (on_goal 1 => decide))
    | split)

theorem bufRdOp_fr {s : State} : ∀ a0 a1 a2 a3, Fr 33792 s (bufRdOp a0 a1 a2 a3 s) := by
  intro a0 a1 a2 a3
  unfold bufRdOp
  try dsimp only
  repeat' (first
    | with_reducible exact Fr.refl _ _
    | intro _
    | with_reducible refine Fr.ite ?_ ?_
    | ((with_reducible apply Fr.step); (on_goal 2 => with_reducible apply bufRefused_fr); (on_goal 1 => decide))
    | ((with_reducible apply Fr.step); (on_goal 2 => with_reducible apply poolUncorr_fr); (on_goal 1 => decide))
    | ((with_reducible apply Fr.step); (on_goal 2 => with_reducible apply activeMod_fr); (on_goal 1 => decide))
    | ((with_reducible apply Fr.step); (on_goal 2 => with_reducible apply unitsRead_fr); (on_goal 1 => decide))
    | split)

theorem linkDown_fr {s : State} : ∀ a0, Fr 2100928 s (linkDown a0 s) := by
  intro a0
  unfold linkDown
  try dsimp only
  repeat' (first
    | with_reducible exact Fr.refl _ _
    | intro _
    | with_reducible refine Fr.ite ?_ ?_
    | (with_reducible refine Fr.upd ?_ ?_; on_goal 2 => (fail_if_success (with_reducible exact Fr.refl _ _)); (constructor <;> first | exact fun h => absurd h (by decide) | exact fun _ => rfl))
    | ((with_reducible apply Fr.step); (on_goal 2 => with_reducible apply msgLinkLost_fr); (on_goal 1 => decide))
    | ((with_reducible apply Fr.step); (on_goal 2 => with_reducible apply hpMod_fr); (on_goal 1 => decide))
    | ((with_reducible apply Fr.step); (on_goal 2 => with_reducible apply uncouple_fr); (on_goal 1 => decide))
    | split)

theorem tnulOp_fr {s : State} : ∀ a0, Fr 32896 s (tnulOp a0 s) := by
  intro a0
  unfold tnulOp
  try dsimp only
  repeat' (first
    | with_reducible exact Fr.refl _ _
    | intro _
    | with_reducible refine Fr.ite ?_ ?_
    | (with_reducible refine Fr.upd ?_ ?_; on_goal 2 => (fail_if_success (with_reducible exact Fr.refl _ _)); (constructor <;> first | exact fun h => absurd h (by decide) | exact fun _ => rfl))
    | ((with_reducible apply Fr.step); (on_goal 2 => with_reducible apply activeMod_fr); (on_goal 1 => decide))
    | split)

theorem switchInstant_fr {s : State} : Fr 8388606 s (switchInstant s) := by
  unfold switchInstant
  try dsimp only
  repeat' (first
    | with_reducible exact Fr.refl _ _
    | intro _
    | with_reducible refine Fr.ite ?_ ?_
    | (with_reducible refine Fr.upd ?_ ?_; on_goal 2 => (fail_if_success (with_reducible exact Fr.refl _ _)); (constructor <;> first | exact fun h => absurd h (by decide) | exact fun _ => rfl))
    | ((with_reducible apply Fr.step); (on_goal 2 => with_reducible apply cycleBody_fr); (on_goal 1 => decide))
    | ((with_reducible apply Fr.step); (on_goal 2 => with_reducible apply icountClose_fr); (on_goal 1 => decide))
    | ((with_reducible apply Fr.step); (on_goal 2 => with_reducible apply adopt_fr); (on_goal 1 => decide))
    | ((with_reducible apply Fr.step); (on_goal 2 => with_reducible apply switchCycle_fr); (on_goal 1 => decide))
    | ((with_reducible apply Fr.step); (on_goal 2 => with_reducible apply eventsTake_fr); (on_goal 1 => decide))
    | split)

theorem sleepMinDwell_fr {s : State} : Fr 1441806 s (sleepMinDwell s) := by
  unfold sleepMinDwell
  try dsimp only
  repeat' (first
    | with_reducible exact Fr.refl _ _
    | intro _
    | with_reducible refine Fr.ite ?_ ?_
    | (with_reducible refine Fr.upd ?_ ?_; on_goal 2 => (fail_if_success (with_reducible exact Fr.refl _ _)); (constructor <;> first | exact fun h => absurd h (by decide) | exact fun _ => rfl))
    | ((with_reducible apply Fr.step); (on_goal 2 => with_reducible apply sleepLeave_fr); (on_goal 1 => decide))
    | split)

theorem hostOpInvalid_fr {s : State} : ∀ a0, Fr 2098688 s (hostOpInvalid a0 s) := by
  intro a0
  unfold hostOpInvalid
  try dsimp only
  repeat' (first
    | with_reducible exact Fr.refl _ _
    | intro _
    | with_reducible refine Fr.ite ?_ ?_
    | ((with_reducible apply Fr.step); (on_goal 2 => with_reducible apply hostGo_fr); (on_goal 1 => decide))
    | split)

theorem thermalCutoff_fr {s : State} : ∀ a0, Fr 4096 s (thermalCutoff a0 s) := by
  intro a0
  unfold thermalCutoff
  try dsimp only
  repeat' (first
    | with_reducible exact Fr.refl _ _
    | intro _
    | with_reducible refine Fr.ite ?_ ?_
    | (with_reducible refine Fr.upd ?_ ?_; on_goal 2 => (fail_if_success (with_reducible exact Fr.refl _ _)); (constructor <;> first | exact fun h => absurd h (by decide) | exact fun _ => rfl))
    | ((with_reducible apply Fr.step); (on_goal 2 => with_reducible apply causeSet_fr); (on_goal 1 => decide))
    | ((with_reducible apply Fr.step); (on_goal 2 => with_reducible apply chanMod_fr); (on_goal 1 => decide))
    | ((with_reducible apply Fr.step); (on_goal 2 => with_reducible apply restage_fr); (on_goal 1 => decide))
    | ((with_reducible apply Fr.step); (on_goal 2 => with_reducible apply raise_fr); (on_goal 1 => decide))
    | split)

theorem mpostSendOp_fr {s : State} : ∀ a0 a1 a2 a3, Fr 2131136 s (mpostSendOp a0 a1 a2 a3 s) := by
  intro a0 a1 a2 a3
  unfold mpostSendOp
  try dsimp only
  repeat' (first
    | with_reducible exact Fr.refl _ _
    | intro _
    | with_reducible refine Fr.ite ?_ ?_
    | (with_reducible refine Fr.upd ?_ ?_; on_goal 2 => (fail_if_success (with_reducible exact Fr.refl _ _)); (constructor <;> first | exact fun h => absurd h (by decide) | exact fun _ => rfl))
    | ((with_reducible apply Fr.step); (on_goal 2 => with_reducible apply activeMod_fr); (on_goal 1 => decide))
    | ((with_reducible apply Fr.step); (on_goal 2 => with_reducible apply ownAdd_fr); (on_goal 1 => decide))
    | ((with_reducible apply Fr.step); (on_goal 2 => with_reducible apply chainOwner_fr); (on_goal 1 => decide))
    | split)

theorem relaySenseMismatch_fr {s : State} : ∀ a0, Fr 8 s (relaySenseMismatch a0 s) := by
  intro a0
  unfold relaySenseMismatch
  try dsimp only
  repeat' (first
    | with_reducible exact Fr.refl _ _
    | intro _
    | with_reducible refine Fr.ite ?_ ?_
    | (with_reducible refine Fr.upd ?_ ?_; on_goal 2 => (fail_if_success (with_reducible exact Fr.refl _ _)); (constructor <;> first | exact fun h => absurd h (by decide) | exact fun _ => rfl))
    | ((with_reducible apply Fr.step); (on_goal 2 => with_reducible apply raise_fr); (on_goal 1 => decide))
    | split)

theorem openLoadDetect_fr {s : State} : ∀ a0, Fr 4096 s (openLoadDetect a0 s) := by
  intro a0
  unfold openLoadDetect
  try dsimp only
  repeat' (first
    | with_reducible exact Fr.refl _ _
    | intro _
    | with_reducible refine Fr.ite ?_ ?_
    | (with_reducible refine Fr.upd ?_ ?_; on_goal 2 => (fail_if_success (with_reducible exact Fr.refl _ _)); (constructor <;> first | exact fun h => absurd h (by decide) | exact fun _ => rfl))
    | ((with_reducible apply Fr.step); (on_goal 2 => with_reducible apply raise_fr); (on_goal 1 => decide))
    | ((with_reducible apply Fr.step); (on_goal 2 => with_reducible apply causeSet_fr); (on_goal 1 => decide))
    | ((with_reducible apply Fr.step); (on_goal 2 => with_reducible apply chanMod_fr); (on_goal 1 => decide))
    | split)

theorem hingeRx_fr {m : Nat} {s : State} {sub : Byte} {p : Nat} {hd : HingeHdr} {f : State → State}
    (hm : within 64 m = true) (hf : ∀ s, Fr m s (f s)) : Fr m s (hingeRx sub p hd f s) := by
  unfold hingeRx
  dsimp only
  split
  · exact Fr.refl _ _
  · refine Fr.trans (Fr.weaken hm ?_) (hf _)
    constructor <;> first | exact fun h => absurd h (by decide) | exact fun _ => rfl
theorem measOp_fr {s : State} : ∀ a0 a1 a2 a3 a4, Fr 32768 s (measOp a0 a1 a2 a3 a4 s) := by
  intro a0 a1 a2 a3 a4
  unfold measOp
  try dsimp only
  repeat' (first
    | with_reducible exact Fr.refl _ _
    | intro _
    | with_reducible refine Fr.elim ?_ ?_
    | with_reducible refine Fr.ite ?_ ?_
    | (with_reducible refine Fr.upd ?_ ?_; on_goal 2 => (fail_if_success (with_reducible exact Fr.refl _ _)); (constructor <;> first | exact fun h => absurd h (by decide) | exact fun _ => rfl))
    | ((with_reducible apply Fr.step); (on_goal 2 => with_reducible apply refuse_fr); (on_goal 1 => decide))
    | ((with_reducible apply Fr.step); (on_goal 2 => with_reducible apply activeMod_fr); (on_goal 1 => decide))
    | split)

theorem vsndDynamicOp_fr {s : State} : ∀ a0 a1 a2, Fr 34048 s (vsndDynamicOp a0 a1 a2 s) := by
  intro a0 a1 a2
  unfold vsndDynamicOp
  try dsimp only
  repeat' (first
    | with_reducible exact Fr.refl _ _
    | intro _
    | with_reducible refine Fr.ite ?_ ?_
    | (with_reducible refine Fr.upd ?_ ?_; on_goal 2 => (fail_if_success (with_reducible exact Fr.refl _ _)); (constructor <;> first | exact fun h => absurd h (by decide) | exact fun _ => rfl))
    | ((with_reducible apply Fr.step); (on_goal 2 => with_reducible apply refuse_fr); (on_goal 1 => decide))
    | ((with_reducible apply Fr.step); (on_goal 2 => with_reducible apply activeMod_fr); (on_goal 1 => decide))
    | ((with_reducible apply Fr.step); (on_goal 2 => with_reducible apply dynPost_fr); (on_goal 1 => decide))
    | split)

theorem inbandPduVerified_fr {s : State} : Fr 3937992 s (inbandPduVerified s) := by
  unfold inbandPduVerified
  try dsimp only
  repeat' (first
    | with_reducible exact Fr.refl _ _
    | intro _
    | with_reducible refine Fr.ite ?_ ?_
    | (with_reducible refine Fr.upd ?_ ?_; on_goal 2 => (fail_if_success (with_reducible exact Fr.refl _ _)); (constructor <;> first | exact fun h => absurd h (by decide) | exact fun _ => rfl))
    | ((with_reducible apply Fr.step); (on_goal 2 => with_reducible apply pduVerified_fr); (on_goal 1 => decide))
    | split)

theorem msgDropped_fr {s : State} : Fr 128 s (msgDropped s) := by
  unfold msgDropped
  try dsimp only
  repeat' (first
    | with_reducible exact Fr.refl _ _
    | intro _
    | with_reducible refine Fr.ite ?_ ?_
    | (with_reducible refine Fr.upd ?_ ?_; on_goal 2 => (fail_if_success (with_reducible exact Fr.refl _ _)); (constructor <;> first | exact fun h => absurd h (by decide) | exact fun _ => rfl))
    | split)

theorem msgFrameRx_fr {s : State} : ∀ a0 a1, Fr 3411904 s (msgFrameRx a0 a1 s) := by
  intro a0 a1
  unfold msgFrameRx
  try dsimp only
  repeat' (first
    | with_reducible exact Fr.refl _ _
    | intro _
    | with_reducible refine Fr.ite ?_ ?_
    | (with_reducible refine Fr.upd ?_ ?_; on_goal 2 => (fail_if_success (with_reducible exact Fr.refl _ _)); (constructor <;> first | exact fun h => absurd h (by decide) | exact fun _ => rfl))
    | ((with_reducible apply Fr.step); (on_goal 2 => with_reducible apply raise_fr); (on_goal 1 => decide))
    | ((with_reducible apply Fr.step); (on_goal 2 => with_reducible apply msgDropped_fr); (on_goal 1 => decide))
    | ((with_reducible apply Fr.step); (on_goal 2 => with_reducible apply portStart_fr); (on_goal 1 => decide))
    | ((with_reducible apply Fr.step); (on_goal 2 => with_reducible apply msgConsume_fr); (on_goal 1 => decide))
    | split)

theorem tempSensorStuck_fr {s : State} : ∀ a0 a1, Fr 8192 s (tempSensorStuck a0 a1 s) := by
  intro a0 a1
  unfold tempSensorStuck
  try dsimp only
  repeat' (first
    | with_reducible exact Fr.refl _ _
    | intro _
    | with_reducible refine Fr.ite ?_ ?_
    | (with_reducible refine Fr.upd ?_ ?_; on_goal 2 => (fail_if_success (with_reducible exact Fr.refl _ _)); (constructor <;> first | exact fun h => absurd h (by decide) | exact fun _ => rfl))
    | ((with_reducible apply Fr.step); (on_goal 2 => with_reducible apply raise_fr); (on_goal 1 => decide))
    | split)

theorem eqFrameRx_fr {s : State} : ∀ a0 a1 a2, Fr 3411648 s (eqFrameRx a0 a1 a2 s) := by
  intro a0 a1 a2
  unfold eqFrameRx
  try dsimp only
  repeat' (first
    | with_reducible exact Fr.refl _ _
    | intro _
    | with_reducible refine Fr.ite ?_ ?_
    | (with_reducible refine Fr.upd ?_ ?_; on_goal 2 => (fail_if_success (with_reducible exact Fr.refl _ _)); (constructor <;> first | exact fun h => absurd h (by decide) | exact fun _ => rfl))
    | ((with_reducible apply Fr.step); (on_goal 2 => with_reducible apply rxDropped_fr); (on_goal 1 => decide))
    | ((with_reducible apply Fr.step); (on_goal 2 => with_reducible apply eqMod_fr); (on_goal 1 => decide))
    | ((with_reducible apply Fr.step); (on_goal 2 => with_reducible apply macControl_fr); (on_goal 1 => decide))
    | ((with_reducible apply Fr.step); (on_goal 2 => with_reducible apply pfcAll_fr); (on_goal 1 => decide))
    | ((with_reducible apply Fr.step); (on_goal 2 => with_reducible apply rxStore_fr); (on_goal 1 => decide))
    | split)

theorem hpAbort_fr {s : State} : ∀ a0 a1 a2 a3, Fr 3937800 s (hpAbort a0 a1 a2 a3 s) := by
  intro a0 a1 a2 a3
  unfold hpAbort
  try dsimp only
  repeat' (first
    | with_reducible exact Fr.refl _ _
    | intro _
    | with_reducible refine Fr.ite ?_ ?_
    | ((with_reducible apply Fr.step); (on_goal 2 => with_reducible apply transact_fr); (on_goal 1 => decide))
    | ((with_reducible apply Fr.step); (on_goal 2 => with_reducible apply raise_fr); (on_goal 1 => decide))
    | split)

theorem ballocOp_fr {s : State} : ∀ a0 a1 a2, Fr 33792 s (ballocOp a0 a1 a2 s) := by
  intro a0 a1 a2
  unfold ballocOp
  try dsimp only
  repeat' (first
    | with_reducible exact Fr.refl _ _
    | intro _
    | with_reducible refine Fr.ite ?_ ?_
    | ((with_reducible apply Fr.step); (on_goal 2 => with_reducible apply poolAlloc_fr); (on_goal 1 => decide))
    | ((with_reducible apply Fr.step); (on_goal 2 => with_reducible apply activeMod_fr); (on_goal 1 => decide))
    | split)

theorem admitResend_fr {s : State} : ∀ a0, Fr 2097352 s (admitResend a0 s) := by
  intro a0
  unfold admitResend
  try dsimp only
  repeat' (first
    | with_reducible exact Fr.refl _ _
    | intro _
    | with_reducible refine Fr.ite ?_ ?_
    | (with_reducible refine Fr.upd ?_ ?_; on_goal 2 => (fail_if_success (with_reducible exact Fr.refl _ _)); (constructor <;> first | exact fun h => absurd h (by decide) | exact fun _ => rfl))
    | ((with_reducible apply Fr.step); (on_goal 2 => with_reducible apply admitSend_fr); (on_goal 1 => decide))
    | ((with_reducible apply Fr.step); (on_goal 2 => with_reducible apply admitRefused_fr); (on_goal 1 => decide))
    | split)

theorem removal_fr {s : State} : Fr 6291438 s (removal s) := by
  unfold removal
  try dsimp only
  repeat' (first
    | with_reducible exact Fr.refl _ _
    | intro _
    | with_reducible refine Fr.ite ?_ ?_
    | (with_reducible refine Fr.upd ?_ ?_; on_goal 2 => (fail_if_success (with_reducible exact Fr.refl _ _)); (constructor <;> first | exact fun h => absurd h (by decide) | exact fun _ => rfl))
    | ((with_reducible apply Fr.step); (on_goal 2 => with_reducible apply startFlush_fr); (on_goal 1 => decide))
    | ((with_reducible apply Fr.step); (on_goal 2 => with_reducible apply goOff_fr); (on_goal 1 => decide))
    | split)

theorem drawerSelect_fr {s : State} : ∀ a0 a1, Fr 1048576 s (drawerSelect a0 a1 s) := by
  intro a0 a1
  unfold drawerSelect
  try dsimp only
  repeat' (first
    | with_reducible exact Fr.refl _ _
    | intro _
    | with_reducible refine Fr.ite ?_ ?_
    | ((with_reducible apply Fr.step); (on_goal 2 => with_reducible apply drawerSel_fr); (on_goal 1 => decide))
    | split)

theorem countRun_fr {s : State} : ∀ a0, Fr 4112 s (countRun a0 s) := by
  intro a0
  unfold countRun
  try dsimp only
  repeat' (first
    | with_reducible exact Fr.refl _ _
    | intro _
    | with_reducible refine Fr.ite ?_ ?_
    | ((with_reducible apply Fr.trans); (on_goal 2 => ((with_reducible apply gridFire_fr); (on_goal 1 => decide))))
    | ((with_reducible apply Fr.trans); (on_goal 2 => ((with_reducible apply onChannels_fr); (on_goal 1 => decide))))
    | ((with_reducible apply Fr.step); (on_goal 2 => with_reducible apply countChannel_fr); (on_goal 1 => decide))
    | split)

theorem coreCheckFail_fr {s : State} : ∀ a0, Fr 7395078 s (coreCheckFail a0 s) := by
  intro a0
  unfold coreCheckFail
  try dsimp only
  repeat' (first
    | with_reducible exact Fr.refl _ _
    | intro _
    | with_reducible refine Fr.ite ?_ ?_
    | ((with_reducible apply Fr.step); (on_goal 2 => with_reducible apply yieldNow_fr); (on_goal 1 => decide))
    | split)

theorem tfAction_fr {m : Nat} {s : State} {k : Byte} {e : Option Nat} {f : State → State}
    (hm : within 16 m = true) (hf : ∀ s, Fr m s (f s)) : Fr m s (tfAction k e f s) := by
  have hw : ∀ {a}, within a 16 = true → within a m = true := fun h => by
    have h1 := hm
    unfold within at *
    simp only [beq_iff_eq] at *
    rw [← h, Nat.and_assoc, h1]
  unfold tfAction
  split
  · exact Fr.ite (hf s) (Fr.refl _ _)
  · refine gridFire_fr (hw (by decide)) (fun e s => ?_)
    exact Fr.ite (Fr.refl _ _) (onDomain_fr (hw (by decide)) hf)
theorem logClearDisarm_fr {s : State} : Fr 16 s (logClearDisarm s) := by
  unfold logClearDisarm
  try dsimp only
  repeat' (first
    | with_reducible exact Fr.refl _ _
    | intro _
    | with_reducible refine Fr.ite ?_ ?_
    | (with_reducible refine Fr.upd ?_ ?_; on_goal 2 => (fail_if_success (with_reducible exact Fr.refl _ _)); (constructor <;> first | exact fun h => absurd h (by decide) | exact fun _ => rfl))
    | split)

theorem pfcRefresh_fr {s : State} : ∀ a0, Fr 2097664 s (pfcRefresh a0 s) := by
  intro a0
  unfold pfcRefresh
  try dsimp only
  repeat' (first
    | with_reducible exact Fr.refl _ _
    | intro _
    | with_reducible refine Fr.ite ?_ ?_
    | ((with_reducible apply Fr.step); (on_goal 2 => with_reducible apply pfcSend_fr); (on_goal 1 => decide))
    | split)

theorem drvOp_fr {s : State} : ∀ a0 a1 a2 a3, Fr 36864 s (drvOp a0 a1 a2 a3 s) := by
  intro a0 a1 a2 a3
  unfold drvOp
  try dsimp only
  repeat' (first
    | with_reducible exact Fr.refl _ _
    | intro _
    | with_reducible refine Fr.ite ?_ ?_
    | (with_reducible refine Fr.upd ?_ ?_; on_goal 2 => (fail_if_success (with_reducible exact Fr.refl _ _)); (constructor <;> first | exact fun h => absurd h (by decide) | exact fun _ => rfl))
    | ((with_reducible apply Fr.step); (on_goal 2 => with_reducible apply refuse_fr); (on_goal 1 => decide))
    | ((with_reducible apply Fr.step); (on_goal 2 => with_reducible apply activeMod_fr); (on_goal 1 => decide))
    | ((with_reducible apply Fr.step); (on_goal 2 => with_reducible apply chanMod_fr); (on_goal 1 => decide))
    | split)

theorem gateOp_fr {s : State} : ∀ a0 a1, Fr 34816 s (gateOp a0 a1 s) := by
  intro a0 a1
  unfold gateOp
  try dsimp only
  repeat' (first
    | with_reducible exact Fr.refl _ _
    | intro _
    | with_reducible refine Fr.ite ?_ ?_
    | (with_reducible refine Fr.upd ?_ ?_; on_goal 2 => (fail_if_success (with_reducible exact Fr.refl _ _)); (constructor <;> first | exact fun h => absurd h (by decide) | exact fun _ => rfl))
    | ((with_reducible apply Fr.step); (on_goal 2 => with_reducible apply refuse_fr); (on_goal 1 => decide))
    | ((with_reducible apply Fr.step); (on_goal 2 => with_reducible apply activeMod_fr); (on_goal 1 => decide))
    | split)

/-! ### Commands -/

/-- A command may change what its meaning may, the instant, the outputs, and what the NV controller may when it takes up
its next work. -/
theorem act_fr {m t : Nat} {f : State → State} {s u : State} (hm : within 2883604 m = true) (hf : ∀ s, Fr m s (f s))
    (he : act t f s = .next u) : Fr m s u := by
  cases he
  have h := ((Fr.weaken (within_trans (by decide) hm) (begin__fr t)).trans (hf (begin_ t s))).trans
    (Fr.weaken (within_trans (by decide) hm) nvKick_fr)
  exact { h with pending := fun _ => rfl }

end Sys2Proof.Machine
end

