-- ==== Sys2Proof/Laws/Gives.lean ====
section
/-! SUPPORT. How a command completes: `act` answers a next state, and an event once raised stays occurred until the end
of the command. -/

namespace Sys2Proof.Machine

theorem gives_of_act {c : Instr} {t : Nat} {f : State → State} {s : State} {P : State → Prop}
    (he : exec c s = act t f s) (h : P { nvKick (f (begin_ t s)) with pending := s.pending }) : Gives c s P := ⟨_, he, h⟩

/-! ### Events -/

/-- Every event that has occurred stays so. -/
def EvsIn (s u : State) : Prop := ∀ x, x ∈ s.gr.evNow ++ s.gr.evNext → x ∈ u.gr.evNow ++ u.gr.evNext

theorem EvsIn.refl (s : State) : EvsIn s s := fun _ h => h

theorem EvsIn.trans {s u v : State} (h : EvsIn s u) (k : EvsIn u v) : EvsIn s v := fun x hx => k x (h x hx)

theorem EvsIn.of_gr {s u : State} (h : u.gr = s.gr) : EvsIn s u := fun x hx => by rw [h]; exact hx

theorem EvsIn.pre {s v u : State} (h : EvsIn v u) (e : v.gr = s.gr) : EvsIn s u := (EvsIn.of_gr e).trans h

theorem Occurred.mono {c i : Nat} {s u : State} (h : EvsIn s u) (ho : Occurred c i s) : Occurred c i u := h _ ho

theorem noteEvent_mem (c : Half) (i : Byte) (s : State) :
    (c, i) ∈ (noteEvent c i s).gr.evNow ++ (noteEvent c i s).gr.evNext := by
  unfold noteEvent noteWindow
  dsimp only
  split <;> split <;> simp_all

theorem noteEvent_evsIn (c : Half) (i : Byte) (s : State) : EvsIn s (noteEvent c i s) := by
  intro x hx
  unfold noteEvent noteWindow
  dsimp only
  split <;> split <;> simp_all <;> tauto

theorem logOpl_evsIn (r : Bool) (c : Half) (i : Byte) (d : List Word) (s : State) : EvsIn s (logOpl r c i d s) := by
  unfold logOpl
  dsimp only
  split
  · refine EvsIn.pre (noteEvent_evsIn _ _ _) rfl
  · exact EvsIn.of_gr rfl

theorem logInc_evsIn (r : Bool) (c : Half) (i : Byte) (d : List Word) (s : State) : EvsIn s (logInc r c i d s) := by
  unfold logInc
  dsimp only
  split
  · refine EvsIn.trans ?_ (noteEvent_evsIn _ _ _)
    refine EvsIn.pre (logOpl_evsIn _ _ _ _ _) rfl
  · exact EvsIn.of_gr rfl

theorem raiseTo_note (l : EvLogs) (c : Half) (i : Byte) (d : List Word) (s : State) :
    EvsIn (noteEvent c i s) (raiseTo l c i d s) := by
  unfold raiseTo
  dsimp only
  generalize noteEvent c i s = u
  have h : EvsIn u (if l.opl = true then logOpl l.rep c i d u else u) := by
    split
    · exact logOpl_evsIn _ _ _ _ _
    · exact EvsIn.refl _
  refine h.trans ?_
  generalize (if l.opl = true then logOpl l.rep c i d u else u) = v
  split
  · exact logInc_evsIn _ _ _ _ _
  · exact EvsIn.refl _

theorem raiseTo_evsIn (l : EvLogs) (c : Half) (i : Byte) (d : List Word) (s : State) : EvsIn s (raiseTo l c i d s) :=
  (noteEvent_evsIn _ _ _).trans (raiseTo_note _ _ _ _ _)

theorem raise_evsIn (c i : Nat) (d : List Word) (s : State) : EvsIn s (raise c i d s) := raiseTo_evsIn _ _ _ _ _

/-- A raised event has occurred, whatever the logs do (R493). -/
theorem raise_occurred (c i : Nat) (d : List Word) (s : State) : Occurred c i (raise c i d s) :=
  raiseTo_note _ _ _ _ _ _ (noteEvent_mem _ _ _)

theorem cmdState_evsIn (q : Word) (st : Nat) (r : Byte) (d : Half) (s : State) : EvsIn s (cmdState q st r d s) :=
  EvsIn.of_gr (by unfold cmdState; split <;> rfl)

theorem jobEnd_evsIn (r : Byte) (d : Half) (s : State) : EvsIn s (jobEnd r d s) :=
  EvsIn.of_gr (by
    unfold jobEnd
    split
    · rfl
    · unfold cmdState
      dsimp only
      split <;> rfl)

theorem nvReport_evsIn (a n : Nat) (s : State) : EvsIn s (nvReport a n s) := by
  unfold nvReport
  generalize s.nv.errs = l
  induction l generalizing s with
  | nil => exact EvsIn.refl _
  | cons e r ih =>
    rw [List.foldl_cons]
    refine EvsIn.trans ?_ (ih _)
    split
    · split
      · refine EvsIn.pre (raise_evsIn _ _ _ _) rfl
      · refine EvsIn.pre (raise_evsIn _ _ _ _) rfl
    · exact EvsIn.refl _

theorem refPick_evsIn (n : Nat) (s : State) : EvsIn s (refPick n s) := by
  induction n generalizing s with
  | zero => exact EvsIn.refl _
  | succ n ih =>
    unfold refPick
    split
    · exact EvsIn.refl _
    · dsimp only
      split
      · unfold refEnd
        refine EvsIn.trans (raise_evsIn _ _ _ _) (jobEnd_evsIn _ _ _)
      · split
        · refine EvsIn.pre (ih _) rfl
        · split
          · refine EvsIn.trans (nvReport_evsIn _ _ _) (EvsIn.pre (ih _) rfl)
          · exact EvsIn.of_gr rfl

theorem jobBegin_evsIn (c : QCmd) (s : State) : EvsIn s (jobBegin c s) := by
  unfold jobBegin
  dsimp only
  generalize hs : cmdState c.ent.jseq 3 0 0 { s with nv := _ } = u
  have h1 : EvsIn s u := by
    rw [← hs]
    refine EvsIn.pre (cmdState_evsIn _ _ _ _ _) rfl
  refine h1.trans ?_
  split
  · exact EvsIn.of_gr rfl
  split
  · split
    · refine EvsIn.trans (raise_evsIn _ _ _ _) (jobEnd_evsIn _ _ _)
    · exact EvsIn.of_gr rfl
  split
  · exact EvsIn.of_gr (by unfold verifierPower; split <;> rfl)
  split
  · exact refPick_evsIn _ _
  split
  · split
    · exact EvsIn.of_gr rfl
    · exact jobEnd_evsIn _ _ _
  split <;> exact EvsIn.of_gr rfl

theorem programStart_evsIn (s : State) : EvsIn s (programStart s) := by
  unfold programStart
  split
  · split
    · exact EvsIn.refl _
    split
    · exact EvsIn.refl _
    split
    · refine EvsIn.pre (jobBegin_evsIn _ _) rfl
    · exact EvsIn.of_gr rfl
  · exact EvsIn.refl _

theorem nvTake_evsIn (n : Nat) (s : State) : EvsIn s (nvTake n s) := by
  induction n generalizing s with
  | zero => exact EvsIn.refl _
  | succ n ih =>
    have h : EvsIn s (programStart (chkLoad (jnvLoad s))) := by
      refine EvsIn.pre (programStart_evsIn _) ?_
      have h1 : (jnvLoad s).gr = s.gr := by
        unfold jnvLoad
        split <;> rfl
      rw [← h1]
      unfold chkLoad
      split
      · split <;> rfl
      · rfl
    unfold nvTake
    dsimp only
    refine h.trans ?_
    split
    · unfold incReject
      refine EvsIn.trans ?_ (ih _)
      refine EvsIn.pre (raise_evsIn _ _ _ _) rfl
    · split
      · exact EvsIn.of_gr rfl
      · exact EvsIn.refl _

theorem nvKick_evsIn (s : State) : EvsIn s (nvKick s) := by
  unfold nvKick
  split
  · exact nvTake_evsIn _ _
  · exact EvsIn.refl _

/-- What has occurred in a command's meaning has occurred after the command. -/
theorem kick_occurred {c i : Nat} {s : State} {l : List Instr} (h : Occurred c i s) :
    Occurred c i { nvKick s with pending := l } := nvKick_evsIn _ _ h

end Sys2Proof.Machine
end

