-- ==== Sys2Proof/Laws/PowerOps.lean ====
section
/-! SUPPORT. Lemmas of power entry, the flush, waking and the node states. -/

set_option linter.all false

namespace Sys2Proof.Machine

theorem Fr.pw {m : Nat} {s u : State} (h : Fr m s u) (b : m.testBit 3 = false) {α : Type} (p : Pwr → α)
    (hp : ∀ q : Pwr, p q = p { q with node := .off, doms := [] }) : p u.pwr = p s.pwr := by
  rw [hp u.pwr, hp s.pwr, h.pwr b]

theorem startFlush_new {s : State} (c : Half) (h : s.pwr.flush = none) :
    (startFlush c s).pwr.flush = some ⟨c, false, s.pwr.opsec⟩ ∧ (startFlush c s).pwr.seated = s.pwr.seated := by
  have e : ∀ {α : Type} (p : Pwr → α), (∀ q : Pwr, p q = p { q with node := .off, doms := [] }) →
      p (abandonCommands .off (nvCut s)).pwr = p s.pwr := fun p hp =>
    ((abandonCommands_fr .off).pw rfl p hp).trans (nvCut_fr.pw rfl p hp)
  unfold startFlush
  rw [h]
  simp only [noteEvent_pwr]
  exact ⟨by rw [e Pwr.opsec (fun _ => rfl)], e Pwr.seated (fun _ => rfl)⟩

theorem startFlush_occurred {s : State} (c : Nat) (h : s.pwr.flush = none) :
    Occurred c 0xFF (startFlush (BitVec.ofNat 16 c) s) := by
  unfold startFlush
  rw [h]
  exact noteEvent_mem _ _ _

theorem goOff_node (c : Nat) (s : State) : (goOff c s).pwr.node = .off := rfl

theorem nvCut_seated (s : State) : (nvCut s).pwr.seated = s.pwr.seated := nvCut_fr.pw rfl Pwr.seated (fun _ => rfl)

theorem nvCut_bat (s : State) : (nvCut s).pwr.bat = s.pwr.bat := nvCut_fr.pw rfl Pwr.bat (fun _ => rfl)

theorem nvCut_qcut (s : State) : (nvCut s).pwr.qcut = s.pwr.qcut := nvCut_fr.pw rfl Pwr.qcut (fun _ => rfl)

theorem nvCut_markAbsent (s : State) : (nvCut s).pwr.markAbsent = s.pwr.markAbsent := nvCut_fr.pw rfl Pwr.markAbsent (fun _ => rfl)

theorem storeStart_pwr (s : State) : (storeStart s).pwr = s.pwr := by
  have h := storeStart_fr (s := s)
  have a := h.node rfl
  have b := h.pwr rfl
  have c := h.doms rfl
  cases hu : (storeStart s).pwr; cases hs : s.pwr; simp_all

theorem wakeFromOff_pwr (s : State) : (wakeFromOff s).pwr.node = .waking ∧ (wakeFromOff s).pwr.regOn = true ∧
    (wakeFromOff s).pwr.regAttempts = 1 ∧ (wakeFromOff s).pwr.pcyc = satInc (s.nv.cfg.pcyc.getD 0) ∧
    (wakeFromOff s).pwr.opsec = s.nv.cfg.opsec.getD 0 := by
  unfold wakeFromOff regulatorStart transition stateLevels
  dsimp only
  split <;> simp [storeStart_pwr, cold, nvStored]

theorem reach_plain (l : Level) (s : State) : reach 1 l s = { s with pwr := { s.pwr with doms := s.pwr.doms.modify 1 (fun x => { x with act := l }) } } := by
  simp [reach, domainHook]

theorem trans_pwr (n : NodeState) (c : Nat) (s : State) : (transition n c s).pwr = { s.pwr with node := n } := by
  unfold transition; simp

theorem stateLevels_pwr (a b : List Nat) (s : State) : (stateLevels a b s).pwr = { s.pwr with doms := (stateLevels a b s).pwr.doms } := rfl

theorem goBringup_pwr (s : State) : (goBringup s).pwr.node = .bringup ∧ (goBringup s).cyc.phase = 0 := by
  unfold goBringup
  dsimp only
  generalize hx : stateLevels _ _ _ = x
  have h1 : x.pwr.node = .bringup := by rw [← hx]; simp only [stateLevels, trans_pwr]
  have h2 : x.cyc.phase = 0 := by
    rw [← hx]
    exact ((stateLevels_fr _ _).phase rfl).trans ((transition_fr _ _).phase rfl)
  clear hx
  generalize hy : ({ x with nv := _ } : State) = y
  have h3 : y.pwr.node = .bringup := by rw [← hy]; exact h1
  have h4 : y.cyc.phase = 0 := by rw [← hy]; exact h2
  clear hy
  have k1 : ∀ z, z = startVerify (reportWake (reportQuiesceCut (reportWakeFailure y))) → z.pwr.node = .bringup ∧ z.cyc.phase = 0 := by
    intro z hz
    rw [hz]
    exact ⟨(startVerify_fr.node rfl).trans ((reportWake_fr.node rfl).trans ((reportQuiesceCut_fr.node rfl).trans ((reportWakeFailure_fr.node rfl).trans h3))),
      (startVerify_fr.phase rfl).trans ((reportWake_fr.phase rfl).trans ((reportQuiesceCut_fr.phase rfl).trans ((reportWakeFailure_fr.phase rfl).trans h4)))⟩
  generalize hz : startVerify _ = z
  have k := k1 z hz.symm
  split <;> exact k

theorem flushChk_pwr (s : State) : (flushChk s).pwr = s.pwr := by
  have h := flushChk_fr (s := s)
  have a := h.node rfl
  have b := h.pwr rfl
  have c := h.doms rfl
  cases hu : (flushChk s).pwr; cases hs : s.pwr; simp_all

theorem raise_dom (c i : Nat) (w : List Word) (s : State) (d : Nat) : (raise c i w s).dom d = s.dom d := by simp [State.dom]

theorem dom_of {s u : State} (h : u.pwr.doms = s.pwr.doms) (d : Nat) : u.dom d = s.dom d := by simp [State.dom, h]

theorem jobBegin_dom (c : QCmd) (s : State) (d : Nat) (h : d ≠ 35) : (jobBegin c s).dom d = s.dom d := by
  unfold jobBegin
  dsimp only
  generalize hs : cmdState c.ent.jseq 3 0 0 { s with nv := _ } = s1
  have h1 : s1.dom d = s.dom d := by
    rw [← hs]; exact dom_of (((cmdState_fr _ _ _ _).doms rfl).trans rfl) d
  rw [← h1]
  split
  · rfl
  split
  · split
    · exact dom_of (((jobEnd_fr _ _).doms rfl).trans ((raise_fr _ _ _).doms rfl)) d
    · rfl
  split
  · unfold verifierPower; split
    · rfl
    · simp [State.dom, List.getD_eq_getElem?_getD, List.getElem?_modify, Ne.symm h]
  split
  · exact dom_of ((refPick_fr _).doms rfl) d
  split
  · split
    · rfl
    · exact dom_of ((jobEnd_fr _ _).doms rfl) d
  split <;> rfl

theorem programStart_dom (s : State) (d : Nat) (h : d ≠ 35) : (programStart s).dom d = s.dom d := by
  unfold programStart
  split
  · split
    · rfl
    split
    · rfl
    split
    · rw [jobBegin_dom _ _ _ h]; rfl
    · rfl
  · rfl

theorem nvTake_dom (n : Nat) (s : State) (d : Nat) (h : d ≠ 35) : (nvTake n s).dom d = s.dom d := by
  induction n generalizing s with
  | zero => rfl
  | succ n ih =>
    have h : (programStart (chkLoad (jnvLoad s))).dom d = s.dom d := by
      rw [programStart_dom _ _ h]
      exact dom_of ((chkLoad_fr.doms rfl).trans (jnvLoad_fr.doms rfl)) d
    unfold nvTake
    dsimp only
    rw [← h]
    split
    · rw [ih]; exact dom_of (incReject_fr.doms rfl) d
    · split <;> rfl

/-- The controller switches no domain but the verifier's. -/
theorem nvKick_dom (s : State) (d : Nat) (h : d ≠ 35) : (nvKick s).dom d = s.dom d := by
  unfold nvKick
  split
  · exact nvTake_dom _ _ _ h
  · rfl

theorem reach_dom (d : Nat) (l : Level) (s : State) (h : d < s.pwr.doms.length) : ((reach d l s).dom d).act = l := by
  unfold reach
  dsimp only
  have e : (State.dom { s with pwr := { s.pwr with doms := s.pwr.doms.modify d (fun x => { x with act := l }) } } d).act = l := by
    simp [State.dom, List.getD_eq_getElem?_getD, h]
  split
  · exact e
  · rw [dom_of ((domainHook_fr _ _ _).doms rfl)]
    exact e

end Sys2Proof.Machine
end

