-- ==== Sys2Proof/Laws/EqOps.lean ====
section
/-! SUPPORT. Lemmas of the equipment ports and their links. -/

set_option linter.all false

namespace Sys2Proof.Machine

theorem getD_modify {α : Type} (f : α → α) (d : α) : ∀ (l : List α) (n m : Nat),
    (l.modify n f).getD m d = if m = n ∧ n < l.length then f (l.getD m d) else l.getD m d := by
  intro l n m
  by_cases h : m = n
  · subst h
    by_cases hl : m < l.length
    · simp [List.getD_eq_getElem?_getD, hl]
    · simp [List.getD_eq_getElem?_getD, hl]
  · simp [List.getD_eq_getElem?_getD, List.getElem?_modify, h, Ne.symm h]

theorem eqp_eqMod (n m : Nat) (f : EqPort → EqPort) (s : State) :
    (eqMod n f s).eqp m = if m = n ∧ n < s.eq.length then f (s.eqp m) else s.eqp m := getD_modify f {} s.eq n m

theorem eqp_of {s u : State} (h : u.eq = s.eq) (m : Nat) : u.eqp m = s.eqp m := by simp [State.eqp, h]

theorem eqMod_part {α : Type} (q : EqPort → α) (n m : Nat) (f : EqPort → EqPort) (s : State) (h : ∀ p, q (f p) = q p) :
    q ((eqMod n f s).eqp m) = q (s.eqp m) := by
  rw [eqp_eqMod]
  split
  · exact h _
  · rfl

/-- A port without what PFC frames change. -/
def pfcP (p : EqPort) : EqPort := { p with pfc := false, pauseTx := 0 }

theorem pfcCheck_part (n m : Nat) (s : State) : pfcP ((pfcCheck n s).eqp m) = pfcP (s.eqp m) := by
  unfold pfcCheck
  dsimp only
  split
  · rfl
  · split
    · rfl
    · split
      · rw [eqp_of (raise_eq _ _ _ _)]
        exact (eqMod_part pfcP n m (fun p => { p with pauseTx := p.pauseTx + 1 }) _ (fun _ => rfl)).trans (eqMod_part pfcP n m (fun p => { p with pfc := true }) _ (fun _ => rfl))
      · split
        · rw [eqp_of (raise_eq _ _ _ _)]
          exact (eqMod_part pfcP n m (fun p => { p with pauseTx := p.pauseTx + 1 }) _ (fun _ => rfl)).trans (eqMod_part pfcP n m (fun p => { p with pfc := false }) _ (fun _ => rfl))
        · rfl

theorem pfcCheck_evsIn (n : Nat) (s : State) : EvsIn s (pfcCheck n s) := by
  unfold pfcCheck
  dsimp only
  split
  · exact EvsIn.refl _
  · split
    · exact EvsIn.refl _
    · split
      · refine EvsIn.pre (raise_evsIn _ _ _ _) rfl
      · split
        · refine EvsIn.pre (raise_evsIn _ _ _ _) rfl
        · exact EvsIn.refl _

theorem pfcAll_part (m : Nat) (s : State) : pfcP ((pfcAll s).eqp m) = pfcP (s.eqp m) := by
  unfold pfcAll
  generalize List.range 4 = l
  induction l generalizing s with
  | nil => rfl
  | cons a l ih => rw [List.foldl_cons, ih, pfcCheck_part]

theorem pfcAll_evsIn (s : State) : EvsIn s (pfcAll s) := by
  unfold pfcAll
  generalize List.range 4 = l
  induction l generalizing s with
  | nil => exact EvsIn.refl _
  | cons a l ih => exact (pfcCheck_evsIn _ _).trans (ih _)

/-- A port without what the start of a frame changes. -/
def startP (p : EqPort) : EqPort := { p with queues := [], tx := none, stamps := [] }

theorem stampPush_part (n m : Nat) (c : Half) (x : DWord) (s : State) : startP ((stampPush n c x s).eqp m) = startP (s.eqp m) := by
  unfold stampPush
  dsimp only
  split
  · rw [eqp_of (raise_eq _ _ _ _)]; exact eqMod_part startP n m _ _ (fun _ => rfl)
  · exact eqMod_part startP n m _ _ (fun _ => rfl)

theorem eqStart_part (n m : Nat) (s : State) : startP ((eqStart n s).eqp m) = startP (s.eqp m) := by
  unfold eqStart
  dsimp only
  split
  · rfl
  · split
    · rfl
    · split
      · rw [stampPush_part]; exact eqMod_part startP n m _ _ (fun _ => rfl)
      · exact eqMod_part startP n m _ _ (fun _ => rfl)

theorem eqStart_pool (n : Nat) (s : State) : (eqStart n s).pool = s.pool := (eqStart_fr n).pool rfl

theorem pfcAll_pool (s : State) : (pfcAll s).pool = s.pool := pfcAll_fr.pool rfl

theorem sessionDrop_evsIn (p : Path) (r : Nat) (s : State) : EvsIn s (sessionDrop p r s) := by
  unfold sessionDrop
  dsimp only
  cases p <;> dsimp only <;> split <;> first | exact EvsIn.refl _ | exact EvsIn.pre (raise_evsIn _ _ _ _) rfl

theorem eqLinkUp_eq (n sp : Nat) (s : State) (h : eqPowered s n = true) (h2 : (s.eqp n).link = 0)
    (h3 : (eqCfg s n).elim false (fun c => c.speedMask.getLsbD sp) = true) (hn : n < s.eq.length) :
    ((eqLinkUp n sp s).eqp n).link = sp + 1 ∧ Occurred 0x4000 n (eqLinkUp n sp s) := by
  unfold eqLinkUp
  rw [if_pos (by simp [h, h2, h3])]
  refine ⟨?_, Occurred.mono (pfcCheck_evsIn _ _) (raise_occurred _ _ _ _)⟩
  have e := congrArg EqPort.link (pfcCheck_part n n (raise 0x4000 n [w32 n, Config.eventItem 0x4000 sp] (eqMod n (fun p => { p with link := sp + 1 }) s)))
  refine e.trans ?_
  show (State.eqp (raise _ _ _ _) n).link = _
  rw [eqp_of (raise_eq _ _ _ _), eqp_eqMod, if_pos ⟨rfl, hn⟩]

theorem eqLinkLost_eq (n : Nat) (s : State) (h : (s.eqp n).link ≠ 0) (hn : n < s.eq.length) :
    ((eqLinkLost n s).eqp n).link = 0 ∧ ((eqLinkLost n s).eqp n).queues = List.replicate 8 [] ∧
    ((eqLinkLost n s).eqp n).tx = none ∧ Occurred 0x4001 n (eqLinkLost n s) := by
  unfold eqLinkLost
  rw [if_neg h]
  dsimp only
  generalize hr : eqDiscard true n s = r
  have hq : (r.1.eqp n).queues = List.replicate 8 [] ∧ (r.1.eqp n).tx = none ∧ r.1.eq.length = s.eq.length := by
    rw [← hr]
    unfold eqDiscard
    dsimp only
    generalize hm : eqMod n _ s = y
    rw [eqp_of ((poolRelease_fr _).eq rfl), ((poolRelease_fr _).eq rfl), ← hm, eqp_eqMod, if_pos ⟨rfl, hn⟩]
    exact ⟨rfl, rfl, by simp [eqMod]⟩
  generalize hy : raise 0x4001 n [w32 n, w32 r.2] _ = y
  have ho : Occurred 0x4001 n y := by rw [← hy]; exact raise_occurred _ _ _ _
  have hp : (y.eqp n).link = 0 ∧ (y.eqp n).queues = List.replicate 8 [] ∧ (y.eqp n).tx = none := by
    rw [← hy, eqp_of (raise_eq _ _ _ _), eqp_eqMod, if_pos ⟨rfl, by rw [hq.2.2]; exact hn⟩]
    exact ⟨rfl, hq.1, hq.2.1⟩
  have e := pfcAll_part n y
  have hz : ((pfcAll y).eqp n).link = 0 ∧ ((pfcAll y).eqp n).queues = List.replicate 8 [] ∧ ((pfcAll y).eqp n).tx = none :=
    ⟨(congrArg EqPort.link e).trans hp.1, (congrArg EqPort.queues e).trans hp.2.1, (congrArg EqPort.tx e).trans hp.2.2⟩
  have hoz := Occurred.mono (pfcAll_evsIn y) ho
  split
  · refine ⟨?_, ?_, ?_, Occurred.mono (sessionDrop_evsIn _ _ _) hoz⟩ <;> rw [eqp_of ((sessionDrop_fr _ _).eq rfl)]
    exacts [hz.1, hz.2.1, hz.2.2]
  · exact ⟨hz.1, hz.2.1, hz.2.2, hoz⟩

end Sys2Proof.Machine
end

