-- ==== Sys2Proof/Laws/CoreOps.lean ====
section
/-! SUPPORT. Lemmas of yield, takeover and repair of the cores. -/

set_option linter.all false

namespace Sys2Proof.Machine

/-- The core in control and `CR_YIELD`. -/
def crBase (s : State) := (s.cr.active, s.cr.yieldReg)

theorem benchAsk_cr (a b : Bool) (k o : Nat) (s : State) : (benchAsk a b k o s).1.cr = s.cr := by
  unfold benchAsk
  split
  · simp
  · dsimp only
    split <;> simp

theorem benchAsk_evsIn (a b : Bool) (k o : Nat) (s : State) : EvsIn s (benchAsk a b k o s).1 := by
  unfold benchAsk
  split
  · exact raise_evsIn _ _ _ _
  · dsimp only
    split
    · exact EvsIn.pre (raise_evsIn _ _ _ _) rfl
    · exact EvsIn.of_gr rfl

theorem repairAsk_base (s : State) : crBase (repairAsk s) = crBase s := by
  unfold repairAsk
  split
  · dsimp only
    split <;> simp [crBase, benchAsk_cr]
  · rfl

theorem repairAsk_evsIn (s : State) : EvsIn s (repairAsk s) := by
  unfold repairAsk
  split
  · dsimp only
    split
    · exact (benchAsk_evsIn false true 5 s.cr.repairStep s).trans (EvsIn.of_gr rfl)
    · exact benchAsk_evsIn _ _ _ _ _
  · exact EvsIn.refl _

theorem domainHook4 (o l : Level) (s : State) : domainHook 4 o l s = if l = .off then drawn { s with cr := { s.cr with rxc := coreOff s.free } } else s := by
  cases l <;> simp [domainHook]

theorem setDomain4 (l : Level) (s : State) : crBase (setDomain 4 l s) = crBase s ∧ EvsIn s (setDomain 4 l s) := by
  have h : crBase (setDomain 4 l s) = crBase s ∧ (setDomain 4 l s).gr = s.gr := by
    unfold setDomain reach
    dsimp only
    split
    · exact ⟨rfl, rfl⟩
    · rw [domainHook4]
      split <;> exact ⟨rfl, rfl⟩
  exact ⟨h.1, EvsIn.of_gr h.2⟩

theorem rxcRetire_base (s : State) : crBase (rxcRetire s) = crBase s ∧ EvsIn s (rxcRetire s) := by
  unfold rxcRetire
  dsimp only
  split
  · exact ⟨rfl, EvsIn.of_gr rfl⟩
  · obtain ⟨a, b⟩ := setDomain4 .off { s with cr := { s.cr with rxc := coreStop s.cr.rxc } }
    exact ⟨a, fun x hx => b x hx⟩

theorem transition_evsIn (n : NodeState) (c : Nat) (s : State) : EvsIn s (transition n c s) := by
  unfold transition
  exact EvsIn.pre (raise_evsIn _ _ _ _) rfl

theorem transition_cr (n : NodeState) (c : Nat) (s : State) : (transition n c s).cr = s.cr := by
  unfold transition; simp

theorem toNocore_base (k : Nat) (d : Word) (s : State) : (toNocore k d s).cr = s.cr ∧ EvsIn s (toNocore k d s) ∧ Occurred 0x8102 0xFF (toNocore k d s) := by
  unfold toNocore
  dsimp only
  split
  · exact ⟨by simp [transition_cr], (raise_evsIn _ _ _ _).trans (transition_evsIn _ _ _), Occurred.mono (transition_evsIn _ _ _) (raise_occurred _ _ _ _)⟩
  · exact ⟨by simp, raise_evsIn _ _ _ _, raise_occurred _ _ _ _⟩

theorem takeoverStart_base (s : State) : crBase (takeoverStart s) = crBase s ∧ EvsIn s (takeoverStart s) := by
  unfold takeoverStart
  dsimp only
  have h : ∀ y : State, y = { orderDone 0xFE 0x8100 s with cr := { (orderDone 0xFE 0x8100 s).cr with
    loading := false, takeover := some ⟨if watchMode (orderDone 0xFE 0x8100 s) then 2 else 1, 0, 0, 0⟩ } } → crBase y = crBase s ∧ EvsIn s y := by
    intro y hy
    subst hy
    refine ⟨by simp [crBase, orderDone], ?_⟩
    refine EvsIn.trans (v := orderDone 0xFE 0x8100 s) ?_ (EvsIn.of_gr rfl) 
    unfold orderDone
    refine EvsIn.pre (raise_evsIn 0x8010 _ _ { s with cr := _ }) rfl
  generalize hy : ({ orderDone 0xFE 0x8100 s with cr := _ } : State) = y
  obtain ⟨a, b⟩ := h y hy.symm
  split
  · exact ⟨a, b⟩
  · obtain ⟨c, d⟩ := setDomain4 .on y
    exact ⟨c.trans a, b.trans d⟩

theorem revertLatest_base (s : State) : crBase (revertLatest s) = crBase s ∧ EvsIn s (revertLatest s) := by
  unfold revertLatest
  split
  · exact ⟨rfl, EvsIn.refl _⟩
  · exact ⟨rfl, EvsIn.of_gr rfl⟩

/-- `CR_YIELD` of a yield (R427). -/
def yieldWord (core cause index entry : Nat) : Word := w32 (index % 65536 * 65536 + entry % 256 * 256 + core * 128 + cause % 128)

theorem yieldAt_base (c i e : Nat) (s : State) (h : s.cr.active ≠ 2) :
    crBase (yieldAt c i e s) = (2, yieldWord s.cr.active c i e) ∧ Occurred 0x8100 0xFF (yieldAt c i e s) := by
  unfold yieldAt
  rw [if_neg h]
  dsimp only
  generalize hy : raise 0x8100 noInst _ (activeMod coreStop s) = y
  have ho : Occurred 0x8100 0xFF y := by rw [← hy]; exact raise_occurred _ _ _ _
  clear hy
  have kz : ∀ z : State, z = { y with cr := { y.cr with active := 2, yieldReg := yieldWord s.cr.active c i e } } →
      crBase z = (2, yieldWord s.cr.active c i e) ∧ Occurred 0x8100 0xFF z := by
    rintro z rfl
    exact ⟨rfl, ho⟩
  have kn : ∀ v : State, crBase v = (2, yieldWord s.cr.active c i e) → Occurred 0x8100 0xFF v →
      crBase (toNocore 0 0 v) = (2, yieldWord s.cr.active c i e) ∧ Occurred 0x8100 0xFF (toNocore 0 0 v) := by
    intro v h1 h2
    obtain ⟨a2, b2, _⟩ := toNocore_base 0 0 v
    exact ⟨(show crBase (toNocore 0 0 v) = crBase v by unfold crBase; rw [a2]).trans h1, Occurred.mono b2 h2⟩
  have k : ∀ v : State, crBase v = (2, yieldWord s.cr.active c i e) → Occurred 0x8100 0xFF v →
      crBase (rxcRetire (toNocore 0 0 v)) = (2, yieldWord s.cr.active c i e) ∧ Occurred 0x8100 0xFF (rxcRetire (toNocore 0 0 v)) := by
    intro v h1 h2
    obtain ⟨a, b⟩ := rxcRetire_base (toNocore 0 0 v)
    obtain ⟨a2, b2⟩ := kn v h1 h2
    exact ⟨a.trans a2, Occurred.mono b b2⟩
  have q : ∀ v : State, crBase v = (2, yieldWord s.cr.active c i e) → Occurred 0x8100 0xFF v →
      crBase (repairAsk v) = (2, yieldWord s.cr.active c i e) ∧ Occurred 0x8100 0xFF (repairAsk v) := by
    intro v h1 h2
    exact ⟨(repairAsk_base v).trans h1, Occurred.mono (repairAsk_evsIn v) h2⟩
  change crBase (if s.cr.active = 1 then _ else _) = _ ∧ Occurred _ _ (if s.cr.active = 1 then _ else _)
  by_cases h1 : s.cr.active = 1
  · rw [if_pos h1]
    refine k _ ?_ ?_
    · split
      · exact (revertLatest_base _).1
      · rfl
    · split
      · exact Occurred.mono (revertLatest_base _).2 ho
      · exact ho
  · rw [if_neg h1]
    split
    · exact ⟨rfl, ho⟩
    · refine q _ ?_ ?_
      · split
        · refine (kn _ ?_ ?_).1
          · rfl
          · exact ho
        · exact (takeoverStart_base _).1
      · split
        · refine (kn _ ?_ ?_).2
          · rfl
          · exact ho
        · exact Occurred.mono (takeoverStart_base _).2 ho

theorem yieldNow_base (cause : Nat) (s : State) (c : Core) (k : TaskRun) (h1 : activeCore s = some c) (h2 : c.task = some k) :
    crBase (yieldNow cause s) = (2, yieldWord s.cr.active cause c.pc k.entry) ∧ Occurred 0x8100 0xFF (yieldNow cause s) := by
  unfold yieldNow
  rw [h1]
  dsimp only
  rw [h2]
  refine yieldAt_base _ _ _ _ fun h => ?_
  unfold activeCore at h1
  rw [h] at h1
  simp at h1

theorem rxcRetire_keep (s : State) : (rxcRetire s).cr.takeover = s.cr.takeover ∧ (rxcRetire s).cr.rxcFailed = s.cr.rxcFailed := by
  have h4 : ∀ s : State, (setDomain 4 .off s).cr.takeover = s.cr.takeover ∧ (setDomain 4 .off s).cr.rxcFailed = s.cr.rxcFailed := by
    intro s
    unfold setDomain reach
    dsimp only
    split
    · exact ⟨rfl, rfl⟩
    · rw [domainHook4]
      exact ⟨rfl, rfl⟩
  unfold rxcRetire
  dsimp only
  split
  · exact ⟨rfl, rfl⟩
  · exact h4 _

theorem benchAsk_ok (s : State) (a b : Bool) (k o : Nat) (h : benchJudge s a k o = none) (hi : s.image.isNone = false) :
    (benchAsk a b k o s).1.bn.queue = s.bn.queue ++ [⟨benchTicket s.bn 16 s.bn.next, k, o, 0, 0, b, false⟩] := by
  unfold benchAsk
  rw [h]
  dsimp only
  rw [hi]
  simp

theorem repairRetry_p (s : State) (h1 : s.running = true) (h2 : s.cr.pxcYielded = true) (h3 : s.cr.repairing = true) (h4 : s.bn.queue = [])
    (h5 : s.bn.running = none) (h6 : s.image.isSome = true) (h7 : benchJudge s false 5 0 = none) :
    (repairRetry s).cr.repairStep = 0 ∧ (repairRetry s).bn.queue = [⟨benchTicket s.bn 16 s.bn.next, 5, 0, 0, 0, true, false⟩] := by
  unfold repairRetry
  rw [if_neg (by simp [h4, h5])]
  generalize hx : ({ s with cr := _ } : State) = x
  have e1 : x.running = true := by rw [← hx]; exact h1
  have e2 : x.cr.pxcYielded = true := by rw [← hx]; exact h2
  have e3 : x.cr.repairing = true := by rw [← hx]; exact h3
  have e4 : x.bn = s.bn := by rw [← hx]
  have e5 : x.cr.repairStep = 0 := by rw [← hx]
  have e6 : x.image.isNone = false := by
    rw [← hx]
    show s.image.isNone = false
    cases h : s.image with
    | none => rw [h] at h6; simp at h6
    | some _ => rfl
  have e7 : benchJudge x false 5 0 = none := by
    rw [← h7, ← hx]
    rfl
  have k := benchAsk_ok x false true 5 0 e7 e6
  rw [e4, h4] at k
  unfold repairAsk
  rw [if_pos (by simp [e1, e2, e3]), e5]
  dsimp only
  split
  · exact ⟨rfl, k⟩
  · exact ⟨by rw [benchAsk_cr]; exact e5, k⟩

theorem benchEnd_p (p : Bool) (d : Word) (s : State) (r : BenchReq) (h1 : s.bn.running = some r) (h2 : r.repair = false) (h3 : s.bn.slot = none) :
    (benchEnd p d s).bn.running = none ∧ (benchEnd p d s).bn.results = s.bn.results.map (fun x => if x.ticket = r.ticket then
      { r with status := if p then 3 else 4, detail := if p then 0 else d } else x) ∧ Occurred (if p then 0x7020 else 0x7021) r.kind (benchEnd p d s) := by
  unfold benchEnd
  rw [h1]
  dsimp only
  rw [h2]
  cases p
  · simp only [Bool.false_eq_true, if_false]
    split
    · rename_i h; rw [raiseTo_bn] at h; simp [benchShow, h3] at h
    · exact ⟨by rw [raiseTo_bn]; rfl, by rw [raiseTo_bn]; rfl, raiseTo_note _ _ _ _ _ _ (noteEvent_mem _ _ _)⟩
  · simp only [Bool.false_and, Bool.false_eq_true, if_false, if_true]
    split
    · rename_i h; rw [raiseTo_bn] at h; simp [benchShow, h3] at h
    · exact ⟨by rw [raiseTo_bn]; rfl, by rw [raiseTo_bn]; rfl, raiseTo_note _ _ _ _ _ _ (noteEvent_mem _ _ _)⟩

end Sys2Proof.Machine
end

