-- ==== Sys2Proof/Laws/FieldOps.lean ====
section
/-! SUPPORT. Lemmas of field channels. -/

set_option linter.all false

namespace Sys2Proof.Machine

theorem chan_chanMod (n m : Nat) (f : Chan → Chan) (s : State) :
    (chanMod n f s).chan m = if m = n ∧ n < s.ch.length then f (s.chan m) else s.chan m := getD_modify f {} s.ch n m

theorem chan_of {s u : State} (h : u.ch = s.ch) (m : Nat) : u.chan m = s.chan m := by simp [State.chan, h]

theorem kick_chan (l : List Instr) (x : State) (m : Nat) : (State.chan { nvKick x with pending := l } m) = x.chan m := by simp [State.chan]

theorem raise_chan (c i : Nat) (w : List Word) (s : State) (d : Nat) : (raise c i w s).chan d = s.chan d := by simp [State.chan]
@[simp] theorem chanMod_len (n : Nat) (f : Chan → Chan) (s : State) : (chanMod n f s).ch.length = s.ch.length := by simp [chanMod]

theorem chanMod_part {α : Type} (q : Chan → α) (n m : Nat) (f : Chan → Chan) (s : State) (h : ∀ p, q (f p) = q p) :
    q ((chanMod n f s).chan m) = q (s.chan m) := by
  rw [chan_chanMod]
  split
  · exact h _
  · rfl

/-- A channel without its memory and counter. -/
def chanP (c : Chan) : Chan := { c with mem := .undef, memBase := .undef, memHist := [], cnt := 0, cntAt := [] }

/-- And without the command and the open-load cause. -/
def chanQ (c : Chan) : Chan := { chanP c with cmd := false, fOpen := false }

theorem memFold_part (now : Nat) (c : Chan) : chanP (memFold now c) = chanP c := by
  unfold memFold
  split
  · split <;> rfl
  · rfl

theorem memSettle_part (n m : Nat) (s : State) : chanP ((memSettle n s).chan m) = chanP (s.chan m) := by
  unfold memSettle
  refine chanMod_part chanP n m _ s fun c => ?_
  dsimp only
  have e : ∀ now, chanP (memFold now (memFold now { c with cntAt := c.cntAt.filter (fun x => decide (now < x + 1200)) })) = chanP c := fun now => by
    rw [memFold_part, memFold_part]; rfl
  split
  · unfold memTake
    exact e _
  · exact e _

theorem memSettle_len (n : Nat) (s : State) : (memSettle n s).ch.length = s.ch.length := by simp [memSettle]

theorem memSettle_evsIn (n : Nat) (s : State) : EvsIn s (memSettle n s) := EvsIn.of_gr rfl

theorem causesDropped_part (f : Chan → Chan) (c : Chan) : chanP (causesDropped f c) = chanP (f c) := by
  unfold causesDropped
  dsimp only
  split <;> rfl

theorem causePut_part (k : Nat) (v : Bool) (c d : Chan) (h : chanP c = chanP d) : chanP (causePut k v c) = chanP (causePut k v d) := by
  have e : ∀ c, chanP (causePut k v c) = causePut k v (chanP c) := fun c => by
    unfold causePut
    split_ifs <;> rfl
  rw [e, e, h]

theorem causeSet_part (k n : Nat) (s : State) (hn : n < s.ch.length) : ∃ x, chanP ((causeSet k n s).chan n) =
    chanP { causePut k true (s.chan n) with fault := (s.chan n).fault ||| causeBit k, faultAt := x } := by
  unfold causeSet
  dsimp only
  rw [chan_chanMod, if_pos ⟨rfl, by rw [memSettle_len]; exact hn⟩]
  have h := memSettle_part n n s
  generalize (memSettle n s).chan n = c at *
  generalize s.chan n = d at *
  refine ⟨if causeOf c = 0 then State.now (memSettle n s) else c.faultAt, ?_⟩
  have h2 := causePut_part k true c d h
  have h3 := congrArg Chan.fault h
  simp only [chanP] at h2 h3 ⊢
  simp only [Chan.mk.injEq] at h2 ⊢
  simp only [h3]
  tauto

theorem causeSet_evsIn (k n : Nat) (s : State) : EvsIn s (causeSet k n s) := EvsIn.of_gr rfl

theorem causeSet_len (k n : Nat) (s : State) : (causeSet k n s).ch.length = s.ch.length := by simp [causeSet, memSettle_len]

theorem causeClear_part (k n m : Nat) (s : State) :
    chanP ((causeClear k n s).chan m) = chanP (if m = n ∧ n < s.ch.length then causePut k false (s.chan m) else s.chan m) := by
  have h : chanP ((chanMod n (causesDropped (causePut k false)) s).chan m) =
      chanP (if m = n ∧ n < s.ch.length then causePut k false (s.chan m) else s.chan m) := by
    rw [chan_chanMod]
    split
    · exact causesDropped_part _ _
    · rfl
  unfold causeClear
  dsimp only
  split
  · rw [memSettle_part]
    split
    · exact h
    · rw [raise_chan]; exact h
  · exact h

theorem causeClear_len (k n : Nat) (s : State) : (causeClear k n s).ch.length = s.ch.length := by
  unfold causeClear
  dsimp only
  split
  · rw [memSettle_len]
    split <;> simp
  · simp

theorem causeClear_evsIn (k n : Nat) (s : State) : EvsIn s (causeClear k n s) := by
  unfold causeClear
  dsimp only
  split
  · refine EvsIn.trans ?_ (memSettle_evsIn _ _)
    split
    · exact EvsIn.of_gr rfl
    · refine EvsIn.pre (raise_evsIn _ _ _ _) rfl
  · exact EvsIn.of_gr rfl

theorem restage_part (n m : Nat) (s : State) : chanQ ((restage n s).chan m) = chanQ (s.chan m) := by
  have h : chanQ ((chanMod n (fun c => if c.fCoupler then c else { c with cmd := decided c }) s).chan m) = chanQ (s.chan m) :=
    chanMod_part chanQ n m _ s fun c => by split <;> rfl
  unfold restage
  dsimp only
  split
  · have h2 := causeClear_part 5 n m (chanMod n (fun c => if c.fCoupler then c else { c with cmd := decided c }) s)
    rw [← h]
    have e : ∀ c, chanQ c = { chanP c with cmd := false, fOpen := false } := fun _ => rfl
    rw [e, h2]
    split <;> rfl
  · exact h

theorem restage_len (n : Nat) (s : State) : (restage n s).ch.length = s.ch.length := by
  unfold restage
  dsimp only
  split
  · rw [causeClear_len]; simp
  · simp

theorem restage_evsIn (n : Nat) (s : State) : EvsIn s (restage n s) := by
  unfold restage
  dsimp only
  split
  · exact EvsIn.pre (causeClear_evsIn _ _ _) rfl
  · exact EvsIn.of_gr rfl

theorem chanQ_of {c d : Chan} (h : chanP c = chanP d) : chanQ c = chanQ d := by
  unfold chanQ; rw [h]

theorem foldRestage_part (l : List Nat) (m : Nat) (s : State) : chanQ ((l.foldl (fun s n => restage n s) s).chan m) = chanQ (s.chan m) := by
  induction l generalizing s with
  | nil => rfl
  | cons a l ih => rw [List.foldl_cons, ih, restage_part]

theorem foldRestage_evsIn (l : List Nat) (s : State) : EvsIn s (l.foldl (fun s n => restage n s) s) := by
  induction l generalizing s with
  | nil => exact EvsIn.refl _
  | cons a l ih => exact (restage_evsIn _ _).trans (ih _)

theorem causeSet_other (k n m : Nat) (s : State) (h : m ≠ n) : chanP ((causeSet k n s).chan m) = chanP (s.chan m) := by
  unfold causeSet
  dsimp only
  rw [chan_chanMod, if_neg (by simp [h]), memSettle_part]

theorem foldSupply (l : List Nat) (s : State) (hl : ∀ n ∈ l, n < s.ch.length) (m : Nat) (h : m ∈ l ∨ (s.chan m).fSupply = true) :
    ((l.foldl (fun s n => causeSet 2 n s) s).chan m).fSupply = true := by
  induction l generalizing s with
  | nil => simpa using h
  | cons a l ih =>
    rw [List.foldl_cons]
    refine ih _ (fun n hn => by rw [causeSet_len]; exact hl n (List.mem_cons_of_mem _ hn)) ?_
    by_cases e : m = a
    · right
      subst e
      obtain ⟨x, hx⟩ := causeSet_part 2 m s (hl m (List.mem_cons_self ..))
      exact (congrArg Chan.fSupply hx).trans rfl
    · rcases h with h | h
      · left
        rcases List.mem_cons.mp h with h | h
        · exact absurd h e
        · exact h
      · right
        have k := congrArg Chan.fSupply (causeSet_other 2 a m s e)
        exact k.trans h

theorem foldSupply_evsIn (l : List Nat) (s : State) : EvsIn s (l.foldl (fun s n => causeSet 2 n s) s) := by
  induction l generalizing s with
  | nil => exact EvsIn.refl _
  | cons a l ih => exact (causeSet_evsIn _ _ _).trans (ih _)

/-- The body of `groupSupplyRestore`'s fold. -/
def restoreOne (s : State) (n : Nat) : State :=
  let s := restage n (causeClear 2 n s)
  if causeOf (s.chan n) = 0 then s else chanMod n memReset s

theorem restoreOne_supply (s : State) (n m : Nat) : ((restoreOne s n).chan m).fSupply = (if m = n ∧ n < s.ch.length then false else (s.chan m).fSupply) := by
  have h : ((restage n (causeClear 2 n s)).chan m).fSupply = (if m = n ∧ n < s.ch.length then false else (s.chan m).fSupply) := by
    have a := congrArg Chan.fSupply (restage_part n m (causeClear 2 n s))
    have b := congrArg Chan.fSupply (causeClear_part 2 n m s)
    refine a.trans (b.trans ?_)
    split <;> rfl
  unfold restoreOne
  dsimp only
  split
  · exact h
  · exact (chanMod_part Chan.fSupply n m memReset _ (fun _ => rfl)).trans h

theorem restoreOne_len (s : State) (n : Nat) : (restoreOne s n).ch.length = s.ch.length := by
  unfold restoreOne
  dsimp only
  split
  · rw [restage_len, causeClear_len]
  · rw [chanMod_len, restage_len, causeClear_len]

theorem restoreOne_evsIn (s : State) (n : Nat) : EvsIn s (restoreOne s n) := by
  have h : EvsIn s (restage n (causeClear 2 n s)) := (causeClear_evsIn _ _ _).trans (restage_evsIn _ _)
  unfold restoreOne
  dsimp only
  split
  · exact h
  · exact h.trans (EvsIn.of_gr rfl)

theorem foldRestore_evsIn (l : List Nat) (s : State) : EvsIn s (l.foldl restoreOne s) := by
  induction l generalizing s with
  | nil => exact EvsIn.refl _
  | cons a l ih => exact (restoreOne_evsIn _ _).trans (ih _)

theorem foldRestore (l : List Nat) (s : State) (hl : ∀ n ∈ l, n < s.ch.length) (m : Nat) (h : m ∈ l ∨ (s.chan m).fSupply = false) :
    ((l.foldl restoreOne s).chan m).fSupply = false := by
  induction l generalizing s with
  | nil => simpa using h
  | cons a l ih =>
    rw [List.foldl_cons]
    refine ih _ (fun n hn => by rw [restoreOne_len]; exact hl n (List.mem_cons_of_mem _ hn)) ?_
    by_cases e : m = a
    · right
      rw [restoreOne_supply, if_pos ⟨e, hl a (List.mem_cons_self ..)⟩]
    · rcases h with h | h
      · left
        rcases List.mem_cons.mp h with h | h
        · exact absurd h e
        · exact h
      · right
        rw [restoreOne_supply, if_neg (by simp [e])]
        exact h

theorem sensing_of (s x : State) (n : Nat) (h1 : chanP (x.chan n) = chanP (s.chan n)) (h2 : x.dev = s.dev) (h3 : x.pwr = s.pwr) (h4 : x.now = s.now)
    (h5 : x.sh = s.sh) (h6 : x.gr.img = s.gr.img) : sensing x n = sensing s n := by
  have e1 : (x.chan n).cfg = (s.chan n).cfg := by have := congrArg Chan.cfg h1; exact this
  have e2 : (x.chan n).sink = (s.chan n).sink := by have := congrArg Chan.sink h1; exact this
  have e3 : (x.chan n).sinkAt = (s.chan n).sinkAt := by have := congrArg Chan.sinkAt h1; exact this
  have e4 : causeOf (x.chan n) = causeOf (s.chan n) := by have := congrArg causeOf h1; exact this
  unfold sensing chMode chUsable usable domTarget gated wakeArmed tSet fieldLive State.dom State.running State.image
  simp only [e1, e2, e3, e4, h2, h3, h4, h5, h6]

theorem input_part (n : Nat) (l : Comparator) (s : State) (h : s.dev.variantN = false) (hn : n < s.ch.length) :
    ((inputCrossing n l s).chan n).level = l ∧ ((inputCrossing n l s).chan n).levelAt = s.now ∧
    (sensing s n = true → (l = .above → ((inputCrossing n l s).chan n).mem = .on) ∧ (l = .below → ((inputCrossing n l s).chan n).mem = .off)) := by
  have e : inputCrossing n l s = memSettle n (chanMod n (fun c => { c with level := l, levelAt := s.now }) (memSettle n s)) := by
    unfold inputCrossing
    rw [if_neg (by simp [h])]
  rw [e]
  generalize hx : chanMod n (fun c => { c with level := l, levelAt := s.now }) (memSettle n s) = x
  have hp : chanP (x.chan n) = { chanP (s.chan n) with level := l, levelAt := s.now } := by
    rw [← hx, chan_chanMod, if_pos ⟨rfl, by rw [memSettle_len]; exact hn⟩]
    have := memSettle_part n n s
    show ({ chanP ((memSettle n s).chan n) with level := l, levelAt := s.now } : Chan) = _
    rw [this]
  have hl : n < x.ch.length := by rw [← hx]; simpa [memSettle_len] using hn
  have m := memSettle_part n n x
  rw [hp] at m
  refine ⟨?_, ?_, fun hs => ?_⟩
  · have := congrArg Chan.level m; exact this
  · have := congrArg Chan.levelAt m; exact this
  · have hsx : sensing x n = true := by
      rw [← hs, ← hx]
      have e1 : ((chanMod n (fun c => { c with level := l, levelAt := s.now }) (memSettle n s)).chan n).cfg = (s.chan n).cfg := by
        rw [hx]; have := congrArg Chan.cfg hp; exact this
      have e2 : ((chanMod n (fun c => { c with level := l, levelAt := s.now }) (memSettle n s)).chan n).sink = (s.chan n).sink := by
        rw [hx]; have := congrArg Chan.sink hp; exact this
      have e3 : ((chanMod n (fun c => { c with level := l, levelAt := s.now }) (memSettle n s)).chan n).sinkAt = (s.chan n).sinkAt := by
        rw [hx]; have := congrArg Chan.sinkAt hp; exact this
      have e4 : causeOf ((chanMod n (fun c => { c with level := l, levelAt := s.now }) (memSettle n s)).chan n) = causeOf (s.chan n) := by
        rw [hx]; have := congrArg causeOf hp; exact this
      unfold sensing chMode chUsable usable domTarget gated wakeArmed tSet fieldLive State.dom State.running State.image
      simp only [e1, e2, e3, e4]
      rfl
    have hlv : (x.chan n).level = l := by have := congrArg Chan.level hp; exact this
    have hm : ∀ now y, (memFold now (memFold now { (x.chan n) with cntAt := y })).level = l := by
      intro now y
      have := congrArg Chan.level ((memFold_part now (memFold now { (x.chan n) with cntAt := y })).trans (memFold_part now _))
      exact this.trans hlv
    have hq : ∀ c : Chan, c.level = l → (l = .above → memWanted c = .on) ∧ (l = .below → memWanted c = .off) := by
      intro c hc
      unfold memWanted
      rw [hc]
      constructor <;> rintro rfl <;> rfl
    unfold memSettle
    dsimp only
    rw [hsx, chan_chanMod, if_pos ⟨rfl, hl⟩]
    generalize hz : memFold x.now (memFold x.now _) = z
    have hzl : z.level = l := by rw [← hz]; exact hm _ _
    obtain ⟨q1, q2⟩ := hq z hzl
    constructor
    · intro hl
      split
      · unfold memTake; exact q1 hl
      · rename_i hh
        simp [q1 hl] at hh
        exact hh.symm
    · intro hl
      split
      · unfold memTake; exact q2 hl
      · rename_i hh
        simp [q2 hl] at hh
        exact hh.symm

theorem foldRestage_supply (l : List Nat) (m : Nat) (s : State) : ((l.foldl (fun s n => restage n s) s).chan m).fSupply = (s.chan m).fSupply := by
  have k := congrArg Chan.fSupply (foldRestage_part l m s)
  exact k

end Sys2Proof.Machine
end

