-- ==== Sys2Proof/Laws/VehicleOps.lean ====
section
/-! SUPPORT. Lemmas of the vehicle network: branches, slots, dynamic messages. -/

set_option linter.all false

namespace Sys2Proof.Machine

theorem branch_brMod (n m : Nat) (f : Branch → Branch) (s : State) :
    (brMod n f s).branch m = if m = n ∧ n < s.vn.br.length then f (s.branch m) else s.branch m := getD_modify f {} s.vn.br n m
@[simp] theorem brMod_len (n : Nat) (f : Branch → Branch) (s : State) : (brMod n f s).vn.br.length = s.vn.br.length := by simp [brMod]

theorem branch_of {s u : State} (h : u.vn.br = s.vn.br) (m : Nat) : u.branch m = s.branch m := by simp [State.branch, h]

theorem kick_branch (l : List Instr) (x : State) (m : Nat) : (State.branch { nvKick x with pending := l } m) = x.branch m := by simp [State.branch]

theorem raise_branch (c i : Nat) (w : List Word) (s : State) (d : Nat) : (raise c i w s).branch d = s.branch d := by simp [State.branch]

theorem begin_branch (t : Nat) (s : State) (d : Nat) : (begin_ t s).branch d = s.branch d := rfl

/-- What the guardian's cuts leave of the vehicle cycle. -/
def vnBase (s : State) := (s.vn.dc, s.vn.boundary, s.vn.span, s.vn.running, s.vn.v0, s.vn.dynQ)

theorem guardianCut_base (b : Nat) (s : State) : vnBase (guardianCut b s) = vnBase s := by
  unfold guardianCut
  split
  · rfl
  · dsimp only
    split <;> simp [vnBase, guardCount, brMod, gotMod]

theorem foldCut_base (p : State → Nat → Bool) (l : List Nat) (s : State) :
    vnBase (l.foldl (fun s b => if p s b then guardianCut b s else s) s) = vnBase s := by
  induction l generalizing s with
  | nil => rfl
  | cons a l ih =>
    rw [List.foldl_cons, ih]
    split
    · exact guardianCut_base _ _
    · rfl

theorem dynSend_base (st : Star) (s : State) : (dynSend st s).vn.dc = s.vn.dc ∧ (dynSend st s).vn.boundary = s.vn.boundary := by
  unfold dynSend
  dsimp only
  split
  · exact ⟨rfl, rfl⟩
  · split
    · exact ⟨rfl, rfl⟩
    · rw [(chainFree_fr _).vn rfl]
      simp

theorem dynBoundary_base (st : Star) (s : State) (h : s.star = some st) (h1 : starOn s = true) (h2 : s.vn.running = true) (h3 : st.nM ≠ 0) :
    (dynBoundary s).vn.dc = s.vn.dc + 1 ∧ (dynBoundary s).vn.boundary =
      (if s.vn.dc = 0 then dynStart st else s.vn.boundary + max 1 s.vn.span * st.tM * 1000) := by
  unfold dynBoundary
  rw [h]
  dsimp only
  rw [if_neg (by simp [h1, h2, h3])]
  generalize hx : List.foldl _ s (List.range 12) = x
  have hb : vnBase x = vnBase s := by
    rw [← hx]
    exact foldCut_base (fun s b => ((s.branch b).rx).elim false (fun r => r.dynamic)) _ _
  simp only [vnBase, Prod.mk.injEq] at hb
  obtain ⟨e1, e2, e3, e4, e5, e6⟩ := hb
  rw [e1, e2, e3]
  generalize (if s.vn.dc = 0 then dynStart st else s.vn.boundary + max 1 s.vn.span * st.tM * 1000) = a
  split
  · exact ⟨rfl, rfl⟩
  · exact dynSend_base _ _

theorem guardianCut_rx (b : Nat) (r : BrRx) (s : State) (hb : b < s.vn.br.length) (h : (s.branch b).rx = some r) :
    ((guardianCut b s).branch b).rx = none ∧ ((guardianCut b s).branch b).cutLen = (s.branch b).cutLen + 1 ∧
    (r.dynamic = true → (guardianCut b s).vn.closed = true ∧ Occurred 0x3007 0xFF (guardianCut b s)) := by
  unfold guardianCut
  rw [h]
  dsimp only
  generalize hy : guardCount 3 b _ = y
  have k : (y.branch b).rx = none ∧ (y.branch b).cutLen = (s.branch b).cutLen + 1 := by
    rw [← hy]
    simp [guardCount, raise_branch, branch_brMod, hb]
  clear hy
  split
  · rw [raise_branch]
    exact ⟨k.1, k.2, fun _ => ⟨by simp, raise_occurred _ _ _ _⟩⟩
  · rename_i hd
    exact ⟨k.1, k.2, fun h => absurd h hd⟩

theorem got_gotMod (k : Nat) (f : SlotRx → SlotRx) (s : State) (hk : k < s.vn.rx.length) :
    (gotMod k f s).vn.rx.getD k {} = f (s.vn.rx.getD k {}) := by
  have := getD_modify f {} s.vn.rx k k
  rw [if_pos ⟨rfl, hk⟩] at this
  exact this

theorem frameFlags_p (b fl : Nat) (s : State) (hb : b < s.vn.br.length) : ((frameFlags b fl s).branch b).rxOk = (s.branch b).rxOk + 1 ∧
    (frameFlags b fl s).wire = s.wire ∧ (frameFlags b fl s).vn.rx = s.vn.rx := by
  unfold frameFlags
  dsimp only
  split
  · refine ⟨?_, by simp [brMod], by simp [brMod]⟩
    rw [branch_brMod, if_pos ⟨rfl, by simpa using hb⟩, raise_branch]
  · refine ⟨?_, by simp [brMod], by simp [brMod]⟩
    rw [branch_brMod, if_pos ⟨rfl, by simpa using hb⟩]

theorem vnFrameRx_slot (s : State) (b k : Nat) (f : Bytes) (st : Star) (hb : b < s.vn.br.length) (hk : k < s.vn.rx.length)
    (h1 : s.star = some st) (h2 : starOn s = true) (h3 : branchUp s b = true) (h4 : s.vn.v0 ≤ s.now)
    (h5 : guardStart s st b (s.now - s.vn.v0) = .slot k) (h6 : guardHeader s st (.slot k) f = true)
    (h7 : guardLength s st (.slot k) (s.now - s.vn.v0) f = false) (h8 : field f 14 1 ≠ 3) :
    ((vnFrameRx b f true s).vn.rx.getD k {}).got = .valid ∧ ((vnFrameRx b f true s).vn.rx.getD k {}).body = slice f 30 (field f 24 2) ∧
    ((vnFrameRx b f true s).branch b).rxOk = (s.branch b).rxOk + 1 ∧
    (vnFrameRx b f true s).wire = s.wire ++ [.vehicle (outBranches s (some b)) (s.now + 960) f true] := by
  have e : vnFrameRx b f true s = admitted st b (.slot k) f true (emit (.vehicle (outBranches s (some b)) (s.now + 960) f true) s) := by
    unfold vnFrameRx
    rw [h1]
    dsimp only
    rw [if_neg (by simp [h2, h3])]
    simp only [if_neg (Nat.not_lt.mpr h4)]
    rw [h5, if_neg (by simp), h6, h7]
    simp
  rw [e]
  generalize hx : emit _ s = x
  have hw : x.wire = s.wire ++ [.vehicle (outBranches s (some b)) (s.now + 960) f true] := by rw [← hx]; rfl
  have hv : x.vn = s.vn := by rw [← hx]; rfl
  unfold admitted
  dsimp only
  rw [if_pos rfl, if_neg (by decide), if_neg h8]
  obtain ⟨a1, a2, a3⟩ := frameFlags_p b (field f 18 1) x (by rw [hv]; exact hb)
  generalize hy : frameFlags b (field f 18 1) x = y at *
  rw [got_gotMod _ _ _ (by rw [a3, hv]; exact hk)]
  refine ⟨rfl, rfl, ?_, ?_⟩
  · have : (gotMod k (fun x => { x with got := .valid, flags := BitVec.ofNat 4 (field f 18 1), body := slice f 30 (field f 24 2) }) y).branch b = y.branch b := rfl
    rw [this, a1, branch_of (u := x) (s := s) (by rw [hv])]
  · exact a2.trans hw

end Sys2Proof.Machine
end

