-- ==== Sys2Proof/Laws/GridOps.lean ====
section
/-! SUPPORT. Lemmas of grid entries at their ticks. -/

set_option linter.all false

namespace Sys2Proof.Machine

theorem gridFire_ok (k : Byte) (i : Nat) (f : GridEntry → State → State) (s : State) (e : GridEntry)
    (h1 : gridEntry s k i = some e) (h2 : s.gr.errs.any (fun x => x.1 = i) = false) : gridFire k i f s = f e (atTick e s) := by
  have h3 : (atTick e s).gr.errs.any (fun x => decide (x.1 = i) && x.2) = false := by
    show s.gr.errs.any _ = false
    rw [List.any_eq_false] at h2 ⊢
    intro x hx
    have := h2 x hx
    simp at this
    simp [this]
  have h4 : (atTick e s).gr.errs.any (fun x => decide (x.1 = i)) = false := h2
  unfold gridFire
  rw [h1]
  dsimp only
  rw [h3, h4]
  simp

theorem gives_grid {c : Instr} {k : Byte} {i : Nat} {f : GridEntry → State → State} {s : State} {e : GridEntry} {P : State → Prop}
    (he : exec c s = act 0 (gridFire k i f) s) (hf : Fires s k i e) (h : P { nvKick (f e (atEntry e s)) with pending := s.pending }) :
    Gives c s P := by
  refine gives_of_act he ?_
  rw [gridFire_ok k i f (begin_ 0 s) e hf.1 hf.2]
  exact h

theorem usable_of {s x : State} (h1 : x.pwr = s.pwr) (h2 : x.sh = s.sh) (h3 : x.dev = s.dev) (h4 : x.gr.img = s.gr.img) (d : Nat) :
    usable x d = usable s d := by
  unfold usable domTarget gated wakeArmed State.dom State.running State.image
  simp only [h1, h2, h3, h4]

theorem usable_at (e : GridEntry) (s : State) (d : Nat) : usable (atEntry e s) d = usable s d := usable_of rfl rfl rfl rfl d

/-- What decides whether a domain is usable. -/
def usKeep (s : State) := (s.pwr, s.sh, s.dev, s.gr.img)

theorem usable_keep {s x : State} (h : usKeep x = usKeep s) (d : Nat) : usable x d = usable s d := by
  simp only [usKeep, Prod.mk.injEq] at h
  exact usable_of h.1 h.2.1 h.2.2.1 h.2.2.2 d

theorem skipped_keep (d k : Nat) (s : State) : usKeep (skipped d k s) = usKeep s := by simp [usKeep, skipped]

theorem skipped_ch (d k : Nat) (s : State) : (skipped d k s).ch = s.ch := by simp [skipped]

/-- Over the channels of a mask: each of them is acted on once, in a state that agrees with the first one on it. -/
theorem onChannels_each {α : Type} (Q : Chan → α) (P : State → Nat → α → Prop) (g kind : Nat) (mask : Half) (f : Nat → State → State) (s : State)
    (hf : ∀ n s, usKeep (f n s) = usKeep s) (hl : ∀ n s, (f n s).ch.length = s.ch.length)
    (ho : ∀ n m s, m ≠ n → (f n s).chan m = s.chan m)
    (R : State → State → Prop) (hr : ∀ s, R s s) (hrt : ∀ a b c, R a b → R b c → R a c) (hrf : ∀ n s, R s (f n s)) (hrs : ∀ d s, R s (skipped d kind s))
    (hp : ∀ n x, R s x → x.chan n = s.chan n → x.ch.length = s.ch.length → n < s.ch.length → usKeep x = usKeep s → P s n (Q ((f n x).chan n)))
    (i : Nat) (hi : i < 8) (hm : mask.getLsbD i = true) (hc : 8 * g + i < s.ch.length)
    (h1 : usable s (38 + g) = true) (h2 : usable s (42 + (8 * g + i)) = true) (h3 : usable s (74 + (8 * g + i)) = true) :
    P s (8 * g + i) (Q ((onChannels g kind mask f s).chan (8 * g + i))) := by
  unfold onChannels
  rw [h1]
  simp only [Bool.not_true, Bool.false_eq_true, if_false]
  have key : ∀ (l : List Nat) (x : State), l.Nodup → R s x → usKeep x = usKeep s → x.ch.length = s.ch.length →
      ((8 * g + i ∈ l → x.chan (8 * g + i) = s.chan (8 * g + i)) ∧ (8 * g + i ∉ l → P s (8 * g + i) (Q (x.chan (8 * g + i))))) →
      P s (8 * g + i) (Q ((l.foldl (fun s n =>
        if (usable s (42 + n) && usable s (74 + n)) = true then f n s
        else
          if usable (if usable s (42 + n) = true then s else skipped (42 + n) kind s) (74 + n) = true then (if usable s (42 + n) = true then s else skipped (42 + n) kind s)
          else skipped (74 + n) kind (if usable s (42 + n) = true then s else skipped (42 + n) kind s)) x).chan (8 * g + i))) := by
    intro l
    induction l with
    | nil =>
      intro x _ _ _ _ hx
      exact hx.2 (by simp)
    | cons a l ih =>
      intro x hnd hR hk hlen hx
      rw [List.foldl_cons]
      obtain ⟨ha, hnd⟩ := List.nodup_cons.mp hnd
      by_cases hu : (usable x (42 + a) && usable x (74 + a)) = true
      · rw [if_pos hu]
        refine ih _ hnd (hrt _ _ _ hR (hrf _ _)) ((hf _ _).trans hk) ((hl _ _).trans hlen) ⟨fun hin => ?_, fun hin => ?_⟩
        · have hne : 8 * g + i ≠ a := fun h => ha (h ▸ hin)
          rw [ho a _ x hne]
          exact hx.1 (List.mem_cons_of_mem _ hin)
        · by_cases hne : 8 * g + i = a
          · subst hne
            exact hp _ x hR (hx.1 (List.mem_cons_self ..)) hlen hc hk
          · rw [ho a _ x hne]
            exact hx.2 (by simp [hne, hin])
      · rw [if_neg hu]
        have hne : 8 * g + i ≠ a := by
          rintro rfl
          rw [usable_keep hk, usable_keep hk, h2, h3] at hu
          exact hu rfl
        generalize hy : (if usable x (42 + a) = true then x else skipped (42 + a) kind x) = y
        have y1 : R x y := by rw [← hy]; split; exact hr _; exact hrs _ _
        have y2 : usKeep y = usKeep x := by rw [← hy]; split; rfl; exact skipped_keep _ _ _
        have y3 : y.ch = x.ch := by rw [← hy]; split; rfl; exact skipped_ch _ _ _
        generalize hz : (if usable y (74 + a) = true then y else skipped (74 + a) kind y) = z
        have z1 : R y z := by rw [← hz]; split; exact hr _; exact hrs _ _
        have z2 : usKeep z = usKeep y := by rw [← hz]; split; rfl; exact skipped_keep _ _ _
        have z3 : z.ch = y.ch := by rw [← hz]; split; rfl; exact skipped_ch _ _ _
        have hch : z.ch = x.ch := z3.trans y3
        refine ih _ hnd (hrt _ _ _ hR (hrt _ _ _ y1 z1)) ((z2.trans y2).trans hk) (by rw [hch]; exact hlen) ⟨fun hin => ?_, fun hin => ?_⟩
        · rw [chan_of hch]; exact hx.1 (List.mem_cons_of_mem _ hin)
        · rw [chan_of hch]; exact hx.2 (by simp [hne, hin])
  have hmem : 8 * g + i ∈ maskChannels g mask := by
    unfold maskChannels
    simp [hi, hm]
  have hnd : (maskChannels g mask).Nodup := by
    unfold maskChannels
    refine List.Nodup.map (fun a b h => by omega) ((List.nodup_range).filter _)
  exact key _ s hnd (hr s) rfl rfl ⟨fun _ => rfl, fun h => absurd hmem h⟩

/-- Instant and cycle stay. -/
def sameCyc (a b : State) : Prop := b.cyc = a.cyc ∧ b.pwr = a.pwr ∧ b.dev = a.dev

theorem memSettle_other (n m : Nat) (s : State) (h : m ≠ n) : (memSettle n s).chan m = s.chan m := by
  unfold memSettle
  rw [chan_chanMod, if_neg (by simp [h])]

theorem capture_other (n m : Nat) (v : Byte) (s : State) (h : m ≠ n) : (capture n v s).chan m = s.chan m := by
  unfold capture
  dsimp only
  show (chanMod n _ (memSettle n s)).chan m = _
  rw [chan_chanMod, if_neg (by simp [h]), memSettle_other _ _ _ h]

theorem capture_self (n : Nat) (v : Byte) (s : State) (hn : n < s.ch.length) : ((capture n v s).chan n).capPrev = (s.chan n).cap ∧ ((capture n v s).chan n).cap.at_ = s.now := by
  unfold capture
  dsimp only
  show ((chanMod n _ (memSettle n s)).chan n).capPrev = _ ∧ ((chanMod n _ (memSettle n s)).chan n).cap.at_ = _
  rw [chan_chanMod, if_pos ⟨rfl, by rw [memSettle_len]; exact hn⟩]
  refine ⟨?_, rfl⟩
  have := congrArg Chan.cap (memSettle_part n n s)
  exact this

theorem countChannel_other (n m : Nat) (s : State) (h : m ≠ n) : (countChannel n s).chan m = s.chan m := by
  unfold countChannel
  dsimp only
  split
  · rfl
  · rw [chan_chanMod, if_neg (by simp [h]), memSettle_other _ _ _ h]

theorem countChannel_self (n : Nat) (s : State) (hn : n < s.ch.length) (h : chMode s n = 4) :
    ((countChannel n s).chan n).latchPrev = (s.chan n).latch ∧ ((countChannel n s).chan n).latch.at_ = s.now ∧ ((countChannel n s).chan n).latch.cyc = s.cyc.cyc := by
  unfold countChannel
  rw [if_neg (by simp [h])]
  dsimp only
  rw [chan_chanMod, if_pos ⟨rfl, by rw [memSettle_len]; exact hn⟩]
  refine ⟨?_, rfl, rfl⟩
  have := congrArg Chan.latch (memSettle_part n n s)
  exact this

theorem causeClear_keep (k n : Nat) (s : State) : usKeep (causeClear k n s) = usKeep s ∧ (causeClear k n s).cyc = s.cyc := by
  unfold causeClear
  dsimp only
  split
  · split <;> simp [usKeep, memSettle]
  · exact ⟨rfl, rfl⟩

theorem causeClear_other (k n m : Nat) (s : State) (h : m ≠ n) : (causeClear k n s).chan m = s.chan m := by
  unfold causeClear
  dsimp only
  have e : (chanMod n (causesDropped (causePut k false)) s).chan m = s.chan m := by rw [chan_chanMod, if_neg (by simp [h])]
  split
  · rw [memSettle_other _ _ _ h]
    split
    · exact e
    · rw [raise_chan]; exact e
  · exact e

theorem restage_keep (n : Nat) (s : State) : usKeep (restage n s) = usKeep s ∧ (restage n s).cyc = s.cyc := by
  unfold restage
  dsimp only
  split
  · exact causeClear_keep _ _ _
  · exact ⟨rfl, rfl⟩

theorem restage_other (n m : Nat) (s : State) (h : m ≠ n) : (restage n s).chan m = s.chan m := by
  unfold restage
  dsimp only
  have e : (chanMod n (fun c => if c.fCoupler then c else { c with cmd := decided c }) s).chan m = s.chan m := by rw [chan_chanMod, if_neg (by simp [h])]
  split
  · rw [causeClear_other _ _ _ _ h]; exact e
  · exact e

theorem updateChannel_keep (n : Nat) (s : State) : usKeep (updateChannel n s) = usKeep s ∧ (updateChannel n s).cyc = s.cyc ∧ (updateChannel n s).ch.length = s.ch.length := by
  unfold updateChannel
  split
  · exact ⟨rfl, rfl, rfl⟩
  · dsimp only
    obtain ⟨a, b⟩ := restage_keep n (chanMod n (fun c =>
      { c with grid := ((c.pend.filter fun p => decide (p.2 + 16 ≤ s.now)).getLast?).elim c.grid Prod.fst, pend := c.pend.filter (fun p => !decide (p.2 + 16 ≤ s.now)) }) s)
    exact ⟨a, b, by rw [restage_len]; simp⟩

theorem updateChannel_other (n m : Nat) (s : State) (h : m ≠ n) : (updateChannel n s).chan m = s.chan m := by
  unfold updateChannel
  split
  · rfl
  · dsimp only
    rw [restage_other _ _ _ h, chan_chanMod, if_neg (by simp [h])]

theorem updateChannel_self (n : Nat) (s : State) (hn : n < s.ch.length) (h : chMode s n = 5) :
    ((updateChannel n s).chan n).grid = (((s.chan n).pend.filter (fun p => decide (p.2 + 16 ≤ s.now))).getLast?).elim (s.chan n).grid Prod.fst := by
  unfold updateChannel
  rw [if_neg (by simp [h])]
  dsimp only
  have k := congrArg Chan.grid (restage_part n n (chanMod n (fun c =>
      { c with grid := ((c.pend.filter fun p => decide (p.2 + 16 ≤ s.now)).getLast?).elim c.grid Prod.fst, pend := c.pend.filter (fun p => !decide (p.2 + 16 ≤ s.now)) }) s))
  rw [chan_chanMod, if_pos ⟨rfl, hn⟩] at k
  exact k

theorem chMode_of {s x : State} (h : usKeep x = usKeep s) (n : Nat) (hc : (x.chan n).cfg = (s.chan n).cfg) : chMode x n = chMode s n := by
  simp only [usKeep, Prod.mk.injEq] at h
  unfold chMode fieldLive State.running
  rw [h.1, h.2.2.1, hc]

/-- Quantities do not depend on earlier captures. -/
theorem measureOne_keep (set i q : Nat) (s : State) : ∃ c p, measureOne set i q s = { s with ms := { s.ms with caps := c, capsPrev := p } } := by
  unfold measureOne
  split
  · exact ⟨_, _, rfl⟩
  · exact ⟨_, _, rfl⟩

theorem quantity_caps (s : State) (c p : List (Nat × MeasCap)) (q : Nat) :
    quantity { s with ms := { s.ms with caps := c, capsPrev := p } } q = quantity s q := rfl

theorem measureFold (set : Nat) (codes : List Byte) (l : List Nat) (s : State) (hw : smWf {} s.ms.caps = true) (hl : l.Nodup) (i : Nat) (v : Word) :
    (i ∈ l → quantity s (codes.getD i 0).toNat = some v) → (i ∉ l → smGet {} s.ms.caps (16 * set + i) = ⟨v, s.cyc.cyc, s.now⟩) →
    smGet {} (l.foldl (fun s i => measureOne set i (codes.getD i 0).toNat s) s).ms.caps (16 * set + i) = ⟨v, s.cyc.cyc, s.now⟩ := by
  induction l generalizing s with
  | nil => intro _ h; exact h (by simp)
  | cons a l ih =>
    intro h1 h2
    rw [List.foldl_cons]
    obtain ⟨ha, hl⟩ := List.nodup_cons.mp hl
    obtain ⟨c, p, e⟩ := measureOne_keep set a (codes.getD a 0).toNat s
    have hc : c = (measureOne set a (codes.getD a 0).toNat s).ms.caps := by rw [e]
    have hcw : smWf {} c = true := by
      rw [hc]
      unfold measureOne
      split
      · exact hw
      · exact smWf_smPut _ _ hw
    have hca : ∀ j, smGet {} c j = match quantity s (codes.getD a 0).toNat with
        | none => smGet {} s.ms.caps j
        | some v => if j = 16 * set + a then ⟨v, s.cyc.cyc, s.now⟩ else smGet {} s.ms.caps j := by
      intro j
      rw [hc]
      unfold measureOne
      cases quantity s (codes.getD a 0).toNat with
      | none => rfl
      | some v => exact smGet_smPut _ _ _ hw
    rw [e]
    refine ih { s with ms := { s.ms with caps := c, capsPrev := p } } hcw hl ?_ ?_
    · intro hin
      exact h1 (List.mem_cons_of_mem _ hin)
    · intro hin
      show smGet {} c (16 * set + i) = _
      rw [hca]
      by_cases hia : i = a
      · subst hia
        rw [h1 (List.mem_cons_self ..)]
        simp
        rfl
      · have := h2 (by simp [hia, hin])
        split
        · exact this
        · rw [if_neg (by omega)]; exact this

end Sys2Proof.Machine
end

