-- ==== Sys2Proof/Laws/FrameOps.lean ====
section
/-! SUPPORT. Lemmas of the train frame and the message window. -/

set_option linter.all false

namespace Sys2Proof.Machine

/-- What the origin does after it has counted the requests (R292). -/
def sleepEnd (im : Image) (r : State × List Nat) : State :=
  let s := r.1
  if r.2.isEmpty then
    let s := { s with tf := { s.tf with dwell := s.tf.dwell + 1 } }
    if s.tf.dwell = dwellCycles s im then { s with tf := { s.tf with sleepCd := 16 } } else s
  else
    let running := s.tf.sleepCd ≠ 0
    let mask := r.2.foldl (fun m n => m ||| (1#64 <<< n)) 0#64
    let s := { s with tf := { s.tf with dwell := 0, sleepCd := 0 } }
    if running then raise 0x5001 noInst (words64 mask) s else s

theorem sleepEnd_snap (im : Image) (s : State) (r : State × List Nat)
    (h : r.1.tf.snap = s.tf.snap ∧ r.1.tf.snapPrev = s.tf.snapPrev ∧ r.1.tf.noCopy = s.tf.noCopy ∧ EvsIn s r.1) :
    (sleepEnd im r).tf.snap = s.tf.snap ∧ (sleepEnd im r).tf.snapPrev = s.tf.snapPrev ∧ (sleepEnd im r).tf.noCopy = s.tf.noCopy ∧ EvsIn s (sleepEnd im r) := by
  obtain ⟨k1, k2, k3, k4⟩ := h
  unfold sleepEnd
  dsimp only
  split
  · split
    · exact ⟨k1, k2, k3, k4⟩
    · exact ⟨k1, k2, k3, k4⟩
  · split
    · exact ⟨by simp only [raise_tf]; exact k1, by simp only [raise_tf]; exact k2, by simp only [raise_tf]; exact k3, k4.trans (EvsIn.pre (raise_evsIn _ _ _ _) rfl)⟩
    · exact ⟨k1, k2, k3, k4⟩

theorem sleepWatch_snap (s : State) : (sleepWatch s).tf.snap = s.tf.snap ∧ (sleepWatch s).tf.snapPrev = s.tf.snapPrev ∧
    (sleepWatch s).tf.noCopy = s.tf.noCopy ∧ EvsIn s (sleepWatch s) := by
  have hr : ∀ (c i : Nat) (d : List Word) (x : State), (raise c i d x).tf = x.tf := fun c i d x => by simp
  have hm : ∀ (im : Image) (pl : Bytes) (l : List (TtrRec × Nat)) (a : State × List Nat),
      ((l.foldl (trackMember im pl) a).1.tf.snap = a.1.tf.snap ∧ (l.foldl (trackMember im pl) a).1.tf.snapPrev = a.1.tf.snapPrev ∧
        (l.foldl (trackMember im pl) a).1.tf.noCopy = a.1.tf.noCopy ∧ EvsIn a.1 (l.foldl (trackMember im pl) a).1) := by
    intro im pl l
    induction l with
    | nil => intro a; exact ⟨rfl, rfl, rfl, EvsIn.refl _⟩
    | cons x l ih =>
      intro a
      rw [List.foldl_cons]
      obtain ⟨a1, a2, a3, a4⟩ := ih (trackMember im pl a x)
      have k : ((trackMember im pl a x).1.tf.snap = a.1.tf.snap ∧ (trackMember im pl a x).1.tf.snapPrev = a.1.tf.snapPrev ∧
        (trackMember im pl a x).1.tf.noCopy = a.1.tf.noCopy ∧ EvsIn a.1 (trackMember im pl a x).1) := by
        unfold trackMember
        dsimp only
        split
        · exact ⟨rfl, rfl, rfl, EvsIn.of_gr rfl⟩
        · split
          · exact ⟨rfl, rfl, rfl, EvsIn.refl _⟩
          · dsimp only
            split
            · refine ⟨by rw [hr]; rfl, by rw [hr]; rfl, by rw [hr]; rfl, EvsIn.pre (raise_evsIn _ _ _ _) rfl⟩
            · exact ⟨rfl, rfl, rfl, EvsIn.of_gr rfl⟩
      exact ⟨a1.trans k.1, a2.trans k.2.1, a3.trans k.2.2.1, k.2.2.2.trans a4⟩
  unfold sleepWatch
  split
  · rename_i t im h1 h2
    by_cases hb : (!isOrigin s || !s.running) = true
    · rw [if_pos hb]
      exact ⟨rfl, rfl, rfl, EvsIn.refl _⟩
    · rw [if_neg hb]
      dsimp only
      cases ha : s.tf.accepted with
      | none => exact sleepEnd_snap im s (s, [0]) ⟨rfl, rfl, rfl, EvsIn.refl _⟩
      | some c => exact sleepEnd_snap im s _ (hm im c.payload (windowRecs s t) (s, []))
  · exact ⟨rfl, rfl, rfl, EvsIn.refl _⟩

theorem tfRead_none (s : State) (h1 : s.tf.accepted = none) (h2 : s.tf.held = none) :
    (tfRead s).tf.snap.valid = false ∧ (tfRead s).tf.snapPrev = s.tf.snap ∧ (tfRead s).tf.noCopy = s.tf.noCopy + 1 ∧ Occurred 0x2040 0xFF (tfRead s) := by
  unfold tfRead
  rw [h1, h2]
  dsimp only
  rw [h1]
  dsimp only
  generalize hz : ({ raise 0x2040 noInst [] (publishNone _) with tf := _ } : State) = z
  have ht : z.tf = { (publishNone { s with tf := { s.tf with readDone := true, noCopy := s.tf.noCopy + 1 } }).tf with
      pend := z.tf.pend } := by
    rw [← hz]; simp [h1, h2]
  have ho : Occurred 0x2040 0xFF z := by
    rw [← hz]
    exact raise_occurred _ _ _ _
  clear hz
  obtain ⟨a, b, c, d⟩ := sleepWatch_snap z
  exact ⟨by rw [a, ht]; rfl, by rw [b, ht]; rfl, by rw [c, ht]; rfl, Occurred.mono d ho⟩

theorem tfRead_copy (s : State) (c : Copy) (t : Ttr) (h1 : s.tf.accepted = some c) (h2 : s.hg.ttr = some t) (h3 : (s.running && bringupCycle s) = false) :
    (tfRead s).tf.snap = (publish c t s).tf.snap ∧ (tfRead s).tf.snapPrev = s.tf.snap := by
  have hz : ∃ z : State, tfRead s = sleepWatch z ∧ z.tf.snap = (publish c t s).tf.snap ∧ z.tf.snapPrev = s.tf.snap := by
    unfold tfRead
    rw [h1]
    dsimp only
    rw [h1, h2]
    dsimp only
    refine ⟨_, rfl, ?_⟩
    have hc : (({ s with tf := { s.tf with readDone := true } } : State).running && bringupCycle { s with tf := { s.tf with readDone := true } }) = false := h3
    simp only [h1, h2] at hc ⊢
    simp only [hc, Bool.false_eq_true, if_false]
    exact ⟨rfl, rfl⟩
  obtain ⟨z, hz, k1, k2⟩ := hz
  obtain ⟨a, b, _⟩ := sleepWatch_snap z
  exact ⟨by rw [hz, a, k1], by rw [hz, b, k2]⟩

theorem tfSnap_tf (s : State) : (tfSnap s).tf.frozen = some (windowContent s) ∧ (tfSnap s).tf.ready = .none := by
  unfold tfSnap
  dsimp only
  split
  · split <;> simp
  · split <;> simp

theorem portStart_noWin (q : Nat) (s : State) (h : s.tf.window = false) : portStart q s = s := by
  have hf : ∀ p n, fitsWindow s p n = false := fun p n => by unfold fitsWindow; rw [h]; rfl
  unfold portStart
  simp only [hf]
  split
  · rfl
  · split
    · rfl
    · split
      · rfl
      · split
        · rfl
        · split <;> rfl

theorem measureCopy_tf (c : Copy) (s : State) : (measureCopy c s).tf = s.tf := (measureCopy_fr c).tf rfl

theorem measureCopy_lg (c : Copy) (s : State) (h : s.cyc.mode ≠ .acquire) : EvsIn s (measureCopy c s) := by
  have hm : ∀ (m : Measure) (d : Nat) (x : State), EvsIn x (measured m d x) := by
    intro m d x
    unfold measured
    split
    · exact EvsIn.of_gr rfl
    · exact EvsIn.refl _
  unfold measureCopy
  split
  · exact EvsIn.refl _
  · by_cases h0 : (s.running && (c.payload.getD 2 0).getLsbD 2) = true
    · rw [if_pos h0]; exact EvsIn.refl _
    · rw [if_neg h0, if_neg h]
      extract_lets
      split
      · exact hm _ _ _
      · split
        · exact EvsIn.refl _
        · split
          · exact hm _ _ _
          · exact EvsIn.refl _

theorem acceptCopy_tf (c : Copy) (s : State) (h : hashAgrees s c.payload = true) : (acceptCopy c s).tf.accepted = some c ∧
    (acceptCopy c s).tf.lastCd = (field c.payload 15 1 = 1) ∧ (c.line = .a → (acceptCopy c s).tf.accA = s.tf.accA + 1) ∧
    (c.line = .b → (acceptCopy c s).tf.accB = s.tf.accB + 1) := by
  have hs : ∀ x : State, (topoCheck false x).tf = x.tf := by
    intro x; unfold topoCheck; split <;> rfl
  unfold acceptCopy
  dsimp only
  cases hl : c.line <;> dsimp only
  all_goals (
    rw [if_pos (by exact h), hs, measureCopy_tf]
    simp)

theorem flush_append_getD {α : Type} (l : List (List α)) (q : Nat) (x : α) (h : q < l.length) :
    (l.modify q (· ++ [x])).getD q [] = l.getD q [] ++ [x] := by
  simp [List.getD_eq_getElem?_getD, List.getElem?_modify, h]

theorem opposite_lt {p : Nat} (h : p < 4) : opposite p < 4 := by unfold opposite; split <;> omega

theorem portStart_msg (q : Nat) (s : State) : (portStart q s).tf.msgTx = s.tf.msgTx ∧ (portStart q s).tf.window = s.tf.window := by
  have ho : ∀ i (x : State), (originate i x).tf.msgTx = x.tf.msgTx ∧ (originate i x).tf.window = x.tf.window := by
    intro i x; unfold originate; split <;> exact ⟨rfl, rfl⟩
  unfold portStart
  split
  · exact ⟨rfl, rfl⟩
  · split
    · split <;> exact ⟨rfl, rfl⟩
    · split
      · split <;> exact ⟨rfl, rfl⟩
      · split
        · exact ⟨rfl, rfl⟩
        · split
          · exact ⟨rfl, rfl⟩
          · split
            · dsimp only
              split
              · exact ho _ _
              · exact ho _ _
            · exact ⟨rfl, rfl⟩

theorem portsStart_msg (s : State) : (portsStart s).tf.msgTx = s.tf.msgTx ∧ (portsStart s).tf.window = s.tf.window := by
  have h : ∀ (l : List Nat) (x : State), (l.foldl (fun s p => portStart p s) x).tf.msgTx = x.tf.msgTx ∧
      (l.foldl (fun s p => portStart p s) x).tf.window = x.tf.window := by
    intro l
    induction l with
    | nil => intro x; exact ⟨rfl, rfl⟩
    | cons a l ih => intro x; exact ⟨(ih _).1.trans (portStart_msg a x).1, (ih _).2.trans (portStart_msg a x).2⟩
  exact h _ _

theorem ltm_hg (l : Line) (f : LineTime → LineTime) (s : State) : (lineTimeMod l f s).hg = s.hg ∧ (lineTimeMod l f s).tf = s.tf ∧
    (lineTimeMod l f s).wire = s.wire ∧ (lineTimeMod l f s).hp = s.hp ∧ (lineTimeMod l f s).gr = s.gr := by
  cases l <;> exact ⟨rfl, rfl, rfl, rfl, rfl⟩

theorem ltm_out (l : Line) (f : LineTime → LineTime) (s : State) (p : Bytes) (m : Line) (a b : Nat) : outFault (lineTimeMod l f s) p = outFault s p ∧
    writes (lineTimeMod l f s) m = writes s m ∧ onwardFault (lineTimeMod l f s) a b = onwardFault s a b ∧
    nodesBeyond (lineTimeMod l f s) m = nodesBeyond s m ∧ innerPort (lineTimeMod l f s) m = innerPort s m ∧
    outerPort (lineTimeMod l f s) m = outerPort s m ∧ slowLink (lineTimeMod l f s) a = slowLink s a ∧ activeOn (lineTimeMod l f s) m = activeOn s m ∧
    isOrigin (lineTimeMod l f s) = isOrigin s := by
  cases l <;> exact ⟨rfl, rfl, rfl, rfl, rfl, rfl, rfl, rfl, rfl⟩

theorem ltm_self (l : Line) (f : LineTime → LineTime) (s : State) : lineTime (lineTimeMod l f s) l = f (lineTime s l) := by
  cases l <;> rfl

theorem lineTime_cyc {s x : State} (h : x.cyc = s.cyc) (l : Line) : lineTime x l = lineTime s l := by
  unfold lineTime; rw [h]

theorem tfOutbound_writes (line : Line) (p : Bytes) (good : Bool) (s : State) (x : Ttr) (h1 : forwards s line = true) (h2 : isOrigin s = false)
    (h3 : s.hg.ttr = some x) (h4 : outFault s p = 0) (h5 : writes s line = true) (h6 : onwardFault s (innerPort s line) (outerPort s line) = 0) :
    tfOutbound line p good s = emit (.train line false (writeOwn (lineTimeMod line (fun y => { y with tOut := some (stampNow s) }) s) x line p) good)
      (lineTimeMod line (fun y => { y with tOut := some (stampNow s) }) s) := by
  unfold tfOutbound
  generalize hv : lineTimeMod line (fun x => { x with tOut := some (stampNow s) }) s = v
  have A := ltm_hg line (fun x => { x with tOut := some (stampNow s) }) s
  have B := ltm_out line (fun x => { x with tOut := some (stampNow s) }) s p line (innerPort s line) (outerPort s line)
  rw [hv] at A B
  obtain ⟨a1, a2, a3, a4, a5⟩ := A
  obtain ⟨b1, b2, b3, b4, b5, b6, b7, b8, b9⟩ := B
  dsimp only
  simp only [h1, h2, b1, h4]
  simp only [Bool.not_true, Bool.or_self, Bool.false_eq_true, if_false, ne_eq, not_true_eq_false, decide_true, Bool.true_and]
  rw [b5, b6, b3, a1, h3, b2, h5, h6]
  simp

theorem tfOutbound_turns (line : Line) (p : Bytes) (good : Bool) (s : State) (h1 : forwards s line = true) (h2 : isOrigin s = false)
    (h4 : outFault s p = 0) (h5 : nodesBeyond s line = false) (h6 : onwardFault s (innerPort s line) (outerPort s line) ≠ 0) (hl : s.tf.turned.length = 2) :
    (lineTime (tfOutbound line p good s) line).rt = some 960 ∧ ∃ out, (tfOutbound line p good s).tf.turned.getD (lineNo line) none = some ⟨out, good⟩ ∧
      (tfOutbound line p good s).wire = s.wire ++ [.train line true out good] := by
  unfold tfOutbound
  generalize hv : lineTimeMod line (fun x => { x with tOut := some (stampNow s) }) s = v
  have A := ltm_hg line (fun x => { x with tOut := some (stampNow s) }) s
  have B := ltm_out line (fun x => { x with tOut := some (stampNow s) }) s p line (innerPort s line) (outerPort s line)
  rw [hv] at A B
  obtain ⟨a1, a2, a3, a4, a5⟩ := A
  obtain ⟨b1, b2, b3, b4, b5, b6, b7, b8, b9⟩ := B
  dsimp only
  simp only [h1, h2, b1, h4]
  simp only [Bool.not_true, Bool.or_self, Bool.false_eq_true, if_false, ne_eq, not_true_eq_false, if_true]
  rw [b5, b6, b3, if_neg h6, b4, h5]
  simp only [Bool.false_eq_true, if_false]
  generalize (turnHeader _ _ _ : Bytes) = out
  generalize hw : lineTimeMod line (fun x => { x with rt := some 960 }) v = w
  have e1 : (lineTime w line).rt = some 960 := by rw [← hw, ltm_self]
  obtain ⟨c1, c2, c3, c4, c5⟩ := ltm_hg line (fun x => { x with rt := some 960 }) v
  rw [hw] at c2 c3
  refine ⟨e1, out, ?_, ?_⟩
  · show (w.tf.turned.set _ _).getD _ none = _
    rw [c2, a2]
    cases line <;> simp [lineNo, List.getD_eq_getElem?_getD, hl]
  · show w.wire ++ _ = _
    rw [c3, a3]

theorem judge_accepts (line : Line) (p : Bytes) (s : State) (h2 : s.hg.ttr.isNone = false) (h4 : s.tf.readDone = false)
    (h5 : s.tf.accepted = none) (h6 : candFault s p true = 0) (h7 : hdrFlag p 4 = false) (h8 : hashAgrees s p = true) :
    (judge line p true s).tf.accepted = some ⟨line, p⟩ := by
  unfold judge
  cases line
  all_goals (
    simp only [h2, h4, h6, h5, h7]
    simp only [Bool.or_self, Bool.false_eq_true, if_false, ne_eq, not_true_eq_false, Option.isSome_none, Bool.not_false, if_true]
    exact (acceptCopy_tf _ _ (by exact h8)).1)

theorem tfLaunch_one (s : State) (x : Ttr) (h2 : s.hg.ttr = some x) (h3 : isOrigin s = true) (h4 : s.tf.sleepCd = 0) (h5 : s.hg.st = .member)
    (h6 : activeOn s .b = false) (h7 : writes s .a = false) (h8 : (s.hp (outerPort s .a)).stepping = false) (h9 : (s.hp (outerPort s .a)).speed ≠ 0)
    (h10 : slowLink s (outerPort s .a) = false) (h11 : (s.hp (outerPort s .a)).settled = true) :
    (tfLaunch s).wire = s.wire ++ [.train .a false (launchPayload s x (pollList ((byNumber x.recs).map (fun r => r.number.toNat)) s.tf.pend s.tf.rr)) true] ∧
    (tfLaunch s).cyc.lineA.tOut = some ((s.cyc.tt.toNat + 4000 : Nat) : Int) := by
  unfold tfLaunch
  rw [h2]
  dsimp only
  have h4' : ¬ s.tf.sleepCd = 16 := by omega
  simp only [h3, h4', Bool.not_true, Bool.false_eq_true, if_false]
  generalize launchPayload s x _ = pl
  generalize hy : ({ s with tf := _ } : State) = y
  have k : y.hg = s.hg ∧ y.cyc = s.cyc ∧ y.wire = s.wire ∧ writes y .a = writes s .a ∧ slowLink y = slowLink s ∧ y.hp = s.hp ∧ outerPort y = outerPort s ∧ activeOn y = activeOn s := by
    rw [← hy]; exact ⟨rfl, rfl, rfl, rfl, rfl, rfl, rfl, rfl⟩
  obtain ⟨k1, k2, k3, k4, k5, k6, k7, k8⟩ := k
  have hl : launchLine x pl .a y = emit (.train .a false pl true) (lineTimeMod .a (fun z => { z with tOut := some ((y.cyc.tt.toNat + 4000 : Nat) : Int) }) y) := by
    unfold launchLine
    generalize hz : lineTimeMod .a (fun x => { x with tOut := some ((y.cyc.tt.toNat + 4000 : Nat) : Int) }) y = z
    have A := ltm_hg .a (fun x => { x with tOut := some ((y.cyc.tt.toNat + 4000 : Nat) : Int) }) y
    have B := ltm_out .a (fun x => { x with tOut := some ((y.cyc.tt.toNat + 4000 : Nat) : Int) }) y [] .a (outerPort s .a) 0
    rw [hz] at A B
    obtain ⟨a1, a2, a3, a4, a5⟩ := A
    obtain ⟨b1, b2, b3, b4, b5, b6, b7, b8, b9⟩ := B
    simp only [b2, k4, h7, a1, k1, h5, a4, k6, b6, k7, h8, b7, k5, h9, h10, h11]
    simp
  rw [hl]
  generalize hv : emit _ (lineTimeMod .a _ y) = v
  have hv2 : activeOn v .b = false := by rw [← hv]; exact (congrFun k8 .b).trans h6
  have hc : v.cyc.lineA.tOut = some ((s.cyc.tt.toNat + 4000 : Nat) : Int) := by rw [← hv]; simp [emit, lineTimeMod, k2]
  have hw : v.wire = s.wire ++ [.train .a false pl true] := by
    rw [← hv]; show y.wire ++ _ = _; rw [k3]
  rw [hv2]
  simp only [Bool.and_false, Bool.false_eq_true, if_false]
  exact ⟨hw, hc⟩

theorem tfCandidate_judge (line : Line) (p : Bytes) (good : Bool) (r : Nat) (s : State) (h1 : forwards s line = true)
    (h3 : s.tf.turned.getD (lineNo line) none = none) : ∃ y, tfCandidate line p good r s = judge line p good y ∧ y.hg = s.hg ∧ y.tf = s.tf ∧
      candFault y p good = candFault s p good ∧ hashAgrees y p = hashAgrees s p ∧ y.gr = s.gr := by
  unfold tfCandidate
  simp only [h1, h3]
  generalize hF : lineTimeMod line (fun x => { x with rt := x.tOut.map (fun o => ((s.cyc.tt.toNat + r : Nat) : Int) - o) }) s = v
  have k : v.hg = s.hg ∧ v.tf = s.tf ∧ candFault v p good = candFault s p good ∧ hashAgrees v p = hashAgrees s p ∧ v.gr = s.gr := by
    rw [← hF]; cases line <;> exact ⟨rfl, rfl, rfl, rfl, rfl⟩
  simp only [Bool.not_true, Bool.false_eq_true, if_false]
  split
  · exact ⟨v, rfl, k⟩
  · exact ⟨emit (.train line true p good) v, rfl, k⟩

theorem judge_bad (line : Line) (p : Bytes) (good : Bool) (s : State) (h2 : s.hg.ttr.isNone = false) (h4 : s.tf.readDone = false)
    (h6 : candFault s p good ≠ 0) : judge line p good s = badCopy line (candFault s p good) s := by
  unfold judge
  simp [h2, h4, h6]

end Sys2Proof.Machine
end

