-- ==== Sys2Proof/Laws/PoolOps.lean ====
section
/-! SUPPORT. Lemmas of the frame pool: allocation, freeing, posting. -/

set_option linter.all false

namespace Sys2Proof.Machine

theorem kick_eqp (l : List Instr) (x : State) (m : Nat) : (State.eqp { nvKick x with pending := l } m) = x.eqp m := by simp [State.eqp]

theorem foldBuf_free (f : Nat → Buf → Buf) (bs : List Nat) (s : State) :
    (bs.foldl (fun s b => bufMod b (f b) s) s).pool.free = s.pool.free := by
  induction bs generalizing s with
  | nil => rfl
  | cons b r ih => rw [List.foldl_cons, ih]; rfl

theorem chainFree_free (bs : List Nat) (s : State) : (chainFree bs s).pool.free = s.pool.free ++ ascending bs := by
  unfold chainFree
  rw [pfcAll_pool]
  unfold poolRelease
  dsimp only
  rw [foldBuf_free (fun _ x => { x with owner := 0, flags := x.flags &&& 0x1F })]

theorem chainFree_part (bs : List Nat) (m : Nat) (s : State) : pfcP ((chainFree bs s).eqp m) = pfcP (s.eqp m) := by
  unfold chainFree
  rw [pfcAll_part, eqp_of ((poolRelease_fr _).eq rfl)]

theorem chainFree_hostRes (bs : List Nat) (s : State) : True := trivial

theorem hostGo_on (a : Nat) (t : Nat) (s : State) (h : s.awake = true) :
    hostGo a (begin_ t s) = poolOp { begin_ t s with pool := { s.pool with hostArg := w32 a } } := by
  unfold hostGo
  rw [if_pos (show State.awake (begin_ t s) = true from h)]
  rfl

theorem hostRes_eq (code buf : Nat) (s : State) : (hostRes code buf s).eq = s.eq := rfl

theorem poolAlloc_ok (n : Nat) (o f : Byte) (s : State) (h : n ≤ s.pool.free.length) :
    (poolAlloc n o f s).2 = s.pool.free.take n := by
  unfold poolAlloc
  rw [if_neg (by omega)]

theorem allocGo_free (o f : Byte) : ∀ (first : Bool) (l : List Nat) (s : State), (allocGo o f first l s).pool.free = s.pool.free := by
  intro first l
  induction l generalizing first with
  | nil => intro s; rfl
  | cons b r ih => intro s; unfold allocGo; dsimp only; rw [ih]; rfl

theorem poolAlloc_free (n : Nat) (o f : Byte) (s : State) (h : n ≤ s.pool.free.length) :
    (poolAlloc n o f s).1.pool.free = s.pool.free.drop n := by
  unfold poolAlloc
  rw [if_neg (by omega)]
  dsimp only
  rw [allocGo_free]

theorem poolOp_alloc (s : State) (n b : Nat) (e1 : s.pool.hostArg.toNat / 0x10000 % 16 = 1)
    (e2 : (if s.pool.hostArg.toNat / 0x100000 % 8 = 0 then 8 else s.pool.hostArg.toNat / 0x100000 % 8) = n)
    (h0 : n ≠ 0) (h : n ≤ s.pool.free.length) (hb : s.pool.free.head? = some b) :
    (poolOp s).pool.hostRes = w32 (0x80000000 + b % 4096 * 65536) ∧ (poolOp s).pool.free = s.pool.free.drop n := by
  unfold poolOp
  dsimp only
  rw [if_pos e1, e2]
  have hh := poolAlloc_ok n 0x38 0 s h
  have hd : (poolAlloc n 0x38 0 s).2.head? = some b := by
    rw [hh, List.head?_take, if_neg h0]; exact hb
  rw [hd]
  exact ⟨rfl, poolAlloc_free n 0x38 0 s h⟩

theorem poolOp_free (s : State) (b : Nat) (e1 : s.pool.hostArg.toNat / 0x10000 % 16 = 2)
    (e2 : s.pool.hostArg.toNat % 4096 = b) (h : freeFault s 0x38 (chainOf s b) = none) :
    (poolOp s).pool.hostRes = w32 0x80000000 ∧ (poolOp s).pool.free = s.pool.free ++ ascending (chainOf s b) := by
  unfold poolOp
  dsimp only
  rw [if_neg (by omega), if_pos e1, e2]
  have e : freeChain b 0x38 s = (chainFree (chainOf s b) s, 0) := by
    unfold freeChain
    dsimp only
    rw [h]
  rw [e]
  exact ⟨rfl, chainFree_free _ _⟩

theorem poolOp_post (s : State) (b n q : Nat) (e1 : s.pool.hostArg.toNat / 0x10000 % 16 = 3)
    (e2 : s.pool.hostArg.toNat % 4096 = b) (e3 : s.pool.hostArg.toNat / 0x1000000 % 4 = n)
    (e4 : s.pool.hostArg.toNat / 0x100000 % 8 = q) (h : postFault s 0x38 (chainOf s b) n q = 0) :
    (poolOp s).pool.hostRes = w32 0x80000000 := by
  unfold poolOp
  dsimp only
  rw [if_neg (by omega), if_neg (by omega), if_pos e1, e2, e3, e4]
  have e : (postChain b 0x38 n q s).2 = 0 := by
    unfold postChain
    dsimp only
    rw [if_neg (by omega)]
  rw [e]
  rfl

theorem poolOp_take (s : State) (n b : Nat) (r : List Nat) (e1 : s.pool.hostArg.toNat / 0x10000 % 16 = 4)
    (e2 : s.pool.hostArg.toNat / 0x1000000 % 4 = n) (h : (s.eqp n).hostQ = b :: r) (hn : n < s.eq.length) :
    (poolOp s).pool.hostRes = w32 (0x80000000 + b % 4096 * 65536) ∧ ((poolOp s).eqp n).hostQ = r := by
  unfold poolOp
  dsimp only
  rw [if_neg (by omega), if_neg (by omega), if_neg (by omega), if_pos e1, e2, h]
  refine ⟨rfl, ?_⟩
  dsimp only
  rw [eqp_of (hostRes_eq _ _ _), eqp_eqMod, if_pos ⟨rfl, hn⟩]

theorem poolOp_bad (s : State) (o : Nat) (e1 : s.pool.hostArg.toNat / 0x10000 % 16 = o) (h : o = 0 ∨ 4 < o) :
    poolOp s = hostRes 7 0 s := by
  unfold poolOp
  dsimp only
  rw [if_neg (by omega), if_neg (by omega), if_neg (by omega), if_neg (by omega)]

theorem w32_toNat (a : Nat) (h : a < 4294967296) : (w32 a).toNat = a := by
  simp [w32, Nat.mod_eq_of_lt h]

theorem gives_host {c : Instr} {t a : Nat} {s : State} {P : State → Prop} (he : exec c s = act t (hostGo a) s)
    (hs : s.awake = true) (h : ∀ x : State, x.pool.hostArg = w32 a → x.pool.free = s.pool.free → x.pool.bufs = s.pool.bufs →
      x.gr.img = s.gr.img → x.eq = s.eq → P { nvKick (poolOp x) with pending := s.pending }) : Gives c s P := by
  refine gives_of_act he ?_
  rw [hostGo_on _ _ _ hs]
  exact h _ rfl rfl rfl rfl rfl

theorem chainGo_of (s x : State) (hb : x.pool.bufs = s.pool.bufs) (hg : x.gr.img = s.gr.img) : ∀ n b l, chainGo x n b l = chainGo s n b l := by
  have h1 : ∀ b, x.buf b = s.buf b := fun b => by simp [State.buf, hb]
  have h2 : ∀ b, inPool x b = inPool s b := fun b => by simp [inPool, State.image, hg]
  intro n
  induction n with
  | zero => intro b l; rfl
  | succ n ih => intro b l; unfold chainGo; simp only [h1, h2, ih]

theorem freeFault_of (s x : State) (hb : x.pool.bufs = s.pool.bufs) (hg : x.gr.img = s.gr.img) (p : Byte) (l : List Nat) :
    freeFault x p l = freeFault s p l := by
  have h1 : ∀ b, x.buf b = s.buf b := fun b => by simp [State.buf, hb]
  have h2 : ∀ b, inPool x b = inPool s b := fun b => by simp [inPool, State.image, hg]
  unfold freeFault; simp only [h1, h2]

theorem postFault_of (s x : State) (hb : x.pool.bufs = s.pool.bufs) (hg : x.gr.img = s.gr.img) (he : x.eq = s.eq) (p : Byte) (l : List Nat) (n q : Nat) :
    postFault x p l n q = postFault s p l n q := by
  have h1 : ∀ b, x.buf b = s.buf b := fun b => by simp [State.buf, hb]
  have h2 : ∀ b, inPool x b = inPool s b := fun b => by simp [inPool, State.image, hg]
  unfold postFault ownsAll chainLen; simp only [h1, h2, eqp_of he]

end Sys2Proof.Machine
end

