-- ==== Sys2Proof/Laws/WakeOps.lean ====
section
/-! SUPPORT. Lemmas of wake sources and the reception of equipment frames. -/

set_option linter.all false

namespace Sys2Proof.Machine

theorem wakeFromSleep_pwr (s : State) : (wakeFromSleep s).pwr.node = .waking ∧ (wakeFromSleep s).pwr.wakeSrc = s.pwr.wakeLatch ∧
    (wakeFromSleep s).pwr.regOn = true ∧ (wakeFromSleep s).pwr.regAttempts = 1 := by
  unfold wakeFromSleep regulatorStart stateLevels
  dsimp only
  split <;> simp [storeStart_pwr, trans_pwr]

theorem chainFree_evsIn (bs : List Nat) (s : State) : EvsIn s (chainFree bs s) := by
  unfold chainFree
  refine EvsIn.trans ?_ (pfcAll_evsIn _)
  exact EvsIn.of_gr (by
    unfold poolRelease
    dsimp only
    induction bs generalizing s with
    | nil => rfl
    | cons b r ih => rw [List.foldl_cons, ih]; rfl)

theorem foldBuf_gr (f : Nat → Buf → Buf) (bs : List Nat) (s : State) : (bs.foldl (fun s b => bufMod b (f b) s) s).gr = s.gr := by
  induction bs generalizing s with
  | nil => rfl
  | cons b r ih => rw [List.foldl_cons, ih]; rfl

theorem unitsRead_pool (us : List Nat) (s : State) : (unitsRead us s).pool = s.pool := (unitsRead_fr us).pool rfl

theorem unitsRead_eq (us : List Nat) (s : State) : (unitsRead us s).eq = s.eq := (unitsRead_fr us).eq rfl

theorem eqTxDone_eq (n q b : Nat) (s : State) (h : (s.eqp n).tx = some (q, b)) (hn : n < s.eq.length)
    (hb : (chainUnits s (chainOf s b)).any (fun u => unitErr s u = some true) = false) :
    ((eqTxDone n s).eqp n).txOk = (s.eqp n).txOk + 1 ∧ (eqTxDone n s).pool.free = s.pool.free ++ ascending (chainOf s b) := by
  unfold eqTxDone
  rw [h]
  dsimp only
  rw [hb]
  generalize hx : unitsRead _ s = x
  have hxe : x.eq = s.eq := by rw [← hx]; exact unitsRead_eq _ _
  have hxp : x.pool = s.pool := by rw [← hx]; exact unitsRead_pool _ _
  refine ⟨?_, ?_⟩
  · refine (congrArg EqPort.txOk (eqStart_part n n _)).trans ?_
    refine (congrArg EqPort.txOk (chainFree_part (chainOf s b) n _)).trans ?_
    rw [if_neg (by decide), eqp_eqMod, if_pos ⟨rfl, by simp [eqMod, hxe]; exact hn⟩, eqp_eqMod, if_pos ⟨rfl, by rw [hxe]; exact hn⟩, eqp_of hxe]
    rfl
  · rw [eqStart_pool, chainFree_free]
    show (if _ then _ else _ : State).pool.free ++ _ = _
    rw [if_neg (by decide)]
    show x.pool.free ++ _ = _
    rw [hxp]

theorem chainOf_begin (t : Nat) (s : State) (b : Nat) : chainOf (begin_ t s) b = chainOf s b := chainGo_of s (begin_ t s) rfl rfl _ _ _

theorem chainUnits_of (s x : State) (hb : x.pool = s.pool) (bs : List Nat) : chainUnits x bs = chainUnits s bs := by
  have h1 : ∀ b, x.buf b = s.buf b := fun b => by simp [State.buf, hb]
  unfold chainUnits; simp only [h1]

theorem unitErr_of (s x : State) (hb : x.pool = s.pool) (u : Nat) : unitErr x u = unitErr s u := by
  unfold unitErr; rw [hb]

theorem rxStop_none (s : State) (n q need : Nat) (h1 : charged s n + need ≤ q) (h2 : need ≤ s.pool.free.length) :
    rxStop s n q need = none := by
  unfold rxStop
  dsimp only
  rw [List.findSome?_eq_none_iff]
  intro i hi
  have hi : i < need := List.mem_range.mp hi
  rw [if_neg (by omega), if_neg (by omega)]

theorem rxHandOver_host (n : Nat) (f : Bytes) (bs : List Nat) (b : Nat) (s : State) (hn : n < s.eq.length)
    (h : (s.eqp n).hostQ.length < 64) :
    ((rxHandOver n 2 false f bs b s).eqp n).hostQ = (s.eqp n).hostQ ++ [b] ∧
    ((rxHandOver n 2 false f bs b s).eqp n).rxOk = (s.eqp n).rxOk + 1 := by
  unfold rxHandOver
  dsimp only
  rw [if_neg (by decide), if_neg (by decide), if_neg (by decide), if_neg (by omega)]
  rw [eqp_eqMod, if_pos ⟨rfl, by rw [(chainOwner_fr _ _).eq rfl]; simp [eqMod]; exact hn⟩, eqp_of ((chainOwner_fr _ _).eq rfl), eqp_eqMod, if_pos ⟨rfl, hn⟩]
  exact ⟨rfl, rfl⟩

theorem rxStore_host (n : Nat) (pm : Bool) (c : EqCfg) (dpri : Nat) (f : Bytes) (sfd : Nat) (s : State) (b : Nat) (hn : n < s.eq.length)
    (hp : n ≠ 0 ∨ pm = false) (h : (s.eqp n).hostQ.length < 64)
    (h1 : charged s n + bufsFor (if tagged f then f.length - 4 else f.length) ≤ c.quota)
    (h2 : bufsFor (if tagged f then f.length - 4 else f.length) ≤ s.pool.free.length) (hl : tagged f = true → 16 ≤ f.length)
    (hb : s.pool.free.head? = some b) :
    ((rxStore n 2 pm c dpri f sfd s).eqp n).hostQ = (s.eqp n).hostQ ++ [b] ∧
    ((rxStore n 2 pm c dpri f sfd s).eqp n).rxOk = (s.eqp n).rxOk + 1 := by
  unfold rxStore
  dsimp only
  generalize hd : (if tagged f = true then List.take 12 f ++ List.drop 16 f else f) = d
  have hdl : d.length = if tagged f then f.length - 4 else f.length := by
    rw [← hd]
    split
    · rename_i ht
      have := hl ht
      simp; omega
    · rfl
  rw [← hdl] at h1 h2
  rw [rxStop_none s n c.quota _ h1 h2]
  dsimp only
  generalize hr : poolAlloc _ _ _ s = r
  have hr2 : r.2.head? = some b := by
    rw [← hr, poolAlloc_ok _ _ _ _ h2, List.head?_take, if_neg (by unfold bufsFor; omega)]
    exact hb
  rw [hr2]
  dsimp only
  have hin : (decide (n = 0) && pm && decide (2 = 2) && decide (field d 12 4 = 0x88B50301)) = false := by
    rcases hp with h | h <;> simp [h]
  rw [hin]
  have hre : r.1.eq = s.eq := by rw [← hr]; exact (poolAlloc_fr _ _ _).eq rfl
  generalize hx : chainFill r.2 d r.1 = x
  have hxe : x.eq = s.eq := by rw [← hx]; exact ((chainFill_fr _ _).eq rfl).trans hre
  clear hx hr hr2
  generalize hy : bufMod b _ x = y
  have hye : y.eq = s.eq := by rw [← hy]; exact hxe
  clear hy
  have k := rxHandOver_host n f r.2 b y (by rw [hye]; exact hn) (by rw [eqp_of hye]; exact h)
  rw [eqp_of hye] at k
  exact k

end Sys2Proof.Machine
end

