-- ==== Sys2Proof/Laws/InstrOps.lean ====
section
/-! SUPPORT. Lemmas of the execution of one JNIS instruction. -/

set_option linter.all false

namespace Sys2Proof.Machine

/-- A register result with Z and N set from it. -/
def zn (r : Word) (c : Core) : Core := { c with z := r = 0, n := r.msb }

/-- The state at the edge that ends the instruction's last cycle, before its effect. -/
def edge (n : Nat) (c : Core) (t : TaskRun) (s : State) : State := activeMod (fun _ => { c with task := some { t with e := t.e + n } }) (atEdge t (t.e + n) s)

theorem NoEnd.of {p : Nat} {c d : Core} (h : NoEnd p c) (e : (d.loops, d.rets) = (c.loops, c.rets)) : NoEnd p d := by
  rw [Prod.mk.injEq] at e
  intro l r hl
  rw [e.2]; exact h l r (e.1.symm.trans hl)

theorem kick_activeCore (l : List Instr) (x : State) : activeCore { nvKick x with pending := l } = activeCore x := by
  unfold activeCore; simp

theorem active_mod (f : Core → Core) (s : State) (c : Core) (h : activeCore s = some c) : activeCore (activeMod f s) = some (f c) := by
  unfold activeCore at h ⊢; unfold activeMod
  split at h
  · rename_i h0; simp only [Option.some.injEq] at h; subst h; rw [if_pos h0]; simp [h0]
  · split at h
    · rename_i h0 h1; simp only [Option.some.injEq] at h; subst h; rw [if_neg h0, if_pos h1]; simp [h1]
    · exact absurd h (by simp)

theorem mod_mod (f g : Core → Core) (s : State) : activeMod f (activeMod g s) = activeMod (fun c => f (g c)) s := by
  unfold activeMod
  split
  · rename_i h0; simp [h0]
  · rename_i h0; split
    · rename_i h1; simp [h1]
    · rename_i h1; simp [h0, h1]

theorem mod_gr (f : Core → Core) (s : State) : (activeMod f s).gr = s.gr := by
  unfold activeMod
  split
  · rfl
  · split <;> rfl

theorem mod_congr (f g : Core → Core) (s : State) (c : Core) (h : activeCore s = some c) (e : f c = g c) : activeMod f s = activeMod g s := by
  unfold activeCore at h; unfold activeMod
  split at h
  · rename_i h0; simp only [Option.some.injEq] at h; subst h; rw [if_pos h0, if_pos h0, e]
  · split at h
    · rename_i h0 h1; simp only [Option.some.injEq] at h; subst h; rw [if_neg h0, if_neg h0, if_pos h1, if_pos h1, e]
    · exact absurd h (by simp)

theorem edge_core {n : Nat} {s : State} {c : Core} {t : TaskRun} (h : Executes n s c t) : activeCore (edge n c t s) = some { c with task := some { t with e := t.e + n } } :=
  active_mod _ _ c (by rw [← h.core]; rfl)

theorem instr_run {n : Nat} {s : State} {c : Core} {t : TaskRun} (f : Core → State → State) (h : Executes n s c t) :
    instr n f s = f c (edge n c t s) := by
  unfold instr runningTask
  rw [h.core]
  dsimp only
  rw [h.task]
  simp only [Option.map_some]
  rw [if_neg (by have := h.budget; omega)]
  unfold taskTime edge
  rw [mod_congr _ _ _ c (by rw [← h.core]; rfl)]
  rw [h.task]; rfl

theorem Executes.begin {n : Nat} {s : State} {c : Core} {t : TaskRun} (h : Executes n s c t) : Executes n (begin_ 0 s) c t := ⟨by rw [← h.core]; rfl, h.task, h.budget⟩

theorem Running.begin {n : Nat} {s : State} {c : Core} {t : TaskRun} (h : Running n s c t) : Running n (begin_ 0 s) c t := ⟨h.toExecutes.begin, h.noLoop, h.notLast⟩

theorem continue_eq (p : Nat) (s : State) (c : Core) (t : TaskRun) (h : activeCore s = some c) (ht : c.task = some t) (hl : NoEnd p c) (hp : p < 65535) :
    continueFrom p s = activeMod (fun _ => { c with pc := p + 1 }) s := by
  unfold continueFrom runningTask
  rw [h]
  dsimp only
  rw [ht]
  simp only [Option.map_some]
  have hi : iterEnds 5 p { c with pc := p + 1 } = (0, { c with pc := p + 1 }) := by
    unfold iterEnds; dsimp only
    cases hc : c.loops with
    | nil => rfl
    | cons l r => dsimp only; rw [if_pos (by rcases hl l r hc with k | k <;> simp [k])]
  rw [hi]
  dsimp only
  rw [if_neg (by omega)]
  unfold taskTime
  rw [mod_mod]
  apply mod_congr _ _ _ c h
  dsimp only
  rw [ht]; simp

/-- An instruction whose effect is one update of the core. -/
theorem gives_core {i : Instr} {n : Nat} {g : Core → Core → Core} {s : State} {c d : Core} {t : TaskRun} (he : exec i s = actJ (instr n (fun c => coreOp (g c) c)) s)
    (h : Running n s c t) (hd : g c { c with task := some { t with e := t.e + n } } = { d with task := some { t with e := t.e + n } }) (hl : NoEnd c.pc d) (hp : d.pc = c.pc) :
    Gives i s (fun u => activeCore u = some (stepped n t d)) := by
  refine gives_of_act he ?_
  rw [kick_activeCore, instr_run _ h.begin.toExecutes]
  unfold coreOp
  have ha := active_mod (g c) _ _ (edge_core h.begin.toExecutes)
  rw [hd] at ha
  rw [continue_eq _ _ _ _ ha rfl hl h.notLast, active_mod _ _ _ ha]
  unfold stepped; rw [hp]

/-- A service instruction whose effect leaves a core that runs on. -/
theorem service_run {f : Core → State → State} {s : State} {c d : Core} {t : TaskRun} (h : Running 4 s c t) (ha : activeCore (f c (edge 4 c t s)) = some { d with task := some { t with e := t.e + 4 } })
    (hl : NoEnd c.pc d) (hp : d.pc = c.pc) : service true f s = activeMod (fun _ => stepped 4 t d) (f c (edge 4 c t s)) := by
  unfold service
  rw [instr_run _ h.toExecutes]
  show continueFrom c.pc (f c (edge 4 c t s)) = _
  rw [continue_eq _ _ _ _ ha rfl hl h.notLast]
  unfold stepped; rw [hp]

theorem mul_low (x y : Word) : BitVec.ofInt 32 (x.toInt * y.toInt) = x * y := by
  rw [BitVec.ofInt_mul, BitVec.ofInt_toInt, BitVec.ofInt_toInt]

theorem gives_yield {i : Instr} {n k : Nat} {f : Core → State → State} {s : State} {c : Core} {t : TaskRun} (he : exec i s = actJ (instr n f) s)
    (h : Executes n s c t) (hk : f c (edge n c t (begin_ 0 s)) = yieldNow k (edge n c t (begin_ 0 s))) : Gives i s (Yielded k s c t) := by
  refine gives_of_act he ?_
  rw [instr_run _ h.begin, hk]
  obtain ⟨a, b⟩ := yieldNow_base k _ _ { t with e := t.e + n } (edge_core h.begin) rfl
  have ea : (edge n c t (begin_ 0 s)).cr.active = s.cr.active := by
    unfold edge activeMod; split
    · rfl
    · split <;> rfl
  rw [ea] at a
  exact ⟨(congrArg Cores.active (nvKick_cr _)).trans (congrArg Prod.fst a), (congrArg Cores.yieldReg (nvKick_cr _)).trans (congrArg Prod.snd a), kick_occurred b⟩

theorem active_cr {u s : State} (h : u.cr = s.cr) : activeCore u = activeCore s := by unfold activeCore; rw [h]

/-- An access to data memory that runs, with or without a single-bit error corrected first. -/
theorem mem_gives {i : Instr} {size : Nat} {a : BitVec 5} {imm : Half} {g : Nat → Core → Core} {s : State} {c d : Core} {t : TaskRun}
    (he : exec i s = actJ (instr 2 (memRead size a imm g)) s) (h : Running 2 s c t) (hm : memOk c (memAddr c a imm) size = true)
    (hw : wordErr c (memAddr c a imm) ≠ some true)
    (hd : g (memAddr c a imm) (if wordErr c (memAddr c a imm) = some false then wordClean (memAddr c a imm) { c with task := some { t with e := t.e + 2 } } else
      { c with task := some { t with e := t.e + 2 } }) = { d with task := some { t with e := t.e + 2 } }) (hl : NoEnd c.pc d) (hp : d.pc = c.pc) :
    Gives i s (fun u => activeCore u = some (stepped 2 t d) ∧ (wordErr c (memAddr c a imm) = some false → Occurred 0x8107 0xFF u)) := by
  refine gives_of_act he ?_
  rw [kick_activeCore, instr_run _ h.begin.toExecutes]
  unfold memRead
  dsimp only
  rw [hm]
  simp only [Bool.not_true, Bool.false_eq_true, if_false]
  have hcore := edge_core h.begin.toExecutes
  generalize edge 2 c t (begin_ 0 s) = x at hcore ⊢
  cases hw2 : wordErr c (memAddr c a imm) with
  | none =>
    rw [hw2] at hd
    simp only [reduceCtorEq, if_false] at hd
    dsimp only
    unfold coreOp
    have ha := active_mod (g (memAddr c a imm)) _ _ hcore
    rw [hd] at ha
    rw [continue_eq _ _ _ _ ha rfl hl h.notLast, active_mod _ _ _ ha]
    exact ⟨by unfold stepped; rw [hp], by simp⟩
  | some b =>
    cases b with
    | true => exact absurd hw2 hw
    | false =>
      rw [hw2] at hd
      simp only [if_true] at hd
      dsimp only
      unfold coreOp
      have hr : activeCore (raise 0x8107 noInst [] x) = some { c with task := some { t with e := t.e + 2 } } := by
        rw [active_cr (raise_cr _ _ _ _), hcore]
      have ha := (active_mod (fun c' => g (memAddr c a imm) (wordClean (memAddr c a imm) c')) _ _ hr).trans (congrArg some hd)
      show activeCore (continueFrom c.pc (activeMod (fun c' => g (memAddr c a imm) (wordClean (memAddr c a imm) c')) (raise 0x8107 noInst [] x))) = _ ∧ _
      have hc := continue_eq _ _ _ _ ha rfl hl h.notLast
      refine ⟨(congrArg activeCore hc).trans ?_, fun _ => kick_occurred (Occurred.mono (EvsIn.of_gr ((congrArg State.gr hc).trans ?_)) (raise_occurred 0x8107 noInst [] x))⟩
      · rw [active_mod _ _ _ ha]; unfold stepped; rw [hp]
      · rw [mod_gr, mod_gr]

theorem dataPutBytes_task (k : Option TaskRun) : ∀ (b : Bytes) (a : Nat) (c : Core), dataPutBytes a b { c with task := k } = { dataPutBytes a b c with task := k }
  | [], _, _ => rfl
  | x :: r, a, c => dataPutBytes_task k r (a + 1) (dataPut a x c)

theorem dataPutBytes_keep : ∀ (b : Bytes) (a : Nat) (c : Core), ((dataPutBytes a b c).loops, (dataPutBytes a b c).rets) = (c.loops, c.rets) ∧ (dataPutBytes a b c).pc = c.pc
  | [], _, _ => ⟨rfl, rfl⟩
  | x :: r, a, c => dataPutBytes_keep r (a + 1) (dataPut a x c)

theorem memOk_yes {c : Core} {t : TaskRun} {ad k : Nat} (ht : c.task = some t) (h1 : ad ≤ 0x3FFFF) (h2 : ad % k = 0) (h3 : t.banks.getLsbD (ad / 65536) = true) : memOk c ad k = true := by
  unfold memOk; rw [ht]; simp [h1, h2, h3]

theorem memOk_no {c : Core} {t : TaskRun} {ad k : Nat} (ht : c.task = some t) (h : 0x3FFFF < ad ∨ ad % k ≠ 0 ∨ t.banks.getLsbD (ad / 65536) = false) : memOk c ad k = false := by
  unfold memOk; rw [ht]
  rcases h with h | h | h
  · rw [decide_eq_false (by omega)]; rfl
  · rw [show decide (ad % k = 0) = false from decide_eq_false h]; simp
  · simp [h]

/-- An instruction that transfers control. -/
theorem gives_jump {i : Instr} {n pc : Nat} {f : Core → State → State} {g : Core → Core} {s : State} {c d : Core} {t : TaskRun} (he : exec i s = actJ (instr n f) s)
    (h : Executes n s c t) (hf : f c (edge n c t (begin_ 0 s)) = jump pc g (edge n c t (begin_ 0 s)))
    (hd : { g { c with task := some { t with e := t.e + n } } with pc := pc } = d) : Gives i s (fun u => activeCore u = some d) := by
  refine gives_of_act he ?_
  rw [kick_activeCore, instr_run _ h.begin, hf]
  unfold jump
  rw [active_mod _ _ _ (edge_core h.begin)]
  exact congrArg some hd

/-- Loop entries that end at the instruction, innermost first: the cycles their iteration ends take and the core after them (R381). -/
theorem continue_loops (p : Nat) (s : State) (c : Core) (t : TaskRun) (h : activeCore s = some c) (ht : c.task = some t)
    (hp : (iterEnds 5 p { c with pc := p + 1 }).2.pc ≤ 65535) (hk : (iterEnds 5 p { c with pc := p + 1 }).2.task = some t) :
    activeCore (continueFrom p s) = some { (iterEnds 5 p { c with pc := p + 1 }).2 with task := some { t with e := t.e + (iterEnds 5 p { c with pc := p + 1 }).1 } } := by
  unfold continueFrom runningTask
  rw [h]
  dsimp only
  rw [show c.task.map (fun t => (c, t)) = some (c, t) by rw [ht]; rfl]
  dsimp only
  generalize iterEnds 5 p { c with pc := p + 1 } = r at hp hk ⊢
  rw [if_neg (by omega)]
  unfold taskTime
  rw [mod_mod, active_mod _ _ _ h]
  rw [hk]; rfl

theorem edge_shape (n : Nat) (c : Core) (t : TaskRun) (s : State) : ∃ k, edge n c t (begin_ 0 s) =
    { s with wire := [], cyc := { s.cyc with phase := max s.cyc.phase (t.start + 4 * (t.e + n) - s.cyc.base) }, cr := k } := by
  have hb : begin_ 0 s = { s with wire := [] } := by unfold begin_; rw [Nat.max_zero]
  have h : ∀ (f : Core → Core) (x : State), ∃ k, activeMod f x = { x with cr := k } := by
    intro f x
    unfold activeMod
    split
    · exact ⟨_, rfl⟩
    · split
      · exact ⟨_, rfl⟩
      · exact ⟨x.cr, rfl⟩
  obtain ⟨k, hk⟩ := h (fun _ => { c with task := some { t with e := t.e + n } }) (atEdge t (t.e + n) (begin_ 0 s))
  exact ⟨k, hk.trans (by rw [hb]; rfl)⟩

theorem mod_shape (f : Core → Core) (x : State) : ∃ k, activeMod f x = { x with cr := k } := by
  unfold activeMod
  split
  · exact ⟨_, rfl⟩
  · split
    · exact ⟨_, rfl⟩
    · exact ⟨x.cr, rfl⟩

theorem regsPut_task (k : Option TaskRun) : ∀ (l : List Word) (d : BitVec 5) (c : Core), regsPut d l { c with task := k } = { regsPut d l c with task := k }
  | [], _, _ => rfl
  | v :: r, d, c => by
    show regsPut (d + 1) r (regPut d v { c with task := k }) = { regsPut (d + 1) r (regPut d v c) with task := k }
    rw [← regsPut_task k r]
    congr 1
    unfold regPut
    split <;> rfl

theorem regsPut_keep : ∀ (l : List Word) (d : BitVec 5) (c : Core), ((regsPut d l c).loops, (regsPut d l c).rets) = (c.loops, c.rets) ∧ (regsPut d l c).pc = c.pc
  | [], _, _ => ⟨rfl, rfl⟩
  | v :: r, d, c => by
    obtain ⟨a, b⟩ := regsPut_keep r (d + 1) (regPut d v c)
    have h : ((regPut d v c).loops, (regPut d v c).rets) = (c.loops, c.rets) ∧ (regPut d v c).pc = c.pc := by unfold regPut; split <;> exact ⟨rfl, rfl⟩
    exact ⟨a.trans h.1, b.trans h.2⟩

/-- A service instruction that answers: the effect `f` leaves the core `d`, and what holds of the rest of the state. -/
theorem edge_active (n : Nat) (c : Core) (t : TaskRun) (s : State) : (edge n c t (begin_ 0 s)).cr.active = s.cr.active := by
  unfold edge activeMod; split
  · rfl
  · split <;> rfl

theorem edge_rest (n : Nat) (c : Core) (t : TaskRun) (s : State) : { (edge n c t (begin_ 0 s)).cr with pxc := s.cr.pxc, rxc := s.cr.rxc } = s.cr := by
  unfold edge activeMod; split
  · rfl
  · split <;> rfl

theorem active_activeMod (f : Core → Core) (s : State) : (activeMod f s).cr.active = s.cr.active := by
  unfold activeMod; split
  · rfl
  · split <;> rfl

theorem coreOwner_of {u s : State} (h : u.cr.active = s.cr.active) : coreOwner u = coreOwner s := by unfold coreOwner; rw [h]

theorem chainOwner_pool {u s : State} (p : Byte) (bs : List Nat) (h : u.pool = s.pool) : (chainOwner p bs u).pool = (chainOwner p bs s).pool := by
  unfold chainOwner
  induction bs generalizing u s with
  | nil => exact h
  | cons b r ih =>
    rw [List.foldl_cons, List.foldl_cons]
    refine ih ?_
    have hb : u.buf b = s.buf b := by simp [State.buf, h]
    unfold bufMod
    dsimp only
    rw [h, hb]

theorem service_gives {i : Instr} {ok : Bool} {f : Core → State → State} {s : State} {c d : Core} {t : TaskRun} {P : State → Prop}
    (he : exec i s = actJ (service ok f) s) (hok : ok = true) (h : Running 4 s c t)
    (hf : ∀ y k, y = { s with wire := [], cyc := { s.cyc with phase := max s.cyc.phase (t.start + 4 * (t.e + 4) - s.cyc.base) }, cr := k } →
      activeCore y = some { c with task := some { t with e := t.e + 4 } } → y.cr.active = s.cr.active → { y.cr with pxc := s.cr.pxc, rxc := s.cr.rxc } = s.cr →
      activeCore (f c y) = some { d with task := some { t with e := t.e + 4 } } ∧ ∀ k, P { nvKick { f c y with cr := k } with pending := s.pending })
    (hl : (d.loops, d.rets) = (c.loops, c.rets)) (hp : d.pc = c.pc) : Gives i s (fun u => activeCore u = some (stepped 4 t d) ∧ P u) := by
  refine gives_of_act he ?_
  rw [hok]
  obtain ⟨k, hk⟩ := edge_shape 4 c t s
  obtain ⟨ha, hP⟩ := hf (edge 4 c t (begin_ 0 s)) k hk (edge_core h.begin.toExecutes) (edge_active _ _ _ _) (edge_rest _ _ _ _)
  rw [service_run h.begin ha (h.noLoop.of hl) hp, kick_activeCore, active_mod _ _ _ ha]
  refine ⟨rfl, ?_⟩
  obtain ⟨k2, hk2⟩ := mod_shape (fun _ => stepped 4 t d) (f c (edge 4 c t (begin_ 0 s)))
  rw [hk2]
  exact hP k2

theorem answer_task (d : BitVec 5) (vs : List Word) (b : Bool) (c : Core) (k : Option TaskRun) : answer d vs b { c with task := k } = { answered d vs b c with task := k } := by
  unfold answer; rw [regsPut_task]; rfl

theorem answered_loops (d : BitVec 5) (vs : List Word) (b : Bool) (c : Core) : ((answered d vs b c).loops, (answered d vs b c).rets) = (c.loops, c.rets) := (regsPut_keep vs d c).1

theorem answered_pc (d : BitVec 5) (vs : List Word) (b : Bool) (c : Core) : (answered d vs b c).pc = c.pc := (regsPut_keep vs d c).2

theorem regsPut_flags : ∀ (l : List Word) (d : BitVec 5) (c : Core), (regsPut d l c).z = c.z ∧ (regsPut d l c).n = c.n ∧ (regsPut d l c).c = c.c ∧ (regsPut d l c).v = c.v
  | [], _, _ => ⟨rfl, rfl, rfl, rfl⟩
  | v :: r, d, c => by
    obtain ⟨a, b, e, g⟩ := regsPut_flags r (d + 1) (regPut d v c)
    have h : (regPut d v c).z = c.z ∧ (regPut d v c).n = c.n ∧ (regPut d v c).c = c.c ∧ (regPut d v c).v = c.v := by unfold regPut; split <;> exact ⟨rfl, rfl, rfl, rfl⟩
    exact ⟨a.trans h.1, b.trans h.2.1, e.trans h.2.2.1, g.trans h.2.2.2⟩

theorem refuseCore_task (d : BitVec 5) (n : Nat) (zn : Bool) (c : Core) (k : Option TaskRun) : refuseCore d n zn { c with task := k } = { refusedCore d n zn c with task := k } := by
  unfold refuseCore; rw [regsPut_task]
  obtain ⟨h1, h2, -, -⟩ := regsPut_flags (List.replicate n 0) d c
  unfold refusedCore
  generalize regsPut d (List.replicate n 0) c = w at h1 h2 ⊢
  cases zn
  · simp [h1, h2]
  · simp [setZn]

theorem refuse_gives {i : Instr} {ok : Bool} {f : Core → State → State} {s : State} {c : Core} {t : TaskRun} {op : Nat} {o : Word} {d : BitVec 5} {n : Nat} {zn : Bool}
    (he : exec i s = actJ (service ok f) s) (hok : ok = true) (h : Running 4 s c t)
    (hf : ∀ k, ({ s with wire := [], cyc := { s.cyc with phase := max s.cyc.phase (t.start + 4 * (t.e + 4) - s.cyc.base) }, cr := k } : State).cr.active = s.cr.active → f c { s with wire := [], cyc := { s.cyc with phase := max s.cyc.phase (t.start + 4 * (t.e + 4) - s.cyc.base) }, cr := k } =
      refuse op o d n zn { s with wire := [], cyc := { s.cyc with phase := max s.cyc.phase (t.start + 4 * (t.e + 4) - s.cyc.base) }, cr := k }) :
    Gives i s (fun u => activeCore u = some (stepped 4 t (refusedCore d n zn c)) ∧ Occurred 0x8041 0xFF u) := by
  refine service_gives he hok h ?_ (regsPut_keep _ d c).1 (regsPut_keep _ d c).2
  intro y k hy hc hact hrest
  rw [hy, hf k (by rw [← hy]; exact hact), ← hy]
  refine ⟨?_, fun k => kick_occurred (Occurred.mono (s := refuse op o d n zn y) (EvsIn.of_gr rfl) (raise_occurred _ _ _ _))⟩
  unfold refuse refusedEvent
  rw [active_cr (raise_cr _ _ _ _), active_mod _ _ _ hc, refuseCore_task]

theorem mod_tf (f : Core → Core) (x : State) : (activeMod f x).tf = x.tf := by obtain ⟨k, h⟩ := mod_shape f x; rw [h]

theorem mod_vn (f : Core → Core) (x : State) : (activeMod f x).vn = x.vn := by obtain ⟨k, h⟩ := mod_shape f x; rw [h]

theorem mod_eq (f : Core → Core) (x : State) : (activeMod f x).eq = x.eq := by obtain ⟨k, h⟩ := mod_shape f x; rw [h]

theorem mod_pool (f : Core → Core) (x : State) : (activeMod f x).pool = x.pool := by obtain ⟨k, h⟩ := mod_shape f x; rw [h]

theorem mod_ch (f : Core → Core) (x : State) : (activeMod f x).ch = x.ch := by obtain ⟨k, h⟩ := mod_shape f x; rw [h]

theorem mod_bn (f : Core → Core) (x : State) : (activeMod f x).bn = x.bn := by obtain ⟨k, h⟩ := mod_shape f x; rw [h]

theorem mod_sh (f : Core → Core) (x : State) : (activeMod f x).sh = x.sh := by obtain ⟨k, h⟩ := mod_shape f x; rw [h]

theorem mod_nv (f : Core → Core) (x : State) : (activeMod f x).nv = x.nv := by obtain ⟨k, h⟩ := mod_shape f x; rw [h]

theorem mod_cyc (f : Core → Core) (x : State) : (activeMod f x).cyc = x.cyc := by obtain ⟨k, h⟩ := mod_shape f x; rw [h]

theorem mod_pwr (f : Core → Core) (x : State) : (activeMod f x).pwr = x.pwr := by obtain ⟨k, h⟩ := mod_shape f x; rw [h]

theorem mod_hg (f : Core → Core) (x : State) : (activeMod f x).hg = x.hg := by obtain ⟨k, h⟩ := mod_shape f x; rw [h]

theorem mod_ms (f : Core → Core) (x : State) : (activeMod f x).ms = x.ms := by obtain ⟨k, h⟩ := mod_shape f x; rw [h]

theorem mod_rg (f : Core → Core) (x : State) : (activeMod f x).rg = x.rg := by obtain ⟨k, h⟩ := mod_shape f x; rw [h]

theorem mod_lg (f : Core → Core) (x : State) : (activeMod f x).lg = x.lg := by obtain ⟨k, h⟩ := mod_shape f x; rw [h]

theorem mod_free (f : Core → Core) (x : State) : (activeMod f x).free = x.free := by obtain ⟨k, h⟩ := mod_shape f x; rw [h]

theorem mod_dev (f : Core → Core) (x : State) : (activeMod f x).dev = x.dev := by obtain ⟨k, h⟩ := mod_shape f x; rw [h]

theorem chainOf_of {u s : State} (hp : u.pool = s.pool) (hg : u.gr = s.gr) (b : Nat) : chainOf u b = chainOf s b := by
  unfold chainOf; exact chainGo_of s u (by rw [hp]) (by rw [hg]) _ _ _

theorem ownsAll_of {u s : State} (hp : u.pool = s.pool) (hg : u.gr = s.gr) (p : Byte) (bs : List Nat) : ownsAll u p bs = ownsAll s p bs := by
  have h1 : ∀ b, u.buf b = s.buf b := fun b => by simp [State.buf, hp]
  have h2 : ∀ b, inPool u b = inPool s b := fun b => by simp [inPool, State.image, hg]
  unfold ownsAll; simp only [h1, h2]

theorem chainLen_of {u s : State} (hp : u.pool = s.pool) (bs : List Nat) : chainLen u bs = chainLen s bs := by
  have h1 : ∀ b, u.buf b = s.buf b := fun b => by simp [State.buf, hp]
  unfold chainLen; simp only [h1]

theorem regPut_task (d : BitVec 5) (v : Word) (c : Core) (k : Option TaskRun) : regPut d v { c with task := k } = { regPut d v c with task := k } := by
  unfold regPut; split <;> rfl

theorem regPut_loops (d : BitVec 5) (v : Word) (c : Core) : ((regPut d v c).loops, (regPut d v c).rets) = (c.loops, c.rets) := by unfold regPut; split <;> rfl

theorem regPut_pc (d : BitVec 5) (v : Word) (c : Core) : (regPut d v c).pc = c.pc := by unfold regPut; split <;> rfl

theorem portsStart_closed (x : State) (hx : x.tf.window = false) : portsStart x = x := by
  unfold portsStart
  rw [show List.range 4 = [0, 1, 2, 3] from rfl]
  simp only [List.foldl_cons, List.foldl_nil]
  rw [portStart_noWin 0 x hx, portStart_noWin 1 x hx, portStart_noWin 2 x hx, portStart_noWin 3 x hx]

theorem ownAdd_closed (m : OwnMsg) (x : State) (hx : x.tf.window = false) : (ownAdd m x).tf.own = x.tf.own ++ [m] := by
  have k := portsStart_closed { x with tf := { x.tf with own := x.tf.own ++ [m] } } hx
  exact congrArg (fun s : State => s.tf.own) k

/-- What the active core's post of a message frame leaves. -/
theorem mpost_tail (m : OwnMsg) (bs : List Nat) (y : State) (g : Core → Core) : (ownAdd m (chainOwner 0x3E bs (activeMod g y))).cr = (activeMod g y).cr ∧
    (ownAdd m (chainOwner 0x3E bs (activeMod g y))).pool = (chainOwner 0x3E bs y).pool ∧
    (y.tf.window = false → (ownAdd m (chainOwner 0x3E bs (activeMod g y))).tf.own = y.tf.own ++ [m]) := by
  refine ⟨?_, ?_, fun hw => ?_⟩
  · rw [(ownAdd_fr _).cr rfl, (chainOwner_fr _ _).cr rfl]
  · rw [(ownAdd_fr _).pool rfl]; exact chainOwner_pool _ _ (mod_pool _ _)
  · have ht : (chainOwner 0x3E bs (activeMod g y)).tf = y.tf := by rw [(chainOwner_fr _ _).tf rfl, mod_tf]
    rw [ownAdd_closed _ _ (by rw [ht]; exact hw), ht]

theorem dynFault_of {u s : State} (hp : u.pool = s.pool) (hg : u.gr = s.gr) (hv : u.vn = s.vn) (p : Byte) (bs : List Nat) (id n : Nat) : dynFault u p bs id n = dynFault s p bs id n := by
  have h1 : u.star = s.star := by unfold State.star State.image; rw [hg]
  unfold dynFault dynHeld
  rw [h1, hv]
  simp only [ownsAll_of hp hg]

end Sys2Proof.Machine
end

