-- ==== Sys2Proof/Laws/ServiceOps.lean ====
section
/-! SUPPORT. Lemmas of allocation and chains as an instruction sees them. -/

set_option linter.all false

namespace Sys2Proof.Machine

theorem freeChain_bad (s : State) (b : Nat) (p : Byte) (k x : Nat) (h : freeFault s p (chainOf s b) = some (k, x)) :
    (freeChain b p s).2 = k ∧ (freeChain b p s).1.cr = s.cr ∧ (freeChain b p s).1.pool.free = s.pool.free ∧ Occurred (0x400F + k) 0xFF (freeChain b p s).1 := by
  unfold freeChain
  dsimp only
  rw [h]
  dsimp only
  refine ⟨rfl, ?_, ?_, Occurred.mono (s := raise (0x400F + k) noInst _ s) (EvsIn.of_gr rfl) (raise_occurred _ _ _ _)⟩
  · unfold poolSticky; simp
  · unfold poolSticky; simp

theorem benchTicket_lt (bn : Bench) : ∀ (n k : Nat), k < 16 → benchTicket bn n k < 16
  | 0, k, h => h
  | n + 1, k, h => by
    unfold benchTicket
    split
    · exact benchTicket_lt bn n _ (Nat.mod_lt _ (by decide))
    · exact h

end Sys2Proof.Machine
end

