-- ==== Sys2Proof/Laws/BufferOps.lean ====
section
/-! SUPPORT. Lemmas of buffer access of an instruction. -/

set_option linter.all false

namespace Sys2Proof.Machine

theorem bufPut_bufs (b off : Nat) (v : Word) (s : State) : (bufPut b off v s).pool.bufs = smPut {} s.pool.bufs b { s.buf b with data := patch (padTo 256 (s.buf b).data) off (beBytes 4 v.toNat) } := by
  unfold bufPut
  dsimp only
  have h : (unitsWritten [16 * b + off / 16] (unitsRead [16 * b + off / 16] s)).pool.bufs = s.pool.bufs := by
    unfold unitsWritten
    show (unitsRead [16 * b + off / 16] s).pool.bufs = _
    rw [(unitsRead_fr _).pool rfl]
  unfold bufMod State.buf
  dsimp only
  rw [h]

end Sys2Proof.Machine
end

