-- ==== Sys2Proof/Laws/CycleOps.lean ====
section
/-! SUPPORT. Lemmas of the cycle start, images and NV operations. -/

set_option linter.all false

namespace Sys2Proof.Machine

/-- The clock of the cycle: base, instant, train time, cycle count. -/
def clk (s : State) : Nat × Nat × DWord × Half := (s.cyc.base, s.cyc.phase, s.cyc.tt, s.cyc.cyc)

theorem Fr.clk {m : Nat} {s u : State} (h : Fr m s u) (a : m.testBit 4 = false) (b : m.testBit 5 = false) : clk u = clk s := by
  have p := h.phase a
  have q := h.cyc b
  have q1 := congrArg Cyc.base q
  have q2 := congrArg Cyc.tt q
  have q3 := congrArg Cyc.cyc q
  simp only at q1 q2 q3
  unfold Machine.clk
  rw [p, q1, q2, q3]

theorem Fr.cycp {m : Nat} {s u : State} (h : Fr m s u) (a : m.testBit 4 = false) (b : m.testBit 5 = false) : u.cyc = s.cyc := by
  have p := h.phase a
  have q := h.cyc b
  cases hu : u.cyc; cases hs : s.cyc; simp_all

theorem setMode_clk (m : TimeMode) (s : State) : clk (setMode m s) = clk s := by
  unfold setMode
  dsimp only
  split
  · rfl
  · exact ((raise_fr _ _ _).clk rfl rfl).trans rfl

theorem tfCycle_clk (s : State) : clk (tfCycle s) = clk s := rfl

theorem runCount_clk (s : State) : clk (runCount s) = clk s := by unfold runCount; split <;> rfl

theorem setMode_node (m : TimeMode) (s : State) : (setMode m s).pwr.node = s.pwr.node := (setMode_fr m).node rfl

theorem warmReset_node (s : State) : (warmReset s).pwr.node = .waking := rfl

theorem cycleTail_clk (s : State) : clk (cycleTail s) = clk s := by
  unfold cycleTail
  dsimp only
  have h1 : clk (revertControl (takeoverControl (tfCycle s))) = clk s :=
    (revertControl_fr.clk rfl rfl).trans ((takeoverControl_fr.clk rfl rfl).trans rfl)
  generalize revertControl (takeoverControl (tfCycle s)) = a at *
  have h2 : clk (if a.running then vectorApply a else a) = clk a := by
    split
    · exact vectorApply_fr.clk rfl rfl
    · rfl
  generalize (if a.running then vectorApply a else a) = b at *
  have h3 : clk (if macroPos b = 1 && b.running && b.cyc.runCycles = 2 then benchAge b else b) = clk b := by
    split
    · exact benchAge_fr.clk rfl rfl
    · rfl
  exact h3.trans (h2.trans h1)

theorem cycleSteps_clk (evs : List (Half × Byte)) (s : State) (h : s.pwr.node = .bringup → s.nv.ver.admitted = none) :
    (cycleSteps evs s).pwr.node = .waking ∨ clk (cycleSteps evs s) = clk s := by
  unfold cycleSteps
  dsimp only
  have a : Fr 0x121808 s (shCycle (forcesExpire (lockAge (cfgCheck (shadowsApply s))))) := by
    refine Fr.trans (Fr.weaken (by decide) shadowsApply_fr) ?_
    refine Fr.trans (Fr.weaken (by decide) cfgCheck_fr) ?_
    refine Fr.trans (Fr.weaken (by decide) lockAge_fr) ?_
    refine Fr.trans (Fr.weaken (by decide) forcesExpire_fr) ?_
    exact Fr.weaken (by decide) shCycle_fr
  generalize shCycle _ = b at *
  have hb : clk b = clk s := a.clk rfl rfl
  have hn : b.pwr.node = s.pwr.node := a.node rfl
  have hv : b.nv = s.nv := a.nv rfl
  have r : clk (runCount b) = clk s := (runCount_clk b).trans hb
  have hn2 : (runCount b).pwr.node = s.pwr.node := (runCount_fr.node rfl).trans hn
  have hv2 : (runCount b).nv = s.nv := (runCount_fr.nv rfl).trans hv
  generalize runCount b = c at *
  have hd : runDue c = c := by
    unfold runDue
    rw [hv2]
    cases hx : s.nv.ver.admitted with
    | none => rfl
    | some x =>
      dsimp only
      have : c.pwr.node ≠ .bringup := fun h' => by
        have := h (hn2.symm.trans h')
        rw [this] at hx
        cases hx
      rw [if_neg (by simp [this])]
  rw [hd]
  have r2 : clk (cmdsRun c) = clk s := (cmdsRun_fr.clk rfl rfl).trans r
  generalize cmdsRun c = d at *
  unfold resetDue
  split
  · left
    rw [if_neg (by simp [State.cycling, warmReset_node])]
    exact warmReset_node d
  · right
    split
    · exact (cycleTail_clk _).trans ((ordersRun_fr _ |>.clk rfl rfl).trans r2)
    · exact r2

theorem cycleBody_clk (evs : List (Half × Byte)) (s : State) (h : s.pwr.node = .bringup → s.nv.ver.admitted = none) :
    (cycleBody evs s).pwr.node = .waking ∨ clk (cycleBody evs s) = clk s := by
  unfold cycleBody
  split
  · right
    exact (cfgCheck_fr.clk rfl rfl).trans (shadowsApply_fr.clk rfl rfl)
  · split
    · exact cycleSteps_clk evs _ h
    · split
      · right
        exact quiesceEnter_fr.clk rfl rfl
      · exact cycleSteps_clk evs s h

theorem amendCycle_clk (s : State) (h : s.hg.amend = none) : amendCycle s = s := by unfold amendCycle; rw [h]

theorem cycleAdvance_clk (s : State) : clk (cycleAdvance s) = (s.cyc.base + (cycleNext s).1, 0, (cycleNext s).2.1, (cycleNext s).2.2) ∧
    (cycleAdvance s).pwr = s.pwr ∧ (cycleAdvance s).nv = s.nv ∧ (cycleAdvance s).hg = s.hg := by
  have hn : cycleNext { s with cyc := { s.cyc with phase := (cycleNext s).1 } } = cycleNext s := by
    unfold cycleNext
    cases hx : s.cyc.step with
    | none =>
      have : tCycle { s with cyc := { s.cyc with phase := max s.cyc.phase (tCycle s) } } = tCycle s := rfl
      simp only [this]
      congr 1
      omega
    | some x => simp only; congr 1; omega
  have h2 : ∀ (b : Bool) (x : State), (if b = true then vnEarlyEnd x else x).cyc = x.cyc ∧ (if b = true then vnEarlyEnd x else x).pwr = x.pwr ∧
      (if b = true then vnEarlyEnd x else x).nv = x.nv ∧ (if b = true then vnEarlyEnd x else x).hg = x.hg := by
    intro b x
    split
    · have k := vnEarlyEnd_fr (s := x)
      refine ⟨k.cycp rfl rfl, ?_, k.nv rfl, k.hg rfl⟩
      have a := k.node rfl
      have b := k.pwr rfl
      have c := k.doms rfl
      cases hu : (vnEarlyEnd x).pwr; cases hs : x.pwr; simp_all
    · exact ⟨rfl, rfl, rfl, rfl⟩
  unfold cycleAdvance
  dsimp only
  rw [hn]
  obtain ⟨a1, a2, a3, a4⟩ := h2 (s.cyc.step.elim false (fun x => decide (x.1 < tCycle s))) { s with cyc := { s.cyc with phase := (cycleNext s).1 } }
  refine ⟨?_, a2, a3, a4⟩
  unfold clk
  dsimp only
  rw [a1]

theorem cycleStart_clk (s : State) (h : s.cycling = true ∨ s.pwr.node = .quiesce) (h2 : s.pwr.node = .bringup → s.nv.ver.admitted = none) (h3 : s.hg.amend = none) :
    (cycleStart s).pwr.node = .waking ∨ clk (cycleStart s) = (s.cyc.base + (cycleNext s).1, 0, (cycleNext s).2.1, (cycleNext s).2.2) := by
  unfold cycleStart
  rw [if_pos (by rcases h with h | h <;> simp [h])]
  extract_lets evs s1
  obtain ⟨a, b, c, d⟩ := cycleAdvance_clk (eventsTake s)
  have e : (if s1.cycling then amendCycle s1 else s1) = s1 := by
    split
    · exact amendCycle_clk s1 (by show (cycleAdvance (eventsTake s)).hg.amend = _; rw [d]; exact h3)
    · rfl
  rw [e]
  rcases cycleBody_clk evs s1 (by show (cycleAdvance (eventsTake s)).pwr.node = _ → (cycleAdvance (eventsTake s)).nv.ver.admitted = none; rw [b, c]; exact h2) with k | k
  · exact .inl k
  · exact .inr (k.trans a)

theorem quiesceEnter_node (s : State) : (quiesceEnter s).pwr.node = .quiesce := by
  unfold quiesceEnter
  extract_lets s1 s2 s3
  have hs : ∀ y, (quiesceWrites (quiesceStops y)).pwr.node = y.pwr.node := by
    intro y
    refine (quiesceWrites_fr.node rfl).trans ?_
    exact quiesceStops_fr.node rfl
  rw [hs]
  refine ((sessionClose_fr _ _).node rfl).trans (((sessionClose_fr _ _).node rfl).trans ?_)
  refine ((revertCancel_fr _).node rfl).trans (((abandonCommands_fr _).node rfl).trans ((nvCut_fr.node rfl).trans ?_))
  show (transition .quiesce 15 (lateRequest s)).pwr.node = _
  rw [trans_pwr]

theorem switchInstant_clk (s : State) (t : Ttr) (ic : Word) (a : Nat) (h1 : s.hg.pendTtr = some (t, ic, a)) (h2 : s.hg.st = .awaitSwitch) (h3 : s.cycling = true)
    (h4 : s.pwr.node = .bringup → s.nv.ver.admitted = none) :
    (switchInstant s).pwr.node = .waking ∨ clk (switchInstant s) =
      (s.cyc.base + max s.cyc.phase (a - s.cyc.base), 0, s.cyc.tt + BitVec.ofNat 64 (max s.cyc.phase (a - s.cyc.base)), 0) := by
  unfold switchInstant
  rw [h1]
  dsimp only
  rw [if_pos (by simp [h2, h3])]
  generalize hx : switchCycle _ = x
  have hk : clk x = (s.cyc.base + max s.cyc.phase (a - s.cyc.base), 0, s.cyc.tt + BitVec.ofNat 64 (max s.cyc.phase (a - s.cyc.base)), 0) ∧ x.pwr.node = s.pwr.node ∧ x.nv = s.nv := by
    rw [← hx]
    unfold switchCycle
    extract_lets y z
    have hy : y.cyc = { s.cyc with phase := max s.cyc.phase (a - s.cyc.base) } := vnEarlyEnd_fr.cycp rfl rfl
    refine ⟨?_, ?_, ?_⟩
    · refine (setMode_clk _ _).trans ?_
      unfold clk
      show (y.cyc.base + y.cyc.phase, 0, y.cyc.tt + BitVec.ofNat 64 y.cyc.phase, (0 : Half)) = _
      rw [hy]
    · refine (setMode_node _ _).trans ?_
      exact vnEarlyEnd_fr.node rfl
    · refine ((setMode_fr _).nv rfl).trans ?_
      exact vnEarlyEnd_fr.nv rfl
  clear hx
  have f : Fr 0x3006C0 x (icountClose s.hg.icount (adopt .member t ic x)) :=
    Fr.trans (Fr.weaken (by decide) (adopt_fr _ _ _)) (Fr.weaken (by decide) (icountClose_fr _))
  generalize icountClose s.hg.icount (adopt .member t ic x) = w at *
  rcases cycleBody_clk s.gr.evNow w (by rw [f.node rfl, f.nv rfl, hk.2.1, hk.2.2]; exact h4) with k | k
  · exact .inl k
  · exact .inr (k.trans ((f.clk rfl rfl).trans hk.1))

theorem raise_cycs (c i : Nat) (d : List Word) (s : State) : (raise c i d s).cyc = s.cyc := by simp

theorem setMode_cm (m : TimeMode) (s : State) : (setMode m s).cyc = { s.cyc with mode := m } := by
  unfold setMode
  dsimp only
  split <;> simp

/-- The correction and the measurement, and the clock, stay. -/
def cm (s : State) : Int × Option Measure × Nat × Nat × DWord × Half := (s.cyc.corr, s.cyc.meas, s.cyc.base, s.cyc.phase, s.cyc.tt, s.cyc.cyc)

theorem cm_of {s u : State} (h : u.cyc = s.cyc) : cm u = cm s := by unfold cm; rw [h]

theorem setMode_cm2 (m : TimeMode) (s : State) : cm (setMode m s) = cm s := by unfold cm; rw [setMode_cm]

theorem withdrawal_cm (m : Option Measure) (s : State) : cm (withdrawal m s) = cm s := by
  unfold withdrawal
  split
  · rfl
  · split
    · split
      · dsimp only
        split
        · rfl
        · exact (cm_of (raise_cycs _ _ _ _)).trans rfl
      · split
        · dsimp only
          split
          · split
            · exact (cm_of (raise_cycs _ _ _ _)).trans rfl
            · rfl
          · split
            · exact (cm_of (raise_cycs _ _ _ _)).trans rfl
            · rfl
        · rfl
    · rfl

theorem rateUpdate_cm (m : Option Measure) (s : State) : cm (rateUpdate m s) = cm s := by
  unfold rateUpdate
  dsimp only
  repeat' split
  all_goals first
    | rfl
    | exact (setMode_cm2 _ _).trans rfl
    | exact (cm_of (raise_cycs _ _ _ _)).trans ((setMode_cm2 _ _).trans rfl)
    | exact (cm_of (raise_cycs _ _ _ _)).trans rfl

theorem modeSelect_cm (m : Option Measure) (s : State) : cm (modeSelect m s) = cm s := by
  unfold modeSelect
  dsimp only
  repeat' split
  all_goals first
    | rfl
    | exact (setMode_cm2 _ _).trans rfl
    | exact (cm_of (raise_cycs _ _ _ _)).trans ((setMode_cm2 _ _).trans rfl)
    | exact (cm_of (raise_cycs _ _ _ _)).trans rfl

theorem correctionInterval_cm (s : State) (h : s.cycling = true) : (correctionInterval s).cyc.corr = s.cyc.meas.elim s.cyc.corr appliedC ∧
    (correctionInterval s).cyc.meas = none ∧ (correctionInterval s).cyc.phase = max s.cyc.phase (tCycle s - 2000) := by
  have k : cm (correctionInterval s) = (s.cyc.meas.elim s.cyc.corr appliedC, none, s.cyc.base, max s.cyc.phase (tCycle s - 2000), s.cyc.tt, s.cyc.cyc) := by
    unfold correctionInterval
    rw [if_neg (by simp [h])]
    dsimp only
    refine (modeSelect_cm _ _).trans ((rateUpdate_cm _ _).trans ((withdrawal_cm _ _).trans ?_))
    split
    · exact (cm_of (raise_cycs _ _ _ _)).trans rfl
    · rfl
  unfold cm at k
  simp only [Prod.mk.injEq] at k
  exact ⟨k.1, k.2.1, k.2.2.2.1⟩

theorem nvReport_ver (a n : Nat) (s : State) : (nvReport a n s).nv.ver = s.nv.ver ∧ (nvReport a n s).nv.mem = s.nv.mem := by
  unfold nvReport
  generalize s.nv.errs = l
  induction l generalizing s with
  | nil => exact ⟨rfl, rfl⟩
  | cons e r ih =>
    rw [List.foldl_cons]
    refine ⟨(ih _).1.trans ?_, (ih _).2.trans ?_⟩ <;> (split <;> [split <;> simp; rfl])

theorem verifyReport_ver (a n : Nat) (s : State) : (verifyReport a n s).nv.ver = s.nv.ver ∧ (verifyReport a n s).pwr = s.pwr := by
  have k := verifyReport_fr (s := s) a n
  constructor
  · unfold verifyReport
    dsimp only
    split <;> exact (nvReport_ver _ _ _).1
  · have a' := k.node rfl
    have b := k.pwr rfl
    have c := k.doms rfl
    cases hu : (verifyReport a n s).pwr; cases hs : s.pwr; simp_all

theorem keys_nv (s : State) : (keyGone .e0 (keyGone .backbone (challenge .e0 (challenge .backbone s)))).nv = s.nv :=
  ((keyGone_fr _).nv rfl).trans (((keyGone_fr _).nv rfl).trans (((challenge_fr _).nv rfl).trans ((challenge_fr _).nv rfl)))

end Sys2Proof.Machine
end

