-- ==== Sys2Proof/Laws/HingeOps.lean ====
section
/-! SUPPORT. Lemmas of the Hinge: links, steps, probes, inauguration. -/

set_option linter.all false

namespace Sys2Proof.Machine

/-- What sending Hinge frames leaves alone. -/
def hk (s : State) : Hinge × Grid × Pwr × Cyc × Dev := ({ s.hg with queue := [], mseq := 0 }, s.gr, s.pwr, s.cyc, s.dev)

theorem hk_of {s u : State} (h : hk u = hk s) : u.gr = s.gr ∧ u.pwr = s.pwr ∧ u.cyc = s.cyc ∧ u.dev = s.dev ∧ u.hg.st = s.hg.st ∧ u.hg.ttr = s.hg.ttr ∧
    u.hg.icount = s.hg.icount ∧ u.hg.running = s.hg.running ∧ u.hg.lastCause = s.hg.lastCause ∧ u.hg.ports = s.hg.ports ∧ u.hg.heldSweeps = s.hg.heldSweeps ∧
    u.hg.pendTtr = s.hg.pendTtr ∧ u.hg.amend = s.hg.amend ∧ u.hg.fails = s.hg.fails ∧ u.hg.requests = s.hg.requests ∧ u.hg.probed = s.hg.probed ∧
    u.hg.refused = s.hg.refused ∧ u.hg.admitSends = s.hg.admitSends ∧ u.hg.coupling = s.hg.coupling := by
  unfold hk at h
  simp only [Prod.mk.injEq] at h
  obtain ⟨a, b, c, d, e⟩ := h
  exact ⟨b, c, d, e, (congrArg Hinge.st a :), (congrArg Hinge.ttr a :), (congrArg Hinge.icount a :), (congrArg Hinge.running a :), (congrArg Hinge.lastCause a :),
    (congrArg Hinge.ports a :), (congrArg Hinge.heldSweeps a :), (congrArg Hinge.pendTtr a :), (congrArg Hinge.amend a :), (congrArg Hinge.fails a :), (congrArg Hinge.requests a :),
    (congrArg Hinge.probed a :), (congrArg Hinge.refused a :), (congrArg Hinge.admitSends a :), (congrArg Hinge.coupling a :)⟩

theorem portStart_hk (p : Nat) (s : State) : hk (portStart p s) = hk s := by
  have ho : ∀ i (x : State), hk (originate i x) = hk x := by
    intro i x; unfold originate; split <;> rfl
  unfold portStart
  split
  · rfl
  · split
    · split <;> rfl
    · split
      · split <;> rfl
      · split
        · rfl
        · split
          · rfl
          · split
            · dsimp only
              split
              · exact ho _ _
              · exact ho _ _
            · rfl

theorem hingeSend_hk (p : Nat) (f : HingeFrame) (s : State) : hk (hingeSend p f s) = hk s := by
  unfold hingeSend
  split
  · rfl
  · split
    · rfl
    · exact portStart_hk _ _

theorem sends_hk (ports : List Nat) (f : State → Nat → HingeFrame) (s : State) : hk (ports.foldl (fun s p => hingeSend p (f s p) s) s) = hk s := by
  induction ports generalizing s with
  | nil => rfl
  | cons p l ih => rw [List.foldl_cons, ih]; exact hingeSend_hk _ _ _

theorem hingeOwn_hk (ports : List Nat) (ic : Word) (body : Nat → HingeBody) (s : State) : hk (hingeOwn ports ic body s) = hk s := by
  unfold hingeOwn
  exact sends_hk ports (fun s p => ⟨hingeHdr s p ic, body p⟩) s

theorem hingeFwd_hk (ports : List Nat) (h : HingeHdr) (body : HingeBody) (s : State) : hk (hingeFwd ports h body s) = hk s := by
  unfold hingeFwd
  exact sends_hk ports (fun s p => ⟨{ h with hops := h.hops + 1, flags := (hingeHdr s p h.icount).flags }, body⟩) s

theorem probePort_hk (p : Nat) (s : State) : hk (probePort p s) = hk s := hingeOwn_hk _ _ _ _

theorem stepPort_hk (p : Nat) (s : State) : hk (stepPort p s) = hk s := hingeOwn_hk _ _ _ _

/-- One frame on one port whose link is up, while no composition runs: it leaves at once. -/
theorem hingeOwn_wire (p : Nat) (ic : Word) (body : Nat → HingeBody) (s : State) (h1 : (s.hp p).speed ≠ 0) (h2 : s.hg.ttr.isNone = true) :
    (hingeOwn [p] ic body s).wire = s.wire ++ [.hinge p ⟨hingeHdr s p ic, body p⟩] := by
  unfold hingeOwn hingeSend
  simp only [List.foldl_cons, List.foldl_nil]
  rw [if_neg h1, if_pos h2]
  rfl

/-- The same while a composition runs, outside its message window: it waits. -/
theorem hingeOwn_queue (p : Nat) (ic : Word) (body : Nat → HingeBody) (s : State) (h1 : (s.hp p).speed ≠ 0) (h2 : s.hg.ttr.isNone = false) (h3 : s.tf.window = false) :
    (hingeOwn [p] ic body s).hg.queue = s.hg.queue ++ [(p, ⟨hingeHdr s p ic, body p⟩)] ∧ (hingeOwn [p] ic body s).hg.mseq = s.hg.mseq + 1 := by
  unfold hingeOwn hingeSend
  simp only [List.foldl_cons, List.foldl_nil]
  rw [if_neg h1, if_neg (by simp [h2])]
  rw [portStart_noWin _ _ (by exact h3)]
  exact ⟨rfl, rfl⟩

/-- Entering an inauguration of one's own: what `START` leaves. -/
theorem startOwn_hg (c : Byte) (s : State) (h1 : s.cycling = true) (h2 : s.hg.refused = false) :
    (startOwn c s).hg.st = .probing ∧ (startOwn c s).hg.running = s.hg.running + 1 ∧ (startOwn c s).hg.lastCause = c ∧ (startOwn c s).hg.ttr = none ∧
    (startOwn c s).hg.icount = 0 ∧ (startOwn c s).hg.fails = s.hg.fails ∧ Occurred 0x1000 0xFF (startOwn c s) ∧ EvsIn s (startOwn c s) := by
  unfold startOwn
  rw [if_neg (by simp [h1, h2])]
  extract_lets ic
  have k := hk_of (hingeOwn_hk (upPorts s) ic (fun _ => .start c) (inaugEnter ic c s))
  obtain ⟨g, _, _, _, a1, a2, a3, a4, a5, _, _, _, _, a6, _⟩ := k
  refine ⟨a1.trans rfl, a4.trans rfl, a5.trans rfl, a2.trans rfl, a3.trans rfl, ?_, ?_, ?_⟩
  · rw [a6]; simp [inaugEnter]
  · exact Occurred.mono (EvsIn.of_gr g) (raise_occurred 0x1000 0xFF _ s)
  · exact (raise_evsIn 0x1000 noInst _ s).trans (EvsIn.of_gr g)

theorem foldl_ports {α : Type} (l : List α) (g : State → α → State) (hg : ∀ s x, (g s x).hg.ports = s.hg.ports) (s : State) : (l.foldl g s).hg.ports = s.hg.ports := by
  induction l generalizing s with
  | nil => rfl
  | cons x l ih => exact (ih _).trans (hg _ _)

/-- The state with the frame marked as processed. -/
def heardOf (sub : Byte) (h : HingeHdr) (s : State) : State :=
  { s with hg := { s.hg with seen := s.hg.seen ++ [⟨sub, h.srcId, h.icount, h.mseq⟩] } }

theorem hingeRx_heard (sub : Byte) (p : Nat) (h : HingeHdr) (f : State → State) (s : State) (hh : Heard sub p h s) :
    hingeRx sub p h f s = f (heardOf sub h s) := by
  obtain ⟨h1, h2, h3, h4, h5⟩ := hh
  unfold hingeRx
  dsimp only
  rw [if_neg (by simp [h1, h2, h3, h4, h5])]
  rfl

theorem gives_heard {c : Instr} {sub : Byte} {t p : Nat} {h : HingeHdr} {f : State → State} {s : State} {P : State → Prop}
    (he : exec c s = act t (hingeRx sub p h f) s) (hh : Heard sub p h s) (hp : P { nvKick (f (heardOf sub h (begin_ t s))) with pending := s.pending }) :
    Gives c s P := by
  refine gives_of_act he ?_
  rw [hingeRx_heard sub p h f (begin_ t s) hh]
  exact hp

theorem hp_of {s u : State} (h : u.hg.ports = s.hg.ports) (p : Nat) : u.hp p = s.hp p := by unfold State.hp; rw [h]

theorem kick_hp (l : List Instr) (x : State) (p : Nat) : State.hp { nvKick x with pending := l } p = x.hp p := hp_of (by simp) p

theorem hpMod_hp (p : Nat) (f : HgPort → HgPort) (s : State) (h : p < s.hg.ports.length) : (hpMod p f s).hp p = f (s.hp p) := by
  unfold hpMod State.hp
  simp [List.getD_eq_getElem?_getD, List.getElem?_modify, h]

theorem hpMod_other (p q : Nat) (f : HgPort → HgPort) (s : State) (h : p ≠ q) : (hpMod p f s).hp q = s.hp q := by
  unfold hpMod State.hp
  simp [List.getD_eq_getElem?_getD, List.getElem?_modify, h]

theorem hpMod_len (p : Nat) (f : HgPort → HgPort) (s : State) : (hpMod p f s).hg.ports.length = s.hg.ports.length := by simp [hpMod]

theorem resettle_hp (p : Nat) (s : State) (h : p < s.hg.ports.length) : (resettle s).hp p = { s.hp p with settled := settledNow s (s.hp p) } := by
  unfold resettle State.hp
  simp [List.getD_eq_getElem?_getD, h]

theorem resettle_len (s : State) : (resettle s).hg.ports.length = s.hg.ports.length := by simp [resettle]

theorem ownLeave_hg (s : State) : (ownLeave s).hg = s.hg := ownLeave_fr.hg rfl

theorem msgLinkLost_ports (p : Nat) (s : State) : (msgLinkLost p s).hg = { s.hg with queue := s.hg.queue.filter (fun e => e.1 ≠ p) } := by
  unfold msgLinkLost
  dsimp only
  have h : ∀ {α : Type} (l : List α) (x : State), (l.foldl (fun s _ => ownLeave s) x).hg = x.hg := by
    intro α l
    induction l with
    | nil => intro x; rfl
    | cons a l ih => intro x; exact (ih _).trans (ownLeave_hg x)
  exact h _ _

theorem msgLinkLost_hp (p q : Nat) (s : State) : (msgLinkLost p s).hp q = s.hp q := hp_of (by rw [msgLinkLost_ports]) q

theorem portInUse_of {s u : State} (h1 : u.hg.ports = s.hg.ports) (h2 : u.pwr.node = s.pwr.node) (p : Nat) : portInUse u p = portInUse s p := by
  unfold portInUse lineInUse
  rw [h2, hp_of h1]

theorem sendUpdate_ports (s : State) : (sendUpdate s).hg.ports = s.hg.ports := by
  unfold sendUpdate
  split
  · rfl
  · split
    · rfl
    · exact (hk_of (hingeOwn_hk _ _ _ _)).2.2.2.2.2.2.2.2.2.1

theorem raise_ports (c i : Nat) (d : List Word) (s : State) : (raise c i d s).hg.ports = s.hg.ports := by simp

theorem uncouple_hg (front : Bool) (s : State) (h1 : s.cycling = true) (h2 : s.hg.refused = false) :
    (uncouple front s).hg.st = .probing ∧ (uncouple front s).hg.lastCause = 0x02 ∧ (uncouple front s).hg.running = s.hg.running + 1 ∧ Occurred 0x1000 0xFF (uncouple front s) := by
  unfold uncouple
  extract_lets y
  have k : y.pwr = s.pwr ∧ y.hg.refused = s.hg.refused ∧ y.hg.running = s.hg.running := by
    show ((sidePorts front).foldl _ s).pwr = _ ∧ ((sidePorts front).foldl _ s).hg.refused = _ ∧ ((sidePorts front).foldl _ s).hg.running = _
    cases front <;> exact ⟨rfl, rfl, rfl⟩
  have hc : (couplingSet front false y).cycling = true := by
    rw [← h1]; unfold State.cycling; rw [show (couplingSet front false y).pwr = s.pwr from k.1]
  obtain ⟨a1, a2, a3, _, _, _, a7, _⟩ := startOwn_hg 0x02 (couplingSet front false y) hc (by rw [← h2]; exact k.2.1)
  exact ⟨a1, a3, a2.trans (by show y.hg.running + 1 = _; rw [k.2.2]), a7⟩

theorem ite_ports {c : Prop} [Decidable c] {a b : State} {P : List HgPort} (ha : a.hg.ports = P) (hb : b.hg.ports = P) : (if c then a else b).hg.ports = P := by
  split <;> assumption

theorem admitRefused_hg (k : Byte) (s : State) : (admitRefused k s).hg.st = .unnumbered ∧ (admitRefused k s).hg.refused = true ∧ (admitRefused k s).pwr.relayA = false ∧
    (admitRefused k s).pwr.relayB = false ∧ Occurred 0x1022 0xFF (admitRefused k s) := by
  unfold admitRefused
  refine ⟨rfl, rfl, rfl, rfl, ?_⟩
  have h := raise_occurred 0x1022 0xFF [k.setWidth 32] s
  have e : (noInst : Nat) = 0xFF := rfl
  dsimp only
  rw [e]
  generalize raise 0x1022 0xFF [k.setWidth 32] s = x at h ⊢
  exact Occurred.mono (EvsIn.of_gr rfl) h

theorem linkUp_ports (p : Nat) (nbr : DWord) (s : State) (h1 : s.cycling = true) (h2 : (s.hp p).speed = 0) (h3 : (s.hp p).stepping = false)
    (h4 : nbr ≠ s.dev.nodeId) (h5 : p < s.hg.ports.length) : ((linkUp p nbr s).hp p).speed = 1 ∧ ((linkUp p nbr s).hp p).nbr = nbr ∧
    ((linkUp p nbr s).hp p).waiting = false := by
  unfold linkUp
  rw [if_neg (by simp [h1, h2, h3, h4])]
  dsimp only
  generalize hy : resettle _ = y
  have k : (y.hp p).speed = 1 ∧ (y.hp p).nbr = nbr ∧ (y.hp p).waiting = false := by
    rw [← hy, resettle_hp _ _ (by rw [hpMod_len]; exact h5), hpMod_hp _ _ _ h5]
    exact ⟨rfl, rfl, rfl⟩
  clear hy
  rw [hp_of (s := y) ?_ p]
  · exact k
  · have hs : ∀ x : State, (stepPort p x).hg.ports = x.hg.ports := fun x => (hk_of (stepPort_hk p x)).2.2.2.2.2.2.2.2.2.1
    have hpr : ∀ x : State, (probePort p x).hg.ports = x.hg.ports := fun x => (hk_of (probePort_hk p x)).2.2.2.2.2.2.2.2.2.1
    have hc : ∀ b v (x : State), (couplingSet b v x).hg.ports = x.hg.ports := fun _ _ _ => rfl
    with_reducible repeat' first
      | rfl
      | refine (hs _).trans ?_
      | refine (hpr _).trans ?_
      | refine (hc _ _ _).trans ?_
      | refine (raise_ports _ _ _ _).trans ?_
      | apply ite_ports

theorem exchange_hp (p rt res : Nat) (s : State) (h : (s.hp p).rttCount < 16) (hl : p < s.hg.ports.length) :
    ((exchange p rt res s).hp p).rttCount = (s.hp p).rttCount + 1 ∧ ((exchange p rt res s).hp p).rttSum = (s.hp p).rttSum + (rt - res) := by
  unfold exchange
  rw [if_neg (by omega)]
  dsimp only
  split
  · rw [hp_of (raise_ports _ _ _ _) p, hpMod_hp _ _ _ hl]
    exact ⟨rfl, rfl⟩
  · rw [hpMod_hp _ _ _ hl]
    exact ⟨rfl, rfl⟩

theorem probes_ports (l : List Nat) (s : State) : hk (l.foldl (fun s p => probePort p s) s) = hk s := by
  induction l generalizing s with
  | nil => rfl
  | cons p l ih => rw [List.foldl_cons, ih]; exact probePort_hk _ _

theorem probes_wire (l : List Nat) (s : State) (h2 : s.hg.ttr.isNone = true) : ∀ p ∈ l, (s.hp p).speed ≠ 0 →
    ∃ h, TxItem.hinge p ⟨h, .probe (BitVec.ofNat 8 p) (BitVec.ofNat 8 s.pwr.node.code) (heldHash s) (ownFp s)⟩ ∈ (l.foldl (fun s p => probePort p s) s).wire := by
  have mono1 : ∀ (q : Nat) (x : State) (i : TxItem), x.hg.ttr.isNone = true → i ∈ x.wire → i ∈ (probePort q x).wire := by
    intro q x i hx hi
    by_cases hq : (x.hp q).speed = 0
    · have : (probePort q x).wire = x.wire := by
        unfold probePort hingeOwn hingeSend
        simp only [List.foldl_cons, List.foldl_nil]
        rw [if_pos hq]
      rw [this]; exact hi
    · unfold probePort
      rw [hingeOwn_wire q _ _ x hq hx]
      exact List.mem_append_left _ hi
  have mono : ∀ (l : List Nat) (x : State) (i : TxItem), x.hg.ttr.isNone = true → i ∈ x.wire → i ∈ (l.foldl (fun s p => probePort p s) x).wire := by
    intro l
    induction l with
    | nil => intro x i _ hi; exact hi
    | cons q l ih =>
      intro x i hx hi
      rw [List.foldl_cons]
      exact ih _ i (by rw [(hk_of (probePort_hk q x)).2.2.2.2.2.1]; exact hx) (mono1 q x i hx hi)
  induction l generalizing s with
  | nil => intro p hp; cases hp
  | cons q l ih =>
    intro p hp hs
    rw [List.foldl_cons]
    have kk := hk_of (probePort_hk q s)
    have ht : (probePort q s).hg.ttr.isNone = true := by rw [kk.2.2.2.2.2.1]; exact h2
    by_cases hpq : p = q
    · subst hpq
      refine ⟨hingeHdr s p (ownCount s), mono l _ _ ht ?_⟩
      unfold probePort
      rw [hingeOwn_wire p _ _ s hs h2]
      exact List.mem_append_right _ (List.mem_singleton.mpr rfl)
    · have hp' : p ∈ l := by
        rcases List.mem_cons.mp hp with h | h
        · exact absurd h hpq
        · exact h
      obtain ⟨h, hh⟩ := ih (probePort q s) ht p hp' (by rw [hp_of kk.2.2.2.2.2.2.2.2.2.1]; exact hs)
      have e1 : (probePort q s).pwr = s.pwr := kk.2.1
      have e2 : heldHash (probePort q s) = heldHash s := by unfold heldHash; rw [kk.2.2.2.2.2.1]
      have e3 : ownFp (probePort q s) = ownFp s := by
        have f : (probePort q s).nv = s.nv := (probePort_fr _).nv rfl
        unfold ownFp State.runImage State.running State.image
        rw [f, kk.1, kk.2.1]
      rw [e1, e2, e3] at hh
      exact ⟨h, hh⟩

theorem refs_hk (l : List (DWord × Byte)) (s : State) : hk (l.foldl (fun s e => hingeOwn (upPorts s) s.hg.icount (fun _ => .admitRef e.1 e.2) s) s) = hk s := by
  induction l generalizing s with
  | nil => rfl
  | cons p l ih => rw [List.foldl_cons, ih]; exact hingeOwn_hk _ _ _ _

/-- What the origin does once the requests are taken (R150). -/
def amendTail (t : Ttr) (fps : List (DWord × Word)) (base : List TtrRec) (s : State) : State :=
  let fp := trainProfile fps base
  let recs := statuses s fps fp base
  if recs = t.recs then s
  else
    let new := { t with
      rev := t.rev + 1, flags := t.flags ||| 8, profileFp := fp, topoHash := topoHash recs, switchDly := 0
      adoptCyc := s.cyc.cyc + 16, recs := recs }
    hingeOwn (upPorts s) s.hg.icount (fun _ => .ttr new) { s with hg := { s.hg with amend := some new } }

theorem amendTail_hg (t : Ttr) (fps : List (DWord × Word)) (base : List TtrRec) (s : State) : (amendTail t fps base s).hg.requests = s.hg.requests ∧
    ((amendTail t fps base s).hg.amend = s.hg.amend ∨ ∃ new, (amendTail t fps base s).hg.amend = some new ∧ new.rev = t.rev + 1 ∧
      new.adoptCyc = s.cyc.cyc + 16 ∧ new.topoHash = topoHash new.recs ∧ new.recs ≠ t.recs) := by
  unfold amendTail
  dsimp only
  split
  · exact ⟨rfl, .inl rfl⟩
  · rename_i hne
    generalize hn : ({ t with rev := _, flags := _, profileFp := _, topoHash := _, switchDly := _, adoptCyc := _, recs := _ } : Ttr) = new
    obtain ⟨_, _, _, _, _, _, _, _, _, _, _, _, ma, _, mr, _⟩ := hk_of (hingeOwn_hk (upPorts s) s.hg.icount (fun _ => .ttr new) { s with hg := { s.hg with amend := some new } })
    refine ⟨mr, .inr ⟨new, ma, ?_⟩⟩
    rw [← hn]
    exact ⟨rfl, rfl, rfl, hne⟩

theorem originAmendment_hg (s : State) (t : Ttr) (h1 : s.hg.ttr = some t) (h2 : isOrigin s = true) (h3 : s.hg.amend = none) (h4 : s.hg.requests ≠ [])
    (h5 : s.cycling = true) : (originAmendment s).hg.requests = [] ∧ ((originAmendment s).hg.amend = none ∨
      ∃ new, (originAmendment s).hg.amend = some new ∧ new.rev = t.rev + 1 ∧ new.adoptCyc = s.cyc.cyc + 16 ∧ new.topoHash = topoHash new.recs ∧ new.recs ≠ t.recs) := by
  have e : ∃ l fps base x, originAmendment s = amendTail t fps base (List.foldl (fun s (e : DWord × Byte) => hingeOwn (upPorts s) s.hg.icount (fun _ => HingeBody.admitRef e.1 e.2) s) x l) ∧
      x.hg.requests = [] ∧ x.hg.amend = none ∧ x.cyc = s.cyc := by
    let r := s.hg.requests.foldl (takeRequest (s.image.elim 0 (fun im => im.profile.spares.toNat))) (t.recs, [])
    let fps := s.hg.requests.foldl (fun fps e =>
        fps.filter (fun x => x.1 ≠ e.2.own.nodeId) ++ [(e.2.own.nodeId, e.2.own.profileFp)]) s.hg.fps
    refine ⟨r.2, fps, r.1, { s with hg := { s.hg with requests := [], fps := fps } }, ?_, rfl, h3, rfl⟩
    unfold originAmendment
    rw [h1]
    dsimp only
    rw [if_neg (by simp [h2, h3, h4, h5])]
    rfl
  obtain ⟨l, fps, base, x, e, e1, e2, e3⟩ := e
  obtain ⟨_, _, kc, _, _, _, _, _, _, _, _, _, ka, _, kr, _⟩ := hk_of (refs_hk l x)
  rw [e]
  obtain ⟨a, b⟩ := amendTail_hg t fps base (List.foldl (fun s (e : DWord × Byte) => hingeOwn (upPorts s) s.hg.icount (fun _ => HingeBody.admitRef e.1 e.2) s) x l)
  rw [kc, e3, ka, e2] at b
  exact ⟨a.trans (kr.trans e1), b⟩

end Sys2Proof.Machine
end

