-- ==== Sys2Proof/Laws/CommandOps.lean ====
section
/-! SUPPORT. Lemmas of registers, drawers and the command path. -/

set_option linter.all false

namespace Sys2Proof.Machine

theorem drawerMod_of (n : Nat) (f : Drawer → Drawer) (s : State) (h : n < s.rg.drawers.length) : drawerOf (drawerMod n f s) n = f (drawerOf s n) := by
  unfold drawerOf drawerMod
  simp [List.getD_eq_getElem?_getD, List.getElem?_modify, h]

theorem drawer_of {s u : State} (h : u.rg.drawers = s.rg.drawers) (n : Nat) : drawerOf u n = drawerOf s n := by unfold drawerOf; rw [h]

theorem drawerGo_of (n : Nat) (v : View) (s : State) (h : n < s.rg.drawers.length) :
    (drawerOf (drawerGo n v s) n).cursor = v.cursor ∧ (drawerOf (drawerGo n v s) n).pos = v.pos ∧
    (drawerOf (drawerGo n v s) n).status = viewStatus (drawerOf s n).src v ||| 0x20 ∧ (drawerOf (drawerGo n v s) n).sel = (drawerOf s n).sel ∧
    (drawerOf (drawerGo n v s) n).win = (drawerOf s n).win := by
  unfold drawerGo
  rw [drawerMod_of _ _ _ h]
  exact ⟨rfl, rfl, rfl, rfl, rfl⟩

theorem nvReport_rg (a n : Nat) (s : State) : (nvReport a n s).rg = s.rg := by
  have h := nvReport_fr (s := s) a n
  have a1 := h.banks rfl
  have a2 := h.rg rfl
  cases hu : (nvReport a n s).rg; cases hs : s.rg; simp_all

theorem kick_drawer (l : List Instr) (x : State) (n : Nat) : drawerOf { nvKick x with pending := l } n = drawerOf x n := drawer_of (by simp) n

/-- The drawer that has loaded. -/
theorem drawerLoaded_of (n : Nat) (s : State) (h : n < s.rg.drawers.length) (h1 : (drawerOf s n).status.getLsbD 5 = true) :
    (drawerOf (drawerLoaded n s) n).win = (List.range 16).map (wordAt (viewNow s (drawerOf s n)).bytes) ∧
    (drawerOf (drawerLoaded n s) n).cursor = (viewNow s (drawerOf s n)).cursor ∧
    (drawerOf (drawerLoaded n s) n).status = viewStatus (drawerOf s n).src { viewNow s (drawerOf s n) with
      skipped := (viewNow s (drawerOf s n)).skipped || (drawerOf s n).status.getLsbD 4 } := by
  unfold drawerLoaded
  dsimp only
  rw [if_neg (by rw [h1]; decide)]
  generalize hv : viewNow s (drawerOf s n) = v
  generalize hy : (if (drawerOf s n).source = 2 then _ else _ : State) = y
  have hr : y.rg = s.rg := by
    rw [← hy]
    split
    · exact nvReport_rg _ _ _
    · split
      · exact nvReport_rg _ _ _
      · rfl
  have hd : drawerOf y n = drawerOf s n := drawer_of (by rw [hr]) n
  generalize hz : drawerMod n _ y = z
  have hw : drawerOf z n = { drawerOf s n with cursor := v.cursor, pos := v.pos, status := viewStatus (drawerOf s n).src { v with
      skipped := v.skipped || (drawerOf s n).status.getLsbD 4 }, win := (List.range 16).map (wordAt v.bytes) } := by
    rw [← hz, drawerMod_of _ _ _ (by rw [hr]; exact h), hd]
  have hf : ∀ (c : Prop) [Decidable c] (a : State), a.rg.drawers = z.rg.drawers → drawerOf (if c then a else z) n = drawerOf z n := by
    intro c _ a ha
    split
    · exact drawer_of ha n
    · rfl
  rw [hf _ _ (by simp), hw]
  exact ⟨rfl, rfl, rfl⟩

/-- The part of the logs that events do not touch: journal, queue, arming. -/
def lgCore (l : Logs) : Word × Option Nat × Option Arm × Option Arm × List JEntry × List QCmd := (l.jseq, l.lastAccept, l.oplArm, l.incArm, l.ring, l.execQ)

theorem oplAdd_core (r : Bool) (c : Half) (i : Byte) (d : List Word) (l : Logs) : lgCore (oplAdd r c i d l) = lgCore l := by
  unfold oplAdd
  split
  · rfl
  · split
    · rfl
    · dsimp only
      split <;> rfl

theorem incTrailer_core (l : Logs) : lgCore (incTrailer l) = lgCore l := by
  unfold incTrailer
  split
  · rfl
  · split
    · rfl
    · split
      · rfl
      · split <;> rfl

theorem incAdd_core (r : Bool) (o : Word) (p : BitVec 24) (c : Half) (i : Byte) (d : List Word) (l : Logs) : lgCore (incAdd r o p c i d l) = lgCore l := by
  unfold incAdd
  split
  · unfold incRepeat
    split
    · rfl
    · dsimp only
      split
      · exact (incTrailer_core _).trans rfl
      · rfl
  · dsimp only
    have k := incTrailer_core l
    generalize incTrailer l = m at *
    split
    · exact k
    · split
      · exact k
      · split
        · exact k
        · exact k

theorem noteEvent_core (c : Half) (i : Byte) (s : State) : lgCore (noteEvent c i s).lg = lgCore s.lg := by
  unfold noteEvent noteWindow
  dsimp only
  repeat' split
  all_goals rfl

theorem logOpl_core (r : Bool) (c : Half) (i : Byte) (d : List Word) (s : State) : lgCore (logOpl r c i d s).lg = lgCore s.lg := by
  unfold logOpl
  dsimp only
  split
  · exact (noteEvent_core _ _ _).trans ((incAdd_core _ _ _ _ _ _ _).trans (oplAdd_core _ _ _ _ _))
  · exact oplAdd_core _ _ _ _ _

theorem logInc_core (r : Bool) (c : Half) (i : Byte) (d : List Word) (s : State) : lgCore (logInc r c i d s).lg = lgCore s.lg := by
  unfold logInc
  dsimp only
  split
  · exact (noteEvent_core _ _ _).trans ((logOpl_core _ _ _ _ _).trans (incAdd_core _ _ _ _ _ _ _))
  · exact incAdd_core _ _ _ _ _ _ _

theorem raiseTo_core (l : EvLogs) (c : Half) (i : Byte) (d : List Word) (s : State) : lgCore (raiseTo l c i d s).lg = lgCore s.lg := by
  unfold raiseTo
  dsimp only
  have h1 := noteEvent_core c i s
  generalize noteEvent c i s = u at *
  have h2 : lgCore (if l.opl = true then logOpl l.rep c i d u else u).lg = lgCore u.lg := by
    split
    · exact logOpl_core _ _ _ _ _
    · rfl
  generalize (if l.opl = true then logOpl l.rep c i d u else u) = v at *
  split
  · exact (logInc_core _ _ _ _ _).trans (h2.trans h1)
  · exact h2.trans h1

/-- Events leave the journal, the execution queue and the arming of the logs alone. -/
theorem raise_core (c i : Nat) (d : List Word) (s : State) : lgCore (raise c i d s).lg = lgCore s.lg := raiseTo_core _ _ _ _ _

/-- What the command logs keep while the NV controller takes its next work. -/
def lk (s : State) : Word × Option Nat × Option Arm × Option Arm × List (Word × Byte × Path × List Word) × List (Word × Byte × Bool) :=
  (s.lg.jseq, s.lg.lastAccept, s.lg.oplArm, s.lg.incArm, s.lg.ring.map (fun e => (e.jseq, e.code, e.path, e.args)),
   s.rg.banks.map (fun b => (b.jseq, b.code, b.waiting.isSome)))

theorem lk_of {s u : State} (h1 : lgCore u.lg = lgCore s.lg) (h2 : u.rg.banks = s.rg.banks) : lk u = lk s := by
  unfold lk
  simp only [lgCore, Prod.mk.injEq] at h1
  obtain ⟨a, b, c, d, e, f⟩ := h1
  rw [a, b, c, d, e, h2]

theorem raise_lk (c i : Nat) (d : List Word) (s : State) : lk (raise c i d s) = lk s := lk_of (raise_core _ _ _ _) (by simp)

theorem cmdState_lk (q : Word) (st : Nat) (r : Byte) (d : Half) (s : State) : lk (cmdState q st r d s) = lk s := by
  unfold cmdState
  split
  · rfl
  · rename_i c hc
    unfold lk execPrune bankShow entryUpdate
    simp only [List.map_map, Prod.mk.injEq, true_and]
    refine ⟨?_, ?_⟩
    · apply List.map_congr_left
      intro e _
      simp only [Function.comp]
      split <;> rfl
    · apply List.ext_getElem?
      intro i
      simp only [List.getElem?_map, List.getElem?_modify]
      cases s.rg.banks[i]? with
      | none => rfl
      | some b =>
        simp only [Option.map_eq_map, Option.map_some]
        congr 1
        split
        · split <;> split <;> rfl
        · rfl

theorem jobEnd_lk (r : Byte) (d : Half) (s : State) : lk (jobEnd r d s) = lk s := by
  unfold jobEnd
  split
  · rfl
  · exact (cmdState_lk _ _ _ _ _).trans rfl

theorem nvReport_lk (a n : Nat) (s : State) : lk (nvReport a n s) = lk s := by
  unfold nvReport
  generalize s.nv.errs = l
  induction l generalizing s with
  | nil => rfl
  | cons e r ih =>
    rw [List.foldl_cons]
    refine (ih _).trans ?_
    split
    · split
      · exact (raise_lk _ _ _ _).trans rfl
      · exact (raise_lk _ _ _ _).trans rfl
    · rfl

theorem refPick_lk (n : Nat) (s : State) : lk (refPick n s) = lk s := by
  induction n generalizing s with
  | zero => rfl
  | succ n ih =>
    unfold refPick
    split
    · rfl
    · dsimp only
      split
      · unfold refEnd
        exact (jobEnd_lk _ _ _).trans (raise_lk _ _ _ _)
      · split
        · exact (ih _).trans rfl
        · split
          · refine (ih _).trans ?_
            exact (show lk (jobMod _ _) = lk (nvReport _ _ _) from rfl).trans (nvReport_lk _ _ _)
          · rfl

theorem jobBegin_lk (c : QCmd) (s : State) : lk (jobBegin c s) = lk s := by
  unfold jobBegin
  dsimp only
  generalize hs : cmdState c.ent.jseq 3 0 0 { s with nv := _ } = u
  have h1 : lk u = lk s := by
    rw [← hs]
    exact (cmdState_lk _ _ _ _ _).trans rfl
  refine Eq.trans ?_ h1
  split
  · rfl
  split
  · split
    · exact (jobEnd_lk _ _ _).trans (raise_lk _ _ _ _)
    · rfl
  split
  · unfold verifierPower
    split <;> rfl
  split
  · exact refPick_lk _ _
  split
  · split
    · rfl
    · exact jobEnd_lk _ _ _
  split <;> rfl

theorem programStart_lk (s : State) : lk (programStart s) = lk s := by
  unfold programStart
  split
  · split
    · rfl
    split
    · rfl
    split
    · exact (jobBegin_lk _ _).trans rfl
    · rfl
  · rfl

theorem nvTake_lk (n : Nat) (s : State) : lk (nvTake n s) = lk s := by
  induction n generalizing s with
  | zero => rfl
  | succ n ih =>
    have h : lk (programStart (chkLoad (jnvLoad s))) = lk s := by
      refine (programStart_lk _).trans ?_
      have h1 : lk (jnvLoad s) = lk s := by
        unfold jnvLoad
        split <;> rfl
      refine Eq.trans ?_ h1
      unfold chkLoad
      split
      · split <;> rfl
      · rfl
    unfold nvTake
    dsimp only
    refine Eq.trans ?_ h
    split
    · unfold incReject
      exact (ih _).trans ((raise_lk _ _ _ _).trans rfl)
    · split <;> rfl

theorem nvKick_lk (s : State) : lk (nvKick s) = lk s := by
  unfold nvKick
  split
  · exact nvTake_lk _ _
  · rfl

theorem nvKick_jseq (s : State) : (nvKick s).lg.jseq = s.lg.jseq := congrArg (fun k => k.1) (nvKick_lk s)

theorem nvKick_lastAccept (s : State) : (nvKick s).lg.lastAccept = s.lg.lastAccept := congrArg (fun k => k.2.1) (nvKick_lk s)

theorem nvKick_oplArm (s : State) : (nvKick s).lg.oplArm = s.lg.oplArm := congrArg (fun k => k.2.2.1) (nvKick_lk s)

theorem nvKick_incArm (s : State) : (nvKick s).lg.incArm = s.lg.incArm := congrArg (fun k => k.2.2.2.1) (nvKick_lk s)

theorem nvKick_ring (s : State) : (nvKick s).lg.ring.map (fun e => (e.jseq, e.code, e.path, e.args)) = s.lg.ring.map (fun e => (e.jseq, e.code, e.path, e.args)) :=
  congrArg (fun k => k.2.2.2.2.1) (nvKick_lk s)

theorem nvKick_banks (s : State) : (nvKick s).rg.banks.map (fun b => (b.jseq, b.code, b.waiting.isSome)) = s.rg.banks.map (fun b => (b.jseq, b.code, b.waiting.isSome)) :=
  congrArg (fun k => k.2.2.2.2.2) (nvKick_lk s)

theorem bankMod_of (p : Path) (f : CmdBank → CmdBank) (s : State) (h : s.rg.banks.length = 3) : bankOf (bankMod p f s) p = f (bankOf s p) := by
  have hp : pathBank p < s.rg.banks.length := by rw [h]; cases p <;> decide
  unfold bankOf bankMod
  simp [List.getD_eq_getElem?_getD, List.getElem?_modify, hp]

theorem cmdRefusal_bank (q p : Path) (f : CmdBank → CmdBank) (s : State) (c : Byte) (a : List Word) : cmdRefusal (bankMod q f s) p c a = cmdRefusal s p c a := rfl

theorem cmdGive_enters (code : Byte) (p : Path) (args : List Word) (s : State) (hl : s.rg.banks.length = 3) (h1 : pathOpen s p = true)
    (h2 : (bankOf s p).state ≠ 1) (h3 : spacingOver s = true) (h4 : cmdRefusal s p code args = none) :
    ∃ x, cmdGive code p args s = cmdEnter p code args x ∧ x.lg = s.lg ∧ x.rg.banks.length = 3 ∧ x.cyc = s.cyc ∧ (bankOf x p).code = code := by
  unfold cmdGive
  rw [if_pos h1]
  unfold cmdSubmit
  dsimp only
  have hb : bankOf (bankMod p (fun b => { b with args := args }) s) p = { bankOf s p with args := args } := bankMod_of p _ s hl
  rw [if_neg (by rw [hb]; exact h2)]
  generalize hx : bankMod p (fun b => { b with code := code, state := 1, result := 0, detail := 0, waiting := some (code, b.args) }) (bankMod p (fun b => { b with args := args }) s) = x
  have e1 : x.lg = s.lg := by rw [← hx]; rfl
  have e2 : x.rg.banks.length = 3 := by rw [← hx]; simp [bankMod, hl]
  have e3 : x.cyc = s.cyc := by rw [← hx]; rfl
  have e4 : (bankOf x p).code = code ∧ (bankOf x p).waiting = some (code, args) := by
    rw [← hx, bankMod_of _ _ _ (by simp [bankMod, hl]), hb]; exact ⟨rfl, rfl⟩
  have e5 : spacingOver x = true := by rw [← h3, ← hx]; rfl
  have e6 : cmdRefusal x p code args = none := by rw [← h4, ← hx, cmdRefusal_bank, cmdRefusal_bank]
  refine ⟨x, ?_, e1, e2, e3, e4.1⟩
  rw [if_pos e5]
  unfold cmdJudge
  rw [e4.2]
  dsimp only
  rw [e6]

theorem cmdEnter_lg (code : Byte) (p : Path) (args : List Word) (s : State) (hl : s.rg.banks.length = 3) :
    (cmdEnter p code args s).lg.jseq = s.lg.jseq + 1 ∧ (cmdEnter p code args s).lg.lastAccept = some s.now ∧ (bankOf (cmdEnter p code args s) p).jseq = s.lg.jseq ∧
    (bankOf (cmdEnter p code args s) p).code = (bankOf s p).code ∧ (bankOf (cmdEnter p code args s) p).waiting = none ∧
    ∃ e ∈ (cmdEnter p code args s).lg.ring, e.jseq = s.lg.jseq ∧ e.code = code ∧ e.path = p ∧ e.args = args := by
  unfold cmdEnter
  dsimp only
  rw [bankMod_of p _ _ (by exact hl)]
  refine ⟨rfl, rfl, rfl, rfl, rfl, ?_⟩
  generalize he : (⟨s.lg.jseq, code, p, cmdPersist code, false, 2, 0, 0, s.cyc.cyc, s.pwr.opsec, args⟩ : JEntry) = e
  refine ⟨e, ?_, by rw [← he], by rw [← he], by rw [← he], by rw [← he]⟩
  have hd : ∀ (k : Nat), 2048 = k → e ∈ List.drop ((s.lg.ring ++ [e]).length - k) (s.lg.ring ++ [e]) := by
    intro k hk
    rw [List.drop_append]
    apply List.mem_append_right
    rw [List.length_append, List.length_singleton, show s.lg.ring.length + 1 - k - s.lg.ring.length = 0 from by omega, List.drop_zero]
    exact List.mem_singleton.mpr rfl
  have h2 := hd 2048 (by omega)
  rw [bankMod_lg]
  dsimp only
  exact h2

theorem bank_kept {s u : State} (h : u.rg.banks.map (fun b => (b.jseq, b.code, b.waiting.isSome)) = s.rg.banks.map (fun b => (b.jseq, b.code, b.waiting.isSome))) (p : Path) :
    (bankOf u p).jseq = (bankOf s p).jseq ∧ (bankOf u p).code = (bankOf s p).code ∧ (bankOf u p).waiting.isSome = (bankOf s p).waiting.isSome := by
  have k := congrArg (fun l => l[pathBank p]?) h
  simp only [List.getElem?_map] at k
  unfold bankOf
  rw [List.getD_eq_getElem?_getD, List.getD_eq_getElem?_getD]
  cases hu : u.rg.banks[pathBank p]? <;> cases hs : s.rg.banks[pathBank p]? <;> rw [hu, hs] at k <;> simp_all

theorem entered_kick (code : Byte) (p : Path) (args : List Word) (t : Nat) (s x : State) (e2 : x.rg.banks.length = 3) (e1 : x.lg = s.lg)
    (e3 : x.cyc = { s.cyc with phase := max s.cyc.phase t }) (e4 : (bankOf x p).code = code) :
    Entered code p args t s { nvKick (cmdEnter p code args x) with pending := s.pending } := by
  obtain ⟨k1, k2, k3, k4, k5, w, k6, k7⟩ := cmdEnter_lg code p args x e2
  have b := bank_kept (s := cmdEnter p code args x) (u := { nvKick (cmdEnter p code args x) with pending := s.pending }) (nvKick_banks _) p
  refine ⟨(nvKick_jseq _).trans (k1.trans (by rw [e1])), (nvKick_lastAccept _).trans (k2.trans ?_), b.1.trans (k3.trans (by rw [e1])),
    b.2.1.trans (k4.trans e4), ?_, ?_⟩
  · unfold State.now; rw [e3]
  · have := b.2.2
    rw [k5] at this
    revert this
    cases (bankOf { nvKick (cmdEnter p code args x) with pending := s.pending } p).waiting <;> simp
  · have hm := List.mem_map_of_mem (f := fun (e : JEntry) => (e.jseq, e.code, e.path, e.args)) k6
    rw [← nvKick_ring] at hm
    obtain ⟨w', m1, m2⟩ := List.mem_map.mp hm
    simp only [Prod.mk.injEq] at m2
    obtain ⟨m2, m3, m4, m5⟩ := m2
    exact ⟨w', m1, m2.trans (k7.1.trans (by rw [e1])), m3.trans k7.2.1, m4.trans k7.2.2.1, m5.trans k7.2.2.2⟩

theorem gives_entered {c : Instr} {t : Nat} {code : Byte} {p : Path} {args : List Word} {s : State} (hi : Inv s) (he : exec c s = act t (cmdGive code p args) s)
    (h : Accepts code p args t s) : Gives c s (Entered code p args t s) := by
  obtain ⟨h1, h2, h3, h4⟩ := h
  refine gives_of_act he ?_
  obtain ⟨x, e, e1, e2, e3, e4⟩ := cmdGive_enters code p args (begin_ t s) hi.banks h1 h2 h3 h4
  rw [e]
  exact entered_kick code p args t s x e2 e1 e3 e4

theorem Drawer.src_le (d : Drawer) : d.src ≤ 4 := by unfold Drawer.src; split <;> omega

theorem viewStatus_busy (n : Nat) (v : View) (h : n ≤ 4) : (viewStatus n v).getLsbD 5 = false := by
  unfold viewStatus w32
  have hb : ∀ a b c d e f : Bool, (BitVec.ofNat 32 (bitsOf [a, b, c, d, e, false, f] + 256 * n)).getLsbD 5 = false := by
    intro a b c d e f
    interval_cases n <;> revert a b c d e f <;> decide
  exact hb _ _ _ _ _ _

theorem mergeBits_all (o d : Word) : mergeBits o (0xFFFFFFFF &&& 0xFFFFFFFF) d = d := by
  unfold mergeBits
  have h : (0xFFFFFFFF &&& 0xFFFFFFFF : Word) = BitVec.allOnes 32 := by decide
  rw [h]
  simp
  exact BitVec.and_allOnes (x := d)

theorem accessWrite_scratch (d : Word) (x : State) : accessWrite .host 0x34 d x = (0, { x with rg := { x.rg with scratch := d } }) := by
  unfold accessWrite
  rw [if_neg (by decide), show reachOf 0x34 = .whole 0x34 from by decide]
  dsimp only
  unfold regWrite
  have hs : writeStatus x .host 0x34 = 0 := by
    unfold writeStatus
    rw [show hostPoolReg 0x34 = false from by decide, show hostWindow 0x34 = false from by decide, show writeOf 0x34 = (.rw, 0xFFFFFFFF) from by decide]
    simp
  rw [hs, show writeOf 0x34 = (.rw, 0xFFFFFFFF) from by decide]
  dsimp only
  rw [if_neg (by decide), if_neg (by decide), mergeBits_all]
  rfl

theorem transact_write (h d : Word) (x : State) (h2 : headerOk h = true) (h3 : headerOp h = 2) :
    transact h d (hostCrc h d) x = ((accessWrite .host (h.toNat % 2 ^ 20) d x).1, 0, (accessWrite .host (h.toNat % 2 ^ 20) d x).2) := by
  unfold transact
  rw [h2, h3, if_neg (by decide), if_neg (by simp), if_neg (by decide)]

theorem transact_read (h d : Word) (x : State) (h2 : headerOk h = true) (h3 : headerOp h = 1) :
    transact h d (hostCrc h d) x = accessRead .host (h.toNat % 2 ^ 20) x := by
  unfold transact
  rw [h2, h3, if_neg (by decide), if_neg (by simp), if_pos rfl]

end Sys2Proof.Machine
end

