-- ==== Sys2Proof/Laws/InBandOps.lean ====
section
/-! SUPPORT. Lemmas of in-band access. -/

set_option linter.all false

namespace Sys2Proof.Machine

theorem kick_session (l : List Instr) (x : State) (p : Path) : State.session { nvKick x with pending := l } p = x.session p := by
  unfold State.session; cases p <;> simp

theorem session_put (p : Path) (x : Option Session) (s : State) : (sessionPut p x s).session p = x := by
  unfold State.session sessionPut; cases p <;> rfl

theorem session_of {s u : State} (h : u.rg = s.rg) (p : Path) : u.session p = s.session p := by
  unfold State.session; rw [h]

theorem Fr.rgp {m : Nat} {s u : State} (h : Fr m s u) (a : m.testBit 19 = false) (b : m.testBit 20 = false) : u.rg = s.rg := by
  have p := h.banks a
  have q := h.rg b
  cases hu : u.rg; cases hs : s.rg; simp_all

theorem pduSend_rg (p : Path) (q : BitVec 48) (b : Bytes) (s : State) : (pduSend p q b s).rg = s.rg := (pduSend_fr p q b).rgp rfl rfl

theorem sessionDrop_of (p : Path) (r : Nat) (s : State) (h : (s.session p).isSome = true) : (sessionDrop p r s).session p = none ∧ Occurred 0x9004 (pathCode p) (sessionDrop p r s) := by
  unfold sessionDrop
  cases p
  all_goals (
    simp only [State.session] at h ⊢
    rw [if_neg (by intro hn; simp_all)]
    exact ⟨by simp, raise_occurred _ _ _ _⟩)

theorem cmdDone_fr2 (c : QCmd) (r d : Nat) (s : State) : Fr 0x80000 s (cmdDone c r d s) := Fr.weaken (by decide) (cmdDone_fr _ _ _)

theorem cmdDone_evsIn (c : QCmd) (r d : Nat) (s : State) : EvsIn s (cmdDone c r d s) := cmdState_evsIn _ _ _ _ _

theorem cmdDone_tf (c : QCmd) (r d : Nat) (s : State) : (cmdDone c r d s).tf = s.tf := (cmdDone_fr2 c r d s).tf rfl

theorem cmdDone_ch (c : QCmd) (r d : Nat) (s : State) (n : Nat) : (cmdDone c r d s).chan n = s.chan n := chan_of ((cmdDone_fr2 c r d s).ch rfl) n

theorem shCommand_st (v p : Nat) (s : State) (h1 : s.running = true) (h2 : v = 1 ∨ v = 2) : (shCommand v p s).sh.st = if v = 1 then .guarded else .open_ := by
  have hs : ∀ st p (x : State), (shSet st p x).sh.st = st := by
    intro st p x; unfold shSet; dsimp only; split <;> simp
  have hb : (!s.running || decide (2 < v)) = false := by
    rw [h1]; rcases h2 with h | h <;> rw [h] <;> decide
  unfold shCommand
  rw [hb]
  simp only [Bool.false_eq_true, if_false]
  rw [if_neg (by omega)]
  split
  · rw [raise_sh]; exact hs _ _ _
  · exact hs _ _ _

theorem cmdRun_force (c : QCmd) (s : State) (h : c.ent.code = 0x06) : cmdRun c s = cmdDone c 0 0
    (if (c.ent.args.getD 0 0).toNat / 256 = 1 then forceStart ((c.ent.args.getD 0 0).toNat % 256) (c.ent.args.getD 1 0).toNat (c.ent.args.getD 2 0).toNat s
     else forceEnd ((c.ent.args.getD 0 0).toNat % 256) 2 s) := by
  unfold cmdRun
  rw [h]
  rfl

theorem cmdRun_arm (c : QCmd) (s : State) (h : c.ent.code = 0x0B) (h1 : (c.ent.args.getD 1 0).toNat = 1) : cmdRun c s = cmdDone c 0 0 (logArmSet (c.ent.args.getD 0 0).toNat c.ent.path s) := by
  have e : cmdRun c s = if (c.ent.args.getD 1 0).toNat = 1 then cmdDone c 0 0 (logArmSet (c.ent.args.getD 0 0).toNat c.ent.path s) else logClear c (c.ent.args.getD 0 0).toNat s := by
    unfold cmdRun
    rw [h]
    rfl
  rw [e, if_pos h1]

end Sys2Proof.Machine
end

