-- ==== Sys2Proof/Laws/LogOps.lean ====
section
/-! SUPPORT. Lemmas of event latches, the OPL and the task start. -/

set_option linter.all false

namespace Sys2Proof.Machine

theorem latchBits_bit (code : Half) : ∀ (l : List Word) (k : Nat), (latchBits l code).getLsbD k = (decide (k < 16) && decide (k < l.length) && latchMatches (l.getD k 0) code)
  | [], k => by simp [latchBits]
  | m :: r, k => by
    unfold latchBits
    rw [BitVec.getLsbD_or, BitVec.getLsbD_shiftLeft]
    cases k with
    | zero =>
      simp
      split <;> rename_i h <;> simp [h]
    | succ k =>
      rw [show k + 1 - 1 = k from rfl, latchBits_bit code r k]
      have h0 : (if latchMatches m code = true then (1 : Half) else 0).getLsbD (k + 1) = false := by
        split
        · simp
        · simp
      rw [h0]
      simp
      by_cases h : k + 1 < 16
      · simp [h, show k < 16 by omega]
      · simp [h]

/-- From `s` to `u` the latches keep their words, no hit is lost, and a latch without a mask is left alone. -/
def HitStep (s u : State) : Prop := u.lg.evMatch = s.lg.evMatch ∧ ∀ k, (s.lg.evHit.getLsbD k = true → u.lg.evHit.getLsbD k = true) ∧
  (((s.lg.evMatch.getD k 0) >>> (16 : Nat)).setWidth 16 = (0 : Half) → u.lg.evHit.getLsbD k = s.lg.evHit.getLsbD k)

theorem HitStep.refl (s : State) : HitStep s s := ⟨rfl, fun _ => ⟨fun h => h, fun _ => rfl⟩⟩

theorem HitStep.trans {s u v : State} (h : HitStep s u) (g : HitStep u v) : HitStep s v :=
  ⟨g.1.trans h.1, fun k => ⟨fun x => (g.2 k).1 ((h.2 k).1 x), fun x => ((g.2 k).2 (by rw [h.1]; exact x)).trans ((h.2 k).2 x)⟩⟩

theorem HitStep.of_lg {s u : State} (h1 : u.lg.evMatch = s.lg.evMatch) (h2 : u.lg.evHit = s.lg.evHit) : HitStep s u :=
  ⟨h1, fun _ => by rw [h2]; exact ⟨fun h => h, fun _ => rfl⟩⟩

theorem noteWindow_lg (c : Half) (i : Byte) (s : State) : (noteWindow c i s).lg = s.lg := by
  unfold noteWindow
  split <;> split <;> rfl

theorem noteEvent_hit (c : Half) (i : Byte) (s : State) : HitStep s (noteEvent c i s) := by
  unfold noteEvent
  dsimp only
  rw [noteWindow_lg]
  refine ⟨rfl, fun k => ⟨fun h => ?_, fun h => ?_⟩⟩
  · show (s.lg.evHit ||| _).getLsbD k = true
    rw [BitVec.getLsbD_or, h]; rfl
  · show (s.lg.evHit ||| _).getLsbD k = _
    rw [BitVec.getLsbD_or, latchBits_bit]
    have : latchMatches (s.lg.evMatch.getD k 0) c = false := by unfold latchMatches; rw [h]; simp
    rw [this]; simp

theorem oplAdd_hit (r : Bool) (c : Half) (i : Byte) (d : List Word) (l : Logs) : (oplAdd r c i d l).evMatch = l.evMatch ∧ (oplAdd r c i d l).evHit = l.evHit := by
  unfold oplAdd
  split
  · exact ⟨rfl, rfl⟩
  split
  · exact ⟨rfl, rfl⟩
  dsimp only
  split <;> exact ⟨rfl, rfl⟩

theorem incTrailer_hit (l : Logs) : (incTrailer l).evMatch = l.evMatch ∧ (incTrailer l).evHit = l.evHit := by
  unfold incTrailer
  split
  · exact ⟨rfl, rfl⟩
  split
  · exact ⟨rfl, rfl⟩
  split
  · exact ⟨rfl, rfl⟩
  split <;> exact ⟨rfl, rfl⟩

theorem incAdd_hit (r : Bool) (o : Word) (p : BitVec 24) (c : Half) (i : Byte) (d : List Word) (l : Logs) : (incAdd r o p c i d l).evMatch = l.evMatch ∧ (incAdd r o p c i d l).evHit = l.evHit := by
  unfold incAdd
  obtain ⟨a, b⟩ := incTrailer_hit l
  split
  · unfold incRepeat
    split
    · exact ⟨rfl, rfl⟩
    · rename_i x hx
      dsimp only
      split
      · exact incTrailer_hit { l with incLast := some { x with count := min 65535 (x.count + 1), opsec := o, pcyc := p } }
      · exact ⟨rfl, rfl⟩
  · dsimp only
    split
    · exact ⟨a, b⟩
    · split
      · exact ⟨a, b⟩
      · split <;> exact ⟨a, b⟩

theorem logOpl_hit (r : Bool) (c : Half) (i : Byte) (d : List Word) (s : State) : HitStep s (logOpl r c i d s) := by
  unfold logOpl
  dsimp only
  obtain ⟨a, b⟩ := oplAdd_hit r c i d s.lg
  split
  · refine HitStep.trans (u := { s with lg := incAdd false s.pwr.opsec s.pwr.pcyc 0x9043 0xFF [] (oplAdd r c i d s.lg) }) ?_ (noteEvent_hit _ _ _)
    obtain ⟨e, f⟩ := incAdd_hit false s.pwr.opsec s.pwr.pcyc 0x9043 0xFF [] (oplAdd r c i d s.lg)
    exact HitStep.of_lg (e.trans a) (f.trans b)
  · exact HitStep.of_lg a b

theorem logInc_hit (r : Bool) (c : Half) (i : Byte) (d : List Word) (s : State) : HitStep s (logInc r c i d s) := by
  unfold logInc
  dsimp only
  obtain ⟨a, b⟩ := incAdd_hit r s.pwr.opsec s.pwr.pcyc c i d s.lg
  split
  · refine HitStep.trans (u := { s with lg := incAdd r s.pwr.opsec s.pwr.pcyc c i d s.lg }) (HitStep.of_lg a b) ?_
    exact HitStep.trans (logOpl_hit _ _ _ _ _) (noteEvent_hit _ _ _)
  · exact HitStep.of_lg a b

theorem raiseTo_hit (l : EvLogs) (c : Half) (i : Byte) (d : List Word) (s : State) : HitStep (noteEvent c i s) (raiseTo l c i d s) := by
  unfold raiseTo
  dsimp only
  generalize noteEvent c i s = u
  have h : HitStep u (if l.opl = true then logOpl l.rep c i d u else u) := by
    split
    · exact logOpl_hit _ _ _ _ _
    · exact HitStep.refl _
  refine h.trans ?_
  generalize (if l.opl = true then logOpl l.rep c i d u else u) = v
  split
  · exact logInc_hit _ _ _ _ _
  · exact HitStep.refl _

theorem incTrailer_opl (l : Logs) : incTrailer { l with oplFull := true } = { incTrailer l with oplFull := true } ∧ (incTrailer l).opl = l.opl := by
  have f : ∀ n, incFits { l with oplFull := true } n = incFits l n := fun _ => rfl
  have r : ∀ n, incRoom { l with oplFull := true } n = incRoom l n := fun _ => rfl
  unfold incTrailer
  rw [f, r]
  dsimp only
  split
  · exact ⟨rfl, rfl⟩
  split
  · exact ⟨rfl, rfl⟩
  split
  · exact ⟨rfl, rfl⟩
  split <;> exact ⟨rfl, rfl⟩

theorem incAdd_both (o : Word) (p : BitVec 24) (c : Half) (i : Byte) (d : List Word) (l : Logs) :
    incAdd false o p c i d { l with oplFull := true } = { incAdd false o p c i d l with oplFull := true } ∧ (incAdd false o p c i d l).opl = l.opl := by
  obtain ⟨h1, h2⟩ := incTrailer_opl l
  unfold incAdd
  simp only [Bool.false_and, Bool.false_eq_true, if_false]
  rw [h1]
  generalize incTrailer l = m at h2 ⊢
  have f : ∀ n, incFits { m with oplFull := true } n = incFits m n := fun _ => rfl
  have r : ∀ n, incRoom { m with oplFull := true } n = incRoom m n := fun _ => rfl
  rw [f, r]
  dsimp only
  rw [← h2]
  split
  · exact ⟨rfl, rfl⟩
  split
  · exact ⟨rfl, rfl⟩
  split <;> exact ⟨rfl, rfl⟩

theorem incAdd_oplFull (r : Bool) (o : Word) (p : BitVec 24) (c : Half) (i : Byte) (d : List Word) (l : Logs) (h : r = false := by rfl) :
    incAdd r o p c i d { l with oplFull := true } = { incAdd r o p c i d l with oplFull := true } := by rw [h]; exact (incAdd_both o p c i d l).1

theorem incAdd_opl (r : Bool) (o : Word) (p : BitVec 24) (c : Half) (i : Byte) (d : List Word) (l : Logs) (h : r = false := by rfl) :
    (incAdd r o p c i d l).opl = l.opl := by rw [h]; exact (incAdd_both o p c i d l).2

end Sys2Proof.Machine
end

