-- ==== Sys2Proof/Laws/MeasureOps.lean ====
section
/-! SUPPORT. Lemmas of supplies, captures and temperatures. -/

set_option linter.all false

namespace Sys2Proof.Machine

def msBase (s : State) := (s.ms.bat, s.ms.iin, s.ms.hu, s.ms.batSum, s.ms.batCount)

theorem dipClose_base (k : Nat) (s : State) : msBase (dipClose k s) = msBase s := by
  unfold dipClose; dsimp only; split <;> simp [msBase, clsPut]

theorem intClose_base (k : Nat) (s : State) : msBase (intClose k s) = msBase s := by
  unfold intClose; dsimp only; split
  · split
    · simp [msBase, clsPut]
    · split <;> simp [msBase, clsPut]
  · rfl

theorem surgeClose_base (k : Nat) (s : State) : msBase (surgeClose k s) = msBase s := by
  unfold surgeClose; dsimp only; split <;> simp [msBase, clsPut]

theorem overClose_base (k : Nat) (s : State) : msBase (overClose k s) = msBase s := by
  unfold overClose; dsimp only; split <;> simp [msBase, clsPut]

theorem supplySample_base (b i h : BitVec 12) (s : State) (hs : supplyAdcOn s = true) :
    msBase (supplySample b i h s) = (b, i, h, s.ms.batSum + b.toNat, s.ms.batCount + 1) := by
  unfold supplySample
  rw [if_neg (by simp [hs])]
  dsimp only
  split
  · rfl
  · rw [overClose_base, surgeClose_base, intClose_base, dipClose_base]
    rfl

theorem ite_raise_ms (p : Prop) [Decidable p] (c i : Nat) (w : List Word) (y : State) : (if p then raise c i w y else y).ms = y.ms := by
  split <;> simp

theorem groupSample_ms (g : Nat) (v : BitVec 10) (s : State) : (groupSample g v s).ms.groups = s.ms.groups.set g v := by
  unfold groupSample
  dsimp only
  rw [ite_raise_ms]

theorem railSample_ms (g : Nat) (v : BitVec 12) (s : State) : (railSample g v s).ms.rails = s.ms.rails.set g v := by
  unfold railSample
  dsimp only
  rw [ite_raise_ms]

theorem selectUn_p (un : Nat) (b : Bool) (s : State) : (selectUn un b s).ms.un = un ∧ (selectUn un b s).ms.unBySel = b ∧ Occurred 0x7006 0xFF (selectUn un b s) :=
  ⟨by simp [selectUn], by simp [selectUn], raise_occurred _ _ _ _⟩

end Sys2Proof.Machine
end

