-- ==== Sys2Proof/Laws/PlanOps.lean ====
section
/-! SUPPORT. Lemmas of the power plan, vehicle and core entries of the grid. -/

set_option linter.all false

namespace Sys2Proof.Machine

theorem vsyncSend_vn (st : Star) (s : State) : (vsyncSend st s).vn = s.vn := by
  unfold vsyncSend
  generalize List.range 12 = l
  induction l generalizing s with
  | nil => rfl
  | cons a l ih =>
    rw [List.foldl_cons, ih]
    split
    · dsimp only; rw [emit_vn]
    · rfl

theorem vnCycleEnd_len (s : State) : True := trivial

/-- What `VN_READ` publishes is not changed by its counters. -/
def vnPub (s : State) := (s.vn.pub, s.vn.pubPrev, s.vn.running, s.vn.cyc)

theorem brMod_pub (b : Nat) (f : Branch → Branch) (s : State) : vnPub (brMod b f s) = vnPub s := rfl

theorem guardianCut_pub (b : Nat) (s : State) : vnPub (guardianCut b s) = vnPub s := by
  unfold guardianCut
  split
  · rfl
  · dsimp only
    split <;> simp [vnPub, guardCount, brMod, gotMod]

theorem foldCut_pub (p : State → Nat → Bool) (l : List Nat) (s : State) :
    vnPub (l.foldl (fun s b => if p s b then guardianCut b s else s) s) = vnPub s := by
  induction l generalizing s with
  | nil => rfl
  | cons a l ih =>
    rw [List.foldl_cons, ih]
    split
    · exact guardianCut_pub _ _
    · rfl

theorem guardianCut_cyc (b : Nat) (s : State) : (guardianCut b s).cyc = s.cyc := by
  unfold guardianCut
  split
  · rfl
  · dsimp only
    split <;> simp [guardCount, brMod, gotMod]

theorem foldCut_cyc (p : State → Nat → Bool) (l : List Nat) (s : State) :
    (l.foldl (fun s b => if p s b then guardianCut b s else s) s).cyc = s.cyc := by
  induction l generalizing s with
  | nil => rfl
  | cons a l ih =>
    rw [List.foldl_cons, ih]
    split
    · exact guardianCut_cyc _ _
    · rfl

theorem slotCount_pub (st : Star) (k c : Nat) (s : State) : vnPub (slotCount st k c s) = vnPub s := by
  unfold slotCount
  dsimp only
  split_ifs <;> simp [vnPub, brMod]

theorem integrate_pub (a : Bool) (b : Nat) (s : State) : vnPub (integrate a b s) = vnPub s := by
  unfold integrate
  dsimp only
  split_ifs <;> simp [vnPub, brMod]

theorem foldCount_pub (st : Star) (l : List (Nat × Nat)) (s : State) : vnPub (l.foldl (fun s e => slotCount st e.2 e.1 s) s) = vnPub s := by
  induction l generalizing s with
  | nil => rfl
  | cons a l ih => rw [List.foldl_cons, ih, slotCount_pub]

theorem foldInt_pub (g : Nat → Option Bool) (l : List Nat) (s : State) (F : State → Nat → State)
    (hF : ∀ s b, F s b = s ∨ ∃ a, F s b = integrate a b s) : vnPub (l.foldl F s) = vnPub s := by
  induction l generalizing s with
  | nil => rfl
  | cons a l ih =>
    rw [List.foldl_cons, ih]
    rcases hF s a with h | ⟨x, h⟩ <;> rw [h]
    exact integrate_pub _ _ _

theorem vnReadFire_p (e : GridEntry) (st : Star) (s : State) (h1 : usable s 12 = true) (h2 : s.star = some st) (h3 : s.vn.running = true) :
    (vnReadFire e s).vn.pub.cyc = s.vn.cyc ∧ (vnReadFire e s).vn.pub.valid = true ∧ (vnReadFire e s).vn.pub.at_ = s.now ∧
    (vnReadFire e s).vn.pubPrev = s.vn.pub := by
  unfold vnReadFire onDomain
  rw [if_pos h1]
  simp only [h2, h3, Bool.not_true, Bool.false_eq_true, if_false]
  generalize hx : List.foldl (fun s b => if ((s.branch b).rx).elim false (fun r => !r.dynamic) = true then guardianCut b s else s) s (List.range 12) = x
  have hb : vnPub x = vnPub s := by
    rw [← hx]
    exact foldCut_pub (fun s b => ((s.branch b).rx).elim false (fun r => !r.dynamic)) _ _
  have hc : x.cyc = s.cyc := by
    rw [← hx]
    exact foldCut_cyc (fun s b => ((s.branch b).rx).elim false (fun r => !r.dynamic)) _ _
  clear hx
  have fin : ∀ z, vnPub z = ({ slots := (List.range 64).map (fun k => if k < st.nS then slotPub x st k else {}), cyc := x.vn.cyc, valid := true, at_ := x.now }, x.vn.pub, x.vn.running, x.vn.cyc) →
      z.vn.pub.cyc = s.vn.cyc ∧ z.vn.pub.valid = true ∧ z.vn.pub.at_ = s.now ∧ z.vn.pubPrev = s.vn.pub := by
    intro z hz
    simp only [vnPub, Prod.mk.injEq] at hz hb
    rw [hz.1, hz.2.1]
    exact ⟨hb.2.2.2, rfl, by simp [State.now, hc], hb.1⟩
  apply fin
  rw [foldInt_pub (fun _ => none) _ _ _ (fun s b => by
    by_cases h : (ownedSlots st b).isEmpty = true
    · left; rw [if_pos h]
    · right; exact ⟨_, if_neg h⟩), foldCount_pub]
  rfl

theorem planFire_dom (l : Level) (e : GridEntry) (s : State) (h : planned e.target.toNat = true) (hd : e.target.toNat < s.pwr.doms.length) :
    ((planFire l e s).dom e.target.toNat).ctrl = l := by
  unfold planFire
  rw [if_pos h]
  simp [planSwitch, State.dom, List.getD_eq_getElem?_getD, hd]

theorem planned_ne (d : Nat) (h : planned d = true) : d ≠ 35 ∧ d < 128 := by
  simp [planned] at h
  omega

theorem activeCore_of {s x : State} (h : x.cr = s.cr) : activeCore x = activeCore s := by unfold activeCore; rw [h]

theorem benchDecide_slot (s : State) : (benchDecide s).bn.slot = s.bn.slot := by
  unfold benchDecide
  split
  · split
    · rfl
    · split
      · rfl
      · rfl
  · rfl

theorem rxcData_mod (f : Core → Core) (s : State) : rxcData (dataCoreMod f s) = rxcData s := by
  unfold dataCoreMod
  split <;> rfl

theorem dataCoreMod_data (f : Core → Core) (s : State) : dataCore (dataCoreMod f s) = f (dataCore s) := by
  unfold dataCore
  rw [rxcData_mod]
  unfold dataCoreMod
  cases rxcData s <;> rfl

theorem dataCore_of {s x : State} (h : x.cr = s.cr) : dataCore x = dataCore s := by unfold dataCore rxcData; rw [h]

theorem dmaCorrect_p (l : List (Nat × Bool)) (s : State) : (dmaCorrect l s).tf = s.tf ∧ (dmaCorrect l s).vn = s.vn ∧
    (dmaCorrect l s).gr.img = s.gr.img ∧ (dataCore (dmaCorrect l s)).data = (dataCore s).data ∧ (dataCore (dmaCorrect l s)).lost = (dataCore s).lost ∧
    rxcData (dmaCorrect l s) = rxcData s := by
  unfold dmaCorrect
  induction l generalizing s with
  | nil => exact ⟨rfl, rfl, rfl, rfl, rfl, rfl⟩
  | cons a l ih =>
    rw [List.foldl_cons]
    obtain ⟨a1, a2, a3, a4, a5, a6⟩ := ih (raise 0x8107 noInst [] (dataCoreMod (wordClean (4 * a.1)) s))
    rw [a1, a2, a3, a4, a5, a6]
    have hr : rxcData (dataCoreMod (wordClean (4 * a.1)) s) = rxcData s := by
      unfold dataCoreMod
      split <;> rfl
    refine ⟨?_, ?_, ?_, ?_, ?_, ?_⟩
    · simp [dataCoreMod]; split <;> rfl
    · simp [dataCoreMod]; split <;> rfl
    · simp [dataCoreMod]; split <;> rfl
    · rw [dataCore_of (raise_cr _ _ _ _), dataCoreMod_data]; rfl
    · rw [dataCore_of (raise_cr _ _ _ _), dataCoreMod_data]; rfl
    · unfold rxcData
      rw [raise_cr]
      exact hr

theorem dmaFire_ok (e : GridEntry) (d : DmaDesc) (s : State) (h1 : (s.image.elim [] Image.dma)[e.target.toNat]? = some d) (h2 : dmaMissing s d = none)
    (h3 : (dmaErrs s d).any (fun x => x.2) = false) : dmaFire e s = dmaStore d (dmaSource s d) (dmaCorrect (dmaErrs s d) s) := by
  unfold dmaFire
  rw [h1]
  dsimp only
  rw [h2]
  dsimp only
  rw [h3]
  simp

theorem dmaStore_win (d : DmaDesc) (b : Bytes) (l : List (Nat × Bool)) (s : State) (h : d.dst = 1) :
    (dmaStore d b (dmaCorrect l s)).tf.win = winBytes s d.dstAddr b := by
  obtain ⟨a1, a2, a3, a4, a5, a6⟩ := dmaCorrect_p l s
  unfold dmaStore
  rw [h]
  show winBytes (dmaCorrect l s) d.dstAddr b = _
  unfold winBytes State.image
  rw [a1, a3]

theorem dmaStore_slot (d : DmaDesc) (b : Bytes) (l : List (Nat × Bool)) (s : State) (h : d.dst = 3) (j : Nat) (hl : j < s.vn.txBuf.length) :
    (dmaStore d b (dmaCorrect l s)).vn.txBuf.getD j {} =
      if j = Config.dmaSlot d.dstAddr then slotPut (Config.dmaOffset d.dstAddr) b (s.vn.txBuf.getD j {}) else s.vn.txBuf.getD j {} := by
  obtain ⟨a1, a2, a3, a4, a5, a6⟩ := dmaCorrect_p l s
  unfold dmaStore
  rw [h]
  show ((dmaCorrect l s).vn.txBuf.modify _ _).getD _ _ = _
  rw [getD_modify, a2]
  by_cases hk : j = Config.dmaSlot d.dstAddr
  · subst hk
    rw [if_pos ⟨rfl, hl⟩, if_pos rfl]
  · rw [if_neg hk, if_neg (fun e => hk e.1)]

theorem dataPutBytes_data (a : Nat) (b : Bytes) (c c' : Core) (h1 : c.data = c'.data) (h2 : c.lost = c'.lost) :
    (dataPutBytes a b c).data = (dataPutBytes a b c').data := by
  induction b generalizing a c c' with
  | nil => exact h1
  | cons x r ih =>
    unfold dataPutBytes
    refine ih _ _ _ ?_ ?_
    · simp [dataPut, dataDefault, h1, h2]
    · exact h2

theorem dmaStore_data (d : DmaDesc) (b : Bytes) (l : List (Nat × Bool)) (s : State) (h : d.dst = 0) :
    (dataCore (dmaStore d b (dmaCorrect l s))).data = (dataPutBytes d.dstAddr b (dataCore s)).data := by
  obtain ⟨a1, a2, a3, a4, a5, a6⟩ := dmaCorrect_p l s
  unfold dmaStore
  rw [h]
  show (dataCore (dataCoreMod _ _)).data = _
  rw [dataCoreMod_data]
  exact dataPutBytes_data _ _ _ _ a4 a5

end Sys2Proof.Machine
end

