-- ==== Sys2Proof/Laws/RunFrame.lean ====
section
/-! SUPPORT. Lemmas of the frames of JNIS instructions, apart from a yield. -/

set_option linter.all false

namespace Sys2Proof.Machine

/-- What an instruction's work may be: it ran on, within the mask, or it yielded. -/
def Ran (m : Nat) (s u : State) : Prop :=
  (Fr m s u ∧ CoreKept s u) ∨ (s.cr.active ≠ 2 ∧ u.cr.active = 2 ∧ Fr (m ||| 7395078) s u)

theorem CoreKept.refl (s : State) : CoreKept s s := ⟨rfl, fun _ => rfl, fun _ => rfl, rfl⟩

theorem CoreKept.trans {s u v : State} (h : CoreKept s u) (k : CoreKept u v) : CoreKept s v :=
  ⟨k.active.trans h.active, fun a => (k.pxc (by rw [h.active]; exact a)).trans (h.pxc a),
   fun a => (k.rxc (by rw [h.active]; exact a)).trans (h.rxc a), k.rest.trans h.rest⟩

theorem within_left (a b : Nat) : within a (a ||| b) = true := by
  unfold within; rw [beq_iff_eq]; apply Nat.eq_of_testBit_eq; intro i
  simp only [Nat.testBit_and, Nat.testBit_or]; cases a.testBit i <;> simp

theorem within_right (a b : Nat) : within b (a ||| b) = true := by rw [Nat.or_comm]; exact within_left b a

theorem Ran.refl (m : Nat) (s : State) : Ran m s s := .inl ⟨Fr.refl _ _, CoreKept.refl _⟩

theorem Ran.trans {m : Nat} {s u v : State} (h : Ran m s u) (k : Ran m u v) : Ran m s v := by
  rcases h with ⟨h1, h2⟩ | ⟨h1, h2, h3⟩ <;> rcases k with ⟨k1, k2⟩ | ⟨k1, k2, k3⟩
  · exact .inl ⟨h1.trans k1, h2.trans k2⟩
  · exact .inr ⟨by rw [← h2.active]; exact k1, k2, (h1.weaken (within_left _ _)).trans k3⟩
  · exact .inr ⟨h1, by rw [k2.active]; exact h2, h3.trans (k1.weaken (within_left _ _))⟩
  · exact absurd h2 k1

theorem Ran.any {m : Nat} {s u : State} (h : Ran m s u) : Fr (m ||| 7395078) s u := by
  rcases h with ⟨h, _⟩ | ⟨_, _, h⟩
  · exact h.weaken (within_left _ _)
  · exact h

theorem Ran.fr {a m : Nat} {s x y : State} (ham : within a m = true) (hb : a.testBit 15 = false) (hy : Fr a x y) (hx : Ran m s x) : Ran m s y :=
  hx.trans (.inl ⟨hy.weaken ham, by
    have e := hy.cr hb
    exact ⟨by rw [e], fun _ => by rw [e], fun _ => by rw [e], by rw [e]⟩⟩)

theorem Ran.ite {m : Nat} {c : Prop} [Decidable c] {s x y : State} (hx : Ran m s x) (hy : Ran m s y) : Ran m s (if c then x else y) := by
  split
  · exact hx
  · exact hy

theorem Ran.act {m : Nat} {s x : State} {f : Core → Core} (hm : within 32768 m = true) (hx : Ran m s x) : Ran m s (activeMod f x) := by
  refine hx.trans (.inl ⟨(activeMod_fr f).weaken hm, ?_⟩)
  unfold activeMod
  split
  · rename_i h
    exact ⟨rfl, fun a => absurd h a, fun _ => rfl, rfl⟩
  · split
    · rename_i h
      exact ⟨rfl, fun _ => rfl, fun a => absurd h a, rfl⟩
    · exact CoreKept.refl _

theorem Ran.yieldAt {m c i e : Nat} {s x : State} (hx : Ran m s x) : Ran m s (yieldAt c i e x) := by
  by_cases h : x.cr.active = 2
  · have e0 : Machine.yieldAt c i e x = x := by unfold Machine.yieldAt; rw [if_pos h]
    rw [e0]; exact hx
  · exact hx.trans (.inr ⟨h, congrArg Prod.fst (yieldAt_base c i e x h).1, (yieldAt_fr _ _ _).weaken (within_right _ _)⟩)

theorem Ran.yieldNow {m c : Nat} {s x : State} (hx : Ran m s x) : Ran m s (yieldNow c x) := by
  unfold Machine.yieldNow
  split
  · exact hx
  · rename_i k hk
    split
    · exact hx.yieldAt
    · by_cases h : x.cr.active = 2
      · unfold activeCore at hk; rw [h] at hk; exact absurd hk (by simp)
      · exact hx.trans (.inr ⟨h, congrArg Prod.fst (yieldAt_base _ _ _ (drawn x) h).1, Fr.trans (drawn_fr.weaken (within_trans (by decide) (within_right _ _))) ((yieldAt_fr _ _ _).weaken (within_right _ _))⟩)

theorem Ran.taskTime {m e : Nat} {s x : State} (hm : within 32768 m = true) (hx : Ran m s x) : Ran m s (taskTime e x) := hx.act hm

theorem Ran.continueFrom {m p : Nat} {s x : State} (hm : within 32768 m = true) (hx : Ran m s x) : Ran m s (continueFrom p x) := by
  unfold Machine.continueFrom
  split
  · exact hx
  · dsimp only
    exact .ite ((hx.act hm).taskTime hm).yieldAt ((hx.act hm).taskTime hm)

theorem Ran.jump {m p : Nat} {f : Core → Core} {s x : State} (hm : within 32768 m = true) (hx : Ran m s x) : Ran m s (jump p f x) := hx.act hm

theorem Ran.coreOp {m : Nat} {f : Core → Core} {c : Core} {s x : State} (hm : within 32768 m = true) (hx : Ran m s x) : Ran m s (coreOp f c x) := (hx.act hm).continueFrom hm

theorem Ran.refuse {m op k : Nat} {o : Word} {d : BitVec 5} {z : Bool} {s x : State} (hm : within 32768 m = true) (hx : Ran m s x) : Ran m s (refuse op o d k z x) :=
  Ran.fr (a := 0) (by unfold within; simp) (by decide) (refusedEvent_fr _ _) (hx.act hm)

theorem Ran.bufRefused {m fn b k : Nat} {d : BitVec 5} {s x : State} (hm : within 32768 m = true) (hx : Ran m s x) : Ran m s (bufRefused fn b d k x) :=
  Ran.fr (a := 0) (by unfold within; simp) (by decide) (raise_fr _ _ _) (hx.act hm)

theorem Ran.raise {m c i : Nat} {l : List Word} {s x : State} (hx : Ran m s x) : Ran m s (raise c i l x) :=
  Ran.fr (a := 0) (by unfold within; simp) (by decide) (raise_fr _ _ _) hx

theorem Ran.memRead {m n : Nat} {a : BitVec 5} {imm : Half} {f : Nat → Core → Core} {c : Core} {s x : State} (hm : within 32768 m = true) (hx : Ran m s x) :
    Ran m s (memRead n a imm f c x) := by
  unfold Machine.memRead
  dsimp only
  refine .ite hx.yieldNow ?_
  split
  · exact hx.yieldNow
  · exact hx.raise.coreOp hm
  · exact hx.coreOp hm

/-- An instruction's work, from the state before it. -/
theorem Ran.instr {m n : Nat} {f : Core → State → State} (hm : within 32784 m = true) (hf : ∀ c s x, Ran m s x → Ran m s (f c x)) (s : State) : Ran m s (instr n f s) := by
  unfold Machine.instr
  split
  · exact .refl _ _
  · refine .ite (.refl _ _) (hf _ _ _ (.taskTime (within_trans (by decide) hm) (Ran.fr (within_trans (by decide) hm) (by decide) (atEdge_fr _ _) (.refl _ _))))

theorem Ran.legal {m : Nat} {ok : Bool} {f : Core → State → State} {c : Core} (hf : ∀ c s x, Ran m s x → Ran m s (f c x)) (s x : State) (hx : Ran m s x) : Ran m s (legal ok f c x) := by
  unfold Machine.legal
  exact .ite (hf _ _ _ hx) hx.yieldNow

theorem Ran.service {m : Nat} {ok : Bool} {f : Core → State → State} (hm : within 32784 m = true) (hf : ∀ c s x, Ran m s x → Ran m s (f c x)) (s : State) : Ran m s (service ok f s) :=
  .instr hm (fun _ s x hx => .legal (fun _ _ _ h => (hf _ _ _ h).continueFrom (within_trans (by decide) hm)) s x hx) s

theorem act_ran {m : Nat} {f : State → State} {s u : State} (hm : within (2883604 ||| 32768) m = true) (hf : ∀ s, Ran m s (f s))
    (h : act 0 f s = .next u) : Ran m s u := by
  cases h
  have hb : Ran m s (begin_ 0 s) := Ran.fr (within_trans (by decide) hm) (by decide) (begin__fr 0) (.refl _ _)
  have hk := Ran.fr (within_trans (by decide) hm) (by decide) (nvKick_fr (s := f (begin_ 0 s))) (hb.trans (hf _))
  rcases hk with ⟨k1, k2⟩ | ⟨k1, k2, k3⟩
  · exact .inl ⟨{ k1 with pending := fun _ => rfl }, ⟨k2.active, k2.pxc, k2.rxc, k2.rest⟩⟩
  · exact .inr ⟨k1, k2, { k3 with pending := fun _ => rfl }⟩

/-- The frame of an instruction from that of its work. -/
theorem jframe {c : Instr} {f : State → State} (ps qs : List Part) (he : ∀ s, exec c s = act 0 f s) (hm : within (2883604 ||| 32768) (mask (always ++ .cr :: ps)) = true)
    (hq : within (mask (always ++ .cr :: ps) ||| 7395078) (mask (always ++ qs)) = true) (hf : ∀ s, Ran (mask (always ++ .cr :: ps)) s (f s)) : RunsOn ps c ∧ Touches qs c := by
  refine ⟨fun s u h ha => ?_, fun s u h => (act_ran hm hf (by rw [← he]; exact h)).any.weaken hq⟩
  rcases act_ran hm hf (by rw [← he]; exact h) with k | ⟨k1, k2, _⟩
  · exact k
  · exact absurd (ha.symm.trans k2) k1

theorem Ran.tf {m : Nat} {s x : State} {v : Tf} (hm : within 128 m = true) (hx : Ran m s x) : Ran m s { x with tf := v } :=
  Ran.fr hm (by decide) (by constructor <;> first | exact fun h => absurd h (by decide) | exact fun _ => rfl) hx

theorem Ran.vn {m : Nat} {s x : State} {v : Vn} (hm : within 256 m = true) (hx : Ran m s x) : Ran m s { x with vn := v } :=
  Ran.fr hm (by decide) (by constructor <;> first | exact fun h => absurd h (by decide) | exact fun _ => rfl) hx

theorem Ran.sh {m : Nat} {s x : State} {v : Shut} (hm : within 2048 m = true) (hx : Ran m s x) : Ran m s { x with sh := v } :=
  Ran.fr hm (by decide) (by constructor <;> first | exact fun h => absurd h (by decide) | exact fun _ => rfl) hx

theorem Ran.chk {m : Nat} {s x : State} {v : Bool} (hm : within 262144 m = true) (hx : Ran m s x) : Ran m s { x with nv := { x.nv with chkPending := v } } :=
  Ran.fr hm (by decide) (by constructor <;> first | exact fun h => absurd h (by decide) | exact fun _ => rfl) hx

theorem twwOp_ran {m : Nat} {d a : BitVec 5} {f : Bool} {k : Byte} {c : Core} {s x : State} (hm : within (128 ||| 32768) m = true) (hx : Ran m s x) : Ran m s (twwOp d a f k c x) := by
  unfold twwOp
  dsimp only
  split
  · exact hx.refuse (within_trans (by decide) hm)
  · exact (hx.tf (within_trans (by decide) hm)).act (within_trans (by decide) hm)

theorem tnulOp_ran {m : Nat} {c : Core} {s x : State} (hm : within (128 ||| 32768) m = true) (hx : Ran m s x) : Ran m s (tnulOp c x) :=
  (hx.tf (within_trans (by decide) hm)).act (within_trans (by decide) hm)

theorem awakeOp_ran {m : Nat} {d a : BitVec 5} {c : Core} {s x : State} (hm : within (128 ||| 32768) m = true) (hx : Ran m s x) : Ran m s (awakeOp d a c x) :=
  (hx.tf (within_trans (by decide) hm)).act (within_trans (by decide) hm)

theorem vrcvDynamicOp_ran {m : Nat} {d : BitVec 5} {c : Core} {s x : State} (hm : within (256 ||| 1024 ||| 32768) m = true) (hx : Ran m s x) : Ran m s (vrcvDynamicOp d c x) := by
  unfold vrcvDynamicOp
  split
  · exact hx.act (within_trans (by decide) hm)
  · exact (Ran.fr (within_trans (by decide) hm) (by decide) (chainOwner_fr _ _) (hx.vn (within_trans (by decide) hm))).act (within_trans (by decide) hm)

theorem mpostTakeOp_ran {m : Nat} {d : BitVec 5} {c : Core} {s x : State} (hm : within (128 ||| 1024 ||| 32768) m = true) (hx : Ran m s x) : Ran m s (mpostTakeOp d c x) := by
  unfold mpostTakeOp
  split
  · exact hx.act (within_trans (by decide) hm)
  · exact (Ran.fr (within_trans (by decide) hm) (by decide) (chainOwner_fr _ _) (hx.tf (within_trans (by decide) hm))).act (within_trans (by decide) hm)

theorem mpostSendOp_ran {m : Nat} {d a : BitVec 5} {t : Byte} {c : Core} {s x : State} (hm : within (2097344 ||| 1024 ||| 32768) m = true) (hx : Ran m s x) : Ran m s (mpostSendOp d a t c x) := by
  have h0 : ∀ f, Ran m s (activeMod f x) := fun f => hx.act (within_trans (by decide) hm)
  unfold mpostSendOp
  dsimp only
  split
  · exact h0 _
  · exact Ran.fr (within_trans (by decide) hm) (by decide) (ownAdd_fr _) (Ran.fr (within_trans (by decide) hm) (by decide) (chainOwner_fr _ _) (h0 _))

theorem ballocOp_ran {m n : Nat} {d : BitVec 5} {c : Core} {s x : State} (hm : within (1024 ||| 32768) m = true) (hx : Ran m s x) : Ran m s (ballocOp d n c x) := by
  have h0 : Ran m s (poolAlloc n (coreOwner x) 0 x).1 := Ran.fr (within_trans (by decide) hm) (by decide) (poolAlloc_fr _ _ _) hx
  unfold ballocOp
  dsimp only
  generalize poolAlloc n (coreOwner x) 0 x = r at h0 ⊢
  split
  · exact h0.act (within_trans (by decide) hm)
  · exact h0.act (within_trans (by decide) hm)

theorem gateOp_ran {m : Nat} {a : BitVec 5} {c : Core} {s x : State} (hm : within (2048 ||| 32768) m = true) (hx : Ran m s x) : Ran m s (gateOp a c x) := by
  unfold gateOp
  dsimp only
  split
  · exact hx.refuse (within_trans (by decide) hm)
  · exact (hx.sh (within_trans (by decide) hm)).act (within_trans (by decide) hm)

theorem benchOp_ran {m : Nat} {d a : BitVec 5} {k : BitVec 4} {c : Core} {s x : State} (hm : within (16384 ||| 32768) m = true) (hx : Ran m s x) : Ran m s (benchOp d a k c x) := by
  unfold benchOp
  dsimp only
  split
  · refine Ran.act (within_trans (by decide) hm) ?_
    show Ran m s (raise 0x7022 5 [4] x)
    exact hx.raise
  · exact (Ran.fr (within_trans (by decide) hm) (by decide) (benchAsk_fr _ _ _ _) hx).act (within_trans (by decide) hm)

theorem chkpOp_ran {m : Nat} {d : BitVec 5} {c : Core} {s x : State} (hm : within (262144 ||| 32768) m = true) (hx : Ran m s x) : Ran m s (chkpOp d c x) := by
  have h0 : ∀ f, Ran m s (activeMod f x) := fun f => hx.act (within_trans (by decide) hm)
  unfold chkpOp
  dsimp only
  split
  · exact (h0 _).chk (within_trans (by decide) hm)
  · exact Ran.fr (a := 0) (by unfold within; simp) (by decide) (refusedEvent_fr _ _) (h0 _)

theorem bufRdOp_ran {m : Nat} {d a b : BitVec 5} {c : Core} {s x : State} (hm : within (1024 ||| 32768) m = true) (hx : Ran m s x) : Ran m s (bufRdOp d a b c x) := by
  have h0 : ∀ f, Ran m s (activeMod f x) := fun f => hx.act (within_trans (by decide) hm)
  unfold bufRdOp
  dsimp only
  split
  · exact hx.bufRefused (within_trans (by decide) hm)
  · split
    · exact Ran.fr (within_trans (by decide) hm) (by decide) poolUncorr_fr (h0 _)
    · exact Ran.fr (a := 0) (by unfold within; simp) (by decide) (unitsRead_fr _) (h0 _)

theorem bufWrOp_ran {m : Nat} {d a b : BitVec 5} {c : Core} {s x : State} (hm : within (1024 ||| 32768) m = true) (hx : Ran m s x) : Ran m s (bufWrOp d a b c x) := by
  have h0 : ∀ f, Ran m s (activeMod f x) := fun f => hx.act (within_trans (by decide) hm)
  unfold bufWrOp
  dsimp only
  split
  · exact hx.bufRefused (within_trans (by decide) hm)
  · split
    · exact Ran.fr (within_trans (by decide) hm) (by decide) poolUncorr_fr (h0 _)
    · exact Ran.fr (within_trans (by decide) hm) (by decide) (bufPut_fr _ _ _) (h0 _)

theorem bufSetOp_ran {m : Nat} {d a b : BitVec 5} {c : Core} {s x : State} (hm : within (1024 ||| 32768) m = true) (hx : Ran m s x) : Ran m s (bufSetOp d a b c x) := by
  have h0 : ∀ f, Ran m s (activeMod f x) := fun f => hx.act (within_trans (by decide) hm)
  unfold bufSetOp
  dsimp only
  split
  · exact hx.bufRefused (within_trans (by decide) hm)
  · exact Ran.fr (within_trans (by decide) hm) (by decide) (bufMod_fr _ _) (h0 _)

theorem eqTakeOp_ran {m : Nat} {d b : BitVec 5} {c : Core} {s x : State} (hm : within (512 ||| 1024 ||| 32768) m = true) (hx : Ran m s x) : Ran m s (eqTakeOp d b c x) := by
  unfold eqTakeOp
  dsimp only
  split
  · exact hx.act (within_trans (by decide) hm)
  · exact (Ran.fr (within_trans (by decide) hm) (by decide) (chainOwner_fr _ _) (Ran.fr (within_trans (by decide) hm) (by decide) (eqMod_fr _ _) hx)).act (within_trans (by decide) hm)

theorem eqTxtsOp_ran {m : Nat} {d b : BitVec 5} {c : Core} {s x : State} (hm : within (512 ||| 32768) m = true) (hx : Ran m s x) : Ran m s (eqTxtsOp d b c x) := by
  have h0 : ∀ f, Ran m s (activeMod f x) := fun f => hx.act (within_trans (by decide) hm)
  unfold eqTxtsOp
  dsimp only
  split
  · exact h0 _
  · exact Ran.fr (within_trans (by decide) hm) (by decide) (stampPop_fr _) (h0 _)

theorem waitOp_ran {m : Nat} {k : Half} (hm : within 32784 m = true) (s : State) : Ran m s (waitOp k s) := by
  unfold waitOp
  split
  · exact .refl _ _
  · exact Ran.instr hm (fun _ _ _ h => h.coreOp (within_trans (by decide) hm)) s

end Sys2Proof.Machine
end

