-- ==== Sys2Proof/Laws/StoreOps.lean ====
section
/-! SUPPORT. Lemmas of memories read back what was written. -/

set_option linter.all false

namespace Sys2Proof.Machine

theorem smGet_filterFrom {α : Type} [DecidableEq α] {d : α} {m : List (Nat × α)} {n : Nat} (p : Nat → Bool) (j : Nat) (h : smWfFrom d n m = true) :
    smGet d (m.filter (fun e => p e.1)) j = if p j = true then smGet d m j else d := by
  induction m generalizing n with
  | nil => simp [smGet]
  | cons e r ih =>
    obtain ⟨a, w⟩ := e
    simp only [smWfFrom, Bool.and_eq_true, decide_eq_true_eq] at h
    rw [List.filter_cons]
    split
    · rename_i hp
      rw [smGet, smGet, ih h.2]
      by_cases hj : j = a
      · subst hj; simp [hp]
      · simp [hj]
    · rename_i hp
      rw [ih h.2, smGet]
      by_cases hj : j = a
      · subst hj; simp [hp]
      · simp [hj]

theorem smGet_filter {α : Type} [DecidableEq α] {d : α} {m : List (Nat × α)} (p : Nat → Bool) (j : Nat) (h : smWf d m = true) :
    smGet d (m.filter (fun e => p e.1)) j = if p j = true then smGet d m j else d := smGet_filterFrom p j h

end Sys2Proof.Machine
end

