-- ==== Sys2Proof/WellFormed.lean ====
section
/-! DEFINITION. Which commands can come at all: operands that fixed-width types leave room in and the manual bounds.
A command that is not well-formed names something the block does not have; what it then does is in log 2. -/

namespace Sys2Proof

/-- The grid table holds at most 4,096 entries (R86). -/
def gridEntryOk (e : Nat) : Bool := decide (e < 4096)

/-- The quantities of the auxiliary ADC (Table 12.1, R348): temperatures, group supplies, rails and loads. -/
def auxQuantityOk (q : Byte) : Bool :=
  let k := q.toNat
  decide (3 ≤ k ∧ k ≤ 5) || decide (8 ≤ k ∧ k ≤ 15) || decide (0x20 ≤ k ∧ k ≤ 0x3F)

/-- PDUs of in-band access come over the backbone or `E0` (R463). -/
def inBand (p : Path) : Bool := p != .host

/-- Whether a command names only what the block has: a grid entry of the table (R86), eight samples (R318), one of the
128 domains (R62), a quantity of the auxiliary ADC, an in-band path (R463), a transaction cut before its last clock
(Table 16.2), and at most 63 records (R147). -/
def Instr.wf : Instr → Bool
  | .domainSwitchTimeout _ d => decide (d < 128)
  | .sample e _ v => e.all gridEntryOk && v.length = 8
  | .update e => gridEntryOk e
  | .count e => gridEntryOk e
  | .measure e => gridEntryOk e
  | .tfLaunch e => e.all gridEntryOk
  | .tfSnap e _ => e.all gridEntryOk
  | .tfRead e => e.all gridEntryOk
  | .vnStart e => gridEntryOk e
  | .vnCommit e => gridEntryOk e
  | .vnRead e => gridEntryOk e
  | .pwrOn e => gridEntryOk e
  | .pwrOff e => gridEntryOk e
  | .pwrLow e => gridEntryOk e
  | .dma e => gridEntryOk e
  | .chkpCopy e => gridEntryOk e
  | .task e => gridEntryOk e
  | .benchSlot e => gridEntryOk e
  | .discover _ _ _ _ r _ => decide (r.length ≤ 63)
  | .ttr _ _ _ b _ => decide (b.recs.length ≤ 63)
  | .auxSample _ q _ => auxQuantityOk q
  | .hpAbort _ _ _ _ n => decide (n < 38)
  | .openReq _ p _ _ => inBand p
  | .openPdu _ p _ _ => inBand p
  | .requestPdu _ p _ _ => inBand p
  | .closePdu _ p _ _ => inBand p
  | .inbandOpenTimeout _ p => inBand p
  | .inbandIdleTimeout _ p => inBand p
  | .domainSettled _ d => decide (d < 128)
  | .seatedConfirm .. | .removal .. | .supplyLoss .. | .flushDone .. | .converterStop .. | .holdupMeasure ..
  | .relaySenseMismatch .. | .powerGood .. | .powerGoodTimeout .. | .regulatorAttempt .. | .pllLocked ..
  | .pllLockTimeout .. | .pllRetry .. | .pllLockLoss .. | .pllLockRegained .. | .noImageTimeout ..
  | .warmResetEnd .. | .sleepMinDwell .. | .quiesceDone .. | .quiesceCut .. | .opsecTick .. | .cfgStore ..
  | .benchRequestEnd .. | .linkUp .. | .linkDown .. | .linkDownWaitEnd .. | .lineDown2s .. | .step ..
  | .stepAck .. | .stepLinkDrop .. | .stepComplete .. | .stepTimeout .. | .stepRetry .. | .relayBDrive ..
  | .openSideStart .. | .bringupLinkWait .. | .start .. | .probe .. | .probeRsp .. | .probeInterval ..
  | .probingEnd .. | .admitReq .. | .admitRef .. | .originAmendment .. | .admitResend .. | .admitReprobe ..
  | .inaugAttemptTimeout .. | .failedRetry .. | .tfOutbound .. | .tfCandidate .. | .msgFrameRx ..
  | .msgTxDone .. | .vnFrameRx .. | .guardianCutPoint .. | .branchBurst .. | .vnSlotTx .. | .branchLinkUp ..
  | .branchLinkDown .. | .eqLinkUp .. | .eqLinkDown .. | .eqAutonegFail .. | .eqFrameRx .. | .eqTxDone ..
  | .pauseTimerExpiry .. | .pfcRefresh .. | .wakePatternMatch .. | .wakeInDetect .. | .wakeChannelDetect ..
  | .burstReceived .. | .lineCheckEnd .. | .burstListenTimeout .. | .wakeBurstSend .. | .burstQuiet ..
  | .inputThresholdCrossing .. | .dipsSinkOn .. | .dipsSinkOff .. | .currentLimit .. | .thermalCutoff ..
  | .thermalRelease .. | .openLoadDetect .. | .openLoadClear .. | .couplerLoss .. | .couplerRestore ..
  | .groupSupplyLow .. | .groupSupplyRestore .. | .forceTimeout .. | .supplySample .. | .overvoltage1s ..
  | .unAutoSelect .. | .tempLevelChange .. | .tempSensorStuck .. | .coreCheckFail .. | .takeoverStepDone ..
  | .rxcLoadDone .. | .shadowTestDone .. | .healthReport .. | .repairRetry .. | .revertHoldoffEnd ..
  | .revertLoadDone .. | .imageVerified .. | .imageLoaded .. | .nvOpDone .. | .slowWriteLand ..
  | .registerWrite .. | .rcRead .. | .cfgDisarm .. | .txtsPop .. | .drawerSelect .. | .drawerCursor ..
  | .drawerNext .. | .drawerPrev .. | .drawerLoadDone .. | .hostAlloc .. | .hostFree .. | .hostPost ..
  | .hostTake .. | .hostOpInvalid .. | .commandAccept .. | .inaug .. | .nodeReset .. | .sleepReq ..
  | .wakeReq .. | .shutterSet .. | .chForce .. | .chForceRelease .. | .orderRelease .. | .benchRun ..
  | .chkpSave .. | .jrnMark .. | .logClearArm .. | .logClearOpl .. | .logClearInc .. | .imgStage ..
  | .nvProgram .. | .nvErase .. | .imgCommit .. | .nvRefresh .. | .keyAdd .. | .keyRevoke ..
  | .inbandPduVerified .. | .add .. | .sub .. | .and .. | .or .. | .xor .. | .nor .. | .shl .. | .shr ..
  | .sar .. | .mul .. | .mulh .. | .divu .. | .remu .. | .cmp .. | .cmpu .. | .min .. | .max .. | .addi ..
  | .andi .. | .ori .. | .xori .. | .cmpi .. | .ldhi .. | .shfi .. | .ldw .. | .ldh .. | .ldb .. | .stw ..
  | .sth .. | .stb .. | .br .. | .loop .. | .call .. | .samp .. | .drv .. | .cntr .. | .meas .. | .tww ..
  | .twrWindowWord .. | .twrWindowHeader .. | .twrFrameHeader .. | .vsndWord .. | .vsndComplete ..
  | .vsndDynamic .. | .vrcvWord .. | .vrcvStatus .. | .vrcvDynamic .. | .mpostSend .. | .mpostTake ..
  | .balloc .. | .bfree .. | .loge .. | .gate .. | .bench .. | .chkp .. | .waitg .. | .asrtX .. | .asrtC ..
  | .asrtZ .. | .cyc .. | .tick .. | .tt .. | .node .. | .ordflag .. | .awake .. | .chkpStat .. | .benchRes ..
  | .bufRd .. | .bufWr .. | .bufSet .. | .bufGet .. | .eqPost .. | .eqTake .. | .eqTxts .. | .currentLimitEnd ..
  | .tempSensorPlausible .. | .cycleStart .. | .correctionInterval .. | .switchInstant ..
  | .messageWindowStart .. | .dynBoundary .. | .budgetWatchdog .. | .logClearDisarm .. | .halt .. | .nop ..
  | .illegalInstruction .. | .ret .. | .tnul .. | .limpApply .. => true

end Sys2Proof
end

section
/-! The frames of the power, clock, domain and wake events (02, 03, 10). -/

namespace Sys2Proof.Machine

/-- One part after the others, at the end of the list. -/
theorem mask_concat (ps : List Part) (p : Part) : mask (ps ++ [p]) = mask ps ||| 2 ^ p.ctorIdx := by
  simp [mask]

theorem within_or (a b : Nat) : within a (a ||| b) = true := by
  have absorb : a &&& (a ||| b) = a := Nat.eq_of_testBit_eq fun i => by simpa using Or.inl
  simpa [within] using absorb

/-- More parts, a wider mask. -/
theorem within_mask_append (ps qs : List Part) : within (mask ps) (mask (ps ++ qs)) = true := by
  induction qs using List.reverseRecOn with
  | nil => simp [within]
  | append_singleton qs p ih =>
    rw [← List.append_assoc, mask_concat]
    exact within_trans ih (within_or _ _)

/-- A command whose meaning `f` stays within the frame `m` touches every list of parts that covers `m`. -/
theorem touches_of_act {ps : List Part} {m : Nat} {c : Instr} {t : Nat} {f : State → State}
    (he : ∀ s, exec c s = act t f s) (hf : ∀ s, Fr m s (f s))
    (hm : within m (mask (always ++ ps)) = true := by decide) : Touches ps c := fun s _ hu =>
  act_fr (within_mask_append always ps) (fun r => (hf r).weaken hm) ((he s).symm.trans hu)

end Sys2Proof.Machine

open Sys2Proof Sys2Proof.Machine

/-- Settles O47: each meaning has its own frame, and the commands add to it only what any command may change. -/
theorem powerCommandFrames : Obligations.PowerCommandFrames :=
  ⟨fun _ => touches_of_act (fun _ => rfl) fun _ => seatedConfirm_fr,
   fun _ => touches_of_act (fun _ => rfl) fun _ => removal_fr,
   fun _ => touches_of_act (fun _ => rfl) fun _ => supplyLoss_fr,
   fun _ => touches_of_act (fun _ => rfl) fun _ => flushDone_fr,
   fun _ => touches_of_act (fun _ => rfl) fun _ => converterStop_fr,
   fun _ _ => touches_of_act (fun _ => rfl) fun _ => holdupMeasure_fr _,
   fun _ _ => touches_of_act (fun _ => rfl) fun _ => relaySenseMismatch_fr _,
   fun _ => touches_of_act (fun _ => rfl) fun _ => powerGood_fr,
   fun _ => touches_of_act (fun _ => rfl) fun _ => powerGoodTimeout_fr,
   fun _ => touches_of_act (fun _ => rfl) fun _ => regulatorAttempt_fr,
   fun _ => touches_of_act (fun _ => rfl) fun _ => pllLocked_fr,
   fun _ => touches_of_act (fun _ => rfl) fun _ => pllLockTimeout_fr,
   fun _ => touches_of_act (fun _ => rfl) fun _ => pllRetry_fr,
   fun _ _ _ => touches_of_act (fun _ => rfl) fun _ => pllLockLoss_fr _ _,
   fun _ => touches_of_act (fun _ => rfl) fun _ => pllLockRegained_fr,
   fun _ _ => touches_of_act (fun _ => rfl) fun _ => domainSwitchTimeout_fr _,
   fun _ _ => touches_of_act (fun _ => rfl) fun _ => domainSettled_fr _,
   fun _ => touches_of_act (fun _ => rfl) fun _ => noImageTimeout_fr,
   fun _ => touches_of_act (fun _ => rfl) fun _ => warmResetEnd_fr,
   fun _ => touches_of_act (fun _ => rfl) fun _ => sleepMinDwell_fr,
   fun _ => touches_of_act (fun _ => rfl) fun _ => quiesceDone_fr,
   fun _ => touches_of_act (fun _ => rfl) fun _ => quiesceCut_fr,
   fun _ => touches_of_act (fun _ => rfl) fun _ => opsecTick_fr,
   fun _ _ _ => touches_of_act (fun _ => rfl) fun _ => wakePatternMatch_fr _ _,
   fun _ => touches_of_act (fun _ => rfl) fun _ => wakeInDetect_fr,
   fun _ => touches_of_act (fun _ => rfl) fun _ => wakeChannelDetect_fr,
   fun _ _ => touches_of_act (fun _ => rfl) fun _ => burstReceived_fr _,
   fun _ _ _ => touches_of_act (fun _ => rfl) fun _ => lineCheckEnd_fr _ _,
   fun _ => touches_of_act (fun _ => rfl) fun _ => burstListenTimeout_fr,
   fun _ => touches_of_act (fun _ => rfl) fun _ => wakeBurstSend_fr,
   fun _ => touches_of_act (fun _ => rfl) fun _ => burstQuiet_fr⟩

end

section
/-! Power entry, the removal flush and the ways into `OFF` (02). -/

namespace Sys2Proof.Machine

/-! ### What is left in `OFF` -/

@[simp] theorem goOff_flush (c : Nat) (s : State) : (goOff c s).pwr.flush = none := rfl

@[simp] theorem goOff_seated (c : Nat) (s : State) : (goOff c s).pwr.seated = s.pwr.seated := by
  simp [goOff, cold, trans_pwr, nvCut_seated]

@[simp] theorem goOff_bat (c : Nat) (s : State) : (goOff c s).pwr.bat = s.pwr.bat := by
  simp [goOff, cold, trans_pwr, nvCut_bat]

@[simp] theorem goOff_markAbsent (c : Nat) (s : State) : (goOff c s).pwr.markAbsent = s.pwr.markAbsent := by
  simp [goOff, cold, trans_pwr, nvCut_markAbsent]

theorem flushWrite_markAbsent (f : Flush) (s : State) : (flushWrite f s).pwr.markAbsent = false := rfl

/-! ### The meanings under their conditions -/

theorem awake_eq_false {s : State} (h : s.pwr.node = .sleep ∨ s.pwr.node = .waking) : s.awake = false := by
  rcases h with h | h <;> simp [State.awake, h]

theorem seatedConfirm_of_off {s : State} (h : s.pwr.node = .off) :
    seatedConfirm s = wakeFromOff { s with pwr := { s.pwr with seated := true, bat := true } } := if_pos h

theorem removal_of_awake {s : State} (h : s.awake = true) :
    removal s = startFlush 0x0101 { s with pwr := { s.pwr with seated := false } } := if_pos h

theorem removal_of_asleep {s : State} (h : s.pwr.node = .sleep ∨ s.pwr.node = .waking) :
    removal s = goOff 5 { s with pwr := { s.pwr with seated := false } } := by
  have ha : flushable { s with pwr := { s.pwr with seated := false } } = false := awake_eq_false h
  simp [removal, ha, h]

theorem supplyLoss_of_awake {s : State} (h : s.awake = true) :
    supplyLoss s = startFlush 0x0102 { s with pwr := { s.pwr with bat := false } } := if_pos h

theorem flushDone_of_flush {s : State} {f : Flush} (h : s.pwr.flush = some f) :
    flushDone s = goOff 6 (flushWrite f s) := by
  simp [flushDone, h]

theorem converterStop_of_asleep {s : State} (h : s.pwr.node = .sleep ∨ s.pwr.node = .waking) :
    converterStop s = goOff 7 { s with pwr := { s.pwr with bat := false } } := by
  simp [converterStop, h]

/-! ### The commands -/

theorem gives_seatedConfirm {s : State} (t : Nat) (h : s.pwr.node = .off) : Gives (.seatedConfirm t) s (fun u =>
    u.pwr.node = .waking ∧ u.pwr.regOn = true ∧ u.pwr.regAttempts = 1 ∧
    u.pwr.pcyc = satInc (s.nv.cfg.pcyc.getD 0) ∧ u.pwr.opsec = s.nv.cfg.opsec.getD 0) := by
  have woken := wakeFromOff_pwr
    { begin_ t s with pwr := { (begin_ t s).pwr with seated := true, bat := true } }
  refine gives_of_act rfl ?_
  rw [seatedConfirm_of_off (s := begin_ t s) h]
  simpa using woken

theorem gives_removal_flush {s : State} (t : Nat) (ha : s.awake = true) (hf : s.pwr.flush = none) :
    Gives (.removal t) s (fun u => u.pwr.seated = false ∧ u.pwr.flush = some ⟨0x0101, false, s.pwr.opsec⟩ ∧
      Occurred 0x0101 0xFF u) := by
  refine gives_of_act rfl ?_
  rw [removal_of_awake (s := begin_ t s) ha]
  obtain ⟨flush, seated⟩ := startFlush_new (s := { begin_ t s with pwr := { s.pwr with seated := false } }) 0x0101 hf
  exact ⟨by simpa using seated, by simpa using flush, kick_occurred (startFlush_occurred 0x0101 hf)⟩

theorem gives_removal_off {s : State} (t : Nat) (h : s.pwr.node = .sleep ∨ s.pwr.node = .waking) :
    Gives (.removal t) s (fun u => u.pwr.node = .off ∧ u.pwr.seated = false) := by
  refine gives_of_act rfl ?_
  rw [removal_of_asleep (s := begin_ t s) h]
  simp [goOff_node]

theorem gives_supplyLoss {s : State} (t : Nat) (ha : s.awake = true) (hf : s.pwr.flush = none) :
    Gives (.supplyLoss t) s (fun u => u.pwr.flush = some ⟨0x0102, false, s.pwr.opsec⟩ ∧ Occurred 0x0102 0xFF u) := by
  refine gives_of_act rfl ?_
  rw [supplyLoss_of_awake (s := begin_ t s) ha]
  obtain ⟨flush, -⟩ := startFlush_new (s := { begin_ t s with pwr := { s.pwr with bat := false } }) 0x0102 hf
  exact ⟨by simpa using flush, kick_occurred (startFlush_occurred 0x0102 hf)⟩

theorem gives_flushDone {s : State} (t : Nat) (h : s.pwr.flush.isSome = true) :
    Gives (.flushDone t) s (fun u => u.pwr.node = .off ∧ u.pwr.flush = none ∧ u.pwr.markAbsent = false) := by
  obtain ⟨f, hf⟩ := Option.isSome_iff_exists.mp h
  refine gives_of_act rfl ?_
  rw [flushDone_of_flush (s := begin_ t s) hf]
  simp [goOff_node, flushWrite_markAbsent]

theorem gives_converterStop {s : State} (t : Nat) (h : s.pwr.node = .sleep ∨ s.pwr.node = .waking) :
    Gives (.converterStop t) s (fun u => u.pwr.node = .off ∧ u.pwr.bat = false) := by
  refine gives_of_act rfl ?_
  rw [converterStop_of_asleep (s := begin_ t s) h]
  simp [goOff_node]

end Sys2Proof.Machine

open Sys2Proof Sys2Proof.Machine

/-- Settles O6: entry, removal, supply loss, the end of the flush and converter stop, each from what its meaning is under
the conditions of the clause. -/
theorem powerEntryAndFlush : Obligations.PowerEntryAndFlush :=
  ⟨fun _ t => gives_seatedConfirm t, fun _ t => gives_removal_flush t, fun _ t => gives_removal_off t,
   fun _ t => gives_supplyLoss t, fun _ t => gives_flushDone t, fun _ t => gives_converterStop t⟩

end

section
/-! The supplies and clocks of a waking node, lock loss in service, and the end of a warm reset (03, 12). -/

namespace Sys2Proof.Machine

/-! ### The shared operations -/

/-- `PD001` holds no block that a change of its level would touch. -/
theorem setDomain_pll (l : Level) (s : State) : setDomain 1 l s = { s with pwr :=
    { s.pwr with doms := s.pwr.doms.modify 1 (fun x => { x with ctrl := l, act := l }) } } := by
  simp [setDomain, reach_plain, List.modify_modify_eq, Function.comp_def]

/-- What a wake failure leaves in `PD000` (R76): the record of the failure is kept into `SLEEP`. -/
theorem wakeFailure_pwr (s : State) : (wakeFailure s).pwr.node = .sleep ∧ (wakeFailure s).pwr.pgLatch = true ∧
    (wakeFailure s).pwr.wakeFailPin = true ∧ (wakeFailure s).pwr.wfCount = satInc s.pwr.wfCount ∧
    (wakeFailure s).pwr.wfAttempts = 3 ∧ (wakeFailure s).pwr.wfSec = s.pwr.opsec ∧
    (wakeFailure s).pwr.wfPcyc = s.pwr.pcyc := by
  simp [wakeFailure, goSleep, stateLevels, asleep, alwaysOn, trans_pwr]

theorem goLimp_pwr (s : State) : (goLimp s).pwr.node = .limp ∧ (goLimp s).pwr.wakeFailPin = true := by
  simp [goLimp, stateLevels, trans_pwr]

theorem goLimp_occurred (s : State) : Occurred 0x0202 0xFF (goLimp s) := raise_occurred _ _ _ _

/-! ### The meanings under their conditions -/

section
variable {s : State}

theorem holdupMeasure_low {uF : Half} (ho : s.pwr.node ≠ .off) (hs : s.pwr.node ≠ .sleep) (h : uF.toNat < 500) :
    holdupMeasure uF s =
      raise 0x0106 noInst [] { s with pwr := { s.pwr with holdup := uF.setWidth 17 ||| 0x10000 } } := by
  simp [holdupMeasure, holdupLow, ho, hs, h]

/-- From 900 µF on the capacitance is good for every class (R356). -/
theorem holdupMeasure_good {uF : Half} (ho : s.pwr.node ≠ .off) (hs : s.pwr.node ≠ .sleep) (h : 900 ≤ uF.toNat) :
    holdupMeasure uF s = { s with pwr := { s.pwr with holdup := uF.setWidth 17 } } := by
  have good : holdupLow s uF.toNat = false := by
    have h5 : ¬ uF.toNat < 500 := by omega
    have h9 : ¬ uF.toNat < 900 := by omega
    simp [holdupLow, h5, h9]
  simp [holdupMeasure, ho, hs, good]

theorem relaySenseMismatch_a (ho : s.pwr.node ≠ .off) (hs : s.pwr.node ≠ .sleep) : relaySenseMismatch .a s =
    raise 0x0104 noInst [] { s with pwr := { s.pwr with misA := true, senseA := s.pwr.relayA } } := by
  simp [relaySenseMismatch, ho, hs]

theorem relaySenseMismatch_b (ho : s.pwr.node ≠ .off) (hs : s.pwr.node ≠ .sleep) : relaySenseMismatch .b s =
    raise 0x0105 noInst [] { s with pwr := { s.pwr with misB := true, senseB := s.pwr.relayB } } := by
  simp [relaySenseMismatch, ho, hs]

theorem powerGood_first (hn : s.pwr.node = .waking) (hr : s.pwr.regOn = true) (hp : s.pwr.pllOn = false)
    (ha : s.pwr.pllAttempts = 0) :
    powerGood s = setDomain 1 .on { s with pwr := { s.pwr with pllOn := true, pllAttempts := 1 } } := by
  simp [powerGood, hn, hr, hp, ha]

theorem powerGoodTimeout_again (hn : s.pwr.node = .waking) (hr : s.pwr.regOn = true) (hp : s.pwr.pllAttempts = 0)
    (ha : s.pwr.regAttempts < 3) : powerGoodTimeout s = { s with pwr := { s.pwr with regOn := false } } := by
  simp [powerGoodTimeout, hn, hr, hp, ha]

theorem powerGoodTimeout_third (hn : s.pwr.node = .waking) (hr : s.pwr.regOn = true) (hp : s.pwr.pllAttempts = 0)
    (ha : 3 ≤ s.pwr.regAttempts) :
    powerGoodTimeout s = wakeFailure { s with pwr := { s.pwr with regOn := false } } := by
  simp [powerGoodTimeout, hn, hr, hp, Nat.not_lt.mpr ha]

theorem regulatorAttempt_next (hn : s.pwr.node = .waking) (hr : s.pwr.regOn = false) (h1 : 1 ≤ s.pwr.regAttempts)
    (h3 : s.pwr.regAttempts < 3) : regulatorAttempt s = regulatorStart s := by
  simp [regulatorAttempt, hn, hr, h1, h3]

theorem pllLocked_on (hn : s.pwr.node = .waking) (hp : s.pwr.pllOn = true) : pllLocked s = goBringup s := by
  simp [pllLocked, hn, hp]

theorem pllLockTimeout_again (hn : s.pwr.node = .waking) (hp : s.pwr.pllOn = true) (ha : s.pwr.pllAttempts < 3) :
    pllLockTimeout s = { s with pwr := { s.pwr with pllOn := false } } := by
  simp [pllLockTimeout, hn, hp, ha]

theorem pllLockTimeout_third (hn : s.pwr.node = .waking) (hp : s.pwr.pllOn = true) (ha : 3 ≤ s.pwr.pllAttempts) :
    pllLockTimeout s = goLimp s := by
  simp [pllLockTimeout, hn, hp, Nat.not_lt.mpr ha]

theorem pllRetry_next (hn : s.pwr.node = .waking) (hr : s.pwr.regOn = true) (hp : s.pwr.pllOn = false)
    (h1 : 1 ≤ s.pwr.pllAttempts) (h3 : s.pwr.pllAttempts < 3) :
    pllRetry s = { s with pwr := { s.pwr with pllOn := true, pllAttempts := s.pwr.pllAttempts + 1 } } := by
  simp [pllRetry, hn, hr, hp, h1, h3]

theorem clocked_of_awake (ha : s.awake = true) (hn : s.pwr.node ≠ .limp) : clocked s = true := by
  simp [clocked, ha, hn]

/-- The power part once the PLL has lost its lock (R59, R60). -/
def lockLostPwr (deviation : Half) (stopped : Bool) (p : Pwr) : Pwr :=
  { p with
    locked := false, losses := satInc p.losses, clkDev := deviation, lockLost := true, lockCycles := 0
    xtal := p.xtal && !stopped
    slowHeld := if stopped then some (slowCopies p) else p.slowHeld }

theorem pllLockLoss_locked (deviation : Half) (stopped : Bool) (ha : s.awake = true) (hn : s.pwr.node ≠ .limp)
    (hl : s.pwr.locked = true) : pllLockLoss deviation stopped s =
      raise 0x0203 noInst [if stopped then 1 else 0] { s with pwr := lockLostPwr deviation stopped s.pwr } := by
  simp [pllLockLoss, clocked_of_awake ha hn, hl, lockLostPwr]

theorem pllLockRegained_unlocked (ha : s.awake = true) (hn : s.pwr.node ≠ .limp) (hl : s.pwr.locked = false) :
    pllLockRegained s =
      raise 0x0204 noInst [] { s with pwr := { s.pwr with locked := true, lockCycles := 0, xtal := true, slowHeld := none } } := by
  simp [pllLockRegained, clocked_of_awake ha hn, hl]

theorem warmResetEnd_off (h : s.pwr.warmOff = true) : warmResetEnd s = setDomain 1 .on { s with pwr :=
    { s.pwr with warmOff := false, regOn := true, pllOn := true, pllAttempts := 1 } } := if_pos h

/-! ### The commands -/

theorem gives_holdupMeasure_low (t : Nat) (uF : Half) (ho : s.pwr.node ≠ .off) (hs : s.pwr.node ≠ .sleep)
    (h : uF.toNat < 500) : Gives (.holdupMeasure t uF) s (fun u =>
      u.pwr.holdup = uF.setWidth 17 ||| 0x10000 ∧ Occurred 0x0106 0xFF u) := by
  refine gives_of_act rfl ?_
  rw [holdupMeasure_low (s := begin_ t s) ho hs h]
  exact ⟨by simp, kick_occurred (raise_occurred _ _ _ _)⟩

theorem gives_holdupMeasure_good (t : Nat) (uF : Half) (ho : s.pwr.node ≠ .off) (hs : s.pwr.node ≠ .sleep)
    (h : 900 ≤ uF.toNat) : Gives (.holdupMeasure t uF) s (fun u => u.pwr.holdup = uF.setWidth 17) := by
  refine gives_of_act rfl ?_
  rw [holdupMeasure_good (s := begin_ t s) ho hs h]
  simp

theorem gives_relaySenseMismatch (t : Nat) (line : Line) (ho : s.pwr.node ≠ .off) (hs : s.pwr.node ≠ .sleep) :
    Gives (.relaySenseMismatch t line) s (fun u => u.pwr.relayA = s.pwr.relayA ∧ u.pwr.relayB = s.pwr.relayB ∧
      (line = .a → u.pwr.misA = true ∧ Occurred 0x0104 0xFF u) ∧
      (line = .b → u.pwr.misB = true ∧ Occurred 0x0105 0xFF u)) := by
  refine gives_of_act rfl ?_
  cases line with
  | a =>
    rw [relaySenseMismatch_a (s := begin_ t s) ho hs]
    exact ⟨by simp, by simp, fun _ => ⟨by simp, kick_occurred (raise_occurred _ _ _ _)⟩, nofun⟩
  | b =>
    rw [relaySenseMismatch_b (s := begin_ t s) ho hs]
    exact ⟨by simp, by simp, nofun, fun _ => ⟨by simp, kick_occurred (raise_occurred _ _ _ _)⟩⟩

theorem gives_powerGood (t : Nat) (hn : s.pwr.node = .waking) (hr : s.pwr.regOn = true) (hp : s.pwr.pllOn = false)
    (ha : s.pwr.pllAttempts = 0) : Gives (.powerGood t) s (fun u =>
      u.pwr.pllOn = true ∧ u.pwr.pllAttempts = 1 ∧ u.pwr.node = .waking) := by
  refine gives_of_act rfl ?_
  rw [powerGood_first (s := begin_ t s) hn hr hp ha]
  simpa [setDomain_pll] using hn

theorem gives_powerGoodTimeout (t : Nat) (hn : s.pwr.node = .waking) (hr : s.pwr.regOn = true)
    (hp : s.pwr.pllAttempts = 0) (ha : s.pwr.regAttempts < 3) : Gives (.powerGoodTimeout t) s (fun u =>
      u.pwr.node = .waking ∧ u.pwr.regOn = false ∧ u.pwr.regAttempts = s.pwr.regAttempts) := by
  refine gives_of_act rfl ?_
  rw [powerGoodTimeout_again (s := begin_ t s) hn hr hp ha]
  simpa using hn

theorem gives_wakeFailure (t : Nat) (hn : s.pwr.node = .waking) (hr : s.pwr.regOn = true)
    (hp : s.pwr.pllAttempts = 0) (ha : 3 ≤ s.pwr.regAttempts) : Gives (.powerGoodTimeout t) s (fun u =>
      u.pwr.node = .sleep ∧ u.pwr.pgLatch = true ∧ u.pwr.wakeFailPin = true ∧
      u.pwr.wfCount = satInc s.pwr.wfCount ∧ u.pwr.wfAttempts = 3 ∧ u.pwr.wfSec = s.pwr.opsec ∧
      u.pwr.wfPcyc = s.pwr.pcyc) := by
  refine gives_of_act rfl ?_
  rw [powerGoodTimeout_third (s := begin_ t s) hn hr hp ha]
  simpa using wakeFailure_pwr { begin_ t s with pwr := { s.pwr with regOn := false } }

theorem gives_regulatorAttempt (t : Nat) (hn : s.pwr.node = .waking) (hr : s.pwr.regOn = false)
    (h1 : 1 ≤ s.pwr.regAttempts) (h3 : s.pwr.regAttempts < 3) : Gives (.regulatorAttempt t) s (fun u =>
      u.pwr.regOn = true ∧ u.pwr.regAttempts = s.pwr.regAttempts + 1) := by
  refine gives_of_act rfl ?_
  rw [regulatorAttempt_next (s := begin_ t s) hn hr h1 h3]
  simp [regulatorStart]

theorem gives_pllLocked (t : Nat) (hn : s.pwr.node = .waking) (hp : s.pwr.pllOn = true) :
    Gives (.pllLocked t) s (fun u => u.pwr.node = .bringup ∧ u.cyc.phase = 0) := by
  refine gives_of_act rfl ?_
  rw [pllLocked_on (s := begin_ t s) hn hp]
  simpa using goBringup_pwr (begin_ t s)

theorem gives_pllLockTimeout (t : Nat) (hn : s.pwr.node = .waking) (hp : s.pwr.pllOn = true)
    (ha : s.pwr.pllAttempts < 3) : Gives (.pllLockTimeout t) s (fun u =>
      u.pwr.node = .waking ∧ u.pwr.pllOn = false) := by
  refine gives_of_act rfl ?_
  rw [pllLockTimeout_again (s := begin_ t s) hn hp ha]
  simpa using hn

theorem gives_pllLockFailure (t : Nat) (hn : s.pwr.node = .waking) (hp : s.pwr.pllOn = true)
    (ha : 3 ≤ s.pwr.pllAttempts) : Gives (.pllLockTimeout t) s (fun u =>
      u.pwr.node = .limp ∧ u.pwr.wakeFailPin = true ∧ Occurred 0x0202 0xFF u) := by
  refine gives_of_act rfl ?_
  rw [pllLockTimeout_third (s := begin_ t s) hn hp ha]
  obtain ⟨node, pin⟩ := goLimp_pwr (begin_ t s)
  exact ⟨by simpa using node, by simpa using pin, kick_occurred (goLimp_occurred _)⟩

theorem gives_pllRetry (t : Nat) (hn : s.pwr.node = .waking) (hr : s.pwr.regOn = true) (hp : s.pwr.pllOn = false)
    (h1 : 1 ≤ s.pwr.pllAttempts) (h3 : s.pwr.pllAttempts < 3) : Gives (.pllRetry t) s (fun u =>
      u.pwr.pllOn = true ∧ u.pwr.pllAttempts = s.pwr.pllAttempts + 1) := by
  refine gives_of_act rfl ?_
  rw [pllRetry_next (s := begin_ t s) hn hr hp h1 h3]
  simp

theorem gives_pllLockLoss (t : Nat) (dev : Half) (stopped : Bool) (ha : s.awake = true) (hn : s.pwr.node ≠ .limp)
    (hl : s.pwr.locked = true) : Gives (.pllLockLoss t dev stopped) s (fun u =>
      u.pwr.locked = false ∧ u.pwr.losses = satInc s.pwr.losses ∧ u.pwr.clkDev = dev ∧ u.pwr.lockLost = true ∧
      Occurred 0x0203 0xFF u) := by
  refine gives_of_act rfl ?_
  rw [pllLockLoss_locked (s := begin_ t s) dev stopped ha hn hl]
  refine ⟨?_, ?_, ?_, ?_, kick_occurred (raise_occurred _ _ _ _)⟩ <;> simp [lockLostPwr]

theorem gives_pllLockRegained (t : Nat) (ha : s.awake = true) (hn : s.pwr.node ≠ .limp) (hl : s.pwr.locked = false) :
    Gives (.pllLockRegained t) s (fun u => u.pwr.locked = true ∧ Occurred 0x0204 0xFF u) := by
  refine gives_of_act rfl ?_
  rw [pllLockRegained_unlocked (s := begin_ t s) ha hn hl]
  exact ⟨by simp, kick_occurred (raise_occurred _ _ _ _)⟩

theorem gives_warmResetEnd (t : Nat) (h : s.pwr.warmOff = true) : Gives (.warmResetEnd t) s (fun u =>
    u.pwr.warmOff = false ∧ u.pwr.regOn = true ∧ u.pwr.pllOn = true ∧ u.pwr.pllAttempts = 1) := by
  refine gives_of_act rfl ?_
  rw [warmResetEnd_off (s := begin_ t s) h]
  simp [setDomain_pll]

end

end Sys2Proof.Machine

open Sys2Proof Sys2Proof.Machine

/-- Settles O7: each clause is what the meaning of its command is under the conditions named. -/
theorem wakingAndClocks : Obligations.WakingAndClocks :=
  ⟨fun _ t uF => gives_holdupMeasure_low t uF, fun _ t uF => gives_holdupMeasure_good t uF,
   fun _ t line => gives_relaySenseMismatch t line, fun _ t => gives_powerGood t,
   fun _ t => gives_powerGoodTimeout t, fun _ t => gives_wakeFailure t, fun _ t => gives_regulatorAttempt t,
   fun _ t => gives_pllLocked t, fun _ t => gives_pllLockTimeout t, fun _ t => gives_pllLockFailure t,
   fun _ t => gives_pllRetry t, fun _ t dev stopped => gives_pllLockLoss t dev stopped,
   fun _ t => gives_pllLockRegained t, fun _ t => gives_warmResetEnd t⟩

end

section
/-! The invariant under a step (O4): every command is its meaning between `begin_` and the NV controller's next work, and
every meaning keeps `Inv`. -/

namespace Sys2Proof.Machine

/-- Whenever the command completes in a state that meets the invariant, the next state meets it. -/
def Keeps (c : Instr) : Prop := ∀ s u, Inv s → exec c s = .next u → Inv u

section
variable {c : Instr}

theorem keeps_of_act {t : Nat} {f : State → State} (he : ∀ s, exec c s = act t f s) (hf : ∀ s, Inv s → Inv (f s)) :
    Keeps c := fun s _ h hu => act_inv h hf ((he s).symm.trans hu)

/-- A Hinge frame: what it does where it is heard (R117, R127). -/
theorem keeps_of_hingeRx {t p : Nat} {sub : Byte} {hd : HingeHdr} {f : State → State}
    (he : ∀ s, exec c s = act t (hingeRx sub p hd f) s) (hf : ∀ s, Inv s → Inv (f s)) : Keeps c :=
  keeps_of_act he fun _ h => hingeRx_inv h _ _ _ _ hf

/-! ### JNIS instructions -/

theorem keeps_of_instr {n : Nat} {f : Core → State → State} (he : ∀ s, exec c s = actJ (instr n f) s)
    (hf : ∀ k s, Inv s → Inv (f k s)) : Keeps c :=
  keeps_of_act he fun _ h => instr_inv h _ _ hf

/-- An instruction on the return or loop stack of the core `k` in control: the stacks it tests are those it changes. -/
theorem keeps_of_stackOp {n : Nat} {f : Core → State → State} (he : ∀ s, exec c s = actJ (instr n f) s)
    (hf : ∀ k s, Inv s → (∀ d, activeCore s = some d → d.rets = k.rets ∧ d.loops = k.loops) → Inv (f k s)) : Keeps c :=
  keeps_of_act he fun _ h => instr_inv_at h _ _ fun k _ s _ hs hk => hf k s hs hk

theorem keeps_of_coreOp {n : Nat} {f : Core → Core} (he : ∀ s, exec c s = actJ (instr n (coreOp f)) s)
    (hf : ∀ k, CoreInv k → CoreInv (f k)) : Keeps c :=
  keeps_of_instr he fun _ _ h => coreOp_inv h _ _ hf

theorem keeps_of_alu {n : Nat} {f : Word → Word → Core → Core} {a b : BitVec 5}
    (he : ∀ s, exec c s = actJ (alu n f a b) s) (hf : ∀ x y k, CoreInv k → CoreInv (f x y k)) : Keeps c :=
  keeps_of_act he fun _ h => alu_inv h _ _ _ _ hf

theorem keeps_of_aluImm {f : Word → Core → Core} {a : BitVec 5} (he : ∀ s, exec c s = actJ (aluImm f a) s)
    (hf : ∀ x k, CoreInv k → CoreInv (f x k)) : Keeps c :=
  keeps_of_act he fun _ h => aluImm_inv h _ _ hf

theorem keeps_of_service {ok : Bool} {f : Core → State → State} (he : ∀ s, exec c s = actJ (service ok f) s)
    (hf : ∀ k s, Inv s → Inv (f k s)) : Keeps c :=
  keeps_of_act he fun _ h => service_inv h _ _ hf

/-- A function of `SYSR` that only answers. -/
theorem keeps_of_sysr {d : BitVec 5} {k : Nat} {f : State → List Word} (he : ∀ s, exec c s = sysr d k f s) : Keeps c :=
  keeps_of_service he fun _ _ h => activeMod_inv _ h fun _ hk => answer_inv _ _ _ hk

end

/-- A division by 0 shows in the overflow flag (R376), of which the invariant says nothing. -/
theorem overflow_inv {k : Core} (b : Bool) (h : CoreInv k) : CoreInv { k with v := b } :=
  ⟨h.regs, h.rets, h.loops, h.data⟩

theorem signature_inv {k : Core} (sig : Half) (h : CoreInv k) : CoreInv { k with sig := sig } :=
  ⟨h.regs, h.rets, h.loops, h.data⟩

theorem wakeIn_inv {s : State} (b : Bool) (h : Inv s) : Inv { s with pwr := { s.pwr with wakeIn := b } } := { h with }

/-- Every command keeps the invariant, in the order of the command table. -/
theorem exec_keeps : ∀ c, Keeps c
  -- power entry, clocks and node states (02, 03, 10)
  | .seatedConfirm .. => keeps_of_act (fun _ => rfl) fun _ h => seatedConfirm_inv h
  | .removal .. => keeps_of_act (fun _ => rfl) fun _ h => removal_inv h
  | .supplyLoss .. => keeps_of_act (fun _ => rfl) fun _ h => supplyLoss_inv h
  | .flushDone .. => keeps_of_act (fun _ => rfl) fun _ h => flushDone_inv h
  | .converterStop .. => keeps_of_act (fun _ => rfl) fun _ h => converterStop_inv h
  | .holdupMeasure .. => keeps_of_act (fun _ => rfl) fun _ h => holdupMeasure_inv h _
  | .relaySenseMismatch .. => keeps_of_act (fun _ => rfl) fun _ h => relaySenseMismatch_inv h _
  | .powerGood .. => keeps_of_act (fun _ => rfl) fun _ h => powerGood_inv h
  | .powerGoodTimeout .. => keeps_of_act (fun _ => rfl) fun _ h => powerGoodTimeout_inv h
  | .regulatorAttempt .. => keeps_of_act (fun _ => rfl) fun _ h => regulatorAttempt_inv h
  | .pllLocked .. => keeps_of_act (fun _ => rfl) fun _ h => pllLocked_inv h
  | .pllLockTimeout .. => keeps_of_act (fun _ => rfl) fun _ h => pllLockTimeout_inv h
  | .pllRetry .. => keeps_of_act (fun _ => rfl) fun _ h => pllRetry_inv h
  | .pllLockLoss .. => keeps_of_act (fun _ => rfl) fun _ h => pllLockLoss_inv h _ _
  | .pllLockRegained .. => keeps_of_act (fun _ => rfl) fun _ h => pllLockRegained_inv h
  | .domainSwitchTimeout .. => keeps_of_act (fun _ => rfl) fun _ h => domainSwitchTimeout_inv h _
  | .noImageTimeout .. => keeps_of_act (fun _ => rfl) fun _ h => noImageTimeout_inv h
  | .warmResetEnd .. => keeps_of_act (fun _ => rfl) fun _ h => warmResetEnd_inv h
  | .sleepMinDwell .. => keeps_of_act (fun _ => rfl) fun _ h => sleepMinDwell_inv h
  | .quiesceDone .. => keeps_of_act (fun _ => rfl) fun _ h => quiesceDone_inv h
  | .quiesceCut .. => keeps_of_act (fun _ => rfl) fun _ h => quiesceCut_inv h
  | .opsecTick .. => keeps_of_act (fun _ => rfl) fun _ h => opsecTick_inv h
  | .cfgStore .. => keeps_of_act (fun _ => rfl) fun _ h => cfgStore_inv h
  -- the cycle and the grid actions (04)
  | .sample .. => keeps_of_act (fun _ => rfl) fun _ h => sampleRun_inv h _ _ _
  | .update .. => keeps_of_act (fun _ => rfl) fun _ h => updateRun_inv h _
  | .count .. => keeps_of_act (fun _ => rfl) fun _ h => countRun_inv h _
  | .measure .. => keeps_of_act (fun _ => rfl) fun _ h => measureRun_inv h _
  | .tfLaunch .. => keeps_of_act (fun _ => rfl) fun _ h => tfAction_inv h _ _ _ fun _ h => tfLaunch_inv h
  | .tfSnap .. => keeps_of_act (fun _ => rfl) fun _ h => tfAction_inv (wakeIn_inv _ h) _ _ _ fun _ h => tfSnap_inv h
  | .tfRead .. => keeps_of_act (fun _ => rfl) fun _ h => tfAction_inv h _ _ _ fun _ h => tfRead_inv h
  | .vnStart .. => keeps_of_act (fun _ => rfl) fun _ h => vnStartRun_inv h _
  | .vnCommit .. => keeps_of_act (fun _ => rfl) fun _ h => vnCommitRun_inv h _
  | .vnRead .. => keeps_of_act (fun _ => rfl) fun _ h => vnReadRun_inv h _
  | .pwrOn .. => keeps_of_act (fun _ => rfl) fun _ h => pwrOnRun_inv h _
  | .pwrOff .. => keeps_of_act (fun _ => rfl) fun _ h => pwrOffRun_inv h _
  | .pwrLow .. => keeps_of_act (fun _ => rfl) fun _ h => pwrLowRun_inv h _
  | .dma .. => keeps_of_act (fun _ => rfl) fun _ h => dmaRun_inv h _
  | .chkpCopy .. => keeps_of_act (fun _ => rfl) fun _ h => chkpCopyRun_inv h _
  | .task .. => keeps_of_act (fun _ => rfl) fun _ h => taskRun_inv h _
  | .benchSlot .. => keeps_of_act (fun _ => rfl) fun _ h => benchSlotRun_inv h _
  | .benchRequestEnd .. => keeps_of_act (fun _ => rfl) fun _ h => benchRequestEnd_inv h _ _
  -- the Hinge (05)
  | .linkUp .. => keeps_of_act (fun _ => rfl) fun _ h => linkUp_inv h _ _
  | .linkDown .. => keeps_of_act (fun _ => rfl) fun _ h => linkDown_inv h _
  | .linkDownWaitEnd .. => keeps_of_act (fun _ => rfl) fun _ h => linkDownWaitEnd_inv h _
  | .lineDown2s .. => keeps_of_act (fun _ => rfl) fun _ h => lineDown2s_inv h _
  | .step .. => keeps_of_hingeRx (fun _ => rfl) fun _ h => stepRx_inv h _ _
  | .stepAck .. => keeps_of_hingeRx (fun _ => rfl) fun _ h => stepAckRx_inv h _ _ _
  | .stepLinkDrop .. => keeps_of_act (fun _ => rfl) fun _ h => stepLinkDrop_inv h _
  | .stepComplete .. => keeps_of_act (fun _ => rfl) fun _ h => stepComplete_inv h _
  | .stepTimeout .. => keeps_of_act (fun _ => rfl) fun _ h => stepTimeout_inv h _
  | .stepRetry .. => keeps_of_act (fun _ => rfl) fun _ h => stepRetry_inv h _
  | .relayBDrive .. => keeps_of_act (fun _ => rfl) fun _ h => relayBDrive_inv h
  | .openSideStart .. => keeps_of_act (fun _ => rfl) fun _ h => openSideStart_inv h _
  | .bringupLinkWait .. => keeps_of_act (fun _ => rfl) fun _ h => bringupLinkWait_inv h
  | .start .. => keeps_of_hingeRx (fun _ => rfl) fun _ h => startRx_inv h _ _ _
  | .probe .. => keeps_of_hingeRx (fun _ => rfl) fun _ h => probeRx_inv h _ _ _ _ _
  | .probeRsp .. => keeps_of_hingeRx (fun _ => rfl) fun _ h => probeRspRx_inv h _ _ _ _ _ _ _
  | .probeInterval .. => keeps_of_act (fun _ => rfl) fun _ h => probeInterval_inv h
  | .probingEnd .. => keeps_of_act (fun _ => rfl) fun _ h => probingEnd_inv h _
  | .discover .. => keeps_of_hingeRx (fun _ => rfl) fun _ h => discoverRx_inv h _ _ _ _ _
  | .ttr .. => keeps_of_hingeRx (fun _ => rfl) fun _ h => ttrRx_inv h _ _ _ _
  | .admitReq .. => keeps_of_hingeRx (fun _ => rfl) fun _ h => admitReqRx_inv h _ _ _
  | .admitRef .. => keeps_of_hingeRx (fun _ => rfl) fun _ h => admitRefRx_inv h _ _ _ _
  | .originAmendment .. => keeps_of_act (fun _ => rfl) fun _ h => originAmendment_inv h
  | .admitResend .. => keeps_of_act (fun _ => rfl) fun _ h => admitResend_inv h _
  | .admitReprobe .. => keeps_of_act (fun _ => rfl) fun _ h => admitReprobe_inv h
  | .inaugAttemptTimeout .. => keeps_of_act (fun _ => rfl) fun _ h => inaugAttemptTimeout_inv h _
  | .failedRetry .. => keeps_of_act (fun _ => rfl) fun _ h => failedRetry_inv h
  -- the train frame and the message window (06, 07)
  | .tfOutbound .. => keeps_of_act (fun _ => rfl) fun _ h => tfOutbound_inv h _ _ _
  | .tfCandidate .. => keeps_of_act (fun _ => rfl) fun _ h => tfCandidate_inv h _ _ _ _
  | .msgFrameRx .. => keeps_of_act (fun _ => rfl) fun _ h => msgFrameRx_inv h _ _
  | .msgTxDone .. => keeps_of_act (fun _ => rfl) fun _ h => msgTxDone_inv h _
  -- the vehicle network (08)
  | .vnFrameRx .. => keeps_of_act (fun _ => rfl) fun _ h => vnFrameRx_inv h _ _ _
  | .guardianCutPoint .. => keeps_of_act (fun _ => rfl) fun _ h => guardianCutPoint_inv h _
  | .branchBurst .. => keeps_of_act (fun _ => rfl) fun _ h => branchBurst_inv h _
  | .vnSlotTx .. => keeps_of_act (fun _ => rfl) fun _ h => vnSlotTx_inv h _
  | .branchLinkUp .. => keeps_of_act (fun _ => rfl) fun _ h => branchLinkUp_inv h _
  | .branchLinkDown .. => keeps_of_act (fun _ => rfl) fun _ h => branchLinkDown_inv h _
  -- the equipment ports (09)
  | .eqLinkUp .. => keeps_of_act (fun _ => rfl) fun _ h => eqLinkUp_inv h _ _
  | .eqLinkDown .. => keeps_of_act (fun _ => rfl) fun _ h => eqLinkLost_inv h _
  | .eqAutonegFail .. => keeps_of_act (fun _ => rfl) fun _ h => eqAutonegFail_inv h _
  | .eqFrameRx .. => keeps_of_act (fun _ => rfl) fun _ h => eqFrameRx_inv h _ _ _
  | .eqTxDone .. => keeps_of_act (fun _ => rfl) fun _ h => eqTxDone_inv h _
  | .pauseTimerExpiry .. => keeps_of_act (fun _ => rfl) fun _ h => pauseExpiry_inv h _ _
  | .pfcRefresh .. => keeps_of_act (fun _ => rfl) fun _ h => pfcRefresh_inv h _
  -- wake (10)
  | .wakePatternMatch .. => keeps_of_act (fun _ => rfl) fun _ h => wakePatternMatch_inv h _ _
  | .wakeInDetect .. => keeps_of_act (fun _ => rfl) fun _ h => wakeInDetect_inv h
  | .wakeChannelDetect .. => keeps_of_act (fun _ => rfl) fun _ h => wakeChannelDetect_inv h
  | .burstReceived .. => keeps_of_act (fun _ => rfl) fun _ h => burstReceived_inv h _
  | .lineCheckEnd .. => keeps_of_act (fun _ => rfl) fun _ h => lineCheckEnd_inv h _ _
  | .burstListenTimeout .. => keeps_of_act (fun _ => rfl) fun _ h => burstListenTimeout_inv h
  | .wakeBurstSend .. => keeps_of_act (fun _ => rfl) fun _ h => wakeBurstSend_inv h
  | .burstQuiet .. => keeps_of_act (fun _ => rfl) fun _ h => burstQuiet_inv h
  -- field channels (11)
  | .inputThresholdCrossing .. => keeps_of_act (fun _ => rfl) fun _ h => inputCrossing_inv h _ _
  | .dipsSinkOn .. => keeps_of_act (fun _ => rfl) fun _ h => sinkOn_inv h _
  | .dipsSinkOff .. => keeps_of_act (fun _ => rfl) fun _ h => sinkOff_inv h _
  | .currentLimit .. => keeps_of_act (fun _ => rfl) fun _ h => currentLimit_inv h _
  | .thermalCutoff .. => keeps_of_act (fun _ => rfl) fun _ h => thermalCutoff_inv h _
  | .thermalRelease .. => keeps_of_act (fun _ => rfl) fun _ h => thermalRelease_inv h _
  | .openLoadDetect .. => keeps_of_act (fun _ => rfl) fun _ h => openLoadDetect_inv h _
  | .openLoadClear .. => keeps_of_act (fun _ => rfl) fun _ h => openLoadClear_inv h _
  | .couplerLoss .. => keeps_of_act (fun _ => rfl) fun _ h => couplerLoss_inv h _
  | .couplerRestore .. => keeps_of_act (fun _ => rfl) fun _ h => couplerRestore_inv h _
  | .groupSupplyLow .. => keeps_of_act (fun _ => rfl) fun _ h => groupSupplyLow_inv h _
  | .groupSupplyRestore .. => keeps_of_act (fun _ => rfl) fun _ h => groupSupplyRestore_inv h _
  | .forceTimeout .. => keeps_of_act (fun _ => rfl) fun _ h => forceTimeout_inv h _
  -- supplies, temperature (12)
  | .supplySample .. => keeps_of_act (fun _ => rfl) fun _ h => supplySample_inv h _ _ _
  | .overvoltage1s .. => keeps_of_act (fun _ => rfl) fun _ h => overvoltage1s_inv h
  | .unAutoSelect .. => keeps_of_act (fun _ => rfl) fun _ h => unAutoSelect_inv h
  | .auxSample .. => keeps_of_act (fun _ => rfl) fun _ h => auxSample_inv h _ _
  | .tempLevelChange .. => keeps_of_act (fun _ => rfl) fun _ h => tempLevelChange_inv h _ _
  | .tempSensorStuck .. => keeps_of_act (fun _ => rfl) fun _ h => tempSensorStuck_inv h _ _
  -- cores (04, 15)
  | .coreCheckFail .. => keeps_of_act (fun _ => rfl) fun _ h => coreCheckFail_inv h _
  | .takeoverStepDone .. => keeps_of_act (fun _ => rfl) fun _ h => takeoverStepDone_inv h _ _
  | .rxcLoadDone .. => keeps_of_act (fun _ => rfl) fun _ h => rxcLoadDone_inv h
  | .shadowTestDone .. => keeps_of_act (fun _ => rfl) fun _ h => shadowTestDone_inv h _
  | .healthReport .. => keeps_of_act (fun _ => rfl) fun _ h => healthReport_inv h
  | .repairRetry .. => keeps_of_act (fun _ => rfl) fun _ h => repairRetry_inv h
  | .revertHoldoffEnd .. => keeps_of_act (fun _ => rfl) fun _ h => revertHoldoffEnd_inv h
  | .revertLoadDone .. => keeps_of_act (fun _ => rfl) fun _ h => revertLoadDone_inv h
  -- images and the NV store (14)
  | .imageVerified .. => keeps_of_act (fun _ => rfl) fun _ h => imageVerified_inv h
  | .imageLoaded .. => keeps_of_act (fun _ => rfl) fun _ h => imageLoaded_inv h
  | .nvOpDone .. => keeps_of_act (fun _ => rfl) fun _ h => nvOpDone_inv h _
  -- registers and the host port (16, 17, 18)
  | .slowWriteLand .. => keeps_of_act (fun _ => rfl) fun _ h => slowWriteLand_inv h
  | .registerWrite .. | .rcRead .. => keeps_of_act (fun _ => rfl) fun _ h => hostTransaction_inv h _ _ _
  | .hpAbort .. => keeps_of_act (fun _ => rfl) fun _ h => hpAbort_inv h _ _ _ _
  | .cfgDisarm .. => keeps_of_act (fun _ => rfl) fun _ h => cfgDisarm_inv h
  | .txtsPop .. => keeps_of_act (fun _ => rfl) fun _ h => txtsPop_inv h _
  | .drawerSelect .. => keeps_of_act (fun _ => rfl) fun _ h => drawerSelect_inv h _ _
  | .drawerCursor .. => keeps_of_act (fun _ => rfl) fun _ h => drawerCursor_inv h _ _
  | .drawerNext .. => keeps_of_act (fun _ => rfl) fun _ h => drawerNextRow_inv h _
  | .drawerPrev .. => keeps_of_act (fun _ => rfl) fun _ h => drawerPrevRow_inv h _
  | .drawerLoadDone .. => keeps_of_act (fun _ => rfl) fun _ h => drawerLoadDone_inv h _
  | .hostAlloc .. | .hostFree .. | .hostPost .. | .hostTake .. =>
    keeps_of_act (fun _ => rfl) fun _ h => hostGo_inv h _
  | .hostOpInvalid .. => keeps_of_act (fun _ => rfl) fun _ h => hostOpInvalid_inv h _
  -- host commands (16, 17)
  | .commandAccept .. => keeps_of_act (fun _ => rfl) fun _ h => commandAccept_inv h _
  | .inaug .. | .nodeReset .. | .sleepReq .. | .wakeReq .. | .shutterSet .. | .chForce .. | .chForceRelease ..
  | .orderRelease .. | .benchRun .. | .chkpSave .. | .jrnMark .. | .logClearArm .. | .logClearOpl ..
  | .logClearInc .. | .imgStage .. | .nvProgram .. | .nvErase .. | .imgCommit .. | .nvRefresh .. | .keyAdd ..
  | .keyRevoke .. => keeps_of_act (fun _ => rfl) fun _ h => cmdGive_inv h _ _ _
  -- in-band access (16)
  | .openReq .. | .openPdu .. | .requestPdu .. | .closePdu .. =>
    keeps_of_act (fun _ => rfl) fun _ h => pduRow_inv h _ _ _ _
  | .inbandPduVerified .. => keeps_of_act (fun _ => rfl) fun _ h => inbandPduVerified_inv h
  | .inbandOpenTimeout .. => keeps_of_act (fun _ => rfl) fun _ h => inbandOpenTimeout_inv h _
  | .inbandIdleTimeout .. => keeps_of_act (fun _ => rfl) fun _ h => inbandIdleTimeout_inv h _
  -- JNIS instructions of the active core (13)
  | .add .. => keeps_of_alu (fun _ => rfl) fun _ _ _ h => setAdd_inv _ _ (regPut_inv _ _ h)
  | .sub .. | .cmp .. | .cmpu .. => keeps_of_alu (fun _ => rfl) fun _ _ _ h => setSub_inv _ _ (regPut_inv _ _ h)
  | .and .. | .or .. | .xor .. | .nor .. | .mulh .. | .min .. | .max .. =>
    keeps_of_alu (fun _ => rfl) fun _ _ _ h => putZn_inv _ _ h
  | .shl .. | .shr .. | .sar .. => keeps_of_alu (fun _ => rfl) fun _ _ _ h => shiftOp_inv _ _ _ _ h
  | .mul .. => keeps_of_alu (fun _ => rfl) fun _ _ _ h => mulOp_inv _ _ _ h
  | .divu .. | .remu .. => keeps_of_alu (fun _ => rfl) fun _ _ _ h => overflow_inv _ (putZn_inv _ _ h)
  | .addi .. => keeps_of_aluImm (fun _ => rfl) fun _ _ h => setAdd_inv _ _ (regPut_inv _ _ h)
  | .andi .. | .ori .. | .xori .. => keeps_of_aluImm (fun _ => rfl) fun _ _ h => putZn_inv _ _ h
  | .cmpi .. => keeps_of_aluImm (fun _ => rfl) fun _ _ h => setSub_inv _ _ (regPut_inv _ _ h)
  | .ldhi .. => keeps_of_coreOp (fun _ => rfl) fun _ h => regPut_inv _ _ h
  | .shfi .. => keeps_of_aluImm (fun _ => rfl) fun _ _ h => shiftOp_inv _ _ _ _ h
  | .ldw .. | .ldh .. | .ldb .. => keeps_of_act (fun _ => rfl) fun _ h => load_inv h _ _ _ _
  | .stw .. =>
    keeps_of_instr (fun _ => rfl) fun _ _ h =>
      ite_inv (yieldNow_inv h _) (coreOp_inv h _ _ fun _ hc => memStore_inv _ _ _ (wordClean_inv _ hc))
  | .sth .. | .stb .. =>
    keeps_of_instr (fun _ => rfl) fun _ _ h => memRead_inv h _ _ _ _ _ fun _ _ hc => memStore_inv _ _ _ hc
  | .br .. => keeps_of_instr (fun _ => rfl) fun _ _ h => legal_inv h _ _ _ fun _ h => brOp_inv h _ _ _
  | .loop .. => keeps_of_stackOp (fun _ => rfl) fun _ _ h hc => loopOp_inv h _ _ _ _ _ hc
  | .call .. => keeps_of_stackOp (fun _ => rfl) fun _ _ h hc => callOp_inv h _ _ hc
  | .samp .. => keeps_of_service (fun _ => rfl) fun _ _ h => sampOp_inv h _ _ _ _
  | .drv .. => keeps_of_service (fun _ => rfl) fun _ _ h => drvOp_inv h _ _ _ _
  | .cntr .. => keeps_of_service (fun _ => rfl) fun _ _ h => cntrOp_inv h _ _ _ _
  | .meas .. => keeps_of_service (fun _ => rfl) fun _ _ h => measOp_inv h _ _ _ _ _
  | .tww .. => keeps_of_service (fun _ => rfl) fun _ _ h => twwOp_inv h _ _ _ _ _
  | .twrWindowWord .. => keeps_of_service (fun _ => rfl) fun _ _ h => twrWordOp_inv h _ _ _ _
  | .twrWindowHeader .. => keeps_of_service (fun _ => rfl) fun _ _ h => twrHeaderOp_inv h _ _ _
  | .twrFrameHeader .. => keeps_of_service (fun _ => rfl) fun _ _ h => twrFrameOp_inv h _ _ _
  | .vsndWord .. => keeps_of_service (fun _ => rfl) fun _ _ h => vsndWordOp_inv h _ _ _ _
  | .vsndComplete .. => keeps_of_service (fun _ => rfl) fun _ _ h => vsndCompleteOp_inv h _ _ _ _
  | .vsndDynamic .. => keeps_of_service (fun _ => rfl) fun _ _ h => vsndDynamicOp_inv h _ _ _
  | .vrcvWord .. => keeps_of_service (fun _ => rfl) fun _ _ h => vrcvWordOp_inv h _ _ _ _
  | .vrcvStatus .. => keeps_of_service (fun _ => rfl) fun _ _ h => vrcvStatusOp_inv h _ _ _
  | .vrcvDynamic .. => keeps_of_service (fun _ => rfl) fun _ _ h => vrcvDynamicOp_inv h _ _
  | .mpostSend .. => keeps_of_service (fun _ => rfl) fun _ _ h => mpostSendOp_inv h _ _ _ _
  | .mpostTake .. => keeps_of_service (fun _ => rfl) fun _ _ h => mpostTakeOp_inv h _ _
  | .balloc .. => keeps_of_service (fun _ => rfl) fun _ _ h => ballocOp_inv h _ _ _
  | .bfree .. => keeps_of_service (fun _ => rfl) fun _ _ h => bfreeOp_inv h _ _ _
  | .loge .. => keeps_of_service (fun _ => rfl) fun _ _ h => logeOp_inv h _ _ _ _ _
  | .gate .. => keeps_of_service (fun _ => rfl) fun _ _ h => gateOp_inv h _ _
  | .bench .. => keeps_of_service (fun _ => rfl) fun _ _ h => benchOp_inv h _ _ _ _
  | .chkp .. => keeps_of_service (fun _ => rfl) fun _ _ h => chkpOp_inv h _ _
  | .waitg .. => keeps_of_act (fun _ => rfl) fun _ h => waitOp_inv h _
  | .asrtX .. => keeps_of_coreOp (fun _ => rfl) fun _ h => signature_inv _ h
  | .asrtC .. | .asrtZ .. =>
    keeps_of_instr (fun _ => rfl) fun _ _ h => ite_inv (coreOp_inv h _ _ fun _ hc => hc) (yieldNow_inv h _)
  | .cyc .. | .tick .. | .tt .. | .node .. | .ordflag .. => keeps_of_sysr (fun _ => rfl)
  | .awake .. => keeps_of_service (fun _ => rfl) fun _ _ h => awakeOp_inv h _ _ _
  | .chkpStat .. => keeps_of_service (fun _ => rfl) fun _ _ h => chkpStatOp_inv h _ _
  | .benchRes .. => keeps_of_service (fun _ => rfl) fun _ _ h => benchResOp_inv h _ _ _
  | .bufRd .. => keeps_of_service (fun _ => rfl) fun _ _ h => bufRdOp_inv h _ _ _ _
  | .bufWr .. => keeps_of_service (fun _ => rfl) fun _ _ h => bufWrOp_inv h _ _ _ _
  | .bufSet .. => keeps_of_service (fun _ => rfl) fun _ _ h => bufSetOp_inv h _ _ _ _
  | .bufGet .. => keeps_of_service (fun _ => rfl) fun _ _ h => bufGetOp_inv h _ _ _
  | .eqPost .. => keeps_of_service (fun _ => rfl) fun _ _ h => eqPostOp_inv h _ _ _ _
  | .eqTake .. => keeps_of_service (fun _ => rfl) fun _ _ h => eqTakeOp_inv h _ _ _
  | .eqTxts .. => keeps_of_service (fun _ => rfl) fun _ _ h => eqTxtsOp_inv h _ _ _
  -- rows that stand at the table's end
  | .domainSettled .. => keeps_of_act (fun _ => rfl) fun _ h => domainSettled_inv h _
  | .currentLimitEnd .. => keeps_of_act (fun _ => rfl) fun _ h => currentLimitEnd_inv h _
  | .tempSensorPlausible .. => keeps_of_act (fun _ => rfl) fun _ h => tempSensorPlausible_inv h _
  -- commands without operands
  | .cycleStart .. => keeps_of_act (fun _ => rfl) fun _ h => cycleStart_inv h
  | .correctionInterval .. => keeps_of_act (fun _ => rfl) fun _ h => correctionInterval_inv h
  | .switchInstant .. => keeps_of_act (fun _ => rfl) fun _ h => switchInstant_inv h
  | .messageWindowStart .. => keeps_of_act (fun _ => rfl) fun _ h => messageWindowStart_inv h
  | .dynBoundary .. => keeps_of_act (fun _ => rfl) fun _ h => dynBoundary_inv h
  | .budgetWatchdog .. => keeps_of_act (fun _ => rfl) fun _ h => budgetWatchdog_inv h
  | .logClearDisarm .. => keeps_of_act (fun _ => rfl) fun _ h => logClearDisarm_inv h
  | .halt .. => keeps_of_instr (fun _ => rfl) fun _ _ h => haltOp_inv h _
  | .nop .. => keeps_of_coreOp (fun _ => rfl) fun _ h => h
  | .illegalInstruction .. => keeps_of_instr (fun _ => rfl) fun _ _ h => yieldNow_inv h _
  | .ret .. => keeps_of_stackOp (fun _ => rfl) fun _ _ h hc => retOp_inv h _ hc
  | .tnul .. => keeps_of_service (fun _ => rfl) fun _ _ h => tnulOp_inv h _
  | .limpApply .. => keeps_of_act (fun _ => rfl) fun _ h => limpApply_inv h

theorem queue_inv {s : State} (q : List Instr) (h : Inv s) : Inv { s with pending := q } := { h with }

theorem step_idle {s : State} (h : s.pending = []) : step s = .next s := by
  simp [step, h]

theorem step_front {s : State} {c : Instr} {r : List Instr} (h : s.pending = c :: r) :
    step s = exec c { s with pending := r } := by
  simp [step, h]

end Sys2Proof.Machine

open Sys2Proof Sys2Proof.Machine

/-- Settles O4: a step runs the front command, which keeps the invariant, or idles. -/
theorem stepKeepsInvariant : Obligations.StepKeepsInvariant := by
  intro s u h hu
  cases hq : s.pending with
  | nil =>
    rw [step_idle hq] at hu
    cases hu
    exact h
  | cons c r =>
    rw [step_front hq] at hu
    exact exec_keeps c _ _ (queue_inv r h) hu

end

section
/-! Power domains, node state limits, operating seconds and the CFG stores (03). -/

namespace Sys2Proof.Machine

/-! ### The shared operations -/

theorem planned_ne_verifier {d : Nat} (h : planned d = true) : d ≠ 35 := by
  rintro rfl
  simp [planned] at h

theorem planned_lt {d : Nat} (h : planned d = true) : d < 128 := by
  simp [planned] at h
  omega

/-- What entry into `SLEEP` keeps of `PD000` (Table 10.2). -/
theorem goSleep_pwr (c : Nat) (s : State) : (goSleep c s).pwr.node = .sleep ∧ (goSleep c s).pwr.qcut = s.pwr.qcut := by
  simp [goSleep, stateLevels, asleep, alwaysOn, trans_pwr]

/-- Without a latched wake source the node stays in `SLEEP`. -/
theorem sleepLeave_unlatched {s : State} (h : s.pwr.wakeLatch = none) : sleepLeave s = s := by
  simp [sleepLeave, h]

/-! ### The meanings under their conditions -/

section
variable {s : State}

theorem domainSwitchTimeout_late {d : Nat} (hd : d < 128) (h : (s.dom d).act ≠ domTarget s d (s.dom d)) :
    domainSwitchTimeout d s = raise 0x0207 d [w32 d] s := by
  simp [domainSwitchTimeout, hd, h]

/-- A planned domain in service ends at the level called for, whether it had to move or stood there before. -/
theorem domainSettled_dom {d : Nat} (hi : Inv s) (hp : planned d = true) (hr : s.running = true) :
    ((domainSettled d s).dom d).act = domTarget s d (s.dom d) := by
  by_cases h : (s.dom d).act = domTarget s d (s.dom d)
  · have stays : domainSettled d s = s := by simp [domainSettled, ← h]
    rw [stays, h]
  · have moves : domainSettled d s = reach d (domTarget s d (s.dom d)) s := by simp [domainSettled, hp, hr, h]
    rw [moves]
    exact reach_dom d _ s (hi.doms ▸ planned_lt hp)

theorem noImageTimeout_first (hn : s.pwr.node = .bringup) (ha : s.nv.ver.admitted = none)
    (hi : s.pwr.noImage = false) :
    noImageTimeout s = raise 0x0205 noInst [] { s with pwr := { s.pwr with noImage := true } } := by
  simp [noImageTimeout, hn, ha, hi]

theorem sleepMinDwell_unlatched (hn : s.pwr.node = .sleep) (hw : s.pwr.wakeLatch = none) :
    sleepMinDwell s = { s with pwr := { s.pwr with sleepDwelt := true } } :=
  (if_pos hn).trans (sleepLeave_unlatched hw)

theorem quiesceDone_drained (hn : s.pwr.node = .quiesce) (hf : s.pwr.flush = none) (hd : quiesceDrained s = true) :
    quiesceDone s = goSleep 9 s := by
  simp [quiesceDone, hn, hf, hd]

theorem quiesceCut_quiesce (hn : s.pwr.node = .quiesce) (hf : s.pwr.flush = none) :
    quiesceCut s = goSleep 10 (nvCut { s with pwr := { s.pwr with qcut := true } }) := by
  simp [quiesceCut, hn, hf]

theorem opsecTick_counts (ho : s.pwr.node ≠ .off) (hs : s.pwr.node ≠ .sleep) :
    opsecTick s = { s with pwr := { s.pwr with opsec := satInc s.pwr.opsec } } := by
  simp [opsecTick, ho, hs]

theorem cfgStore_awake (ha : s.awake = true) (hf : s.pwr.flush = none) : cfgStore s = { s with nv := { s.nv with
    cfgQ := s.nv.cfgQ ++ [{ opsec := some s.pwr.opsec, n := some s.lg.jseq, clean := false }] } } := by
  simp [cfgStore, ha, hf]

/-! ### The commands -/

theorem gives_domainSwitchTimeout (t d : Nat) (hd : d < 128) (h : (s.dom d).act ≠ domTarget s d (s.dom d)) :
    Gives (.domainSwitchTimeout t d) s (fun u => u.pwr.node = s.pwr.node ∧ Occurred 0x0207 d u) := by
  refine gives_of_act rfl ?_
  rw [domainSwitchTimeout_late (s := begin_ t s) hd h]
  exact ⟨by simp, kick_occurred (raise_occurred _ _ _ _)⟩

theorem gives_domainSettled (t d : Nat) (hi : Inv s) (hp : planned d = true) (hr : s.running = true) :
    Gives (.domainSettled t d) s (fun u => (u.dom d).act = domTarget s d (s.dom d)) := by
  refine gives_of_act rfl ?_
  calc ((nvKick (domainSettled d (begin_ t s))).dom d).act
      = ((domainSettled d (begin_ t s)).dom d).act := by rw [nvKick_dom _ _ (planned_ne_verifier hp)]
    _ = domTarget s d (s.dom d) := domainSettled_dom (begin__inv hi t) hp hr

theorem gives_noImageTimeout (t : Nat) (hn : s.pwr.node = .bringup) (ha : s.nv.ver.admitted = none)
    (hi : s.pwr.noImage = false) : Gives (.noImageTimeout t) s (fun u =>
      u.pwr.noImage = true ∧ Occurred 0x0205 0xFF u) := by
  refine gives_of_act rfl ?_
  rw [noImageTimeout_first (s := begin_ t s) hn ha hi]
  exact ⟨by simp, kick_occurred (raise_occurred _ _ _ _)⟩

theorem gives_sleepMinDwell (t : Nat) (hn : s.pwr.node = .sleep) (hw : s.pwr.wakeLatch = none) :
    Gives (.sleepMinDwell t) s (fun u => u.pwr.node = .sleep ∧ u.pwr.sleepDwelt = true) := by
  refine gives_of_act rfl ?_
  rw [sleepMinDwell_unlatched (s := begin_ t s) hn hw]
  simpa using hn

theorem gives_quiesceDone (t : Nat) (hn : s.pwr.node = .quiesce) (hf : s.pwr.flush = none)
    (hd : quiesceDrained s = true) : Gives (.quiesceDone t) s (fun u => u.pwr.node = .sleep) := by
  refine gives_of_act rfl ?_
  rw [quiesceDone_drained (s := begin_ t s) hn hf hd]
  simp [goSleep_pwr]

theorem gives_quiesceCut (t : Nat) (hn : s.pwr.node = .quiesce) (hf : s.pwr.flush = none) :
    Gives (.quiesceCut t) s (fun u => u.pwr.node = .sleep ∧ u.pwr.qcut = true) := by
  refine gives_of_act rfl ?_
  rw [quiesceCut_quiesce (s := begin_ t s) hn hf]
  simp [goSleep_pwr, nvCut_qcut]

theorem gives_opsecTick (t : Nat) (ho : s.pwr.node ≠ .off) (hs : s.pwr.node ≠ .sleep) :
    Gives (.opsecTick t) s (fun u => u.pwr.opsec = satInc s.pwr.opsec) := by
  refine gives_of_act rfl ?_
  rw [opsecTick_counts (s := begin_ t s) ho hs]
  simp

theorem gives_cfgStore (t : Nat) (ha : s.awake = true) (hf : s.pwr.flush = none) : Gives (.cfgStore t) s (fun u =>
    u.nv.cfgQ = s.nv.cfgQ ++ [{ opsec := some s.pwr.opsec, n := some s.lg.jseq, clean := false }]) := by
  refine gives_of_act rfl ?_
  rw [cfgStore_awake (s := begin_ t s) ha hf]
  simp [begin_]

end

end Sys2Proof.Machine

open Sys2Proof Sys2Proof.Machine

/-- Settles O8: each clause is what the meaning of its command is under the conditions named. -/
theorem domainsAndNodeStates : Obligations.DomainsAndNodeStates :=
  ⟨fun _ t d => gives_domainSwitchTimeout t d, fun _ t d => gives_domainSettled t d, fun _ t => gives_noImageTimeout t,
   fun _ t => gives_sleepMinDwell t, fun _ t => gives_quiesceDone t, fun _ t => gives_quiesceCut t,
   fun _ t => gives_opsecTick t, fun _ t => gives_cfgStore t⟩

end

section
/-! Wake sources, the line check and the wake flood (10). -/

namespace Sys2Proof.Machine

/-! ### The shared operations -/

section
variable {s : State}

/-- A source latched in `SLEEP` starts the line check, before the 10 ms are over too (R299, R300, log 19). -/
theorem wakeLatched_sleep (src : WakeSrc) (hn : s.pwr.node = .sleep) (hw : s.pwr.wakeLatch = none) :
    wakeLatched src s = { s with pwr := { s.pwr with wakeLatch := some src, flood := .check } } := by
  simp [wakeLatched, hn, hw]

theorem wakeLatched_quiesce (src : WakeSrc) (hn : s.pwr.node = .quiesce) (hw : s.pwr.wakeLatch = none) :
    wakeLatched src s = { s with pwr := { s.pwr with wakeLatch := some src } } := by
  simp [wakeLatched, hn, hw]

/-- Past the 10 ms a latched node leaves `SLEEP` once neither the line check nor the listening is open (R299, R300). -/
theorem sleepLeave_wakes {w : WakeSrc} (hn : s.pwr.node = .sleep) (hd : s.pwr.sleepDwelt = true)
    (hw : s.pwr.wakeLatch = some w) (hc : s.pwr.flood ≠ .check) (hl : s.pwr.flood ≠ .listen) :
    sleepLeave s = wakeFromSleep s := by
  simp [sleepLeave, hn, hd, hw, hc, hl]

/-! ### The meanings under their conditions -/

theorem wakeInDetect_sleep (hn : s.pwr.node = .sleep) (hw : s.pwr.wakeLatch = none) : wakeInDetect s =
    { s with pwr := { s.pwr with wakeIn := true, wakeLatch := some ⟨0x01, 0, 0, 0⟩, flood := .check } } :=
  wakeLatched_sleep _ hn hw

theorem wakeInDetect_quiesce (hn : s.pwr.node = .quiesce) (hw : s.pwr.wakeLatch = none) : wakeInDetect s =
    { s with pwr := { s.pwr with wakeIn := true, wakeLatch := some ⟨0x01, 0, 0, 0⟩ } } :=
  wakeLatched_quiesce _ hn hw

theorem wakeChannelDetect_armed {c : Nat} (hn : s.pwr.node = .sleep) (hc : s.pwr.wakeChArmed = some c) :
    wakeChannelDetect s = wakeLatched ⟨0x02, BitVec.ofNat 5 c, 0, 0⟩ s := by
  simp [wakeChannelDetect, hn, hc]

theorem wakePatternMatch_found {n i : Nat} {f : Bytes} (hn : s.pwr.node = .sleep) (hp : (s.dom (26 + n)).act = .low)
    (hi : (s.pwr.filters.getD n []).findIdx? (fun g => g.elim false (fun g => patternMatch g f)) = some i) :
    wakePatternMatch n f s = wakeLatched ⟨0x03, 0, BitVec.ofNat 2 n, BitVec.ofNat 2 i⟩ s := by
  rw [wakePatternMatch, if_neg (by simp [hp]), portFilters, if_pos hn, hi]

theorem burstReceived_bad {b : Word} (h : b ≠ wakeBurst) : burstReceived b s = s := by
  simp [burstReceived, h]

theorem burstReceived_source (ht : s.pwr.tapArmed = true) (hf : s.pwr.flood ≠ .listen) :
    burstReceived wakeBurst s = wakeLatched ⟨0x04, 0, 0, 0⟩ s := by
  simp [burstReceived, ht, hf]

/-- A quiet line with pulses on it, the node not woken by a burst: others are sending their bursts (R300). -/
theorem lineCheckEnd_pulses {w : WakeSrc} (hn : s.pwr.node = .sleep) (hf : s.pwr.flood = .check)
    (hw : s.pwr.wakeLatch = some w) (hc : w.cause ≠ 0x04) :
    lineCheckEnd false true s = { s with pwr := { s.pwr with flood := .listen } } := by
  have notBurst : ¬ w.cause = 4#8 := hc
  simp [lineCheckEnd, hn, hf, hw, notBurst]

/-- Activity on the line: the node wakes without bursts of its own (R300, R304). -/
theorem lineCheckEnd_wakes {w : WakeSrc} (p : Bool) (hn : s.pwr.node = .sleep) (hf : s.pwr.flood = .check)
    (hd : s.pwr.sleepDwelt = true) (hw : s.pwr.wakeLatch = some w) :
    lineCheckEnd true p s = wakeFromSleep { s with pwr := { s.pwr with lineActive := true, flood := .none } } := by
  have active : lineCheckEnd true p s =
      sleepLeave { s with pwr := { s.pwr with lineActive := true, flood := .none } } := by
    simp [lineCheckEnd, hn, hf]
  exact active.trans (sleepLeave_wakes hn hd hw nofun nofun)

/-- No burst came while the node listened: it wakes as an initiator (R300). -/
theorem burstListenTimeout_wakes {w : WakeSrc} (hn : s.pwr.node = .sleep) (hf : s.pwr.flood = .listen)
    (hd : s.pwr.sleepDwelt = true) (hw : s.pwr.wakeLatch = some w) : burstListenTimeout s =
      wakeFromSleep { s with pwr := { s.pwr with flood := .bursts, burstsLeft := 3, relaying := false } } := by
  have silent : burstListenTimeout s =
      sleepLeave { s with pwr := { s.pwr with flood := .bursts, burstsLeft := 3, relaying := false } } := by
    simp [burstListenTimeout, hn, hf]
  exact silent.trans (sleepLeave_wakes hn hd hw nofun nofun)

theorem wakeBurstSend_due (hn : s.pwr.node = .waking ∨ s.pwr.node = .bringup) (hf : s.pwr.flood = .bursts)
    (hb : s.pwr.burstsLeft ≠ 0) : wakeBurstSend s = emit (.burst wakeBurst) { s with pwr := { s.pwr with
      burstsLeft := s.pwr.burstsLeft - 1, flood := if s.pwr.burstsLeft = 1 then .quiet else .bursts } } := by
  simp [wakeBurstSend, hn, hf, hb]

theorem burstQuiet_waiting (hf : s.pwr.flood = .quiet) (hc : s.cycling = true) (hr : s.pwr.relayAWaits = true) :
    burstQuiet s = driveA true { s with pwr := { s.pwr with flood := .none, relayAWaits := false } } :=
  (if_pos hf).trans (if_pos ((Bool.and_eq_true _ _).mpr ⟨hr, hc⟩))

/-! ### The commands -/

theorem gives_wakeInDetect (t : Nat) (hn : s.pwr.node = .sleep) (hw : s.pwr.wakeLatch = none) :
    Gives (.wakeInDetect t) s (fun u =>
      u.pwr.wakeLatch = some ⟨0x01, 0, 0, 0⟩ ∧ u.pwr.flood = .check ∧ u.pwr.node = .sleep) := by
  refine gives_of_act rfl ?_
  rw [wakeInDetect_sleep (s := begin_ t s) hn hw]
  simpa using hn

theorem gives_wakeInDetect_quiesce (t : Nat) (hn : s.pwr.node = .quiesce) (hw : s.pwr.wakeLatch = none) :
    Gives (.wakeInDetect t) s (fun u =>
      u.pwr.wakeLatch = some ⟨0x01, 0, 0, 0⟩ ∧ u.pwr.node = .quiesce) := by
  refine gives_of_act rfl ?_
  rw [wakeInDetect_quiesce (s := begin_ t s) hn hw]
  simpa using hn

theorem gives_wakeChannelDetect (t c : Nat) (hn : s.pwr.node = .sleep) (hw : s.pwr.wakeLatch = none)
    (hc : s.pwr.wakeChArmed = some c) : Gives (.wakeChannelDetect t) s (fun u =>
      u.pwr.wakeLatch = some ⟨0x02, BitVec.ofNat 5 c, 0, 0⟩ ∧ u.pwr.flood = .check) := by
  refine gives_of_act rfl ?_
  rw [wakeChannelDetect_armed (s := begin_ t s) hn hc, wakeLatched_sleep (s := begin_ t s) _ hn hw]
  simp

theorem gives_wakePatternMatch (t : Nat) (n : Fin 4) (f : Bytes) (i : Nat) (hn : s.pwr.node = .sleep)
    (hw : s.pwr.wakeLatch = none) (hp : (s.dom (26 + n.val)).act = .low)
    (hi : (s.pwr.filters.getD n.val []).findIdx? (fun g => g.elim false (fun g => patternMatch g f)) = some i) :
    Gives (.wakePatternMatch t n f) s (fun u =>
      u.pwr.wakeLatch = some ⟨0x03, 0, BitVec.ofNat 2 n.val, BitVec.ofNat 2 i⟩ ∧ u.pwr.flood = .check) := by
  refine gives_of_act rfl ?_
  rw [wakePatternMatch_found (s := begin_ t s) hn hp hi, wakeLatched_sleep (s := begin_ t s) _ hn hw]
  simp

theorem gives_burstReceived (t : Nat) (hn : s.pwr.node = .sleep) (ht : s.pwr.tapArmed = true)
    (hw : s.pwr.wakeLatch = none) (hf : s.pwr.flood ≠ .listen) : Gives (.burstReceived t wakeBurst) s (fun u =>
      u.pwr.wakeLatch = some ⟨0x04, 0, 0, 0⟩ ∧ u.pwr.flood = .check) := by
  refine gives_of_act rfl ?_
  rw [burstReceived_source (s := begin_ t s) ht hf, wakeLatched_sleep (s := begin_ t s) _ hn hw]
  simp

theorem gives_burstReceived_bad (t : Nat) (b : Word) (hb : b ≠ wakeBurst) : Gives (.burstReceived t b) s (fun u =>
    u.pwr.wakeLatch = s.pwr.wakeLatch ∧ u.pwr.flood = s.pwr.flood ∧ u.pwr.node = s.pwr.node) := by
  refine gives_of_act rfl ?_
  rw [burstReceived_bad hb]
  simp

theorem gives_lineCheckEnd_listen (t : Nat) (w : WakeSrc) (hn : s.pwr.node = .sleep) (hf : s.pwr.flood = .check)
    (hw : s.pwr.wakeLatch = some w) (hc : w.cause ≠ 0x04) : Gives (.lineCheckEnd t false true) s (fun u =>
      u.pwr.flood = .listen ∧ u.pwr.node = .sleep) := by
  refine gives_of_act rfl ?_
  rw [lineCheckEnd_pulses (s := begin_ t s) hn hf hw hc]
  simpa using hn

theorem gives_lineCheckEnd_wakes (t : Nat) (w : WakeSrc) (p : Bool) (hn : s.pwr.node = .sleep)
    (hf : s.pwr.flood = .check) (hd : s.pwr.sleepDwelt = true) (hw : s.pwr.wakeLatch = some w) :
    Gives (.lineCheckEnd t true p) s (fun u => u.pwr.node = .waking ∧ u.pwr.wakeSrc = some w ∧
      u.pwr.regOn = true ∧ u.pwr.regAttempts = 1) := by
  refine gives_of_act rfl ?_
  rw [lineCheckEnd_wakes (s := begin_ t s) p hn hf hd hw]
  simpa [hw] using wakeFromSleep_pwr { begin_ t s with pwr := { s.pwr with lineActive := true, flood := .none } }

theorem gives_burstListenTimeout (t : Nat) (w : WakeSrc) (hn : s.pwr.node = .sleep) (hf : s.pwr.flood = .listen)
    (hd : s.pwr.sleepDwelt = true) (hw : s.pwr.wakeLatch = some w) : Gives (.burstListenTimeout t) s (fun u =>
      u.pwr.node = .waking ∧ u.pwr.wakeSrc = some w) := by
  obtain ⟨waking, source, -⟩ := wakeFromSleep_pwr
    { begin_ t s with pwr := { s.pwr with flood := .bursts, burstsLeft := 3, relaying := false } }
  refine gives_of_act rfl ?_
  rw [burstListenTimeout_wakes (s := begin_ t s) hn hf hd hw]
  exact ⟨by simpa using waking, by simpa [hw] using source⟩

theorem gives_wakeBurstSend (t : Nat) (hn : s.pwr.node = .waking ∨ s.pwr.node = .bringup)
    (hf : s.pwr.flood = .bursts) (hb : s.pwr.burstsLeft ≠ 0) : Gives (.wakeBurstSend t) s (fun u =>
      u.pwr.burstsLeft = s.pwr.burstsLeft - 1 ∧ u.wire = [.burst wakeBurst]) := by
  refine gives_of_act rfl ?_
  rw [wakeBurstSend_due (s := begin_ t s) hn hf hb]
  simp [emit, begin_]

theorem gives_burstQuiet (t : Nat) (hf : s.pwr.flood = .quiet) (hc : s.cycling = true)
    (hr : s.pwr.relayAWaits = true) : Gives (.burstQuiet t) s (fun u =>
      u.pwr.flood = .none ∧ u.pwr.relayA = true ∧ u.pwr.relayAWaits = false) := by
  refine gives_of_act rfl ?_
  rw [burstQuiet_waiting (s := begin_ t s) hf hc hr]
  simp [driveA]

end

end Sys2Proof.Machine

open Sys2Proof Sys2Proof.Machine

/-- Settles O9: each clause is what the meaning of its command is under the conditions named. -/
theorem wakeSources : Obligations.WakeSources :=
  ⟨fun _ t => gives_wakeInDetect t, fun _ t => gives_wakeInDetect_quiesce t, fun _ t => gives_wakeChannelDetect t,
   fun _ t n f i => gives_wakePatternMatch t n f i, fun _ t => gives_burstReceived t,
   fun _ t b => gives_burstReceived_bad t b, fun _ t w => gives_lineCheckEnd_listen t w,
   fun _ t w p => gives_lineCheckEnd_wakes t w p, fun _ t w => gives_burstListenTimeout t w,
   fun _ t => gives_wakeBurstSend t, fun _ t => gives_burstQuiet t⟩

end

section
/-! Verification and loading of images in `BRINGUP`, and the ends of NV operations (14). -/

namespace Sys2Proof.Machine

/-! ### The shared operations -/

theorem incUnitDone_mem (s : State) : (incUnitDone s).nv.mem = s.nv.mem := congrArg Prod.fst (incUnitDone_fr.store rfl)

theorem chkUnitDone_mem (s : State) : (chkUnitDone s).nv.mem = s.nv.mem := congrArg Prod.fst (chkUnitDone_fr.store rfl)

/-- Challenges and closed sessions at the end of an operation leave the store and its controller alone. -/
theorem nvOpDone_nv (v : Bool) (s : State) : (nvOpDone v s).nv = (nvFinish v s).nv := keys_nv _

/-! ### The meanings under their conditions -/

section
variable {s : State} {k len : Nat} {gen : Word} {pre : Bytes} {im : Image}

/-- The slot in verification is served whatever `IMG_COMMIT` waits (log 43). -/
theorem imageVerified_bringup (hn : s.pwr.node = .bringup) (hk : s.nv.ver.cur = some k) :
    imageVerified s = slotVerified k s := by
  simp [imageVerified, hn, hk]

/-- An admitted image ends the verification and is announced (R71, R406, R408). -/
theorem slotVerified_admitted (hr : slotRecord s.nv k = some (gen, len, pre))
    (hv : verifyImage s.nv s.dev.variantN k len (some pre) = .admitted im) :
    (slotVerified k s).nv.ver.admitted = some (k, gen, im) ∧ (slotVerified k s).nv.ver.cur = none ∧
      Occurred 0x8080 0xFF (slotVerified k s) := by
  simp only [slotVerified, hr, hv]
  exact ⟨by simp, by simp, raise_occurred _ _ _ _⟩

/-- After a refused image the next slot, if any, is verified (R408). -/
theorem slotVerified_refused {c d : Nat} (hr : slotRecord s.nv k = some (gen, len, pre))
    (hv : verifyImage s.nv s.dev.variantN k len (some pre) = .refused c d) :
    (slotVerified k s).nv.ver.admitted = s.nv.ver.admitted ∧ (slotVerified k s).nv.ver.refused = true ∧
      (slotVerified k s).nv.ver.cur = s.nv.ver.rest.head? := by
  simp only [slotVerified, hr, hv, verifyRefused, raise_nv]
  cases s.nv.ver.rest <;> simp

theorem imageLoaded_admitted (ha : s.nv.ver.admitted = some (k, gen, im)) (hn : s.pwr.node = .bringup)
    (hl : s.nv.ver.loaded = false) : imageLoaded s = { s with
      nv := { s.nv with ver := { s.nv.ver with loaded := true } }
      cr := { s.cr with pxc := coreLoad im s.cr.pxc }
      ch := s.ch.zipIdx.map (fun c => { c.1 with cfg := if s.dev.variantN then 0 else im.channels.getD c.2 0 }) } := by
  simp [imageLoaded, ha, hn, hl]

variable {o : NvOp}

theorem nvFinish_inc (ho : s.nv.op = some o) (he : o.erase = false) (hw : o.who = .inc) :
    nvFinish true s = incUnitDone { s with nv := nvWrite o.addr o.data { s.nv with op := none } } := by
  simp [nvFinish, ho, he, hw]

theorem nvFinish_chk (ho : s.nv.op = some o) (he : o.erase = false) (hw : o.who = .chk) :
    nvFinish true s = chkUnitDone { s with nv := nvWrite o.addr o.data { s.nv with op := none } } := by
  simp [nvFinish, ho, he, hw]

theorem nvFinish_unit_mem (ho : s.nv.op = some o) (he : o.erase = false) (hw : o.who = .inc ∨ o.who = .chk) :
    (nvFinish true s).nv.mem = (nvWrite o.addr o.data s.nv).mem := by
  rcases hw with hw | hw
  · rw [nvFinish_inc ho he hw, incUnitDone_mem]
    rfl
  · rw [nvFinish_chk ho he hw, chkUnitDone_mem]
    rfl

theorem nvFinish_preErase_mem (v : Bool) (ho : s.nv.op = some o) (he : o.erase = true) (hw : o.who = .preErase) :
    (nvFinish v s).nv.mem = (eraseDone (o.addr / 4096) { s with nv := { s.nv with op := none } }).nv.mem := by
  simp [nvFinish, ho, he, hw]

theorem nvFinish_cfg (v : Bool) {c : Cfg} {r : List Cfg} (ho : s.nv.op = some o) (he : o.erase = false)
    (hw : o.who = .cfg) (hq : s.nv.cfgQ = c :: r) :
    (nvFinish v s).nv.cfg = cfgMerge s.nv.cfg c ∧ (nvFinish v s).nv.cfgQ = r := by
  simp [nvFinish, cfgDone, ho, he, hw, hq]

/-! ### The commands -/

theorem gives_imageVerified_admitted (t : Nat) (hn : s.pwr.node = .bringup) (hk : s.nv.ver.cur = some k)
    (hr : slotRecord s.nv k = some (gen, len, pre))
    (hv : verifyImage s.nv s.dev.variantN k len (some pre) = .admitted im) : Gives (.imageVerified t) s (fun u =>
      u.nv.ver.admitted = some (k, gen, im) ∧ u.nv.ver.cur = none ∧ Occurred 0x8080 0xFF u) := by
  obtain ⟨admitted, cur, announced⟩ := slotVerified_admitted (s := begin_ t s) hr hv
  refine gives_of_act rfl ?_
  rw [imageVerified_bringup (s := begin_ t s) hn hk]
  exact ⟨by simpa using admitted, by simpa using cur, kick_occurred announced⟩

theorem gives_imageVerified_refused (t : Nat) {c d : Nat} (hn : s.pwr.node = .bringup)
    (hk : s.nv.ver.cur = some k) (hr : slotRecord s.nv k = some (gen, len, pre))
    (hv : verifyImage s.nv s.dev.variantN k len (some pre) = .refused c d) : Gives (.imageVerified t) s (fun u =>
      u.nv.ver.admitted = s.nv.ver.admitted ∧ u.nv.ver.refused = true ∧ u.nv.ver.cur = s.nv.ver.rest.head?) := by
  refine gives_of_act rfl ?_
  rw [imageVerified_bringup (s := begin_ t s) hn hk]
  simpa using slotVerified_refused (s := begin_ t s) hr hv

theorem gives_imageLoaded (t : Nat) (ha : s.nv.ver.admitted = some (k, gen, im)) (hn : s.pwr.node = .bringup)
    (hl : s.nv.ver.loaded = false) : Gives (.imageLoaded t) s (fun u =>
      u.nv.ver.loaded = true ∧ u.cr.pxc = coreLoad im s.cr.pxc ∧ u.ch.length = s.ch.length) := by
  refine gives_of_act rfl ?_
  rw [imageLoaded_admitted (s := begin_ t s) ha hn hl]
  simp

theorem gives_nvOpDone_unit (t : Nat) (ho : s.nv.op = some o) (he : o.erase = false)
    (hw : o.who = .inc ∨ o.who = .chk) : Gives (.nvOpDone t true) s (fun u =>
      u.nv.mem = (nvWrite o.addr o.data s.nv).mem) := by
  refine gives_of_act rfl ?_
  simpa [nvOpDone_nv] using nvFinish_unit_mem (s := begin_ t s) ho he hw

theorem gives_nvOpDone_erase (t : Nat) (v : Bool) (ho : s.nv.op = some o) (he : o.erase = true)
    (hw : o.who = .preErase) : Gives (.nvOpDone t v) s (fun u =>
      u.nv.mem = (eraseDone (o.addr / 4096) { begin_ t s with nv := { s.nv with op := none } }).nv.mem) := by
  refine gives_of_act rfl ?_
  simpa [nvOpDone_nv] using nvFinish_preErase_mem (s := begin_ t s) v ho he hw

theorem gives_nvOpDone_cfg (t : Nat) (v : Bool) {c : Cfg} {r : List Cfg} (ho : s.nv.op = some o)
    (he : o.erase = false) (hw : o.who = .cfg) (hq : s.nv.cfgQ = c :: r) : Gives (.nvOpDone t v) s (fun u =>
      u.nv.cfg = cfgMerge s.nv.cfg c ∧ u.nv.cfgQ = r) := by
  refine gives_of_act rfl ?_
  simpa [nvOpDone_nv] using nvFinish_cfg (s := begin_ t s) v ho he hw hq

end

end Sys2Proof.Machine

open Sys2Proof Sys2Proof.Machine

/-- Settles O24: each clause is what the meaning of its command is under the conditions named, the first of them by what
the verification answers. -/
theorem imagesAndNvOperations : Obligations.ImagesAndNvOperations := by
  refine ⟨fun s t k gen len pre hn hk hr => ?_, fun _ t _ _ _ => gives_imageLoaded t,
    fun _ t _ => gives_nvOpDone_unit t, fun _ t v _ => gives_nvOpDone_erase t v,
    fun _ t v _ _ _ => gives_nvOpDone_cfg t v⟩
  cases hv : verifyImage s.nv s.dev.variantN k len (some pre) with
  | admitted im => exact gives_imageVerified_admitted t hn hk hr hv
  | refused c d => exact gives_imageVerified_refused t hn hk hr hv

end

section
/-! The frames of the cycle, grid and LIMP actions (04) and of core redundancy, images and the NV controller (14, 15). -/

namespace Sys2Proof.Machine

/-- The state with the wake input as `TF_SNAP` gives it. -/
def withWakeIn (w : Bool) (s : State) : State := { s with pwr := { s.pwr with wakeIn := w } }

theorem withWakeIn_fr (w : Bool) (s : State) : Fr (mask [.pwr]) s (withWakeIn w s) :=
  { Fr.refl _ s with pwr := fun h => absurd h (by decide) }

theorem tfSnapAction_fr (entry : Option Nat) (w : Bool) (s : State) :
    Fr (mask [.pwr, .phase, .tf]) s (tfAction 0x09 entry tfSnap (withWakeIn w s)) :=
  ((withWakeIn_fr w s).weaken (by decide)).trans (tfAction_fr (by decide) fun _ => tfSnap_fr.weaken (by decide))

end Sys2Proof.Machine

open Sys2Proof Sys2Proof.Machine

/-- Settles O48: each meaning has its own frame; the three actions of the train frame have it from that of the engine or
grid entry that runs them. -/
theorem gridCommandFrames : Obligations.GridCommandFrames :=
  ⟨fun _ => touches_of_act (fun _ => rfl) fun _ => cfgStore_fr,
   touches_of_act (fun _ => rfl) fun _ => cycleStart_fr,
   fun _ _ _ => touches_of_act (fun _ => rfl) fun _ => sampleRun_fr _ _ _,
   fun _ => touches_of_act (fun _ => rfl) fun _ => updateRun_fr _,
   fun _ => touches_of_act (fun _ => rfl) fun _ => countRun_fr _,
   fun _ => touches_of_act (fun _ => rfl) fun _ => measureRun_fr _,
   fun _ => touches_of_act (m := mask [.phase, .cyc, .hg, .tf, .wire]) (fun _ => rfl) fun _ =>
     tfAction_fr (by decide) fun _ => tfLaunch_fr.weaken (by decide),
   fun e w => touches_of_act (fun _ => rfl) (tfSnapAction_fr e w),
   fun _ => touches_of_act (m := mask [.phase, .cyc, .hg, .tf, .wire]) (fun _ => rfl) fun _ =>
     tfAction_fr (by decide) fun _ => tfRead_fr.weaken (by decide),
   fun _ => touches_of_act (fun _ => rfl) fun _ => vnStartRun_fr _,
   fun _ => touches_of_act (fun _ => rfl) fun _ => vnCommitRun_fr _,
   fun _ => touches_of_act (fun _ => rfl) fun _ => vnReadRun_fr _,
   fun _ => touches_of_act (fun _ => rfl) fun _ => pwrOnRun_fr _,
   fun _ => touches_of_act (fun _ => rfl) fun _ => pwrOffRun_fr _,
   fun _ => touches_of_act (fun _ => rfl) fun _ => pwrLowRun_fr _,
   fun _ => touches_of_act (fun _ => rfl) fun _ => dmaRun_fr _,
   fun _ => touches_of_act (fun _ => rfl) fun _ => chkpCopyRun_fr _,
   fun _ => touches_of_act (fun _ => rfl) fun _ => taskRun_fr _,
   fun _ => touches_of_act (fun _ => rfl) fun _ => benchSlotRun_fr _,
   fun _ _ _ => touches_of_act (fun _ => rfl) fun _ => benchRequestEnd_fr _ _,
   touches_of_act (fun _ => rfl) fun _ => correctionInterval_fr,
   touches_of_act (fun _ => rfl) fun _ => limpApply_fr⟩

/-- Settles O53: each meaning has its own frame, and the commands add to it only what any command may change. -/
theorem coreCommandFrames : Obligations.CoreCommandFrames :=
  ⟨touches_of_act (fun _ => rfl) fun _ => budgetWatchdog_fr,
   fun _ _ => touches_of_act (fun _ => rfl) fun _ => coreCheckFail_fr _,
   fun _ _ _ => touches_of_act (fun _ => rfl) fun _ => takeoverStepDone_fr _ _,
   fun _ => touches_of_act (fun _ => rfl) fun _ => rxcLoadDone_fr,
   fun _ _ => touches_of_act (fun _ => rfl) fun _ => shadowTestDone_fr _,
   fun _ => touches_of_act (fun _ => rfl) fun _ => healthReport_fr,
   fun _ => touches_of_act (fun _ => rfl) fun _ => repairRetry_fr,
   fun _ => touches_of_act (fun _ => rfl) fun _ => revertHoldoffEnd_fr,
   fun _ => touches_of_act (fun _ => rfl) fun _ => revertLoadDone_fr,
   fun _ => touches_of_act (fun _ => rfl) fun _ => imageVerified_fr,
   fun _ => touches_of_act (fun _ => rfl) fun _ => imageLoaded_fr,
   fun _ _ => touches_of_act (fun _ => rfl) fun _ => nvOpDone_fr _,
   fun _ => touches_of_act (fun _ => rfl) fun _ => slowWriteLand_fr⟩

end

section
/-! The state at the tick of a grid entry: what a rule reads there is as it was before, but the instant (04). -/

namespace Sys2Proof.Machine

section
variable (e : GridEntry) (s : State)

@[simp] theorem atEntry_pwr : (atEntry e s).pwr = s.pwr := rfl
@[simp] theorem atEntry_tf : (atEntry e s).tf = s.tf := rfl
@[simp] theorem atEntry_vn : (atEntry e s).vn = s.vn := rfl
@[simp] theorem atEntry_ch : (atEntry e s).ch = s.ch := rfl
@[simp] theorem atEntry_cr : (atEntry e s).cr = s.cr := rfl
@[simp] theorem atEntry_image : (atEntry e s).image = s.image := rfl
@[simp] theorem atEntry_cycle : (atEntry e s).cyc.cyc = s.cyc.cyc := rfl
@[simp] theorem engineFires_atEntry : engineFires (atEntry e s) = engineFires s := rfl
@[simp] theorem chkLatest_atEntry : chkLatest (atEntry e s) = chkLatest s := rfl
@[simp] theorem winBytes_atEntry (a : Nat) (b : Bytes) : winBytes (atEntry e s) a b = winBytes s a b := rfl

@[simp] theorem usable_atEntry : usable (atEntry e s) = usable s := funext (usable_at e s)

@[simp] theorem dmaMissing_atEntry (d : DmaDesc) : dmaMissing (atEntry e s) d = dmaMissing s d := by
  unfold dmaMissing
  rw [usable_atEntry]

@[simp] theorem chkBankOff_atEntry (im : Image) : chkBankOff im (atEntry e s) = chkBankOff im s := by
  unfold chkBankOff
  rw [usable_atEntry]

@[simp] theorem atEntry_now : (atEntry e s).now = s.cyc.base + max s.cyc.phase (8 * e.tick) := by
  simp [State.now, atEntry, atTick, begin_]

end

theorem now_of_cyc {s x : State} (h : x.cyc = s.cyc) : x.now = s.now := by rw [State.now, State.now, h]

end Sys2Proof.Machine
end

section
/-! The train frame at the node (07): snapshot, read, outbound copies, candidates and launch. -/

namespace Sys2Proof.Machine

/-! ### The action of the engine or of a grid entry -/

/-- The engine's own action runs where the engine fires (R183, R185). -/
theorem gives_engineAction {c : Instr} {k : Byte} {f : State → State} {s x : State} {P : State → Prop}
    (he : exec c s = act 0 (tfAction k none f) x) (hg : engineFires x = true)
    (h : P { nvKick (f (begin_ 0 x)) with pending := x.pending }) : Gives c s P := by
  have action : tfAction k none f (begin_ 0 x) = f (begin_ 0 x) := if_pos hg
  exact ⟨_, he, action.symm ▸ h⟩

/-- A grid entry's action runs at its tick, where the engine does not fire and the train frame's domain is `ON`. -/
theorem gives_entryAction {c : Instr} {k : Byte} {i : Nat} {e : GridEntry} {f : State → State} {s x : State}
    {P : State → Prop} (he : exec c s = act 0 (tfAction k (some i) f) x) (hf : Fires x k i e)
    (hg : engineFires x = false) (hu : usable x 7 = true)
    (h : P { nvKick (f (atEntry e x)) with pending := x.pending }) : Gives c s P := by
  have fires := gridFire_ok k i (fun _ s => if engineFires s then s else onDomain 7 k.toNat f s) (begin_ 0 x) e hf.1 hf.2
  have action : tfAction k (some i) f (begin_ 0 x) = f (atEntry e x) := by
    refine fires.trans ?_
    change (if engineFires (atEntry e x) then _ else onDomain 7 k.toNat f (atEntry e x)) = _
    simp [hg, onDomain, usable_at, hu]
  exact ⟨_, he, action.symm ▸ h⟩

section
variable {s : State}

/-! ### Snapshot and read -/

@[simp] theorem windowContent_begin (t : Nat) (s : State) : windowContent (begin_ t s) = windowContent s := rfl

@[simp] theorem windowContent_atEntry (e : GridEntry) (s : State) : windowContent (atEntry e s) = windowContent s := rfl

theorem gives_tfSnap_engine (w : Bool) (hg : engineFires (withWakeIn w s) = true) : Gives (.tfSnap none w) s (fun u =>
    u.tf.frozen = some (windowContent (withWakeIn w s)) ∧ u.tf.ready = .none) := by
  refine gives_engineAction (x := withWakeIn w s) rfl hg ?_
  simpa using tfSnap_tf (begin_ 0 (withWakeIn w s))

theorem gives_tfSnap_entry {i : Nat} {e : GridEntry} (w : Bool) (hf : Fires s 0x09 i e)
    (hg : engineFires (withWakeIn w s) = false) (hu : usable s 7 = true) : Gives (.tfSnap (some i) w) s (fun u =>
    u.tf.frozen = some (windowContent (withWakeIn w s)) ∧ u.tf.ready = .none) := by
  refine gives_entryAction (x := withWakeIn w s) rfl hf hg hu ?_
  simpa using tfSnap_tf (atEntry e (withWakeIn w s))

theorem gives_tfRead_none (hg : engineFires s = true) (ha : s.tf.accepted = none) (hh : s.tf.held = none) :
    Gives (.tfRead none) s (fun u => u.tf.snap.valid = false ∧ u.tf.snapPrev = s.tf.snap ∧
      u.tf.noCopy = s.tf.noCopy + 1 ∧ Occurred 0x2040 0xFF u) := by
  refine gives_engineAction (x := s) rfl hg ?_
  obtain ⟨valid, prev, counted, event⟩ := tfRead_none (begin_ 0 s) ha hh
  exact ⟨by simpa using valid, by simpa using prev, by simpa using counted, kick_occurred event⟩

theorem gives_tfRead_copy {i : Nat} {e : GridEntry} {c : Copy} {t : Ttr} (hf : Fires s 0x0A i e)
    (hg : engineFires s = false) (hu : usable s 7 = true) (ha : s.tf.accepted = some c) (ht : s.hg.ttr = some t) :
    Gives (.tfRead (some i)) s (fun u => u.tf.snap = (publish c t (atEntry e s)).tf.snap ∧ u.tf.snapPrev = s.tf.snap) := by
  refine gives_entryAction (x := s) rfl hf hg hu ?_
  have published : (s.running && bringupCycle s) = false := (Bool.or_eq_false_iff.mp hg).2
  simpa using tfRead_copy (atEntry e s) c t ha ht published

/-! ### Outbound copies -/

/-- The line's outbound stamp, taken at the instant of the command (R165). -/
def stampedOut (line : Line) (at_ : Int) (s : State) : State := lineTimeMod line (fun y => { y with tOut := some at_ }) s

@[simp] theorem writeOwn_stampedOut_begin (t : Nat) (line : Line) (at_ : Int) (s : State) (x : Ttr) (p : Bytes) :
    writeOwn (stampedOut line at_ (begin_ t s)) x line p = writeOwn (stampedOut line at_ s) x line p := by
  cases line <;> rfl

@[simp] theorem lineTime_stampedOut (line : Line) (at_ : Int) (s : State) :
    (lineTime (stampedOut line at_ s) line).tOut = some at_ := by
  simp [stampedOut, ltm_self]

@[simp] theorem stampedOut_wire (line : Line) (at_ : Int) (s : State) : (stampedOut line at_ s).wire = s.wire :=
  (ltm_hg line _ s).2.2.1

@[simp] theorem begin_wire (t : Nat) (s : State) : (begin_ t s).wire = [] := rfl

@[simp] theorem emit_wire (x : TxItem) (s : State) : (emit x s).wire = s.wire ++ [x] := rfl

@[simp] theorem emit_lineTime (x : TxItem) (s : State) (line : Line) : lineTime (emit x s) line = lineTime s line := rfl

theorem kick_lineTime (l : List Instr) (s : State) (line : Line) :
    lineTime { nvKick s with pending := l } line = lineTime s line := lineTime_cyc (by simp) line

/-- A stamp taken at the instant of a command. -/
theorem stampNow_begin (t : Nat) (s : State) :
    stampNow (begin_ t s) = ((s.cyc.tt.toNat + max s.cyc.phase t : Nat) : Int) := rfl

theorem gives_tfOutbound (t : Nat) {line : Line} {p : Bytes} (good : Bool) {x : Ttr} (hw : forwards s line = true)
    (ho : isOrigin s = false) (hx : s.hg.ttr = some x) (hp : outFault s p = 0) (hr : writes s line = true)
    (hn : onwardFault s (innerPort s line) (outerPort s line) = 0) : Gives (.tfOutbound t line p good) s (fun u =>
      (lineTime u line).tOut = some ((s.cyc.tt.toNat + max s.cyc.phase t : Nat) : Int) ∧
      u.wire = [.train line false
        (writeOwn (stampedOut line ((s.cyc.tt.toNat + max s.cyc.phase t : Nat) : Int) s) x line p) good]) := by
  have forwarded : tfOutbound line p good (begin_ t s) = emit
      (.train line false (writeOwn (stampedOut line (stampNow (begin_ t s)) (begin_ t s)) x line p) good)
      (stampedOut line (stampNow (begin_ t s)) (begin_ t s)) :=
    tfOutbound_writes line p good (begin_ t s) x hw ho hx hp hr hn
  refine gives_of_act rfl ?_
  rw [forwarded, stampNow_begin, kick_lineTime]
  simp

theorem gives_tfOutbound_turned (t : Nat) {line : Line} {p : Bytes} (good : Bool) (hw : forwards s line = true)
    (ho : isOrigin s = false) (hp : outFault s p = 0) (hb : nodesBeyond s line = false)
    (hn : onwardFault s (innerPort s line) (outerPort s line) ≠ 0) (hl : s.tf.turned.length = 2) :
    Gives (.tfOutbound t line p good) s (fun u => (lineTime u line).rt = some 960 ∧ ∃ out,
      u.tf.turned.getD (lineNo line) none = some ⟨out, good⟩ ∧ u.wire = [.train line true out good]) := by
  obtain ⟨roundTrip, out, kept, sent⟩ := tfOutbound_turns line p good (begin_ t s) hw ho hp hb hn hl
  exact gives_of_act rfl ⟨by rw [kick_lineTime, roundTrip], out, by simpa using kept, by simpa using sent⟩

/-! ### Candidates of the merge -/

theorem gives_tfCandidate (t : Nat) {line : Line} {p : Bytes} (r : Nat) {x : Ttr} (hw : forwards s line = true)
    (hx : s.hg.ttr = some x) (hn : s.tf.turned.getD (lineNo line) none = none) (hd : s.tf.readDone = false)
    (ha : s.tf.accepted = none) (hc : candFault s p true = 0) (hb : hdrFlag p 4 = false)
    (hh : hashAgrees s p = true) : Gives (.tfCandidate t line p true r) s (fun u =>
      u.tf.accepted = some ⟨line, p⟩) := by
  obtain ⟨y, judged, hg, tf, fault, hash, -⟩ := tfCandidate_judge line p true r (begin_ t s) hw hn
  refine gives_of_act rfl ?_
  rw [judged]
  simpa using judge_accepts line p y (by simp [hg, hx]) (by simpa [tf] using hd) (by simpa [tf] using ha)
    (fault.trans hc) hb (hash.trans hh)

theorem badCopy_lineA (k : Nat) (s : State) : (badCopy .a k s).tf.badA = s.tf.badA + 1 ∧
    (badCopy .a k s).tf.cands = s.tf.cands ∧ Occurred 0x2041 0 (badCopy .a k s) :=
  ⟨by simp [badCopy], by simp [badCopy], raise_occurred _ _ _ _⟩

theorem gives_tfCandidate_bad (t : Nat) {p : Bytes} {good : Bool} (r : Nat) {x : Ttr} (hw : forwards s .a = true)
    (hx : s.hg.ttr = some x) (hn : s.tf.turned.getD 0 none = none) (hd : s.tf.readDone = false)
    (hc : candFault s p good ≠ 0) : Gives (.tfCandidate t .a p good r) s (fun u =>
      u.tf.badA = s.tf.badA + 1 ∧ u.tf.cands = s.tf.cands ∧ Occurred 0x2041 0 u) := by
  obtain ⟨y, judged, hg, tf, fault, -, -⟩ := tfCandidate_judge .a p good r (begin_ t s) hw hn
  have hf : candFault y p good ≠ 0 := fault.trans_ne hc
  obtain ⟨counted, cands, event⟩ := badCopy_lineA (candFault y p good) y
  refine gives_of_act rfl ?_
  rw [judged, judge_bad .a p good y (by simp [hg, hx]) (by simpa [tf] using hd) hf]
  exact ⟨by simpa [tf] using counted, by simpa [tf] using cands, kick_occurred event⟩

/-! ### Launch -/

@[simp] theorem begin_tt (t : Nat) (s : State) : (begin_ t s).cyc.tt = s.cyc.tt := rfl

@[simp] theorem launchPayload_begin (t : Nat) (s : State) (x : Ttr) (poll : List Nat) :
    launchPayload (begin_ t s) x poll = launchPayload s x poll := rfl

theorem gives_tfLaunch {x : Ttr} (hg : engineFires s = true) (hx : s.hg.ttr = some x) (ho : isOrigin s = true)
    (hc : s.tf.sleepCd = 0) (hm : s.hg.st = .member) (hb : activeOn s .b = false) (hw : writes s .a = false)
    (hp : (s.hp (outerPort s .a)).stepping = false) (hv : (s.hp (outerPort s .a)).speed ≠ 0)
    (hl : slowLink s (outerPort s .a) = false) (hs : (s.hp (outerPort s .a)).settled = true) :
    Gives (.tfLaunch none) s (fun u => u.cyc.lineA.tOut = some ((s.cyc.tt.toNat + 4000 : Nat) : Int) ∧
      u.wire = [.train .a false (launchPayload s x
        (pollList ((byNumber x.recs).map (fun r => r.number.toNat)) s.tf.pend s.tf.rr)) true]) := by
  obtain ⟨wire, stamp⟩ := tfLaunch_one (begin_ 0 s) x hx ho hc hm hb hw hp hv hl hs
  exact gives_engineAction rfl hg ⟨by simpa using stamp, by simpa using wire⟩

end
end Sys2Proof.Machine

open Sys2Proof Sys2Proof.Machine

/-- Settles O13: each clause is what the meaning of its command is under the conditions named, the actions of the train
frame as the engine or the grid entry runs them. -/
theorem trainFrameAtTheNode : Obligations.TrainFrameAtTheNode :=
  ⟨fun _ w => gives_tfSnap_engine w,
   fun _ _ _ w => gives_tfSnap_entry w,
   fun _ => gives_tfRead_none,
   fun _ _ _ _ _ => gives_tfRead_copy,
   fun _ t _ _ _ good => gives_tfOutbound t good,
   fun _ t _ _ good => gives_tfOutbound_turned t good,
   fun _ t _ _ r _ => gives_tfCandidate t r,
   fun _ t _ _ r _ => gives_tfCandidate_bad t r,
   fun _ _ => gives_tfLaunch⟩

end

section
/-! `SAMPLE`, `UPDATE`, `COUNT` and `MEASURE` at the ticks of their entries (11, 12). -/

namespace Sys2Proof.Machine

/-! ### Actions on the channels of a mask -/

/-- An action on one channel: it leaves the other channels and their number, the clock, and all that decides which
domains are usable as they were. -/
structure ChannelAction (f : Nat → State → State) : Prop where
  keep : ∀ n s, usKeep (f n s) = usKeep s
  length : ∀ n s, (f n s).ch.length = s.ch.length
  other : ∀ n m s, m ≠ n → (f n s).chan m = s.chan m
  cyc : ∀ n s, (f n s).cyc = s.cyc

theorem capture_channelAction (v : Nat → Byte) : ChannelAction (fun n => capture n (v n)) where
  keep _ _ := rfl
  length n s := by simp [capture, memSettle_len]
  other n m s h := capture_other n m (v n) s h
  cyc _ _ := rfl

theorem updateChannel_channelAction : ChannelAction updateChannel where
  keep n s := (updateChannel_keep n s).1
  length n s := (updateChannel_keep n s).2.2
  other := updateChannel_other
  cyc n s := (updateChannel_keep n s).2.1

theorem countChannel_channelAction : ChannelAction countChannel where
  keep n s := by unfold countChannel; split <;> rfl
  length n s := by unfold countChannel; split <;> simp [memSettle_len]
  other := countChannel_other
  cyc n s := by unfold countChannel; split <;> rfl

/-- Channel `k` of group `g` is in the mask, and its group logic, front end and coupler are `ON` (R67). -/
structure Selected (mask : Half) (g k : Nat) (s : State) : Prop where
  inGroup : k < 8
  inMask : mask.getLsbD k = true
  group : usable s (38 + g) = true
  frontEnd : usable s (42 + (8 * g + k)) = true
  coupler : usable s (74 + (8 * g + k)) = true

theorem Selected.atEntry {mask : Half} {g k : Nat} {s : State} (h : Selected mask g k s) (e : GridEntry) :
    Selected mask g k (atEntry e s) where
  inGroup := h.inGroup
  inMask := h.inMask
  group := by simpa using h.group
  frontEnd := by simpa using h.frontEnd
  coupler := by simpa using h.coupler

/-- A selected channel is acted on once, with the clock and the channel as they were before the first one. -/
theorem onChannels_selected {f : Nat → State → State} (hf : ChannelAction f) {g kind k : Nat} {mask : Half} {s : State}
    {P : Chan → Prop} (hs : Selected mask g k s) (hc : 8 * g + k < s.ch.length)
    (h : ∀ x : State, x.cyc = s.cyc → x.chan (8 * g + k) = s.chan (8 * g + k) → 8 * g + k < x.ch.length →
      usKeep x = usKeep s → P ((f (8 * g + k) x).chan (8 * g + k))) :
    P ((onChannels g kind mask f s).chan (8 * g + k)) :=
  onChannels_each id (fun _ n c => n = 8 * g + k → P c) g kind mask f s hf.keep hf.length hf.other
    (fun a b => b.cyc = a.cyc) (fun _ => rfl) (fun _ _ _ h k => k.trans h) hf.cyc (fun _ _ => raise_cycs _ _ _ _)
    (by rintro n x cyc chan len hn keep rfl; exact h x cyc chan (len ▸ hn) keep)
    k hs.inGroup hs.inMask hc hs.group hs.frontEnd hs.coupler rfl

section
variable {s : State} {i k : Nat} {e : GridEntry}

/-- The entry at `i` acts with `f` on channel `k` of the group: what holds of that channel afterwards follows from what
`f` does at the entry's tick to the channel as it stood (R67, R85). -/
theorem gives_channel {c : Instr} {code : Byte} {kind g : Nat} {F : GridEntry → State → State} {f : Nat → State → State}
    {P : Chan → Prop} (he : exec c s = act 0 (gridFire code i F) s) (inv : Machine.Inv s) (hf : Fires s code i e)
    (hF : F e (atEntry e s) = onChannels g kind e.param f (atEntry e s)) (ha : ChannelAction f) (hn : g < 4)
    (hs : Selected e.param g k s)
    (h : ∀ x : State, x.now = s.cyc.base + max s.cyc.phase (8 * e.tick) → x.cyc.cyc = s.cyc.cyc →
      x.chan (8 * g + k) = s.chan (8 * g + k) → 8 * g + k < x.ch.length →
      chMode x (8 * g + k) = chMode s (8 * g + k) → P ((f (8 * g + k) x).chan (8 * g + k))) :
    Gives c s (fun u => P (u.chan (8 * g + k))) := by
  refine gives_grid he hf ?_
  rw [hF, kick_chan]
  have inBank : 8 * g + k < (atEntry e s).ch.length := by
    have inGroup := hs.inGroup
    rw [atEntry_ch, inv.chans]
    omega
  refine onChannels_selected ha (hs.atEntry e) inBank
    fun x cyc chan hx keep => h x ?_ ?_ chan hx ?_
  · rw [now_of_cyc cyc, atEntry_now]
  · rw [cyc, atEntry_cycle]
  · exact chMode_of keep _ (by rw [chan])

theorem gives_sample {g : Fin 4} (v : Bytes) (inv : Machine.Inv s) (hf : Fires s 0x01 i e) (ht : e.target.toNat = g.val)
    (hs : Selected e.param g.val k s) :
    Gives (.sample (some i) g v) s (fun u => (u.chan (8 * g.val + k)).capPrev = (s.chan (8 * g.val + k)).cap ∧
      (u.chan (8 * g.val + k)).cap.at_ = s.cyc.base + max s.cyc.phase (8 * e.tick)) := by
  refine gives_channel (P := fun c => c.capPrev = (s.chan (8 * g.val + k)).cap ∧ c.cap.at_ = _) rfl inv hf (if_pos ht)
    (capture_channelAction fun n => v.getD (n % 8) 0) g.isLt hs fun x now _ chan hx _ => ?_
  obtain ⟨prev, instant⟩ := capture_self (8 * g.val + k) (v.getD ((8 * g.val + k) % 8) 0) x hx
  exact ⟨by rw [prev, chan], by rw [instant, now]⟩

/-- The value `UPDATE` applies at an instant: the last of those that took effect at least 2 ticks before, or the value
before (R332). -/
def dueValue (now : Nat) (c : Chan) : Bool :=
  ((c.pend.filter (fun p => p.2 + 16 ≤ now)).getLast?).elim c.grid Prod.fst

theorem gives_update (inv : Machine.Inv s) (hf : Fires s 0x02 i e) (hs : Selected e.param (e.target.toNat % 4) k s)
    (hd : chMode s (8 * (e.target.toNat % 4) + k) = 5) :
    Gives (.update i) s (fun u => (u.chan (8 * (e.target.toNat % 4) + k)).grid =
      dueValue (s.cyc.base + max s.cyc.phase (8 * e.tick)) (s.chan (8 * (e.target.toNat % 4) + k))) := by
  refine gives_channel (P := fun c => c.grid = dueValue _ _) rfl inv hf rfl updateChannel_channelAction
    (Nat.mod_lt _ (by decide)) hs fun x now _ chan hx mode => ?_
  rw [updateChannel_self _ x hx (mode.trans hd), now, chan]
  rfl

theorem gives_count (inv : Machine.Inv s) (hf : Fires s 0x03 i e) (hs : Selected e.param (e.target.toNat % 4) k s)
    (hd : chMode s (8 * (e.target.toNat % 4) + k) = 4) :
    Gives (.count i) s (fun u =>
      (u.chan (8 * (e.target.toNat % 4) + k)).latchPrev = (s.chan (8 * (e.target.toNat % 4) + k)).latch ∧
      (u.chan (8 * (e.target.toNat % 4) + k)).latch.at_ = s.cyc.base + max s.cyc.phase (8 * e.tick) ∧
      (u.chan (8 * (e.target.toNat % 4) + k)).latch.cyc = s.cyc.cyc) := by
  refine gives_channel (P := fun c => c.latchPrev = _ ∧ c.latch.at_ = _ ∧ c.latch.cyc = _) rfl inv hf rfl
    countChannel_channelAction (Nat.mod_lt _ (by decide)) hs fun x now cycle chan hx mode => ?_
  obtain ⟨prev, instant, cyc⟩ := countChannel_self _ x hx (mode.trans hd)
  exact ⟨by rw [prev, chan], by rw [instant, now], by rw [cyc, cycle]⟩

/-! ### The quantities of a set -/

theorem gives_measure {im : Image} {v : Word} (hw : smWf {} s.ms.caps = true) (hf : Fires s 0x04 i e)
    (hi : s.image = some im) (hk : k < (setCodes im e.target.toNat).length)
    (hq : quantity s ((setCodes im e.target.toNat).getD k 0).toNat = some v) : Gives (.measure i) s (fun u =>
      smGet {} u.ms.caps (16 * e.target.toNat + k) =
        ⟨v, s.cyc.cyc, s.cyc.base + max s.cyc.phase (8 * e.tick)⟩) := by
  have captured := measureFold e.target.toNat (setCodes im e.target.toNat)
    (List.range (setCodes im e.target.toNat).length) (atEntry e s) hw List.nodup_range k v (fun _ => hq)
    (fun h => absurd (List.mem_range.mpr hk) h)
  exact gives_grid rfl hf (by simpa [hi] using captured)

end
end Sys2Proof.Machine

open Sys2Proof Sys2Proof.Machine

/-- Settles O15: each clause is what the action does to its channel or quantity at the entry's tick. -/
theorem gridFieldActions : Obligations.GridFieldActions :=
  ⟨fun _ _ _ v _ _ inv hf ht hk hm hg hfe hco => gives_sample v inv hf ht ⟨hk, hm, hg, hfe, hco⟩,
   fun _ _ _ _ inv hf hk hm hg hfe hco => gives_update inv hf ⟨hk, hm, hg, hfe, hco⟩,
   fun _ _ _ _ inv hf hk hm hg hfe hco => gives_count inv hf ⟨hk, hm, hg, hfe, hco⟩,
   fun _ _ _ _ _ _ => gives_measure⟩

end

section
/-! Grid entries of the vehicle network, the power plan, `DMA`, the checkpoint, tasks and bench slots (04, 08, 12). -/

namespace Sys2Proof.Machine

section
variable {s : State} {i : Nat} {e : GridEntry}

/-! ### Vehicle network -/

theorem onDomain_on {d kind : Nat} {f : State → State} {s : State} (h : usable s d = true) : onDomain d kind f s = f s :=
  if_pos h

theorem vnCycleEnd_clk (s : State) : clk (vnCycleEnd s) = clk s := vnCycleEnd_fr.clk rfl rfl

/-- A new cycle of the vehicle network starts 256 ns after the entry's tick, with empty slots (R224, R231). -/
theorem vnStartFire_vn {st : Star} (hu : usable s 12 = true) (hs : s.star = some st) :
    (vnStartFire e s).vn.running = true ∧ (vnStartFire e s).vn.v0 = s.now + 256 ∧ (vnStartFire e s).vn.cyc = s.cyc.cyc ∧
      (vnStartFire e s).vn.dc = 0 ∧ (vnStartFire e s).vn.rx = List.replicate 64 {} := by
  have ended : ∀ x : State, clk x = clk s → x.now = s.now ∧ x.cyc.cyc = s.cyc.cyc := fun x hx => by
    simp only [clk, Prod.mk.injEq] at hx
    exact ⟨by rw [State.now, State.now, hx.1, hx.2.1], hx.2.2.2⟩
  have kept : clk (if s.vn.running then vnCycleEnd s else s) = clk s := by
    split
    · exact vnCycleEnd_clk s
    · rfl
  obtain ⟨now, cycle⟩ := ended _ kept
  simp only [vnStartFire, onDomain_on hu, hs, vsyncSend_vn, now, cycle, and_self]

theorem gives_vnStart {st : Star} (hf : Fires s 0x0C i e) (hu : usable s 12 = true) (hs : s.star = some st) :
    Gives (.vnStart i) s (fun u => u.vn.running = true ∧
      u.vn.v0 = s.cyc.base + max s.cyc.phase (8 * e.tick) + 256 ∧ u.vn.cyc = s.cyc.cyc ∧ u.vn.dc = 0 ∧
      u.vn.rx = List.replicate 64 {}) :=
  gives_grid rfl hf (by simpa using vnStartFire_vn (e := e) (s := atEntry e s) (by simpa using hu) hs)

theorem gives_vnCommit (inv : Machine.Inv s) (hf : Fires s 0x0D i e) (hu : usable s 12 = true)
    (ht : e.target.toNat < 64) : Gives (.vnCommit i) s (fun u => (u.vn.txBuf.getD e.target.toNat {}).done = none ∧
      (u.vn.txBuf.getD e.target.toNat {}).frozen = (s.vn.txBuf.getD e.target.toNat {}).done.map
        (fun d => ((List.range d.1).map (slotByte (s.vn.txBuf.getD e.target.toNat {})), d.2))) := by
  have slot : e.target.toNat < s.vn.txBuf.length := by rwa [inv.slotsTx]
  refine gives_grid rfl hf ?_
  have committed : vnCommitFire e (atEntry e s) = slotMod e.target.toNat (fun x => { x with
      frozen := x.done.map (fun d => ((List.range d.1).map (slotByte x), d.2)), done := none }) (atEntry e s) :=
    onDomain_on (by simpa using hu)
  rw [committed]
  simp only [nvKick_vn, slotMod, getD_modify, atEntry_vn, slot, and_self, if_true]

theorem gives_vnRead {st : Star} (hf : Fires s 0x0E i e) (hu : usable s 12 = true) (hs : s.star = some st)
    (hr : s.vn.running = true) : Gives (.vnRead i) s (fun u => u.vn.pub.cyc = s.vn.cyc ∧ u.vn.pub.valid = true ∧
      u.vn.pub.at_ = s.cyc.base + max s.cyc.phase (8 * e.tick) ∧ u.vn.pubPrev = s.vn.pub) :=
  gives_grid rfl hf (by simpa using vnReadFire_p e st (atEntry e s) (by simpa using hu) hs hr)

/-! ### Power plan -/

/-- A planned domain is given the entry's level; the NV controller, which may then take work, switches only its own. -/
theorem gives_plan {c : Instr} {code : Byte} {l : Level} (he : exec c s = act 0 (gridFire code i (planFire l)) s)
    (inv : Machine.Inv s) (hf : Fires s code i e) (hp : planned e.target.toNat = true) :
    Gives c s (fun u => (u.dom e.target.toNat).ctrl = l) := by
  obtain ⟨notVerifier, inPlan⟩ := planned_ne _ hp
  have known : e.target.toNat < (atEntry e s).pwr.doms.length := by rwa [atEntry_pwr, inv.doms]
  refine gives_grid he hf ?_
  change ((nvKick (planFire l e (atEntry e s))).dom e.target.toNat).ctrl = l
  rw [nvKick_dom _ _ notVerifier, planFire_dom l e _ hp known]

/-! ### Tasks and bench slots -/

theorem taskFire_idle {im : Image} {c : Core} (hi : s.image = some im) (hc : activeCore s = some c) (ht : c.task = none) :
    taskFire e s = activeMod (taskStart im e.target.toNat s.now) s := by
  simp [taskFire, hi, hc, ht]

theorem taskFire_nocore (hc : activeCore s = none) :
    taskFire e s = { s with cr := { s.cr with taskSkip := s.cr.taskSkip + 1 } } := by
  simp [taskFire, hc]

theorem gives_task {im : Image} {x : TaskEntry} (hf : Fires s 0x1C i e) (hi : s.image = some im)
    (hx : im.tasks[e.target.toNat]? = some x) (ha : s.cr.active = 0) (ht : s.cr.pxc.task = none) :
    Gives (.task i) s (fun u => u.cr.pxc.pc = x.entry.toNat ∧ u.cr.pxc.regs = List.replicate 32 0 ∧
      u.cr.pxc.task = some ⟨e.target.toNat, s.cyc.base + max s.cyc.phase (8 * e.tick), 0, x.budget, x.banks, x.xsig⟩ ∧
      u.cr.pxc.rets = [] ∧ u.cr.pxc.loops = []) := by
  have inControl : activeCore (atEntry e s) = some s.cr.pxc := if_pos ha
  refine gives_grid rfl hf ?_
  rw [taskFire_idle (s := atEntry e s) hi inControl ht]
  simp [activeMod, ha, taskStart, hx]

theorem gives_taskSkipped (hf : Fires s 0x1C i e) (ha : s.cr.active = 2) :
    Gives (.task i) s (fun u => u.cr.taskSkip = s.cr.taskSkip + 1) := by
  have noCore : activeCore (atEntry e s) = none := by simp [activeCore, ha]
  refine gives_grid rfl hf ?_
  rw [taskFire_nocore noCore]
  simp

theorem gives_benchSlot (hf : Fires s 0x1E i e) (hu : usable s 120 = true) : Gives (.benchSlot i) s (fun u =>
    u.bn.slot = some (e.target.toNat, s.cyc.base + max s.cyc.phase (8 * e.tick) + 64 * e.param.toNat)) := by
  refine gives_grid rfl hf ?_
  rw [onDomain_on (by simpa using hu), nvKick_bn, benchDecide_slot, atEntry_now]

/-! ### Checkpoint -/

/-- A core without data errors is copied as it stands. -/
theorem chkCorrect_clean (im : Image) (ha : s.cr.active = 0) (hd : s.cr.pxc.dataErr = []) :
    chkCorrect im s.cr.pxc s = s := by
  have clean : { s.cr.pxc with dataErr := s.cr.pxc.dataErr.filter (fun e => !chkCovers im e.1) } = s.cr.pxc := by
    rw [hd, List.filter_nil, ← hd]
  have kept : chkCorrect im s.cr.pxc s =
      activeMod (fun c => { c with dataErr := c.dataErr.filter (fun e => !chkCovers im e.1) }) s := by
    rw [chkCorrect, hd, List.foldl_nil]
  rw [kept, activeMod, if_pos ha, clean]

theorem chkpCopyFire_clean {im : Image} (hi : s.image = some im) (ha : s.cr.active = 0) (hd : s.cr.pxc.dataErr = [])
    (hn : chkTotal im ≠ 0) (hb : chkBankOff im s = none) :
    chkpCopyFire e s = chkLand im ((chkLatest s).elim 0 (fun c => 1 - c.1)) s := by
  have inControl : activeCore s = some s.cr.pxc := if_pos ha
  simp [chkpCopyFire, inControl, hi, hn, hb, hd, chkCorrect_clean im ha hd]

theorem chkLand_pxc {im : Image} {slot : Nat} (ha : s.cr.active = 0) (hr : s.cr.revert = .none) :
    chkLand im slot s = { s with cr := { s.cr with
      chk := s.cr.chk.set slot (some ⟨s.cr.chkSeq, s.cyc.cyc, imgId im, chkGather im s.cr.pxc⟩)
      chkSeq := s.cr.chkSeq + 1 } } := by
  have inControl : activeCore s = some s.cr.pxc := if_pos ha
  simp [chkLand, inControl, hr]

/-- The older of the two slots, or the first (R102). -/
theorem chkSlot_lt (s : State) : (chkLatest s).elim 0 (fun c => 1 - c.1) < 2 := by
  cases chkLatest s with
  | none => exact Nat.zero_lt_two
  | some c => exact Nat.lt_succ_of_le (Nat.sub_le 1 c.1)

theorem gives_chkpCopy {im : Image} (hf : Fires s 0x18 i e) (hi : s.image = some im) (ha : s.cr.active = 0)
    (hd : s.cr.pxc.dataErr = []) (hn : chkTotal im ≠ 0) (hb : chkBankOff im s = none) (hr : s.cr.revert = .none)
    (inv : Machine.Inv s) : Gives (.chkpCopy i) s (fun u =>
      u.cr.chk.getD ((chkLatest s).elim 0 (fun c => 1 - c.1)) none =
        some ⟨s.cr.chkSeq, s.cyc.cyc, imgId im, chkGather im s.cr.pxc⟩ ∧ u.cr.chkSeq = s.cr.chkSeq + 1) := by
  refine gives_grid rfl hf ?_
  rw [chkpCopyFire_clean (s := atEntry e s) hi ha hd hn (by simpa using hb),
    chkLand_pxc (s := atEntry e s) ha hr]
  have slot : (chkLatest s).elim 0 (fun c => 1 - c.1) < s.cr.chk.length := inv.copies ▸ chkSlot_lt s
  simp [List.getD_eq_getElem?_getD, slot]

/-! ### DMA -/

theorem kick_dataCore (l : List Instr) (x : State) : dataCore { nvKick x with pending := l } = dataCore x :=
  dataCore_of (by simp)

/-- A descriptor whose domains are `ON` and whose source has no uncorrectable error moves its bytes (R101). -/
theorem gives_dma {d : DmaDesc} {P : State → Prop} (hf : Fires s 0x14 i e)
    (hd : (s.image.elim [] Image.dma)[e.target.toNat]? = some d) (hm : dmaMissing s d = none)
    (he : (dmaErrs s d).any (fun x => x.2) = false)
    (h : P { nvKick (dmaStore d (dmaSource (atEntry e s) d) (dmaCorrect (dmaErrs s d) (atEntry e s))) with
      pending := s.pending }) : Gives (.dma i) s P := by
  refine gives_grid rfl hf ?_
  rw [dmaFire_ok e d (atEntry e s) hd (by simpa using hm) he]
  exact h

section
variable {d : DmaDesc} (hf : Fires s 0x14 i e) (hd : (s.image.elim [] Image.dma)[e.target.toNat]? = some d)
  (hm : dmaMissing s d = none) (he : (dmaErrs s d).any (fun x => x.2) = false)
include hf hd hm he

theorem gives_dma_window (hw : d.dst = 1) : Gives (.dma i) s (fun u =>
    u.tf.win = winBytes s d.dstAddr (dmaSource (atEntry e s) d)) :=
  gives_dma hf hd hm he (by rw [nvKick_tf, dmaStore_win _ _ _ _ hw, winBytes_atEntry])

theorem gives_dma_slot (hw : d.dst = 3) (inv : Machine.Inv s) : Gives (.dma i) s (fun u => ∀ j < 64,
    u.vn.txBuf.getD j {} = if j = Config.dmaSlot d.dstAddr then
      slotPut (Config.dmaOffset d.dstAddr) (dmaSource (atEntry e s) d) (s.vn.txBuf.getD j {})
    else s.vn.txBuf.getD j {}) := by
  refine gives_dma hf hd hm he fun j hj => ?_
  have slot : j < (atEntry e s).vn.txBuf.length := by rwa [atEntry_vn, inv.slotsTx]
  rw [nvKick_vn, dmaStore_slot _ _ _ _ hw j slot, atEntry_vn]

theorem gives_dma_data (hw : d.dst = 0) : Gives (.dma i) s (fun u =>
    (dataCore u).data = (dataPutBytes d.dstAddr (dmaSource (atEntry e s) d) (dataCore s)).data) := by
  refine gives_dma hf hd hm he ?_
  rw [kick_dataCore, dmaStore_data _ _ _ _ hw, dataCore_of (atEntry_cr e s)]

end
end
end Sys2Proof.Machine

open Sys2Proof Sys2Proof.Machine

/-- Settles O16: each clause is what the entry's action does at its tick. -/
theorem gridPlanAndCoreActions : Obligations.GridPlanAndCoreActions :=
  ⟨fun _ _ _ _ => gives_vnStart,
   fun _ _ _ => gives_vnCommit,
   fun _ _ _ _ => gives_vnRead,
   fun _ _ _ => gives_plan rfl,
   fun _ _ _ => gives_plan rfl,
   fun _ _ _ => gives_plan rfl,
   fun _ _ _ _ _ => gives_task,
   fun _ _ _ => gives_taskSkipped,
   fun _ _ _ => gives_benchSlot,
   fun _ _ _ _ => gives_chkpCopy,
   fun _ _ _ _ => gives_dma_window,
   fun _ _ _ _ => gives_dma_slot,
   fun _ _ _ _ => gives_dma_data⟩

end

section
/-! Yield, takeover, watch, repair, revert and bench requests of the cores (15, 12). -/

namespace Sys2Proof.Machine

section
variable {s : State} {c : Core} {k : TaskRun}

/-! ### Yield (R426, R427) -/

/-- A meaning that makes the core in control yield in its task leaves no core in control, and cause, core, entry and
index in `CR_YIELD`. -/
theorem gives_yieldInTask {i : Instr} {t : Nat} {f : State → State} {cause : Nat} {x : State}
    (he : exec i s = act t f s) (hy : f (begin_ t s) = yieldNow cause x) (hx : x.cr = s.cr)
    (hc : activeCore s = some c) (hk : c.task = some k) : Gives i s (fun u => u.cr.active = 2 ∧
      u.cr.yieldReg = w32 (c.pc % 65536 * 65536 + k.entry % 256 * 256 + s.cr.active * 128 + cause % 128) ∧
      Occurred 0x8100 0xFF u) := by
  obtain ⟨registers, event⟩ := yieldNow_base cause x c k ((activeCore_of hx).trans hc) hk
  simp only [crBase, yieldWord, Prod.mk.injEq, hx] at registers
  refine gives_of_act he ?_
  rw [hy]
  exact ⟨by simpa using registers.1, by simpa using registers.2, kick_occurred event⟩

theorem coreCheckFail_running {cause : Nat} (hx : cause = 0x10 ∨ cause = 0x11 ∨ cause = 0x12 ∨ cause = 0x14)
    (hr : s.running = true) : coreCheckFail cause s = yieldNow cause s := by
  simp [coreCheckFail, hr, hx, or_assoc]

theorem gives_coreCheckFail (t : Nat) {x : BitVec 7}
    (hx : x.toNat = 0x10 ∨ x.toNat = 0x11 ∨ x.toNat = 0x12 ∨ x.toNat = 0x14) (hr : s.running = true)
    (hc : activeCore s = some c) (hk : c.task = some k) : Gives (.coreCheckFail t x) s (fun u => u.cr.active = 2 ∧
      u.cr.yieldReg = w32 (c.pc % 65536 * 65536 + k.entry % 256 * 256 + s.cr.active * 128 + x.toNat % 128) ∧
      Occurred 0x8100 0xFF u) :=
  gives_yieldInTask rfl (coreCheckFail_running (s := begin_ t s) hx hr) rfl hc hk

theorem budgetWatchdog_task (hc : activeCore s = some c) (hk : c.task = some k) : budgetWatchdog s =
    yieldNow 0x13 { s with cyc := { s.cyc with phase := max s.cyc.phase (k.start + 4 * k.budget - s.cyc.base) } } := by
  simp [budgetWatchdog, hc, hk]

theorem gives_budgetWatchdog (hc : activeCore s = some c) (hk : c.task = some k) :
    Gives .budgetWatchdog s (fun u => u.cr.active = 2 ∧
      u.cr.yieldReg = w32 (c.pc % 65536 * 65536 + k.entry % 256 * 256 + s.cr.active * 128 + 0x13) ∧
      Occurred 0x8100 0xFF u) :=
  gives_yieldInTask (cause := 0x13) rfl (budgetWatchdog_task (s := begin_ 0 s) hc hk) rfl hc hk

end

section
variable {s : State} {k : Takeover}

/-! ### The steps of a takeover (R432, R433, R436) -/

/-- What the end of a step does, by the step the takeover is at. -/
theorem takeoverStepDone_calm (p : Bool) (d : Word) (hk : s.cr.takeover = some k) (hf : s.pwr.flush = none) :
    takeoverStepDone p d s =
      if k.step = 1 then takeoverAt 2 s
      else if k.step = 2 then
        if p then takeoverAt (if watchMode s && s.cr.loaded then 4 else 3) s else takeoverFail 2 d s
      else if k.step = 3 then takeoverLoad p d s
      else if k.step = 4 then takeoverOverlay s
      else s := by
  simp [takeoverStepDone, hk, calm, hf]

theorem takeoverAt_takeover (n : Nat) (hk : s.cr.takeover = some k) :
    (takeoverAt n s).cr.takeover = some { k with step := n } := by
  simp [takeoverAt, hk]

theorem takeoverFail_failed (n : Nat) (d : Word) (s : State) : (takeoverFail n d s).cr.takeover = none ∧
    (takeoverFail n d s).cr.rxcFailed = true ∧ Occurred 0x8102 0xFF (takeoverFail n d s) := by
  obtain ⟨cr, -, event⟩ := toNocore_base n d { s with cr := { s.cr with takeover := none, rxcFailed := true } }
  obtain ⟨takeover, failed⟩ := rxcRetire_keep (toNocore n d { s with cr := { s.cr with takeover := none, rxcFailed := true } })
  obtain ⟨-, events⟩ := rxcRetire_base (toNocore n d { s with cr := { s.cr with takeover := none, rxcFailed := true } })
  exact ⟨takeover.trans (by rw [cr]), failed.trans (by rw [cr]), event.mono events⟩

theorem takeoverOverlay_copy {im : Image} {c : ChkCopy} {i : Nat} (hk : s.cr.takeover = some k)
    (hi : s.image = some im) (hc : chkLatest s = some (i, c)) : takeoverOverlay s = { s with cr := { s.cr with
      rxc := chkScatter im c.data s.cr.rxc
      takeover := some { k with step := 5, readyAt := s.now, seq := c.seq } } } := by
  simp [takeoverOverlay, hi, hc, hk, State.now]

theorem gives_takeover_powered (t : Nat) (p : Bool) (d : Word) (hk : s.cr.takeover = some k)
    (hf : s.pwr.flush = none) (hs : k.step = 1) :
    Gives (.takeoverStepDone t p d) s (fun u => u.cr.takeover = some { k with step := 2 }) := by
  refine gives_of_act rfl ?_
  rw [takeoverStepDone_calm (s := begin_ t s) p d hk hf, if_pos hs, nvKick_cr,
    takeoverAt_takeover (s := begin_ t s) 2 hk]

theorem gives_takeover_tested (t : Nat) (d : Word) (hk : s.cr.takeover = some k) (hf : s.pwr.flush = none)
    (hs : k.step = 2) : Gives (.takeoverStepDone t true d) s (fun u =>
      u.cr.takeover = some { k with step := if watchMode s && s.cr.loaded then 4 else 3 }) := by
  refine gives_of_act rfl ?_
  rw [takeoverStepDone_calm (s := begin_ t s) true d hk hf, if_neg (by omega), if_pos hs, if_pos rfl, nvKick_cr,
    takeoverAt_takeover (s := begin_ t s) _ hk]
  rfl

theorem gives_takeover_testFailed (t : Nat) (d : Word) (hk : s.cr.takeover = some k) (hf : s.pwr.flush = none)
    (hs : k.step = 2) : Gives (.takeoverStepDone t false d) s (fun u =>
      u.cr.takeover = none ∧ u.cr.rxcFailed = true ∧ Occurred 0x8102 0xFF u) := by
  obtain ⟨takeover, failed, event⟩ := takeoverFail_failed 2 d (begin_ t s)
  refine gives_of_act rfl ?_
  rw [takeoverStepDone_calm (s := begin_ t s) false d hk hf, if_neg (by omega), if_pos hs, if_neg Bool.false_ne_true]
  exact ⟨by simpa using takeover, by simpa using failed, kick_occurred event⟩

theorem gives_takeover_overlaid (t : Nat) (p : Bool) (d : Word) {im : Image} {c : ChkCopy} {i : Nat}
    (hk : s.cr.takeover = some k) (hf : s.pwr.flush = none) (hs : k.step = 4) (hi : s.image = some im)
    (hc : chkLatest s = some (i, c)) : Gives (.takeoverStepDone t p d) s (fun u =>
      u.cr.takeover = some { k with step := 5, readyAt := s.cyc.base + max s.cyc.phase t, seq := c.seq } ∧
      u.cr.rxc = chkScatter im c.data s.cr.rxc) := by
  refine gives_of_act rfl ?_
  rw [takeoverStepDone_calm (s := begin_ t s) p d hk hf, if_neg (by omega), if_neg (by omega), if_neg (by omega),
    if_pos hs, takeoverOverlay_copy (s := begin_ t s) hk hi hc, nvKick_cr]
  exact ⟨rfl, rfl⟩

/-! ### The watch of the RXC (R431, R438) -/

theorem coreLoadReport_cr (s : State) : (coreLoadReport s).cr = s.cr := coreLoadReport_fr.cr rfl

theorem rxcLoadDone_good {im : Image} (hi : s.image = some im) (hl : s.cr.loading = true) (hr : s.running = true)
    (hb : coreLoadBad s = none) : (rxcLoadDone s).cr =
      { s.cr with loading := false, loaded := true, rxc := coreLoad im s.cr.rxc } := by
  simp [rxcLoadDone, hi, hl, hr, hb, coreLoadReport_cr]

theorem gives_rxcLoadDone (t : Nat) {im : Image} (hi : s.image = some im) (hl : s.cr.loading = true)
    (hr : s.running = true) (hb : coreLoadBad s = none) : Gives (.rxcLoadDone t) s (fun u =>
      u.cr.loading = false ∧ u.cr.loaded = true ∧ u.cr.rxc = coreLoad im s.cr.rxc) := by
  refine gives_of_act rfl ?_
  rw [nvKick_cr, rxcLoadDone_good (s := begin_ t s) hi hl hr hb]
  exact ⟨rfl, rfl, rfl⟩

theorem shadowTestDone_runs (p : Bool) (h : shadowRuns s = true) : (shadowTestDone p s).cr.runs = s.cr.runs + 1 ∧
    (shadowTestDone p s).cr.rxcOk = p ∧ (p = false →
      (shadowTestDone p s).cr.shFails = satInc s.cr.shFails ∧ Occurred 0x8104 0xFF (shadowTestDone p s)) := by
  cases p with
  | true => simp [shadowTestDone, h]
  | false =>
    simp only [shadowTestDone, h, Bool.not_true, Bool.false_eq_true, if_false, raise_cr, true_and, forall_const]
    exact raise_occurred _ _ _ _

theorem gives_shadowTestDone (t : Nat) (p : Bool) (h : shadowRuns s = true) : Gives (.shadowTestDone t p) s (fun u =>
    u.cr.runs = s.cr.runs + 1 ∧ u.cr.rxcOk = p ∧
      (p = false → u.cr.shFails = satInc s.cr.shFails ∧ Occurred 0x8104 0xFF u)) := by
  obtain ⟨runs, result, failed⟩ := shadowTestDone_runs (s := begin_ t s) p h
  exact gives_of_act rfl ⟨by simpa using runs, by simpa using result,
    fun hp => ⟨by simpa using (failed hp).1, kick_occurred (failed hp).2⟩⟩

theorem healthReport_watched (hr : s.running = true) (hw : watchMode s = true) : (healthReport s).cr = s.cr ∧
    Occurred 0x8105 0xFF (healthReport s) := by
  simp only [healthReport, hr, hw, Bool.and_self, if_true, raise_cr, true_and]
  exact raise_occurred _ _ _ _

theorem gives_healthReport (t : Nat) (hr : s.running = true) (hw : watchMode s = true) :
    Gives (.healthReport t) s (fun u => u.cr = s.cr ∧ Occurred 0x8105 0xFF u) := by
  obtain ⟨cr, event⟩ := healthReport_watched (s := begin_ t s) hr hw
  exact gives_of_act rfl ⟨by simpa using cr, kick_occurred event⟩

/-! ### Repair and revert (R440, R442) -/

theorem gives_repairRetry (t : Nat) (hr : s.running = true) (hy : s.cr.pxcYielded = true)
    (hp : s.cr.repairing = true) (hq : s.bn.queue = []) (hb : s.bn.running = none) (hi : s.image.isSome = true)
    (hj : benchJudge s false 5 0 = none) : Gives (.repairRetry t) s (fun u => u.cr.repairStep = 0 ∧
      u.bn.queue = [⟨benchTicket s.bn 16 s.bn.next, 5, 0, 0, 0, true, false⟩]) :=
  gives_of_act rfl (by simpa using repairRetry_p (begin_ t s) hr hy hp hq hb hi hj)

theorem gives_revertHoldoffEnd (t : Nat) (hv : s.cr.revert = .holdoff) (hr : s.running = true)
    (hf : s.pwr.flush = none) : Gives (.revertHoldoffEnd t) s (fun u => u.cr.revert = .load) := by
  have ended : revertHoldoffEnd (begin_ t s) = { begin_ t s with cr := { s.cr with revert := .load } } :=
    if_pos (by simp [hv, calm, hf]; exact hr)
  refine gives_of_act rfl ?_
  rw [ended, nvKick_cr]

theorem revertLoadDone_noCheckpoint {im : Image} (hi : s.image = some im) (hv : s.cr.revert = .load)
    (hr : s.running = true) (hf : s.pwr.flush = none) (hb : coreLoadBad s = none) (hn : chkTotal im = 0) :
    (revertLoadDone s).cr.revert = .boundary ∧ (revertLoadDone s).cr.pxc = coreLoad im s.cr.pxc := by
  simp [revertLoadDone, hi, hv, hr, calm, hf, hb, hn, coreLoadReport_cr]

theorem gives_revertLoadDone (t : Nat) {im : Image} (hi : s.image = some im) (hv : s.cr.revert = .load)
    (hr : s.running = true) (hf : s.pwr.flush = none) (hb : coreLoadBad s = none) (hn : chkTotal im = 0) :
    Gives (.revertLoadDone t) s (fun u => u.cr.revert = .boundary ∧ u.cr.pxc = coreLoad im s.cr.pxc) :=
  gives_of_act rfl (by simpa using revertLoadDone_noCheckpoint (s := begin_ t s) hi hv hr hf hb hn)

/-! ### Bench requests (R362, R366) -/

/-- A request of a task or the host is no step of a repair pass. -/
theorem benchRequestEnd_own (p : Bool) (d : Word) {r : BenchReq} (hb : s.bn.running = some r) (hr : r.repair = false) :
    benchRequestEnd p d s = benchEnd p d s := by
  simp [benchRequestEnd, hb, hr]

theorem gives_benchRequestEnd (t : Nat) (p : Bool) (d : Word) {r : BenchReq} (hb : s.bn.running = some r)
    (hr : r.repair = false) (hs : s.bn.slot = none) : Gives (.benchRequestEnd t p d) s (fun u =>
      u.bn.running = none ∧ u.bn.results = s.bn.results.map (fun x => if x.ticket = r.ticket then
        { r with status := if p then 3 else 4, detail := if p then 0 else d } else x) ∧
      Occurred (if p then 0x7020 else 0x7021) r.kind u) := by
  obtain ⟨running, results, event⟩ := benchEnd_p p d (begin_ t s) r hb hr hs
  refine gives_of_act rfl ?_
  rw [benchRequestEnd_own (s := begin_ t s) p d hb hr]
  exact ⟨by simpa using running, by simpa using results, kick_occurred event⟩

end
end Sys2Proof.Machine

open Sys2Proof Sys2Proof.Machine

/-- Settles O23: each clause is what the meaning of its command is under the conditions named. -/
theorem coresAndRedundancy : Obligations.CoresAndRedundancy :=
  ⟨fun _ t _ _ _ => gives_coreCheckFail t,
   fun _ _ _ => gives_budgetWatchdog,
   fun _ t p d _ => gives_takeover_powered t p d,
   fun _ t d _ => gives_takeover_tested t d,
   fun _ t d _ => gives_takeover_testFailed t d,
   fun _ t p d _ _ _ _ => gives_takeover_overlaid t p d,
   fun _ t _ => gives_rxcLoadDone t,
   fun _ t p => gives_shadowTestDone t p,
   fun _ t => gives_healthReport t,
   fun _ t => gives_repairRetry t,
   fun _ t => gives_revertHoldoffEnd t,
   fun _ t _ => gives_revertLoadDone t,
   fun _ t p d _ => gives_benchRequestEnd t p d⟩

end

section
/-! The position in the macrocycle and the entries it selects (04). -/

namespace Sys2Proof.Machine

/-- The position of a counter one up, wrapping at 65,536: a multiple of the 64 positions. -/
theorem position_succ (c : Half) : (c + 1).toNat % 64 = (c.toNat % 64 + 1) % 64 := by
  have one : (1 : Half).toNat = 1 := rfl
  rw [BitVec.toNat_add, one]
  omega

theorem macroPos_succ {s u : State} (h : u.cyc.cyc = s.cyc.cyc + 1) : macroPos u = macroPos s % 64 + 1 := by
  rw [macroPos, macroPos, h, position_succ]

/-- Away from the power cycle, `CMASK` alone decides whether an entry of the running grid fires (R85, R91). -/
theorem gridEntry_iff {s : State} {i : Nat} {e : GridEntry} {im : Image} (hi : s.image = some im)
    (he : im.grid[i]? = some e) (hr : s.running = true) (hg : s.gr.on = true) (hc : 2 ≤ s.cyc.runCycles) :
    gridEntry s e.kind i = some e ↔ e.cmask.getLsbD (macroPos s - 1) = true := by
  simp [gridEntry, hi, he, hr, hg, hc]

end Sys2Proof.Machine

open Sys2Proof Sys2Proof.Machine

/-- Settles O43, from the definition of the position and the selection of an entry. -/
theorem macrocyclePosition : Obligations.MacrocyclePosition := by
  refine ⟨fun s => ⟨rfl, ?_, ?_⟩, fun _ _ => macroPos_succ, fun s kind i e im hi he hr hg hk hc => ?_⟩
  · exact Nat.le_add_left 1 _
  · exact Nat.mod_lt _ (by decide)
  · subst hk
    exact gridEntry_iff hi he hr hg hc

end

section
/-! The frames of the backbone, inauguration, train frame and message events (05, 07). -/

namespace Sys2Proof.Machine

/-- A received Hinge frame touches every list of parts that has the Hinge (the frame is marked as processed, R128) and
covers the frame of what the node does with it. -/
theorem touches_of_hingeRx {ps : List Part} {m t p : Nat} {c : Instr} {sub : Byte} {h : HingeHdr} {f : State → State}
    (he : ∀ s, exec c s = act t (hingeRx sub p h f) s) (hf : ∀ s, Fr m s (f s))
    (hm : within m (mask (always ++ ps)) = true := by decide) (hh : within 64 m = true := by decide) : Touches ps c :=
  touches_of_act he (fun _ => hingeRx_fr hh hf) hm

end Sys2Proof.Machine

open Sys2Proof Sys2Proof.Machine

/-- Settles O49: each meaning has its own frame, a received Hinge frame that of its processing, and the commands add to it
only what any command may change. -/
theorem backboneCommandFrames : Obligations.BackboneCommandFrames :=
  ⟨fun _ _ _ => touches_of_act (fun _ => rfl) fun _ => linkUp_fr _ _,
   fun _ _ => touches_of_act (fun _ => rfl) fun _ => linkDown_fr _,
   fun _ _ => touches_of_act (fun _ => rfl) fun _ => linkDownWaitEnd_fr _,
   fun _ _ => touches_of_act (fun _ => rfl) fun _ => lineDown2s_fr _,
   fun _ _ _ _ => touches_of_hingeRx (fun _ => rfl) fun _ => stepRx_fr _ _,
   fun _ _ _ _ _ => touches_of_hingeRx (fun _ => rfl) fun _ => stepAckRx_fr _ _ _,
   fun _ _ => touches_of_act (fun _ => rfl) fun _ => stepLinkDrop_fr _,
   fun _ _ => touches_of_act (fun _ => rfl) fun _ => stepComplete_fr _,
   fun _ _ => touches_of_act (fun _ => rfl) fun _ => stepTimeout_fr _,
   fun _ _ => touches_of_act (fun _ => rfl) fun _ => stepRetry_fr _,
   fun _ => touches_of_act (fun _ => rfl) fun _ => relayBDrive_fr,
   fun _ _ => touches_of_act (fun _ => rfl) fun _ => openSideStart_fr _,
   fun _ => touches_of_act (fun _ => rfl) fun _ => bringupLinkWait_fr,
   fun _ _ _ _ => touches_of_hingeRx (fun _ => rfl) fun _ => startRx_fr _ _ _,
   fun _ _ _ _ _ _ _ _ => touches_of_hingeRx (fun _ => rfl) fun _ => probeRx_fr _ _ _ _ _,
   fun _ _ _ _ _ _ _ _ _ _ => touches_of_hingeRx (fun _ => rfl) fun _ => probeRspRx_fr _ _ _ _ _ _ _,
   fun _ => touches_of_act (fun _ => rfl) fun _ => probeInterval_fr,
   fun _ _ => touches_of_act (fun _ => rfl) fun _ => probingEnd_fr _,
   fun _ _ _ _ _ _ => touches_of_hingeRx (fun _ => rfl) fun _ => discoverRx_fr _ _ _ _ _,
   fun _ _ _ _ _ => touches_of_hingeRx (fun _ => rfl) fun _ => ttrRx_fr _ _ _ _,
   fun _ _ _ _ => touches_of_hingeRx (fun _ => rfl) fun _ => admitReqRx_fr _ _ _,
   fun _ _ _ _ _ => touches_of_hingeRx (fun _ => rfl) fun _ => admitRefRx_fr _ _ _ _,
   fun _ => touches_of_act (fun _ => rfl) fun _ => originAmendment_fr,
   fun _ _ => touches_of_act (fun _ => rfl) fun _ => admitResend_fr _,
   fun _ => touches_of_act (fun _ => rfl) fun _ => admitReprobe_fr,
   fun _ _ => touches_of_act (fun _ => rfl) fun _ => inaugAttemptTimeout_fr _,
   fun _ => touches_of_act (fun _ => rfl) fun _ => failedRetry_fr,
   touches_of_act (fun _ => rfl) fun _ => switchInstant_fr,
   fun _ _ _ _ => touches_of_act (fun _ => rfl) fun _ => tfOutbound_fr _ _ _,
   fun _ _ _ _ _ => touches_of_act (fun _ => rfl) fun _ => tfCandidate_fr _ _ _ _,
   touches_of_act (fun _ => rfl) fun _ => messageWindowStart_fr,
   fun _ _ _ => touches_of_act (fun _ => rfl) fun _ => msgFrameRx_fr _ _,
   fun _ _ => touches_of_act (fun _ => rfl) fun _ => msgTxDone_fr _⟩

end

section
/-! Backbone links, speed steps, relay set B and probes (05). -/

namespace Sys2Proof.Machine

/-! ### The ports under the shared operations -/

/-- Every state of a run has the four backbone ports (R119). -/
theorem Inv.hasPort {s : State} (h : Inv s) (p : Fin 4) : p.val < s.hg.ports.length :=
  p.isLt.trans_eq h.ports.symm

theorem otherLine_ne (p : Nat) : p ≠ otherLine p := by
  unfold otherLine
  omega

@[simp] theorem begin_hp (t : Nat) (s : State) (q : Nat) : (begin_ t s).hp q = s.hp q := rfl

theorem Heard.up {sub : Byte} {p : Nat} {h : HingeHdr} {s : State} (hh : Heard sub p h s) : (s.hp p).speed ≠ 0 := by
  obtain ⟨-, -, -, up, -⟩ := hh
  exact up

/-- Sending Hinge frames leaves of the Hinge all but its queue and its sequence number. -/
theorem hg_of_hk {s u : State} (h : hk u = hk s) : ∃ q m, u.hg = { s.hg with queue := q, mseq := m } := by
  have rest : { u.hg with queue := [], mseq := 0 } = { s.hg with queue := [], mseq := 0 } := congrArg Prod.fst h
  refine ⟨u.hg.queue, u.hg.mseq, ?_⟩
  calc u.hg = { ({ u.hg with queue := [], mseq := 0 } : Hinge) with queue := u.hg.queue, mseq := u.hg.mseq } := rfl
    _ = { s.hg with queue := u.hg.queue, mseq := u.hg.mseq } := by rw [rest]

theorem hp_of_hk {s u : State} (h : hk u = hk s) (q : Nat) : u.hp q = s.hp q := by
  obtain ⟨_, _, sent⟩ := hg_of_hk h
  exact hp_of (by rw [sent]) q

@[simp] theorem hingeOwn_hp (ports : List Nat) (ic : Word) (body : Nat → HingeBody) (s : State) (q : Nat) :
    (hingeOwn ports ic body s).hp q = s.hp q := hp_of_hk (hingeOwn_hk _ _ _ _) q

@[simp] theorem raise_hp (c i : Nat) (d : List Word) (s : State) (q : Nat) : (raise c i d s).hp q = s.hp q :=
  hp_of (raise_ports _ _ _ _) q

theorem sendUpdate_hp (s : State) (q : Nat) : (sendUpdate s).hp q = s.hp q := hp_of (sendUpdate_ports s) q

/-- A port changed and every settled mark brought up to date: the port as changed, with its own mark. -/
theorem resettle_hpMod_hp {p : Nat} (f : HgPort → HgPort) {s : State} (h : p < s.hg.ports.length) :
    (resettle (hpMod p f s)).hp p = { f (s.hp p) with settled := settledNow s (f (s.hp p)) } := by
  rw [resettle_hp _ _ (by rwa [hpMod_len]), hpMod_hp _ _ _ h]
  rfl

theorem resettle_hpMod_len (p : Nat) (f : HgPort → HgPort) (s : State) :
    (resettle (hpMod p f s)).hg.ports.length = s.hg.ports.length := by rw [resettle_len, hpMod_len]

theorem msgLinkLost_node (p : Nat) (s : State) : (msgLinkLost p s).pwr.node = s.pwr.node := (msgLinkLost_fr p).node rfl

/-- An exchange of R129 changes of the Hinge only the ports. -/
theorem exchange_hg (p rt res : Nat) (s : State) : ∃ ports, (exchange p rt res s).hg = { s.hg with ports := ports } := by
  unfold exchange
  dsimp only
  split
  · exact ⟨_, rfl⟩
  · split
    · exact ⟨_, raise_hg _ _ _ _⟩
    · exact ⟨_, rfl⟩

/-! ### The meanings under their conditions -/

section
variable {s : State} {p : Nat}

/-- A link lost outside a step, while the other line at that side is not broken: the port waits (R123, R132). -/
theorem linkDown_waits (hp : p < s.hg.ports.length) (hc : s.cycling = true) (hs : (s.hp p).speed ≠ 0)
    (ht : (s.hp p).stepping = false) (hl : lineInUse s p = true) (hb : (s.hp (otherLine p)).broken = false) :
    ((linkDown p s).hp p).speed = 0 ∧ ((linkDown p s).hp p).waiting = true ∧ ((linkDown p s).hp p).nbr = 0 := by
  unfold linkDown
  dsimp only
  rw [if_neg hs, if_neg (by simp [ht])]
  generalize hy : hpMod p _ s = y
  have port : (y.hp p).speed = 0 ∧ (y.hp p).nbr = 0 := by
    rw [← hy, hpMod_hp _ _ _ hp]
    exact ⟨rfl, rfl⟩
  have other : (y.hp (otherLine p)).broken = false := by rw [← hy, hpMod_other _ _ _ _ (otherLine_ne p), hb]
  have node : (msgLinkLost p y).pwr.node = s.pwr.node := (msgLinkLost_node p y).trans (by rw [← hy]; rfl)
  have len : p < (msgLinkLost p y).hg.ports.length := by
    rw [msgLinkLost_ports, ← hy]
    exact hp.trans_eq (hpMod_len p _ s).symm
  have cycling : (msgLinkLost p y).cycling = true := by rw [← hc, State.cycling, State.cycling, node]
  have inUse : lineInUse (msgLinkLost p y) p = true := by rw [← hl, lineInUse, lineInUse, node]
  rw [if_neg (by simp [cycling, inUse]), if_neg (by simp [msgLinkLost_hp, other]), hpMod_hp _ _ _ len, msgLinkLost_hp]
  exact ⟨port.1, rfl, port.2⟩

/-- Inside a step the link drops without a link loss (R120, R123). -/
theorem stepLinkDrop_port (hp : p < s.hg.ports.length) (ht : (s.hp p).stepping = true) :
    ((stepLinkDrop p s).hp p).speed = 0 ∧ ((stepLinkDrop p s).hp p).settled = false ∧
    ((stepLinkDrop p s).hp p).stepping = true := by
  rw [stepLinkDrop, if_pos ht, msgLinkLost_hp, hpMod_hp _ _ _ hp]
  exact ⟨rfl, rfl, ht⟩

/-- One line at the side still holds a link: a line break (R132). -/
theorem linkDownWaitEnd_breaks (hc : s.cycling = true) (hw : (s.hp p).waiting = true) (hs : (s.hp p).speed = 0)
    (ho : portInUse s (otherLine p) = true) : linkDownWaitEnd p s =
      raise 0x1010 (portLine p) [w32 (portLine p), w32 (ownNumber s), w32 p]
        (hpMod p (fun x => { x with waiting := false, broken := true }) s) := by
  simp [linkDownWaitEnd, hc, hw, hs, ho]

/-- No line at the side holds a link: an uncoupling (R132). -/
theorem linkDownWaitEnd_uncouples (hc : s.cycling = true) (hw : (s.hp p).waiting = true) (hs : (s.hp p).speed = 0)
    (ho : portInUse s (otherLine p) = false) : linkDownWaitEnd p s = uncouple (isFront p) s := by
  simp [linkDownWaitEnd, hc, hw, hs, ho]

theorem lineDown2s_broken (hc : s.cycling = true) (hb : (s.hp p).broken = true) (hs : (s.hp p).speed = 0) :
    lineDown2s p s = raise 0x1012 (portLine p) [] s := by
  simp [lineDown2s, hc, hb, hs]

/-- Both ends in `RUN` or `NOCORE`: the step begins, and the answer says which end is master (R120). -/
theorem stepRx_port (n : Byte) (hp : p < s.hg.ports.length) (hr : s.running = true) (hn : steps n = true)
    (hs : (s.hp p).speed = 1) : ((stepRx p n s).hp p).stepping = true ∧ ((stepRx p n s).hp p).nbrState = n ∧
      ((stepRx p n s).hp p).master = isMaster s p := by
  unfold stepRx
  extract_lets heard m answering
  have port : heard.hp p = { s.hp p with nbrState := n, settled := settledNow s { s.hp p with nbrState := n } } :=
    resettle_hpMod_hp _ hp
  have len : p < heard.hg.ports.length := hp.trans_eq (resettle_hpMod_len p _ s).symm
  have running : heard.running = true := hr
  have master : m = isMaster s p := by
    simp only [m, isMaster, port]
    rfl
  have stepping : answering.hp p = { heard.hp p with
      stepping := true, master := m
      settled := settledNow heard { heard.hp p with stepping := true, master := m } } := resettle_hpMod_hp _ len
  simp [running, hn, port, hs, stepping, master]

theorem stepAckRx_port (n : Byte) (m : Bool) (hp : p < s.hg.ports.length) (hr : s.running = true)
    (hs : (s.hp p).speed = 1) (ht : (s.hp p).stepping = false) : ((stepAckRx p n m s).hp p).stepping = true ∧
      ((stepAckRx p n m s).hp p).nbrState = n ∧ ((stepAckRx p n m s).hp p).master = m := by
  unfold stepAckRx
  extract_lets heard
  have port : heard.hp p = { s.hp p with nbrState := n, settled := settledNow s { s.hp p with nbrState := n } } :=
    resettle_hpMod_hp _ hp
  have len : p < heard.hg.ports.length := hp.trans_eq (resettle_hpMod_len p _ s).symm
  have running : heard.running = true := hr
  simp [running, port, hs, ht, resettle_hpMod_hp _ len]

/-- At 1000BASE-T a link is settled, and the report of the line-B step leaves the ports alone (R121, R148). -/
theorem stepComplete_port (hp : p < s.hg.ports.length) (ht : (s.hp p).stepping = true) :
    ((stepComplete p s).hp p).speed = 2 ∧ ((stepComplete p s).hp p).stepping = false ∧
    ((stepComplete p s).hp p).settled = true := by
  rw [stepComplete, if_neg (by simp [ht])]
  extract_lets done
  have port : (if 2 ≤ p && !(done.hp (opposite p)).stepping then sendUpdate done else done).hp p = done.hp p := by
    split
    · exact sendUpdate_hp _ _
    · rfl
  rw [port, resettle_hpMod_hp _ hp]
  simp [settledNow]

theorem stepTimeout_stepping (ht : (s.hp p).stepping = true) : stepTimeout p s = raise 0x1015 p []
    (resettle (hpMod p (fun x => { x with speed := 1, stepping := false, stepFailed := true }) s)) := by
  simp [stepTimeout, ht]

theorem stepRetry_failed (hr : s.running = true) (hs : (s.hp p).speed = 1) (hf : (s.hp p).stepFailed = true)
    (ht : (s.hp p).stepping = false) : stepRetry p s = stepPort p s := by
  simp [stepRetry, hr, hs, hf, ht]

theorem relayBDrive_drives (hr : s.running = true) (ha : s.hg.st ≠ .admitting) (hf : s.hg.refused = false)
    (hb : s.pwr.relayB = false) : relayBDrive s = driveB true s := by
  simp [relayBDrive, hr, ha, hf, hb]

/-- While no composition runs the answer leaves at once, with no hash to report (R124, R129). -/
theorem probeRx_answers (h : HingeHdr) (a n : Byte) (r : Word) (hp : p < s.hg.ports.length) (hs : (s.hp p).speed ≠ 0)
    (ht : s.hg.ttr.isNone = true) : ((probeRx p h a n r s).hp p).nbrState = n ∧
      ((probeRx p h a n r s).hp p).nbrPort = a.toNat ∧ (probeRx p h a n r s).wire = s.wire ++ [.hinge p
        ⟨hingeHdr s p (ownCount s), .probeRsp (BitVec.ofNat 8 p) (BitVec.ofNat 8 s.hg.st.code) h.mseq 0 r⟩] := by
  unfold probeRx
  extract_lets heard
  have port : heard.hp p = { s.hp p with
      nbrState := n, nbrPort := a.toNat
      settled := settledNow s { s.hp p with nbrState := n, nbrPort := a.toNat } } := resettle_hpMod_hp _ hp
  have noHash : heldHash heard = 0 := by
    have none : heard.hg.ttr = none := Option.isNone_iff_eq_none.mp ht
    simp [heldHash, none]
  refine ⟨by simp [port], by simp [port], ?_⟩
  rw [hingeOwn_wire _ _ _ heard (by simpa [port] using hs) ht, noHash]
  rfl

/-- Below sixteen exchanges the measurement goes on, whether a further `PROBE` follows or not (R129). -/
theorem probeRspRx_measures (h : HingeHdr) (a st : Byte) (r : Word) (rt : Nat) (cab : Bool)
    (hp : p < s.hg.ports.length) (hu : s.hg.st ≠ .unnumbered) (hc : (s.hp p).rttCount < 16) :
    ((probeRspRx p h a st r rt cab s).hp p).rttCount = (s.hp p).rttCount + 1 ∧
    ((probeRspRx p h a st r rt cab s).hp p).rttSum = (s.hp p).rttSum + (rt - r.toNat) ∧
    (probeRspRx p h a st r rt cab s).hg.cab = cab := by
  unfold probeRspRx
  extract_lets named hinge measured
  have port : State.hp { named with hg := { hinge with cab := cab } } p = { s.hp p with nbrPort := a.toNat } :=
    hpMod_hp _ _ _ hp
  obtain ⟨count, sum⟩ := exchange_hp p rt r.toNat { named with hg := { hinge with cab := cab } } (by rwa [port])
    (hp.trans_eq (hpMod_len p _ s).symm)
  obtain ⟨_, kept⟩ := exchange_hg p rt r.toNat { named with hg := { hinge with cab := cab } }
  have numbered : measured.hg.st ≠ .unnumbered := by
    rw [kept]
    exact hu
  have cabRead : measured.hg.cab = cab := by rw [kept]
  rw [port] at count sum
  rw [if_neg (by simp [numbered])]
  split
  · obtain ⟨_, _, sent⟩ := hg_of_hk (probePort_hk p measured)
    rw [hp_of_hk (probePort_hk p measured), sent]
    exact ⟨count, sum, cabRead⟩
  · exact ⟨count, sum, cabRead⟩

theorem probeInterval_probing (hc : s.cycling = true) (hs : s.hg.st = .probing) :
    probeInterval s = (upPorts s).foldl (fun s p => probePort p s) s := by
  simp [probeInterval, hc, hs]

end

/-! ### The commands -/

section
variable {s : State}

theorem gives_linkUp (t : Nat) (p : Fin 4) (n : DWord) (hi : Inv s) (hc : s.cycling = true) (hs : (s.hp p).speed = 0)
    (ht : (s.hp p).stepping = false) (hn : n ≠ s.dev.nodeId) : Gives (.linkUp t p n) s (fun u =>
      (u.hp p).speed = 1 ∧ (u.hp p).nbr = n ∧ (u.hp p).waiting = false) := by
  refine gives_of_act rfl ?_
  simp only [kick_hp]
  exact linkUp_ports p n (begin_ t s) hc hs ht hn (hi.hasPort p)

theorem gives_linkDown (t : Nat) (p : Fin 4) (hi : Inv s) (hc : s.cycling = true) (hs : (s.hp p).speed ≠ 0)
    (ht : (s.hp p).stepping = false) (hl : lineInUse s p = true) (hb : (s.hp (otherLine p)).broken = false) :
    Gives (.linkDown t p) s (fun u => (u.hp p).speed = 0 ∧ (u.hp p).waiting = true ∧ (u.hp p).nbr = 0) := by
  refine gives_of_act rfl ?_
  simp only [kick_hp]
  exact linkDown_waits (s := begin_ t s) (hi.hasPort p) hc hs ht hl hb

theorem gives_stepLinkDrop (t : Nat) (p : Fin 4) (hi : Inv s) (ht : (s.hp p).stepping = true) :
    Gives (.stepLinkDrop t p) s (fun u =>
      (u.hp p).speed = 0 ∧ (u.hp p).settled = false ∧ (u.hp p).stepping = true) := by
  refine gives_of_act rfl ?_
  simp only [kick_hp]
  exact stepLinkDrop_port (s := begin_ t s) (hi.hasPort p) ht

theorem gives_lineBreak (t : Nat) (p : Fin 4) (hi : Inv s) (hc : s.cycling = true) (hw : (s.hp p).waiting = true)
    (hs : (s.hp p).speed = 0) (ho : portInUse s (otherLine p) = true) : Gives (.linkDownWaitEnd t p) s (fun u =>
      (u.hp p).broken = true ∧ (u.hp p).waiting = false ∧ u.hg.st = s.hg.st ∧ Occurred 0x1010 (portLine p) u) := by
  refine gives_of_act rfl ?_
  rw [linkDownWaitEnd_breaks (s := begin_ t s) hc hw hs ho]
  simp only [kick_hp, raise_hp, hpMod_hp _ _ (begin_ t s) (hi.hasPort p), true_and]
  exact ⟨by simp [hpMod], kick_occurred (raise_occurred _ _ _ _)⟩

theorem gives_uncoupling (t : Nat) (p : Fin 4) (hc : s.cycling = true) (hr : s.hg.refused = false)
    (hw : (s.hp p).waiting = true) (hs : (s.hp p).speed = 0) (ho : portInUse s (otherLine p) = false) :
    Gives (.linkDownWaitEnd t p) s (fun u => u.hg.st = .probing ∧ u.hg.lastCause = 2 ∧
      u.hg.running = s.hg.running + 1 ∧ Occurred 0x1000 0xFF u) := by
  obtain ⟨st, cause, running, event⟩ := uncouple_hg (isFront p) (begin_ t s) hc hr
  refine gives_of_act rfl ?_
  rw [linkDownWaitEnd_uncouples (s := begin_ t s) hc hw hs ho]
  exact ⟨by simpa using st, by simpa using cause, by simpa using running, kick_occurred event⟩

theorem gives_lineDown2s (t : Nat) (p : Fin 4) (hc : s.cycling = true) (hb : (s.hp p).broken = true)
    (hs : (s.hp p).speed = 0) : Gives (.lineDown2s t p) s (fun u =>
      u.hg = s.hg ∧ Occurred 0x1012 (portLine p) u) := by
  refine gives_of_act rfl ?_
  rw [lineDown2s_broken (s := begin_ t s) hc hb hs]
  exact ⟨by simp, kick_occurred (raise_occurred _ _ _ _)⟩

theorem gives_step (t : Nat) (p : Fin 4) (h : HingeHdr) (n : Byte) (hi : Inv s) (hh : Heard 0x17 p h s)
    (hr : s.running = true) (hn : steps n = true) (hs : (s.hp p).speed = 1) : Gives (.step t p h n) s (fun u =>
      (u.hp p).stepping = true ∧ (u.hp p).nbrState = n ∧ (u.hp p).master = isMaster s p) := by
  refine gives_heard rfl hh ?_
  simp only [kick_hp]
  exact stepRx_port (s := heardOf 0x17 h (begin_ t s)) n (hi.hasPort p) hr hn hs

theorem gives_stepAck (t : Nat) (p : Fin 4) (h : HingeHdr) (n : Byte) (m : Bool) (hi : Inv s) (hh : Heard 0x18 p h s)
    (hr : s.running = true) (hs : (s.hp p).speed = 1) (ht : (s.hp p).stepping = false) :
    Gives (.stepAck t p h n m) s (fun u =>
      (u.hp p).stepping = true ∧ (u.hp p).nbrState = n ∧ (u.hp p).master = m) := by
  refine gives_heard rfl hh ?_
  simp only [kick_hp]
  exact stepAckRx_port (s := heardOf 0x18 h (begin_ t s)) n m (hi.hasPort p) hr hs ht

theorem gives_stepComplete (t : Nat) (p : Fin 4) (hi : Inv s) (ht : (s.hp p).stepping = true) :
    Gives (.stepComplete t p) s (fun u =>
      (u.hp p).speed = 2 ∧ (u.hp p).stepping = false ∧ (u.hp p).settled = true) := by
  refine gives_of_act rfl ?_
  simp only [kick_hp]
  exact stepComplete_port (s := begin_ t s) (hi.hasPort p) ht

theorem gives_stepTimeout (t : Nat) (p : Fin 4) (hi : Inv s) (ht : (s.hp p).stepping = true) :
    Gives (.stepTimeout t p) s (fun u => (u.hp p).speed = 1 ∧ (u.hp p).stepping = false ∧
      (u.hp p).stepFailed = true ∧ Occurred 0x1015 p u) := by
  refine gives_of_act rfl ?_
  rw [stepTimeout_stepping (s := begin_ t s) ht]
  simp only [kick_hp, raise_hp, resettle_hpMod_hp _ (s := begin_ t s) (hi.hasPort p), true_and]
  exact kick_occurred (raise_occurred _ _ _ _)

theorem gives_stepRetry (t : Nat) (p : Fin 4) (hr : s.running = true) (hs : (s.hp p).speed = 1)
    (hf : (s.hp p).stepFailed = true) (ht : (s.hp p).stepping = false) (hc : s.hg.ttr.isNone = false)
    (hw : s.tf.window = false) : Gives (.stepRetry t p) s (fun u => u.hg.queue = s.hg.queue ++
      [(p.val, ⟨hingeHdr s p (ownCount s), .step (BitVec.ofNat 8 s.pwr.node.code)⟩)]) := by
  have up : ((begin_ t s).hp p).speed ≠ 0 := by simp [hs]
  obtain ⟨queued, -⟩ := hingeOwn_queue p (ownCount (begin_ t s))
    (fun _ => .step (BitVec.ofNat 8 (begin_ t s).pwr.node.code)) (begin_ t s) up hc hw
  refine gives_of_act rfl ?_
  rw [stepRetry_failed (s := begin_ t s) hr hs hf ht]
  exact (congrArg Hinge.queue (nvKick_hg _)).trans queued

theorem gives_relayBDrive (t : Nat) (hr : s.running = true) (ha : s.hg.st ≠ .admitting) (hf : s.hg.refused = false)
    (hb : s.pwr.relayB = false) : Gives (.relayBDrive t) s (fun u => u.pwr.relayB = true) := by
  refine gives_of_act rfl ?_
  rw [relayBDrive_drives (s := begin_ t s) hr ha hf hb]
  simp [driveB]

theorem gives_probe (t : Nat) (p : Fin 4) (h : HingeHdr) (a n : Byte) (x f r : Word) (hi : Inv s)
    (hh : Heard 0x11 p h s) (ht : s.hg.ttr.isNone = true) : Gives (.probe t p h a n x f r) s (fun u =>
      (u.hp p).nbrState = n ∧ (u.hp p).nbrPort = a.toNat ∧ u.wire = [.hinge p ⟨hingeHdr s p (ownCount s),
        .probeRsp (BitVec.ofNat 8 p) (BitVec.ofNat 8 s.hg.st.code) h.mseq 0 r⟩]) := by
  obtain ⟨state, port, answer⟩ := probeRx_answers (s := heardOf 0x11 h (begin_ t s)) h a n r (hi.hasPort p) hh.up ht
  refine gives_heard rfl hh ?_
  simp only [kick_hp]
  exact ⟨state, port, (nvKick_wire _).trans answer⟩

theorem gives_probeRsp (t : Nat) (p : Fin 4) (h : HingeHdr) (a st : Byte) (e : Half) (x r : Word) (rt : Nat) (cab : Bool)
    (hi : Inv s) (hh : Heard 0x12 p h s) (hu : s.hg.st ≠ .unnumbered) (hc : (s.hp p).rttCount < 16) :
    Gives (.probeRsp t p h a st e x r rt cab) s (fun u => (u.hp p).rttCount = (s.hp p).rttCount + 1 ∧
      (u.hp p).rttSum = (s.hp p).rttSum + (rt - r.toNat) ∧ u.hg.cab = cab) := by
  obtain ⟨count, sum, read⟩ := probeRspRx_measures (s := heardOf 0x12 h (begin_ t s)) h a st r rt cab
    (hi.hasPort p) hu hc
  refine gives_heard rfl hh ?_
  simp only [kick_hp]
  exact ⟨count, sum, (congrArg Hinge.cab (nvKick_hg _)).trans read⟩

theorem gives_probeInterval (t : Nat) (hc : s.cycling = true) (hs : s.hg.st = .probing) (ht : s.hg.ttr = none) :
    Gives (.probeInterval t) s (fun u => ∀ p < 4, (s.hp p).speed ≠ 0 → ∃ h, TxItem.hinge p
      ⟨h, .probe (BitVec.ofNat 8 p) (BitVec.ofNat 8 s.pwr.node.code) 0 (ownFp s)⟩ ∈ u.wire) := by
  refine gives_of_act rfl ?_
  rw [probeInterval_probing (s := begin_ t s) hc hs]
  intro p hp up
  have port : p ∈ upPorts (begin_ t s) := by simp [upPorts, hp, up]
  have noHash : heldHash (begin_ t s) = 0 := by simp [heldHash, ht]
  obtain ⟨h, sent⟩ := probes_wire _ (begin_ t s) (by simp [ht]) p port up
  rw [noHash] at sent
  exact ⟨h, (nvKick_wire _).symm ▸ sent⟩

end

end Sys2Proof.Machine

open Sys2Proof Sys2Proof.Machine

/-- Settles O10: each clause is what the meaning of its command is under the conditions named. -/
theorem hingeLinks : Obligations.HingeLinks :=
  ⟨fun _ t p n => gives_linkUp t p n, fun _ t p => gives_linkDown t p, fun _ t p => gives_stepLinkDrop t p,
   fun _ t p => gives_lineBreak t p, fun _ t p => gives_uncoupling t p, fun _ t p => gives_lineDown2s t p,
   fun _ t p h n hi hh hr hn hs _ => gives_step t p h n hi hh hr hn hs, fun _ t p h n m => gives_stepAck t p h n m,
   fun _ t p => gives_stepComplete t p, fun _ t p => gives_stepTimeout t p, fun _ t p => gives_stepRetry t p,
   fun _ t => gives_relayBDrive t, fun _ t p h a n x f r => gives_probe t p h a n x f r,
   fun _ t p h a st e x r rt cab => gives_probeRsp t p h a st e x r rt cab, fun _ t => gives_probeInterval t⟩

end

section
/-! Inauguration: starts, attempts, sweeps, TTR, admission and amendments (05). -/

namespace Sys2Proof.Machine

/-! ### The shared operations -/

/-- Sending Hinge frames raises no event and drops none. -/
theorem occurred_of_hk {c i : Nat} {s u : State} (h : hk u = hk s) (ho : Occurred c i s) : Occurred c i u := by
  obtain ⟨grid, -⟩ := hk_of h
  exact ho.mono (EvsIn.of_gr grid)

theorem inaugEnter_occurred (ic : Word) (c : Byte) (s : State) : Occurred 0x1000 0xFF (inaugEnter ic c s) :=
  Occurred.mono (EvsIn.of_gr rfl) (raise_occurred 0x1000 0xFF [c.setWidth 32, ic] s)

/-- The state in which an attempt has failed, before its consequence (R149). -/
def attemptFailed (phase : Nat) (s : State) : State :=
  raise 0x1002 noInst [Config.eventItem 0x1002 phase]
    { s with hg := { s.hg with fails := s.hg.fails + 1, pendTtr := none } }

theorem attemptFailed_hg (phase : Nat) (s : State) :
    (attemptFailed phase s).hg = { s.hg with fails := s.hg.fails + 1, pendTtr := none } := raise_hg _ _ _ _

theorem attemptFailed_occurred (phase : Nat) (s : State) : Occurred 0x1002 0xFF (attemptFailed phase s) :=
  raise_occurred _ _ _ _

theorem attemptFailed_cycling (phase : Nat) (s : State) : (attemptFailed phase s).cycling = s.cycling := by
  simp [attemptFailed, State.cycling]

/-- The third failure in a row ends in `FAILED`; before it the node starts anew (R149). -/
theorem attemptFails_eq (phase : Nat) (s : State) : attemptFails phase s =
    if 3 ≤ s.hg.fails + 1 then
      raise 0x1003 noInst [] { attemptFailed phase s with hg := { (attemptFailed phase s).hg with st := .failed } }
    else startOwn 0x07 (attemptFailed phase s) := by
  have count : (attemptFailed phase s).hg.fails = s.hg.fails + 1 := by rw [attemptFailed_hg]
  rw [← count]
  rfl

/-- Who is a neighbour rests on the ports alone (R138). -/
theorem hasNeighbour_of {s u : State} (h : u.hg.ports = s.hg.ports) (front : Bool) :
    hasNeighbour u front = hasNeighbour s front := by
  simp only [hasNeighbour, hp_of h]

theorem overflowEnd_hg (s : State) :
    (overflowEnd s).hg = { s.hg with st := .unnumbered, pendTtr := none, probed := false } := raise_hg _ _ _ _

theorem overflowEnd_occurred (s : State) : Occurred 0x1004 0xFF (overflowEnd s) := raise_occurred _ _ _ _

theorem admitSend_hg (s : State) :
    (admitSend s).hg.admitSends = s.hg.admitSends + 1 ∧ (admitSend s).hg.st = s.hg.st := by
  obtain ⟨_, _, sent⟩ := hg_of_hk (hingeOwn_hk ([0, 1].filter (fun p => (s.hp p).speed ≠ 0)) s.hg.icount
    (fun _ => .admitReq (admitBody true false s)) { s with hg := { s.hg with admitSends := s.hg.admitSends + 1 } })
  rw [admitSend, sent]
  exact ⟨rfl, rfl⟩

/-! ### The meanings under their conditions -/

section
variable {s : State} {p : Nat}

/-- A higher `ICOUNT` is entered; forwarding it leaves that standing (R137). -/
theorem startRx_enters {h : HingeHdr} (c : Byte) (hlt : s.hg.running.toNat < h.icount.toNat) :
    (startRx p h c s).hg.st = .probing ∧ (startRx p h c s).hg.running = h.icount ∧
    (startRx p h c s).hg.lastCause = c ∧ (startRx p h c s).hg.ttr = none ∧ (startRx p h c s).hg.icount = 0 ∧
    Occurred 0x1000 0xFF (startRx p h c s) := by
  unfold startRx
  rw [if_pos hlt]
  extract_lets entered
  have forwarded := hingeFwd_hk (upExcept entered p) h (.start c) entered
  obtain ⟨_, _, sent⟩ := hg_of_hk forwarded
  refine ⟨?_, ?_, ?_, ?_, ?_, occurred_of_hk forwarded (inaugEnter_occurred _ _ _)⟩ <;> rw [sent] <;> rfl

theorem openSideStart_coupled {b : Bool} (hc : s.hg.coupling.getD (if b then 0 else 1) false = true)
    (hu : (sidePorts b).any (portInUse s) = true) : openSideStart b s = startOwn 0x01 (couplingSet b false s) :=
  if_pos ((Bool.and_eq_true _ _).mpr ⟨hc, hu⟩)

/-- The wait of `BRINGUP` ends without a link on line A: the attempt that ends in `SOLITARY` (R136). -/
theorem bringupLinkWait_alone (hc : s.cycling = true) (hs : s.hg.st = .unnumbered) (hp : s.hg.probed = false)
    (hw : bringupWait s = true) (h0 : (s.hp 0).speed = 0) (h1 : (s.hp 1).speed = 0) :
    bringupLinkWait s = startOwn 0x03 s := by
  simp [bringupLinkWait, hc, hs, hp, hw, h0, h1]

/-- The wait of `BRINGUP` ends with a link: `PROBE` goes out on line A, and the node awaits the answer (R136). -/
theorem bringupLinkWait_probes (hc : s.cycling = true) (hs : s.hg.st = .unnumbered) (hp : s.hg.probed = false)
    (hw : bringupWait s = true) (h0 : (s.hp 0).speed ≠ 0) :
    (bringupLinkWait s).hg.probed = true ∧ (bringupLinkWait s).hg.st = .unnumbered := by
  unfold bringupLinkWait
  rw [if_neg (by simp [hc, hs, hp, hw])]
  extract_lets ports hinge
  obtain ⟨_, _, sent⟩ := hg_of_hk (probes_ports ports { s with hg := { hinge with probed := true } })
  rw [if_neg (by simp [ports, h0]), sent]
  exact ⟨rfl, hs⟩

theorem failedRetry_failed (hs : s.hg.st = .failed) : failedRetry s = startOwn 0x07 s := if_pos hs

theorem inaugAttemptTimeout_probing (hc : s.cycling = true) (hs : s.hg.st = .probing) :
    inaugAttemptTimeout 2 s = attemptFails 2 s := by
  simp [inaugAttemptTimeout, hc, hs]

theorem attemptFails_again (phase : Nat) (hc : s.cycling = true) (hr : s.hg.refused = false) (hf : s.hg.fails < 2) :
    (attemptFails phase s).hg.fails = s.hg.fails + 1 ∧ (attemptFails phase s).hg.st = .probing ∧
    (attemptFails phase s).hg.running = s.hg.running + 1 ∧ (attemptFails phase s).hg.lastCause = 0x07 ∧
    Occurred 0x1002 0xFF (attemptFails phase s) ∧ Occurred 0x1000 0xFF (attemptFails phase s) := by
  have failed := attemptFailed_hg phase s
  obtain ⟨st, running, cause, -, -, fails, started, kept⟩ := startOwn_hg 0x07 (attemptFailed phase s)
    (by rwa [attemptFailed_cycling]) (by rwa [failed])
  rw [failed] at fails running
  rw [attemptFails_eq, if_neg (by omega)]
  exact ⟨fails, st, running, cause, (attemptFailed_occurred phase s).mono kept, started⟩

theorem attemptFails_third (phase : Nat) (hf : s.hg.fails = 2) :
    (attemptFails phase s).hg.fails = 3 ∧ (attemptFails phase s).hg.st = .failed ∧
    Occurred 0x1002 0xFF (attemptFails phase s) ∧ Occurred 0x1003 0xFF (attemptFails phase s) := by
  have failed := attemptFailed_hg phase s
  rw [attemptFails_eq, if_pos (by omega)]
  refine ⟨by simp [failed, hf], by simp, ?_, raise_occurred _ _ _ _⟩
  exact ((attemptFailed_occurred phase s).mono (EvsIn.of_gr rfl)).mono (raise_evsIn _ _ _ _)

/-- A sweep that arrives while the node still probes is held (R139). -/
theorem discoverRx_holds {h : HingeHdr} {o : Bool} {r : List DiscRec} {cab : Bool} (hc : h.icount = s.hg.running)
    (hs : s.hg.st = .probing) : discoverRx p h o r cab s = { s with hg := { s.hg with
      cab := cab, heldSweeps := s.hg.heldSweeps ++ [(p, ⟨h, .discover o r⟩)] } } := by
  simp [discoverRx, hc, hs]

/-- A node with neighbours at both sides is no end node: it launches no sweep of its own (R138, R139). -/
theorem probingEnd_discovers (cab : Bool) (hc : s.cycling = true) (hs : s.hg.st = .probing)
    (hf : hasNeighbour s true = true) (hr : hasNeighbour s false = true) (hh : s.hg.heldSweeps = []) :
    probingEnd cab s = { s with hg := { s.hg with cab := cab, st := .discovering, heldSweeps := [] } } := by
  have front (u : State) (hu : u.hg.ports = s.hg.ports) : hasNeighbour u true = true := by rw [hasNeighbour_of hu, hf]
  have noEnd (u : State) (hu : u.hg.ports = s.hg.ports) : isEnd u = false := by
    simp [isEnd, front u hu, hasNeighbour_of hu, hr]
  simp [probingEnd, hc, hs, front, noEnd, hh]

/-- The TTR is taken for its switch instant, without a cable delay where none was measured (R143). -/
theorem ttrRx_takes {h : HingeHdr} {b : Ttr} (r : Nat) (ha : ttrFlag b 3 = false) (ho : ttrFlag b 2 = false)
    (hb : b.recs ≠ []) (hc : h.icount = s.hg.running) (hs : s.hg.st.inaugurating = true)
    (hd : 100000 ≤ b.switchDly.toNat) (hl : ttrKeeps s b = false) (hm : (s.hp p).rttCount = 0) :
    (ttrRx p h b r s).hg.st = .awaitSwitch ∧
    (ttrRx p h b r s).hg.pendTtr = some (b, s.hg.running, s.now + b.switchDly.toNat) := by
  unfold ttrRx
  rw [if_neg (by simp [ha]), if_neg (by simp [hc, hs]), if_neg (by simp [ho, hb]), if_neg (by omega),
    if_neg (by simp [hl])]
  extract_lets cable taken
  obtain ⟨_, _, sent⟩ := hg_of_hk (hingeFwd_hk (upExcept taken p) h
    (.ttr { b with switchDly := w32 (b.switchDly.toNat - r - cable) }) taken)
  have noDelay : cable = 0 := if_pos hm
  rw [sent]
  exact ⟨rfl, by simp [taken, ttrTake, noDelay]⟩

/-- The abort of an inauguration of too many nodes is forwarded and ends it here too (R147). -/
theorem ttrRx_aborts {h : HingeHdr} {b : Ttr} (r : Nat) (ha : ttrFlag b 3 = false) (ho : ttrFlag b 2 = true)
    (hc : h.icount = s.hg.running) (hs : s.hg.st.inaugurating = true) :
    ttrRx p h b r s = overflowEnd (hingeFwd (upExcept s p) h (.ttr b) s) := by
  simp [ttrRx, ha, ho, hc, hs]

theorem admitReqRx_origin {h : HingeHdr} (r : AdmitReq) (ho : isOrigin s = true) :
    admitReqRx p h r s = requestAdd h.srcId r s := if_pos ho

theorem admitRefRx_own {h : HingeHdr} {id : DWord} (k : Byte) (hid : id = s.dev.nodeId) (hs : s.hg.st = .admitting) :
    admitRefRx p h id k s = admitRefused k s := (if_pos hid).trans (if_pos hs)

theorem admitResend_again (cab : Bool) (hc : s.cycling = true) (hs : s.hg.st = .admitting)
    (hn : s.hg.admitSends < 10) : admitResend cab s = admitSend { s with hg := { s.hg with cab := cab } } := by
  simp [admitResend, hc, hs, hn]

theorem admitReprobe_refused (hc : s.cycling = true) (hr : s.hg.refused = true) (hs : s.hg.st = .unnumbered)
    (ha : s.pwr.relayA = false) :
    admitReprobe s = driveA true { s with hg := { s.hg with probed := false } } := by
  simp [admitReprobe, hc, hr, hs, ha]

end

/-! ### The commands -/

section
variable {s : State}

theorem gives_start (t : Nat) (p : Fin 4) (h : HingeHdr) (c : Byte) (hh : Heard 0x10 p h s)
    (hlt : s.hg.running.toNat < h.icount.toNat) : Gives (.start t p h c) s (fun u =>
      u.hg.st = .probing ∧ u.hg.running = h.icount ∧ u.hg.lastCause = c ∧ u.hg.ttr = none ∧ u.hg.icount = 0 ∧
      Occurred 0x1000 0xFF u) := by
  obtain ⟨st, running, cause, ttr, icount, event⟩ := startRx_enters (s := heardOf 0x10 h (begin_ t s)) (p := p) c hlt
  refine gives_heard rfl hh ?_
  refine ⟨?_, ?_, ?_, ?_, ?_, kick_occurred event⟩ <;> rwa [nvKick_hg]

/-- A command whose meaning is a `START` of the node's own, from a state that differs in no count (R130, R137). -/
theorem gives_ownStart {i : Instr} {t : Nat} {f : State → State} {x : State} (c : Byte)
    (he : exec i s = act t f s) (hf : f (begin_ t s) = startOwn c x) (hc : x.cycling = true)
    (hr : x.hg.refused = false) (hn : x.hg.running = s.hg.running) : Gives i s (fun u =>
      u.hg.st = .probing ∧ u.hg.running = s.hg.running + 1 ∧ u.hg.lastCause = c ∧ u.hg.ttr = none ∧
      Occurred 0x1000 0xFF u) := by
  obtain ⟨st, running, cause, ttr, -, -, event, -⟩ := startOwn_hg c x hc hr
  rw [hn] at running
  refine gives_of_act he ?_
  rw [hf]
  refine ⟨?_, ?_, ?_, ?_, kick_occurred event⟩ <;> rwa [nvKick_hg]

theorem gives_openSideStart (t : Nat) (b : Bool) (hc : s.cycling = true) (hr : s.hg.refused = false)
    (hs : s.hg.coupling.getD (if b then 0 else 1) false = true) (hu : (sidePorts b).any (portInUse s) = true) :
    Gives (.openSideStart t b) s (fun u => u.hg.st = .probing ∧ u.hg.running = s.hg.running + 1 ∧
      u.hg.lastCause = 1 ∧ u.hg.ttr = none ∧ Occurred 0x1000 0xFF u) :=
  gives_ownStart 0x01 rfl (openSideStart_coupled (s := begin_ t s) hs hu) hc hr rfl

theorem gives_bringupAlone (t : Nat) (hc : s.cycling = true) (hs : s.hg.st = .unnumbered) (hp : s.hg.probed = false)
    (hw : bringupWait s = true) (hr : s.hg.refused = false) (h0 : (s.hp 0).speed = 0) (h1 : (s.hp 1).speed = 0) :
    Gives (.bringupLinkWait t) s (fun u => u.hg.st = .probing ∧ u.hg.running = s.hg.running + 1 ∧
      u.hg.lastCause = 3 ∧ u.hg.ttr = none ∧ Occurred 0x1000 0xFF u) :=
  gives_ownStart 0x03 rfl (bringupLinkWait_alone (s := begin_ t s) hc hs hp hw h0 h1) hc hr rfl

theorem gives_bringupProbes (t : Nat) (hc : s.cycling = true) (hs : s.hg.st = .unnumbered) (hp : s.hg.probed = false)
    (hw : bringupWait s = true) (h0 : (s.hp 0).speed ≠ 0) : Gives (.bringupLinkWait t) s (fun u =>
      u.hg.probed = true ∧ u.hg.st = .unnumbered) := by
  refine gives_of_act rfl ?_
  simp only [nvKick_hg]
  exact bringupLinkWait_probes (s := begin_ t s) hc hs hp hw h0

theorem gives_failedRetry (t : Nat) (hc : s.cycling = true) (hr : s.hg.refused = false) (hs : s.hg.st = .failed) :
    Gives (.failedRetry t) s (fun u => u.hg.st = .probing ∧ u.hg.running = s.hg.running + 1 ∧
      u.hg.lastCause = 7 ∧ u.hg.ttr = none ∧ Occurred 0x1000 0xFF u) :=
  gives_ownStart 0x07 rfl (failedRetry_failed (s := begin_ t s) hs) hc hr rfl

theorem gives_attemptAgain (t : Nat) (hc : s.cycling = true) (hr : s.hg.refused = false) (hs : s.hg.st = .probing)
    (hf : s.hg.fails < 2) : Gives (.inaugAttemptTimeout t 2) s (fun u => u.hg.fails = s.hg.fails + 1 ∧
      u.hg.st = .probing ∧ u.hg.running = s.hg.running + 1 ∧ u.hg.lastCause = 7 ∧ Occurred 0x1002 0xFF u ∧
      Occurred 0x1000 0xFF u) := by
  obtain ⟨fails, st, running, cause, failed, started⟩ := attemptFails_again (s := begin_ t s) 2 hc hr hf
  refine gives_of_act rfl ?_
  rw [inaugAttemptTimeout_probing (s := begin_ t s) hc hs]
  refine ⟨?_, ?_, ?_, ?_, kick_occurred failed, kick_occurred started⟩ <;> rwa [nvKick_hg]

theorem gives_attemptsOver (t : Nat) (hc : s.cycling = true) (hs : s.hg.st = .probing) (hf : s.hg.fails = 2) :
    Gives (.inaugAttemptTimeout t 2) s (fun u => u.hg.fails = 3 ∧ u.hg.st = .failed ∧ Occurred 0x1002 0xFF u ∧
      Occurred 0x1003 0xFF u) := by
  obtain ⟨fails, st, failed, ended⟩ := attemptFails_third (s := begin_ t s) 2 hf
  refine gives_of_act rfl ?_
  rw [inaugAttemptTimeout_probing (s := begin_ t s) hc hs]
  exact ⟨by rwa [nvKick_hg], by rwa [nvKick_hg], kick_occurred failed, kick_occurred ended⟩

theorem gives_discover (t : Nat) (p : Fin 4) (h : HingeHdr) (o : Bool) (r : List DiscRec) (cab : Bool)
    (hh : Heard 0x13 p h s) (hc : h.icount = s.hg.running) (hs : s.hg.st = .probing) :
    Gives (.discover t p h o r cab) s (fun u =>
      u.hg.heldSweeps = s.hg.heldSweeps ++ [(p.val, ⟨h, .discover o r⟩)] ∧ u.hg.cab = cab) := by
  refine gives_heard rfl hh ?_
  rw [discoverRx_holds (s := heardOf 0x13 h (begin_ t s)) hc hs]
  simp [heardOf]

theorem gives_probingEnd (t : Nat) (cab : Bool) (hc : s.cycling = true) (hs : s.hg.st = .probing)
    (hf : hasNeighbour s true = true) (hr : hasNeighbour s false = true) (hh : s.hg.heldSweeps = []) :
    Gives (.probingEnd t cab) s (fun u => u.hg.st = .discovering ∧ u.hg.cab = cab) := by
  refine gives_of_act rfl ?_
  rw [probingEnd_discovers (s := begin_ t s) cab hc hs hf hr hh]
  simp

theorem gives_ttrTaken (t : Nat) (p : Fin 4) (h : HingeHdr) (b : Ttr) (r : Nat) (hh : Heard 0x14 p h s)
    (ha : ttrFlag b 3 = false) (ho : ttrFlag b 2 = false) (hb : b.recs ≠ []) (hc : h.icount = s.hg.running)
    (hs : s.hg.st.inaugurating = true) (hd : 100000 ≤ b.switchDly.toNat) (hl : ttrKeeps s b = false)
    (hm : (s.hp p).rttCount = 0) : Gives (.ttr t p h b r) s (fun u => u.hg.st = .awaitSwitch ∧
      u.hg.pendTtr = some (b, s.hg.running, s.cyc.base + max s.cyc.phase t + b.switchDly.toNat)) := by
  refine gives_heard rfl hh ?_
  simp only [nvKick_hg]
  exact ttrRx_takes (s := heardOf 0x14 h (begin_ t s)) r ha ho hb hc hs hd hl hm

theorem gives_ttrAbort (t : Nat) (p : Fin 4) (h : HingeHdr) (b : Ttr) (r : Nat) (hh : Heard 0x14 p h s)
    (ha : ttrFlag b 3 = false) (ho : ttrFlag b 2 = true) (hc : h.icount = s.hg.running)
    (hs : s.hg.st.inaugurating = true) : Gives (.ttr t p h b r) s (fun u =>
      u.hg.st = .unnumbered ∧ u.hg.pendTtr = none ∧ Occurred 0x1004 0xFF u) := by
  refine gives_heard rfl hh ?_
  rw [ttrRx_aborts (s := heardOf 0x14 h (begin_ t s)) r ha ho hc hs]
  exact ⟨by simp [overflowEnd_hg], by simp [overflowEnd_hg], kick_occurred (overflowEnd_occurred _)⟩

theorem gives_admitReq (t : Nat) (p : Fin 4) (h : HingeHdr) (r : AdmitReq) (hh : Heard 0x15 p h s)
    (ho : isOrigin s = true) : Gives (.admitReq t p h r) s (fun u =>
      u.hg.requests = s.hg.requests.filter (fun e => e.1 ≠ h.srcId) ++ [(h.srcId, r)]) := by
  refine gives_heard rfl hh ?_
  rw [admitReqRx_origin (s := heardOf 0x15 h (begin_ t s)) r ho]
  simp [requestAdd, heardOf]

theorem gives_admitRef (t : Nat) (p : Fin 4) (h : HingeHdr) (k : Byte) (hh : Heard 0x16 p h s)
    (hs : s.hg.st = .admitting) : Gives (.admitRef t p h s.dev.nodeId k) s (fun u => u.hg.st = .unnumbered ∧
      u.hg.refused = true ∧ u.pwr.relayA = false ∧ u.pwr.relayB = false ∧ Occurred 0x1022 0xFF u) := by
  obtain ⟨st, refused, setA, setB, event⟩ := admitRefused_hg k (heardOf 0x16 h (begin_ t s))
  refine gives_heard rfl hh ?_
  rw [admitRefRx_own (s := heardOf 0x16 h (begin_ t s)) (id := s.dev.nodeId) k rfl hs]
  exact ⟨by rwa [nvKick_hg], by rwa [nvKick_hg], by rwa [nvKick_pwr_relayA], by rwa [nvKick_pwr_relayB],
    kick_occurred event⟩

theorem gives_admitResend (t : Nat) (cab : Bool) (hc : s.cycling = true) (hs : s.hg.st = .admitting)
    (hn : s.hg.admitSends < 10) : Gives (.admitResend t cab) s (fun u =>
      u.hg.admitSends = s.hg.admitSends + 1 ∧ u.hg.st = .admitting) := by
  obtain ⟨sends, st⟩ := admitSend_hg { begin_ t s with hg := { s.hg with cab := cab } }
  refine gives_of_act rfl ?_
  rw [admitResend_again (s := begin_ t s) cab hc hs hn]
  simp only [nvKick_hg]
  exact ⟨sends, st.trans hs⟩

theorem gives_admitReprobe (t : Nat) (hc : s.cycling = true) (hr : s.hg.refused = true) (hs : s.hg.st = .unnumbered)
    (ha : s.pwr.relayA = false) : Gives (.admitReprobe t) s (fun u => u.pwr.relayA = true ∧ u.hg.probed = false) := by
  refine gives_of_act rfl ?_
  rw [admitReprobe_refused (s := begin_ t s) hc hr hs ha]
  simp [driveA]

theorem gives_originAmendment (t : Nat) (x : Ttr) (hx : s.hg.ttr = some x) (ho : isOrigin s = true)
    (ha : s.hg.amend = none) (hr : s.hg.requests ≠ []) (hc : s.cycling = true) :
    Gives (.originAmendment t) s (fun u => u.hg.requests = [] ∧ (u.hg.amend = none ∨ ∃ new, u.hg.amend = some new ∧
      new.rev = x.rev + 1 ∧ new.adoptCyc = s.cyc.cyc + 16 ∧ new.topoHash = topoHash new.recs ∧ new.recs ≠ x.recs)) := by
  refine gives_of_act rfl ?_
  simp only [nvKick_hg]
  exact originAmendment_hg (begin_ t s) x hx ho ha hr hc

end

end Sys2Proof.Machine

open Sys2Proof Sys2Proof.Machine

/-- Settles O11: each clause is what the meaning of its command is under the conditions named. -/
theorem hingeInauguration : Obligations.HingeInauguration :=
  ⟨fun _ t p h c => gives_start t p h c, fun _ t b => gives_openSideStart t b, fun _ t => gives_bringupAlone t,
   fun _ t => gives_bringupProbes t, fun _ t => gives_failedRetry t, fun _ t => gives_attemptAgain t,
   fun _ t => gives_attemptsOver t, fun _ t p h o r cab => gives_discover t p h o r cab,
   fun _ t cab => gives_probingEnd t cab, fun _ t p h b r => gives_ttrTaken t p h b r,
   fun _ t p h b r => gives_ttrAbort t p h b r, fun _ t p h r => gives_admitReq t p h r,
   fun _ t p h k => gives_admitRef t p h k, fun _ t cab => gives_admitResend t cab,
   fun _ t => gives_admitReprobe t, fun _ t x => gives_originAmendment t x⟩

end

section
/-! The cycle start, the switch instant, the correction interval and LIMP_APPLY (04, 05, 06, 16). -/

namespace Sys2Proof.Machine

/-- A command without an instant of its own begins where the one before it ended; its outputs begin anew. -/
theorem begin_zero (s : State) : begin_ 0 s = { s with wire := [] } := by
  simp [begin_]

theorem clk_iff {s : State} {base phase : Nat} {tt : DWord} {cyc : Half} : clk s = (base, phase, tt, cyc) ↔
    s.cyc.base = base ∧ s.cyc.phase = phase ∧ s.cyc.tt = tt ∧ s.cyc.cyc = cyc := by
  simp [clk]

section
variable {s : State}

/-! ### The entry into QUIESCE (R293) -/

/-- Without an amendment a cycle start is the passing of time and the steps of the new cycle. -/
theorem cycleStart_eq (hc : s.cycling = true) (ha : s.hg.amend = none) :
    cycleStart s = cycleBody s.gr.evNow (cycleAdvance (eventsTake s)) := by
  have amend : (cycleAdvance (eventsTake s)).hg.amend = none := by
    rw [cycleAdvance_fr.hg rfl, eventsTake_fr.hg rfl, ha]
  simp [cycleStart, hc, amendCycle_clk _ amend]

/-- A due quiesce begins at once where neither a takeover nor a flush runs. -/
theorem cycleBody_quiesces (evs : List (Half × Byte)) (hd : quiesceDue s = true) (ht : s.cr.takeover = none)
    (hf : s.pwr.flush = none) : cycleBody evs s = quiesceEnter s := by
  have awake : s.pwr.node ≠ .quiesce := fun h => by simp [quiesceDue, State.cycling, h] at hd
  simp [cycleBody, awake, hd, ht, calm, hf]

/-- The quiesce is due at the start of the cycle named for it. -/
theorem cycleAdvance_quiesceDue (hc : s.cycling = true) (hq : s.tf.quiesceCyc = some (cycleNext s).2.2) :
    quiesceDue (cycleAdvance s) = true := by
  obtain ⟨clock, power, -, -⟩ := cycleAdvance_clk s
  obtain ⟨-, -, -, cyc⟩ := clk_iff.mp clock
  have cycling : (cycleAdvance s).cycling = true := by rw [State.cycling, power]; exact hc
  simp [quiesceDue, cycling, cycleAdvance_fr.tf rfl, cyc, hq]

theorem cycleStart_quiesces (hc : s.cycling = true) (ha : s.hg.amend = none)
    (hq : s.tf.quiesceCyc = some (cycleNext s).2.2) (ht : s.cr.takeover = none) (hf : s.pwr.flush = none) :
    cycleStart s = quiesceEnter (cycleAdvance (eventsTake s)) := by
  obtain ⟨-, power, -, -⟩ := cycleAdvance_clk (eventsTake s)
  rw [cycleStart_eq hc ha]
  refine cycleBody_quiesces _ (cycleAdvance_quiesceDue hc hq) ?_ ?_
  · rw [cycleAdvance_fr.cr rfl, eventsTake_fr.cr rfl, ht]
  · rw [power]; exact hf

/-! ### LIMP_APPLY (R457) -/

/-- With nothing to execute and no reset due, only the shadows act, 1 µs on. -/
theorem limpApply_shadows (hn : s.pwr.node = .limp) (hx : s.lg.execQ = []) (hr : s.pwr.resetNow = false) :
    limpApply s = { s with
      cyc := { s.cyc with phase := s.cyc.phase + 1000 }
      rg := { s.rg with
        ws := shadowsOn s.rg.shadowLate (shadowsOn s.rg.shadow s.rg.ws), shadow := [], shadowLate := [] } } := by
  simp [limpApply, hn, cmdsRun, hx, resetDue, hr]

/-! ### The commands -/

theorem gives_cycleStart (hc : s.cycling = true ∨ s.pwr.node = .quiesce)
    (hv : s.pwr.node = .bringup → s.nv.ver.admitted = none) (ha : s.hg.amend = none) :
    Gives .cycleStart s (fun u => u.pwr.node = .waking ∨ (u.cyc.base = s.cyc.base + (cycleNext s).1 ∧
      u.cyc.phase = 0 ∧ u.cyc.tt = (cycleNext s).2.1 ∧ u.cyc.cyc = (cycleNext s).2.2)) := by
  refine gives_of_act rfl ?_
  rw [begin_zero, nvKick_pwr_node, nvKick_cyc]
  exact (cycleStart_clk { s with wire := [] } hc hv ha).imp_right clk_iff.mp

theorem gives_cycleStart_quiesce (hc : s.cycling = true) (ha : s.hg.amend = none)
    (hq : s.tf.quiesceCyc = some (cycleNext s).2.2) (ht : s.cr.takeover = none) (hf : s.pwr.flush = none) :
    Gives .cycleStart s (fun u => u.pwr.node = .quiesce) := by
  refine gives_of_act rfl ?_
  rw [begin_zero, cycleStart_quiesces (s := { s with wire := [] }) hc ha hq ht hf, nvKick_pwr_node]
  exact quiesceEnter_node _

theorem gives_switchInstant (t : Ttr) (ic : Word) (a : Nat) (hp : s.hg.pendTtr = some (t, ic, a))
    (hs : s.hg.st = .awaitSwitch) (hc : s.cycling = true) (hv : s.pwr.node = .bringup → s.nv.ver.admitted = none) :
    Gives .switchInstant s (fun u => u.pwr.node = .waking ∨
      (u.cyc.base = s.cyc.base + max s.cyc.phase (a - s.cyc.base) ∧ u.cyc.phase = 0 ∧ u.cyc.cyc = 0 ∧
      u.cyc.tt = s.cyc.tt + BitVec.ofNat 64 (max s.cyc.phase (a - s.cyc.base)))) := by
  refine gives_of_act rfl ?_
  rw [begin_zero, nvKick_pwr_node, nvKick_cyc]
  refine (switchInstant_clk { s with wire := [] } t ic a hp hs hc hv).imp_right fun clock => ?_
  obtain ⟨base, phase, tt, cyc⟩ := clk_iff.mp clock
  exact ⟨base, phase, cyc, tt⟩

theorem gives_correctionInterval (hc : s.cycling = true) : Gives .correctionInterval s (fun u =>
    u.cyc.corr = s.cyc.meas.elim s.cyc.corr appliedC ∧ u.cyc.meas = none ∧
    u.cyc.phase = max s.cyc.phase (tCycle s - 2000)) := by
  refine gives_of_act rfl ?_
  rw [begin_zero, nvKick_cyc]
  exact correctionInterval_cm { s with wire := [] } hc

theorem gives_limpApply (hn : s.pwr.node = .limp) (hx : s.lg.execQ = []) (hr : s.pwr.resetNow = false) :
    Gives .limpApply s (fun u => u.rg.ws = shadowsOn s.rg.shadowLate (shadowsOn s.rg.shadow s.rg.ws) ∧
      u.rg.shadow = [] ∧ u.rg.shadowLate = [] ∧ u.cyc.phase = s.cyc.phase + 1000) := by
  refine gives_of_act rfl ?_
  rw [begin_zero, limpApply_shadows (s := { s with wire := [] }) hn hx hr]
  simp

end

end Sys2Proof.Machine

open Sys2Proof Sys2Proof.Machine

/-- Settles O12: each clause is what the meaning of its command is under the conditions named. -/
theorem cycleStartAndTime : Obligations.CycleStartAndTime :=
  ⟨fun _ => gives_cycleStart, fun _ => gives_cycleStart_quiesce, fun _ t ic a => gives_switchInstant t ic a,
   fun _ => gives_correctionInterval, fun _ => gives_limpApply⟩

end

section
/-! The frames of the vehicle network's events (08). -/

open Sys2Proof Sys2Proof.Machine

/-- Settles O50: each meaning has its own frame, and the commands add to it only what any command may change. -/
theorem vehicleCommandFrames : Obligations.VehicleCommandFrames :=
  ⟨fun _ _ _ _ => touches_of_act (fun _ => rfl) fun _ => vnFrameRx_fr _ _ _,
   fun _ _ => touches_of_act (fun _ => rfl) fun _ => guardianCutPoint_fr _,
   fun _ _ => touches_of_act (fun _ => rfl) fun _ => branchBurst_fr _,
   fun _ _ => touches_of_act (fun _ => rfl) fun _ => vnSlotTx_fr _,
   touches_of_act (fun _ => rfl) fun _ => dynBoundary_fr,
   fun _ _ => touches_of_act (fun _ => rfl) fun _ => branchLinkUp_fr _,
   fun _ _ => touches_of_act (fun _ => rfl) fun _ => branchLinkDown_fr _⟩

end

section
/-! Branch links, the guardian, static slots and mini-slots of the vehicle network (08). -/

namespace Sys2Proof.Machine

/-! ### Branches and slots under the shared operations -/

section
variable {s : State} {b : Nat}

/-- Every state of a run has the twelve branches (R220). -/
theorem Inv.hasBranch (h : Inv s) (b : Fin 12) : b.val < s.vn.br.length := b.isLt.trans_eq h.branches.symm

/-- Every state of a run has the 64 static slots (17, `VN_SLOT`). -/
theorem Inv.hasSlot (h : Inv s) {k : Nat} (hk : k < 64) : k < s.vn.rx.length := hk.trans_eq h.slotsRx.symm

theorem brMod_branch_self (f : Branch → Branch) (hb : b < s.vn.br.length) :
    (brMod b f s).branch b = f (s.branch b) := by
  rw [branch_brMod, if_pos ⟨rfl, hb⟩]

theorem guardCount_occurred (kind b : Nat) (s : State) : Occurred 0x3001 b (guardCount kind b s) :=
  raise_occurred _ _ _ _

@[simp] theorem guardCount_wire (kind b : Nat) (s : State) : (guardCount kind b s).wire = s.wire := by
  simp [guardCount]

/-- Kind 1 counts in `CUT_START` (R240, R243). -/
theorem guardCount_cutStart (hb : b < s.vn.br.length) :
    ((guardCount 1 b s).branch b).cutStart = (s.branch b).cutStart + 1 := by
  simp [guardCount, raise_branch, brMod_branch_self _ hb]

/-! ### The meanings under their conditions -/

theorem branchLinkUp_comes (hr : s.running = true) (hc : s.sh.st ≠ .closed) (hd : (s.dom (13 + b)).act = .on)
    (hl : (s.branch b).link = false) : branchLinkUp b s = raise 0x3000 b [] (brMod b (fun x => { x with
      link := true, st := if x.off then .disabled else .listen, good := 0, bad := 0 }) s) := by
  simp [branchLinkUp, hr, hc, hd, hl]

theorem branchLinkDown_goes (hl : (s.branch b).link = true) :
    branchLinkDown b s = raise 0x3003 b [] (branchDown b s) := if_pos hl

theorem branchBurst_heard (ho : starOn s = true) (hd : (s.dom (13 + b)).act = .on) :
    branchBurst b s = guardCount 1 b s := by
  simp [branchBurst, ho, hd]

theorem guardianCutPoint_cuts (ho : starOn s = true) : guardianCutPoint b s = guardianCut b s := if_pos ho

/-- Before V0 no frame passes the guardian (Table 8.6). -/
theorem vnFrameRx_early {st : Star} (f : Bytes) (g : Bool) (hs : s.star = some st) (ho : starOn s = true)
    (hu : branchUp s b = true) (hv : s.now < s.vn.v0) : vnFrameRx b f g s = guardCount 1 b s := by
  simp [vnFrameRx, hs, ho, hu, hv]

/-- The node's transmission in its slot `k`: the frame leaves on every branch, and the slot holds what was sent. -/
def slotSent (k : Nat) (st : Star) (sub flags : Byte) (body : Bytes) (s : State) : State :=
  gotMod k (fun r => { r with got := .valid, flags := flags.setWidth 4, body := body })
    (emit (.vehicle (outBranches s none) s.now
      (vnFrame s (vnHeader sub flags 0 (BitVec.ofNat 16 k) s.vn.cyc st.layout body.length) body) true) s)

theorem slotSent_rx {k : Nat} (st : Star) (sub flags : Byte) (body : Bytes) (hk : k < s.vn.rx.length) :
    ((slotSent k st sub flags body s).vn.rx.getD k {}).got = .valid ∧
    ((slotSent k st sub flags body s).vn.rx.getD k {}).body = body := by
  rw [slotSent, got_gotMod _ _ (emit _ s) hk]
  exact ⟨rfl, rfl⟩

theorem slotSent_wire (k : Nat) (st : Star) (sub flags : Byte) (body : Bytes) (s : State) :
    (slotSent k st sub flags body s).wire = s.wire ++ [.vehicle (outBranches s none) s.now
      (vnFrame s (vnHeader sub flags 0 (BitVec.ofNat 16 k) s.vn.cyc st.layout body.length) body) true] := rfl

section
variable {k : Nat} {st : Star} (hs : s.star = some st) (ho : starOn s = true) (hr : s.vn.running = true)
  (hw : slotOwner st k = 0x0C)
include hs ho hr hw

/-- A frozen buffer leaves as a data frame (R231). -/
theorem vnSlotTx_frozen {d : Bytes} {a : Bool} (hf : (s.vn.txBuf.getD k {}).frozen = some (d, a)) :
    vnSlotTx k s = slotSent k st 0x02 (if a then 1 else 0) d s := by
  simp [vnSlotTx, slotSent, hs, ho, hr, hw, hf, -List.getD_eq_getElem?_getD]

/-- Without a frozen buffer a null frame leaves (R231). -/
theorem vnSlotTx_null (hf : (s.vn.txBuf.getD k {}).frozen = none) :
    vnSlotTx k s = slotSent k st 0x03 0 [] s := by
  simp [vnSlotTx, slotSent, hs, ho, hr, hw, hf, -List.getD_eq_getElem?_getD]

end
end

/-! ### The commands -/

section
variable {s : State}

theorem gives_branchLinkUp (t : Nat) (b : Fin 12) (hi : Inv s) (hr : s.running = true) (hc : s.sh.st ≠ .closed)
    (hd : (s.dom (13 + b.val)).act = .on) (hl : (s.branch b.val).link = false) : Gives (.branchLinkUp t b) s (fun u =>
      (u.branch b.val).link = true ∧ (u.branch b.val).st = (if (s.branch b.val).off then .disabled else .listen) ∧
      Occurred 0x3000 b.val u) := by
  refine gives_of_act rfl ?_
  rw [branchLinkUp_comes (s := begin_ t s) hr hc hd hl]
  simp only [kick_branch, raise_branch, brMod_branch_self _ (s := begin_ t s) (hi.hasBranch b), true_and]
  exact ⟨rfl, kick_occurred (raise_occurred _ _ _ _)⟩

theorem gives_branchLinkDown (t : Nat) (b : Fin 12) (hi : Inv s) (hl : (s.branch b.val).link = true) :
    Gives (.branchLinkDown t b) s (fun u => (u.branch b.val).link = false ∧
      (u.branch b.val).st = (if (s.branch b.val).off then .disabled else .down) ∧ Occurred 0x3003 b.val u) := by
  refine gives_of_act rfl ?_
  rw [branchLinkDown_goes (s := begin_ t s) hl, branchDown]
  simp only [kick_branch, raise_branch, brMod_branch_self _ (s := begin_ t s) (hi.hasBranch b), true_and]
  exact ⟨rfl, kick_occurred (raise_occurred _ _ _ _)⟩

theorem gives_branchBurst (t : Nat) (b : Fin 12) (hi : Inv s) (ho : starOn s = true)
    (hd : (s.dom (13 + b.val)).act = .on) : Gives (.branchBurst t b) s (fun u =>
      (u.branch b.val).cutStart = (s.branch b.val).cutStart + 1 ∧ Occurred 0x3001 b.val u) := by
  refine gives_of_act rfl ?_
  rw [branchBurst_heard (s := begin_ t s) ho hd, kick_branch]
  exact ⟨guardCount_cutStart (s := begin_ t s) (hi.hasBranch b), kick_occurred (guardCount_occurred _ _ _)⟩

theorem gives_guardianCutPoint (t : Nat) (b : Fin 12) (r : BrRx) (hi : Inv s) (ho : starOn s = true)
    (hx : (s.branch b.val).rx = some r) : Gives (.guardianCutPoint t b) s (fun u => (u.branch b.val).rx = none ∧
      (u.branch b.val).cutLen = (s.branch b.val).cutLen + 1 ∧
      (r.dynamic = true → u.vn.closed = true ∧ Occurred 0x3007 0xFF u)) := by
  obtain ⟨rx, cutLen, dynamic⟩ := guardianCut_rx b r (begin_ t s) (hi.hasBranch b) hx
  refine gives_of_act rfl ?_
  rw [guardianCutPoint_cuts (s := begin_ t s) ho, kick_branch]
  refine ⟨rx, cutLen, fun hd => ?_⟩
  obtain ⟨closed, event⟩ := dynamic hd
  exact ⟨by simpa using closed, kick_occurred event⟩

theorem gives_vnSlotTx (t : Nat) (k : Fin 64) (st : Star) (hi : Inv s) (hs : s.star = some st) (ho : starOn s = true)
    (hr : s.vn.running = true) (hw : slotOwner st k.val = 0x0C) : Gives (.vnSlotTx t k) s (fun u =>
      (u.vn.rx.getD k.val {}).got = .valid ∧
      (∀ d a, (s.vn.txBuf.getD k.val {}).frozen = some (d, a) → (u.vn.rx.getD k.val {}).body = d ∧
        u.wire = [.vehicle (outBranches s none) (s.cyc.base + max s.cyc.phase t)
          (vnFrame s (vnHeader 0x02 (if a then 1 else 0) 0 (BitVec.ofNat 16 k.val) s.vn.cyc st.layout d.length) d)
          true]) ∧
      ((s.vn.txBuf.getD k.val {}).frozen = none → (u.vn.rx.getD k.val {}).body = [] ∧
        u.wire = [.vehicle (outBranches s none) (s.cyc.base + max s.cyc.phase t)
          (vnFrame s (vnHeader 0x03 0 0 (BitVec.ofNat 16 k.val) s.vn.cyc st.layout 0) []) true])) := by
  have slot : k.val < (begin_ t s).vn.rx.length := hi.hasSlot k.isLt
  refine gives_of_act rfl ?_
  rw [nvKick_vn, nvKick_wire]
  cases hf : (s.vn.txBuf.getD k.val {}).frozen with
  | none =>
    rw [vnSlotTx_null (s := begin_ t s) hs ho hr hw hf]
    obtain ⟨got, body⟩ := slotSent_rx st 0x03 0 [] slot
    exact ⟨got, nofun, fun _ => ⟨body, slotSent_wire _ _ _ _ _ _⟩⟩
  | some x =>
    obtain ⟨d, a⟩ := x
    rw [vnSlotTx_frozen (s := begin_ t s) hs ho hr hw hf]
    obtain ⟨got, body⟩ := slotSent_rx st 0x02 (if a then 1 else 0) d slot
    refine ⟨got, fun _ _ frozen => ?_, nofun⟩
    cases frozen
    exact ⟨body, slotSent_wire _ _ _ _ _ _⟩

section
variable (t : Nat) (b : Fin 12) (f : Bytes) (hi : Inv s) {st : Star} (hs : s.star = some st) (ho : starOn s = true)
  (hu : branchUp s b.val = true)
include hi hs ho hu

theorem gives_vnFrameRx_blocked (g : Bool) (hv : s.cyc.base + max s.cyc.phase t < s.vn.v0) :
    Gives (.vnFrameRx t b f g) s (fun u => (u.branch b.val).cutStart = (s.branch b.val).cutStart + 1 ∧ u.wire = [] ∧
      Occurred 0x3001 b.val u) := by
  refine gives_of_act rfl ?_
  rw [vnFrameRx_early (s := begin_ t s) f g hs ho hu hv, kick_branch, nvKick_wire, guardCount_wire]
  exact ⟨guardCount_cutStart (s := begin_ t s) (hi.hasBranch b), rfl, kick_occurred (guardCount_occurred _ _ _)⟩

theorem gives_vnFrameRx (k : Nat) (hv : s.vn.v0 ≤ s.cyc.base + max s.cyc.phase t) (hk : k < 64)
    (hg : guardStart s st b.val (s.cyc.base + max s.cyc.phase t - s.vn.v0) = .slot k)
    (hh : guardHeader s st (.slot k) f = true)
    (hl : guardLength s st (.slot k) (s.cyc.base + max s.cyc.phase t - s.vn.v0) f = false) (hn : field f 14 1 ≠ 3) :
    Gives (.vnFrameRx t b f true) s (fun u => (u.vn.rx.getD k {}).got = .valid ∧
      (u.vn.rx.getD k {}).body = slice f 30 (field f 24 2) ∧
      (u.branch b.val).rxOk = (s.branch b.val).rxOk + 1 ∧
      u.wire = [.vehicle (outBranches s (some b.val)) (s.cyc.base + max s.cyc.phase t + 960) f true]) := by
  refine gives_of_act rfl ?_
  rw [kick_branch, nvKick_vn, nvKick_wire]
  exact vnFrameRx_slot (begin_ t s) b k f st (hi.hasBranch b) (hi.hasSlot hk) hs ho hu hv hg hh hl hn

end

theorem gives_dynBoundary {st : Star} (hs : s.star = some st) (ho : starOn s = true) (hr : s.vn.running = true)
    (hm : st.nM ≠ 0) : Gives .dynBoundary s (fun u => u.vn.dc = s.vn.dc + 1 ∧ u.vn.boundary =
      (if s.vn.dc = 0 then dynStart st else s.vn.boundary + max 1 s.vn.span * st.tM * 1000)) := by
  refine gives_of_act rfl ?_
  rw [nvKick_vn]
  exact dynBoundary_base st (begin_ 0 s) hs ho hr hm

end

end Sys2Proof.Machine

open Sys2Proof Sys2Proof.Machine

/-- Settles O17: each clause is what the meaning of its command is under the conditions named. -/
theorem vehicleNetwork : Obligations.VehicleNetwork :=
  ⟨fun _ t b => gives_branchLinkUp t b, fun _ t b => gives_branchLinkDown t b, fun _ t b => gives_branchBurst t b,
   fun _ t b r => gives_guardianCutPoint t b r, fun _ t k st => gives_vnSlotTx t k st,
   fun _ t b f g _ hi hs ho hu => gives_vnFrameRx_blocked t b f hi hs ho hu g,
   fun _ t b f _ k hi hs ho hu => gives_vnFrameRx t b f hi hs ho hu k, fun _ _ => gives_dynBoundary⟩

end

section
/-! The frames of the equipment ports' events and of the host's pool operations (09, 16). -/

namespace Sys2Proof.Machine

/-- Whatever `EQ_HOST_ARG` holds (Table 16.6), an operation that `EQ_HOST_GO` starts reaches the ports and the pool alone. -/
theorem touches_of_hostGo {c : Instr} {t arg : Nat} (he : ∀ s, exec c s = act t (hostGo arg) s) :
    Touches [.eq, .pool] c := touches_of_act he fun _ => hostGo_fr arg

end Sys2Proof.Machine

open Sys2Proof Sys2Proof.Machine

/-- Settles O51: each event of a port has its own frame, the host's operations share that of `EQ_HOST_GO`, and the commands
add to it only what any command may change. -/
theorem equipmentCommandFrames : Obligations.EquipmentCommandFrames :=
  ⟨fun _ _ _ => touches_of_act (fun _ => rfl) fun _ => eqLinkUp_fr _ _,
   fun _ _ => touches_of_act (fun _ => rfl) fun _ => eqLinkLost_fr _,
   fun _ _ => touches_of_act (fun _ => rfl) fun _ => eqAutonegFail_fr _,
   fun _ _ _ _ => touches_of_act (fun _ => rfl) fun _ => eqFrameRx_fr _ _ _,
   fun _ _ => touches_of_act (fun _ => rfl) fun _ => eqTxDone_fr _,
   fun _ _ _ => touches_of_act (fun _ => rfl) fun _ => pauseExpiry_fr _ _,
   fun _ _ => touches_of_act (fun _ => rfl) fun _ => pfcRefresh_fr _,
   fun _ _ => touches_of_act (fun _ => rfl) fun _ => txtsPop_fr _,
   fun _ _ => touches_of_hostGo fun _ => rfl,
   fun _ _ => touches_of_hostGo fun _ => rfl,
   fun _ _ _ _ => touches_of_hostGo fun _ => rfl,
   fun _ _ => touches_of_hostGo fun _ => rfl,
   fun _ _ => touches_of_act (fun _ => rfl) fun _ => hostOpInvalid_fr _⟩

end

section
/-! Links, pause timers, the PFC refresh and the time stamps of the equipment ports (09). -/

namespace Sys2Proof.Machine

/-! ### The ports under the shared operations -/

section
variable {s : State} {n : Nat}

/-- Every state of a run has the four equipment ports (09). -/
theorem Inv.hasEqPort (h : Inv s) (n : Fin 4) : n.val < s.eq.length := n.isLt.trans_eq h.eqPorts.symm

theorem eqMod_eqp_self (f : EqPort → EqPort) (hn : n < s.eq.length) : (eqMod n f s).eqp n = f (s.eqp n) := by
  rw [eqp_eqMod, if_pos ⟨rfl, hn⟩]

/-- The start of a frame leaves the pause timers alone. -/
@[simp] theorem eqStart_pause (n m : Nat) (s : State) : ((eqStart n s).eqp m).pause = (s.eqp m).pause :=
  (congrArg EqPort.pause (eqStart_part n m s) :)

@[simp] theorem pfcSend_wire (n : Nat) (mask : Byte) (time : Half) (s : State) :
    (pfcSend n mask time s).wire = s.wire ++ [.pfc n mask time] := rfl

theorem pfcSend_pauseTx (mask : Byte) (time : Half) (hn : n < s.eq.length) :
    ((pfcSend n mask time s).eqp n).pauseTx = (s.eqp n).pauseTx + 1 := by
  rw [pfcSend, eqp_of (emit_eq _ _), eqMod_eqp_self _ hn]

theorem stampPop_stamps (hn : n < s.eq.length) :
    ((stampPop n s).eqp n).stamps = (s.eqp n).stamps.drop 1 := by
  rw [stampPop, eqMod_eqp_self _ hn]

/-! ### The meanings under their conditions -/

theorem eqAutonegFail_fails (hp : eqPowered s n = true) (hl : (s.eqp n).link = 0) :
    eqAutonegFail n s = raise 0x4002 n [] s := by
  simp [eqAutonegFail, hp, hl]

/-- An expired timer is 0, and stays so when the next frame starts (R272, R274). -/
theorem pauseExpiry_pause (q : Nat) (hn : n < s.eq.length) :
    ((pauseExpiry n q s).eqp n).pause = (s.eqp n).pause.set q 0 := by
  rw [pauseExpiry, eqStart_pause, eqMod_eqp_self _ hn]

theorem getD_set_zero (l : List Nat) (q : Nat) : (l.set q 0).getD q 0 = 0 := by
  by_cases hq : q < l.length
  · simp [hq]
  · simp [Nat.not_lt.mp hq]

theorem pfcRefresh_sends {c : EqCfg} (hc : eqCfg s n = some c) (hl : (s.eqp n).link ≠ 0)
    (hp : (s.eqp n).pfc = true) (ho : (s.eqp n).off = false) :
    pfcRefresh n s = pfcSend n c.pfcMask 0xFFFF s := by
  simp [pfcRefresh, hc, hl, hp, ho]

theorem txtsPop_awake (ha : s.awake = true) : txtsPop n s = stampPop n s := if_pos ha

end

/-! ### The commands -/

section
variable {s : State} (t : Nat) (n : Fin 4)

theorem gives_eqLinkUp (sp : Fin 3) (hi : Inv s) (hp : eqPowered s n.val = true) (hl : (s.eqp n.val).link = 0)
    (hs : (eqCfg s n.val).elim false (fun c => c.speedMask.getLsbD sp.val) = true) :
    Gives (.eqLinkUp t n sp) s (fun u => (u.eqp n.val).link = sp.val + 1 ∧ Occurred 0x4000 n.val u) := by
  obtain ⟨link, event⟩ := eqLinkUp_eq n.val sp.val (begin_ t s) hp hl hs (hi.hasEqPort n)
  refine gives_of_act rfl ?_
  rw [kick_eqp]
  exact ⟨link, kick_occurred event⟩

theorem gives_eqLinkDown (hi : Inv s) (hl : (s.eqp n.val).link ≠ 0) : Gives (.eqLinkDown t n) s (fun u =>
    (u.eqp n.val).link = 0 ∧ (u.eqp n.val).queues = List.replicate 8 [] ∧ (u.eqp n.val).tx = none ∧
    Occurred 0x4001 n.val u) := by
  obtain ⟨link, queues, tx, event⟩ := eqLinkLost_eq n.val (begin_ t s) hl (hi.hasEqPort n)
  refine gives_of_act rfl ?_
  rw [kick_eqp]
  exact ⟨link, queues, tx, kick_occurred event⟩

theorem gives_eqAutonegFail (hp : eqPowered s n.val = true) (hl : (s.eqp n.val).link = 0) :
    Gives (.eqAutonegFail t n) s (fun u => u.eq = s.eq ∧ Occurred 0x4002 n.val u) := by
  refine gives_of_act rfl ?_
  rw [eqAutonegFail_fails (s := begin_ t s) hp hl]
  exact ⟨by simp, kick_occurred (raise_occurred _ _ _ _)⟩

theorem gives_pauseTimerExpiry (q : Fin 8) (hi : Inv s) :
    Gives (.pauseTimerExpiry t n q) s (fun u => (u.eqp n.val).pause.getD q.val 0 = 0) := by
  refine gives_of_act rfl ?_
  rw [kick_eqp, pauseExpiry_pause (s := begin_ t s) _ (hi.hasEqPort n)]
  exact getD_set_zero _ _

theorem gives_pfcRefresh (c : EqCfg) (hi : Inv s) (hc : eqCfg s n.val = some c) (hl : (s.eqp n.val).link ≠ 0)
    (hp : (s.eqp n.val).pfc = true) (ho : (s.eqp n.val).off = false) : Gives (.pfcRefresh t n) s (fun u =>
      u.wire = [.pfc n.val c.pfcMask 0xFFFF] ∧ (u.eqp n.val).pauseTx = (s.eqp n.val).pauseTx + 1) := by
  refine gives_of_act rfl ?_
  rw [pfcRefresh_sends (s := begin_ t s) hc hl hp ho, kick_eqp, nvKick_wire]
  exact ⟨pfcSend_wire _ _ _ _, pfcSend_pauseTx (s := begin_ t s) _ _ (hi.hasEqPort n)⟩

theorem gives_txtsPop (hi : Inv s) (ha : s.awake = true) :
    Gives (.txtsPop t n) s (fun u => (u.eqp n.val).stamps = (s.eqp n.val).stamps.drop 1) := by
  refine gives_of_act rfl ?_
  rw [txtsPop_awake (s := begin_ t s) ha, kick_eqp]
  exact stampPop_stamps (s := begin_ t s) (hi.hasEqPort n)

end

end Sys2Proof.Machine

open Sys2Proof Sys2Proof.Machine

/-- Settles O18: each clause is what the meaning of its command is under the conditions named. The frame that may start
after a pause timer expires leaves the timers alone (`eqStart_pause`). -/
theorem equipmentLinksAndTimers : Obligations.EquipmentLinksAndTimers :=
  ⟨fun _ t n sp => gives_eqLinkUp t n sp, fun _ t n => gives_eqLinkDown t n, fun _ t n => gives_eqAutonegFail t n,
   fun _ t n q => gives_pauseTimerExpiry t n q, fun _ t n c => gives_pfcRefresh t n c, fun _ t n => gives_txtsPop t n⟩

end

section
/-! The frames of the field, supply and temperature events (11, 12). -/

open Sys2Proof Sys2Proof.Machine

/-- Settles O52: each meaning has its own frame, and the commands add to it only what any command may change. -/
theorem fieldCommandFrames : Obligations.FieldCommandFrames :=
  ⟨fun _ _ _ => touches_of_act (fun _ => rfl) fun _ => inputCrossing_fr _ _,
   fun _ _ => touches_of_act (fun _ => rfl) fun _ => sinkOn_fr _,
   fun _ _ => touches_of_act (fun _ => rfl) fun _ => sinkOff_fr _,
   fun _ _ => touches_of_act (fun _ => rfl) fun _ => currentLimit_fr _,
   fun _ _ => touches_of_act (fun _ => rfl) fun _ => currentLimitEnd_fr _,
   fun _ _ => touches_of_act (fun _ => rfl) fun _ => thermalCutoff_fr _,
   fun _ _ => touches_of_act (fun _ => rfl) fun _ => thermalRelease_fr _,
   fun _ _ => touches_of_act (fun _ => rfl) fun _ => openLoadDetect_fr _,
   fun _ _ => touches_of_act (fun _ => rfl) fun _ => openLoadClear_fr _,
   fun _ _ => touches_of_act (fun _ => rfl) fun _ => couplerLoss_fr _,
   fun _ _ => touches_of_act (fun _ => rfl) fun _ => couplerRestore_fr _,
   fun _ _ => touches_of_act (fun _ => rfl) fun _ => groupSupplyLow_fr _,
   fun _ _ => touches_of_act (fun _ => rfl) fun _ => groupSupplyRestore_fr _,
   fun _ _ => touches_of_act (fun _ => rfl) fun _ => forceTimeout_fr _,
   fun _ _ _ _ => touches_of_act (fun _ => rfl) fun _ => supplySample_fr _ _ _,
   fun _ => touches_of_act (fun _ => rfl) fun _ => overvoltage1s_fr,
   fun _ => touches_of_act (fun _ => rfl) fun _ => unAutoSelect_fr,
   fun _ _ _ => touches_of_act (fun _ => rfl) fun _ => auxSample_fr _ _,
   fun _ _ _ => touches_of_act (fun _ => rfl) fun _ => tempLevelChange_fr _ _,
   fun _ _ _ => touches_of_act (fun _ => rfl) fun _ => tempSensorStuck_fr _ _,
   fun _ _ => touches_of_act (fun _ => rfl) fun _ => tempSensorPlausible_fr _⟩

end

section
/-! The state code a capture takes of a `DQ` channel (11). -/

namespace Sys2Proof.Machine

/-! ### What settling the memory leaves of mode, causes and stage -/

theorem memSettle_causeOf (n m : Nat) (s : State) : causeOf ((memSettle n s).chan m) = causeOf (s.chan m) :=
  (congrArg causeOf (memSettle_part n m s) :)

theorem memSettle_chMode (n m : Nat) (s : State) : chMode (memSettle n s) m = chMode s m :=
  chMode_of (s := s) (x := memSettle n s) rfl m (congrArg Chan.cfg (memSettle_part n m s) :)

theorem memSettle_stageOn (n m : Nat) (s : State) : stageOn (memSettle n s) m = stageOn s m := by
  have supply : ((memSettle n s).chan m).fSupply = (s.chan m).fSupply := (congrArg Chan.fSupply (memSettle_part n m s) :)
  have thermal : ((memSettle n s).chan m).fThermal = (s.chan m).fThermal :=
    (congrArg Chan.fThermal (memSettle_part n m s) :)
  have limit : ((memSettle n s).chan m).fLimit = (s.chan m).fLimit := (congrArg Chan.fLimit (memSettle_part n m s) :)
  have cmd : ((memSettle n s).chan m).cmd = (s.chan m).cmd := (congrArg Chan.cmd (memSettle_part n m s) :)
  have powered : stagePowered (memSettle n s) m = stagePowered s m := by
    rw [stagePowered, stagePowered, memSettle_chMode]
    rfl
  rw [stageOn, stageOn, powered, supply, thermal, limit, cmd]

/-! ### The code -/

/-- The state code of a `DQ` channel: a fault, or whether its stage is on (R334). -/
def outputCode (s : State) (n : Nat) : Nat :=
  if causeOf (s.chan n) ≠ 0 then 3 else if stageOn s n then 1 else 0

theorem outputCode_cases (s : State) (n : Nat) : outputCode s n = 3 ∨ outputCode s n = 1 ∨ outputCode s n = 0 := by
  unfold outputCode
  split_ifs <;> simp

/-- The two lowest bits of a word are those of the number it holds. -/
theorem w32_mod_four (a : Nat) : (w32 a).toNat % 4 = a % 4 := by
  rw [w32, BitVec.toNat_ofNat]
  exact Nat.mod_mod_of_dvd a (by decide)

/-- Cycle, cause and flags stand above the state code in the word a capture takes. -/
theorem capture_outputCode (v : Byte) {n : Nat} {s : State} (hn : n < s.ch.length) (hd : chMode s n = 5) :
    ((capture n v s).chan n).cap.state.toNat % 4 = outputCode s n := by
  have word : ∃ high, ((capture n v s).chan n).cap.state = w32 (4 * high + outputCode s n) := by
    refine ⟨s.cyc.cyc.toNat * 16384 + causeOf (s.chan n) * 64 + (if stageOn s n then 4 else 0) +
      (if ((memSettle n s).chan n).grid then 2 else 0) + (if ((memSettle n s).chan n).force.isSome then 1 else 0), ?_⟩
    unfold capture
    dsimp only
    rw [chan_of (drawn_ch _), chan_chanMod, if_pos ⟨rfl, by rwa [memSettle_len]⟩]
    simp only [memSettle_chMode, hd, memSettle_causeOf, memSettle_stageOn]
    have cycle : (memSettle n s).cyc.cyc = s.cyc.cyc := rfl
    simp only [cycle, outputCode, decide_true, Bool.true_and, if_true, Nat.mul_add, mul_ite, Nat.reduceMul]
    exact congrArg w32 (by omega)
  obtain ⟨high, word⟩ := word
  rw [word, w32_mod_four]
  rcases outputCode_cases s n with h | h | h <;> omega

end Sys2Proof.Machine

open Sys2Proof Sys2Proof.Machine

/-- Settles O46: the code is `outputCode`, which is never 2. -/
theorem outputStateCode : Obligations.OutputStateCode := by
  intro s n v hn hd
  have code := capture_outputCode v hn hd
  refine ⟨code, ?_⟩
  rcases outputCode_cases s n with h | h | h <;> omega

end

section
/-! Field channel events: comparator, sink, causes, supply and the end of a force (11). -/

namespace Sys2Proof.Machine

/-! ### A channel under the shared operations -/

/-- Every state of a run has the 32 field channels (R318). -/
theorem Inv.hasChan {s : State} (h : Inv s) (n : Fin 32) : n.val < s.ch.length := n.isLt.trans_eq h.chans.symm

section
variable {s : State} {n : Nat}

theorem chanMod_chan_self (f : Chan → Chan) (hn : n < s.ch.length) : (chanMod n f s).chan n = f (s.chan n) := by
  rw [chan_chanMod, if_pos ⟨rfl, hn⟩]

/-- A cause that appears on a channel `f` has just changed (R336, R337, R340). -/
theorem causeSet_chanMod_part (k : Nat) (f : Chan → Chan) (hn : n < s.ch.length) :
    ∃ x, chanP ((causeSet k n (chanMod n f s)).chan n) = chanP { causePut k true (f (s.chan n)) with
      fault := (f (s.chan n)).fault ||| causeBit k, faultAt := x } := by
  obtain ⟨x, part⟩ := causeSet_part k n (chanMod n f s) (by rwa [chanMod_len])
  exact ⟨x, by rw [part, chanMod_chan_self f hn]⟩

theorem causeClear_part_self (k : Nat) (hn : n < s.ch.length) :
    chanP ((causeClear k n s).chan n) = chanP (causePut k false (s.chan n)) := by
  rw [causeClear_part, if_pos ⟨rfl, hn⟩]

/-- A cause that goes, and what the stage then drives (R333, R336, R340). -/
theorem restage_causeClear_part (k : Nat) (hn : n < s.ch.length) :
    chanQ ((restage n (causeClear k n s)).chan n) = chanQ (causePut k false (s.chan n)) :=
  (restage_part n n _).trans (chanQ_of (causeClear_part_self k hn))

/-! ### The meanings under their conditions -/

theorem sinkOn_energised (hm : chMode s n = 3) (hu : chUsable s n = true) (ho : (s.chan n).sink = false) :
    sinkOn n s = chanMod n (fun c => { c with sink := true, sinkAt := s.now }) s :=
  if_pos (by simp [hm, hu, ho])

theorem currentLimit_of_on (ho : stageOn s n = true) (hl : (s.chan n).fLimit = false) : currentLimit n s =
    raise 0x6002 n [] (causeSet 3 n (chanMod n (fun c => { c with epLimit := satInc c.epLimit }) s)) :=
  if_pos (by simp [ho, hl])

theorem thermalCutoff_of_on (ho : stageOn s n = true) : thermalCutoff n s =
    restage n (raise 0x6003 n [] (chanMod n (fun c => { c with fLimit := false })
      (causeSet 4 n (chanMod n (fun c => { c with epThermal := satInc c.epThermal }) s)))) := if_pos ho

theorem openLoadDetect_of_on (hc : (s.chan n).cfg.getLsbD 13 = true) (ho : stageOn s n = true)
    (hl : (s.chan n).fLimit = false) (hf : (s.chan n).fOpen = false) : openLoadDetect n s =
    raise 0x6004 n [] (causeSet 5 n (chanMod n (fun c => { c with opens := satInc c.opens }) s)) :=
  if_pos (by simp only [hc, ho, hl, hf]; rfl)

theorem couplerLoss_of_live (hv : fieldLive s = true) (hd : (s.dom (74 + n)).act = .on)
    (hc : (s.chan n).fCoupler = false) (hs : (s.chan n).fSupply = false) : couplerLoss n s =
    raise 0x6005 n [] (causeSet 1 n (chanMod n (fun c => { c with losses := satInc c.losses, couplerAt := s.now }) s)) :=
  if_pos (by simp [hv, hd, hc, hs])

theorem couplerRestore_of_lost (h : (s.chan n).fCoupler = true) : couplerRestore n s =
    raise 0x6006 n [micros (s.now - (s.chan n).couplerAt)] (restage n (causeClear 1 n s)) := if_pos h

theorem groupSupplyLow_of_live {g : Nat} (hv : fieldLive s = true) (hd : (s.dom (38 + g)).act = .on)
    (hs : (s.chan (8 * g)).fSupply = false) : groupSupplyLow g s =
    (groupChannels g).foldl (fun s n => restage n s)
      (raise 0x6008 g [] ((groupChannels g).foldl (fun s n => causeSet 2 n s) s)) :=
  if_pos (by simp [hv, hd, hs])

theorem groupSupplyRestore_of_low {g : Nat} (h : (s.chan (8 * g)).fSupply = true) :
    groupSupplyRestore g s = (groupChannels g).foldl restoreOne (raise 0x6009 g [] s) := if_pos h

end

/-! ### The channels of a group -/

theorem mem_groupChannels {g i : Nat} (hi : i < 8) : 8 * g + i ∈ groupChannels g :=
  List.mem_map_of_mem (List.mem_range.mpr hi)

theorem Inv.hasGroup {s : State} (h : Inv s) (g : Fin 4) : ∀ n ∈ groupChannels g.val, n < s.ch.length := by
  intro n hn
  obtain ⟨i, hi, rfl⟩ := List.mem_map.mp hn
  have inGroup := List.mem_range.mp hi
  rw [h.chans]
  omega

/-! ### The commands -/

section
variable {s : State} (t : Nat) (ch : Fin 32) (hi : Inv s)
include hi

theorem gives_inputThresholdCrossing (l : Comparator) (hv : s.dev.variantN = false) :
    Gives (.inputThresholdCrossing t ch l) s (fun u => (u.chan ch.val).level = l ∧
      (u.chan ch.val).levelAt = s.cyc.base + max s.cyc.phase t ∧ (sensing (begin_ t s) ch.val = true →
        (l = .above → (u.chan ch.val).mem = .on) ∧ (l = .below → (u.chan ch.val).mem = .off))) := by
  refine gives_of_act rfl ?_
  rw [kick_chan]
  exact input_part ch.val l (begin_ t s) hv (hi.hasChan ch)

theorem gives_dipsSinkOn (hm : chMode s ch.val = 3) (hu : chUsable s ch.val = true)
    (ho : (s.chan ch.val).sink = false) : Gives (.dipsSinkOn t ch) s (fun u =>
      (u.chan ch.val).sink = true ∧ (u.chan ch.val).sinkAt = s.cyc.base + max s.cyc.phase t) := by
  refine gives_of_act rfl ?_
  rw [kick_chan, sinkOn_energised (s := begin_ t s) hm hu ho, chanMod_chan_self (s := begin_ t s) _ (hi.hasChan ch)]
  exact ⟨rfl, rfl⟩

theorem gives_dipsSinkOff : Gives (.dipsSinkOff t ch) s (fun u => (u.chan ch.val).sink = false) := by
  refine gives_of_act rfl ?_
  rw [kick_chan, sinkOff, chanMod_chan_self _ (by rw [memSettle_len]; exact hi.hasChan ch)]

theorem gives_currentLimit (ho : stageOn s ch.val = true) (hl : (s.chan ch.val).fLimit = false) :
    Gives (.currentLimit t ch) s (fun u => (u.chan ch.val).fLimit = true ∧
      (u.chan ch.val).epLimit = satInc (s.chan ch.val).epLimit ∧
      (u.chan ch.val).fault = (s.chan ch.val).fault ||| causeBit 3 ∧ Occurred 0x6002 ch.val u) := by
  refine gives_of_act rfl ?_
  rw [kick_chan, currentLimit_of_on (s := begin_ t s) ho hl, raise_chan]
  obtain ⟨x, part⟩ := causeSet_chanMod_part (s := begin_ t s) 3
    (fun c => { c with epLimit := satInc c.epLimit }) (hi.hasChan ch)
  exact ⟨congrArg Chan.fLimit part, congrArg Chan.epLimit part, congrArg Chan.fault part,
    kick_occurred (raise_occurred _ _ _ _)⟩

theorem gives_currentLimitEnd : Gives (.currentLimitEnd t ch) s (fun u => (u.chan ch.val).fLimit = false) := by
  refine gives_of_act rfl ?_
  rw [kick_chan]
  exact congrArg Chan.fLimit (restage_causeClear_part (s := begin_ t s) 3 (hi.hasChan ch))

theorem gives_thermalCutoff (ho : stageOn s ch.val = true) :
    Gives (.thermalCutoff t ch) s (fun u => (u.chan ch.val).fThermal = true ∧ (u.chan ch.val).fLimit = false ∧
      (u.chan ch.val).epThermal = satInc (s.chan ch.val).epThermal ∧ Occurred 0x6003 ch.val u) := by
  refine gives_of_act rfl ?_
  rw [kick_chan, thermalCutoff_of_on (s := begin_ t s) ho]
  obtain ⟨x, hot⟩ := causeSet_chanMod_part (s := begin_ t s) 4
    (fun c => { c with epThermal := satInc c.epThermal }) (hi.hasChan ch)
  have part := restage_part ch.val ch.val (raise 0x6003 ch.val [] (chanMod ch.val (fun c => { c with fLimit := false })
    (causeSet 4 ch.val (chanMod ch.val (fun c => { c with epThermal := satInc c.epThermal }) (begin_ t s)))))
  rw [raise_chan, chanMod_chan_self _ (by rw [causeSet_len, chanMod_len]; exact hi.hasChan ch)] at part
  exact ⟨(congrArg Chan.fThermal part).trans (congrArg Chan.fThermal hot), congrArg Chan.fLimit part,
    (congrArg Chan.epThermal part).trans (congrArg Chan.epThermal hot),
    kick_occurred (.mono (restage_evsIn _ _) (raise_occurred _ _ _ _))⟩

theorem gives_thermalRelease : Gives (.thermalRelease t ch) s (fun u => (u.chan ch.val).fThermal = false) := by
  refine gives_of_act rfl ?_
  rw [kick_chan]
  exact congrArg Chan.fThermal (restage_causeClear_part (s := begin_ t s) 4 (hi.hasChan ch))

theorem gives_openLoadDetect (hc : (s.chan ch.val).cfg.getLsbD 13 = true) (ho : stageOn s ch.val = true)
    (hl : (s.chan ch.val).fLimit = false) (hf : (s.chan ch.val).fOpen = false) :
    Gives (.openLoadDetect t ch) s (fun u => (u.chan ch.val).fOpen = true ∧
      (u.chan ch.val).opens = satInc (s.chan ch.val).opens ∧ Occurred 0x6004 ch.val u) := by
  refine gives_of_act rfl ?_
  rw [kick_chan, openLoadDetect_of_on (s := begin_ t s) hc ho hl hf, raise_chan]
  obtain ⟨x, part⟩ := causeSet_chanMod_part (s := begin_ t s) 5
    (fun c => { c with opens := satInc c.opens }) (hi.hasChan ch)
  exact ⟨congrArg Chan.fOpen part, congrArg Chan.opens part, kick_occurred (raise_occurred _ _ _ _)⟩

theorem gives_openLoadClear : Gives (.openLoadClear t ch) s (fun u => (u.chan ch.val).fOpen = false) := by
  refine gives_of_act rfl ?_
  rw [kick_chan]
  exact congrArg Chan.fOpen (causeClear_part_self (s := begin_ t s) 5 (hi.hasChan ch))

theorem gives_couplerLoss (hv : fieldLive s = true) (hd : (s.dom (74 + ch.val)).act = .on)
    (hc : (s.chan ch.val).fCoupler = false) (hs : (s.chan ch.val).fSupply = false) :
    Gives (.couplerLoss t ch) s (fun u => (u.chan ch.val).fCoupler = true ∧
      (u.chan ch.val).losses = satInc (s.chan ch.val).losses ∧ Occurred 0x6005 ch.val u) := by
  refine gives_of_act rfl ?_
  rw [kick_chan, couplerLoss_of_live (s := begin_ t s) hv hd hc hs, raise_chan]
  obtain ⟨x, part⟩ := causeSet_chanMod_part (s := begin_ t s) 1
    (fun c => { c with losses := satInc c.losses, couplerAt := (begin_ t s).now }) (hi.hasChan ch)
  exact ⟨congrArg Chan.fCoupler part, congrArg Chan.losses part, kick_occurred (raise_occurred _ _ _ _)⟩

theorem gives_couplerRestore (hc : (s.chan ch.val).fCoupler = true) : Gives (.couplerRestore t ch) s (fun u =>
    (u.chan ch.val).fCoupler = false ∧ Occurred 0x6006 ch.val u) := by
  refine gives_of_act rfl ?_
  rw [kick_chan, couplerRestore_of_lost (s := begin_ t s) hc, raise_chan]
  exact ⟨congrArg Chan.fCoupler (restage_causeClear_part (s := begin_ t s) 1 (hi.hasChan ch)),
    kick_occurred (raise_occurred _ _ _ _)⟩

theorem gives_groupSupplyLow (g : Fin 4) (hv : fieldLive s = true) (hd : (s.dom (38 + g.val)).act = .on)
    (hs : (s.chan (8 * g.val)).fSupply = false) : Gives (.groupSupplyLow t g) s (fun u =>
      (∀ i < 8, (u.chan (8 * g.val + i)).fSupply = true) ∧ Occurred 0x6008 g.val u) := by
  refine gives_of_act rfl ?_
  rw [groupSupplyLow_of_live (s := begin_ t s) hv hd hs]
  refine ⟨fun i hlt => ?_, kick_occurred (.mono (foldRestage_evsIn _ _) (raise_occurred _ _ _ _))⟩
  rw [kick_chan, foldRestage_supply, raise_chan]
  exact foldSupply _ (begin_ t s) (hi.hasGroup g) _ (.inl (mem_groupChannels hlt))

theorem gives_groupSupplyRestore (g : Fin 4) (hs : (s.chan (8 * g.val)).fSupply = true) :
    Gives (.groupSupplyRestore t g) s (fun u =>
      (∀ i < 8, (u.chan (8 * g.val + i)).fSupply = false) ∧ Occurred 0x6009 g.val u) := by
  refine gives_of_act rfl ?_
  rw [groupSupplyRestore_of_low (s := begin_ t s) hs]
  refine ⟨fun i hlt => ?_, kick_occurred (.mono (foldRestore_evsIn _ _) (raise_occurred _ _ _ _))⟩
  rw [kick_chan]
  exact foldRestore _ _ (by simpa using hi.hasGroup g) _ (.inl (mem_groupChannels hlt))

theorem gives_forceTimeout (hf : (s.chan ch.val).force.isSome = true) :
    Gives (.forceTimeout t ch) s (fun u => (u.chan ch.val).forceOver = true) := by
  refine gives_of_act rfl ?_
  rw [kick_chan, forceTimeout, chanMod_chan_self (s := begin_ t s) _ (hi.hasChan ch)]
  exact congrArg Chan.forceOver (if_pos hf)

end

end Sys2Proof.Machine

open Sys2Proof Sys2Proof.Machine

/-- Settles O21: each clause is what the meaning of its command is under the conditions named. The stage a
thermal cut-off turns off may end an open load, which leaves what the clause speaks of alone (`restage_part`). -/
theorem fieldChannelEvents : Obligations.FieldChannelEvents :=
  ⟨fun _ t ch l hi => gives_inputThresholdCrossing t ch hi l, fun _ t ch hi => gives_dipsSinkOn t ch hi,
   fun _ t ch hi => gives_dipsSinkOff t ch hi, fun _ t ch hi => gives_currentLimit t ch hi,
   fun _ t ch hi => gives_currentLimitEnd t ch hi, fun _ t ch hi => gives_thermalCutoff t ch hi,
   fun _ t ch hi => gives_thermalRelease t ch hi, fun _ t ch hi => gives_openLoadDetect t ch hi,
   fun _ t ch hi => gives_openLoadClear t ch hi, fun _ t ch hi => gives_couplerLoss t ch hi,
   fun _ t ch hi => gives_couplerRestore t ch hi, fun _ t g hi => gives_groupSupplyLow t hi g,
   fun _ t g hi => gives_groupSupplyRestore t hi g, fun _ t ch hi => gives_forceTimeout t ch hi⟩

end

section
/-! Supplies and temperatures: the supply sample, the choice of Un, auxiliary samples, temperature levels and faulty
sensors (12). -/

namespace Sys2Proof.Machine

theorem kick_ms (l : List Instr) (x : State) : (State.ms { nvKick x with pending := l }) = x.ms := nvKick_ms x

/-! ### The meanings under their conditions -/

section
variable {s : State} {i : Nat} (v : Half)

theorem overvoltage1s_of_high (ha : supplyAdcOn s = true) (ho : s.ms.cls.overTime ≠ 0) :
    overvoltage1s s = clsPut (fun c => { c with ovr := true }) s := if_pos (by simp [ha, ho])

/-- The mean of the battery samples is what Un follows (R353). -/
theorem unAutoSelect_of_mean (hc : s.cycling = true) (hn : s.ms.batCount ≠ 0)
    (hu : s.image.elim true (fun im => im.node.unSel = 0) = true) : unAutoSelect s =
    selectUn (if s.ms.batSum * 180000 / 4096 / s.ms.batCount < 45000 then 1
      else if s.ms.batSum * 180000 / 4096 / s.ms.batCount < 95000 then 2 else 3) false s :=
  if_pos (by rw [hc, hu, decide_eq_true hn]; rfl)

/-- The code of a quantity is the byte's number (Table 12.1). -/
theorem toNat_code {k : Nat} (hk : k < 256) : (BitVec.ofNat 8 k).toNat = k := by
  rw [BitVec.toNat_ofNat, Nat.mod_eq_of_lt hk]

theorem auxSample_temp (hi : i < 3) (ha : auxAdcOn s = true) :
    auxSample (BitVec.ofNat 8 (3 + i)) v s = { s with ms := { s.ms with temps := s.ms.temps.set i v } } := by
  rw [auxSample, toNat_code (by omega), if_pos (by simp; omega), if_pos ha, Nat.add_sub_cancel_left]

theorem auxSample_group (hi : i < 4) (hl : fieldLive s = true) (hd : (s.dom (38 + i)).act = .on) :
    auxSample (BitVec.ofNat 8 (8 + i)) v s = groupSample i (v.setWidth 10) s := by
  rw [auxSample, toNat_code (by omega), if_neg (by simp; omega), if_pos (by simp; omega), Nat.add_sub_cancel_left,
    if_pos (by simp [hl, hd])]

theorem auxSample_rail (hi : i < 4) (ha : auxAdcOn s = true) :
    auxSample (BitVec.ofNat 8 (12 + i)) v s = railSample i (v.setWidth 12) s := by
  rw [auxSample, toNat_code (by omega), if_neg (by simp; omega), if_neg (by simp; omega), if_pos (by simp; omega),
    if_pos ha, Nat.add_sub_cancel_left]

theorem auxSample_load (hi : i < 32) (hm : chMode s i = 5) (hd : (s.dom (74 + i)).act = .on) :
    auxSample (BitVec.ofNat 8 (0x20 + i)) v s = chanMod i (fun c => { c with load := v.setWidth 10 }) s := by
  rw [auxSample, toNat_code (by omega), if_neg (by simp; omega), if_neg (by simp; omega), if_neg (by simp; omega),
    if_pos (by simp; omega), Nat.add_sub_cancel_left, if_pos (by simp [hm, hd])]

theorem tempNext_warn {warn crit x : Int} (hw : warn ≤ x) (hc : x < crit) : tempNext .normal warn crit x = .warn := by
  rw [tempNext, if_neg hc.not_ge, if_pos hw]

section
variable (ha : auxAdcOn s = true) (hb : s.ms.tBad.getD i false = false)
include ha hb

/-- Whatever event a change of level raises, reading and level stand (R358). -/
theorem tempLevelChange_ms : (tempLevelChange i v s).ms.temps = s.ms.temps.set i v ∧
    (tempLevelChange i v s).ms.tlevel = s.ms.tlevel.set i
      (tempNext (s.ms.tlevel.getD i .normal) (tempThr s (2 * i)) (tempThr s (2 * i + 1)) v.toInt) := by
  rw [tempLevelChange, if_neg (by simp only [ha, hb]; decide)]
  dsimp only
  split <;> simp

theorem tempLevelChange_warn (hn : s.ms.tlevel.getD i .normal = .normal) (hw : tempThr s (2 * i) ≤ v.toInt)
    (hc : v.toInt < tempThr s (2 * i + 1)) : tempLevelChange i v s =
    raise 0x7010 i [] { s with ms := { s.ms with
      temps := s.ms.temps.set i v, tlevel := s.ms.tlevel.set i .warn, twarn := bump i s.ms.twarn } } := by
  rw [tempLevelChange, if_neg (by simp only [ha, hb]; decide)]
  simp only [hn, tempNext_warn hw hc]

theorem tempSensorStuck_of_sound : tempSensorStuck i v s = raise 0x7013 i [v.signExtend 32]
    { s with ms := { s.ms with temps := s.ms.temps.set i v, tBad := s.ms.tBad.set i true } } :=
  if_neg (by simp only [ha, hb]; decide)

end

theorem tempSensorPlausible_of_on (ha : auxAdcOn s = true) :
    tempSensorPlausible i s = { s with ms := { s.ms with tBad := s.ms.tBad.set i false } } := if_pos ha

end

/-! ### The commands -/

section
variable {s : State} (t : Nat)

theorem gives_supplySample (b i h : BitVec 12) (ha : supplyAdcOn s = true) :
    Gives (.supplySample t b i h) s (fun u => u.ms.bat = b ∧ u.ms.iin = i ∧ u.ms.hu = h ∧
      u.ms.batSum = s.ms.batSum + b.toNat ∧ u.ms.batCount = s.ms.batCount + 1) := by
  refine gives_of_act rfl ?_
  have base := supplySample_base b i h (begin_ t s) ha
  simp only [msBase, Prod.mk.injEq] at base
  rw [kick_ms]
  exact base

theorem gives_overvoltage1s (ha : supplyAdcOn s = true) (ho : s.ms.cls.overTime ≠ 0) :
    Gives (.overvoltage1s t) s (fun u => u.ms.cls.ovr = true) := by
  refine gives_of_act rfl ?_
  rw [kick_ms, overvoltage1s_of_high (s := begin_ t s) ha ho]
  rfl

theorem gives_unAutoSelect (hc : s.cycling = true) (hn : s.ms.batCount ≠ 0)
    (hu : s.image.elim true (fun im => im.node.unSel = 0) = true) : Gives (.unAutoSelect t) s (fun u =>
      u.ms.un = (if s.ms.batSum * 180000 / 4096 / s.ms.batCount < 45000 then 1
        else if s.ms.batSum * 180000 / 4096 / s.ms.batCount < 95000 then 2 else 3) ∧
      u.ms.unBySel = false ∧ Occurred 0x7006 0xFF u) := by
  refine gives_of_act rfl ?_
  rw [kick_ms, unAutoSelect_of_mean (s := begin_ t s) hc hn hu]
  obtain ⟨un, source, event⟩ := selectUn_p _ false (begin_ t s)
  exact ⟨un, source, kick_occurred event⟩

theorem gives_auxTemp (i : Fin 3) (v : Half) (ha : auxAdcOn s = true) :
    Gives (.auxSample t (BitVec.ofNat 8 (3 + i.val)) v) s (fun u => u.ms.temps = s.ms.temps.set i.val v) := by
  refine gives_of_act rfl ?_
  rw [kick_ms, auxSample_temp (s := begin_ t s) v i.isLt ha]
  rfl

theorem gives_auxGroup (g : Fin 4) (v : Half) (hl : fieldLive s = true) (hd : (s.dom (38 + g.val)).act = .on) :
    Gives (.auxSample t (BitVec.ofNat 8 (8 + g.val)) v) s
      (fun u => u.ms.groups = s.ms.groups.set g.val (v.setWidth 10)) := by
  refine gives_of_act rfl ?_
  rw [kick_ms, auxSample_group (s := begin_ t s) v g.isLt hl hd]
  exact groupSample_ms _ _ _

theorem gives_auxRail (i : Fin 4) (v : Half) (ha : auxAdcOn s = true) :
    Gives (.auxSample t (BitVec.ofNat 8 (12 + i.val)) v) s
      (fun u => u.ms.rails = s.ms.rails.set i.val (v.setWidth 12)) := by
  refine gives_of_act rfl ?_
  rw [kick_ms, auxSample_rail (s := begin_ t s) v i.isLt ha]
  exact railSample_ms _ _ _

theorem gives_auxLoad (ch : Fin 32) (v : Half) (hi : Inv s) (hm : chMode s ch.val = 5)
    (hd : (s.dom (74 + ch.val)).act = .on) : Gives (.auxSample t (BitVec.ofNat 8 (0x20 + ch.val)) v) s
      (fun u => (u.chan ch.val).load = v.setWidth 10) := by
  refine gives_of_act rfl ?_
  rw [kick_chan, auxSample_load (s := begin_ t s) v ch.isLt hm hd,
    chanMod_chan_self (s := begin_ t s) _ (hi.hasChan ch)]

section
variable (i : Fin 3) (v : Half) (ha : auxAdcOn s = true)
include ha

theorem gives_tempLevelChange (hb : s.ms.tBad.getD i.val false = false) :
    Gives (.tempLevelChange t i v) s (fun u => u.ms.temps = s.ms.temps.set i.val v ∧
      u.ms.tlevel = s.ms.tlevel.set i.val (tempNext (s.ms.tlevel.getD i.val .normal)
        (tempThr s (2 * i.val)) (tempThr s (2 * i.val + 1)) v.toInt)) := by
  refine gives_of_act rfl ?_
  rw [kick_ms]
  exact tempLevelChange_ms (s := begin_ t s) v ha hb

theorem gives_tempWarn (hb : s.ms.tBad.getD i.val false = false) (hn : s.ms.tlevel.getD i.val .normal = .normal)
    (hw : tempThr s (2 * i.val) ≤ v.toInt) (hc : v.toInt < tempThr s (2 * i.val + 1)) :
    Gives (.tempLevelChange t i v) s (fun u => u.ms.twarn = bump i.val s.ms.twarn ∧ Occurred 0x7010 i.val u) := by
  refine gives_of_act rfl ?_
  rw [kick_ms, tempLevelChange_warn (s := begin_ t s) v ha hb hn hw hc, raise_ms]
  exact ⟨rfl, kick_occurred (raise_occurred _ _ _ _)⟩

theorem gives_tempSensorStuck (hb : s.ms.tBad.getD i.val false = false) :
    Gives (.tempSensorStuck t i v) s (fun u => u.ms.temps = s.ms.temps.set i.val v ∧
      u.ms.tBad = s.ms.tBad.set i.val true ∧ Occurred 0x7013 i.val u) := by
  refine gives_of_act rfl ?_
  rw [kick_ms, tempSensorStuck_of_sound (s := begin_ t s) v ha hb, raise_ms]
  exact ⟨rfl, rfl, kick_occurred (raise_occurred _ _ _ _)⟩

theorem gives_tempSensorPlausible :
    Gives (.tempSensorPlausible t i) s (fun u => u.ms.tBad = s.ms.tBad.set i.val false) := by
  refine gives_of_act rfl ?_
  rw [kick_ms, tempSensorPlausible_of_on (s := begin_ t s) ha]
  rfl

end

end

end Sys2Proof.Machine

open Sys2Proof Sys2Proof.Machine

/-- Settles O22: each clause is what the meaning of its command is under the conditions named. A supply sample may end a
class of the supply, which leaves the samples and their sum alone (`supplySample_base`). -/
theorem suppliesAndTemperatures : Obligations.SuppliesAndTemperatures :=
  ⟨fun _ t b i h => gives_supplySample t b i h, fun _ t => gives_overvoltage1s t, fun _ t => gives_unAutoSelect t,
   fun _ t i v => gives_auxTemp t i v, fun _ t g v => gives_auxGroup t g v, fun _ t i v => gives_auxRail t i v,
   fun _ t ch v => gives_auxLoad t ch v, fun _ t i v => gives_tempLevelChange t i v,
   fun _ t i v => gives_tempWarn t i v, fun _ t i v => gives_tempSensorStuck t i v,
   fun _ t i => gives_tempSensorPlausible t i⟩

end

section
/-! The frames of the JNIS instructions (13): what each may change beside the core in control, where it runs on and where
the core yields. -/

namespace Sys2Proof.Machine

/-- What a yield may change: the parts a takeover, a repair or the way to `NOCORE` reaches (R427). -/
def yieldParts : List Part := [.node, .vn, .eq, .pool, .ch, .bn, .cr, .rg, .free]

/-- What an instruction that runs on may change beside the parts `ps`: the core in control, and what any command may. -/
def runMask (ps : List Part) : Nat := mask (always ++ .cr :: ps)

/-- The frame of an instruction whose work is `instr`. -/
theorem frame_of_instr {i : Instr} {n : Nat} {f : Core → State → State} {ps qs : List Part}
    (he : ∀ s, exec i s = actJ (instr n f) s) (hf : ∀ c s x, Ran (runMask ps) s x → Ran (runMask ps) s (f c x))
    (hr : within (2883604 ||| 32768) (runMask ps) = true := by decide)
    (hi : within 32784 (runMask ps) = true := by decide)
    (hq : within (runMask ps ||| 7395078) (mask (always ++ qs)) = true := by decide) : RunsOn ps i ∧ Touches qs i :=
  jframe ps qs he hr hq (Ran.instr hi hf)

/-- The frame of an instruction whose effect lies in the core. -/
theorem frame_of_coreOp {i : Instr} {n : Nat} {g : Core → Core → Core}
    (he : ∀ s, exec i s = actJ (instr n (fun c => coreOp (g c) c)) s) : RunsOn [] i ∧ Touches yieldParts i :=
  frame_of_instr he fun _ _ _ h => h.coreOp (by decide)

/-- The frame of a service instruction from that of its effect. -/
theorem frame_of_service {i : Instr} {ok : Bool} {f : Core → State → State} {ps qs : List Part}
    (he : ∀ s, exec i s = actJ (service ok f) s) (hf : ∀ c s x, Ran (runMask ps) s x → Ran (runMask ps) s (f c x))
    (hr : within (2883604 ||| 32768) (runMask ps) = true := by decide)
    (hi : within 32784 (runMask ps) = true := by decide)
    (hq : within (runMask ps ||| 7395078) (mask (always ++ qs)) = true := by decide) : RunsOn ps i ∧ Touches qs i :=
  jframe ps qs he hr hq (Ran.service hi hf)

/-! ### Memory, control and assertions -/

section
variable {m : Nat} {c : Core} {s x : State} (hm : within 32768 m = true) (hx : Ran m s x)
include hm hx

theorem stwOp_ran (d a : BitVec 5) (imm : Half) :
    Ran m s (if !memOk c (memAddr c a imm) 4 then yieldNow 0x02 x
      else coreOp (fun k => memStore 4 d (memAddr c a imm) (wordClean (memAddr c a imm) k)) c x) :=
  .ite hx.yieldNow (hx.coreOp hm)

theorem brOp_ran (cond : BitVec 5) (imm : Half) : Ran m s (brOp cond imm c x) :=
  .ite (hx.continueFrom hm) (.ite hx.yieldNow (hx.jump hm))

theorem loopOp_ran (a lenH : BitVec 5) (lenL : BitVec 4) (nmax : BitVec 12) :
    Ran m s (loopOp a lenH lenL nmax c x) :=
  .ite hx.yieldNow (.ite hx.yieldNow (.ite (.ite hx.yieldNow (hx.jump hm)) (hx.jump hm)))

theorem callOp_ran (imm : Half) : Ran m s (callOp imm c x) := .ite hx.yieldNow (hx.jump hm)

theorem retOp_ran : Ran m s (retOp c x) := by
  unfold retOp
  split
  · exact hx.yieldNow
  · exact .ite hx.yieldNow (.ite hx.yieldNow ((hx.act hm).continueFrom hm))

theorem haltOp_ran : Ran m s (haltOp c x) := by
  unfold haltOp
  split
  · exact hx
  · exact .ite (hx.act hm) hx.yieldNow

end

/-! ### Field, network and system instructions -/

section
variable {m : Nat} {c : Core} {s x : State} (hm : within 32768 m = true) (hx : Ran m s x)
include hm hx

theorem sampOp_ran (d a : BitVec 5) (k : Byte) : Ran m s (sampOp d a k c x) := .ite (hx.refuse hm) (hx.act hm)

theorem cntrOp_ran (d a : BitVec 5) (k : Byte) : Ran m s (cntrOp d a k c x) := .ite (hx.refuse hm) (hx.act hm)

theorem measOp_ran (d a : BitVec 5) (set item : BitVec 4) : Ran m s (measOp d a set item c x) := by
  unfold measOp
  dsimp only
  split
  · exact hx.refuse hm
  · exact hx.act hm

theorem twrWordOp_ran (d a : BitVec 5) (k : Byte) : Ran m s (twrWordOp d a k c x) := by
  unfold twrWordOp
  dsimp only
  split
  · exact hx.refuse hm
  · exact .ite (hx.refuse hm) (hx.act hm)

theorem twrHeaderOp_ran (d a : BitVec 5) : Ran m s (twrHeaderOp d a c x) := by
  unfold twrHeaderOp
  dsimp only
  split
  · exact hx.refuse hm
  · exact hx.act hm

theorem vrcvStatusOp_ran (d : BitVec 5) (slot : BitVec 6) : Ran m s (vrcvStatusOp d slot c x) := by
  unfold vrcvStatusOp
  split
  · exact hx.refuse hm
  · exact hx.act hm

theorem logeOp_ran (d a : BitVec 5) (inc : Bool) (k : BitVec 12) : Ran m s (logeOp d a inc k c x) := by
  unfold logeOp
  exact Ran.act hm (Ran.fr (a := 0) (by simp [within]) (by decide) (raiseTo_fr _ _ _ _) hx)

theorem benchResOp_ran (d a : BitVec 5) : Ran m s (benchResOp d a c x) := by
  unfold benchResOp
  dsimp only
  split
  · exact hx.refuse hm
  · exact hx.act hm

theorem bufGetOp_ran (d a : BitVec 5) : Ran m s (bufGetOp d a c x) := .ite (hx.refuse hm) (hx.act hm)

/-! Those that change the part they serve too. -/

theorem drvOp_ran (hch : within 4096 m = true) (d a : BitVec 5) (k : Byte) : Ran m s (drvOp d a k c x) :=
  .ite (hx.refuse hm) (Ran.fr hch (by decide) (chanMod_fr _ _) (hx.act hm))

section
variable (hvn : within 256 m = true)
include hvn

theorem vsndWordOp_ran (d a : BitVec 5) (slot : BitVec 6) : Ran m s (vsndWordOp d a slot c x) := by
  unfold vsndWordOp
  dsimp only
  split
  · exact hx.refuse hm
  · exact .ite (hx.refuse hm) (Ran.act hm (Ran.fr hvn (by decide) (slotMod_fr _ _) hx))

theorem vsndCompleteOp_ran (d a : BitVec 5) (slot : BitVec 6) : Ran m s (vsndCompleteOp d a slot c x) := by
  unfold vsndCompleteOp
  dsimp only
  split
  · exact hx.refuse hm
  · exact .ite (hx.refuse hm) (Ran.act hm (Ran.fr hvn (by decide) (slotMod_fr _ _) hx))

end

theorem vsndDynamicOp_ran (hvp : within 1280 m = true) (d a : BitVec 5) : Ran m s (vsndDynamicOp d a c x) :=
  .ite (hx.refuse hm) (Ran.act hm (Ran.fr hvp (by decide) (dynPost_fr _ _ _) hx))

section
variable (hfree : within 4194304 m = true)
include hfree

theorem vrcvWordOp_ran (d a : BitVec 5) (slot : BitVec 6) : Ran m s (vrcvWordOp d a slot c x) := by
  unfold vrcvWordOp
  dsimp only
  split
  · exact hx.refuse hm
  · exact .ite (hx.refuse hm) (Ran.fr hfree (by decide) drawn_fr (hx.act hm))

theorem chkpStatOp_ran (d : BitVec 5) : Ran m s (chkpStatOp d c x) := by
  unfold chkpStatOp
  split
  · exact hx.act hm
  · exact Ran.fr hfree (by decide) drawn_fr (hx.act hm)

end

section
variable (hports : within 2098688 m = true)
include hports

theorem bfreeOp_ran (d a : BitVec 5) : Ran m s (bfreeOp d a c x) :=
  Ran.act hm (Ran.fr hports (by decide) (freeChain_fr _ _) hx)

theorem eqPostOp_ran (d a b : BitVec 5) : Ran m s (eqPostOp d a b c x) := by
  unfold eqPostOp
  exact Ran.act hm (Ran.fr hports (by decide) (postChain_fr _ _ _ _) hx)

end

end

end Sys2Proof.Machine

open Sys2Proof Sys2Proof.Machine

/-- Settles O55: an ALU instruction is one update of the core in control. -/
theorem arithmeticInstructionFrames : Obligations.ArithmeticInstructionFrames :=
  ⟨fun _ _ _ => frame_of_coreOp fun _ => rfl, fun _ _ _ => frame_of_coreOp fun _ => rfl,
   fun _ _ _ => frame_of_coreOp fun _ => rfl, fun _ _ _ => frame_of_coreOp fun _ => rfl,
   fun _ _ _ => frame_of_coreOp fun _ => rfl, fun _ _ _ => frame_of_coreOp fun _ => rfl,
   fun _ _ _ => frame_of_coreOp fun _ => rfl, fun _ _ _ => frame_of_coreOp fun _ => rfl,
   fun _ _ _ => frame_of_coreOp fun _ => rfl, fun _ _ _ => frame_of_coreOp fun _ => rfl,
   fun _ _ _ => frame_of_coreOp fun _ => rfl, fun _ _ _ => frame_of_coreOp fun _ => rfl,
   fun _ _ _ => frame_of_coreOp fun _ => rfl, fun _ _ _ => frame_of_coreOp fun _ => rfl,
   fun _ _ _ => frame_of_coreOp fun _ => rfl, fun _ _ _ => frame_of_coreOp fun _ => rfl,
   fun _ _ _ => frame_of_coreOp fun _ => rfl, fun _ _ _ => frame_of_coreOp fun _ => rfl,
   fun _ _ _ => frame_of_coreOp fun _ => rfl, fun _ _ _ => frame_of_coreOp fun _ => rfl,
   fun _ _ _ => frame_of_coreOp fun _ => rfl, fun _ _ _ => frame_of_coreOp fun _ => rfl,
   fun _ _ => frame_of_coreOp fun _ => rfl, fun _ _ _ _ => frame_of_coreOp fun _ => rfl⟩

/-- Settles O56: a load or store is one access, a transfer one jump, and each of them may yield. -/
theorem memoryAndControlInstructionFrames : Obligations.MemoryAndControlInstructionFrames :=
  ⟨fun _ _ _ => frame_of_instr (fun _ => rfl) fun _ _ _ h => h.memRead (by decide),
   fun _ _ _ => frame_of_instr (fun _ => rfl) fun _ _ _ h => h.memRead (by decide),
   fun _ _ _ => frame_of_instr (fun _ => rfl) fun _ _ _ h => h.memRead (by decide),
   fun d a imm => frame_of_instr (fun _ => rfl) fun _ _ _ h => stwOp_ran (by decide) h d a imm,
   fun _ _ _ => frame_of_instr (fun _ => rfl) fun _ _ _ h => h.memRead (by decide),
   fun _ _ _ => frame_of_instr (fun _ => rfl) fun _ _ _ h => h.memRead (by decide),
   fun _ _ => frame_of_instr (fun _ => rfl) fun _ _ _ h =>
     .legal (fun _ _ _ k => brOp_ran (by decide) k _ _) _ _ h,
   fun _ _ _ _ => frame_of_instr (fun _ => rfl) fun _ _ _ h => loopOp_ran (by decide) h _ _ _ _,
   fun _ => frame_of_instr (fun _ => rfl) fun _ _ _ h => callOp_ran (by decide) h _,
   frame_of_instr (fun _ => rfl) fun _ _ _ h => retOp_ran (by decide) h,
   frame_of_instr (fun _ => rfl) fun _ _ _ h => haltOp_ran (by decide) h,
   frame_of_instr (fun _ => rfl) fun _ _ _ h => h.coreOp (by decide),
   frame_of_instr (fun _ => rfl) fun _ _ _ h => h.yieldNow,
   fun _ => frame_of_instr (fun _ => rfl) fun _ _ _ h => h.coreOp (by decide),
   fun _ => frame_of_instr (fun _ => rfl) fun _ _ _ h => .ite (h.coreOp (by decide)) h.yieldNow,
   fun _ _ => frame_of_instr (fun _ => rfl) fun _ _ _ h => .ite (h.coreOp (by decide)) h.yieldNow,
   fun _ => jframe [] yieldParts (fun _ => rfl) (by decide) (by decide) (waitOp_ran (by decide))⟩

/-- Settles O57: a service instruction is its effect, which changes the core in control and the part it serves, between
the check of its form and the next instruction. -/
theorem serviceInstructionFrames : Obligations.ServiceInstructionFrames :=
  ⟨fun _ _ _ => frame_of_service (fun _ => rfl) fun _ _ _ h => sampOp_ran (by decide) h _ _ _,
   fun _ _ _ => frame_of_service (fun _ => rfl) fun _ _ _ h => drvOp_ran (by decide) h (by decide) _ _ _,
   fun _ _ _ => frame_of_service (fun _ => rfl) fun _ _ _ h => cntrOp_ran (by decide) h _ _ _,
   fun _ _ _ _ => frame_of_service (fun _ => rfl) fun _ _ _ h => measOp_ran (by decide) h _ _ _ _,
   fun _ _ _ _ => frame_of_service (fun _ => rfl) fun _ _ _ h => twwOp_ran (by decide) h,
   frame_of_service (fun _ => rfl) fun _ _ _ h => tnulOp_ran (by decide) h,
   fun _ _ _ => frame_of_service (fun _ => rfl) fun _ _ _ h => twrWordOp_ran (by decide) h _ _ _,
   fun _ _ => frame_of_service (fun _ => rfl) fun _ _ _ h => twrHeaderOp_ran (by decide) h _ _,
   fun _ _ => frame_of_service (fun _ => rfl) fun _ _ _ h => h.act (by decide),
   fun _ _ _ => frame_of_service (fun _ => rfl) fun _ _ _ h => vsndWordOp_ran (by decide) h (by decide) _ _ _,
   fun _ _ _ => frame_of_service (fun _ => rfl) fun _ _ _ h => vsndCompleteOp_ran (by decide) h (by decide) _ _ _,
   fun _ _ => frame_of_service (fun _ => rfl) fun _ _ _ h => vsndDynamicOp_ran (by decide) h (by decide) _ _,
   fun _ _ _ => frame_of_service (fun _ => rfl) fun _ _ _ h => vrcvWordOp_ran (by decide) h (by decide) _ _ _,
   fun _ _ => frame_of_service (fun _ => rfl) fun _ _ _ h => vrcvStatusOp_ran (by decide) h _ _,
   fun _ => frame_of_service (fun _ => rfl) fun _ _ _ h => vrcvDynamicOp_ran (by decide) h,
   fun _ _ _ => frame_of_service (fun _ => rfl) fun _ _ _ h => mpostSendOp_ran (by decide) h,
   fun _ => frame_of_service (fun _ => rfl) fun _ _ _ h => mpostTakeOp_ran (by decide) h,
   fun _ _ => frame_of_service (fun _ => rfl) fun _ _ _ h => ballocOp_ran (by decide) h,
   fun _ _ => frame_of_service (fun _ => rfl) fun _ _ _ h => bfreeOp_ran (by decide) h (by decide) _ _,
   fun _ _ _ _ => frame_of_service (fun _ => rfl) fun _ _ _ h => logeOp_ran (by decide) h _ _ _ _,
   fun _ => frame_of_service (fun _ => rfl) fun _ _ _ h => gateOp_ran (by decide) h,
   fun _ _ _ => frame_of_service (fun _ => rfl) fun _ _ _ h => benchOp_ran (by decide) h,
   fun _ => frame_of_service (fun _ => rfl) fun _ _ _ h => chkpOp_ran (by decide) h,
   fun _ => frame_of_service (fun _ => rfl) fun _ _ _ h => h.act (by decide),
   fun _ => frame_of_service (fun _ => rfl) fun _ _ _ h => h.act (by decide),
   fun _ => frame_of_service (fun _ => rfl) fun _ _ _ h => h.act (by decide),
   fun _ => frame_of_service (fun _ => rfl) fun _ _ _ h => h.act (by decide),
   fun _ => frame_of_service (fun _ => rfl) fun _ _ _ h => h.act (by decide),
   fun _ _ => frame_of_service (fun _ => rfl) fun _ _ _ h => awakeOp_ran (by decide) h,
   fun _ => frame_of_service (fun _ => rfl) fun _ _ _ h => chkpStatOp_ran (by decide) h (by decide) _,
   fun _ _ => frame_of_service (fun _ => rfl) fun _ _ _ h => benchResOp_ran (by decide) h _ _,
   fun _ _ _ => frame_of_service (fun _ => rfl) fun _ _ _ h => bufRdOp_ran (by decide) h,
   fun _ _ _ => frame_of_service (fun _ => rfl) fun _ _ _ h => bufWrOp_ran (by decide) h,
   fun _ _ _ => frame_of_service (fun _ => rfl) fun _ _ _ h => bufSetOp_ran (by decide) h,
   fun _ _ => frame_of_service (fun _ => rfl) fun _ _ _ h => bufGetOp_ran (by decide) h _ _,
   fun _ _ _ => frame_of_service (fun _ => rfl) fun _ _ _ h => eqPostOp_ran (by decide) h (by decide) _ _ _,
   fun _ _ => frame_of_service (fun _ => rfl) fun _ _ _ h => eqTakeOp_ran (by decide) h,
   fun _ _ => frame_of_service (fun _ => rfl) fun _ _ _ h => eqTxtsOp_ran (by decide) h⟩
end

section
/-! The ALU instructions (13): their result, flags, time and next index, and their limits. -/

namespace Sys2Proof.Machine

/-! ### Updates of a core that leave the run of the task alone -/

/-- An update of a core that does not read the elapsed time, and leaves pc and both stacks alone. -/
structure KeepsRun (f : Core → Core) : Prop where
  task : ∀ c k, f { c with task := k } = { f c with task := k }
  nest : ∀ c, ((f c).loops, (f c).rets) = (c.loops, c.rets)
  pc : ∀ c, (f c).pc = c.pc

theorem KeepsRun.comp {f g : Core → Core} (hf : KeepsRun f) (hg : KeepsRun g) : KeepsRun (fun c => f (g c)) where
  task c k := by rw [hg.task, hf.task]
  nest c := (hf.nest _).trans (hg.nest c)
  pc c := (hf.pc _).trans (hg.pc c)

theorem keepsRun_id : KeepsRun id := ⟨fun _ _ => rfl, fun _ => rfl, fun _ => rfl⟩

theorem keepsRun_regPut (d : BitVec 5) (v : Word) : KeepsRun (regPut d v) :=
  ⟨regPut_task d v, regPut_loops d v, regPut_pc d v⟩

theorem keepsRun_regsPut (d : BitVec 5) (vs : List Word) : KeepsRun (regsPut d vs) :=
  ⟨fun c k => regsPut_task k vs d c, fun c => (regsPut_keep vs d c).1, fun c => (regsPut_keep vs d c).2⟩

theorem keepsRun_setZn (r : Word) : KeepsRun (setZn r) := ⟨fun _ _ => rfl, fun _ => rfl, fun _ => rfl⟩

theorem keepsRun_setAdd (x y : Word) : KeepsRun (setAdd x y) := ⟨fun _ _ => rfl, fun _ => rfl, fun _ => rfl⟩

theorem keepsRun_setSub (x y : Word) : KeepsRun (setSub x y) := ⟨fun _ _ => rfl, fun _ => rfl, fun _ => rfl⟩

theorem keepsRun_setV (v : Bool) : KeepsRun (fun c => { c with v := v }) :=
  ⟨fun _ _ => rfl, fun _ => rfl, fun _ => rfl⟩

theorem keepsRun_setCV (b v : Bool) : KeepsRun (fun c => { c with c := b, v := v }) :=
  ⟨fun _ _ => rfl, fun _ => rfl, fun _ => rfl⟩

theorem keepsRun_addOp (d : BitVec 5) (x y r : Word) : KeepsRun (fun c => setAdd x y (regPut d r c)) :=
  (keepsRun_setAdd x y).comp (keepsRun_regPut d r)

theorem keepsRun_subOp (d : BitVec 5) (x y r : Word) : KeepsRun (fun c => setSub x y (regPut d r c)) :=
  (keepsRun_setSub x y).comp (keepsRun_regPut d r)

theorem keepsRun_putZn (d : BitVec 5) (r : Word) : KeepsRun (putZn d r) :=
  (keepsRun_setZn r).comp (keepsRun_regPut d r)

theorem keepsRun_putZnV (d : BitVec 5) (r : Word) (v : Bool) : KeepsRun (fun c => { putZn d r c with v := v }) :=
  (keepsRun_setV v).comp (keepsRun_putZn d r)

/-- A shift in one piece (R376-R378). -/
theorem shiftOp_eq (kind : Nat) (d : BitVec 5) (x : Word) (n : Nat) (c : Core) :
    shiftOp kind d x n c = { regPut d (shifted kind x n) c with
      z := shifted kind x n = 0, n := (shifted kind x n).msb, c := if n = 0 then c.c else shiftCarry kind x n } := by
  have hc : (regPut d (shifted kind x n) c).c = c.c := by unfold regPut; split <;> rfl
  by_cases hn : n = 0
  · subst hn
    simp [shiftOp, setZn, hc]
  · simp [shiftOp, setZn, hn]

theorem keepsRun_shiftOp (kind : Nat) (d : BitVec 5) (x : Word) (n : Nat) : KeepsRun (shiftOp kind d x n) where
  task c k := by simp only [shiftOp_eq, regPut_task]
  nest c := by rw [shiftOp_eq]; exact regPut_loops _ _ _
  pc c := by rw [shiftOp_eq]; exact regPut_pc _ _ _

theorem shifted_bv (kind : BitVec 2) (x : Word) (n : Nat) : shifted kind.toNat x n =
    if kind = 0 then x <<< n else if kind = 1 then x >>> n else if kind = 2 then x.sshiftRight n
    else x.rotateRight n := by
  simp [shifted, ← BitVec.toNat_inj]

theorem shiftCarry_bv (kind : BitVec 2) (x : Word) (n : Nat) :
    shiftCarry kind.toNat x n = if kind = 0 then x.getLsbD (32 - n) else x.getLsbD (n - 1) := by
  simp [shiftCarry, ← BitVec.toNat_inj]

/-- The low word of the signed product is the product of the words. -/
theorem mulOp_eq (d : BitVec 5) (x y : Word) (c : Core) : mulOp d x y c = { putZn d (x * y) c with
    v := decide (x.toInt * y.toInt < -(2 ^ 31)) || decide (2 ^ 31 ≤ x.toInt * y.toInt) } := by
  simp only [mulOp, mul_low]

/-! ### One instruction that updates the core -/

section
variable {i : Instr} {n : Nat} {s : State} {c : Core} {t : TaskRun}

/-- An instruction whose effect is one update of the core leaves the updated core at the next index. -/
theorem gives_coreUpdate {g : Core → Core → Core} (he : exec i s = actJ (instr n (fun c => coreOp (g c) c)) s)
    (hg : KeepsRun (g c)) (h : Running n s c t) : Gives i s (fun u => activeCore u = some (stepped n t (g c c))) :=
  gives_core he h (hg.task _ _) (h.noLoop.of (hg.nest c)) (hg.pc c)

/-- The same of an instruction whose effect is such an update for the core it meets. -/
theorem gives_coreOp {f : Core → State → State} {g : Core → Core} (he : exec i s = actJ (instr n f) s)
    (hf : ∀ y, f c y = coreOp g c y) (hg : KeepsRun g) (h : Running n s c t) :
    Gives i s (fun u => activeCore u = some (stepped n t (g c))) := by
  have run := instr_run f h.begin.toExecutes
  rw [hf, ← instr_run (fun c => coreOp g c) h.begin.toExecutes] at run
  exact gives_coreUpdate (g := fun _ => g) (he.trans (by rw [actJ, actJ, act, act, run])) hg h

theorem Gives.imp {P Q : State → Prop} (hPQ : ∀ u, P u → Q u) (h : Gives i s P) : Gives i s Q :=
  Exists.imp (fun u hu => ⟨hu.1, hPQ u hu.2⟩) h

/-- A longer budget allows a shorter instruction. -/
theorem Running.shorter {m : Nat} (h : Running n s c t) (hm : m ≤ n := by decide) : Running m s c t :=
  ⟨⟨h.core, h.task, by have := h.budget; omega⟩, h.noLoop, h.notLast⟩

/-- After such an instruction the task runs on at the next index. -/
theorem gives_runsOn {g : Core → Core → Core} (he : exec i s = actJ (instr n (fun c => coreOp (g c) c)) s)
    (hg : KeepsRun (g c)) (h : Running 18 s c t) (hn : n ≤ 18 := by decide) :
    Gives i s (fun u => ∃ x r, activeCore u = some x ∧ x.task = some r ∧ x.pc = c.pc + 1) :=
  (gives_coreUpdate he hg (h.shorter hn)).imp fun _ hu => ⟨_, _, hu, rfl, congrArg (· + 1) (hg.pc c)⟩

/-- An instruction that shifts `x` by `m`. -/
theorem gives_shift {g : Core → Core → Core} {kind m : Nat} {d : BitVec 5} {x : Word}
    (he : exec i s = actJ (instr n (fun c => coreOp (g c) c)) s) (hg : g c = shiftOp kind d x m) (h : Running n s c t) :
    Gives i s (fun u => activeCore u = some { stepped n t (regPut d (shifted kind x m) c) with
      z := shifted kind x m = 0, n := (shifted kind x m).msb, c := if m = 0 then c.c else shiftCarry kind x m }) := by
  have shift := gives_coreUpdate he (hg ▸ keepsRun_shiftOp kind d x m) h
  rw [hg, shiftOp_eq] at shift
  exact shift

/-- A shift by 0 leaves C unchanged (R377). -/
theorem gives_shift_zero {g : Core → Core → Core} {kind m : Nat} {d : BitVec 5} {x : Word}
    (he : exec i s = actJ (instr n (fun c => coreOp (g c) c)) s) (hg : g c = shiftOp kind d x m) (hm : m = 0)
    (h : Running n s c t) : Gives i s (fun u => ∃ k, activeCore u = some k ∧ k.c = c.c) :=
  (gives_shift he hg h).imp fun _ hu => ⟨_, hu, if_pos hm⟩

end

/-- A register other than g0 reads back what was written (R371). -/
theorem reg_regPut_self {d : BitVec 5} {c : Core} (v : Word) (hd : d ≠ 0) (hr : c.regs.length = 32) :
    reg (regPut d v c) d = v := by
  have hlt : d.toNat < c.regs.length := hr ▸ d.isLt
  unfold reg regPut
  rw [if_neg hd, if_neg hd]
  simp [hlt]

end Sys2Proof.Machine

open Sys2Proof Sys2Proof.Machine

/-- Settles O29: each instruction is one update of the core in control. MUL answers the low word of the signed product,
which is the product of the words (`mulOp_eq`). -/
theorem aluInstructions : Obligations.AluInstructions := by
  refine ⟨fun s c t d a b h => gives_coreUpdate (i := .add d a b) rfl (keepsRun_addOp _ _ _ _) h,
    fun s c t d a b h => gives_coreUpdate (i := .sub d a b) rfl (keepsRun_subOp _ _ _ _) h,
    fun s c t d a b h => gives_coreUpdate (i := .and d a b) rfl (keepsRun_putZn _ _) h,
    fun s c t d a b h => gives_coreUpdate (i := .or d a b) rfl (keepsRun_putZn _ _) h,
    fun s c t d a b h => gives_coreUpdate (i := .xor d a b) rfl (keepsRun_putZn _ _) h,
    fun s c t d a b h => gives_coreUpdate (i := .nor d a b) rfl (keepsRun_putZn _ _) h,
    fun s c t d a b h => gives_coreUpdate (i := .min d a b) rfl (keepsRun_putZn _ _) h,
    fun s c t d a b h => gives_coreUpdate (i := .max d a b) rfl (keepsRun_putZn _ _) h,
    fun s c t d a b h => gives_shift (i := .shl d a b) rfl rfl h,
    fun s c t d a b h => gives_shift (i := .shr d a b) rfl rfl h,
    fun s c t d a b h => gives_shift (i := .sar d a b) rfl rfl h,
    fun s c t d a b h => ?mul,
    fun s c t d a b h => gives_coreUpdate (i := .mulh d a b) rfl (keepsRun_putZn _ _) h,
    fun s c t d a b h => gives_coreUpdate (i := .divu d a b) rfl (keepsRun_putZnV _ _ _) h,
    fun s c t d a b h => gives_coreUpdate (i := .remu d a b) rfl (keepsRun_putZnV _ _ _) h,
    fun s c t d a b h => gives_coreUpdate (i := .cmp d a b) rfl (keepsRun_subOp _ _ _ _) h,
    fun s c t d a b h => gives_coreUpdate (i := .cmpu d a b) rfl (keepsRun_subOp _ _ _ _) h,
    fun s c t d a imm h => gives_coreUpdate (i := .addi d a imm) rfl (keepsRun_addOp _ _ _ _) h,
    fun s c t d a imm h => gives_coreUpdate (i := .andi d a imm) rfl (keepsRun_putZn _ _) h,
    fun s c t d a imm h => gives_coreUpdate (i := .ori d a imm) rfl (keepsRun_putZn _ _) h,
    fun s c t d a imm h => gives_coreUpdate (i := .xori d a imm) rfl (keepsRun_putZn _ _) h,
    fun s c t d a imm h => gives_coreUpdate (i := .cmpi d a imm) rfl (keepsRun_subOp _ _ _ _) h,
    fun s c t d imm h => gives_coreUpdate (i := .ldhi d imm) rfl (keepsRun_regPut _ _) h,
    fun s c t d a kind amount h => ?shfi⟩
  case mul =>
    have mul := gives_coreUpdate (i := .mul d a b) rfl (keepsRun_putZnV _ _ _) h
    rw [mulOp_eq] at mul
    exact mul
  case shfi =>
    have shfi := gives_shift (i := .shfi d a kind amount) rfl rfl h
    have zero : amount.toNat = 0 ↔ amount = 0 := by simp [← BitVec.toNat_inj]
    simp only [shifted_bv, shiftCarry_bv, zero] at shfi
    exact shfi

/-- Settles O42, from the update each instruction makes. -/
theorem aluLimits : Obligations.AluLimits := by
  refine ⟨fun s c t d a b h hz => List.forall_iff_forall_mem.mp
      ⟨gives_shift_zero rfl rfl hz h, gives_shift_zero rfl rfl hz h, gives_shift_zero rfl rfl hz h⟩,
    fun s c t d a k h => gives_shift_zero rfl rfl rfl h,
    fun s c t d a b h hd hb hr => ⟨?divu, ?remu⟩,
    fun s c t d a b h => List.forall_iff_forall_mem.mp
      ⟨(gives_coreUpdate rfl (keepsRun_putZnV _ _ _) h).imp fun u hu => ⟨_, _, hu, rfl, rfl⟩,
       (gives_coreUpdate rfl (keepsRun_putZnV _ _ _) h).imp fun u hu => ⟨_, _, hu, rfl, rfl⟩⟩,
    fun s c t d a b imm k m h => List.forall_iff_forall_mem.mp
      ⟨gives_runsOn rfl (keepsRun_addOp _ _ _ _) h,
       gives_runsOn rfl (keepsRun_subOp _ _ _ _) h,
       gives_runsOn rfl (keepsRun_putZn _ _) h, gives_runsOn rfl (keepsRun_putZn _ _) h,
       gives_runsOn rfl (keepsRun_putZn _ _) h, gives_runsOn rfl (keepsRun_putZn _ _) h,
       gives_runsOn rfl (keepsRun_shiftOp _ _ _ _) h, gives_runsOn rfl (keepsRun_shiftOp _ _ _ _) h,
       gives_runsOn rfl (keepsRun_shiftOp _ _ _ _) h, gives_runsOn rfl (keepsRun_putZnV _ _ _) h,
       gives_runsOn rfl (keepsRun_putZn _ _) h, gives_runsOn rfl (keepsRun_putZnV _ _ _) h,
       gives_runsOn rfl (keepsRun_putZnV _ _ _) h,
       gives_runsOn rfl (keepsRun_subOp _ _ _ _) h,
       gives_runsOn rfl (keepsRun_subOp _ _ _ _) h,
       gives_runsOn rfl (keepsRun_putZn _ _) h, gives_runsOn rfl (keepsRun_putZn _ _) h,
       gives_runsOn rfl (keepsRun_addOp _ _ _ _) h,
       gives_runsOn rfl (keepsRun_putZn _ _) h, gives_runsOn rfl (keepsRun_putZn _ _) h,
       gives_runsOn rfl (keepsRun_putZn _ _) h,
       gives_runsOn rfl (keepsRun_subOp _ _ _ _) h,
       gives_runsOn rfl (keepsRun_regPut _ _) h, gives_runsOn rfl (keepsRun_shiftOp _ _ _ _) h⟩⟩
  case divu =>
    have divu := gives_coreUpdate (i := .divu d a b) rfl (keepsRun_putZnV _ _ _) h
    refine divu.imp fun u hu => ⟨_, hu, ?_⟩
    exact (reg_regPut_self _ hd hr).trans (if_pos hb)
  case remu =>
    have remu := gives_coreUpdate (i := .remu d a b) rfl (keepsRun_putZnV _ _ _) h
    refine remu.imp fun u hu => ⟨_, hu, ?_⟩
    exact (reg_regPut_self _ hd hr).trans (if_pos hb)

end

section
/-! Loads and stores (13): the register or the bytes written, and the accesses that yield. -/

namespace Sys2Proof.Machine

theorem keepsRun_wordClean (a : Nat) : KeepsRun (wordClean a) := ⟨fun _ _ => rfl, fun _ => rfl, fun _ => rfl⟩

/-- An update of the data word's error and then of the core, in one piece. -/
theorem keepsRun_corrected {g : Core → Core} (hg : KeepsRun g) (p : Prop) [Decidable p] (a : Nat) :
    KeepsRun (fun c => g (if p then wordClean a c else c)) := by
  split
  · exact hg.comp (keepsRun_wordClean a)
  · exact hg.comp keepsRun_id

theorem keepsRun_memStore (n : Nat) (d : BitVec 5) (a : Nat) : KeepsRun (memStore n d a) :=
  ⟨fun c k => dataPutBytes_task k _ a c, fun c => (dataPutBytes_keep _ a c).1, fun c => (dataPutBytes_keep _ a c).2⟩

section
variable {i : Instr} {size ad : Nat} {a : BitVec 5} {imm : Half} {s : State} {c : Core} {t : TaskRun}
  (had : ad = (reg c a + imm.signExtend 32).toNat)
include had

/-- An access that is not allowed yields with cause 0x02 (R380). -/
theorem gives_memRead_bad {g : Nat → Core → Core} (he : exec i s = actJ (instr 2 (memRead size a imm g)) s)
    (h : Executes 2 s c t) (hb : 0x3FFFF < ad ∨ ad % size ≠ 0 ∨ t.banks.getLsbD (ad / 65536) = false) :
    Gives i s (Yielded 0x02 s c t) := by
  subst had
  exact gives_yield he h (if_pos (by rw [memAddr, memOk_no h.task hb]; rfl))

section
variable (hr : ad ≤ 0x3FFFF) (hz : ad % size = 0) (hb : t.banks.getLsbD (ad / 65536) = true)
include hr hz hb

/-- One that meets an uncorrectable word yields with cause 0x12 (R379). -/
theorem gives_memRead_ecc {g : Nat → Core → Core} (he : exec i s = actJ (instr 2 (memRead size a imm g)) s)
    (h : Executes 2 s c t) (hw : wordErr c ad = some true) : Gives i s (Yielded 0x12 s c t) := by
  subst had
  refine gives_yield he h ?_
  have ok : memOk c (memAddr c a imm) size = true := memOk_yes h.task hr hz hb
  have bad : wordErr c (memAddr c a imm) = some true := hw
  simp [memRead, ok, bad]

/-- One that is allowed updates the core by `g`, a single-bit error corrected first (R379). -/
theorem gives_memRead {g : Nat → Core → Core} (hg : KeepsRun (g ad))
    (he : exec i s = actJ (instr 2 (memRead size a imm g)) s) (h : Running 2 s c t) (hw : wordErr c ad ≠ some true) :
    Gives i s (fun u =>
      activeCore u = some (stepped 2 t (g ad (if wordErr c ad = some false then wordClean ad c else c))) ∧
      (wordErr c ad = some false → Occurred 0x8107 0xFF u)) := by
  subst had
  have upd := keepsRun_corrected hg (wordErr c (memAddr c a imm) = some false) (memAddr c a imm)
  exact mem_gives he h (memOk_yes h.task hr hz hb) hw (upd.task c _) (h.noLoop.of (upd.nest c)) (upd.pc c)

/-- A load of `size` bytes. -/
theorem gives_load {d : BitVec 5} (he : exec i s = actJ (load size d a imm) s) (h : Running 2 s c t)
    (hw : wordErr c ad ≠ some true) : Gives i s (fun u =>
      activeCore u = some (stepped 2 t (regPut d (w32 (beNat (dataBytesAt c ad size)))
        (if wordErr c ad = some false then wordClean ad c else c))) ∧
      (wordErr c ad = some false → Occurred 0x8107 0xFF u)) := by
  have value : memValue (if wordErr c ad = some false then wordClean ad c else c) ad size =
      w32 (beNat (dataBytesAt c ad size)) := by
    split <;> rfl
  rw [← value]
  exact gives_memRead had hr hz hb (g := fun ad c => regPut d (memValue c ad size) c)
    ⟨fun _ _ => regPut_task _ _ _ _, fun _ => regPut_loops _ _ _, fun _ => regPut_pc _ _ _⟩ he h hw

/-- A store of the low `size` bytes of g[d] that reads its word first. -/
theorem gives_store {d : BitVec 5} (he : exec i s = actJ (instr 2 (memRead size a imm (memStore size d))) s)
    (h : Running 2 s c t) (hw : wordErr c ad ≠ some true) : Gives i s (fun u =>
      activeCore u = some (stepped 2 t (dataPutBytes ad (beBytes size ((reg c d).toNat % 2 ^ (8 * size)))
        (if wordErr c ad = some false then wordClean ad c else c))) ∧
      (wordErr c ad = some false → Occurred 0x8107 0xFF u)) := by
  have stored : dataPutBytes ad (beBytes size ((reg c d).toNat % 2 ^ (8 * size)))
      (if wordErr c ad = some false then wordClean ad c else c) =
      memStore size d ad (if wordErr c ad = some false then wordClean ad c else c) := by
    split <;> rfl
  rw [stored]
  exact gives_memRead had hr hz hb (keepsRun_memStore size d ad) he h hw

end

/-- STW replaces the whole word and reads nothing first (R379). -/
theorem gives_stw {d : BitVec 5} (h : Running 2 s c t) (hr : ad ≤ 0x3FFFF) (hz : ad % 4 = 0)
    (hb : t.banks.getLsbD (ad / 65536) = true) : Gives (.stw d a imm) s (fun u =>
      activeCore u = some (stepped 2 t (dataPutBytes ad (beBytes 4 (reg c d).toNat) (wordClean ad c)))) := by
  subst had
  have ok : memOk c (memAddr c a imm) 4 = true := memOk_yes h.task hr hz hb
  have stored := gives_coreOp (i := .stw d a imm) (c := c) (t := t) rfl (fun _ => if_neg (by rw [ok]; decide))
    ((keepsRun_memStore 4 d _).comp (keepsRun_wordClean _)) h
  have whole : (reg c d).toNat % 2 ^ (8 * 4) = (reg c d).toNat := Nat.mod_eq_of_lt (reg c d).isLt
  rw [← whole]
  exact stored

theorem gives_stw_bad {d : BitVec 5} (h : Executes 2 s c t)
    (hb : 0x3FFFF < ad ∨ ad % 4 ≠ 0 ∨ t.banks.getLsbD (ad / 65536) = false) :
    Gives (.stw d a imm) s (Yielded 0x02 s c t) := by
  subst had
  exact gives_yield rfl h (if_pos (by rw [memAddr, memOk_no h.task hb]; rfl))

end

end Sys2Proof.Machine

open Sys2Proof Sys2Proof.Machine

/-- Settles O30: a load or store is one update of the core at an allowed address, after the correction of its word, and
yields where the access is not allowed or its word is uncorrectable. -/
theorem loadsAndStores : Obligations.LoadsAndStores :=
  ⟨fun _ _ _ _ _ _ _ had h hr hz hb hw => gives_load had hr hz hb rfl h hw,
   fun _ _ _ _ _ _ _ had h hr hz hb hw => gives_load had hr hz hb rfl h hw,
   fun _ _ _ _ _ _ _ had h hr hz hb hw => gives_load had hr hz hb rfl h hw,
   fun _ _ _ _ _ _ _ had h hr hz hb => gives_stw had h hr hz hb,
   fun _ _ _ _ _ _ _ had h hr hz hb hw => gives_store had hr hz hb rfl h hw,
   fun _ _ _ _ _ _ _ had h hr hz hb hw => gives_store had hr hz hb rfl h hw,
   fun _ _ _ _ _ _ _ had h hb => gives_memRead_bad had rfl h hb,
   fun _ _ _ _ _ _ _ had h hr hz hb hw => gives_memRead_ecc had hr hz hb rfl h hw,
   fun _ _ _ _ _ _ _ had h hb => gives_memRead_bad had rfl h hb,
   fun _ _ _ _ _ _ _ had h hr hz hb hw => gives_memRead_ecc had hr hz hb rfl h hw,
   fun _ _ _ _ _ _ _ had h hb => gives_memRead_bad had rfl h hb,
   fun _ _ _ _ _ _ _ had h hr hz hb hw => gives_memRead_ecc had hr hz hb rfl h hw,
   fun _ _ _ _ _ _ _ had h hb => gives_memRead_bad had rfl h hb,
   fun _ _ _ _ _ _ _ had h hr hz hb hw => gives_memRead_ecc had hr hz hb rfl h hw,
   fun _ _ _ _ _ _ _ had h hb => gives_memRead_bad had rfl h hb,
   fun _ _ _ _ _ _ _ had h hr hz hb hw => gives_memRead_ecc had hr hz hb rfl h hw,
   fun _ _ _ _ _ _ _ had h hb => gives_stw_bad had h hb⟩

end

section
/-! Control, assertions and alignment to the grid (13): where each instruction goes on, the causes with which they
yield, and the ends of iterations. -/

namespace Sys2Proof.Machine

/-! ### What a control transfer reads -/

/-- Only the eleven conditions of Table 13.3 can hold. -/
theorem condHolds_le {cond : Nat} {c : Core} (h : condHolds cond c = true) : cond ≤ 10 := by
  unfold condHolds at h
  split at h <;> simp_all

theorem activeMod_id (s : State) : activeMod id s = s := by
  unfold activeMod
  split
  · rfl
  · split <;> rfl

theorem coreOp_id (c : Core) (s : State) : coreOp id c s = continueFrom c.pc s := by rw [coreOp, activeMod_id]

section
variable {n p : Nat} {c : Core} {l : LoopEnt} {rest : List LoopEnt}

theorem iterEnds_noEnd (h : NoEnd p c) : iterEnds (n + 1) p c = (0, c) := by
  unfold iterEnds
  split
  · rfl
  · next l rest hl => exact if_pos (by simpa using h l rest hl)

variable (hl : c.loops = l :: rest) (hs : l.stop = p) (hv : l.level = c.rets.length)
include hl hs hv

/-- The innermost loop ends here and iterates again (R381). -/
theorem iterEnds_again (hleft : 1 < l.left) : iterEnds (n + 1) p c =
    (1, { c with loops := { l with left := l.left - 1 } :: rest, pc := l.start }) := by
  simp [iterEnds, hl, hs, hv, hleft]

/-- The innermost loop ends here for the last time and leaves the stack; no other one ends here (R381). -/
theorem iterEnds_last (hleft : l.left ≤ 1) (hm : ∀ m ∈ rest, m.stop ≠ p) :
    iterEnds (n + 2) p c = (1, { c with loops := rest, pc := p + 1 }) := by
  have outer : NoEnd p { c with loops := rest, pc := p + 1 } := fun m r hmr =>
    .inl (hm m (by rw [show rest = m :: r from hmr]; exact List.mem_cons_self))
  have here : iterEnds (n + 2) p c = ((iterEnds (n + 1) p { c with loops := rest, pc := p + 1 }).1 + 1,
      (iterEnds (n + 1) p { c with loops := rest, pc := p + 1 }).2) := by
    rw [iterEnds]
    simp [hl, hs, hv, show ¬ 1 < l.left by omega]
  rw [here, iterEnds_noEnd outer]

end

/-! ### The instructions -/

section
variable {i : Instr} {n : Nat} {f : Core → State → State} {s : State} {c d : Core} {t : TaskRun}

/-- An instruction that leaves its core alone goes on at the next index. -/
theorem gives_next (he : exec i s = actJ (instr n f) s) (hf : ∀ y, f c y = coreOp id c y) (h : Running n s c t) :
    Gives i s (fun u => activeCore u = some (stepped n t c)) := gives_coreOp he hf keepsRun_id h

theorem gives_halt (h : Executes 1 s c t) (hs : c.sig = t.xsig) :
    Gives .halt s (fun u => activeCore u = some { c with task := none, rets := [], loops := [] }) := by
  refine gives_of_act rfl ?_
  have stop : haltOp c (edge 1 c t (begin_ 0 s)) = activeMod coreStop (edge 1 c t (begin_ 0 s)) := by
    simp [haltOp, h.task, hs]
  rw [kick_activeCore, instr_run _ h.begin, stop, active_mod _ _ _ (edge_core h.begin)]
  rfl

theorem gives_halt_bad (h : Executes 1 s c t) (hs : c.sig ≠ t.xsig) : Gives .halt s (Yielded 0x09 s c t) :=
  gives_yield rfl h (by simp [haltOp, h.task, hs])

theorem gives_br_not {cond : BitVec 5} {imm : Half} (h : Running 1 s c t) (hc : cond.toNat ≤ 10)
    (hn : condHolds cond.toNat c = false) :
    Gives (.br cond imm) s (fun u => activeCore u = some (stepped 1 t c)) :=
  gives_next rfl (fun y => by simp [legal, hc, brOp, hn, coreOp_id]) h

theorem gives_br {cond : BitVec 5} {imm : Half} (h : Executes 1 s c t) (hc : condHolds cond.toNat c = true)
    (hr : c.pc + 1 + imm.toNat ≤ 65535) : Gives (.br cond imm) s (fun u => activeCore u = some { c with
      pc := c.pc + 1 + imm.toNat, task := some { t with e := t.e + 1 }
      loops := c.loops.filter (fun l => !(l.level = c.rets.length && l.stop < c.pc + 1 + imm.toNat)) }) := by
  have taken (y : State) : legal (cond.toNat ≤ 10) (brOp cond imm) c y = jump (c.pc + 1 + imm.toNat)
      (fun k => { k with loops := popLoops (c.pc + 1 + imm.toNat) k.rets.length k.loops }) y := by
    simp [legal, condHolds_le hc, brOp, hc, show ¬ 65535 < c.pc + 1 + imm.toNat by omega]
  exact gives_jump rfl h (taken _) rfl

/-- A branch with an illegal condition, and one past the end of code memory (R369, R374). -/
theorem gives_br_bad {cond : BitVec 5} {imm : Half} (h : Executes 1 s c t) :
    (10 < cond.toNat → Gives (.br cond imm) s (Yielded 0x01 s c t)) ∧
    (condHolds cond.toNat c = true → 65535 < c.pc + 1 + imm.toNat → Gives (.br cond imm) s (Yielded 0x03 s c t)) :=
  ⟨fun hc => gives_yield rfl h (if_neg (by simpa using hc)),
   fun hc hr => gives_yield rfl h (by simp [legal, condHolds_le hc, brOp, hc, hr])⟩

section
variable {a lenH : BitVec 5} {lenL : BitVec 4} {nmax : BitVec 12} (h : Executes 1 s c t)
include h

theorem gives_loop_none (hr : c.pc + (lenH.toNat * 16 + lenL.toNat + 1) + 1 ≤ 65535) (hl : c.loops.length < 4)
    (hc : min (reg c a).toNat nmax.toNat = 0) : Gives (.loop a lenH lenL nmax) s (fun u => activeCore u = some { c with
      pc := c.pc + (lenH.toNat * 16 + lenL.toNat + 1) + 1, task := some { t with e := t.e + 1 } }) := by
  have skips (y : State) :
      loopOp a lenH lenL nmax c y = jump (c.pc + (lenH.toNat * 16 + lenL.toNat + 1) + 1) id y := by
    unfold loopOp
    dsimp only
    rw [if_neg (by omega), if_neg (by omega), if_pos hc, if_neg (by omega)]
  exact gives_jump rfl h (skips _) rfl

theorem gives_loop (hr : c.pc + (lenH.toNat * 16 + lenL.toNat + 1) ≤ 65535) (hl : c.loops.length < 4)
    (hc : min (reg c a).toNat nmax.toNat ≠ 0) :
    Gives (.loop a lenH lenL nmax) s (fun u => activeCore u = some { c with
      pc := c.pc + 1, task := some { t with e := t.e + 1 }
      loops := ⟨c.pc + 1, c.pc + (lenH.toNat * 16 + lenL.toNat + 1), min (reg c a).toNat nmax.toNat, c.rets.length⟩
        :: c.loops }) := by
  have enters (y : State) : loopOp a lenH lenL nmax c y = jump (c.pc + 1) (fun k => { k with loops :=
      ⟨k.pc + 1, k.pc + (lenH.toNat * 16 + lenL.toNat + 1), min (reg c a).toNat nmax.toNat, k.rets.length⟩
        :: k.loops }) y := by
    unfold loopOp
    dsimp only
    rw [if_neg (by omega), if_neg (by omega), if_neg hc]
  exact gives_jump rfl h (enters _) rfl

theorem gives_loop_bad :
    (65535 < c.pc + (lenH.toNat * 16 + lenL.toNat + 1) → Gives (.loop a lenH lenL nmax) s (Yielded 0x03 s c t)) ∧
    (c.pc + (lenH.toNat * 16 + lenL.toNat + 1) ≤ 65535 → 4 ≤ c.loops.length →
      Gives (.loop a lenH lenL nmax) s (Yielded 0x06 s c t)) :=
  ⟨fun hr => gives_yield rfl h (if_pos hr),
   fun hr hl => gives_yield rfl h ((if_neg (Nat.not_lt.mpr hr)).trans (if_pos hl))⟩

end

theorem gives_call {imm : Half} (h : Executes 1 s c t) (hr : c.rets.length < 8) :
    Gives (.call imm) s (fun u => activeCore u = some { c with
      pc := imm.toNat, task := some { t with e := t.e + 1 }, rets := (c.pc + 1) :: c.rets
      regs := c.regs.set 31 (w32 (4 * (c.pc + 1))) }) :=
  gives_jump rfl h (if_neg (by omega)) rfl

theorem gives_call_bad {imm : Half} (h : Executes 1 s c t) (hr : 8 ≤ c.rets.length) :
    Gives (.call imm) s (Yielded 0x04 s c t) := gives_yield rfl h (if_pos hr)

/-! ### RET -/

section
variable {r : Nat} {rest : List Nat} (hr : c.rets = r :: rest) (hg : reg c 31 = w32 (4 * r))
include hr hg

/-- A return whose link register and loops agree continues from the index before its target (R381). -/
theorem retOp_returns (hl : ∀ l ∈ c.loops, l.level ≠ c.rets.length) (y : State) : retOp c y =
    continueFrom (r - 1) (activeMod (fun c => regPut 31 (w32 (4 * rest.headD 0)) { c with rets := rest }) y) := by
  unfold retOp
  split
  · next h0 => cases h0.symm.trans hr
  · next h1 =>
    cases h1.symm.trans hr
    rw [if_neg (not_not.mpr hg), if_neg (by simpa using hl)]
    cases rest <;> rfl

theorem gives_ret (h : Executes 1 s c t) (hl : ∀ l ∈ c.loops, l.level ≠ c.rets.length)
    (hn : NoEnd (r - 1) { c with rets := rest }) (h0 : 0 < r) (hi : r ≤ 65535) :
    Gives .ret s (fun u => activeCore u = some { c with
      pc := r, task := some { t with e := t.e + 1 }, rets := rest
      regs := c.regs.set 31 (w32 (4 * rest.headD 0)) }) := by
  refine gives_of_act rfl ?_
  rw [kick_activeCore, instr_run _ h.begin, retOp_returns hr hg hl]
  have core := active_mod (fun c => regPut 31 (w32 (4 * rest.headD 0)) { c with rets := rest }) _ _ (edge_core h.begin)
  rw [continue_eq (r - 1) _ _ _ core rfl hn (by omega), active_mod _ _ _ core, show r - 1 + 1 = r by omega]
  rfl

/-- A loop of the called level is still open (R381). -/
theorem gives_ret_loop (h : Executes 1 s c t) (hl : ∃ l ∈ c.loops, l.level = c.rets.length) :
    Gives .ret s (Yielded 0x06 s c t) := by
  refine gives_yield rfl h ?_
  unfold retOp
  split
  · next h0 => cases h0.symm.trans hr
  · next h1 =>
    cases h1.symm.trans hr
    rw [if_neg (not_not.mpr hg), if_pos (by simpa using hl)]

end

theorem gives_ret_empty (h : Executes 1 s c t) (hr : c.rets = []) : Gives .ret s (Yielded 0x04 s c t) :=
  gives_yield rfl h (by rw [retOp, hr])

theorem gives_ret_link {r : Nat} {rest : List Nat} (h : Executes 1 s c t) (hr : c.rets = r :: rest)
    (hg : reg c 31 ≠ w32 (4 * r)) : Gives .ret s (Yielded 0x05 s c t) :=
  gives_yield rfl h (by unfold retOp; rw [hr]; exact if_pos hg)

/-! ### Ends of iterations, shown on NOP -/

theorem gives_nop_loops {m : Nat} (h : Executes 1 s c t)
    (hi : iterEnds 5 c.pc { c with pc := c.pc + 1, task := some { t with e := t.e + 1 } } =
      (m, { d with task := some { t with e := t.e + 1 } })) (hp : d.pc ≤ 65535) :
    Gives .nop s (fun u => activeCore u = some { d with task := some { t with e := t.e + 1 + m } }) := by
  refine gives_of_act rfl ?_
  rw [kick_activeCore, instr_run _ h.begin, coreOp_id]
  have after := continue_loops c.pc _ _ _ (edge_core h.begin) rfl (by rw [hi]; exact hp) (by rw [hi])
  rw [hi] at after
  exact after

section
variable {l : LoopEnt} {rest : List LoopEnt} (h : Executes 1 s c t) (hl : c.loops = l :: rest) (hs : l.stop = c.pc)
  (hv : l.level = c.rets.length)
include h hl hs hv

theorem gives_nop_again (hleft : 1 < l.left) (hp : l.start ≤ 65535) :
    Gives .nop s (fun u => activeCore u = some { c with
      pc := l.start, task := some { t with e := t.e + 2 }, loops := { l with left := l.left - 1 } :: rest }) :=
  gives_nop_loops (d := { c with pc := l.start, loops := { l with left := l.left - 1 } :: rest }) h
    (iterEnds_again hl hs hv hleft) hp

theorem gives_nop_last (hleft : l.left ≤ 1) (hm : ∀ m ∈ rest, m.stop ≠ c.pc) (hp : c.pc < 65535) :
    Gives .nop s (fun u => activeCore u = some { c with
      pc := c.pc + 1, task := some { t with e := t.e + 2 }, loops := rest }) :=
  gives_nop_loops (m := 1) (d := { c with pc := c.pc + 1, loops := rest }) h (iterEnds_last hl hs hv hleft hm) hp

end

/-! ### Assertions and WAITG -/

theorem gives_asrtX {imm : Half} (h : Running 1 s c t) :
    Gives (.asrtX imm) s (fun u => activeCore u = some { stepped 1 t c with sig := c.sig ^^^ imm }) :=
  gives_coreUpdate (i := .asrtX imm) rfl ⟨fun _ _ => rfl, fun _ => rfl, fun _ => rfl⟩ h

theorem gives_asrtC {imm : Half} : (Running 1 s c t → c.sig = imm →
      Gives (.asrtC imm) s (fun u => activeCore u = some (stepped 1 t c))) ∧
    (Executes 1 s c t → c.sig ≠ imm → Gives (.asrtC imm) s (Yielded 0x07 s c t)) :=
  ⟨fun h hs => gives_next rfl (fun _ => if_pos hs) h, fun h hs => gives_yield rfl h (if_neg hs)⟩

theorem gives_asrtZ {a : BitVec 5} {imm : Half} : (Running 1 s c t → reg c a = 0 →
      Gives (.asrtZ a imm) s (fun u => activeCore u = some (stepped 1 t c))) ∧
    (Executes 1 s c t → reg c a ≠ 0 → Gives (.asrtZ a imm) s (Yielded 0x08 s c t)) :=
  ⟨fun h hz => gives_next rfl (fun _ => if_pos hz) h, fun h hz => gives_yield rfl h (if_neg hz)⟩

/-- WAITG lasts until the edge of its tick, and one cycle where that has passed (R389). -/
theorem gives_waitg {k : Half} (h : Running (max 1 (2 * k.toNat - t.e)) s c t) :
    Gives (.waitg k) s (fun u => activeCore u = some (stepped (max 1 (2 * k.toNat - t.e)) t c)) := by
  have wait : waitOp k (begin_ 0 s) = instr (max 1 (2 * k.toNat - t.e)) (coreOp id) (begin_ 0 s) := by
    have hr : runningTask (begin_ 0 s) = some (c, t) := by
      rw [runningTask, h.begin.core]
      simp [h.task]
    rw [waitOp, hr]
  have he : exec (.waitg k) s = actJ (instr (max 1 (2 * k.toNat - t.e)) (coreOp id)) s := by
    show actJ (waitOp k) s = _
    rw [actJ, actJ, act, act, wait]
  exact gives_next he (fun _ => rfl) h

end

end Sys2Proof.Machine

open Sys2Proof Sys2Proof.Machine

/-- Settles O31: each clause is what the instruction does to its core, or the cause with which it yields. -/
theorem controlAndAssertions : Obligations.ControlAndAssertions :=
  ⟨fun _ _ _ => gives_next rfl fun _ => rfl, fun _ _ _ => gives_halt, fun _ _ _ _ _ => gives_br_not,
   fun _ _ _ _ _ h _ => gives_br h, fun _ _ _ _ _ _ _ => gives_loop_none, fun _ _ _ _ _ _ _ => gives_loop,
   fun _ _ _ _ => gives_call, fun _ _ _ _ _ h hl hn hr h0 hi hg => gives_ret hr hg h hl hn h0 hi,
   fun _ _ _ h => gives_yield rfl h rfl, fun _ _ _ => gives_halt_bad, fun _ _ _ _ _ => gives_br_bad,
   fun _ _ _ _ _ _ _ => gives_loop_bad, fun _ _ _ _ => gives_call_bad,
   fun _ _ _ h => ⟨gives_ret_empty h, fun _ _ hr => ⟨gives_ret_link h hr, fun hg => gives_ret_loop hr hg h⟩⟩,
   fun _ _ _ _ _ => gives_nop_again, fun _ _ _ _ _ => gives_nop_last,
   fun _ _ _ _ => gives_asrtX,
   fun _ _ _ _ => gives_asrtC, fun _ _ _ _ _ => gives_asrtZ, fun _ _ _ _ => gives_waitg⟩

end

section
/-! Read after write in core data memory, the NV store and the frame pool (09, 13, 14). -/

namespace Sys2Proof.Machine

/-! ### Big-endian words (R5) -/

@[simp] theorem length_beBytes (n v : Nat) : (beBytes n v).length = n := by
  induction n generalizing v with
  | zero => rfl
  | succ n ih => simp [beBytes, ih]

theorem foldl_beBytes (n v acc : Nat) (h : v < 256 ^ n) :
    (beBytes n v).foldl (fun a x => a * 256 + x.toNat) acc = acc * 256 ^ n + v := by
  induction n generalizing v acc with
  | zero => simp_all [beBytes]
  | succ n ih =>
    have pos : 0 < 256 ^ n := by positivity
    have top : v / 256 ^ n < 256 := Nat.div_lt_of_lt_mul (by rwa [pow_succ] at h)
    rw [beBytes, List.foldl_cons, ih _ _ (Nat.mod_lt _ pos), BitVec.toNat_ofNat, Nat.mod_eq_of_lt top]
    calc (acc * 256 + v / 256 ^ n) * 256 ^ n + v % 256 ^ n
        = acc * 256 ^ (n + 1) + (256 ^ n * (v / 256 ^ n) + v % 256 ^ n) := by ring
      _ = acc * 256 ^ (n + 1) + v := by rw [Nat.div_add_mod]

theorem beNat_beBytes {n v : Nat} (h : v < 256 ^ n) : beNat (beBytes n v) = v :=
  (foldl_beBytes n v 0 h).trans (by simp)

/-! ### Data memory (R379) -/

theorem dataWf_dataPut {c : Core} (a : Nat) (x : Byte) (h : dataWf c = true) : dataWf (dataPut a x c) = true :=
  cellsFrom_smPut a x (Nat.zero_le _) h

theorem dataByte_dataPut {c : Core} (a j : Nat) (x : Byte) (h : dataWf c = true) :
    dataByte (dataPut a x c) j = if j = a then x else dataByte c j := smGet_cells a j x h

theorem dataByte_dataPutBytes {c : Core} (a j : Nat) (b : Bytes) (h : dataWf c = true) :
    dataByte (dataPutBytes a b c) j = if a ≤ j ∧ j < a + b.length then b.getD (j - a) 0 else dataByte c j := by
  induction b generalizing c a with
  | nil =>
    rw [if_neg (by simp)]
    rfl
  | cons x r ih =>
    rw [dataPutBytes, ih (a + 1) (dataWf_dataPut a x h), dataByte_dataPut a j x h]
    by_cases h1 : j = a
    · subst h1
      simp
    · by_cases h2 : a + 1 ≤ j ∧ j < a + 1 + r.length
      · rw [if_pos h2, if_pos (by simp; omega), show j - a = j - (a + 1) + 1 by omega]
        simp
      · rw [if_neg h2, if_neg h1, if_neg (by simp; omega)]

/-- Bytes written read back as a whole. -/
theorem dataBytesAt_dataPutBytes {c : Core} (a : Nat) (b : Bytes) (h : dataWf c = true) :
    dataBytesAt (dataPutBytes a b c) a b.length = b := by
  refine List.ext_getElem (by simp [dataBytesAt]) fun i hi hb => ?_
  simp [dataBytesAt, dataByte_dataPutBytes _ _ _ h, hb]

theorem load_store_word {c : Core} (a : Nat) (v : Word) (h : dataWf c = true) :
    w32 (beNat (dataBytesAt (dataPutBytes a (beBytes 4 v.toNat) c) a 4)) = v := by
  have bytes := dataBytesAt_dataPutBytes a (beBytes 4 v.toNat) h
  rw [length_beBytes] at bytes
  rw [bytes, beNat_beBytes (by simpa using v.isLt)]
  simp [w32]

/-! ### The NV store (R409) and the pool (R273) -/

theorem smGet_nvErase {nv : Nv} (sec j : Nat) (o : Word) (h : Memory.wf nv.mem = true) :
    smGet 0xFF (nvErase sec o nv).mem j = if j / 4096 = sec then 0xFF else smGet 0xFF nv.mem j := by
  have kept := smGet_filter (fun a => decide (a / 4096 ≠ sec)) j h
  simp only [decide_eq_true_eq, ite_not, ne_eq] at kept
  exact kept

theorem buf_bufMod {s : State} (b j : Nat) (f : Buf → Buf) (h : smWf {} s.pool.bufs = true) :
    (bufMod b f s).buf j = if j = b then f (s.buf b) else s.buf j := smGet_smPut b j _ h

end Sys2Proof.Machine

open Sys2Proof Sys2Proof.Machine

/-- Settles O5, by read after write in a canonical map, one byte or buffer at a time. -/
theorem memoriesReadBackWhatWasWritten : Obligations.MemoriesReadBackWhatWasWritten :=
  ⟨fun _ a j b h => dataByte_dataPutBytes a j b h, fun _ a v h => load_store_word a v h,
   fun _ a j b h => smGet_smPutBytes a j b h, fun _ sec j o h => smGet_nvErase sec j o h,
   fun _ b j f h => buf_bufMod b j f h⟩

end

section
/-! The context a task starts with (13, Table 13.1). -/

namespace Sys2Proof.Machine

section
variable {s : State} {i : Nat} {e : GridEntry} {im : Image} {x : TaskEntry} {c : Core}

/-- What a task in progress leaves behind where the next one starts: the event and the counter (R95). -/
def overrun (e : GridEntry) (t : TaskRun) (s : State) : State :=
  let r := raise 0x8001 noInst [w32 t.entry, w32 e.target.toNat] s
  { r with cr := { r.cr with overruns := satInc r.cr.overruns } }

theorem taskFire_overrun {t : TaskRun} (hi : s.image = some im) (hc : activeCore s = some c) (ht : c.task = some t) :
    taskFire e s = activeMod (taskStart im e.target.toNat s.now) (overrun e t s) := by
  have now : (overrun e t s).now = s.now := by simp [overrun, State.now]
  rw [← now]
  simp [taskFire, hi, hc, ht, overrun]

theorem activeCore_overrun (t : TaskRun) : activeCore (overrun e t s) = activeCore s :=
  active_cr (u := raise 0x8001 noInst [w32 t.entry, w32 e.target.toNat] s) (raise_cr _ _ _ _)

/-- The core in control starts the task, over another one too (R92, R95). -/
theorem taskFire_core (hi : s.image = some im) (hc : activeCore s = some c) :
    activeCore (taskFire e s) = some (taskStart im e.target.toNat s.now c) := by
  cases ht : c.task with
  | none => rw [taskFire_idle hi hc ht, active_mod _ _ _ hc]
  | some t => rw [taskFire_overrun hi hc ht, active_mod _ _ c ((activeCore_overrun t).trans hc)]

theorem taskStart_entry (n now : Nat) (h : im.tasks[n]? = some x) : taskStart im n now c = { c with
    regs := List.replicate 32 0, n := false, z := false, c := false, v := false, sig := 0, rets := [], loops := []
    pc := x.entry.toNat, task := some ⟨n, now, 0, x.budget, x.banks, x.xsig⟩ } := by
  simp [taskStart, h]

theorem gives_task_context (hf : Fires s 0x1C i e) (hi : s.image = some im) (hx : im.tasks[e.target.toNat]? = some x)
    (hc : activeCore s = some c) : Gives (.task i) s (fun u => ∃ k, activeCore u = some k ∧
      k.regs = List.replicate 32 0 ∧ k.n = false ∧ k.z = false ∧ k.c = false ∧ k.v = false ∧ k.sig = 0 ∧
      k.rets = [] ∧ k.loops = []) := by
  refine gives_grid rfl hf ⟨taskStart im e.target.toNat (atEntry e s).now c, ?core, ?context⟩
  case core => rw [kick_activeCore, taskFire_core (s := atEntry e s) hi hc]
  case context => rw [taskStart_entry _ _ hx]; exact ⟨rfl, rfl, rfl, rfl, rfl, rfl, rfl, rfl⟩

end

end Sys2Proof.Machine

open Sys2Proof Sys2Proof.Machine

/-- Settles O44: a task starts by `taskStart`, whatever the core ran before. -/
theorem taskContext : Obligations.TaskContext :=
  fun _ _ _ _ _ _ hf hi hx hc => gives_task_context hf hi hx hc

end

section
/-! What a service instruction does (13): its effect at the edge that ends it, on a state that differs from the one
before it in the instant, the outputs and the core in control alone. -/

namespace Sys2Proof.Machine

/-! ### The state at the edge -/

/-- The state at the edge that ends a service instruction of task `t`, with `k` for the cores' part. -/
def atService (t : TaskRun) (k : Cores) (s : State) : State :=
  { s with
    wire := [], cr := k
    cyc := { s.cyc with phase := max s.cyc.phase (t.start + 4 * (t.e + 4) - s.cyc.base) } }

/-- Two cores' parts differ in the cores alone. -/
def SameBut (k l : Cores) : Prop := { k with pxc := l.pxc, rxc := l.rxc } = l

section
variable {k l : Cores} (h : SameBut k l)
include h

theorem SameBut.eq : { k with pxc := l.pxc, rxc := l.rxc } = l := h

theorem SameBut.active : k.active = l.active := (congrArg Cores.active h.eq :)

theorem SameBut.chk : k.chk = l.chk := (congrArg Cores.chk h.eq :)

theorem SameBut.ordFlag : k.ordFlag = l.ordFlag := (congrArg Cores.ordFlag h.eq :)

theorem SameBut.pxcYielded : k.pxcYielded = l.pxcYielded := (congrArg Cores.pxcYielded h.eq :)

end

/-- An update of the core in control at the edge leaves a state of the same form. -/
theorem activeMod_atService (g : Core → Core) (t : TaskRun) {k : Cores} {s : State} (h : SameBut k s.cr) :
    ∃ l, SameBut l s.cr ∧ activeMod g (atService t k s) = atService t l s := by
  unfold activeMod
  split
  · exact ⟨{ k with pxc := g k.pxc }, h, rfl⟩
  · split
    · exact ⟨{ k with rxc := g k.rxc }, h, rfl⟩
    · exact ⟨k, h, rfl⟩

section
variable (t : TaskRun) {k : Cores} (s : State)

theorem coreOwner_atService (h : k.active = s.cr.active) : coreOwner (atService t k s) = coreOwner s := coreOwner_of h

@[simp] theorem chainOf_atService (b : Nat) : chainOf (atService t k s) b = chainOf s b :=
  chainOf_of (u := atService t k s) (s := s) rfl rfl b

@[simp] theorem chainLen_atService (bs : List Nat) : chainLen (atService t k s) bs = chainLen s bs := chainLen_of rfl bs

@[simp] theorem ownsAll_atService (p : Byte) (bs : List Nat) : ownsAll (atService t k s) p bs = ownsAll s p bs :=
  ownsAll_of rfl rfl p bs

@[simp] theorem dynFault_atService (p : Byte) (bs : List Nat) (id n : Nat) :
    dynFault (atService t k s) p bs id n = dynFault s p bs id n := dynFault_of rfl rfl rfl p bs id n

end

/-- A condition on what is visible decides as its instants do (R97). -/
theorem ite_visible {α : Type} (y : State) (at_ : Nat) (a b : α) :
    (if visible y at_ then a else b) = if at_ + 16 ≤ y.now then a else b := by
  simp [visible]

/-! ### Updates of the core -/

theorem keepsRun_answer (d : BitVec 5) (vs : List Word) (b : Bool) : KeepsRun (answer d vs b) :=
  ⟨fun c k => answer_task d vs b c k, answered_loops d vs b, answered_pc d vs b⟩

theorem keepsRun_answerV (d : BitVec 5) (vs : List Word) (b v : Bool) :
    KeepsRun (fun c => { answer d vs b c with v := v }) := (keepsRun_setV v).comp (keepsRun_answer d vs b)

theorem keepsRun_answerCode (d : BitVec 5) (w : Word) (ok : Bool) : KeepsRun (answerCode d w ok) :=
  (keepsRun_setCV ok (!ok)).comp (keepsRun_regPut d w)

theorem keepsRun_regPutCV (d : BitVec 5) (w : Word) (b v : Bool) :
    KeepsRun (fun c => { regPut d w c with c := b, v := v }) := (keepsRun_setCV b v).comp (keepsRun_regPut d w)

theorem keepsRun_done : KeepsRun done_ := keepsRun_setV false

theorem keepsRun_refuseCore (d : BitVec 5) (n : Nat) (zn : Bool) : KeepsRun (refuseCore d n zn) := by
  cases zn with
  | false => exact (keepsRun_setCV false true).comp (keepsRun_regsPut d _)
  | true => exact (keepsRun_setCV false true).comp ((keepsRun_setZn 0).comp (keepsRun_regsPut d _))

theorem refuseCore_eq (d : BitVec 5) (n : Nat) (zn : Bool) (c : Core) : refuseCore d n zn c = refusedCore d n zn c := by
  obtain ⟨hz, hn, -, -⟩ := regsPut_flags (List.replicate n 0) d c
  unfold refuseCore refusedCore
  generalize regsPut d (List.replicate n 0) c = w at hz hn ⊢
  cases zn <;> simp [setZn, hz, hn]

/-! ### The forms of a group of registers (R371) -/

theorem groupOk_of {k : Nat} {d : BitVec 5} (h1 : 1 ≤ d.toNat) (h2 : d.toNat ≤ 31 - k) : groupOk k d = true := by
  simp [groupOk, h1, h2]

theorem groupOk_not {k : Nat} {d : BitVec 5} (hk : 1 < k) (h : d = 0 ∨ 31 - k < d.toNat) : groupOk k d = false := by
  rcases h with rfl | h
  · simp [groupOk, hk]
  · simp [groupOk, hk, h]

/-! ### What the completion of an instruction leaves -/

section
variable (u : State) (l : Cores) (p : List Instr)

theorem kicked_tf : { nvKick { u with cr := l } with pending := p }.tf = u.tf := nvKick_tf _

theorem kicked_vn : { nvKick { u with cr := l } with pending := p }.vn = u.vn := nvKick_vn _

theorem kicked_eq : { nvKick { u with cr := l } with pending := p }.eq = u.eq := nvKick_eq _

theorem kicked_ch : { nvKick { u with cr := l } with pending := p }.ch = u.ch := nvKick_ch _

theorem kicked_sh : { nvKick { u with cr := l } with pending := p }.sh = u.sh := nvKick_sh _

theorem kicked_bn : { nvKick { u with cr := l } with pending := p }.bn = u.bn := nvKick_bn _

theorem kicked_pool : { nvKick { u with cr := l } with pending := p }.pool = u.pool := nvKick_pool _

end

/-! ### How a service instruction completes -/

section
variable {i : Instr} {ok : Bool} {f : Core → State → State} {s : State} {c : Core} {t : TaskRun}
  (he : exec i s = actJ (service ok f) s)
include he

/-- An illegal form yields with cause 0x01 (R369). -/
theorem gives_illegal (hok : ok = false) (h : Executes 4 s c t) : Gives i s (Yielded 0x01 s c t) := by
  subst hok
  exact gives_yield he h rfl

variable (hok : ok = true) (h : Running 4 s c t)
include hok h

/-- A legal one updates the core by `g`; what holds besides follows from its effect on the rest. -/
theorem gives_service {g : Core → Core} {P : State → Prop} (hg : KeepsRun g)
    (hf : ∀ k, SameBut k s.cr → ∀ m, activeCore (atService t k s) = some m →
      activeCore (f c (atService t k s)) = some (g m))
    (hP : ∀ k l, SameBut k s.cr → P { nvKick { f c (atService t k s) with cr := l } with pending := s.pending }) :
    Gives i s (fun u => activeCore u = some (stepped 4 t (g c)) ∧ P u) := by
  refine service_gives he hok h ?_ (hg.nest c) (hg.pc c)
  rintro y k rfl core _ same
  exact ⟨(hf k same _ core).trans (congrArg some (hg.task c _)), fun l => hP k l same⟩

/-- The update of the core, then an effect `v` on the rest. -/
theorem gives_effect {g : Core → Core} {v : State → State} {P : State → Prop} (hg : KeepsRun g)
    (hf : ∀ k, SameBut k s.cr → f c (atService t k s) = v (activeMod g (atService t k s)))
    (hv : ∀ y, (v y).cr = y.cr)
    (hP : ∀ k l, SameBut k s.cr → P { nvKick { v (atService t k s) with cr := l } with pending := s.pending }) :
    Gives i s (fun u => activeCore u = some (stepped 4 t (g c)) ∧ P u) := by
  refine gives_service he hok h hg (fun k same m core => ?_) (fun k l same => ?_)
  · rw [hf k same, active_cr (hv _), active_mod _ _ _ core]
  · obtain ⟨k', same', hk'⟩ := activeMod_atService g t same
    rw [hf k same, hk']
    exact hP k' l same'

/-- An effect `v` on the rest, then the update of the core. -/
theorem gives_effect_first {g : Core → Core} {v : State → State} {P : State → Prop} (hg : KeepsRun g)
    (hf : ∀ k, SameBut k s.cr → f c (atService t k s) = activeMod g (v (atService t k s)))
    (hv : ∀ k, SameBut k s.cr → (v (atService t k s)).cr = k)
    (hP : ∀ k l, SameBut k s.cr → P { nvKick { v (atService t k s) with cr := l } with pending := s.pending }) :
    Gives i s (fun u => activeCore u = some (stepped 4 t (g c)) ∧ P u) := by
  refine gives_service he hok h hg (fun k same m core => ?_) (fun k l same => ?_)
  · rw [hf k same, active_mod _ _ m ((active_cr (hv k same)).trans core)]
  · obtain ⟨k', hk'⟩ := mod_shape g (v (atService t k s))
    rw [hf k same, hk']
    exact hP k l same

/-- Nothing but the update of the core. -/
theorem gives_answer {g : Core → Core} (hg : KeepsRun g)
    (hf : ∀ k, SameBut k s.cr → f c (atService t k s) = activeMod g (atService t k s)) :
    Gives i s (fun u => activeCore u = some (stepped 4 t (g c)) ∧ True) :=
  gives_effect (v := id) he hok h hg hf (fun _ => rfl) (fun _ _ _ => trivial)

/-- Nothing but an answer of words. -/
theorem gives_answered {d : BitVec 5} {vs : List Word} {b : Bool}
    (hf : ∀ k, SameBut k s.cr → f c (atService t k s) = activeMod (answer d vs b) (atService t k s)) :
    Gives i s (fun u => activeCore u = some (stepped 4 t (answered d vs b c)) ∧ True) :=
  gives_answer he hok h (keepsRun_answer d vs b) hf

/-- A refusal with event 0x8041 (R375). -/
theorem gives_refusal {op n : Nat} {o : Word} {d : BitVec 5} {zn : Bool}
    (hf : ∀ k : Cores, k.active = s.cr.active → f c (atService t k s) = refuse op o d n zn (atService t k s)) :
    Gives i s (fun u => activeCore u = some (stepped 4 t (refusedCore d n zn c)) ∧ Occurred 0x8041 0xFF u) :=
  refuse_gives he hok h hf

end

end Sys2Proof.Machine
end

section
/-! Field instructions (13): `SAMP`, `CNTR` and `MEAS` answer what is visible at the edge, `DRV` drives its channel. -/

namespace Sys2Proof.Machine

/-! ### What each does under its conditions -/

section
variable {d a : BitVec 5} {c : Core} {y : State}

section
variable {ch : Byte} {n : Nat} (hn : chanOf c a ch = n) (hr : n ≤ 31)
include hn hr

theorem sampOp_answers {x : Capture} (hm : chMode y n ≠ 0)
    (hx : x = if (y.chan n).cap.at_ + 16 ≤ y.now then (y.chan n).cap else (y.chan n).capPrev) :
    sampOp d a ch c y =
      activeMod (answer d [x.state, x.volt] ((x.state >>> (16 : Nat)).setWidth 16 = y.cyc.cyc)) y := by
  subst hn hx
  rw [← ite_visible]
  exact if_neg (by simp [hm, hr])

theorem cntrOp_answers {x : Latch} (hm : chMode y n = 4)
    (hx : x = if (y.chan n).latch.at_ + 16 ≤ y.now then (y.chan n).latch else (y.chan n).latchPrev) :
    cntrOp d a ch c y =
      activeMod (answer d [x.value, x.cyc.setWidth 32 <<< (16 : Nat)] (x.cyc = y.cyc.cyc)) y := by
  subst hn hx
  rw [← ite_visible]
  exact if_neg (by simp [hm, hr])

/-- The value waits for the grid from the edge on (R384). -/
theorem drvOp_drives (hm : chMode y n = 5) : drvOp d a ch c y =
    chanMod n (fun x => { x with pend := x.pend ++ [((reg c d).getLsbD 0, y.now)] })
      (activeMod (fun x => { x with c := overridden (y.chan n), v := false }) y) := by
  subst hn
  have now : (activeMod (fun x => { x with c := overridden (y.chan (chanOf c a ch)), v := false }) y).now = y.now := by
    rw [State.now, mod_cyc]
    rfl
  rw [← now]
  exact if_neg (by simp [hm, hr])

end

theorem measOp_answers {set item : BitVec 4} {im : Image} {q : Byte} {x : MeasCap} {j : Nat} (hi : y.image = some im)
    (hq : (setCodes im set.toNat)[(reg c a + item.setWidth 32).toNat]? = some q)
    (hj : j = 16 * set.toNat + (reg c a + item.setWidth 32).toNat)
    (hx : x = if (smGet {} y.ms.caps j).at_ + 16 ≤ y.now then smGet {} y.ms.caps j else smGet {} y.ms.capsPrev j) :
    measOp d a set item c y =
      activeMod (answer d [x.value, w32 (x.cyc.toNat * 65536 + q.toNat)] (x.cyc = y.cyc.cyc)) y := by
  subst hj hx
  simp only [measOp, hi, Option.elim_some, hq, ite_visible]

end

end Sys2Proof.Machine

open Sys2Proof Sys2Proof.Machine

/-- Settles O32: each instruction does at the edge what it does under its conditions, and the edge is its instant. -/
theorem fieldInstructions : Obligations.FieldInstructions := by
  refine ⟨?samp, ?drv, ?cntr, ?meas⟩
  case samp =>
    intro s c t d a ch h h1 h2 n x hn hr hm hx
    exact gives_answered rfl (groupOk_of h1 h2) h
      fun k _ => sampOp_answers (y := atService t k s) hn.symm hr hm hx
  case drv =>
    intro s c t d a ch h n hn hr hm
    exact gives_effect (v := chanMod n _) rfl rfl h (keepsRun_setCV _ _)
      (fun k _ => drvOp_drives (y := atService t k s) hn.symm hr hm) (fun _ => rfl) (fun _ _ _ => kicked_ch _ _ _)
  case cntr =>
    intro s c t d a ch h h1 h2 n x hn hr hm hx
    exact gives_answered rfl (groupOk_of h1 h2) h
      fun k _ => cntrOp_answers (y := atService t k s) hn.symm hr hm hx
  case meas =>
    intro s c t d a set item h h1 h2 im q x j hi hq hj hx
    exact gives_answered rfl (groupOk_of h1 h2) h
      fun k _ => measOp_answers (y := atService t k s) hi hq hj hx

end

section
/-! Refusals of the service instructions (13, R375), and the forms that are illegal (R369). -/

namespace Sys2Proof.Machine

/-! ### The conditions under which each is refused -/

section
variable {d a : BitVec 5} {c : Core} {y : State}

section
variable {ch : Byte} {n : Nat} (hn : chanOf c a ch = n)
include hn

theorem sampOp_refused (h : 31 < n ∨ chMode y n = 0) : sampOp d a ch c y = refuse 0x20 (w32 n) d 2 true y := by
  subst hn
  exact if_pos (by simpa using h)

theorem drvOp_refused (h : 31 < n ∨ chMode y n ≠ 5) : drvOp d a ch c y = refuse 0x21 (w32 n) d 0 false y := by
  subst hn
  exact if_pos (by simpa using h)

theorem cntrOp_refused (h : 31 < n ∨ chMode y n ≠ 4) : cntrOp d a ch c y = refuse 0x22 (w32 n) d 2 true y := by
  subst hn
  exact if_pos (by simpa using h)

theorem twwOp_refused {fin : Bool} {im : Image} (hi : y.image = some im) (h : im.node.wlen.toNat ≤ n) :
    twwOp d a fin ch c y = refuse 0x28 (w32 n) d 0 false y := by
  subst hn
  exact if_pos (by simpa [hi] using h)

end

theorem measOp_refused {set item : BitVec 4}
    (h : ∀ im, y.image = some im → (setCodes im set.toNat)[(reg c a + item.setWidth 32).toNat]? = none) :
    measOp d a set item c y = refuse 0x23 (set.setWidth 32) d 2 true y := by
  have absent : (y.image.elim [] (fun im => setCodes im set.toNat))[(reg c a + item.setWidth 32).toNat]? = none := by
    cases hi : y.image with
    | none => rfl
    | some im => exact h im hi
  simp only [measOp, absent]

/-- The window of a number in a snapshot, as the obligations name it. -/
theorem snapWindow_eq_none {x : Snapshot} {n : Nat} :
    snapWindow x n = none ↔ n = 0 ∨ x.offs.find? (fun o => field x.payload o 1 = n) = none := by
  unfold snapWindow
  split <;> simp_all

theorem snapWindow_eq_some {x : Snapshot} {n off : Nat} :
    snapWindow x n = some off ↔ n ≠ 0 ∧ x.offs.find? (fun o => field x.payload o 1 = n) = some off := by
  unfold snapWindow
  split <;> simp_all

section
variable {x : Snapshot} {n : Nat} (hx : snapSeen y = x) (hn : (reg c a).toNat % 64 = n)
include hx hn

theorem twrWordOp_refused {w : Byte}
    (h : ∀ off, snapWindow x n = some off → field x.payload (off + 3) 1 ≤ (reg c a).toNat / 256 % 256 + w.toNat) :
    twrWordOp d a w c y = refuse 0x29 (w32 n) d 1 true y := by
  subst hx hn
  unfold twrWordOp
  dsimp only
  split
  · rfl
  · next off hoff => exact if_pos (h off hoff)

theorem twrHeaderOp_refused (h : snapWindow x n = none) :
    twrHeaderOp d a c y = refuse 0x29 (w32 n) d 1 true y := by
  subst hx hn
  simp only [twrHeaderOp, h]

end

/-- A slot that is not the node's own carries nothing. -/
theorem ownSlotRoom_eq_some {k room : Nat} : ownSlotRoom y k = some room ↔
    ∃ st, y.star = some st ∧ slotOwner st k = 0x0C ∧ lStatic st - 34 = room := by
  unfold ownSlotRoom
  cases y.star with
  | none => simp
  | some st => by_cases ho : slotOwner st k = 0x0C <;> simp [ho]

theorem vsndWordOp_refused {slot : BitVec 6} (h : ∀ st, y.star = some st → slotOwner st slot.toNat = 0x0C →
    lStatic st - 34 ≤ 4 * ((reg c a).toNat % 256)) :
    vsndWordOp d a slot c y = refuse 0x2B (slot.setWidth 32) d 0 false y := by
  unfold vsndWordOp
  dsimp only
  split
  · rfl
  · next room hroom =>
    obtain ⟨st, hs, ho, rfl⟩ := ownSlotRoom_eq_some.mp hroom
    exact if_pos (h st hs ho)

theorem vsndCompleteOp_refused {slot : BitVec 6} (h : ∀ st, y.star = some st → slotOwner st slot.toNat = 0x0C →
    lStatic st - 34 < (reg c d).toNat % 2048) :
    vsndCompleteOp d a slot c y = refuse 0x2B (slot.setWidth 32) d 0 false y := by
  unfold vsndCompleteOp
  dsimp only
  split
  · rfl
  · next room hroom =>
    obtain ⟨st, hs, ho, rfl⟩ := ownSlotRoom_eq_some.mp hroom
    exact if_pos (h st hs ho)

theorem vsndDynamicOp_refused (h : dynFault y (coreOwner y) (chainOf y (reg c a).toNat) ((reg c d).toNat % 512)
    (chainLen y (chainOf y (reg c a).toNat)) = true) :
    vsndDynamicOp d a c y = refuse 0x2B (w32 ((reg c d).toNat % 512)) d 0 false y := if_pos h

/-- The publication shows the static slots below N_S. -/
theorem pubSlot_eq_some {k : Nat} {x : PubSlot} : pubSlot y k = some x ↔
    ∃ st, y.star = some st ∧ k < st.nS ∧ (pubSeen y).slots.getD k {} = x := by
  unfold pubSlot
  cases y.star with
  | none => simp
  | some st => by_cases hk : k < st.nS <;> simp [hk]

theorem vrcvWordOp_refused {slot : BitVec 6} (h : ∀ st, y.star = some st → slot.toNat < st.nS →
    ((pubSeen y).slots.getD slot.toNat {}).body.length ≤ 4 * ((reg c a).toNat % 256)) :
    vrcvWordOp d a slot c y = refuse 0x2C (slot.setWidth 32) d 1 true y := by
  unfold vrcvWordOp
  dsimp only
  split
  · rfl
  · next x hx =>
    obtain ⟨st, hs, hk, rfl⟩ := pubSlot_eq_some.mp hx
    exact if_pos (h st hs hk)

theorem vrcvStatusOp_refused {slot : BitVec 6} (h : ∀ st, y.star = some st → st.nS ≤ slot.toNat) :
    vrcvStatusOp d slot c y = refuse 0x2C (slot.setWidth 32) d 2 true y := by
  unfold vrcvStatusOp
  split
  · rfl
  · next x hx =>
    obtain ⟨st, hs, hk, -⟩ := pubSlot_eq_some.mp hx
    exact absurd (h st hs) (Nat.not_le.mpr hk)

theorem gateOp_refused (h : (reg c a).toNat % 4 = 3) : gateOp a c y = refuse 0x39 3 0 0 false y := if_pos h

theorem benchResOp_refused (h : (y.bn.results.take 16).find? (fun r => r.ticket = (reg c a).toNat % 16) = none) :
    benchResOp d a c y = refuse 0x3C (w32 ((reg c a).toNat % 16)) d 2 true y := by
  simp only [benchResOp, h]

theorem bufGetOp_refused (h : 4095 < (reg c a).toNat) :
    bufGetOp d a c y = refuse 0x3C (w32 (reg c a).toNat) d 4 true y := if_pos h

end

end Sys2Proof.Machine

open Sys2Proof Sys2Proof.Machine

/-- Settles O33: under its condition each instruction is the refusal of R375 at the edge; a group that does not fit and
a BALLOC count outside 1-8 are illegal forms. -/
theorem serviceRefusals : Obligations.ServiceRefusals := by
  refine ⟨?samp, ?drv, ?cntr, ?tww, ?twrWord, ?twrHeader, ?vsndWord, ?vsndComplete, ?vsndDynamic, ?vrcvWord,
    ?vrcvStatus, ?gate, ?meas, ?benchRes, ?bufGet,
    fun _ _ _ _ _ _ h hd => gives_illegal rfl (groupOk_not (by decide) hd) h,
    fun _ _ _ _ _ _ h hd => gives_illegal rfl (groupOk_not (by decide) hd) h,
    fun _ _ _ _ _ _ _ h hd => gives_illegal rfl (groupOk_not (by decide) hd) h,
    fun _ _ _ _ _ h hd => gives_illegal rfl (groupOk_not (by decide) hd) h,
    fun _ _ _ _ h hd => gives_illegal rfl (groupOk_not (by decide) hd) h,
    fun _ _ _ _ h hd => gives_illegal rfl (groupOk_not (by decide) hd) h,
    fun _ _ _ _ _ h hd => gives_illegal rfl (groupOk_not (by decide) hd) h,
    fun _ _ _ _ _ h hd => gives_illegal rfl (groupOk_not (by decide) hd) h,
    fun _ _ _ _ _ h hd => gives_illegal rfl (groupOk_not (by decide) hd) h, ?balloc⟩
  case samp =>
    intro s c t d a ch h h1 h2 n hn hr
    exact gives_refusal rfl (groupOk_of h1 h2) h fun k _ => sampOp_refused (y := atService t k s) hn.symm hr
  case drv =>
    intro s c t d a ch h n hn hr
    exact gives_refusal rfl rfl h fun k _ => drvOp_refused (y := atService t k s) hn.symm hr
  case cntr =>
    intro s c t d a ch h h1 h2 n hn hr
    exact gives_refusal rfl (groupOk_of h1 h2) h fun k _ => cntrOp_refused (y := atService t k s) hn.symm hr
  case tww =>
    intro s c t d a fin w h n im hn hi hr
    exact gives_refusal rfl rfl h fun k _ => twwOp_refused (y := atService t k s) hn.symm hi hr
  case twrWord =>
    intro s c t d a w h x n hx hn hr
    refine gives_refusal rfl rfl h fun k _ =>
      twrWordOp_refused (y := atService t k s) ((ite_visible _ _ _ _).trans hx.symm) hn.symm fun off hoff => ?_
    obtain ⟨h0, found⟩ := snapWindow_eq_some.mp hoff
    exact hr off h0 found
  case twrHeader =>
    intro s c t d a h x n hx hn hr
    exact gives_refusal rfl rfl h fun k _ => twrHeaderOp_refused (y := atService t k s)
      ((ite_visible _ _ _ _).trans hx.symm) hn.symm (snapWindow_eq_none.mpr hr)
  case vsndWord =>
    intro s c t d a slot h hr
    exact gives_refusal rfl rfl h fun k _ => vsndWordOp_refused (y := atService t k s) hr
  case vsndComplete =>
    intro s c t d a slot h hr
    exact gives_refusal rfl rfl h fun k _ => vsndCompleteOp_refused (y := atService t k s) hr
  case vsndDynamic =>
    intro s c t d a h hr
    refine gives_refusal rfl rfl h fun k same => vsndDynamicOp_refused (y := atService t k s) ?_
    simpa [coreOwner_atService t s same] using hr
  case vrcvWord =>
    intro s c t d a slot h hr
    refine gives_refusal rfl rfl h fun k _ => vrcvWordOp_refused (y := atService t k s) ?_
    rw [pubSeen, ite_visible]
    exact hr
  case vrcvStatus =>
    intro s c t d slot h h1 h2 hr
    exact gives_refusal rfl (groupOk_of h1 h2) h fun k _ => vrcvStatusOp_refused (y := atService t k s) hr
  case gate =>
    intro s c t a h hr
    exact gives_refusal rfl rfl h fun k _ => gateOp_refused (y := atService t k s) hr
  case meas =>
    intro s c t d a set item h h1 h2 hr
    exact gives_refusal rfl (groupOk_of h1 h2) h fun k _ => measOp_refused (y := atService t k s) hr
  case benchRes =>
    intro s c t d a h h1 h2 hr
    exact gives_refusal rfl (groupOk_of h1 h2) h fun k _ => benchResOp_refused (y := atService t k s) hr
  case bufGet =>
    intro s c t d a h h1 h2 hr
    exact gives_refusal rfl (groupOk_of h1 h2) h fun k _ => bufGetOp_refused (y := atService t k s) hr
  case balloc =>
    intro s c t d n h hn
    refine gives_illegal rfl ?_ h
    rcases hn with rfl | hn
    · rfl
    · simp [Nat.not_le.mpr hn]

end

section
/-! Access of a core to the buffers of the frame pool, and the refused `BENCH` (09, 13). -/

namespace Sys2Proof.Machine

/-! ### A refusal of buffer access, with its event -/

section
variable {i : Instr} {ok : Bool} {f : Core → State → State} {s : State} {c : Core} {t : TaskRun} {d : BitVec 5}
  {n : Nat} {zn : Bool} (he : exec i s = actJ (service ok f) s) (hok : ok = true) (h : Running 4 s c t)
include he hok h

/-- An access to a buffer that is not the core's, or at a bad offset, is refused with event 0x8042 (R391). -/
theorem gives_bufRefused {fn b : Nat}
    (hf : ∀ k, SameBut k s.cr → f c (atService t k s) = bufRefused fn b d n (atService t k s)) :
    Gives i s (fun u => activeCore u = some (stepped 4 t (refusedCore d n (n ≠ 0) c)) ∧ u.pool = s.pool ∧
      Occurred 0x8042 0xFF u) := by
  rw [← refuseCore_eq]
  refine gives_service he hok h (keepsRun_refuseCore d n _) (fun k same m core => ?_) (fun k l same => ?_)
  · rw [hf k same]
    exact (active_cr (raise_cr _ _ _ _)).trans (active_mod _ _ m core)
  · rw [hf k same]
    refine ⟨?_, kick_occurred (Occurred.mono (EvsIn.of_gr rfl) (raise_occurred _ _ _ _))⟩
    simp [bufRefused, mod_pool, atService]

/-- One that meets an uncorrectable unit is refused with event 0x4014 (R273). -/
theorem gives_poolUncorr
    (hf : ∀ k, SameBut k s.cr →
      f c (atService t k s) = poolUncorr (activeMod (refuseCore d n zn) (atService t k s))) :
    Gives i s (fun u => activeCore u = some (stepped 4 t (refusedCore d n zn c)) ∧ u.pool.bufs = s.pool.bufs ∧
      Occurred 0x4014 0xFF u) := by
  rw [← refuseCore_eq]
  refine gives_effect he hok h (keepsRun_refuseCore d n zn) hf (fun y => ?_) (fun k l same => ⟨?_, ?_⟩)
  · simp [poolUncorr]
  · simp [poolUncorr, poolSticky, atService]
  · exact kick_occurred (Occurred.mono (s := raise 0x4014 noInst [] (atService t k s)) (EvsIn.of_gr rfl)
      (raise_occurred _ _ _ _))

end

/-! ### What each function does under its conditions -/

section
variable {d a b : BitVec 5} {c : Core} {y : State}

theorem bufOk_false {party : Byte} {n off : Nat}
    (h : inPool y n = false ∨ (y.buf n).owner ≠ party ∨ off % 4 ≠ 0 ∨ 252 < off) :
    bufOk y party n off = false := by
  unfold bufOk
  rcases h with h | h | h | h
  · simp [h]
  · simp [h]
  · simp [h]
  · simp [Nat.not_le.mpr h]

theorem bufOk_true {party : Byte} {n off : Nat} (hp : inPool y n = true) (ho : (y.buf n).owner = party)
    (hm : off % 4 = 0) (hr : off ≤ 252) : bufOk y party n off = true := by
  simp [bufOk, hp, ho, hm, hr]

section
variable {n off : Nat} (hn : (reg c a).toNat = n) (ho : (reg c b).toNat = off)
include hn ho

theorem bufRdOp_refused (h : bufOk y (coreOwner y) n off = false) : bufRdOp d a b c y = bufRefused 0x10 n d 1 y := by
  subst hn ho
  exact if_pos (by simp [h])

theorem bufWrOp_refused (h : bufOk y (coreOwner y) n off = false) : bufWrOp d a b c y = bufRefused 0x11 n d 0 y := by
  subst hn ho
  exact if_pos (by simp [h])

variable (h : bufOk y (coreOwner y) n off = true)
include h

theorem bufRdOp_ecc (hu : unitErr y (16 * n + off / 16) = some true) :
    bufRdOp d a b c y = poolUncorr (activeMod (refuseCore d 1 true) y) := by
  subst hn ho
  exact (if_neg (by simp [h])).trans (if_pos hu)

theorem bufWrOp_ecc (hu : unitErr y (16 * n + off / 16) = some true) :
    bufWrOp d a b c y = poolUncorr (activeMod (refuseCore d 0 false) y) := by
  subst hn ho
  exact (if_neg (by simp [h])).trans (if_pos hu)

theorem bufRdOp_answers (hu : unitErr y (16 * n + off / 16) ≠ some true) : bufRdOp d a b c y =
    unitsRead [16 * n + off / 16] (activeMod (answer d [bufWord y n off] true) y) := by
  subst hn ho
  exact (if_neg (by simp [h])).trans (if_neg hu)

theorem bufWrOp_writes (hu : unitErr y (16 * n + off / 16) ≠ some true) :
    bufWrOp d a b c y = bufPut n off (reg c d) (activeMod done_ y) := by
  subst hn ho
  exact (if_neg (by simp [h])).trans (if_neg hu)

end

theorem bufSetOp_refused {n : Nat} (hn : (reg c a).toNat = n)
    (h : inPool y n = false ∨ (y.buf n).owner ≠ coreOwner y ∨ (reg c b).toNat % 512 = 0 ∨
      256 < (reg c b).toNat % 512) :
    bufSetOp d a b c y = bufRefused 0x12 n d 0 y := by
  subst hn
  refine if_pos ?_
  rcases h with h | h | h | h
  · simp [bufOk, h]
  · simp [bufOk, h]
  · simp [blenOk, h]
  · simp [blenOk, Nat.not_le.mpr h]

theorem bufSetOp_describes {n : Nat} (hn : (reg c a).toNat = n) (hp : inPool y n = true)
    (ho : (y.buf n).owner = coreOwner y) (h1 : 1 ≤ (reg c b).toNat % 512) (h2 : (reg c b).toNat % 512 ≤ 256) :
    bufSetOp d a b c y = bufMod n (bufDescribe (reg c b) ((reg c d).setWidth 16)) (activeMod done_ y) := by
  subst hn
  exact if_neg (by simp [bufOk, blenOk, hp, ho, h1, h2])

theorem bufGetOp_answers {x : Buf} (hx : y.buf (reg c a).toNat = x) (h : (reg c a).toNat ≤ 4095) :
    bufGetOp d a c y = activeMod (answer d
      [w32 (x.next.toNat * 65536 + x.owner.toNat * 256 + x.flags.toNat), w32 (x.blen.toNat * 65536 + x.tci.toNat),
        (x.tstamp >>> 32).setWidth 32, x.tstamp.setWidth 32] true) y := by
  subst hx
  exact if_neg (Nat.not_lt.mpr h)

/-- A refused request leaves the bench alone: a `CORE_REPAIR` with reason 4, another one as it is judged (R364). -/
theorem benchOp_refused {kind : BitVec 4} {r : Nat}
    (h : kind = 5 ∧ r = 4 ∨ kind ≠ 5 ∧ benchJudge y true kind.toNat ((reg c a).toNat % 256) = some r) :
    benchOp d a kind c y = activeMod (answerCode d (w32 (0x80000000 + r)) (!(w32 (0x80000000 + r)).msb))
      (raise 0x7022 kind.toNat [w32 r] y) := by
  rcases h with ⟨rfl, rfl⟩ | ⟨hk, hj⟩
  · rfl
  · simp only [benchOp, if_neg hk, benchAsk, hj]

end

section
variable (t : TaskRun) {k : Cores} (s : State) (same : SameBut k s.cr)
include same

theorem bufOk_atService (n off : Nat) :
    bufOk (atService t k s) (coreOwner (atService t k s)) n off = bufOk s (coreOwner s) n off := by
  rw [coreOwner_atService t s same.active]
  rfl

theorem benchJudge_atService (task : Bool) (kind obj : Nat) :
    benchJudge (atService t k s) task kind obj = benchJudge s task kind obj := by
  have yielded : (atService t k s).cr.pxcYielded = s.cr.pxcYielded := same.pxcYielded
  unfold benchJudge
  rw [yielded]
  rfl

end

theorem msb_refusalCode {r : Nat} (h : r < 2 ^ 31) : (w32 (0x80000000 + r)).msb = true := by
  rw [BitVec.msb_eq_decide, w32, BitVec.toNat_ofNat, Nat.mod_eq_of_lt (by omega)]
  simp

end Sys2Proof.Machine

open Sys2Proof Sys2Proof.Machine

/-- Settles O38: under its conditions each function reads, writes or describes its buffer at the edge, or is refused
with the event of its case. -/
theorem bufferFunctions : Obligations.BufferFunctions := by
  refine ⟨?bufRd, ?bufWr, ?bufSet, ?bufGet, ?bufRdRefused, ?bufWrRefused, ?bufSetRefused, ?bufRdEcc, ?bufWrEcc,
    ?bench⟩
  case bufRd =>
    intro s c t d a b h n off hn ho hp hw hm hr hu
    exact gives_effect rfl rfl h (keepsRun_answer _ _ _)
      (fun k same => bufRdOp_answers (y := atService t k s) hn.symm ho.symm
        ((bufOk_atService t s same n off).trans (bufOk_true hp hw hm hr)) hu)
      (fun _ => (unitsRead_fr _).cr rfl) (fun _ _ _ => (kicked_pool _ _ _).trans ((unitsRead_fr _).pool rfl))
  case bufWr =>
    intro s c t d a b h n off hn ho hp hw hm hr hu
    exact gives_effect rfl rfl h keepsRun_done
      (fun k same => bufWrOp_writes (y := atService t k s) hn.symm ho.symm
        ((bufOk_atService t s same n off).trans (bufOk_true hp hw hm hr)) hu)
      (fun _ => (bufPut_fr _ _ _).cr rfl)
      (fun k l _ => (congrArg Pool.bufs (kicked_pool _ _ _)).trans (bufPut_bufs n off (reg c d) (atService t k s)))
  case bufSet =>
    intro s c t d a b h n hn hp ho h1 h2
    exact gives_effect rfl rfl h keepsRun_done
      (fun k same => bufSetOp_describes (y := atService t k s) hn.symm hp
        (ho.trans (coreOwner_atService t s same.active).symm) h1 h2)
      (fun _ => rfl) (fun _ _ _ => congrArg Pool.bufs (kicked_pool _ _ _))
  case bufGet =>
    intro s c t d a h h1 h2 hr
    exact gives_answered rfl (groupOk_of h1 h2) h
      fun k _ => bufGetOp_answers (y := atService t k s) (x := s.buf (reg c a).toNat) rfl hr
  case bufRdRefused =>
    intro s c t d a b h hr
    exact gives_bufRefused rfl rfl h fun k same => bufRdOp_refused (y := atService t k s) rfl rfl
      ((bufOk_atService t s same _ _).trans (bufOk_false hr))
  case bufWrRefused =>
    intro s c t d a b h hr
    exact gives_bufRefused rfl rfl h fun k same => bufWrOp_refused (y := atService t k s) rfl rfl
      ((bufOk_atService t s same _ _).trans (bufOk_false hr))
  case bufSetRefused =>
    intro s c t d a b h hr
    refine gives_bufRefused rfl rfl h fun k same => bufSetOp_refused (y := atService t k s) rfl ?_
    rw [coreOwner_atService t s same.active]
    exact hr
  case bufRdEcc =>
    intro s c t d a b h n off hn ho hp hw hm hr hu
    exact gives_poolUncorr rfl rfl h fun k same => bufRdOp_ecc (y := atService t k s) hn.symm ho.symm
      ((bufOk_atService t s same n off).trans (bufOk_true hp hw hm hr)) hu
  case bufWrEcc =>
    intro s c t d a b h n off hn ho hp hw hm hr hu
    exact gives_poolUncorr rfl rfl h fun k same => bufWrOp_ecc (y := atService t k s) hn.symm ho.symm
      ((bufOk_atService t s same n off).trans (bufOk_true hp hw hm hr)) hu
  case bench =>
    intro s c t d a kind r h hj hr
    refine gives_effect_first (g := answerCode d (w32 (0x80000000 + r)) false) (v := raise 0x7022 kind.toNat [w32 r])
      rfl rfl h (keepsRun_answerCode _ _ _) (fun k same => ?_) (fun _ _ => raise_cr _ _ _ _)
      (fun k l _ => ⟨?_, kick_occurred (Occurred.mono (EvsIn.of_gr rfl) (raise_occurred _ _ _ (atService t k s)))⟩)
    · have refused := benchOp_refused (d := d) (a := a) (c := c) (y := atService t k s)
        (by rwa [benchJudge_atService t s same])
      rwa [msb_refusalCode hr] at refused
    · exact (kicked_bn _ _ _).trans (raise_bn _ _ _ _)

end

section
/-! The train frame instructions (13): `TWW` and `TNUL` at the window buffer, `TWR` at the published snapshot, `MPOST`
at the two message queues. -/

namespace Sys2Proof.Machine

/-! ### What each does under its conditions -/

section
variable {d a : BitVec 5} {c : Core} {y : State}

theorem twwOp_writes {fin : Bool} {ch : Byte} {n : Nat} {im : Image} (hn : chanOf c a ch = n) (hi : y.image = some im)
    (hr : n < im.node.wlen.toNat) : twwOp d a fin ch c y =
      activeMod done_ { y with tf := { y.tf with
        win := winPut im.node.wlen.toNat n (reg c d) y.tf.win, ready := if fin then .data else y.tf.ready } } := by
  subst hn
  simp only [twwOp, hi, Option.elim_some]
  exact if_neg (Nat.not_le.mpr hr)

section
variable {x : Snapshot} {n off : Nat} (hx : snapSeen y = x) (hn : (reg c a).toNat % 64 = n)
  (hoff : snapWindow x n = some off)
include hx hn hoff

theorem twrWordOp_answers {w : Byte} {j : Nat} (hj : (reg c a).toNat / 256 % 256 + w.toNat = j)
    (hr : j < field x.payload (off + 3) 1) : twrWordOp d a w c y =
      activeMod (answer d [w32 (field x.payload (off + 4 + 4 * j) 4)] (snapGood x off)) y := by
  subst hx hn hj
  simp only [twrWordOp, hoff]
  exact if_neg (Nat.not_le.mpr hr)

theorem twrHeaderOp_answers : twrHeaderOp d a c y =
    activeMod (answer d [w32 (field x.payload off 4)] (snapGood x off)) y := by
  subst hx hn
  simp only [twrHeaderOp, hoff]

end

theorem twrFrameOp_answers {w : BitVec 3} {x : Snapshot} (hx : snapSeen y = x) :
    twrFrameOp d w c y = activeMod (answer d [w32 (field x.payload (4 * w.toNat) 4)] x.valid) y := by
  subst hx
  rfl

theorem mpostTakeOp_empty (h : y.tf.coreQ = []) : mpostTakeOp d c y =
    activeMod (fun c => { regPut d 0xFFFFFFFF c with c := false, v := false }) y := by
  simp only [mpostTakeOp, h]

/-- The oldest frame of the queue and its chain pass to the core (R387). -/
theorem mpostTakeOp_takes {b : Nat} {src : Byte} {r : List (Nat × Byte)} {o : Byte} {bs : List Nat}
    (h : y.tf.coreQ = (b, src) :: r) (ho : coreOwner y = o) (hb : chainOf y b = bs) : mpostTakeOp d c y =
      activeMod (fun c => { regPut d (w32 (b % 4096 + src.toNat * 65536)) c with c := true, v := false })
        (chainOwner o bs { y with tf := { y.tf with coreQ := r } }) := by
  subst ho hb
  simp only [mpostTakeOp, h]

end

/-! ### The result code of `MPOST` -/

section
variable {s : State} {bs : List Nat} {dst : Byte}

theorem mpostCode_eq_zero : mpostCode s bs dst = 0 ↔
    ownHeld s < 16 ∧ ownsAll s (coreOwner s) bs = true ∧ chainLen s bs ≤ 1536 ∧
      (1 ≤ dst.toNat ∧ dst.toNat ≤ 63 ∨ dst = 0xFF) := by
  unfold mpostCode
  split_ifs with queue chain dest <;> grind

/-- A refusal gives its first reason: the full queue, the chain, the destination (log 26). -/
theorem mpostCode_word (h : mpostCode s bs dst ≠ 0) : w32 (mpostCode s bs dst) =
    if 16 ≤ ownHeld s then 1 else if ownsAll s (coreOwner s) bs = false ∨ 1536 < chainLen s bs then 2 else 3 := by
  unfold mpostCode at h ⊢
  split_ifs at h ⊢ <;> grind [w32]

theorem mpostCode_atService (t : TaskRun) {k : Cores} (same : SameBut k s.cr) :
    mpostCode (atService t k s) bs dst = mpostCode s bs dst := by
  simp only [mpostCode, ownsAll_atService, chainLen_atService, coreOwner_atService t s same.active]
  rfl

end

/-- The message frame a task posts (R387). -/
def taskFrame (b : Nat) (dst : Byte) : OwnMsg :=
  { shutter := false, buf := some b, body := [], cls := 0, dst := dst, mseq := none, ports := [] }

section
variable {d a : BitVec 5} {c : Core} {y : State} {dst : Byte} {bs : List Nat} (hb : chainOf y (reg c a).toNat = bs)
include hb

theorem mpostSendOp_refused (h : mpostCode y bs dst ≠ 0) :
    mpostSendOp d a dst c y = activeMod (answerCode d (w32 (mpostCode y bs dst)) false) y := by
  subst hb
  simp [mpostSendOp, h]

theorem mpostSendOp_sends (h : mpostCode y bs dst = 0) : mpostSendOp d a dst c y =
    ownAdd (taskFrame (reg c a).toNat dst) (chainOwner 0x3E bs (activeMod (answerCode d 0 true) y)) := by
  subst hb
  simp [mpostSendOp, h, taskFrame, w32]

end

end Sys2Proof.Machine

open Sys2Proof Sys2Proof.Machine

/-- Settles O34: each instruction does at the edge what it does under its conditions; a frame sent while the window is
closed stays in the own queue. -/
theorem windowAndMessageInstructions : Obligations.WindowAndMessageInstructions := by
  refine ⟨?tww, ?tnul, ?twrWord, ?twrHeader, ?twrFrame, ?take, ?takeEmpty, ?send, ?sendRefused⟩
  case tww =>
    intro s c t d a fin w h n im hn hi hr
    exact gives_effect_first (v := fun y => { y with tf := { y.tf with
        win := winPut im.node.wlen.toNat n (reg c d) y.tf.win, ready := if fin then .data else y.tf.ready } })
      rfl rfl h keepsRun_done (fun k _ => twwOp_writes (y := atService t k s) hn.symm hi hr) (fun _ _ => rfl)
      (fun _ _ _ => kicked_tf _ _ _)
  case tnul =>
    intro s c t h
    exact gives_effect_first (v := fun y => { y with tf := { y.tf with ready := .null } }) rfl rfl h keepsRun_done
      (fun _ _ => rfl) (fun _ _ => rfl) (fun _ _ _ => kicked_tf _ _ _)
  case twrWord =>
    intro s c t d a w h x n off j hx hn h0 found hj hr
    exact gives_answered rfl rfl h fun k _ => twrWordOp_answers (y := atService t k s)
      ((ite_visible _ _ _ _).trans hx.symm) hn.symm (snapWindow_eq_some.mpr ⟨h0, found⟩) hj.symm hr
  case twrHeader =>
    intro s c t d a h x n off hx hn h0 found
    exact gives_answered rfl rfl h fun k _ => twrHeaderOp_answers (y := atService t k s)
      ((ite_visible _ _ _ _).trans hx.symm) hn.symm (snapWindow_eq_some.mpr ⟨h0, found⟩)
  case twrFrame =>
    intro s c t d w h x hx
    exact gives_answered rfl rfl h fun k _ =>
      twrFrameOp_answers (y := atService t k s) ((ite_visible _ _ _ _).trans hx.symm)
  case take =>
    intro s c t d h b src r hq
    exact gives_effect_first
      (v := fun y => chainOwner (coreOwner s) (chainOf s b) { y with tf := { y.tf with coreQ := r } })
      rfl rfl h (keepsRun_regPutCV _ _ true false)
      (fun k same => mpostTakeOp_takes (y := atService t k s) hq (coreOwner_atService t s same.active)
        (chainOf_atService t s b))
      (fun _ _ => (chainOwner_fr _ _).cr rfl)
      (fun _ _ _ => ⟨congrArg Tf.coreQ ((kicked_tf _ _ _).trans ((chainOwner_fr _ _).tf rfl)),
        (kicked_pool _ _ _).trans (chainOwner_pool (s := s) _ _ rfl)⟩)
  case takeEmpty =>
    intro s c t d h hq
    exact gives_answer rfl rfl h (keepsRun_regPutCV _ _ false false) fun k _ =>
      mpostTakeOp_empty (y := atService t k s) hq
  case send =>
    intro s c t d a dst bs h hb hq ho hl hd
    have code : mpostCode s bs dst = 0 := mpostCode_eq_zero.mpr ⟨hq, ho, hl, hd⟩
    have sends (k) (same : SameBut k s.cr) := mpostSendOp_sends (d := d) (y := atService t k s)
      ((chainOf_atService t s _).trans hb.symm) ((mpostCode_atService t same).trans code)
    refine gives_service rfl rfl h (keepsRun_answerCode d 0 true) (fun k same m core => ?_) (fun k l same => ?_)
    · rw [sends k same, active_cr (mpost_tail _ _ _ _).1, active_mod _ _ m core]
    · rw [sends k same]
      obtain ⟨-, pool, own⟩ := mpost_tail (taskFrame (reg c a).toNat dst) bs (atService t k s) (answerCode d 0 true)
      rw [kicked_pool, kicked_tf, pool]
      exact ⟨chainOwner_pool (s := s) _ _ rfl, own⟩
  case sendRefused =>
    intro s c t d a dst bs h hb hr
    have code : mpostCode s bs dst ≠ 0 := by
      rw [Ne, mpostCode_eq_zero]
      rintro ⟨hq, ho, hl, hd⟩
      rcases hr with hr | hr | hr | hr
      · exact absurd hr (Nat.not_le.mpr hq)
      · simp [ho] at hr
      · exact absurd hr (Nat.not_lt.mpr hl)
      · exact hr hd
    refine (gives_effect (v := id) (P := fun u => u.pool = s.pool ∧ u.tf = s.tf) rfl rfl h
      (keepsRun_answerCode d (w32 (mpostCode s bs dst)) false) (fun k same => ?_) (fun _ => rfl)
      (fun _ _ _ => ⟨kicked_pool _ _ _, kicked_tf _ _ _⟩)).imp fun u ⟨core, rest⟩ =>
        ⟨core.trans (congrArg (fun w => some (stepped 4 t (answerCode d w false c))) (mpostCode_word code)), rest⟩
    rw [← mpostCode_atService t same] at code ⊢
    exact mpostSendOp_refused (y := atService t k s) ((chainOf_atService t s _).trans hb.symm) code

end

section
/-! The vehicle network instructions (13): `VSND` at the slot buffers and the dynamic queue, `VRCV` at the publication
and the queue of the cores. -/

namespace Sys2Proof.Machine

/-! ### What each does under its conditions -/

section
variable {d a : BitVec 5} {c : Core} {y : State}

section
variable {slot : BitVec 6} {st : Star} (hs : y.star = some st) (ho : slotOwner st slot.toNat = 0x0C)
include hs ho

theorem vsndWordOp_writes (hr : 4 * ((reg c a).toNat % 256) < lStatic st - 34) : vsndWordOp d a slot c y =
    activeMod done_
      (slotMod slot.toNat (slotPut (4 * ((reg c a).toNat % 256)) (beBytes 4 (reg c d).toNat)) y) := by
  simp only [vsndWordOp, ownSlotRoom_eq_some.mpr ⟨st, hs, ho, rfl⟩]
  exact if_neg (Nat.not_le.mpr hr)

theorem vsndCompleteOp_completes (hr : (reg c d).toNat % 2048 ≤ lStatic st - 34) : vsndCompleteOp d a slot c y =
    activeMod done_
      (slotMod slot.toNat (fun x => { x with done := some ((reg c d).toNat % 2048, (reg c a).getLsbD 0) }) y) := by
  simp only [vsndCompleteOp, ownSlotRoom_eq_some.mpr ⟨st, hs, ho, rfl⟩]
  exact if_neg (Nat.not_lt.mpr hr)

end

/-- A node-owned ID, a chain of the party's that fits and a queue with room: the frame is taken (R385). -/
theorem dynFault_false {st : Star} {i : DynId} {party : Byte} {bs : List Nat} {id n : Nat} (hs : y.star = some st)
    (hi : dynId st id = some i) (ho : i.owner = 0x0C) (hb : ownsAll y party bs = true) (hl : n + 34 ≤ i.maxLen)
    (hq : dynHeld y id < 8) : dynFault y party bs id n = false := by
  simp [dynFault, hs, hi, ho, hb, hl, hq]

theorem vsndDynamicOp_posts (h : dynFault y (coreOwner y) (chainOf y (reg c a).toNat) ((reg c d).toNat % 512)
    (chainLen y (chainOf y (reg c a).toNat)) = false) : vsndDynamicOp d a c y =
    activeMod (fun c => { c with c := true, v := false })
      (dynPost ((reg c d).toNat % 512) (reg c a).toNat false y) :=
  if_neg (by simp [h])

section
variable {slot : BitVec 6} {st : Star} {p : Publication} {x : PubSlot} (hs : y.star = some st) (hk : slot.toNat < st.nS)
  (hp : pubSeen y = p) (hx : p.slots.getD slot.toNat {} = x)
include hs hk hp hx

theorem vrcvWordOp_answers (hr : 4 * ((reg c a).toNat % 256) < x.body.length) : vrcvWordOp d a slot c y =
    drawn (activeMod (answer d [bodyWord y.free ((reg c a).toNat % 256) x.body]
      (p.valid && decide (x.status = 0))) y) := by
  subst hp
  simp only [vrcvWordOp, pubSlot_eq_some.mpr ⟨st, hs, hk, hx⟩]
  exact if_neg (Nat.not_le.mpr hr)

theorem vrcvStatusOp_answers : vrcvStatusOp d slot c y =
    activeMod (answer d [pubWord x, p.cyc.setWidth 32] (p.valid && decide (x.status = 0))) y := by
  subst hp
  simp only [vrcvStatusOp, pubSlot_eq_some.mpr ⟨st, hs, hk, hx⟩, pubData]

end

theorem vrcvDynamicOp_empty (h : y.vn.coreQ = []) : vrcvDynamicOp d c y =
    activeMod (fun c => { regPut d 0xFFFFFFFF c with c := false, v := false }) y := by
  simp only [vrcvDynamicOp, h]

/-- The oldest frame of the queue and its chain pass to the core (R387). -/
theorem vrcvDynamicOp_takes {id b : Nat} {r : List (Nat × Nat)} {o : Byte} {bs : List Nat}
    (h : y.vn.coreQ = (id, b) :: r) (ho : coreOwner y = o) (hb : chainOf y b = bs) : vrcvDynamicOp d c y =
      activeMod (fun c => { regPut d (w32 (b % 4096 + id % 512 * 65536)) c with c := true, v := false })
        (chainOwner o bs { y with vn := { y.vn with coreQ := r } }) := by
  subst ho hb
  simp only [vrcvDynamicOp, h]

end

/-! ### A dynamic frame posted -/

section
variable (id b : Nat) (shutter : Bool) (y : State)

theorem dynPost_cr : (dynPost id b shutter y).cr = y.cr := (chainOwner_fr _ _).cr rfl

theorem dynPost_pool : (dynPost id b shutter y).pool = (chainOwner 0x3D (chainOf y b) y).pool := rfl

theorem dynPost_dynQ : (dynPost id b shutter y).vn.dynQ = y.vn.dynQ ++ [⟨id, b, shutter⟩] :=
  congrArg (fun vn : Vn => vn.dynQ ++ [⟨id, b, shutter⟩]) ((chainOwner_fr _ _).vn rfl)

end

end Sys2Proof.Machine

open Sys2Proof Sys2Proof.Machine

/-- Settles O35: each instruction does at the edge what it does under its conditions, with the publication visible
then. -/
theorem vehicleInstructions : Obligations.VehicleInstructions := by
  refine ⟨?word, ?complete, ?dynamic, ?rcvWord, ?rcvStatus, ?take, ?takeEmpty⟩
  case word =>
    intro s c t d a slot h st hs ho hr
    exact gives_effect_first (v := slotMod slot.toNat _) rfl rfl h keepsRun_done
      (fun k _ => vsndWordOp_writes (y := atService t k s) hs ho hr) (fun _ _ => rfl)
      (fun _ _ _ => congrArg Vn.txBuf (kicked_vn _ _ _))
  case complete =>
    intro s c t d a slot h st hs ho hr
    exact gives_effect_first (v := slotMod slot.toNat _) rfl rfl h keepsRun_done
      (fun k _ => vsndCompleteOp_completes (y := atService t k s) hs ho hr) (fun _ _ => rfl)
      (fun _ _ _ => congrArg Vn.txBuf (kicked_vn _ _ _))
  case dynamic =>
    intro s c t d a h st i bs hs hi ho hb hown hl hq
    subst hb
    have fits := dynFault_false hs hi ho hown hl hq
    refine gives_effect_first (v := dynPost ((reg c d).toNat % 512) (reg c a).toNat false) rfl rfl h
      (keepsRun_setCV true false) (fun k same => vsndDynamicOp_posts (y := atService t k s) ?_)
      (fun _ _ => dynPost_cr _ _ _ _) (fun k l _ => ⟨?_, ?_⟩)
    · simpa [coreOwner_atService t s same.active] using fits
    · exact (congrArg Vn.dynQ (kicked_vn _ _ _)).trans (dynPost_dynQ _ _ _ (atService t k s))
    · rw [kicked_pool, dynPost_pool, chainOf_atService]
      exact chainOwner_pool (s := s) _ _ rfl
  case rcvWord =>
    intro s c t d a slot h st p x hs hk hp hx hr
    exact gives_effect (v := drawn) rfl rfl h (keepsRun_answer _ _ _)
      (fun k _ => vrcvWordOp_answers (y := atService t k s) hs hk ((ite_visible _ _ _ _).trans hp.symm) hx.symm hr)
      (fun _ => rfl) (fun _ _ _ => trivial)
  case rcvStatus =>
    intro s c t d slot h h1 h2 st p x hs hk hp hx
    exact gives_answered rfl (groupOk_of h1 h2) h fun k _ =>
      vrcvStatusOp_answers (y := atService t k s) hs hk ((ite_visible _ _ _ _).trans hp.symm) hx.symm
  case take =>
    intro s c t d h id b r hq
    exact gives_effect_first
      (v := fun y => chainOwner (coreOwner s) (chainOf s b) { y with vn := { y.vn with coreQ := r } })
      rfl rfl h (keepsRun_regPutCV _ _ true false)
      (fun k same => vrcvDynamicOp_takes (y := atService t k s) hq (coreOwner_atService t s same.active)
        (chainOf_atService t s b))
      (fun _ _ => (chainOwner_fr _ _).cr rfl)
      (fun _ _ _ => ⟨congrArg Vn.coreQ ((kicked_vn _ _ _).trans ((chainOwner_fr _ _).vn rfl)),
        (kicked_pool _ _ _).trans (chainOwner_pool (s := s) _ _ rfl)⟩)
  case takeEmpty =>
    intro s c t d h hq
    exact gives_answer rfl rfl h (keepsRun_regPutCV _ _ false false) fun k _ =>
      vrcvDynamicOp_empty (y := atService t k s) hq

end

section
/-! The functions of `SYSR` that answer words of the node (13, Table 13.12). -/

namespace Sys2Proof.Machine

/-! ### What each does under its conditions -/

section
variable {d a : BitVec 5} {c : Core} {y : State}

/-- A complete copy answers its sequence number and cycle; without one both words are free (log 5). -/
theorem chkpStatOp_answers {i : Nat} {x : ChkCopy} (h : chkLatest y = some (i, x)) :
    chkpStatOp d c y = activeMod (answer d [x.seq, w32 (2 ^ 31 + x.cyc.toNat)] true) y := by
  simp only [chkpStatOp, h]

theorem chkpStatOp_free (h : chkLatest y = none) : chkpStatOp d c y =
    drawn (activeMod (answer d [y.freeWord, w32 (y.freeWord.toNat % 65536)] true) y) := by
  simp only [chkpStatOp, h]

theorem benchResOp_answers {r : BenchReq}
    (h : (y.bn.results.take 16).find? (fun r => r.ticket = (reg c a).toNat % 16) = some r) :
    benchResOp d a c y = activeMod (answer d [w32 (r.status + 16 * r.kind + 256 * r.obj), r.detail] true) y := by
  simp only [benchResOp, h]

end

section
variable (t : TaskRun) {k : Cores} (s : State) (same : SameBut k s.cr)
include same

theorem nodeWord_atService : nodeWord (atService t k s) = nodeWord s := by
  have active : (atService t k s).cr.active = s.cr.active := same.active
  unfold nodeWord
  rw [active]
  rfl

theorem chkLatest_atService : chkLatest (atService t k s) = chkLatest s := by
  have chk : (atService t k s).cr.chk = s.cr.chk := same.chk
  unfold chkLatest
  rw [chk]
  rfl

end

end Sys2Proof.Machine

open Sys2Proof Sys2Proof.Machine

/-- Settles O37: each function answers the words of the state at the edge; where the cores' part enters, it enters by
what the instruction leaves of it. -/
theorem systemFunctions : Obligations.SystemFunctions := by
  refine ⟨?cyc, ?tick, ?tt, ?node, ?ordflag, ?awake, ?chkpStat, ?chkpStatNone, ?benchRes⟩
  case cyc =>
    intro s c t d h
    exact gives_answered rfl rfl h fun _ _ => rfl
  case tick =>
    intro s c t d h
    exact gives_answered rfl rfl h fun _ _ => rfl
  case tt =>
    intro s c t d h h1 h2
    exact gives_answered rfl (groupOk_of h1 h2) h fun _ _ => rfl
  case node =>
    intro s c t d h
    exact gives_answered rfl rfl h fun k same =>
      congrArg (fun w => activeMod (answer d [w] true) (atService t k s)) (nodeWord_atService t s same)
  case ordflag =>
    intro s c t d h
    exact gives_answered rfl rfl h fun k same =>
      congrArg (fun w => activeMod (answer d [w] true) (atService t k s)) same.ordFlag
  case awake =>
    intro s c t d a h
    exact gives_effect_first (v := fun y => { y with tf := { y.tf with taskAwake := (reg c a).getLsbD 0 } })
      rfl rfl h (keepsRun_answer _ _ _) (fun _ _ => rfl) (fun _ _ => rfl) (fun _ _ _ => kicked_tf _ _ _)
  case chkpStat =>
    intro s c t d h h1 h2 i x hx
    exact gives_answered rfl (groupOk_of h1 h2) h fun k same =>
      chkpStatOp_answers (y := atService t k s) ((chkLatest_atService t s same).trans hx)
  case chkpStatNone =>
    intro s c t d h h1 h2 hx
    exact gives_effect (v := drawn) rfl (groupOk_of h1 h2) h (keepsRun_answer _ _ _)
      (fun k same => chkpStatOp_free (y := atService t k s) ((chkLatest_atService t s same).trans hx))
      (fun _ => rfl) (fun _ _ _ => trivial)
  case benchRes =>
    intro s c t d a h h1 h2 r hr
    exact gives_answered rfl (groupOk_of h1 h2) h fun k _ =>
      benchResOp_answers (y := atService t k s) hr

end

section
/-! The equipment functions of `SYSR` (13, Table 13.12): a chain posted to a transmit queue, one taken from a receive
queue, a transmit time stamp taken. -/

namespace Sys2Proof.Machine

/-! ### A post to a port that sends -/

section
variable {n : Nat} {y : State}

/-- A port that sends a frame starts no other one (R272). -/
theorem eqStart_sending (h : (y.eqp n).tx.isSome = true) : eqStart n y = y := if_pos (by simp [h])

/-- A chain of a party joins a queue of a port. -/
def queuedChain (b : Nat) (bs : List Nat) (n q : Nat) (y : State) : State :=
  eqMod n (fun p => { p with queues := p.queues.modify q (· ++ [b]) }) (chainOwner (queueOwner n q) bs y)

section
variable (b : Nat) (bs : List Nat) (q : Nat)

theorem queuedChain_cr (y : State) : (queuedChain b bs n q y).cr = y.cr := (chainOwner_fr _ _).cr rfl

theorem queuedChain_eqp (hn : n < y.eq.length) : (queuedChain b bs n q y).eqp n =
    { y.eqp n with queues := (y.eqp n).queues.modify q (· ++ [b]) } := by
  have eq : (chainOwner (queueOwner n q) bs y).eq = y.eq := (chainOwner_fr _ _).eq rfl
  rw [queuedChain, eqMod_eqp_self _ (eq ▸ hn), eqp_of eq]

end

theorem postChain_queued {b q : Nat} {party : Byte} {bs : List Nat} (hb : chainOf y b = bs)
    (hf : postFault y party bs n q = 0) (ht : (y.eqp n).tx.isSome = true) (hn : n < y.eq.length) :
    postChain b party n q y = (queuedChain b bs n q y, 0) := by
  subst hb
  have sending : ((queuedChain b (chainOf y b) n q y).eqp n).tx.isSome = true := by
    rw [queuedChain_eqp _ _ _ hn]
    exact ht
  exact (if_neg (by simp [hf])).trans (congrArg (·, 0) (eqStart_sending sending))

theorem postChain_refused {b q j : Nat} {party : Byte} {bs : List Nat} (hb : chainOf y b = bs)
    (hf : postFault y party bs n q = j) (hj : j ≠ 0) :
    postChain b party n q y = (raise 0x4008 n [w32 n, w32 q, w32 j] y, j) := by
  subst hb hf
  exact if_pos hj

theorem postFault_atService (t : TaskRun) {k : Cores} {s : State} (same : SameBut k s.cr) (bs : List Nat) (q : Nat) :
    postFault (atService t k s) (coreOwner (atService t k s)) bs n q = postFault s (coreOwner s) bs n q := by
  rw [coreOwner_atService t s same.active]
  exact postFault_of s (atService t k s) rfl rfl rfl _ _ _ _

end

/-! ### What each does under its conditions -/

section
variable {d a b : BitVec 5} {c : Core} {y : State} {n : Nat} (hn : (reg c b).toNat % 4 = n)
include hn

theorem eqPostOp_answers {q j : Nat} {z : State} (hq : (reg c b).toNat / 256 % 8 = q)
    (hp : postChain (reg c a).toNat (coreOwner y) n q y = (z, j)) :
    eqPostOp d a b c y = activeMod (fun c => { answer d [w32 j] (j = 0) c with v := j ≠ 0 }) z := by
  subst hn hq
  simp only [eqPostOp, hp]

theorem eqTakeOp_empty (h : (y.eqp n).coreQ = []) :
    eqTakeOp d b c y = activeMod (answer d [0xFFFFFFFF] false) y := by
  subst hn
  simp only [eqTakeOp, h]

/-- The oldest chain of the queue passes to the core (R391). -/
theorem eqTakeOp_takes {x : Nat} {r bs : List Nat} {o : Byte} (h : (y.eqp n).coreQ = x :: r) (ho : coreOwner y = o)
    (hb : chainOf y x = bs) : eqTakeOp d b c y =
      activeMod (answer d [w32 x] true) (chainOwner o bs (eqMod n (fun p => { p with coreQ := r }) y)) := by
  subst hn ho hb
  simp only [eqTakeOp, h]

theorem eqTxtsOp_empty (h : (y.eqp n).stamps = []) :
    eqTxtsOp d b c y = activeMod (answer d [0, 0, 0] false) y := by
  subst hn
  simp only [eqTxtsOp, h]

theorem eqTxtsOp_takes {x : Half} {w : DWord} {r : List (Half × DWord)} (h : (y.eqp n).stamps = (x, w) :: r) :
    eqTxtsOp d b c y = stampPop n (activeMod (answer d (w32 (2 ^ 31 + x.toNat) :: words64 w) true) y) := by
  subst hn
  simp only [eqTxtsOp, h]

end

end Sys2Proof.Machine

open Sys2Proof Sys2Proof.Machine

/-- Settles O39: each function does at the edge what it does under its conditions; a post to a port that sends stays in
its queue. -/
theorem equipmentFunctions : Obligations.EquipmentFunctions := by
  refine ⟨?post, ?postRefused, ?take, ?stamp⟩
  case post =>
    intro s c t d a b n q bs h hn hq hb hf ht hlen
    have posted (k) (same : SameBut k s.cr) := eqPostOp_answers (d := d) (y := atService t k s) hn.symm hq.symm
      (postChain_queued ((chainOf_atService t s _).trans hb.symm) ((postFault_atService t same bs q).trans hf) ht hlen)
    exact gives_effect_first (v := queuedChain (reg c a).toNat bs n q) rfl rfl h (keepsRun_answer d [0] true)
      (fun k same => posted k same) (fun k _ => queuedChain_cr _ _ _ (atService t k s))
      (fun k _ _ => ⟨(congrArg EqPort.queues (eqp_of (kicked_eq _ _ _) n)).trans
          (congrArg EqPort.queues (queuedChain_eqp _ bs q (y := atService t k s) hlen)),
        (kicked_pool _ _ _).trans (chainOwner_pool (s := s) _ _ rfl)⟩)
  case postRefused =>
    intro s c t d a b n q bs j h hn hq hb hf hj
    refine gives_effect_first (v := raise 0x4008 n [w32 n, w32 q, w32 j]) rfl rfl h
      (keepsRun_answerV d [w32 j] false true) (fun k same => ?_) (fun _ _ => raise_cr _ _ _ _)
      (fun k _ _ => ⟨(kicked_eq _ _ _).trans (raise_eq _ _ _ _), (kicked_pool _ _ _).trans (raise_pool _ _ _ _),
        kick_occurred (Occurred.mono (EvsIn.of_gr rfl) (raise_occurred _ _ _ (atService t k s)))⟩)
    have refused := eqPostOp_answers (d := d) (y := atService t k s) hn.symm hq.symm
      (postChain_refused ((chainOf_atService t s _).trans hb.symm) ((postFault_atService t same bs q).trans hf) hj)
    simpa [hj] using refused
  case take =>
    intro s c t d b n h hn hlen
    refine ⟨fun hq => ?_, fun x r hq => ?_⟩
    · exact (gives_answered rfl rfl h fun k _ =>
        eqTakeOp_empty (y := atService t k s) hn.symm hq).imp fun _ hu => hu.1
    · exact gives_effect_first
        (v := fun y => chainOwner (coreOwner s) (chainOf s x) (eqMod n (fun p => { p with coreQ := r }) y))
        rfl rfl h (keepsRun_answer _ _ _)
        (fun k same => eqTakeOp_takes (y := atService t k s) hn.symm hq (coreOwner_atService t s same.active)
          (chainOf_atService t s x))
        (fun _ _ => (chainOwner_fr _ _).cr rfl)
        (fun k _ _ => ⟨congrArg EqPort.coreQ ((eqp_of ((kicked_eq _ _ _).trans ((chainOwner_fr _ _).eq rfl)) n).trans
            (eqMod_eqp_self (s := atService t k s) _ hlen)),
          (kicked_pool _ _ _).trans (chainOwner_pool (s := s) _ _ rfl)⟩)
  case stamp =>
    intro s c t d b n h h1 h2 hn hlen
    refine ⟨fun hq => ?_, fun x w r hq => ?_⟩
    · exact (gives_answered rfl (groupOk_of h1 h2) h fun k _ =>
        eqTxtsOp_empty (y := atService t k s) hn.symm hq).imp fun _ hu => hu.1
    · refine gives_effect (v := stampPop n) rfl (groupOk_of h1 h2) h (keepsRun_answer _ _ _)
        (fun k _ => eqTxtsOp_takes (y := atService t k s) hn.symm hq) (fun _ => rfl) (fun k _ _ => ?_)
      rw [eqp_of (kicked_eq _ _ _), stampPop_stamps (s := atService t k s) hlen]
      exact congrArg (List.drop 1) hq

end

section
/-! The buffer and system instructions (13): `BALLOC` and `BFREE` at the pool, `GATE`, `LOGE`, `BENCH` and `CHKP`. -/

namespace Sys2Proof.Machine

/-! ### What each does under its conditions -/

section
variable {d a : BitVec 5} {c : Core} {y : State}

/-- The first of the buffers allocated is the longest free one (R388). -/
theorem ballocOp_allocates {n : Nat} {o : Byte} (ho : coreOwner y = o) (h1 : 1 ≤ n) (hn : n ≤ y.pool.free.length) :
    ballocOp d n c y = activeMod (answerCode d (w32 (y.pool.free.headD 0)) true) (poolAlloc n o 0 y).1 := by
  subst ho
  have head : (poolAlloc n (coreOwner y) 0 y).2.head? = some (y.pool.free.headD 0) := by
    rw [poolAlloc_ok n _ _ y hn]
    cases free : y.pool.free with
    | nil => simp [free] at hn; omega
    | cons b r =>
      obtain ⟨m, rfl⟩ := Nat.exists_eq_add_of_le' h1
      simp
  simp only [ballocOp, head]

theorem ballocOp_empty {n : Nat} (hn : y.pool.free.length < n) :
    ballocOp d n c y = activeMod (answerCode d 0xFFFFFFFF false) (poolEmpty y) := by
  have empty (o : Byte) : poolAlloc n o 0 y = (poolEmpty y, []) := if_pos hn
  simp only [ballocOp, empty, List.head?_nil]

theorem freeChain_frees {b : Nat} {o : Byte} {bs : List Nat} (hb : chainOf y b = bs) (hf : freeFault y o bs = none) :
    freeChain b o y = (chainFree bs y, 0) := by
  subst hb
  simp only [freeChain, hf]

theorem bfreeOp_answers {o : Byte} {j : Nat} (ho : coreOwner y = o) (h : (freeChain (reg c a).toNat o y).2 = j) :
    bfreeOp d a c y = activeMod (answerCode d (w32 j) (j = 0)) (freeChain (reg c a).toNat o y).1 := by
  subst ho h
  rfl

theorem gateOp_asks (h : (reg c a).toNat % 4 ≠ 3) : gateOp a c y =
    activeMod done_ { y with sh := { y.sh with gate := some ((reg c a).toNat % 4) } } := if_neg h

/-- An accepted request waits under the next ticket (R363). -/
theorem benchAsk_queue {task repair : Bool} {kind obj : Nat} (h : benchJudge y task kind obj = none) :
    (benchAsk task repair kind obj y).1.bn.queue = y.bn.queue ++
      [⟨benchTicket y.bn 16 y.bn.next, kind, obj, if y.image.isNone then 1 else 0, 0, repair, false⟩] := by
  unfold benchAsk
  rw [h]
  dsimp only
  split <;> simp

theorem benchOp_asks {kind : BitVec 4} (hk : kind ≠ 5) (hn : y.bn.next < 16)
    (h : benchJudge y true kind.toNat ((reg c a).toNat % 256) = none) : benchOp d a kind c y =
      activeMod (answerCode d (w32 (benchTicket y.bn 16 y.bn.next)) true)
        (benchAsk true false kind.toNat ((reg c a).toNat % 256) y).1 := by
  have ticket : (benchAsk true false kind.toNat ((reg c a).toNat % 256) y).2 = w32 (benchTicket y.bn 16 y.bn.next) := by
    simp only [benchAsk, h]
  have low : (w32 (benchTicket y.bn 16 y.bn.next)).msb = false := by
    have small := benchTicket_lt y.bn 16 _ hn
    rw [BitVec.msb_eq_decide, w32_toNat _ (by omega)]
    simp
    omega
  simp only [benchOp, if_neg hk, ticket, low, Bool.not_false]

theorem chkAsk_eq_zero (hp : y.nv.chkPending = false) (hx : (chkLatest y).isSome = true) : chkAsk y = 0 := by
  simp [chkAsk, hp, Option.isNone_eq_false_iff.mpr hx]

theorem chkAsk_refused (h : y.nv.chkPending = true ∨ chkLatest y = none) :
    chkAsk y = if y.nv.chkPending then 1 else 2 := by
  unfold chkAsk
  split
  · rfl
  · next hp => simp [h.resolve_left hp]

/-- A save of the checkpoint waits for the NV controller (R389). -/
def savePending (y : State) : State := { y with nv := { y.nv with chkPending := true } }

theorem chkpOp_saves (h : chkAsk y = 0) : chkpOp d c y = savePending (activeMod (answerCode d 0 true) y) := by
  simp [chkpOp, h, w32, savePending]

theorem chkpOp_refused {j : Nat} (h : chkAsk y = j) (hj : j ≠ 0) : chkpOp d c y =
    refusedEvent 0x3B (Config.eventItem 0x8041 0x3B) (activeMod (answerCode d (w32 j) false) y) := by
  simp [chkpOp, h, hj]

end

/-! ### What an allocation and a record leave -/

theorem poolEmpty_cr (y : State) : (poolEmpty y).cr = y.cr := raise_cr _ _ _ _

theorem poolEmpty_free (y : State) : (poolEmpty y).pool.free = y.pool.free :=
  (congrArg Pool.free (raise_pool 0x4013 noInst [] y) :)

theorem poolEmpty_occurred (y : State) : Occurred 0x4013 0xFF (poolEmpty y) :=
  Occurred.mono (s := raise 0x4013 noInst [] y) (EvsIn.of_gr rfl) (raise_occurred _ _ _ _)

theorem raiseTo_occurred (l : EvLogs) (c i : Nat) (d : List Word) (y : State) :
    Occurred c i (raiseTo l (BitVec.ofNat 16 c) (BitVec.ofNat 8 i) d y) :=
  raiseTo_note _ _ _ _ _ _ (noteEvent_mem _ _ _)

/-- While an operation runs the NV controller takes no other one (R412). -/
theorem nvKick_busy {y : State} (h : y.nv.op ≠ none) : nvKick y = y := if_neg (by simp [h])

theorem kicked_nv {y : State} (l : Cores) (p : List Instr) (h : y.nv.op ≠ none) :
    { nvKick { y with cr := l } with pending := p }.nv = y.nv :=
  (congrArg State.nv (nvKick_busy (y := { y with cr := l }) h) :)

/-- `LOGE` numbers its events from 0xA000 on (R389). -/
theorem logeCode (code : BitVec 12) : BitVec.ofNat 16 (0xA000 + code.toNat) = 0xA000 + code.setWidth 16 := by
  rw [BitVec.ofNat_add, BitVec.ofNat_toNat]
  rfl

theorem freeFault_atService (t : TaskRun) {k : Cores} (s : State) (o : Byte) (bs : List Nat) :
    freeFault (atService t k s) o bs = freeFault s o bs := freeFault_of s (atService t k s) rfl rfl o bs

theorem chkAsk_atService (t : TaskRun) {k : Cores} (s : State) (same : SameBut k s.cr) :
    chkAsk (atService t k s) = chkAsk s := by
  unfold chkAsk
  rw [chkLatest_atService t s same]
  rfl

end Sys2Proof.Machine

open Sys2Proof Sys2Proof.Machine

/-- Settles O36: each instruction does at the edge what it does under its conditions, and answers the code of its
case. -/
theorem bufferAndSystemInstructions : Obligations.BufferAndSystemInstructions := by
  refine ⟨?balloc, ?gate, ?bfree, ?loge, ?bench, ?chkp⟩
  case balloc =>
    intro s c t d n h h1 h8
    have form : (decide (1 ≤ n.toNat) && decide (n.toNat ≤ 8)) = true := by simp [h1, h8]
    refine ⟨fun hn => ?_, fun hn => ?_⟩
    · exact gives_effect_first (v := fun y => (poolAlloc n.toNat (coreOwner s) 0 y).1) rfl form h
        (keepsRun_answerCode d _ true)
        (fun k same => ballocOp_allocates (y := atService t k s) (coreOwner_atService t s same.active) h1 hn)
        (fun _ _ => (poolAlloc_fr _ _ _).cr rfl)
        (fun k _ _ => (congrArg Pool.free (kicked_pool _ _ _)).trans (poolAlloc_free _ _ _ (atService t k s) hn))
    · exact gives_effect_first (v := poolEmpty) rfl form h (keepsRun_answerCode d _ false)
        (fun k _ => ballocOp_empty (y := atService t k s) hn) (fun _ _ => poolEmpty_cr _)
        (fun k _ _ => ⟨(congrArg Pool.free (kicked_pool _ _ _)).trans (poolEmpty_free (atService t k s)),
          kick_occurred (Occurred.mono (EvsIn.of_gr rfl) (poolEmpty_occurred (atService t k s)))⟩)
  case gate =>
    intro s c t a h hr
    exact gives_effect_first
      (v := fun y => { y with sh := { y.sh with gate := some ((reg c a).toNat % 4) } }) rfl rfl h keepsRun_done
      (fun k _ => gateOp_asks (y := atService t k s) hr) (fun _ _ => rfl) (fun _ _ _ => kicked_sh _ _ _)
  case bfree =>
    intro s c t d a bs h hb
    refine ⟨fun hf => ?_, fun j x hf hj _ => ?_⟩
    · have freed (k) :
          freeChain (reg c a).toNat (coreOwner s) (atService t k s) = (chainFree bs (atService t k s), 0) :=
        freeChain_frees ((chainOf_atService t s _).trans hb.symm) ((freeFault_atService t s _ _).trans hf)
      refine gives_effect_first (v := chainFree bs) rfl rfl h (keepsRun_answerCode d 0 true) (fun k same => ?_)
        (fun _ _ => (chainFree_fr _).cr rfl)
        (fun k _ _ => (congrArg Pool.free (kicked_pool _ _ _)).trans (chainFree_free bs (atService t k s)))
      have answers := bfreeOp_answers (d := d) (y := atService t k s) (coreOwner_atService t s same.active)
        (congrArg Prod.snd (freed k))
      rwa [freed k] at answers
    · have bad (k) := freeChain_bad (atService t k s) (reg c a).toNat (coreOwner s) j x
        (by rw [chainOf_atService, freeFault_atService, ← hb, hf])
      refine gives_effect_first (v := fun y => (freeChain (reg c a).toNat (coreOwner s) y).1) rfl rfl h
        (keepsRun_answerCode d (w32 j) false) (fun k same => ?_) (fun k _ => (bad k).2.1) (fun k l _ => ?_)
      · have answers := bfreeOp_answers (d := d) (y := atService t k s) (coreOwner_atService t s same.active) (bad k).1
        rwa [decide_eq_false (Nat.one_le_iff_ne_zero.mp hj)] at answers
      · obtain ⟨-, -, free, occurred⟩ := bad k
        exact ⟨(congrArg Pool.free (kicked_pool _ _ _)).trans free,
          kick_occurred (Occurred.mono (EvsIn.of_gr rfl) occurred)⟩
  case loge =>
    intro s c t d a inc code h
    refine gives_effect_first
      (v := raiseTo ⟨true, inc, true⟩ (0xA000 + code.setWidth 16) ((reg c a).setWidth 8) [reg c d]) rfl rfl h
      (keepsRun_setCV _ false) (fun _ _ => rfl) (fun _ _ => raiseTo_cr _ _ _ _ _) (fun k l _ => ?_)
    have occurred := raiseTo_occurred ⟨true, inc, true⟩ (0xA000 + code.toNat) (reg c a).toNat [reg c d]
      (atService t k s)
    rw [logeCode, BitVec.ofNat_toNat] at occurred
    exact kick_occurred (Occurred.mono (EvsIn.of_gr rfl) occurred)
  case bench =>
    intro s c t d a kind h hn hk hj
    exact gives_effect_first (v := fun y => (benchAsk true false kind.toNat ((reg c a).toNat % 256) y).1) rfl rfl h
      (keepsRun_answerCode d _ true)
      (fun k same => benchOp_asks (y := atService t k s) hk hn ((benchJudge_atService t s same _ _ _).trans hj))
      (fun _ _ => benchAsk_cr _ _ _ _ _)
      (fun k _ same => (congrArg Bench.queue (kicked_bn _ _ _)).trans
        (benchAsk_queue (y := atService t k s) ((benchJudge_atService t s same _ _ _).trans hj)))
  case chkp =>
    intro s c t d h
    refine ⟨fun hp hx => ?_, fun hr => ?_⟩
    · exact gives_effect (v := savePending) rfl rfl h (keepsRun_answerCode d 0 true)
        (fun k same => chkpOp_saves (y := atService t k s) ((chkAsk_atService t s same).trans (chkAsk_eq_zero hp hx)))
        (fun _ => rfl)
        (fun k l _ busy => congrArg Nv.chkPending (kicked_nv (y := savePending (atService t k s)) l s.pending busy))
    · have code := chkAsk_refused hr
      have word : w32 (chkAsk s) = if s.nv.chkPending then 1 else 2 := by
        rw [code]
        split <;> rfl
      have refused : chkAsk s ≠ 0 := by
        rw [code]
        split <;> decide
      rw [← word]
      exact gives_effect (v := refusedEvent 0x3B (Config.eventItem 0x8041 0x3B)) rfl rfl h
        (keepsRun_answerCode d _ false)
        (fun k same => chkpOp_refused (y := atService t k s) (chkAsk_atService t s same) refused)
        (fun _ => raise_cr _ _ _ _)
        (fun k _ _ => kick_occurred (Occurred.mono (EvsIn.of_gr rfl) (raise_occurred _ _ _ (atService t k s))))

end

section
/-! The commands of the execution queue where they take effect (16): what each does, and that it is `DONE`. -/

namespace Sys2Proof.Machine

/-! ### The meaning of each command -/

section
variable {c : QCmd} (s : State)

theorem cmdRun_inaug (h : c.ent.code = 0x01) : cmdRun c s = cmdDone c 0 0 (startOwn 0x04 s) := by
  simp [cmdRun, h]

theorem cmdRun_nodeReset (h : c.ent.code = 0x02) :
    cmdRun c s = cmdDone c 0 0 { s with pwr := { s.pwr with resetNow := true } } := by
  simp [cmdRun, h]

theorem cmdRun_sleepReq (h : c.ent.code = 0x03) :
    cmdRun c s = cmdDone c 0 0 { s with tf := { s.tf with hostHold := false } } := by
  simp [cmdRun, h]

theorem cmdRun_wakeReq (h : c.ent.code = 0x04) :
    cmdRun c s = cmdDone c 0 0 { s with tf := { s.tf with hostHold := true } } := by
  simp [cmdRun, h]

theorem cmdRun_shutterSet (h : c.ent.code = 0x05) :
    cmdRun c s = cmdDone c 0 0 (shCommand (c.ent.args.getD 0 0).toNat 1 s) := by
  simp [cmdRun, h]

theorem cmdRun_jrnMark (h : c.ent.code = 0x0A) : cmdRun c s = cmdDone c 0 0 s := by
  simp [cmdRun, h]

/-- Action 1 of `CH_FORCE` forces a channel (R343). -/
theorem cmdRun_chForce {n : Nat} (h : c.ent.code = 0x06) (hn : n < 32) (ha : (c.ent.args.getD 0 0).toNat = 0x100 + n) :
    cmdRun c s =
      cmdDone c 0 0 (forceStart n (c.ent.args.getD 1 0).toNat (c.ent.args.getD 2 0).toNat s) := by
  rw [cmdRun_force c s h, ha, if_pos (by omega), show (0x100 + n) % 256 = n by omega]

/-- Action 0 of `CH_FORCE` releases it (R344). -/
theorem cmdRun_chRelease {n : Nat} (h : c.ent.code = 0x06) (hn : n < 32) (ha : (c.ent.args.getD 0 0).toNat = n) :
    cmdRun c s = cmdDone c 0 0 (forceEnd n 2 s) := by
  rw [cmdRun_force c s h, ha, if_neg (by omega), Nat.mod_eq_of_lt (by omega)]

/-- Action 3 of `ORDER_RELEASE` releases the hold of a domain (R111). -/
theorem cmdRun_holdRelease {d : Nat} (h : c.ent.code = 0x07) (hd : d < 128)
    (ha : (c.ent.args.getD 0 0).toNat = 0x300 + d) : cmdRun c s = cmdDone c 0 0 (domHold d false s) := by
  have act : (0x300 + d) / 256 = 3 := by omega
  have obj : (0x300 + d) % 256 = d := by omega
  simp only [cmdRun, h, ha, act, obj]
  rfl

end

/-! ### What `DONE` leaves, and what it records -/

section
variable (c : QCmd) (r d : Nat) (s : State)

theorem cmdDone_hg : (cmdDone c r d s).hg = s.hg := (cmdDone_fr2 c r d s).hg rfl

theorem cmdDone_sh : (cmdDone c r d s).sh = s.sh := (cmdDone_fr2 c r d s).sh rfl

theorem cmdDone_resetNow : (cmdDone c r d s).pwr.resetNow = s.pwr.resetNow :=
  (cmdDone_fr2 c r d s).pw rfl Pwr.resetNow fun _ => rfl

theorem cmdDone_dom (n : Nat) : (cmdDone c r d s).dom n = s.dom n := dom_of ((cmdDone_fr2 c r d s).doms rfl) n

theorem cmdDone_oplArm : (cmdDone c r d s).lg.oplArm = s.lg.oplArm :=
  congrArg (fun k => k.2.2.1) (cmdState_lk _ _ _ _ s)

theorem cmdDone_occurred {code n : Nat} (h : Occurred code n s) : Occurred code n (cmdDone c r d s) :=
  h.mono (cmdDone_evsIn c r d s)

end

/-- The entry of a command that the execution queue holds shows the command's new state (R469). -/
theorem cmdState_ring {q : Word} {s : State} (held : ∃ x ∈ s.lg.execQ, x.ent.jseq = q) (st : Nat) (r : Byte) (d : Half) :
    (cmdState q st r d s).lg.ring =
      s.lg.ring.map (fun e => if e.jseq = q then { e with state := st, result := r, detail := d } else e) := by
  unfold cmdState
  split
  · next none =>
    obtain ⟨x, mem, number⟩ := held
    exact absurd (decide_eq_true number) (List.find?_eq_none.mp none x mem)
  · rfl

/-! ### Forces and holds -/

section
variable {s : State} {n : Nat}

theorem forceEnd_released (hf : (s.chan n).force.isSome = true) : forceEnd n 2 s =
    raise 0x6011 n [Config.eventItem 0x6011 2]
      (restage n (chanMod n (fun c => { c with force := none, forceOver := false }) s)) := if_pos hf

theorem forceEnd_now (r : Nat) : (forceEnd n r s).now = s.now := now_of_cyc ((forceEnd_fr n r).cycp rfl rfl)

/-- What the stage drives leaves the force on a channel alone (`restage_part`). -/
theorem restage_chanMod_force (f : Chan → Chan) (hn : n < s.ch.length) :
    ((restage n (chanMod n f s)).chan n).force = (f (s.chan n)).force ∧
    ((restage n (chanMod n f s)).chan n).forceEnd = (f (s.chan n)).forceEnd := by
  have part := restage_part n n (chanMod n f s)
  rw [chanMod_chan_self f hn] at part
  exact ⟨(congrArg Chan.force part :), (congrArg Chan.forceEnd part :)⟩

theorem forceStart_force (hi : Inv s) (hn : n < 32) (v seconds : Nat) :
    ((forceStart n v seconds s).chan n).force = some (BitVec.ofNat 2 v) ∧
    ((forceStart n v seconds s).chan n).forceEnd = s.now + seconds * 1000000000 := by
  unfold forceStart
  dsimp only
  rw [raise_chan, ← forceEnd_now (s := s) (n := n) 5]
  exact restage_chanMod_force _ (hn.trans_eq (forceEnd_inv hi n 5).chans.symm)

theorem domHold_hold (v : Bool) (hn : n < s.pwr.doms.length) : ((domHold n v s).dom n).hold = v := by
  unfold State.dom domHold
  rw [getD_modify, if_pos ⟨rfl, hn⟩]

end

end Sys2Proof.Machine

open Sys2Proof Sys2Proof.Machine

/-- Settles O27: each command is `DONE` after its meaning, which the change of its state leaves alone. -/
theorem hostCommandsExecute : Obligations.HostCommandsExecute := by
  refine ⟨?inaug, ?reset, ?sleep, ?shutter, ?force, ?release, ?hold, ?mark, ?arm⟩
  case inaug =>
    intro c s hc cycling accepted
    obtain ⟨probing, running, cause, -, -, -, event, -⟩ := startOwn_hg 0x04 s cycling accepted
    rw [cmdRun_inaug s hc, cmdDone_hg]
    exact ⟨probing, cause, running, cmdDone_occurred c 0 0 _ event⟩
  case reset =>
    intro c s hc
    rw [cmdRun_nodeReset s hc, cmdDone_resetNow]
  case sleep =>
    intro c s
    refine ⟨fun hc => ?_, fun hc => ?_⟩
    · rw [cmdRun_sleepReq s hc, cmdDone_tf]
    · rw [cmdRun_wakeReq s hc, cmdDone_tf]
  case shutter =>
    intro c s hc running
    rw [cmdRun_shutterSet s hc, cmdDone_sh]
    refine ⟨fun ha => ?_, fun ha => ?_⟩
    · rw [ha]
      exact shCommand_st 2 1 s running (.inr rfl)
    · rw [ha]
      exact shCommand_st 1 1 s running (.inl rfl)
  case force =>
    intro c s n hi hc hn ha
    obtain ⟨value, ends⟩ := forceStart_force hi hn (c.ent.args.getD 1 0).toNat (c.ent.args.getD 2 0).toNat
    rw [cmdRun_chForce s hc hn ha, cmdDone_ch]
    exact ⟨value, ends, cmdDone_occurred c 0 0 _ (raise_occurred _ _ _ _)⟩
  case release =>
    intro c s n hi hc hn ha hf
    rw [cmdRun_chRelease s hc hn ha, cmdDone_ch, forceEnd_released hf, raise_chan]
    exact ⟨(restage_chanMod_force _ (hn.trans_eq hi.chans.symm)).1, cmdDone_occurred c 0 0 _ (raise_occurred _ _ _ _)⟩
  case hold =>
    intro c s d hi hc hd ha
    rw [cmdRun_holdRelease s hc hd ha, cmdDone_dom]
    exact domHold_hold false (hd.trans_eq hi.doms.symm)
  case mark =>
    intro c s hc held e mem number
    rw [cmdRun_jrnMark s hc, cmdDone, cmdState_ring held] at mem
    obtain ⟨x, -, rfl⟩ := List.mem_map.mp mem
    split at number
    · next same => rw [if_pos same]; exact ⟨rfl, rfl⟩
    · next other => exact absurd number other
  case arm =>
    intro c s hc step log
    rw [cmdRun_arm c s hc (by rw [step]; rfl), cmdDone_oplArm, log]
    rfl

end

section
/-! The frames of register accesses, drawers, host commands and in-band access (16, 18). -/

namespace Sys2Proof.Machine

section
variable {c : Instr}

/-- Whatever a transaction of the host port reads or writes (R448). -/
theorem touches_of_hostTransaction {t : Nat} {h d : Word} {crc : Byte}
    (he : ∀ s, exec c s = act t (hostTransaction h d crc) s) : Touches [.pwr, .eq, .pool, .ch, .rg] c :=
  touches_of_act he fun _ => hostTransaction_fr _ _ _

/-- A command that is given changes the logs and its bank; its effect waits in the execution queue (R469, R470). -/
theorem touches_of_cmdGive {t : Nat} {code : Byte} {p : Path} {args : List Word}
    (he : ∀ s, exec c s = act t (cmdGive code p args) s) : Touches [] c :=
  touches_of_act he fun _ => cmdGive_fr _ _ _

/-- A PDU that arrives is held, answered or rejected (R463). -/
theorem touches_of_pduRow {t ty : Nat} {p : Path} {q : BitVec 48} {d : Bytes}
    (he : ∀ s, exec c s = act t (pduRow ty p q d) s) : Touches [.hg, .tf, .eq, .pool, .rg] c :=
  touches_of_act he fun _ => pduRow_fr _ _ _ _

end

end Sys2Proof.Machine

open Sys2Proof Sys2Proof.Machine

/-- Settles O54: the rows of a family share the frame of the operation they run, and the commands add to it only what any
command may change. -/
theorem registerCommandFrames : Obligations.RegisterCommandFrames :=
  ⟨-- registers and drawers
   fun _ _ _ _ => touches_of_hostTransaction fun _ => rfl,
   fun _ _ _ => touches_of_hostTransaction fun _ => rfl,
   fun _ _ _ _ _ => touches_of_act (fun _ => rfl) fun _ => hpAbort_fr _ _ _ _,
   fun _ => touches_of_act (fun _ => rfl) fun _ => cfgDisarm_fr,
   fun _ _ _ => touches_of_act (fun _ => rfl) fun _ => drawerSelect_fr _ _,
   fun _ _ _ => touches_of_act (fun _ => rfl) fun _ => drawerCursor_fr _ _,
   fun _ _ => touches_of_act (fun _ => rfl) fun _ => drawerNextRow_fr _,
   fun _ _ => touches_of_act (fun _ => rfl) fun _ => drawerPrevRow_fr _,
   fun _ _ => touches_of_act (fun _ => rfl) fun _ => drawerLoadDone_fr _,
   -- host commands
   fun _ _ => touches_of_act (fun _ => rfl) fun _ => commandAccept_fr _,
   fun _ _ _ _ _ _ => touches_of_cmdGive fun _ => rfl,
   fun _ _ _ _ _ _ => touches_of_cmdGive fun _ => rfl,
   fun _ _ _ _ _ _ => touches_of_cmdGive fun _ => rfl,
   fun _ _ _ _ _ _ => touches_of_cmdGive fun _ => rfl,
   fun _ _ _ _ _ _ => touches_of_cmdGive fun _ => rfl,
   fun _ _ _ _ _ _ => touches_of_cmdGive fun _ => rfl,
   fun _ _ _ _ _ _ => touches_of_cmdGive fun _ => rfl,
   fun _ _ _ _ _ _ => touches_of_cmdGive fun _ => rfl,
   fun _ _ _ _ _ _ => touches_of_cmdGive fun _ => rfl,
   fun _ _ _ _ _ _ => touches_of_cmdGive fun _ => rfl,
   fun _ _ _ _ _ _ => touches_of_cmdGive fun _ => rfl,
   fun _ _ _ _ _ => touches_of_cmdGive fun _ => rfl,
   fun _ _ _ _ => touches_of_cmdGive fun _ => rfl,
   fun _ _ _ _ => touches_of_cmdGive fun _ => rfl,
   touches_of_act (fun _ => rfl) fun _ => logClearDisarm_fr,
   fun _ _ _ _ _ _ => touches_of_cmdGive fun _ => rfl,
   fun _ _ _ _ _ _ => touches_of_cmdGive fun _ => rfl,
   fun _ _ _ _ _ _ => touches_of_cmdGive fun _ => rfl,
   fun _ _ _ _ _ _ => touches_of_cmdGive fun _ => rfl,
   fun _ _ _ _ _ _ => touches_of_cmdGive fun _ => rfl,
   fun _ _ _ _ _ _ => touches_of_cmdGive fun _ => rfl,
   fun _ _ _ _ _ _ => touches_of_cmdGive fun _ => rfl,
   -- in-band access
   fun _ _ _ _ => touches_of_pduRow fun _ => rfl,
   fun _ _ _ _ => touches_of_pduRow fun _ => rfl,
   fun _ _ _ _ => touches_of_pduRow fun _ => rfl,
   fun _ _ _ _ => touches_of_pduRow fun _ => rfl,
   fun _ => touches_of_act (fun _ => rfl) fun _ => inbandPduVerified_fr,
   fun _ _ => touches_of_act (fun _ => rfl) fun _ => inbandOpenTimeout_fr _,
   fun _ _ => touches_of_act (fun _ => rfl) fun _ => inbandIdleTimeout_fr _⟩

end

section
/-! The host's operations on the frame pool (09, 16): what `EQ_HOST_GO` makes of the argument word of each. -/

namespace Sys2Proof.Machine

/-! ### The argument word (Table 16.6) -/

/-- The fields of `EQ_HOST_ARG`: buffer, operation, queue or number of buffers, port. -/
theorem hostArg_fields {x : State} {buf op k port : Nat} (hb : buf < 0x1000) (ho : op < 16) (hk : k < 8) (hp : port < 4)
    (h : x.pool.hostArg = w32 (op * 0x10000 + buf + k * 0x100000 + port * 0x1000000)) :
    x.pool.hostArg.toNat % 4096 = buf ∧ x.pool.hostArg.toNat / 0x10000 % 16 = op ∧
    x.pool.hostArg.toNat / 0x100000 % 8 = k ∧ x.pool.hostArg.toNat / 0x1000000 % 4 = port := by
  rw [h, w32_toNat _ (by omega)]
  omega

/-- The number of buffers a count field asks for: 0 stands for 8 (R471). -/
def allocCount (n : BitVec 3) : Nat := if n = 0 then 8 else n.toNat

theorem allocCount_eq (n : BitVec 3) : (if n.toNat = 0 then 8 else n.toNat) = allocCount n := by
  simp [allocCount, ← BitVec.toNat_inj]

theorem allocCount_ne_zero (n : BitVec 3) : allocCount n ≠ 0 := by
  rw [← allocCount_eq]
  split
  · decide
  · assumption

/-! ### The commands -/

section
variable {s : State} (t : Nat) (ha : s.awake = true)
include ha

theorem gives_hostAlloc (n : BitVec 3) (b : Nat) (hn : allocCount n ≤ s.pool.free.length)
    (hb : s.pool.free.head? = some b) : Gives (.hostAlloc t n) s (fun u =>
      u.pool.hostRes = w32 (0x80000000 + b % 4096 * 65536) ∧ u.pool.free = s.pool.free.drop (allocCount n)) := by
  refine gives_host rfl ha fun x arg free _ _ _ => ?_
  obtain ⟨-, op, count, -⟩ := hostArg_fields (buf := 0) (op := 1) (k := n.toNat) (port := 0)
    (by decide) (by decide) n.isLt (by decide) (arg.trans (by simp))
  rw [nvKick_pool, ← free]
  rw [← free] at hn hb
  exact poolOp_alloc x (allocCount n) b op (by rw [count, allocCount_eq]) (allocCount_ne_zero n) hn hb

theorem gives_hostFree (b : BitVec 12) (hf : freeFault s 0x38 (chainOf s b.toNat) = none) :
    Gives (.hostFree t b) s (fun u => u.pool.hostRes = w32 0x80000000 ∧
      u.pool.free = s.pool.free ++ ascending (chainOf s b.toNat)) := by
  refine gives_host rfl ha fun x arg free bufs img _ => ?_
  obtain ⟨buf, op, -, -⟩ := hostArg_fields (buf := b.toNat) (op := 2) (k := 0) (port := 0)
    b.isLt (by decide) (by decide) (by decide) (arg.trans (by simp))
  have chain : chainOf x b.toNat = chainOf s b.toNat := chainGo_of s x bufs img _ _ _
  rw [nvKick_pool, ← free, ← chain]
  exact poolOp_free x b.toNat op buf (by rw [freeFault_of s x bufs img, chain, hf])

theorem gives_hostPost (b : BitVec 12) (n : Fin 4) (q : Fin 8)
    (hf : postFault s 0x38 (chainOf s b.toNat) n.val q.val = 0) :
    Gives (.hostPost t b n q) s (fun u => u.pool.hostRes = w32 0x80000000) := by
  refine gives_host rfl ha fun x arg _ bufs img eq => ?_
  obtain ⟨buf, op, queue, port⟩ := hostArg_fields (buf := b.toNat) (op := 3) (k := q.val) (port := n.val)
    b.isLt (by decide) q.isLt n.isLt arg
  have chain : chainOf x b.toNat = chainOf s b.toNat := chainGo_of s x bufs img _ _ _
  rw [nvKick_pool]
  exact poolOp_post x b.toNat n.val q.val op buf port queue (by rw [postFault_of s x bufs img eq, chain, hf])

theorem gives_hostTake (n : Fin 4) (b : Nat) (r : List Nat) (hi : Inv s) (hq : (s.eqp n.val).hostQ = b :: r) :
    Gives (.hostTake t n) s (fun u => u.pool.hostRes = w32 (0x80000000 + b % 4096 * 65536) ∧
      (u.eqp n.val).hostQ = r) := by
  refine gives_host rfl ha fun x arg _ _ _ eq => ?_
  obtain ⟨-, op, -, port⟩ := hostArg_fields (buf := 0) (op := 4) (k := 0) (port := n.val)
    (by decide) (by decide) (by decide) n.isLt (arg.trans (by simp))
  rw [nvKick_pool, kick_eqp]
  exact poolOp_take x n.val b r op port (by rw [eqp_of eq, hq]) (by rw [eq]; exact hi.hasEqPort n)

/-- An operation that names none of the four (R471). -/
theorem gives_hostOpInvalid (op : BitVec 4) (ho : op.toNat = 0 ∨ 4 < op.toNat) :
    Gives (.hostOpInvalid t op) s (fun u =>
      u.pool.hostRes = w32 0x80000007 ∧ u.pool.bufs = s.pool.bufs ∧ u.pool.free = s.pool.free) := by
  have go : exec (.hostOpInvalid t op) s = act t (hostGo (op.toNat * 0x10000)) s := by
    have none (x : State) : hostOpInvalid op x = hostGo (op.toNat * 0x10000) x := if_neg (by simp; omega)
    exact congrArg (fun f => act t f s) (funext none)
  refine gives_host go ha fun x arg free bufs _ _ => ?_
  obtain ⟨-, code, -, -⟩ := hostArg_fields (buf := 0) (op := op.toNat) (k := 0) (port := 0)
    (by decide) op.isLt (by decide) (by decide) (arg.trans (by simp))
  rw [nvKick_pool, poolOp_bad x op.toNat code ho]
  exact ⟨rfl, bufs, free⟩

end

end Sys2Proof.Machine

open Sys2Proof Sys2Proof.Machine

/-- Settles O20: each operation runs on the argument word its command writes, whose fields are the command's operands. -/
theorem hostPoolOperations : Obligations.HostPoolOperations :=
  ⟨fun _ t n b ha hn hb => gives_hostAlloc t ha n b hn hb,
   fun _ t b ha hf => gives_hostFree t ha b hf,
   fun _ t b n q ha hf => gives_hostPost t ha b n q hf,
   fun _ t n b r hi ha hq => gives_hostTake t ha n b r hi hq,
   fun _ t op ha ho => gives_hostOpInvalid t ha op ho⟩

end

section
/-! Transactions of the host port, slow writes, the end of an arming, and the drawers (16, 18). -/

namespace Sys2Proof.Machine

/-! ### Transactions of the host port (R447, R448) -/

/-- The state in which the answer of a transaction goes out: its status and the data read. -/
def portAnswer (status : Nat) (data : Word) (v : State) : State :=
  emit (.hostPort (BitVec.ofNat 8 status) data)
    { v with rg := { v.rg with answer := (BitVec.ofNat 8 status, data) } }

theorem hostTransaction_answers {h d w : Word} {crc : Byte} {y v : State} {status : Nat} (ha : y.awake = true)
    (hr : transact h d crc y = (status, w, v)) : hostTransaction h d crc y = portAnswer status w v := by
  unfold hostTransaction
  rw [ha, hr]
  rfl

theorem gives_transaction {c : Instr} {t : Nat} {h d w : Word} {crc : Byte} {s v : State} {status : Nat}
    {P : State → Prop} (he : exec c s = act t (hostTransaction h d crc) s) (ha : s.awake = true)
    (hr : transact h d crc (begin_ t s) = (status, w, v))
    (hp : P { nvKick (portAnswer status w v) with pending := s.pending }) : Gives c s P := by
  refine gives_of_act he ?_
  rwa [hostTransaction_answers (y := begin_ t s) ha hr]

/-- A transaction with a bad CRC changes nothing (R447). -/
theorem transact_badCrc {h d : Word} {crc : Byte} (y : State) (ho : headerOk h = true) (hop : headerOp h = 2)
    (hc : crc ≠ hostCrc h d) : transact h d crc y = (2, 0, raise 0x9000 noInst [] y) := by
  simp [transact, ho, hop, hc]

/-- A write of `SCRATCH`, the register at 0x34. -/
theorem transact_scratch (d : Word) (y : State) : transact 0x20000034 d (hostCrc 0x20000034 d) y =
    (0, 0, { y with rg := { y.rg with scratch := d } }) := by
  rw [transact_write 0x20000034 d y (by decide) (by decide),
    show (0x20000034 : Word).toNat % 2 ^ 20 = 0x34 by decide, accessWrite_scratch]

theorem hpAbort_late {h d : Word} {crc : Byte} {n : Nat} {y : State} (ha : y.awake = true) (ho : headerOk h = true)
    (hop : headerOp h = 2) (hn : 18 ≤ n) : hpAbort h d crc n y = (transact h d crc y).2.2 := by
  simp [hpAbort, ha, ho, hop, hn]

/-! ### Other rows of the host's registers -/

theorem cfgDisarm_awake {y : State} (ha : y.awake = true) :
    cfgDisarm y = { y with rg := { y.rg with disarm := true } } := if_pos ha

theorem slowWriteLand_lands {y : State} {o : Nat} {v : Word} (hw : y.pwr.slowWrite = some (o, v))
    (hh : y.pwr.slowHeld = none) :
    slowWriteLand y = { y with pwr := { slowLand o v y.pwr with slowWrite := none } } := by
  simp only [slowWriteLand, hw, hh]

/-- With the OPL armed alone, its arming is over 10 s after it began (R517). -/
theorem disarmAt_opl {y : State} {x : Arm} (ho : y.lg.oplArm = some x) (hi : y.lg.incArm = none) :
    disarmAt y = x.at_ + 10000000000 - y.cyc.base := by
  simp only [disarmAt, ho, hi]

theorem logClearDisarm_opl {y : State} {x : Arm} (ho : y.lg.oplArm = some x) (hi : y.lg.incArm = none)
    (hb : y.cyc.base ≤ x.at_ + 10000000000) : (logClearDisarm y).lg.oplArm = none ∧
      (logClearDisarm y).cyc.phase = max y.cyc.phase (x.at_ + 10000000000 - y.cyc.base) := by
  have passed : ¬ y.cyc.base + max y.cyc.phase (x.at_ + 10000000000 - y.cyc.base) < x.at_ + 10000000000 := by omega
  unfold logClearDisarm
  rw [disarmAt_opl ho hi]
  refine ⟨?_, rfl⟩
  dsimp only
  rw [ho]
  exact if_neg (by rw [decide_eq_true_eq]; exact passed)

/-! ### The drawers (R519-R521) -/

section
variable {y : State} {n : Nat}

/-- Every state of a run has the two drawers (R519). -/
theorem Inv.hasDrawer {s : State} (h : Inv s) (n : Fin 2) : n.val < s.rg.drawers.length :=
  n.isLt.trans_eq h.drawers.symm

/-- A drawer that goes to a view is `BUSY` and shows its old window until the load is done (R520). -/
theorem drawerGo_view (v : View) (hn : n < y.rg.drawers.length) :
    (drawerOf (drawerGo n v y) n).cursor = v.cursor ∧ (drawerOf (drawerGo n v y) n).pos = v.pos ∧
    (drawerOf (drawerGo n v y) n).status.getLsbD 5 = true ∧
    (drawerOf (drawerGo n v y) n).sel = (drawerOf y n).sel ∧
    (drawerOf (drawerGo n v y) n).win = (drawerOf y n).win := by
  obtain ⟨cursor, pos, status, sel, win⟩ := drawerGo_of n v y hn
  refine ⟨cursor, pos, ?_, sel, win⟩
  rw [status, BitVec.getLsbD_or]
  simp

/-- A drawer whose selector is written goes to the oldest item of its new source (R519). -/
theorem drawerSelect_shows (ha : y.awake = true) (hn : n < y.rg.drawers.length) (v : Word) :
    (drawerOf (drawerSelect n v y) n).sel = v &&& 0xFF ∧ (drawerOf (drawerSelect n v y) n).status.getLsbD 5 = true ∧
    (drawerOf (drawerSelect n v y) n).win = (drawerOf y n).win := by
  have row : drawerSelect n v y = drawerSel n v y := if_pos ha
  have chosen := drawerMod_of n (fun d => { d with sel := v &&& 0xFF }) y hn
  have two : n < (drawerMod n (fun d => { d with sel := v &&& 0xFF }) y).rg.drawers.length :=
    hn.trans_eq (List.length_modify _ _ _).symm
  rw [row, drawerSel]
  generalize drawerMod n _ y = z at *
  obtain ⟨-, -, busy, sel, win⟩ := drawerGo_view (viewOldest z (drawerOf z n).source) two
  exact ⟨sel.trans (congrArg Drawer.sel chosen), busy, win.trans (congrArg Drawer.win chosen :)⟩

theorem drawerCursor_awake (ha : y.awake = true) (v : Word) :
    drawerCursor n v y = drawerGo n (viewCursor y (drawerOf y n).source v) y := if_pos ha

theorem drawerNextRow_goes (ha : y.awake = true) (hs : (drawerOf y n).src ≠ 0)
    (hb : (drawerOf y n).status.getLsbD 0 = false) :
    drawerNextRow n y = drawerGo n (viewNext y (drawerOf y n)) y := by
  have row : drawerNextRow n y = drawerNext n y := if_pos ha
  rw [row]
  exact if_neg (by rw [hb]; simp [hs])

theorem drawerPrevRow_goes (ha : y.awake = true) (hs : (drawerOf y n).src ≠ 0)
    (hb : (drawerOf y n).status.getLsbD 1 = false) :
    drawerPrevRow n y = drawerGo n (viewPrev y (drawerOf y n)) y := by
  have row : drawerPrevRow n y = drawerPrev n y := if_pos ha
  rw [row]
  exact if_neg (by rw [hb]; simp [hs])

theorem drawerLoadDone_awake (ha : y.awake = true) : drawerLoadDone n y = drawerLoaded n y := if_pos ha

end

/-! ### The commands -/

section
variable {s : State} (t : Nat)

theorem gives_registerWrite {h d : Word} {crc : Byte} (ha : s.awake = true) (ho : headerOk h = true)
    (hop : headerOp h = 2) (hc : crc = hostCrc h d) : Gives (.registerWrite t h d crc) s (fun u =>
      u.rg.answer = (BitVec.ofNat 8 (accessWrite .host (h.toNat % 2 ^ 20) d (begin_ t s)).1, 0) ∧
      TxItem.hostPort (BitVec.ofNat 8 (accessWrite .host (h.toNat % 2 ^ 20) d (begin_ t s)).1) 0 ∈ u.wire) := by
  subst hc
  refine gives_transaction rfl ha (transact_write h d (begin_ t s) ho hop) ⟨nvKick_rg_answer _, ?_⟩
  rw [nvKick_wire]
  simp [portAnswer]

theorem gives_scratchWrite (d : Word) (ha : s.awake = true) :
    Gives (.registerWrite t 0x20000034 d (hostCrc 0x20000034 d)) s (fun u =>
      u.rg.scratch = d ∧ u.rg.answer = (0, 0) ∧ u.wire = [.hostPort 0 0]) :=
  gives_transaction rfl ha (transact_scratch d (begin_ t s)) ⟨nvKick_rg_scratch _, nvKick_rg_answer _, nvKick_wire _⟩

theorem gives_rcRead {h : Word} {crc : Byte} (ha : s.awake = true) (ho : headerOk h = true) (hop : headerOp h = 1)
    (hc : crc = hostCrc h 0) : Gives (.rcRead t h crc) s (fun u =>
      u.rg.answer = (BitVec.ofNat 8 (accessRead .host (h.toNat % 2 ^ 20) (begin_ t s)).1,
        (accessRead .host (h.toNat % 2 ^ 20) (begin_ t s)).2.1)) := by
  subst hc
  exact gives_transaction rfl ha (transact_read h 0 (begin_ t s) ho hop) (nvKick_rg_answer _)

theorem gives_crcError {h d : Word} {crc : Byte} (ha : s.awake = true) (ho : headerOk h = true)
    (hop : headerOp h = 2) (hc : crc ≠ hostCrc h d) : Gives (.registerWrite t h d crc) s (fun u =>
      u.rg.answer = (2, 0) ∧ u.wire = [.hostPort 2 0] ∧ u.rg.shadow = s.rg.shadow ∧ u.rg.scratch = s.rg.scratch ∧
      Occurred 0x9000 0xFF u) := by
  refine gives_transaction rfl ha (transact_badCrc (begin_ t s) ho hop hc) ⟨nvKick_rg_answer _, ?_, ?_, ?_, ?_⟩
  · rw [nvKick_wire]
    simp [portAnswer]
  · rw [nvKick_rg_shadow]
    simp [portAnswer]
  · rw [nvKick_rg_scratch]
    simp [portAnswer]
  · exact kick_occurred (Occurred.mono (EvsIn.of_gr rfl) (raise_occurred 0x9000 noInst [] (begin_ t s)))

theorem gives_hpAbort (d : Word) {n : Nat} (ha : s.awake = true) (hn : 18 ≤ n) :
    Gives (.hpAbort t 0x20000034 d (hostCrc 0x20000034 d) n) s (fun u =>
      u.rg.scratch = d ∧ u.wire = [] ∧ u.rg.answer = s.rg.answer) := by
  refine gives_of_act rfl ?_
  rw [hpAbort_late (y := begin_ t s) ha (by decide) (by decide) hn, transact_scratch]
  exact ⟨nvKick_rg_scratch _, nvKick_wire _, nvKick_rg_answer _⟩

theorem gives_cfgDisarm (ha : s.awake = true) : Gives (.cfgDisarm t) s (fun u => u.rg.disarm = true) := by
  refine gives_of_act rfl ?_
  rw [cfgDisarm_awake (y := begin_ t s) ha]
  exact nvKick_rg_disarm _

theorem gives_slowWriteLand {o : Nat} {v : Word} (hw : s.pwr.slowWrite = some (o, v)) (hh : s.pwr.slowHeld = none) :
    Gives (.slowWriteLand t) s (fun u => u.pwr.slowWrite = none ∧ u.pwr.wfCount = (slowLand o v s.pwr).wfCount ∧
      u.pwr.opsec = (slowLand o v s.pwr).opsec ∧ u.pwr.pcyc = (slowLand o v s.pwr).pcyc) := by
  refine gives_of_act rfl ?_
  rw [slowWriteLand_lands (y := begin_ t s) hw hh]
  exact ⟨nvKick_pwr_slowWrite _, nvKick_pwr_wfCount _, nvKick_pwr_opsec _, nvKick_pwr_pcyc _⟩

theorem gives_logClearDisarm {x : Arm} (ho : s.lg.oplArm = some x) (hi : s.lg.incArm = none)
    (hb : s.cyc.base ≤ x.at_ + 10000000000) : Gives .logClearDisarm s (fun u =>
      u.lg.oplArm = none ∧ u.cyc.phase = max s.cyc.phase (x.at_ + 10000000000 - s.cyc.base)) := by
  refine gives_of_act rfl ?_
  obtain ⟨disarmed, phase⟩ := logClearDisarm_opl (y := begin_ 0 s) ho hi hb
  have start : (begin_ 0 s).cyc.phase = s.cyc.phase := Nat.max_zero _
  rw [start] at phase
  exact ⟨(nvKick_oplArm _).trans disarmed, (congrArg Cyc.phase (nvKick_cyc _)).trans phase⟩

section
variable (n : Fin 2) (hi : Inv s) (ha : s.awake = true)
include hi ha

theorem gives_drawerSelect (v : Word) : Gives (.drawerSelect t n v) s (fun u =>
    (drawerOf u n).sel = v &&& 0xFF ∧ (drawerOf u n).status.getLsbD 5 = true ∧
    (drawerOf u n).win = (drawerOf s n).win) := by
  refine gives_of_act rfl ?_
  rw [kick_drawer]
  exact drawerSelect_shows (y := begin_ t s) ha (hi.hasDrawer n) v

theorem gives_drawerCursor (v : Word) : Gives (.drawerCursor t n v) s (fun u =>
    (drawerOf u n).cursor = (viewCursor s (drawerOf s n).source v).cursor ∧
    (drawerOf u n).status.getLsbD 5 = true ∧ (drawerOf u n).sel = (drawerOf s n).sel) := by
  refine gives_of_act rfl ?_
  rw [kick_drawer, drawerCursor_awake (y := begin_ t s) ha]
  obtain ⟨cursor, -, busy, sel, -⟩ := drawerGo_view (y := begin_ t s) (viewCursor s (drawerOf s n).source v)
    (hi.hasDrawer n)
  exact ⟨cursor, busy, sel⟩

theorem gives_drawerNext (hs : (drawerOf s n).src ≠ 0) (hb : (drawerOf s n).status.getLsbD 0 = false) :
    Gives (.drawerNext t n) s (fun u => (drawerOf u n).cursor = (viewNext s (drawerOf s n)).cursor ∧
      (drawerOf u n).pos = (viewNext s (drawerOf s n)).pos ∧ (drawerOf u n).status.getLsbD 5 = true) := by
  refine gives_of_act rfl ?_
  rw [kick_drawer, drawerNextRow_goes (y := begin_ t s) ha hs hb]
  obtain ⟨cursor, pos, busy, -, -⟩ := drawerGo_view (y := begin_ t s) (viewNext s (drawerOf s n)) (hi.hasDrawer n)
  exact ⟨cursor, pos, busy⟩

theorem gives_drawerPrev (hs : (drawerOf s n).src ≠ 0) (hb : (drawerOf s n).status.getLsbD 1 = false) :
    Gives (.drawerPrev t n) s (fun u => (drawerOf u n).cursor = (viewPrev s (drawerOf s n)).cursor ∧
      (drawerOf u n).pos = (viewPrev s (drawerOf s n)).pos ∧ (drawerOf u n).status.getLsbD 5 = true) := by
  refine gives_of_act rfl ?_
  rw [kick_drawer, drawerPrevRow_goes (y := begin_ t s) ha hs hb]
  obtain ⟨cursor, pos, busy, -, -⟩ := drawerGo_view (y := begin_ t s) (viewPrev s (drawerOf s n)) (hi.hasDrawer n)
  exact ⟨cursor, pos, busy⟩

theorem gives_drawerLoadDone (hb : (drawerOf s n).status.getLsbD 5 = true) :
    Gives (.drawerLoadDone t n) s (fun u =>
      (drawerOf u n).win = (List.range 16).map (wordAt (viewNow s (drawerOf s n)).bytes) ∧
      (drawerOf u n).cursor = (viewNow s (drawerOf s n)).cursor ∧ (drawerOf u n).status.getLsbD 5 = false) := by
  refine gives_of_act rfl ?_
  rw [kick_drawer, drawerLoadDone_awake (y := begin_ t s) ha]
  obtain ⟨win, cursor, status⟩ := drawerLoaded_of n (begin_ t s) (hi.hasDrawer n) hb
  exact ⟨win, cursor, by rw [status]; exact viewStatus_busy _ _ (Drawer.src_le _)⟩

end

end

end Sys2Proof.Machine

open Sys2Proof Sys2Proof.Machine

/-- Settles O25: each clause is what the meaning of its command is under the conditions named. -/
theorem registersAndDrawers : Obligations.RegistersAndDrawers :=
  ⟨fun _ t _ _ _ => gives_registerWrite t, fun _ t d => gives_scratchWrite t d, fun _ t _ _ => gives_rcRead t,
   fun _ t _ _ _ => gives_crcError t, fun _ t d _ => gives_hpAbort t d, fun _ t => gives_cfgDisarm t,
   fun _ t _ _ => gives_slowWriteLand t, fun _ _ => gives_logClearDisarm,
   fun _ t n v hi ha => gives_drawerSelect t n hi ha v, fun _ t n v hi ha => gives_drawerCursor t n hi ha v,
   fun _ t n => gives_drawerNext t n, fun _ t n => gives_drawerPrev t n, fun _ t n => gives_drawerLoadDone t n⟩

end

section
/-! The acceptance of host commands (16): every row of Table 17.12, and `COMMAND_ACCEPT` for one that waited. -/

namespace Sys2Proof.Machine

/-- A command that waits in its bank is entered once the spacing is over and nothing refuses it (R469). -/
theorem commandAccept_enters {y : State} {p : Path} {code : Byte} {args : List Word} (ha : y.awake = true)
    (hs : (bankOf y p).state = 1) (hw : (bankOf y p).waiting = some (code, args)) (ht : spacingOver y = true)
    (hr : cmdRefusal y p code args = none) : commandAccept p y = cmdEnter p code args y := by
  have judged : commandAccept p y = cmdJudge p y := if_pos (by simp [ha, hs, ht])
  rw [judged, cmdJudge, hw]
  dsimp only
  rw [hr]

theorem gives_commandAccept {s : State} (t : Nat) (p : Path) (code : Byte) (args : List Word) (hi : Inv s)
    (ha : s.awake = true) (hs : (bankOf s p).state = 1) (hw : (bankOf s p).waiting = some (code, args))
    (hc : (bankOf s p).code = code)
    (ht : s.lg.lastAccept.elim true (fun x => x + 100000 ≤ s.cyc.base + max s.cyc.phase t) = true)
    (hr : cmdRefusal s p code args = none) : Gives (.commandAccept t p) s (Entered code p args t s) := by
  refine gives_of_act rfl ?_
  rw [commandAccept_enters (y := begin_ t s) ha hs hw ht hr]
  exact entered_kick code p args t s (begin_ t s) hi.banks rfl rfl hc

end Sys2Proof.Machine

open Sys2Proof Sys2Proof.Machine

/-- Settles O26: every row gives its command on its path, and a command that nothing refuses is entered
(`gives_entered`). -/
theorem hostCommandsEnterTheJournal : Obligations.HostCommandsEnterTheJournal :=
  ⟨fun _ _ _ _ _ _ _ hi => gives_entered hi rfl,
   fun _ _ _ _ _ _ _ hi => gives_entered hi rfl,
   fun _ _ _ _ _ _ _ hi => gives_entered hi rfl,
   fun _ _ _ _ _ _ _ hi => gives_entered hi rfl,
   fun _ _ _ _ _ _ _ hi => gives_entered hi rfl,
   fun _ _ _ _ _ _ _ hi => gives_entered hi rfl,
   fun _ _ _ _ _ _ _ hi => gives_entered hi rfl,
   fun _ _ _ _ _ _ _ hi => gives_entered hi rfl,
   fun _ _ _ _ _ _ _ hi => gives_entered hi rfl,
   fun _ _ _ _ _ _ _ hi => gives_entered hi rfl,
   fun _ _ _ _ _ _ _ hi => gives_entered hi rfl,
   fun _ _ _ _ _ _ _ hi => gives_entered hi rfl,
   fun _ _ _ _ _ _ _ hi => gives_entered hi rfl,
   fun _ _ _ _ _ _ _ hi => gives_entered hi rfl,
   fun _ _ _ _ _ _ _ hi => gives_entered hi rfl,
   fun _ _ _ _ _ _ _ hi => gives_entered hi rfl,
   fun _ _ _ _ _ _ _ hi => gives_entered hi rfl,
   fun _ _ _ _ _ _ _ hi => gives_entered hi rfl,
   fun _ _ _ _ _ _ hi => gives_entered hi rfl,
   fun _ _ _ _ _ hi => gives_entered hi rfl,
   fun _ _ _ _ _ hi => gives_entered hi rfl,
   fun _ t p code args => gives_commandAccept t p code args⟩

end

section
/-! In-band access (16): PDUs that arrive, the PDU the verifier is through with, and the ends of a session. -/

namespace Sys2Proof.Machine

/-! ### PDUs that arrive (R463-R465) -/

section
variable {y : State} {p : Path} {q : BitVec 48} {d : Bytes} {im : Image}

theorem pduRow_arrives {ty : Nat} (hp : p ≠ .host) (ht : field d 0 1 = ty) : pduRow ty p q d y = pduArrive p q d y :=
  if_pos (by simp [inbandPath, hp, ht])

/-- A well-formed PDU reaches the checks of its type while an image is in service (R463, R465). -/
theorem pduArrive_checked (ha : y.awake = true) (hm : y.image = some im) (hf : pduFormat p d = true) :
    pduArrive p q d y =
      if field d 0 1 = 1 then
        if (y.session p).isSome then pduReject p q d 0x06 y else openSession p q y
      else if !pduKnown y p d then pduReject p q d 0x04 y
      else if 4 ≤ y.rg.pdus.length then pduReject p q d 0x05 y
      else { y with rg := { y.rg with pdus := y.rg.pdus ++
        [⟨p, q, d.take (pduLen (field d 0 1) (field d 1 1))⟩] } } := by
  simp [pduArrive, ha, hm, hf]

/-- An `OPEN_REQ` opens a session where none stands (R464). -/
theorem pduArrive_opens (ha : y.awake = true) (hm : y.image = some im) (hf : pduFormat p d = true)
    (ht : field d 0 1 = 1) (hs : y.session p = none) : pduArrive p q d y = openSession p q y := by
  rw [pduArrive_checked ha hm hf, if_pos ht, hs]
  rfl

/-- Every other PDU of the session waits for the verifier, which holds four (R465). -/
theorem pduArrive_held (ha : y.awake = true) (hm : y.image = some im) (hf : pduFormat p d = true)
    (ht : field d 0 1 ≠ 1) (hk : pduKnown y p d = true) (hn : y.rg.pdus.length < 4) :
    pduArrive p q d y = { y with rg := { y.rg with pdus := y.rg.pdus ++
      [⟨p, q, d.take (pduLen (field d 0 1) (field d 1 1))⟩] } } := by
  rw [pduArrive_checked ha hm hf, if_neg ht, hk, if_neg (by decide), if_neg (Nat.not_le.mpr hn)]

theorem openSession_opens (p : Path) (q : BitVec 48) (y : State) : (openSession p q y).rg.nonce = y.rg.nonce + 1 ∧
    (openSession p q y).session p = some
      { nonce := y.rg.nonce + 1, opening := true, sent := false, keyslot := 0, seq := 0, response := [], peer := q } ∧
    (openSession p q y).nv.cfgQ = y.nv.cfgQ ++ [{ nonce := some (y.rg.nonce + 1) }] := by
  unfold openSession
  refine ⟨?_, session_put _ _ _, ?_⟩ <;> cases p <;> rfl

end

/-! ### The PDU the verifier is through with (R464-R467) -/

section
variable {y : State} {w : PduWait} {x : Session}

/-- The verifier has taken the oldest PDU held; `r` are the others (R465). -/
def pduTaken (r : List PduWait) (y : State) : State := { y with rg := { y.rg with pdus := r } }

/-- What a PDU of the path's session without fault does, unless an `IMG_COMMIT` has the verifier (R465). -/
theorem inbandPduVerified_accepts {r : List PduWait} (hw : y.rg.pdus = w :: r) (ha : y.awake = true)
    (hv : verifierTaken y = false) (hs : y.session w.path = some x) (hf : pduFault y x w.path w.pdu = none) :
    inbandPduVerified y = if field w.pdu 0 1 = 3 then pduOpen x w (pduTaken r y)
      else if field w.pdu 0 1 = 4 then pduRequest x w (pduTaken r y)
      else sessionDrop w.path 0x09 (pduTaken r y) := by
  have taken : inbandPduVerified y = pduVerified w (pduTaken r y) := by simp [inbandPduVerified, hw, ha, hv, pduTaken]
  have session : (pduTaken r y).session w.path = some x := hs
  have sound : pduFault (pduTaken r y) x w.path w.pdu = none := hf
  rw [taken]
  simp only [pduVerified, session, sound]

theorem session_pduSend (p m : Path) (q : BitVec 48) (b : Bytes) (y : State) :
    (pduSend p q b y).session m = y.session m := session_of (pduSend_rg _ _ _ _) m

theorem sessionPut_pdus (p : Path) (o : Option Session) (y : State) : (sessionPut p o y).rg.pdus = y.rg.pdus := by
  cases p <;> rfl

/-- An accepted `OPEN`: the session stands (R464). -/
theorem pduOpen_stands (x : Session) (w : PduWait) (y : State) : (pduOpen x w y).rg.pdus = y.rg.pdus ∧
    (pduOpen x w y).session w.path =
      some { x with opening := false, keyslot := field w.pdu 8 1, seq := 0, response := [] } := by
  unfold pduOpen
  dsimp only
  rw [pduSend_rg, raise_rg, session_pduSend, session_of (raise_rg _ _ _ _), session_put]
  exact ⟨sessionPut_pdus _ _ _, rfl⟩

/-- A repeated `REQUEST` is answered by the stored `RESPONSE` alone (R466). -/
theorem pduRequest_repeated (h : w32 (field w.pdu 4 4) = x.seq) :
    pduRequest x w y = pduSend w.path w.source x.response y := if_pos h

end

/-! ### The ends of a session (R464, R467) -/

section
variable {y : State} {p : Path} {x : Session}

theorem inbandOpenTimeout_ends (hs : y.session p = some x) (ho : x.opening = true) (hc : x.sent = true) :
    inbandOpenTimeout p y = sessionPut p none y := by
  simp [inbandOpenTimeout, hs, ho, hc]

/-- An idle session is closed by the node: its client is told, then the session ends (R467). -/
theorem inbandIdleTimeout_closes (hs : y.session p = some x) (ho : x.opening = false) :
    inbandIdleTimeout p y = sessionDrop p 0x08
      (pduSend p x.peer (pduHeader 0x06 0 (x.nonce.setWidth 16) x.seq (BitVec.ofNat 8 0x08)) y) := by
  simp [inbandIdleTimeout, sessionClose, hs, ho]

end

/-! ### The commands -/

section
variable {s : State} (t : Nat) (p : Path) (q : BitVec 48) (d : Bytes)

theorem gives_openReq (im : Image) (hp : p ≠ .host) (ha : s.awake = true) (hm : s.image = some im)
    (hf : pduFormat p d = true) (ht : field d 0 1 = 1) (hs : s.session p = none) :
    Gives (.openReq t p q d) s (fun u => u.rg.nonce = s.rg.nonce + 1 ∧ u.session p = some
        { nonce := s.rg.nonce + 1, opening := true, sent := false, keyslot := 0, seq := 0, response := [], peer := q } ∧
      u.nv.cfgQ = s.nv.cfgQ ++ [{ nonce := some (s.rg.nonce + 1) }]) := by
  refine gives_of_act rfl ?_
  rw [pduRow_arrives hp ht, pduArrive_opens (y := begin_ t s) ha hm hf ht hs, kick_session]
  obtain ⟨nonce, session, store⟩ := openSession_opens p q (begin_ t s)
  exact ⟨(nvKick_rg_nonce _).trans nonce, session, (nvKick_nv_cfgQ _).trans store⟩

/-- An `OPEN`, `REQUEST` or `CLOSE` waits for the verifier (R465). -/
theorem gives_pduHeld {c : Instr} {ty : Nat} (hty : ty ≠ 1) (he : exec c s = act t (pduRow ty p q d) s) (im : Image)
    (hp : p ≠ .host) (ha : s.awake = true) (hm : s.image = some im) (hf : pduFormat p d = true)
    (ht : field d 0 1 = ty) (hk : pduKnown s p d = true) (hn : s.rg.pdus.length < 4) : Gives c s (fun u =>
      u.rg.pdus = s.rg.pdus ++ [⟨p, q, d.take (pduLen (field d 0 1) (field d 1 1))⟩] ∧
      u.session p = s.session p) := by
  refine gives_of_act he ?_
  rw [pduRow_arrives hp ht, pduArrive_held (y := begin_ t s) ha hm hf (by rwa [ht]) hk hn, kick_session]
  exact ⟨nvKick_rg_pdus _, rfl⟩

section
variable {w : PduWait} {r : List PduWait} {x : Session} (hw : s.rg.pdus = w :: r) (ha : s.awake = true)
  (hv : verifierTaken s = false) (hs : s.session w.path = some x) (hf : pduFault s x w.path w.pdu = none)
include hw ha hv hs hf

theorem gives_openVerified (ht : field w.pdu 0 1 = 3) : Gives (.inbandPduVerified t) s (fun u => u.rg.pdus = r ∧
    u.session w.path = some { x with opening := false, keyslot := field w.pdu 8 1, seq := 0, response := [] }) := by
  refine gives_of_act rfl ?_
  rw [inbandPduVerified_accepts (y := begin_ t s) hw ha hv hs hf, if_pos ht, kick_session]
  obtain ⟨taken, session⟩ := pduOpen_stands x w (pduTaken r (begin_ t s))
  exact ⟨(nvKick_rg_pdus _).trans taken, session⟩

theorem gives_requestRepeated (ht : field w.pdu 0 1 = 4) (hq : w32 (field w.pdu 4 4) = x.seq) :
    Gives (.inbandPduVerified t) s (fun u => u.rg.pdus = r ∧ u.session w.path = some x) := by
  refine gives_of_act rfl ?_
  rw [inbandPduVerified_accepts (y := begin_ t s) hw ha hv hs hf, if_neg (by rw [ht]; decide),
    if_pos ht, pduRequest_repeated hq, kick_session, session_pduSend]
  exact ⟨(nvKick_rg_pdus _).trans (congrArg Regs.pdus (pduSend_rg _ _ _ _)), hs⟩

theorem gives_closeVerified (ht : field w.pdu 0 1 = 6) : Gives (.inbandPduVerified t) s (fun u =>
    u.session w.path = none ∧ Occurred 0x9004 (pathCode w.path) u) := by
  refine gives_of_act rfl ?_
  rw [inbandPduVerified_accepts (y := begin_ t s) hw ha hv hs hf, if_neg (by rw [ht]; decide),
    if_neg (by rw [ht]; decide), kick_session]
  obtain ⟨closed, event⟩ := sessionDrop_of w.path 0x09 (pduTaken r (begin_ t s))
    (Option.isSome_of_eq_some hs)
  exact ⟨closed, kick_occurred event⟩

end

theorem gives_inbandOpenTimeout {x : Session} (hs : s.session p = some x) (ho : x.opening = true)
    (hc : x.sent = true) : Gives (.inbandOpenTimeout t p) s (fun u => u.session p = none) := by
  refine gives_of_act rfl ?_
  rw [inbandOpenTimeout_ends (y := begin_ t s) hs ho hc, kick_session]
  exact session_put _ _ _

theorem gives_inbandIdleTimeout {x : Session} (hs : s.session p = some x) (ho : x.opening = false) :
    Gives (.inbandIdleTimeout t p) s (fun u => u.session p = none ∧ Occurred 0x9004 (pathCode p) u) := by
  refine gives_of_act rfl ?_
  rw [inbandIdleTimeout_closes (y := begin_ t s) hs ho, kick_session]
  have told := session_pduSend p p x.peer (pduHeader 0x06 0 (x.nonce.setWidth 16) x.seq (BitVec.ofNat 8 0x08))
    (begin_ t s)
  obtain ⟨closed, event⟩ := sessionDrop_of p 0x08 _ (Option.isSome_of_eq_some (told.trans hs))
  exact ⟨closed, kick_occurred event⟩

end

end Sys2Proof.Machine

open Sys2Proof Sys2Proof.Machine

/-- Settles O28: each clause is what the meaning of its command is under the conditions named. What the node sends leaves
the sessions and the PDUs held alone (`pduSend_rg`). -/
theorem inBandAccess : Obligations.InBandAccess :=
  ⟨fun _ t p q d im => gives_openReq t p q d im,
   fun _ t p q d im => gives_pduHeld t p q d (by decide) rfl im,
   fun _ t p q d im => gives_pduHeld t p q d (by decide) rfl im,
   fun _ t p q d im => gives_pduHeld t p q d (by decide) rfl im,
   fun _ t _ _ _ => gives_openVerified t, fun _ t _ _ _ => gives_requestRepeated t,
   fun _ t _ _ _ => gives_closeVerified t, fun _ t p _ => gives_inbandOpenTimeout t p,
   fun _ t p _ => gives_inbandIdleTimeout t p⟩

end

section
/-! The machine's step, serial numbers, event latches and the full OPL (00, 17, 18). -/

namespace Sys2Proof.Machine

/-! ### The step (log 1) -/

/-- Every command is an effect between `begin_` and the NV controller's next work. -/
theorem exec_eq_act (c : Instr) : ∃ t f, ∀ s, exec c s = act t f s := by
  unfold exec
  cases c <;> exact ⟨_, _, fun _ => rfl⟩

/-! ### Serial numbers (R501) -/

theorem follows_iff (a b : Word) : follows a b = true ↔
    1 ≤ (a.toNat + 2 ^ 32 - b.toNat) % 2 ^ 32 ∧ (a.toNat + 2 ^ 32 - b.toNat) % 2 ^ 32 ≤ 2147483647 := by
  have diff : (a - b).toNat = (a.toNat + 2 ^ 32 - b.toNat) % 2 ^ 32 := by
    rw [BitVec.toNat_sub]
    congr 1
    omega
  simp [follows, diff]

/-- The two differences sum to 2³² or are both 0, so neither lies in the lower half only at 0 and at 2³¹. -/
theorem follows_neither_iff (a b : Word) : (follows a b = false ∧ follows b a = false) ↔
    ((a.toNat + 2 ^ 32 - b.toNat) % 2 ^ 32 = 0 ∨ (a.toNat + 2 ^ 32 - b.toNat) % 2 ^ 32 = 2147483648) := by
  rw [← Bool.not_eq_true, ← Bool.not_eq_true, follows_iff, follows_iff]
  omega

/-! ### Event latches (R481) -/

theorem raise_hit (c i : Nat) (d : List Word) (s : State) : HitStep s (raise c i d s) :=
  (noteEvent_hit _ _ s).trans (raiseTo_hit _ _ _ d s)

/-- Of the logs, an event by itself changes the latch hits alone. -/
theorem noteEvent_lg (c : Half) (i : Byte) (s : State) :
    (noteEvent c i s).lg = { s.lg with evHit := s.lg.evHit ||| latchBits s.lg.evMatch c } := by
  simp only [noteEvent, noteWindow_lg]

theorem latchMatches_of_agree {w : Word} {m code : Half} (hm : m = (w >>> (16 : Nat)).setWidth 16) (h0 : m ≠ 0)
    (h : code &&& m = w.setWidth 16 &&& m) : latchMatches w code = true := by
  subst hm
  simpa [latchMatches, h] using h0

/-- No log takes a latch hit back, so the bit that `noteEvent` sets is set after the event. -/
theorem raise_evHit_of_match {s : State} {k : Nat} {w : Word} (c i : Nat) (d : List Word) (hk : k < 16)
    (hw : s.lg.evMatch[k]? = some w) (hm : latchMatches w (BitVec.ofNat 16 c) = true) :
    (raise c i d s).lg.evHit.getLsbD k = true := by
  obtain ⟨_, kept⟩ := raiseTo_hit (eventLogs c) (BitVec.ofNat 16 c) (BitVec.ofNat 8 i) d s
  refine (kept k).1 ?_
  obtain ⟨hl, rfl⟩ := List.getElem?_eq_some_iff.mp hw
  rw [noteEvent_lg, BitVec.getLsbD_or, latchBits_bit]
  simp [hk, hl, hm]

/-! ### The full OPL (R509) -/

theorem oplAdd_of_noRoom {rep : Bool} {code : Half} {inst : Byte} {data : List Word} {lg : Logs}
    (hn : (rep && oplSame lg code inst data) = false) (hf : lg.oplFull = false)
    (hl : 32768 < lg.oplUsed + oplLen ⟨code, inst, data, lg.oseq, 0, inst = 0xFF && data.isEmpty && !rep⟩) :
    oplAdd rep code inst data lg = { lg with oplFull := true } := by
  simp only [oplAdd, hn, hf, if_neg (Nat.not_le.mpr hl), Bool.false_eq_true, if_false]

theorem oplAdd_of_full {rep : Bool} {code : Half} {inst : Byte} {data : List Word} {lg : Logs}
    (hn : (rep && oplSame lg code inst data) = false) (hf : lg.oplFull = true) :
    oplAdd rep code inst data lg = lg := by
  simp only [oplAdd, hn, hf, Bool.false_eq_true, if_false, if_true]

section
variable {s : State} {rep : Bool} {code : Half} {inst : Byte} {data : List Word}

/-- The record that finds no room leaves the mark and the record of event 0x9043 in the INC. -/
theorem logOpl_of_noRoom (hn : (rep && oplSame s.lg code inst data) = false) (hf : s.lg.oplFull = false)
    (hl : 32768 < s.lg.oplUsed + oplLen ⟨code, inst, data, s.lg.oseq, 0, inst = 0xFF && data.isEmpty && !rep⟩) :
    logOpl rep code inst data s = noteEvent 0x9043 0xFF
      { s with lg := { incAdd false s.pwr.opsec s.pwr.pcyc 0x9043 0xFF [] s.lg with oplFull := true } } := by
  simp only [logOpl, oplAdd_of_noRoom hn hf hl, hf, incAdd_oplFull, Bool.not_false, Bool.and_self, if_true]

theorem logOpl_of_full (hf : s.lg.oplFull = true) (hn : (rep && oplSame s.lg code inst data) = false) :
    logOpl rep code inst data s = s := by
  simp only [logOpl, oplAdd_of_full hn hf, hf, Bool.not_true, Bool.and_false, Bool.false_eq_true, if_false]

end

end Sys2Proof.Machine

open Sys2Proof Sys2Proof.Machine

/-- Settles O1: the two branches of `step`. -/
theorem stepRunsFrontCommand : Obligations.StepRunsFrontCommand :=
  ⟨fun _ _ _ h => step_front h, fun _ h => step_idle h⟩

/-- Settles O2: every command is an `act`, which answers a next state and puts the queue back. -/
theorem everyCommandCompletes : Obligations.EveryCommandCompletes := fun c s =>
  have ⟨_, _, h⟩ := exec_eq_act c
  ⟨_, h s, rfl⟩

/-- Settles O40. -/
theorem serialComparison : Obligations.SerialComparison :=
  fun a b => ⟨follows_iff a b, follows_neither_iff a b⟩

/-- Settles O41: `noteEvent` sets the bits of the latches that match, and what the logs do afterwards changes no hit. -/
theorem eventLatches : Obligations.EventLatches := by
  refine ⟨fun s c i d k w m hk hw hm h0 h => ?sets, fun s c i d k w hw h0 => ?off⟩
  case sets => exact raise_evHit_of_match c i d hk hw (latchMatches_of_agree hm h0 h)
  case off =>
    obtain ⟨_, kept⟩ := raise_hit c i d s
    exact (kept k).2 (by simpa [hw] using h0)

/-- Settles O45: what `logOpl` is where the record finds no room, and where the log is already full. -/
theorem oplFull : Obligations.OplFull := by
  refine ⟨fun s rep code inst data hn hf hl => ?_, fun s rep code inst data hf hn => logOpl_of_full hf hn⟩
  rw [logOpl_of_noRoom hn hf hl, noteEvent_lg]
  exact ⟨incAdd_opl _ _ _ _ _ _ _, rfl, noteEvent_mem _ _ _, rfl⟩

end
